-- ==== Sys2Proof/Word.lean ====
section
/-!
DEFINITION. The word types of the Irdex 2 machine and their plainest arithmetic (spec/00_scope.md R5, R6: bits are
numbered from the least significant, bytes are little-endian).
-/

namespace Sys2Proof

/-- One byte: the smallest addressable unit of every address space. -/
abbrev Byte := BitVec 8

/-- A 32-bit register (V, S, J, LC). -/
abbrev Word := BitVec 32

/-- A 64-bit value: a register pair, a PN register, a CSR, an IP. -/
abbrev DWord := BitVec 64

/-- One instruction word (R134). -/
abbrev IWord := BitVec 96

end Sys2Proof
end

