-- ==== Sys2Proof/Syntax.lean ====
section
/-!
DEFINITION. The instructions of the Irdex 2 machine: one constructor per row of spec/opcode_table.json. The rows of
the instruction set (R143, R144) carry the fields of the instruction word (R134) with the operand codes decoded; the
rows of the other agents (the engines, the scheduler, the allocator, the power controller, the host, the fabric: the
steps of spec/95_what_each_step_holds.md) carry what names the step and the readings the environment supplies to it.
-/

namespace Sys2Proof

/-- The sixteen types and their codes 0x0 to 0xF, in code order (R103). -/
inductive Ty where
  | i8 | i16 | i32 | i64 | n8 | n16 | n32 | n64 | f32 | f16 | b16 | e4m3 | e5m2 | e2m1 | cb2 | e8m0
  deriving DecidableEq, Repr

/-- The special values of R60. -/
inductive SpecialValue where
  | lane | quad | group | thrX | thrY | thrZ | nthrX | nthrY | nthrZ | bidX | bidY | bidZ | nblkX | nblkY | nblkZ
  | core | layer | column | device | helper | nbv | ucause | uinfo | pclk | ftime
  deriving DecidableEq, Repr

/-- An operand: what a 10-bit operand code names (R140). A reserved code is no operand. -/
inductive Opnd where
  /-- A V register. -/
  | v (n : BitVec 8)
  /-- An S register. -/
  | s (n : Fin 24)
  /-- A predicate register P0 to P6. -/
  | p (n : Fin 7)
  /-- The predicate PT. -/
  | pt
  /-- A rejoin mask. -/
  | j (n : BitVec 3)
  /-- A pin register. -/
  | pn (n : BitVec 2)
  /-- A loop counter. -/
  | lc (n : BitVec 2)
  /-- A special value. -/
  | sp (x : SpecialValue)
  /-- The value of field I. -/
  | imm
  /-- ZERO. -/
  | zero
  deriving DecidableEq, Repr

/-- The fields of an instruction word beside its opcode (R134). `gp = 7` names PT. -/
structure Fields where
  fn   : BitVec 4
  gn   : Bool
  gp   : BitVec 3
  d    : Opnd
  a    : Opnd
  b    : Opnd
  c    : Opnd
  ty   : Ty
  rnd  : BitVec 3
  flag : Bool
  imm  : BitVec 32
  deriving DecidableEq, Repr

/-- The readings of one column in a balance sample (R371): the demands of its four cores in 1/1,000 of nominal, and the
current that the column would carry without slope ballast. -/
structure ColumnReading where
  demand : List Nat
  curr   : Nat
  deriving DecidableEq, Repr

/-- The instructions: one constructor per row of spec/opcode_table.json. -/
inductive Instr where
  /-- IADD, opcode 0x00 (R161). Adds two integers, then wraps or saturates the result. -/
  | iadd (f : Fields)
  /-- IADDC, opcode 0x01 (R162). Adds two natural values and a carry predicate, and writes the carry out. -/
  | iaddc (f : Fields)
  /-- ISUB, opcode 0x02 (R161). Subtracts two integers, then wraps or saturates the result. -/
  | isub (f : Fields)
  /-- IMUL, opcode 0x03 (R161). Multiplies two integers, then wraps or saturates the result. -/
  | imul (f : Fields)
  /-- IMULH, opcode 0x04 (R163). Writes the upper half of the 2w-bit product. -/
  | imulh (f : Fields)
  /-- IMAD, opcode 0x05 (R161). Forms an exact multiply-add and wraps or saturates it once. -/
  | imad (f : Fields)
  /-- IMIN, opcode 0x06 (R164). Writes the smaller of two integers. -/
  | imin (f : Fields)
  /-- IMAX, opcode 0x07 (R164). Writes the larger of two integers. -/
  | imax (f : Fields)
  /-- IABS, opcode 0x08 (R164). Writes the absolute value, wrapped or saturated. -/
  | iabs (f : Fields)
  /-- LOGIC, opcode 0x09 (R166). Applies a three-input truth table at every bit. -/
  | logic (f : Fields)
  /-- SHL, opcode 0x0A (R167). Shifts left by an unreduced count. -/
  | shl (f : Fields)
  /-- SHR, opcode 0x0B (R167). Shifts right, logically for N types and arithmetically for I types. -/
  | shr (f : Fields)
  /-- ROT, opcode 0x0C (R167). Rotates left or right. -/
  | rot (f : Fields)
  /-- BFX, opcode 0x0D (R168). Extracts a bit field, sign-extended for I types. -/
  | bfx (f : Fields)
  /-- BFI, opcode 0x0E (R168). Inserts a bit field into C. -/
  | bfi (f : Fields)
  /-- POPC, opcode 0x0F (R169). Counts the ones in A. -/
  | popc (f : Fields)
  /-- CLZ, opcode 0x10 (R169). Counts the leading zeros of A. -/
  | clz (f : Fields)
  /-- BREV, opcode 0x11 (R169). Reverses the bits of A. -/
  | brev (f : Fields)
  /-- ICMP, opcode 0x12 (R170). Compares two integers into a predicate. -/
  | icmp (f : Fields)
  /-- IDOT4, opcode 0x13 (R165). Forms a four-way byte dot product and adds it to an accumulator. -/
  | idot4 (f : Fields)
  /-- FADD, opcode 0x20 (R172). Adds two floating-point values with one rounding. -/
  | fadd (f : Fields)
  /-- FMUL, opcode 0x21 (R172). Multiplies two floating-point values with one rounding. -/
  | fmul (f : Fields)
  /-- FFMA, opcode 0x22 (R172). Forms a fused multiply-add with one rounding. -/
  | ffma (f : Fields)
  /-- FMIN, opcode 0x23 (R174). Writes the floating-point minimum, preferring the non-NaN operand. -/
  | fmin (f : Fields)
  /-- FMAX, opcode 0x24 (R174). Writes the floating-point maximum, preferring the non-NaN operand. -/
  | fmax (f : Fields)
  /-- FCMP, opcode 0x25 (R175). Compares two floating-point values into a predicate. -/
  | fcmp (f : Fields)
  /-- FCLASS, opcode 0x26 (R176). Writes a one-hot class mask for a floating-point value. -/
  | fclass (f : Fields)
  /-- FRCP, opcode 0x27 (R178). Writes the correctly rounded reciprocal. -/
  | frcp (f : Fields)
  /-- FRSQ, opcode 0x28 (R178). Writes the correctly rounded reciprocal square root. -/
  | frsq (f : Fields)
  /-- FSQRT, opcode 0x29 (R178). Writes the square root, rounded in the selected mode. -/
  | fsqrt (f : Fields)
  /-- FEXP2, opcode 0x2A (R178). Writes 2 to the power x, correctly rounded. -/
  | fexp2 (f : Fields)
  /-- FLOG2, opcode 0x2B (R178). Writes log2 x, correctly rounded. -/
  | flog2 (f : Fields)
  /-- SINR, opcode 0x2C (R178). Writes sin(2 pi x) after exact range reduction. -/
  | sinr (f : Fields)
  /-- COSR, opcode 0x2D (R178). Writes cos(2 pi x) after exact range reduction. -/
  | cosr (f : Fields)
  /-- FSCALE, opcode 0x2E (R177). Multiplies a value by 2 to the power b and rounds. -/
  | fscale (f : Fields)
  /-- FFRAC, opcode 0x2F (R177). Writes the exact fraction a minus trunc(a). -/
  | ffrac (f : Fields)
  /-- PKFMA, opcode 0x30 (R173). Forms a fused multiply-add on both 16-bit elements. -/
  | pkfma (f : Fields)
  /-- PKADD, opcode 0x31 (R173). Adds both 16-bit elements. -/
  | pkadd (f : Fields)
  /-- PKMUL, opcode 0x32 (R173). Multiplies both 16-bit elements. -/
  | pkmul (f : Fields)
  /-- MOV, opcode 0x40 (R180). Copies a register or pair, including a pending handle pair. -/
  | mov (f : Fields)
  /-- MOVI, opcode 0x41 (R181). Writes an immediate into the destination. -/
  | movi (f : Fields)
  /-- MOVIH, opcode 0x42 (R181). Writes the upper half of the destination from an immediate. -/
  | movih (f : Fields)
  /-- SEL, opcode 0x43 (R182). Selects A or B by a predicate. -/
  | sel (f : Fields)
  /-- BYSEL, opcode 0x44 (R183). Builds each destination byte from a byte of A or B under a selector. -/
  | bysel (f : Fields)
  /-- CVT, opcode 0x45 (R184). Converts a value between types. -/
  | cvt (f : Fields)
  /-- PACK, opcode 0x46 (R185). Converts two F32 values to a narrow type and packs them. -/
  | pack (f : Fields)
  /-- UNPK, opcode 0x47 (R186). Widens one packed element. -/
  | unpk (f : Fields)
  /-- VLDX, opcode 0x48 (R187). Loads from the thread's register window at a computed byte offset. -/
  | vldx (f : Fields)
  /-- VSTX, opcode 0x49 (R187). Stores into the thread's register window at a computed byte offset. -/
  | vstx (f : Fields)
  /-- RDSP, opcode 0x4A (R188). Reads the call depth or the address of the local stack page. -/
  | rdsp (f : Fields)
  /-- QSWP, opcode 0x50 (R211). Exchanges values within a quad once the quad is complete. -/
  | qswp (f : Fields)
  /-- QBC, opcode 0x51 (R211). Broadcasts the value of one quad lane to the quad. -/
  | qbc (f : Fields)
  /-- GSHF, opcode 0x52 (R212). Shuffles values across the lanes of a whole group. -/
  | gshf (f : Fields)
  /-- GVOTE, opcode 0x53 (R213). Votes a predicate across the group. -/
  | gvote (f : Fields)
  /-- GRED, opcode 0x54 (R214). Reduces the contributors' values with a fixed tree. -/
  | gred (f : Fields)
  /-- GSCAN, opcode 0x55 (R215). Forms an inclusive scan in lane order. -/
  | gscan (f : Fields)
  /-- GMATCH, opcode 0x56 (R216). Writes the mask of lanes that hold an equal value. -/
  | gmatch (f : Fields)
  /-- PLOG, opcode 0x57 (R217). Applies a truth table to three predicates. -/
  | plog (f : Fields)
  /-- PMOV_GET, opcode 0x58 (R218). Moves the predicates into a register. -/
  | pmovGet (f : Fields)
  /-- PMOV_SET, opcode 0x58 (R218). Sets the predicates from a register under a mask. -/
  | pmovSet (f : Fields)
  /-- BRA, opcode 0x60 (R193). Branches, splitting the unit when the guards differ. -/
  | bra (f : Fields)
  /-- BRX, opcode 0x61 (R195). Branches indirectly to an image offset. -/
  | brx (f : Fields)
  /-- CALL, opcode 0x62 (R196). Pushes the return IP and branches to the target. -/
  | call (f : Fields)
  /-- CALLX, opcode 0x63 (R195). Pushes the return IP and calls indirectly. -/
  | callx (f : Fields)
  /-- RET, opcode 0x64 (R197). Pops the link stack and continues at the popped IP. -/
  | ret (f : Fields)
  /-- LOOP, opcode 0x65 (R198). Activates a hardware loop level. -/
  | loop (f : Fields)
  /-- LOOPB, opcode 0x66 (R199). Leaves the innermost active loop level. -/
  | loopb (f : Fields)
  /-- EXIT, opcode 0x67 (R200). Ends the executing thread. -/
  | exit (f : Fields)
  /-- KILL, opcode 0x67 (R200). Ends every thread of the group. -/
  | kill (f : Fields)
  /-- JSET, opcode 0x68 (R201). Writes a rejoin mask and clears its arrived set. -/
  | jset (f : Fields)
  /-- JWAIT, opcode 0x69 (R202). Arrives at a rejoin mask and parks until all of its lanes arrive. -/
  | jwait (f : Fields)
  /-- JDROP, opcode 0x6A (R203). Removes lanes from a rejoin mask and releases them. -/
  | jdrop (f : Fields)
  /-- YIELD, opcode 0x6B (R204). Moves on, ends any hint and holds the unit for 64 pclk. -/
  | yieldI (f : Fields)
  /-- NOP, opcode 0x6C (R205). Has no effect. -/
  | nop (f : Fields)
  /-- BRK, opcode 0x6D (R206). Raises BREAK and parks the block. -/
  | brk (f : Fields)
  /-- OVMAP, opcode 0x6E (R207). Maps or unmaps an overlay in an instruction frame. -/
  | ovmap (f : Fields)
  /-- TRAPU, opcode 0x6F (R208). Delivers a user trap to the user trap entry. -/
  | trapu (f : Fields)
  /-- LD, opcode 0x70 (R224). Loads one item from global memory. -/
  | ld (f : Fields)
  /-- ST, opcode 0x71 (R225). Stores one item to global memory. -/
  | st (f : Fields)
  /-- LDS, opcode 0x72 (R224). Loads one item from the scratchpad. -/
  | lds (f : Fields)
  /-- STS, opcode 0x73 (R225). Stores one item to the scratchpad. -/
  | sts (f : Fields)
  /-- LDK, opcode 0x74 (R224). Loads from the launch's constant space. -/
  | ldk (f : Fields)
  /-- ATOM, opcode 0x75 (R228). Performs an atomic read-modify-write on global memory. -/
  | atom (f : Fields)
  /-- ATOMS, opcode 0x76 (R228). Performs an atomic read-modify-write on the scratchpad. -/
  | atoms (f : Fields)
  /-- RED, opcode 0x77 (R228). Performs an atomic reduction on global memory and returns nothing. -/
  | red (f : Fields)
  /-- PREF, opcode 0x78 (R226). Takes an L1 lease on a line. -/
  | pref (f : Fields)
  /-- PIN, opcode 0x79 (R229). Writes a name into a group pin register. -/
  | pin (f : Fields)
  /-- UNPIN, opcode 0x7A (R229). Clears a group pin register. -/
  | unpin (f : Fields)
  /-- RECLAIM, opcode 0x7B (R230). Searches for pins on a name and returns FREE, DEFERRED or BUSY. -/
  | reclaim (f : Fields)
  /-- FSYS, opcode 0x7C (R101). Holds the thread until all of its earlier accesses are performed. -/
  | fsys (f : Fields)
  /-- BINIT, opcode 0x90 (R236). Initialises a barrier object. -/
  | binit (f : Fields)
  /-- BARV, opcode 0x91 (R237). Records an arrival on a barrier. -/
  | barv (f : Fields)
  /-- BEXP, opcode 0x92 (R237). Adds expected bytes to the current phase. -/
  | bexp (f : Fields)
  /-- BWAIT, opcode 0x93 (R237). Waits until a barrier phase is passed. -/
  | bwait (f : Fields)
  /-- BTEST, opcode 0x94 (R238). Reads a barrier status word without waiting. -/
  | btest (f : Fields)
  /-- BRST, opcode 0x95 (R239). Resets a barrier, abandons its commands and releases its waiters. -/
  | brst (f : Fields)
  /-- HTEST, opcode 0x96 (R241). Reports whether a handle pair is pending or cancelled. -/
  | htest (f : Fields)
  /-- HCANCEL, opcode 0x97 (R242). Asks the engine to cancel a command. -/
  | hcancel (f : Fields)
  /-- CWAIT, opcode 0x98 (R243). Holds the thread until its outstanding counters fall to the given limits. -/
  | cwait (f : Fields)
  /-- XCOPY, opcode 0xA0 (R256). Issues a tile copy to the TCE. -/
  | xcopy (f : Fields)
  /-- XGATH, opcode 0xA1 (R257). Issues a gather by index list. -/
  | xgath (f : Fields)
  /-- XSCAT, opcode 0xA2 (R257). Issues a scatter by index list. -/
  | xscat (f : Fields)
  /-- XFILL, opcode 0xA3 (R258). Issues a fill of a tensor box with a pattern. -/
  | xfill (f : Fields)
  /-- XPUB, opcode 0xA4 (R259). Publishes the held writes on a buffer. -/
  | xpub (f : Fields)
  /-- COLL, opcode 0xA5 (R261). Issues a collective tile transfer. -/
  | coll (f : Fields)
  /-- CSEQ, opcode 0xA6 (R266). Publishes the collective sequence state of a group. -/
  | cseq (f : Fields)
  /-- BLD, opcode 0xB0 (R271). Loads B slot columns from the scratchpad. -/
  | bld (f : Fields)
  /-- BLD_REG, opcode 0xB0 (R271). Loads 32 B slot columns from the lanes' registers. -/
  | bldReg (f : Fields)
  /-- MMAQ, opcode 0xB1 (R272). Performs a quarter matrix multiply-accumulate into ACM. -/
  | mmaq (f : Fields)
  /-- MMAS, opcode 0xB2 (R273). Meets the sector's other groups and performs a sector matrix multiply-accumulate. -/
  | mmas (f : Fields)
  /-- ACALLOC, opcode 0xB3 (R274). Allocates ACM granules, or parks until they are granted. -/
  | acalloc (f : Fields)
  /-- ACFREE, opcode 0xB4 (R276). Releases ACM granules. -/
  | acfree (f : Fields)
  /-- ACZERO, opcode 0xB5 (R276). Zeroes ACM granules. -/
  | aczero (f : Fields)
  /-- ACRD, opcode 0xB6 (R277). Converts accumulator elements into registers. -/
  | acrd (f : Fields)
  /-- ACWR, opcode 0xB7 (R278). Writes accumulator elements from registers. -/
  | acwr (f : Fields)
  /-- SCACC, opcode 0xB8 (R279). Adds a scaled partial to an accumulator with one rounding. -/
  | scacc (f : Fields)
  /-- CBLD, opcode 0xB9 (R280). Loads the codebook RAM from the scratchpad. -/
  | cbld (f : Fields)
  /-- BURN, opcode 0xC0 (R282). Sets the group's ballast request. -/
  | burn (f : Fields)
  /-- SHUNT, opcode 0xC1 (R283). Reserves shunt capacity on the adjacent rails. -/
  | shunt (f : Fields)
  /-- BALQ, opcode 0xC2 (R284). Reads the column's latest balance sample. -/
  | balq (f : Fields)
  /-- PLREQ, opcode 0xC3 (R285). Sets the context's requested performance level. -/
  | plreq (f : Fields)
  /-- ENRD, opcode 0xC4 (R286). Reads the launch's energy counter. -/
  | enrd (f : Fields)
  /-- CSRR, opcode 0xE0 (R314). Reads a privileged register. -/
  | csrr (f : Fields)
  /-- CSRW, opcode 0xE1 (R314). Writes a privileged register. -/
  | csrw (f : Fields)
  /-- ERET, opcode 0xE2 (R315). Returns from a management-core trap. -/
  | eret (f : Fields)
  /-- WFI, opcode 0xE3 (R316). Holds until an enabled interrupt is pending. -/
  | wfi (f : Fields)
  /-- SEV, opcode 0xE4 (R317). Raises a host interrupt of a partition. -/
  | sev (f : Fields)
  /-- INTACK, opcode 0xE5 (R316). Returns the lowest pending enabled source and clears it if it is W1C. -/
  | intack (f : Fields)
  /-- TLBINV_CTX, opcode 0xE6 (R318). Removes every translation of a context. -/
  | tlbinvCtx (f : Fields)
  /-- TLBINV_PAGE, opcode 0xE6 (R318). Removes the translations of one page. -/
  | tlbinvPage (f : Fields)
  /-- CTXSV, opcode 0xE7 (R320). Starts saving the selected block parts. -/
  | ctxsv (f : Fields)
  /-- CTXLD, opcode 0xE8 (R322). Starts restoring the selected block parts onto a column. -/
  | ctxld (f : Fields)
  /-- TOKXF, opcode 0xE9 (R324). Sends tokens to another device in a waggle message. -/
  | tokxf (f : Fields)
  /-- CAPMK, opcode 0xEA (R325). Records or checks a capture mark. -/
  | capmk (f : Fields)
  /-- LOAD_COMPLETE (R69). An outstanding load writes its destination and the ld count falls. -/
  | loadComplete (b g l i : Nat)
  /-- STORE_PERFORMED (R69). An outstanding store takes its place in the total order and the st count falls. -/
  | storePerformed (b g l : Nat)
  /-- MATRIX_COMPLETE (R69). A matrix instruction finishes its V reads and writes and the mx count falls. -/
  | matrixComplete (b g : Nat)
  /-- UNIT_TAKES_FREED_WAY (R31). A unit waiting outside the PC table takes a freed way, oldest first. -/
  | unitTakesFreedWay (core part set : Nat)
  /-- YIELD_HOLD_END (R204). The 64-pclk hold after YIELD expires and the unit becomes ready. -/
  | yieldHoldEnd (b g u : Nat)
  /-- ENGINE_SOURCE_READ (R251). An accepted engine command reads a source chunk of up to 256 bytes. -/
  | engineSourceRead (id off len : Nat)
  /-- ENGINE_PUBLISH (R251). A command publishes its hidden half and arrives on its barrier in one event. -/
  | enginePublish (id : Nat)
  /-- HOLD_SET_PUBLISH (R93). An XPUB publishes the accumulated HOLD set once all of its commands have written. -/
  | holdSetPublish (id : Nat)
  /-- COMMAND_FAIL (R94). A command fails, writes its code, arrives with 0 bytes and completes. -/
  | commandFail (id pos : Nat)
  /-- COMMAND_CANCEL (R242). The cancellation of a command takes effect within 10 us of HCANCEL. -/
  | commandCancel (id : Nat)
  /-- COLL_HASH_MATCH (R263). A member's CE holds all G hashes of a command and decides on match or MISMATCH. -/
  | collHashMatch (id : Nat) (innet : Bool)
  /-- COLL_SHARD_PUBLISH (R262). One shard of a SHARD collective publishes on its own barrier. -/
  | collShardPublish (id j : Nat)
  /-- COLL_MEMBER_FAILURE (R265). A CE learns of a member's failure and fails its matching command with ABANDONED. -/
  | collMemberFailure (ctx gid : Nat) (seq : Word) (dev : Nat)
  /-- COLL_MEMBER_LEAVES (R265). A member leaves, and incomplete commands fail with PEERLOST as the group closes. -/
  | collMemberLeaves (ctx gid dev : Nat)
  /-- COLLECTIVE_FLIT_ARRIVAL (R97). Collective data arrives for a context and goes to its destination or its backlog ring. -/
  | collectiveFlitArrival (ctx gid : Nat) (seq : Word) (dev hash : Nat) (tile : List Byte)
  /-- BACKLOG_REPLAY (R97). On resume the CE replays the backlog ring into hidden halves. -/
  | backlogReplay (ctx : Nat)
  /-- BACKLOG_TIMEOUT (R407). BLTO expires for a stalled sender, whose command fails with BACKLOG. -/
  | backlogTimeout (own : Bool) (ctx gid : Nat) (seq : Word)
  /-- REDUCTION_SWITCH_LEAVES (R408). A switch leaves the trust domain and the CE falls back to endpoint reduction. -/
  | reductionSwitchLeaves (id : Nat)
  /-- PIN_QUERY (R230). A pin-query message of a domain RECLAIM search reaches a device of the job. -/
  | pinQuery (job asid : Nat) (name : DWord)
  /-- FREE_RING_APPEND (R232). The pin unit appends a released name to the free ring and arrives on the barrier. -/
  | freeRingAppend (k : Nat) (clear : Bool)
  /-- RING_APPEND_RETRY (R232). A faulted append is retried at least every 100 us. -/
  | ringAppendRetry (k : Nat)
  /-- PAGE_WALK (R349). A coalesced page-table walk completes and serves its waiting accesses. -/
  | pageWalk (ctx va : Nat)
  /-- REMOTE_ACCESS (R74). A load, store or atomic from another device reaches this device's memory. -/
  | remoteAccess (kind fn : Nat) (ty : Ty) (a : Nat) (x y : DWord)
  /-- FABRIC_TIMEOUT (R401). An access to another device exceeds FTIMEOUT and raises ACCESS or PEERLOST. -/
  | fabricTimeout (cmd dev : Nat)
  /-- HOST_MEM_ACCESS (R396). A host CXL.mem access is accepted and becomes an event. -/
  | hostMemAccess (write prot : Bool) (a size x : Nat)
  /-- ACM_EVICT (R275). The allocator evicts a younger block's granules to its spill area for an older request. -/
  | acmEvict (core sector : Nat)
  /-- ACM_GRANT (R275). A waiting ACM request is granted and the group is released. -/
  | acmGrant (core sector : Nat)
  /-- ACM_SPILL_DONE (R340). The spill of evicted granules completes. -/
  | acmSpillDone (b part sector : Nat)
  /-- ACM_RESTORE (R340). A spilled part's granules are read back and the part leaves the ACM park. -/
  | acmRestore (b part sector : Nat)
  /-- EVENT_POST (R309). A waiting event is written into the event queue and HEAD is incremented. -/
  | eventPost (k : Nat)
  /-- BLKCTL_RESUME (R310). Answers an event with RESUME and reissues the trapping instruction. -/
  | blkctlResume (seq : Word)
  /-- BLKCTL_SKIP (R310). Answers an event with SKIP and moves the threads to their next IP. -/
  | blkctlSkip (seq : Word)
  /-- BLKCTL_KILL (R310). Answers an event with KILL and ends every thread of the block. -/
  | blkctlKill (seq : Word)
  /-- INTERRUPT_ENTRY (R312). The management core enters TRAPVEC for a pending enabled interrupt. -/
  | interruptEntry
  /-- TIMECMP_REACHED (R302). `%ftime` reaches TIMECMP and the TIMER source pends. -/
  | timecmpReached
  /-- PART_SAVE_DONE (R320). A part save completes, frees the core and posts SAVED. -/
  | partSaveDone (b k : Nat)
  /-- PART_RESTORE_DONE (R322). A waiting restore completes on a free slot, reissues commands and posts RESTORED. -/
  | partRestoreDone (b k : Nat)
  /-- QUEUE_DOORBELL (R328). A write of a queue's TAIL rings the doorbell. -/
  | queueDoorbell (host : Bool) (k : Nat) (tail : Word)
  /-- QUEUE_RESUME (R330). A write of 1 to RESUME skips the record at HEAD of a halted queue. -/
  | queueResume (host : Bool) (k : Nat)
  /-- RECORD_CHECK (R331). The scheduler takes the record at HEAD into CHECK and validates it. -/
  | recordCheck (k : Nat)
  /-- WAIT_RECORD_POLL (R330). A WAIT record rereads its word at a signal, at a doorbell or every 10 us. -/
  | waitRecordPoll (k : Nat)
  /-- COMB_ADMIT (R334). A comb of a launch is admitted onto a qualifying column. -/
  | combAdmit (l : Nat)
  /-- BLOCK_SWITCH_OUT (R338). A block whose threads all wait is switched out to the park area. -/
  | blockSwitchOut (b : Nat)
  /-- BLOCK_SWITCH_IN (R338). An admitted or inactive block is made resident on its cores. -/
  | blockSwitchIn (b : Nat)
  /-- PRIO7_PREEMPT (R339). A PRIO 7 comb that has waited 20 us saves lower-priority blocks. -/
  | prio7Preempt (l col : Nat)
  /-- LAUNCH_FLUSH_DONE (R342). A launch's flush completes and its signal and MSI-X are written. -/
  | launchFlushDone (l : Nat)
  /-- PARTITION_RESET (R358). A write of RESET starts the reset of a tenant partition. -/
  | partitionReset (p : BitVec 3)
  /-- PARTITION_RESET_DONE (R358). The partition reset completes and RBUSY is cleared. -/
  | partitionResetDone (p : BitVec 3)
  /-- SWMATRIX_WRITE (R369). A write connects columns to stack supplies, unless it is ignored. -/
  | swmatrixWrite (t : Bool) (x : DWord)
  /-- BALANCE_SAMPLE (R372). A 1 us sample sets the column balance state, ballast, throttle and cap. `falls`: for each
  column, the share of each launch in its fall or mismatch (R383). -/
  | balanceSample (cols : List ColumnReading) (falls : List (List (Nat × Nat))) (power : List Nat) (energy proj : Nat)
  /-- IMBAL_RELEASE (R373). After 100 balanced samples a held column returns to its domain's clock. -/
  | imbalRelease (col : Nat)
  /-- LEVEL_CHANGE (R378). A domain's effective level changes by slewing the voltage and switching the clock. -/
  | levelChange (d : Nat)
  /-- COHORT_WRITE (R379). A write of cohort control sets CEN, NEXT and AT, or LATE. -/
  | cohortWrite (d : BitVec 2) (x : DWord)
  /-- COHORT_LEVEL_ADOPT (R379). At fabric time AT the cohort level becomes NEXT. -/
  | cohortLevelAdopt (d : Nat)
  /-- TOKEN_WINDOW_END (R380). A 1 ms token window ends and DEBT and OVERN are set. -/
  | tokenWindowEnd
  /-- MINT (R381). The authority's write adds tokens to TOKENS. -/
  | mint (x : Word)
  /-- WAGGLE_ACCEPT (R382). A waggle message arrives, adds its tokens and is acknowledged, or is refused. -/
  | waggleAccept (amount : Word) (t0 : Nat)
  /-- WAGGLE_ACK (R324). The sender receives the acknowledgement of a token transfer. -/
  | waggleAck (k : Nat)
  /-- TOKRET (R324). An unacknowledged transfer times out after 100 us, returns its tokens and posts TOKRET. -/
  | tokret (k : Nat)
  /-- THERMAL_POLL (R386). The 100 us poll updates each sensor's reading and level. -/
  | thermalPoll (temps : List Nat)
  /-- THRCFG_WRITE (R385). A write of thresholds or duty is applied or ignored whole. -/
  | thrcfgWrite (i : Nat) (x : DWord)
  /-- CTXID_WRITE (R326). A write creates a context and resets its NBV to 2. -/
  | ctxidWrite (k : BitVec 6) (x : DWord)
  /-- CLRPOIS (R417). Zeroes an HBM unit and clears its poison in one event. -/
  | clrpois (a : Nat)
  /-- PATROL_SCRUB (R418). Patrol scrubbing reads and corrects HBM units. -/
  | patrolScrub (n : Nat) (bad : Option Nat)
  /-- SERDES_CALIBRATION (R418). Each link pauses for calibration every 10 ms. -/
  | serdesCalibration (i : Nat)
  /-- DIODE_CALIBRATION (R418). Each sensor skips one poll for calibration every 10 ms. -/
  | diodeCalibration (i : Nat)
  /-- AGING_MONITOR (R418). Each core's timing margin is measured every second into AGEMARG. -/
  | agingMonitor (margins : List Byte) (core : Nat)
  /-- REPLAY_TIMEOUT (R422). A recorded event missing 10 ms after its successor is ready sets DIV and releases every held event. -/
  | replayTimeout
  /-- HOST_MAILBOX_WRITE (R398). A host write of HSEQ sets INTPEND.HOSTMBOX. -/
  | hostMailboxWrite (i : BitVec 3) (x : DWord)
  /-- MGMT_MAILBOX_WRITE (R398). A management-core write of MSEQ raises MSI-X entry 2047. -/
  | mgmtMailboxWrite (i : BitVec 3) (x : DWord)
  /-- COLL_GROUP_OPEN (R406). A write of V := 1 to a collective group entry opens it with sequence numbers at 0. -/
  | collGroupOpen (ctx : BitVec 6) (entry : BitVec 5) (gid : BitVec 16)
  /-- JOB_REGISTER_WRITE (R404). A write of JV := 0 discards the partition's keys. -/
  | jobRegisterWrite (p : BitVec 3) (x : DWord)
  /-- JOB_KEY_ACCEPT (R404). The SPDM responder accepts or retires a job session key and KEYST moves. -/
  | jobKeyAccept (p : BitVec 3) (job : BitVec 16) (retire : Bool)
  /-- FLIT_RECEIVE (R399). A link flit is authenticated, or is discarded and sent again. -/
  | flitReceive (i : Nat) (ok : Bool)
  /-- LINK_DOWN (R399). After 8 consecutive authentication failures the link goes down and its traffic moves. -/
  | linkDown (i : Nat)
  /-- LINK_REKEY (R399). A link is rekeyed after 2^31 flits. -/
  | linkRekey (i : Nat)
  /-- LINK_UP (R399). A Caerfel link comes up with an SPDM session and keys. -/
  | linkUp (i : Nat) (peer : BitVec 16) (lanes : Nat) (att : Bool)
  /-- SLED_NUMBER_REPORT (R3). The sled controller reports n and the slot to the module. -/
  | sledNumberReport (n slot : Nat)
  /-- FABRIC_JOIN (R3). The fabric manager's join message sets DEVNUM, time and AUTH, or is refused. -/
  | fabricJoin (dev : BitVec 11) (time : Nat) (auth : Bool)
  /-- TIME_SYNC (R402). `%ftime` is slewed to domain time and TSYNC is updated. -/
  | timeSync (err : Nat)
  /-- DEVICE_RESET (R424). A device reset runs the bring-up sequence. -/
  | deviceReset (image : List Byte) (signed : Bool)
  /-- POWER_RESTORE_REQUEST (R426). A host request at least 60 s after a power-down restores power. -/
  | powerRestoreRequest (image : List Byte) (signed : Bool)
  /-- READ_TO_CLEAR (R7). A read of an RC field returns it and clears it. -/
  | readToClear (csr : Bool) (n i : Nat)
  /-- REGISTER_WRITE (R7). A write to a register without its own row applies the access codes. -/
  | registerWrite (host : Bool) (a size : Nat) (val : DWord)
  /-- BALLAST_REQUEST_EXPIRY (R282). A group's BURN request expires after its duration and the core's ballast engine falls to the next highest unexpired request. -/
  | ballastRequestExpiry (b g : Nat)
  /-- SHUNT_RESERVATION_EXPIRY (R283). A group's shunt reservation ends after its duration and its capacity returns to the rail's unreserved pool. -/
  | shuntReservationExpiry (b g : Nat)
  /-- RECLAIM_SEARCH_COMPLETE (R230). The pin search of a held RECLAIM completes, within 2 us locally or 20 us plus fabric latency for a domain search, and D is written (or recorded for restore). -/
  | reclaimSearchComplete (id remote : Nat)
  /-- SLOPE_LIMIT_RAMP (R374). Ballast holding a falling column current steps down by at most 125/1,000 of nominal every 250 ns until it reaches the demand. -/
  | slopeLimitRamp (col want : Nat)
  deriving DecidableEq, Repr

end Sys2Proof
end

