-- ==== Sys2Proof/Decode.lean ====
section
/-!
DEFINITION. The instruction word of spec/06_encoding_and_assembly.md (R134, R140 to R145) and the operand tables of the
four reference chapters: decoding, total on any bits, which rejects a word with the reason code that TRAPINFO carries
(R306), and after it the encoder, written from the same tables.
-/

namespace Sys2Proof

/-! ## Codes -/

/-- The type code of M.type (R103). -/
def Ty.code : Ty → Nat
  | .i8 => 0 | .i16 => 1 | .i32 => 2 | .i64 => 3 | .n8 => 4 | .n16 => 5 | .n32 => 6 | .n64 => 7
  | .f32 => 8 | .f16 => 9 | .b16 => 10 | .e4m3 => 11 | .e5m2 => 12 | .e2m1 => 13 | .cb2 => 14 | .e8m0 => 15

/-- The type of a 4-bit code (R103): every code names a type. -/
def Ty.ofCode (n : BitVec 4) : Ty :=
  match n.toNat with
  | 0 => .i8 | 1 => .i16 | 2 => .i32 | 3 => .i64 | 4 => .n8 | 5 => .n16 | 6 => .n32 | 7 => .n64
  | 8 => .f32 | 9 => .f16 | 10 => .b16 | 11 => .e4m3 | 12 => .e5m2 | 13 => .e2m1 | 14 => .cb2 | _ => .e8m0

/-- The code of a special value (R60). -/
def SpecialValue.code : SpecialValue → Nat
  | .lane => 0x140 | .quad => 0x141 | .group => 0x142 | .thrX => 0x143 | .thrY => 0x144 | .thrZ => 0x145
  | .nthrX => 0x146 | .nthrY => 0x147 | .nthrZ => 0x148 | .bidX => 0x149 | .bidY => 0x14A | .bidZ => 0x14B
  | .nblkX => 0x14C | .nblkY => 0x14D | .nblkZ => 0x14E | .core => 0x14F | .layer => 0x150 | .column => 0x151
  | .device => 0x152 | .helper => 0x153 | .nbv => 0x154 | .ucause => 0x155 | .uinfo => 0x156
  | .pclk => 0x158 | .ftime => 0x15A

/-- The special value of a code; the codes of 0x140 to 0x17F that R60 does not list name none. -/
def SpecialValue.ofCode : Nat → Option SpecialValue
  | 0x140 => some .lane | 0x141 => some .quad | 0x142 => some .group | 0x143 => some .thrX | 0x144 => some .thrY
  | 0x145 => some .thrZ | 0x146 => some .nthrX | 0x147 => some .nthrY | 0x148 => some .nthrZ | 0x149 => some .bidX
  | 0x14A => some .bidY | 0x14B => some .bidZ | 0x14C => some .nblkX | 0x14D => some .nblkY | 0x14E => some .nblkZ
  | 0x14F => some .core | 0x150 => some .layer | 0x151 => some .column | 0x152 => some .device
  | 0x153 => some .helper | 0x154 => some .nbv | 0x155 => some .ucause | 0x156 => some .uinfo
  | 0x158 => some .pclk | 0x15A => some .ftime
  | _ => none

/-- The special values of 64 bits (R60). -/
def SpecialValue.is64 : SpecialValue → Bool
  | .pclk | .ftime => true
  | _ => false

/-- The 10-bit operand code (R140). -/
def Opnd.code : Opnd → Nat
  | .v n => n.toNat
  | .s n => 0x100 + n.val
  | .p n => 0x120 + n.val
  | .pt => 0x127
  | .j n => 0x128 + n.toNat
  | .pn n => 0x130 + n.toNat
  | .lc n => 0x134 + n.toNat
  | .sp x => x.code
  | .imm => 0x1FF
  | .zero => 0x3FF

/-- The operand of a code; a reserved code names none (R140). -/
def Opnd.ofCode (n : Nat) : Option Opnd :=
  if n < 0x100 then some (.v (BitVec.ofNat 8 n))
  else if h : n - 0x100 < 24 then some (.s ⟨n - 0x100, h⟩)
  else if n < 0x120 then none
  else if h : n - 0x120 < 7 then some (.p ⟨n - 0x120, h⟩)
  else if n = 0x127 then some .pt
  else if n < 0x130 then some (.j (BitVec.ofNat 3 (n - 0x128)))
  else if n < 0x134 then some (.pn (BitVec.ofNat 2 (n - 0x130)))
  else if n < 0x138 then some (.lc (BitVec.ofNat 2 (n - 0x134)))
  else if n < 0x140 then none
  else if n < 0x180 then (SpecialValue.ofCode n).map .sp
  else if n = 0x1FF then some .imm
  else if n = 0x3FF then some .zero
  else none

/-! ## Instructions and opcodes -/

/-- The opcode and the fields of an instruction of the instruction set; `none` for a step of another agent, which has
no encoding. -/
def Instr.isa : Instr → Option (Nat × Fields)
  | .iadd f => some (0x00, f)
  | .iaddc f => some (0x01, f)
  | .isub f => some (0x02, f)
  | .imul f => some (0x03, f)
  | .imulh f => some (0x04, f)
  | .imad f => some (0x05, f)
  | .imin f => some (0x06, f)
  | .imax f => some (0x07, f)
  | .iabs f => some (0x08, f)
  | .logic f => some (0x09, f)
  | .shl f => some (0x0A, f)
  | .shr f => some (0x0B, f)
  | .rot f => some (0x0C, f)
  | .bfx f => some (0x0D, f)
  | .bfi f => some (0x0E, f)
  | .popc f => some (0x0F, f)
  | .clz f => some (0x10, f)
  | .brev f => some (0x11, f)
  | .icmp f => some (0x12, f)
  | .idot4 f => some (0x13, f)
  | .fadd f => some (0x20, f)
  | .fmul f => some (0x21, f)
  | .ffma f => some (0x22, f)
  | .fmin f => some (0x23, f)
  | .fmax f => some (0x24, f)
  | .fcmp f => some (0x25, f)
  | .fclass f => some (0x26, f)
  | .frcp f => some (0x27, f)
  | .frsq f => some (0x28, f)
  | .fsqrt f => some (0x29, f)
  | .fexp2 f => some (0x2A, f)
  | .flog2 f => some (0x2B, f)
  | .sinr f => some (0x2C, f)
  | .cosr f => some (0x2D, f)
  | .fscale f => some (0x2E, f)
  | .ffrac f => some (0x2F, f)
  | .pkfma f => some (0x30, f)
  | .pkadd f => some (0x31, f)
  | .pkmul f => some (0x32, f)
  | .mov f => some (0x40, f)
  | .movi f => some (0x41, f)
  | .movih f => some (0x42, f)
  | .sel f => some (0x43, f)
  | .bysel f => some (0x44, f)
  | .cvt f => some (0x45, f)
  | .pack f => some (0x46, f)
  | .unpk f => some (0x47, f)
  | .vldx f => some (0x48, f)
  | .vstx f => some (0x49, f)
  | .rdsp f => some (0x4A, f)
  | .qswp f => some (0x50, f)
  | .qbc f => some (0x51, f)
  | .gshf f => some (0x52, f)
  | .gvote f => some (0x53, f)
  | .gred f => some (0x54, f)
  | .gscan f => some (0x55, f)
  | .gmatch f => some (0x56, f)
  | .plog f => some (0x57, f)
  | .pmovGet f => some (0x58, f)
  | .pmovSet f => some (0x58, f)
  | .bra f => some (0x60, f)
  | .brx f => some (0x61, f)
  | .call f => some (0x62, f)
  | .callx f => some (0x63, f)
  | .ret f => some (0x64, f)
  | .loop f => some (0x65, f)
  | .loopb f => some (0x66, f)
  | .exit f => some (0x67, f)
  | .kill f => some (0x67, f)
  | .jset f => some (0x68, f)
  | .jwait f => some (0x69, f)
  | .jdrop f => some (0x6A, f)
  | .yieldI f => some (0x6B, f)
  | .nop f => some (0x6C, f)
  | .brk f => some (0x6D, f)
  | .ovmap f => some (0x6E, f)
  | .trapu f => some (0x6F, f)
  | .ld f => some (0x70, f)
  | .st f => some (0x71, f)
  | .lds f => some (0x72, f)
  | .sts f => some (0x73, f)
  | .ldk f => some (0x74, f)
  | .atom f => some (0x75, f)
  | .atoms f => some (0x76, f)
  | .red f => some (0x77, f)
  | .pref f => some (0x78, f)
  | .pin f => some (0x79, f)
  | .unpin f => some (0x7A, f)
  | .reclaim f => some (0x7B, f)
  | .fsys f => some (0x7C, f)
  | .binit f => some (0x90, f)
  | .barv f => some (0x91, f)
  | .bexp f => some (0x92, f)
  | .bwait f => some (0x93, f)
  | .btest f => some (0x94, f)
  | .brst f => some (0x95, f)
  | .htest f => some (0x96, f)
  | .hcancel f => some (0x97, f)
  | .cwait f => some (0x98, f)
  | .xcopy f => some (0xA0, f)
  | .xgath f => some (0xA1, f)
  | .xscat f => some (0xA2, f)
  | .xfill f => some (0xA3, f)
  | .xpub f => some (0xA4, f)
  | .coll f => some (0xA5, f)
  | .cseq f => some (0xA6, f)
  | .bld f => some (0xB0, f)
  | .bldReg f => some (0xB0, f)
  | .mmaq f => some (0xB1, f)
  | .mmas f => some (0xB2, f)
  | .acalloc f => some (0xB3, f)
  | .acfree f => some (0xB4, f)
  | .aczero f => some (0xB5, f)
  | .acrd f => some (0xB6, f)
  | .acwr f => some (0xB7, f)
  | .scacc f => some (0xB8, f)
  | .cbld f => some (0xB9, f)
  | .burn f => some (0xC0, f)
  | .shunt f => some (0xC1, f)
  | .balq f => some (0xC2, f)
  | .plreq f => some (0xC3, f)
  | .enrd f => some (0xC4, f)
  | .csrr f => some (0xE0, f)
  | .csrw f => some (0xE1, f)
  | .eret f => some (0xE2, f)
  | .wfi f => some (0xE3, f)
  | .sev f => some (0xE4, f)
  | .intack f => some (0xE5, f)
  | .tlbinvCtx f => some (0xE6, f)
  | .tlbinvPage f => some (0xE6, f)
  | .ctxsv f => some (0xE7, f)
  | .ctxld f => some (0xE8, f)
  | .tokxf f => some (0xE9, f)
  | .capmk f => some (0xEA, f)
  | .loadComplete _ _ _ _ => none
  | .storePerformed _ _ _ => none
  | .matrixComplete _ _ => none
  | .unitTakesFreedWay _ _ _ => none
  | .yieldHoldEnd _ _ _ => none
  | .engineSourceRead _ _ _ => none
  | .enginePublish _ => none
  | .holdSetPublish _ => none
  | .commandFail _ _ => none
  | .commandCancel _ => none
  | .collHashMatch _ _ => none
  | .collShardPublish _ _ => none
  | .collMemberFailure _ _ _ _ => none
  | .collMemberLeaves _ _ _ => none
  | .collectiveFlitArrival _ _ _ _ _ _ => none
  | .backlogReplay _ => none
  | .backlogTimeout _ _ _ _ => none
  | .reductionSwitchLeaves _ => none
  | .pinQuery _ _ _ => none
  | .freeRingAppend _ _ => none
  | .ringAppendRetry _ => none
  | .pageWalk _ _ => none
  | .remoteAccess _ _ _ _ _ _ => none
  | .fabricTimeout _ _ => none
  | .hostMemAccess _ _ _ _ _ => none
  | .acmEvict _ _ => none
  | .acmGrant _ _ => none
  | .acmSpillDone _ _ _ => none
  | .acmRestore _ _ _ => none
  | .eventPost _ => none
  | .blkctlResume _ => none
  | .blkctlSkip _ => none
  | .blkctlKill _ => none
  | .interruptEntry => none
  | .timecmpReached => none
  | .partSaveDone _ _ => none
  | .partRestoreDone _ _ => none
  | .queueDoorbell _ _ _ => none
  | .queueResume _ _ => none
  | .recordCheck _ => none
  | .waitRecordPoll _ => none
  | .combAdmit _ => none
  | .blockSwitchOut _ => none
  | .blockSwitchIn _ => none
  | .prio7Preempt _ _ => none
  | .launchFlushDone _ => none
  | .partitionReset _ => none
  | .partitionResetDone _ => none
  | .swmatrixWrite _ _ => none
  | .balanceSample _ _ _ _ _ => none
  | .imbalRelease _ => none
  | .levelChange _ => none
  | .cohortWrite _ _ => none
  | .cohortLevelAdopt _ => none
  | .tokenWindowEnd => none
  | .mint _ => none
  | .waggleAccept _ _ => none
  | .waggleAck _ => none
  | .tokret _ => none
  | .thermalPoll _ => none
  | .thrcfgWrite _ _ => none
  | .ctxidWrite _ _ => none
  | .clrpois _ => none
  | .patrolScrub _ _ => none
  | .serdesCalibration _ => none
  | .diodeCalibration _ => none
  | .agingMonitor _ _ => none
  | .replayTimeout => none
  | .hostMailboxWrite _ _ => none
  | .mgmtMailboxWrite _ _ => none
  | .collGroupOpen _ _ _ => none
  | .jobRegisterWrite _ _ => none
  | .jobKeyAccept _ _ _ => none
  | .flitReceive _ _ => none
  | .linkDown _ => none
  | .linkRekey _ => none
  | .linkUp _ _ _ _ => none
  | .sledNumberReport _ _ => none
  | .fabricJoin _ _ _ => none
  | .timeSync _ => none
  | .deviceReset _ _ => none
  | .powerRestoreRequest _ _ => none
  | .readToClear _ _ _ => none
  | .registerWrite _ _ _ _ => none
  | .ballastRequestExpiry _ _ => none
  | .shuntReservationExpiry _ _ => none
  | .reclaimSearchComplete _ _ => none
  | .slopeLimitRamp _ _ => none

/-- The constructor of an opcode and FN (R143, R144); BLD's two forms differ in I[24] (R271). -/
def Instr.ofKey (op : Nat) (f : Fields) : Option Instr :=
  match op with
  | 0x00 => some (.iadd f)
  | 0x01 => some (.iaddc f)
  | 0x02 => some (.isub f)
  | 0x03 => some (.imul f)
  | 0x04 => some (.imulh f)
  | 0x05 => some (.imad f)
  | 0x06 => some (.imin f)
  | 0x07 => some (.imax f)
  | 0x08 => some (.iabs f)
  | 0x09 => some (.logic f)
  | 0x0A => some (.shl f)
  | 0x0B => some (.shr f)
  | 0x0C => some (.rot f)
  | 0x0D => some (.bfx f)
  | 0x0E => some (.bfi f)
  | 0x0F => some (.popc f)
  | 0x10 => some (.clz f)
  | 0x11 => some (.brev f)
  | 0x12 => some (.icmp f)
  | 0x13 => some (.idot4 f)
  | 0x20 => some (.fadd f)
  | 0x21 => some (.fmul f)
  | 0x22 => some (.ffma f)
  | 0x23 => some (.fmin f)
  | 0x24 => some (.fmax f)
  | 0x25 => some (.fcmp f)
  | 0x26 => some (.fclass f)
  | 0x27 => some (.frcp f)
  | 0x28 => some (.frsq f)
  | 0x29 => some (.fsqrt f)
  | 0x2A => some (.fexp2 f)
  | 0x2B => some (.flog2 f)
  | 0x2C => some (.sinr f)
  | 0x2D => some (.cosr f)
  | 0x2E => some (.fscale f)
  | 0x2F => some (.ffrac f)
  | 0x30 => some (.pkfma f)
  | 0x31 => some (.pkadd f)
  | 0x32 => some (.pkmul f)
  | 0x40 => some (.mov f)
  | 0x41 => some (.movi f)
  | 0x42 => some (.movih f)
  | 0x43 => some (.sel f)
  | 0x44 => some (.bysel f)
  | 0x45 => some (.cvt f)
  | 0x46 => some (.pack f)
  | 0x47 => some (.unpk f)
  | 0x48 => some (.vldx f)
  | 0x49 => some (.vstx f)
  | 0x4A => some (.rdsp f)
  | 0x50 => some (.qswp f)
  | 0x51 => some (.qbc f)
  | 0x52 => some (.gshf f)
  | 0x53 => some (.gvote f)
  | 0x54 => some (.gred f)
  | 0x55 => some (.gscan f)
  | 0x56 => some (.gmatch f)
  | 0x57 => some (.plog f)
  | 0x58 => some (if f.fn = 0 then .pmovGet f else .pmovSet f)
  | 0x60 => some (.bra f)
  | 0x61 => some (.brx f)
  | 0x62 => some (.call f)
  | 0x63 => some (.callx f)
  | 0x64 => some (.ret f)
  | 0x65 => some (.loop f)
  | 0x66 => some (.loopb f)
  | 0x67 => some (if f.fn = 0 then .exit f else .kill f)
  | 0x68 => some (.jset f)
  | 0x69 => some (.jwait f)
  | 0x6A => some (.jdrop f)
  | 0x6B => some (.yieldI f)
  | 0x6C => some (.nop f)
  | 0x6D => some (.brk f)
  | 0x6E => some (.ovmap f)
  | 0x6F => some (.trapu f)
  | 0x70 => some (.ld f)
  | 0x71 => some (.st f)
  | 0x72 => some (.lds f)
  | 0x73 => some (.sts f)
  | 0x74 => some (.ldk f)
  | 0x75 => some (.atom f)
  | 0x76 => some (.atoms f)
  | 0x77 => some (.red f)
  | 0x78 => some (.pref f)
  | 0x79 => some (.pin f)
  | 0x7A => some (.unpin f)
  | 0x7B => some (.reclaim f)
  | 0x7C => some (.fsys f)
  | 0x90 => some (.binit f)
  | 0x91 => some (.barv f)
  | 0x92 => some (.bexp f)
  | 0x93 => some (.bwait f)
  | 0x94 => some (.btest f)
  | 0x95 => some (.brst f)
  | 0x96 => some (.htest f)
  | 0x97 => some (.hcancel f)
  | 0x98 => some (.cwait f)
  | 0xA0 => some (.xcopy f)
  | 0xA1 => some (.xgath f)
  | 0xA2 => some (.xscat f)
  | 0xA3 => some (.xfill f)
  | 0xA4 => some (.xpub f)
  | 0xA5 => some (.coll f)
  | 0xA6 => some (.cseq f)
  | 0xB0 => some (if f.imm.getLsbD 24 = false then .bld f else .bldReg f)
  | 0xB1 => some (.mmaq f)
  | 0xB2 => some (.mmas f)
  | 0xB3 => some (.acalloc f)
  | 0xB4 => some (.acfree f)
  | 0xB5 => some (.aczero f)
  | 0xB6 => some (.acrd f)
  | 0xB7 => some (.acwr f)
  | 0xB8 => some (.scacc f)
  | 0xB9 => some (.cbld f)
  | 0xC0 => some (.burn f)
  | 0xC1 => some (.shunt f)
  | 0xC2 => some (.balq f)
  | 0xC3 => some (.plreq f)
  | 0xC4 => some (.enrd f)
  | 0xE0 => some (.csrr f)
  | 0xE1 => some (.csrw f)
  | 0xE2 => some (.eret f)
  | 0xE3 => some (.wfi f)
  | 0xE4 => some (.sev f)
  | 0xE5 => some (.intack f)
  | 0xE6 => some (if f.fn = 0 then .tlbinvCtx f else .tlbinvPage f)
  | 0xE7 => some (.ctxsv f)
  | 0xE8 => some (.ctxld f)
  | 0xE9 => some (.tokxf f)
  | 0xEA => some (.capmk f)
  | _ => none

/-- The highest assigned FN of an opcode (R144). -/
def fnMax (op : Nat) : Nat :=
  match op with
  | 0x0C => 1 | 0x12 => 5 | 0x25 => 7 | 0x50 => 2 | 0x52 => 3 | 0x53 => 2 | 0x54 => 5 | 0x55 => 5 | 0x58 => 1
  | 0x67 => 1 | 0x75 => 7 | 0x76 => 7 | 0x77 => 5 | 0xE6 => 1
  | _ => 0

/-! ## Types -/

/-- A type that occupies a register pair in a value position (R157). -/
def Ty.pair : Ty → Bool
  | .i64 | .n64 => true
  | _ => false

/-- The width of an element of the type in bits (R103). -/
def Ty.width : Ty → Nat
  | .i8 | .n8 | .e4m3 | .e5m2 | .e8m0 => 8
  | .i16 | .n16 | .f16 | .b16 | .cb2 => 16
  | .i32 | .n32 | .f32 => 32
  | .i64 | .n64 => 64
  | .e2m1 => 4

/-- The signed integer types. -/
def Ty.signed : Ty → Bool
  | .i8 | .i16 | .i32 | .i64 => true
  | _ => false

/-- The integer types. -/
def Ty.isInt : Ty → Bool
  | .i8 | .i16 | .i32 | .i64 | .n8 | .n16 | .n32 | .n64 => true
  | _ => false

/-! ## Operand positions (R156, R189, R219, R244, R427) -/

/-- What an operand position accepts. -/
inductive Pos where
  /-- The form does not use the field: it holds ZERO (R136). -/
  | unused
  /-- A value source: V, the S class where `s`, IMM where `imm`, and the J, LC, PN and special values of its width;
  `clk`: `%pclk` and `%ftime` may stand there. -/
  | val (pair s imm clk : Bool)
  /-- A value destination: V, ZERO, and S where `s`. -/
  | dst (pair s : Bool)
  /-- An address, data, name or coordinate position: V, S, ZERO, and IMM where `imm`. -/
  | mem (pair imm : Bool)
  /-- A handle: an even V pair. -/
  | handle
  /-- A matrix row: a V code that is a multiple of `k`. -/
  | row (k : Nat)
  /-- The first V register of a row that is written, or ZERO (ACRD). -/
  | rowDst
  /-- An S register, or ZERO (ACALLOC). -/
  | sReg
  /-- A predicate source; ZERO reads 0 where `zero`. -/
  | predSrc (zero : Bool)
  /-- A predicate destination. -/
  | predDst
  /-- A rejoin mask. -/
  | rejoin
  /-- A pin register. -/
  | pin
  deriving DecidableEq, Repr

/-- A register number may start a pair when it is even (R58). -/
def pairOk (pair : Bool) (n : Nat) : Bool := !pair || n % 2 = 0

/-- The operands a position accepts. -/
def Pos.accepts : Pos → Opnd → Bool
  | .unused, .zero => true
  | .val pair _ _ _, .v n => pairOk pair n.toNat
  | .val pair s _ _, .s n => s && pairOk pair n.val
  | .val pair _ _ _, .j _ => !pair
  | .val pair _ _ _, .lc _ => !pair
  | .val pair _ _ _, .pn _ => pair
  | .val pair _ _ clk, .sp x => if x.is64 then clk else !pair
  | .val _ _ imm _, .imm => imm
  | .val _ _ _ _, .zero => true
  | .dst pair _, .v n => pairOk pair n.toNat
  | .dst pair s, .s n => s && pairOk pair n.val
  | .dst _ _, .zero => true
  | .mem pair _, .v n => pairOk pair n.toNat
  | .mem pair _, .s n => pairOk pair n.val
  | .mem _ imm, .imm => imm
  | .mem _ _, .zero => true
  | .handle, .v n => pairOk true n.toNat
  | .row k, .v n => n.toNat % k = 0
  | .rowDst, .v _ => true
  | .rowDst, .zero => true
  | .sReg, .s _ => true
  | .sReg, .zero => true
  | .predSrc _, .p _ => true
  | .predSrc _, .pt => true
  | .predSrc zero, .zero => zero
  | .predDst, .p _ => true
  | .predDst, .pt => true
  | .rejoin, .j _ => true
  | .pin, .pn _ => true
  | _, _ => false

/-- A 64-bit position. -/
def Pos.isPair : Pos → Bool
  | .val pair _ _ _ => pair
  | .dst pair _ => pair
  | .mem pair _ => pair
  | .handle => true
  | _ => false

/-- A position whose register is read. -/
def Pos.isSource : Pos → Bool
  | .val _ _ _ _ | .mem _ _ | .row _ => true
  | _ => false

/-! ## Forms -/

/-- One instruction form: its positions, the highest V register it needs beside its operands (a matrix row, a packed
result), and whether its type, rounding, flag and immediate are as the entry states. -/
structure Form where
  d : Pos
  a : Pos
  b : Pos
  c : Pos
  /-- The V registers the form touches beyond its operand codes: the last one of a row. -/
  top : Nat
  tyOk : Bool
  rndOk : Bool
  /-- M.flag, the unused M.type or M.rnd and field I hold what the entry allows (R136). -/
  resOk : Bool
  deriving DecidableEq, Repr

/-- Some operand names IMM. -/
def Fields.namesImm (f : Fields) : Bool := f.a = .imm || f.b = .imm || f.c = .imm

/-- "IMM value or 0": field I is 0 unless an operand names IMM (R141). -/
def Fields.immVal (f : Fields) : Bool := f.namesImm || f.imm = 0

/-- Some operand names an S register: the form is group-wide (R36). -/
def Fields.namesS (f : Fields) : Bool :=
  [f.d, f.a, f.b, f.c].any fun o => match o with | .s _ => true | _ => false

/-- The V register an operand names, 0 when it names none. -/
def Opnd.vNum : Opnd → Nat
  | .v n => n.toNat
  | _ => 0

/-- Bits `hi` to `lo` of field I. -/
def Fields.immBits (f : Fields) (hi lo : Nat) : Nat := f.imm.toNat % 2 ^ (hi + 1) / 2 ^ lo

def tysArith : List Ty := [.i32, .n32, .i64, .n64]
def tysMove : List Ty := [.i32, .n32, .f32, .i64, .n64]
def tysFloat : List Ty := [.f32, .f16, .b16]
def tysPack : List Ty := [.f16, .b16, .e4m3, .e5m2, .e2m1]
def tysMem : List Ty := [.i8, .n8, .i16, .n16, .f16, .b16, .i32, .n32, .f32, .i64, .n64]
def tysWindow : List Ty := [.i8, .n8, .i16, .n16, .i32, .n32, .f32, .i64, .n64]

/-- The types of an atomic operation (R228). -/
def tysAtom (fn : Nat) : List Ty :=
  if fn ≤ 2 then tysMove else if fn ≤ 5 then tysArith else tysMove

/-- The type pairs of the matrix forms (R124, R268): `none` for a pair outside the table; else the A registers per
lane. -/
def matrixRegs : Ty → Ty → Option Nat
  | .b16, .b16 | .f16, .f16 | .e2m1, .e2m1 | .i8, .i8 => some 16
  | .e4m3, .e4m3 | .e4m3, .e5m2 | .e5m2, .e4m3 | .e5m2, .e5m2 => some 16
  | .e4m3, .cb2 | .e5m2, .cb2 => some 32
  | _, _ => none

/-- Registers of an ACRD result: eight elements packed (R277). -/
def acrdRegs (t : Ty) : Nat := 8 * t.width / 32

/-- A form that takes no type: M.type, M.rnd and M.flag are 0. -/
def plain (f : Fields) (d a b c : Pos) (iOk : Bool) : Form :=
  { d, a, b, c, top := 0, tyOk := true, rndOk := true, resOk := f.ty = .i8 && f.rnd = 0 && !f.flag && iOk }

/-- A typed form whose M.rnd is 0 and whose M.flag is unused. -/
def typed (f : Fields) (tys : List Ty) (d a b c : Pos) (iOk : Bool) : Form :=
  { d, a, b, c, top := 0, tyOk := tys.contains f.ty, rndOk := true, resOk := f.rnd = 0 && !f.flag && iOk }

/-- An integer form with .SAT: M.rnd is 0 or 1 (R111, R160). -/
def typedSat (f : Fields) (tys : List Ty) (d a b c : Pos) (iOk : Bool) : Form :=
  { d, a, b, c, top := 0, tyOk := tys.contains f.ty, rndOk := f.rnd.toNat ≤ 1, resOk := !f.flag && iOk }

/-- A typed form whose M.rnd is 0: another value is a wrong rounding code where the field is a rounding or saturation
code (R160, R171). -/
def typedRn (f : Fields) (tys : List Ty) (d a b c : Pos) (flag iOk : Bool) : Form :=
  { d, a, b, c, top := 0, tyOk := tys.contains f.ty, rndOk := f.rnd = 0, resOk := (flag || !f.flag) && iOk }

/-- A floating-point form with a rounding mode 0 to 5 (R111); with an S code SR is refused (R158). -/
def typedRnd (f : Fields) (tys : List Ty) (d a b c : Pos) (iOk : Bool) : Form :=
  { d, a, b, c, top := 0, tyOk := tys.contains f.ty
    rndOk := f.rnd.toNat ≤ 5 && !(f.rnd = 5 && f.namesS), resOk := iOk }

/-- Field I of an engine command (R248): reserved bits 0, HOLD allowed where `hold`, VAR at most `var`. -/
def engImm (f : Fields) (var : Nat) (hold : Bool) : Bool :=
  f.immBits 31 27 = 0 && f.immBits 26 24 ≤ var && (hold || f.immBits 23 23 = 0) &&
    (f.immBits 22 22 = 1 || f.immBits 21 16 = 0)

/-- BYSEL field `e`: in mode 1 the source index is 0 (R183). -/
def byselOk (f : Fields) (e : Nat) : Bool :=
  let g := f.immBits (5 * e + 4) (5 * e)
  !(g / 8 = 1 && g % 8 != 0)

/-- The CSR numbers of R302. -/
def csrNumbers : List Nat :=
  [0x000, 0x001, 0x002, 0x003, 0x004, 0x005, 0x006, 0x007, 0x008, 0x009, 0x00A, 0x010, 0x011, 0x012, 0x020, 0x021,
   0x030, 0x031, 0x032, 0x033, 0x034, 0x035, 0x036, 0x040]

/-- The form of an opcode under given fields. DEDUCED (notes/assumptions/89.md): ZERO as the D of BALQ, ENRD, ACRD and ACALLOC
discards the result (R56, R142), after the class table of R244, where their own entries name an even V pair, a V register and
an S register (R281, R277, R274). DESIGN CHOICE (notes/assumptions/99.md): IMM as the A of QSWP, GRED, GSCAN and
GMATCH is refused, since R209 gives their field I the one value 0 and no operand, where the class table of R189 lists IMM for a
value source. An unlisted CSR number stands among the checks of the fields, before those of the operand codes
(notes/assumptions/73.md). -/
def formOf (op : Nat) (f : Fields) : Form :=
  let w := f.ty.pair
  -- the positions of R156
  let val := Pos.val w true true true
  let v32 := Pos.val false true true true
  let v32n := Pos.val false true false true
  let dst := Pos.dst w true
  let d32 := Pos.dst false true
  -- the positions of R189
  let cval := Pos.val w false true true
  let cvaln := Pos.val w false false true
  let c32 := Pos.val false false true true
  let cd := Pos.dst w false
  let cd32 := Pos.dst false false
  -- the positions of R219 and R244
  let gb := Pos.mem true false
  let sa := Pos.mem false false
  let dat := Pos.mem w false
  let ev32 := Pos.val false true false false
  let evI := Pos.val false true true false
  match op with
  | 0x00 | 0x02 | 0x03 => typedSat f tysArith dst val val .unused f.immVal
  | 0x01 => typedRn f [.n32, .n64] dst val val (.predSrc false) false f.immVal
  | 0x04 | 0x06 | 0x07 => typedRn f tysArith dst val val .unused false f.immVal
  | 0x05 => typedSat f tysArith dst val val val f.immVal
  | 0x08 => typedSat f [.i32, .i64] dst val .unused .unused f.immVal
  | 0x09 =>
    let vn := Pos.val w true false true
    typedRn f tysArith dst vn vn vn false (f.immBits 31 8 = 0)
  | 0x0A | 0x0B | 0x0C | 0x0D => typedRn f tysArith dst val v32 .unused false f.immVal
  | 0x0E => typedRn f tysArith dst val v32 val false f.immVal
  | 0x0F | 0x10 => typedRn f tysArith d32 val .unused .unused false f.immVal
  | 0x11 => typedRn f tysArith dst val .unused .unused false f.immVal
  | 0x12 => typedRn f tysArith .predDst val val .unused false f.immVal
  | 0x13 => typedSat f [.i8, .n8] d32 v32 v32 v32 f.immVal
  | 0x20 | 0x21 => typedRnd f tysFloat d32 v32 v32 .unused f.immVal
  | 0x22 => typedRnd f tysFloat d32 v32 v32 v32 f.immVal
  | 0x23 | 0x24 => typedRn f tysFloat d32 v32 v32 .unused true f.immVal
  | 0x25 => typedRn f tysFloat .predDst v32 v32 .unused true f.immVal
  | 0x26 => typedRn f [.f32, .f16, .b16, .e4m3, .e5m2] d32 v32 .unused .unused false f.immVal
  | 0x27 | 0x28 | 0x2A | 0x2B | 0x2C | 0x2D => typedRn f [.f32] d32 v32 .unused .unused true f.immVal
  | 0x29 => typedRnd f tysFloat d32 v32 .unused .unused f.immVal
  | 0x2E => typedRnd f tysFloat d32 v32 v32 .unused f.immVal
  | 0x2F => typedRn f tysFloat d32 v32 .unused .unused true f.immVal
  | 0x30 => typedRnd f [.f16, .b16] d32 v32 v32 v32 f.immVal
  | 0x31 | 0x32 => typedRnd f [.f16, .b16] d32 v32 v32 .unused f.immVal
  | 0x40 => typed f tysMove dst val .unused .unused f.immVal
  | 0x41 => typed f tysMove dst .unused .unused .unused true
  | 0x42 => typed f [.n32, .n64] dst .unused .unused .unused (w || f.immBits 31 16 = 0)
  | 0x43 => typed f tysMove dst val val (.predSrc false) f.immVal
  | 0x44 => typed f [.n32] d32 v32n v32n .unused
      (f.immBits 31 20 = 0 && byselOk f 0 && byselOk f 1 && byselOk f 2 && byselOk f 3)
  | 0x45 =>
    let st := Ty.ofCode (BitVec.ofNat 4 (f.immBits 3 0))
    let ok (t : Ty) := !(t = .cb2 || t = .e8m0)
    { d := dst, a := .val st.pair true false true, b := .unused, c := .unused, top := 0, tyOk := ok f.ty && ok st
      rndOk := f.rnd.toNat ≤ 5 && !(f.ty.isInt && st.isInt && f.rnd != 0) && !(f.rnd = 5 && f.namesS)
      resOk := f.immBits 31 4 = 0 }
  | 0x46 => typedRnd f tysPack d32 v32 v32 (if f.ty = .f16 || f.ty = .b16 then .unused else v32) f.immVal
  | 0x47 => typed f [.f16, .b16, .e4m3, .e5m2, .e2m1, .i8, .n8, .i16, .n16] d32 v32 v32 .unused f.immVal
  | 0x48 => typed f tysWindow cd (.val false false false true) .unused .unused true
  | 0x49 => typed f tysWindow .unused (.val false false false true) (.val w false false true) .unused true
  | 0x4A => typed f [.n32, .n64] cd .unused .unused .unused (f.imm = 0)
  | 0x50 => typed f [.n32, .n64] cd cvaln .unused .unused (f.imm = 0)
  | 0x51 | 0x52 => typed f [.n32, .n64] cd cval c32 .unused f.immVal
  | 0x53 => plain f (if f.fn = 2 then cd32 else .predDst) (.predSrc true) .unused .unused (f.imm = 0)
  | 0x54 | 0x55 =>
    let tys := if f.fn.toNat ≤ 2 then tysMove else tysArith
    typed f tys cd cvaln .unused .unused (f.imm = 0)
  | 0x56 => typed f [.n32, .n64] cd32 cvaln .unused .unused (f.imm = 0)
  | 0x57 => plain f .predDst (.predSrc true) (.predSrc true) (.predSrc true) (f.immBits 31 8 = 0)
  | 0x58 => if f.fn = 0 then plain f cd32 .unused .unused .unused (f.imm = 0)
      else plain f .unused (.val false false false true) .unused .unused (f.immBits 31 7 = 0)
  | 0x60 => { plain f .unused .unused .unused .unused true with resOk := f.ty = .i8 && f.rnd = 0 }
  | 0x61 | 0x63 => plain f .unused c32 .unused .unused f.immVal
  | 0x62 => plain f .unused .unused .unused .unused true
  | 0x64 | 0x66 | 0x67 | 0x6B | 0x6C => plain f .unused .unused .unused .unused (f.imm = 0)
  | 0x65 => plain f .unused (.val false false false true) .unused .unused true
  | 0x68 | 0x6A => plain f .rejoin c32 .unused .unused f.immVal
  | 0x69 => plain f .unused .rejoin .unused .unused (f.imm = 0)
  | 0x6D => plain f .unused .unused .unused .unused (f.immBits 31 16 = 0)
  | 0x6E => plain f .unused c32 c32 .unused f.immVal
  | 0x6F => plain f .unused .unused .unused .unused true
  | 0x70 => typed f tysMem cd gb .unused .unused true
  | 0x71 => typed f tysMem .unused gb dat .unused true
  | 0x72 | 0x74 => typed f tysMem cd sa .unused .unused true
  | 0x73 => typed f tysMem .unused sa dat .unused true
  | 0x75 => typed f (tysAtom f.fn.toNat) cd gb dat (if f.fn = 7 then dat else .unused) true
  | 0x76 => typed f (tysAtom f.fn.toNat) cd sa dat (if f.fn = 7 then dat else .unused) true
  | 0x77 => typed f (tysAtom f.fn.toNat) .unused gb dat .unused true
  | 0x78 => plain f .unused gb .unused .unused true
  | 0x79 => plain f .pin (.mem true true) .unused .unused f.immVal
  | 0x7A => plain f .pin .unused .unused .unused (f.imm = 0)
  | 0x7B => plain f cd32 (.mem true true) sa gb f.immVal
  | 0x7C => plain f .unused .unused .unused .unused (f.imm = 0)
  | 0x90 => plain f .unused sa sa sa true
  | 0x91 => plain f .unused sa .unused .unused true
  | 0x92 | 0x95 => plain f .unused sa sa .unused true
  | 0x93 | 0x94 => plain f cd32 sa sa .unused true
  | 0x96 => plain f cd32 .handle .unused .unused (f.imm = 0)
  | 0x97 => plain f .unused .handle .unused .unused (f.imm = 0)
  | 0x98 => plain f .unused .unused .unused .unused (f.immBits 31 16 = 0)
  | 0xA0 => plain f .handle sa sa sa (engImm f 3 true && !(f.immBits 26 24 = 3 && f.immBits 23 23 = 1))
  | 0xA1 | 0xA2 => plain f .handle sa sa sa (engImm f 1 true)
  | 0xA3 => plain f .handle sa ev32 sa (engImm f 1 true)
  | 0xA4 => plain f .handle (if f.immBits 24 24 = 1 then gb else sa) .unused sa
      (f.immBits 26 24 ≤ 1 && f.immBits 31 27 = 0 && f.immBits 23 0 = 0)
  | 0xA5 => plain f .handle (if f.immBits 24 24 = 1 then gb else sa) sa sa (engImm f 3 false)
  | 0xA6 => plain f .handle sa ev32 sa (f.imm = 0)
  | 0xB0 =>
    if f.immBits 24 24 = 0 then plain f .unused sa ev32 .unused
      (f.immBits 31 17 = 0 && 1 ≤ f.immBits 16 8 && f.immBits 16 8 ≤ 256 && f.immBits 7 0 + f.immBits 16 8 ≤ 256)
    else { plain f .unused (.row 4) ev32 .unused
      (f.immBits 31 25 = 0 && f.immBits 23 17 = 0 && f.immBits 16 8 = 32 && f.immBits 7 0 + 32 ≤ 256)
        with top := f.a.vNum + 15 }
  | 0xB1 =>
    let tb := Ty.ofCode (BitVec.ofNat 4 (f.immBits 15 12))
    let n := f.immBits 10 0
    { d := .unused, a := .row 4, b := ev32, c := ev32, top := f.a.vNum + (matrixRegs f.ty tb).getD 1 - 1
      tyOk := (matrixRegs f.ty tb).isSome, rndOk := true
      resOk := f.rnd = 0 && !f.flag && f.immBits 31 16 = 0 && n % 16 = 0 && 16 ≤ n && n ≤ 256 }
  | 0xB2 =>
    let tb := Ty.ofCode (BitVec.ofNat 4 (f.immBits 15 12))
    let n := f.immBits 10 0
    { d := .unused, a := .row 4, b := ev32, c := ev32, top := f.a.vNum + (matrixRegs f.ty tb).getD 1 - 1
      tyOk := (matrixRegs f.ty tb).isSome, rndOk := true
      resOk := f.rnd = 0 && !f.flag && f.immBits 31 24 = 0 && n % 64 = 0 && 64 ≤ n && n ≤ 1024 }
  | 0xB3 => plain f .sReg evI .unused .unused f.immVal
  | 0xB4 | 0xB5 => plain f .unused evI evI .unused f.immVal
  | 0xB6 =>
    let st := Ty.ofCode (BitVec.ofNat 4 (f.immBits 3 0))
    { d := .rowDst, a := ev32, b := .unused, c := .unused
      top := if f.d = .zero then 0 else f.d.vNum + acrdRegs f.ty - 1
      tyOk := !(f.ty = .cb2 || f.ty = .e8m0) && (st = .f32 || st = .i32)
      rndOk := f.rnd.toNat ≤ 5 && !(st = .i32 && f.ty.isInt && f.rnd != 0)
      resOk := f.immBits 7 4 = 0 && f.immBits 31 18 = 0 && f.immBits 17 8 % 8 = 0 && f.immBits 17 8 ≤ 1016 }
  | 0xB7 => { typed f [.f32, .i32] .unused (.row 1) .unused ev32
      (f.immBits 7 0 = 0 && f.immBits 31 18 = 0 && f.immBits 17 8 % 8 = 0 && f.immBits 17 8 ≤ 1016)
        with top := f.a.vNum + 7 }
  | 0xB8 => typed f [.f32] .unused ev32 (.row 1) ev32 (f.imm = 0)
  | 0xB9 => plain f .unused sa .unused .unused (f.imm = 0)
  | 0xC0 => plain f .unused evI .unused .unused f.immVal
  | 0xC1 | 0xC3 => plain f d32 evI .unused .unused f.immVal
  | 0xC2 | 0xC4 => plain f (.dst true false) .unused .unused .unused (f.imm = 0)
  | 0xE0 => typed f [.n32, .n64] cd .unused (.val false false false true) .unused
      (csrNumbers.contains (f.immBits 11 0) && f.immBits 31 12 = 0)
  | 0xE1 => typed f [.n32, .n64] .unused cvaln (.val false false false true) .unused
      (csrNumbers.contains (f.immBits 11 0) && f.immBits 31 12 = 0)
  | 0xE2 | 0xE3 => plain f .unused .unused .unused .unused (f.imm = 0)
  | 0xE4 | 0xEA => plain f .unused c32 .unused .unused f.immVal
  | 0xE5 => plain f cd32 .unused .unused .unused (f.imm = 0)
  | 0xE6 => plain f .unused c32 (if f.fn = 0 then .unused else .val true false true true) .unused f.immVal
  | 0xE7 | 0xE8 => plain f cd32 (.val true false true true) c32 .unused f.immVal
  | 0xE9 => plain f cd32 c32 c32 .unused f.immVal
  | _ => plain f .unused .unused .unused .unused false

/-- The unused operand fields hold ZERO (R136). -/
def Form.unusedOk (m : Form) (f : Fields) : Bool :=
  [(m.d, f.d), (m.a, f.a), (m.b, f.b), (m.c, f.c)].all fun x => x.1 != .unused || x.2 == .zero

/-- A V register an operand names lies in the window (R57), the upper one of a pair included. -/
def inWindow (win : Nat) (p : Pos) (o : Opnd) : Bool :=
  match o with
  | .v n => n.toNat + (if p.isPair then 1 else 0) < win
  | _ => true

/-- Every operand is one its position accepts and lies in a window of `win` registers (R57, R140). -/
def Form.operandsOk (m : Form) (win : Nat) (f : Fields) : Bool :=
  ([(m.d, f.d), (m.a, f.a), (m.b, f.b), (m.c, f.c)].all fun x => x.1.accepts x.2 && inWindow win x.1 x.2)
    && m.top < win

/-- Why a word is no instruction: the reason code of ILLEGAL in TRAPINFO (R306). -/
inductive DecodeError where
  | illegal (reason : Nat)
  deriving DecidableEq, Repr

/-- The step-2 checks of R138 that depend on the word alone, in the order of that rule: opcode and FN, reserved and
unused fields, operand codes, type and rounding. -/
def checkFields (win op : Nat) (f : Fields) : Except DecodeError Instr :=
  match Instr.ofKey op f with
  | none => .error (.illegal 0)
  | some i =>
    if fnMax op < f.fn.toNat then .error (.illegal 0)
    else
      let m := formOf op f
      if !(m.unusedOk f && m.resOk) then .error (.illegal 1)
      else if !(m.operandsOk win f) then .error (.illegal 2)
      else if !(m.tyOk && m.rndOk) then .error (.illegal 3)
      else .ok i

/-! ## The word -/

/-- Bits `lo` to `lo + n - 1` of an instruction word. -/
def fieldOf (w : IWord) (lo n : Nat) : Nat := w.toNat / 2 ^ lo % 2 ^ n

/-- The step-2 checks and the decoding of an instruction word, for a kernel whose window holds `win` registers. An
operand code that names nothing in a used field is an operand fault, in an unused one a reserved-field fault. -/
def decodeAt (win : Nat) (w : IWord) : Except DecodeError Instr :=
  let op := fieldOf w 88 8
  let mk (d a b c : Opnd) : Fields :=
    { fn := BitVec.ofNat 4 (fieldOf w 84 4), gn := fieldOf w 83 1 = 1, gp := BitVec.ofNat 3 (fieldOf w 80 3)
      d, a, b, c, ty := Ty.ofCode (BitVec.ofNat 4 (fieldOf w 36 4)), rnd := BitVec.ofNat 3 (fieldOf w 33 3)
      flag := fieldOf w 32 1 = 1, imm := BitVec.ofNat 32 (fieldOf w 0 32) }
  match Opnd.ofCode (fieldOf w 70 10), Opnd.ofCode (fieldOf w 60 10), Opnd.ofCode (fieldOf w 50 10),
    Opnd.ofCode (fieldOf w 40 10) with
  | some d, some a, some b, some c => checkFields win op (mk d a b c)
  | d, a, b, c =>
    -- some code names no operand: put ZERO there, to see which check the word fails first
    let f := mk (d.getD .zero) (a.getD .zero) (b.getD .zero) (c.getD .zero)
    match Instr.ofKey op f with
    | none => .error (.illegal 0)
    | some _ =>
      if fnMax op < f.fn.toNat then .error (.illegal 0)
      else
        let m := formOf op f
        if !(m.unusedOk f && m.resOk) then .error (.illegal 1)
        else if [(m.d, d), (m.a, a), (m.b, b), (m.c, c)].any fun x => x.1 == .unused && x.2.isNone then
          .error (.illegal 1)
        else .error (.illegal 2)

/-- Decoding for the widest window, 256 registers. -/
def decode (w : IWord) : Except DecodeError Instr := decodeAt 256 w

/-- A little-endian byte list as a number (R6). -/
def leNat : List Byte → Nat
  | [] => 0
  | b :: bs => b.toNat + 256 * leNat bs

/-- Decoding from bytes as the hardware stores them: the first twelve, little-endian (R129, R134), and the rest. -/
def decodeBytes (bs : List Byte) : Except DecodeError (Instr × List Byte) :=
  if bs.length < 12 then .error (.illegal 0)
  else
    match decode (BitVec.ofNat 96 (leNat (bs.take 12))) with
    | .ok i => .ok (i, bs.drop 12)
    | .error e => .error e

/-- The bytes of a number, lowest first. -/
def leBytes : Nat → Nat → List Byte
  | 0, _ => []
  | k + 1, n => BitVec.ofNat 8 n :: leBytes k (n / 256)

/-- The instruction the decoder reads from a word whose bits are `w`, numbered as the opcode table numbers them. -/
def decodeTableWord (nbits w : Nat) : Option Instr :=
  match decodeBytes (leBytes 12 (w % 2 ^ nbits)) with
  | .ok (i, _) => some i
  | .error _ => none

/-! ## Encoding -/

/-- The 96 bits of an opcode and its fields (R134). -/
def encodeFields (op : Nat) (f : Fields) : IWord :=
  BitVec.ofNat 8 op ++ f.fn ++ BitVec.ofBool f.gn ++ f.gp ++ BitVec.ofNat 10 f.d.code ++ BitVec.ofNat 10 f.a.code ++
    BitVec.ofNat 10 f.b.code ++ BitVec.ofNat 10 f.c.code ++ BitVec.ofNat 4 f.ty.code ++ f.rnd ++
    BitVec.ofBool f.flag ++ f.imm

/-- The word of an instruction of the instruction set; a step of another agent has none. -/
def encode (i : Instr) : Option IWord :=
  match i.isa with
  | some (op, f) => some (encodeFields op f)
  | none => none

end Sys2Proof
end

