-- ==== Sys2Proof/Machine/Bits.lean ====
section
/-!
DEFINITION. Bit fields, widths and integer arithmetic of spec/07_ref_arithmetic.md R156 to R170: `val`, `wrap`, `clamp`
and the integer functions, over the bits of an operand. An operand is carried in 64 bits, zero-extended.
-/

namespace Sys2Proof.Machine

open Sys2Proof

/-- Bits `hi` to `lo` of a number. -/
def bits (n hi lo : Nat) : Nat := n / 2 ^ lo % 2 ^ (hi + 1 - lo)

/-- Bit `i` of a number. -/
def bit (n i : Nat) : Bool := n / 2 ^ i % 2 = 1

/-- One of several, chosen by a number; of one, that one. -/
def oneOf {α : Type} (n : Nat) : List α → Option α
  | [] => none
  | [x] => some x
  | xs => xs[n % xs.length]?

/-- 1 for true, 0 for false. -/
def b2n (b : Bool) : Nat := if b then 1 else 0

/-- `n` with bits `lo` to `lo + w - 1` replaced by the low bits of `x`. -/
def setBits (n lo w x : Nat) : Nat := n - n / 2 ^ lo % 2 ^ w * 2 ^ lo + x % 2 ^ w * 2 ^ lo

/-- Two's complement reading of the low `w` bits. -/
def toSigned (w n : Nat) : Int := if bit n (w - 1) then (n % 2 ^ w : Int) - 2 ^ w else (n % 2 ^ w : Int)

/-- `val`: the integer an operand stands for under a type, from its low `width` bits (R157). -/
def intVal (t : Ty) (x : DWord) : Int :=
  if t.signed then toSigned t.width x.toNat else ((x.toNat % 2 ^ t.width : Nat) : Int)

/-- `wrap`: a value modulo 2^w, as a natural (R156). -/
def wrap (x : Int) (w : Nat) : Nat := (x % (2 ^ w : Int)).toNat

/-- The least value of an integer type (R108). -/
def Ty.lo (t : Ty) : Int := if t.signed then -(2 ^ (t.width - 1)) else 0

/-- The greatest value of an integer type (R108). -/
def Ty.hi (t : Ty) : Int := if t.signed then 2 ^ (t.width - 1) - 1 else 2 ^ t.width - 1

/-- `clamp`: a value limited to the range of a type (R156). -/
def clamp (x : Int) (t : Ty) : Int := max (Ty.lo t) (min (Ty.hi t) x)

/-- The register bits of a narrow result: the sign copied above bit w - 1 for I8 and I16, else 0 there (R157). -/
def extend (t : Ty) (n : Nat) : DWord :=
  match t with
  | .i8 => BitVec.ofNat 64 (wrap (toSigned 8 n) 32)
  | .i16 => BitVec.ofNat 64 (wrap (toSigned 16 n) 32)
  | _ => BitVec.ofNat 64 (n % 2 ^ t.width)

/-- An integer result wrapped or, with .SAT, clamped to its type (R108, R161). -/
def fitInt (t : Ty) (sat : Bool) (x : Int) : DWord :=
  extend t (wrap (if sat then clamp x t else x) t.width)

/-- The logical count of ones among the low `w` bits. -/
def popcount : Nat → Nat → Nat
  | 0, _ => 0
  | w + 1, n => n % 2 + popcount w (n / 2)

/-- The zeros above the highest one of `w` bits, `w` for 0. -/
def leadingZeros : Nat → Nat → Nat
  | 0, _ => 0
  | w + 1, n => if bit n w then 0 else 1 + leadingZeros w n

/-- The low `w` bits in reverse order. -/
def reverseBits : Nat → Nat → Nat
  | 0, _ => 0
  | w + 1, n => n % 2 * 2 ^ w + reverseBits w (n / 2)

/-- The three-input function of a truth table at every bit (R166). -/
def logic3 (table a b c : Nat) : Nat → Nat
  | 0 => 0
  | w + 1 =>
    logic3 table a b c w + b2n (bit table (4 * b2n (bit a w) + 2 * b2n (bit b w) + b2n (bit c w))) * 2 ^ w

/-- A shift count beyond any width acts as the width (R167). -/
def shiftCount (s w : Nat) : Nat := min s w

/-- SHL: `wrap(a × 2^s, w)` (R167). -/
def shl (w : Nat) (a : Int) (s : Nat) : Nat := wrap (a * 2 ^ shiftCount s w) w

/-- SHR: `wrap(floor(a / 2^s), w)`: arithmetic for a signed value, logical for a natural one (R167). -/
def shr (w : Nat) (a : Int) (s : Nat) : Nat := wrap (a / 2 ^ shiftCount s w) w

/-- ROT by a left count `k < w` (R167). -/
def rotl (w n k : Nat) : Nat := wrap ((n * 2 ^ k + n / 2 ^ (w - k) : Nat) : Int) w

/-- The position and length of a bit field (R168). -/
def bitField (w b : Nat) : Nat × Nat :=
  let p := min (bits b 7 0) w
  (p, min (bits b 15 8) (w - p))

/-- BFX (R168). -/
def bfx (t : Ty) (a b : Nat) : Nat :=
  let (p, l) := bitField t.width b
  if l = 0 then 0
  else
    let f := a / 2 ^ p % 2 ^ l
    wrap (if t.signed then toSigned l f else (f : Int)) t.width

/-- BFI: bits p to p + l - 1 of C replaced by the low bits of A (R168). -/
def bfi (w a b c : Nat) : Nat :=
  let (p, l) := bitField w b
  setBits c p l a

/-- Byte `e` of a number. -/
def byteOf (n e : Nat) : Nat := n / 2 ^ (8 * e) % 256

/-- IDOT4's exact sum (R165). -/
def idot4 (t : Ty) (a b : Nat) (c : Int) : Int :=
  let by8 (n : Nat) : Int := if t.signed then toSigned 8 n else ((n : Nat) : Int)
  (List.range 4).foldl (fun x e => x + by8 (byteOf a e) * by8 (byteOf b e)) c

/-- The integer comparison of ICMP's FN (R144, R170). -/
def intCompare (fn : Nat) (a b : Int) : Bool :=
  match fn with
  | 0 => a = b
  | 1 => a ≠ b
  | 2 => a < b
  | 3 => a ≤ b
  | 4 => a > b
  | _ => a ≥ b

/-- One destination byte of BYSEL from its 5-bit field (R183). -/
def byselByte (srcs : Nat) (g : Nat) : Nat :=
  let x := byteOf srcs (g % 8)
  match g / 8 with
  | 0 => x
  | 1 => 0
  | 2 => if bit x 7 then 0xFF else 0
  | _ => 255 - x

/-- BYSEL: four bytes chosen from the eight of A (low) and B (high) (R183). -/
def bysel (a b sel : Nat) : Nat :=
  (List.range 4).foldl (fun d e => d + byselByte (a + b * 2 ^ 32) (bits sel (5 * e + 4) (5 * e)) * 2 ^ (8 * e)) 0

end Sys2Proof.Machine
end

