-- ==== Sys2Proof/Machine/Float.lean ====
section
/-!
DEFINITION. The floating-point formats and rounding of spec/05_number_formats.md R105 to R118: a value is an exact
dyadic number, arithmetic is exact, and one rounding at the end makes the bits.
-/

namespace Sys2Proof.Machine

open Sys2Proof

/-- The layout of a floating-point format (R105): exponent and fraction widths, bias, the code of the maximum finite
value, the canonical NaN, and whether the format has infinities. -/
structure Fmt where
  eb     : Nat
  fb     : Nat
  bias   : Nat
  maxFin : Nat
  nan    : Nat
  hasInf : Bool
  deriving DecidableEq, Repr

/-- The floating-point formats of R105; a type that is none is read as F32. -/
def fmtOf : Ty → Fmt
  | .f16 => ⟨5, 10, 15, 0x7BFF, 0x7E00, true⟩
  | .b16 => ⟨8, 7, 127, 0x7F7F, 0x7FC0, true⟩
  | .e4m3 => ⟨4, 3, 7, 0x7E, 0x7F, false⟩
  | .e5m2 => ⟨5, 2, 15, 0x7B, 0x7E, true⟩
  | .e2m1 => ⟨2, 1, 1, 0x7, 0, false⟩
  | _ => ⟨8, 23, 127, 0x7F7FFFFF, 0x7FC00000, true⟩

/-- The sign bit of a format. -/
def Fmt.signBit (m : Fmt) : Nat := 2 ^ (m.eb + m.fb)

/-- The code of infinity of a format that has it: exponent all ones, fraction 0. -/
def Fmt.inf (m : Fmt) : Nat := (2 ^ m.eb - 1) * 2 ^ m.fb

/-- An exact value: NaN, an infinity, or (-1)^neg × m × 2^e (a zero has a sign). -/
inductive FVal where
  | nan
  | inf (neg : Bool)
  | num (neg : Bool) (m : Nat) (e : Int)
  deriving DecidableEq, Repr

/-- The value of a code (R105, R106). -/
def unpack (m : Fmt) (n : Nat) : FVal :=
  let neg := bit n (m.eb + m.fb)
  let ex := n / 2 ^ m.fb % 2 ^ m.eb
  let fr := n % 2 ^ m.fb
  if m.hasInf && ex = 2 ^ m.eb - 1 then (if fr = 0 then .inf neg else .nan)
  else if m.nan ≠ 0 && !m.hasInf && n % m.signBit = m.nan then .nan
  else if ex = 0 then .num neg fr (1 - (m.bias : Int) - m.fb)
  else .num neg (2 ^ m.fb + fr) ((ex : Int) - m.bias - m.fb)

/-- A subnormal code: exponent 0, fraction not 0. -/
def isSubnormal (m : Fmt) (n : Nat) : Bool := n / 2 ^ m.fb % 2 ^ m.eb = 0 && n % 2 ^ m.fb ≠ 0

/-- .FTZ: a subnormal becomes the zero of its sign (R114). -/
def flush (m : Fmt) (ftz : Bool) (n : Nat) : Nat :=
  if ftz && isSubnormal m n then n / m.signBit % 2 * m.signBit else n

/-- A value read under a type, with .FTZ (R114). -/
def fval (t : Ty) (ftz : Bool) (x : DWord) : FVal :=
  let m := fmtOf t
  unpack m (flush m ftz (x.toNat % 2 ^ t.width))

/-! ## Rounding (R111, R112) -/

/-- The number of bits of a natural. -/
def bitLen (n : Nat) : Nat := if n = 0 then 0 else Nat.log2 n + 1

/-- The rounding modes of R111 by code: RN 0, RZ 1, RU 2, RD 3, RNA 4, SR 5. Whether a magnitude with kept part `lo`
and remainder `r` of `k` bits (`sticky`: a little more) is rounded away from zero. `z` is the SR draw. -/
def roundUp (mode : Nat) (neg : Bool) (lo r k : Nat) (sticky : Bool) (z : Nat) : Bool :=
  let inexact := r ≠ 0 || sticky
  match mode with
  | 0 => 2 * r > 2 ^ k || (2 * r = 2 ^ k && (sticky || lo % 2 = 1))
  | 1 => false
  | 2 => !neg && inexact
  | 3 => neg && inexact
  | 4 => inexact && 2 * r ≥ 2 ^ k
  | _ => inexact && (z * 2 ^ k < r * 2 ^ 32 || (sticky && z * 2 ^ k = r * 2 ^ 32))

/-- The magnitude `m × 2^e` (a little more where `sticky`) rounded to a multiple of `2^q`, in units of it. -/
def roundAt (mode : Nat) (neg : Bool) (m : Nat) (e q : Int) (sticky : Bool) (z : Nat) : Nat :=
  if q ≤ e && !sticky then m * 2 ^ (e - q).toNat
  else
    -- two guard bits keep a sticky remainder below the kept part
    let m' := m * 2 ^ (max 0 (e - q + 2)).toNat
    let k := (q - e + max 0 (e - q + 2)).toNat
    let lo := m' / 2 ^ k
    let r := m' % 2 ^ k
    lo + b2n (roundUp mode neg lo r k sticky z)

/-- The overflow result of R112 as a magnitude code. -/
def overflowCode (f : Fmt) (mode : Nat) (sat neg : Bool) : Nat :=
  if sat || mode = 1 || (mode = 3 && !neg) || (mode = 2 && neg) then f.maxFin
  else if f.hasInf then f.inf
  else if f.nan = 0 then f.maxFin
  else f.nan

/-- A signed code; the canonical NaN carries no sign. -/
def signed (f : Fmt) (neg : Bool) (code : Nat) : Nat :=
  if f.nan ≠ 0 && code = f.nan then code else code + b2n neg * f.signBit

/-- A finite magnitude rounded once to a format (R111, R112): the quantum is that of its binade, and of the subnormal
range below it. -/
def roundNum (f : Fmt) (mode : Nat) (sat neg : Bool) (m : Nat) (e : Int) (sticky : Bool) (z : Nat) : Nat :=
  if m = 0 && !sticky then b2n neg * f.signBit
  else
    let top := e + bitLen m - 1
    let q := max top (1 - (f.bias : Int)) - f.fb
    let n := roundAt mode neg m e q sticky z
    let code := (q + f.fb + f.bias - 1).toNat * 2 ^ f.fb + n
    if code > f.maxFin then signed f neg (overflowCode f mode sat neg) else code + b2n neg * f.signBit

/-- A value rounded once to a format, special values as R112 and R117 give. -/
def roundVal (f : Fmt) (mode : Nat) (sat : Bool) (z : Nat) : FVal → Nat
  | .nan => f.nan
  | .inf neg =>
    if f.hasInf then (if sat then f.maxFin else f.inf) + b2n neg * f.signBit
    else if f.nan = 0 then f.maxFin + b2n neg * f.signBit
    else if sat then f.maxFin + b2n neg * f.signBit else f.nan
  | .num neg m e => roundNum f mode sat neg m e false z

/-- The next state of the stochastic-rounding stream (R113). -/
def srStep (z : Word) : Word :=
  let z := z ^^^ (z <<< 13)
  let z := z ^^^ (z >>> 17)
  z ^^^ (z <<< 5)

/-- One rounding: under SR the state steps first, whatever the data (R113). The result's code and the state. -/
def roundSr (f : Fmt) (mode : Nat) (sat : Bool) (z : Word) (x : FVal) : Nat × Word :=
  let z' := if mode = 5 then srStep z else z
  (roundVal f mode sat z'.toNat x, z')

/-! ## Exact arithmetic (R115) -/

/-- The sign of an exact zero sum of operands with signs `a` and `b`. -/
def zeroSign (mode : Nat) (a b : Bool) : Bool := if a = b then a else mode = 3

/-- A signed integer scaled by 2^e as a value; `zneg` is the sign of a zero. -/
def ofInt (zneg : Bool) (x : Int) (e : Int) : FVal :=
  if x = 0 then .num zneg 0 e else .num (decide (x < 0)) x.natAbs e

/-- The signed integer of a finite magnitude at a common exponent `e0 ≤ e`. -/
def scaled (neg : Bool) (m : Nat) (e e0 : Int) : Int :=
  let x : Int := ((m * 2 ^ (e - e0).toNat : Nat) : Int)
  if neg then -x else x

/-- The exact sum; `mode` decides only the sign of an exact zero. -/
def FVal.add (mode : Nat) : FVal → FVal → FVal
  | .nan, _ => .nan
  | _, .nan => .nan
  | .inf a, .inf b => if a = b then .inf a else .nan
  | .inf a, .num _ _ _ => .inf a
  | .num _ _ _, .inf b => .inf b
  | .num a m e, .num b n g =>
    let e0 := if m = 0 then g else if n = 0 then e else min e g
    ofInt (zeroSign mode a b) ((if m = 0 then 0 else scaled a m e e0) + (if n = 0 then 0 else scaled b n g e0)) e0

/-- The exact product. -/
def FVal.mul : FVal → FVal → FVal
  | .nan, _ => .nan
  | _, .nan => .nan
  | .inf a, .inf b => .inf (a != b)
  | .inf a, .num b n _ => if n = 0 then .nan else .inf (a != b)
  | .num a m _, .inf b => if m = 0 then .nan else .inf (a != b)
  | .num a m e, .num b n g => .num (a != b) (m * n) (e + g)

/-- The exact value a × b + c (R172); 0 × ∞ is invalid also when c is NaN. -/
def FVal.fma (mode : Nat) (a b c : FVal) : FVal := (a.mul b).add mode c

/-- `-1`, `0` or `1` as the first of two values that are not NaN is less, equal or greater; the zeros are equal. -/
def FVal.cmp : FVal → FVal → Int
  | .inf a, .inf b => if a = b then 0 else if a then -1 else 1
  | .inf a, _ => if a then -1 else 1
  | _, .inf b => if b then 1 else -1
  | .num a m e, .num b n g =>
    let e0 := min e g
    let d := scaled a m e e0 - scaled b n g e0
    if d < 0 then -1 else if d = 0 then 0 else 1
  | _, _ => 0

/-- The condition of FCMP's FN (R175). -/
def floatCompare (fn : Nat) (a b : FVal) : Bool :=
  if a = .nan || b = .nan then fn = 1 || fn = 7
  else
    match fn with
    | 0 => a.cmp b = 0
    | 1 => a.cmp b ≠ 0
    | 2 => a.cmp b < 0
    | 3 => a.cmp b ≤ 0
    | 4 => a.cmp b > 0
    | 5 => a.cmp b ≥ 0
    | 6 => true
    | _ => false

/-- FMIN and FMAX on codes of a format (R174), with -0 less than +0. -/
def floatMinMax (f : Fmt) (wantMax : Bool) (a b : Nat) : Nat :=
  let x := unpack f a
  let y := unpack f b
  if x = .nan then (if y = .nan then f.nan else b)
  else if y = .nan then a
  else
    let c := x.cmp y
    let aLess := c < 0 || (c = 0 && bit a (f.eb + f.fb))
    if aLess = wantMax then b else a

/-- FCLASS: the index of the class (R176). -/
def classOf (f : Fmt) (n : Nat) : Nat :=
  let neg := bit n (f.eb + f.fb)
  match unpack f n with
  | .nan => 8
  | .inf _ => if neg then 0 else 7
  | .num _ m _ =>
    if m = 0 then (if neg then 3 else 4)
    else if isSubnormal f n then (if neg then 2 else 5)
    else (if neg then 1 else 6)

/-- a × 2^b (R177). Beyond 2,000 either way the rounded result no longer depends on b. -/
def FVal.scale (x : FVal) (b : Int) : FVal :=
  match x with
  | .num neg m e => .num neg m (e + max (-2000) (min 2000 b))
  | y => y

/-- a − trunc(a), with the sign of a (R177). -/
def FVal.frac : FVal → FVal
  | .num neg m e => if e ≥ 0 then .num neg 0 0 else .num neg (m % 2 ^ (-e).toNat) e
  | _ => .nan

/-- An integer as a value. -/
def FVal.ofInteger (x : Int) : FVal := .num (decide (x < 0)) x.natAbs 0

/-- Float to integer (R118): rounded in the mode, clamped, NaN to 0. -/
def toInteger (t : Ty) (mode : Nat) (z : Nat) : FVal → Int
  | .nan => 0
  | .inf neg => if neg then Ty.lo t else Ty.hi t
  | .num neg m e =>
    -- beyond 2^80 the result is clamped whatever the magnitude
    let e' := min e 80
    let n : Int := ((roundAt mode neg m e' 0 false z : Nat) : Int)
    clamp (if neg then -n else n) t

end Sys2Proof.Machine
end

