-- ==== Sys2Proof/Config.lean ====
section
/-!
DEFINITION. What an implementation fixes and what the spec leaves open (R9): opaque constants with no body, so that no
proof can see a value of one. A free value is one of them applied to the counter `fresh` of the state, or to the data
it depends on.
-/

namespace Sys2Proof.Config

/-- A free 64-bit value, one for each value of the counter `fresh` (R9). -/
opaque freeValue : Nat → BitVec 64

/-- A free choice between two outcomes the spec allows, one for each value of the counter and each alternative. -/
opaque freeChoice : Nat → Nat → Bool

/-- A free choice among several alternatives: a number for each value of the counter and each thing chosen for. -/
opaque freeIndex : Nat → Nat → Nat

/-- The rank of a lane's event among the events of one issue, whose relative order is not defined (R86). -/
opaque laneRank : Nat → Nat → Nat

/-- Fuses: the repaired register capacity of a core in 4 KiB units, at most 256 (R19, R323). -/
opaque coreCap : Nat → BitVec 9

/-- The register capacity of a core that the built-in test of a bring-up leaves, by the bring-up's number: register blocks
that fail lower CORECAP (R424 step 3). -/
opaque coreTest : Nat → Nat → BitVec 9

/-- The array test of a bring-up has put a partition's spare column in use (R410, R417): the bring-up's number, and
16 × core + partition. -/
opaque spareUsed : Nat → Nat → Bool

/-- The module is one of a DRN-S sled (R3). -/
opaque isSled : Bool

/-- The L2 slice of a line: a hash of the physical address that the spec does not give (R77). -/
opaque l2Slice : Nat → Nat

/-- The L2 slice, among those of a die, of a line that is homed on that die (R77); the spec does not give it. -/
opaque l2DieSlice : Nat → Nat

/-- The set of a line in its L2 slice; the spec does not give it. -/
opaque l2Set : Nat → Nat

end Sys2Proof.Config
end

