-- ==== Sys2Proof/Machine/State.lean ====
section
/-!
DEFINITION. The state of the machine as plain data: everything spec/ gives it (INVENTORY.md lists each piece with its
rule), the outcomes of a step, and the state after reset.
-/

namespace Sys2Proof.Machine

open Sys2Proof

/-! ## Memory -/

/-- A sparse memory: (address, byte) pairs in strictly rising order, none of them 0. An unlisted address reads 0: HBM is
written with zeros at bring-up (R424); for the other spaces see notes/assumptions/2.md. -/
structure Memory where
  cells : List Host.Cell
  deriving DecidableEq, Repr

/-! ## Threads -/

/-- What a parked or held thread waits for (R49, R51). -/
inductive WaitOn where
  /-- A barrier object: core part and offset, the phase awaited, the destination of the status word (R237). -/
  | barrier (part off phase : Nat) (dst : Option Nat)
  /-- The completion of engine commands (R66). -/
  | handles (cmds : List Nat)
  /-- A rejoin mask (R202). -/
  | join (n : Nat)
  /-- The other threads of the quad (R39). -/
  | quad
  /-- The loading of an overlay (R46). -/
  | overlay (n : Nat)
  /-- The four groups of an MMAS (R273). -/
  | mmas (sector tag : Nat)
  /-- An accumulator allocation (R274). -/
  | acm (req : Nat)
  /-- The pin search of a RECLAIM (R230). -/
  | search (id : Nat)
  deriving DecidableEq, Repr

/-- Where a lane's thread stands. -/
inductive TStatus where
  | empty | ready | ended
  | parked (on : WaitOn)
  deriving DecidableEq, Repr

/-- A hardware loop level (R44). -/
structure LoopLevel where
  active : Bool
  start  : DWord
  last   : DWord
  count  : Word
  deriving DecidableEq, Repr

/-- An issued load: the registers it has still to write (R69, R71). -/
structure LoadOut where
  regs : List (Nat × Word)
  deriving DecidableEq, Repr

/-- A SYSTEM store not yet visible at the host (R100). -/
structure SysStore where
  addr : Nat
  size : Nat
  val  : DWord
  deriving DecidableEq, Repr

/-- A register pair that is pending on an engine command, or that its command cancelled (R66, R67). -/
structure PendPair where
  reg       : Nat
  cmd       : Nat
  cancelled : Bool
  deriving DecidableEq, Repr

/-- A thread (R24, R55, R69, R113). -/
structure Thread where
  v      : List Word
  p      : BitVec 7
  ip     : DWord
  /-- The link stack held in the thread, newest first, at most 8 entries. -/
  link   : List DWord
  /-- Call depth, spilled entries included (R196). -/
  depth  : Nat
  loops  : List LoopLevel
  /-- The stochastic-rounding state. -/
  z      : Word
  ucause : Word
  uinfo  : Word
  helper : Bool
  status : TStatus
  /-- Outstanding loads, oldest first; the ld counter is their number. -/
  ld     : List LoadOut
  /-- Outstanding stores, oldest first; the st counter is their number. -/
  st     : List (Option SysStore)
  mx     : Nat
  pend   : List PendPair
  /-- The thread looped back and the start slot's TM bit is still to be checked (R44). -/
  back   : Bool
  /-- The pair at its IP has trapped, and RESUME lets it issue again as a pair (R35). -/
  again  : Bool
  deriving DecidableEq, Repr

/-! ## Groups -/

/-- The threads of one group that stand ready at one IP (R30). -/
structure IssueUnit where
  lanes  : Word
  ip     : DWord
  /-- The way of its set in the PC table; none: waiting outside it (R31). -/
  way    : Option Nat
  /-- The partition's clock when its entry last issued or was made, or when it began to wait (R31, R33). -/
  stamp  : Nat
  hinted : Bool
  /-- Held by YIELD since this count of the partition's clock; a held unit stands outside the table (R204). -/
  held   : Option Nat
  /-- Two units have merged into it outside the table: an entry it makes takes its stamp (R30). -/
  aged   : Bool
  /-- Its last issue was held, while a part of its block was away (R75, R338). -/
  stuck  : Bool
  deriving DecidableEq, Repr

/-- A matrix instruction queued in its group's matrix unit, with what it read at issue (R69, R70, R267). -/
structure MxOp where
  instr : Instr
  /-- The lanes that hold a thread, and whether they count it in mx (R69). -/
  lanes : Word
  counted : Bool
  /-- The row registers of each lane as they stood at issue. -/
  rows  : List (List Word)
  /-- The slot of each quarter, or the one slot of a BLD or of an MMAS. -/
  slots : List Nat
  /-- The accumulator base, and SCACC's partial granule or the count of ACFREE and ACZERO. -/
  base  : Nat
  src   : Nat
  /-- The number of an MMAS's completed rendezvous; 0: none. -/
  meet  : Nat
  /-- BLD's bytes read from scratch; an MMAS's B columns, once its sector's slots have been read. -/
  bdata : Memory
  ready : Bool
  /-- The codebook at issue (R110). -/
  book  : List Byte
  /-- The stochastic-rounding states before the first draw (R277). -/
  zs    : List Word
  /-- Destination registers since written by later instructions: (lane, register) (R71). -/
  lost  : List (Nat × Nat)
  /-- An ACRD's results once it has read its accumulators, still to be written but for those lost: (lane, register, value)
  (R267). -/
  outs  : List (Nat × Nat × Word)
  deriving DecidableEq, Repr

/-- A BURN request (R282): level and the device time at which it expires. -/
structure BurnReq where
  level : Nat
  expiry : Nat
  deriving DecidableEq, Repr

/-- A group (R24, R55, R282, R283). -/
structure Group where
  s       : List Word
  j       : List Word
  arrived : List Word
  pn      : List DWord
  /-- A generation count for each pin register, raised by every overwrite of a name (R98, R230). -/
  pnGen   : List Nat
  threads : List Thread
  units   : List IssueUnit
  mxq     : List MxOp
  burn    : Option BurnReq
  /-- A SHUNT reservation: its grant and the device time at which it ends. -/
  shunt   : Option BurnReq
  deriving DecidableEq, Repr

/-! ## Blocks -/

/-- Where a block part is (R320, R322, R338). -/
inductive PartState where
  | resident | saving | saved | restoring (column : Nat)
  deriving DecidableEq, Repr

/-- A group's arrival at an MMAS rendezvous (R273). -/
structure MmasArrival where
  part   : Nat
  sector : Nat
  tag    : Nat
  /-- The partition's place in its sector. -/
  place  : Nat
  group  : Nat
  op     : MxOp
  deriving DecidableEq, Repr

/-- One core part of a block: its own storage on its core (R24, R267, R269, R340). -/
structure Part where
  core     : Nat
  slot     : Nat
  state    : PartState
  scratch  : Memory
  bslots   : Memory
  codebook : Memory
  acm      : Memory
  /-- Granules held: (sector, granule). -/
  held     : List (Nat × Nat)
  /-- Granules of a sector that are spilled or saved; `true` once they are written. Held again, they are being read
  back (R340, R322). -/
  spilled  : List (Nat × List Nat × Bool)
  /-- The charge of a save's ballast, CTXSV's B (R321). -/
  charge   : Word
  /-- Selected by a CTXSV that is still saving another part (R320). -/
  queued   : Bool
  /-- The selector of the CTXSV or CTXLD in progress, for its SAVED or RESTORED (R319). -/
  sel      : DWord
  /-- Poisoned units and words that a saved part carries: location kind, and place within the core's array (R415). -/
  marks    : List (Nat × Nat)
  deriving DecidableEq, Repr

/-- The residency of a block (R338). -/
inductive BlockState where
  | admitted | resident | inactive | saved | retired
  deriving DecidableEq, Repr

/-- A block (R24, R338). -/
structure Block where
  id      : Nat
  launch  : Nat
  /-- Linear index in the grid, admission order, save-area slot. -/
  index   : Nat
  age     : Nat
  slot    : Nat
  state   : BlockState
  started : Bool
  /-- Its parked registers and scratchpad have spilled into its save slot (R338). -/
  inSlot  : Bool
  /-- The block's threads raise no more issue: a PIPE kill or package stop aside, set by partition reset (R358). -/
  stopped : Bool
  /-- Saved by a pre-emption, to be restored by the scheduler (R339). -/
  preempted : Bool
  groups  : List Group
  parts   : List Part
  mmas    : List MmasArrival
  /-- For how many nanoseconds every live thread of it has been parked or held (R338). -/
  idle    : Nat
  /-- Lanes that were held on a part that is away when the block was switched out: group, lanes (R75, R338). -/
  heldOn  : List (Nat × Word)
  deriving DecidableEq, Repr

/-- The life of a launch (R333). -/
inductive LaunchState where
  | admission | run | flush | done | dropped
  deriving DecidableEq, Repr

/-- A launch: its record's fields (R330), the constant space (R76) and its counters. -/
structure Launch where
  id        : Nat
  queue     : Nat
  ctx       : Nat
  state     : LaunchState
  flags     : BitVec 8
  comb      : Nat
  ac        : Nat
  frames    : Nat
  grid      : List Nat
  blk       : List Nat
  regs      : Nat
  scratch   : Nat
  acmCeil   : Nat
  msixv     : Nat
  codeVa    : Nat
  novl      : Nat
  argLen    : Nat
  dataLen   : Nat
  saveVa    : Nat
  saveLen   : Nat
  sigVa     : Nat
  sigVal    : DWord
  seed      : Word
  tag       : Word
  stkVa     : Nat
  bufs      : List (Nat × Nat)
  nbv       : Nat
  consts    : Memory
  /-- Bytes of the constant space that CHECK copied from poisoned units: first, end, and the unit's kind and address
  (R415). -/
  constMarks : List (Nat × Nat × Nat × Nat)
  overlay0  : List Byte
  nextComb  : Nat
  retired   : Nat
  /-- Energy in µJ (R286). -/
  energy    : Nat
  /-- Device time at which the next comb began to wait, and the column that a pre-emption empties for it (R339). -/
  waiting   : Nat
  emptying  : Option Nat
  deriving DecidableEq, Repr

/-- The instruction frames of a launch on a core (R45 to R47): the overlay mapped in each frame, overlays loading with
the lanes that load them, and the bytes. -/
structure FrameWin where
  launch  : Nat
  core    : Nat
  map     : List (Option Nat)
  /-- Overlays being loaded: (overlay, block, group, lanes that took OVERLAY and have not ended). -/
  loading : List (Nat × Nat × Nat × Word)
  bytes   : Memory
  deriving DecidableEq, Repr

/-! ## Engine commands -/

/-- The kinds of engine command. -/
inductive CmdKind where
  | copy | gather | scatter | fill | pub | coll | cseq
  deriving DecidableEq, Repr

/-- Whether a command is still to complete (R251, R93). -/
inductive CmdState where
  | running | done
  deriving DecidableEq, Repr

/-- An accepted engine command (R247, R251, R260 to R265). -/
structure Cmd where
  id      : Nat
  kind    : CmdKind
  core    : Nat
  block   : Nat
  part    : Nat
  group   : Nat
  lanes   : Word
  ctx     : Nat
  launch  : Nat
  var     : Nat
  hold    : Bool
  record  : List Byte
  a       : DWord
  b       : DWord
  bar     : Nat
  coords  : List Word
  state   : CmdState
  /-- Source data read so far, by place in the source stream, and the ranges read: (offset, length). -/
  data    : Memory
  read    : List (Nat × Nat)
  /-- The final code and BYTES; the order of failures, for an XPUB's status (R259). -/
  code    : Nat
  bytes   : Nat
  failAt  : Nat
  cancel  : Bool
  /-- COLL: table entry, sequence number, hashes held by device, tiles by device, shards published or failed by rank. -/
  entry   : Nat
  seq     : Word
  hashes  : List (Nat × Nat)
  matched : Bool
  innet   : Bool
  tiles   : List (Nat × List Byte)
  shards  : List (Nat × Nat)
  /-- When it was accepted, on the device's own time: FTIMEOUT counts from its requests' issue (R400). -/
  since   : Nat
  deriving DecidableEq, Repr

/-- A reclaim waiting for pins to clear, or ready to be appended (R98, R230, R232). -/
structure Deferred where
  ctx    : Nat
  name   : DWord
  /-- Pins found on this device: (block, group, register, generation). -/
  pins   : List (Nat × Nat × Nat × Nat)
  /-- Pins found on other devices and not yet reported clear. -/
  remote : Nat
  ring   : Nat
  block  : Nat
  bar    : Nat
  /-- The order in which names became ready; 0: not ready. -/
  order  : Nat
  /-- A RINGFAULT has been posted for it. -/
  faulted : Bool
  /-- The context's list was moved while it was held, so that its append is not defined (R353). -/
  moved   : Bool
  deriving DecidableEq, Repr

/-- A RECLAIM whose search runs (R230). -/
structure Search where
  id     : Nat
  block  : Nat
  group  : Nat
  /-- The lanes that receive the result. -/
  lanes  : Word
  ctx    : Nat
  name   : DWord
  dst    : Option Nat
  ring   : Nat
  bar    : Nat
  found  : List (Nat × Nat × Nat × Nat)
  domain : Bool
  /-- The devices that pin-query messages go to (R405). -/
  asked  : List Nat
  deriving DecidableEq, Repr

/-- A pin-query message that another device of the job has sent here, and the pins it found (R230, R405). -/
structure PinQuery where
  job   : Nat
  asid  : Nat
  name  : DWord
  found : List (Nat × Nat × Nat × Nat)
  deriving DecidableEq, Repr

/-- An accumulator request (R274, R275): a group's ACALLOC, or the return of a spilled or saved part. -/
structure AcmReq where
  id     : Nat
  block  : Nat
  age    : Nat
  part   : Nat
  sector : Nat
  /-- Granule numbers wanted: some exact ones for a return, or a count. -/
  exact  : Option (List Nat)
  count  : Nat
  group  : Nat
  /-- The S register that an ACALLOC writes; none where its D is ZERO, and for a return. -/
  dst    : Option Nat
  deriving DecidableEq, Repr

/-! ## Events to the management core -/

/-- The causes of R305 in code order. -/
inductive Cause where
  | illegal | badTarget | iparity | overlay | diverged | misalign | access | page | pipe | imbal | acmCeil | handle
  | brk | user | ringFault | saved | restored | tokRet | replay
  deriving DecidableEq, Repr

/-- What BLKCTL answers (R310). -/
inductive Answer where
  | resume | skip | kill
  deriving DecidableEq, Repr

/-- An event entry (R308) and what its answer needs: the trapping block and the lanes of its groups. -/
structure Event where
  cause   : Cause
  parked  : Bool
  savedPart : Bool
  ctx     : Nat
  tpart   : Nat
  blkWord : Word
  blkIdx  : Word
  trapIp  : DWord
  info    : DWord
  extra   : List Byte
  block   : Nat
  lanes   : List (Nat × Word)
  pair    : Bool
  answer  : Option Answer
  seq     : Nat
  deriving DecidableEq, Repr

/-- A condition an instruction raises: its cause, the number of the check in its entry's order, the lowest lane that
found it, DETAIL and EXTRA (R306, R308). -/
structure Trap where
  cause  : Cause
  rank   : Nat
  lane   : Nat
  detail : Nat
  extra  : List Byte
  deriving DecidableEq, Repr

/-! ## Translation and caches -/

/-- A cached translation (R349): context, page base and size, physical base, and the attributes of the leaf. -/
structure TlbEntry where
  ctx   : Nat
  va    : Nat
  size  : Nat
  leaf  : DWord
  level : Nat
  deriving DecidableEq, Repr

/-- A line of a cache slice (R79, R82, R360): its slice (a channel, or an L2 slice), its set and line number there, its way,
the class that filled it, when it was last used, and whether the level below is out of date. -/
structure CacheLine where
  slice : Nat
  set   : Nat
  line  : Nat
  way   : Nat
  cls   : Nat
  stamp : Nat
  dirty : Bool
  deriving DecidableEq, Repr

/-- What efdb prints of a class at a memory-side cache slice (R367): hits, misses, and hits outside the class's mask. -/
structure CacheStat where
  slice   : Nat
  cls     : Nat
  hits    : Nat
  misses  : Nat
  outside : Nat
  deriving DecidableEq, Repr

/-! ## Privileged registers -/

/-- The management core's trap, interrupt and event registers (R303, R304, R309, R311). -/
structure Csrs where
  part      : BitVec 3
  ppl       : BitVec 2
  pl        : BitVec 2
  tl        : Bool
  pie       : Bool
  ie        : Bool
  trapVec   : DWord
  trapInt   : Bool
  trapCode  : Byte
  trapInfo  : DWord
  trapIp    : DWord
  /-- The W1C bits of INTPEND: EVQOVF, HOSTMBOX, WAGGLE, DOORBELL at bits 8, 7, 6, 5. -/
  intPend   : BitVec 9
  intEn     : DWord
  timeCmp   : DWord
  evqBase   : DWord
  evqEn     : Bool
  evqSize   : BitVec 3
  evqOvf    : Bool
  evqHead   : BitVec 16
  evqTail   : BitVec 16
  /-- Areas (base, size) that the queue had when it was moved with entries in it: a later entry may still go there
  (R309). -/
  evqOld    : List (Nat × Nat)
  ctxValid  : BitVec 64
  ctxPart   : List (BitVec 3)
  ctxAsid   : List (BitVec 16)
  ptBase    : List DWord
  nbv       : List (BitVec 2)
  qosMask   : List (BitVec 16)
  occSel    : BitVec 11
  tokens    : Nat
  auth      : Bool
  debt      : Nat
  overn     : Nat
  ceil      : List (BitVec 4)
  thrcfg    : List DWord
  duty      : List Nat
  supply    : List (BitVec 2)
  capMode   : BitVec 2
  capOvf    : Bool
  capDiv    : Bool
  /-- A replay timeout has released every held event (R422). -/
  capFree   : Bool
  /-- Failures of commands that came before their record was next: context, block, barrier, code (R422). -/
  capEarly  : List (Nat × Nat × Nat × Nat)
  /-- Marks compared since the release: context and block of each (R325). -/
  capMarks  : List (Nat × Nat)
  /-- Since when the record after the next one has been ready while the next has not occurred (R422). -/
  capSince  : Option Nat
  capCtxs   : DWord
  capRing   : DWord
  capHead   : Word
  capTail   : Word
  capRange  : List DWord
  deriving DecidableEq, Repr

/-- A thermal sensor (R386, R387). -/
structure Sensor where
  temp  : Nat
  level : Nat
  peak  : Nat
  /-- The next poll leaves the reading as it is: the diode is being calibrated (R418). -/
  skip  : Bool
  deriving DecidableEq, Repr

/-- A stack supply and its domain (R370, R379). -/
structure Supply where
  effPl  : Nat
  capL   : Nat
  late   : Bool
  power  : Nat
  limit  : Nat
  cen    : Bool
  next   : Nat
  /-- AT as written, and the time at which NEXT is adopted. -/
  atField : Nat
  adoptAt : Nat
  /-- The cohort level, and whether NEXT is still to be adopted. -/
  cohort : Nat
  pending : Bool
  /-- The level the clock is switched to: EFFPL once the change has completed (R378). -/
  clock  : Nat
  on     : Bool
  deriving DecidableEq, Repr

/-- Whom a core's ballast is charged to (R383): nobody, a launch, or the launches of the column's fall or mismatch. -/
inductive BallastCause where
  | nobody
  | launch (l : Nat)
  | falls
  deriving DecidableEq, Repr

/-- What the last sample found of a column, beside its rails and demands (R284, R375): state, current, ballast, duties,
resident groups and level, and the number by which an inexact reading is rounded. -/
structure ColumnShown where
  state : Nat
  curr  : Nat
  blst  : List Nat
  eduty : List Nat
  occ   : List Nat
  pl    : Nat
  key   : Nat
  deriving DecidableEq, Repr

/-- A column's balance state (R371 to R375): demands and ballast of its four cores, in 1/1,000 and in sixteenths. -/
structure Column where
  state   : Nat
  imbCnt  : Nat
  rails   : List Int
  curr    : Nat
  demand  : List Nat
  blst    : List Nat
  /-- The part of the ballast that balances (R372), and whom each core's ballast is charged to. -/
  level   : List Nat
  causes  : List BallastCause
  duty    : List Nat
  /-- Consecutive samples over 250, samples in balance, and samples at or below 80. -/
  overCnt : Nat
  calm    : Nat
  easy    : List Nat
  /-- What slope ballast holds of a falling current, and when the current last took a value (R374). -/
  ramp    : Nat
  rampAt  : Nat
  /-- What else asked for ballast at the last sample: the level and the charge of each core's engine without the slope's
  (R282, R372). -/
  base    : List (Nat × BallastCause)
  shown   : ColumnShown
  /-- The partition clock of the column, in twentieths of a pclk (R18, R61). -/
  pclk20  : Nat
  deriving DecidableEq, Repr

/-! ## Scheduler, tenants and contexts -/

/-- A launch-queue window (R327). -/
structure Queue where
  base   : DWord
  en     : Bool
  size   : BitVec 4
  valid  : Bool
  tpart  : BitVec 3
  prio   : BitVec 3
  ctx    : BitVec 6
  head   : Word
  tail   : Word
  code   : Byte
  state  : BitVec 3
  /-- When the record at HEAD became ready, as a place in the order of such events (R329). -/
  since  : Nat
  deriving DecidableEq, Repr

/-- A partition control block (R354, R404). -/
structure Tenant where
  rbusy   : Bool
  colMask : BitVec 48
  vcnt    : BitVec 11
  vbase   : BitVec 11
  bwShare : BitVec 8
  wbase   : List DWord
  wlimit  : List DWord
  jv      : Bool
  keySt   : BitVec 2
  jobId   : BitVec 16
  jobMap  : List DWord
  deriving DecidableEq, Repr

/-- A collective group entry (R406). -/
structure CollGroup where
  v      : Bool
  closed : Bool
  gid    : BitVec 16
  lost   : Word
  next   : Word
  done   : Word
  last   : Byte
  deriving DecidableEq, Repr

/-- A collective's flits from one member, a header and its tile (R97, R263, R407). -/
structure Flit where
  gid   : Nat
  seq   : Word
  dev   : Nat
  hash  : Nat
  tile  : List Byte
  /-- In a backlog ring: how many of its 256-byte flits the ring holds, and how many have been replayed from it before; the
  sender keeps the others (R407). -/
  held  : Nat
  gone  : Nat
  deriving DecidableEq, Repr

/-- A context block (R351 to R353, R406, R407, R383). -/
structure CtxBlock where
  desc    : List DWord
  /-- Descriptors that have been replaced and may still be used until TLBINV.CTX: index, word 0, word 1 (R352). -/
  oldDesc : List (Nat × DWord × DWord)
  defBase : DWord
  defCap  : Word
  blBase  : DWord
  bv      : Bool
  blTo    : Nat
  blSize  : BitVec 16
  flits   : List Flit
  /-- Collectives known to fail before this member's command is there: (group id, sequence, code, device) (R97, R265). -/
  lostSeq : List (Nat × Word × Nat × Nat)
  /-- Flits of collectives that this member has not issued yet (R263). -/
  inbox   : List Flit
  /-- Senders stalled by a full ring, or by none: group id, sequence number, device, and since when (R407). -/
  stalls  : List (Nat × Word × Nat × Nat)
  groups  : List CollGroup
  eLast   : DWord
  reqPl   : Nat
  deriving DecidableEq, Repr

/-! ## Fabric, host and reliability -/

/-- A Caerfel port (R399, R403). -/
structure Port where
  up     : Bool
  att    : Bool
  enc    : Bool
  lanes  : Nat
  peer   : BitVec 16
  fails  : Nat
  flits  : Nat
  deriving DecidableEq, Repr

/-- A token transfer in flight (R324, R382). -/
structure Waggle where
  dev    : Nat
  amount : Word
  sent   : Nat
  deriving DecidableEq, Repr

/-- An access of a thread that another device has not answered yet: the issuing group and its instruction, the device, when
it was issued, and whether FTIMEOUT has passed since (R400, R401). -/
structure Request where
  block   : Nat
  group   : Nat
  lane    : Nat
  ip      : DWord
  dev     : Nat
  since   : Nat
  expired : Bool
  deriving DecidableEq, Repr

/-- The fabric registers, the mailbox and the host's side (R396 to R403). -/
structure Fabric where
  joined   : Bool
  tsync    : Bool
  devnum   : BitVec 11
  ftimeout : Nat
  ports    : List Port
  /-- What the sled controller reported: 4n + slot (R3). -/
  sled     : Option Nat
  /-- Domain time still ahead of a held `%ftime` (R402): the time to hold until. -/
  holdTime : Nat
  waggles  : List Waggle
  hdata    : List DWord
  hseq     : Word
  mdata    : List DWord
  mseq     : Word
  msix     : BitVec 2048
  hdmBase  : Nat
  ide      : Bool
  hostLink : Bool
  /-- The host's link partner has every feature that the port requires (R395). -/
  features : Bool
  /-- Accesses of threads that wait for another device's answer (R400, R401). -/
  requests : List Request
  /-- Devices that answer nothing, and since when (R400, R401). -/
  silent   : List (Nat × Nat)
  /-- A number that a refused join message named, reported to the host (R3). -/
  refused  : Option Nat
  /-- Bring-up stopped before the host link (R424). -/
  unsigned : Bool
  /-- Traffic dropped for want of protection, as the IDE status reports it (R396). -/
  ideDrops : Nat
  /-- The bytes of the MSI-X table (R397). -/
  msixTable : Memory
  /-- What the last host read returned, and whether with the poison indication (R397, R415). -/
  hostReply : Nat × Bool
  /-- Uncorrectable internal errors reported to the host through CXL RAS, and power-downs reported to it by the module
  management interface (R426). -/
  rasErrors : Nat
  downReports : Nat
  /-- The image whose measurement the boot ROM has recorded for SPDM (R424); the algorithm is not given. -/
  measured : List Byte
  deriving DecidableEq, Repr

/-- The reliability registers and the marks behind them (R409 to R417). -/
structure Reliab where
  ceCnt   : Nat
  ueCnt   : Nat
  uloc    : Nat
  spFail  : Nat
  uaddr   : Nat
  sen     : Bool
  speriod : Nat
  ageMarg : Byte
  ageCore : Byte
  /-- Poisoned units: (location kind, address of the 64-byte unit or word as UADDR gives it) (R415, R416). -/
  poison  : List (Nat × Nat)
  /-- Partitions whose spare column is taken, and those with none left: 16 × core + partition (R410). -/
  spare   : List Nat
  noSpare : List Nat
  /-- Bring-ups since the first, each of which tests every array again (R410). -/
  boots   : Nat
  /-- A pending checker disagreement: PIPE code for the next instruction of a partition (R409). -/
  checker : List (Nat × Nat)
  deriving DecidableEq, Repr

/-! ## The machine -/

/-- Who acts next. The relative order of the machine's agents is not defined beyond the rules of each (R54, R86), so it
is data: the head of the agenda acts, and with an empty agenda the management core does. -/
inductive Action where
  /-- The management core issues (or takes an interrupt). -/
  | mgmt
  /-- An entry of a partition's PC table issues: core, partition, set, way (R30, R33). -/
  | entry (core part set way : Nat)
  /-- A partition's former fills its two slots (R33). -/
  | former (core part : Nat)
  /-- A step of another agent, by its row of the table. -/
  | event (i : Instr)
  /-- Time passes: nanoseconds (R61, R402). -/
  | tick (ns : Nat)
  /-- A host store to a SYSTEM page. -/
  | hostStore (addr size : Nat) (val : DWord)
  /-- A unit or word turns uncorrectable (R414): location kind and address. -/
  | poison (kind addr : Nat)
  /-- Errors corrected in storage (R414). -/
  | corrected (n : Nat)
  /-- The host programs the HDM decoder's base and CXL IDE (R396). -/
  | hostSetup (base : Nat) (ide : Bool)
  /-- The ACRD at the head of a group's matrix queue reads its accumulators: block, group (R267). -/
  | matrixRead (b g : Nat)
  /-- Traffic for a context that no row names (page walks, engine destinations, instruction lines) reaches a line of L2, or of
  a memory-side cache slice, in the class of the context's partition (R357): the line's number, and whether it is written. -/
  | traffic (l2 : Bool) (ctx line : Nat) (write : Bool)
  /-- The host trains its link again, with every feature that the port requires or without (R395). -/
  | hostTrain (features : Bool)
  /-- A host read at an offset of BAR0 (R397). -/
  | hostRead (off size : Nat)
  /-- An MSI-X message leaves for the host: its entry is pending no more (R397). -/
  | msixSent (e : Nat)
  /-- Another device stops answering, or answers again (R401). -/
  | peer (dev : Nat) (answers : Bool)
  /-- A bit of a line of an instruction frame turns (R48, R414): launch, core, line. -/
  | frameError (launch core line : Nat)
  /-- The park area of an inactive block spills into its save slot (R338). -/
  | parkSpill (b : Nat)
  /-- CXL.cache traffic of the host reaches the device: its answer to a SYSTEM access or to a back-invalidation, protected
  by CXL IDE or not (R395, R396). -/
  | hostCache (prot : Bool)
  /-- A checker disagrees with the next result of a partition: 16 × core + partition, PIPE code 0, 1, 3 or 4 (R409). -/
  | checker (part code : Nat)
  deriving Repr, DecidableEq

/-- The issuer of the instruction being executed: the management core, or unit `u` of group `g` of block `b`. -/
inductive Issuer where
  | mgmt
  | unit (b g u : Nat)
  deriving DecidableEq, Repr

/-- The management core (R300, R301): a group of one, its scratchpad, and whether a double trap halted it. -/
structure Mgmt where
  group   : Group
  scratch : Memory
  halted  : Bool
  /-- The thread is held at a WFI (R316). -/
  inWfi   : Bool
  /-- The fixed 1.0 GHz count (R301). -/
  pclk    : Nat
  deriving DecidableEq, Repr

/-- The machine. -/
structure State where
  agenda   : List Action
  cur      : Issuer
  /-- A pair is being issued: the group as both instructions read it, and whether its first slot issues (R34, R35). -/
  pairRead : Option (Group × Bool)
  /-- The trap taken by the instruction just executed, for the other units of its issue (R37, R246). -/
  trapped  : Option Trap
  /-- Counts the free values that the drawing context has used: the model's own field (R9). -/
  fresh    : Nat
  /-- The context that draws free values now, 64 for the machine itself, and the counts of the contexts that do not: the
  model's own fields. No context's free values depend on what another has done (R9). -/
  drawer   : Nat
  drawn    : List Nat
  /-- Numbers commands, blocks, launches, events: the model's own field. -/
  nextId   : Nat
  ftime    : Nat
  /-- Nanoseconds since reset, which a step or a hold of `%ftime` does not touch (R374, R400, R402). -/
  uptime   : Nat
  mem      : Memory
  hostMem  : Memory
  peerMem  : Memory
  /-- 64-byte units of device memory that the host may cache (R102). -/
  snoop    : List Nat
  mgmt     : Mgmt
  csr      : Csrs
  blocks   : List Block
  launches : List Launch
  windows  : List FrameWin
  cmds     : List Cmd
  deferred : List Deferred
  searches : List Search
  queries  : List PinQuery
  acmReqs  : List AcmReq
  /-- Free granules whose contents are what an eviction or a save has left: (core, sector, granule). -/
  acmLeft  : List (Nat × Nat × Nat)
  waiting  : List Event
  events   : List Event
  evSeq    : Nat
  tlb      : List TlbEntry
  /-- The lines of the memory-side cache slices and of L2, and the counters of the former. -/
  cache    : List CacheLine
  l2       : List CacheLine
  stats    : List CacheStat
  queues   : List Queue
  tenants  : List Tenant
  ctxs     : List CtxBlock
  sensors  : List Sensor
  supplies : List Supply
  columns  : List Column
  /-- Issue slots used since the last sample: core, launch, how many (R383). -/
  slots    : List (Nat × Nat × Nat)
  /-- The launch and the class of the block that was resident last on a core: core, launch, class (R338). -/
  coreLast : List (Nat × Nat × Nat)
  /-- The cap controller: cap duty, energy and budget of the running window in µJ, samples over the last 1 ms. -/
  capDuty  : Nat
  winEnergy : Nat
  winBudget : Nat
  /-- The number of the running token window (R380). -/
  tokWindow : Nat
  fabric   : Fabric
  rel      : Reliab
  /-- A package power-down or a fatal error has stopped issue; the supplies are off after a power-down. -/
  stopped  : Bool
  powerOff : Option Nat
  deriving DecidableEq, Repr

/-- Why the machine stops with a fault. -/
inductive Fault where
  /-- Raised by `step`: nothing stands on the agenda and the management core is halted by a double trap (R312) or a
  power-down (R388), so nothing acts until a device reset. Safe: the hardware does nothing either. -/
  | halted
  deriving DecidableEq, Repr

/-- Why an instruction has no meaning. -/
inductive Refusal where
  /-- Answered by an arm of `exec` whose instruction has no meaning yet. Safe. -/
  | notModelled (mnemonic : String)
  deriving DecidableEq, Repr

/-! ## Reset (R424) -/

/-- An empty memory. -/
def Memory.empty : Memory := ⟨[]⟩

/-- An inactive loop level. -/
def LoopLevel.off : LoopLevel := ⟨false, 0, 0, 0⟩

/-- A thread at its start, with a window of `n` registers (R55). -/
def Thread.fresh (n : Nat) (ip : DWord) (z : Word) (helper : Bool) : Thread :=
  { v := List.replicate n 0, p := 0, ip, link := [], depth := 0, loops := List.replicate 4 .off, z, ucause := 0
    uinfo := 0, helper, status := .ready, ld := [], st := [], mx := 0, pend := [], back := false
    again := false }

/-- A lane that never held a thread. -/
def Thread.none (n : Nat) : Thread := { Thread.fresh n 0 0 false with status := .empty }

/-- A group at its start (R55). -/
def Group.fresh (threads : List Thread) (units : List IssueUnit) : Group :=
  { s := List.replicate 24 0, j := List.replicate 8 0, arrived := List.replicate 8 0, pn := List.replicate 4 0
    pnGen := List.replicate 4 0, threads, units, mxq := [], burn := .none, shunt := .none }

/-- The V registers of the management core's thread: the whole window (notes/assumptions/6.md). -/
def mgmtWindow : Nat := 256

/-- The management core at line 0 of the firmware image, at hypervisor level (R300, R424). Its stochastic-rounding
state has no launch record to seed it (notes/assumptions/7.md). -/
def Mgmt.reset : Mgmt :=
  { group := Group.fresh (Thread.fresh mgmtWindow 0 0x6D2B79F5 false :: List.replicate 31 (Thread.none mgmtWindow))
      [⟨1, 0, some 0, 0, false, none, false, false⟩]
    scratch := .empty, halted := false, inWfi := false, pclk := 0 }

/-- The CSRs after reset (R303 to R326, R348, R359, R361, R377, R381, R385, R369, R419). -/
def Csrs.reset : Csrs :=
  { part := 0, ppl := 0, pl := 2, tl := false, pie := false, ie := false, trapVec := 0x40, trapInt := false
    trapCode := 0, trapInfo := 0, trapIp := 0, intPend := 0, intEn := 0, timeCmp := 0xFFFFFFFFFFFFFFFF, evqBase := 0
    evqEn := false, evqSize := 0, evqOvf := false, evqHead := 0, evqTail := 0, evqOld := [], ctxValid := 0
    ctxPart := List.replicate 64 0, ctxAsid := List.replicate 64 0, ptBase := List.replicate 64 0
    nbv := List.replicate 64 2, qosMask := List.replicate 16 0xFFFF, occSel := 0, tokens := 0, auth := false, debt := 0
    overn := 0, ceil := List.replicate 8 15, thrcfg := [0x20821A45F154, 0x20821905F154]
    duty := List.replicate 48 16
    supply := List.replicate 12 0 ++ List.replicate 12 1 ++ List.replicate 12 2 ++ List.replicate 12 3, capMode := 0
    capOvf := false, capDiv := false, capFree := false, capEarly := [], capMarks := []
    capSince := none, capCtxs := 0, capRing := 0, capHead := 0, capTail := 0
    capRange := List.replicate 4 0 }

/-- A stack supply after bring-up: PL0 settings, CAPL 15, LIMIT 1,300 (R370, R424). -/
def Supply.reset : Supply :=
  { effPl := 0, capL := 15, late := false, power := 0, limit := 1300, cen := false, next := 0, atField := 0, adoptAt := 0, cohort := 0
    pending := false, clock := 0, on := true }

/-- The sample of a column after reset: every field of BALSTAT at its reset value (R375). -/
def ColumnShown.reset : ColumnShown :=
  { state := 0, curr := 0, blst := [0, 0, 0, 0], eduty := [16, 16, 16, 16], occ := [0, 0, 0, 0], pl := 0, key := 0 }

/-- A column after reset (R375). -/
def Column.reset : Column :=
  { state := 0, imbCnt := 0, rails := [0, 0, 0], curr := 0, demand := [0, 0, 0, 0], blst := [0, 0, 0, 0]
    level := [0, 0, 0, 0], causes := List.replicate 4 .nobody, duty := [16, 16, 16, 16], overCnt := 0, calm := 0
    easy := [0, 0, 0, 0], ramp := 0, rampAt := 0, base := List.replicate 4 (0, .nobody), shown := .reset, pclk20 := 0 }

/-- A launch-queue window after reset (R327). -/
def Queue.reset : Queue :=
  { base := 0, en := false, size := 0, valid := false, tpart := 0, prio := 0, ctx := 0, head := 0, tail := 0, code := 0
    state := 4, since := 0 }

/-- A partition control block after reset (R354, R404). -/
def Tenant.reset : Tenant :=
  { rbusy := false, colMask := 0, vcnt := 0, vbase := 0, bwShare := 32, wbase := List.replicate 4 0
    wlimit := List.replicate 4 0, jv := false, keySt := 0, jobId := 0, jobMap := List.replicate 32 0 }

/-- A context block after reset (R351, R353, R406, R407). The requested level is 8 from a context's creation (R285). -/
def CtxBlock.reset : CtxBlock :=
  { desc := List.replicate 128 0, oldDesc := [], defBase := 0, defCap := 0, blBase := 0, bv := false, blTo := 1000, blSize := 0
    flits := [], lostSeq := [], inbox := [], stalls := [], groups := List.replicate 32 ⟨false, false, 0, 0xFFFFFFFF, 0, 0, 0⟩, eLast := 0
    reqPl := 8 }

/-- A port without a link (R403). -/
def Port.down : Port := ⟨false, false, false, 0, 0, 0, 0⟩

/-- The fabric side after bring-up step 6: the host link is trained, no Caerfel link is up, the device is not joined
(R424). -/
def Fabric.reset : Fabric :=
  { joined := false, tsync := false, devnum := 0, ftimeout := 100
    ports := List.replicate 18 .down, sled := none, holdTime := 0, waggles := []
    hdata := List.replicate 7 0, hseq := 0, mdata := List.replicate 7 0, mseq := 0, msix := 0, hdmBase := 0
    ide := false, hostLink := true, features := true, requests := [], silent := [], refused := none, unsigned := false, ideDrops := 0
    msixTable := .empty, hostReply := (0, false), rasErrors := 0, downReports := 0, measured := [] }

/-- The reliability state after bring-up: no unit is poisoned (R417, R424). -/
def Reliab.reset : Reliab :=
  { ceCnt := 0, ueCnt := 0, uloc := 0, spFail := 0, uaddr := 0, sen := true, speriod := 86400, ageMarg := 0
    ageCore := 0, poison := [], spare := [], noSpare := [], boots := 0, checker := [] }

/-- The machine right after a device reset: bring-up steps 1 to 6 are done and the management core stands at line 0 of
the firmware image (R424). The image itself comes from outside the machine (notes/assumptions/1.md). -/
def State.reset : State :=
  { agenda := [], cur := .mgmt, pairRead := none, trapped := none, fresh := 64 * 2 ^ 64, drawer := 64
    drawn := (List.range 65).map (· * 2 ^ 64), nextId := 1, ftime := 0, uptime := 0, mem := .empty
    hostMem := .empty, peerMem := .empty, snoop := [], mgmt := .reset, csr := .reset, blocks := [], launches := []
    windows := [], cmds := [], deferred := [], searches := [], queries := [], acmReqs := [], acmLeft := [], waiting := [], events := [], evSeq := 0
    tlb := [], cache := [], l2 := [], stats := [], queues := List.replicate 256 .reset, tenants := List.replicate 8 .reset
    ctxs := List.replicate 64 .reset, sensors := List.replicate 240 ⟨0, 0, 0, false⟩, supplies := List.replicate 4 .reset
    columns := List.replicate 48 .reset, slots := [], coreLast := [], capDuty := 16, winEnergy := 0, winBudget := 0, tokWindow := 0, fabric := .reset
    rel := .reset, stopped := false, powerOff := none }

end Sys2Proof.Machine
end

