-- ==== Sys2Proof/Machine/Ops.lean ====
section
/-!
DEFINITION. The named operations over memory, registers and the issue state that every meaning is built from: byte and
word access in canonical memories, blocks, groups and units, operand-independent register writes, the move of threads
to their next IP (R44) and of units through the PC table (R30, R31), and taking an exception (R307, R312).
-/

namespace Sys2Proof.Machine

open Sys2Proof

/-! ## Lists -/

/-- The list with its element `i` changed by `f`. -/
def updAt {α : Type} : List α → Nat → (α → α) → List α
  | [], _, _ => []
  | x :: xs, 0, f => f x :: xs
  | x :: xs, i + 1, f => x :: updAt xs i f

/-- The list with element `i` set. -/
def setAt {α : Type} (l : List α) (i : Nat) (x : α) : List α := updAt l i fun _ => x

/-- The numbers of the ones of the low 32 bits, rising. -/
def lanesOf (m : Word) : List Nat := (List.range 32).filter fun l => m.getLsbD l

/-- The mask of a list of lanes. -/
def maskOf (ls : List Nat) : Word := ls.foldl (fun m l => m ||| BitVec.ofNat 32 (2 ^ l)) 0

/-! ## Memory -/

/-- A byte of a memory; an unlisted address reads 0. -/
def readCells : List Host.Cell → Nat → Byte
  | [], _ => 0
  | (b, x) :: cs, a => if a = b then x else if a < b then 0 else readCells cs a

/-- The cells with byte `a` written, in canonical form: rising addresses, no zero listed. -/
def writeCells : List Host.Cell → Nat → Byte → List Host.Cell
  | [], a, x => if x = 0 then [] else [(a, x)]
  | (b, y) :: cs, a, x =>
    if a < b then (if x = 0 then (b, y) :: cs else (a, x) :: (b, y) :: cs)
    else if a = b then (if x = 0 then cs else (a, x) :: cs)
    else (b, y) :: writeCells cs a x

/-- The byte at an address. -/
def Memory.byte (m : Memory) (a : Nat) : Byte := readCells m.cells a

/-- One byte written. -/
def Memory.setByte (m : Memory) (a : Nat) (x : Byte) : Memory := ⟨writeCells m.cells a x⟩

/-- `n` bytes from `a` on, little-endian (R6). -/
def Memory.read (m : Memory) (a : Nat) : Nat → Nat
  | 0 => 0
  | n + 1 => (m.byte a).toNat + 256 * m.read (a + 1) n

/-- The low `n` bytes of `x` written from `a` on, little-endian. -/
def Memory.write (m : Memory) (a : Nat) : Nat → Nat → Memory
  | 0, _ => m
  | n + 1, x => (m.setByte a (BitVec.ofNat 8 x)).write (a + 1) n (x / 256)

/-- `n` bytes from `a` on as a list. -/
def Memory.bytes (m : Memory) (a : Nat) : Nat → List Byte
  | 0 => []
  | n + 1 => m.byte a :: m.bytes (a + 1) n

/-- A byte list written from `a` on. -/
def Memory.setBytes (m : Memory) (a : Nat) : List Byte → Memory
  | [] => m
  | b :: bs => (m.setByte a b).setBytes (a + 1) bs

/-- The listed bytes of `src` within [lo, lo + n) laid over `dst` from `dest` on. -/
def copyCells (dst : Memory) (lo n dest : Nat) : List Host.Cell → Memory
  | [] => dst
  | (a, x) :: cs =>
    copyCells (if lo ≤ a && a < lo + n then dst.setByte (dest + (a - lo)) x else dst) lo n dest cs

/-- The memory without its listed bytes in [lo, lo + n). -/
def Memory.clear (m : Memory) (lo n : Nat) : Memory := ⟨m.cells.filter fun c => c.1 < lo || lo + n ≤ c.1⟩

/-- The canonical form: addresses strictly rising and no byte equal to what an unlisted address reads as. -/
def sortedCells : List Host.Cell → Bool
  | [] => true
  | [c] => c.2 != 0
  | c :: d :: cs => c.2 != 0 && c.1 < d.1 && sortedCells (d :: cs)

/-- The canonical form of a memory. -/
def Memory.wf (m : Memory) : Bool := sortedCells m.cells

/-! ## Blocks, groups and units -/

/-- A block by its number. -/
def State.block? (s : State) (b : Nat) : Option Block := s.blocks.find? fun x => x.id == b

/-- A launch by its number. -/
def State.launch? (s : State) (l : Nat) : Option Launch := s.launches.find? fun x => x.id == l

/-- The state with block `b` changed. -/
def State.updBlock (s : State) (b : Nat) (f : Block → Block) : State :=
  { s with blocks := s.blocks.map fun x => if x.id = b then f x else x }

/-- The state with launch `l` changed. -/
def State.updLaunch (s : State) (l : Nat) (f : Launch → Launch) : State :=
  { s with launches := s.launches.map fun x => if x.id = l then f x else x }

/-- The state with command `c` changed. -/
def State.updCmd (s : State) (c : Nat) (f : Cmd → Cmd) : State :=
  { s with cmds := s.cmds.map fun x => if x.id = c then f x else x }

/-- The number of core parts of a block's launch. -/
def Block.n (b : Block) : Nat := max 1 b.parts.length

/-- The core part a group runs on (R25). -/
def Block.partOf (b : Block) (g : Nat) : Nat := g % b.n

/-- The partition a group runs on within its core (R25). -/
def Block.partitionOf (b : Block) (g : Nat) : Nat := g / b.n % 16

/-- A part of the block. -/
def Block.part (b : Block) (k : Nat) : Option Part := b.parts[k]?

/-- The core of a group. -/
def Block.coreOf (b : Block) (g : Nat) : Nat := ((b.part (b.partOf g)).map (·.core)).getD 0

/-- The column of a core and its layer (R12, R14). -/
def columnOf (core : Nat) : Nat := core / 96 * 24 + core % 24
def layerOf (core : Nat) : Nat := core % 96 / 24

/-- The core at a layer of a column. -/
def coreAt (column layer : Nat) : Nat := column / 24 * 96 + layer * 24 + column % 24

/-- The group of an issuer. -/
def State.groupOf (s : State) : Issuer → Option Group
  | .mgmt => some s.mgmt.group
  | .unit b g _ => (s.block? b).bind fun x => x.groups[g]?

/-- The state with an issuer's group replaced. -/
def State.setGroup (s : State) (i : Issuer) (g : Group) : State :=
  match i with
  | .mgmt => { s with mgmt := { s.mgmt with group := g } }
  | .unit b n _ => s.updBlock b fun x => { x with groups := setAt x.groups n g }

/-- The partition clock of a column in pclk (R18). -/
def State.columnClock (s : State) (c : Nat) : Nat := ((s.columns[c]?).map (·.pclk20)).getD 0 / 20

/-- The partition clock an issuer's `%pclk` reads (R61, R301). -/
def State.clockOf (s : State) : Issuer → Nat
  | .mgmt => s.mgmt.pclk
  | .unit b g _ => s.columnClock (columnOf (((s.block? b).map (·.coreOf g)).getD 0))

/-! ## Free values (R9) -/

/-- The state in which context `k` draws the free values (64: the machine itself): the counts of the others are put by,
so that no value a context reads depends on what another has done (R9). -/
def State.drawFor (s : State) (k : Nat) : State :=
  { s with drawn := setAt s.drawn s.drawer s.fresh, drawer := k
           fresh := if k = s.drawer then s.fresh else s.drawn.getD k 0 }

/-- A free value and the state that has used it. -/
def State.free (s : State) : DWord × State := (Config.freeValue s.fresh, { s with fresh := s.fresh + 1 })

/-! ## Threads -/

/-- A lane's thread of a group. -/
def Group.thread (g : Group) (l : Nat) : Thread := g.threads.getD l (Thread.none 0)

/-- The group with a lane's thread changed. -/
def Group.updThread (g : Group) (l : Nat) (f : Thread → Thread) : Group := { g with threads := updAt g.threads l f }

/-- A V register of a thread. -/
def Thread.reg (t : Thread) (n : Nat) : Word := t.v.getD n 0

/-- A live thread: neither ended nor an empty lane. -/
def Thread.live (t : Thread) : Bool := match t.status with | .empty | .ended => false | _ => true

/-- A V register written: an outstanding load to it loses that register (R71) and a pair it belongs to is no longer
pending (R66). -/
def Thread.setReg (t : Thread) (n : Nat) (x : Word) : Thread :=
  { t with
    v := setAt t.v n x
    ld := t.ld.map fun o => { o with regs := o.regs.filter fun r => r.1 != n }
    pend := t.pend.filter fun q => q.reg != n && q.reg + 1 != n }

/-- The lane's V register written; a matrix result still to come for it is lost (R71, R267). -/
def Group.setReg (g : Group) (l n : Nat) (x : Word) : Group :=
  { g.updThread l fun t => t.setReg n x with
    mxq := g.mxq.map fun o => { o with lost := (l, n) :: o.lost } }

/-- A register pair written (R58). -/
def Group.setPair (g : Group) (l n : Nat) (x : DWord) : Group :=
  (g.setReg l n (x.extractLsb' 0 32)).setReg l (n + 1) (x.extractLsb' 32 32)

/-- The value of a predicate register of a lane (R55). -/
def Thread.pred (t : Thread) (n : Nat) : Bool := t.p.getLsbD n

/-- A predicate register written. -/
def Thread.setPred (t : Thread) (n : Nat) (x : Bool) : Thread :=
  { t with p := BitVec.ofNat 7 (setBits t.p.toNat n 1 (b2n x)) }

/-! ## The next IP (R44, R133) -/

/-- The slot of an IP. -/
def slotOf (ip : DWord) : Nat := ip.toNat % 8

/-- The address of the line of an IP. -/
def lineOf (ip : DWord) : Nat := ip.toNat / 64 * 64

/-- A well-formed IP (R133): zeros in bits 5 to 3 and a slot from 0 to 4. -/
def wellFormedIp (ip : DWord) : Bool := ip.toNat % 64 < 5

/-- Slot s + 1 of the same line, or slot 0 of the following line. -/
def nextSlot (ip : DWord) : DWord := if slotOf ip = 4 then ip + 60 else ip + 1

/-- The number of the highest active loop level, counting from 1; 0 for none. -/
def topLevel : List LoopLevel → Nat → Nat
  | [], _ => 0
  | l :: ls, k =>
    let r := topLevel ls (k + 1)
    if r ≠ 0 then r else if l.active then k + 1 else 0

/-- A thread moved past an instruction that does not transfer control: the loop end of its highest active level loops
back or leaves it, and with it every other active level that ends there (R44, R198). -/
def Thread.advance (t : Thread) : Thread :=
  let k := topLevel t.loops 0
  let lv := t.loops.getD (k - 1) .off
  if k ≠ 0 && lv.last = t.ip then
    if lv.count.toNat > 1 then
      { t with loops := setAt t.loops (k - 1) { lv with count := lv.count - 1 }, ip := lv.start, back := true
               again := false }
    else
      { t with loops := t.loops.map (fun x => if x.active && x.last = t.ip then .off else x), ip := nextSlot t.ip
               back := false, again := false }
  else { t with ip := nextSlot t.ip, back := false, again := false }

/-! ## The PC table (R29 to R31) -/

/-- The set of an IP (R29). -/
def pcSet (ip : DWord) : Nat :=
  let n := ip.toNat
  (bits n 9 6 ^^^ bits n 13 10) ^^^ (bits n 17 14 ^^^ bits n 2 0)

/-- A unit with where it stands: launch, block, group, number in its group. -/
structure Placed where
  launch : Nat
  block  : Nat
  group  : Nat
  idx    : Nat
  unit   : IssueUnit
  deriving DecidableEq, Repr

/-- The units of one group of a block. -/
def Block.placedOf (b : Block) (g : Nat) : List Placed :=
  (((b.groups[g]?).map (·.units)).getD []).zipIdx.map fun x => ⟨b.launch, b.id, g, x.2, x.1⟩

/-- A group stands in its core: its block is resident and its part is not saved (R338, R320). -/
def Block.resident (b : Block) (g : Nat) : Bool :=
  b.state = .resident && ((b.part (b.partOf g)).map fun p => decide (p.state = .resident)).getD false

/-- The units of every group that runs on a partition of a core. -/
def State.placedAt (s : State) (core part : Nat) : List Placed :=
  s.blocks.flatMap fun b =>
    (List.range b.groups.length).flatMap fun g =>
      if b.resident g && b.coreOf g = core && b.partitionOf g = part then b.placedOf g else []

/-- The units that stand in a way of a set. -/
def inEntry (ps : List Placed) (set way : Nat) : List Placed :=
  ps.filter fun p => pcSet p.unit.ip = set && p.unit.way == some way

/-- A way of a set that a unit of a launch with these lanes may join: same IP, same launch, disjoint lanes (R30). -/
def joinable (ps : List Placed) (launch : Nat) (u : IssueUnit) (way : Nat) : Bool :=
  let e := inEntry ps (pcSet u.ip) way
  !e.isEmpty && e.all fun p => p.unit.ip = u.ip && p.launch = launch && p.unit.lanes &&& u.lanes = 0

/-- A unit that waits outside the table for a way of a set (R31). -/
def IssueUnit.waitsAt (u : IssueUnit) (set : Nat) : Bool := u.way.isNone && u.held.isNone && pcSet u.ip = set

/-- The place of a unit among the others (R30): an entry it may join, else a free way, else none. Joining takes the
entry's age. A free way goes to the units that wait for it before one just made ready (R31): `turn` says that the unit is
the oldest of them. DESIGN CHOICE (notes/assumptions/76.md): of several entries it may join, or of several free ways, it
takes the lowest; the spec names none. -/
def choosePlace (ps : List Placed) (launch : Nat) (u : IssueUnit) (turn : Bool) : IssueUnit :=
  match (List.range 4).find? (joinable ps launch u) with
  | some w =>
    { u with way := some w, stamp := ((inEntry ps (pcSet u.ip) w).head?.map (·.unit.stamp)).getD u.stamp }
  | none =>
    if !turn && ps.any fun p => p.unit.waitsAt (pcSet u.ip) then { u with way := none }
    else
      match (List.range 4).find? fun w => (inEntry ps (pcSet u.ip) w).isEmpty with
      | some w => { u with way := some w }
      | none => { u with way := none }

/-- A unit of a group made ready at its IP: it merges with a unit of its group that stands in the table at the same IP,
and is placed as a whole (R30, R31); one that YIELD holds stands outside (R204). `others` are the units of the partition
that are not of this group. -/
def placeUnit (others : List Placed) (launch blk grp : Nat) (us : List IssueUnit) (u : IssueUnit) (turn : Bool) :
    List IssueUnit :=
  let same (x : IssueUnit) : Bool := x.ip = u.ip && x.way.isSome
  let rest := us.filter fun x => !same x
  let ps := others ++ rest.map fun x => ⟨launch, blk, grp, 0, x⟩
  if u.held.isSome then us ++ [u]
  else
    match us.find? same with
    | none => us ++ [choosePlace ps launch u turn]
    | some x =>
      let m := { u with lanes := x.lanes ||| u.lanes, stamp := min x.stamp u.stamp, hinted := x.hinted || u.hinted
                        aged := true }
      -- the merged unit stays in its entry unless another group's unit holds one of the new lanes
      let way := x.way.getD 0
      if (inEntry ps (pcSet u.ip) way).all fun p => p.unit.lanes &&& m.lanes = 0 then
        rest ++ [{ m with way := some way, stamp := x.stamp, aged := x.aged }]
      else rest ++ [choosePlace ps launch m turn]

/-- The distinct values of a list, first occurrences kept. -/
def distinct {α : Type} [DecidableEq α] (l : List α) : List α :=
  l.foldl (fun acc x => if acc.contains x then acc else acc ++ [x]) []

/-! ## Moving on -/

/-- Where a lane of the issuing unit goes (R40 to R49). -/
inductive Goto where
  | next | stay | ended
  | jump (ip : DWord)
  /-- Parks at the instruction, which issues again or completes at release. -/
  | park (on : WaitOn)
  /-- Parks at its next IP. -/
  | parkNext (on : WaitOn)
  deriving DecidableEq, Repr

/-- A thread moved as told. -/
def Thread.goto (t : Thread) : Goto → Thread
  | .next => t.advance
  | .stay => t
  | .ended => { t with status := .ended, ld := [], pend := [] }
  | .jump ip => { t with ip, back := false, again := false }
  | .park on => { t with status := .parked on }
  | .parkNext on => { t.advance with status := .parked on }

/-- The context of the instruction being issued: its issuer's group, the group its operands are read from, the unit,
and the unit's lanes. -/
structure Ctx where
  g     : Group
  rd    : Group
  u     : IssueUnit
  lanes : List Nat
  deriving DecidableEq, Repr

/-- The index of the issuing unit in its group. -/
def Issuer.idx : Issuer → Nat
  | .mgmt => 0
  | .unit _ _ u => u

/-- The thread as an instruction reads it before its loads and its group's ACRDs have completed: each register that one of
them has still to write holds its old contents or the new value, and which is not defined (R71, R267, R9). `outs` are the
ACRD results for its lane and `new` the choice for a register. -/
def Thread.mixed (new : Nat → Bool) (outs : List (Nat × Word)) (t : Thread) : Thread :=
  { t with v := (t.ld.flatMap (·.regs) ++ outs).foldl (fun v r => if new r.1 then setAt v r.1 r.2 else v) t.v }

/-- The choice for a register of a lane in the instruction that issues now. -/
def readsNew (fresh lane reg : Nat) : Bool := Config.freeChoice fresh (2 ^ 60 + 256 * lane + reg)

/-- The ACRD results that are still to be written to a lane. -/
def Group.outsAt (g : Group) (l : Nat) : List (Nat × Word) :=
  g.mxq.flatMap fun o => (o.outs.filter fun x => x.1 = l && !o.lost.contains (x.1, x.2.1)).map (·.2)

/-- The group as an instruction that issues now reads it (R71, R267). -/
def Group.mixed (g : Group) (fresh : Nat) : Group :=
  { g with threads := g.threads.zipIdx.map fun x => x.1.mixed (readsNew fresh x.2) (g.outsAt x.2) }

/-- The context of the current issuer; none when it has no such unit. -/
def State.ctx? (s : State) : Option Ctx :=
  match s.groupOf s.cur with
  | none => none
  | some g =>
    match g.units[s.cur.idx]? with
    | none => none
    | some u => some { g, rd := ((s.pairRead.map (·.1)).getD g).mixed s.fresh, u, lanes := lanesOf u.lanes }

/-- The ready lanes of a list that stand at an IP. -/
def Group.lanesAt (g : Group) (ls : List Nat) (ip : DWord) : List Nat :=
  ls.filter fun l => (g.thread l).status = .ready && (g.thread l).ip = ip

/-- The units of the partition that an issuer's group shares its PC table with, its own left out. -/
def State.others (s : State) : Issuer → List Placed
  | .mgmt => []
  | .unit b g _ =>
    match s.block? b with
    | none => []
    | some x => (s.placedAt (x.coreOf g) (x.partitionOf g)).filter fun p => !(p.block = b && p.group = g)

/-- The launch of an issuer. -/
def State.launchOf (s : State) : Issuer → Option Launch
  | .mgmt => none
  | .unit b _ _ => (s.block? b).bind fun x => s.launch? x.launch

/-- The ready lanes `ls` of an issuer's group made units, one for each IP, and placed (R30, R31). -/
def State.ready (s : State) (iss : Issuer) (g : Group) (ls : List Nat) (hinted : Word → Bool)
    (held : Option Nat) : State :=
  let ips := distinct ((ls.filter fun l => (g.thread l).status = .ready).map fun l => (g.thread l).ip)
  let (b, n) := match iss with | .mgmt => (0, 0) | .unit b n _ => (b, n)
  let launch := ((s.launchOf iss).map (·.id)).getD 0
  let us := ips.foldl (fun us ip =>
    let m := maskOf (g.lanesAt ls ip)
    placeUnit (s.others iss) launch b n us
      { lanes := m, ip, way := none, stamp := s.clockOf iss, hinted := hinted m, held, aged := false, stuck := false }
      false) g.units
  s.setGroup iss { g with units := us }

/-- The other lanes of a lane's quad. -/
def quadMates (l : Nat) : List Nat := ((List.range 4).map fun i => l / 4 * 4 + i).filter (· ≠ l)

/-- A quad-mate that supplies its value without executing: parked at a JWAIT, ended, never there, or a helper (R39). -/
def Thread.quadExempt (t : Thread) : Bool :=
  t.helper ||
    match t.status with
    | .parked (.join _) => true
    | .ended | .empty => true
    | _ => false

/-- The lanes parked at a quad instruction whose missing quad-mates have since parked at a JWAIT or ended (R39). -/
def Group.quadDone (g : Group) : List Nat :=
  (List.range 32).filter fun l =>
    let t := g.thread l
    t.status = .parked .quad && (quadMates l).all fun m =>
      (g.thread m).quadExempt || ((g.thread m).status = .parked .quad && (g.thread m).ip = t.ip)

/-- Parked lanes made ready again at the IP they hold. -/
def Group.unpark (g : Group) (ls : List Nat) : Group :=
  ls.foldl (fun g l => g.updThread l fun t => { t with status := .ready }) g

/-- Lanes taken out of their units, with the units that this leaves empty. -/
def Group.leave (g : Group) (ls : List Nat) : Group :=
  let m := maskOf ls
  { g with units := (g.units.map fun u => { u with lanes := u.lanes &&& ~~~m }).filter fun u => u.lanes ≠ 0 }

/-- The lane goes to its next IP, where a loop end lets it step. -/
def Goto.steps : Goto → Bool
  | .next | .parkNext _ => true
  | _ => false

/-- The lanes of a unit that are ready after their instruction and have hinted priority then: all that are, where the unit
has it and keeps it. It ends where threads of the unit decide differently at a loop end (R40, R44). -/
def Ctx.hintedLanes (c : Ctx) (g : Group) (dest : Nat → Goto) (keep : Bool) : Word :=
  let ends := distinct ((c.lanes.filter fun l => (dest l).steps).map fun l => (g.thread l).ip)
  if keep && c.u.hinted && ends.length ≤ 1 then maskOf (c.lanes.filter fun l => (g.thread l).status = .ready) else 0

/-- The issuing unit done with its instruction: every lane goes where `dest` says, and what is ready is placed again,
with the lanes `extra` that the instruction has made ready. `keep`: the unit keeps its hinted priority, but for lanes that
park or end, and no lane that it releases receives it; `hint`: the lanes of a path a branch hint names (R40); `held`: YIELD
holds the unit (R204). Lanes that the instruction has released into the issuing unit stay in it (R50). -/
def State.commitWith (s : State) (c : Ctx) (g : Group) (dest : Nat → Goto) (keep : Bool) (hint : Word)
    (extra : List Nat) (held : Bool) : State :=
  let g := c.lanes.foldl (fun g l => g.updThread l fun t => t.goto (dest l)) g
  match s.pairRead with
  | some (_, true) =>
    -- the first slot of a pair: the unit stands as a whole at the second
    s.setGroup s.cur { g with units := updAt g.units s.cur.idx fun u => { u with ip := nextSlot u.ip } }
  | _ =>
    let kept := c.hintedLanes g dest keep
    let quads := g.quadDone
    let g := (g.unpark quads).leave c.lanes
    s.ready s.cur g (c.lanes ++ extra ++ quads)
      (fun m => m &&& kept ≠ 0 || (hint ≠ 0 && m &&& hint = m))
      (if held then some (s.clockOf s.cur) else none)

/-- `commitWith` for an instruction that makes no other lane ready. -/
def State.commit (s : State) (c : Ctx) (g : Group) (dest : Nat → Goto) (keep : Bool) (hint : Word) : State :=
  s.commitWith c g dest keep hint [] false

/-- Parked lanes of an issuer's group, each changed by `f`, made ready and placed (R50). -/
def State.wake (s : State) (iss : Issuer) (ls : List Nat) (f : Nat → Thread → Thread) : State :=
  match s.groupOf iss with
  | none => s
  | some g =>
    let g := ls.foldl (fun g l => g.updThread l fun t => { f l t with status := .ready }) g
    s.ready iss g ls (fun _ => false) none

/-! ## Taking an exception -/

/-- A trap without EXTRA. -/
def mkTrap (cause : Cause) (rank lane detail : Nat) : Trap := { cause, rank, lane, detail, extra := [] }

/-- The cause code (R305). -/
def Cause.code : Cause → Nat
  | .illegal => 1 | .badTarget => 2 | .iparity => 3 | .overlay => 4 | .diverged => 5 | .misalign => 6 | .access => 7
  | .page => 8 | .pipe => 9 | .imbal => 10 | .acmCeil => 11 | .handle => 12 | .brk => 13 | .user => 14
  | .ringFault => 16 | .saved => 17 | .restored => 18 | .tokRet => 19 | .replay => 20

/-- TRAPINFO: SLOT1, LANE and DETAIL (R306). -/
def trapInfo (slot1 : Bool) (lane detail : Nat) : DWord :=
  BitVec.ofNat 64 (b2n slot1 * 2 ^ 63 + lane % 32 * 2 ^ 58 + detail % 2 ^ 58)

/-- The tenant partition of a context (R326). -/
def State.tenantOf (s : State) (ctx : Nat) : Nat := (s.csr.ctxPart.getD ctx 0).toNat

/-- BLK of an event entry (R308): core, block-table slot, core part, partition, group slot, lane. -/
def Block.eventWord (b : Block) (g lane : Nat) : Word :=
  let p := b.partOf g
  BitVec.ofNat 32 (b.coreOf g * 2 ^ 24 + ((b.part p).map (·.slot)).getD 0 % 64 * 2 ^ 18 + p * 2 ^ 16
    + b.partitionOf g * 2 ^ 12 + g / b.n / 16 % 16 * 2 ^ 8 + lane % 32 * 2 ^ 3)

/-- An event raised: it waits at its source until EVENT_POST writes it (R309). -/
def State.raise (s : State) (e : Event) : State := { s with waiting := s.waiting ++ [e] }

/-- An event that no block waits for (R305). -/
def plainEvent (cause : Cause) (ctx tpart : Nat) (info : DWord) (extra : List Byte) : Event :=
  { cause, parked := false, savedPart := false, ctx, tpart, blkWord := 0xFFFFFFFF, blkIdx := 0, trapIp := 0, info
    extra, block := 0, lanes := [], pair := false, answer := none, seq := 0 }

/-- The management core enters TRAPVEC (R312): a trap taken while one is handled halts it and signals a fatal error,
after which every core stops issue, the host is told through CXL RAS, and the fabric links go down (R426); else the state is saved and the trap entry is next. -/
def State.enterTrapVec (s : State) (isInt : Bool) (code : Nat) (info ip : DWord) : State :=
  if s.csr.tl then
    { s with mgmt := { s.mgmt with halted := true }, stopped := true
             fabric := { s.fabric with ports := s.fabric.ports.map fun _ => .down, rasErrors := s.fabric.rasErrors + 1 } }
  else
    let c := { s.csr with
      trapInt := isInt, trapCode := BitVec.ofNat 8 code, trapIp := ip, trapInfo := info
      ppl := s.csr.pl, pie := s.csr.ie, ie := false, tl := true, pl := 2 }
    let g := s.mgmt.group
    let entry := s.csr.trapVec
    { s with
      csr := c
      mgmt := { s.mgmt with
        group := { g.updThread 0 fun t => { t with ip := entry, back := false, status := .ready } with
          units := [⟨1, entry, some 0, s.mgmt.pclk, false, none, false, false⟩] } } }

/-- A PIPE trap uses up the checker disagreement it reports; a retired matrix column takes the partition's spare
(R409, R410). -/
def Reliab.piped (r : Reliab) (here code : Nat) : Reliab :=
  { r with
    checker := r.checker.eraseP fun c => c.1 = here && c.2 = code
    spare := if code = 3 then here :: r.spare else r.spare }

/-- TAKING AN EXCEPTION: the one operation that every trapping instruction calls. On the management core the trap goes
to TRAPVEC (R312); on a compute core the trapping block parks and an event is raised (R307). The instruction has no
other effect. -/
def State.takeTrap (s : State) (t : Trap) : State :=
  let slot1 := match s.pairRead with | some (_, false) => true | _ => false
  match s.cur with
  | .mgmt =>
    { s.enterTrapVec false t.cause.code (trapInfo slot1 t.lane t.detail) (s.mgmt.group.thread 0).ip with
      trapped := some t
      rel := if t.cause = .pipe then s.rel.piped (192 * 16) t.detail else s.rel }
  | .unit b g u =>
    match s.block? b, s.groupOf s.cur with
    | some x, some grp =>
      let unit := grp.units.getD u ⟨0, 0, none, 0, false, none, false, false⟩
      let ctx := ((s.launch? x.launch).map (·.ctx)).getD 0
      -- a pair's TRAPIP is slot k, which its unit has left when slot k + 1 issues
      let ip := match s.pairRead with | some (r, _) => (r.units.getD u unit).ip | none => unit.ip
      { s.raise
          { cause := t.cause, parked := true
            savedPart := x.parts.any fun p => p.state != .resident
            ctx, tpart := s.tenantOf ctx, blkWord := x.eventWord g t.lane
            blkIdx := BitVec.ofNat 32 x.index, trapIp := ip, info := trapInfo slot1 t.lane t.detail
            extra := t.extra, block := b, lanes := [(g, unit.lanes)], pair := s.pairRead.isSome, answer := none
            seq := 0 } with
        trapped := some t
        rel := if t.cause = .pipe then s.rel.piped (x.coreOf g * 16 + x.partitionOf g) t.detail else s.rel }
    | _, _ => s

/-- RETURNING FROM AN EXCEPTION (R315): the level, IE and the IP come back, and TL is cleared. ERET's own checks stand
before it. -/
def State.returnFromTrap (s : State) : State :=
  let ip := s.csr.trapIp
  { s with
    csr := { s.csr with pl := s.csr.ppl, ie := s.csr.pie, tl := false }
    mgmt := { s.mgmt with
      group := { s.mgmt.group.updThread 0 fun t => { t with ip, back := false } with
        units := [⟨1, ip, some 0, s.mgmt.pclk, false, none, false, false⟩] } } }

/-! ## Outcomes -/

/-- Why an issue does not take effect: a trap, or a hold, after which the unit issues the instruction again (R51); or a
hold for the answer of another device, with the requests that then wait (R400). -/
inductive Stop where
  | trap (t : Trap)
  | hold
  | wait (rs : List Request)
  deriving DecidableEq, Repr

/-- The outcome of one step of the machine. -/
abbrev Out := Host.Outcome State Fault Refusal

/-- The state with other requests waiting for other devices. -/
def State.setRequests (s : State) (rs : List Request) : State := { s with fabric := { s.fabric with requests := rs } }

/-- The outcome of an issue: its state; or the trap taken in the state before it, which the instruction leaves
otherwise unchanged; or a hold. -/
def State.finish (s : State) (r : Except Stop State) : Out :=
  match r with
  | .ok t => .next t
  | .error (.trap t) => .next (s.takeTrap t)
  | .error .hold => .next s
  | .error (.wait rs) => .next (s.setRequests rs)

/-- The first trap found, in the order of an entry's checks; within one check the lowest lane (R222). -/
def firstTrap (ts : List Trap) : Option Trap :=
  ts.foldl (fun best t =>
    match best with
    | none => some t
    | some b => if t.rank < b.rank || (t.rank = b.rank && t.lane < b.lane) then some t else some b) none

/-- The state when no check finds a trap. -/
def guardTraps (ts : List Trap) (k : Except Stop State) : Except Stop State :=
  match firstTrap ts with
  | some t => .error (.trap t)
  | none => k

/-! ## Commands and memory in flight -/

/-- A number for a new command, block, launch or request. -/
def State.newId (s : State) : Nat × State := (s.nextId, { s with nextId := s.nextId + 1 })

/-- A pin found by a search has since been overwritten or cleared (R98): its register's count has moved. -/
def State.pinCleared (s : State) (p : Nat × Nat × Nat × Nat) : Bool :=
  match (s.block? p.1).bind fun x => x.groups[p.2.1]? with
  | some g => g.pnGen.getD p.2.2.1 0 ≠ p.2.2.2
  | none => true

/-- Deferred names whose pins are all clear become ready, each taking its place in the order of readiness (R232). -/
def State.settle (s : State) : State :=
  { s with
    deferred := s.deferred.map fun d =>
      if d.order = 0 && d.remote = 0 && d.pins.all s.pinCleared then { d with order := s.nextId } else d
    nextId := s.nextId + 1 }

/-- Interrupts pending (R311): the W1C bits, and the bits that follow their conditions. -/
def State.intPending (s : State) : Nat :=
  let lv (n : Nat) := s.sensors.any fun x => x.level ≥ n
  s.csr.intPend.toNat / 32 % 16 * 32 + b2n (s.csr.timeCmp.toNat ≤ s.ftime) * 16 + b2n (lv 3) * 8 + b2n (lv 2) * 4
    + b2n (lv 1) * 2 + b2n (s.csr.evqHead != s.csr.evqTail)

/-- The lowest source that is pending and enabled (R311, R316). -/
def State.takenSource (s : State) : Option Nat :=
  (List.range 9).find? fun i => bit s.intPending i && s.csr.intEn.getLsbD i

end Sys2Proof.Machine
end

