-- ==== Sys2Proof/Machine/Operands.lean ====
section
/-!
DEFINITION. Operands: the special values (R14, R25, R60, R61, R301), reading and writing every operand form (R140 to
R142, R156), guards (R135), waiting for pending pairs (R66, R37), and the one pipeline that the instructions which only
read and write registers run through (R36, R37, R158).
-/

namespace Sys2Proof.Machine

open Sys2Proof

/-! ## Special values -/

/-- The threads a group of the launch holds in its lanes: 16 primaries under REDUNDANT (R411). -/
def Launch.redundant (l : Launch) : Bool := l.flags.getLsbD 1
def Launch.perGroup (l : Launch) : Nat := if l.redundant then 16 else 32

/-- An extent of a launch's grid or block. -/
def Launch.gridAt (l : Launch) (d : Nat) : Nat := l.grid.getD d 1
def Launch.blkAt (l : Launch) (d : Nat) : Nat := l.blk.getD d 1

/-- The lane a thread reads as its own: a shadow reads its primary's (R411). -/
def Launch.laneOf (l : Launch) (lane : Nat) : Nat := lane % l.perGroup

/-- The poisoned unit, by kind and address, that bytes of a launch's constant space were copied from (R415). -/
def Launch.poisonedConst (l : Launch) (off size : Nat) : Option (Nat × Nat) :=
  (l.constMarks.find? fun m => m.1 < off + size && off < m.2.1).map fun m => m.2.2

/-- A special value for lane `lane` of an issuer (R60; on the management core R301). -/
def State.special (s : State) (iss : Issuer) (t : Thread) (lane : Nat) (x : SpecialValue) : DWord :=
  let n (k : Nat) : DWord := BitVec.ofNat 64 k
  match x with
  | .device => n s.fabric.devnum.toNat
  | .ftime => n s.ftime
  | .pclk => n (s.clockOf iss)
  | .helper => n (b2n t.helper)
  | .ucause => n t.ucause.toNat
  | .uinfo => n t.uinfo.toNat
  | _ =>
    match iss with
    | .mgmt =>
      match x with
      | .core | .layer | .column => 0xFFFFFFFF
      | .nthrX | .nthrY | .nthrZ => 1
      | .nbv => 2
      | _ => 0
    | .unit b g _ =>
      match s.block? b, s.launchOf iss with
      | some blk, some l =>
        let i := g * l.perGroup + l.laneOf lane
        let core := blk.coreOf g
        match x with
        | .lane => n (l.laneOf lane)
        | .quad => n (l.laneOf lane / 4)
        | .group => n g
        | .thrX => n (i % l.blkAt 0)
        | .thrY => n (i / l.blkAt 0 % l.blkAt 1)
        | .thrZ => n (i / (l.blkAt 0 * l.blkAt 1))
        | .nthrX => n (l.blkAt 0)
        | .nthrY => n (l.blkAt 1)
        | .nthrZ => n (l.blkAt 2)
        | .bidX => n (blk.index % l.gridAt 0)
        | .bidY => n (blk.index / l.gridAt 0 % l.gridAt 1)
        | .bidZ => n (blk.index / (l.gridAt 0 * l.gridAt 1))
        | .nblkX => n (l.gridAt 0)
        | .nblkY => n (l.gridAt 1)
        | .nblkZ => n (l.gridAt 2)
        | .core => n core
        | .layer => n (layerOf core)
        | .column => n (columnOf core)
        | _ => n l.nbv
      | _, _ => 0

/-! ## Reading -/

/-- The count of a loop level, 0 when inactive (R65). -/
def Thread.loopCount (t : Thread) (k : Nat) : Word :=
  let l := t.loops.getD k .off
  if l.active then l.count else 0

/-- The value of field I in a position: sign-extended in a 64-bit position of an I-type, else zero-extended (R141). -/
def immValue (f : Fields) (pair : Bool) : DWord :=
  if pair && f.ty = .i64 then f.imm.signExtend 64 else f.imm.zeroExtend 64

/-- A register pair of a list of registers, low register first (R58). -/
def pairOf (l : List Word) (n : Nat) : DWord := l.getD (n + 1) 0 ++ l.getD n 0

/-- An operand read for a lane: its 32-bit or, where `pair`, 64-bit value, zero-extended (R140 to R142). -/
def State.operand (s : State) (g : Group) (lane : Nat) (f : Fields) (pair : Bool) (o : Opnd) : DWord :=
  let t := g.thread lane
  match o with
  | .v n => if pair then pairOf t.v n.toNat else (t.reg n.toNat).zeroExtend 64
  | .s n => if pair then pairOf g.s n.val else (g.s.getD n.val 0).zeroExtend 64
  | .p n => BitVec.ofNat 64 (b2n (t.pred n.val))
  | .pt => 1
  | .j n =>
    let m := g.j.getD n.toNat 0
    -- under REDUNDANT a J read returns the low half (R412)
    if ((s.launchOf s.cur).map Launch.redundant).getD false then BitVec.ofNat 64 (m.toNat % 2 ^ 16)
    else m.zeroExtend 64
  | .pn n => g.pn.getD n.toNat 0
  | .lc n => (t.loopCount n.toNat).zeroExtend 64
  | .sp x =>
    let v := s.special s.cur t lane x
    if pair then v else BitVec.ofNat 64 (v.toNat % 2 ^ 32)
  | .imm => immValue f pair
  | .zero => 0

/-- A predicate operand (R156, R189). -/
def Thread.predOf (t : Thread) : Opnd → Bool
  | .p n => t.pred n.val
  | .pt => true
  | _ => false

/-- The guard value of an instruction in a thread (R135). -/
def Thread.guard (t : Thread) (f : Fields) : Bool :=
  (if f.gp = 7 then true else t.pred f.gp.toNat) != f.gn

/-! ## Writing -/

/-- A destination written for a lane: V or a V pair, S or an S pair, or discarded (R56). -/
def Group.writeDst (g : Group) (lane : Nat) (o : Opnd) (pair : Bool) (x : DWord) : Group :=
  match o with
  | .v n => if pair then g.setPair lane n.toNat x else g.setReg lane n.toNat (x.extractLsb' 0 32)
  | .s n =>
    let s1 := setAt g.s n.val (x.extractLsb' 0 32)
    { g with s := if pair then setAt s1 (n.val + 1) (x.extractLsb' 32 32) else s1 }
  | _ => g

/-- A predicate destination written for a lane; PT discards (R55). -/
def Group.writePred (g : Group) (lane : Nat) (o : Opnd) (x : Bool) : Group :=
  match o with
  | .p n => g.updThread lane fun t => t.setPred n.val x
  | _ => g

/-! ## Pending pairs (R66, R67) -/

/-- The V registers an operand reads in a position. -/
def opndRegs (p : Pos) (o : Opnd) : List Nat :=
  match o with
  | .v n => if p.isSource then (if p.isPair then [n.toNat, n.toNat + 1] else [n.toNat]) else []
  | _ => []

/-- The V registers a form reads through its operand codes. MOVIH.N32 reads its destination (R181). -/
def readRegs (op : Nat) (f : Fields) : List Nat :=
  let m := formOf op f
  let d := if op = 0x42 && f.ty = .n32 then (match f.d with | .v n => [n.toNat] | _ => []) else []
  d ++ opndRegs m.a f.a ++ opndRegs m.b f.b ++ opndRegs m.c f.c

/-- The pairs of a thread that a read of registers meets. -/
def Thread.pendIn (t : Thread) (regs : List Nat) : List PendPair :=
  t.pend.filter fun q => regs.contains q.reg || regs.contains (q.reg + 1)

/-- The commands a read of registers waits for. -/
def Thread.waitsFor (t : Thread) (regs : List Nat) : List Nat :=
  ((t.pendIn regs).filter fun q => !q.cancelled).map (·.cmd)

/-- A read of a cancelled pair raises HANDLE, except in a helper (R67, R306). -/
def Thread.handleTrap (t : Thread) (lane : Nat) (regs : List Nat) : List Trap :=
  if t.helper then []
  else (((t.pendIn regs).filter (·.cancelled)).head?.map fun q => mkTrap .handle 1 lane q.reg).toList

/-- The number of a poisoned unit or word of an array of a core: its number there, the core, and for what a block owns on the
core the block's slot in the block table, above the 40 bits that UADDR shows (R416, R417; notes/assumptions/24.md). -/
def markAt (slot core word : Nat) : Nat := slot * 2 ^ 40 + core * 2 ^ 20 + word
def markSlot (k : Nat) : Nat := k / 2 ^ 40
def markCore (k : Nat) : Nat := k / 2 ^ 20 % 2 ^ 20
def markWord (k : Nat) : Nat := k % 2 ^ 20

/-- The block-table slot of the issuer's part; 0 on the management core. -/
def State.slotOfCur (s : State) : Nat :=
  match s.cur with
  | .mgmt => 0
  | .unit b g _ => (((s.block? b).bind fun x => x.part (x.partOf g)).map (·.slot)).getD 0

/-- The word of a register of a core's register file that UADDR counts (R417; the order of words within a partition is
the model's, notes/assumptions/24.md). -/
def regWord (n part groupSlot lane reg : Nat) : Nat := part * 16384 + groupSlot * (32 * n) + lane * n + reg

/-- The core and the partition whose register file and pipes an issuer uses. The management core counts as core 192, which
no compute core is (notes/assumptions/24.md). -/
def State.homeOfCur (s : State) : Option (Nat × Nat × Nat) :=
  match s.cur with
  | .mgmt => some (192, 0, 0)
  | .unit b g _ => (s.block? b).map fun x => (x.coreOf g, x.partitionOf g, g / x.n / 16)

/-- The registers of the issuer's window (R57). -/
def State.window (s : State) : Nat :=
  match s.cur with
  | .mgmt => mgmtWindow
  | .unit _ _ _ => ((s.launchOf s.cur).map (·.regs)).getD 0

/-- A read of a poisoned register-file word raises PIPE code 6 (R415). -/
def State.poisonTrap (s : State) (lane : Nat) (regs : List Nat) : List Trap :=
  if s.rel.poison.isEmpty then []
  else
    match s.homeOfCur with
    | none => []
    | some (core, part, slot) =>
      let bad := regs.find? fun r =>
        s.rel.poison.contains (5, markAt s.slotOfCur core (regWord s.window part slot lane r))
      (bad.map fun r => mkTrap .pipe 2 lane (6 + r * 2 ^ 8 + 5 * 2 ^ 48)).toList

/-- A checker disagreement that stands against the issuer's partition (R409): its PIPE code. -/
def State.checkerCode (s : State) (codes : List Nat) : Option Nat :=
  match s.homeOfCur with
  | none => none
  | some (core, part, _) => (s.rel.checker.find? fun c => c.1 = core * 16 + part && codes.contains c.2).map (·.2)

/-! ## Group-wide issue (R36, R37) -/

/-- The lowest-numbered non-helper lane of the unit, or its lowest lane. -/
def Ctx.lowLane (c : Ctx) : Nat :=
  ((c.lanes.find? fun l => !(c.g.thread l).helper).orElse fun _ => c.lanes.head?).getD 0

/-- The group is whole: every thread that has not ended and is no helper stands in the unit (R36). -/
def Ctx.whole (c : Ctx) : Bool :=
  (List.range 32).all fun l =>
    let t := c.g.thread l
    !t.live || t.helper || c.lanes.contains l

/-- DIVERGED, with the lanes present in the unit (R36, R306). -/
def Ctx.diverged (c : Ctx) : List Trap :=
  if c.whole then [] else [mkTrap .diverged 0 (c.lanes.headD 0) c.u.lanes.toNat]

/-- A unit of helpers alone whose group is not whole. -/
def Ctx.helpersAlone (c : Ctx) : Bool := !c.whole && c.lanes.all fun l => (c.g.thread l).helper

/-- The checks of a group-wide instruction: its group is found whole first (R36). Helpers never cause DIVERGED (R27). DESIGN
CHOICE (notes/assumptions/77.md): a unit of helpers alone, whose group stands elsewhere, is held at the instruction. -/
def guardGroup (c : Ctx) (ts : List Trap) (k : Except Stop State) : Except Stop State :=
  if c.helpersAlone then .error .hold else guardTraps (c.diverged ++ ts) k

/-- The active lanes: those whose guard is true. -/
def Ctx.active (c : Ctx) (f : Fields) : List Nat := c.lanes.filter fun l => (c.rd.thread l).guard f

/-- The whole unit parks on the commands its threads' registers wait for (R37). -/
def State.parkUnit (s : State) (c : Ctx) (cmds : List Nat) : State :=
  s.commit c c.g (fun _ => .park (.handles cmds)) false 0

/-- The lanes `ls` of the unit leave it to wait; the rest stays at the instruction as a unit (R66). -/
def State.parkLanes (s : State) (c : Ctx) (wait : Nat → List Nat) : State :=
  s.commit c c.g (fun l => if (wait l).isEmpty then .stay else .park (.handles (wait l))) true 0

/-- The context with the lanes `ls` of its unit alone. -/
def Ctx.restrict (c : Ctx) (ls : List Nat) : Ctx := { c with lanes := ls, u := { c.u with lanes := maskOf ls } }

/-! ## Redundant lanes (R411 to R413) -/

/-- The issuing launch runs with redundant lanes. -/
def State.redundant (s : State) : Bool := ((s.launchOf s.cur).map Launch.redundant).getD false

/-- The first two compared values that differ. -/
def firstDiff : List DWord → List DWord → Option (DWord × DWord)
  | x :: xs, y :: ys => if x = y then firstDiff xs ys else some (x, y)
  | _, _ => none

/-- PIPE code 2 where a primary and its shadow differ in a compared value, with both values in EXTRA (R413). `key` lists
the values compared of a lane, in their order. -/
def State.mismatch (s : State) (c : Ctx) (key : Nat → List DWord) : List Trap :=
  if s.redundant then
    (c.lanes.filter fun l => l < 16 && c.lanes.contains (l + 16)).filterMap fun l =>
      (firstDiff (key l) (key (l + 16))).map fun d =>
        { mkTrap .pipe 4 l 2 with extra := leBytes 8 d.1.toNat ++ leBytes 8 d.2.toNat }
  else []

/-- The lanes that perform events: under REDUNDANT the primaries (R412). -/
def State.primaries (s : State) (ls : List Nat) : List Nat := if s.redundant then ls.filter (· < 16) else ls

/-- The lane whose event serves a lane: a shadow's is its primary's. -/
def State.primaryOf (s : State) (l : Nat) : Nat := if s.redundant then l % 16 else l

/-! ## The register pipeline -/

/-- What an instruction that only reads and writes registers does in one lane: the group after it. -/
abbrev LaneOp := Ctx → Group → Nat → Group

/-- The lanes that wait leave the unit, parked on their commands, and the others execute `run` (R66). -/
def State.withoutWaiting (s : State) (c : Ctx) (wait : Nat → List Nat) (run : State → Ctx → Except Stop State) :
    Except Stop State :=
  let stay := c.lanes.filter fun l => (wait l).isEmpty
  if stay.length = c.lanes.length then run s c
  else if stay.isEmpty then .ok (s.parkLanes c wait)
  else
    -- the waiting lanes park first; the unit keeps its place with the rest
    let g := c.lanes.foldl (fun g l =>
      if (wait l).isEmpty then g else g.updThread l fun t => t.goto (.park (.handles (wait l)))) c.g
    let g := { g with units := updAt g.units s.cur.idx fun u => { u with lanes := maskOf stay } }
    let s' := s.setGroup s.cur g
    run s' { c.restrict stay with g }

/-- A form without S registers: each active thread acts on its own; a pending source parks its thread, a cancelled one
raises HANDLE, a poisoned one PIPE; then every lane moves on (R66, R135, R159). DESIGN CHOICE (notes/assumptions/78.md):
HANDLE and PIPE code 6 of a thread come before another thread's wait; the spec gives no order between them. -/
def State.perThread (s : State) (f : Fields) (regs : Nat → List Nat) (checks : Ctx → List Nat → List Trap)
    (act : LaneOp) : Except Stop State :=
  match s.ctx? with
  | none => .ok s
  | some c =>
    let on := c.active f
    let traps := on.flatMap fun l => (c.rd.thread l).handleTrap l (regs l) ++ s.poisonTrap l (regs l)
    guardTraps traps <|
      s.withoutWaiting c (fun l => if on.contains l then (c.rd.thread l).waitsFor (regs l) else []) fun s c =>
        let on := c.active f
        guardTraps (checks c on) <|
          .ok (s.commit c (on.foldl (fun g l => act c g l) c.g) (fun _ => .next) true 0)

/-- A form that names an S register: once for the group, in its lowest non-helper lane, after the group is found whole;
its V destination is written in every lane of the unit (R37, R158). -/
def State.perGroup (s : State) (f : Fields) (regs : List Nat) (value : Ctx → Nat → DWord)
    (write : Group → Nat → DWord → Group) (also : Ctx → Group → Group) : Except Stop State :=
  match s.ctx? with
  | none => .ok s
  | some c =>
    let low := c.lowLane
    let cmds := if (c.rd.thread low).guard f then (c.rd.thread low).waitsFor regs else []
    if !cmds.isEmpty then .ok (s.parkUnit c cmds)
    else
      guardGroup c (if (c.rd.thread low).guard f then
        (c.rd.thread low).handleTrap low regs ++ s.poisonTrap low regs else []) <|
        if (c.rd.thread low).guard f then
          let x := value c low
          .ok (s.commit c (also c (c.lanes.foldl (fun g l => write g l x) c.g)) (fun _ => .next) true 0)
        else .ok (s.commit c c.g (fun _ => .next) true 0)

/-- An instruction of the vector pipe, or in an S form of the scalar pipe: a checker disagreement raises PIPE code 0 or 1
and leaves everything as it was (R159, R409), where some thread's guard is true, so that there is a result (R135). DESIGN CHOICE (notes/assumptions/78.md): it comes before the instruction's
other conditions and before a wait on a pending pair; the spec gives no order between them. -/
def State.checked (s : State) (f : Fields) (r : Except Stop State) : Except Stop State :=
  match s.checkerCode [if f.namesS then 1 else 0], s.ctx? with
  | some k, some c =>
    match if f.namesS then [c.lowLane].filter fun l => (c.rd.thread l).guard f else c.active f with
    | [] => r
    | l :: _ => .error (.trap (mkTrap .pipe 3 l k))
  | _, _ => r

/-- An arithmetic, convert or move form with one result: `value s g lane` computed from the operands as they stood
before the instruction, written to D in each active thread, or once for the group in an S form (R156 to R159). -/
def State.compute (s : State) (op : Nat) (f : Fields) (pair : Bool) (value : State → Group → Nat → DWord) :
    Except Stop State :=
  s.checked f <|
    if f.namesS then
      s.perGroup f (readRegs op f) (fun c l => value s c.rd l) (fun g l x => g.writeDst l f.d pair x) fun _ g => g
    else
      s.perThread f (fun _ => readRegs op f) (fun _ _ => []) fun c g l => g.writeDst l f.d pair (value s c.rd l)

/-- The same for a form that writes a predicate (R158, R170, R175). -/
def State.computePred (s : State) (op : Nat) (f : Fields) (value : State → Group → Nat → Bool) : Except Stop State :=
  s.checked f <|
    if f.namesS then
      s.perGroup f (readRegs op f) (fun c l => BitVec.ofNat 64 (b2n (value s c.rd l)))
        (fun g l x => g.writePred l f.d (x.getLsbD 0)) fun _ g => g
    else
      s.perThread f (fun _ => readRegs op f) (fun _ _ => []) fun c g l => g.writePred l f.d (value s c.rd l)

end Sys2Proof.Machine
end

