-- ==== Sys2Proof/Machine/Access.lean ====
section
/-!
DEFINITION. Memory as spec/04_memory_and_ordering.md and spec/17_translation_partitions.md give it: the channel views
(R345, R347), the page walk and publish regions (R346, R351, R352), where an access goes (R74), the memory-side cache
(R79, R360), poison (R415), and scratch addresses (R26, R75).
-/

namespace Sys2Proof.Machine

open Sys2Proof

/-- M, the size of HBM (R344). -/
def hbmSize : Nat := 0xC000000000

/-- C, the capacity of a channel (R344). -/
def channelSize : Nat := 0x80000000

/-! ## Channels (R345, R347) -/

/-- The channel and the offset within it of a device-local address. -/
def channelOf (a : Nat) : Nat × Nat :=
  let u := a / 4096
  let r := u / 384
  ((u + r) % 384, 4096 * r + a % 4096)

/-- The device-local address of an offset of a channel. -/
def interleaved (c o : Nat) : Nat :=
  let r := o / 4096
  4096 * (384 * r + (c + 384 * (r / 384 + 1) - r) % 384) + o % 4096

/-! ## Translation -/

/-- Where an access goes (R74, R77). -/
inductive Loc where
  /-- Device memory, by its interleaved address. -/
  | dev (a : Nat)
  /-- Another device's memory, by physical address. -/
  | peer (a : Nat)
  /-- Host memory. -/
  | host (a : Nat)
  deriving DecidableEq, Repr

/-- The cache line of a place. -/
def Loc.lineOf (l : Loc) : Loc :=
  match l with
  | .dev a => .dev (a / 128 * 128)
  | .peer a => .peer (a / 128 * 128)
  | .host a => .host (a / 128 * 128)

/-- A translation: the place, write permission, sharing class and the MS bit. -/
structure Xlate where
  loc : Loc
  w   : Bool
  cls : Nat
  ms  : Bool
  deriving DecidableEq, Repr

/-- Why a translation is refused. -/
inductive XFault where
  | page | access
  deriving DecidableEq, Repr

/-- The lowest address bit of the index of a level, and so the size of the page a leaf there maps (R346). -/
def levelShift (level : Nat) : Nat := 16 + 9 * level

/-- Field widths of a page-table entry (R346). -/
def pteAddr (e : Nat) : Nat := bits e 50 12 * 4096
def pteClass (e : Nat) : Nat := bits e 7 5

/-- An entry is valid at a level (R346). -/
def pteValid (level e : Nat) : Bool :=
  let leaf := bit e 1
  let loc := pteAddr e % 2 ^ 40
  bit e 0 && bits e 63 51 = 0 && bits e 11 8 = 0 && !(leaf && level = 3) && (leaf || level ≠ 0) &&
    (if leaf then
      pteAddr e % 2 ^ levelShift level = 0 && pteClass e ≤ 4 &&
        (pteClass e = 4 ||
          (if bit e 4 then level ≠ 2 && loc / channelSize < 384 else loc < hbmSize))
    else bits e 7 2 = 0 && pteAddr e < hbmSize)

/-- The walk from the entry table at a level down to level 0: the valid leaf and its level. -/
def walkFrom (mem : Memory) (va : Nat) : Nat → Nat → Option (Nat × Nat)
  | table, level =>
    let e := mem.read (table + 8 * (va / 2 ^ levelShift level % 512)) 8
    if !pteValid level e then none
    else if bit e 1 then some (e, level)
    else
      match level with
      | 0 => none
      | k + 1 => walkFrom mem va (pteAddr e) k
termination_by structural _ level => level

/-- The valid leaf that a walk of a context's tables finds (R346, R348). -/
def State.walk (s : State) (ctx va : Nat) : Option (Nat × Nat) :=
  let root := (s.csr.ptBase.getD ctx 0).toNat
  if bit root 0 then walkFrom s.mem va (bits root 39 12 * 4096) 3 else none

/-- The leaf of an address in a context: from its tables, or any translation still cached (R349). Which one is not
defined. -/
def State.leafOf (s : State) (ctx va : Nat) : Option (Nat × Nat) :=
  let held := (s.tlb.filter fun t => t.ctx = ctx && t.va ≤ va && va < t.va + t.size).map fun t =>
    some (t.leaf.toNat, t.level)
  (oneOf (Config.freeIndex s.fresh (2 ^ 52 + va)) (s.walk ctx va :: held)).getD none

/-- The place a leaf maps an address to (R347, R74). -/
def State.leafLoc (s : State) (e level va : Nat) : Except XFault Xlate :=
  let off := va % 2 ^ levelShift level
  let attr (loc : Loc) : Xlate := { loc, w := bit e 2, cls := pteClass e, ms := bit e 3 }
  if pteClass e = 4 then .ok { attr (.host (pteAddr e + off)) with ms := false }
  else
    let dev := pteAddr e / 2 ^ 40
    let raw := pteAddr e % 2 ^ 40 + off
    let a := if bit e 4 then interleaved (raw / channelSize) (raw % channelSize) else raw
    if dev = s.fabric.devnum.toNat then .ok (attr (.dev a))
    else if pteClass e = 3 then .ok (attr (.peer (dev * 2 ^ 40 + a)))
    else .error .access

/-- A publish-region descriptor (R351): word 0 and word 1. -/
structure Region where
  idx  : Nat
  base : Nat
  size : Nat
  cls  : Nat
  w    : Bool
  vis  : Bool
  back : Nat × Nat
  deriving DecidableEq, Repr

/-- A descriptor's region, where it is valid (R351). -/
def regionIn (j : Nat) (w0 w1 : Nat) : Option Region :=
  if bit w0 0 && bits w0 7 5 ≤ 3 then
    some { idx := j, base := bits w0 51 21 * 2 ^ 21, size := bits w0 20 8 * 2 ^ 21, cls := bits w0 7 5, w := bit w0 4
           vis := bit w1 56, back := (bits w1 18 0 * 2 ^ 21, bits w1 37 19 * 2 ^ 21) }
  else none

/-- The valid regions of a context. -/
def CtxBlock.regions (c : CtxBlock) : List Region :=
  (List.range 64).filterMap fun j => regionIn j (c.desc.getD (2 * j) 0).toNat (c.desc.getD (2 * j + 1) 0).toNat

/-- Regions of descriptors that have been replaced and may still be used (R352). -/
def CtxBlock.oldRegions (c : CtxBlock) : List Region :=
  c.oldDesc.filterMap fun d => regionIn d.1 d.2.1.toNat d.2.2.toNat

/-- Every translation of a context raises PAGE while its EN is 0 (R348). -/
def State.ctxEnabled (s : State) (ctx : Nat) : Bool := (s.csr.ptBase.getD ctx 0).getLsbD 0

/-- The region an address of a context lies in: of a descriptor as it stands, where several overlap any of them, or of one
as it stood before a write that TLBINV.CTX has not yet made effective (R352). -/
def State.regionOf (s : State) (ctx va : Nat) : Option Region :=
  let at_ (rs : List Region) : List Region := rs.filter fun r => r.base ≤ va && va < r.base + r.size
  let cur := if s.ctxEnabled ctx then at_ (((s.ctxs[ctx]?).map CtxBlock.regions).getD []) else []
  let old := at_ (((s.ctxs[ctx]?).map CtxBlock.oldRegions).getD [])
  match (oneOf (Config.freeIndex s.fresh (2 ^ 53 + va)) (none :: old.map some)).join with
  | some r => some r
  | none => oneOf (Config.freeIndex s.fresh va) cur

/-- The visible or hidden backing of a region. -/
def Region.backing (r : Region) (visible : Bool) : Nat := if r.vis = visible then r.back.2 else r.back.1

/-- The JOBMAP of a context's partition admits a DOMAIN access to another device (R405). -/
def State.jobAllows (s : State) (ctx dev : Nat) : Bool :=
  match s.tenants[s.tenantOf ctx]? with
  | none => false
  | some t => t.jv && t.keySt ≠ 0 && (t.jobMap.getD (dev / 64) 0).getLsbD (dev % 64)

/-- A program access of a context to a global address below 2^52: PAGE, then ACCESS (R222 steps 3 and 4). -/
def State.translate (s : State) (ctx va : Nat) (write : Bool) : Except XFault Xlate :=
  match s.regionOf ctx va with
  | some r =>
    let a := r.backing true + (va - r.base)
    if write && !r.w then .error .access
    else if a < hbmSize then .ok { loc := .dev a, w := r.w, cls := r.cls, ms := false }
    else .error .page
  | none =>
    match s.leafOf ctx va with
    | none => .error .page
    | some (e, level) =>
      match s.leafLoc e level va with
      | .error x => .error x
      | .ok x =>
        if write && !x.w then .error .access
        else
          match x.loc with
          | .peer a => if s.jobAllows ctx (a / 2 ^ 40) then .ok x else .error .access
          | _ => .ok x

/-! ## Physical access -/

/-- The bytes at a place, little-endian. -/
def State.readLoc (s : State) (l : Loc) (n : Nat) : Nat :=
  match l with
  | .dev a => s.mem.read a n
  | .peer a => s.peerMem.read a n
  | .host a => s.hostMem.read a n

/-- The bytes at a place written. -/
def State.writeLoc (s : State) (l : Loc) (n x : Nat) : State :=
  match l with
  | .dev a => { s with mem := s.mem.write a n x }
  | .peer a => { s with peerMem := s.peerMem.write a n x }
  | .host a => { s with hostMem := s.hostMem.write a n x }

/-- A back-invalidation snoop of the line a device store reaches: the host caches it no more (R102). -/
def State.snoopOut (s : State) (l : Loc) : State :=
  match l with
  | .dev a => { s with snoop := s.snoop.filter fun u => u ≠ a / 64 * 64 }
  | _ => s

/-- The poisoned unit an access would consume: its location kind and address (R415, R416). -/
def State.poisonAt (s : State) (l : Loc) : Option (Nat × Nat) :=
  let key := match l with | .dev a => (0, a / 64 * 64) | .host a => (9, a / 64 * 64) | .peer _ => (10, 0)
  if s.rel.poison.contains key then some key else none

/-- DETAIL of PIPE code 5 (R409). -/
def poisonDetail (k : Nat × Nat) : Nat := 5 + k.2 % 2 ^ 40 * 2 ^ 8 + k.1 * 2 ^ 48

/-! ## L2 and the memory-side cache (R77, R79, R82, R357 to R362) -/

/-- The cache line of a device address: its channel and line number there. -/
def cacheLineOf (a : Nat) : Nat × Nat :=
  let (c, o) := channelOf a
  (c, o / 128)

/-- What a lookup leaves: the lines, a hit, a hit outside the class's mask, and the line it has replaced. -/
structure Lookup where
  lines   : List CacheLine
  hit     : Bool
  outside : Bool
  victim  : Option CacheLine

/-- One lookup of a line in a slice for a class (R360): a hit in any way makes it most recent; a miss fills the lowest invalid
way that the mask allows, else the least recently used of them; an empty mask fills nothing. -/
def lookupLine (lines : List CacheLine) (mask : Nat) (x : CacheLine) : Lookup :=
  match lines.find? fun y => y.slice = x.slice && y.line = x.line with
  | some y =>
    { lines := lines.map fun z => if z = y then { y with stamp := x.stamp, dirty := y.dirty || x.dirty } else z
      hit := true, outside := !bit mask y.way, victim := none }
  | none =>
    let ways := (List.range 16).filter fun w => bit mask w
    let set := lines.filter fun y => y.slice = x.slice && y.set = x.set
    match ways.find? fun w => !(set.any fun y => y.way = w) with
    | some w => { lines := { x with way := w } :: lines, hit := false, outside := false, victim := none }
    | none =>
      let old := (set.filter fun y => ways.contains y.way).foldl (fun (b : Option CacheLine) y =>
        match b with | none => some y | some z => if y.stamp < z.stamp then some y else some z) none
      match old with
      | none => { lines, hit := false, outside := false, victim := none }
      | some y =>
        { lines := { x with way := y.way } :: lines.filter fun z => z ≠ y, hit := false, outside := false
          victim := some y }

/-- A lookup counted for its class at its slice (R367). -/
def countLookup (slice cls : Nat) (r : Lookup) : List CacheStat → List CacheStat
  | [] => [⟨slice, cls, b2n r.hit, b2n !r.hit, b2n r.outside⟩]
  | x :: xs =>
    if x.slice = slice && x.cls = cls then
      { x with hits := x.hits + b2n r.hit, misses := x.misses + b2n !r.hit, outside := x.outside + b2n r.outside } :: xs
    else x :: countLookup slice cls r xs

/-- The lines and counters of L2 and the memory-side cache, and the next stamp. -/
structure Caches where
  l2    : List CacheLine
  msc   : List CacheLine
  stats : List CacheStat
  clock : Nat

/-- One lookup in the memory-side cache slice of a device address, for a class (R79, R82, R360). -/
def Caches.mscAccess (masks : List (BitVec 16)) (k : Caches) (cls a : Nat) (write : Bool) : Caches :=
  let (slice, line) := cacheLineOf a
  let mask := (masks.getD (2 * cls + 1) 0).toNat
  let r := lookupLine k.msc mask { slice, set := line % 64, line, way := 0, cls, stamp := k.clock, dirty := write }
  { k with msc := r.lines, stats := countLookup slice cls r k.stats, clock := k.clock + 1 }

/-- A line that L2 gives up reaches the memory-side cache where it is dirty. -/
def Caches.writeBack (masks : List (BitVec 16)) (k : Caches) (y : CacheLine) : Caches :=
  if y.dirty && 128 * y.line < hbmSize then k.mscAccess masks y.cls (128 * y.line) true else k

/-- One lookup in an L2 slice, for a class (R77, R360): another home gives the line up first; a miss of a line of device
memory looks it up in the memory-side cache. DESIGN CHOICE (notes/assumptions/40.md): L2 fills on a store's miss too and
writes a line back when it gives it up; the spec does not say. -/
def Caches.l2Access (masks : List (BitVec 16)) (k : Caches) (cls slice line : Nat) (write : Bool) : Caches :=
  let mask := (masks.getD (2 * cls) 0).toNat
  let moved := k.l2.filter fun y => y.line = line && y.slice ≠ slice
  let k := moved.foldl (Caches.writeBack masks) { k with l2 := k.l2.filter fun y => !(y.line = line && y.slice ≠ slice) }
  let r := lookupLine k.l2 mask
    { slice, set := Config.l2Set line % 1024, line, way := 0, cls, stamp := k.clock, dirty := write }
  let k := { k with l2 := r.lines, clock := k.clock + 1 }
  let k := match r.victim with | some y => k.writeBack masks y | none => k
  if r.hit || 128 * line ≥ hbmSize then k else k.mscAccess masks cls (128 * line) (write && mask = 0)

/-- The L2 slice of a line, in a sharing class, for an agent on a die (R77). -/
def l2Home (share die line : Nat) : Nat :=
  if share ≤ 1 then 24 * die + Config.l2DieSlice line % 24 else Config.l2Slice line % 192

/-- A load of a line that L1 may hold leased looks it up in L2 or does not (R81); every other access does. -/
def Caches.l2Touch (masks : List (BitVec 16)) (k : Caches) (cls slice line : Nat) (leased write : Bool) : Caches :=
  if leased && !write && Config.freeChoice k.clock (2 ^ 62 + line) then { k with clock := k.clock + 1 }
  else k.l2Access masks cls slice line write

/-- The lookups of an access by an agent on a die in a QoS class (R79, R357, R360): on a page with MS = 1 one in the
memory-side cache of the owning device, else one in L2. A line of another device and one of the host stand in L2 under
numbers of their own. -/
def Caches.touch (masks : List (BitVec 16)) (k : Caches) (cls die : Nat) (x : Xlate) (write : Bool) : Caches :=
  match x.loc with
  | .dev a =>
    if x.ms then k.mscAccess masks cls a write else k.l2Touch masks cls (l2Home x.cls die (a / 128)) (a / 128) true write
  | .peer a => if x.ms then k else k.l2Touch masks cls (Config.l2Slice a % 192) (2 ^ 60 + a / 128) true write
  | .host a => k.l2Touch masks cls (Config.l2Slice a % 192) (2 ^ 61 + a / 128) false write

/-- The caches of a state, and a state with other ones: only its lines, counters and stamps differ. -/
def State.caches (s : State) : Caches := ⟨s.l2, s.cache, s.stats, s.nextId⟩
def State.withCaches (s : State) (k : Caches) : State := { s with l2 := k.l2, cache := k.msc, stats := k.stats, nextId := k.clock }

/-- The lookups of an access. -/
def State.touch (s : State) (cls die : Nat) (x : Xlate) (write : Bool) : State :=
  s.withCaches (s.caches.touch s.csr.qosMask cls die x write)

/-- The lookup that an agent's access to an address of device memory, not to a page of a context, makes (R79, R357): whether
the page has MS = 1 is not known there, and so it is free. -/
def State.touchFrom (s : State) (cls a : Nat) (write : Bool) : State :=
  s.touch cls 0 { loc := .dev a, w := true, cls := 2, ms := Config.freeChoice s.nextId (2 ^ 63 + a / 128) } write

/-- The lookups of the scheduler's reads of a context's memory, one for each line, in the class of its partition (R79, R357,
R365). It stands on no die: as for the pin unit, a line homed by die is looked up as from die 0 (notes/assumptions/94.md). -/
def State.touchVa (s : State) (ctx va n : Nat) : State :=
  let first := va / 128
  let count := if n = 0 then 0 else (va + n - 1) / 128 + 1 - first
  (List.range count).foldl (fun s i =>
    let a := max va (128 * (first + i))
    if a < 2 ^ 52 then
      match s.translate ctx a false with
      | .ok x => s.touch (s.tenantOf ctx) 0 { x with loc := x.loc.lineOf } false
      | .error _ => s
    else s) s

/-! ## SYSTEM stores in flight (R100, R101) -/

/-- A thread's oldest SYSTEM stores made visible at the host, in order, and marked done. -/
def drainSys (host : Memory) : List (Option SysStore) → Memory × List (Option SysStore)
  | [] => (host, [])
  | o :: os =>
    let host := match o with | some x => host.write x.addr x.size x.val.toNat | none => host
    let (h, l) := drainSys host os
    (h, none :: l)

/-- Every SYSTEM store of a lane of the issuing group performed. -/
def State.flushSys (s : State) (lane : Nat) : State :=
  match s.groupOf s.cur with
  | none => s
  | some g =>
    let (h, st) := drainSys s.hostMem (g.thread lane).st
    { s.setGroup s.cur (g.updThread lane fun t => { t with st }) with hostMem := h }

/-- A SYSTEM store among these reaches some byte of a range of host memory. -/
def sysHits (a size : Nat) (st : List (Option SysStore)) : Bool :=
  st.any fun o => match o with | some x => x.addr < a + size && a < x.addr + x.size | none => false

/-- A thread's oldest SYSTEM stores performed in order, up to the last that reaches some byte of a range: a load may pass
those behind it (R100). -/
def drainHits (a size : Nat) (host : Memory) : List (Option SysStore) → Memory × List (Option SysStore)
  | [] => (host, [])
  | o :: os =>
    if sysHits a size (o :: os) then
      let host := match o with | some x => host.write x.addr x.size x.val.toNat | none => host
      let (h, l) := drainHits a size host os
      (h, none :: l)
    else (host, o :: os)

/-- The SYSTEM stores of a lane of the issuing group that a SYSTEM load of a range may not pass are performed. -/
def State.flushHits (s : State) (lane a size : Nat) : State :=
  match s.groupOf s.cur with
  | none => s
  | some g =>
    let (h, st) := drainHits a size s.hostMem (g.thread lane).st
    { s.setGroup s.cur (g.updThread lane fun t => { t with st }) with hostMem := h }

/-- A thread has a SYSTEM store still to perform. -/
def Thread.sysPending (t : Thread) : Bool := t.st.any Option.isSome

/-! ## Scratchpad (R26, R75) -/

/-- The scratch address of an issuer resolved: part and offset; none where R75 raises ACCESS. The management core has
one private part (R301). -/
def State.scratchOk (s : State) (a size : Nat) : Option (Nat × Nat) :=
  match s.cur with
  | .mgmt => if a + size ≤ 0x80000 then some (0, a) else none
  | .unit b _ _ =>
    match s.block? b, s.launchOf s.cur with
    | some x, some l =>
      let part := bits a 21 20
      let off := a % 2 ^ 20
      if a / 2 ^ 22 = 0 && part < x.parts.length && off + size ≤ l.scratch then some (part, off) else none
    | _, _ => none

/-- The scratchpad of a part of the issuer. -/
def State.scratch (s : State) (part : Nat) : Memory :=
  match s.cur with
  | .mgmt => s.mgmt.scratch
  | .unit b _ _ => (((s.block? b).bind fun x => x.part part).map (·.scratch)).getD .empty

/-- A part of a block changed. -/
def State.updPart (s : State) (b part : Nat) (f : Part → Part) : State :=
  s.updBlock b fun x => { x with parts := updAt x.parts part f }

/-- The scratchpad of a part of the issuer replaced. -/
def State.setScratch (s : State) (part : Nat) (m : Memory) : State :=
  match s.cur with
  | .mgmt => { s with mgmt := { s.mgmt with scratch := m } }
  | .unit b _ _ => s.updPart b part fun p => { p with scratch := m }

/-- The part of the issuer's block is saved, so that accesses to it are held (R75). -/
def State.partSaved (s : State) (part : Nat) : Bool :=
  match s.cur with
  | .mgmt => false
  | .unit b _ _ =>
    match (s.block? b).bind fun x => x.part part with
    | some p => p.state = .saved || p.state != .resident && p.state != .saving
    | none => false

/-- The block of the issuer. -/
def State.blockOfCur (s : State) : Option Block :=
  match s.cur with
  | .mgmt => none
  | .unit b _ _ => s.block? b

/-- A poisoned scratchpad unit: the 64-byte unit within what a part has of its core's scratchpad (R415); the management core's
counts as core 192 (notes/assumptions/24.md). -/
def State.scratchPoison (s : State) (part off : Nat) : Option (Nat × Nat) :=
  let core : Option Nat := match s.cur with
    | .mgmt => some 192
    | .unit b _ _ => ((s.block? b).bind fun x => x.part part).map fun p => p.core
  core.bind fun (k : Nat) =>
    let slot := ((s.blockOfCur.bind fun x => x.part part).map (·.slot)).getD 0
    let key := (4, markAt slot k (off / 64))
    if s.rel.poison.contains key then some key else none

/-! ## Stack pages (R188, R337, R301) -/

/-- The local stack page of a lane's thread of an issuer. -/
def State.stackPage (s : State) (iss : Issuer) (lane : Nat) : Nat :=
  match iss with
  | .mgmt => 0x70000
  | .unit b g _ =>
    match s.block? b, s.launchOf iss with
    | some x, some l => l.stkVa + 65536 * (x.slot * (32 * x.groups.length) + (g * l.perGroup + l.laneOf lane))
    | _, _ => 0

/-- The context of an issuer. -/
def State.ctxOf (s : State) : Nat := ((s.launchOf s.cur).map (·.ctx)).getD 0

/-- The trap of a refused access at a rank of its entry's checks (R306): address and kind. -/
def XFault.trap (x : XFault) (lane va kind : Nat) : Trap :=
  mkTrap (match x with | .page => .page | .access => .access) (match x with | .page => 12 | .access => 13) lane
    (va % 2 ^ 52 + kind * 2 ^ 52)

/-- The QoS class of the issuer (R357). -/
def State.qosClass (s : State) : Nat :=
  match s.cur with
  | .mgmt => s.csr.part.toNat
  | .unit _ _ _ => s.tenantOf s.ctxOf

/-- The die of the issuer's core (R14, R361); the management core reaches no line that is homed by die. -/
def State.dieOfCur (s : State) : Nat := ((s.homeOfCur.map (·.1)).getD 0) / 24

/-! ## Other devices (R74, R400, R401) -/

/-- The block and the group of an issuer; (0, 0) is the management core. -/
def Issuer.ids : Issuer → Nat × Nat
  | .mgmt => (0, 0)
  | .unit b g _ => (b, g)

/-- A device answers nothing now (R401). -/
def State.silentDev (s : State) (dev : Nat) : Bool := s.fabric.silent.any fun x => x.1 = dev

/-- The request to a device that a lane's thread of the issuing group waits for at its instruction (R400). -/
def State.requestOf (s : State) (l dev : Nat) : Option Request :=
  let ip := ((s.groupOf s.cur).map fun g => (g.thread l).ip).getD 0
  s.fabric.requests.find? fun r => (r.block, r.group) = s.cur.ids && r.lane = l && r.ip = ip && r.dev = dev

/-- FTIMEOUT has passed since a lane's request to a device was issued (R400). -/
def State.expired (s : State) (l dev : Nat) : Bool := ((s.requestOf l dev).map (·.expired)).getD false

/-- The requests that wait when these lanes have issued one to these devices: one that waits already keeps its time. -/
def State.askPeers (s : State) (ws : List (Nat × Nat)) : List Request :=
  ws.foldl (fun rs w =>
    if (s.requestOf w.1 w.2).isSome then rs
    else
      let ip := ((s.groupOf s.cur).map fun g => (g.thread w.1).ip).getD 0
      rs ++ [{ block := s.cur.ids.1, group := s.cur.ids.2, lane := w.1, ip, dev := w.2, since := s.uptime, expired := false }])
    s.fabric.requests

/-- ACCESS from a device that has not answered for FTIMEOUT: the physical address (R306, R401). -/
def peerTrap (l a kind : Nat) : Trap := mkTrap .access 40 l (a % 2 ^ 52 + kind * 2 ^ 52)

/-- An access of one lane's thread that goes on where its place answers: it waits for a device that is silent, and traps once
its request has timed out (R400, R401). -/
def State.onAnswer {α : Type} (s : State) (l kind : Nat) (x : Loc) (k : Except Stop α) : Except Stop α :=
  match x with
  | .peer a =>
    if s.expired l (a / 2 ^ 40) then .error (.trap (peerTrap l a kind))
    else if s.silentDev (a / 2 ^ 40) then .error (.wait (s.askPeers [(l, a / 2 ^ 40)]))
    else k
  | _ => k

/-- An 8-byte word of a lane's stack page stored: a store event of its thread (R196), after the SYSTEM stores it may not
pass (R100) and the snoop of its line (R102). -/
def State.spill (s : State) (lane off : Nat) (x : DWord) : Except Stop State :=
  let page := s.stackPage s.cur lane
  match s.cur with
  | .mgmt => .ok (s.setScratch 0 ((s.scratch 0).write (page + off) 8 x.toNat))
  | .unit _ _ _ =>
    match s.translate s.ctxOf (page + off) true with
    | .error e => .error (.trap (e.trap lane (page + off) 1))
    | .ok t =>
      s.onAnswer lane 1 t.loc
        (.ok ((((s.flushSys lane).touch s.qosClass s.dieOfCur t true).snoopOut t.loc).writeLoc t.loc 8 x.toNat))

/-- An 8-byte word of a lane's stack page loaded: a load event of its thread (a refill, R196). -/
def State.refill (s : State) (lane off : Nat) : Except Stop (DWord × State) :=
  let page := s.stackPage s.cur lane
  match s.cur with
  | .mgmt =>
    match s.scratchPoison 0 (page + off) with
    | some k => .error (.trap (mkTrap .pipe 14 lane (poisonDetail k)))
    | none => .ok (BitVec.ofNat 64 ((s.scratch 0).read (page + off) 8), s)
  | .unit _ _ _ =>
    match s.translate s.ctxOf (page + off) false with
    | .error e => .error (.trap (e.trap lane (page + off) 0))
    | .ok t =>
      match s.poisonAt t.loc with
      | some k => .error (.trap (mkTrap .pipe 14 lane (poisonDetail k)))
      | none =>
        let s1 := match t.loc with | .host a => s.flushHits lane a 8 | _ => s
        s.onAnswer lane 0 t.loc (.ok (BitVec.ofNat 64 (s1.readLoc t.loc 8), s1.touch s.qosClass s.dieOfCur t false))

/-! ## The shape of a launch and the save slots of its blocks (R25, R28, R59, R336, R411) -/

/-- `n` over `k`, rounded up. -/
def ceilDiv (n k : Nat) : Nat := (n + k - 1) / k

/-- Core parts of each block. -/
def Launch.parts (l : Launch) : Nat := 2 ^ l.comb

/-- Blocks of the grid, and of a comb. -/
def Launch.blocks (l : Launch) : Nat := l.gridAt 0 * l.gridAt 1 * l.gridAt 2
def Launch.perComb (l : Launch) : Nat := 4 / l.parts
def Launch.combs (l : Launch) : Nat := ceilDiv l.blocks l.perComb

/-- Threads and groups of a block. -/
def Launch.threads (l : Launch) : Nat := l.blkAt 0 * l.blkAt 1 * l.blkAt 2
def Launch.groups (l : Launch) : Nat := ceilDiv l.threads l.perGroup

/-- Groups of core part `k`, and the most of them in one partition (R25). -/
def Launch.partGroups (l : Launch) (k : Nat) : Nat := ceilDiv (l.groups - k) l.parts
def Launch.partitionGroups (l : Launch) (k : Nat) : Nat := ceilDiv (l.partGroups k) 16

/-- The register allocation of a part in units of 4 KiB (R331). -/
def Launch.alloc (l : Launch) (k : Nat) : Nat := ceilDiv (l.partGroups k * 128 * l.regs) 4096

/-- The bytes a scratch buffer occupies (R428). -/
def bufBytes (size : Nat) : Nat := ceilDiv (2 * size) 256 * 256

/-- The bytes of a block's save slot (R336). -/
def Launch.slotBytes (l : Launch) : Nat :=
  let part (k : Nat) : Nat :=
    65536 + 4096 * l.alloc k + l.scratch + 4096 * l.acmCeil + 65536 * min 16 (l.partGroups k)
  ceilDiv (((List.range l.parts).map part).foldl (· + ·) 0) 65536 * 65536

/-- The address at which a copy to or from a block's save slot faults first, if it does: its pages are those of the
context at SAVEVA + s × slot (R336). -/
def State.slotFault (s : State) (b : Block) (write : Bool) : Option Nat :=
  (s.launch? b.launch).bind fun l =>
    (List.range (l.slotBytes / 4096)).findSome? fun i =>
      let va := l.saveVa + b.slot * l.slotBytes + 4096 * i
      if va + 4096 > 2 ^ 52 then some va
      else match s.translate l.ctx va write with | .ok _ => none | .error _ => some va

/-- Words that the spec says are written and whose values it does not give: a free value at each of these places (R9). -/
def State.scribble (s : State) (ws : List Loc) : State :=
  let s1 := ws.zipIdx.foldl (fun (t : State) w =>
    (t.snoopOut w.1).writeLoc w.1 8 (Config.freeValue (s.fresh + w.2)).toNat) s
  { s1 with fresh := s.fresh + ws.length }

/-- The words of `n` bytes of HBM from an address on, those below M (R344). -/
def hbmWords (a n : Nat) : List Loc :=
  (((List.range (n / 8)).map fun j => a + 8 * j).filter fun x => x + 8 ≤ hbmSize).map Loc.dev

/-- The place of byte `k` from a place on. -/
def Loc.plus (l : Loc) (k : Nat) : Loc :=
  match l with
  | .dev a => .dev (a + k)
  | .peer a => .peer (a + k)
  | .host a => .host (a + k)

/-- A poisoned unit lies in a page of 4 KiB at a place. -/
def Loc.pageHas (l : Loc) (k : Nat × Nat) : Bool :=
  match l with
  | .dev a => k.1 = 0 && a ≤ k.2 && k.2 < a + 4096
  | .host a => k.1 = 9 && a ≤ k.2 && k.2 < a + 4096
  | .peer _ => false

/-- The translations of the 4 KiB pieces of a block's save slot (R336). -/
def State.slotPages (s : State) (b : Block) : List Xlate :=
  match s.launch? b.launch with
  | none => []
  | some l => (List.range (l.slotBytes / 4096)).filterMap fun i =>
      match s.translate l.ctx (l.saveVa + b.slot * l.slotBytes + 4096 * i) true with
      | .ok t => some t
      | .error _ => none

/-- The lookups of a copy of pages of a block's save slot: one for each line, in the class of its partition, from the die of
its first part (R79, R357, R365). -/
def State.touchPages (s : State) (b : Block) (ps : List Xlate) (write : Bool) : State :=
  let cls := s.tenantOf (((s.launch? b.launch).map (·.ctx)).getD 0)
  ps.foldl (fun s x => (List.range 32).foldl (fun s j =>
    s.touch cls (((b.part 0).map (·.core)).getD 0 / 24) { x with loc := x.loc.plus (128 * j) } write) s) s

/-- The context of a block draws the free values (R9). -/
def State.drawForBlock (s : State) (b : Nat) : State :=
  s.drawFor ((((s.block? b).bind fun x => s.launch? x.launch).map (·.ctx)).getD 64)

/-- Pages of a block's save slot written with free values: no unit of them is poisoned any more (R415). -/
def State.fillPages (s : State) (b : Block) (ps : List Xlate) : State :=
  let s1 := (s.touchPages b ps true).scribble (ps.flatMap fun p => (List.range 512).map fun j => p.loc.plus (8 * j))
  { s1 with rel := { s1.rel with poison := s1.rel.poison.filter fun k => !ps.any fun p => p.loc.pageHas k } }

/-- A copy into a block's save slot (R320). What the slot holds is stated, and which byte holds what is not (R336): every
byte of it becomes a free value (notes/assumptions/48.md). -/
def State.fillSlot (s : State) (b : Block) : State := (s.drawForBlock b.id).fillPages b (s.slotPages b)

/-- A copy out of a block's save slot: its lookups (R320, R338). -/
def State.readSlot (s : State) (b : Block) : State := s.touchPages b (s.slotPages b) false

/-- A block parked by a fault on its save slot (R336): a PAGE event that no lane waits at, unless one waits already. Its IP is
not stated: a free value. -/
def State.slotPark (s : State) (b : Block) (k va : Nat) (write : Bool) : State :=
  if (s.waiting ++ s.events).any fun e => e.block = b.id && e.cause = .page && e.lanes.isEmpty then s
  else
    let ctx := ((s.launch? b.launch).map (·.ctx)).getD 0
    let (ip, s) := s.free
    s.raise { plainEvent .page ctx (s.tenantOf ctx) (trapInfo false 0 (va % 2 ^ 52 + b2n write * 2 ^ 52)) [] with
      parked := true, blkWord := b.eventWord k 0, blkIdx := BitVec.ofNat 32 b.index, trapIp := ip, block := b.id }

end Sys2Proof.Machine
end

