-- ==== Sys2Proof/Machine/Fetch.lean ====
section
/-!
DEFINITION. Fetching: images and overlays (R45 to R48), the instruction line and its line word (R129 to R133), on a
compute core and on the management core (R301).
-/

namespace Sys2Proof.Machine

open Sys2Proof

/-- The base of an issuer's image: the launch's code, or physical address 0 (R301). -/
def State.imageBase (s : State) : DWord := BitVec.ofNat 64 (((s.launchOf s.cur).map (·.codeVa)).getD 0)

/-- An IP as an offset from the image base, or as a physical address. -/
def State.imageOffset (s : State) (ip : DWord) : Nat := (ip - s.imageBase).toNat

/-- The overlay an IP belongs to (R45). -/
def State.overlayOf (s : State) (ip : DWord) : Nat := s.imageOffset ip / 4096

/-- An IP is well formed and within the image (R133), or on the management core within HBM (R301). -/
def State.ipOk (s : State) (ip : DWord) : Bool :=
  wellFormedIp ip &&
    match s.cur with
    | .mgmt => lineOf ip < hbmSize
    | .unit _ _ _ => s.overlayOf ip < ((s.launchOf s.cur).map (·.novl)).getD 0

/-- The core of the issuer. -/
def State.coreOfCur (s : State) : Nat :=
  match s.cur with
  | .mgmt => 0
  | .unit b g _ => ((s.block? b).map fun x => x.coreOf g).getD 0

/-- The frame window of a launch on a core. -/
def State.frameWin (s : State) (launch core : Nat) : Option FrameWin :=
  s.windows.find? fun w => w.launch = launch && w.core = core

/-- The frame window of the issuer's launch on its core. -/
def State.winOfCur (s : State) : Option FrameWin :=
  (s.launchOf s.cur).bind fun l => s.frameWin l.id s.coreOfCur

/-- The frame an overlay is mapped in. -/
def FrameWin.frameOf (w : FrameWin) (ovl : Nat) : Option Nat :=
  (List.range w.map.length).find? fun f => w.map.getD f none = some ovl

/-- The frame that holds an IP's overlay. The management core has no overlays: frame 0. -/
def State.frameAt (s : State) (ip : DWord) : Option Nat :=
  match s.cur with
  | .mgmt => some 0
  | .unit _ _ _ => s.winOfCur.bind fun w => w.frameOf (s.overlayOf ip)

/-- The 64 bytes of an IP's line as a number (R129). -/
def State.lineAt (s : State) (ip : DWord) : Nat :=
  match s.cur with
  | .mgmt => s.mem.read (lineOf ip) 64
  | .unit _ _ _ =>
    match s.winOfCur, s.frameAt ip with
    | some w, some f => w.bytes.read (4096 * f + s.imageOffset ip % 4096 / 64 * 64) 64
    | _, _ => 0

/-- The line word of a line (R130). -/
def lineWord (line : Nat) : Nat := bits line 511 480

/-- The even parity of 60 bits of the instruction area (R131). -/
def areaParity (line j : Nat) : Nat := popcount 60 (bits line (60 * j + 59) (60 * j)) % 2

/-- PAR as a correct line would hold it. -/
def parOf (line : Nat) : Nat := (List.range 8).foldl (fun p j => p + areaParity line j * 2 ^ j) 0

/-- The PAR bits that fail (R48, R306). -/
def parFails (line : Nat) : Nat := bits (lineWord line) 31 24 ^^^ parOf line

/-- The instruction word in a slot of a line (R129). -/
def slotWord (line slot : Nat) : IWord := BitVec.ofNat 96 (line / 2 ^ (96 * slot))

/-- The slot of an IP is a legal target (R48). -/
def State.isTarget (s : State) (ip : DWord) : Bool := bit (lineWord (s.lineAt ip)) (slotOf ip)

/-- Refused on the management core (R301): OVMAP, TRAPU, PIN, UNPIN, RECLAIM, the engine, matrix and power opcodes. -/
def mgmtRefuses (op : Nat) : Bool :=
  op = 0x6E || op = 0x6F || op = 0x79 || op = 0x7A || op = 0x7B || (0xA0 ≤ op && op ≤ 0xA6) ||
    (0xB0 ≤ op && op ≤ 0xBF) || (0xC0 ≤ op && op ≤ 0xC4)

/-- The CSRs that only hypervisor level writes (R302). -/
def csrHyper : List Nat := [0x001, 0x010, 0x020, 0x021, 0x030, 0x031, 0x034, 0x035, 0x036, 0x040]

/-- The lowest level at which an opcode issues (R145, R313). -/
def opLevel (op : Nat) : Nat :=
  if op = 0xEA then 0 else if op = 0xE9 then 2 else if 0xE0 ≤ op && op ≤ 0xEA then 1 else 0

/-- The level of the issuer: user on a compute core (R300). -/
def State.level (s : State) : Nat :=
  match s.cur with
  | .mgmt => s.csr.pl.toNat
  | .unit _ _ _ => 0

/-- The privilege checks of R138 step 2: the reason, when the issuer may not issue the instruction. -/
def State.privilege (s : State) (i : Instr) : Option Nat :=
  match i.isa with
  | none => none
  | some (op, f) =>
    if s.level < opLevel op then some 4
    else if op = 0xE1 && s.level < 2 && csrHyper.contains (f.immBits 11 0) then some 4
    else none

/-- A device address lies in an enabled memory window of partition MSTAT.PART (R301, R354). -/
def State.inWindows (s : State) (a : Nat) : Bool :=
  match s.tenants[s.csr.part.toNat]? with
  | none => false
  | some t => (List.range 4).any fun w =>
      let b := (t.wbase.getD w 0).toNat
      bit b 0 && bits b 39 16 * 65536 ≤ a && a < bits (t.wlimit.getD w 0).toNat 39 16 * 65536

/-- What a fetch finds. -/
inductive Fetched where
  | instr (i : Instr)
  | trap (cause : Cause) (detail : Nat)
  deriving DecidableEq, Repr

/-- The checks of R138 steps 1 and 2 on the instruction at an IP, and the instruction. -/
def State.fetch (s : State) (ip : DWord) : Fetched :=
  let line := s.lineAt ip
  if s.cur = .mgmt && s.level < 2 && !s.inWindows (lineOf ip) then .trap .access (ip.toNat % 2 ^ 52 + 3 * 2 ^ 52)
  else if parFails line ≠ 0 then .trap .iparity ((s.frameAt ip).getD 0 % 64 + parFails line * 2 ^ 8)
  else if bits (lineWord line) 23 9 ≠ 0 then .trap .illegal 5
  else if s.cur = .mgmt && mgmtRefuses (fieldOf (slotWord line (slotOf ip)) 88 8) then .trap .illegal 0
  else
    match decodeAt s.window (slotWord line (slotOf ip)) with
    | .error (.illegal r) => .trap .illegal r
    | .ok i =>
      match s.privilege i with
      | some r => .trap .illegal r
      | none => .instr i

end Sys2Proof.Machine
end

