-- ==== Sys2Proof/Machine/Control.lean ====
section
/-!
DEFINITION. The control instructions of spec/08_ref_control_lanes.md R192 to R208: branches, calls, loops, endings,
rejoin masks, YIELD, BRK, OVMAP and TRAPU, with the link stack (R43, R196), overlay delivery (R46) and the retirement of
blocks (R42).
-/

namespace Sys2Proof.Machine

open Sys2Proof

/-! ## The link stack (R43, R196) -/

/-- The outstanding stores of a lane's thread of the issuing group as the state holds them (R100). -/
def State.storesOf (s : State) (g : Group) (l : Nat) : List (Option SysStore) :=
  (((s.groupOf s.cur).getD g).thread l).st

/-- A push by a lane's thread: the ninth entry and beyond spill the oldest one to the stack page; a push beyond depth
8,200 raises ACCESS. -/
def State.push (s : State) (g : Group) (l : Nat) (ip : DWord) : Except Stop (State × Group) :=
  let t := g.thread l
  let d := t.depth + 1
  let link := ip :: t.link
  if d > 8200 then .error (.trap (mkTrap .access 20 l ((s.stackPage s.cur l + 8 * (d - 9)) % 2 ^ 52 + 2 ^ 52)))
  else if d > 8 then do
    let s ← s.spill l (8 * (d - 9)) (link.getLastD 0)
    -- the spill has performed the thread's SYSTEM stores
    return (s, g.updThread l fun t => { t with link := link.dropLast, depth := d, st := s.storesOf g l })
  else .ok (s, g.updThread l fun t => { t with link, depth := d })

/-- A pop by a lane's thread; while spilled entries remain one is refilled. -/
def State.pop (s : State) (g : Group) (l : Nat) : Except Stop (State × Group) :=
  let d := (g.thread l).depth - 1
  if d ≥ 8 then do
    let (x, s) ← s.refill l (8 * (d - 8))
    return (s, g.updThread l fun t => { t with link := t.link.tail ++ [x], depth := d, st := s.storesOf g l })
  else .ok (s, g.updThread l fun t => { t with link := t.link.tail, depth := d })

/-- Pushes of a list of lanes in order. -/
def State.pushAll (s : State) (g : Group) (ip : Nat → DWord) : List Nat → Except Stop (State × Group)
  | [] => .ok (s, g)
  | l :: ls => do
    let (s, g) ← s.push g l (ip l)
    s.pushAll g ip ls

/-! ## Overlays (R46) -/

/-- The user trap entry: line 1, slot 0 of overlay 0 (R45). -/
def State.userEntry (s : State) : DWord := s.imageBase + 64

/-- An overlay is being loaded for the issuer's launch on its core. -/
def State.isLoading (s : State) (ovl : Nat) : Bool :=
  match s.winOfCur with
  | some w => w.loading.any fun x => x.1 = ovl
  | none => false

/-- A lane's user trap: the cause and its information, at the user trap entry (R46). -/
def Group.userTrap (g : Group) (l : Nat) (cause : Word) (info : Word) : Group :=
  g.updThread l fun t => { t with ucause := cause, uinfo := info }

/-- The overlays enter the loading state, each loaded by the lanes that took OVERLAY for it. -/
def State.markLoading (s : State) (ovlOf : Nat → Nat) (ls : List Nat) : State :=
  match s.launchOf s.cur, s.cur with
  | some l, .unit b g _ =>
    let core := s.coreOfCur
    let entries := (distinct (ls.map ovlOf)).map fun o => (o, b, g, maskOf (ls.filter fun x => ovlOf x = o))
    { s with windows := s.windows.map fun (w : FrameWin) =>
        if w.launch = l.id && w.core = core then { w with loading := w.loading ++ entries } else w }
  | _, _ => s

/-- OVERLAY for the lanes `ls`, each needing the IP `target`: those whose overlay is already loading park; the others
push the IP, note the cause and the overlay, and go to the user trap entry. Every other lane stays (R46). `keep`: the unit
keeps its hinted priority, where no control transfer raised the trap; the lanes that stay keep it in any case (R40). -/
def State.overlayTrap (s : State) (c : Ctx) (g : Group) (target : Nat → DWord) (ls : List Nat) (keep : Bool) :
    Except Stop State := do
  let ovl (l : Nat) := s.overlayOf (target l)
  let take := ls.filter fun l => !s.isLoading (ovl l)
  let entry := s.userEntry
  let (s, g) ← s.pushAll g target take
  let g := take.foldl (fun g l => g.userTrap l 1 (BitVec.ofNat 32 (ovl l))) g
  let s := s.markLoading ovl take
  let stay := maskOf (c.lanes.filter fun l => !ls.contains l)
  return s.commit c g (fun l =>
    if take.contains l then .jump entry
    else if ls.contains l then .park (.overlay (ovl l))
    else .stay) keep (if c.u.hinted then stay else 0)

/-! ## Transfers (R193, R195, R46) -/

/-- The compared guards and targets of a redundant launch's control instruction (R412). -/
def State.targetMismatch (s : State) (c : Ctx) (on : List Nat) (target : Nat → DWord) : List Trap :=
  s.mismatch c fun l => if on.contains l then [1, target l] else [0]

/-- The active lanes `on` go to their targets. BADTARGET for an ill-formed or outlying target, then OVERLAY for the
lanes whose target has no frame, then BADTARGET for a slot that is no target, each across all of them (R46, R193). `pre`
is what a call pushes before it goes. The unit's hinted priority ends (R40). -/
def State.transfer (s : State) (c : Ctx) (on : List Nat) (target : Nat → DWord) (hint : Word)
    (pre : State → List Nat → Except Stop (State × Group)) : Except Stop State :=
  let bad (l rank : Nat) : Trap := mkTrap .badTarget rank l (s.imageOffset (target l) % 2 ^ 52)
  guardTraps (s.targetMismatch c on target ++ (on.filter fun l => !s.ipOk (target l)).map fun l => bad l 30) <|
    let unframed := on.filter fun l => (s.frameAt (target l)).isNone
    if !unframed.isEmpty then do
      let take := unframed.filter fun l => !s.isLoading (s.overlayOf (target l))
      let (s, g) ← pre s take
      s.overlayTrap c g target unframed false
    else
      guardTraps ((on.filter fun l => !s.isTarget (target l)).map fun l => bad l 31) <| do
        let (s, g) ← pre s on
        return s.commit c g (fun l => if on.contains l then .jump (target l) else .next) false hint

/-- The target that a direct control instruction names, as an exact number (R10, R139). -/
def directNum (ip : DWord) (f : Fields) : Int := (lineOf ip : Int) + 64 * (f.imm.toInt / 8) + f.imm.toNat % 8

/-- The target IP a direct control instruction names (R139). -/
def directTarget (ip : DWord) (f : Fields) : DWord := BitVec.ofInt 64 (directNum ip f)

/-- A control instruction run over the lanes of the issuing unit whose sources are not pending. -/
def State.control (s : State) (op : Nat) (f : Fields) (run : State → Ctx → List Nat → Except Stop State) : Out :=
  s.finish <|
    match s.ctx? with
    | none => .ok s
    | some c =>
      let regs := readRegs op f
      let on := c.active f
      guardTraps (on.flatMap fun l => (c.rd.thread l).handleTrap l regs ++ s.poisonTrap l regs) <|
        s.withoutWaiting c (fun l => if on.contains l then (c.rd.thread l).waitsFor regs else []) fun s c =>
          run s c (c.active f)

/-- Nothing pushed before a transfer. -/
def noPush (c : Ctx) (s : State) (_ : List Nat) : Except Stop (State × Group) := .ok (s, c.g)

/-- A call's push of the return IP (R196): the IP that follows the call. -/
def callPush (c : Ctx) (s : State) (ls : List Nat) : Except Stop (State × Group) :=
  s.pushAll c.g (fun _ => nextSlot c.u.ip) ls

/-- BRA (R193): each active thread goes to the target; H names the priority path of a split (R40). -/
def execBra (f : Fields) (s : State) : Out :=
  s.control 0x60 f fun s c on =>
    let t := directTarget c.u.ip f
    let off := c.lanes.filter fun l => !on.contains l
    let hint := if on.isEmpty || off.isEmpty then 0 else maskOf (if f.flag then on else off)
    s.transfer c on (fun _ => t) hint (noPush c)

/-- The target of an indirect transfer: image base + A (R195). -/
def State.indirect (s : State) (c : Ctx) (f : Fields) (l : Nat) : DWord :=
  s.imageBase + s.operand c.rd l f false f.a

/-- BRX (R195). -/
def execBrx (f : Fields) (s : State) : Out :=
  s.control 0x61 f fun s c on => s.transfer c on (s.indirect c f) 0 (noPush c)

/-- CALL (R196). -/
def execCall (f : Fields) (s : State) : Out :=
  s.control 0x62 f fun s c on => s.transfer c on (fun _ => directTarget c.u.ip f) 0 (callPush c)

/-- CALLX (R195, R196). -/
def execCallx (f : Fields) (s : State) : Out :=
  s.control 0x63 f fun s c on => s.transfer c on (s.indirect c f) 0 (callPush c)

/-- Pops of a list of lanes in order. -/
def State.popAll (s : State) (g : Group) : List Nat → Except Stop (State × Group)
  | [] => .ok (s, g)
  | l :: ls => do
    let (s, g) ← s.pop g l
    s.popAll g ls

/-- RET (R197): pops and continues; a depth of 0 raises BADTARGET. A thread whose popped IP has no frame takes OVERLAY, which
pushes that IP back, so that no entry of it moves (R46); the others go on. -/
def execRet (f : Fields) (s : State) : Out :=
  s.control 0x64 f fun s c on =>
    let target (l : Nat) : DWord := (c.g.thread l).link.headD 0
    let bad := (on.filter fun l => !s.ipOk (target l)).map fun l =>
      mkTrap .badTarget 30 l (s.imageOffset (target l) % 2 ^ 52)
    guardTraps ((on.filter fun l => (c.g.thread l).depth = 0).map (fun l => mkTrap .badTarget 29 l 0)
        ++ s.targetMismatch c on target ++ bad) <| do
      let ovl (l : Nat) : Nat := s.overlayOf (target l)
      let unframed := on.filter fun l => (s.frameAt (target l)).isNone
      let take := unframed.filter fun l => !s.isLoading (ovl l)
      let (s1, g) ← s.popAll c.g (on.filter fun l => !unframed.contains l)
      let g := take.foldl (fun g l => g.userTrap l 1 (BitVec.ofNat 32 (ovl l))) g
      return (s1.markLoading ovl take).commit c g (fun l =>
        if take.contains l then .jump s.userEntry
        else if unframed.contains l then .park (.overlay (ovl l))
        else if on.contains l then .jump (target l) else .next) false 0

/-! ## Loops (R44, R198, R199) -/

/-- LOOP (R198): activates the lowest inactive level, or skips the body when the count is 0. -/
def execLoop (f : Fields) (s : State) : Out :=
  s.control 0x65 f fun s c on =>
    let e := directTarget c.u.ip f
    let count (l : Nat) : Word := (s.operand c.rd l f false f.a).extractLsb' 0 32
    let full (l : Nat) : Bool := (c.g.thread l).loops.all (·.active)
    guardTraps
      ((on.filter fun _ => !wellFormedIp e || directNum c.u.ip f ≤ c.u.ip.toNat || directNum c.u.ip f ≥ 2 ^ 64).map
          (fun l => mkTrap .badTarget 30 l (s.imageOffset e % 2 ^ 52))
        ++ (on.filter full).map fun l => mkTrap .illegal 31 l 6) <|
      let g := on.foldl (fun g l =>
        if count l = 0 then g
        else g.updThread l fun t =>
          let k := (t.loops.findIdx? fun v => !v.active).getD 0
          { t with loops := setAt t.loops k ⟨true, nextSlot c.u.ip, e, count l⟩ }) c.g
      .ok (s.commit c g (fun l =>
        if !on.contains l then .next
        else if count l = 0 then .jump (nextSlot e)
        else .jump (nextSlot c.u.ip)) true 0)

/-- LOOPB (R199): deactivates the highest active level and continues at its end + 1; hinted priority ends. -/
def execLoopb (f : Fields) (s : State) : Out :=
  s.control 0x66 f fun s c on =>
    let top (l : Nat) : Nat := topLevel (c.g.thread l).loops 0
    let after (l : Nat) : DWord := nextSlot ((c.g.thread l).loops.getD (top l - 1) .off).last
    guardTraps ((on.filter fun l => top l = 0).map (fun l => mkTrap .illegal 30 l 7) ++ s.targetMismatch c on after) <|
      let g := on.foldl (fun g l => g.updThread l fun t => { t with loops := setAt t.loops (top l - 1) .off }) c.g
      .ok (s.commit c g (fun l => if on.contains l then .jump (after l) else .next) false 0)

/-! ## Rejoin masks (R41, R201 to R203) -/

/-- The lanes parked at a rejoin mask. -/
def Group.joinParked (g : Group) (n : Nat) : List Nat :=
  (List.range 32).filter fun l => (g.thread l).status = .parked (.join n)

/-- The lanes that hold a live non-helper thread. -/
def Group.liveLanes (g : Group) : Word :=
  maskOf ((List.range 32).filter fun l => (g.thread l).live && !(g.thread l).helper)

/-- The mask of JSET and JDROP: the OR of A over the active non-helper threads, in both halves under REDUNDANT, of live
lanes only (R201, R412). -/
def State.joinMask (s : State) (c : Ctx) (f : Fields) (on : List Nat) : Word :=
  let m := (on.filter fun l => !(c.g.thread l).helper).foldl
    (fun m l => m ||| (s.operand c.rd l f false f.a).extractLsb' 0 32) 0
  let m := if s.redundant then (m &&& 0xFFFF) ||| ((m &&& 0xFFFF) <<< 16) else m
  m &&& c.g.liveLanes

/-- A rejoin mask and its arrived set written. -/
def Group.setJoin (g : Group) (n : Nat) (mask arrived : Word) : Group :=
  { g with j := setAt g.j n mask, arrived := setAt g.arrived n arrived }

/-- The rejoin register of an operand. -/
def joinNum : Opnd → Nat
  | .j n => n.toNat
  | _ => 0

/-- JSET (R201): releases what is parked on Jn, writes the mask and clears its arrived set. -/
def execJset (f : Fields) (s : State) : Out :=
  s.control 0x68 f fun s c on =>
    if on.isEmpty then .ok (s.commit c c.g (fun _ => .next) true 0)
    else
      let n := joinNum f.d
      let freed := c.g.joinParked n
      .ok (s.commitWith c ((c.g.setJoin n (s.joinMask c f on) 0).unpark freed) (fun _ => .next) true 0 freed false)

/-- JWAIT in one lane after another (R202): who parks, who is released, and the group. -/
def joinArrive (n : Nat) : List Nat → Group → List Nat → List Nat → Group × List Nat × List Nat
  | [], g, parked, freed => (g, parked, freed)
  | l :: ls, g, parked, freed =>
    let mask := g.j.getD n 0
    if mask.getLsbD l then
      let arr := g.arrived.getD n 0 ||| BitVec.ofNat 32 (2 ^ l)
      if arr = mask then
        joinArrive n ls { g with arrived := setAt g.arrived n 0 } [] (freed ++ g.joinParked n)
      else joinArrive n ls { g with arrived := setAt g.arrived n arr } (l :: parked) freed
    else joinArrive n ls g parked freed

/-- JWAIT (R202). -/
def execJwait (f : Fields) (s : State) : Out :=
  s.control 0x69 f fun s c on =>
    let n := joinNum f.a
    let (g, parked, freed) := joinArrive n (on.filter fun l => !(c.g.thread l).helper) c.g [] []
    .ok (s.commitWith c (g.unpark freed) (fun l => if parked.contains l then .parkNext (.join n) else .next) true 0
      freed false)

/-- JDROP (R203). -/
def execJdrop (f : Fields) (s : State) : Out :=
  s.control 0x6A f fun s c on =>
    if on.isEmpty then .ok (s.commit c c.g (fun _ => .next) true 0)
    else
      let n := joinNum f.d
      let m := s.joinMask c f on
      let mask := c.g.j.getD n 0 &&& ~~~m
      let arr := c.g.arrived.getD n 0 &&& ~~~m
      let dropped := (c.g.joinParked n).filter fun l => m.getLsbD l
      let rest := (c.g.joinParked n).filter fun l => !m.getLsbD l
      let all := arr = mask && !rest.isEmpty
      let freed := dropped ++ (if all then rest else [])
      .ok (s.commitWith c ((c.g.setJoin n mask (if all then 0 else arr)).unpark freed) (fun _ => .next) true 0
        freed false)

/-! ## Endings (R42, R64, R200) -/

/-- Lanes ended: their loads are discarded and they leave every rejoin mask and unit (R42, R64). -/
def Group.kill (g : Group) (ls : List Nat) : Group :=
  let m := maskOf ls
  { ls.foldl (fun g l => g.updThread l fun t => if t.live then t.goto .ended else t) g with
    j := g.j.map fun x => x &&& ~~~m
    arrived := g.arrived.map fun x => x &&& ~~~m
    units := g.units.map fun u => { u with lanes := u.lanes &&& ~~~m } }

/-- A rejoin mask whose remaining lanes have all arrived releases its threads; `r` is the group and who has been
released (R42). -/
def Group.releaseFull (r : Group × List Nat) (n : Nat) : Group × List Nat :=
  let parked := r.1.joinParked n
  if r.1.arrived.getD n 0 = r.1.j.getD n 0 && !parked.isEmpty then
    ({ r.1.unpark parked with arrived := setAt r.1.arrived n 0 }, r.2 ++ parked)
  else r

/-- What a group gives up with its last thread: its pins, the ballast request and the shunt reservation (R27, R64, R282,
R283). -/
def Group.giveUp (g : Group) : Group :=
  { g with pn := List.replicate 4 0, pnGen := g.pnGen.map (· + 1), burn := none, shunt := none }

/-- Lanes ended, and what follows from it: when no non-helper thread is left the helpers end too; else the rejoin masks
that are full release their threads, which come with the group (R42). -/
def Group.endLanes (g : Group) (ls : List Nat) : Group × List Nat :=
  let g := g.kill ls
  if g.liveLanes = 0 then ((g.kill (List.range 32)).giveUp, [])
  else (List.range 8).foldl Group.releaseFull (g, [])

/-- Every thread of a block has ended. -/
def Block.allEnded (b : Block) : Bool := b.groups.all fun g => g.threads.all fun t => !t.live

/-- The parked lanes of a group that wait for an overlay. -/
def Group.overlayParked (g : Group) (ovl : Nat) : List Nat :=
  (List.range 32).filter fun l => (g.thread l).status = .parked (.overlay ovl)

/-- Every thread of a launch on a core that waits for an overlay made ready (R46). -/
def State.releaseOverlay (s : State) (launch core ovl : Nat) : State :=
  s.blocks.foldl (fun s b =>
    if b.launch = launch then
      (List.range b.groups.length).foldl (fun s g =>
        if b.coreOf g = core then
          s.wake (.unit b.id g 0) (((b.groups[g]?).map fun x => x.overlayParked ovl).getD []) fun _ t => t
        else s) s
    else s) s

/-- Lanes of a group that have ended load no overlay any more; an overlay that nobody loads any more releases its waiters,
which trap in their turn (R46). -/
def State.dropLoaders (s : State) (b g : Nat) (m : Word) : State :=
  let ws := s.windows.map fun (w : FrameWin) => { w with loading := w.loading.map fun x =>
    if x.2.1 = b && x.2.2.1 = g then (x.1, x.2.1, x.2.2.1, x.2.2.2 &&& ~~~m) else x }
  let left (w : FrameWin) (o : Nat) : Bool := w.loading.any fun x => x.1 = o && x.2.2.2 ≠ 0
  let dead := ws.flatMap fun (w : FrameWin) =>
    (w.loading.filter fun x => x.2.2.2 = 0 && !left w x.1).map fun x => (w.launch, w.core, x.1)
  let s := { s with windows := ws.map fun (w : FrameWin) => { w with loading := w.loading.filter fun x => x.2.2.2 ≠ 0 } }
  dead.foldl (fun s d => s.releaseOverlay d.1 d.2.1 d.2.2) s

/-- A block retires when all its threads have ended (R42, R338): its granules and slots are free, and its launch counts
it. A launch whose last block retires enters FLUSH (R333). -/
def State.retire (s : State) (b : Nat) : State :=
  match s.block? b with
  | none => s
  | some x =>
    if x.allEnded && x.state != .retired then
      let s := s.updBlock b fun x =>
        { x with state := .retired, mmas := []
                 parts := x.parts.map fun p => { p with held := [], spilled := [], acm := .empty } }
      let s := { s with acmReqs := s.acmReqs.filter fun r => r.block ≠ b }
      s.updLaunch x.launch fun l =>
        let total := l.gridAt 0 * l.gridAt 1 * l.gridAt 2
        { l with retired := l.retired + 1
                 state := if l.retired + 1 = total && l.state = .run then .flush else l.state }
    else s

/-- EXIT (R200): ends each active thread. At a loop end it lets no level step, also in a thread whose guard is false (R44). -/
def execExit (f : Fields) (s : State) : Out :=
  s.control 0x67 f fun s c on =>
    guardTraps (s.targetMismatch c on fun _ => 0) <|
      let (g, freed) := c.g.endLanes on
      -- the unit keeps its number until it is taken out
      let s' := s.commitWith c g (fun l => if (g.thread l).live then .jump (nextSlot c.u.ip) else .ended) true 0 freed false
      match s.cur with
      | .mgmt => .ok s'
      | .unit b n _ =>
        -- the group's helpers may have ended with it (R27)
        let gone := (List.range 32).filter fun l => (c.g.thread l).live && !(g.thread l).live
        .ok ((s'.dropLoaders b n (maskOf gone)).retire b).settle

/-- KILL (R200): ends every thread of the group when some thread of the issue is active. At a loop end it lets no level
step (R44). -/
def execKill (f : Fields) (s : State) : Out :=
  s.control 0x67 f fun s c on =>
    guardTraps (s.targetMismatch c on fun _ => 0) <|
      if on.isEmpty then .ok (s.commit c c.g (fun _ => .jump (nextSlot c.u.ip)) true 0)
      else
        let (g, _) := c.g.endLanes (List.range 32)
        let s' := s.setGroup s.cur { g with units := [] }
        match s.cur with
        | .mgmt => .ok s'
        | .unit b n _ => .ok ((s'.dropLoaders b n (maskOf (List.range 32))).retire b).settle

/-! ## YIELD, NOP, BRK (R204 to R206) -/

/-- YIELD (R204): the next IP, no hinted priority, and a hold that YIELD_HOLD_END ends. -/
def execYield (f : Fields) (s : State) : Out :=
  s.control 0x6B f fun s c on => .ok (s.commitWith c c.g (fun _ => .next) on.isEmpty 0 [] (!on.isEmpty))

/-- NOP (R205). -/
def execNop (f : Fields) (s : State) : Out :=
  s.control 0x6C f fun s c _ => .ok (s.commit c c.g (fun _ => .next) true 0)

/-- BRK (R206): raises BREAK with the code of I[15:0] when some thread is active. -/
def execBrk (f : Fields) (s : State) : Out :=
  s.control 0x6D f fun s c on =>
    match on with
    | [] => .ok (s.commit c c.g (fun _ => .next) true 0)
    | l :: _ => .error (.trap (mkTrap .brk 30 l (f.immBits 15 0)))

/-! ## OVMAP, TRAPU (R207, R208) -/

/-- The frame map of a window after one thread's OVMAP (R207). -/
def FrameWin.ovmap (w : FrameWin) (f v : Nat) : FrameWin :=
  if v = 0xFFFFFFFF then { w with map := setAt w.map f none }
  else
    { w with
      map := setAt (w.map.map fun x => if x = some v then none else x) f (some v)
      loading := w.loading.filter fun x => x.1 ≠ v }

/-- The frame map of a launch on a core after these OVMAPs, one after the other: lane, frame, value (R207). -/
def State.mapOverlays (s : State) (launch core : Nat) (maps : List (Nat × Nat × Nat)) : State :=
  { s with windows := s.windows.map fun (w : FrameWin) =>
      if w.launch = launch && w.core = core then maps.foldl (fun w m => w.ovmap m.2.1 m.2.2) w else w }

/-- What the active lanes of the issuing unit whose sources do not wait give OVMAP, in lane order: lane, frame, value
(R207). -/
def State.ovmapLanes (s : State) (c : Ctx) (f : Fields) (on : List Nat) : List (Nat × Nat × Nat) :=
  on.map fun l => (l, (s.operand c.rd l f false f.a).toNat, (s.operand c.rd l f false f.b).toNat)

/-- OVMAP (R207): every thread is checked, then each maps or unmaps a frame, in lane order; held while a copy into a
frame it names is incomplete. -/
def execOvmap (f : Fields) (s : State) : Out :=
  s.control 0x6E f fun s c on =>
    let maps := s.ovmapLanes c f on
    match s.launchOf s.cur with
    | none => .ok s
    | some la =>
      let core := s.coreOfCur
      guardTraps
        (maps.flatMap fun m =>
          if m.2.1 = 0 || m.2.1 ≥ la.frames then [mkTrap .access 30 m.1 (7 * 2 ^ 52 + m.2.1)]
          else if m.2.2 = 0 || (m.2.2 ≠ 0xFFFFFFFF && m.2.2 ≥ la.novl) then [mkTrap .access 31 m.1 (7 * 2 ^ 52 + m.2.2)]
          else []) <|
        let busy (m : Nat × Nat × Nat) : Bool := s.cmds.any fun k =>
          k.kind = .copy && k.var = 3 && k.launch = la.id && k.core = core && k.a.toNat = m.2.1 && k.state != .done
        if maps.any busy then .error .hold
        else
          let s := (s.mapOverlays la.id core maps).commit c c.g (fun _ => .next) true 0
          .ok ((maps.filter fun m => m.2.2 ≠ 0xFFFFFFFF).foldl (fun s m => s.releaseOverlay la.id core m.2.2) s)

/-- TRAPU (R208): the next IP is pushed (a loop level steps first), the cause is 2 and the information I. The unit keeps its
hinted priority unless its threads decide differently at a loop end (R40). DESIGN CHOICE (notes/assumptions/91.md): the
start that a loop-back pushes is not checked for its TM bit when RET reaches it, since R197 gives RET no such check. -/
def execTrapu (f : Fields) (s : State) : Out :=
  s.control 0x6F f fun s c on => do
    let ends := distinct (c.lanes.map fun l => (c.g.thread l).advance.ip)
    let g := on.foldl (fun g l => g.updThread l fun t => { t.advance with back := false }) c.g
    let entry := s.userEntry
    let (s, g) ← s.pushAll g (fun l => (g.thread l).ip) on
    let g := on.foldl (fun g l => g.userTrap l 2 f.imm) g
    return s.commit c g (fun l => if on.contains l then .jump entry else .next) (ends.length ≤ 1) 0

end Sys2Proof.Machine
end

