-- ==== Sys2Proof/Machine/Sha.lean ====
section
/-!
DEFINITION. SHA-256 of a byte string, which the DIGEST records of a capture hold (R420): the function of FIPS 180-4, that the
spec names without giving it (notes/assumptions/81.md).
-/

namespace Sys2Proof.Machine

open Sys2Proof

/-- The low 32 bits of a sum. -/
def w32 (x : Nat) : Nat := x % 2 ^ 32

/-- A 32-bit word rotated right by `k`, 0 < k < 32. -/
def rotr32 (x k : Nat) : Nat := x >>> k ||| w32 (x <<< (32 - k))

/-- The `k`-th root of `n`, rounded down, below `r + 2 ^ b`: the bits below `b` from the highest on. -/
def rootFrom (k n : Nat) : Nat → Nat → Nat
  | 0, r => r
  | b + 1, r => rootFrom k n b (if (r + 2 ^ b) ^ k ≤ n then r + 2 ^ b else r)

/-- The first 32 bits of the fraction of the `k`-th root of `p`, p < 1,000. -/
def rootFraction (k p : Nat) : Nat := w32 (rootFrom k (p * 2 ^ (32 * k)) 38 0)

/-- The primes below 312, of which there are 64. -/
def shaPrimes : List Nat := (List.range 312).filter fun p => 2 ≤ p && (List.range 18).all fun d => d < 2 || p ≤ d || p % d ≠ 0

/-- The round constants: the fractions of the cube roots of the first 64 primes. -/
def shaK : List Nat := shaPrimes.map (rootFraction 3)

/-- The initial hash: the fractions of the square roots of the first 8 primes. -/
def shaInit : List Nat := (shaPrimes.take 8).map (rootFraction 2)

/-- The big-endian words of a byte list, four bytes to a word. -/
def beWords : Nat → List Byte → List Nat
  | 0, _ => []
  | n + 1, bs => ((bs.take 4).foldl (fun x b => 256 * x + b.toNat) 0) :: beWords n (bs.drop 4)

/-- The message schedule, newest word first: `n` more words. -/
def shaExpand : Nat → List Nat → List Nat
  | 0, ws => ws
  | n + 1, ws =>
    let w (k : Nat) : Nat := ws.getD (k - 1) 0
    let s0 := rotr32 (w 15) 7 ^^^ rotr32 (w 15) 18 ^^^ (w 15 >>> 3)
    let s1 := rotr32 (w 2) 17 ^^^ rotr32 (w 2) 19 ^^^ (w 2 >>> 10)
    shaExpand n (w32 (w 16 + s0 + w 7 + s1) :: ws)

/-- One round on the working variables a to h with its constant and its schedule word. -/
def shaRound (v : List Nat) (kw : Nat × Nat) : List Nat :=
  match v with
  | [a, b, c, d, e, f, g, h] =>
    let s1 := rotr32 e 6 ^^^ rotr32 e 11 ^^^ rotr32 e 25
    let ch := (e &&& f) ^^^ ((2 ^ 32 - 1 - e) &&& g)
    let t1 := h + s1 + ch + kw.1 + kw.2
    let s0 := rotr32 a 2 ^^^ rotr32 a 13 ^^^ rotr32 a 22
    let maj := (a &&& b) ^^^ (a &&& c) ^^^ (b &&& c)
    [w32 (t1 + s0 + maj), a, b, c, w32 (d + t1), e, f, g]
  | _ => v

/-- The hash after one block of 64 bytes. -/
def shaBlock (h : List Nat) (block : List Byte) : List Nat :=
  let ws := (shaExpand 48 (beWords 16 block).reverse).reverse
  List.zipWith (fun x y => w32 (x + y)) h ((shaK.zip ws).foldl shaRound h)

/-- The hash after `n` blocks of a byte list. -/
def shaBlocks : Nat → List Nat → List Byte → List Nat
  | 0, h, _ => h
  | n + 1, h, bs => shaBlocks n (shaBlock h (bs.take 64)) (bs.drop 64)

/-- SHA-256 of a byte string: 32 bytes. -/
def sha256 (msg : List Byte) : List Byte :=
  let n := msg.length
  let pad := (119 - n % 64) % 64
  let whole := msg ++ 0x80 :: List.replicate pad 0 ++ (leBytes 8 (8 * n)).reverse
  (shaBlocks (whole.length / 64) shaInit whole).flatMap fun x => (leBytes 4 x).reverse

end Sys2Proof.Machine
end

