-- ==== Sys2Proof/Machine/Commands.lean ====
section
/-!
DEFINITION. Barrier objects (R233 to R236), capture records (R419 to R422), and engine commands from their acceptance to
their completion: shape records (R252 to R254, R260), buffers (R91), sources, destinations, failure and publish
(R92 to R96, R250, R251).
-/

namespace Sys2Proof.Machine

open Sys2Proof

/-! ## Scratch by owner -/

/-- The block an issuer's scratchpad belongs to; 0 stands for the management core. -/
def Issuer.owner : Issuer → Nat
  | .mgmt => 0
  | .unit b _ _ => b

/-- The scratchpad of a part of a block, or of the management core. -/
def State.scratchOf (s : State) (b part : Nat) : Memory :=
  if b = 0 then s.mgmt.scratch else (((s.block? b).bind fun x => x.part part).map (·.scratch)).getD .empty

/-- The scratchpad of a part of a block replaced. -/
def State.setScratchOf (s : State) (b part : Nat) (m : Memory) : State :=
  if b = 0 then { s with mgmt := { s.mgmt with scratch := m } } else s.updPart b part fun p => { p with scratch := m }

/-- A part of a block stands in its core, so that its scratchpad may be reached (R75). -/
def State.partThere (s : State) (b part : Nat) : Bool :=
  b = 0 || (((s.block? b).bind fun x => x.part part).map fun p => decide (p.state = .resident)).getD false

/-- A core part of a block is away from its core, so that accesses to it are held (R75). -/
def State.partAway (s : State) (b part : Nat) : Bool :=
  b ≠ 0 && (((s.block? b).bind fun x => x.part part).map fun p => decide (p.state ≠ .resident)).getD false

/-! ## Barrier objects (R233 to R235) -/

/-- EXPA, ARRA, EXPB, BAL, PHASE, CODE of a barrier object. -/
def barExpa (n : Nat) : Nat := bits n 15 0
def barArra (n : Nat) : Nat := bits n 31 16
def barExpb (n : Nat) : Nat := bits n 63 32
def barBal (n : Nat) : Int := toSigned 32 (bits n 95 64)
def barPhase (n : Nat) : Nat := bits n 111 96
def barCode (n : Nat) : Nat := bits n 119 112

/-- A barrier object with ARRA, BAL or PHASE replaced. -/
def setArra (n x : Nat) : Nat := setBits n 16 16 x
def setBal (n : Nat) (x : Int) : Nat := setBits n 64 32 (wrap x 32)
def setPhase (n x : Nat) : Nat := setBits n 96 16 x
def setCode (n x : Nat) : Nat := setBits n 112 8 x

/-- OVF set where the condition holds. -/
def orOvf (n : Nat) (c : Bool) : Nat := if c then setBits n 121 1 1 else n

/-- The test after a barrier event that adds arrivals and bytes, and takes off BEXP's (R234): the object, and whether a
phase completed. -/
def barTest (n arrivals bytes bexp : Nat) : Nat × Bool :=
  let arr := barArra n + arrivals
  let bal := barBal n + bytes - bexp
  let n := orOvf (setBal (setArra n (min arr 0xFFFF)) (clamp bal .i32)) (arr > 0xFFFF || clamp bal .i32 ≠ bal)
  if barArra n ≥ barExpa n && barBal n ≥ barExpb n then
    let n := orOvf n (barArra n > barExpa n || barBal n > barExpb n)
    (setBal (setArra (setPhase n (barPhase n + 1)) 0) 0, true)
  else (n, false)

/-- SAT of a phase operand (R235). -/
def barSat (n p : Nat) : Bool :=
  let d := (barPhase n + 2 ^ 16 - p % 2 ^ 16) % 2 ^ 16
  1 ≤ d && d ≤ 2 ^ 15

/-- The status word (R235). -/
def barStatus (n p : Nat) : Word :=
  BitVec.ofNat 32 (b2n (barSat n p) * 2 ^ 31 + b2n (bit n 121) * 2 ^ 25 + b2n (bit n 120) * 2 ^ 24 + barPhase n * 2 ^ 8
    + barCode n)

/-- A barrier object of a part. -/
def State.bar (s : State) (b part off : Nat) : Nat := (s.scratchOf b part).read off 16

/-- A barrier object written. -/
def State.setBar (s : State) (b part off n : Nat) : State :=
  s.setScratchOf b part ((s.scratchOf b part).write off 16 n)

/-- A lane parked on a barrier object that a release takes: on every phase, or only where SAT holds (R237). -/
def releases (n part off : Nat) (all : Bool) (t : Thread) : Bool :=
  match t.status with
  | .parked (.barrier k o p _) => k = part && o = off && (all || barSat n p)
  | _ => false

/-- A waiter released from BWAIT: D := status word, and the next IP (R237). -/
def releaseThread (n : Nat) (t : Thread) : Thread :=
  match t.status with
  | .parked (.barrier _ _ p d) =>
    ({ match d with | some r => t.setReg r (barStatus n p) | none => t with status := .ready } : Thread).advance
  | _ => t

/-- The waiters of a barrier object released, in every group of its block (R234, R239). -/
def State.releaseBar (s : State) (b part off : Nat) (all : Bool) : State :=
  let n := s.bar b part off
  let lanes (g : Group) : List Nat := (List.range 32).filter fun l => releases n part off all (g.thread l)
  if b = 0 then s.wake .mgmt (lanes s.mgmt.group) fun _ t => releaseThread n t
  else
    match s.block? b with
    | none => s
    | some x =>
      (List.range x.groups.length).foldl (fun s i =>
        s.wake (.unit b i 0) (((x.groups[i]?).map lanes).getD []) fun _ t => releaseThread n t) s

/-- An event on a barrier object that changes ARRA or BAL (R234). -/
def State.arrive (s : State) (b part off arrivals bytes bexp : Nat) : State :=
  let (n, completed) := barTest (s.bar b part off) arrivals bytes bexp
  let s := s.setBar b part off n
  if completed then s.releaseBar b part off false else s

/-- The part and offset of a scratch address. -/
def scrPart (a : Nat) : Nat := bits a 21 20
def scrOff (a : Nat) : Nat := a % 2 ^ 20

/-! ## Capture and replay (R419 to R422) -/

/-- Records the ring holds. -/
def Csrs.capSize (c : Csrs) : Nat := 2 ^ (bits c.capRing.toNat 3 0 + 6)

/-- The place of a record of the ring. -/
def Csrs.capSlot (c : Csrs) (n : Nat) : Nat := bits c.capRing.toNat 39 12 * 4096 + 64 * (n % c.capSize)

/-- A context is captured, or replayed, in a mode. -/
def State.capOn (s : State) (mode : BitVec 2) (ctx : Nat) : Bool := s.csr.capMode = mode && s.csr.capCtxs.getLsbD ctx

/-- The bytes of a record (R420). -/
def capRecord (kind ctx part num : Nat) (time : Nat) (payload : List Byte) : List Byte :=
  [BitVec.ofNat 8 kind, BitVec.ofNat 8 ctx, BitVec.ofNat 8 part, 0] ++ leBytes 4 num ++ leBytes 8 time
    ++ (payload ++ List.replicate 48 0).take 48

/-- A record appended at HEAD, or dropped when the ring is full (R421). Every HBM address of it lies below M. -/
def State.capAppend (s : State) (kind ctx part : Nat) (payload : List Byte) : State :=
  if !s.capOn 1 ctx then s
  else if (s.csr.capHead - s.csr.capTail).toNat ≥ s.csr.capSize then { s with csr := { s.csr with capOvf := true } }
  else
    let a := s.csr.capSlot s.csr.capHead.toNat
    let r := capRecord kind ctx part s.csr.capHead.toNat s.ftime payload
    { s.snoopOut (.dev a) with
             mem := if a < hbmSize then s.mem.setBytes a r else s.mem
             csr := { s.csr with capHead := s.csr.capHead + 1 } }

/-- Record `k` from HEAD on of a replay: none beyond the records present. -/
def State.capAhead (s : State) (k : Nat) : Option (List Byte) :=
  if k < (s.csr.capTail - s.csr.capHead).toNat then
    some (s.mem.bytes (s.csr.capSlot (s.csr.capHead + BitVec.ofNat 32 k).toNat) 64)
  else none

/-- The next recorded event of a replay: none when every record has been matched. -/
def State.capNext (s : State) : Option (List Byte) := s.capAhead 0

/-- Bytes `lo` to `lo + n - 1` of a list, little-endian. -/
def leAt (l : List Byte) (lo n : Nat) : Nat := leNat ((l.drop lo).take n)

/-- Replay holds an event of a context back until every earlier record has been matched (R422). `mine` tells whether a
record is the event's own. -/
def State.capHolds (s : State) (ctx : Nat) (mine : List Byte → Bool) : Bool :=
  s.capOn 2 ctx && !s.csr.capFree &&
    match s.capNext with
    | none => false
    | some r => !mine r

/-- A record that goes with the event of the one before it: the further parts of a launch record, and its digests (R420). -/
def recordGoesOn (r : List Byte) : Bool := (leAt r 0 1 = 1 && leAt r 2 1 ≠ 0) || leAt r 0 1 = 2

/-- The first record of the event after the next one; a launch has at most 8 records, three parts and five digests (R420). -/
def State.capSuccessor (s : State) : Option (List Byte) :=
  ((List.range 8).filterMap fun k => s.capAhead (k + 1)).find? fun r => !recordGoesOn r

/-- An event that replay holds back is ready: where its record is that of the event after the next one, that one's 10 ms begin
(R422). -/
def State.capWait (s : State) (mine : List Byte → Bool) : State :=
  if s.csr.capSince.isNone && ((s.capSuccessor.map mine).getD false) then
    { s with csr := { s.csr with capSince := some s.ftime } }
  else s

/-- A record is a publish or a failure of a block's command on a barrier, with a code (R420, R422). -/
def isPublished (ctx blk bar code : Nat) (r : List Byte) : Bool :=
  leAt r 0 1 = 4 && leAt r 1 1 = ctx && leAt r 16 4 = blk && leAt r 20 4 = bar && leAt r 24 1 = code

/-- The next record passed: HEAD moves on over it, and over records whose failures have come already (R422). `n` bounds
their number. -/
def State.capPass : Nat → State → State
  | 0, s => s
  | n + 1, s =>
    let s1 := { s with csr := { s.csr with capHead := s.csr.capHead + 1, capSince := none } }
    match s1.capNext with
    | none => s1
    | some r =>
      match s1.csr.capEarly.find? fun e => isPublished e.1 e.2.1 e.2.2.1 e.2.2.2 r with
      | none => s1
      | some e => State.capPass n { s1 with csr := { s1.csr with capEarly := s1.csr.capEarly.erase e } }

/-- The next record matched. -/
def State.capMove (s : State) : State := s.capPass (s.csr.capEarly.length + 1)

/-- The event's own record matched (R422). -/
def State.capMatch (s : State) (ctx : Nat) (mine : List Byte → Bool) : State :=
  if s.capOn 2 ctx && (s.capNext.map mine).getD false then s.capMove else s

/-- A replay that does not follow its record: DIV and a REPLAY event that no block waits for (R422). -/
def State.capDiverges (s : State) (ctx : Nat) : State :=
  { s with csr := { s.csr with capDiv := true } }.raise (plainEvent .replay ctx (s.tenantOf ctx) 0 [])

/-! ## Shape records (R252, R260) -/

/-- The fields of a shape record. -/
structure Shape where
  base : Nat
  ctl  : Nat
  padv : Nat
  ext  : List Nat
  str  : List Nat
  box  : List Nat
  raw  : List Byte
  deriving DecidableEq, Repr

def Shape.ndim (r : Shape) : Nat := bits r.ctl 2 0
def Shape.esz (r : Shape) : Nat := 2 ^ bits r.ctl 5 4
def Shape.type (r : Shape) : Ty := Ty.ofCode (BitVec.ofNat 4 (bits r.ctl 11 8))
def Shape.kind (r : Shape) : Bool := bit r.ctl 12
def Shape.shard (r : Shape) : Bool := bit r.ctl 13
def Shape.scat (r : Shape) : Bool := bit r.ctl 14
def Shape.rmask (r : Shape) : Nat := bits r.ctl 18 16
def Shape.rop (r : Shape) : Nat := bits r.ctl 21 20
def Shape.rtype (r : Shape) : Ty := Ty.ofCode (BitVec.ofNat 4 (bits r.ctl 27 24))

/-- A shape record read from its 64 bytes. The stride of dimension 0 is ESZ. -/
def Shape.of (b : List Byte) : Shape :=
  let ctl := leAt b 8 4
  { base := leAt b 0 8, ctl, padv := leAt b 12 4
    ext := (List.range 5).map fun d => leAt b (16 + 4 * d) 4
    str := 2 ^ bits ctl 5 4 :: (List.range 4).map fun d => leAt b (36 + 4 * d) 4
    box := (List.range 5).map fun d => leAt b (52 + 2 * d) 2, raw := b }

/-- The collective fields (R260). -/
def Shape.group (r : Shape) : Nat := leAt r.raw 24 2
def Shape.gorg (r : Shape) : Nat := leAt r.raw 26 2
def Shape.gext (r : Shape) (d : Nat) : Nat := leAt r.raw (28 + 2 * d) 2
def Shape.myc (r : Shape) (d : Nat) : Nat := leAt r.raw (40 + 2 * d) 2
def Shape.members (r : Shape) : Nat := r.gext 0 * r.gext 1 * r.gext 2

/-- The dense size of a box of the first `n` dimensions. -/
def Shape.denseOf (r : Shape) (n : Nat) : Nat := r.esz * ((r.box.take n).foldl (· * ·) 1)
def Shape.dense (r : Shape) : Nat := r.denseOf r.ndim

/-- Where an element of a box stands: its address, or padding (R253). `dims` dimensions of the box are walked. -/
def Shape.elem (r : Shape) (dims : Nat) (coords : List Int) (e : Nat) : Option Nat :=
  let idx (d : Nat) : Nat := e / (r.box.take d).foldl (· * ·) 1 % max 1 (r.box.getD d 1)
  let x (d : Nat) : Int := coords.getD d 0 + (if d < dims then (idx d : Int) else 0)
  if (List.range r.ndim).any fun d => x d < 0 || x d ≥ r.ext.getD d 0 then none
  else some ((List.range r.ndim).foldl (fun a d => a + (x d).toNat * r.str.getD d 0) r.base)

/-- A byte of a padding element. -/
def Shape.padByte (r : Shape) (k : Nat) : Byte := BitVec.ofNat 8 (r.padv / 2 ^ (8 * k))

/-- The rules of a tile record for its dimensions (R254), up to the kind of the record. -/
def Shape.dimsOk (r : Shape) (used : Nat) : Bool :=
  1 ≤ r.ndim && r.ndim ≤ used &&
    ((List.range r.ndim).all fun d => 1 ≤ r.ext.getD d 0 && 1 ≤ r.box.getD d 0) &&
    ((List.range r.ndim).all fun d => d = 0 || r.str.getD d 0 % r.esz = 0) &&
    r.dense ≤ 2 ^ 24 &&
    ((List.range used).all fun d => d < r.ndim || (r.ext.getD d 0 = 0 && r.box.getD d 0 = 0)) &&
    ((List.range used).all fun d => d < r.ndim || d = 0 || r.str.getD d 0 = 0)

/-- The reserved bits of CTL and bytes 62 and 63. -/
def Shape.reservedOk (r : Shape) : Bool :=
  bits r.ctl 31 28 = 0 && bits r.ctl 23 22 = 0 && !bit r.ctl 19 && !bit r.ctl 15 && bits r.ctl 7 6 = 0 && !bit r.ctl 3

/-- The bytes a tensor spans from its base on (R253). -/
def Shape.span (r : Shape) : Nat :=
  (List.range r.ndim).foldl (fun a d => a + (r.ext.getD d 0 - 1) * r.str.getD d 0) r.esz

/-- A well-made tile record (R254). -/
def Shape.tileOk (r : Shape) : Bool :=
  r.dimsOk 5 && r.reservedOk && leAt r.raw 62 2 = 0 && bits r.ctl 27 24 = 0 && r.rop = 0 && r.rmask = 0 && !r.scat &&
    !r.shard && !r.kind

/-- The coordinates of a device number in the grid, by its linear index (R260). -/
def Shape.coordsOf (r : Shape) (dev : Nat) : List Nat :=
  let l := dev - r.gorg
  [l % r.gext 0, l / r.gext 0 % r.gext 1, l / (r.gext 0 * r.gext 1)]

/-- A device is a member of the grid. -/
def Shape.hasMember (r : Shape) (dev : Nat) : Bool := r.gorg ≤ dev && dev < r.gorg + r.members

/-- The devices of a member's set in rank order (R262). -/
def Shape.setOf (r : Shape) (dev : Nat) : List Nat :=
  let mine := r.coordsOf dev
  ((List.range r.members).map fun l => r.gorg + l).filter fun d =>
    (List.range 3).all fun k => bit r.rmask k || (r.coordsOf d).getD k 0 = mine.getD k 0

/-- The type rules of a reduction (R260, R264). -/
def Shape.reduceOk (r : Shape) : Bool :=
  if r.rop = 0 then true
  else
    (r.type = .f32 || r.type = .f16 || r.type = .b16 || r.type = .i32 || r.type = .n32) && 8 * r.esz = r.type.width &&
      (r.rtype = r.type || (r.rtype = .f32 && (r.type = .f16 || r.type = .b16)))

/-- A well-made collective record on a device (R260, R262). -/
def Shape.collOk (r : Shape) (dev : Nat) : Bool :=
  r.kind && r.dimsOk 2 && r.reservedOk && leAt r.raw 62 2 = 0 && leAt r.raw 34 2 = 0 && leAt r.raw 46 6 = 0 &&
    leAt r.raw 56 6 = 0 && r.gorg < 2 ^ 11 && 1 ≤ r.gext 0 && 1 ≤ r.gext 1 && 1 ≤ r.gext 2 && r.members ≤ 2048 &&
    r.gorg + r.members ≤ 2048 && r.hasMember dev &&
    (r.myc 0 = 0xFFFF || [r.myc 0, r.myc 1, r.myc 2] = r.coordsOf dev) && r.reduceOk &&
    (!r.shard || r.rop = 0) && (!r.scat || r.rop ≠ 0) &&
    (!r.scat || r.dense / r.esz % max 1 (r.setOf dev).length = 0)

/-- The shape record of a command. -/
def Cmd.shape (c : Cmd) : Shape := Shape.of c.record

/-! ## Buffers (R75, R91) -/

/-- An engine destination buffer: a scratch buffer of a part of a block, or a publish region of a context. -/
inductive BufKey where
  | scr (block part idx : Nat)
  | reg (ctx idx : Nat)
  deriving DecidableEq, Repr

/-- The scratch buffer whose visible half holds [off, off + n). -/
def Launch.bufAt (l : Launch) (off n : Nat) : Option Nat :=
  l.bufs.findIdx? fun b => b.1 ≤ off && off + n ≤ b.1 + b.2

/-- The launch of a command. -/
def State.launchOfCmd (s : State) (c : Cmd) : Option Launch := s.launch? c.launch

/-- Core parts of a command's block. -/
def State.partsOf (s : State) (b : Nat) : Nat := ((s.block? b).map (·.parts.length)).getD 0

/-- A scratch range an engine may reach: part and offset (R75). -/
def State.engScratch (s : State) (c : Cmd) (a n : Nat) : Option (Nat × Nat) :=
  match s.launchOfCmd c with
  | none => none
  | some l =>
    if a < 2 ^ 22 && scrPart a < s.partsOf c.block && scrOff a + n ≤ l.scratch then some (scrPart a, scrOff a)
    else none

/-- The scratch buffer that holds a range of a command's block. -/
def State.scrBuffer (s : State) (c : Cmd) (a n : Nat) : Option BufKey :=
  match s.engScratch c a n, s.launchOfCmd c with
  | some (p, o), some l => (l.bufAt o n).map fun j => .scr c.block p j
  | _, _ => none

/-- The hidden backing of a range of a region reaches beyond HBM, where no engine write goes (R344). -/
def Region.beyond (r : Region) (va n : Nat) : Bool := r.backing false + (va - r.base) + n > hbmSize

/-- The publish region that holds a range of addresses. -/
def State.regBuffer (s : State) (c : Cmd) (va n : Nat) : Option BufKey :=
  match s.regionOf c.ctx va with
  | some r => if va + n ≤ r.base + r.size && !r.beyond va n then some (.reg c.ctx r.idx) else none
  | none => none

/-! ## Sources -/

/-- A byte of a command's source stream: padding, a scratch byte, a global byte, or a failure. -/
inductive Src where
  | pad (x : Byte)
  | scr (part off : Nat)
  | glb (va : Nat)
  | bad (code : Nat)
  deriving DecidableEq, Repr

/-- The tensor of a command's record is a scratch tensor (R256 to R258, R261). -/
def Cmd.scrTensor (c : Cmd) : Bool :=
  match c.kind with
  | .copy => c.var = 2
  | .gather | .scatter | .fill => c.var = 1
  | .coll => c.var / 2 % 2 = 1
  | _ => false

/-- A tensor byte at an address. -/
def State.tensorSrc (s : State) (c : Cmd) (a : Nat) : Src :=
  if c.scrTensor then
    match s.engScratch c a 1 with
    | some (p, o) => if a < 2 ^ 32 then .scr p o else .bad 2
    | none => .bad 2
  else if a ≥ 2 ^ 52 then .bad 2 else .glb a

/-- A byte of the source box. -/
def State.boxSrc (s : State) (c : Cmd) (dims : Nat) (coords : List Int) (p : Nat) : Src :=
  let r := c.shape
  match r.elem dims coords (p / r.esz) with
  | none => .pad (r.padByte (p % r.esz))
  | some a => s.tensorSrc c (a + p % r.esz)

/-- A scratch byte of a command's source. DESIGN CHOICE (notes/assumptions/13.md): one in the hidden half of a buffer gives
the scratchpad's own byte there; the spec gives the engine's source no value. -/
def State.scrSrc (s : State) (c : Cmd) (a : Nat) : Src :=
  match s.engScratch c a 1 with
  | some (p, o) => .scr p o
  | none => .bad 2

/-- The coordinates of a command as integers. -/
def Cmd.coordsI (c : Cmd) : List Int := c.coords.map fun w => w.toInt

/-- The number of indices of a gather or scatter, once the count is read. -/
def Cmd.count (c : Cmd) : Nat := c.data.read 0 4

/-- A byte range of the source stream has been read. -/
def Cmd.hasRead (c : Cmd) (lo n : Nat) : Bool :=
  (List.range n).all fun i => c.read.any fun r => r.1 ≤ lo + i && lo + i < r.1 + r.2

/-- The size of one slice (R257). -/
def Shape.slice (r : Shape) : Nat := r.denseOf (r.ndim - 1)

/-- The place of the dense bytes in the stream of a gather or scatter: after the index list. -/
def Cmd.listLen (c : Cmd) : Nat := 4 + 4 * c.count

/-- An index of the list. -/
def Cmd.index (c : Cmd) (j : Nat) : Int := toSigned 32 (c.data.read (4 + 4 * j) 4)

/-- Coordinates of slice `x` of a gather or scatter (R257). -/
def Shape.sliceCoords (r : Shape) (x : Int) : List Int := List.replicate (r.ndim - 1) 0 ++ [x]

/-- The length of a command's source stream, as far as it is known. -/
def Cmd.total (c : Cmd) : Nat :=
  match c.kind with
  | .copy | .coll => c.shape.dense
  | .gather | .scatter => if c.hasRead 0 4 then c.listLen + c.count * c.shape.slice else 4
  | .fill | .pub | .cseq => 0

/-- Byte `p` of a command's source stream (R251, R256, R257, R261). -/
def State.srcAt (s : State) (c : Cmd) (p : Nat) : Src :=
  let r := c.shape
  match c.kind with
  | .copy => if c.var = 1 then s.scrSrc c (c.a.toNat + p) else s.boxSrc c r.ndim c.coordsI p
  | .coll => s.boxSrc c r.ndim c.coordsI p
  | .gather | .scatter =>
    if p < 4 then s.scrSrc c (c.b.toNat + p)
    else if c.count = 0 || c.count > 65536 then .bad 2
    else if p < c.listLen then s.scrSrc c (c.b.toNat + p)
    else
      let q := p - c.listLen
      if c.kind = .scatter then s.scrSrc c (c.a.toNat + q)
      else s.boxSrc c (r.ndim - 1) (r.sliceCoords (c.index (q / r.slice))) (q % r.slice)
  | .fill | .pub | .cseq => .bad 2

/-- Byte `p` can be read now: a dense byte of a gather needs its index, and every byte past the count needs it. -/
def Cmd.knows (c : Cmd) (p : Nat) : Bool :=
  match c.kind with
  | .gather =>
    p < 4 || (c.hasRead 0 4 &&
      (p < c.listLen || c.hasRead (4 + 4 * ((p - c.listLen) / max 1 c.shape.slice)) 4))
  | .scatter => p < 4 || c.hasRead 0 4
  | _ => true

/-- The code a refused translation gives an engine command (R250, R346). -/
def XFault.code : XFault → Nat
  | .page => 1
  | .access => 2

/-- A source byte read, or the code the command fails with (R250, R415). -/
def State.readSrc (s : State) (c : Cmd) : Src → Except Nat Byte
  | .pad x => .ok x
  | .bad k => .error k
  | .scr p o =>
    match (s.block? c.block).bind fun x => x.part p with
    | none => .error 2
    | some q =>
      if s.rel.poison.contains (4, markAt q.slot q.core (o / 64)) then .error 3 else .ok (q.scratch.byte o)
  | .glb va =>
    match s.translate c.ctx va false with
    | .error e => .error e.code
    | .ok t => if (s.poisonAt t.loc).isSome then .error 3 else .ok (BitVec.ofNat 8 (s.readLoc t.loc 1))

/-! ## Destinations -/

/-- The dense bytes a command has read, from a place of the stream. -/
def Cmd.bytesAt (c : Cmd) (lo n : Nat) : List Byte := c.data.bytes lo n

/-- The bytes written by a box of elements, `src e k` being byte k of element e; padding elements are not written. -/
def Shape.boxWrites (r : Shape) (dims : Nat) (coords : List Int) (n : Nat) (src : Nat → Nat → Byte) :
    List (Nat × Byte) :=
  (List.range n).flatMap fun e =>
    match r.elem dims coords e with
    | none => []
    | some a => (List.range r.esz).map fun k => (a + k, src e k)

/-- A byte list laid down from an address. -/
def layBytes (a : Nat) (bs : List Byte) : List (Nat × Byte) := bs.zipIdx.map fun x => (a + x.2, x.1)

/-- The state record CSEQ publishes (R266). -/
def State.cseqBytes (s : State) (c : Cmd) : List Byte :=
  let gs := ((s.ctxs[c.ctx]?).map (·.groups)).getD []
  match gs.find? fun g => g.v && g.gid.toNat = c.b.toNat % 2 ^ 16 with
  | none => leBytes 8 0 ++ [2, 0, 0, 0] ++ leBytes 4 0xFFFFFFFF
  | some g =>
    leBytes 4 g.next.toNat ++ leBytes 4 g.done.toNat ++ [if g.closed then 1 else 0, g.last, 0, 0]
      ++ leBytes 4 (if g.closed then g.lost.toNat else 0xFFFFFFFF)

/-- What a command other than XPUB and COLL writes, in order: (address, byte), the addresses scratch addresses, global
addresses or frame offsets (R253, R256 to R258, R266). -/
def State.cmdWrites (s : State) (c : Cmd) : List (Nat × Byte) :=
  let r := c.shape
  match c.kind with
  | .copy =>
    if c.var = 1 then
      r.boxWrites r.ndim c.coordsI (r.dense / r.esz) fun e k => c.data.byte (e * r.esz + k)
    else layBytes (if c.var = 3 then 0 else c.a.toNat) (c.bytesAt 0 r.dense)
  | .gather => layBytes c.a.toNat (c.bytesAt c.listLen (c.count * r.slice))
  | .scatter =>
    (List.range c.count).flatMap fun j =>
      r.boxWrites (r.ndim - 1) (r.sliceCoords (c.index j)) (r.slice / r.esz) fun e k =>
        c.data.byte (c.listLen + j * r.slice + e * r.esz + k)
  | .fill =>
    r.boxWrites r.ndim c.coordsI (r.dense / r.esz) fun _ k => BitVec.ofNat 8 (c.b.toNat % 2 ^ 32 / 2 ^ (8 * (k % 4)))
  | .cseq => layBytes c.a.toNat (s.cseqBytes c)
  | .pub | .coll => []

/-- A command's destination is global. -/
def Cmd.dstGlobal (c : Cmd) : Bool :=
  match c.kind with
  | .copy => c.var = 1
  | .scatter | .fill => c.var = 0
  | .coll => c.var % 2 = 1
  | .pub => c.var = 1
  | .gather | .cseq => false

/-- BYTES of a collective (R262). -/
def Shape.collBytes (r : Shape) (n : Nat) : Nat :=
  if r.rop = 0 then n * r.dense else if r.scat then r.dense / max 1 n else r.dense

/-- The destination range of a command: address and length. A tensor destination counts whole, whatever its box writes
(R256 to R258). None for a FRAME copy. -/
def State.dstRange (s : State) (c : Cmd) : Option (Nat × Nat) :=
  match c.kind with
  | .copy =>
    if c.var = 3 then none else if c.var = 1 then some (c.shape.base, c.shape.span) else some (c.a.toNat, c.shape.dense)
  | .gather => some (c.a.toNat, c.count * c.shape.slice)
  | .cseq => some (c.a.toNat, 16)
  | .coll => some (c.a.toNat, c.shape.collBytes (c.shape.setOf s.fabric.devnum.toNat).length)
  | .pub => some (c.a.toNat, 1)
  | .scatter | .fill => some (c.shape.base, c.shape.span)

/-- The buffer that holds a range of a command's destination. -/
def State.bufferAt (s : State) (c : Cmd) (a n : Nat) : Option BufKey :=
  if c.dstGlobal then (if a + n ≤ 2 ^ 52 then s.regBuffer c a n else none)
  else if a < 2 ^ 32 then s.scrBuffer c a n else none

/-- The buffer a command works on (R91): the one that holds the first byte of its destination, or the one XPUB names. -/
def State.buffer (s : State) (c : Cmd) : Option BufKey :=
  match s.dstRange c with
  | some (a, _) => s.bufferAt c a 1
  | none => none

/-- The whole destination lies in one buffer. -/
def State.dstInBuffer (s : State) (c : Cmd) : Bool :=
  match s.dstRange c with
  | some (a, n) => (s.bufferAt c a n).isSome
  | none => true

/-- The code of a destination outside a buffer: FAULT where its address has no valid translation, or its region's backing
lies beyond HBM (R250, R344), else ACCESS (R91); for XPUB always ACCESS (R259). -/
def State.dstCode (s : State) (c : Cmd) : Nat :=
  match s.dstRange c with
  | none => 2
  | some (a, n) =>
    if c.kind = .pub || !c.dstGlobal || a ≥ 2 ^ 52 then 2
    else if ((s.regionOf c.ctx a).map fun r => decide (a + n ≤ r.base + r.size) && r.beyond a n).getD false then 1
    else match s.translate c.ctx a false with
      | .error .page => 1
      | _ => 2

/-- The barrier objects a command names: SHARD names one for each rank (R262). -/
def State.barsOf (s : State) (c : Cmd) : List Nat :=
  if c.kind = .coll && c.shape.shard && c.shape.collOk s.fabric.devnum.toNat then
    (List.range (c.shape.setOf s.fabric.devnum.toNat).length).map fun j => (c.bar + 16 * j) % 2 ^ 32
  else [c.bar]

/-- A barrier of the command lies in its own scratch destination buffer, in one half of it or the other (R240, R428). -/
def State.barInDst (s : State) (c : Cmd) : Bool :=
  match s.buffer c, s.launchOfCmd c with
  | some (.scr _ p j), some l =>
    let b := l.bufs.getD j (0, 0)
    c.kind != .pub && (s.barsOf c).any fun a => scrPart a = p && b.1 ≤ scrOff a && scrOff a < b.1 + bufBytes b.2
  | _, _ => false

/-- The frame a FRAME copy names may be written (R47, R256). -/
def State.frameOk (s : State) (c : Cmd) : Bool :=
  match s.launchOfCmd c, s.frameWin c.launch c.core with
  | some l, some w =>
    1 ≤ c.a.toNat && c.a.toNat < l.frames && (w.map.getD c.a.toNat none).isNone && c.shape.dense = 4096
  | _, _ => false

/-- The collective group entry of a command. -/
def State.entryOf (s : State) (c : Cmd) : Option CollGroup := (s.ctxs[c.ctx]?).bind fun x => x.groups[c.entry]?

/-- The grid of a collective lies in the job of the context (R406). -/
def State.gridInJob (s : State) (c : Cmd) : Bool :=
  match s.tenants[s.tenantOf c.ctx]? with
  | none => false
  | some t =>
    t.jv && (List.range c.shape.members).all fun l =>
      (t.jobMap.getD ((c.shape.gorg + l) / 64) 0).getLsbD ((c.shape.gorg + l) % 64)

/-- A failure of a collective that was known before this member's command was there: its code (R97, R265). With SHARD only
this member's own counts for the whole command; another member's fails the shard from it. -/
def State.knownLoss (s : State) (c : Cmd) : Option Nat :=
  ((s.ctxs[c.ctx]?).bind fun x =>
    x.lostSeq.find? fun l => l.1 = c.shape.group && l.2.1 = c.seq &&
      (!c.shape.shard || l.2.2.2 = s.fabric.devnum.toNat)).map fun l => l.2.2.1

/-- The failure a command meets in its record, its group or its destination (R250, R252, R254, R257, R260, R406). -/
def State.cmdCheck (s : State) (c : Cmd) : Option Nat :=
  let r := c.shape
  let dst : Option Nat :=
    if !s.dstInBuffer c then some (s.dstCode c) else if s.barInDst c then some 2 else none
  let base : Bool := !c.scrTensor || r.base < 2 ^ 32
  match c.kind with
  | .copy =>
    if !r.tileOk || !base then some 2 else if c.var = 3 then (if s.frameOk c then none else some 2) else dst
  | .fill => if !r.tileOk || !base then some 2 else dst
  | .gather | .scatter =>
    if !r.tileOk || !base || r.ndim < 2 || r.box.getD (r.ndim - 1) 0 ≠ 1 || c.b.toNat % 4 ≠ 0 then some 2
    else if c.hasRead 0 4 then (if c.count = 0 || c.count > 65536 then some 2 else dst)
    -- the extent of a gather's destination is known once the count is read
    else if c.kind = .scatter then dst else none
  | .pub | .cseq => dst
  | .coll =>
    match s.entryOf c with
    | none => some 2
    | some g =>
      if g.closed then some 7
      else if (s.knownLoss c).isSome then s.knownLoss c
      else if !r.collOk s.fabric.devnum.toNat || !base || !s.gridInJob c then some 2
      else dst

/-! ## Completion (R66, R94, R95, R251) -/

/-- A thread's pairs that are pending on a command receive the status word; a cancelled command leaves its pairs in the
cancelled state (R66, R67). `bytes` is 0 with a code, but for a SHARD collective of which some shards have published
(R262). -/
def Thread.complete (t : Thread) (cmd code bytes : Nat) : Thread :=
  let mine := t.pend.filter fun q => q.cmd = cmd && !q.cancelled
  let v := mine.foldl (fun v q =>
    setAt (setAt v q.reg (BitVec.ofNat 32 code)) (q.reg + 1) (BitVec.ofNat 32 bytes)) t.v
  { t with
    v
    pend := if code = 9 then t.pend.map fun q => if q.cmd = cmd then { q with cancelled := true } else q
      else t.pend.filter fun q => q.cmd ≠ cmd || q.cancelled }

/-- A command is still to complete. -/
def State.undone (s : State) (id : Nat) : Bool := s.cmds.any fun c => c.id = id && decide (c.state = .running)

/-- The lanes of a group parked on commands that have all completed. -/
def Group.handleReady (g : Group) (undone : Nat → Bool) : List Nat :=
  (List.range 32).filter fun l =>
    match (g.thread l).status with
    | .parked (.handles cs) => cs.all fun c => !undone c
    | _ => false

/-- The threads of a block that wait for commands which have all completed are ready again (R49). -/
def State.wakeHandles (s : State) (b : Nat) : State :=
  match s.block? b with
  | none => s
  | some x =>
    (List.range x.groups.length).foldl (fun s i =>
      s.wake (.unit b i 0) (((x.groups[i]?).map fun g => g.handleReady s.undone).getD []) fun _ t => t) s

/-- The linear block index of a command's block. -/
def State.blkIdxOf (s : State) (b : Nat) : Nat := ((s.block? b).map (·.index)).getD 0

/-- The payload of a PUBLISH record (R420). -/
def State.pubPayload (s : State) (c : Cmd) (bar code bytes : Nat) : List Byte :=
  leBytes 4 (s.blkIdxOf c.block) ++ leBytes 4 bar ++ [BitVec.ofNat 8 code, 0, 0, 0] ++ leBytes 4 bytes

/-- A record is the publish of a command on a barrier (R422). -/
def State.isPublish (s : State) (c : Cmd) (bar : Nat) (r : List Byte) : Bool :=
  isPublished c.ctx (s.blkIdxOf c.block) bar 0 r

/-- The PUBLISH record of a publish or a failure (R420), or its match in a replay (R422). DESIGN CHOICE
(notes/assumptions/82.md): a failure that a thread's own event or a partition reset makes is not held back; where its record is
not next it is remembered until then. -/
def State.capPublish (s : State) (c : Cmd) (bar code bytes : Nat) : State :=
  let s := s.capAppend 4 c.ctx 0 (s.pubPayload c bar code bytes)
  let mine := isPublished c.ctx (s.blkIdxOf c.block) bar code
  if code = 0 || !s.capOn 2 c.ctx || (s.capNext.map mine).getD true then s.capMatch c.ctx mine
  else
    let s1 := s.capWait mine
    { s1 with csr := { s1.csr with capEarly := s1.csr.capEarly ++ [(c.ctx, s.blkIdxOf c.block, bar, code)] } }

/-- A command completes: its handles, its waiters, its collective group and its capture record. Each shard of a SHARD
collective has a record of its own (R420, R262). -/
def State.completeCmd (s : State) (c : Cmd) (code bytes : Nat) : State :=
  let (stamp, s) := s.newId
  let s := s.updCmd c.id fun x => { x with state := .done, code, bytes, failAt := stamp }
  let s := s.updBlock c.block fun b => { b with
    groups := updAt b.groups c.group fun g => { g with threads := g.threads.map fun t => t.complete c.id code bytes } }
  let s :=
    if c.kind = .coll then
      { s with ctxs := updAt s.ctxs c.ctx fun x => { x with groups := updAt x.groups c.entry fun g =>
          { g with done := g.done + 1, last := BitVec.ofNat 8 code } } }
    else s
  (if c.kind = .coll && c.shape.shard then s else s.capPublish c c.bar code bytes).wakeHandles c.block

/-- A command's arrival on a barrier object: 1 arrival and its bytes, and on failure its code in CODE (R94, R95). -/
def State.cmdArrives (s : State) (c : Cmd) (bar code bytes : Nat) : State :=
  let p := scrPart bar
  let o := scrOff bar
  let s := if code = 0 then s else s.setBar c.block p o (setCode (s.bar c.block p o) code)
  s.arrive c.block p o 1 (if code = 0 then bytes else 0) 0

/-- Completion and arrival in one event. -/
def State.endCmd (s : State) (c : Cmd) (code bytes : Nat) (arrives : Bool) : State :=
  let s := s.completeCmd c code bytes
  if arrives then s.cmdArrives c c.bar code bytes else s

/-- The HOLD commands of an XPUB's set: issued on its buffer before it and after the previous XPUB there (R93). -/
def State.holdSet (s : State) (p : Cmd) : List Cmd :=
  let buf := s.buffer p
  s.cmds.filter fun h =>
    h.hold && h.id < p.id && buf.isSome && s.buffer h = buf &&
      !(s.cmds.any fun q => q.kind = .pub && h.id < q.id && q.id < p.id && s.buffer q = buf)

/-- A command that has not published fails (R94): its code, its arrival of 0 bytes, and for an XPUB the ABANDONED of its
set. A collective with SHARD fails the shards still to publish, and reports the bytes of those that have (R262).
`reset`: the barrier that a BRST resets, of which the command itself makes no arrival anywhere (R239). -/
def State.failCmd (s : State) (c : Cmd) (code : Nat) (reset : Option Nat) : State :=
  if !s.undone c.id then s
  else
    let set := if c.kind = .pub then (s.holdSet c).filter fun h => decide (h.state = .running) else []
    let s := set.foldl (fun s h => s.endCmd h 6 0 (reset != some h.bar)) s
    if c.kind = .coll && c.shape.shard then
      let bars := s.barsOf c
      let left := (List.range bars.length).filter fun j => !(c.shards.any fun x => x.1 = j)
      let first := ((c.shards.find? fun x => x.2 ≠ 0).map (·.2)).getD code
      let sent := (c.shards.filter fun x => x.2 = 0).length * c.shape.dense
      left.foldl (fun s j =>
        let s := s.capPublish c (bars.getD j 0) code 0
        if reset.isNone then s.cmdArrives c (bars.getD j 0) code 0 else s) (s.completeCmd c first sent)
    else s.endCmd c code 0 reset.isNone

/-- The first record of a command's failure: the command whose it is, its barrier and its code (R259, R262, R420). -/
def State.failFirst (s : State) (c : Cmd) (code : Nat) : Cmd × Nat × Nat :=
  match if c.kind = .pub then (s.holdSet c).filter fun h => decide (h.state = .running) else [] with
  | h :: _ => (h, h.bar, 6)
  | [] =>
    if c.kind = .coll && c.shape.shard then
      let bars := s.barsOf c
      (c, (((List.range bars.length).find? fun j => !(c.shards.any fun x => x.1 = j)).map fun j => bars.getD j 0).getD c.bar, code)
    else (c, c.bar, code)

/-- A record is the first one of a command's failure. -/
def State.failRecord (s : State) (c : Cmd) (code : Nat) (r : List Byte) : Bool :=
  let x := s.failFirst c code
  isPublished x.1.ctx (s.blkIdxOf x.1.block) x.2.1 x.2.2 r

/-- Replay holds a command's failure back until its record is the next (R422, R423). -/
def State.failWaits (s : State) (c : Cmd) (code : Nat) : Bool := s.undone c.id && s.capHolds c.ctx (s.failRecord c code)

/-- A failure that is an event of its own, unless replay holds it back. -/
def State.failHeld (s : State) (c : Cmd) (code : Nat) : State :=
  if s.failWaits c code then s.capWait (s.failRecord c code) else s.failCmd c code none

/-! ## Publish (R92) -/

/-- The 64-byte units of a sorted write list that it covers whole. -/
def coveredUnits (ws : List (Nat × Byte)) : List Nat :=
  (distinct (ws.map fun w => w.1 / 64)).filter fun u => (List.range 64).all fun k => ws.any fun w => w.1 = 64 * u + k

/-- The core and the block-table slot of a part of a block. -/
def State.placeOfPart (s : State) (b p : Nat) : Nat × Nat :=
  (((s.block? b).bind fun x => x.part p).map fun q => (q.core, q.slot)).getD (0, 0)

/-- Writes published into a scratch buffer: the bytes take the commands' values, every other byte keeps the visible
half's; a unit written whole is poisoned no more (R92, R415). -/
def State.publishScr (s : State) (b p : Nat) (ws : List (Nat × Byte)) : State :=
  let ws := ws.map fun w => (scrOff w.1, w.2)
  let m := ws.foldl (fun m w => m.setByte w.1 w.2) (s.scratchOf b p)
  let place := s.placeOfPart b p
  let s := s.setScratchOf b p m
  if s.rel.poison.isEmpty then s
  else
    let cov := coveredUnits ws
    { s with rel := { s.rel with poison := s.rel.poison.filter fun k =>
        !(k.1 = 4 && markCore k.2 = place.1 && markSlot k.2 = place.2 && cov.contains (markWord k.2)) } }

/-- The visible halves of region `idx` inverted, in the descriptor and in those that have been replaced (R92, R352). -/
def CtxBlock.invert (x : CtxBlock) (idx : Nat) : CtxBlock :=
  { x with
    desc := updAt x.desc (2 * idx + 1) fun d => d ^^^ BitVec.ofNat 64 (2 ^ 56)
    oldDesc := x.oldDesc.map fun d => if d.1 = idx then (d.1, d.2.1, d.2.2 ^^^ BitVec.ofNat 64 (2 ^ 56)) else d }

/-- Writes published into a publish region: the hidden backing takes the visible half's bytes and the commands' bytes
over them, and VIS inverts (R92, R352). While a replaced descriptor may still be used, which one is not defined. -/
def State.publishReg (s : State) (ctx idx : Nat) (ws : List (Nat × Byte)) : State :=
  let rs := (((s.ctxs[ctx]?).map fun x => x.oldRegions ++ x.regions).getD []).filter fun r => r.idx = idx
  match oneOf (Config.freeIndex s.fresh (2 ^ 54 + idx)) rs with
  | none => s
  | some r =>
    let vis := r.backing true
    let hid := r.backing false
    -- no byte at or above M is written (R344)
    let size := min r.size (hbmSize - hid)
    let m := copyCells (s.mem.clear hid size) vis size hid s.mem.cells
    let ws := (ws.filter fun w => r.base ≤ w.1 && w.1 < r.base + size).map fun w => (hid + (w.1 - r.base), w.2)
    let m := ws.foldl (fun m w => m.setByte w.1 w.2) m
    let cov := coveredUnits ws
    let kept := s.rel.poison.filter fun k => !(k.1 = 0 && hid ≤ k.2 && k.2 < hid + size)
    let moved := (kept.filter fun k => k.1 = 0 && vis ≤ k.2 && k.2 < vis + size).map fun k => (0, hid + (k.2 - vis))
    let poison := kept ++ moved.filter fun k => !cov.contains (k.2 / 64)
    { s with
      mem := m
      snoop := s.snoop.filter fun u => !(hid ≤ u && u < hid + size)
      rel := { s.rel with poison }
      ctxs := updAt s.ctxs ctx fun x => x.invert idx }

/-- Writes published into a buffer. -/
def State.publish (s : State) (buf : Option BufKey) (ws : List (Nat × Byte)) : State :=
  match buf with
  | some (.scr b p _) => s.publishScr b p ws
  | some (.reg ctx idx) => s.publishReg ctx idx ws
  | none => s

/-- BYTES: the number of bytes the command wrote (R251). -/
def State.cmdBytes (s : State) (c : Cmd) : Nat :=
  match c.kind with
  | .pub => 0
  -- each slice an XSCAT wrote counts, one written twice included (R257)
  | _ => (s.cmdWrites c).length

/-- A scratch source byte stands in its core (R75). -/
def State.srcThere (s : State) (c : Cmd) : Src → Bool
  | .scr p _ => !s.partAway c.block p
  | _ => true

/-- The parts a command needs in their cores: its own, its barriers' and its destination's (R75, R320). -/
def State.cmdThere (s : State) (c : Cmd) : Bool :=
  !s.powerOff.isSome && s.partThere c.block c.part &&
    !((s.barsOf c).any fun a => s.partAway c.block (scrPart a)) &&
    (c.dstGlobal || !((s.dstRange c).any fun r => s.partAway c.block (scrPart r.1)))

/-- No earlier command on the command's buffer is still to complete (R93). -/
def State.firstOnBuffer (s : State) (c : Cmd) : Bool :=
  let buf := s.buffer c
  buf.isNone || !(s.cmds.any fun k => k.id < c.id && decide (k.state = .running) && s.buffer k = buf)

/-- A HOLD command has written: its source is read, and every AUTO command and XPUB issued on the buffer before it has
completed (R93). -/
def State.holdWritten (s : State) (h : Cmd) : Bool :=
  h.hasRead 0 h.total && s.cmdCheck h = none && s.cmdThere h &&
    !(s.cmds.any fun k => k.id < h.id && !k.hold && decide (k.state = .running) && s.buffer k = s.buffer h)

end Sys2Proof.Machine
end

