-- ==== Sys2Proof/Machine/Ctl.lean ====
section
/-!
DEFINITION. The control ranges of the device-local address map (R344, R429): launch-queue windows (R327, R328), partition
control blocks (R354, R404) with the device-wide fabric, mailbox and reliability registers (R398, R403, R417), and
context blocks (R351 to R353, R383, R406, R407); partition reset (R358).
-/

namespace Sys2Proof.Machine

open Sys2Proof

/-! ## Registers and bytes (R7, R429) -/

/-- A register's RW bits `rw` taking the bytes a store covers. -/
def mergeReg (old x mask rw : DWord) : DWord := (old &&& ~~~(mask &&& rw)) ||| (x &&& mask &&& rw)

/-- The ones of bits `hi` to `lo`. -/
def fieldMask (hi lo : Nat) : DWord := BitVec.ofNat 64 (2 ^ (hi + 1) - 2 ^ lo)

/-- A store writes some byte of the field (R429). -/
def touches (mask : DWord) (hi lo : Nat) : Bool := mask &&& fieldMask hi lo ≠ 0

/-- The bits of the bytes that a store of `size` bytes at an address covers in its register. -/
def byteMask (a size : Nat) : DWord := BitVec.ofNat 64 ((2 ^ (8 * size) - 1) * 2 ^ (8 * (a % 8)))

/-- A stored value at its place in the register. -/
def placeVal (a x : Nat) : DWord := BitVec.ofNat 64 (x * 2 ^ (8 * (a % 8)))

/-- A device MSI-X table entry raised. -/
def State.raiseMsix (s : State) (e : Nat) : State :=
  { s with fabric := { s.fabric with msix := s.fabric.msix ||| BitVec.ofNat 2048 (2 ^ (e % 2048)) } }

/-- The W1C interrupt source `i` set (R311). -/
def State.setPend (s : State) (i : Nat) : State :=
  { s with csr := { s.csr with intPend := s.csr.intPend ||| BitVec.ofNat 9 (2 ^ i) } }

/-- The management core acts at hypervisor level. -/
def State.isHyper (s : State) : Bool := s.csr.pl.toNat ≥ 2

/-! ## Domains and levels (R370, R378) -/

/-- The supply of a column (R369). -/
def State.supplyOf (s : State) (col : Nat) : Nat := (s.csr.supply.getD col 0).toNat

/-- The columns of a supply's domain. -/
def State.domain (s : State) (d : Nat) : List Nat := (List.range 48).filter fun c => s.supplyOf c = d

/-- The tenant partition whose COLMASK holds a column (R354). -/
def State.tenantOfColumn (s : State) (col : Nat) : Option Nat := s.tenants.findIdx? fun t => t.colMask.getLsbD col

/-- The cores on which a block holds its parts. -/
def Block.cores (b : Block) : List Nat := (b.parts.filter fun p => decide (p.state = .resident)).map (·.core)

/-- A block that holds its slots: admitted and not retired. -/
def Block.lives (b : Block) : Bool := b.state != .retired

/-- A part that occupies its core. -/
def Part.onCore (p : Part) : Bool := p.state = .resident || p.state = .saving

/-- A launch's context. -/
def State.ctxOfLaunch (s : State) (l : Nat) : Nat := ((s.launch? l).map (·.ctx)).getD 0

/-- A context runs in a domain: it has a resident block on a column of it (R370), and has not ended (R285). -/
def State.runsIn (s : State) (ctx d : Nat) : Bool :=
  s.csr.ctxValid.getLsbD ctx && s.blocks.any fun b =>
    decide (b.state = .resident) && s.ctxOfLaunch b.launch = ctx && b.cores.any fun c => s.supplyOf (columnOf c) = d

/-- REQPL: the highest requested level of the contexts running in a domain (R370). -/
def State.reqPl (s : State) (d : Nat) : Nat :=
  (s.ctxs.zipIdx).foldl (fun m x => if s.runsIn x.2 d then max m x.1.reqPl else m) 0

/-- EFFPL of a domain (R378): a domain takes the ceiling of the partition its columns belong to. -/
def State.effective (s : State) (d : Nat) : Nat :=
  match s.supplies[d]? with
  | none => 0
  | some x =>
    let want := if x.cen then x.cohort else s.reqPl d
    let ceil := ((s.domain d).filterMap s.tenantOfColumn).foldl (fun m p => min m (s.csr.ceil.getD p 15).toNat) 15
    min want (min ceil x.capL)

/-- The levels re-evaluated, as at every sample and on every write that affects them (R378). -/
def State.relevel (s : State) : State :=
  { s with supplies := s.supplies.zipIdx.map fun (x : Supply × Nat) => { x.1 with effPl := s.effective x.2 } }

/-! ## Launch-queue windows (R327, R328) -/

/-- A queue changed. A record that becomes ready takes its place in the order of readiness (R329). -/
def State.updQueue (s : State) (q : Nat) (f : Queue → Queue) : State :=
  match s.queues[q]? with
  | none => s
  | some x =>
    let y := f x
    if y.state = 1 && (x.state ≠ 1 || x.head ≠ y.head) then
      { s with queues := setAt s.queues q { y with since := s.nextId }, nextId := s.nextId + 1 }
    else { s with queues := setAt s.queues q y }

/-- Records the ring holds. -/
def Queue.ring (q : Queue) : Nat := 2 ^ (q.size.toNat + 4)

/-- SIZE is out of range or a byte of the ring lies at or above M. -/
def Queue.badRing (q : Queue) : Bool := q.size.toNat ≥ 13 || bits q.base.toNat 39 12 * 4096 + 128 * q.ring > hbmSize

/-- The queue examined (R328): code 9 on overrun, empty, or active. A queue that waits or is halted keeps its state. -/
def Queue.examine (q : Queue) : Queue :=
  if !q.en || q.state = 3 then q
  else if (q.tail - q.head).toNat > q.ring then { q with state := 3, code := 9 }
  else if q.head = q.tail then { q with state := 0 }
  else if q.state = 2 then q
  else { q with state := 1 }

/-- EN written (R327): set, it starts the queue or halts it with code 9; cleared, it disables the queue. -/
def Queue.enable (q : Queue) (en : Bool) : Queue :=
  if en = q.en then q
  else if !en then { q with en := false, state := 4, code := 0 }
  else if q.badRing then { q with en := true, state := 3, code := 9 }
  else ({ q with en := true, state := 0 } : Queue).examine

/-- Bytes at virtual addresses of a context, read as a DEVICE-class load reads them; none on a fault or ACCESS. -/
def State.readVa (s : State) (ctx va n : Nat) : Option (List Byte) :=
  let first := va / 4096
  let count := if n = 0 then 0 else (va + n - 1) / 4096 + 1 - first
  ((List.range count).mapM fun i =>
    let lo := max va ((first + i) * 4096)
    let hi := min (va + n) ((first + i + 1) * 4096)
    if hi > 2 ^ 52 then none
    else
      match s.translate ctx lo false with
      | .ok t => some (leBytes (hi - lo) (s.readLoc t.loc (hi - lo)))
      | .error _ => none).map List.flatten

/-- The address of the record at HEAD of a queue, and the record. -/
def Queue.recordAddr (q : Queue) : Nat := bits q.base.toNat 39 12 * 4096 + 128 * (q.head.toNat % q.ring)
def State.recordAt (s : State) (q : Queue) : List Byte := s.mem.bytes q.recordAddr 128

/-- The lookup of the read of a record, in the class of the queue's partition (R328, R357). -/
def State.touchRecord (s : State) (q : Queue) : State := s.touchFrom (s.tenantOf q.ctx.toNat) q.recordAddr false

/-- A queue halted with a code. -/
def State.haltQueue (s : State) (k code : Nat) : State :=
  s.updQueue k fun q => if q.en then { q with state := 3, code := BitVec.ofNat 8 code } else q

/-- A record leaves CHECK: HEAD advances (R328). -/
def State.advanceQueue (s : State) (k : Nat) : State :=
  s.updQueue k fun q => { q with head := q.head + 1, state := if q.head + 1 = q.tail then 0 else 1 }

/-- The word of the WAIT record that a queue waits at, read again, with the lookup of a load (R330, R365). -/
def State.pollWait (s : State) (k : Nat) : State :=
  match s.queues[k]? with
  | none => s
  | some q =>
    let r := s.recordAt q
    if q.valid && q.en && q.state = 2 then
      match s.readVa q.ctx.toNat (leAt r 80 8) 8 with
      | none => s.haltQueue k 5
      | some w =>
        let s := s.touchVa q.ctx.toNat (leAt r 80 8) 8
        if leNat w ≥ leAt r 88 8 then s.advanceQueue k else s
    else s

/-- The word of every waiting WAIT record read again, as at every signal write of the device and at every doorbell
(R330). -/
def State.pollWaits (s : State) : State :=
  if s.stopped then s
  else
    -- each context draws its own free values (R9)
    ((List.range s.queues.length).foldl (fun s k =>
      (s.drawFor (((s.queues[k]?).map (·.ctx.toNat)).getD 64)).pollWait k) s).drawFor s.drawer

/-- A TAIL write, the doorbell (R328). -/
def State.queueTail (s : State) (q : Nat) (tail : Word) : State :=
  ((s.updQueue q fun x => ({ x with tail } : Queue).examine).setPend 5).pollWaits

/-- RESUME (R330): a halted queue skips the record at HEAD. -/
def State.queueResume (s : State) (q : Nat) : State :=
  s.updQueue q fun x =>
    if x.state = 3 then { x with head := x.head + 1, code := 0, state := if x.head + 1 = x.tail then 0 else 1 } else x

/-- A queue whose partition is being reset ignores writes (R358). -/
def State.queueFrozen (s : State) (q : Queue) : Bool :=
  q.valid && ((s.tenants[s.tenantOf q.ctx.toNat]?).map (·.rbusy)).getD false

/-- A QCFG write that would give a context a fifth queue (R327). -/
def State.fifthQueue (s : State) (q ctx : Nat) : Bool :=
  ((s.queues.zipIdx.filter fun x => x.2 ≠ q && x.1.valid && x.1.ctx.toNat = ctx).length) ≥ 4

/-- A 64-bit register of queue window `q`. -/
def State.queueRead (s : State) (q reg : Nat) : DWord :=
  match s.queues[q]? with
  | none => 0
  | some x =>
    match reg with
    | 0 => x.base
    | 1 => BitVec.ofNat 64 (b2n x.en * 2 ^ 7 + x.size.toNat)
    | 2 => BitVec.ofNat 64 (b2n x.valid * 2 ^ 63 + x.tpart.toNat * 2 ^ 16 + x.prio.toNat * 2 ^ 8 + x.ctx.toNat)
    | 3 => x.head.zeroExtend 64
    | 4 => x.tail.zeroExtend 64
    | 5 => BitVec.ofNat 64 (x.code.toNat * 2 ^ 8 + x.state.toNat)
    | _ => 0

/-- A store to a register of queue window `q`; `hyper`: the management core at hypervisor level. -/
def State.queueWrite (s : State) (q reg : Nat) (x mask : DWord) (hyper : Bool) : State :=
  match s.queues[q]? with
  | none => s
  | some w =>
    let old := s.queueRead q reg
    if s.queueFrozen w then s
    else
      match reg with
      | 0 => if w.en then s else s.updQueue q fun k => { k with base := mergeReg old x mask (fieldMask 39 12) }
      | 1 =>
        let n := (mergeReg old x mask (fieldMask 7 7 ||| fieldMask 3 0)).toNat
        let s := s.updQueue q fun k =>
          (if w.en then k else { k with size := BitVec.ofNat 4 n }).enable (bit n 7)
        if touches mask 32 32 && x.getLsbD 32 then s.queueResume q else s
      | 2 =>
        let n := (mergeReg old x mask (fieldMask 63 63 ||| fieldMask 18 16 ||| fieldMask 10 8 ||| fieldMask 5 0)).toNat
        if !hyper || (w.valid && w.state ≠ 4) || (bit n 63 && s.fifthQueue q (n % 64)) then s
        else s.updQueue q fun k =>
          { k with valid := bit n 63, tpart := BitVec.ofNat 3 (bits n 18 16), prio := BitVec.ofNat 3 (bits n 10 8)
                   ctx := BitVec.ofNat 6 n }
      | 4 => if touches mask 31 0 then s.queueTail q ((mergeReg old x mask (fieldMask 31 0)).extractLsb' 0 32) else s
      | _ => s

/-! ## Partition reset (R358) -/

/-- A context belongs to a partition. -/
def State.ctxIn (s : State) (p ctx : Nat) : Bool := s.tenantOf ctx = p

/-- Every SYSTEM store of a group performed, in lane order. -/
def drainGroup (host : Memory) : List Thread → Memory × List Thread
  | [] => (host, [])
  | t :: ts =>
    let (h, st) := drainSys host t.st
    let (h, ts) := drainGroup h ts
    (h, { t with st } :: ts)

/-- Every SYSTEM store of a block performed. -/
def drainGroups (host : Memory) : List Group → Memory × List Group
  | [] => (host, [])
  | g :: gs =>
    let (h, threads) := drainGroup host g.threads
    let (h, gs) := drainGroups h gs
    (h, { g with threads } :: gs)

/-- The SYSTEM stores of the blocks a test names performed. -/
def State.drainBlocks (s : State) (mine : Block → Bool) : State :=
  s.blocks.foldl (fun s b =>
    if mine b then
      let (h, groups) := drainGroups s.hostMem b.groups
      { s with hostMem := h, blocks := s.blocks.map fun x => if x.id = b.id then { x with groups } else x }
    else s) s

/-- The pins of a group cleared (R64, R358). -/
def Group.clearPins (g : Group) : Group := { g with pn := List.replicate 4 0, pnGen := g.pnGen.map (· + 1) }

/-- Steps 1 to 5 of the reset of partition `p`: from the write of RESET on. -/
def State.partitionReset (s : State) (p : Nat) : State :=
  match s.tenants[p]? with
  | none => s
  | some t =>
    if t.rbusy then s
    else
      let mine (b : Block) : Bool :=
        s.ctxIn p (s.ctxOfLaunch b.launch)
      -- step 1
      let s1 : State := { s with
        queues := s.queues.map fun (q : Queue) =>
          if q.valid && s.ctxIn p q.ctx.toNat then { q with state := 4, en := false, code := 0 } else q
        launches := s.launches.map fun (l : Launch) => if s.ctxIn p l.ctx && l.state != .done then { l with state := .dropped } else l }
      -- steps 2 and 4: issue stops, loads are discarded, stores take their places
      let s2 := s1.drainBlocks mine
      let quiet (g : Group) : Group :=
        { g.clearPins with mxq := [], threads := g.threads.map fun t => { t with ld := [], st := [], mx := 0 } }
      let halt (b : Block) : Block :=
        if mine b then { b with stopped := true, groups := b.groups.map quiet } else b
      let s2 : State := { s2 with blocks := s2.blocks.map halt }
      -- step 3: the groups close
      let close (g : CollGroup) : CollGroup :=
        if g.v && !g.closed then { g with closed := true, lost := s.fabric.devnum.zeroExtend 32 } else g
      let s3 : State := { s2 with
        ctxs := s2.ctxs.zipIdx.map fun (x : CtxBlock × Nat) =>
          if s.ctxIn p x.2 then { x.1 with groups := x.1.groups.map close } else x.1 }
      -- step 4: the commands fail
      let s4 := (s3.cmds.filter fun c => s.ctxIn p c.ctx).foldl (fun s c => s.failCmd c 6 .none) s3
      -- step 5: the deferred lists are emptied; the cleared pins count as overwritten
      { s4 with
        deferred := s4.deferred.filter fun d => !s.ctxIn p d.ctx
        searches := s4.searches.filter fun d => !s.ctxIn p d.ctx
        acmReqs := s4.acmReqs.filter fun r => !(s4.blocks.any fun b => b.id = r.block && mine b)
        tenants := updAt s4.tenants p fun t => { t with rbusy := true } } |>.settle

/-- Step 6: the partition's storage is zero, its blocks, launches and translations are gone, and RBUSY clears. -/
def State.partitionResetDone (s : State) (p : Nat) : State :=
  match s.tenants[p]? with
  | none => s
  | some t =>
    if !t.rbusy then s
    else
      let gone (l : Nat) : Bool := s.ctxIn p (s.ctxOfLaunch l)
      let column (core : Nat) : Bool := t.colMask.getLsbD (columnOf core)
      { s with
        blocks := s.blocks.filter fun b => !gone b.launch
        windows := s.windows.filter fun (w : FrameWin) => !gone w.launch
        launches := s.launches.filter fun l => !s.ctxIn p l.ctx
        cmds := s.cmds.filter fun c => !s.ctxIn p c.ctx
        tlb := s.tlb.filter fun e => !s.ctxIn p e.ctx
        rel := { s.rel with poison := s.rel.poison.filter fun k =>
          !((4 ≤ k.1 && k.1 ≤ 7 || k.1 = 17) && column (markCore k.2)) }
        -- the accumulators of the columns hold zeros now
        acmLeft := s.acmLeft.filter fun x => !column x.1
        ctxs := s.ctxs.zipIdx.map fun (x : CtxBlock × Nat) =>
          if s.ctxIn p x.2 then { x.1 with oldDesc := [], flits := [], inbox := [], lostSeq := [], stalls := [] } else x.1
        tenants := updAt s.tenants p fun t => { t with rbusy := false } }

/-! ## Partition control blocks (R354, R404) -/

/-- A tenant changed. -/
def State.updTenant (s : State) (p : Nat) (f : Tenant → Tenant) : State := { s with tenants := updAt s.tenants p f }

/-- A COLMASK that gives a column to two partitions (R354). -/
def State.columnTwice (s : State) (p : Nat) (m : BitVec 48) : Bool :=
  s.tenants.zipIdx.any fun x => x.2 ≠ p && x.1.colMask &&& m ≠ 0

/-- A block of a partition is resident. -/
def State.partitionRuns (s : State) (p : Nat) : Bool :=
  s.blocks.any fun b => decide (b.state = .resident) && s.ctxIn p (s.ctxOfLaunch b.launch)

/-- One HBM unit zeroed and its poison cleared, as one event (R417). -/
def State.clearPoison (s : State) (a : Nat) : State :=
  let u := a / 64 * 64
  if u < hbmSize then
    { s.snoopOut (.dev u) with
      mem := s.mem.clear u 64
      rel := { s.rel with poison := s.rel.poison.filter fun k => k ≠ (0, u) } }
  else s

/-- The port register (R403). -/
def Port.word (p : Port) : DWord :=
  BitVec.ofNat 64 (b2n p.up * 2 ^ 63 + b2n p.att * 2 ^ 62 + b2n p.enc * 2 ^ 61 + p.lanes % 16 * 2 ^ 48
    + p.peer.toNat * 2 ^ 32)

/-- A register of partition control block `p` at byte offset `o`, a multiple of 8; an offset that no rule names reads 0
(notes/assumptions/8.md). -/
def State.tenantRead (s : State) (p o : Nat) : DWord :=
  match s.tenants[p]? with
  | none => 0
  | some t =>
    let n (x : Nat) : DWord := BitVec.ofNat 64 x
    if o = 0x00 then n (b2n t.rbusy * 2)
    else if o = 0x08 then t.colMask.zeroExtend 64
    else if o = 0x10 then n (t.vcnt.toNat * 2 ^ 16 + t.vbase.toNat)
    else if o = 0x18 then t.bwShare.zeroExtend 64
    else if 0x20 ≤ o && o < 0x60 then
      let w := (o - 0x20) / 16
      if o % 16 = 0 then t.wbase.getD w 0 else t.wlimit.getD w 0
    else if o = 0x60 then n (b2n t.jv * 2 ^ 63 + t.keySt.toNat * 2 ^ 60 + t.jobId.toNat)
    else if 0x100 ≤ o && o < 0x200 then t.jobMap.getD ((o - 0x100) / 8) 0
    else if o = 0x800 then n (b2n s.fabric.joined * 2 ^ 63 + b2n s.fabric.tsync * 2 ^ 62 + s.fabric.devnum.toNat)
    else if o = 0x808 then n s.fabric.ftimeout
    else if 0x810 ≤ o && o < 0x8A0 then ((s.fabric.ports[(o - 0x810) / 8]?).map Port.word).getD 0
    else if 0x900 ≤ o && o < 0x938 then s.fabric.hdata.getD ((o - 0x900) / 8) 0
    else if o = 0x938 then s.fabric.hseq.zeroExtend 64
    else if 0x940 ≤ o && o < 0x978 then s.fabric.mdata.getD ((o - 0x940) / 8) 0
    else if o = 0x978 then s.fabric.mseq.zeroExtend 64
    else if o = 0xA00 then
      n (s.rel.ceCnt * 2 ^ 32 + s.rel.ueCnt * 2 ^ 16 + s.rel.uloc * 2 ^ 12
        + ((List.range 3072).countP (Config.spareUsed s.rel.boots) + s.rel.spare.length) % 2 ^ 12)
    else if o = 0xA08 then n (s.rel.spFail % 2 ^ 12 * 2 ^ 52 + s.rel.uaddr % 2 ^ 40)
    else if o = 0xA10 then n (b2n s.rel.sen * 2 ^ 63 + s.rel.speriod)
    else if o = 0xA20 then s.rel.ageMarg.zeroExtend 64
    else if o = 0xA28 then s.rel.ageCore.zeroExtend 64
    else 0

/-- The device number a DRN-S module may take (R3, R403). -/
def Fabric.devnumOk (f : Fabric) (d : Nat) : Bool := !Config.isSled || f.sled = some d

/-- A context runs: a block of it is admitted and has not retired. `%device` never changes then (R15), so a number that
differs from the present one is taken by no write and by no join message (notes/assumptions/87.md). -/
def State.devnumFree (s : State) (d : Nat) : Bool := s.fabric.devnum.toNat = d || !s.blocks.any Block.lives

/-- The job register written (R404): JOBID only while JV is 0, and JV := 0 discards the keys. -/
def Tenant.writeJob (t : Tenant) (n : Nat) : Tenant :=
  let t := if t.jv then t else { t with jobId := BitVec.ofNat 16 n }
  { t with jv := bit n 63, keySt := if bit n 63 then t.keySt else 0 }

/-- A store to a register of partition control block `p`. -/
def State.tenantWrite (s : State) (p o : Nat) (x mask : DWord) : State :=
  let old := s.tenantRead p o
  let new (rw : DWord) : DWord := mergeReg old x mask rw
  if o = 0x00 then (if touches mask 0 0 && x.getLsbD 0 then s.partitionReset p else s)
  else if o = 0x08 then
    let m : BitVec 48 := (new (fieldMask 47 0)).extractLsb' 0 48
    let busy := ((s.tenants[p]?).map (·.rbusy)).getD false
    if s.columnTwice p m || busy || s.partitionRuns p then s else (s.updTenant p fun t => { t with colMask := m }).relevel
  else if o = 0x10 then
    let n := (new (fieldMask 26 16 ||| fieldMask 10 0)).toNat
    s.updTenant p fun t => { t with vcnt := BitVec.ofNat 11 (bits n 26 16), vbase := BitVec.ofNat 11 n }
  else if o = 0x18 then s.updTenant p fun t => { t with bwShare := (new (fieldMask 7 0)).extractLsb' 0 8 }
  else if 0x20 ≤ o && o < 0x60 then
    let w := (o - 0x20) / 16
    if o % 16 = 0 then s.updTenant p fun t => { t with wbase := setAt t.wbase w (new (fieldMask 39 16 ||| 1)) }
    else s.updTenant p fun t => { t with wlimit := setAt t.wlimit w (new (fieldMask 39 16)) }
  else if o = 0x60 then
    if touches mask 63 63 || touches mask 15 0 then
      s.updTenant p fun t => t.writeJob (new (fieldMask 63 63 ||| fieldMask 15 0)).toNat
    else s
  else if 0x100 ≤ o && o < 0x200 then
    s.updTenant p fun t => { t with jobMap := setAt t.jobMap ((o - 0x100) / 8) (new (fieldMask 63 0)) }
  else if o = 0x800 then
    let d : BitVec 11 := (new (fieldMask 10 0)).extractLsb' 0 11
    if touches mask 10 0 && !s.fabric.joined && s.fabric.devnumOk d.toNat && s.devnumFree d.toNat then
      { s with fabric := { s.fabric with devnum := d } }
    else s
  else if o = 0x808 then
    let v := (new (fieldMask 19 0)).toNat % 2 ^ 20
    if 10 ≤ v && v ≤ 10000 then { s with fabric := { s.fabric with ftimeout := v } } else s
  else if 0x940 ≤ o && o < 0x978 then
    { s with fabric := { s.fabric with mdata := setAt s.fabric.mdata ((o - 0x940) / 8) (new (fieldMask 63 0)) } }
  else if o = 0x978 then
    if touches mask 31 0 then
      ({ s with fabric := { s.fabric with mseq := (new (fieldMask 31 0)).extractLsb' 0 32 } } : State).raiseMsix 2047
    else s
  else if o = 0xA10 then
    let n := (new (fieldMask 63 63 ||| fieldMask 19 0)).toNat
    { s with rel := { s.rel with
        sen := bit n 63, speriod := if n % 2 ^ 20 < 3 then s.rel.speriod else n % 2 ^ 20 } }
  else if o = 0xA18 then
    if touches mask 39 6 then s.clearPoison (x &&& mask &&& fieldMask 39 6).toNat else s
  else s

/-! ## Context blocks (R351 to R353, R383, R406, R407) -/

/-- A context block changed. -/
def State.updCtx (s : State) (k : Nat) (f : CtxBlock → CtxBlock) : State := { s with ctxs := updAt s.ctxs k f }

/-- The 256-byte flits of a collective from one member: its header and its tile. -/
def Flit.size (f : Flit) : Nat := 1 + (f.tile.length + 255) / 256

/-- BLUSED (R407). -/
def CtxBlock.used (c : CtxBlock) : Nat := (c.flits.map (·.held)).sum

/-- A register of context block `k` at byte offset `o`, a multiple of 8. -/
def State.ctxRead (s : State) (k o : Nat) : DWord :=
  match s.ctxs[k]? with
  | none => 0
  | some c =>
    let n (x : Nat) : DWord := BitVec.ofNat 64 x
    if o < 0x400 then c.desc.getD (o / 8) 0
    else if o = 0x400 then c.defBase
    else if o = 0x408 then c.defCap.zeroExtend 64
    else if o = 0x410 then c.blBase
    else if o = 0x418 then n (b2n c.bv * 2 ^ 63 + c.blTo % 2 ^ 20 * 2 ^ 32 + c.blSize.toNat)
    else if o = 0x420 then n (c.used % 2 ^ 32)
    else if o = 0x800 then c.eLast
    else if 0xC00 ≤ o && o < 0x1000 then
      match c.groups[(o - 0xC00) / 32]? with
      | none => 0
      | some g =>
        if o % 32 = 0 then n (b2n g.v * 2 ^ 63 + b2n g.closed * 2 ^ 62 + g.gid.toNat)
        else if o % 32 = 8 then g.lost.zeroExtend 64
        else 0
    else 0

/-- A group entry's control register written (R406): V := 1 opens the group with sequence numbers at 0. -/
def CollGroup.write (g : CollGroup) (n : Nat) (opens : Bool) : CollGroup :=
  let g := { g with v := bit n 63, gid := BitVec.ofNat 16 n }
  if opens then { g with closed := false, next := 0, done := 0, last := 0 } else g

/-- A group opened in a context: what was held for the old group of that number is dropped (R265, R406). -/
def CtxBlock.forget (c : CtxBlock) (gid : Nat) : CtxBlock :=
  { c with lostSeq := c.lostSeq.filter fun x => x.1 ≠ gid, inbox := c.inbox.filter fun f => f.gid ≠ gid }

/-- The lowest valid entry of a context that names a group id (R406). -/
def CtxBlock.entryFor (c : CtxBlock) (gid : Nat) : Option Nat := c.groups.findIdx? fun g => g.v && g.gid.toNat = gid

/-- The control register of group entry `e` written (R406). What was held for a group that was open and that the write opens
anew, closes or gives to another entry is dropped; what has arrived for a group that was not yet open is kept (R97). -/
def CtxBlock.writeGroup (c : CtxBlock) (e n : Nat) (opens : Bool) : CtxBlock :=
  let c1 := { c with groups := updAt c.groups e fun g => g.write n opens }
  let renewed (gid : Nat) : Bool :=
    (c.entryFor gid).isSome && ((opens && c1.entryFor gid = some e) || c1.entryFor gid ≠ c.entryFor gid)
  let gids := [((c.groups[e]?).map (·.gid.toNat)).getD 0, n % 2 ^ 16].filter renewed
  gids.foldl CtxBlock.forget c1

/-- A descriptor put by before a write of it: until TLBINV.CTX it may still be used (R352). -/
def CtxBlock.replaced (c : CtxBlock) (j : Nat) : CtxBlock :=
  { c with oldDesc := c.oldDesc ++ [(j, c.desc.getD (2 * j) 0, c.desc.getD (2 * j + 1) 0)] }

/-- The place or the size of a context's deferred list changed: the appends of entries it holds are not defined (R353). -/
def State.moveDeferred (s : State) (k : Nat) (f : CtxBlock → CtxBlock) : State :=
  let list (s : State) : Option (DWord × Word) := (s.ctxs[k]?).map fun c => (c.defBase, c.defCap)
  let t := s.updCtx k f
  if list t = list s then t
  else { t with deferred := t.deferred.map fun d => if d.ctx = k then { d with moved := true } else d }

/-- A store to a register of context block `k`. -/
def State.ctxWrite (s : State) (k o : Nat) (x mask : DWord) : State :=
  let old := s.ctxRead k o
  let new (rw : DWord) : DWord := mergeReg old x mask rw
  if o < 0x400 then
    let rw := if o % 16 = 0 then fieldMask 51 4 ||| 1 else fieldMask 56 56 ||| fieldMask 37 0
    -- while EN is 0 no translation uses a descriptor (R348)
    s.updCtx k fun c =>
      { (if s.ctxEnabled k then c.replaced (o / 16) else c) with desc := setAt c.desc (o / 8) (new rw) }
  else if o = 0x400 then s.moveDeferred k fun c => { c with defBase := new (fieldMask 39 12) }
  else if o = 0x408 then s.moveDeferred k fun c => { c with defCap := (new (fieldMask 31 0)).extractLsb' 0 32 }
  else if o = 0x410 then
    s.updCtx k fun c => if c.used = 0 then { c with blBase := new (fieldMask 39 12) } else c
  else if o = 0x418 then
    s.updCtx k fun c =>
      let n := (new (fieldMask 63 63 ||| fieldMask 51 32 ||| fieldMask 15 0)).toNat
      { c with bv := bit n 63, blTo := bits n 51 32
               blSize := if c.used = 0 then BitVec.ofNat 16 n else c.blSize }
  else if 0xC00 ≤ o && o < 0x1000 && o % 32 = 0 then
    let n := (new (fieldMask 63 63 ||| fieldMask 15 0)).toNat
    let opens := touches mask 63 63 && bit n 63
    s.updCtx k fun c => c.writeGroup ((o - 0xC00) / 32) n opens
  else s

/-! ## The ranges (R344) -/

/-- A register of the control ranges, by its range and its place there. -/
inductive CtlReg where
  | queue (q reg : Nat)
  | tenant (p off : Nat)
  | ctx (k off : Nat)
  deriving DecidableEq, Repr

/-- The register an address of the control ranges lies in. -/
def ctlReg (a : Nat) : Option CtlReg :=
  if 0xFF00000000 ≤ a && a < 0xFF00004000 then some (.queue ((a - 0xFF00000000) / 64) (a % 64 / 8))
  else if 0xFF00010000 ≤ a && a < 0xFF00018000 then some (.tenant ((a - 0xFF00010000) / 4096) (a % 4096 / 8 * 8))
  else if 0xFF00020000 ≤ a && a < 0xFF00060000 then some (.ctx ((a - 0xFF00020000) / 4096) (a % 4096 / 8 * 8))
  else none

/-- The management core may reach a register at its level (R327, R352, R354). -/
def State.ctlMay (s : State) (r : CtlReg) : Bool :=
  s.isHyper ||
    match r with
    | .queue q _ => ((s.queues[q]?).map (·.tpart)).getD 0 = s.csr.part
    | .tenant _ _ => false
    | .ctx k _ => s.tenantOf k = s.csr.part.toNat

/-- The 64 bits of a control register. -/
def State.ctlRead (s : State) (r : CtlReg) : DWord :=
  match r with
  | .queue q k => s.queueRead q k
  | .tenant p o => s.tenantRead p o
  | .ctx k o => s.ctxRead k o

/-- The RC fields that a load of the masked bytes clears: CECNT and UECNT (R417, R429). -/
def State.ctlClear (s : State) (r : CtlReg) (mask : DWord) : State :=
  match r with
  | .tenant _ 0xA00 =>
    { s with rel := { s.rel with
        ceCnt := if touches mask 63 32 then 0 else s.rel.ceCnt
        ueCnt := if touches mask 31 16 then 0 else s.rel.ueCnt } }
  | _ => s

/-- A store to a control register. -/
def State.ctlWrite (s : State) (r : CtlReg) (x mask : DWord) (hyper : Bool) : State :=
  match r with
  | .queue q k => s.queueWrite q k x mask hyper
  | .tenant p o => s.tenantWrite p o x mask
  | .ctx k o => s.ctxWrite k o x mask

end Sys2Proof.Machine
end

