-- ==== Sys2Proof/Machine/Flags.lean ====
section
/-!
DEFINITION. The predicate results of the instruction set: the machine has no status flags (R108, R115); a compare, a
carry, a vote and a predicate function write predicate registers.
-/

namespace Sys2Proof.Machine

open Sys2Proof

/-- The sum of IADDC and its carry out (R162). -/
def addCarry (w : Nat) (a b : Nat) (c : Bool) : Nat × Bool :=
  let s := a + b + b2n c
  (s % 2 ^ w, decide (s ≥ 2 ^ w))

/-- A three-input predicate function: the bit of the table that the three select (R217). -/
def predFunction (table : Nat) (a b c : Bool) : Bool := bit table (4 * b2n a + 2 * b2n b + b2n c)

/-- The predicates P0 to P6 as a register value (R218). -/
def Thread.predBits (t : Thread) : DWord := BitVec.ofNat 64 t.p.toNat

/-- The predicates named by a mask set from a register value (R218). -/
def Thread.setPreds (t : Thread) (x mask : Nat) : Thread :=
  { t with p := BitVec.ofNat 7 ((List.range 7).foldl (fun n i => if bit mask i then setBits n i 1 (b2n (bit x i)) else n)
      t.p.toNat) }

end Sys2Proof.Machine
end

