-- ==== Sys2Proof/Machine/IntArith.lean ====
section
/-!
DEFINITION. The integer instructions of spec/07_ref_arithmetic.md R160 to R170. Each forms its exact result from the
operands as they stood before it and wraps or clamps it once.
-/

namespace Sys2Proof.Machine

open Sys2Proof

/-- The value of operand A under the type. -/
def State.srcA (s : State) (g : Group) (l : Nat) (f : Fields) : DWord := s.operand g l f f.ty.pair f.a
def State.srcB (s : State) (g : Group) (l : Nat) (f : Fields) : DWord := s.operand g l f f.ty.pair f.b
def State.srcC (s : State) (g : Group) (l : Nat) (f : Fields) : DWord := s.operand g l f f.ty.pair f.c
/-- Operand B in a 32-bit position. -/
def State.srcB32 (s : State) (g : Group) (l : Nat) (f : Fields) : DWord := s.operand g l f false f.b

/-- A two-operand integer form with .SAT (R161). -/
def State.intOp (s : State) (op : Nat) (f : Fields) (x : Int → Int → Int → Int) : Out :=
  s.finish <| s.compute op f f.ty.pair fun s g l =>
    fitInt f.ty (f.rnd = 1)
      (x (intVal f.ty (s.srcA g l f)) (intVal f.ty (s.srcB g l f)) (intVal f.ty (s.srcC g l f)))

/-- IADD (R161): D := A + B, wrapped or clamped. -/
def execIadd (f : Fields) (s : State) : Out := s.intOp 0x00 f fun a b _ => a + b

/-- ISUB (R161). -/
def execIsub (f : Fields) (s : State) : Out := s.intOp 0x02 f fun a b _ => a - b

/-- IMUL (R161). -/
def execImul (f : Fields) (s : State) : Out := s.intOp 0x03 f fun a b _ => a * b

/-- IMAD (R161): one exact result a × b + c. -/
def execImad (f : Fields) (s : State) : Out := s.intOp 0x05 f fun a b c => a * b + c

/-- IADDC (R162): D := A + B + carry, and the carry out into the same predicate; PT reads 1 and keeps nothing. The
predicate is written in every thread of an S form (R158). -/
def execIaddc (f : Fields) (s : State) : Out :=
  let r (s : State) (g : Group) (l : Nat) :=
    addCarry f.ty.width (s.srcA g l f).toNat (s.srcB g l f).toNat ((g.thread l).predOf f.c)
  s.finish <|
    s.checked f <|
      if f.namesS then
        s.perGroup f (readRegs 0x01 f) (fun c l => BitVec.ofNat 64 (r s c.rd l).1)
          (fun g l x => g.writeDst l f.d f.ty.pair x)
          fun c g => c.lanes.foldl (fun g l => g.writePred l f.c (r s c.rd c.lowLane).2) g
      else
        s.perThread f (fun _ => readRegs 0x01 f) (fun _ _ => []) fun c g l =>
          (g.writeDst l f.d f.ty.pair (BitVec.ofNat 64 (r s c.rd l).1)).writePred l f.c (r s c.rd l).2

/-- IMULH (R163): the upper half of the product. -/
def execImulh (f : Fields) (s : State) : Out :=
  s.finish <| s.compute 0x04 f f.ty.pair fun s g l =>
    let p := intVal f.ty (s.srcA g l f) * intVal f.ty (s.srcB g l f)
    BitVec.ofNat 64 (wrap (p / 2 ^ f.ty.width) f.ty.width)

/-- IMIN (R164). -/
def execImin (f : Fields) (s : State) : Out := s.intOp 0x06 f fun a b _ => min a b

/-- IMAX (R164). -/
def execImax (f : Fields) (s : State) : Out := s.intOp 0x07 f fun a b _ => max a b

/-- IABS (R164). -/
def execIabs (f : Fields) (s : State) : Out := s.intOp 0x08 f fun a _ _ => (a.natAbs : Int)

/-- LOGIC (R166): the function of the truth table I[7:0] at every bit. -/
def execLogic (f : Fields) (s : State) : Out :=
  s.finish <| s.compute 0x09 f f.ty.pair fun s g l =>
    BitVec.ofNat 64 (logic3 (f.immBits 7 0) (s.srcA g l f).toNat (s.srcB g l f).toNat (s.srcC g l f).toNat f.ty.width)

/-- SHL (R167). -/
def execShl (f : Fields) (s : State) : Out :=
  s.finish <| s.compute 0x0A f f.ty.pair fun s g l =>
    BitVec.ofNat 64 (shl f.ty.width (intVal f.ty (s.srcA g l f)) (s.srcB32 g l f).toNat)

/-- SHR (R167): arithmetic for I-types, logical for N-types. -/
def execShr (f : Fields) (s : State) : Out :=
  s.finish <| s.compute 0x0B f f.ty.pair fun s g l =>
    BitVec.ofNat 64 (shr f.ty.width (intVal f.ty (s.srcA g l f)) (s.srcB32 g l f).toNat)

/-- ROT (R167): .L is FN 0, .R is FN 1. -/
def execRot (f : Fields) (s : State) : Out :=
  s.finish <| s.compute 0x0C f f.ty.pair fun s g l =>
    let w := f.ty.width
    let k := (s.srcB32 g l f).toNat % w
    BitVec.ofNat 64 (rotl w (s.srcA g l f).toNat (if f.fn = 1 then (w - k) % w else k))

/-- BFX (R168). -/
def execBfx (f : Fields) (s : State) : Out :=
  s.finish <| s.compute 0x0D f f.ty.pair fun s g l =>
    BitVec.ofNat 64 (bfx f.ty (s.srcA g l f).toNat (s.srcB32 g l f).toNat)

/-- BFI (R168). -/
def execBfi (f : Fields) (s : State) : Out :=
  s.finish <| s.compute 0x0E f f.ty.pair fun s g l =>
    BitVec.ofNat 64 (bfi f.ty.width (s.srcA g l f).toNat (s.srcB32 g l f).toNat (s.srcC g l f).toNat)

/-- POPC (R169): a 32-bit result for every type. -/
def execPopc (f : Fields) (s : State) : Out :=
  s.finish <| s.compute 0x0F f false fun s g l => BitVec.ofNat 64 (popcount f.ty.width (s.srcA g l f).toNat)

/-- CLZ (R169). -/
def execClz (f : Fields) (s : State) : Out :=
  s.finish <| s.compute 0x10 f false fun s g l => BitVec.ofNat 64 (leadingZeros f.ty.width (s.srcA g l f).toNat)

/-- BREV (R169). -/
def execBrev (f : Fields) (s : State) : Out :=
  s.finish <| s.compute 0x11 f f.ty.pair fun s g l => BitVec.ofNat 64 (reverseBits f.ty.width (s.srcA g l f).toNat)

/-- ICMP (R170): Pd := A cc B. -/
def execIcmp (f : Fields) (s : State) : Out :=
  s.finish <| s.computePred 0x12 f fun s g l =>
    intCompare f.fn.toNat (intVal f.ty (s.srcA g l f)) (intVal f.ty (s.srcB g l f))

/-- IDOT4 (R165): four byte products and a 32-bit accumulator. -/
def execIdot4 (f : Fields) (s : State) : Out :=
  s.finish <| s.compute 0x13 f false fun s g l =>
    let acc : Ty := if f.ty = .i8 then .i32 else .n32
    fitInt acc (f.rnd = 1)
      (idot4 f.ty (s.operand g l f false f.a).toNat (s.operand g l f false f.b).toNat
        (intVal acc (s.operand g l f false f.c)))

end Sys2Proof.Machine
end

