-- ==== Sys2Proof/Machine/Trans.lean ====
section
/-!
DEFINITION. The square root and the approximate functions of spec/05_number_formats.md R126 to R128: each returns its
exact result rounded once. A result that is not a finite dyadic number is held as a 192-bit approximation from below
with a sticky bit (notes/assumptions/12.md).
-/

namespace Sys2Proof.Machine

open Sys2Proof

/-- An exact or nearly exact result: a value, or a magnitude a little above m × 2^e. -/
inductive XVal where
  | exact (x : FVal)
  | above (neg : Bool) (m : Nat) (e : Int)
  deriving DecidableEq, Repr

/-- Round a result once (R111). -/
def roundX (f : Fmt) (mode : Nat) (z : Nat) : XVal → Nat
  | .exact x => roundVal f mode false z x
  | .above neg m e => roundNum f mode false neg m e true z

/-- The fraction bits of the fixed-point series. -/
def fixP : Nat := 192

/-- 1 in fixed point. -/
def fixOne : Nat := 2 ^ 192

/-- floor(ln 2 × 2^192). -/
def fixLn2 : Nat := 0xb17217f7d1cf79abc9e3b39803f2f6af40f343267298b62d

/-- floor(2π × 2^192). -/
def fixTwoPi : Nat := 0x6487ed5110b4611a62633145c06e0e68948127044533e63a0

/-- The integer square root by bits, from bit `k - 1` down: `r` the root so far. -/
def isqrtBits (n : Nat) : Nat → Nat → Nat
  | 0, r => r
  | k + 1, r =>
    let r' := r + 2 ^ k
    isqrtBits n k (if r' * r' ≤ n then r' else r)

/-- floor(√n). -/
def isqrt (n : Nat) : Nat := isqrtBits n (bitLen n / 2 + 1) 0

/-- √x, held with at least 64 bits below the last place of any format (R127). -/
def sqrtX : FVal → XVal
  | .nan => .exact .nan
  | .inf neg => .exact (if neg then .nan else .inf false)
  | .num neg m e =>
    if m = 0 then .exact (.num neg 0 0)
    else if neg then .exact .nan
    else
      -- an even exponent, with 160 more bits under the root
      let k : Nat := if e % 2 = 0 then 160 else 161
      let n := m * 2 ^ k
      let r := isqrt n
      let g := (e - k) / 2
      if r * r = n then .exact (.num false r g) else .above false r g

/-- 1 / x (R127). -/
def rcpX : FVal → XVal
  | .nan => .exact .nan
  | .inf neg => .exact (.num neg 0 0)
  | .num neg m e =>
    if m = 0 then .exact (.inf neg)
    else
      let n := 2 ^ 128
      if n % m = 0 then .exact (.num neg (n / m) (-e - 128)) else .above neg (n / m) (-e - 128)

/-- 1 / √x (R127). -/
def rsqX : FVal → XVal
  | .nan => .exact .nan
  | .inf neg => .exact (if neg then .nan else .num false 0 0)
  | .num neg m e =>
    if m = 0 then .exact (.inf neg)
    else if neg then .exact .nan
    else
      let (m', e') := if e % 2 = 0 then (m, e) else (2 * m, e - 1)
      let n := 2 ^ 256
      let r := isqrt (n / m')
      let g := -(e' / 2) - 128
      if r * r * m' = n then .exact (.num false r g) else .above false r g

/-- The sum of the first `k` terms of the exponential series from term `t` on; `j` numbers the next term. -/
def expSeries (y : Nat) : Nat → Nat → Nat → Nat
  | 0, _, _ => 0
  | k + 1, j, t => t + expSeries y k (j + 1) (t * y / fixOne / j)

/-- 2^x (R127): x = n + f with 0 ≤ f < 1. -/
def exp2X : FVal → XVal
  | .nan => .exact .nan
  | .inf neg => .exact (if neg then .num false 0 0 else .inf false)
  | .num neg m e =>
    if m = 0 then .exact (.num false 1 0)
    else if bitLen m + e > 9 then
      -- |x| ≥ 256: beyond every overflow and underflow point
      if neg then .above false 1 (-400) else .exact (.num false 1 400)
    else if bitLen m + e < -60 then
      -- |x| < 2^-60: the result is 1 and a little more, or a little less than 1
      if neg then .above false (2 ^ 60 - 1) (-60) else .above false (2 ^ 60) (-60)
    else
      let x : Int := if neg then -(m : Int) else m
      let n : Int := if e ≥ 0 then x * 2 ^ e.toNat else x / 2 ^ (-e).toNat
      let f : Nat := if e ≥ 0 then 0 else (x % 2 ^ (-e).toNat).toNat
      if f = 0 then .exact (.num false 1 n)
      else
        let y := f * fixLn2 / 2 ^ (-e).toNat
        .above false (expSeries y 60 1 fixOne) (n - fixP)

/-- The inverse hyperbolic tangent series: `t` is the odd power so far, `t2` the square of the argument. -/
def atanhSeries (t2 : Nat) : Nat → Nat → Nat → Nat
  | 0, _, _ => 0
  | k + 1, j, t => t / j + atanhSeries t2 k (j + 2) (t * t2 / fixOne)

/-- log2 x (R127): x = y × 2^n with 1 ≤ y < 2, ln y = 2 artanh((y − 1) / (y + 1)). -/
def log2X : FVal → XVal
  | .nan => .exact .nan
  | .inf neg => .exact (if neg then .nan else .inf false)
  | .num neg m e =>
    if m = 0 then .exact (.inf true)
    else if neg then .exact .nan
    else
      let l := bitLen m - 1
      let n : Int := e + l
      if m = 2 ^ l then .exact (FVal.ofInteger n)
      else
        let t := (m - 2 ^ l) * fixOne / (m + 2 ^ l)
        let lny := 2 * atanhSeries (t * t / fixOne) 64 1 t
        let y : Int := n * fixOne + (lny * fixOne / fixLn2 : Nat)
        .above (decide (y < 0)) y.natAbs (-fixP)

/-- The alternating series 1 − u/(a(a+1)) + u²/(a…(a+3)) − …, `t` the next term. -/
def trigSeries (u : Nat) : Nat → Nat → Int → Int
  | 0, _, _ => 0
  | k + 1, a, t => t + trigSeries u k (a + 2) (-(t * u / fixOne / (a * (a + 1) : Nat)))

/-- sin(2π a) for a = m × 2^e with 0 < a ≤ 1/8: relative precision kept for every a. -/
def sinTurn (neg : Bool) (m : Nat) (e : Int) : XVal :=
  let th := m * fixTwoPi
  -- the angle in fixed point, and the series sin θ / θ
  let fx := if e ≥ 0 then th * 2 ^ e.toNat else th / 2 ^ (-e).toNat
  let s := trigSeries (fx * fx / fixOne) 40 2 fixOne
  .above neg (th * s.toNat) (e - fixP - fixP)

/-- cos(2π a) for a = m × 2^e with 0 ≤ a ≤ 1/8. -/
def cosTurn (neg : Bool) (m : Nat) (e : Int) : XVal :=
  let th := m * fixTwoPi
  let fx := if e ≥ 0 then th * 2 ^ e.toNat else th / 2 ^ (-e).toNat
  if fx < 2 ^ 160 then .above neg (2 ^ 66 - 1) (-66)
  else
    let s := trigSeries (fx * fx / fixOne) 40 1 fixOne
    .above neg s.toNat (-fixP)

/-- sin(2π a) for a = m / 2^k with 0 < a < 1/4 or 1/4 < a < 1/2, in turns (R127). -/
def sinQuarter (neg : Bool) (m k : Nat) : XVal :=
  -- reflect into the first quarter turn, then use the cosine beyond an eighth
  let a := if 4 * m > 2 ^ k then 2 ^ k - 2 * m else 2 * m
  if 4 * a ≤ 2 ^ k then sinTurn neg a (-(k : Int) - 1)
  else cosTurn neg (2 ^ k - 2 * a) (-(k : Int) - 2)

/-- x − roundeven(x) as a signed numerator over 2^k (R127). -/
def turn (neg : Bool) (m k : Nat) : Int :=
  let n := m / 2 ^ k
  let r := m % 2 ^ k
  let half := 2 * r > 2 ^ k || (2 * r = 2 ^ k && n % 2 = 1)
  let x : Int := if half then (r : Int) - 2 ^ k else r
  if neg then -x else x

/-- SINR: sin(2π x) (R126, R127). -/
def sinX : FVal → XVal
  | .nan => .exact .nan
  | .inf _ => .exact .nan
  | .num neg m e =>
    if m = 0 then .exact (.num neg 0 0)
    else if e ≥ 0 then .exact (.num false 0 0)
    else
      let k := (-e).toNat
      let r := turn neg m k
      let a := r.natAbs
      if a = 0 || 2 * a = 2 ^ k then .exact (.num false 0 0)
      else if 4 * a = 2 ^ k then .exact (.num (decide (r < 0)) 1 0)
      else sinQuarter (decide (r < 0)) a k

/-- COSR: cos(2π x) = sin(2π (1/4 − |r|)) (R126, R127). -/
def cosX : FVal → XVal
  | .nan => .exact .nan
  | .inf _ => .exact .nan
  | .num neg m e =>
    if m = 0 || e ≥ 0 then .exact (.num false 1 0)
    else
      let k := (-e).toNat
      let a := (turn neg m k).natAbs
      if a = 0 then .exact (.num false 1 0)
      else if 2 * a = 2 ^ k then .exact (.num true 1 0)
      else if 4 * a = 2 ^ k then .exact (.num false 0 0)
      else
        -- 1/4 − a over 2^(k+2), its sign that of the result
        let d : Int := (2 ^ k : Int) - 4 * a
        sinQuarter (decide (d < 0)) d.natAbs (k + 2)

end Sys2Proof.Machine
end

