-- ==== Sys2Proof/Machine/FloatArith.lean ====
section
/-!
DEFINITION. The floating-point instructions of spec/07_ref_arithmetic.md R171 to R178.
-/

namespace Sys2Proof.Machine

open Sys2Proof

/-- A floating-point operand read under the type, subnormals flushed with .FTZ (R114). -/
def State.fsrc (s : State) (g : Group) (l : Nat) (f : Fields) (o : Opnd) : FVal :=
  fval f.ty f.flag (s.operand g l f false o)

/-- A lane operation that rounds `n` elements in order, drawing from the thread's stream under SR (R113): `elem e` is
the exact element, `pack` builds the register from the codes. -/
def roundElems (fm : Fmt) (mode : Nat) (sat ftz : Bool) (z : Word) (elems : List FVal) : List Nat × Word :=
  elems.foldl (fun r x =>
    let (code, z') := roundSr fm mode sat r.2 x
    (r.1 ++ [flush fm ftz code], z')) ([], z)

/-- A form that rounds elements of its type and writes one 32-bit result. SR's state is the thread's (R113); an S form
carries no SR (R158). -/
def State.floatOp (s : State) (op : Nat) (f : Fields) (elems : State → Group → Nat → List FVal) : Out :=
  let fm := fmtOf f.ty
  let mode := f.rnd.toNat
  let res (s : State) (g : Group) (z : Word) (l : Nat) := roundElems fm mode false f.flag z (elems s g l)
  let join (cs : List Nat) : DWord := BitVec.ofNat 64 (cs.getD 0 0 + cs.getD 1 0 * 2 ^ f.ty.width)
  if mode = 5 then
    s.finish <|
      s.checked f <|
        s.perThread f (fun _ => readRegs op f) (fun _ _ => []) fun c g l =>
          -- the stream as it stands now: after slot k's draws in a pair
          let r := res s c.rd (g.thread l).z l
          (g.updThread l fun t => { t with z := r.2 }).writeDst l f.d false (join r.1)
  else s.finish <| s.compute op f false fun s g l => join (res s g 0 l).1

/-- FADD (R172). -/
def execFadd (f : Fields) (s : State) : Out :=
  s.floatOp 0x20 f fun s g l => [(s.fsrc g l f f.a).add f.rnd.toNat (s.fsrc g l f f.b)]

/-- FMUL (R172). -/
def execFmul (f : Fields) (s : State) : Out :=
  s.floatOp 0x21 f fun s g l => [(s.fsrc g l f f.a).mul (s.fsrc g l f f.b)]

/-- FFMA (R172): one rounding. -/
def execFfma (f : Fields) (s : State) : Out :=
  s.floatOp 0x22 f fun s g l => [FVal.fma f.rnd.toNat (s.fsrc g l f f.a) (s.fsrc g l f f.b) (s.fsrc g l f f.c)]

/-- Element `e` of a packed 16-bit operand (R173). -/
def State.felem (s : State) (g : Group) (l : Nat) (f : Fields) (o : Opnd) (e : Nat) : FVal :=
  fval f.ty f.flag (BitVec.ofNat 64 ((s.operand g l f false o).toNat / 2 ^ (16 * e) % 2 ^ 16))

/-- PKFMA (R173): element 0, then element 1, each rounded once. -/
def execPkfma (f : Fields) (s : State) : Out :=
  s.floatOp 0x30 f fun s g l => [0, 1].map fun e =>
    FVal.fma f.rnd.toNat (s.felem g l f f.a e) (s.felem g l f f.b e) (s.felem g l f f.c e)

/-- PKADD (R173). -/
def execPkadd (f : Fields) (s : State) : Out :=
  s.floatOp 0x31 f fun s g l => [0, 1].map fun e => (s.felem g l f f.a e).add f.rnd.toNat (s.felem g l f f.b e)

/-- PKMUL (R173). -/
def execPkmul (f : Fields) (s : State) : Out :=
  s.floatOp 0x32 f fun s g l => [0, 1].map fun e => (s.felem g l f f.a e).mul (s.felem g l f f.b e)

/-- The code of an operand under the type, subnormals flushed with .FTZ. -/
def State.fcode (s : State) (g : Group) (l : Nat) (f : Fields) (o : Opnd) : Nat :=
  flush (fmtOf f.ty) f.flag ((s.operand g l f false o).toNat % 2 ^ f.ty.width)

/-- FMIN (R174). -/
def execFmin (f : Fields) (s : State) : Out :=
  s.finish <| s.compute 0x23 f false fun s g l =>
    BitVec.ofNat 64 (floatMinMax (fmtOf f.ty) false (s.fcode g l f f.a) (s.fcode g l f f.b))

/-- FMAX (R174). -/
def execFmax (f : Fields) (s : State) : Out :=
  s.finish <| s.compute 0x24 f false fun s g l =>
    BitVec.ofNat 64 (floatMinMax (fmtOf f.ty) true (s.fcode g l f f.a) (s.fcode g l f f.b))

/-- FCMP (R175). -/
def execFcmp (f : Fields) (s : State) : Out :=
  s.finish <| s.computePred 0x25 f fun s g l => floatCompare f.fn.toNat (s.fsrc g l f f.a) (s.fsrc g l f f.b)

/-- FCLASS (R176): exactly one bit of a 32-bit mask. -/
def execFclass (f : Fields) (s : State) : Out :=
  s.finish <| s.compute 0x26 f false fun s g l =>
    BitVec.ofNat 64 (2 ^ classOf (fmtOf f.ty) ((s.operand g l f false f.a).toNat % 2 ^ f.ty.width))

/-- An approximate function: one rounding under RN, .FTZ before and after (R126, R178). -/
def State.approx (s : State) (op : Nat) (f : Fields) (fn : FVal → XVal) : Out :=
  s.finish <| s.compute op f false fun s g l =>
    BitVec.ofNat 64 (flush (fmtOf .f32) f.flag (roundX (fmtOf .f32) 0 0 (fn (s.fsrc g l f f.a))))

/-- FRCP (R126, R127, R178). -/
def execFrcp (f : Fields) (s : State) : Out := s.approx 0x27 f rcpX

/-- FRSQ (R126, R127, R178). -/
def execFrsq (f : Fields) (s : State) : Out := s.approx 0x28 f rsqX

/-- FEXP2 (R126, R127, R178). -/
def execFexp2 (f : Fields) (s : State) : Out := s.approx 0x2A f exp2X

/-- FLOG2 (R126, R127, R178). -/
def execFlog2 (f : Fields) (s : State) : Out := s.approx 0x2B f log2X

/-- SINR (R126, R127, R178). -/
def execSinr (f : Fields) (s : State) : Out := s.approx 0x2C f sinX

/-- COSR (R126, R127, R178). -/
def execCosr (f : Fields) (s : State) : Out := s.approx 0x2D f cosX

/-- FSQRT (R127, R178): correctly rounded in the selected mode. -/
def execFsqrt (f : Fields) (s : State) : Out :=
  let fm := fmtOf f.ty
  let res (s : State) (g : Group) (z : Word) (l : Nat) : DWord :=
    BitVec.ofNat 64 (flush fm f.flag (roundX fm f.rnd.toNat z.toNat (sqrtX (s.fsrc g l f f.a))))
  if f.rnd = 5 then
    s.finish <|
      s.checked f <|
        s.perThread f (fun _ => readRegs 0x29 f) (fun _ _ => []) fun c g l =>
          let z := srStep (g.thread l).z
          (g.updThread l fun t => { t with z }).writeDst l f.d false (res s c.rd z l)
  else s.finish <| s.compute 0x29 f false fun s g l => res s g 0 l

/-- FSCALE (R177): round(a × 2^b). -/
def execFscale (f : Fields) (s : State) : Out :=
  s.floatOp 0x2E f fun s g l => [(s.fsrc g l f f.a).scale (intVal .i32 (s.operand g l f false f.b))]

/-- FFRAC (R177): a − trunc(a), exact. -/
def execFfrac (f : Fields) (s : State) : Out :=
  s.finish <| s.compute 0x2F f false fun s g l =>
    BitVec.ofNat 64 (flush (fmtOf f.ty) f.flag (roundVal (fmtOf f.ty) 0 false 0 (s.fsrc g l f f.a).frac))

end Sys2Proof.Machine
end

