-- ==== Sys2Proof/Machine/Move.lean ====
section
/-!
DEFINITION. The convert and move instructions of spec/07_ref_arithmetic.md R179 to R188.
-/

namespace Sys2Proof.Machine

open Sys2Proof

/-! ## MOV, MOVI, MOVIH, SEL, BYSEL -/

/-- The pending command of a pair that stands exactly at a register. -/
def Thread.pendAt (t : Thread) (a : Nat) : Option PendPair := t.pend.find? fun q => q.reg = a && !q.cancelled

/-- The registers that a lane's 64-bit MOV between V pairs reads with waiting: none where the pair is pending, since the
handle is copied; a pair that only overlaps A still makes its reader wait (R66). -/
def Thread.moveReads (t : Thread) (a : Nat) : List Nat := if (t.pendAt a).isSome then [] else [a, a + 1]

/-- A 64-bit MOV between V pairs copies a pending pair without waiting: both are then pending on the command (R66). A poisoned
word of the pair is read all the same (R415). -/
def State.moveHandle (s : State) (f : Fields) (a d : Nat) : Except Stop State :=
  s.perThread f (fun l =>
      match s.ctx? with
      | none => []
      | some c => (c.rd.thread l).moveReads a)
    (fun _ on => on.flatMap fun l => s.poisonTrap l [a, a + 1]) fun c g l =>
      let g' := g.setPair l d (pairOf (c.rd.thread l).v a)
      match (c.rd.thread l).pendAt a with
      | some q => g'.updThread l fun t => { t with pend := ⟨d, q.cmd, false⟩ :: t.pend }
      | none => g'

/-- MOV (R180): D := A at the width of the type. DESIGN CHOICE (notes/assumptions/79.md): a 64-bit MOV of a pending pair
whose D is no V pair copies nothing that could be pending, and waits; the spec does not say. -/
def execMov (f : Fields) (s : State) : Out :=
  match f.a, f.d with
  | .v a, .v d =>
    if f.ty.pair then s.finish (s.checked f (s.moveHandle f a.toNat d.toNat))
    else s.finish <| s.compute 0x40 f false fun s g l => s.srcA g l f
  | _, _ => s.finish <| s.compute 0x40 f f.ty.pair fun s g l => s.srcA g l f

/-- MOVI (R181). -/
def execMovi (f : Fields) (s : State) : Out :=
  s.finish <| s.compute 0x41 f f.ty.pair fun _ _ _ => immValue f f.ty.pair

/-- MOVIH (R181): N32 sets the upper half of D and reads the rest of it; N64 writes the odd register alone. -/
def execMovih (f : Fields) (s : State) : Out :=
  if f.ty.pair then
    let high (o : Opnd) : Opnd :=
      match o with
      | .v n => .v (n + 1)
      | .s n => .s (n + 1)
      | o => o
    s.finish <| s.compute 0x42 { f with d := high f.d } false fun _ _ _ => f.imm.zeroExtend 64
  else
    s.finish <| s.compute 0x42 f false fun s g l =>
      BitVec.ofNat 64 ((s.operand g l f false f.d).toNat % 2 ^ 16 + f.immBits 15 0 * 2 ^ 16)

/-- SEL (R182): D := C ? A : B. -/
def execSel (f : Fields) (s : State) : Out :=
  s.finish <| s.compute 0x43 f f.ty.pair fun s g l => if (g.thread l).predOf f.c then s.srcA g l f else s.srcB g l f

/-- BYSEL (R183). -/
def execBysel (f : Fields) (s : State) : Out :=
  s.finish <| s.compute 0x44 f false fun s g l =>
    BitVec.ofNat 64 (bysel (s.operand g l f false f.a).toNat (s.operand g l f false f.b).toNat (f.immBits 19 0))

/-! ## CVT, PACK, UNPK -/

/-- A float code as a result register: narrow float results are zero-extended (R157). -/
def floatReg (t : Ty) (code : Nat) : DWord := BitVec.ofNat 64 (code % 2 ^ t.width)

/-- One conversion (R117, R118, R184) with the draw `z`. -/
def convert (dt st : Ty) (mode : Nat) (sat : Bool) (z : Nat) (a : DWord) : DWord :=
  if st.isInt && dt.isInt then fitInt dt sat (intVal st a)
  else if dt.isInt then extend dt (wrap (toInteger dt mode z (fval st false a)) dt.width)
  else
    let x := if st.isInt then FVal.ofInteger (intVal st a) else fval st false a
    floatReg dt (roundVal (fmtOf dt) mode sat z x)

/-- CVT (R184): from the type in I[3:0] to the type in M.type. -/
def execCvt (f : Fields) (s : State) : Out :=
  let st := Ty.ofCode (BitVec.ofNat 4 (f.immBits 3 0))
  let res (s : State) (g : Group) (z : Word) (l : Nat) : DWord :=
    convert f.ty st f.rnd.toNat f.flag z.toNat (s.operand g l f st.pair f.a)
  if f.rnd = 5 then
    s.finish <|
      s.checked f <|
        s.perThread f (fun _ => readRegs 0x45 f) (fun _ _ => []) fun c g l =>
          let z := srStep (g.thread l).z
          (g.updThread l fun t => { t with z }).writeDst l f.d f.ty.pair (res s c.rd z l)
  else s.finish <| s.compute 0x45 f f.ty.pair fun s g l => res s g 0 l

/-- The register PACK builds from its two codes and C (R185). -/
def packReg (t : Ty) (c0 c1 c : Nat) : Nat :=
  match t with
  | .f16 | .b16 => c1 * 2 ^ 16 + c0
  | .e4m3 | .e5m2 => c % 2 ^ 16 * 2 ^ 16 + c1 * 2 ^ 8 + c0
  | _ => c % 2 ^ 24 * 2 ^ 8 + c1 * 2 ^ 4 + c0

/-- PACK (R185): A, then B, from F32; under SR one draw each, in that order. -/
def execPack (f : Fields) (s : State) : Out :=
  let fm := fmtOf f.ty
  let res (s : State) (g : Group) (z : Word) (l : Nat) : DWord × Word :=
    let x (o : Opnd) := fval .f32 false (s.operand g l f false o)
    let r0 := roundSr fm f.rnd.toNat f.flag z (x f.a)
    let r1 := roundSr fm f.rnd.toNat f.flag r0.2 (x f.b)
    (BitVec.ofNat 64 (packReg f.ty r0.1 r1.1 (s.operand g l f false f.c).toNat), r1.2)
  if f.rnd = 5 then
    s.finish <|
      s.checked f <|
        s.perThread f (fun _ => readRegs 0x46 f) (fun _ _ => []) fun c g l =>
          let r := res s c.rd (g.thread l).z l
          (g.updThread l fun t => { t with z := r.2 }).writeDst l f.d false r.1
  else s.finish <| s.compute 0x46 f false fun s g l => (res s g 0 l).1

/-- One element widened (R186). -/
def unpackElem (t : Ty) (n : Nat) : DWord :=
  if t.isInt then extend (if t.signed then .i32 else .n32) (wrap (intVal t (BitVec.ofNat 64 n)) 32)
  else BitVec.ofNat 64 (roundVal (fmtOf .f32) 0 false 0 (unpack (fmtOf t) n))

/-- UNPK (R186): element B mod n of A. -/
def execUnpk (f : Fields) (s : State) : Out :=
  s.finish <| s.compute 0x47 f false fun s g l =>
    let w := f.ty.width
    let e := (s.operand g l f false f.b).toNat % (32 / w)
    unpackElem f.ty ((s.operand g l f false f.a).toNat / 2 ^ (w * e) % 2 ^ w)

/-! ## VLDX, VSTX (R59, R187) -/

/-- The window byte offset of an access (R187): `wrap(val(A) + I, 32)`. -/
def State.windowOffset (s : State) (g : Group) (l : Nat) (f : Fields) : Nat :=
  ((s.operand g l f false f.a).toNat + f.imm.toNat) % 2 ^ 32

/-- The size of an access in bytes. -/
def Ty.bytes (t : Ty) : Nat := t.width / 8

/-- MISALIGN, then ACCESS, of a window access (R187). DESIGN CHOICE (notes/assumptions/90.md): a helper's VLDX and VSTX trap
like any thread's; R27 speaks of a helper's loads and stores, and the window is its own register file. -/
def State.windowTraps (s : State) (g : Group) (f : Fields) (ls : List Nat) : List Trap :=
  ls.flatMap fun l =>
    let o := s.windowOffset g l f
    let d := o % 2 ^ 52 + 6 * 2 ^ 52
    if o % Ty.bytes f.ty ≠ 0 then [mkTrap .misalign 5 l d]
    else if o + Ty.bytes f.ty > 4 * s.window then [mkTrap .access 6 l d]
    else []

/-- The registers whose bytes an access covers. -/
def coveredRegs (o size : Nat) : List Nat := if size = 8 then [o / 4, o / 4 + 1] else [o / 4]

/-- The registers a lane's VLDX reads: its sources and, for a valid access, the registers it covers (R66, R187). -/
def State.vldxReads (s : State) (g : Group) (f : Fields) (l : Nat) : List Nat :=
  let o := s.windowOffset g l f
  readRegs 0x48 f ++
    (if o % Ty.bytes f.ty = 0 && o + Ty.bytes f.ty ≤ 4 * s.window then coveredRegs o (Ty.bytes f.ty) else [])

/-- VLDX (R187): `D` := window bytes, written under R157. -/
def execVldx (f : Fields) (s : State) : Out :=
  s.finish <|
    s.checked f <| s.perThread f (fun l =>
        match s.ctx? with
        | none => []
        | some c => s.vldxReads c.rd f l)
      (fun c on => s.windowTraps c.rd f on
        ++ s.mismatch c fun l => if on.contains l then [BitVec.ofNat 64 (s.windowOffset c.rd l f)] else [])
      fun c g l =>
        -- a shadow receives its primary's value (R412)
        let p := if (c.active f).contains (s.primaryOf l) then s.primaryOf l else l
        let o := s.windowOffset c.rd p f
        let t := c.rd.thread p
        let x := if f.ty.pair then (pairOf t.v (o / 4)).toNat else (t.reg (o / 4)).toNat / 2 ^ (8 * (o % 4))
        g.writeDst l f.d f.ty.pair (extend f.ty (x % 2 ^ f.ty.width))

/-- The register a partial window store leaves: the bytes it does not write hold the old contents or, as a whole, the
value of a load still outstanding to it (R187). -/
def partialBase (t : Thread) (r : Nat) (loaded : Bool) : Word :=
  match (t.ld.flatMap (·.regs)).find? fun q => q.1 = r with
  | some q => if loaded then q.2 else t.reg r
  | none => t.reg r

/-- VSTX (R187): window bytes := the low bytes of B. -/
def execVstx (f : Fields) (s : State) : Out :=
  s.finish <|
    (s.checked f <| s.perThread f (fun _ => readRegs 0x49 f) (fun c on => s.windowTraps c.rd f on) fun c g l =>
      let o := s.windowOffset c.rd l f
      let x := s.srcB c.rd l f
      if f.ty.pair then g.setPair l (o / 4) x
      else if Ty.bytes f.ty = 4 then g.setReg l (o / 4) (x.extractLsb' 0 32)
      else
        let base := partialBase (g.thread l) (o / 4) (Config.freeChoice s.fresh l)
        g.setReg l (o / 4)
          (BitVec.ofNat 32 (setBits base.toNat (8 * (o % 4)) f.ty.width x.toNat))).map fun t =>
            { t with fresh := t.fresh + 1 }

/-! ## RDSP (R188) -/

/-- RDSP (R188): the call depth, or the address of the local stack page. -/
def execRdsp (f : Fields) (s : State) : Out :=
  s.finish <| s.compute 0x4A f f.ty.pair fun s g l =>
    if f.ty.pair then BitVec.ofNat 64 (s.stackPage s.cur l) else BitVec.ofNat 64 (g.thread l).depth

end Sys2Proof.Machine
end

