-- ==== Sys2Proof/Machine/MemInstr.lean ====
section
/-!
DEFINITION. The memory instructions LD to RED, PREF and FSYS (R219 to R228), the completion of loads and stores (R69,
R71), and the accesses of other agents: the host (R396), other devices (R74, R400, R401), and page walks (R349).
-/

namespace Sys2Proof.Machine

open Sys2Proof

/-! ## Addresses (R222) -/

/-- The address spaces of a memory instruction (R72). -/
inductive Space where
  | glob | scr | const
  deriving DecidableEq, Repr

/-- Where a checked access of one thread goes; `zero` for a helper's load that would trap (R27). -/
inductive Place where
  | loc (x : Xlate)
  | ctl (r : CtlReg) (a : Nat)
  | scr (part off : Nat)
  | const (off : Nat)
  | zero
  deriving DecidableEq, Repr

/-- The effective address of a lane (R222): the displacement is signed (R139). -/
def State.effAddr (s : State) (g : Group) (l : Nat) (f : Fields) (glob : Bool) : Nat :=
  let a := s.operand g l f glob f.a
  let w := if glob then 64 else 32
  wrap ((a.toNat : Int) + f.imm.toInt) w

/-- The management core's global accesses (R301, R344). -/
def State.physical (s : State) (a : Nat) : Option Place :=
  if a ≥ 2 ^ 40 then none
  else if a < hbmSize then
    if s.isHyper || s.inWindows a then some (.loc { loc := .dev a, w := true, cls := 2, ms := false }) else none
  else
    match ctlReg a with
    | some r => if s.ctlMay r then some (.ctl r a) else none
    | none => none

/-- The checks of R222 steps 1 to 4 on one access. -/
def State.place (s : State) (sp : Space) (write : Bool) (kind l a size : Nat) : Except Trap Place :=
  let d := a % 2 ^ 52 + kind * 2 ^ 52
  if a % size ≠ 0 then .error (mkTrap .misalign 10 l d)
  else
    match sp with
    | .glob =>
      match s.cur with
      | .mgmt =>
        match s.physical a with
        | some p => .ok p
        | none => .error (mkTrap .access 13 l d)
      | .unit _ _ _ =>
        if a ≥ 2 ^ 52 then .error (mkTrap .access 11 l d)
        else
          match s.translate s.ctxOf a write with
          | .error e => .error (e.trap l a kind)
          | .ok x => .ok (.loc x)
    | .scr =>
      match s.scratchOk a size with
      | some (p, o) => .ok (.scr p o)
      | none => .error (mkTrap .access 13 l d)
    | .const =>
      match s.launchOf s.cur with
      | some la => if a + size ≤ 0x1000 + la.dataLen then .ok (.const a) else .error (mkTrap .access 13 l d)
      | none => .error (mkTrap .access 13 l d)

/-- A trap of an access taken by a thread; a helper's suppressed access gives `zero` (R27). -/
def placed (helper : Bool) (r : Except Trap Place) : Place × List Trap :=
  match r with
  | .ok p => (p, [])
  | .error t => (.zero, if helper then [] else [t])

/-- PIPE code 5: the poisoned unit that an access of `size` bytes reads, in the constant space one that CHECK copied from a
poisoned unit (R415). -/
def State.poisonRead (s : State) (l : Nat) (p : Place) (size : Nat) : List Trap :=
  let k := match p with
    | .loc x => s.poisonAt x.loc
    | .scr part off => s.scratchPoison part off
    | .const off => (s.launchOf s.cur).bind fun la => la.poisonedConst off size
    | _ => none
  (k.map fun k => mkTrap .pipe 14 l (poisonDetail k)).toList

/-- An access to a saved core part (R75). -/
def State.heldPlace (s : State) : Place → Bool
  | .scr part _ => s.partSaved part
  | _ => false

/-- The physical address of an access that another device may not answer: it answers nothing now, or an access to it still
waits (R400, R401). -/
def State.deadPlace (s : State) : Place → Option Nat
  | .loc x =>
    match x.loc with
    | .peer a =>
      if s.silentDev (a / 2 ^ 40) || s.fabric.requests.any fun r => r.dev = a / 2 ^ 40 then some a else none
    | _ => none
  | _ => none

/-! ## Data -/

/-- A scratch range of the issuer that only engines write: a buffer's hidden half (R75, R92). -/
def State.hiddenHalf (s : State) (off size : Nat) : Bool :=
  match s.launchOf s.cur with
  | none => false
  | some l => l.bufs.any fun b =>
      let m := (2 * b.2 + 255) / 256 * 256
      b.1 + b.2 < off + size && off < b.1 + m

/-- The item a place holds, low bytes first. What the hidden half of a buffer reads as is not defined (R92). -/
def State.readPlace (s : State) (p : Place) (size : Nat) : Nat :=
  match p with
  | .loc x => s.readLoc x.loc size
  | .ctl r a => (s.ctlRead r).toNat / 2 ^ (8 * (a % 8)) % 2 ^ (8 * size)
  | .scr part off =>
    if s.hiddenHalf off size then (Config.freeValue s.fresh).toNat % 2 ^ (8 * size) else (s.scratch part).read off size
  | .const off => (((s.launchOf s.cur).map (·.consts)).getD Memory.empty).read off size
  | .zero => 0

/-- What a load of a place changes: an RC field clears, a free value is used up. -/
def State.afterRead (s : State) (p : Place) (size : Nat) : State :=
  match p with
  | .ctl r a => s.ctlClear r (byteMask a size)
  | .scr _ off => if s.hiddenHalf off size then { s with fresh := s.fresh + 1 } else s
  | _ => s

/-- An item written at a place. A device store to a line the host may cache follows its snoop (R102). -/
def State.writePlace (s : State) (p : Place) (size x : Nat) : State :=
  match p with
  | .loc y => (s.snoopOut y.loc).writeLoc y.loc size x
  | .ctl r a => s.ctlWrite r (placeVal a x) (byteMask a size) s.isHyper
  | .scr part off => s.setScratch part ((s.scratch part).write off size x)
  | .const _ | .zero => s

/-- The lookups of one issue: one for each distinct address (R79, R90), in the order of the places, which is that of the
events (R86, R365). -/
def State.touchAll (s : State) (write : Bool) (ps : List Place) : State :=
  (distinct ps).foldl (fun s p => match p with | .loc x => s.touch s.qosClass s.dieOfCur x write | _ => s) s

/-- Lanes in the order their events take, which is not defined (R86). -/
def insertLane (rank : Nat → Nat) (l : Nat) : List Nat → List Nat
  | [] => [l]
  | m :: ms => if rank l ≤ rank m then l :: m :: ms else m :: insertLane rank l ms

/-- The order of the events of one issue, and the state that has used it. -/
def State.eventOrder (s : State) (ls : List Nat) : List Nat × State :=
  match ls with
  | [] => ([], s)
  | [l] => ([l], s)
  | _ => (ls.foldr (insertLane (Config.laneRank s.fresh)) [], { s with fresh := s.fresh + 1 })

/-! ## Outstanding loads and stores (R69, R71) -/

/-- The registers a destination names, with a value. -/
def dstRegs (d : Opnd) (pair : Bool) (x : DWord) : List (Nat × Word) :=
  match d with
  | .v n => if pair then [(n.toNat, x.extractLsb' 0 32), (n.toNat + 1, x.extractLsb' 32 32)]
      else [(n.toNat, x.extractLsb' 0 32)]
  | _ => []

/-- A load issued by a lane's thread: outstanding until it completes. Its destination is no pending pair any more (R66). -/
def Group.issueLoad (g : Group) (l : Nat) (regs : List (Nat × Word)) : Group :=
  g.updThread l fun t => { t with
      ld := t.ld ++ [⟨regs⟩]
      pend := t.pend.filter fun q => !(regs.any fun r => r.1 = q.reg || r.1 = q.reg + 1) }

/-- The `i`th outstanding load of a thread writes its destination; an earlier one to the same register is discarded
(R69, R71). -/
def Thread.finishLoad (t : Thread) (i : Nat) : Thread :=
  match t.ld[i]? with
  | .none => t
  | some o =>
    { t with
      v := o.regs.foldl (fun v r => setAt v r.1 r.2) t.v
      ld := (t.ld.take i).map (fun e => { e with regs := e.regs.filter fun r => !(o.regs.any fun q => q.1 = r.1) })
        ++ t.ld.drop (i + 1) }

/-- The `i`th outstanding load of a lane completed: a matrix result still to come for its registers is lost, since the
instruction that computes it was issued before the load (R71, R267). -/
def Group.finishLoad (g : Group) (l i : Nat) : Group :=
  let regs := (((g.thread l).ld[i]?).map (·.regs)).getD []
  { g.updThread l fun t => t.finishLoad i with
    mxq := g.mxq.map fun o => { o with lost := regs.map (fun r => (l, r.1)) ++ o.lost } }

/-- A store counted by a lane's thread. -/
def Group.issueStore (g : Group) (l : Nat) (x : Option SysStore) : Group :=
  g.updThread l fun t => { t with st := t.st ++ [x] }

/-- The issuer's group changed. -/
def State.updGroup (s : State) (i : Issuer) (f : Group → Group) : State :=
  match s.groupOf i with
  | none => s
  | some g => s.setGroup i (f g)

/-- The issuing group as it stands in the state. -/
def State.curGroup (s : State) (c : Ctx) : Group := (s.groupOf s.cur).getD c.g

/-! ## Issue (R220, R222) -/

/-- An agent of a memory instruction: the lane that makes the event, and the lanes that receive its value. -/
abbrev Agent := Nat × List Nat

/-- A memory, barrier or engine form run for its agents: every active thread, or in an S form the lowest non-helper lane
for the group (R220), after pending pairs are waited for (R66, R37). -/
def State.memForm (s : State) (op : Nat) (f : Fields) (run : State → Ctx → List Agent → Except Stop State) : Out :=
  s.finish <|
    match s.ctx? with
    | none => .ok s
    | some c =>
      let regs := readRegs op f
      if f.namesS then
        let low := c.lowLane
        let on := (c.rd.thread low).guard f
        let cmds := if on then (c.rd.thread low).waitsFor regs else []
        if !cmds.isEmpty then .ok (s.parkUnit c cmds)
        else
          guardGroup c (if on then (c.rd.thread low).handleTrap low regs ++ s.poisonTrap low regs else []) <|
            if on then run s c [(low, c.lanes)] else .ok (s.commit c c.g (fun _ => .next) true 0)
      else
        let on := c.active f
        guardTraps (on.flatMap fun l => (c.rd.thread l).handleTrap l regs ++ s.poisonTrap l regs) <|
          s.withoutWaiting c (fun l => if on.contains l then (c.rd.thread l).waitsFor regs else []) fun s c =>
            run s c ((c.active f).map fun l => (l, [l]))

/-- The values compared of a lane: addresses and data (R412). -/
def keyOf (agents : List Agent) (vals : Nat → List DWord) (l : Nat) : List DWord :=
  if agents.any fun a => a.1 = l then vals l else []

/-- A counter of some lane is at its limit (R69). -/
def Ctx.ldFull (c : Ctx) (agents : List Agent) : Bool :=
  agents.any fun a => a.2.any fun l => (c.g.thread l).ld.length ≥ 63
def Ctx.stFull (c : Ctx) (agents : List Agent) : Bool :=
  agents.any fun a => a.2.any fun l => (c.g.thread l).st.length ≥ 63

/-- The unit moves on with its group as the state holds it. -/
def State.commitCur (s : State) (c : Ctx) : State :=
  s.commit c (s.curGroup c) (fun _ => .next) true 0

/-- The SYSTEM stores of a thread that an access of it may not pass are performed first: all of them before a store, those
up to the last one to its own address before a SYSTEM load (R100). -/
def State.beforeAccess (s : State) (l : Nat) (p : Place) (size : Nat) (store : Bool) : State :=
  match p with
  | .loc x =>
    match x.loc with
    | .host a => if store then s.flushSys l else s.flushHits l a size
    | _ => if store then s.flushSys l else s
  | .scr _ _ | .ctl _ _ => if store then s.flushSys l else s
  | _ => s

/-- What the accesses of an issue wait for at other devices (R400, R401); none: each answers. A request that FTIMEOUT has
passed for raises ACCESS, found after other threads' accesses may have been performed: `act` performs one, and each is
performed or not, in an order that is not defined (R86). Else the issue waits while a device of it answers nothing. -/
def State.deadTrap (s : State) (kind : Nat) (ps : List (Nat × Place)) (act : State → Nat × Place → State) :
    Option (Except Stop State) :=
  let dead := ps.filterMap fun p => (s.deadPlace p.2).map fun a => (p.1, a)
  match dead.find? fun p => s.expired p.1 (p.2 / 2 ^ 40) with
  | some (l, a) =>
    let (order, s0) := s.eventOrder (ps.map (·.1))
    let done := (order.filter fun m => Config.freeChoice s0.fresh m).filterMap fun m => ps.find? fun q => q.1 = m
    let s1 := done.foldl act (({ s0 with fresh := s0.fresh + 1 } : State).touchAll (kind ≠ 0) (done.map (·.2)))
    some (.ok (s1.takeTrap (peerTrap l a kind)))
  | none =>
    match dead.filter fun p => s.silentDev (p.2 / 2 ^ 40) with
    | [] => none
    | ws => some (.error (.wait (s.askPeers (ws.map fun p => (p.1, p.2 / 2 ^ 40)))))

/-- A helper's load from a device that has not answered for FTIMEOUT writes 0 and raises nothing (R27, R222). -/
def State.helperPlace (s : State) (helper : Bool) (l : Nat) (p : Place) : Place :=
  match s.deadPlace p with
  | some a => if helper && s.expired l (a / 2 ^ 40) then .zero else p
  | none => p

/-- The requests of helpers' loads that have timed out are done with when the issue completes. -/
def State.helpersAnswered (s : State) (ps : List (Nat × Place)) : State :=
  match ps.find? fun p => (s.deadPlace p.2).isSome with
  | none => s
  | some _ => s.setRequests (s.fabric.requests.filter fun r =>
      !((r.block, r.group) = s.cur.ids && r.expired && ps.any fun p => p.1 = r.lane))

/-- The lane whose read event serves a lane of an issue: under REDUNDANT a shadow's is its primary's (R412). -/
def State.readerOf (s : State) (agents : List Agent) (l : Nat) : Nat :=
  if agents.any fun a => a.1 = s.primaryOf l then s.primaryOf l else l

/-- One load event of lane `l` after those of `r`, with the value it read noted (R71, R89, R100). -/
def State.loadEvent (size : Nat) (found : List (Nat × Place)) (r : State × List (Nat × Nat)) (l : Nat) :
    State × List (Nat × Nat) :=
  match found.find? fun x => x.1 = l with
  | none => r
  | some (_, p) =>
    let s := r.1.beforeAccess l p size false
    (s.afterRead p size, (l, s.readPlace p size) :: r.2)

/-- LD, LDS, LDK (R224). -/
def State.loadRun (s : State) (f : Fields) (sp : Space) (kind : Nat) (c : Ctx) (agents : List Agent) :
    Except Stop State :=
  let size := Ty.bytes f.ty
  let ea (l : Nat) : Nat := s.effAddr c.rd l f (sp = .glob)
  let found := agents.map fun a =>
    (a, placed (c.rd.thread a.1).helper (s.place sp false kind a.1 (ea a.1) size))
  guardTraps
    (s.mismatch c (keyOf agents fun l => [BitVec.ofNat 64 (ea l)]) ++ found.flatMap (fun x => x.2.2)
      ++ found.flatMap fun x => s.poisonRead x.1.1 x.2.1 size) <|
    let ps := found.map fun x => (x.1.1, s.helperPlace (c.rd.thread x.1.1).helper x.1.1 x.2.1)
    if c.ldFull agents || ps.any fun p => s.heldPlace p.2 then .error .hold
    else
      let mine := ps.filter fun p => s.readerOf agents p.1 = p.1
      match s.deadTrap kind mine fun s p => (s.beforeAccess p.1 p.2 size false).afterRead p.2 size with
      | some r => r
      | none =>
        let s := s.helpersAnswered (found.map fun x => (x.1.1, x.2.1))
        let (order, s) := s.eventOrder (mine.map (·.1))
        let s := s.touchAll false (order.filterMap fun l => (mine.find? fun p => p.1 = l).map (·.2))
        let r := order.foldl (State.loadEvent size mine) (s, [])
        let got (l : Nat) : Nat := ((r.2.find? fun o => o.1 = s.readerOf agents l).map (·.2)).getD 0
        let s := r.1.updGroup r.1.cur fun g => agents.foldl (fun g a =>
          a.2.foldl (fun g m => g.issueLoad m (dstRegs f.d f.ty.pair (extend f.ty (got a.1)))) g) g
        .ok (s.commitCur c)

/-- LD (R224). -/
def execLd (f : Fields) (s : State) : Out := s.memForm 0x70 f fun s c ags => s.loadRun f .glob 0 c ags

/-- LDS (R224). -/
def execLds (f : Fields) (s : State) : Out := s.memForm 0x72 f fun s c ags => s.loadRun f .scr 4 c ags

/-- LDK (R76, R224). -/
def execLdk (f : Fields) (s : State) : Out := s.memForm 0x74 f fun s c ags => s.loadRun f .const 7 c ags

/-- Agents whose events are performed: no helpers, and no shadows under REDUNDANT (R27, R412). -/
def State.performers (s : State) (c : Ctx) (agents : List Agent) : List Agent :=
  agents.filter fun a => !(c.rd.thread a.1).helper && (!s.redundant || a.1 < 16)

/-- The SYSTEM store that a store to host memory leaves to be performed (R100). -/
def sysStore (p : Place) (size x : Nat) : Option SysStore :=
  match p with
  | .loc { loc := .host a, .. } => some ⟨a, size, BitVec.ofNat 64 x⟩
  | _ => none

/-- One store event of a thread, counted by the lanes `ms` (R100, R102). -/
def State.storeEvent (s : State) (l : Nat) (ms : List Nat) (p : Place) (size x : Nat) : State :=
  let entry := sysStore p size x
  let s := if entry.isSome then s else (s.beforeAccess l p size true).writePlace p size x
  s.updGroup s.cur fun g =>
    ms.foldl (fun g m => g.issueStore m (if m = l then entry else none)) g

/-- ST, STS (R225): the data is read at issue (R70). -/
def State.storeRun (s : State) (f : Fields) (sp : Space) (kind : Nat) (c : Ctx) (agents : List Agent) :
    Except Stop State :=
  let size := Ty.bytes f.ty
  let ea (l : Nat) : Nat := s.effAddr c.rd l f (sp = .glob)
  let data (l : Nat) : Nat := (s.operand c.rd l f f.ty.pair f.b).toNat % 2 ^ (8 * size)
  let doers := s.performers c agents
  let found := (agents.filter fun a => !(c.rd.thread a.1).helper).map fun a =>
    (a, placed false (s.place sp true kind a.1 (ea a.1) size))
  guardTraps
    (s.mismatch c (keyOf agents fun l => [BitVec.ofNat 64 (ea l), BitVec.ofNat 64 (data l)])
      ++ found.flatMap fun x => x.2.2) <|
    let ps := found.map fun x => (x.1.1, x.2.1)
    if c.stFull agents || ps.any fun p => s.heldPlace p.2 then .error .hold
    else
      let mine := doers.filterMap fun a => (found.find? fun x => x.1.1 = a.1).map fun x => (a.1, x.2.1)
      match s.deadTrap kind mine fun s p => (s.beforeAccess p.1 p.2 size true).writePlace p.2 size (data p.1) with
      | some r => r
      | none =>
        let (order, s) := s.eventOrder (doers.map (·.1))
        let s := s.touchAll true (order.filterMap fun l => (mine.find? fun p => p.1 = l).map (·.2))
        let s := order.foldl (fun s l =>
          match doers.find? fun a => a.1 = l, mine.find? fun p => p.1 = l with
          | some a, some p => s.storeEvent l a.2 p.2 size (data l)
          | _, _ => s) s
        .ok (s.commitCur c)

/-- ST (R225). -/
def execSt (f : Fields) (s : State) : Out := s.memForm 0x71 f fun s c ags => s.storeRun f .glob 1 c ags

/-- STS (R225). -/
def execSts (f : Fields) (s : State) : Out := s.memForm 0x73 f fun s c ags => s.storeRun f .scr 4 c ags

/-! ## Atomics (R228) -/

/-- The new value of an atomic operation. -/
def atomNew (fn : Nat) (t : Ty) (old b c : DWord) : Nat :=
  let w := t.width
  let fm := fmtOf .f32
  match fn with
  | 0 => if t = .f32 then roundVal fm 0 false 0 ((fval t false old).add 0 (fval t false b))
      else (old.toNat + b.toNat) % 2 ^ w
  | 1 => if t = .f32 then floatMinMax fm false (old.toNat % 2 ^ 32) (b.toNat % 2 ^ 32)
      else if intVal t old ≤ intVal t b then old.toNat % 2 ^ w else b.toNat % 2 ^ w
  | 2 => if t = .f32 then floatMinMax fm true (old.toNat % 2 ^ 32) (b.toNat % 2 ^ 32)
      else if intVal t old ≥ intVal t b then old.toNat % 2 ^ w else b.toNat % 2 ^ w
  | 3 => (old &&& b).toNat % 2 ^ w
  | 4 => (old ||| b).toNat % 2 ^ w
  | 5 => (old ^^^ b).toNat % 2 ^ w
  | 6 => b.toNat % 2 ^ w
  | _ => if old.toNat % 2 ^ w = c.toNat % 2 ^ w then b.toNat % 2 ^ w else old.toNat % 2 ^ w

/-- A read-modify-write of the item at a place: the old value, and the state after it (R89). -/
def State.rmw (s : State) (size : Nat) (new : DWord → Nat) (p : Place) : DWord × State :=
  let old := BitVec.ofNat 64 (s.readPlace p size)
  (old, (s.afterRead p size).writePlace p size (new old))

/-- The event of lane `l`, whose place `mine` gives, after those of `r`, with its old value noted. -/
def State.atomEvent (size : Nat) (new : Nat → DWord → Nat) (mine : List (Nat × Place))
    (r : State × List (Nat × DWord)) (l : Nat) : State × List (Nat × DWord) :=
  match mine.find? fun p => p.1 = l with
  | some p =>
    let x := (r.1.beforeAccess l p.2 size true).rmw size (new l) p.2
    (x.2, (l, x.1) :: r.2)
  | none => r

/-- What an atomic form leaves in the threads of one agent: with `ret` a load outstanding with the old value, else a store
counted where the agent performs (R69). -/
def atomBack (f : Fields) (ret : Bool) (doers : List Agent) (old : Nat → DWord) (g : Group) (a : Agent) : Group :=
  if ret then a.2.foldl (fun g m => g.issueLoad m (dstRegs f.d f.ty.pair (extend f.ty (old a.1).toNat))) g
  else if doers.contains a then a.2.foldl (fun g m => g.issueStore m none) g
  else g

/-- ATOM, ATOMS and RED: one read-modify-write event for each performing thread; `ret`: the old value goes to D, in a
shadow the primary's, in a helper 0 (R27, R228, R412). -/
def State.atomRun (s : State) (f : Fields) (sp : Space) (kind : Nat) (ret : Bool) (c : Ctx) (agents : List Agent) :
    Except Stop State :=
  let size := Ty.bytes f.ty
  let ea (l : Nat) : Nat := s.effAddr c.rd l f (sp = .glob)
  let b (l : Nat) : DWord := s.operand c.rd l f f.ty.pair f.b
  let cc (l : Nat) : DWord := s.operand c.rd l f f.ty.pair f.c
  let new (l : Nat) (old : DWord) : Nat := atomNew f.fn.toNat f.ty old (b l) (cc l)
  let doers := s.performers c agents
  let found := (agents.filter fun a => !(c.rd.thread a.1).helper).map fun a =>
    (a, placed false (s.place sp true kind a.1 (ea a.1) size))
  guardTraps
    (s.mismatch c (keyOf agents fun l => [BitVec.ofNat 64 (ea l), b l, cc l]) ++ found.flatMap (fun x => x.2.2)
      ++ found.flatMap fun x => s.poisonRead x.1.1 x.2.1 size) <|
    let ps := found.map fun x => (x.1.1, x.2.1)
    if (if ret then c.ldFull agents else c.stFull agents) || ps.any fun p => s.heldPlace p.2 then .error .hold
    else
      let mine := doers.filterMap fun a => (found.find? fun x => x.1.1 = a.1).map fun x => (a.1, x.2.1)
      match s.deadTrap kind mine fun s p => ((s.beforeAccess p.1 p.2 size true).rmw size (new p.1) p.2).2 with
      | some r => r
      | none =>
        let (order, s) := s.eventOrder (doers.map (·.1))
        let s := s.touchAll true (order.filterMap fun l => (mine.find? fun p => p.1 = l).map (·.2))
        let r := order.foldl (State.atomEvent size new mine) (s, [])
        let old (l : Nat) : DWord :=
          if (c.rd.thread l).helper then 0
          else ((r.2.find? fun o => o.1 = s.primaryOf l).map (·.2)).getD (Config.freeValue r.1.fresh)
        let s := r.1.updGroup r.1.cur fun g => agents.foldl (atomBack f ret doers old) g
        .ok (({ s with fresh := s.fresh + 1 } : State).commitCur c)

/-- ATOM (R228). -/
def execAtom (f : Fields) (s : State) : Out := s.memForm 0x75 f fun s c ags => s.atomRun f .glob 2 true c ags

/-- ATOMS (R228). -/
def execAtoms (f : Fields) (s : State) : Out := s.memForm 0x76 f fun s c ags => s.atomRun f .scr 4 true c ags

/-- RED (R228). -/
def execRed (f : Fields) (s : State) : Out := s.memForm 0x77 f fun s c ags => s.atomRun f .glob 2 false c ags

/-! ## PREF, FSYS (R226, R227) -/

/-- The place that a PREF of a lane asks a lease of: none where its address would raise any condition of R222, on a SYSTEM
page, on a page with MS = 1, and where the device does not answer (R226). -/
def State.prefPlace (s : State) (f : Fields) (c : Ctx) (l : Nat) : Option Place :=
  match s.place .glob false 0 l (s.effAddr c.rd l f true) (Ty.bytes f.ty) with
  | .ok (.loc x) =>
    match x.loc with
    | .host _ => none
    | _ => if x.ms || (s.deadPlace (.loc x)).isSome then none else some (.loc x)
  | _ => none

/-- PREF (R226): takes leases on lines as a load would, with a load's lookups at their homes (R79, R81). -/
def execPref (f : Fields) (s : State) : Out :=
  s.memForm 0x78 f fun s c agents =>
    let ls := (agents.map (·.1)).filter fun l => s.readerOf agents l = l
    .ok ((s.touchAll false (ls.filterMap fun l => s.prefPlace f c l)).commit c c.g (fun _ => .next) true 0)

/-- FSYS (R101, R227): held while an active thread has a SYSTEM store still to perform. -/
def execFsys (f : Fields) (s : State) : Out :=
  s.memForm 0x7C f fun s c agents =>
    if agents.any fun a => (c.g.thread a.1).sysPending then .error .hold
    else .ok (s.commit c c.g (fun _ => .next) true 0)

/-! ## Completions (R69) -/

/-- The issuer that stands for a group: block 0 is the management core. -/
def issuerOf (b g : Nat) : Issuer := if b = 0 then .mgmt else .unit b g 0

/-- LOAD_COMPLETE: load `i` of a lane's outstanding loads writes its destination (R69, R71). -/
def execLoadComplete (b g l i : Nat) (s : State) : Out :=
  .next (s.updGroup (issuerOf b g) fun x => x.finishLoad l i)

/-- STORE_PERFORMED: the oldest outstanding store of a lane's thread takes its place; a SYSTEM store becomes visible at
the host (R69, R100, R101). -/
def execStorePerformed (b g l : Nat) (s : State) : Out :=
  match s.groupOf (issuerOf b g) with
  | none => .next s
  | some x =>
    match (x.thread l).st with
    | [] => .next s
    | o :: os =>
      let host := match o with | some y => s.hostMem.write y.addr y.size y.val.toNat | none => s.hostMem
      .next { s.setGroup (issuerOf b g) (x.updThread l fun t => { t with st := os }) with hostMem := host }

/-! ## Other agents -/

/-- PAGE_WALK (R349): a walk finds a valid leaf, which a TLB may keep; a leaf that R346 makes an access refuse is not
valid. -/
def execPageWalk (ctx va : Nat) (s : State) : Out :=
  match s.walk ctx va with
  | none => .next s
  | some (e, level) =>
    match s.leafLoc e level va with
    | .error _ => .next s
    | .ok _ =>
      let size := 2 ^ levelShift level
      let t : TlbEntry := { ctx, va := va / size * size, size, leaf := BitVec.ofNat 64 e, level }
      .next { s with tlb := t :: s.tlb.filter fun x => x ≠ t }

/-- REMOTE_ACCESS (R74, R400): a load (`kind` 0), store (1) or atomic (2) of another device reaches this device's memory
at a naturally aligned address. It carries the class of a partition of that device, which is not known here. -/
def execRemoteAccess (kind fn : Nat) (ty : Ty) (a : Nat) (x y : DWord) (s : State) : Out :=
  let size := Ty.bytes ty
  if size = 0 || a % size ≠ 0 || a + size > hbmSize then .next s
  else
    let s1 := s.touchFrom (Config.freeIndex s.nextId a % 8) a (kind ≠ 0)
    let s2 := s1.snoopOut (.dev a)
    match kind with
    | 0 => .next s1
    | 1 => .next { s2 with mem := s.mem.write a size (x.toNat % 2 ^ (8 * size)) }
    | _ =>
      -- an atomic on a poisoned unit performs no event (R415)
      if (s.poisonAt (.dev a)).isSome then .next s
      else .next { s2 with
        mem := s.mem.write a size (atomNew fn ty (BitVec.ofNat 64 (s.mem.read a size)) x y) }

/-- FTIMEOUT has passed since a request was issued at a time of the device's own, which a device has not answered since it
fell silent (R400). -/
def State.timedOut (s : State) (dev since : Nat) : Bool :=
  s.fabric.silent.any fun x => x.1 = dev && max since x.2 + 1000 * s.fabric.ftimeout ≤ s.uptime

/-- A waiting access that FTIMEOUT has passed for is not answered any more (R400, R401). -/
def State.expire (s : State) (dev : Nat) (r : Request) : Request :=
  if r.dev = dev && s.timedOut dev r.since then { r with expired := true } else r

/-- A command needs a device: a collective of which it is a member does, and one with a source byte there (R401). -/
def State.cmdNeeds (s : State) (c : Cmd) (dev : Nat) : Bool :=
  c.kind = .coll && c.shape.hasMember dev || (List.range c.total).any fun p =>
    match s.srcAt c p with
    | .glb va =>
      match s.translate c.ctx va false with
      | .ok t => (match t.loc with | .peer a => a / 2 ^ 40 = dev | _ => false)
      | .error _ => false
    | _ => false

/-- FABRIC_TIMEOUT (R400, R401): a device has not answered for FTIMEOUT. An engine command that needs it fails with
PEERLOST, or, with command 0, the accesses of threads that have waited for it so long are not answered. A failure waits for
its record under replay (R422, R423). -/
def execFabricTimeout (cmd dev : Nat) (s : State) : Out :=
  if dev = s.fabric.devnum.toNat then .next s
  else if cmd = 0 then .next (s.setRequests (s.fabric.requests.map (s.expire dev)))
  else
    match s.cmds.find? fun c => c.id = cmd with
    | none => .next s
    | some c =>
      if s.cmdThere c && s.cmdNeeds c dev && s.timedOut dev c.since then .next (s.failHeld c 7) else .next s

/-- The sizes of a host access: a power of two up to a line of 64 bytes; an access of another size or alignment is dropped.
DESIGN CHOICE (notes/assumptions/93.md): R84 makes an access one event and gives no sizes for the host's. -/
def hostSize (size : Nat) : Bool := [1, 2, 4, 8, 16, 32, 64].contains size

/-- HOST_MEM_ACCESS (R84, R396, R102, R415): a host CXL.mem access at host physical address `a` is accepted, as one event.
With CXL IDE on, unprotected traffic is dropped and reported. A line the host has accessed may be in its cache. A read of
a poisoned unit carries the poison indication. -/
def execHostMemAccess (write prot : Bool) (a size x : Nat) (s : State) : Out :=
  let off := a - s.fabric.hdmBase
  if !s.fabric.hostLink then .next s
  else if s.fabric.ide && !prot then .next { s with fabric := { s.fabric with ideDrops := s.fabric.ideDrops + 1 } }
  else if a < s.fabric.hdmBase || !hostSize size || off % size ≠ 0 || off + size > hbmSize then .next s
  else
    let u := off / 64 * 64
    let s1 := ({ s with snoop := u :: s.snoop.filter fun k => k ≠ u } : State).touchFrom 0 off write
    if write then .next { s1 with mem := s.mem.write off size (x % 2 ^ (8 * size)) }
    else .next { s1 with fabric := { s1.fabric with hostReply := (s.mem.read off size, (s.poisonAt (.dev off)).isSome) } }

end Sys2Proof.Machine
end

