-- ==== Sys2Proof/Machine/Sync.lean ====
section
/-!
DEFINITION. Pins and reclaims (R229 to R232), barrier objects (R233 to R240), handles (R241, R242) and CWAIT (R243),
with the events of the pin unit.
-/

namespace Sys2Proof.Machine

open Sys2Proof

/-! ## PIN, UNPIN (R98, R229) -/

/-- A pin register written: every write counts as an overwrite of the name it held (R98). -/
def Group.setPin (g : Group) (n : Nat) (x : DWord) : Group :=
  { g with pn := setAt g.pn n x, pnGen := updAt g.pnGen n (· + 1) }

/-- The pin register of an operand. -/
def pinNum : Opnd → Nat
  | .pn n => n.toNat
  | _ => 0

/-- PIN and UNPIN: one event for each performing thread, in an order that is not defined (R86, R229). -/
def State.pinRun (s : State) (f : Fields) (name : Ctx → Nat → DWord) (c : Ctx) (agents : List Agent) :
    Except Stop State :=
  guardTraps (s.mismatch c (keyOf agents fun l => [name c l])) <|
    let (order, s) := s.eventOrder ((s.performers c agents).map (·.1))
    let g := order.foldl (fun g l => g.setPin (pinNum f.d) (name c l)) c.g
    .ok (s.commit c g (fun _ => .next) true 0).settle

/-- PIN (R229). -/
def execPin (f : Fields) (s : State) : Out :=
  s.memForm 0x79 f fun s c agents => s.pinRun f (fun c l => s.operand c.rd l f true f.a) c agents

/-- UNPIN (R229). -/
def execUnpin (f : Fields) (s : State) : Out :=
  s.memForm 0x7A f fun s c agents => s.pinRun f (fun _ _ => 0) c agents

/-! ## RECLAIM (R98, R230, R232) -/

/-- The address space of a context (R326). -/
def State.asidOf (s : State) (ctx : Nat) : Nat := (s.csr.ctxAsid.getD ctx 0).toNat

/-- The pins of the device that hold a name in the contexts a test admits: (block, group, register, count). The name 0
matches nothing. -/
def State.findPins (s : State) (inScope : Nat → Bool) (name : DWord) : List (Nat × Nat × Nat × Nat) :=
  if name = 0 then []
  else
    s.blocks.flatMap fun b =>
      if inScope (s.ctxOfLaunch b.launch) then
        b.groups.zipIdx.flatMap fun g =>
          ((List.range 4).filter fun r => g.1.pn.getD r 0 = name).map fun r => (b.id, g.2, r, g.1.pnGen.getD r 0)
      else []

/-- The name, taken as an address, translates to a DOMAIN page (R230); no address has ones in bits 63 to 52 (R73). Whether an
access of the page would be admitted (R222 step 4, R405) does not matter. -/
def State.domainName (s : State) (name : DWord) : Bool :=
  let va := name.toNat
  decide (va < 2 ^ 52) &&
    match s.regionOf s.ctxOf va with
    | some r => r.cls = 3 && decide (r.backing true + (va - r.base) < hbmSize)
    | none => ((s.leafOf s.ctxOf va).map fun x => decide (pteClass x.1 = 3)).getD false

/-- The issue checks of RECLAIM (R230): the header as a 64-byte store on a DEVICE or DOMAIN page, the barrier as a
barrier object. -/
def State.reclaimTraps (s : State) (f : Fields) (c : Ctx) (l : Nat) : List Trap :=
  let bar := (s.operand c.rd l f false f.b).toNat
  let ring := (s.operand c.rd l f true f.c).toNat
  let cls : List Trap :=
    match s.place .glob true 1 l ring 64 with
    | .error t => [t]
    | .ok (.loc x) => if x.cls = 2 || x.cls = 3 then [] else [mkTrap .access 15 l (ring % 2 ^ 52 + 2 ^ 52)]
    | .ok _ => []
  cls ++ (placed false (s.place .scr true 5 l bar 16)).2

/-- The other devices of a partition's job, to which its pin-query messages go (R405). -/
def State.jobPeers (s : State) (p : Nat) : List Nat :=
  match s.tenants[p]? with
  | none => []
  | some t =>
    if t.jv then (List.range 2048).filter fun d => d ≠ s.fabric.devnum.toNat && (t.jobMap.getD (d / 64) 0).getLsbD (d % 64)
    else []

/-- The search of an agent, numbered `id` (R230). A shadow is held on its primary's search and receives its result
(R412). -/
def State.searchOf (s : State) (f : Fields) (c : Ctx) (a : Agent) (id : Nat) : Search :=
  let name := s.operand c.rd a.1 f true f.a
  let shadows := if s.redundant then (c.lanes.filter fun m => m = a.1 + 16) else []
  { id
    block := match s.cur with | .mgmt => 0 | .unit b _ _ => b
    group := match s.cur with | .mgmt => 0 | .unit _ g _ => g
    lanes := maskOf (a.2 ++ shadows), ctx := s.ctxOf, name
    dst := match f.d with | .v n => some n.toNat | _ => none
    ring := (s.operand c.rd a.1 f true f.c).toNat, bar := (s.operand c.rd a.1 f false f.b).toNat
    found := s.findPins (fun k => s.asidOf k = s.asidOf s.ctxOf) name, domain := s.domainName name
    asked := s.jobPeers (s.tenantOf s.ctxOf) }

/-- A search made for an agent. -/
def State.addSearch (f : Fields) (c : Ctx) (s : State) (a : Agent) : State :=
  { s with searches := s.searches ++ [s.searchOf f c a s.nextId], nextId := s.nextId + 1 }

/-- RECLAIM (R230): each performing thread makes its search, an event, and is held until the search completes. -/
def execReclaim (f : Fields) (s : State) : Out :=
  s.memForm 0x7B f fun s c agents =>
    let bar (l : Nat) : Nat := (s.operand c.rd l f false f.b).toNat
    let real := agents.filter fun a => !(c.rd.thread a.1).helper
    guardTraps
      (s.mismatch c (keyOf agents fun l =>
          [s.operand c.rd l f true f.a, BitVec.ofNat 64 (bar l), s.operand c.rd l f true f.c])
        ++ real.flatMap fun a => s.reclaimTraps f c a.1) <|
      if real.any fun a => s.partSaved (scrPart (bar a.1)) then .error .hold
      else
        let s1 := (s.performers c agents).foldl (State.addSearch f c) s
        let new := s1.searches.filter fun q => q.id ≥ s.nextId
        -- the lanes that make no search are held with the others at the instruction
        let mine (l : Nat) : Option Nat := ((new.find? fun q => q.lanes.getLsbD l).orElse fun _ => new.head?).map (·.id)
        .ok (s1.commit c c.g (fun l => match mine l with | some id => .park (.search id) | none => .next) true 0)

/-- The lanes of a group held on searches that are over. -/
def Group.searchDone (g : Group) (running : Nat → Bool) : List Nat :=
  let held := (List.range 32).filter fun l => match (g.thread l).status with | .parked (.search _) => true | _ => false
  let isOver (l : Nat) : Bool := match (g.thread l).status with | .parked (.search id) => !running id | _ => false
  -- lanes that stand at one instruction move on together
  held.filter fun l => (held.filter fun m => (g.thread m).ip = (g.thread l).ip).all isOver

/-- An entry of a context's deferred list written in HBM (R353): the spec gives neither its layout nor its place in the list,
so a freely chosen entry takes free values (notes/assumptions/19.md). -/
def State.writeDeferred (s : State) (ctx : Nat) : State :=
  match s.ctxs[ctx]? with
  | none => s
  | some x =>
    let s := s.drawFor ctx
    let k := Config.freeIndex s.fresh ctx % max 1 x.defCap.toNat
    s.scribble (hbmWords (x.defBase.toNat + 64 * k) 64)

/-- The result code of a search, and what it records (R230): FREE, DEFERRED, or BUSY when the list is full. -/
def State.searchResult (s : State) (q : Search) (remote : Nat) : Nat × State :=
  let remote := if q.domain && !q.asked.isEmpty then remote else 0
  let cap := ((s.ctxs[q.ctx]?).map (·.defCap.toNat)).getD 0
  if q.found.isEmpty && remote = 0 then (0, s)
  else if (s.deferred.filter fun d => d.ctx = q.ctx).length ≥ cap then (2, s)
  else
    (1, { s.writeDeferred q.ctx with deferred := s.deferred ++ [
      { ctx := q.ctx, name := q.name, pins := q.found, remote, ring := q.ring, block := q.block, bar := q.bar, order := 0
        faulted := false, moved := false }] })

/-- RECLAIM_SEARCH_COMPLETE (R230): the search is over, `remote` pins found by the queries of a domain search on the
other devices of the job; D is written and the thread moves on. -/
def execReclaimSearchComplete (id remote : Nat) (s : State) : Out :=
  match s.searches.find? fun q => q.id = id with
  | none => .next s
  | some q =>
    let (code, s1) := s.searchResult q remote
    let s1 := { s1 with searches := s1.searches.filter fun x => x.id ≠ id }
    let iss := issuerOf q.block q.group
    let s1 := s1.updGroup iss fun g => (lanesOf q.lanes).foldl (fun g l =>
      match q.dst with
      | some r => if (g.thread l).live then g.setReg l r (BitVec.ofNat 32 code) else g
      | none => g) g
    let ready := ((s1.groupOf iss).map fun g => g.searchDone fun i => s1.searches.any fun x => x.id = i).getD []
    .next (s1.wake iss ready fun _ t => t.advance).settle

/-- PIN_QUERY (R230, R405): a pin-query message with a JOBID, an ASID and a name searches the contexts of this device
whose partition is in that job and whose ASID is that one. -/
def execPinQuery (job asid : Nat) (name : DWord) (s : State) : Out :=
  let inScope (k : Nat) : Bool :=
    match s.tenants[s.tenantOf k]? with
    | some t => t.jv && t.jobId.toNat = job && s.asidOf k = asid
    | none => false
  .next { s with queries := s.queries ++ [{ job, asid, name, found := s.findPins inScope name }] }

/-! ## The pin unit (R231, R232) -/

/-- What an append finds: a fault, a full ring, or the places of its two stores and the new HEAD. -/
inductive RingState where
  | fault | full
  | room (entry header : Xlate) (head : Nat)
  deriving DecidableEq, Repr

/-- The ring of a deferred name, read afresh (R231, R232). -/
def State.ringState (s : State) (d : Deferred) : RingState :=
  match s.translate d.ctx d.ring true with
  | .error _ => .fault
  | .ok h =>
    let base := s.readLoc h.loc 8
    let at_ (o : Nat) : Loc := h.loc.plus o
    let cap := s.readLoc (at_ 8) 4
    let head := s.readLoc (at_ 16) 4
    let tail := s.readLoc (at_ 20) 4
    if !((List.range 25).any fun k => cap = 2 ^ k) || base % 8 ≠ 0 || base ≥ 2 ^ 52 then .fault
    else if (head + 2 ^ 32 - tail) % 2 ^ 32 ≥ cap then .full
    else
      let at8 := base + 8 * (head % cap)
      match if at8 < 2 ^ 52 then s.translate d.ctx at8 true else .error .access with
      | .error _ => .fault
      | .ok e => .room e { h with loc := at_ 16 } ((head + 1) % 2 ^ 32)

/-- The deferred name may be appended now: it is the first of its ring to have become ready, and its barrier's part is in
its core, or its block has retired (R232). -/
def State.appendable (s : State) (d : Deferred) : Bool :=
  d.order ≠ 0 && !s.powerOff.isSome &&
    !(s.deferred.any fun e => e.ring = d.ring && s.asidOf e.ctx = s.asidOf d.ctx && e.order ≠ 0 && e.order < d.order) &&
    (match s.block? d.block with
      | none => true
      | some b => decide (b.state = .retired) || s.partThere d.block (scrPart d.bar))

/-- A store of the pin unit for a context: its lookup (R79, R357), the snoop of its line (R102) and the bytes. DESIGN CHOICE
(notes/assumptions/94.md): the unit stands on no die, and so R77 gives a LOCAL or CORE line that it stores to no home; the
model looks the line up as from die 0. -/
def State.storeAt (s : State) (ctx : Nat) (x : Xlate) (n v : Nat) : State :=
  ((s.touch (s.tenantOf ctx) 0 x true).snoopOut x.loc).writeLoc x.loc n v

/-- One append of the pin unit: the entry, HEAD and the arrival in one event; or RINGFAULT at the first fault (R232). -/
def State.append (s : State) (d : Deferred) : State :=
  match s.ringState d with
  | .full => s
  | .fault =>
    if d.faulted then s
    else
      let s1 := { s with deferred := s.deferred.map fun e => if e = d then { e with faulted := true } else e }
      s1.raise (plainEvent .ringFault d.ctx (s.tenantOf d.ctx) (trapInfo false 0 (d.ring % 2 ^ 52)) [])
  | .room entry header head =>
    -- the append of a name whose list was moved is not defined: a free value (R353)
    let s0 := if d.moved then (s.drawFor d.ctx).free else (d.name, s)
    let s1 := s0.2.storeAt d.ctx entry 8 s0.1.toNat
    let s1 := s1.storeAt d.ctx header 4 head
    let s1 := { s1 with deferred := s1.deferred.erase d }
    match s.block? d.block with
    | some b =>
      if b.state = .retired then s1 else s1.arrive d.block (scrPart d.bar) (scrOff d.bar) 1 0 0
    | none => s1

/-- FREE_RING_APPEND (R232): the pin unit appends the `k`th deferred name; `clear` tells that every pin found on other
devices has been reported clear. -/
def execFreeRingAppend (k : Nat) (clear : Bool) (s : State) : Out :=
  let s1 := if clear then { s with deferred := updAt s.deferred k fun d => { d with remote := 0 } }.settle else s
  match s1.deferred[k]? with
  | some d => if s1.appendable d && !d.faulted then .next (s1.append d) else .next s1
  | none => .next s1

/-- RING_APPEND_RETRY (R232): a faulted append is tried again. -/
def execRingAppendRetry (k : Nat) (s : State) : Out :=
  match s.deferred[k]? with
  | some d => if s.appendable d && d.faulted then .next (s.append d) else .next s
  | none => .next s

/-! ## Barrier instructions (R233 to R240) -/

/-- A command has still to publish on a barrier object: with SHARD its shard of that object (R239, R262). -/
def State.publishesOn (s : State) (c : Cmd) (addr : Nat) : Bool :=
  (s.barsOf c).zipIdx.any fun b => b.1 = addr && !(c.shards.any fun x => x.1 = b.2)

/-- BRST on an object (R239): the commands that name it and have not published are abandoned without an arrival, and
every waiter is released. -/
def State.brst (s : State) (b part off phase : Nat) : State :=
  let n := setBits (setPhase (setBal (setArra (s.bar b part off) 0) 0) phase) 120 1 1
  let s := s.setBar b part off n
  let addr := part * 2 ^ 20 + off
  let victims := s.cmds.filter fun c => decide (c.state = .running) && c.block = b && s.publishesOn c addr
  let s := victims.foldl (fun s c => s.failCmd c 6 (some addr)) s
  let s := if victims.isEmpty then s else s.setBar b part off (setCode (s.bar b part off) 6)
  s.releaseBar b part off true

/-- BINIT on an object (R236): first as a BRST to phase 0, then the fields; with both expectations 0 the phase completes
in the same event. -/
def State.binit (s : State) (b part off expa expb : Nat) : State :=
  let s := s.brst b part off 0
  s.setBar b part off (barTest (expa % 2 ^ 16 + expb % 2 ^ 32 * 2 ^ 32) 0 0 0).1

/-- The barrier object a lane addresses: checked as a 16-byte scratch access (R222). -/
def State.barPlace (s : State) (f : Fields) (c : Ctx) (l : Nat) : Except Trap Place :=
  s.place .scr true 5 l (s.effAddr c.rd l f false) 16

/-- A barrier form whose helpers do nothing: one event for each performing thread. `reads`: the object's old contents
matter, so that a poisoned one traps (R415). `act` gets the actor's operands, as they were before every event. -/
def State.barRun (s : State) (op : Nat) (f : Fields) (reads : Bool)
    (act : State → (Opnd → Nat) → Nat → Nat → Nat → State) : Out :=
  s.memForm op f fun s c agents =>
    let read (l : Nat) (o : Opnd) : Nat := (s.operand c.rd l f false o).toNat
    let real := agents.filter fun a => !(c.rd.thread a.1).helper
    let found := real.map fun a => (a.1, placed false (s.barPlace f c a.1))
    guardTraps
      (s.mismatch c (keyOf agents fun l => [BitVec.ofNat 64 (s.effAddr c.rd l f false), s.operand c.rd l f false f.b,
          s.operand c.rd l f false f.c])
        ++ found.flatMap (fun x => x.2.2)
        ++ if reads then found.flatMap fun x => s.poisonRead x.1 x.2.1 16 else []) <|
      if found.any fun x => s.heldPlace x.2.1 then .error .hold
      else
        let b := s.cur.owner
        let (order, s) := s.eventOrder ((s.performers c agents).map (·.1))
        let s := order.foldl (fun s l =>
          match (found.find? fun x => x.1 = l).map (·.2.1) with
          | some (.scr p o) => act (s.beforeAccess l (.scr p o) 16 true) (read l) b p o
          | _ => s) s
        .ok (s.commitCur c)

/-- BINIT (R236). -/
def execBinit (f : Fields) (s : State) : Out :=
  s.barRun 0x90 f false fun s read b p o => s.binit b p o (read f.b) (read f.c)

/-- BARV (R237). -/
def execBarv (f : Fields) (s : State) : Out := s.barRun 0x91 f true fun s _ b p o => s.arrive b p o 1 0 0

/-- BEXP (R237). -/
def execBexp (f : Fields) (s : State) : Out :=
  s.barRun 0x92 f true fun s read b p o => s.arrive b p o 0 0 (read f.b)

/-- BRST (R239). -/
def execBrst (f : Fields) (s : State) : Out :=
  s.barRun 0x95 f true fun s read b p o => s.brst b p o (read f.b % 2 ^ 16)

/-- The object, and the phase operand, that an agent of BWAIT or BTEST reads. -/
def State.phaseRead (s : State) (op : Nat) (f : Fields)
    (act : Ctx → List (Agent × Nat × Nat × Nat × Nat) → State → Except Stop State) : Out :=
  s.memForm op f fun s c agents =>
    let found := agents.map fun a => (a, placed false (s.barPlace f c a.1))
    guardTraps
      (s.mismatch c (keyOf agents fun l => [BitVec.ofNat 64 (s.effAddr c.rd l f false), s.operand c.rd l f false f.b])
        ++ found.flatMap (fun x => x.2.2) ++ found.flatMap fun x => s.poisonRead x.1.1 x.2.1 16) <|
      if found.any fun x => s.heldPlace x.2.1 then .error .hold
      else
        let reads := found.filterMap fun x =>
          match x.2.1 with
          | .scr p o => some (x.1, s.bar s.cur.owner p o, p, o, (s.operand c.rd x.1.1 f false f.b).toNat % 2 ^ 16)
          | _ => none
        act c reads s

/-- BTEST (R238). -/
def execBtest (f : Fields) (s : State) : Out :=
  s.phaseRead 0x94 f fun c reads s =>
    let g := reads.foldl (fun g r =>
      r.1.2.foldl (fun g m => g.writeDst m f.d false ((barStatus r.2.1 r.2.2.2.2).zeroExtend 64)) g) c.g
    .ok (s.commit c g (fun _ => .next) true 0)

/-- BWAIT (R237): a satisfied thread writes the status word and goes on; another parks on the object. -/
def execBwait (f : Fields) (s : State) : Out :=
  s.phaseRead 0x93 f fun c reads s =>
    let dst := match f.d with | .v n => some n.toNat | _ => none
    let g := reads.foldl (fun g r =>
      if barSat r.2.1 r.2.2.2.2 then
        r.1.2.foldl (fun g m => g.writeDst m f.d false ((barStatus r.2.1 r.2.2.2.2).zeroExtend 64)) g
      else g) c.g
    let parked (l : Nat) : Option WaitOn :=
      (reads.find? fun r => r.1.2.contains l && !barSat r.2.1 r.2.2.2.2).map fun r =>
        .barrier r.2.2.1 r.2.2.2.1 r.2.2.2.2 dst
    let lost := match dst with | some n => (c.lanes.filter fun l => (parked l).isSome).map fun l => (l, n) | none => []
    let g := { g with mxq := g.mxq.map fun o => { o with lost := lost ++ o.lost } }
    .ok (s.commit c g (fun l => match parked l with | some w => .park w | none => .next) true 0)

/-! ## Handles (R241, R242) -/

/-- The register of a handle operand. -/
def handleReg : Opnd → Nat
  | .v n => n.toNat
  | _ => 0

/-- HTEST's word for a pair (R241). -/
def Thread.handleState (t : Thread) (r : Nat) : Word :=
  BitVec.ofNat 32 (b2n (t.pend.any fun q => q.reg = r && !q.cancelled) + 2 * b2n (t.pend.any fun q => q.reg = r && q.cancelled))

/-- HTEST (R241). -/
def execHtest (f : Fields) (s : State) : Out :=
  s.memForm 0x96 f fun s c agents =>
    let g := agents.foldl (fun g a =>
      g.writeDst a.1 f.d false (((c.rd.thread a.1).handleState (handleReg f.a)).zeroExtend 64)) c.g
    .ok (s.commit c g (fun _ => .next) true 0)

/-- HCANCEL (R242): the command whose handle is in A is asked to cancel; COMMAND_CANCEL makes it take effect unless the
command publishes before. A helper may hold a pair pending on its group's command, and cancels like any thread. -/
def execHcancel (f : Fields) (s : State) : Out :=
  s.memForm 0x97 f fun s c agents =>
    let ids := agents.flatMap fun a =>
      ((c.rd.thread a.1).pend.filter fun q => q.reg = handleReg f.a && !q.cancelled).map (·.cmd)
    let s := ids.foldl (fun s id => if s.undone id then s.updCmd id fun k => { k with cancel := true } else s) s
    .ok (s.commit c c.g (fun _ => .next) true 0)

/-! ## CWAIT (R243) -/

/-- A thread's counters are within CWAIT's limits. -/
def Thread.within (t : Thread) (ld st mx : Nat) : Bool := t.ld.length ≤ ld && t.st.length ≤ st && t.mx ≤ mx

/-- CWAIT (R243): held until each active thread's counters are at most the immediates. -/
def execCwait (f : Fields) (s : State) : Out :=
  s.memForm 0x98 f fun s c agents =>
    if agents.all fun a => (c.g.thread a.1).within (f.immBits 5 0) (f.immBits 11 6) (f.immBits 15 12) then
      .ok (s.commit c c.g (fun _ => .next) true 0)
    else .error .hold

end Sys2Proof.Machine
end

