-- ==== Sys2Proof/Machine/Engine.lean ====
section
/-!
DEFINITION. The engine commands XCOPY, XGATH, XSCAT, XFILL, XPUB, COLL and CSEQ (R247 to R266): their issue, and the
events of a command's life: source reads, publish, failure and cancellation (R93, R94, R242, R251).
-/

namespace Sys2Proof.Machine

open Sys2Proof

/-! ## Issue (R247) -/

/-- The record address, RS, HOLD and VAR of field I (R248). -/
def recAddr (f : Fields) : Nat := f.immBits 21 0
def recInScratch (f : Fields) : Bool := f.imm.getLsbD 22
def holdBit (f : Fields) : Bool := f.imm.getLsbD 23
def varNum (f : Fields) : Nat := f.immBits 26 24

/-- The operands of an engine command: the address side, the coordinate base, and the second value. -/
structure EngForm where
  kind   : CmdKind
  /-- The form reads a shape record. -/
  hasRec : Bool
  /-- The field of the address, 64-bit where `wide`. -/
  addr   : Fields → Opnd
  wide   : Fields → Bool
  coord  : Fields → Opnd
  value  : Fields → Opnd

/-- The shape record of the command: its bytes, or the trap of an address that is refused (R247, R222). -/
def State.readRecord (s : State) (f : Fields) (l : Nat) : List Byte × List Trap :=
  let a := recAddr f
  if recInScratch f then
    let r := placed false (s.place .scr false 4 l a 64)
    match r.1 with
    | .scr p o => ((s.scratch p).bytes o 64, s.poisonRead l r.1 64)
    | _ => ([], r.2)
  else
    let d := a + 7 * 2 ^ 52
    match s.launchOf s.cur with
    | none => ([], [mkTrap .access 13 l d])
    | some la =>
      if a % 64 ≠ 0 then ([], [mkTrap .misalign 10 l d])
      else if a + 64 > 0x1000 + la.dataLen then ([], [mkTrap .access 13 l d])
      else (la.consts.bytes a 64, s.poisonRead l (.const a) 64)

/-- The coordinate registers of a base (R244): in the window or S0 to S23. -/
def coordTrap (o : Opnd) (n window l : Nat) : List Trap :=
  match o with
  | .v r => if r.toNat + n > window then [mkTrap .access 15 l (4 * r.toNat + 6 * 2 ^ 52)] else []
  | .s r => if r.val + n > 24 then [mkTrap .access 15 l (0x100 + r.val + 7 * 2 ^ 52)] else []
  | _ => []

/-- The V registers that the coordinates of a base are read from. -/
def coordRegs (o : Opnd) (n : Nat) : List Nat :=
  match o with
  | .v r => (List.range n).map fun i => r.toNat + i
  | _ => []

/-- The coordinates themselves. -/
def coordVals (g : Group) (l : Nat) (o : Opnd) (n : Nat) : List Word :=
  (List.range n).map fun i =>
    match o with
    | .v r => (g.thread l).reg (r.toNat + i)
    | .s r => g.s.getD (r.val + i) 0
    | _ => 0

/-- Engine commands that have not completed on a core (R247, R261). -/
def State.tceLoad (s : State) (core : Nat) : Nat :=
  (s.cmds.filter fun c => c.core = core && decide (c.state = .running)).length

/-- A handle pair written and made pending on a command in a lane (R66); its bits are not defined (R247). -/
def Group.giveHandle (g : Group) (l r cmd : Nat) (x : DWord) : Group :=
  (g.setPair l r x).updThread l fun t => { t with pend := t.pend ++ [⟨r, cmd, false⟩] }

/-- The fields a collective's hash covers (R263), as one number. -/
def Shape.hash (r : Shape) : Nat :=
  leNat ((List.range 2).flatMap (fun d => leBytes 2 (r.box.getD d 0)) ++ leBytes 2 r.gorg ++ (r.raw.drop 28).take 6
    ++ leBytes 4 (bits r.ctl 21 0 - bits r.ctl 12 12 * 2 ^ 12) ++ (if r.rop = 0 then [0] else leBytes 1 (bits r.ctl 27 24)))

/-- A collective takes its sequence number, its own hash, and what has arrived for it (R263). A command whose group no
entry names takes none (R265). -/
def State.takeSequence (s : State) (c : Cmd) : Cmd × State :=
  if c.kind ≠ .coll then (c, s)
  else
    match s.ctxs[c.ctx]? with
    | none => (c, s)
    | some x =>
      match x.entryFor c.shape.group with
      | none => ({ c with entry := 32 }, s)
      | some e =>
        let seq := (x.groups.getD e ⟨false, false, 0, 0, 0, 0, 0⟩).next
        let mine := x.inbox.filter fun f => f.gid = c.shape.group && f.seq = seq
        let tiles := (mine.filter fun f => !f.tile.isEmpty).map fun f => (f.dev, f.tile)
        ({ c with entry := e, seq, hashes := (s.fabric.devnum.toNat, c.shape.hash) :: mine.map (fun f => (f.dev, f.hash))
                  tiles },
          s.updCtx c.ctx fun x => { x with
            inbox := x.inbox.filter fun f => !(f.gid = c.shape.group && f.seq = seq)
            groups := updAt x.groups e fun g => { g with next := g.next + 1 } })

/-- The lanes whose handle pair an agent's command writes: its own lanes and, under REDUNDANT, its shadow (R412). -/
def State.handleLanes (s : State) (c : Ctx) (a : Agent) : List Nat :=
  if s.redundant then distinct (a.2 ++ c.lanes.filter fun m => m = a.1 + 16) else a.2

/-- The command an agent issues, before it has its number: its operands are read as the instruction finds them. -/
def State.newCmd (s : State) (f : Fields) (e : EngForm) (c : Ctx) (record : Nat → List Byte) (a : Agent) : Option Cmd :=
  match s.cur, s.launchOf s.cur with
  | .unit b g _, some la =>
    (s.block? b).map fun x =>
      { id := 0, kind := e.kind, core := x.coreOf g, block := b, part := x.partOf g, group := g
        lanes := maskOf (s.handleLanes c a)
        ctx := la.ctx, launch := la.id, var := varNum f, hold := holdBit f, record := record a.1
        a := s.operand c.rd a.1 f (e.wide f) (e.addr f), b := s.operand c.rd a.1 f false (e.value f)
        bar := (s.operand c.rd a.1 f false f.c).toNat
        coords := coordVals c.rd a.1 (e.coord f) (Shape.of (record a.1)).ndim
        state := .running, data := .empty, read := [], code := 0, bytes := 0, failAt := 0, cancel := false
        entry := 0, seq := 0, hashes := [], matched := false, innet := false, tiles := [], shards := []
        since := s.uptime }
  | _, _ => none

/-- One command accepted. DESIGN CHOICE (notes/assumptions/83.md): the issuing thread's SYSTEM stores may still be on their
way to the host, and the command's reads do not wait for them; R87 and R100 do not say whether they do. It has its number, a
collective its sequence number, and these lanes the pair `r` pending on it, with bits that are not defined. -/
def State.acceptCmd (s : State) (r : Nat) (lanes : List Nat) (cmd : Cmd) : State :=
  let (id, s) := s.newId
  let (cmd, s) := s.takeSequence { cmd with id }
  let (h, s) := s.free
  let s := { s with cmds := s.cmds ++ [cmd] }
  s.updGroup s.cur fun g => lanes.foldl (fun g m => g.giveHandle m r id h) g

/-- The barrier objects checked at issue (R247): SHARD names one for each rank. -/
def State.issueBars (s : State) (e : EngForm) (record : List Byte) (bar : Nat) : List Nat :=
  let r := Shape.of record
  if e.kind = .coll && r.shard && r.collOk s.fabric.devnum.toNat then
    (List.range (r.setOf s.fabric.devnum.toNat).length).map fun j => (bar + 16 * j) % 2 ^ 32
  else [bar]

/-- The agents of an engine command: every active thread, or in an S form the group once, in its lowest non-helper lane
(R245, R247). -/
def Ctx.engineAgents (c : Ctx) (f : Fields) : List Agent :=
  if f.namesS then (if (c.rd.thread c.lowLane).guard f then [(c.lowLane, c.lanes)] else [])
  else (c.active f).map fun l => (l, [l])

/-- The number of coordinate registers of a command, by its record. -/
def recordDims (record : List Byte) : Nat := (Shape.of record).ndim

/-- The checks of the first pass for one agent (R247), in the order of its loop: the record, each barrier object, the
coordinate registers. An object whose address is in a pending pair is checked when the command is issued again. -/
def State.enginePass (s : State) (op : Nat) (f : Fields) (e : EngForm) (c : Ctx) (l : Nat) (rec : List Byte × List Trap) :
    List Trap :=
  let bars :=
    if ((c.rd.thread l).pendIn (opndRegs (formOf op f).c f.c)).isEmpty then
      s.issueBars e rec.1 (s.operand c.rd l f false f.c).toNat
    else []
  rec.2 ++ bars.flatMap (fun b => (placed false (s.place .scr true 5 l b 16)).2.map fun t => { t with rank := t.rank + 20 })
    ++ (coordTrap (e.coord f) (recordDims rec.1) s.window l).map fun t => { t with rank := 40 }

/-- HANDLE and PIPE code 6 of the registers that an engine command reads: they come after its first pass (R246, R247). -/
def State.engineReads (s : State) (c : Ctx) (l : Nat) (regs : List Nat) : List Trap :=
  ((c.rd.thread l).handleTrap l regs).map (fun t => { t with rank := 50 })
    ++ (s.poisonTrap l regs).map fun t => { t with rank := 51 }

/-- The acceptance of an engine command for every agent of the issue, after its waits (R247). A helper's command is not
performed: its pair is written complete with CANCELLED (R27). -/
def State.engineAccept (s : State) (f : Fields) (e : EngForm) (record : Nat → List Byte) (c : Ctx)
    (agents : List Agent) : Except Stop State :=
  let bar (l : Nat) : Nat := (s.operand c.rd l f false f.c).toNat
  let key (l : Nat) : List DWord :=
    [s.operand c.rd l f (e.wide f) (e.addr f), s.operand c.rd l f false (e.value f), BitVec.ofNat 64 (bar l)]
      ++ (coordVals c.rd l (e.coord f) (recordDims (record l))).map fun w => w.zeroExtend 64
  guardTraps (s.mismatch c (keyOf agents key)) <|
    let doers := s.performers c agents
    let held := doers.any fun a =>
      (recInScratch f && e.hasRec && s.partSaved (scrPart (recAddr f))) ||
        (s.issueBars e (record a.1) (bar a.1)).any fun b => s.partSaved (scrPart b)
    if held || s.tceLoad s.coreOfCur + doers.length > 64 then .error .hold
    else
      let new := doers.filterMap fun a => (s.newCmd f e c record a).map fun q => (s.handleLanes c a, q)
      let s := new.foldl (fun s q => s.acceptCmd (handleReg f.d) q.1 q.2) s
      let helpers := agents.filter fun a => (c.rd.thread a.1).helper
      let s := s.updGroup s.cur fun g =>
        helpers.foldl (fun g a => a.2.foldl (fun g m => g.setPair m (handleReg f.d) 9) g) g
      .ok (s.commitCur c)

/-- The issue of an engine command in its two passes (R247): the checks of every agent, then the waits for pending sources,
the coordinate registers among them. -/
def State.engineIssue (s : State) (op : Nat) (f : Fields) (e : EngForm) : Out :=
  s.finish <|
    match s.ctx? with
    | none => .ok s
    | some c =>
      let agents := c.engineAgents f
      let real := agents.filter fun a => !(c.rd.thread a.1).helper
      let recs := real.map fun a => (a.1, if e.hasRec then s.readRecord f a.1 else ([], []))
      let record (l : Nat) : List Byte := ((recs.find? fun r => r.1 = l).map fun r => r.2.1).getD []
      let regs (l : Nat) : List Nat := readRegs op f ++ coordRegs (e.coord f) (recordDims (record l))
      let traps := recs.flatMap fun r => s.enginePass op f e c r.1 r.2 ++ s.engineReads c r.1 (regs r.1)
      let waits (l : Nat) : List Nat :=
        if agents.any fun a => a.1 = l then (c.rd.thread l).waitsFor (regs l) else []
      if f.namesS then
        guardGroup c traps <|
          if agents.any fun a => !(waits a.1).isEmpty then .ok (s.parkUnit c (agents.flatMap fun a => waits a.1))
          else s.engineAccept f e record c agents
      else
        guardTraps traps <|
          s.withoutWaiting c waits fun s c =>
            s.engineAccept f e record c (agents.filter fun a => c.lanes.contains a.1)

/-- An operand field that a form does not have. -/
def noOpnd (_ : Fields) : Opnd := .zero

/-- XCOPY (R256). -/
def execXcopy (f : Fields) (s : State) : Out :=
  s.engineIssue 0xA0 f
    { kind := .copy, hasRec := true, addr := (·.a), wide := fun _ => false, coord := (·.b), value := noOpnd }

/-- XGATH (R257). -/
def execXgath (f : Fields) (s : State) : Out :=
  s.engineIssue 0xA1 f
    { kind := .gather, hasRec := true, addr := (·.a), wide := fun _ => false, coord := noOpnd, value := (·.b) }

/-- XSCAT (R257). -/
def execXscat (f : Fields) (s : State) : Out :=
  s.engineIssue 0xA2 f
    { kind := .scatter, hasRec := true, addr := (·.a), wide := fun _ => false, coord := noOpnd, value := (·.b) }

/-- XFILL (R258). -/
def execXfill (f : Fields) (s : State) : Out :=
  s.engineIssue 0xA3 f
    { kind := .fill, hasRec := true, addr := noOpnd, wide := fun _ => false, coord := (·.a), value := (·.b) }

/-- XPUB (R259). -/
def execXpub (f : Fields) (s : State) : Out :=
  s.engineIssue 0xA4 f
    { kind := .pub, hasRec := false, addr := (·.a), wide := fun f => varNum f = 1, coord := noOpnd, value := noOpnd }

/-- COLL (R261, R263). -/
def execColl (f : Fields) (s : State) : Out :=
  s.engineIssue 0xA5 f
    { kind := .coll, hasRec := true, addr := (·.a), wide := fun f => varNum f % 2 = 1, coord := (·.b), value := noOpnd }

/-- CSEQ (R266). -/
def execCseq (f : Fields) (s : State) : Out :=
  s.engineIssue 0xA6 f
    { kind := .cseq, hasRec := false, addr := (·.a), wide := fun _ => false, coord := noOpnd, value := (·.b) }

/-! ## The life of a command -/

/-- A running command by its number. -/
def State.running? (s : State) (id : Nat) : Option Cmd := s.cmds.find? fun c => c.id = id && decide (c.state = .running)

/-- The bytes of a range of the source stream, unless one of them cannot be read. -/
def State.readRange (s : State) (c : Cmd) (off : Nat) : Nat → Option (List Byte)
  | 0 => some []
  | n + 1 =>
    match s.readSrc c (s.srcAt c off), s.readRange c (off + 1) n with
    | .ok b, some bs => some (b :: bs)
    | _, _ => none

/-- The lookups of one source read, in the class of the command's partition (R79, R357, R365). DESIGN CHOICE
(notes/assumptions/97.md): one for each line it reaches; R79 counts the distinct addresses of a thread's issue, and how many a
read of up to 256 bytes makes the spec does not say. -/
def State.touchSources (s : State) (c : Cmd) (off len : Nat) : State :=
  let places := (List.range len).filterMap fun i =>
    match s.srcAt c (off + i) with
    | .glb va => match s.translate c.ctx va false with
      | .ok x => some ({ x with loc := x.loc.lineOf } : Xlate)
      | .error _ => none
    | _ => none
  (distinct places).foldl (fun s x => s.touch (s.tenantOf c.ctx) (c.core / 24) x false) s

/-- A range of a command's source can be read now: its places are known and not yet read, and no core part is away that
holds one (R75). -/
def State.readable (s : State) (c : Cmd) (off len : Nat) : Bool :=
  (List.range len).all fun i => c.knows (off + i) && !c.hasRead (off + i) 1 && s.srcThere c (s.srcAt c (off + i))

/-- ENGINE_SOURCE_READ (R251): an event reads `len` bytes, at most 256, of the command's source stream, in any order. -/
def execEngineSourceRead (id off len : Nat) (s : State) : Out :=
  match s.running? id with
  | none => .next s
  | some c =>
    if len = 0 || len > 256 || off + len > c.total || !s.readable c off len || !s.cmdThere c then .next s
    else
      match s.readRange c off len with
      | none => .next s
      | some bs =>
        .next ((s.touchSources c off len).updCmd id fun k =>
          { k with data := k.data.setBytes off bs, read := (off, len) :: k.read })

/-- The tiles a collective receives, in rank order; the member's own is what it has read. None while one is missing. -/
def State.setTiles (s : State) (c : Cmd) : Option (List (List Byte)) :=
  (c.shape.setOf s.fabric.devnum.toNat).mapM fun d =>
    if d = s.fabric.devnum.toNat then
      (if c.hasRead 0 c.shape.dense then some (c.bytesAt 0 c.shape.dense) else none)
    else (c.tiles.find? fun t => t.1 = d).map (·.2)

/-- Element `i` of a tile: its code (R264). -/
def tileElem (esz : Nat) (tile : List Byte) (i : Nat) : Nat := leAt tile (esz * i) esz

/-- One combination of a reduction in RTYPE (R264). -/
def reduceStep (rop : Nat) (rt : Ty) (acc x : Nat) : Nat :=
  if rt = .i32 || rt = .n32 then
    let a := intVal rt (BitVec.ofNat 64 acc)
    let b := intVal rt (BitVec.ofNat 64 x)
    wrap (if rop = 1 then a + b else if rop = 2 then max a b else min a b) 32
  else
    let fm := fmtOf rt
    if rop = 1 then roundVal fm 0 false 0 ((unpack fm acc).add 0 (unpack fm x)) else floatMinMax fm (rop = 2) acc x

/-- An element's code converted between floating-point types, or unchanged for integers. -/
def convElem (src dst : Ty) (x : Nat) : Nat :=
  if src = .i32 || src = .n32 then x else roundVal (fmtOf dst) 0 false 0 (unpack (fmtOf src) x)

/-- Element `i` of the reduced tile (R264). -/
def Shape.reduceElem (r : Shape) (tiles : List (List Byte)) (i : Nat) : Nat :=
  let xs := tiles.map fun t => convElem r.type r.rtype (tileElem r.esz t i)
  match xs with
  | [] => 0
  | x :: rest => convElem r.rtype r.type (rest.foldl (reduceStep r.rop r.rtype) x)

/-- What a collective without SHARD writes at its destination (R262). -/
def State.collWrites (s : State) (c : Cmd) (tiles : List (List Byte)) : List (Nat × Byte) :=
  let r := c.shape
  if r.rop = 0 then layBytes c.a.toNat (tiles.flatMap id)
  else
    let e := r.dense / r.esz
    let n := max 1 tiles.length
    let rank := (r.setOf s.fabric.devnum.toNat).findIdx fun d => d = s.fabric.devnum.toNat
    let (lo, cnt) := if r.scat then (rank * e / n, e / n) else (0, e)
    layBytes c.a.toNat ((List.range cnt).flatMap fun i => leBytes r.esz (r.reduceElem tiles (lo + i)))

/-- A FRAME copy's bytes written into its frame (R47, R256). -/
def State.writeFrame (s : State) (c : Cmd) (ws : List (Nat × Byte)) : State :=
  { s with windows := s.windows.map fun (w : FrameWin) =>
      if w.launch = c.launch && w.core = c.core then
        { w with bytes := ws.foldl (fun m x => m.setByte (4096 * c.a.toNat + x.1) x.2) w.bytes }
      else w }

/-- ENGINE_PUBLISH (R251, R92, R95): a command other than a HOLD command, an XPUB or a SHARD collective publishes and
arrives in one event, once its source is read and the order of its buffer allows it (R93). -/
def execEnginePublish (id : Nat) (s : State) : Out :=
  match s.running? id with
  | none => .next s
  | some c =>
    if c.hold || c.kind = .pub || (c.kind = .coll && c.shape.shard) || !c.hasRead 0 c.total || !s.cmdThere c
        || (s.cmdCheck c).isSome || !s.firstOnBuffer c then .next s
    else if c.kind = .coll then
      match s.setTiles c with
      | some tiles =>
        if c.matched then
          if s.capHolds c.ctx (s.isPublish c c.bar) then .next (s.capWait (s.isPublish c c.bar)) else
          let ws := s.collWrites c tiles
          .next ((s.publish (s.buffer c) ws).endCmd c 0 ws.length true)
        else .next s
      | none => .next s
    else if s.capHolds c.ctx (s.isPublish c c.bar) then .next (s.capWait (s.isPublish c c.bar))
    else
      let ws := s.cmdWrites c
      let s1 := if c.kind = .copy && c.var = 3 then s.writeFrame c ws else s.publish (s.buffer c) ws
      .next (s1.endCmd c 0 ws.length true)

/-- HOLD_SET_PUBLISH (R93, R94, R259): an XPUB publishes its set once every command of it has written; a set of which a
command failed is abandoned. -/
def execHoldSetPublish (id : Nat) (s : State) : Out :=
  match s.running? id with
  | none => .next s
  | some p =>
    let buf := s.buffer p
    let earlier := s.cmds.any fun q =>
      q.kind = .pub && q.id < p.id && decide (q.state = .running) && s.buffer q = buf
    if p.kind ≠ .pub || !s.cmdThere p || (s.cmdCheck p).isSome || earlier then .next s
    else
      let set := s.holdSet p
      let live := set.filter fun h => decide (h.state = .running)
      let first := (set.filter fun h => h.code ≠ 0).foldl (fun (b : Option Cmd) h =>
        match b with
        | none => some h
        | some k => if h.failAt < k.failAt then some h else some k) none
      match first with
      | some k => .next (s.failHeld p k.code)
      | none =>
        let q := (live.head?).getD p
        if !(live.all s.holdWritten) then .next s
        else if s.capHolds p.ctx (s.isPublish q q.bar) then .next (s.capWait (s.isPublish q q.bar))
        else
          let ws := live.flatMap fun h => s.cmdWrites h
          let s1 := if live.isEmpty then s else s.publish buf ws
          let s1 := live.foldl (fun s1 h => s1.endCmd h 0 (s.cmdBytes h) true) s1
          .next (s1.endCmd p 0 0 true)

/-- A context is scheduled on the device: a block of it is resident (R97), and its partition is not being reset (R358). -/
def State.ctxScheduled (s : State) (ctx : Nat) : Bool :=
  s.blocks.any fun b => decide (b.state = .resident) && !b.stopped && s.ctxOfLaunch b.launch = ctx

/-- A collective whose sender's backlog timeout has expired fails when its context resumes (R97, R407). -/
def State.lossLater (s : State) (c : Cmd) : Bool :=
  c.kind = .coll && s.knownLoss c = some 8 && !s.ctxScheduled c.ctx

/-- COMMAND_FAIL (R94, R250): the command fails on its record, group or destination, or on reading byte `pos` of its
source stream. Replay holds the failure back until its record is the next (R422). -/
def execCommandFail (id pos : Nat) (s : State) : Out :=
  match s.running? id with
  | none => .next s
  | some c =>
    if !s.cmdThere c || s.lossLater c then .next s
    else
      match s.cmdCheck c with
      | some k => .next (s.failHeld c k)
      | none =>
        if pos ≥ c.total || !s.readable c pos 1 then .next s
        else
          match s.readSrc c (s.srcAt c pos) with
          | .error k => .next (s.failHeld c k)
          | .ok _ => .next s

/-- COMMAND_CANCEL (R242): a command asked to cancel that has not published fails with CANCELLED. -/
def execCommandCancel (id : Nat) (s : State) : Out :=
  match s.running? id with
  | none => .next s
  | some c => if c.cancel && s.cmdThere c then .next (s.failHeld c 9) else .next s

/-! ## Collectives (R262 to R265) -/

/-- The members whose hashes a command holds cover the grid (R263). -/
def Cmd.allHashes (c : Cmd) : Bool :=
  (List.range c.shape.members).all fun l => c.hashes.any fun h => h.1 = c.shape.gorg + l

/-- A record is a collective match of a command (R420, R422). -/
def Cmd.isMatch (c : Cmd) (r : List Byte) : Bool :=
  leAt r 0 1 = 3 && leAt r 1 1 = c.ctx && leAt r 16 2 = c.shape.group && leAt r 20 4 = c.seq.toNat

/-- COLL_HASH_MATCH (R263): with all G hashes held, the command is matched, or fails with MISMATCH where two differ.
`innet`: every switch of its paths is in the job's trust domain, so a reduction runs in the network (R408). -/
def execCollHashMatch (id : Nat) (innet : Bool) (s : State) : Out :=
  match s.running? id with
  | none => .next s
  | some c =>
    if c.kind ≠ .coll || c.matched || !c.allHashes || !s.cmdThere c || (s.cmdCheck c).isSome then .next s
    else if c.hashes.any fun h => c.shape.hasMember h.1 && h.2 ≠ c.shape.hash then .next (s.failHeld c 5)
    else if s.capHolds c.ctx c.isMatch then .next (s.capWait c.isMatch)
    else
      let s1 := s.updCmd id fun k => { k with matched := true, innet := innet && c.shape.rop ≠ 0 }
      let s1 := s1.capAppend 3 c.ctx 0
        (leBytes 2 c.shape.group ++ [0, 0] ++ leBytes 4 c.seq.toNat ++ leBytes 4 (s.blkIdxOf c.block))
      .next (s1.capMatch c.ctx c.isMatch)

/-- The code with which the shard of a device is known to fail (R265). -/
def State.shardLoss (s : State) (c : Cmd) (dev : Nat) : Option Nat :=
  ((s.ctxs[c.ctx]?).bind fun x =>
    x.lostSeq.find? fun l => l.1 = c.shape.group && l.2.1 = c.seq && l.2.2.2 = dev).map fun l => l.2.2.1

/-- A shard published (code 0) or failed, with its arrival; the last one completes the command (R262). -/
def State.endShard (s : State) (c : Cmd) (j code : Nat) (ws : List (Nat × Byte)) : State :=
  let bars := s.barsOf c
  let s1 := if code = 0 then s.publish (s.buffer c) ws else s
  let shards := c.shards ++ [(j, code)]
  let s1 := s1.updCmd c.id fun k => { k with shards }
  let s1 := s1.capPublish c (bars.getD j 0) code ws.length
  let s1 :=
    if shards.length < bars.length then s1
    else
      let first := ((shards.find? fun x => x.2 ≠ 0).map (·.2)).getD 0
      s1.completeCmd c first ((shards.filter fun x => x.2 = 0).length * c.shape.dense)
  s1.cmdArrives c (bars.getD j 0) code ws.length

/-- COLL_SHARD_PUBLISH (R262): the tile of rank `j` publishes on its own barrier, or that shard fails where its member
has failed. -/
def execCollShardPublish (id j : Nat) (s : State) : Out :=
  match s.running? id with
  | none => .next s
  | some c =>
    let set := c.shape.setOf s.fabric.devnum.toNat
    if c.kind ≠ .coll || !c.shape.shard || !s.cmdThere c || (s.cmdCheck c).isSome || j ≥ set.length
        || c.shards.any fun x => x.1 = j then .next s
    else
      let d := set.getD j 0
      match s.shardLoss c d with
      | some k =>
        let mine := isPublished c.ctx (s.blkIdxOf c.block) ((s.barsOf c).getD j 0) k
        if s.capHolds c.ctx mine then .next (s.capWait mine) else .next (s.endShard c j k [])
      | none =>
        let tile : Option (List Byte) :=
          if d = s.fabric.devnum.toNat then
            (if c.hasRead 0 c.shape.dense then some (c.bytesAt 0 c.shape.dense) else none)
          else (c.tiles.find? fun t => t.1 = d).map (·.2)
        match tile with
        | none => .next s
        | some bs =>
          let bar := (s.barsOf c).getD j 0
          if !c.matched || !s.firstOnBuffer c then .next s
          else if s.capHolds c.ctx (s.isPublish c bar) then .next (s.capWait (s.isPublish c bar))
          else .next (s.endShard c j 0 (layBytes (c.a.toNat + j * c.shape.dense) bs))

/-- A context's group by its id: the entry's number. -/
def State.groupEntry (s : State) (ctx gid : Nat) : Option Nat := (s.ctxs[ctx]?).bind fun x => x.entryFor gid

/-- A running collective of a context. -/
def State.collOf (s : State) (ctx gid : Nat) (seq : Word) : Option Cmd :=
  s.cmds.find? fun c =>
    decide (c.state = .running) && c.kind = .coll && c.ctx = ctx && c.shape.group = gid && c.seq = seq && c.entry < 32

/-- The failure of member `dev` of command `seq` noted for this member's command (R97, R265). -/
def State.noteLoss (s : State) (ctx gid : Nat) (seq : Word) (code dev : Nat) : State :=
  s.updCtx ctx fun x => { x with lostSeq := x.lostSeq ++ [(gid, seq, code, dev)] }

/-- This member's command `seq` is still to be issued. -/
def State.unissued (s : State) (ctx gid : Nat) (seq : Word) : Bool :=
  match s.ctxs[ctx]? with
  | none => false
  | some x =>
    match x.entryFor gid with
    | none => true
    | some e => (seq - (x.groups.getD e ⟨false, false, 0, 0, 0, 0, 0⟩).next).toNat < 2 ^ 31

/-- COLL_MEMBER_FAILURE (R265): the CE learns that member `dev`'s command `seq` has failed; this member's matching
command fails with ABANDONED, with SHARD only the shards from that member. -/
def execCollMemberFailure (ctx gid : Nat) (seq : Word) (dev : Nat) (s : State) : Out :=
  match s.collOf ctx gid seq with
  | some c =>
    if !c.shape.hasMember dev || dev = s.fabric.devnum.toNat then .next s
    else if c.shape.shard then .next (s.noteLoss ctx gid seq 6 dev)
    else if s.cmdThere c then .next (s.failHeld c 6) else .next s
  | none =>
    if s.unissued ctx gid seq && dev ≠ s.fabric.devnum.toNat then .next (s.noteLoss ctx gid seq 6 dev) else .next s

/-- COLL_MEMBER_LEAVES (R265): member `dev` leaves the group; its incomplete commands fail with PEERLOST and it closes. -/
def execCollMemberLeaves (ctx gid dev : Nat) (s : State) : Out :=
  match s.groupEntry ctx gid with
  | none => .next s
  | some e =>
    let mine := s.cmds.filter fun c =>
      decide (c.state = .running) && c.kind = .coll && c.ctx = ctx && c.entry = e && c.shape.group = gid
    match mine.find? fun c => s.failWaits c 7 with
    | some c => .next (s.capWait (s.failRecord c 7))
    | none =>
      let s1 := mine.foldl (fun s c => s.failCmd c 7 .none) s
      .next (s1.updCtx ctx fun x => { x with groups := updAt x.groups e fun g =>
        if g.closed then g else { g with closed := true, lost := BitVec.ofNat 32 dev } })

/-- A flit goes to this member's command, or waits for it to be issued (R263). -/
def State.deliver (s : State) (ctx : Nat) (f : Flit) : State :=
  match s.collOf ctx f.gid f.seq with
  | some c => s.updCmd c.id fun k => { k with
      hashes := if k.hashes.any fun h => h.1 = f.dev then k.hashes else k.hashes ++ [(f.dev, f.hash)]
      tiles := if f.tile.isEmpty then k.tiles else (f.dev, f.tile) :: k.tiles.filter fun t => t.1 ≠ f.dev }
  | none =>
    if s.unissued ctx f.gid f.seq then s.updCtx ctx fun x => { x with inbox := x.inbox ++ [f] } else s

/-- A flit of a context cannot reach its command: the context is not scheduled, its group is not open (R97, R406), or a part
that the command needs is away (R320, R341). -/
def State.flitHeld (s : State) (ctx gid : Nat) (seq : Word) : Bool :=
  !s.ctxScheduled ctx || (s.groupEntry ctx gid).isNone
    || (((s.collOf ctx gid seq).map fun c => !s.cmdThere c).getD false)

/-- A flit must go to its context's backlog ring: it cannot reach its command, or flits already wait there (R97). -/
def State.backlogged (s : State) (ctx gid : Nat) (seq : Word) : Bool :=
  s.flitHeld ctx gid seq || !(((s.ctxs[ctx]?).map fun x => decide (x.used = 0)).getD true)

/-- Flits of one collective and one member. -/
def Flit.sameAs (f g : Flit) : Bool := f.gid = g.gid && f.seq = g.seq && f.dev = g.dev

/-- Every flit of it has entered the ring. -/
def Flit.whole (f : Flit) : Bool := f.held + f.gone ≥ f.size

/-- The flits that a ring has room for: 14 for each 4 KiB of an enabled one (R407). -/
def CtxBlock.room (x : CtxBlock) : Nat := if x.bv then 14 * x.blSize.toNat - x.used else 0

/-- As many of a sender's flits as the ring has room for go into it, behind those of the sender that are there (R97, R407). -/
def CtxBlock.enqueue (x : CtxBlock) (f : Flit) : CtxBlock :=
  let add (g : Flit) : Flit := { g with held := g.held + min x.room (g.size - g.held - g.gone) }
  if x.flits.any f.sameAs then { x with flits := x.flits.map fun g => if f.sameAs g then add g else g }
  else if x.room = 0 then x
  else { x with flits := x.flits ++ [add f] }

/-- Every flit of a sender stands in the ring, or has been replayed from it. -/
def CtxBlock.taken (x : CtxBlock) (f : Flit) : Bool := x.flits.any fun g => f.sameAs g && g.whole

/-- A sender is stalled from the first flit that it cannot deliver (R407). -/
def CtxBlock.stall (x : CtxBlock) (f : Flit) (now : Nat) : CtxBlock :=
  if x.stalls.any fun k => k.1 = f.gid && k.2.1 = f.seq && k.2.2.1 = f.dev then x
  else { x with stalls := x.stalls ++ [(f.gid, f.seq, f.dev, now)] }

/-- A sender whose flit is delivered is stalled no more. -/
def CtxBlock.unstall (x : CtxBlock) (f : Flit) : CtxBlock :=
  { x with stalls := x.stalls.filter fun k => !(k.1 = f.gid && k.2.1 = f.seq && k.2.2.1 = f.dev) }

/-- A flit's bytes written into its ring in HBM (R97). The spec gives no layout, so a freely chosen 4 KiB unit of the ring
takes free values (notes/assumptions/19.md). -/
def State.writeBacklog (s : State) (ctx : Nat) : State :=
  match s.ctxs[ctx]? with
  | none => s
  | some x =>
    let s := s.drawFor ctx
    let k := Config.freeIndex s.fresh ctx % max 1 x.blSize.toNat
    s.scribble (hbmWords (x.blBase.toNat + 4096 * k) 4096)

/-- COLLECTIVE_FLIT_ARRIVAL (R97, R407): the hash and, when it is not empty, the tile of member `dev` for command `seq`
of a group arrive for a context: to its command, or to the backlog ring in arrival order, as far as it has room. A full
ring, or none, stalls the sender, who keeps the rest; the event comes again for it. -/
def execCollectiveFlitArrival (ctx gid : Nat) (seq : Word) (dev hash : Nat) (tile : List Byte) (s : State) : Out :=
  let f : Flit := { gid, seq, dev, hash, tile, held := 0, gone := 0 }
  if s.backlogged ctx gid seq then
    let s1 := if ((s.ctxs[ctx]?).map fun x => decide (0 < x.room)).getD false then s.writeBacklog ctx else s
    .next (s1.updCtx ctx fun x =>
      let y := x.enqueue f
      if y.taken f then y.unstall f else y.stall f s.uptime)
  else
    .next ((s.updCtx ctx fun x => { x.unstall f with flits := x.flits.filter fun g => !f.sameAs g }).deliver ctx f)

/-- What replay leaves of a ring: a sender that still keeps flits of a collective goes on where it stopped (R97, R407). -/
def CtxBlock.replayed (x : CtxBlock) (f : Flit) : CtxBlock :=
  if f.whole then { x with flits := x.flits.erase f }
  else { x with flits := x.flits.map fun g => if g = f then { g with held := 0, gone := g.gone + g.held } else g }

/-- BACKLOG_REPLAY (R97): when the context has resumed, the oldest flits of the ring are replayed. The tile is whole once its
last flit has come. -/
def execBacklogReplay (ctx : Nat) (s : State) : Out :=
  match (s.ctxs[ctx]?).bind fun x => x.flits.find? fun f => decide (0 < f.held) with
  | none => .next s
  | some f =>
    if s.flitHeld ctx f.gid f.seq then .next s
    else .next ((s.updCtx ctx fun x => x.replayed f).deliver ctx (if f.whole then f else { f with tile := [] }))

/-- Command `seq` of a group has a sender stalled in the context for its BLTO, which counts from the first flit that the
sender could not deliver (R407). -/
def CtxBlock.overdue (x : CtxBlock) (gid : Nat) (seq : Word) (now : Nat) : Bool :=
  x.stalls.any fun k => k.1 = gid && k.2.1 = seq && k.2.2.2 + 1000 * x.blTo ≤ now

/-- BACKLOG_TIMEOUT (R97, R407): BLTO has expired for a stalled sender. `own`: this device's command `seq` is the stalled
sender's, whose receiver has counted its BLTO, and fails with BACKLOG; else the context is the receiver, whose matching
command fails with BACKLOG when the context resumes. -/
def execBacklogTimeout (own : Bool) (ctx gid : Nat) (seq : Word) (s : State) : Out :=
  if own then
    match s.collOf ctx gid seq with
    | some c => if s.cmdThere c then .next (s.failHeld c 8) else .next s
    | none => .next s
  else if ((s.ctxs[ctx]?).map fun x => x.overdue gid seq s.uptime).getD false then
    .next ((s.noteLoss ctx gid seq 8 s.fabric.devnum.toNat).updCtx ctx fun x => { x with
      stalls := x.stalls.filter fun k => !(k.1 = gid && k.2.1 = seq) })
  else .next s

/-- REDUCTION_SWITCH_LEAVES (R408): a switch that holds part of the command's reduction leaves the trust domain; the
partial result is discarded and the command is reduced at the endpoints. -/
def execReductionSwitchLeaves (id : Nat) (s : State) : Out :=
  match s.running? id with
  | some c => if c.innet then .next (s.updCmd id fun k => { k with innet := false }) else .next s
  | none => .next s

end Sys2Proof.Machine
end

