-- ==== Sys2Proof/Machine/Matrix.lean ====
section
/-!
DEFINITION. The matrix instructions BLD to CBLD (R267 to R280), their completion (R69, R70), and the accumulator
allocator with its evictions, spills and returns (R274, R275, R340).
-/

namespace Sys2Proof.Machine

open Sys2Proof

/-! ## Where a group's matrix unit stands -/

/-- The matrix unit of an issuing group: its block, core part, partition and launch. -/
structure Home where
  blk  : Block
  grp  : Nat
  pnum : Nat
  part : Part
  loc  : Nat
  run  : Launch

/-- The sector of the partition (R17). -/
def Home.sector (h : Home) : Nat := h.loc / 4

/-- The home of group `g` of block `b`. -/
def State.homeOf (s : State) (b g : Nat) : Option Home :=
  match s.block? b with
  | none => none
  | some x =>
    match x.part (x.partOf g), s.launch? x.launch with
    | some p, some l => some { blk := x, grp := g, pnum := x.partOf g, part := p, loc := x.partitionOf g, run := l }
    | _, _ => none

/-- The home of the current issuer. -/
def State.home (s : State) : Option Home :=
  match s.cur with
  | .mgmt => none
  | .unit b g _ => s.homeOf b g

/-- The lanes that hold a thread (R267). -/
def Group.holders (g : Group) : List Nat := (List.range 32).filter fun l => (g.thread l).live

/-- The `n` V registers from an operand on. -/
def rowFrom (o : Opnd) (n : Nat) : List Nat := (List.range n).map fun i => o.vNum + i

/-- The contents of a row of registers. -/
def Thread.row (t : Thread) (regs : List Nat) : List Word := regs.map t.reg

/-! ## Checks -/

/-- ACCESS of a matrix form: a value that names no slot or granule stands as the address, kind 7
(notes/assumptions/30.md). -/
def mxAccess (rank lane x : Nat) : Trap := mkTrap .access rank lane (x % 2 ^ 52 + 7 * 2 ^ 52)

/-- The granules of a sector that the group's block holds and no ACFREE of the group has given up. -/
def Home.holds (h : Home) (q : List MxOp) (g : Nat) : Bool :=
  h.part.held.contains (h.sector, g) &&
    !(q.any fun o => match o.instr with | .acfree _ => o.base ≤ g && g < o.base + o.src | _ => false)

/-- ACCESS at the first of `n` granules from `b` on that is not held (R269). -/
def Home.tileTrap (h : Home) (q : List MxOp) (lane b n : Nat) : List Trap :=
  (((List.range n).find? fun i => !h.holds q (b + i)).map fun i => mxAccess 16 lane (b + i)).toList

/-- PIPE code 6 at the first poisoned word of an array of the core that the instruction reads (R415): `key` is the
location kind, `num` the number shown in DETAIL [15:8]. -/
def State.wordPoison (s : State) (h : Home) (key lane num : Nat) (reads : Nat → Bool) : List Trap :=
  if s.rel.poison.any fun k =>
      k.1 = key && markCore k.2 = h.part.core && (key = 6 || markSlot k.2 = h.part.slot) && reads (markWord k.2) then
    [mkTrap .pipe 17 lane (6 + num % 2 ^ 8 * 2 ^ 8 + key % 10 * 2 ^ 48)]
  else []

/-- Poisoned ACM words that an instruction reads: columns `lo` to `lo + n - 1` of the tile from granule `b` on, in the rows of
lanes that hold a thread (R269, R415, R417). -/
def State.acmPoison (s : State) (h : Home) (lane b lo n : Nat) (rows : List Nat) : List Trap :=
  ((List.range ((lo + n + 31) / 32)).drop (lo / 32)).flatMap fun i =>
    s.wordPoison h 6 lane (b + i) fun w =>
      w / 1024 = h.sector * 128 + (b + i) && rows.contains (w % 1024 / 32) &&
        lo ≤ 32 * i + w % 32 && 32 * i + w % 32 < lo + n

/-- Poisoned words of columns 0 to `n - 1` of a B slot of a partition, of which an operation reads `words` each (R268,
R270). -/
def State.slotPoison (s : State) (h : Home) (lane slot n words : Nat) : List Trap :=
  s.wordPoison h 7 lane slot fun w => w / 4096 = 4 * h.loc + slot && w % 4096 < 16 * n && w % 16 < words

/-- Poisoned words of the codebook, which the model numbers apart from the B slots (notes/assumptions/24.md). -/
def State.bookPoison (s : State) (h : Home) (lane : Nat) : List Trap := s.wordPoison h 17 lane 0 fun w => w < 264

/-- A column failure of the partition's array (R267, R409, R410): PIPE code 4 for good once no spare is left, and code 3
where a disagreement stands. -/
def State.arrayTrap (s : State) (h : Home) (lane : Nat) : List Trap :=
  let here := h.part.core * 16 + h.loc
  if s.rel.noSpare.contains here then [mkTrap .pipe 3 lane 4]
  else ((s.checkerCode [3]).map fun k => mkTrap .pipe 3 lane k).toList

/-! ## Issue (R245, R267) -/

/-- A matrix form run for its group: the row registers `rows` of every thread and the 32-bit sources of the low lane are
waited for (R37); `slotLanes`: B is read per quarter; `counted`: the form takes the mx counter (R69). -/
def State.matrixForm (s : State) (op : Nat) (f : Fields) (rows : List Nat) (quarters counted : Bool)
    (run : State → Ctx → Home → Except Stop State) : Out :=
  s.finish <|
    match s.ctx?, s.home with
    | some c, some h =>
      let low := c.lowLane
      let on := (c.rd.thread low).guard f
      let firsts : List Nat := if quarters then
          (List.range 4).filterMap fun q => c.rd.holders.find? fun l => l / 8 = q
        else []
      let regs (l : Nat) : List Nat :=
        rows ++ (if l = low then readRegs op f else []) ++ (if firsts.contains l then opndRegs (formOf op f).b f.b else [])
      let cmds := if on then c.lanes.flatMap fun l => (c.rd.thread l).waitsFor (regs l) else []
      if !cmds.isEmpty then .ok (s.parkUnit c (distinct cmds))
      else
        guardGroup c (if on then
            c.lanes.flatMap (fun l => (c.rd.thread l).handleTrap l (regs l) ++ s.poisonTrap l (regs l))
              ++ s.arrayTrap h low
          else []) <|
          if !on then .ok (s.commit c c.g (fun _ => .next) true 0)
          else if counted && c.rd.holders.any fun l => (c.rd.thread l).mx ≥ 15 then .error .hold
          else run s c h
    | _, _ => .ok s

/-- An operation of the group as it stands at issue; `rows` as in `matrixForm`. -/
def mxOp (c : Ctx) (i : Instr) (rows : List Nat) (counted : Bool) : MxOp :=
  { instr := i, lanes := maskOf c.rd.holders, counted
    rows := (List.range 32).map fun l => if (c.rd.thread l).live then (c.rd.thread l).row rows else []
    slots := [], base := 0, src := 0, meet := 0, bdata := .empty, ready := true, book := [], zs := [], lost := [], outs := [] }

/-- The group with an operation queued and, where it counts, its threads' mx raised. -/
def Group.queueMx (g : Group) (o : MxOp) : Group :=
  let g := if o.counted then (lanesOf o.lanes).foldl (fun g l => g.updThread l fun t => { t with mx := t.mx + 1 }) g else g
  { g with mxq := g.mxq ++ [o] }

/-- The operation queued, and the unit moved on. -/
def State.commitMx (s : State) (c : Ctx) (o : MxOp) : State :=
  s.commit c ((s.curGroup c).queueMx o) (fun _ => .next) true 0

/-- A 32-bit source of the low lane. -/
def State.low32 (s : State) (c : Ctx) (f : Fields) (o : Opnd) : Nat := (s.operand c.rd c.lowLane f false o).toNat

/-! ## BLD (R271) -/

/-- `n` 8-byte LDS events from a scratch address on: the bytes, and the state after them (R271, R280). -/
def State.readWords (s : State) (part off : Nat) : Nat → List Byte × State
  | 0 => ([], s)
  | n + 1 =>
    let (x, s) := s.readWords part off n
    let p := Place.scr part (off + 8 * n)
    (x ++ leBytes 8 (s.readPlace p 8), s.afterRead p 8)

/-- The scratch range of a BLD or CBLD: its place, or the first trap of R222. -/
def State.mxScratch (s : State) (lane a size align : Nat) : Except Trap (Nat × Nat) :=
  let d := a % 2 ^ 52 + 4 * 2 ^ 52
  if a % align ≠ 0 then .error (mkTrap .misalign 18 lane d)
  else
    match s.scratchOk a size with
    | some p => .ok p
    | none => .error (mkTrap .access 19 lane d)

/-- PIPE code 5 at the first poisoned 64-byte unit of a scratch range (R415). -/
def State.scratchPoisons (s : State) (lane part off size : Nat) : List Trap :=
  (List.range (size / 64 + 1)).flatMap fun i =>
    if off / 64 * 64 + 64 * i < off + size then s.poisonRead lane (.scr part (off / 64 * 64 + 64 * i)) 64 else []

/-- BLD, scratch form (R271). -/
def execBld (f : Fields) (s : State) : Out :=
  s.matrixForm 0xB0 f [] false false fun s c h =>
    let low := c.lowLane
    let slot := s.low32 c f f.b
    let n := f.immBits 16 8
    if slot > 3 then .error (.trap (mxAccess 15 low slot))
    else
      match s.mxScratch low (s.low32 c f f.a) (64 * n) 64 with
      | .error t => .error (.trap t)
      | .ok (p, o) =>
        guardTraps (s.scratchPoisons low p o (64 * n)) <|
          if s.partSaved p then .error .hold
          else
            let (bytes, s) := s.readWords p o (8 * n)
            let m := { mxOp c (.bld f) [] false with
              slots := [4 * h.loc + slot], base := f.immBits 7 0, src := n, bdata := Memory.empty.setBytes 0 bytes }
            .ok (s.commitMx c m)

/-- BLD, register form (R271). -/
def execBldReg (f : Fields) (s : State) : Out :=
  let rows := rowFrom f.a 16
  s.matrixForm 0xB0 f rows false true fun s c h =>
    let slot := s.low32 c f f.b
    if slot > 3 then .error (.trap (mxAccess 15 c.lowLane slot))
    else .ok (s.commitMx c { mxOp c (.bldReg f) rows true with slots := [4 * h.loc + slot], base := f.immBits 7 0 })

/-! ## MMAQ and MMAS (R272, R273) -/

/-- The B type, N and HK of field I. -/
def mxTb (f : Fields) : Ty := Ty.ofCode (BitVec.ofNat 4 (f.immBits 15 12))
def mxN (f : Fields) : Nat := f.immBits 10 0
def mxHalf (f : Fields) : Bool := f.imm.getLsbD 11

/-- K of a type pair (R268), halved with HK. -/
def mxK (f : Fields) : Nat :=
  let k := match f.ty, mxTb f with
    | .b16, _ => 32
    | .f16, _ => 32
    | .e2m1, _ => 128
    | _, .cb2 => 128
    | _, _ => 64
  if mxHalf f then k / 2 else k

/-- The words of a slot column that an operation reads (R268). -/
def mxWords (f : Fields) : Nat := (if mxTb f = .cb2 then 8 else 16) / if mxHalf f then 2 else 1

/-- The A registers of a lane. -/
def mxRows (f : Fields) : List Nat := rowFrom f.a ((matrixRegs f.ty (mxTb f)).getD 0)

/-- The granules of a tile of `n` columns. -/
def mxGranules (n : Nat) : Nat := (n + 31) / 32

/-- MMAQ (R272). -/
def execMmaq (f : Fields) (s : State) : Out :=
  s.matrixForm 0xB1 f (mxRows f) true true fun s c h =>
    let low := c.lowLane
    let first (q : Nat) : Option Nat := c.rd.holders.find? fun l => l / 8 = q
    let slot (q : Nat) : Nat := ((first q).map fun l => (s.operand c.rd l f false f.b).toNat).getD 0
    let bad := ((List.range 4).filter fun q => slot q > 3).map fun q => mxAccess 15 ((first q).getD 0) (slot q)
    let base := s.low32 c f f.c
    let n := mxN f
    let cb := decide (mxTb f = .cb2)
    let g := mxGranules n
    guardTraps (bad ++ h.tileTrap c.g.mxq low base g ++ s.acmPoison h low base 0 n c.rd.holders
        -- a quarter that holds no thread reads no slot
        ++ (List.range 4).flatMap (fun q => ((first q).map fun l => s.slotPoison h l (slot q) n (mxWords f)).getD [])
        ++ if cb then s.bookPoison h low else []) <|
      .ok (s.commitMx c { mxOp c (.mmaq f) (mxRows f) true with
        slots := (List.range 4).map slot, base
        book := if cb then h.part.codebook.bytes 0 1056 else [] })

/-- What the four groups of an MMAS have in common (R273): ta, tb, N and HK. -/
def sameMmas (f k : Fields) : Bool :=
  f.ty = k.ty && f.immBits 15 0 = k.immBits 15 0

/-- The fields of an MMAS operation. -/
def MxOp.mmasFields (o : MxOp) : Option Fields := match o.instr with | .mmas f => some f | _ => none

/-- The lanes of a group parked at an MMAS rendezvous. -/
def Group.mmasParked (g : Group) (sector tag : Nat) : List Nat :=
  (List.range 32).filter fun l => (g.thread l).status = .parked (.mmas sector tag)

/-- A trap raised for a group of the same rendezvous: its threads stand ready at their MMAS again, and its event names
them (R273, R307). -/
def State.mmasTrap (s : State) (b : Nat) (a : MmasArrival) : State :=
  let ls := match s.groupOf (.unit b a.group 0) with | some g => g.mmasParked a.sector a.tag | none => []
  let s1 := s.wake (.unit b a.group 0) ls fun _ t => t
  let u := match s1.groupOf (.unit b a.group 0) with
    | some g => (g.units.findIdx? fun u => u.lanes.toNat % 2 ^ 32 ≠ 0 && ls.all fun l => u.lanes.getLsbD l).getD 0
    | none => 0
  { ({ s1 with cur := .unit b a.group u }).takeTrap (mxAccess 20 (ls.headD 0) a.tag) with cur := s.cur }

/-- The rendezvous of an MMAS (R273): the arrival parks the group; the fourth queues the operation in all four, or traps
in all four where their forms differ. -/
def State.mmasArrive (s : State) (c : Ctx) (h : Home) (a : MmasArrival) (f : Fields) : Except Stop State :=
  let mates := h.blk.mmas.filter fun x => x.part = a.part && x.sector = a.sector && x.tag = a.tag
  let rest := h.blk.mmas.filter fun x => !(x.part = a.part && x.sector = a.sector && x.tag = a.tag)
  let low := c.lowLane
  if mates.any fun x => x.place = a.place then .error (.trap (mxAccess 20 low a.tag))
  else if mates.length < 3 then
    let s := s.updBlock h.blk.id fun x => { x with mmas := x.mmas ++ [a] }
    .ok (s.commit c (s.curGroup c) (fun _ => .park (.mmas a.sector a.tag)) false 0)
  else
    let same := mates.all fun x => match x.op.mmasFields with | some k => sameMmas f k | none => false
    let s := s.updBlock h.blk.id fun x => { x with mmas := rest }
    if same then
      let (id, s) := s.newId
      -- the three parked groups take the operation and move on, then the arriving one
      let s := mates.foldl (fun s x =>
        let iss := Issuer.unit h.blk.id x.group 0
        let ls := match s.groupOf iss with | some g => g.mmasParked x.sector x.tag | none => []
        (s.updGroup iss fun g => g.queueMx { x.op with meet := id, ready := false }).wake iss ls fun _ t => t.advance) s
      .ok (s.commitMx c { a.op with meet := id, ready := false })
    else
      .ok ((mates.foldl (fun (s : State) x => s.mmasTrap h.blk.id x) s).takeTrap (mxAccess 20 low a.tag))

/-- MMAS (R273). -/
def execMmas (f : Fields) (s : State) : Out :=
  s.matrixForm 0xB2 f (mxRows f) false true fun s c h =>
    let low := c.lowLane
    let slot := s.low32 c f f.b
    let base := s.low32 c f f.c
    let n := mxN f
    let cb := decide (mxTb f = .cb2)
    let g := mxGranules n
    guardTraps ((if slot > 3 then [mxAccess 15 low slot] else []) ++ h.tileTrap c.g.mxq low base g
        ++ s.acmPoison h low base 0 n c.rd.holders ++ s.slotPoison h low slot (n / 4) (mxWords f) ++ if cb then s.bookPoison h low else []) <|
      let op := { mxOp c (.mmas f) (mxRows f) true with
        slots := [slot], base, book := if cb then h.part.codebook.bytes 0 1056 else [] }
      s.mmasArrive c h
        { part := h.pnum, sector := h.sector, tag := f.immBits 23 16, place := h.loc % 4, group := h.grp, op } f

/-! ## The accumulator allocator (R274, R275, R340) -/

/-- The core a part's accumulators stand in, or are to return to (R322). -/
def Part.acmCore (p : Part) : Nat :=
  match p.state with
  | .restoring col => coreAt col (layerOf p.core)
  | _ => p.core

/-- The core of a request. -/
def State.reqCore (s : State) (r : AcmReq) : Nat :=
  (((s.block? r.block).bind fun x => x.part r.part).map Part.acmCore).getD 0

/-- Granules of a sector of a core that are not free: held by a part, or still being spilled from one. -/
def State.acmTaken (s : State) (core sector : Nat) (spilling : Bool) : List Nat :=
  s.blocks.flatMap fun b => b.parts.flatMap fun p =>
    (if p.acmCore = core then (p.held.filter fun x => x.1 = sector).map (·.2) else [])
      ++ if spilling && p.core = core then (p.spilled.filter fun e => e.1 = sector && !e.2.2).flatMap (·.2.1) else []

/-- The lowest run of `n` granules none of which is taken (R274). -/
def acmRun (taken : List Nat) (n : Nat) : Option Nat :=
  (List.range (129 - n)).find? fun b => (List.range n).all fun i => !taken.contains (b + i)

/-- A request can be met when these granules are taken. -/
def AcmReq.fits (r : AcmReq) (taken : List Nat) : Bool :=
  match r.exact with
  | some gs => gs.all fun g => !taken.contains g
  | none => (acmRun taken r.count).isSome

/-- A request that waits at a sector of a core: its part stands there, or is to return there (R320, R322). -/
def State.reqWaits (s : State) (core sector : Nat) (r : AcmReq) : Bool :=
  r.sector = sector && s.reqCore r = core &&
    (((s.block? r.block).bind fun x => x.part r.part).map fun p => decide (p.state ≠ .saved)).getD false

/-- The waiting request of a sector that is served next: the oldest block's, in issue order (R275). -/
def State.oldestReq (s : State) (core sector : Nat) : Option AcmReq :=
  (s.acmReqs.filter (s.reqWaits core sector)).foldl (fun (m : Option AcmReq) r =>
    match m with
    | none => some r
    | some x => if r.age < x.age || (r.age = x.age && r.id < x.id) then some r else some x) none

/-- Granules given to a part. Contents that an eviction or a save has left in them are not stated: they are free values,
unless the part's own contents return (R275). -/
def State.giveGranules (s : State) (b part core sector : Nat) (gs : List Nat) (fill : Bool) : State :=
  let s := s.drawForBlock b
  let left := gs.filter fun g => s.acmLeft.contains (core, sector, g)
  let s1 := s.updPart b part fun p =>
    { p with
      held := p.held ++ gs.map fun g => (sector, g)
      acm := if fill then (left.zipIdx).foldl (fun m x => (List.range 512).foldl (fun m i =>
          m.write (sector * 2 ^ 19 + x.1 * 4096 + 8 * i) 8 (Config.freeValue (s.fresh + 512 * x.2 + i)).toNat) m) p.acm
        else p.acm }
  { s1 with
    fresh := s.fresh + 512 * left.length
    acmLeft := s.acmLeft.filter fun x => !(x.1 = core && x.2.1 = sector && gs.contains x.2.2) }

/-- An ACFREE of the group is still queued: an ACALLOC behind it waits its turn, so that it sees those granules free
(R267). -/
def Group.freeing (g : Group) : Bool := g.mxq.any fun o => match o.instr with | .acfree _ => true | _ => false

/-- ACALLOC (R274). -/
def execAcalloc (f : Fields) (s : State) : Out :=
  s.matrixForm 0xB3 f [] false false fun s c h =>
    let low := c.lowLane
    let n := s.low32 c f f.a
    let held := (h.part.held.filter fun x => x.1 ≠ h.sector || h.holds c.g.mxq x.2).length
    if n = 0 || n > 128 then .error (.trap (mxAccess 15 low n))
    else if held + n > h.run.acmCeil then
      .error (.trap (mkTrap .acmCeil 16 low (n % 2 ^ 8 + held % 2 ^ 8 * 2 ^ 8 + h.run.acmCeil % 2 ^ 8 * 2 ^ 16)))
    else if c.g.freeing then .error .hold
    else
      let older := s.acmReqs.any fun r =>
        s.reqWaits h.part.core h.sector r && (r.age < h.blk.age || r.block = h.blk.id)
      match (if older then none else acmRun (s.acmTaken h.part.core h.sector true) n) with
      | some b =>
        let s := s.giveGranules h.blk.id h.pnum h.part.core h.sector ((List.range n).map (b + ·)) true
        .ok (s.commit c ((s.curGroup c).writeDst low f.d false (BitVec.ofNat 64 b)) (fun _ => .next) true 0)
      | none =>
        let (id, s) := s.newId
        let dst := match f.d with | .s r => some r.val | _ => none
        let s := { s with acmReqs := s.acmReqs ++ [
          ({ id, block := h.blk.id, age := h.blk.age, part := h.pnum, sector := h.sector, exact := none, count := n
             group := h.grp, dst } : AcmReq)] }
        .ok (s.commit c (s.curGroup c) (fun _ => .park (.acm id)) false 0)

/-- The S registers with the first granule in the destination of a request, if it has one (R56). -/
def setOpt (s : List Word) (d : Option Nat) (x : Word) : List Word :=
  match d with
  | some n => setAt s n x
  | none => s

/-- A request met: its granules are the part's, and an ACALLOC's group has its base and moves on (R274, R275). -/
def State.acmGrant (s : State) (core sector : Nat) (r : AcmReq) : State :=
  let s1 := { s with acmReqs := s.acmReqs.filter fun x => x.id ≠ r.id }
  match r.exact with
  | some gs => s1.giveGranules r.block r.part core sector gs false
  | none =>
    match acmRun (s.acmTaken core sector true) r.count with
    | none => s
    | some b =>
      let s2 := s1.giveGranules r.block r.part core sector ((List.range r.count).map (b + ·)) true
      let iss := Issuer.unit r.block r.group 0
      let s3 := s2.updGroup iss fun g => { g with s := setOpt g.s r.dst (BitVec.ofNat 32 b) }
      let ls := match s3.groupOf iss with
        | some g => (List.range 32).filter fun l => (g.thread l).status = .parked (.acm r.id)
        | none => []
      s3.wake iss ls fun _ t => t.advance

/-- ACM_GRANT (R275): the oldest waiting request of a sector is met from free granules. -/
def execAcmGrant (core sector : Nat) (s : State) : Out :=
  match s.oldestReq core sector with
  | none => .next s
  | some r => if r.fits (s.acmTaken core sector true) then .next (s.acmGrant core sector r) else .next s

/-- The youngest block part younger than a request that holds granules of the sector: (block, age, part). -/
def State.victim (s : State) (core sector age : Nat) : Option (Nat × Nat × Nat) :=
  (s.blocks.flatMap fun b => b.parts.zipIdx.filterMap fun x =>
    if x.1.acmCore = core && b.age > age && x.1.held.any fun g => g.1 = sector then some (b.id, b.age, x.2) else none).foldl
    (fun (m : Option (Nat × Nat × Nat)) x =>
      match m with
      | none => some x
      | some y => if x.2.1 > y.2.1 then some x else some y) none

/-- Granules of the sector that stay taken when every holder younger than a request has given up its own. -/
def State.acmOlder (s : State) (core sector age : Nat) : List Nat :=
  s.blocks.flatMap fun b => b.parts.flatMap fun p =>
    if p.acmCore = core && b.age ≤ age then (p.held.filter fun x => x.1 = sector).map (·.2) else []

/-- The granules of a part in a sector taken from it: they are spilled, and their return is a request of the block's age
(R275, R340). A return that was being read back starts again. -/
def State.evict (s : State) (b age part core sector : Nat) : State :=
  let p := (s.block? b).bind fun x => x.part part
  let gs := (((p.map (·.held)).getD []).filter fun x => x.1 = sector).map (·.2)
  let (id, s) := s.newId
  let s := s.updPart b part fun p =>
    { p with
      held := p.held.filter fun x => x.1 ≠ sector
      spilled := (p.spilled.filter fun e => !(e.1 = sector && e.2.1.all gs.contains)) ++ [(sector, gs, false)] }
  { s with
    acmReqs := s.acmReqs ++ [
      { id, block := b, age, part, sector, exact := some gs, count := gs.length, group := 0, dst := none }]
    acmLeft := s.acmLeft ++ gs.map fun g => (core, sector, g) }

/-- No matrix operation of a part of the block is in flight in a sector. -/
def Block.mxQuiet (b : Block) (part sector : Nat) : Bool :=
  b.groups.zipIdx.all fun x => b.partOf x.2 ≠ part || b.partitionOf x.2 / 4 ≠ sector || x.1.mxq.isEmpty

/-- ACM_EVICT (R275): the oldest request of a sector cannot be met from free granules but could be with those of younger
blocks: the youngest of them is evicted, once its matrix operations there are done. -/
def execAcmEvict (core sector : Nat) (s : State) : Out :=
  match s.oldestReq core sector with
  | none => .next s
  | some r =>
    if r.fits (s.acmTaken core sector false) || !r.fits (s.acmOlder core sector r.age) then .next s
    else
      match s.victim core sector r.age with
      | none => .next s
      | some (b, age, part) =>
        if ((s.block? b).map fun x => x.mxQuiet part sector).getD false then .next (s.evict b age part core sector)
        else .next s

/-- The fault on a block's save slot that a copy of a part meets, when the copy is due (R336). -/
def State.copyFault (s : State) (b part : Nat) (due : Part → Bool) (write : Bool) : Option (Block × Nat) :=
  (s.block? b).bind fun x => (x.part part).bind fun p =>
    if due p then (s.slotFault x write).map fun va => (x, va) else none

/-- Granules of a part in a sector that are still to be written to its spill area. -/
def Part.spillDue (p : Part) (sector : Nat) : Bool := p.spilled.any fun e => e.1 = sector && !e.2.2

/-- Evicted granules written to the part's spill area, 4 KiB for each, which lies in the block's save slot (R340). The spec
gives the area's place in the slot no number, so it is freely chosen, and its contents are free values
(notes/assumptions/48.md). -/
def State.fillSpill (s : State) (b : Block) (part sector : Nat) : State :=
  let s := s.drawForBlock b.id
  let due := (((b.part part).map (·.spilled)).getD []).filter fun e => e.1 = sector && !e.2.2
  let ps := s.slotPages b
  let n := (due.flatMap (·.2.1)).length
  let k := Config.freeIndex s.fresh part % max 1 (ps.length - n)
  s.fillPages b ((ps.drop k).take n)

/-- The lookups by which granules of a part in a sector are read back from its spill area, whose place is freely chosen. -/
def State.readSpill (s : State) (b : Block) (part sector : Nat) : State :=
  let ps := s.slotPages b
  let n := (((((b.part part).map (·.spilled)).getD []).filter fun e => e.1 = sector && e.2.2).flatMap (·.2.1)).length
  s.touchPages b ((ps.drop (Config.freeIndex s.fresh part % max 1 (ps.length - n))).take n) false

/-- ACM_SPILL_DONE (R340): evicted granules of a part are written to its spill area, and are free; a fault there parks the
block (R336). -/
def execAcmSpillDone (b part sector : Nat) (s : State) : Out :=
  match s.copyFault b part (fun (p : Part) => p.spillDue sector) true with
  | some (x, va) => .next (s.slotPark x part va true)
  | none =>
    let s1 := match s.block? b with
      | some x => if ((x.part part).map fun (p : Part) => p.spillDue sector).getD false then s.fillSpill x part sector else s
      | none => s
    .next (s1.updPart b part fun p =>
      { p with spilled := p.spilled.map fun e => if e.1 = sector then (e.1, e.2.1, true) else e })

/-- Granules of a part that have been granted again and are read back (R340). -/
def Part.readBack (p : Part) (e : Nat × List Nat × Bool) : Bool := e.2.2 && e.2.1.all fun g => p.held.contains (e.1, g)

/-- ACM_RESTORE (R340): a part's granules of a sector are read back; with its last one the block is no longer parked for
ACM; a fault on the save slot parks it (R336). A part that CTXLD restores leaves with the whole restore (R322). -/
def execAcmRestore (b part sector : Nat) (s : State) : Out :=
  match s.copyFault b part (fun p => p.spilled.any fun e => e.1 = sector && p.readBack e) false with
  | some (x, va) => .next (s.slotPark x part va false)
  | none =>
    let back (p : Part) : Bool :=
      (p.state = .resident || p.state = .saving) && p.spilled.any fun e => e.1 = sector && p.readBack e
    let s1 := match s.block? b with
      | some x => if ((x.part part).map back).getD false then (s.drawForBlock b).readSpill x part sector else s
      | none => s
    .next (s1.updPart b part fun p =>
      if p.state = .resident || p.state = .saving then
        { p with spilled := p.spilled.filter fun e => !(e.1 = sector && p.readBack e) }
      else p)

/-- ACFREE and ACZERO at issue (R276): the granules are held, then the operation is queued. -/
def State.granuleForm (s : State) (op : Nat) (f : Fields) (i : Instr) : Out :=
  s.matrixForm op f [] false false fun s c h =>
    let b := s.low32 c f f.a
    let n := s.low32 c f f.b
    if n = 0 || n > 128 then .error (.trap (mxAccess 15 c.lowLane (if n = 0 then b else b + 128)))
    else guardTraps (h.tileTrap c.g.mxq c.lowLane b n) <|
      .ok (s.commitMx c { mxOp c i [] false with base := b, src := n })

/-- ACFREE (R276). -/
def execAcfree (f : Fields) (s : State) : Out := s.granuleForm 0xB4 f (.acfree f)

/-- ACZERO (R276). -/
def execAczero (f : Fields) (s : State) : Out := s.granuleForm 0xB5 f (.aczero f)

/-! ## ACRD, ACWR, SCACC, CBLD (R277 to R280) -/

/-- The column of ACRD and ACWR. -/
def mxCol (f : Fields) : Nat := f.immBits 17 8

/-- `n` steps of the stochastic-rounding stream. -/
def srSteps (z : Word) : Nat → Word
  | 0 => z
  | n + 1 => srSteps (srStep z) n

/-- The registers that an ACRD writes: none where D is ZERO (R56). -/
def acrdDst (f : Fields) : List Nat := if f.d = .zero then [] else rowFrom f.d (acrdRegs f.ty)

/-- ACRD (R277): the stream's eight draws are taken at issue; the destinations are written at completion, and an earlier
load or pending pair loses them (R66, R71). -/
def execAcrd (f : Fields) (s : State) : Out :=
  s.matrixForm 0xB6 f [] false true fun s c h =>
    let low := c.lowLane
    let base := s.low32 c f f.a
    let g := base + mxCol f / 32
    guardTraps (h.tileTrap c.g.mxq low g 1 ++ s.acmPoison h low base (mxCol f) 8 c.rd.holders) <|
      let zs := (List.range 32).map fun l => (c.rd.thread l).z
      let m := { mxOp c (.acrd f) [] true with base, zs }
      let dst := acrdDst f
      let touch (t : Thread) : Thread :=
        { t with
          z := if f.rnd = 5 then srSteps t.z 8 else t.z
          ld := t.ld.map fun o => { o with regs := o.regs.filter fun r => !dst.contains r.1 }
          pend := t.pend.filter fun q => !(dst.contains q.reg || dst.contains (q.reg + 1)) }
      let g := c.rd.holders.foldl (fun g l => g.updThread l touch) (s.curGroup c)
      .ok (s.commit c (g.queueMx m) (fun _ => .next) true 0)

/-- ACWR (R278). -/
def execAcwr (f : Fields) (s : State) : Out :=
  let rows := rowFrom f.a 8
  s.matrixForm 0xB7 f rows false true fun s c h =>
    let base := s.low32 c f f.c
    guardTraps (h.tileTrap c.g.mxq c.lowLane (base + mxCol f / 32) 1) <|
      .ok (s.commitMx c { mxOp c (.acwr f) rows true with base })

/-- SCACC (R279). -/
def execScacc (f : Fields) (s : State) : Out :=
  let rows := rowFrom f.b 1
  s.matrixForm 0xB8 f rows false true fun s c h =>
    let low := c.lowLane
    let base := s.low32 c f f.c
    let src := s.low32 c f f.a
    guardTraps (h.tileTrap c.g.mxq low base 1 ++ h.tileTrap c.g.mxq low src 1 ++ s.acmPoison h low base 0 32 c.rd.holders
        ++ s.acmPoison h low src 0 32 c.rd.holders) <|
      .ok (s.commitMx c { mxOp c (.scacc f) rows true with base, src })

/-- CBLD (R280): the image becomes the part's codebook, which operations that have issued do not see (R110). -/
def execCbld (f : Fields) (s : State) : Out :=
  s.matrixForm 0xB9 f [] false false fun s c h =>
    let low := c.lowLane
    match s.mxScratch low (s.low32 c f f.a) 1056 8 with
    | .error t => .error (.trap t)
    | .ok (p, o) =>
      guardTraps (s.scratchPoisons low p o 1056) <|
        if s.partSaved p then .error .hold
        else
          let (bytes, s) := s.readWords p o 132
          let s := s.updPart h.blk.id h.pnum fun p => { p with codebook := Memory.empty.setBytes 0 bytes }
          .ok (s.commit c (s.curGroup c) (fun _ => .next) true 0)

/-! ## Completion (R69, R70, R119, R121) -/

/-- Element `k` of width `w` of a row of registers (R104). -/
def rowElem (w : Nat) (row : List Word) (k : Nat) : Nat :=
  (row.getD (k / (32 / w)) 0).toNat / 2 ^ (w * (k % (32 / w))) % 2 ^ w

/-- Element `k` as an operation uses it: where a later instruction has written the registers, the old or the new value
(R70). -/
def usedElem (fresh lane w : Nat) (old new : List Word) (k : Nat) : Nat :=
  let a := rowElem w old k
  let b := rowElem w new k
  if a = b then a else if Config.freeChoice fresh (lane * 1024 + k) then b else a

/-- Weight `i` of a CB2 index under a codebook image (R109, R110). -/
def cb2Weight (book : List Byte) (idx i : Nat) : FVal :=
  let n := idx / 256 % 256
  let b := leAt book (4 * n) 4 / 2 ^ (4 * i) % 16
  let q := bit (leAt book (1024 + n / 8) 1) (n % 8)
  let sign : Bool :=
    if i < 7 then bit idx (i + 1) else (List.range 7).foldl (fun x j => x != bit idx (j + 1)) q
  .num sign (2 * b + b2n (bit idx 0)) (-3)

/-- Element `k` of a B column given as 64 bytes (R270). -/
def colElem (tb : Ty) (ftz : Bool) (book : List Byte) (col k : Nat) : FVal :=
  if tb = .cb2 then cb2Weight book (col / 2 ^ (16 * (k / 8)) % 2 ^ 16) (k % 8)
  else fval tb ftz (BitVec.ofNat 64 (col / 2 ^ (tb.width * k) % 2 ^ tb.width))

/-- The exact sum of the products of elements `lo` to `lo + n - 1`. -/
def dotFrom (a b : Nat → FVal) (lo : Nat) : Nat → FVal
  | 0 => .num false 0 0
  | n + 1 => (dotFrom a b lo n).add 0 ((a (lo + n)).mul (b (lo + n)))

/-- The chunks of an operation: one rounding for each (R119). -/
def chunks (a b : Nat → FVal) (kk size : Nat) : Nat → Nat → Nat
  | 0, c => c
  | m + 1, c =>
    let c := chunks a b kk size m c
    roundVal (fmtOf .f32) 0 false 0 ((unpack (fmtOf .f32) c).add 0 (dotFrom a b (m * size) (min size (kk - m * size))))

/-- An accumulator element after an operation (R119, R121, R123). -/
def mxElem (f : Fields) (ver : Nat) (book : List Byte) (a : Nat → Nat) (col c : Nat) : Nat :=
  let kk := mxK f
  if f.ty = .i8 then
    wrap ((List.range kk).foldl (fun (x : Int) k =>
      x + toSigned 8 (a k) * toSigned 8 (col / 2 ^ (8 * k) % 2 ^ 8)) (toSigned 32 c)) 32
  else
    let size := if ver = 1 then 16 else 32
    let ftz := ver = 1 && (f.ty = .f16 || f.ty = .b16)
    chunks (fun k => fval f.ty ftz (BitVec.ofNat 64 (a k))) (colElem (mxTb f) ftz book col) kk size
      ((kk + size - 1) / size) c

/-- The place of element (row `i`, column `c`) of a tile in a sector's accumulators (R269). -/
def acmAt (sector base i c : Nat) : Nat := sector * 2 ^ 19 + (base + c / 32) * 4096 + 4 * (32 * i + c % 32)

/-- An accumulator tile updated for the lanes of an operation: `elem i c` gives the new value of an element from its old
one. -/
def tileMap (acm : Memory) (sector base : Nat) (lanes : List Nat) (n : Nat) (elem : Nat → Nat → Nat → Nat) : Memory :=
  lanes.foldl (fun m i => (List.range n).foldl (fun m c =>
    m.write (acmAt sector base i c) 4 (elem i c (m.read (acmAt sector base i c) 4))) m) acm

/-- The new value of the scaled accumulation (R279). -/
def scaccElem (c p sa sb : Nat) : Nat :=
  if sa = 255 || sb = 255 then (fmtOf .f32).nan
  else
    let u := unpack (fmtOf .f32)
    roundVal (fmtOf .f32) 0 false 0 ((u c).add 0 (((u p).scale ((sa : Int) - 127)).scale ((sb : Int) - 127)))

/-- The registers that an ACRD packs from one lane's row: eight conversions in column order, each with its draw
(R277). -/
def acrdWords (f : Fields) (z : Word) (acc : Nat → Nat) : List Word :=
  let st := Ty.ofCode (BitVec.ofNat 4 (f.immBits 3 0))
  let w := f.ty.width
  let x := (List.range 8).foldl (fun n e =>
    let v := convert f.ty st f.rnd.toNat f.flag (srSteps z (e + 1)).toNat (BitVec.ofNat 64 (acc e))
    n + v.toNat % 2 ^ w * 2 ^ (w * e)) 0
  (List.range (acrdRegs f.ty)).map fun r => BitVec.ofNat 32 (x / 2 ^ (32 * r))

/-- What an ACRD writes to the registers that no later instruction has written: (lane, register, value) (R71, R277). -/
def Home.acrdOuts (h : Home) (f : Fields) (o : MxOp) : List (Nat × Nat × Word) :=
  (lanesOf o.lanes).flatMap fun l =>
    let ws := acrdWords f (o.zs.getD l 0) fun e => h.part.acm.read (acmAt h.sector o.base l (mxCol f + e)) 4
    (((acrdDst f).zip ws).filter fun x => !o.lost.contains (l, x.1)).map fun x => (l, x.1, x.2)

/-- A part of the block of a matrix unit changed. -/
def State.updHome (s : State) (h : Home) (f : Part → Part) : State := s.updPart h.blk.id h.pnum f

/-- The ACM words of accumulators released or zeroed (R276). -/
def clearGranules (m : Memory) (sector b n : Nat) : Memory := m.clear (sector * 2 ^ 19 + b * 4096) (n * 4096)

/-- The effect of an operation on slots, accumulators and registers. DESIGN CHOICE (notes/assumptions/84.md): the old or new
contents of R70 are chosen for each element, and the register form of BLD, which has no type, moves elements of 4 bits, the
smallest the slots hold; the spec names no size there. -/
def State.mxPerform (s : State) (h : Home) (g : Group) (o : MxOp) : State :=
  let lanes := lanesOf o.lanes
  let used (regs : List Nat) (w l k : Nat) : Nat :=
    usedElem s.fresh l w (o.rows.getD l []) ((g.thread l).row regs) k
  let slot0 := o.slots.headD 0
  let ver := h.run.nbv
  match o.instr with
  | .bld _ =>
    s.updHome h fun p => { p with
      bslots := copyCells (p.bslots.clear (slot0 * 16384 + 64 * o.base) (64 * o.src)) 0 (64 * o.src)
        (slot0 * 16384 + 64 * o.base) o.bdata.cells }
  | .bldReg f =>
    let regs := rowFrom f.a 16
    s.updHome h fun p => { p with
      bslots := (List.range 32).foldl (fun m l => (List.range 64).foldl (fun m b =>
        m.setByte (slot0 * 16384 + 64 * (o.base + l) + b)
          (if lanes.contains l then
            BitVec.ofNat 8 (used regs 4 l (2 * b) + 16 * used regs 4 l (2 * b + 1)) else 0)) m) p.bslots }
  | .mmaq f =>
    s.updHome h fun p => { p with
      acm := tileMap p.acm h.sector o.base lanes (mxN f) fun i c x =>
        mxElem f ver o.book (used (mxRows f) f.ty.width i)
          (p.bslots.read ((4 * h.loc + o.slots.getD (i / 8) 0) * 16384 + 64 * c) 64) x }
  | .mmas f =>
    s.updHome h fun p => { p with
      acm := tileMap p.acm h.sector o.base lanes (mxN f) fun i c x =>
        mxElem f ver o.book (used (mxRows f) f.ty.width i) (o.bdata.read (64 * c) 64) x }
  | .acfree _ =>
    s.updHome h fun p => { p with
      held := p.held.filter fun x => !(x.1 = h.sector && o.base ≤ x.2 && x.2 < o.base + o.src)
      acm := clearGranules p.acm h.sector o.base o.src }
  | .aczero _ => s.updHome h fun p => { p with acm := clearGranules p.acm h.sector o.base o.src }
  | .acwr f =>
    s.updHome h fun p => { p with
      acm := lanes.foldl (fun m l => (List.range 8).foldl (fun m e =>
        m.write (acmAt h.sector o.base l (mxCol f + e)) 4 (used (rowFrom f.a 8) 32 l e)) m) p.acm }
  | .scacc f =>
    let scale (l k : Nat) : Nat := if lanes.contains l then used (rowFrom f.b 1) 8 l k else 127
    s.updHome h fun p => { p with
      acm := tileMap p.acm h.sector o.base lanes 32 fun i c x =>
        scaccElem x (p.acm.read (acmAt h.sector o.src i c) 4) (scale i 0) (scale c 1) }
  | .acrd f =>
    let g := (h.acrdOuts f o).foldl (fun g x => g.updThread x.1 fun t => { t with v := setAt t.v x.2.1 x.2.2 }) g
    s.setGroup (.unit h.blk.id h.grp 0) g
  | _ => s

/-- The ACRD that is the oldest operation of a group reads its accumulators: until it completes, a read of one of its
destinations returns the old contents or the new value (R267). -/
def State.acrdRead (s : State) (b g : Nat) : State :=
  match s.homeOf b g, (s.groupOf (.unit b g 0)).bind fun x => x.mxq.head? with
  | some h, some o =>
    match o.instr with
    | .acrd f => s.updGroup (.unit b g 0) fun x => { x with mxq := setAt x.mxq 0 { o with outs := h.acrdOuts f o } }
    | _ => s
  | _, _ => s

/-- The counters of an operation's lanes lowered, and the queue one shorter (R69). -/
def Group.mxDone (g : Group) (o : MxOp) : Group :=
  let g := if o.counted then
      (lanesOf o.lanes).foldl (fun g l => g.updThread l fun t => { t with mx := t.mx - 1 }) g
    else g
  { g with mxq := g.mxq.drop 1 }

/-- The oldest operation of a group done: its effect, the counters of its lanes lowered, and the queue one shorter. -/
def State.mxFinish (s : State) (h : Home) (o : MxOp) : State :=
  match s.groupOf (.unit h.blk.id h.grp 0) with
  | none => s
  | some g =>
    let s := s.mxPerform h g o
    let s := s.updGroup (.unit h.blk.id h.grp 0) fun g => g.mxDone o
    { s with fresh := s.fresh + 1 }

/-- The sector's four slots read for an MMAS, once each of its groups has reached it (R273). -/
def State.mmasRead (s : State) (h : Home) (o : MxOp) : Option State :=
  let mates := (h.blk.groups.zipIdx.filterMap fun x =>
    match x.1.mxq.head? with
    | some q => if q.meet = o.meet then some (x.2, q) else none
    | none => none)
  if mates.length < 4 then none
  else
    let n := match o.mmasFields with | some f => mxN f / 4 | none => 0
    let cols := mates.foldl (fun m x =>
      let p := h.blk.partitionOf x.1
      copyCells m ((4 * p + x.2.slots.headD 0) * 16384) (64 * n) (64 * n * (p % 4)) h.part.bslots.cells) Memory.empty
    some (mates.foldl (fun s x => s.updGroup (.unit h.blk.id x.1 0) fun g =>
      { g with mxq := g.mxq.map fun q => if q.meet = o.meet then { q with bdata := cols, ready := true } else q }) s)

/-- MATRIX_COMPLETE (R69): the oldest matrix operation of a group finishes its V reads and writes. -/
def execMatrixComplete (b g : Nat) (s : State) : Out :=
  match s.homeOf b g, s.groupOf (.unit b g 0) with
  | some h, some x =>
    let s := s.drawForBlock b
    match x.mxq.head? with
    | none => .next s
    | some o =>
      if o.ready then .next (s.mxFinish h o)
      else
        match s.mmasRead h o with
        | none => .next s
        | some s1 =>
          match (s1.groupOf (.unit b g 0)).bind fun y => y.mxq.head? with
          | some o1 => .next (s1.mxFinish h o1)
          | none => .next s1
  | _, _ => .next s

end Sys2Proof.Machine
end

