-- ==== Sys2Proof/Machine/Power.lean ====
section
/-!
DEFINITION. Power, stack balance and temperature: BURN to ENRD (R281 to R286), the levels of the stack-supply domains
(R378, R379), the balance sample (R371 to R374), the token windows (R380 to R382) and the thermal poll (R386, R388).
-/

namespace Sys2Proof.Machine

open Sys2Proof

/-! ## Levels (R378, R379) -/

/-- LEVEL_CHANGE (R378): the clock of a domain is switched to its effective level. -/
def execLevelChange (d : Nat) (s : State) : Out :=
  .next { s with supplies := updAt s.supplies d fun x => { x with clock := x.effPl } }

/-- COHORT_LEVEL_ADOPT (R379): at AT the cohort level becomes NEXT, and the clock switches at that instant. -/
def execCohortLevelAdopt (d : Nat) (s : State) : Out :=
  match s.supplies[d]? with
  | none => .next s
  | some x =>
    if x.pending && x.adoptAt ≤ s.ftime then
      let s1 := { s with supplies := updAt s.supplies d fun x => { x with cohort := x.next, pending := false } }.relevel
      .next { s1 with supplies := updAt s1.supplies d fun x => { x with clock := if x.cen then x.effPl else x.clock } }
    else .next s

/-- The core of an issuer's group. -/
def State.issuerCore (s : State) (b g : Nat) : Nat := ((s.block? b).map (·.coreOf g)).getD 0

/-! ## Group-wide power forms (R245, R281) -/

/-- A group-wide power form: A is read in the lowest non-helper lane; `run` gives the value for D and the state; D is
written for the group, a V destination in every thread of the unit (R37). -/
def State.powerForm (s : State) (op : Nat) (f : Fields) (run : State → Nat → Nat → Nat → Word × State) : Out :=
  s.finish <|
    match s.ctx?, s.cur with
    | some c, .unit b g _ =>
      let low := c.lowLane
      let on := (c.rd.thread low).guard f
      let regs := readRegs op f
      let cmds := if on then (c.rd.thread low).waitsFor regs else []
      if !cmds.isEmpty then .ok (s.parkUnit c cmds)
      else
        guardGroup c (if on then (c.rd.thread low).handleTrap low regs ++ s.poisonTrap low regs else []) <|
          if !on then .ok (s.commit c c.g (fun _ => .next) true 0)
          else
            let (x, s) := run s b g (s.operand c.rd low f false f.a).toNat
            .ok (s.commit c (c.lanes.foldl (fun g l => g.writeDst l f.d false (x.zeroExtend 64)) (s.curGroup c))
              (fun _ => .next) true 0)
    | _, _ => .ok s

/-- The device time at which a request of `us` microseconds ends. -/
def State.after (s : State) (us : Nat) : Nat := s.ftime + 1000 * us

/-- A group's ballast request or reservation changed. -/
def State.updBlockGroup (s : State) (b g : Nat) (f : Group → Group) : State :=
  s.updBlock b fun x => { x with groups := updAt x.groups g f }

/-- BURN (R282). -/
def execBurn (f : Fields) (s : State) : Out :=
  s.powerForm 0xC0 f fun s b g a =>
    let level := min 16 (a % 32)
    let us := a / 2 ^ 8
    (0, s.updBlockGroup b g fun x =>
      { x with burn := if level = 0 || us = 0 then none else some { level, expiry := s.after us } })

/-- The groups that are resident on a core. -/
def State.groupsOn (s : State) (core : Nat) : List Group :=
  s.blocks.flatMap fun b => b.groups.zipIdx.filterMap fun x => if b.coreOf x.2 = core && b.resident x.2 then some x.1 else none

/-- The groups whose requests and reservations stand on a core, with their launches: those of every live block, resident
or not, since a switch-out ends none of them (R282, R283). -/
def State.requestsOn (s : State) (core : Nat) : List (Nat × Group) :=
  (s.blocks.filter Block.lives).flatMap fun b =>
    b.groups.zipIdx.filterMap fun x => if b.coreOf x.2 = core then some (b.launch, x.1) else none

/-- The level of a request or reservation, while it lasts. -/
def BurnReq.now (r : Option BurnReq) (t : Nat) : Nat := (r.map fun x => if t < x.expiry then x.level else 0).getD 0

/-- The shunt capacity that the groups of a core have reserved on each of its rails (R283). -/
def State.shuntOf (s : State) (core : Nat) : Nat :=
  (s.requestsOn core).foldl (fun n g => n + BurnReq.now g.2.shunt s.ftime) 0

/-- Rail `r` of a column lies between layers `r` and `r + 1` (R13): its unreserved capacity. -/
def State.railFree (s : State) (col r : Nat) : Nat := 120 - (s.shuntOf (coreAt col r) + s.shuntOf (coreAt col (r + 1)))

/-- The rails next to a core. -/
def railsOf (core : Nat) : List Nat :=
  let k := layerOf core
  (if k > 0 then [k - 1] else []) ++ if k < 3 then [k] else []

/-- SHUNT (R283): the reservation replaces the group's previous one. -/
def execShunt (f : Fields) (s : State) : Out :=
  s.powerForm 0xC1 f fun s b g a =>
    let s1 := s.updBlockGroup b g fun x => { x with shunt := none }
    let core := s1.issuerCore b g
    let want := min 120 (a % 256)
    let grant := (railsOf core).foldl (fun n r => min n (s1.railFree (columnOf core) r)) want
    (BitVec.ofNat 32 grant,
      s1.updBlockGroup b g fun x =>
        { x with shunt := if grant = 0 then none else some { level := grant, expiry := s1.after (a / 2 ^ 8) } })

/-- PLREQ (R285): D receives the effective level before the request takes effect. -/
def execPlreq (f : Fields) (s : State) : Out :=
  s.powerForm 0xC3 f fun s b g a =>
    let d := s.supplyOf (columnOf (s.issuerCore b g))
    let ctx := s.ctxOf
    (BitVec.ofNat 32 (((s.supplies[d]?).map (·.effPl)).getD 0),
      ({ s with ctxs := updAt s.ctxs ctx fun x => { x with reqPl := min 15 a } } : State).relevel)

/-! ## BALQ and ENRD (R284, R286) -/

/-- Demand in 1/128 of nominal; whether an inexact value is rounded up is not stated, and is one choice for each core of a
sample (notes/assumptions/32.md). -/
def act128 (key core demand : Nat) : Nat :=
  min 255 (demand * 128 / 1000 + b2n (decide (demand * 128 % 1000 ≠ 0) && Config.freeChoice key core))

/-- An I8 field, saturating (R284). -/
def satI8 (x : Int) : Nat := wrap (max (-128) (min 127 x)) 8

/-- The last balance sample of a core's column as BALQ gives it (R284). Every field of an absent stack-mate reads 0
(notes/assumptions/32.md). -/
def State.balq (s : State) (core : Nat) : DWord :=
  let col := columnOf core
  let k := layerOf core
  let c := s.columns.getD col Column.reset
  let dem (l : Nat) : Nat := c.demand.getD l 0
  let act (l : Nat) : Nat := act128 c.shown.key (coreAt col l) (dem l)
  let occ (l : Nat) : Nat := min 255 (c.shown.occ.getD l 0)
  let above (x : Nat) : Nat := if k < 3 then x else 0
  let below (x : Nat) : Nat := if k > 0 then x else 0
  BitVec.ofNat 64 (above (occ (k + 1)) * 2 ^ 56 + below (occ (k - 1)) * 2 ^ 48
    + above (satI8 ((dem k : Int) - dem (k + 1))) * 2 ^ 40 + below (satI8 ((dem k : Int) - dem (k - 1))) * 2 ^ 32
    + above (act (k + 1)) * 2 ^ 24 + below (act (k - 1)) * 2 ^ 16 + act k * 2 ^ 8 + c.shown.pl * 2 ^ 4 + c.shown.state)

/-- A form that writes one 64-bit value to the pair D of every active thread. -/
def State.pairForm (s : State) (op : Nat) (f : Fields) (x : State → DWord) : Out :=
  s.finish <| s.perThread f (fun _ => readRegs op f) (fun _ _ => []) fun _ g l => g.writeDst l f.d true (x s)

/-- BALQ (R284): every thread of one issue receives the same sample. -/
def execBalq (f : Fields) (s : State) : Out :=
  s.pairForm 0xC2 f fun s => s.balq (match s.cur with | .unit b g _ => s.issuerCore b g | .mgmt => 0)

/-- ENRD (R286). -/
def execEnrd (f : Fields) (s : State) : Out :=
  s.pairForm 0xC4 f fun s => BitVec.ofNat 64 (((s.launchOf s.cur).map (·.energy)).getD 0)

/-- BALLAST_REQUEST_EXPIRY (R282). -/
def execBallastRequestExpiry (b g : Nat) (s : State) : Out :=
  .next (s.updBlockGroup b g fun x =>
    { x with burn := match x.burn with | some r => if r.expiry ≤ s.ftime then none else some r | none => none })

/-- SHUNT_RESERVATION_EXPIRY (R283). -/
def execShuntReservationExpiry (b g : Nat) (s : State) : Out :=
  .next (s.updBlockGroup b g fun x =>
    { x with shunt := match x.shunt with | some r => if r.expiry ≤ s.ftime then none else some r | none => none })

/-! ## Duty (R378, R385, R388) -/

/-- The crit duty of a column: 1 while a core diode of it, or an HBM region of its tower, is at level 3 (R388). -/
def State.critDuty (s : State) (col : Nat) : Nat :=
  let lvl (i : Nat) : Nat := ((s.sensors[i]?).map (·.level)).getD 0
  let hot := (List.range 4).any fun k => lvl (coreAt col k) = 3
  let hbm := (List.range 24).any fun i => lvl (192 + col / 24 * 24 + i) = 3
  if hot || hbm then 1 else 16

/-- EDUTY of a core (R378). -/
def State.eduty (s : State) (core : Nat) : Nat :=
  let col := columnOf core
  min (min (s.csr.duty.getD col 16) (s.critDuty col))
    (min s.capDuty (((s.columns[col]?).map fun c => c.duty.getD (layerOf core) 16).getD 16))

/-! ## Ballast (R282, R28, R321, R332, R338, R372, R374) -/

/-- The ballast level that BURN asks of a core, and the launch of a group that asks for it (R282). -/
def State.burnOf (s : State) (core : Nat) : Nat × BallastCause :=
  (s.requestsOn core).foldl (fun m g =>
    if BurnReq.now g.2.burn s.ftime > m.1 then (BurnReq.now g.2.burn s.ftime, .launch g.1) else m) (0, .nobody)

/-- The demand of an activity class, in sixteenths of nominal (R332). -/
def classLevel (ac : Nat) : Nat := max 1 (2 * ac)

/-- The launch that a save's ballast is charged to, by CTXSV's B (R321): the block's own, or the most recently admitted
running launch of a context. -/
def State.chargeOf (s : State) (own : Nat) (b : Word) : BallastCause :=
  if b.getLsbD 31 then .launch own
  else
    match (s.launches.filter fun l => l.ctx = b.toNat % 64 && l.nextComb > 0 &&
        (l.state = .admission || l.state = .run)).getLast? with
    | some l => .launch l.id
    | none => .nobody

/-- The ballast of a core that the save of one part has left while another part of its block runs (R321). -/
def State.vacatedBallast (s : State) (core : Nat) : Option (Nat × BallastCause) :=
  s.blocks.findSome? fun b =>
    if b.lives && b.parts.any fun p => decide (p.state = .resident) then
      (b.parts.find? fun p => !p.onCore && p.core = core).map fun p =>
        (classLevel (((s.launch? b.launch).map (·.ac)).getD 0), s.chargeOf b.launch p.charge)
    else none

/-- The ballast of a layer that a launch's last comb leaves empty, while other blocks of that comb run (R28, R332). DESIGN
CHOICE (notes/assumptions/96.md): a block runs from its admission until it retires, switched out or not yet resident too, while
a part of it is on a core; R28 does not say. -/
def State.combBallast (s : State) (core : Nat) : Option (Nat × BallastCause) :=
  s.launches.findSome? fun l =>
    let last := l.blocks % l.perComb
    if last ≠ 0 && last * l.parts ≤ layerOf core && s.blocks.any fun b =>
        b.lives && b.launch = l.id && b.index / l.perComb + 1 = l.combs &&
          b.parts.any fun p => p.onCore && columnOf p.core = columnOf core
    then some (classLevel l.ac, .launch l.id) else none

/-- The ballast of a core beside others of its column that issue: at the class of the block that was resident on it last
(R338). -/
def State.idleBallast (s : State) (core : Nat) : Option (Nat × BallastCause) :=
  if s.slots.any fun x => columnOf x.1 = columnOf core && x.1 ≠ core then
    (s.coreLast.find? fun x => x.1 = core).map fun x => (classLevel x.2.2, .launch x.2.1)
  else none

/-- The ballast that the scheduler runs on a core that holds no resident block (R28, R321, R338). Which of the three rules
goes first where two apply is not stated (notes/assumptions/85.md). -/
def State.schedBallast (s : State) (core : Nat) : Nat × BallastCause :=
  if s.blocks.any fun b => b.state = .resident && b.parts.any fun p => p.onCore && p.core = core then (0, .nobody)
  else (((s.vacatedBallast core).or (s.combBallast core)).or (s.idleBallast core)).getD (0, .nobody)

/-! ## The balance sample (R371 to R374) -/

/-- The mismatch of each rail: the upper core's demand minus the lower core's (R371). -/
def railsFrom (demand : List Nat) : List Int :=
  (List.range 3).map fun r => ((demand.getD (r + 1) 0 : Nat) : Int) - ((demand.getD r 0 : Nat) : Int)

/-- The layer of the lower-demand core of a rail, and of the other. -/
def lowSide (r : Nat) (m : Int) : Nat := if m < 0 then r + 1 else r
def highSide (r : Nat) (m : Int) : Nat := if m < 0 then r else r + 1

/-- What a rail's converter carries of a mismatch (R283, R372): the larger reservation of its two cores, each of which
holds it for a mismatch of either sign, and unreserved capacity (notes/assumptions/33.md). -/
def State.railCapacity (s : State) (col r : Nat) : Nat :=
  min 120 (max (s.shuntOf (coreAt col r)) (s.shuntOf (coreAt col (r + 1))) + s.railFree col r)

/-- The magnitude of a mismatch beyond what its rail carries is not 0. -/
def State.remains (s : State) (col r : Nat) (m : Int) : Bool := m.natAbs > s.railCapacity col r

/-- The rail with the largest mismatch. -/
def worstRail (rails : List Int) : Nat :=
  (List.range 3).foldl (fun w r => if (rails.getD r 0).natAbs > (rails.getD w 0).natAbs then r else w) 0

/-- The state of R372 for mismatches that do not hold the column. -/
def State.balanceState (s : State) (col : Nat) (rails : List Int) : Nat :=
  b2n ((List.range 3).any fun r => s.remains col r (rails.getD r 0))

/-- The ballast that balances a core (R372): what its mismatches need above the ballast in force, and what is left of the
level it had, which ramps down at the slope limit, 8 sixteenths in 1,000 ns (R374). -/
def State.balanceNeed (s : State) (col k : Nat) (rails : List Int) (level old dt : Nat) : Nat :=
  (railsOf (coreAt col k)).foldl (fun n r =>
    let m := rails.getD r 0
    if s.remains col r m && lowSide r m = k && m.natAbs > 120 then max n (min 16 (old + ((m.natAbs - 120) * 16 + 999) / 1000))
    else n) (level - dt * 8 / 1000)

/-- The level and the charge of a core's ballast engine without slope ballast: the highest of what is asked of it, on a tie in
the order BURN, scheduler, balance (R282, R376; notes/assumptions/85.md). -/
def State.ballast (s : State) (core need : Nat) : Nat × BallastCause :=
  [s.schedBallast core, (need, .falls)].foldl
    (fun (m : Nat × BallastCause) x => if x.1 > m.1 then (min 16 x.1, x.2) else m) (s.burnOf core)

/-- An engine that also holds its part of a current that slope ballast holds (R374), where that is more. -/
def engineWith (ramp : Nat) (b : Nat × BallastCause) : Nat × BallastCause :=
  let held := min 16 ((ramp * 16 + 999) / 1000)
  if held > b.1 then (held, .falls) else b

/-- A column with its slope ballast ramped down to a time, by 125 in 250 ns (R374). -/
def Column.ramped (c : Column) (t : Nat) : Column :=
  let ramp := c.ramp - (t - c.rampAt) / 2
  { c with blst := c.base.map fun b => (engineWith ramp b).1, causes := c.base.map fun b => (engineWith ramp b).2 }

/-- The balance duty of a core and its count of easy samples (R372): `blst` is the ballast in force. -/
def balanceDuty (k : Nat) (rails : List Int) (blst : List Nat) (duty easy : Nat) : Nat × Nat :=
  let mine := railsOf (coreAt 0 k)
  let worse := mine.any fun r =>
    let m := rails.getD r 0
    decide (m.natAbs > 120) && highSide r m = k && blst.getD (lowSide r m) 0 = 16
  if worse then (max 1 (duty - 1), 0)
  else if mine.all fun r => decide ((rails.getD r 0).natAbs ≤ 80) then
    if easy + 1 ≥ 10 then (min 16 (duty + 1), 0) else (duty, easy + 1)
  else (duty, 0)

/-- The least a current may have fallen to since it last took a value: 125 in 250 ns, as a slope (R374). -/
def Column.slopeFloor (c : Column) (t : Nat) : Nat := c.curr - (t - c.rampAt) / 2

/-- The demands a sample finds: a core draws what its ballast engine runs at, at least (R371). -/
def Column.demands (c : Column) (x : ColumnReading) : List Nat :=
  (List.range 4).map fun k => max (x.demand.getD k 0) (1000 * c.blst.getD k 0 / 16)

/-- One column's sample (R371, R372): its new state, and whether IMBAL is posted. -/
def State.sampleColumn (s : State) (col : Nat) (c : Column) (x : ColumnReading) : Column × Bool :=
  let c := c.ramped s.uptime
  let demand := c.demands x
  let rails := railsFrom demand
  let high := rails.any fun m => decide (m.natAbs > 250)
  let overCnt := if high then c.overCnt + 1 else 0
  let held := c.state = 2
  let imbal := !held && overCnt ≥ 2
  let state := if held || imbal then 2 else s.balanceState col rails
  let curr := max (min 4095 x.curr) (c.slopeFloor s.uptime)
  let ramp := curr - min 4095 x.curr
  let level := (List.range 4).map fun k =>
    s.balanceNeed col k rails (c.level.getD k 0) (c.blst.getD k 0) (s.uptime - c.rampAt)
  let base := (List.range 4).map fun k => s.ballast (coreAt col k) (level.getD k 0)
  let engines := base.map (engineWith ramp)
  let dut := (List.range 4).map fun k => balanceDuty k rails c.blst (c.duty.getD k 16) (c.easy.getD k 0)
  ({ c with
      state, imbCnt := if imbal then min 255 (c.imbCnt + 1) else c.imbCnt
      rails, curr, demand, blst := engines.map (·.1), level, causes := engines.map (·.2), ramp, rampAt := s.uptime, base
      duty := dut.map (·.1), overCnt
      calm := if held && rails.all fun m => decide (m.natAbs ≤ 120) then c.calm + 1 else 0
      easy := dut.map (·.2) }, imbal)

/-- What a column shows of a sample that has set it (R284, R375). -/
def State.showColumn (s : State) (col : Nat) (c : Column) : Column :=
  { c with shown := {
      state := c.state, curr := c.curr, blst := c.blst
      eduty := (List.range 4).map fun k => s.eduty (coreAt col k)
      occ := (List.range 4).map fun k => (s.groupsOn (coreAt col k)).length
      pl := ((s.supplies[s.supplyOf col]?).map (·.effPl)).getD 0, key := s.fresh } }

/-! ## Energy (R383) -/

/-- The layer voltage of a column in 1/64 V: (40 + n)/64 V at level n (notes/assumptions/86.md). -/
def State.layerVolt (s : State) (col : Nat) : Nat := 40 + ((s.supplies[s.supplyOf col]?).map (·.clock)).getD 0

/-- The energy in µJ of a current in 1/1,000 of 20 A at `v`/64 V for 1 µs. -/
def energyOf (v curr : Nat) : Rat := ((v * curr : Nat) : Rat) / 3200

/-- The part of `n` of `total`. -/
def shareOf (x : Rat) (n total : Nat) : Rat := x * n / total

/-- What a core's sample charges, in µJ (R383): its issue by the slots that launches used, its ballast to its cause. -/
def State.coreCharges (s : State) (core : Nat) (c : Column) (demand : Nat) (falls : List (Nat × Nat)) : List (Nat × Rat) :=
  let v := s.layerVolt (columnOf core)
  let b := min demand (1000 * c.blst.getD (layerOf core) 0 / 16)
  let mine := s.slots.filter fun x => x.1 = core
  let slots := (mine.map (·.2.2)).sum
  let shares := (falls.map (·.2)).sum
  (mine.map fun x => (x.2.1, shareOf (energyOf v (demand - b)) x.2.2 slots)) ++
    match c.causes.getD (layerOf core) .nobody with
    | .nobody => []
    | .launch l => [(l, energyOf v b)]
    | .falls => falls.map fun x => (x.1, shareOf (energyOf v b) x.2 shares)

/-- What a sample charges (R383), by the ballast in force. -/
def State.charges (s : State) (cols : List ColumnReading) (falls : List (List (Nat × Nat))) : List (Nat × Rat) :=
  s.columns.zipIdx.flatMap fun (x : Column × Nat) =>
    match cols[x.2]? with
    | some r => (List.range 4).flatMap fun k =>
      let c := x.1.ramped s.uptime
      s.coreCharges (coreAt x.2 k) c ((c.demands r).getD k 0) (falls.getD x.2 [])
    | none => []

/-- What the charges of a sample add to a launch's counter: their sum in µJ, rounded down (R383). -/
def chargeTo (l : Nat) (charges : List (Nat × Rat)) : Nat :=
  (charges.foldl (fun (n : Rat) (x : Nat × Rat) => if x.1 = l then n + x.2 else n) 0).floor.toNat

/-- A launch's counter after a sample. -/
def Launch.charged (l : Launch) (charges : List (Nat × Rat)) : Launch :=
  { l with energy := l.energy + chargeTo l.id charges }

/-- IMBAL raised for a column (R305, R306). The context it names is not stated: a free value. -/
def State.imbal (s : State) (col : Nat) (rails : List Int) : State :=
  let (x, s) := s.free
  s.raise (plainEvent .imbal (x.toNat % 64) ((s.tenantOfColumn col).getD 0)
    (trapInfo false 0 (col + worstRail rails * 2 ^ 6)) [])

/-- The cap of a sample in W (R380). -/
def State.cap (s : State) : Nat := min s.csr.tokens 3900

/-- The domain whose CAPL the controller lowers: the highest EFFPL, on a tie the highest supply number; one that can
still be lowered. -/
def State.capVictim (s : State) : Option Nat :=
  (s.supplies.zipIdx.filter fun (x : Supply × Nat) => x.1.capL > 0).foldl (fun (m : Option (Nat × Nat)) x =>
    match m with
    | none => some (x.2, x.1.effPl)
    | some y => if x.1.effPl ≥ y.2 then some (x.2, x.1.effPl) else some y) none |>.map (·.1)

/-- A domain's CAPL lowered or raised by one level. -/
def State.stepCap (s : State) (d : Nat) (up : Bool) : State :=
  { s with supplies := updAt s.supplies d fun x => { x with capL := if up then min 15 (x.capL + 1) else x.capL - 1 } }

/-- The supplies above their limit: their domains' CAPL is lowered, and not raised (R380). -/
def State.overLimit (s : State) (d : Nat) : Bool := ((s.supplies[d]?).map fun x => decide (x.power > x.limit)).getD false

/-- CAPL of one domain raised by a level (R380): which one is not stated. -/
def State.raiseCap (s : State) : State :=
  let ds := (List.range 4).filter fun d => !s.overLimit d && ((s.supplies[d]?).map fun x => decide (x.capL < 15)).getD false
  match oneOf (Config.freeValue s.fresh).toNat ds with
  | some d => { s.stepCap d true with fresh := s.fresh + 1 }
  | none => s

/-- The cap controller at a sample (R380): `proj` is its projection of the window's energy, whose rule is not given. The
budget is estimated with the present cap for the rest of the window. That the cap duty returns is not stated: it does so
at the pace of its fall (notes/assumptions/38.md). -/
def State.capControl (s : State) (proj : Nat) : State :=
  let left := 999 - s.ftime / 1000 % 1000
  let budget := s.winBudget + s.cap * left - s.csr.debt
  let slow := s.ftime / 1000 % 10 = 0
  let s := (List.range 4).foldl (fun s d => if s.overLimit d then s.stepCap d false else s) s
  if proj > budget then
    match s.capVictim with
    | some d => s.stepCap d false
    | none => if slow then { s with capDuty := max 1 (s.capDuty - 1) } else s
  else if proj * 10 < budget * 9 then
    if slow then { s.raiseCap with capDuty := min 16 (s.capDuty + 1) } else s.raiseCap
  else s

/-- BALANCE_SAMPLE (R371, R372, R380, R383): the 1 µs sample. The readings are the environment's: each column's demands
and current and the shares of its fall, the supplies' powers, the package's energy, and the controller's projection. -/
def execBalanceSample (cols : List ColumnReading) (falls : List (List (Nat × Nat))) (power : List Nat) (energy proj : Nat)
    (s : State) : Out :=
  let rs := s.columns.zipIdx.map fun (x : Column × Nat) =>
    match cols[x.2]? with
    | some r => s.sampleColumn x.2 x.1 r
    | none => (x.1, false)
  let charges := s.charges cols falls
  let s1 : State := { s with
    columns := rs.map (·.1), slots := []
    launches := s.launches.map fun l => l.charged charges
    supplies := s.supplies.zipIdx.map fun (x : Supply × Nat) =>
      { x.1 with power := if (s.domain x.2).isEmpty then 0 else min 4095 (power.getD x.2 x.1.power) }
    winEnergy := s.winEnergy + energy
    winBudget := s.winBudget + s.cap }
  let s1 := rs.zipIdx.foldl (fun (s : State) x => if x.1.2 then s.imbal x.2 x.1.1.rails else s) s1
  let s1 := (s1.capControl proj).relevel
  .next { s1 with
    fresh := s1.fresh + 1
    columns := s1.columns.zipIdx.map fun (x : Column × Nat) => s1.showColumn x.2 x.1 }

/-- IMBAL_RELEASE (R373): after 100 samples in balance the column returns to its domain's clock. -/
def execImbalRelease (col : Nat) (s : State) : Out :=
  match s.columns[col]? with
  | none => .next s
  | some c =>
    if c.state = 2 && c.calm ≥ 100 then
      .next { s with columns := updAt s.columns col fun c => { c with state := s.balanceState col c.rails, calm := 0 } }
    else .next s

/-- A column whose current follows a fall to `want` as far as the slope allows; its cores' ballast holds the rest, and no more
(R374). -/
def Column.follow (c : Column) (t want : Nat) : Column :=
  let curr := max (min 4095 want) (c.slopeFloor t)
  ({ c with curr, ramp := curr - want, rampAt := t } : Column).ramped t

/-- SLOPE_LIMIT_RAMP (R374): a column's current falls toward `want` by no more than 125 in 250 ns; ballast holds the
rest. -/
def execSlopeLimitRamp (col want : Nat) (s : State) : Out :=
  .next { s with columns := updAt s.columns col fun c => c.follow s.uptime want }

/-- TOKEN_WINDOW_END (R380): the energy above the budget becomes debt, and the next window begins. -/
def execTokenWindowEnd (s : State) : Out :=
  if s.ftime / 1000000 > s.tokWindow then
    let debt := s.winEnergy + s.csr.debt - s.winBudget
    .next { s with
      tokWindow := s.ftime / 1000000, winEnergy := 0, winBudget := 0
      csr := { s.csr with debt, overn := if debt > 0 then min 255 (s.csr.overn + 1) else s.csr.overn } }
  else .next s

/-! ## Tokens (R324, R381, R382) -/

/-- WAGGLE_ACCEPT (R382): a waggle message of `amount` tokens sent at `t0` is accepted while it is young enough. -/
def execWaggleAccept (amount : Word) (t0 : Nat) (s : State) : Out :=
  if s.ftime < t0 + 50000 then
    .next (({ s with csr := { s.csr with tokens := (s.csr.tokens + amount.toNat) % 2 ^ 32 } } : State).setPend 6)
  else .next s

/-- WAGGLE_ACK (R324): the destination of the `k`th transfer in flight has acknowledged. -/
def execWaggleAck (k : Nat) (s : State) : Out :=
  .next { s with fabric := { s.fabric with waggles := s.fabric.waggles.eraseIdx k } }

/-- TOKRET (R324): a transfer not acknowledged within 100 µs returns its tokens, and TOKRET is posted. The context and
partition it names are not stated. -/
def execTokret (k : Nat) (s : State) : Out :=
  match s.fabric.waggles[k]? with
  | none => .next s
  | some w =>
    if w.sent + 100000 ≤ s.ftime then
      let (x, s1) := s.free
      .next (({ s1 with
        csr := { s1.csr with tokens := (s1.csr.tokens + w.amount.toNat) % 2 ^ 32 }
        fabric := { s1.fabric with waggles := s1.fabric.waggles.eraseIdx k } } : State).raise
          (plainEvent .tokRet (x.toNat % 64) (x.toNat / 64 % 8) (trapInfo false 0 0)
            (leBytes 2 w.dev ++ [0, 0] ++ leBytes 4 w.amount.toNat)))
    else .next s

/-! ## Temperature (R384 to R388) -/

/-- The THRCFG index of a sensor (R385), and its thresholds and hystereses by level. -/
def thrIndex (i : Nat) : Nat := if i < 192 then 0 else 1
def thrOf (cfg level : Nat) : Nat := bits cfg (10 * level - 1) (10 * (level - 1))
def hysOf (cfg level : Nat) : Nat := bits cfg (30 + 6 * level - 1) (30 + 6 * (level - 1))

/-- The level left for a lower one (R386). -/
def fallLevel (cfg t up : Nat) : Nat → Nat
  | 0 => 0
  | l + 1 => if l + 1 > up && t + hysOf cfg (l + 1) < thrOf cfg (l + 1) then fallLevel cfg t up l else l + 1

/-- The level of a sensor after a reading (R386). -/
def nextLevel (cfg t level : Nat) : Nat :=
  let up := ((List.range 4).filter fun l => l ≠ 0 && t ≥ thrOf cfg l).foldl max 0
  if up ≥ level then up else fallLevel cfg t up level

/-- The configuration word of a sensor. -/
def State.thrCfg (s : State) (i : Nat) : Nat := (s.csr.thrcfg.getD (thrIndex i) 0).toNat

/-- A sensor after a poll: one that is being calibrated keeps its reading (R418). -/
def pollSensor (cfg : Nat) (x : Sensor) (t : Nat) : Sensor :=
  if x.skip then { x with skip := false }
  else { temp := t % 1024, level := nextLevel cfg (t % 1024) x.level, peak := max x.peak (t % 1024), skip := false }

/-- THERMAL_POLL (R386, R388): every sensor takes its reading; one at or above CRIT + 20 units stops the package. DESIGN CHOICE
(notes/assumptions/98.md): issue stops at once and the supplies go off 1 ms after the poll, where R388 says within 10 µs and
within 1 ms. -/
def execThermalPoll (temps : List Nat) (s : State) : Out :=
  let sensors := s.sensors.zipIdx.map fun (x : Sensor × Nat) =>
    match temps[x.2]? with
    | some t => pollSensor (s.thrCfg x.2) x.1 t
    | none => x.1
  let burn := sensors.zipIdx.any fun (x : Sensor × Nat) =>
    !(s.sensors.getD x.2 x.1).skip && x.1.temp ≥ thrOf (s.thrCfg x.2) 3 + 20
  let s1 : State := { s with sensors }
  .next (if burn && !s.powerOff.isSome then { s1 with stopped := true, powerOff := some (s.uptime + 1000000) } else s1)

/-- DIODE_CALIBRATION (R418): the next poll skips a sensor. -/
def execDiodeCalibration (i : Nat) (s : State) : Out :=
  .next { s with sensors := updAt s.sensors i fun x => { x with skip := true } }

end Sys2Proof.Machine
end

