-- ==== Sys2Proof/Machine/Csr.lean ====
section
/-!
DEFINITION. The privileged registers (R302 to R326, R348, R359, R361, R369, R370, R375, R377, R379, R381, R385, R387,
R419): their counts, reads, read-to-clear fields and writes, and CSRR and CSRW (R314).
-/

namespace Sys2Proof.Machine

open Sys2Proof

/-! ## Numbers and indices (R302) -/

/-- The registers a CSR number holds. -/
def csrCount (n : Nat) : Nat :=
  match n with
  | 0x008 => 2 | 0x00A => 193 | 0x010 => 64 | 0x011 => 64 | 0x012 => 64 | 0x020 => 16 | 0x021 => 25 | 0x030 => 2
  | 0x032 => 12 | 0x033 => 50 | 0x034 => 241 | 0x035 => 96 | 0x036 => 6 | 0x040 => 8
  | _ => 1

/-- A number of 64 bits. -/
def d64 (n : Nat) : DWord := BitVec.ofNat 64 n

/-! ## Reads -/

/-- MSTAT (R303). -/
def Csrs.mstat (c : Csrs) : DWord :=
  d64 (c.part.toNat * 2 ^ 16 + c.ppl.toNat * 2 ^ 8 + c.pl.toNat * 2 ^ 4 + b2n c.tl * 4 + b2n c.pie * 2 + b2n c.ie)

/-- The EVQ registers (R309). -/
def Csrs.evq (c : Csrs) (i : Nat) : DWord :=
  if i = 0 then c.evqBase
  else d64 (b2n c.evqEn * 2 ^ 63 + c.evqSize.toNat * 2 ^ 56 + b2n c.evqOvf * 2 ^ 48 + c.evqHead.toNat * 2 ^ 16
    + c.evqTail.toNat)

/-- CORECAP (R323): the fuses' value, which the built-in test of a bring-up may lower (R424); index 192 is the minimum. -/
def coreCapOf (boots i : Nat) : Nat :=
  let cap (c : Nat) : Nat := min 256 (min (Config.coreCap c).toNat (Config.coreTest boots c).toNat)
  if i < 192 then cap i else (List.range 192).foldl (fun m c => min m (cap c)) 256

/-- Lines of a class in some slices' lines, in one slice or in all. -/
def linesOf (lines : List CacheLine) (cls : Nat) (slice : Option Nat) : Nat :=
  (lines.filter fun x => x.cls = cls && (match slice with | some c => x.slice = c | none => true)).length

/-- OCCCNT (R361, R362). -/
def State.occCnt (s : State) (i : Nat) : DWord :=
  if i = 16 then s.csr.occSel.zeroExtend 64
  else if i < 16 then d64 (linesOf (if i % 2 = 1 then s.cache else s.l2) (i / 2) none)
  else
    let sl := s.csr.occSel.toNat % 1024
    if s.csr.occSel.toNat ≥ 1024 then (if sl < 384 then d64 (linesOf s.cache (i - 17) (some sl)) else 0)
    else if sl < 192 then d64 (linesOf s.l2 (i - 17) (some sl))
    else 0

/-- What efdb prints for `x/set msc`: each line of a set as way, class, channel offset and rank, rank 0 the most recently used
(R367). -/
def State.debugSet (s : State) (chan set : Nat) : List (Nat × Nat × Nat × Nat) :=
  let ls := s.cache.filter fun x => x.slice = chan && x.set = set
  (List.range 16).flatMap fun w => (ls.filter fun x => x.way = w).map fun x =>
    (w, x.cls, 128 * x.line, (ls.filter fun y => y.stamp > x.stamp).length)

/-- What efdb prints for `x/stat msc`, before it takes off its previous reading: each class's hits, misses, and hits outside
its mask (R367). -/
def State.debugStat (s : State) (chan : Nat) : List (Nat × Nat × Nat × Nat) :=
  (s.stats.filter fun x => x.slice = chan).map fun x => (x.cls, x.hits, x.misses, x.outside)

/-- THRSTAT (R387). -/
def State.thrStat (s : State) (i : Nat) : DWord :=
  if i < 240 then
    match s.sensors[i]? with
    | some x => d64 (x.peak % 1024 * 2 ^ 32 + x.level % 4 * 2 ^ 10 + x.temp % 1024)
    | none => 0
  else
    let hot := s.sensors.zipIdx.foldl (fun (m : Nat × Nat) x => if x.1.temp > m.1 then (x.1.temp, x.2) else m) (0, 0)
    let n (l : Nat) : Nat := (s.sensors.filter fun x => x.level ≥ l).length
    d64 (hot.2 % 256 * 2 ^ 56 + hot.1 % 1024 * 2 ^ 32 + n 3 % 256 * 2 ^ 16 + n 2 % 256 * 2 ^ 8 + n 1 % 256)

/-- BALSTAT (R375): every field of an index from the last sample; IMBCNT counts until it is read. -/
def State.balStat (s : State) (i : Nat) : DWord :=
  let col := i / 2
  match s.columns[col]? with
  | none => 0
  | some c =>
    if i % 2 = 0 then
      let rail (r : Nat) : Nat := wrap (max (-2048) (min 2047 (c.rails.getD r 0))) 12
      d64 (c.shown.state % 4 * 2 ^ 56 + min 255 c.imbCnt * 2 ^ 48 + rail 2 * 2 ^ 36 + rail 1 * 2 ^ 24 + rail 0 * 2 ^ 12
        + min 4095 c.shown.curr)
    else
      d64 ((List.range 4).foldl (fun n k =>
        n + (min 16 (c.shown.blst.getD k 0) * 2 ^ 8 + min 16 (c.shown.eduty.getD k 16)) * 2 ^ (16 * k)) 0)

/-- SWMATRIX (R369, R370). -/
def State.swMatrix (s : State) (i : Nat) : DWord :=
  if i < 2 then d64 ((List.range 24).foldl (fun n j => n + s.supplyOf (24 * i + j) * 2 ^ (2 * j)) 0)
  else
    match s.supplies[i - 2]? with
    | none => 0
    | some x =>
      d64 (x.effPl % 16 * 2 ^ 56 + s.reqPl (i - 2) % 16 * 2 ^ 52 + x.capL % 16 * 2 ^ 48
        + b2n (x.cen && x.effPl = x.cohort) * 2 ^ 47 + b2n x.late * 2 ^ 46 + x.power % 4096 * 2 ^ 32 + x.limit % 4096)

/-- PLCEIL (R377, R379). -/
def State.plCeil (s : State) (i : Nat) : DWord :=
  if i < 8 then (s.csr.ceil.getD i 0).zeroExtend 64
  else
    match s.supplies[i - 8]? with
    | none => 0
    | some x => d64 (b2n x.cen * 2 ^ 63 + x.next % 16 * 2 ^ 56 + x.atField % 2 ^ 56)

/-- CAPREC (R419). -/
def Csrs.capRec (c : Csrs) (i : Nat) : DWord :=
  match i with
  | 0 => d64 (c.capMode.toNat * 2 ^ 62 + b2n c.capOvf * 2 ^ 61 + b2n c.capDiv * 2 ^ 60)
  | 1 => c.capCtxs
  | 2 => c.capRing
  | 3 => c.capHead ++ c.capTail
  | _ => c.capRange.getD (i - 4) 0

/-- A privileged register. -/
def State.csrRead (s : State) (n i : Nat) : DWord :=
  let c := s.csr
  match n with
  | 0x000 => c.mstat
  | 0x001 => c.trapVec
  | 0x002 => d64 (b2n c.trapInt * 2 ^ 63 + c.trapCode.toNat)
  | 0x003 => c.trapInfo
  | 0x004 => c.trapIp
  | 0x005 => d64 s.intPending
  | 0x006 => c.intEn
  | 0x007 => c.timeCmp
  | 0x008 => c.evq i
  | 0x00A => d64 (coreCapOf s.rel.boots i)
  | 0x010 =>
    d64 (b2n (c.ctxValid.getLsbD i) * 2 ^ 63 + (c.ctxPart.getD i 0).toNat * 2 ^ 56 + (c.ctxAsid.getD i 0).toNat)
  | 0x011 => c.ptBase.getD i 0
  | 0x012 => (c.nbv.getD i 0).zeroExtend 64
  | 0x020 => (c.qosMask.getD i 0).zeroExtend 64
  | 0x021 => s.occCnt i
  | 0x030 => if i = 0 then d64 (c.tokens % 2 ^ 32) else d64 (b2n c.auth * 2 ^ 63)
  | 0x031 => d64 (min 255 c.overn * 2 ^ 48 + c.debt % 2 ^ 32)
  | 0x032 => s.plCeil i
  | 0x033 => if i < 2 then c.thrcfg.getD i 0 else d64 (c.duty.getD (i - 2) 0)
  | 0x034 => s.thrStat i
  | 0x035 => s.balStat i
  | 0x036 => s.swMatrix i
  | 0x040 => c.capRec i
  | _ => 0

/-- The read-to-clear fields that a read of the masked bits clears (R7). -/
def State.csrClear (s : State) (n i : Nat) (mask : DWord) : State :=
  match n with
  | 0x031 => if touches mask 55 48 then { s with csr := { s.csr with overn := 0 } } else s
  | 0x034 => if touches mask 41 32 then { s with sensors := updAt s.sensors i fun x => { x with peak := 0 } } else s
  | 0x035 =>
    if i % 2 = 0 && touches mask 55 48 then { s with columns := updAt s.columns (i / 2) fun c => { c with imbCnt := 0 } }
    else s
  | _ => s

/-! ## Writes -/

/-- MSTAT written: PART at hypervisor level alone (R303). -/
def Csrs.writeMstat (c : Csrs) (x mask : DWord) (hyper : Bool) : Csrs :=
  let n := (mergeReg c.mstat x mask (fieldMask 18 16 ||| fieldMask 9 8 ||| fieldMask 2 0)).toNat
  { c with part := if hyper then BitVec.ofNat 3 (bits n 18 16) else c.part
           ppl := BitVec.ofNat 2 (bits n 9 8), tl := bit n 2, pie := bit n 1, ie := bit n 0 }

/-- The queue area reaches M or beyond (R309). -/
def evqBeyond (base size : Nat) : Bool := base + 64 * 2 ^ (size + 6) > hbmSize

/-- EVQ written (R309): ignored whole where an enabled queue would reach beyond HBM; a move of a queue that is not empty
leaves the old area open for later entries. -/
def Csrs.writeEvq (c : Csrs) (i : Nat) (x mask : DWord) : Csrs :=
  let n := (if i = 0 then mergeReg (c.evq 0) x mask (fieldMask 39 12)
    else mergeReg (c.evq 1) x mask (fieldMask 63 63 ||| fieldMask 58 56 ||| fieldMask 15 0)).toNat
  let c' := if i = 0 then { c with evqBase := d64 n }
    else { c with
      evqEn := bit n 63, evqSize := BitVec.ofNat 3 (bits n 58 56), evqTail := BitVec.ofNat 16 n
      evqOvf := c.evqOvf && !(touches mask 48 48 && x.getLsbD 48) }
  let moved := c'.evqBase != c.evqBase || c'.evqSize != c.evqSize
  if c'.evqEn && evqBeyond c'.evqBase.toNat c'.evqSize.toNat then c
  else
    { c' with evqOld :=
        if !c'.evqEn then []
        else if moved && c.evqEn && c.evqHead != c.evqTail then (c.evqBase.toNat, c.evqSize.toNat) :: c.evqOld
        else if moved then [] else c.evqOld }

/-- CTXID written (R326): a context that comes to exist has NBV 2 and the nominal requested level, and its request ends
with it (R285). -/
def State.writeCtxid (s : State) (k : Nat) (x mask : DWord) : State :=
  let old := s.csrRead 0x010 k
  let n := (mergeReg old x mask (fieldMask 63 63 ||| fieldMask 58 56 ||| fieldMask 15 0)).toNat
  let fresh := bit n 63 && !s.csr.ctxValid.getLsbD k
  let other := bit n 63 != s.csr.ctxValid.getLsbD k
  let c := { s.csr with
    ctxValid := BitVec.ofNat 64 (setBits s.csr.ctxValid.toNat k 1 (b2n (bit n 63)))
    ctxPart := setAt s.csr.ctxPart k (BitVec.ofNat 3 (bits n 58 56))
    ctxAsid := setAt s.csr.ctxAsid k (BitVec.ofNat 16 n)
    nbv := if fresh then setAt s.csr.nbv k 2 else s.csr.nbv }
  if other then ({ s with csr := c, ctxs := updAt s.ctxs k fun y => { y with reqPl := 8 } } : State).relevel
  else { s with csr := c }

/-- MINT (R381): ignored without AUTH, or where the sum would leave the range. -/
def State.mint (s : State) (x : DWord) : State :=
  let t : Int := s.csr.tokens + toSigned 32 x.toNat
  if s.csr.auth && 0 ≤ t && t < 2 ^ 32 then { s with csr := { s.csr with tokens := t.toNat } } else s

/-- PLCEIL written (R377, R379): CEIL at hypervisor level; the cohort control of a supply. -/
def State.writePlceil (s : State) (i : Nat) (x mask : DWord) (hyper : Bool) : State :=
  if i < 8 then
    if hyper then
      let n := (mergeReg (s.plCeil i) x mask (fieldMask 3 0)).toNat
      ({ s with csr := { s.csr with ceil := setAt s.csr.ceil i (BitVec.ofNat 4 n) } } : State).relevel
    else s
  else
    let n := (mergeReg (s.plCeil i) x mask (fieldMask 63 63 ||| fieldMask 59 0)).toNat
    let soon := n % 2 ^ 56 < s.ftime + 10000
    ({ s with supplies := updAt s.supplies (i - 8) fun u =>
        { u with cen := bit n 63, next := bits n 59 56, atField := n % 2 ^ 56
                 adoptAt := if soon then s.ftime + 10000 else n % 2 ^ 56
                 late := u.late || soon, pending := true
                 cohort := if bit n 63 && !u.cen then u.effPl else u.cohort } } : State).relevel

/-- The fused limit of CRIT (R385). -/
def critLimit (i : Nat) : Nat := if i = 0 then 0x1B8 else 0x1A4

/-- THRCFG written (R385). -/
def State.writeThrcfg (s : State) (i : Nat) (x mask : DWord) (hyper : Bool) : State :=
  if i < 2 then
    let n := (mergeReg (s.csr.thrcfg.getD i 0) x mask (fieldMask 47 0)).toNat
    if hyper && thrOf n 1 < thrOf n 2 && thrOf n 2 < thrOf n 3 && thrOf n 3 ≤ critLimit i then
      { s with csr := { s.csr with thrcfg := setAt s.csr.thrcfg i (d64 n) } }
    else s
  else
    let n := (mergeReg (d64 (s.csr.duty.getD (i - 2) 0)) x mask (fieldMask 4 0)).toNat
    if 1 ≤ n && n ≤ 16 then { s with csr := { s.csr with duty := setAt s.csr.duty (i - 2) n } } else s

/-- A column holds an admitted block, has a resident one, or runs ballast (R369). -/
def State.columnBusy (s : State) (col : Nat) : Bool :=
  (s.blocks.any fun b => !(b.state = .retired || b.state = .saved) && b.parts.any fun p => columnOf p.core = col) ||
    (match s.columns[col]? with
      | some c => decide (c.ramp > (s.uptime - c.rampAt) / 2) || (c.ramped s.uptime).blst.any fun x => decide (x > 0)
      | none => false)

/-- An assignment connects a supply of a column of tower `t` to columns of two partitions (R355, R369). -/
def State.supplyClash (s : State) (t : Nat) (m : List (BitVec 2)) : Bool :=
  (List.range 48).any fun c => c / 24 = t && (List.range 48).any fun e =>
    m.getD e 0 = m.getD c 0 &&
      match s.tenantOfColumn c, s.tenantOfColumn e with
      | some p, some q => p != q
      | _, _ => false

/-- SWMATRIX written at hypervisor level (R369, R370). -/
def State.writeSwmatrix (s : State) (i : Nat) (x mask : DWord) : State :=
  if i < 2 then
    let n := (mergeReg (s.swMatrix i) x mask (fieldMask 47 0)).toNat
    let m := (List.range 48).map fun c =>
      if c / 24 = i then BitVec.ofNat 2 (n / 2 ^ (2 * (c % 24))) else s.csr.supply.getD c 0
    let moved := (List.range 48).filter fun c => m.getD c 0 != s.csr.supply.getD c 0
    if s.supplyClash i m || moved.any s.columnBusy then s
    else
      let s1 := { s with csr := { s.csr with supply := m } }
      ({ s1 with supplies := s1.supplies.zipIdx.map fun (u : Supply × Nat) =>
          let on := !(s1.domain u.2).isEmpty
          { u.1 with on := on && !s.powerOff.any fun t => decide (t ≤ s.uptime)
                     power := if on then u.1.power else 0 } } : State).relevel
  else
    let n := (mergeReg (s.swMatrix i) x mask (fieldMask 11 0)).toNat % 4096
    ({ s with supplies := updAt s.supplies (i - 2) fun u =>
        { u with late := u.late && !(touches mask 46 46 && x.getLsbD 46)
                 limit := if n ≤ 1300 then n else u.limit } } : State).relevel

/-- PTBASE written (R348). Until TLBINV.CTX the context's descriptors may still be used after EN has gone to 0 (R349,
R352). -/
def State.writePtBase (s : State) (k : Nat) (x : DWord) : State :=
  let s1 := { s with csr := { s.csr with ptBase := setAt s.csr.ptBase k x } }
  if s.ctxEnabled k && !x.getLsbD 0 then s1.updCtx k fun c => (List.range 64).foldl CtxBlock.replaced c else s1

/-- CAPREC written (R419): after a write of MODE a replay that had timed out holds events again (R422); a write of 3 leaves
MODE and all that goes with it. -/
def Csrs.writeCapRec (c : Csrs) (i : Nat) (x mask : DWord) : Csrs :=
  let new (rw : DWord) : DWord := mergeReg (c.capRec i) x mask rw
  match i with
  | 0 =>
    let m := bits (new (fieldMask 63 62)).toNat 63 62
    let moded := touches mask 63 62 && m ≠ 3
    { c with
      capMode := if moded then BitVec.ofNat 2 m else c.capMode
      capFree := c.capFree && !moded
      capEarly := if moded then [] else c.capEarly
      capMarks := if moded then [] else c.capMarks
      capSince := if moded then none else c.capSince
      capOvf := c.capOvf && !(touches mask 61 61 && x.getLsbD 61)
      capDiv := c.capDiv && !(touches mask 60 60 && x.getLsbD 60) }
  | 1 => if c.capMode = 0 then { c with capCtxs := new (fieldMask 63 0) } else c
  | 2 => if c.capMode = 0 then { c with capRing := new (fieldMask 39 12 ||| fieldMask 3 0) } else c
  | 3 => { c with capTail := (new (fieldMask 31 0)).extractLsb' 0 32 }
  | _ =>
    if c.capMode = 0 then
      { c with capRange := setAt c.capRange (i - 4) (new (fieldMask 63 44 ||| fieldMask 39 12 ||| 1)) }
    else c

/-- The blocks an event's answer concerns: the event that a BLKCTL write names, when the writer may answer it (R310). -/
def State.answerable (s : State) (seq : Nat) (hyper : Bool) : Option Event :=
  s.events.find? fun e =>
    e.seq = seq && e.parked && e.answer.isNone && (hyper || e.tpart = s.csr.part.toNat) &&
      !((s.tenants[e.tpart]?).map (·.rbusy)).getD false

/-- Lanes of a group moved past the instruction they trapped at, or past both slots of a pair (R310). -/
def State.skipLanes (s : State) (b g : Nat) (lanes : Word) (pair : Bool) : State :=
  let iss := Issuer.unit b g 0
  match s.groupOf iss with
  | none => s
  | some x =>
    -- the units that hold exactly the trapped lanes give them up, and the lanes are placed at their next IP
    let ls := (lanesOf lanes).filter fun l => (x.thread l).status = .ready
    let x := ls.foldl (fun x l => x.updThread l fun t => if pair then t.advance.advance else t.advance) x
    let units := (x.units.map fun u => { u with lanes := u.lanes &&& ~~~(maskOf ls) }).filter fun u => u.lanes ≠ 0
    s.ready iss { x with units } ls (fun _ => false) none

/-- A block killed (R310, R200): every thread ends, and it retires; its engine commands run on. -/
def State.killBlock (s : State) (b : Nat) : State :=
  match s.block? b with
  | none => s
  | some x =>
    let s := (List.range x.groups.length).foldl (fun (s : State) g =>
      let s := s.updGroup (.unit b g 0) fun y => { (y.endLanes (List.range 32)).1 with units := [] }
      s.dropLoaders b g 0xFFFFFFFF) s
    (s.retire b).settle

/-- The trapped lanes of a pair issue it again as a pair (R35). -/
def State.pairAgain (s : State) (b g : Nat) (lanes : Word) : State :=
  s.updGroup (.unit b g 0) fun x => (lanesOf lanes).foldl (fun x l => x.updThread l fun t => { t with again := true }) x

/-- The requests to other devices of the lanes that an event concerns are over (R401). -/
def State.dropRequests (s : State) (e : Event) : State :=
  if s.fabric.requests.isEmpty then s
  else s.setRequests (s.fabric.requests.filter fun r => !(r.block = e.block && e.lanes.any fun l => l.1 = r.group && l.2.getLsbD r.lane))

/-- An answer applied to its block (R310). An access that had waited for another device is issued anew (R401). -/
def State.applyAnswer (s : State) (e : Event) : State :=
  let s := s.dropRequests e
  match e.answer with
  | some .kill => s.killBlock e.block
  | some .skip => e.lanes.foldl (fun (s : State) x => s.skipLanes e.block x.1 x.2 e.pair) s
  | some .resume => if e.pair then e.lanes.foldl (fun (s : State) x => s.pairAgain e.block x.1 x.2) s else s
  | _ => s

/-- A part of the block is saved or being saved or restored. -/
def Block.partAway (b : Block) : Bool := b.parts.any fun p => decide (p.state ≠ .resident)

/-- The groups that an event concerns run on a part that is not resident. -/
def State.eventAway (s : State) (e : Event) : Bool :=
  match s.block? e.block with
  | none => false
  | some x => e.lanes.any fun l => ((x.part (x.partOf l.1)).map fun p => decide (p.state ≠ .resident)).getD false

/-- An event answered: applied at once, or, for an event of a saved part, recorded and applied at restore (R310,
R322). -/
def State.answer (s : State) (seq : Nat) (a : Answer) (hyper : Bool) : State :=
  match s.answerable seq hyper with
  | none => s
  | some e =>
    let e' := { e with answer := some a }
    if s.eventAway e then { s with events := s.events.map fun x => if x = e then e' else x }
    else ({ s with events := s.events.erase e } : State).applyAnswer e'

/-- The action of a BLKCTL write (R310). -/
def answerOf (act : Nat) : Option Answer :=
  match act with
  | 1 => some .resume
  | 2 => some .skip
  | 3 => some .kill
  | _ => none

/-- BLKCTL written (R310). -/
def State.writeBlkctl (s : State) (x mask : DWord) (hyper : Bool) : State :=
  let n := (x &&& mask).toNat
  match answerOf (bits n 63 62) with
  | some a => s.answer (n % 2 ^ 32) a hyper
  | none => s

/-- A store of the bits of `mask` to a privileged register, at hypervisor level or not (R7, R302, R314). -/
def State.csrWrite (s : State) (n i : Nat) (x mask : DWord) (hyper : Bool) : State :=
  let new (rw : DWord) : DWord := mergeReg (s.csrRead n i) x mask rw
  let c := s.csr
  match n with
  | 0x000 => { s with csr := c.writeMstat x mask hyper }
  | 0x001 => if hyper then { s with csr := { c with trapVec := new (fieldMask 39 6) } } else s
  | 0x002 =>
    let v := new (fieldMask 63 63 ||| fieldMask 7 0)
    { s with csr := { c with trapInt := v.getLsbD 63, trapCode := v.extractLsb' 0 8 } }
  | 0x003 => { s with csr := { c with trapInfo := new (fieldMask 63 0) } }
  | 0x004 => { s with csr := { c with trapIp := new (fieldMask 63 0) } }
  | 0x005 => { s with csr := { c with intPend := c.intPend &&& ~~~((x &&& mask &&& fieldMask 8 5).extractLsb' 0 9) } }
  | 0x006 => { s with csr := { c with intEn := new (fieldMask 8 0) } }
  | 0x007 => { s with csr := { c with timeCmp := new (fieldMask 63 0) } }
  | 0x008 => { s with csr := c.writeEvq i x mask }
  | 0x009 => s.writeBlkctl x mask hyper
  | 0x010 => if hyper then s.writeCtxid i x mask else s
  | 0x011 => s.writePtBase i (new (fieldMask 39 12 ||| 1))
  | 0x012 =>
    let v := (new (fieldMask 1 0)).toNat % 4
    if v = 0 || v = 3 then s else { s with csr := { c with nbv := setAt c.nbv i (BitVec.ofNat 2 v) } }
  | 0x020 => if hyper then { s with csr := { c with qosMask := setAt c.qosMask i ((new (fieldMask 15 0)).extractLsb' 0 16) } } else s
  | 0x021 => if hyper && i = 16 then { s with csr := { c with occSel := (new (fieldMask 10 0)).extractLsb' 0 11 } } else s
  | 0x030 => if hyper && i = 1 && touches mask 31 0 then s.mint (x &&& mask) else s
  | 0x032 => s.writePlceil i x mask hyper
  | 0x033 => s.writeThrcfg i x mask hyper
  | 0x036 => if hyper then s.writeSwmatrix i x mask else s
  | 0x040 => if hyper then { s with csr := c.writeCapRec i x mask } else s
  | _ => s

/-! ## CSRR and CSRW (R302, R314) -/

/-- The level at which an instruction of the management core acts, checked again where the instruction runs: ILLEGAL with
reason 4 below the lowest level of its form (R138, R300, R313). -/
def State.system (s : State) (i : Instr) (run : Out) : Out :=
  match s.privilege i with
  | some r => .next (s.takeTrap (mkTrap .illegal 0 (((s.ctx?).map fun c => c.lanes.headD 0).getD 0) r))
  | none => run

/-- ACCESS of a CSR access (R302): the index stands as the address, kind 7 (notes/assumptions/30.md). -/
def State.csrTrap (s : State) (n i lane : Nat) (write : Bool) : List Trap :=
  let away (p : Option Nat) : Bool := p ≠ some s.csr.part.toNat
  let low := !s.isHyper
  let bad := i ≥ csrCount n ||
    (low && ((n = 0x010 || n = 0x011 || n = 0x012) && s.tenantOf i ≠ s.csr.part.toNat ||
      write && (n = 0x033 && i ≥ 2 && away (s.tenantOfColumn (i - 2)) ||
        n = 0x032 && i ≥ 8 && (s.domain (i - 8)).any fun c => away (s.tenantOfColumn c))))
  if bad then [mkTrap .access 15 lane (i % 2 ^ 52 + 7 * 2 ^ 52)] else []

/-- The CSR number and the index of a form. -/
def csrNum (f : Fields) : Nat := f.immBits 11 0
def State.csrIdx (s : State) (c : Ctx) (f : Fields) (l : Nat) : Nat := (s.operand c.rd l f false f.b).toNat

/-- The bits a form reads or writes. -/
def csrMask (f : Fields) : DWord := if f.ty.pair then fieldMask 63 0 else fieldMask 31 0

/-- CSRR (R314). -/
def execCsrr (f : Fields) (s : State) : Out :=
  s.system (.csrr f) <|
    s.memForm 0xE0 f fun s c agents =>
      guardTraps (agents.flatMap fun a => s.csrTrap (csrNum f) (s.csrIdx c f a.1) a.1 false) <|
        .ok (agents.foldl (fun s a =>
          let i := s.csrIdx c f a.1
          let x := s.csrRead (csrNum f) i
          (s.csrClear (csrNum f) i (csrMask f)).updGroup s.cur fun g => g.writeDst a.1 f.d f.ty.pair x) s |>.commitCur c)

/-- CSRW (R314): writes the register under the access codes of its fields; a write of N32 leaves bits 63 to 32. -/
def execCsrw (f : Fields) (s : State) : Out :=
  s.system (.csrw f) <|
    s.memForm 0xE1 f fun s c agents =>
      guardTraps (agents.flatMap fun a => s.csrTrap (csrNum f) (s.csrIdx c f a.1) a.1 true) <|
        .ok ((agents.foldl (fun s a =>
          s.csrWrite (csrNum f) (s.csrIdx c f a.1) (s.operand c.rd a.1 f f.ty.pair f.a) (csrMask f) s.isHyper) s).commitCur c)

end Sys2Proof.Machine
end

