-- ==== Sys2Proof/Machine/System.lean ====
section
/-!
DEFINITION. The system instructions ERET to CAPMK (R313 to R318, R324, R325), the event queue (R308, R309), BLKCTL's
answers (R310), the interrupts of the management core (R311, R312), and the register writes that stand as steps of their
own (R326, R369, R379, R381, R385, R417).
-/

namespace Sys2Proof.Machine

open Sys2Proof

/-! ## ERET, WFI, SEV, INTACK -/

/-- ERET (R315): the level, IE and the IP come back; a refused level raises ACCESS, an IP that R133 refuses BADTARGET. -/
def execEret (f : Fields) (s : State) : Out :=
  s.system (.eret f) <|
    s.memForm 0xE2 f fun s c agents =>
      match agents with
      | [] => .ok (s.commit c c.g (fun _ => .next) true 0)
      | a :: _ =>
        let l := a.1
        let ppl := s.csr.ppl.toNat
        if ppl = 0 || ppl = 3 || ppl > s.csr.pl.toNat then .error (.trap (mkTrap .access 15 l (ppl + 7 * 2 ^ 52)))
        else if !s.ipOk s.csr.trapIp then .error (.trap (mkTrap .badTarget 16 l (s.csr.trapIp.toNat % 2 ^ 52)))
        else .ok s.returnFromTrap

/-- WFI (R316): held until a source pends that is enabled, whatever IE is. -/
def execWfi (f : Fields) (s : State) : Out :=
  s.system (.wfi f) <|
    s.memForm 0xE3 f fun s c agents =>
      if agents.isEmpty || s.takenSource.isSome then
        .ok (({ s with mgmt := { s.mgmt with inWfi := false } } : State).commit c c.g (fun _ => .next) true 0)
      else .ok { s with mgmt := { s.mgmt with inWfi := true } }

/-- SEV (R317). -/
def execSev (f : Fields) (s : State) : Out :=
  s.system (.sev f) <|
    s.memForm 0xE4 f fun s c agents =>
      let vec (l : Nat) : Nat := (s.operand c.rd l f false f.a).toNat % 2 ^ 16
      let part (l : Nat) : Nat := bits (s.operand c.rd l f false f.a).toNat 18 16
      let count (l : Nat) : Nat := ((s.tenants[part l]?).map (·.vcnt.toNat)).getD 0
      guardTraps (agents.flatMap fun a =>
          if vec a.1 ≥ count a.1 || (!s.isHyper && part a.1 ≠ s.csr.part.toNat) then
            [mkTrap .access 15 a.1 (vec a.1 + part a.1 * 2 ^ 16 + 7 * 2 ^ 52)]
          else []) <|
        .ok (agents.foldl (fun (s : State) a =>
          s.raiseMsix (((s.tenants[part a.1]?).map (·.vbase.toNat)).getD 0 + vec a.1)) s |>.commitCur c)

/-- INTACK (R316): the lowest taken source, whose W1C bit it clears. -/
def execIntack (f : Fields) (s : State) : Out :=
  s.system (.intack f) <|
    s.memForm 0xE5 f fun s c agents =>
      .ok (agents.foldl (fun (s : State) a =>
        let x : DWord := match s.takenSource with | some i => BitVec.ofNat 64 i | none => 0x80000000
        let s := match s.takenSource with
          | some i => { s with csr := { s.csr with intPend := s.csr.intPend &&& ~~~(BitVec.ofNat 9 (2 ^ i)) } }
          | none => s
        s.updGroup s.cur fun g => g.writeDst a.1 f.d false x) s |>.commitCur c)

/-! ## TLBINV (R318) -/

/-- A thread of a context has a SYSTEM store still to take its place. -/
def State.ctxStores (s : State) (ctx : Nat) : Bool :=
  s.blocks.any fun b => s.ctxOfLaunch b.launch = ctx && b.groups.any fun g => g.threads.any Thread.sysPending

/-- TLBINV: the named translations are removed, with `whole` the replaced descriptors of the context too (R352), held until every access that used one has its place. -/
def State.tlbInv (s : State) (f : Fields) (whole : Bool) (gone : Nat → Nat → TlbEntry → Bool) : Out :=
  s.memForm 0xE6 f fun s c agents =>
    let ctx (l : Nat) : Nat := (s.operand c.rd l f false f.a).toNat
    let va (l : Nat) : Nat := (s.operand c.rd l f true f.b).toNat
    guardTraps (agents.flatMap fun a =>
        if ctx a.1 > 63 || (!s.isHyper && s.tenantOf (ctx a.1) ≠ s.csr.part.toNat) then
          [mkTrap .access 15 a.1 (ctx a.1 % 2 ^ 52 + 7 * 2 ^ 52)]
        else []) <|
      if agents.any fun a => s.ctxStores (ctx a.1) then .error .hold
      else
        let s := if whole then agents.foldl (fun s a => s.updCtx (ctx a.1) fun x => { x with oldDesc := [] }) s else s
        .ok (({ s with tlb := s.tlb.filter fun t => !(agents.any fun a => gone (ctx a.1) (va a.1) t) } : State).commitCur c)

/-- TLBINV.CTX (R318). -/
def execTlbinvCtx (f : Fields) (s : State) : Out :=
  s.system (.tlbinvCtx f) <| s.tlbInv f true fun ctx _ t => t.ctx = ctx

/-- TLBINV.PAGE (R318): the translations of the page that holds the address. -/
def execTlbinvPage (f : Fields) (s : State) : Out :=
  s.system (.tlbinvPage f) <| s.tlbInv f false fun ctx va t => t.ctx = ctx && t.va ≤ va && va < t.va + t.size

/-! ## TOKXF, CAPMK -/

/-- TOKXF (R324): tokens leave in the event that sends the message. -/
def execTokxf (f : Fields) (s : State) : Out :=
  s.system (.tokxf f) <|
    s.memForm 0xE9 f fun s c agents =>
      .ok (agents.foldl (fun (s : State) a =>
        let dev := (s.operand c.rd a.1 f false f.a).toNat % 2 ^ 11
        let n := (s.operand c.rd a.1 f false f.b).toNat
        if n > s.csr.tokens then s.updGroup s.cur fun g => g.writeDst a.1 f.d false 1
        else
          ({ s with
            csr := { s.csr with tokens := s.csr.tokens - n }
            fabric := { s.fabric with
              waggles := s.fabric.waggles ++ [⟨dev, BitVec.ofNat 32 n, s.ftime⟩] } } : State).updGroup s.cur fun g =>
                g.writeDst a.1 f.d false 0) s |>.commitCur c)

/-- A recorded mark of a block (R420). -/
def isMark (ctx blk : Nat) (r : List Byte) : Bool := leAt r 0 1 = 5 && leAt r 1 1 = ctx && leAt r 20 4 = blk

/-- The next recorded mark of a block. Once a timeout has released a replay (R422), records before it may stay unmatched, so
that the marks compared since are counted. -/
def State.nextMark (s : State) (ctx blk : Nat) : Option (List Byte) :=
  let seen := (s.csr.capMarks.filter fun m => m = (ctx, blk)).length
  (((List.range s.csr.capSize).filterMap s.capAhead).filter (isMark ctx blk))[seen]?

/-- A mark compared and found equal (R325): its record is matched where it stands at HEAD. -/
def State.markMet (s : State) (ctx blk : Nat) : State :=
  if s.csr.capFree && !(s.capNext.map (isMark ctx blk)).getD false then
    { s with csr := { s.csr with capMarks := s.csr.capMarks ++ [(ctx, blk)] } }
  else s.capMatch ctx (isMark ctx blk)

/-- CAPMK (R325): records the mark under capture; under replay compares it with the next recorded mark of its block. It
belongs to a context, so on the management core it has no effect (notes/assumptions/34.md). -/
def execCapmk (f : Fields) (s : State) : Out :=
  s.memForm 0xEA f fun s c agents =>
    let real := agents.filter fun a => !(c.rd.thread a.1).helper
    match real, s.cur with
    | a :: _, .unit b _ _ =>
      let x := (s.operand c.rd a.1 f false f.a).toNat
      let ctx := s.ctxOf
      let blk := ((s.block? b).map (·.index)).getD 0
      let mine := isMark ctx blk
      if s.capOn 1 ctx then
        .ok ((s.capAppend 5 ctx 0 (leBytes 4 x ++ leBytes 4 blk)).commitCur c)
      else if s.capHolds ctx mine then .ok (s.capWait mine)
      else
        match (if !s.capOn 2 ctx then none else if s.csr.capFree then s.nextMark ctx blk else s.capNext) with
        | some r =>
          if leAt r 16 4 = x then .ok ((s.markMet ctx blk).commitCur c)
          else .error (.trap (mkTrap .replay 15 a.1 x))
        | none => .ok (s.commit c c.g (fun _ => .next) true 0)
    | _, _ => .ok (s.commit c c.g (fun _ => .next) true 0)

/-! ## The event queue (R308, R309) -/

/-- The bytes of an entry (R308). Where no block is concerned, BLKIDX and TRAPIP are not stated: free values. -/
def Event.bytes (e : Event) (time : Nat) (seq : Nat) (open_ : DWord) : List Byte :=
  let none_ := e.blkWord = 0xFFFFFFFF
  leBytes 8 time ++ leBytes 4 seq ++ [BitVec.ofNat 8 e.cause.code, BitVec.ofNat 8 (b2n e.parked + 2 * b2n e.savedPart),
    BitVec.ofNat 8 e.ctx, BitVec.ofNat 8 e.tpart] ++ leBytes 4 e.blkWord.toNat
    ++ leBytes 4 (if none_ then open_.toNat else e.blkIdx.toNat)
    ++ leBytes 8 (if none_ then open_.toNat else e.trapIp.toNat) ++ leBytes 8 e.info.toNat
    ++ (e.extra ++ List.replicate 24 0).take 24

/-- Entries the queue holds. -/
def evqEntries (size : Nat) : Nat := 2 ^ (size + 6)

/-- EVENT_POST (R309): the `k`th waiting event, no event of its block waiting before it, is written at HEAD; while the
queue is full it waits, OVF is set and EVQOVF pends; while EN is 0, and after a package power-down (R388), it waits. -/
def execEventPost (k : Nat) (s : State) : Out :=
  match s.waiting[k]? with
  | none => .next s
  | some e =>
    let c := s.csr
    if !c.evqEn || s.powerOff.isSome || (s.waiting.take k).any fun d => e.block ≠ 0 && d.block = e.block then .next s
    else if (c.evqHead - c.evqTail).toNat ≥ evqEntries c.evqSize.toNat then
      .next (({ s with csr := { c with evqOvf := true } } : State).setPend 8)
    else
      let areas := (c.evqBase.toNat, c.evqSize.toNat) :: c.evqOld
      let area := (oneOf (Config.freeValue s.fresh).toNat areas).getD (c.evqBase.toNat, c.evqSize.toNat)
      let e := { e with
        seq := s.evSeq, savedPart := ((s.block? e.block).map Block.partAway).getD false }
      let at_ := area.1 + 64 * (c.evqHead.toNat % evqEntries area.2)
      .next { s.snoopOut (.dev at_) with
        mem := if at_ + 64 ≤ hbmSize then
            s.mem.setBytes at_ (e.bytes s.ftime s.evSeq (Config.freeValue (s.fresh + 1))) else s.mem
        fresh := s.fresh + 2
        csr := { c with evqHead := c.evqHead + 1 }
        evSeq := (s.evSeq + 1) % 2 ^ 32
        waiting := s.waiting.eraseIdx k
        events := if e.parked then s.events ++ [e] else s.events }

/-- BLKCTL_RESUME (R310): a BLKCTL write of the management core at its level. -/
def execBlkctlResume (seq : Word) (s : State) : Out := .next (s.answer seq.toNat .resume s.isHyper)

/-- BLKCTL_SKIP (R310). -/
def execBlkctlSkip (seq : Word) (s : State) : Out := .next (s.answer seq.toNat .skip s.isHyper)

/-- BLKCTL_KILL (R310). -/
def execBlkctlKill (seq : Word) (s : State) : Out := .next (s.answer seq.toNat .kill s.isHyper)

/-! ## Interrupts (R312) -/

/-- The management core may take an interrupt (R312). -/
def State.interrupted (s : State) : Bool := s.csr.ie && s.takenSource.isSome && !s.mgmt.halted && !s.stopped

/-- The IP after a held WFI lies outside HBM: its end raises BADTARGET (R301). -/
def State.wfiStrays (s : State) : Bool :=
  s.mgmt.inWfi && !({ s with cur := .mgmt } : State).ipOk (s.mgmt.group.thread 0).advance.ip

/-- INTERRUPT_ENTRY (R312): TRAPVEC is entered between instructions; a held or parked instruction is abandoned and
TRAPIP holds its IP; a WFI is over first, and TRAPIP holds its next IP (R316). A WFI whose next IP lies outside HBM takes
BADTARGET in its place, and has no effect (R301). -/
def execInterruptEntry (s : State) : Out :=
  if !s.interrupted then .next s
  else if s.wfiStrays then
    let s1 : State := { s with cur := .mgmt, mgmt := { s.mgmt with inWfi := false } }
    .next (s1.takeTrap (mkTrap .badTarget 30 0 (s1.imageOffset (s.mgmt.group.thread 0).advance.ip % 2 ^ 52)))
  else
    let t := s.mgmt.group.thread 0
    let t := if s.mgmt.inWfi then t.advance else t
    let s1 := { s with mgmt := { s.mgmt with
      inWfi := false, group := s.mgmt.group.updThread 0 fun _ => t } }
    .next (s1.enterTrapVec true (s.takenSource.getD 0) 0 t.ip)

/-! ## Register writes as steps -/

/-- CTXID_WRITE (R326). -/
def execCtxidWrite (k : BitVec 6) (x : DWord) (s : State) : Out :=
  .next (s.csrWrite 0x010 k.toNat x (fieldMask 63 0) s.isHyper)

/-- SWMATRIX_WRITE (R369). -/
def execSwmatrixWrite (t : Bool) (x : DWord) (s : State) : Out :=
  .next (s.csrWrite 0x036 (b2n t) x (fieldMask 63 0) s.isHyper)

/-- COHORT_WRITE (R379). -/
def execCohortWrite (d : BitVec 2) (x : DWord) (s : State) : Out :=
  .next (s.csrWrite 0x032 (8 + d.toNat) x (fieldMask 63 0) s.isHyper)

/-- MINT (R381). -/
def execMint (x : Word) (s : State) : Out :=
  .next (s.csrWrite 0x030 1 (x.zeroExtend 64) (fieldMask 63 0) s.isHyper)

/-- THRCFG_WRITE (R385). -/
def execThrcfgWrite (i : Nat) (x : DWord) (s : State) : Out :=
  .next (s.csrWrite 0x033 i x (fieldMask 63 0) s.isHyper)

/-- A 64-bit store of the management core to a control register, when its level reaches it. -/
def State.ctlStore (s : State) (r : CtlReg) (x : DWord) : State :=
  if s.ctlMay r then s.ctlWrite r x (fieldMask 63 0) s.isHyper else s

/-- CLRPOIS (R417). -/
def execClrpois (a : Nat) (s : State) : Out := .next (s.ctlStore (.tenant 0 0xA18) (d64 (a / 64 * 64)))

/-- PARTITION_RESET (R358). -/
def execPartitionReset (p : BitVec 3) (s : State) : Out := .next (s.ctlStore (.tenant p.toNat 0) 1)

/-- PARTITION_RESET_DONE (R358): step 6. -/
def execPartitionResetDone (p : BitVec 3) (s : State) : Out := .next (s.partitionResetDone p.toNat)

/-- COLL_GROUP_OPEN (R406): V := 1 in an entry of a context opens a group. -/
def execCollGroupOpen (ctx : BitVec 6) (entry : BitVec 5) (gid : BitVec 16) (s : State) : Out :=
  .next (s.ctlStore (.ctx ctx.toNat (0xC00 + 32 * entry.toNat)) (d64 (2 ^ 63 + gid.toNat)))

/-- JOB_REGISTER_WRITE (R404). -/
def execJobRegisterWrite (p : BitVec 3) (x : DWord) (s : State) : Out := .next (s.ctlStore (.tenant p.toNat 0x60) x)

/-- MGMT_MAILBOX_WRITE (R398): the management core writes a word of MDATA, or MSEQ, which raises the host. -/
def execMgmtMailboxWrite (i : BitVec 3) (x : DWord) (s : State) : Out :=
  .next (s.ctlStore (.tenant 0 (0x940 + 8 * i.toNat)) x)

/-- READ_TO_CLEAR (R7): a CSRR of an index, or a load of a reliability register, returns its RC fields and clears them. -/
def execReadToClear (csr : Bool) (n i : Nat) (s : State) : Out :=
  if csr then .next (s.csrClear n i (fieldMask 63 0))
  else
    match ctlReg n with
    | some r => if s.ctlMay r then .next (s.ctlClear r (fieldMask 63 0)) else .next s
    | none => .next s

end Sys2Proof.Machine
end

