-- ==== Sys2Proof/Machine/Sched.lean ====
section
/-!
DEFINITION. The scheduler of spec/16_scheduling.md: launch queues and records (R327 to R331, R428), launches (R333,
R342, R343), admission (R334 to R336), residency and switching (R338), pre-emption (R339), save and restore with CTXSV
and CTXLD (R319 to R322), and the two events of the PC table that are steps of their own (R31, R204).
-/

namespace Sys2Proof.Machine

open Sys2Proof

/-! ## Launches and columns (R330, R334, R335) -/

/-- Flags of the launch record. -/
def Launch.coop (l : Launch) : Bool := l.flags.getLsbD 0
def Launch.portable (l : Launch) : Bool := l.flags.getLsbD 3
def Launch.signal (l : Launch) : Bool := l.flags.getLsbD 4
def Launch.wantsMsix (l : Launch) : Bool := l.flags.getLsbD 5
def Launch.ordered (l : Launch) : Bool := l.flags.getLsbD 6

/-- The register capacity a part is checked against on a core: index 192 for a PORTABLE launch (R322, R331, R335). -/
def Launch.capOf (l : Launch) (boots core : Nat) : Nat := coreCapOf boots (if l.portable then 192 else core)

/-- The core part that stands on a layer. -/
def Launch.partOn (l : Launch) (layer : Nat) : Nat := layer % l.parts

/-- The columns of a partition, lowest first. -/
def State.columnsOf (s : State) (p : Nat) : List Nat :=
  (List.range 48).filter fun c => ((s.tenants[p]?).map fun t => t.colMask.getLsbD c).getD false

/-- The four cores of a column can each hold the parts of a comb (R335, R19). -/
def Launch.holdsOn (l : Launch) (boots col : Nat) : Bool :=
  (List.range 4).all fun y => l.alloc (l.partOn y) ≤ l.capOf boots (coreAt col y)

/-! ## Records (R330, R428) -/

/-- The fields of a LAUNCH record as a launch of a queue. -/
def launchOfRecord (queue ctx : Nat) (r : List Byte) : Launch :=
  { id := 0, queue, ctx, state := .admission, flags := BitVec.ofNat 8 (leAt r 1 1), comb := leAt r 2 1 % 4
    ac := bits (leAt r 2 1) 4 2, frames := leAt r 3 1, grid := [leAt r 4 4, leAt r 8 4, leAt r 12 4]
    blk := [leAt r 16 2, leAt r 18 2, leAt r 20 2], regs := leAt r 22 2, scratch := leAt r 24 4, acmCeil := leAt r 28 2
    msixv := leAt r 30 2, codeVa := leAt r 32 8, novl := leAt r 40 2, argLen := leAt r 42 2, dataLen := leAt r 44 4
    saveVa := leAt r 64 8, saveLen := leAt r 72 8, sigVa := leAt r 80 8, sigVal := BitVec.ofNat 64 (leAt r 88 8)
    seed := BitVec.ofNat 32 (leAt r 96 4), tag := BitVec.ofNat 32 (leAt r 100 4), stkVa := leAt r 104 8, bufs := []
    nbv := 0, consts := .empty, constMarks := [], overlay0 := [], nextComb := 0, retired := 0, energy := 0, waiting := 0, emptying := none }

/-- The buffers of a table's bytes: (offset, size) (R428). -/
def tableBufs (n : Nat) (b : List Byte) : List (Nat × Nat) :=
  (List.range n).map fun j => (leAt b (8 * j) 4 % 2 ^ 20, leAt b (8 * j + 4) 4)

/-- A buffer table keeps the rules of R428. -/
def tableOk (n scratch : Nat) (b : List Byte) : Bool :=
  let bs := tableBufs n b
  ((List.range n).all fun j => bits (leAt b (8 * j) 4) 31 20 = 0) &&
    (bs.all fun x => 1 ≤ x.2 && x.2 ≤ 0x80000 && x.1 % 256 = 0 && x.1 + bufBytes x.2 ≤ scratch) &&
    bs.zipIdx.all fun x => bs.zipIdx.all fun y =>
      x.2 = y.2 || x.1.1 + bufBytes x.1.2 ≤ y.1.1 || y.1.1 + bufBytes y.1.2 ≤ x.1.1

/-- What CHECK reads from memory (R331): the buffer table, the argument block, the data section and overlay 0. -/
structure Payload where
  table : Option (List Byte)
  args  : Option (List Byte)
  data  : Option (List Byte)
  code  : Option (List Byte)

/-- The reads of CHECK for a LAUNCH record. -/
def State.payload (s : State) (ctx : Nat) (r : List Byte) : Payload :=
  { table := s.readVa ctx (leAt r 112 8) (8 * leAt r 120 2), args := s.readVa ctx (leAt r 48 8) (leAt r 42 2)
    data := s.readVa ctx (leAt r 56 8) (leAt r 44 4), code := s.readVa ctx (leAt r 32 8) 4096 }

/-- The lookups of those reads and of what they reach (R365). -/
def State.touchPayload (s : State) (ctx : Nat) (r : List Byte) : State :=
  (((s.touchVa ctx (leAt r 112 8) (8 * leAt r 120 2)).touchVa ctx (leAt r 48 8) (leAt r 42 2)).touchVa ctx (leAt r 56 8)
    (leAt r 44 4)).touchVa ctx (leAt r 32 8) 4096

/-- The bytes of a constant space, from `base` on, that a copy of `n` bytes takes from poisoned units (R415). -/
def State.copyMarks (s : State) (ctx va n base : Nat) : List (Nat × Nat × Nat × Nat) :=
  if s.rel.poison.isEmpty || n = 0 then []
  else
    (List.range ((va + n - 1) / 64 + 1 - va / 64)).filterMap fun i =>
      let lo := max va (64 * (va / 64 + i))
      let hi := min (va + n) (64 * (va / 64 + i + 1))
      match s.translate ctx lo false with
      | .ok t => (s.poisonAt t.loc).map fun k => (base + (lo - va), base + (hi - va), k.1, k.2)
      | .error _ => none

/-- The MSI-X vectors of a partition. -/
def State.vectors (s : State) (p : Nat) : Nat := ((s.tenants[p]?).map (·.vcnt.toNat)).getD 0

/-- The first code of R331 that applies to a LAUNCH record of partition `p`; 0 for none. -/
def State.launchCode (s : State) (p : Nat) (l : Launch) (r : List Byte) (m : Payload) : Nat :=
  let zero := decide (l.blocks = 0)
  let n := leAt r 120 2
  let cols := s.columnsOf p
  let limit := (if l.comb = 0 then 8192 else 16384) / (if l.redundant then 2 else 1)
  let parts := List.range l.parts
  if l.flags.getLsbD 7 || leAt r 2 1 ≥ 32 || l.comb = 3 || leAt r 122 6 ≠ 0 then 1
  else if l.regs % 8 ≠ 0 || l.regs = 0 || l.regs > 256 || l.threads = 0 || l.threads > limit || l.blocks > 2 ^ 32 then 2
  else if !zero && l.coop && (cols.filter (l.holdsOn s.rel.boots)).length < l.combs then 3
  else if l.frames = 0 || l.frames > 64 || l.novl = 0 || l.novl > 64 || l.argLen > 4096 || l.dataLen > 61440
      || l.scratch % 256 ≠ 0 || l.scratch > 2 ^ 20 || l.acmCeil > 512 || l.codeVa % 4096 ≠ 0 || l.saveVa % 65536 ≠ 0
      || l.stkVa % 65536 ≠ 0 || (l.signal && l.sigVa % 8 ≠ 0) || (l.wantsMsix && l.msixv ≥ s.vectors p)
      || n > 64 || leAt r 112 8 % 8 ≠ 0 || (!zero && (m.table.map fun b => !tableOk n l.scratch b).getD false) then 4
  else if !zero && (m.table.isNone || m.args.isNone || m.data.isNone || m.code.isNone) then 5
  else if !zero && (l.saveLen < l.slotBytes || (l.coop && l.saveLen < l.blocks * l.slotBytes)) then 6
  else if !zero && parts.any fun k => l.partitionGroups k * 128 * l.regs > 65536 ||
      cols.all fun c => (List.range 4).all fun y => l.alloc k > l.capOf s.rel.boots (coreAt c y) then 7
  else if !s.csr.ctxValid.getLsbD l.ctx || s.tenantOf l.ctx ≠ p then 8
  else 0

/-- The launch a passing record begins: its constant space, overlay, buffers and version (R76, R45, R125). -/
def State.beginLaunch (s : State) (l : Launch) (r : List Byte) (m : Payload) : Launch :=
  let zero := decide (l.blocks = 0)
  { l with
    state := if zero then .flush else .admission
    nbv := if l.flags.getLsbD 2 then 1 else (s.csr.nbv.getD l.ctx 2).toNat
    consts := if zero then .empty
      else (Memory.empty.setBytes 0 (m.args.getD [])).setBytes 0x1000 (m.data.getD [])
    constMarks := if zero then []
      else s.copyMarks l.ctx (leAt r 48 8) l.argLen 0 ++ s.copyMarks l.ctx (leAt r 56 8) l.dataLen 0x1000
    overlay0 := if zero then [] else m.code.getD []
    bufs := if zero then [] else tableBufs (leAt r 120 2) (m.table.getD [])
    waiting := s.ftime }

/-! ## CHECK (R329 to R333) -/

/-- What CHECK makes of the record at HEAD. -/
inductive Verdict where
  | refuse (code : Nat)
  | nop
  | launch (l : Launch)
  /-- A WAIT record whose word is still below its value. -/
  | waiting
  /-- Validated, and waiting for ORDER. -/
  | blocked
  /-- Held back by a replay until its own record is next (R422). -/
  | held

/-- The verdict on a WAIT record (R330). -/
def State.waitVerdict (s : State) (ctx : Nat) (r : List Byte) : Verdict :=
  let a := leAt r 80 8
  if (r.drop 1).take 79 ++ r.drop 96 ≠ List.replicate 111 0 then .refuse 1
  else if a % 8 ≠ 0 then .refuse 4
  else
    match s.readVa ctx a 8 with
    | none => .refuse 5
    | some w => if leNat w ≥ leAt r 88 8 then .nop else .waiting

/-- A launch record of a capture: the first of its three parts (R420). -/
def isLaunchRecord (ctx : Nat) (r : List Byte) : Bool := leAt r 0 1 = 1 && leAt r 1 1 = ctx && leAt r 2 1 = 0

/-- The verdict on the record at HEAD of a queue (R330, R331, R333). -/
def State.verdict (s : State) (k : Nat) (q : Queue) : Verdict :=
  let r := s.recordAt q
  let ctx := q.ctx.toNat
  if q.badRing || (q.tail - q.head).toNat > q.ring then .refuse 9
  else
    match leAt r 0 1 with
    | 0 => .nop
    | 1 =>
      let l := launchOfRecord k ctx r
      let m := s.payload ctx r
      let code := s.launchCode q.tpart.toNat l r m
      if code ≠ 0 then .refuse code
      else if (l.ordered && s.launches.any fun x => x.queue = k && x.state ≠ .done && x.state ≠ .dropped) then .blocked
      else if s.capHolds ctx (isLaunchRecord ctx) then .held
      else .launch (s.beginLaunch l r m)
    | 2 => s.waitVerdict ctx r
    | _ => .refuse 1

/-- A replay holds back the launch at HEAD of a queue (R422). -/
def State.heldLaunch (s : State) (k : Nat) (q : Queue) : Bool := match s.verdict k q with | .held => true | _ => false

/-- A queue has a record ready for CHECK (R329). -/
def State.recordReady (s : State) (k : Nat) : Bool :=
  match s.queues[k]? with
  | none => false
  | some q =>
    q.valid && q.en && q.state = 1 && match s.verdict k q with | .blocked | .held => false | _ => true

/-- The queue whose record the scheduler takes: the highest priority, then the one ready longest (R329). -/
def State.firstReady (s : State) (k : Nat) : Bool :=
  s.recordReady k && (List.range s.queues.length).all fun j =>
    j = k || !s.recordReady j ||
      match s.queues[k]?, s.queues[j]? with
      | some a, some b => b.prio.toNat < a.prio.toNat || (b.prio = a.prio && a.since ≤ b.since)
      | _, _ => true

/-- One piece of a capture appended, or under replay compared with the next record: whether it differs, and the state after
it (R420 to R422). -/
def State.capPiece (s : State) (ctx kind part : Nat) (payload : List Byte) : Bool × State :=
  let s := s.capAppend kind ctx part payload
  match (if s.capOn 2 ctx then s.capNext else none) with
  | some r =>
    if leAt r 0 1 = kind && leAt r 1 1 = ctx && leAt r 2 1 = part then
      (decide (r.drop 16 ≠ (payload ++ List.replicate 48 0).take 48), s.capMove)
    else (false, s)
  | none => (false, s)

/-- A record of some pieces: one that differs from the recorded one posts one REPLAY (R422). -/
def State.capStep (s : State) (ctx kind : Nat) (pieces : List (Nat × List Byte)) : State :=
  let r := pieces.foldl (fun (a : Bool × State) p =>
    let b := a.2.capPiece ctx kind p.1 p.2
    (a.1 || b.1, b.2)) (false, s)
  if r.1 then r.2.capDiverges ctx else r.2

/-- The LAUNCH record of a launch, in three parts, and its DIGEST records (R420). -/
def State.capLaunch (s : State) (l : Launch) (r : List Byte) : State :=
  let s1 := s.capStep l.ctx 1 ((List.range 3).map fun i => (i, (r.drop (48 * i)).take 48))
  let s1 := s1.capStep l.ctx 2 [(0, (sha256 (l.consts.bytes 0 (0x1000 + l.dataLen))).take 32)]
  (List.range 4).foldl (fun s i =>
    let w := (s.csr.capRange.getD i 0).toNat
    if bit w 0 then
      s.capStep l.ctx 2 [(1 + i, (sha256 (s.mem.bytes (bits w 39 12 * 4096) (bits w 63 44 * 4096))).take 32)]
    else s) s1

/-- An MSI-X vector of a partition raised, when the partition has it (R331, R342). -/
def State.raiseVector (s : State) (p v : Nat) : State :=
  if v < s.vectors p then s.raiseMsix (((s.tenants[p]?).map (·.vbase.toNat)).getD 0 + v) else s

/-- The lookups of a CHECK: of the record, of a WAIT record's word, and of what a passing LAUNCH record names (R357,
R365). -/
def State.touchCheck (s : State) (q : Queue) (passes : Bool) : State :=
  let r := s.recordAt q
  let t := s.touchRecord q
  if leAt r 0 1 = 2 then t.touchVa q.ctx.toNat (leAt r 80 8) 8
  else if passes then t.touchPayload q.ctx.toNat r
  else t

/-- The verdict on a queue's record carried out (R331, R333). -/
def State.carryOut (s : State) (k : Nat) (q : Queue) : State :=
  let r := s.recordAt q
  match s.verdict k q with
  | .refuse code =>
    let s1 := (s.touchCheck q false).haltQueue k code
    let l := launchOfRecord k q.ctx.toNat r
    if code ≠ 9 && leAt r 0 1 = 1 && l.wantsMsix then s1.raiseVector q.tpart.toNat l.msixv else s1
  | .nop => (s.touchCheck q false).advanceQueue k
  | .waiting => (s.touchCheck q false).updQueue k fun q => { q with state := 2 }
  | .blocked | .held => s
  | .launch l =>
    let (id, s1) := (s.touchCheck q true).newId
    let s1 := s1.capLaunch l r
    { s1.advanceQueue k with launches := s1.launches ++ [{ l with id }] }

/-- The scheduler's service runs (R388, R426). -/
def State.schedules (s : State) : Bool := !s.stopped

/-- RECORD_CHECK (R331): the scheduler takes the record at HEAD of queue `k`. -/
def execRecordCheck (k : Nat) (s : State) : Out :=
  match s.queues[k]? with
  | none => .next s
  | some q =>
    if s.schedules && s.firstReady k then .next (s.carryOut k q)
    -- a launch that a replay holds back is ready (R422)
    else if s.schedules && q.valid && q.en && q.state = 1 && s.heldLaunch k q then
      .next (s.capWait (isLaunchRecord q.ctx.toNat))
    else .next s

/-- WAIT_RECORD_POLL (R330): the word of a WAIT record is read again. -/
def execWaitRecordPoll (k : Nat) (s : State) : Out :=
  match s.queues[k]? with
  | none => .next s
  | some _ => if s.schedules then .next (s.pollWait k) else .next s

/-- The host reaches a queue window over its link (R395); the management core at its level (R327). -/
def State.reachesQueue (s : State) (host : Bool) (k reg : Nat) : Bool :=
  if host then s.fabric.hostLink else s.ctlMay (.queue k reg)

/-- QUEUE_DOORBELL (R328): a write of a queue's TAIL, by the host or by the management core at its level. -/
def execQueueDoorbell (host : Bool) (k : Nat) (tail : Word) (s : State) : Out :=
  match s.queues[k]? with
  | none => .next s
  | some q => if !s.queueFrozen q && s.reachesQueue host k 4 then .next (s.queueTail k tail) else .next s

/-- QUEUE_RESUME (R330): a write of 1 to RESUME. -/
def execQueueResume (host : Bool) (k : Nat) (s : State) : Out :=
  match s.queues[k]? with
  | none => .next s
  | some q => if !s.queueFrozen q && s.reachesQueue host k 1 then .next (s.queueResume k) else .next s

/-! ## Blocks on cores -/

/-- The parts of live blocks on a core, with their blocks. -/
def State.partsOn (s : State) (core : Nat) : List (Block × Part × Nat) :=
  (s.blocks.filter Block.lives).flatMap fun b =>
    (b.parts.zipIdx.filter fun p => p.1.onCore && p.1.core = core).map fun p => (b, p.1, p.2)

/-- The lowest free block-table slot of a core (R334). -/
def State.freeSlot (s : State) (core : Nat) : Option Nat :=
  (List.range 64).find? fun n => !((s.partsOn core).any fun x => x.2.1.slot = n)

/-- Instruction frames in use on a core (R45). -/
def State.framesUsed (s : State) (core : Nat) : Nat :=
  ((s.windows.filter fun (w : FrameWin) => w.core = core).map fun (w : FrameWin) => w.map.length).foldl (· + ·) 0

/-- A core holds a window of the launch, or has frames for one (R334). -/
def State.framesFree (s : State) (l : Launch) (core : Nat) : Bool :=
  (s.frameWin l.id core).isSome || s.framesUsed core + l.frames ≤ 64

/-- The window of a launch on a core: overlay 0 in frame 0 (R45). -/
def State.giveWindow (s : State) (l : Launch) (core : Nat) : State :=
  if (s.frameWin l.id core).isSome then s
  else { s with windows := s.windows ++ [({
    launch := l.id, core, map := some 0 :: List.replicate (l.frames - 1) none, loading := []
    bytes := Memory.empty.setBytes 0 l.overlay0 } : FrameWin)] }

/-- Free slots of a launch's save area, lowest first, `n` of them (R336). -/
def State.saveSlots (s : State) (l : Launch) (n : Nat) : Option (List Nat) :=
  let used := (s.blocks.filter fun b => b.launch = l.id && b.lives).map (·.slot)
  -- among the first used.length + n slots at least n are free
  let free := ((List.range (min (l.saveLen / max 1 l.slotBytes) (used.length + n))).filter fun k => !used.contains k).take n
  if free.length = n then some free else none

/-- The columns with an array for which no spare is left (R410). -/
def State.noSpareOn (s : State) (col : Nat) : Bool := s.rel.noSpare.any fun k => columnOf (k / 16) = col

/-- A column qualifies for a comb of a launch (R334, R19). -/
def State.qualifies (s : State) (l : Launch) (col : Nat) : Bool :=
  l.holdsOn s.rel.boots col && !s.noSpareOn col && (List.range 4).all fun y =>
    (s.freeSlot (coreAt col y)).isSome && s.framesFree l (coreAt col y)

/-- The order of preference of a column for a class (R334): an empty one first, then the smallest largest difference of
class. -/
def State.columnCost (s : State) (ac col : Nat) : Nat :=
  let acs := (List.range 4).flatMap fun y =>
    (s.partsOn (coreAt col y)).map fun x => ((s.launch? x.1.launch).map (·.ac)).getD 0
  if acs.isEmpty then 0 else 1 + acs.foldl (fun m a => max m (max a ac - min a ac)) 0

/-- The preferred of some columns; ties go to the lowest number. -/
def State.prefer (s : State) (ac : Nat) (cols : List Nat) : Option Nat :=
  (cols.foldl (fun (m : Option (Nat × Nat)) c =>
    let k := s.columnCost ac c
    match m with
    | none => some (k, c)
    | some x => if k < x.1 then some (k, c) else some x) none).map (·.2)

/-! ## Admission (R334, R335) -/

/-- A thread of a block at its start, by its linear index: a helper beyond the last thread of its quad, no thread beyond
that (R27, R113). -/
def Launch.thread (l : Launch) (index i : Nat) : Thread :=
  if i < ceilDiv l.threads 4 * 4 then
    let z := l.seed ^^^ BitVec.ofNat 32 ((index * l.threads + i + 1) * 0x9E3779B9)
    Thread.fresh l.regs (BitVec.ofNat 64 l.codeVa) (if z = 0 then 0x6D2B79F5 else z) (l.threads ≤ i)
  else Thread.none l.regs

/-- A group of a block at its start; under REDUNDANT the upper lanes are shadows (R25, R411). -/
def Launch.group (l : Launch) (index g : Nat) : Group :=
  Group.fresh ((List.range 32).map fun n => l.thread index (g * l.perGroup + l.laneOf n)) []

/-- A block of a comb, its part `k` on layer `first + k` of a column. -/
def State.newBlock (s : State) (l : Launch) (col first index slot : Nat) : Block :=
  { id := s.nextId, launch := l.id, index, age := s.nextId, slot, state := .admitted, started := false, stopped := false
    preempted := false, inSlot := false, groups := (List.range l.groups).map (l.group index)
    parts := (List.range l.parts).map fun k =>
      let core := coreAt col (first + k)
      { core, slot := (s.freeSlot core).getD 0, state := .resident, scratch := .empty, bslots := .empty
        codebook := .empty, acm := .empty, held := [], spilled := [], charge := 0, queued := false, sel := 0, marks := [] }
    mmas := [], idle := 0, heldOn := [] }

/-- A block that starts has its registers and arrays written anew (R55): the poison of what held its place before is gone
(R415). -/
def State.startClean (s : State) (b : Block) : State :=
  let old (k : Nat × Nat) : Bool := (k.1 = 4 || k.1 = 5 || k.1 = 7 || k.1 = 17) &&
    b.parts.any fun p => markCore k.2 = p.core && markSlot k.2 = p.slot
  { s with rel := { s.rel with poison := s.rel.poison.filter fun k => !old k } }

/-- The blocks of the launch's next comb admitted onto a column (R28, R334). -/
def State.placeComb (s : State) (l : Launch) (col : Nat) (slots : List Nat) : State :=
  let first := l.nextComb * l.perComb
  let s1 := (List.range 4).foldl (fun s y => s.giveWindow l (coreAt col y)) s
  let s1 := slots.zipIdx.foldl (fun (s : State) x =>
    let b := s.newBlock l col (x.2 * l.parts) (first + x.2) x.1
    { s.startClean b with blocks := s.blocks ++ [b], nextId := s.nextId + 1 }) s1
  s1.updLaunch l.id fun x =>
    { x with nextComb := x.nextComb + 1, waiting := s.ftime, emptying := none
             state := if x.nextComb + 1 = x.combs then .run else x.state }

/-- The blocks of the launch's next comb. -/
def Launch.combBlocks (l : Launch) : Nat := min l.perComb (l.blocks - l.nextComb * l.perComb)

/-- The next comb of a launch admitted, where some column allows it (R334). -/
def State.admitComb (s : State) (l : Launch) (fits : State → Nat → Bool) : Option State :=
  match s.saveSlots l l.combBlocks, s.prefer l.ac ((s.columnsOf (s.tenantOf l.ctx)).filter fun c =>
      s.qualifies l c && fits s c) with
  | some slots, some col => some (s.placeComb l col slots)
  | _, _ => none

/-! ## Residency (R338) -/

/-- The parts that hold registers and scratchpad on a core: those of resident blocks. -/
def State.holdersOn (s : State) (core : Nat) : List (Launch × Nat) :=
  (s.partsOn core).filterMap fun x =>
    if x.1.state = .resident then (s.launch? x.1.launch).map fun l => (l, x.2.2) else none

/-- A core has the register capacity, scratchpad and group slots for a part beside its holders (R338, R59, R331). -/
def State.roomFor (s : State) (l : Launch) (k core : Nat) : Bool :=
  let hs := (l, k) :: s.holdersOn core
  let sum (f : Launch × Nat → Nat) : Nat := (hs.map f).foldl (· + ·) 0
  l.alloc k ≤ l.capOf s.rel.boots core && sum (fun x => x.1.alloc x.2) ≤ coreCapOf s.rel.boots core &&
    sum (fun x => x.1.scratch) ≤ 2 ^ 20 && sum (fun x => x.1.partitionGroups x.2) ≤ 16 &&
    sum (fun x => x.1.partitionGroups x.2 * 128 * x.1.regs) ≤ 65536

/-- Every part of a block that is on a core has room there. -/
def State.blockFits (s : State) (b : Block) : Bool :=
  match s.launch? b.launch with
  | none => false
  | some l => b.parts.zipIdx.all fun x => !x.1.onCore || s.roomFor l x.2 x.1.core

/-- The ready lanes of every group of a block that stands on its core made units again (R30). -/
def State.placeUnits (s : State) (b : Nat) : State :=
  match s.block? b with
  | none => s
  | some x =>
    (List.range x.groups.length).foldl (fun s g =>
      match s.groupOf (.unit b g 0) with
      | none => s
      | some y =>
        if x.resident g then
          s.ready (.unit b g 0) { y with units := [] } (List.range 32) (fun _ => false) none
        else s) s

/-- A block is the one that was resident last on each of its cores (R338). -/
def State.noteLast (s : State) (b : Nat) : State :=
  match s.block? b with
  | none => s
  | some x =>
    let cores := (x.parts.filter Part.onCore).map (·.core)
    { s with coreLast := (s.coreLast.filter fun e => !cores.contains e.1) ++
        cores.map fun c => (c, x.launch, ((s.launch? x.launch).map (·.ac)).getD 0) }

/-- A block made resident on all its parts; at first its threads start at the entry (R338). -/
def State.makeResident (s : State) (b : Nat) : State :=
  ((s.updBlock b fun x =>
    { x with state := .resident, started := true, inSlot := false, idle := 0, heldOn := [] }).placeUnits b).noteLast b

/-- A block parked by an event that is not answered, or by granules of a part on its core that are evicted (R307, R338);
granules that a saved part carries park no other part of it (R340). -/
def State.blockParked (s : State) (b : Block) : Bool :=
  (s.waiting ++ s.events).any (fun e => e.block = b.id && e.parked && e.answer.isNone) ||
    b.parts.any fun p => p.onCore && !p.spilled.isEmpty

/-- The part of a group of a block stands on its core. -/
def Block.groupThere (b : Block) (g : Nat) : Bool :=
  ((b.part (b.partOf g)).map fun p => decide (p.state = .resident)).getD false

/-- A wait of a block is satisfied: a thread on a part that stands on its core is ready, and is not one that was held on a part
that is still away (R75, R338). -/
def Block.waitOver (b : Block) : Bool :=
  b.groups.zipIdx.any fun x => b.groupThere x.2 && x.1.threads.zipIdx.any fun t =>
    t.1.status = .ready && !(b.partAway && b.heldOn.any fun h => h.1 = x.2 && h.2.getLsbD t.2)

/-- A ready candidate for residency: admitted, or inactive with a wait satisfied (R338). -/
def State.wantsIn (s : State) (b : Block) : Bool :=
  !b.stopped && (b.parts.any fun p => decide (p.state = .resident)) &&
    (b.state = .admitted || (b.state = .inactive && !s.blockParked b && b.waitOver))

/-- The columns of a block's parts on cores belong to its partition (R354). -/
def State.inMask (s : State) (b : Block) : Bool :=
  let cols := s.columnsOf (s.tenantOf (s.ctxOfLaunch b.launch))
  b.parts.all fun p => !p.onCore || cols.contains (columnOf p.core)

/-- Two blocks share a core. -/
def Block.shares (a b : Block) : Bool :=
  a.parts.any fun p => p.onCore && b.parts.any fun q => q.onCore && q.core = p.core

/-- The priority of a block's queue. -/
def State.prioOf (s : State) (b : Block) : Nat :=
  (((s.launch? b.launch).bind fun l => s.queues[l.queue]?).map fun q => q.prio.toNat).getD 0

/-- One block goes before another: the highest queue priority, then the oldest admission (R338). -/
def State.goesBefore (s : State) (a b : Block) : Bool :=
  s.prioOf a > s.prioOf b || (s.prioOf a = s.prioOf b && a.age < b.age)

/-- The room a comb of a COOP launch needs on a column to be resident at once (R335), on the layers on which it has a
block. -/
def State.combFits (l : Launch) (s : State) (col : Nat) : Bool :=
  (List.range 4).all fun y => l.combBlocks * l.parts ≤ y || s.roomFor l (l.partOn y) (coreAt col y)

/-- The blocks of a launch made resident. -/
def State.startAll (s : State) (l : Nat) : State :=
  s.blocks.foldl (fun s b => if b.launch = l && b.state = .admitted then s.makeResident b.id else s) s

/-- Every comb of a COOP launch admitted and made resident together (R335). -/
def State.admitAll (l : Nat) : Nat → State → Option State
  | 0, s => some s
  | n + 1, s =>
    match s.launch? l with
    | none => none
    | some x =>
      match s.admitComb x (State.combFits x) with
      | none => none
      | some s => State.admitAll l n (s.startAll l)

/-- COMB_ADMIT (R334, R335): the next comb of a launch, or all of a COOP launch's, onto columns that qualify. -/
def execCombAdmit (l : Nat) (s : State) : Out :=
  match s.launch? l with
  | none => .next s
  | some x =>
    if !s.schedules || x.state ≠ .admission || ((s.tenants[s.tenantOf x.ctx]?).map (·.rbusy)).getD true then .next s
    else .next ((if x.coop then State.admitAll l (x.combs - x.nextComb) s else s.admitComb x fun _ _ => true).getD s)

/-- BLOCK_SWITCH_IN (R338): an admitted or inactive block is made resident on its cores; no candidate that goes before
it and could come in waits for one of them. A column that its partition has lost runs no work (R354). Where its parked registers
have spilled into its slot and the slot faults, it is parked (R336). -/
def execBlockSwitchIn (b : Nat) (s : State) : Out :=
  match s.block? b with
  | none => .next s
  | some x =>
    let first := s.blocks.all fun y =>
      y.id = b || !(s.wantsIn y && y.shares x && s.blockFits y && s.inMask y && s.goesBefore y x)
    if s.schedules && s.wantsIn x && s.blockFits x && s.inMask x && first then
      match (if x.inSlot then s.slotFault x false else none) with
      | some va => .next (s.slotPark x 0 va false)
      | none => .next ((if x.inSlot then s.readSlot x else s).makeResident b)
    else .next s

/-- The ready lanes of a group whose last issue was held. -/
def Group.stuckLanes (g : Group) : Word :=
  maskOf ((List.range 32).filter fun l => (g.thread l).status = .ready && g.units.any fun u => u.stuck && u.lanes.getLsbD l)

/-- Every live thread of a block is parked, or held on a part that is away (R49, R75, R338); one on a part that is away
itself issues nothing, and a part whose granules have been evicted parks the block (R340). -/
def Block.allWait (b : Block) : Bool :=
  (b.parts.any fun p => p.onCore && !p.spilled.isEmpty) ||
    b.groups.zipIdx.all fun x => !b.resident x.2 ||
      (x.1.threads.zipIdx.all fun t => !t.1.live || t.1.status != .ready || b.partAway && x.1.stuckLanes.getLsbD t.2)

/-- BLOCK_SWITCH_OUT (R338): a block whose threads have all waited for 1 µs gives way to another block of its cores. A COOP
launch's is never switched out (R335). -/
def execBlockSwitchOut (b : Nat) (s : State) : Out :=
  match s.block? b with
  | none => .next s
  | some x =>
    let coop := ((s.launch? x.launch).map Launch.coop).getD false
    let other := s.blocks.any fun y => y.id ≠ b && s.wantsIn y && y.shares x
    if s.schedules && x.state = .resident && !coop && x.allWait && 1000 ≤ x.idle && other then
      .next (s.updBlock b fun x =>
        { x with state := .inactive, heldOn := x.groups.zipIdx.map fun g => (g.2, g.1.stuckLanes), groups := x.groups.map fun g => { g with units := [] } })
    else .next s

/-- The park area of an inactive block spills into its save slot, as it may whenever L2 needs the lines (R338). A slot that
faults parks the block (R336). -/
def State.parkSpill (s : State) (b : Nat) : State :=
  match s.block? b with
  | none => s
  | some x =>
    if x.state ≠ .inactive || x.inSlot then s
    else
      match s.slotFault x true with
      | some va => s.slotPark x 0 va true
      | none => (s.fillSlot x).updBlock b fun y => { y with inSlot := true }

/-! ## The PC table (R31, R204) -/

/-- UNIT_TAKES_FREED_WAY (R31): of the units that wait for a set of a partition the oldest takes a freed way, as a new
entry, or joins what R30 lets it join. A new entry's age counts from now, but for a unit that two have merged into outside
the table, which keeps the older one's (R30). DESIGN CHOICE (notes/assumptions/95.md): of units that have waited equally long
the first in block, group and unit order; R31 names the oldest and no order among equals. -/
def execUnitTakesFreedWay (core part set : Nat) (s : State) : Out :=
  let ps := s.placedAt core part
  let oldest := (ps.filter fun p => p.unit.waitsAt set).foldl (fun (m : Option Placed) p =>
    match m with
    | none => some p
    | some x => if p.unit.stamp < x.unit.stamp then some p else some x) none
  match oldest with
  | none => .next s
  | some p =>
    let iss := Issuer.unit p.block p.group p.idx
    match s.groupOf iss with
    | none => .next s
    | some g =>
      let us := placeUnit (s.others iss) p.launch p.block p.group (g.units.eraseIdx p.idx)
        { p.unit with stamp := if p.unit.aged then p.unit.stamp else s.clockOf iss } true
      -- a unit that finds no place stays as it is
      if (us.getLast?.map fun u => u.way.isNone).getD true then .next s
      else .next (s.setGroup iss { g with units := us })

/-- YIELD_HOLD_END (R204): the 64 pclk of a held unit are over, and it is ready again at its IP. Block 0 stands for the
management core. -/
def execYieldHoldEnd (b g u : Nat) (s : State) : Out :=
  let iss := if b = 0 then Issuer.mgmt else Issuer.unit b g u
  match s.groupOf iss with
  | none => .next s
  | some x =>
    match x.units[u]? with
    | none => .next s
    | some y =>
      match y.held with
      | none => .next s
      | some since =>
        if since + 64 ≤ s.clockOf iss then
          .next (s.setGroup iss { x with
            units := placeUnit (s.others iss) (((s.launchOf iss).map (·.id)).getD 0) b g (x.units.eraseIdx u)
              { y with held := none, stamp := s.clockOf iss } false })
        else .next s

/-! ## CTXSV and CTXLD (R319 to R322) -/

/-- The fields of a selector (R319). -/
def selScope (x : Nat) : Nat := bits x 63 62
def selCtx (x : Nat) : Nat := bits x 61 56
def selCore (x : Nat) : Nat := bits x 31 24
def selSlot (x : Nat) : Nat := bits x 23 18
def selPart (x : Nat) : Nat := bits x 17 16

/-- A selector that names something. -/
def selOk (x : Nat) : Bool :=
  selScope x ≠ 3 && bits x 55 32 = 0 && bits x 15 0 = 0 && (selScope x = 2 || selCore x < 192)

/-- A selector for one part of a block, as the scheduler's own saves carry it (R339; notes/assumptions/36.md). -/
def selFor (ctx core slot part : Nat) : DWord :=
  BitVec.ofNat 64 (ctx * 2 ^ 56 + core * 2 ^ 24 + slot * 2 ^ 18 + part * 2 ^ 16)

/-- The blocks and parts a selector names; `saved`: where a slot names two blocks, the one that was saved from it. -/
def State.selected (s : State) (x : Nat) (saved : Bool) : List (Nat × Nat) :=
  let mine := s.blocks.filter fun b => b.lives && s.ctxOfLaunch b.launch = selCtx x
  let key := if selScope x = 0 then selPart x else 0
  let here (b : Block) (away : Bool) : Bool :=
    ((b.part key).map fun p => p.core = selCore x && p.slot = selSlot x && decide (p.onCore ≠ away)).getD false
  let found := (mine.find? fun b => here b saved).or (mine.find? fun b => here b !saved)
  if selScope x = 2 then mine.flatMap fun b => (List.range b.parts.length).map fun k => (b.id, k)
  else
    match found with
    | none => []
    | some b => if selScope x = 0 then [(b.id, key)] else (List.range b.parts.length).map fun k => (b.id, k)

/-- A part by its block. -/
def State.partAt (s : State) (x : Nat × Nat) : Option Part := (s.block? x.1).bind fun b => b.part x.2

/-- The selector lies outside the partition of MSTAT.PART, at supervisor level (R319). -/
def State.selAway (s : State) (x : Nat) : Bool := !s.isHyper && s.tenantOf (selCtx x) ≠ s.csr.part.toNat

/-- The result of a CTXSV (R319) and the parts it begins to save. -/
def State.saveResult (s : State) (x : Nat) : Nat × List (Nat × Nat) :=
  let sel := s.selected x false
  let take := sel.filter fun p => ((s.partAt p).map fun q => decide (q.state = .resident) && !q.queued).getD false
  if !selOk x then (4, [])
  else if sel.isEmpty then (1, [])
  else if s.selAway x then (2, [])
  else if take.isEmpty then (3, [])
  else (0, take)

/-- The save of a part begins: issue stops (R320 step 1). -/
def State.beginSave (s : State) (p : Nat × Nat) : State :=
  s.updPart p.1 p.2 fun q => { q with state := .saving, queued := false }

/-- Two parts that one save takes: those of one selector, or of one block. -/
def sameSave (b : Nat) (p : Part) (c : Nat) (q : Part) : Bool := p.sel = q.sel || b = c

/-- A part of a live block is being saved by the save that a part is queued for. -/
def State.saveRuns (s : State) (b : Nat) (p : Part) : Bool :=
  s.blocks.any fun x => x.lives && x.parts.any fun q => q.state = .saving && sameSave b p x.id q

/-- The next part of a save begins, once no other part of it is being saved (R320). -/
def State.nextSave (s : State) : State :=
  let next := s.blocks.findSome? fun x =>
    if x.lives then
      (x.parts.zipIdx.find? fun q => q.1.queued && q.1.state = .resident && !s.saveRuns x.id q.1).map fun q => (x.id, q.2)
    else none
  match next with
  | some p => s.beginSave p
  | none => s

/-- Parts are selected for a save: they are saved one at a time (R320). -/
def State.queueSaves (s : State) (ps : List (Nat × Nat)) (sel : Nat × Nat → DWord) (charge : Word) : State :=
  (ps.foldl (fun (s : State) p => s.updPart p.1 p.2 fun q => { q with queued := true, sel := sel p, charge }) s).nextSave

/-- CTXSV (R319 to R321). -/
def execCtxsv (f : Fields) (s : State) : Out :=
  s.system (.ctxsv f) <|
    s.memForm 0xE7 f fun s c agents =>
      .ok (agents.foldl (fun (s : State) a =>
        let x := s.operand c.rd a.1 f true f.a
        let r := s.saveResult x.toNat
        let charge := (s.operand c.rd a.1 f false f.b).extractLsb' 0 32
        let s := s.queueSaves r.2 (fun _ => x) charge
        s.updGroup s.cur fun g => g.writeDst a.1 f.d false (BitVec.ofNat 64 r.1)) s |>.commitCur c)

/-- The column a block stands in, or is on its way to: another part of it is there (R322). -/
def Block.boundTo (b : Block) (k : Nat) : Option Nat :=
  b.parts.zipIdx.findSome? fun x =>
    if x.2 = k then none
    else
      match x.1.state with
      | .saved => none
      | .restoring 48 => none
      | .restoring col => some col
      | _ => some (columnOf x.1.core)

/-- A part's allocation fits its layer's core in a column (R322). -/
def State.partFits (s : State) (p : Nat × Nat) (col : Nat) : Bool :=
  match (s.block? p.1).bind fun b => s.launch? b.launch, s.partAt p with
  | some l, some q => l.alloc p.2 ≤ l.capOf s.rel.boots (coreAt col (layerOf q.core))
  | _, _ => false

/-- A column with a sensor at or above WARN (R341). -/
def State.warm (s : State) (col : Nat) : Bool :=
  (List.range 4).any fun y => ((s.sensors[coreAt col y]?).map fun x => decide (1 ≤ x.level)).getD false

/-- A column qualifies for the restore of a block (R322, R334, R410): its cores can hold the block's parts, and have a
slot and frames for them. A migration takes no warm column (R341); the restore of a pre-empted block may (R339). -/
def State.takesBlock (s : State) (l : Launch) (b : Block) (col : Nat) : Bool :=
  !s.noSpareOn col && (b.preempted || !s.warm col) && b.parts.zipIdx.all fun q =>
    let core := coreAt col (layerOf q.1.core)
    s.partFits (b.id, q.2) col && (s.freeSlot core).isSome && s.framesFree l core

/-- The column the scheduler chooses for a part (R322, R334, R341): that of the block's other parts, else the preferred
one that qualifies; none while there is none. -/
def State.chooseColumn (s : State) (p : Nat × Nat) : Option Nat :=
  match s.block? p.1 with
  | none => none
  | some b =>
    match b.boundTo p.2, s.launch? b.launch with
    | some col, _ => some col
    | none, some l =>
      s.prefer l.ac ((s.columnsOf (s.tenantOf l.ctx)).filter (s.takesBlock l b))
    | none, none => none

/-- The result of a CTXLD (R319, R322) and the parts it begins to restore. -/
def State.loadResult (s : State) (x col : Nat) : Nat × List (Nat × Nat) :=
  let sel := s.selected x true
  let any := decide (col = 0xFFFFFFFF)
  let cols := s.columnsOf (s.tenantOf (selCtx x))
  let bound (p : Nat × Nat) : Option Nat := (s.block? p.1).bind fun b => b.boundTo p.2
  let fits (p : Nat × Nat) : Bool :=
    if any then (match bound p with | some c => s.partFits p c | none => cols.any (s.partFits p)) else s.partFits p col
  if !selOk x || (col > 47 && !any) then (4, [])
  else if sel.isEmpty then (1, [])
  else if s.selAway x || (!any && !cols.contains col) then (2, [])
  else if sel.any fun p => (s.partAt p).map (·.state) ≠ some .saved then (3, [])
  else if !any && sel.any fun p => ((bound p).map fun c => decide (c ≠ col)).getD false then (6, [])
  else if !(sel.all fits) then (5, [])
  else (0, sel)

/-- The requests by which a part's granules return at the numbers they had (R322, R275). -/
def State.askBack (s : State) (p : Nat × Nat) : State :=
  match s.block? p.1, s.partAt p with
  | some b, some q =>
    q.spilled.foldl (fun (s : State) e =>
      { s with
        nextId := s.nextId + 1
        acmReqs := s.acmReqs ++ [({ id := s.nextId, block := p.1, age := b.age, part := p.2, sector := e.1
                                    exact := some e.2.1, count := e.2.1.length, group := 0, dst := none } : AcmReq)] }) s
  | _, _ => s

/-- The restore of a part onto a column begins; 48: the column is still to be chosen. -/
def State.beginRestore (s : State) (p : Nat × Nat) (col : Nat) : State :=
  (s.updPart p.1 p.2 fun q => { q with state := .restoring col }).askBack p

/-- CTXLD (R319, R322). -/
def execCtxld (f : Fields) (s : State) : Out :=
  s.system (.ctxld f) <|
    s.memForm 0xE8 f fun s c agents =>
      .ok (agents.foldl (fun (s : State) a =>
        let x := s.operand c.rd a.1 f true f.a
        let col := (s.operand c.rd a.1 f false f.b).toNat
        let r := s.loadResult x.toNat col
        let s := r.2.foldl (fun (s : State) p =>
          let s := s.updPart p.1 p.2 fun q => { q with sel := x }
          s.beginRestore p (if col = 0xFFFFFFFF then (s.chooseColumn p).getD 48 else col)) s
        s.updGroup s.cur fun g => g.writeDst a.1 f.d false (BitVec.ofNat 64 r.1)) s |>.commitCur c)

/-- An event SAVED or RESTORED with the selector and a status of 0 (R308, R319). -/
def State.postPart (s : State) (cause : Cause) (ctx : Nat) (sel : DWord) : State :=
  s.raise (plainEvent cause ctx (s.tenantOf ctx) 0 (leBytes 8 sel.toNat ++ [0]))

/-- A part's groups have drained (R320 step 2): no load, store, matrix operation or pin search, and no spill that is
still being written. -/
def State.drained (s : State) (b : Block) (k : Nat) (p : Part) : Bool :=
  (b.groups.zipIdx.all fun x => b.partOf x.2 ≠ k ||
      (x.1.mxq.isEmpty && x.1.threads.all fun t => t.ld.isEmpty && t.st.isEmpty)) &&
    !(s.searches.any fun q => q.block = b.id && b.partOf q.group = k) && p.spilled.all fun e => e.2.2

/-- Granules grouped by sector, as saved parts of a sector. -/
def savedGranules (held : List (Nat × Nat)) : List (Nat × List Nat × Bool) :=
  (List.range 4).filterMap fun t =>
    let gs := (held.filter fun x => x.1 = t).map (·.2)
    if gs.isEmpty then none else some (t, gs, true)

/-- A command rolled back: it reads its source again from the start (R320 step 3). -/
def Cmd.rollBack (c : Cmd) : Cmd := { c with data := .empty, read := [] }

/-- A poisoned unit or word of a core's arrays that a part holds (R415): of the scratchpad, the registers, the B slots and the
codebook at its block-table slot, and words of its granules. -/
def Part.hasMark (p : Part) (k : Nat × Nat) : Bool :=
  markCore k.2 = p.core &&
    ((k.1 = 4 || k.1 = 5 || k.1 = 7 || k.1 = 17) && markSlot k.2 = p.slot ||
      (k.1 = 6 && p.held.contains (markWord k.2 / 1024 / 128, markWord k.2 / 1024 % 128)))

/-- A part that leaves its core takes its poison with it (R415; notes/assumptions/24.md). -/
def State.carryMarks (s : State) (b k : Nat) : State :=
  match s.partAt (b, k) with
  | none => s
  | some p =>
    { s.updPart b k fun q => { q with marks := (s.rel.poison.filter p.hasMark).map fun m => (m.1, markWord m.2) } with
      rel := { s.rel with poison := s.rel.poison.filter fun m => !p.hasMark m } }

/-- The marks of a part brought to the core and the slot it is restored on. -/
def State.bringMarks (s : State) (b k core slot : Nat) : State :=
  match s.partAt (b, k) with
  | none => s
  | some p =>
    let back := (p.marks.map fun m => (m.1, markAt (if m.1 = 6 then 0 else slot) core m.2)).filter fun m =>
      !s.rel.poison.contains m
    { s.updPart b k fun q => { q with marks := [] } with rel := { s.rel with poison := s.rel.poison ++ back } }

/-- PART_SAVE_DONE (R320): a drained part is copied to its slot and leaves its core; its commands are rolled back,
its requests end, its granules are free, SAVED is posted, and the next part of the save begins. A fault on the block's save
slot parks it (R336). A block saved by a pre-emption is to be restored by the scheduler (R339). -/
def execPartSaveDone (b k : Nat) (s : State) : Out :=
  match s.block? b, s.partAt (b, k) with
  | some x, some p =>
    if p.queued && s.schedules then .next s.nextSave
    else if p.state ≠ .saving || !x.lives || !s.schedules || !s.drained x k p then .next s
    else
      match s.slotFault x true with
      | some va => .next (s.slotPark x k va true)
      | none =>
      let roll (c : Cmd) : Cmd :=
        if c.block = b && c.part = k && c.kind ≠ .coll && c.state = .running then c.rollBack else c
      let s1 := { (s.carryMarks b k).fillSlot x with
        cmds := s.cmds.map roll
        acmReqs := s.acmReqs.filter fun r => !(r.block = b && r.part = k && r.exact.isSome)
        acmLeft := s.acmLeft ++ p.held.map fun (g : Nat × Nat) => (p.core, g.1, g.2) }
      let s1 := s1.updBlock b fun y =>
        let y := { y with
          groups := y.groups.zipIdx.map fun (z : Group × Nat) =>
            if y.partOf z.2 = k then { z.1 with burn := none, shunt := none } else z.1 }
        let ps := updAt y.parts k fun (q : Part) =>
          -- granules that are being read back stand among the spilled ones already
          let whole := q.held.filter fun h => !(q.spilled.any fun e => e.1 = h.1 && e.2.1.contains h.2)
          { q with state := .saved, held := [], spilled := q.spilled ++ savedGranules whole }
        { y with parts := ps, state := if ps.any Part.onCore then y.state else .saved }
      let s1 := s1.postPart .saved (s.ctxOfLaunch x.launch) p.sel
      .next (if x.preempted then s1.beginRestore (b, k) 48 else s1).nextSave
  | _, _ => .next s

/-- The partition's launches that wait in ADMIT, and its pre-empted blocks, with a priority above `n` (R339). -/
def State.higherWaits (s : State) (tenant n : Nat) : Bool :=
  (s.launches.any fun l => l.state = .admission && s.tenantOf l.ctx = tenant &&
      ((s.queues[l.queue]?).map fun q => decide (q.prio.toNat > n)).getD false) ||
    s.blocks.any fun b => b.preempted && b.lives && s.tenantOf (s.ctxOfLaunch b.launch) = tenant && s.prioOf b > n

/-- The granules of a restoring part are all its own again. -/
def Part.granulesBack (p : Part) : Bool := p.spilled.all p.readBack

/-- The answers recorded for a block's parts that are back are applied (R310, R322). -/
def State.applyRecorded (s : State) (b : Nat) : State :=
  let mine := s.events.filter fun e => e.block = b && e.answer.isSome && !s.eventAway e
  mine.foldl (fun (s : State) e => s.applyAnswer e)
    { s with events := s.events.filter fun e => !(e.block = b && e.answer.isSome && !s.eventAway e) }

/-- A part put back on its core (R322): the block is resident where there is room for it, else inactive. -/
def State.putBack (s : State) (b k : Nat) (l : Launch) (core slot : Nat) : State :=
  let s1 := ((s.bringMarks b k core slot).giveWindow l core).updBlock b fun y =>
    { y with
      preempted := false
      parts := updAt y.parts k fun q => { q with core, slot, state := .resident, spilled := [] } }
  match s1.block? b with
  | none => s1
  | some y =>
    let out (z : Block) : Block := { z with groups := z.groups.map fun g => { g with units := [] } }
    let s2 := s1.updBlock b fun z =>
      { out z with state := .inactive, idle := 0
                   heldOn := if z.state = .resident then z.groups.zipIdx.map fun g => (g.2, g.1.stuckLanes) else z.heldOn }
    if s2.blockFits y && s2.inMask y then s2.makeResident b else s2

/-- PART_RESTORE_DONE (R322): a waiting restore whose column is known, whose core has a free slot and frames, and whose
granules are back completes, on a column that its partition has (R354): the part stands on its core, answers recorded are applied, and RESTORED is posted. Where
the scheduler is to choose the column it does so first; for a pre-empted block once its priority is the highest that
waits (R339). -/
def execPartRestoreDone (b k : Nat) (s : State) : Out :=
  match s.block? b, s.partAt (b, k), (s.block? b).bind fun x => s.launch? x.launch with
  | some x, some p, some l =>
    match p.state with
    | .restoring col =>
      if !s.schedules || !x.lives then .next s
      else if col ≥ 48 then
        if x.preempted && s.higherWaits (s.tenantOf l.ctx) (s.prioOf x) then .next s
        else
          match s.chooseColumn (b, k) with
          | none => .next s
          | some c => .next (s.updPart b k fun q => { q with state := .restoring c })
      else
        let core := coreAt col (layerOf p.core)
        match s.freeSlot core with
        | none => .next s
        | some slot =>
          if !p.granulesBack || !s.framesFree l core || !(s.columnsOf (s.tenantOf l.ctx)).contains col then .next s
          else
            match s.slotFault x false with
            | some va => .next (s.slotPark x k va false)
            | none =>
            let s1 := ((s.readSlot x).putBack b k l core slot).applyRecorded b
            .next (s1.postPart .restored l.ctx p.sel)
    | _ => .next s
  | _, _, _ => .next s

/-! ## Pre-emption (R339) -/

/-- The block of a column that a pre-emption saves next: the lowest priority, then the youngest (R339). -/
def State.preemptVictim (s : State) (p col : Nat) : Option Block :=
  (s.blocks.filter fun b =>
      b.lives && b.state ≠ .saved && s.tenantOf (s.ctxOfLaunch b.launch) = p && s.prioOf b < 7 &&
        !((s.launch? b.launch).map Launch.coop).getD true &&
        b.parts.all fun q => decide (q.state = .resident) && !q.queued && columnOf q.core = col).foldl
    (fun (m : Option Block) b =>
      match m with
      | none => some b
      | some x =>
        if s.prioOf b < s.prioOf x || (s.prioOf b = s.prioOf x && b.age > x.age) then some b else some x) none

/-- A launch waits because no column qualifies for its next comb, or for all of a COOP launch's (R334, R335). -/
def State.stuckInAdmit (s : State) (l : Launch) : Bool :=
  if l.coop then (State.admitAll l.id (l.combs - l.nextComb) s).isNone else (s.admitComb l fun _ _ => true).isNone

/-- PRIO7_PREEMPT (R339): a launch of PRIO 7 whose comb has waited 20 µs and finds no column saves a block of one column
of its partition; it goes on with that column until the comb qualifies. Which column is not stated. The ballast of a
vacated core is charged to the pre-empting launch's context (R299, R321). -/
def execPrio7Preempt (l col : Nat) (s : State) : Out :=
  match s.launch? l with
  | none => .next s
  | some x =>
    let p := s.tenantOf x.ctx
    let seven := ((s.queues[x.queue]?).map fun q => decide (q.prio = 7)).getD false
    let busy := s.blocks.any fun b => b.preempted && b.lives && b.parts.any fun q =>
      (q.queued || q.state = .saving) && columnOf q.core = col
    if !s.schedules || x.state ≠ .admission || !seven || s.ftime < x.waiting + 20000 || !s.stuckInAdmit x || busy
        || !(s.columnsOf p).contains col || x.emptying.getD col ≠ col then .next s
    else
      match s.preemptVictim p col with
      | none => .next s
      | some b =>
        let ctx := s.ctxOfLaunch b.launch
        let s1 := (s.updBlock b.id fun y => { y with preempted := true }).updLaunch l fun y => { y with emptying := some col }
        .next (s1.queueSaves ((List.range b.parts.length).map fun k => (b.id, k))
          (fun k => ((b.part k.2).map fun (q : Part) => selFor ctx q.core q.slot k.2).getD 0) (BitVec.ofNat 32 x.ctx))

/-! ## The end of a launch (R342, R343) -/

/-- A launch has flushed: its commands are done and its stores have their places at their destinations. -/
def State.flushed (s : State) (l : Nat) : Bool :=
  !(s.cmds.any fun c => c.launch = l && c.state = .running) &&
    s.blocks.all fun b => b.launch ≠ l || b.groups.all fun g => g.threads.all fun t => t.st.isEmpty

/-- The signal store (R342): written, or none on a fault. -/
def State.signalStore (s : State) (l : Launch) : Option State :=
  if l.sigVa + 8 > 2 ^ 52 then none
  else
    match s.translate l.ctx l.sigVa true with
    | .ok t =>
      -- the scheduler is on no die: where a line is homed by die, the first die stands for it
      some (((s.touch (s.tenantOf l.ctx) 0 t true).snoopOut t.loc).writeLoc t.loc 8 l.sigVal.toNat)
    | .error _ => none

/-- LAUNCH_FLUSH_DONE (R342, R343, R383): ELAST, the signal store, the interrupt; the launch's frames and constant space
are free. A refused signal store halts the queue with code 10. -/
def execLaunchFlushDone (l : Nat) (s : State) : Out :=
  match s.launch? l with
  | none => .next s
  | some x =>
    if !s.schedules || x.state ≠ .flush || !s.flushed l then .next s
    else
      let s1 := s.updCtx x.ctx fun c => { c with eLast := BitVec.ofNat 64 x.energy }
      let sig := s1.signalStore x
      let s2 := if x.signal then (sig.map State.pollWaits).getD (s1.haltQueue x.queue 10) else s1
      let s2 := if x.wantsMsix then s2.raiseVector (s.tenantOf x.ctx) x.msixv else s2
      .next ({ s2 with windows := s2.windows.filter fun (w : FrameWin) => w.launch ≠ l }.updLaunch l fun y =>
        { y with state := .done, consts := .empty, overlay0 := [] })

end Sys2Proof.Machine
end

