-- ==== Sys2Proof/Machine/Fabric.lean ====
section
/-!
DEFINITION. Time (R61, R302, R402), the Caerfel links and the fabric join (R3, R399 to R403), jobs' keys (R404), the
host's registers and mailbox (R397, R398), register writes without a row of their own (R7, R429), background work
(R418), replay timeouts (R422), errors of storage (R414 to R417), and reset and power (R424 to R426).
-/

namespace Sys2Proof.Machine

open Sys2Proof

/-! ## Time -/

/-- The clock of a column in twentieths of a pclk: at the PL0 clock while an imbalance holds it (R373), stopped while
its supply is off (R18, R378). -/
def State.columnRate (s : State) (col : Nat) (c : Column) : Nat :=
  match s.supplies[s.supplyOf col]? with
  | none => 0
  | some u => if !u.on then 0 else if c.state = 2 then 13 else 13 + u.clock

/-- Nanoseconds pass (R61, R402): `%ftime`, unless it is held for domain time, and the clocks; a power-down's supplies go
off when their time has come, and the host is told (R388, R426). A block whose threads all wait has waited longer (R338). -/
def State.tick (s : State) (ns : Nat) : State :=
  let held := min ns s.fabric.holdTime
  let uptime := s.uptime + ns
  let off := s.powerOff.any fun t => decide (t ≤ uptime)
  let tells := s.powerOff.any fun t => decide (s.uptime < t) && decide (t ≤ uptime)
  let clock (x : Column × Nat) : Column := { x.1 with pclk20 := x.1.pclk20 + ns * s.columnRate x.2 x.1 }
  { s with
    ftime := s.ftime + (ns - held)
    uptime
    fabric := { s.fabric with
      holdTime := s.fabric.holdTime - held
      downReports := if tells then s.fabric.downReports + 1 else s.fabric.downReports }
    mgmt := { s.mgmt with pclk := s.mgmt.pclk + ns }
    columns := s.columns.zipIdx.map clock
    blocks := s.blocks.map fun (b : Block) => { b with idle := if b.state = .resident && b.allWait then b.idle + ns else 0 }
    supplies := if off then s.supplies.map fun u => { u with on := false } else s.supplies }

/-- TIMECMP_REACHED (R302): time passes until `%ftime` reaches TIMECMP, from which the TIMER source pends (R311). -/
def execTimecmpReached (s : State) : Out :=
  if s.ftime < s.csr.timeCmp.toNat then .next (s.tick (s.csr.timeCmp.toNat - s.ftime + s.fabric.holdTime)) else .next s

/-- TIME_SYNC (R402): a joined device within 20 ns of domain time has TSYNC set, else it is clear. While `%ftime` is held,
its error is at least the time still to hold. -/
def execTimeSync (err : Nat) (s : State) : Out :=
  if s.fabric.joined then .next { s with fabric := { s.fabric with tsync := decide (max err s.fabric.holdTime ≤ 20) } }
  else .next s

/-! ## Links (R399, R403) -/

/-- A port changed. -/
def State.updPort (s : State) (i : Nat) (f : Port → Port) : State :=
  { s with fabric := { s.fabric with ports := updAt s.fabric.ports i f } }

/-- FLIT_RECEIVE (R399): a flit is authenticated, or is discarded and sent again. None comes on a link that must go down, or
that must be rekeyed first. -/
def execFlitReceive (i : Nat) (ok : Bool) (s : State) : Out :=
  .next (s.updPort i fun p =>
    if !p.up || p.fails ≥ 8 || p.flits ≥ 2 ^ 31 then p
    else if ok then { p with flits := p.flits + 1, fails := 0 }
    else { p with fails := p.fails + 1 })

/-- LINK_DOWN (R399): after 8 consecutive failures. -/
def execLinkDown (i : Nat) (s : State) : Out := .next (s.updPort i fun p => if p.up && p.fails ≥ 8 then .down else p)

/-- LINK_REKEY (R399): after 2^31 flits. -/
def execLinkRekey (i : Nat) (s : State) : Out :=
  .next (s.updPort i fun p => if p.up && p.flits ≥ 2 ^ 31 then { p with flits := 0 } else p)

/-- LINK_UP (R399, R403): a link comes up, encrypted, with its partner, its lanes, and whether the partner passed
attestation. None does after a signature failure (R424). -/
def execLinkUp (i : Nat) (peer : BitVec 16) (lanes : Nat) (att : Bool) (s : State) : Out :=
  if s.stopped || s.fabric.unsigned || lanes = 0 || lanes > 8 then .next s
  else .next (s.updPort i fun p =>
    if p.up then p else { up := true, att, enc := true, lanes, peer, fails := 0, flits := 0 })

/-- SERDES_CALIBRATION (R418): link `i` pauses; only latency changes. -/
def execSerdesCalibration (_i : Nat) (s : State) : Out := .next s

/-! ## Joining the fabric (R3, R402, R424) -/

/-- SLED_NUMBER_REPORT (R3): before the fabric join the sled controller reports n and the slot to a module of a sled. -/
def execSledNumberReport (n slot : Nat) (s : State) : Out :=
  if Config.isSled && !s.fabric.joined && slot < 4 && 4 * n + slot < 2 ^ 11 then
    .next { s with fabric := { s.fabric with sled := some (4 * n + slot) } }
  else .next s

/-- FABRIC_JOIN (R3, R402, R424 step 7): the join message sets DEVNUM, the time, AUTH and JOINED. A module of a sled refuses
one that does not name its number, and reports that to the host. `%ftime` steps forward to domain time, or holds until it
is reached; TSYNC tells whether it is within 20 ns. -/
def execFabricJoin (dev : BitVec 11) (time : Nat) (auth : Bool) (s : State) : Out :=
  let up := s.fabric.ports.any fun p => p.up
  if s.stopped || s.fabric.unsigned || s.fabric.joined || !up then .next s
  else if !s.fabric.devnumOk dev.toNat then .next { s with fabric := { s.fabric with refused := some dev.toNat } }
  else if !s.devnumFree dev.toNat then .next s
  else
    .next { s with
      ftime := max s.ftime time
      csr := { s.csr with auth }
      fabric := { s.fabric with
        joined := true, tsync := decide (s.ftime - time ≤ 20), devnum := dev, holdTime := s.ftime - time } }

/-- JOB_KEY_ACCEPT (R404): the responder accepts a key that names a JOBID, or retires the older key. -/
def execJobKeyAccept (p : BitVec 3) (job : BitVec 16) (retire : Bool) (s : State) : Out :=
  .next (s.updTenant p.toNat fun t =>
    if !t.jv || t.jobId ≠ job then t
    else if retire then { t with keySt := if t.keySt = 2 then 1 else t.keySt }
    else { t with keySt := if t.keySt = 0 then 1 else 2 })

/-! ## The host's registers (R397, R398, R429) -/

/-- A host store of bytes to a word of the mailbox: HDATA, or HSEQ, which pends HOSTMBOX (R398). -/
def State.hostMailbox (s : State) (i : Nat) (x mask : DWord) : State :=
  if i < 7 then
    { s with fabric := { s.fabric with
        hdata := updAt s.fabric.hdata i fun d => mergeReg d x mask (fieldMask 63 0) } }
  else if i = 7 && touches mask 31 0 then
    ({ s with fabric := { s.fabric with
        hseq := (mergeReg (s.fabric.hseq.zeroExtend 64) x mask (fieldMask 31 0)).extractLsb' 0 32 } } : State).setPend 7
  else s

/-- A host store at an offset of BAR0 (R397). The component registers' layout is not given: that the host programs the HDM
decoder and IDE is an action of its own (notes/assumptions/88.md). -/
def State.barWrite (s : State) (off size : Nat) (val : DWord) : State :=
  let x := placeVal off val.toNat
  let mask := byteMask off size
  if off < 0x4000 then s.queueWrite (off / 64) (off % 64 / 8) x mask false
  else if 0x10000 ≤ off && off < 0x10040 then s.hostMailbox ((off - 0x10000) / 8) x mask
  else if 0x20000 ≤ off && off < 0x28000 then
    { s with fabric := { s.fabric with msixTable := s.fabric.msixTable.write (off - 0x20000) size (val.toNat % 2 ^ (8 * size)) } }
  else s

/-- The 64-bit register at an offset of BAR0 (R397): reserved offsets read 0. What the component registers read is not
stated: a free value. -/
def State.barWord (s : State) (off : Nat) : DWord :=
  if off < 0x4000 then s.queueRead (off / 64) (off % 64 / 8)
  else if 0x10000 ≤ off && off < 0x10080 then
    let i := (off - 0x10000) / 8
    if i < 7 then s.fabric.hdata.getD i 0
    else if i = 7 then s.fabric.hseq.zeroExtend 64
    else if i < 15 then s.fabric.mdata.getD (i - 8) 0
    else s.fabric.mseq.zeroExtend 64
  else if 0x20000 ≤ off && off < 0x28000 then BitVec.ofNat 64 (s.fabric.msixTable.read ((off - 0x20000) / 8 * 8) 8)
  else if 0x28000 ≤ off && off < 0x28100 then s.fabric.msix.extractLsb' ((off - 0x28000) / 8 * 64) 64
  else if 0x30000 ≤ off && off < 0x31000 then Config.freeValue s.fresh
  else 0

/-- A host read of BAR0 (R397): the bytes it names of a register. -/
def State.barRead (s : State) (off size : Nat) : State :=
  { s with
    fresh := s.fresh + 1
    fabric := { s.fabric with hostReply := ((s.barWord off).toNat / 2 ^ (8 * (off % 8)) % 2 ^ (8 * size), false) } }

/-- The host trains its link (R395): without a feature that the port requires, training stops and there is no link; nor is
there one after a bring-up that stopped before it (R424). -/
def State.hostTrain (s : State) (features : Bool) : State :=
  { s with fabric := { s.fabric with hostLink := features && !s.fabric.unsigned, features } }

/-- Another device stops answering at this time, or answers again, which ends the wait of every access to it that has not
timed out (R400, R401). -/
def State.peerAnswers (s : State) (dev : Nat) (answers : Bool) : State :=
  let rest := s.fabric.silent.filter fun x => x.1 ≠ dev
  let kept := (s.fabric.silent.find? fun x => x.1 = dev).getD (dev, s.uptime)
  { s with fabric := { s.fabric with
      silent := if answers then rest else rest ++ [kept]
      requests := if answers then s.fabric.requests.filter fun r => r.dev ≠ dev || r.expired else s.fabric.requests } }

/-- A store of 1, 2, 4 or 8 bytes, aligned. -/
def goodStore (a size : Nat) : Bool := (size = 1 || size = 2 || size = 4 || size = 8) && a % size = 0

/-- REGISTER_WRITE (R7, R429): a store of the host at an offset of BAR0, or of the management core at an address of the
control ranges that its level reaches. -/
def execRegisterWrite (host : Bool) (a size : Nat) (val : DWord) (s : State) : Out :=
  if !goodStore a size then .next s
  else if host then .next (if s.fabric.hostLink then s.barWrite a size val else s)
  else
    match ctlReg a with
    | some r =>
      if s.ctlMay r then .next (s.ctlWrite r (placeVal a val.toNat) (byteMask a size) s.isHyper) else .next s
    | none => .next s

/-- HOST_MAILBOX_WRITE (R398): the host writes a word of HDATA, or HSEQ. -/
def execHostMailboxWrite (i : BitVec 3) (x : DWord) (s : State) : Out :=
  .next (if s.fabric.hostLink then s.hostMailbox i.toNat x (fieldMask 63 0) else s)

/-! ## Errors of storage and background work (R409 to R418) -/

/-- Corrected errors counted, saturating (R417). -/
def State.corrected (s : State) (n : Nat) : State :=
  { s with rel := { s.rel with ceCnt := min (2 ^ 32 - 1) (s.rel.ceCnt + n) } }

/-- A unit or word of storage turns uncorrectable (R414, R416, R417): it is poisoned and counted. A dirty cache line is
written back with its mark; L1 lines are fetched again; host memory is the host's own; a unit of the staging SRAM fails
the command whose data it holds, here given by its number. -/
def State.poisonUnit (s : State) (kind a : Nat) : State :=
  let mark (k : Nat × Nat) : Reliab := { s.rel with poison := if s.rel.poison.contains k then s.rel.poison else k :: s.rel.poison }
  let count (r : Reliab) (uaddr : Nat) : State :=
    { s with rel := { r with ueCnt := min 65535 (r.ueCnt + 1), uloc := kind % 10, uaddr } }
  if kind ≤ 2 then count (mark (0, a / 64 * 64)) (a / 64 * 64)
  else if kind = 3 then s.corrected 1
  else if kind = 8 then
    let s1 := count s.rel (Config.freeValue s.fresh).toNat
    let s1 := { s1 with fresh := s1.fresh + 1 }
    match s1.cmds.find? fun c => c.id = a && c.state = .running with
    | some c => s1.failCmd c 3 none
    | none => s1
  else if kind = 9 then { s with rel := mark (9, a / 64 * 64) }
  else count (mark (kind, a)) a

/-- A bit of a line of an instruction frame turns, so that the line's parity fails and its fetch raises IPARITY (R48,
R414). -/
def State.frameError (s : State) (launch core line : Nat) : State :=
  { s with windows := s.windows.map fun (w : FrameWin) =>
      if w.launch = launch && w.core = core && line < 64 * w.map.length then
        { w with bytes := w.bytes.write (64 * line) 1 ((w.bytes.byte (64 * line) ^^^ 1).toNat) }
      else w }

/-- PATROL_SCRUB (R418, R414): HBM units are read; some errors are corrected, and a unit may turn out uncorrectable. -/
def execPatrolScrub (n : Nat) (bad : Option Nat) (s : State) : Out :=
  if !s.rel.sen then .next s
  else
    let s1 := s.corrected n
    match bad with
    | some a => if a < hbmSize then .next (s1.poisonUnit 0 a) else .next s1
    | none => .next s1

/-- AGING_MONITOR (R417, R418): the margins of all cores are measured; AGEMARG holds the worst and AGECORE a core that
has it. -/
def execAgingMonitor (margins : List Byte) (core : Nat) (s : State) : Out :=
  match margins[core]? with
  | none => .next s
  | some m =>
    if margins.length = 192 && margins.all fun x => m.toNat ≤ x.toNat then
      .next { s with rel := { s.rel with ageMarg := m, ageCore := BitVec.ofNat 8 core } }
    else .next s

/-- REPLAY_TIMEOUT (R422): the next recorded event has not occurred 10 ms after its successor was ready. -/
def execReplayTimeout (s : State) : Out :=
  match s.csr.capSince, (if s.csr.capMode = 2 && !s.csr.capFree then s.capNext else none) with
  | some t, some r =>
    if t + 10000000 ≤ s.ftime then
      .next { s.capDiverges (leAt r 1 1 % 64) with csr := { s.csr with capDiv := true, capFree := true } }
    else .next s
  | _, _ => .next s

/-! ## Reset and power (R424 to R426) -/

/-- The machine after bring-up with a firmware image (R424). What lies outside the device stays, and so do the agenda and
the model's own counters. The host link is up where the host has the features that it requires (R395). An image whose
signature is refused stops bring-up before step 6. -/
def State.bringUp (s : State) (image : List Byte) (signed : Bool) : State :=
  let r := State.reset
  let s1 := { r with
    agenda := s.agenda, fresh := s.fresh, drawer := s.drawer, drawn := s.drawn, nextId := s.nextId, hostMem := s.hostMem, peerMem := s.peerMem
    rel := { r.rel with poison := s.rel.poison.filter fun k => k.1 = 9, boots := s.rel.boots + 1 }
    fabric := { r.fabric with
      features := s.fabric.features, hostLink := s.fabric.features, silent := s.fabric.silent.map fun (x : Nat × Nat) => (x.1, 0)
      rasErrors := s.fabric.rasErrors, downReports := s.fabric.downReports } }
  if signed then { s1 with mem := Memory.empty.setBytes 0 image, fabric := { s1.fabric with measured := image } }
  else
    { s1 with
      mgmt := { s1.mgmt with halted := true }
      fabric := { s1.fabric with hostLink := false, unsigned := true, mseq := 1 } }

/-- DEVICE_RESET (R424, R425). After a power-down only a host request restores power (R426). -/
def execDeviceReset (image : List Byte) (signed : Bool) (s : State) : Out :=
  if s.powerOff.isSome then .next s else .next (s.bringUp image signed)

/-- POWER_RESTORE_REQUEST (R426): a host request at least 60 s after a power-down restores power. -/
def execPowerRestoreRequest (image : List Byte) (signed : Bool) (s : State) : Out :=
  match s.powerOff with
  | some t => if t + 60000000000 ≤ s.uptime then .next (s.bringUp image signed) else .next s
  | none => .next s

end Sys2Proof.Machine
end

