-- ==== Sys2Proof/Machine/Lanes.lean ====
section
/-!
DEFINITION. The cross-lane and predicate instructions of spec/08_ref_control_lanes.md R209 to R218, with the halves of a
redundant launch (R412).
-/

namespace Sys2Proof.Machine

open Sys2Proof

/-- The lanes a group-wide cross-lane instruction treats as one group: 32, or each half of 16 under REDUNDANT. -/
def State.halfWidth (s : State) : Nat := if s.redundant then 16 else 32

/-- The value of A a lane supplies; a lane that never held a thread supplies 0 (R210). -/
def State.supply (s : State) (c : Ctx) (f : Fields) (l : Nat) : DWord :=
  if (c.rd.thread l).status = .empty then 0 else s.operand c.rd l f f.ty.pair f.a

/-- The registers in which a lane supplies A. -/
def supplyRegs (op : Nat) (f : Fields) : List Nat := opndRegs (formOf op f).a f.a

/-- The registers a writer reads to name its source lane: B. -/
def selectRegs (op : Nat) (f : Fields) : List Nat := opndRegs (formOf op f).b f.b

/-- A cross-lane instruction: the unit waits as one for every pending pair among A in the supplying lanes and B in
the active ones (R210); a group-wide one then needs its group whole. `act` gives each writer's group. -/
def State.crossLane (s : State) (op : Nat) (f : Fields) (c : Ctx) (wide : Bool) (suppliers : List Nat)
    (act : Group → Nat → Group) : Except Stop State :=
  let reads := suppliers.map (fun l => (l, supplyRegs op f)) ++ (c.active f).map fun l => (l, selectRegs op f)
  let waits := distinct (reads.flatMap fun r => (c.rd.thread r.1).waitsFor r.2)
  if !waits.isEmpty then .ok (s.parkUnit c waits)
  else
    (if wide then guardGroup c else guardTraps)
      (reads.flatMap fun r => (c.rd.thread r.1).handleTrap r.1 r.2 ++ s.poisonTrap r.1 r.2) <|
      .ok (s.commit c ((c.active f).foldl act c.g) (fun _ => .next) true 0)

/-- The contributors of the half that lane `l` lies in: active threads that are no helpers (R210). -/
def State.contributors (s : State) (c : Ctx) (f : Fields) (l : Nat) : List Nat :=
  (c.active f).filter fun m => !(c.rd.thread m).helper && m / s.halfWidth = l / s.halfWidth

/-! ## Quads (R39, R211) -/

/-- A quad instruction: lanes of an incomplete quad park; a complete quad issues, with the mates that parked at it
before (R39, R211). -/
def State.quadOp (s : State) (op : Nat) (f : Fields) (src : State → Ctx → Nat → Nat) : Out :=
  s.finish <|
    match s.ctx? with
    | none => .ok s
    | some c =>
      let waitsHere (m : Nat) : Bool := (c.g.thread m).status = .parked .quad && (c.g.thread m).ip = c.u.ip
      let complete (l : Nat) : Bool := (quadMates l).all fun m =>
        c.lanes.contains m || waitsHere m || (c.g.thread m).quadExempt
      let go := c.lanes.filter complete
      let joined := (List.range 32).filter fun m =>
        waitsHere m && (go.any fun l => l / 4 = m / 4)
      let stay := c.lanes.filter fun l => !complete l
      if go.isEmpty then .ok (s.commit c c.g (fun _ => .park .quad) false 0)
      else
        let all := go ++ joined
        let quads := (List.range 32).filter fun m => all.any fun l => l / 4 = m / 4
        let c' := { c with lanes := all ++ stay, g := c.g.unpark joined }
        let on := all.filter fun l => (c.rd.thread l).guard f
        let reads := quads.map (fun l => (l, supplyRegs op f)) ++ on.map fun l => (l, selectRegs op f)
        let waits := distinct (reads.flatMap fun r => (c.rd.thread r.1).waitsFor r.2)
        if !waits.isEmpty then .ok (s.parkUnit c waits)
        else
          guardTraps (reads.flatMap fun r => (c.rd.thread r.1).handleTrap r.1 r.2 ++ s.poisonTrap r.1 r.2) <|
            let g := on.foldl (fun g l => g.writeDst l f.d f.ty.pair (s.supply c f (src s c l))) c'.g
            .ok (s.commit c' g (fun l => if all.contains l then .next else .park .quad) true 0)

/-- QSWP (R211): D := A of lane 4q + (i XOR k). -/
def execQswp (f : Fields) (s : State) : Out :=
  s.quadOp 0x50 f fun _ _ l => l / 4 * 4 + ((l % 4) ^^^ (f.fn.toNat + 1))

/-- QBC (R211): D := A of lane 4q + (B mod 4). -/
def execQbc (f : Fields) (s : State) : Out :=
  s.quadOp 0x51 f fun s c l => l / 4 * 4 + (s.srcB32 c.rd l f).toNat % 4

/-! ## Group-wide (R212 to R216) -/

/-- The source lane of GSHF; none where it is out of range (R212, R412). -/
def shuffleLane (fn w l b : Nat) : Option Nat :=
  let i := l % w
  let base := l / w * w
  let at_ (x : Int) : Option Nat := if 0 ≤ x && x < w then some (base + x.toNat) else none
  match fn with
  | 0 => some (base + b % 32 % w)
  | 1 => at_ ((i : Int) - b)
  | 2 => at_ ((i : Int) + b)
  | _ => some (base + (i ^^^ (b % 32)) % w)

/-- GSHF (R212). -/
def execGshf (f : Fields) (s : State) : Out :=
  s.finish <|
    match s.ctx? with
    | none => .ok s
    | some c => s.crossLane 0x52 f c true (List.range 32) fun g l =>
        let src := (shuffleLane f.fn.toNat s.halfWidth l (s.srcB32 c.rd l f).toNat).getD l
        g.writeDst l f.d f.ty.pair (s.supply c f src)

/-- GVOTE (R213). -/
def execGvote (f : Fields) (s : State) : Out :=
  s.finish <|
    match s.ctx? with
    | none => .ok s
    | some c => s.crossLane 0x53 f c true [] fun g l =>
        let cs := s.contributors c f l
        let holds (m : Nat) : Bool := (c.rd.thread m).predOf f.a
        match f.fn.toNat with
        | 0 => g.writePred l f.d (cs.all holds)
        | 1 => g.writePred l f.d (cs.any holds)
        | _ => g.writeDst l f.d false ((maskOf ((cs.filter holds).map (· % s.halfWidth))).zeroExtend 64)

/-- One combination of GRED and GSCAN under the type (R214). -/
def combine (fn : Nat) (t : Ty) (a b : DWord) : DWord :=
  if t = .f32 then
    let fm := fmtOf .f32
    match fn with
    | 0 => BitVec.ofNat 64 (roundVal fm 0 false 0 ((fval t false a).add 0 (fval t false b)))
    | 1 => BitVec.ofNat 64 (floatMinMax fm false (a.toNat % 2 ^ 32) (b.toNat % 2 ^ 32))
    | _ => BitVec.ofNat 64 (floatMinMax fm true (a.toNat % 2 ^ 32) (b.toNat % 2 ^ 32))
  else
    match fn with
    | 0 => fitInt t false (intVal t a + intVal t b)
    | 1 => if intVal t a ≤ intVal t b then a else b
    | 2 => if intVal t a ≥ intVal t b then a else b
    | 3 => a &&& b
    | 4 => a ||| b
    | _ => a ^^^ b

/-- The identity of a reduction (R214). -/
def identityOf (fn : Nat) (t : Ty) : DWord :=
  match fn with
  | 1 => if t = .f32 then 0x7F800000 else BitVec.ofNat 64 (wrap (Ty.hi t) t.width)
  | 2 => if t = .f32 then 0xFF800000 else BitVec.ofNat 64 (wrap (Ty.lo t) t.width)
  | 3 => BitVec.ofNat 64 (2 ^ t.width - 1)
  | _ => 0

/-- Neighbouring values combined: absent with a value gives the value (R214). -/
def treeLevel (op : DWord → DWord → DWord) : List (Option DWord) → List (Option DWord)
  | x :: y :: r =>
    (match x, y with
      | some a, some b => some (op a b)
      | some a, none => some a
      | none, b => b) :: treeLevel op r
  | r => r

/-- The fixed tree of 32 leaves (R214). -/
def treeReduce (op : DWord → DWord → DWord) (xs : List (Option DWord)) : Option DWord :=
  ((treeLevel op (treeLevel op (treeLevel op (treeLevel op (treeLevel op xs))))).head?).bind id

/-- The values of the contributors of lane `l`'s half, by lane of the half. -/
def State.leaves (s : State) (c : Ctx) (f : Fields) (l : Nat) : List (Option DWord) :=
  let cs := s.contributors c f l
  (List.range 32).map fun i =>
    let m := l / s.halfWidth * s.halfWidth + i
    if i < s.halfWidth && cs.contains m then some (s.supply c f m) else none

/-- GRED (R214). -/
def execGred (f : Fields) (s : State) : Out :=
  s.finish <|
    match s.ctx? with
    | none => .ok s
    | some c => s.crossLane 0x54 f c true ((c.active f).filter fun m => !(c.rd.thread m).helper) fun g l =>
        g.writeDst l f.d f.ty.pair
          ((treeReduce (combine f.fn.toNat f.ty) (s.leaves c f l)).getD (identityOf f.fn.toNat f.ty))

/-- The running combination of the values up to and including a lane (R215). -/
def scanUpTo (op : DWord → DWord → DWord) (xs : List (Option DWord)) (n : Nat) : Option DWord :=
  (xs.take (n + 1)).foldl (fun r x =>
    match r, x with
    | some a, some b => some (op a b)
    | none, b => b
    | a, none => a) none

/-- GSCAN (R215). -/
def execGscan (f : Fields) (s : State) : Out :=
  s.finish <|
    match s.ctx? with
    | none => .ok s
    | some c => s.crossLane 0x55 f c true ((c.active f).filter fun m => !(c.rd.thread m).helper) fun g l =>
        g.writeDst l f.d f.ty.pair
          ((scanUpTo (combine f.fn.toNat f.ty) (s.leaves c f l) (l % s.halfWidth)).getD
            (identityOf f.fn.toNat f.ty))

/-- GMATCH (R216). -/
def execGmatch (f : Fields) (s : State) : Out :=
  s.finish <|
    match s.ctx? with
    | none => .ok s
    | some c => s.crossLane 0x56 f c true (c.active f) fun g l =>
        let same := (s.contributors c f l).filter fun m => s.supply c f m = s.supply c f l
        g.writeDst l f.d false ((maskOf (same.map (· % s.halfWidth))).zeroExtend 64)

/-! ## Predicates (R217, R218) -/

/-- PLOG (R217). -/
def execPlog (f : Fields) (s : State) : Out :=
  s.finish <| s.perThread f (fun _ => []) (fun _ _ => []) fun c g l =>
    let t := c.rd.thread l
    g.writePred l f.d (predFunction (f.immBits 7 0) (t.predOf f.a) (t.predOf f.b) (t.predOf f.c))

/-- PMOV.GET (R218). -/
def execPmovGet (f : Fields) (s : State) : Out :=
  s.finish <| s.perThread f (fun _ => []) (fun _ _ => []) fun c g l =>
    g.writeDst l f.d false (c.rd.thread l).predBits

/-- PMOV.SET (R218). -/
def execPmovSet (f : Fields) (s : State) : Out :=
  s.finish <| s.perThread f (fun _ => readRegs 0x58 f) (fun _ _ => []) fun c g l =>
    let x := (s.operand c.rd l f false f.a).toNat
    g.updThread l fun t => t.setPreds x (f.immBits 6 0)

end Sys2Proof.Machine
end

