-- ==== Sys2Proof/Machine/Dispatch.lean ====
section
/-!
DEFINITION. What each instruction does: one arm per constructor of Instr, each a direct call of its meaning.
-/

namespace Sys2Proof.Machine

open Sys2Proof

/-- The effect of an instruction, or of a step of another agent, on a state. -/
def exec (i : Instr) (s : State) : Host.Outcome State Fault Refusal :=
  match i with
  | .iadd f => Sys2Proof.Machine.execIadd f s
  | .iaddc f => Sys2Proof.Machine.execIaddc f s
  | .isub f => Sys2Proof.Machine.execIsub f s
  | .imul f => Sys2Proof.Machine.execImul f s
  | .imulh f => Sys2Proof.Machine.execImulh f s
  | .imad f => Sys2Proof.Machine.execImad f s
  | .imin f => Sys2Proof.Machine.execImin f s
  | .imax f => Sys2Proof.Machine.execImax f s
  | .iabs f => Sys2Proof.Machine.execIabs f s
  | .logic f => Sys2Proof.Machine.execLogic f s
  | .shl f => Sys2Proof.Machine.execShl f s
  | .shr f => Sys2Proof.Machine.execShr f s
  | .rot f => Sys2Proof.Machine.execRot f s
  | .bfx f => Sys2Proof.Machine.execBfx f s
  | .bfi f => Sys2Proof.Machine.execBfi f s
  | .popc f => Sys2Proof.Machine.execPopc f s
  | .clz f => Sys2Proof.Machine.execClz f s
  | .brev f => Sys2Proof.Machine.execBrev f s
  | .icmp f => Sys2Proof.Machine.execIcmp f s
  | .idot4 f => Sys2Proof.Machine.execIdot4 f s
  | .fadd f => Sys2Proof.Machine.execFadd f s
  | .fmul f => Sys2Proof.Machine.execFmul f s
  | .ffma f => Sys2Proof.Machine.execFfma f s
  | .fmin f => Sys2Proof.Machine.execFmin f s
  | .fmax f => Sys2Proof.Machine.execFmax f s
  | .fcmp f => Sys2Proof.Machine.execFcmp f s
  | .fclass f => Sys2Proof.Machine.execFclass f s
  | .frcp f => Sys2Proof.Machine.execFrcp f s
  | .frsq f => Sys2Proof.Machine.execFrsq f s
  | .fsqrt f => Sys2Proof.Machine.execFsqrt f s
  | .fexp2 f => Sys2Proof.Machine.execFexp2 f s
  | .flog2 f => Sys2Proof.Machine.execFlog2 f s
  | .sinr f => Sys2Proof.Machine.execSinr f s
  | .cosr f => Sys2Proof.Machine.execCosr f s
  | .fscale f => Sys2Proof.Machine.execFscale f s
  | .ffrac f => Sys2Proof.Machine.execFfrac f s
  | .pkfma f => Sys2Proof.Machine.execPkfma f s
  | .pkadd f => Sys2Proof.Machine.execPkadd f s
  | .pkmul f => Sys2Proof.Machine.execPkmul f s
  | .mov f => Sys2Proof.Machine.execMov f s
  | .movi f => Sys2Proof.Machine.execMovi f s
  | .movih f => Sys2Proof.Machine.execMovih f s
  | .sel f => Sys2Proof.Machine.execSel f s
  | .bysel f => Sys2Proof.Machine.execBysel f s
  | .cvt f => Sys2Proof.Machine.execCvt f s
  | .pack f => Sys2Proof.Machine.execPack f s
  | .unpk f => Sys2Proof.Machine.execUnpk f s
  | .vldx f => Sys2Proof.Machine.execVldx f s
  | .vstx f => Sys2Proof.Machine.execVstx f s
  | .rdsp f => Sys2Proof.Machine.execRdsp f s
  | .qswp f => Sys2Proof.Machine.execQswp f s
  | .qbc f => Sys2Proof.Machine.execQbc f s
  | .gshf f => Sys2Proof.Machine.execGshf f s
  | .gvote f => Sys2Proof.Machine.execGvote f s
  | .gred f => Sys2Proof.Machine.execGred f s
  | .gscan f => Sys2Proof.Machine.execGscan f s
  | .gmatch f => Sys2Proof.Machine.execGmatch f s
  | .plog f => Sys2Proof.Machine.execPlog f s
  | .pmovGet f => Sys2Proof.Machine.execPmovGet f s
  | .pmovSet f => Sys2Proof.Machine.execPmovSet f s
  | .bra f => Sys2Proof.Machine.execBra f s
  | .brx f => Sys2Proof.Machine.execBrx f s
  | .call f => Sys2Proof.Machine.execCall f s
  | .callx f => Sys2Proof.Machine.execCallx f s
  | .ret f => Sys2Proof.Machine.execRet f s
  | .loop f => Sys2Proof.Machine.execLoop f s
  | .loopb f => Sys2Proof.Machine.execLoopb f s
  | .exit f => Sys2Proof.Machine.execExit f s
  | .kill f => Sys2Proof.Machine.execKill f s
  | .jset f => Sys2Proof.Machine.execJset f s
  | .jwait f => Sys2Proof.Machine.execJwait f s
  | .jdrop f => Sys2Proof.Machine.execJdrop f s
  | .yieldI f => Sys2Proof.Machine.execYield f s
  | .nop f => Sys2Proof.Machine.execNop f s
  | .brk f => Sys2Proof.Machine.execBrk f s
  | .ovmap f => Sys2Proof.Machine.execOvmap f s
  | .trapu f => Sys2Proof.Machine.execTrapu f s
  | .ld f => Sys2Proof.Machine.execLd f s
  | .st f => Sys2Proof.Machine.execSt f s
  | .lds f => Sys2Proof.Machine.execLds f s
  | .sts f => Sys2Proof.Machine.execSts f s
  | .ldk f => Sys2Proof.Machine.execLdk f s
  | .atom f => Sys2Proof.Machine.execAtom f s
  | .atoms f => Sys2Proof.Machine.execAtoms f s
  | .red f => Sys2Proof.Machine.execRed f s
  | .pref f => Sys2Proof.Machine.execPref f s
  | .pin f => Sys2Proof.Machine.execPin f s
  | .unpin f => Sys2Proof.Machine.execUnpin f s
  | .reclaim f => Sys2Proof.Machine.execReclaim f s
  | .fsys f => Sys2Proof.Machine.execFsys f s
  | .binit f => Sys2Proof.Machine.execBinit f s
  | .barv f => Sys2Proof.Machine.execBarv f s
  | .bexp f => Sys2Proof.Machine.execBexp f s
  | .bwait f => Sys2Proof.Machine.execBwait f s
  | .btest f => Sys2Proof.Machine.execBtest f s
  | .brst f => Sys2Proof.Machine.execBrst f s
  | .htest f => Sys2Proof.Machine.execHtest f s
  | .hcancel f => Sys2Proof.Machine.execHcancel f s
  | .cwait f => Sys2Proof.Machine.execCwait f s
  | .xcopy f => Sys2Proof.Machine.execXcopy f s
  | .xgath f => Sys2Proof.Machine.execXgath f s
  | .xscat f => Sys2Proof.Machine.execXscat f s
  | .xfill f => Sys2Proof.Machine.execXfill f s
  | .xpub f => Sys2Proof.Machine.execXpub f s
  | .coll f => Sys2Proof.Machine.execColl f s
  | .cseq f => Sys2Proof.Machine.execCseq f s
  | .bld f => Sys2Proof.Machine.execBld f s
  | .bldReg f => Sys2Proof.Machine.execBldReg f s
  | .mmaq f => Sys2Proof.Machine.execMmaq f s
  | .mmas f => Sys2Proof.Machine.execMmas f s
  | .acalloc f => Sys2Proof.Machine.execAcalloc f s
  | .acfree f => Sys2Proof.Machine.execAcfree f s
  | .aczero f => Sys2Proof.Machine.execAczero f s
  | .acrd f => Sys2Proof.Machine.execAcrd f s
  | .acwr f => Sys2Proof.Machine.execAcwr f s
  | .scacc f => Sys2Proof.Machine.execScacc f s
  | .cbld f => Sys2Proof.Machine.execCbld f s
  | .burn f => Sys2Proof.Machine.execBurn f s
  | .shunt f => Sys2Proof.Machine.execShunt f s
  | .balq f => Sys2Proof.Machine.execBalq f s
  | .plreq f => Sys2Proof.Machine.execPlreq f s
  | .enrd f => Sys2Proof.Machine.execEnrd f s
  | .csrr f => Sys2Proof.Machine.execCsrr f s
  | .csrw f => Sys2Proof.Machine.execCsrw f s
  | .eret f => Sys2Proof.Machine.execEret f s
  | .wfi f => Sys2Proof.Machine.execWfi f s
  | .sev f => Sys2Proof.Machine.execSev f s
  | .intack f => Sys2Proof.Machine.execIntack f s
  | .tlbinvCtx f => Sys2Proof.Machine.execTlbinvCtx f s
  | .tlbinvPage f => Sys2Proof.Machine.execTlbinvPage f s
  | .ctxsv f => Sys2Proof.Machine.execCtxsv f s
  | .ctxld f => Sys2Proof.Machine.execCtxld f s
  | .tokxf f => Sys2Proof.Machine.execTokxf f s
  | .capmk f => Sys2Proof.Machine.execCapmk f s
  | .loadComplete b g l k => Sys2Proof.Machine.execLoadComplete b g l k s
  | .storePerformed b g l => Sys2Proof.Machine.execStorePerformed b g l s
  | .matrixComplete b g => Sys2Proof.Machine.execMatrixComplete b g s
  | .unitTakesFreedWay core part set => Sys2Proof.Machine.execUnitTakesFreedWay core part set s
  | .yieldHoldEnd b g u => Sys2Proof.Machine.execYieldHoldEnd b g u s
  | .engineSourceRead id off len => Sys2Proof.Machine.execEngineSourceRead id off len s
  | .enginePublish id => Sys2Proof.Machine.execEnginePublish id s
  | .holdSetPublish id => Sys2Proof.Machine.execHoldSetPublish id s
  | .commandFail id pos => Sys2Proof.Machine.execCommandFail id pos s
  | .commandCancel id => Sys2Proof.Machine.execCommandCancel id s
  | .collHashMatch id innet => Sys2Proof.Machine.execCollHashMatch id innet s
  | .collShardPublish id j => Sys2Proof.Machine.execCollShardPublish id j s
  | .collMemberFailure ctx gid seq dev => Sys2Proof.Machine.execCollMemberFailure ctx gid seq dev s
  | .collMemberLeaves ctx gid dev => Sys2Proof.Machine.execCollMemberLeaves ctx gid dev s
  | .collectiveFlitArrival ctx gid seq dev hash tile => Sys2Proof.Machine.execCollectiveFlitArrival ctx gid seq dev hash tile s
  | .backlogReplay ctx => Sys2Proof.Machine.execBacklogReplay ctx s
  | .backlogTimeout own ctx gid seq => Sys2Proof.Machine.execBacklogTimeout own ctx gid seq s
  | .reductionSwitchLeaves id => Sys2Proof.Machine.execReductionSwitchLeaves id s
  | .pinQuery job asid name => Sys2Proof.Machine.execPinQuery job asid name s
  | .freeRingAppend k clear => Sys2Proof.Machine.execFreeRingAppend k clear s
  | .ringAppendRetry k => Sys2Proof.Machine.execRingAppendRetry k s
  | .pageWalk ctx va => Sys2Proof.Machine.execPageWalk ctx va s
  | .remoteAccess kind fn ty a x y => Sys2Proof.Machine.execRemoteAccess kind fn ty a x y s
  | .fabricTimeout cmd dev => Sys2Proof.Machine.execFabricTimeout cmd dev s
  | .hostMemAccess write prot a size x => Sys2Proof.Machine.execHostMemAccess write prot a size x s
  | .acmEvict core sector => Sys2Proof.Machine.execAcmEvict core sector s
  | .acmGrant core sector => Sys2Proof.Machine.execAcmGrant core sector s
  | .acmSpillDone b part sector => Sys2Proof.Machine.execAcmSpillDone b part sector s
  | .acmRestore b part sector => Sys2Proof.Machine.execAcmRestore b part sector s
  | .eventPost k => Sys2Proof.Machine.execEventPost k s
  | .blkctlResume seq => Sys2Proof.Machine.execBlkctlResume seq s
  | .blkctlSkip seq => Sys2Proof.Machine.execBlkctlSkip seq s
  | .blkctlKill seq => Sys2Proof.Machine.execBlkctlKill seq s
  | .interruptEntry => Sys2Proof.Machine.execInterruptEntry s
  | .timecmpReached => Sys2Proof.Machine.execTimecmpReached s
  | .partSaveDone b k => Sys2Proof.Machine.execPartSaveDone b k s
  | .partRestoreDone b k => Sys2Proof.Machine.execPartRestoreDone b k s
  | .queueDoorbell host k tail => Sys2Proof.Machine.execQueueDoorbell host k tail s
  | .queueResume host k => Sys2Proof.Machine.execQueueResume host k s
  | .recordCheck k => Sys2Proof.Machine.execRecordCheck k s
  | .waitRecordPoll k => Sys2Proof.Machine.execWaitRecordPoll k s
  | .combAdmit l => Sys2Proof.Machine.execCombAdmit l s
  | .blockSwitchOut b => Sys2Proof.Machine.execBlockSwitchOut b s
  | .blockSwitchIn b => Sys2Proof.Machine.execBlockSwitchIn b s
  | .prio7Preempt l col => Sys2Proof.Machine.execPrio7Preempt l col s
  | .launchFlushDone l => Sys2Proof.Machine.execLaunchFlushDone l s
  | .partitionReset p => Sys2Proof.Machine.execPartitionReset p s
  | .partitionResetDone p => Sys2Proof.Machine.execPartitionResetDone p s
  | .swmatrixWrite t x => Sys2Proof.Machine.execSwmatrixWrite t x s
  | .balanceSample cols falls power energy proj => Sys2Proof.Machine.execBalanceSample cols falls power energy proj s
  | .imbalRelease col => Sys2Proof.Machine.execImbalRelease col s
  | .levelChange d => Sys2Proof.Machine.execLevelChange d s
  | .cohortWrite d x => Sys2Proof.Machine.execCohortWrite d x s
  | .cohortLevelAdopt d => Sys2Proof.Machine.execCohortLevelAdopt d s
  | .tokenWindowEnd => Sys2Proof.Machine.execTokenWindowEnd s
  | .mint x => Sys2Proof.Machine.execMint x s
  | .waggleAccept amount t0 => Sys2Proof.Machine.execWaggleAccept amount t0 s
  | .waggleAck k => Sys2Proof.Machine.execWaggleAck k s
  | .tokret k => Sys2Proof.Machine.execTokret k s
  | .thermalPoll temps => Sys2Proof.Machine.execThermalPoll temps s
  | .thrcfgWrite k x => Sys2Proof.Machine.execThrcfgWrite k x s
  | .ctxidWrite k x => Sys2Proof.Machine.execCtxidWrite k x s
  | .clrpois a => Sys2Proof.Machine.execClrpois a s
  | .patrolScrub n bad => Sys2Proof.Machine.execPatrolScrub n bad s
  | .serdesCalibration k => Sys2Proof.Machine.execSerdesCalibration k s
  | .diodeCalibration k => Sys2Proof.Machine.execDiodeCalibration k s
  | .agingMonitor margins core => Sys2Proof.Machine.execAgingMonitor margins core s
  | .replayTimeout => Sys2Proof.Machine.execReplayTimeout s
  | .hostMailboxWrite k x => Sys2Proof.Machine.execHostMailboxWrite k x s
  | .mgmtMailboxWrite k x => Sys2Proof.Machine.execMgmtMailboxWrite k x s
  | .collGroupOpen ctx entry gid => Sys2Proof.Machine.execCollGroupOpen ctx entry gid s
  | .jobRegisterWrite p x => Sys2Proof.Machine.execJobRegisterWrite p x s
  | .jobKeyAccept p job retire => Sys2Proof.Machine.execJobKeyAccept p job retire s
  | .flitReceive k ok => Sys2Proof.Machine.execFlitReceive k ok s
  | .linkDown k => Sys2Proof.Machine.execLinkDown k s
  | .linkRekey k => Sys2Proof.Machine.execLinkRekey k s
  | .linkUp k peer lanes att => Sys2Proof.Machine.execLinkUp k peer lanes att s
  | .sledNumberReport n slot => Sys2Proof.Machine.execSledNumberReport n slot s
  | .fabricJoin dev time auth => Sys2Proof.Machine.execFabricJoin dev time auth s
  | .timeSync err => Sys2Proof.Machine.execTimeSync err s
  | .deviceReset image signed => Sys2Proof.Machine.execDeviceReset image signed s
  | .powerRestoreRequest image signed => Sys2Proof.Machine.execPowerRestoreRequest image signed s
  | .readToClear csr n k => Sys2Proof.Machine.execReadToClear csr n k s
  | .registerWrite host a size val => Sys2Proof.Machine.execRegisterWrite host a size val s
  | .ballastRequestExpiry b g => Sys2Proof.Machine.execBallastRequestExpiry b g s
  | .shuntReservationExpiry b g => Sys2Proof.Machine.execShuntReservationExpiry b g s
  | .reclaimSearchComplete id remote => Sys2Proof.Machine.execReclaimSearchComplete id remote s
  | .slopeLimitRamp col want => Sys2Proof.Machine.execSlopeLimitRamp col want s

end Sys2Proof.Machine
end

