-- ==== Sys2Proof/Machine/Issue.lean ====
section
/-!
DEFINITION. Issue: the instruction of a unit (R44, R46, R48, R138), entries (R30, R37), the issue former and pairs (R33
to R35), the management core (R301, R312), and what each action of the agenda does.
-/

namespace Sys2Proof.Machine

open Sys2Proof

/-! ## One unit -/

/-- The state between steps: no issuer, no pair, no trap noted, and fresh free values for the next step, which the machine
itself draws first (R9). -/
def State.tidy (s : State) : State :=
  { ({ s with fresh := s.fresh + 1 } : State).drawFor 64 with cur := .mgmt, pairRead := none, trapped := none }

/-- An outcome with a tidy state. -/
def tidyOut : Out → Out
  | .next s => .next s.tidy
  | .fault f => .fault f
  | .refused r => .refused r

/-- A loop-back to a slot that is no legal target (R44): BADTARGET in the lanes that looped back; a RESUME issues the
instruction without the check. -/
def State.backTrap (s : State) (c : Ctx) (back : List Nat) : State :=
  s.takeTrap (mkTrap .badTarget 1 (back.headD 0) (s.imageOffset c.u.ip % 2 ^ 52))

/-- The lanes of an event check their loop-back no more (R44). -/
def State.unback (s : State) (ls : List (Nat × Word)) (b : Nat) : State :=
  ls.foldl (fun s x => s.updGroup (.unit b x.1 0) fun g =>
    (lanesOf x.2).foldl (fun g l => g.updThread l fun t => { t with back := false }) g) s

/-- The loop end of a redundant launch (R412): the next IPs of a primary and its shadow, where the instruction stands at
a loop end and does not transfer control (R44): another instruction than these, or one of them in a thread whose guard is
false. -/
def State.loopEndTraps (s : State) (c : Ctx) (op : Nat) (f : Fields) : List Trap :=
  let ends (l : Nat) : Bool :=
    let t := c.g.thread l
    let k := topLevel t.loops 0
    k ≠ 0 && (t.loops.getD (k - 1) .off).last = t.ip
  let moves (l : Nat) : Bool := op = 0x67 || (0x60 ≤ op && op ≤ 0x66) && (c.rd.thread l).guard f
  if !(c.lanes.any ends) then []
  else s.mismatch c fun l => if moves l then [] else [(c.g.thread l).advance.ip]

/-- The first lane of a unit that an instruction has sent to an IP outside the image, or on the management core outside
HBM (R133, R301), and that IP. -/
def State.stray (s t : State) (c : Ctx) : Option (Nat × DWord) :=
  match t.groupOf s.cur with
  | none => none
  | some g => (c.lanes.find? fun l => (g.thread l).live && !s.ipOk (g.thread l).ip).map fun l => (l, (g.thread l).ip)

/-- The outcome of an instruction that would send a thread of its unit beyond the image: BADTARGET, and the instruction has
no effect (R133). -/
def State.confine (s : State) (c : Ctx) (o : Out) : Out :=
  match o with
  | .next t =>
    if t.trapped.isSome then .next t
    else
      match s.stray t c with
      | some (l, ip) => .next (s.takeTrap (mkTrap .badTarget 30 l (s.imageOffset ip % 2 ^ 52)))
      | none => .next t
  | o => o

/-- The current issuer's unit issues the instruction at its IP: BADTARGET outside the image (R133), OVERLAY (R46), the check
of a loop-back (R44), the checks of R138, then the instruction. -/
def State.issueCur (s : State) : Out :=
  match s.ctx? with
  | none => .next s
  | some c =>
    let ip := c.u.ip
    let back := c.lanes.filter fun l => (c.g.thread l).back
    if !s.ipOk ip then .next (s.takeTrap (mkTrap .badTarget 30 (c.lanes.headD 0) (s.imageOffset ip % 2 ^ 52)))
    else if (s.frameAt ip).isNone then s.finish (s.overlayTrap c c.g (fun _ => ip) c.lanes true)
    else if !back.isEmpty && !s.isTarget ip then .next (s.backTrap c back)
    else
      match s.fetch ip with
      | .trap cause d => .next (s.takeTrap (mkTrap cause 1 (c.lanes.headD 0) d))
      | .instr i =>
        match firstTrap (match i.isa with | some (op, f) => s.loopEndTraps c op f | none => []) with
        | some t => .next (s.takeTrap t)
        | none => s.confine c (Sys2Proof.Machine.exec i s)

/-! ## Entries (R30, R37) -/

/-- The number of a unit in its group now: the one at its IP that still holds its lanes. -/
def State.unitIdx (s : State) (p : Placed) (ip : DWord) : Nat :=
  match s.groupOf (.unit p.block p.group 0) with
  | none => 0
  | some g =>
    (g.units.findIdx? fun u => u.ip = ip && u.lanes &&& p.unit.lanes = p.unit.lanes).getD g.units.length

/-- The state with a unit as the issuer; its context draws the free values (R9). -/
def State.aim (s : State) (p : Placed) (ip : DWord) : State :=
  { s.drawFor (((s.launch? p.launch).map (·.ctx)).getD 64) with
    cur := .unit p.block p.group (s.unitIdx p ip), trapped := none }

/-- A unit in the table may issue: its block is not parked or stopped (R307). -/
def State.mayIssue (s : State) (p : Placed) : Bool :=
  !s.stopped &&
    match s.block? p.block with
    | some b => !b.stopped && !s.blockParked b
    | none => false

/-- The units of an entry that may issue. -/
def State.entryUnits (s : State) (core part set way : Nat) : List Placed :=
  (inEntry (s.placedAt core part) set way).filter s.mayIssue

/-- The lanes of an issue that belong to a block, by group, for an event of it (R307, R310). -/
def lanesOfBlock (ps : List Placed) (b : Nat) : List (Nat × Word) :=
  (ps.filter fun p => p.block = b).map fun p => (p.group, p.unit.lanes)

/-- The last event raised concerns every thread of its block in the issue (R35, R138). A loop-back that it reports is not
checked again in any of them (R44). -/
def State.widenEvent (s : State) (ps : List Placed) (p : Placed) : State :=
  match s.waiting.getLast? with
  | none => s
  | some e =>
    let ls := lanesOfBlock ps p.block
    let s := { s with waiting := s.waiting.dropLast ++ [{ e with lanes := ls }] }
    if e.cause = .badTarget then s.unback ls p.block else s

/-- The first of some traps, with the unit that found it. -/
def firstOf (ts : List (Trap × Placed)) : Option (Trap × Placed) :=
  ts.foldl (fun best x =>
    match best with
    | none => some x
    | some b =>
      if x.1.rank < b.1.rank || (x.1.rank = b.1.rank && x.1.lane < b.1.lane) then some x else some b) none

/-- Whether a unit's issue was held while a part of its block is away, as it is where it needs that part (R75, R338). -/
def State.noteHeld (s t : State) (p : Placed) : State :=
  let iss := Issuer.unit p.block p.group 0
  match t.block? p.block, t.groupOf iss with
  | some b, some g =>
    if b.partAway && s.groupOf iss = some g then
      t.setGroup iss { g with units := g.units.map fun u =>
        if u.ip = p.unit.ip && u.lanes &&& p.unit.lanes = p.unit.lanes then { u with stuck := true } else u }
    else t
  | _, _ => t

/-- The instruction of a unit, where it can be fetched: its opcode and fields. -/
def State.isaAt (s : State) (p : Placed) : Option (Nat × Fields) :=
  let s := s.aim p p.unit.ip
  if (s.frameAt p.unit.ip).isNone then none
  else match s.fetch p.unit.ip with | .instr i => i.isa | .trap _ _ => none

/-- The opcode that an issue of units at one IP of one launch executes. -/
def State.opAt (s : State) (ps : List Placed) : Option Nat := (ps.head?.bind s.isaAt).map (·.1)

/-- The overlays that a window is loading. -/
def State.loadingOf (s : State) (w : FrameWin) : List (Nat × Nat × Nat × Word) :=
  ((s.frameWin w.launch w.core).map (·.loading)).getD []

/-- A unit of an issue run with the overlays that were loading before the issue: those that its own threads begin to load
come to those of the other units (R46). -/
def State.runApart (s : State) (run : State → Placed → Out) (t : State) (p : Placed) : Out :=
  let before : State := { t with windows := t.windows.map fun (w : FrameWin) => { w with loading := s.loadingOf w } }
  match run before p with
  | .next u => .next { u with windows := u.windows.map fun (w : FrameWin) =>
      { w with loading := t.loadingOf w ++ w.loading.drop (s.loadingOf w).length } }
  | o => o

/-- The units of an issue executed one after the other: the state, and the traps found with their units; DIVERGED stops its
own group alone (R37). -/
def State.runUnits (s : State) (ps : List Placed) (run : State → Placed → Out) : State × List (Trap × Placed) :=
  ps.foldl (fun (acc : State × List (Trap × Placed)) p =>
    match run acc.1 p with
    | .next t =>
      match t.trapped with
      | some x => if x.cause = .diverged then ({ t with trapped := none }, acc.2) else ({ t with trapped := none }, acc.2 ++ [(x, p)])
      | none => (acc.1.noteHeld t p, acc.2)
    | _ => acc) (s, [])

/-- An active lane of a unit whose sources do not wait goes, in a BRA, BRX, CALL or CALLX, to an overlay that has no frame. -/
def State.needsOverlay (s : State) (p : Placed) : Bool :=
  let t := s.aim p p.unit.ip
  match t.ctx?, s.isaAt p with
  | some c, some (op, f) =>
    let target (l : Nat) : DWord := if op % 2 = 0 then directTarget c.u.ip f else t.indirect c f l
    0x60 ≤ op && op ≤ 0x63 && (c.active f).any fun l =>
      ((c.rd.thread l).waitsFor (readRegs op f)).isEmpty && (t.frameAt (target l)).isNone
  | _, _ => false

/-- The OVMAPs of the units of one issue in lane order (R207); `r` is the state after each has executed. A hold of one holds
them all. -/
def State.ovmapTogether (s r : State) (ps : List Placed) : State :=
  if ps.any fun p => r.groupOf (.unit p.block p.group 0) = s.groupOf (.unit p.block p.group 0) then s
  else
    let maps := ps.flatMap fun p =>
      let t := s.aim p p.unit.ip
      match t.ctx?, s.isaAt p with
      | some c, some (op, f) =>
        t.ovmapLanes c f ((c.active f).filter fun l => ((c.rd.thread l).waitsFor (readRegs op f)).isEmpty)
      | _, _ => []
    let sorted := (List.range 32).filterMap fun l => maps.find? fun m => m.1 = l
    match ps.head? with
    | none => r
    | some p =>
      { r with windows := (s.mapOverlays p.launch (((s.block? p.block).map (·.coreOf p.group)).getD 0) sorted).windows }

/-- The units of an issue execute, each by `run`. A trap other than DIVERGED takes effect alone: no thread of the issue
has any other effect (R35, R138). The checks and the effects of one issue go across its units, whatever their groups: in a
BRA, BRX, CALL or CALLX the threads that need an overlay without a frame take OVERLAY or park, before any target's slot is
checked, and every other thread stays (R46, R193, R195); the OVMAPs of one issue follow lane order (R207). DESIGN CHOICE
(notes/assumptions/92.md): so the rules speak of the threads of an issue, where R36 and R37 split group-wide forms alone. -/
def State.issueUnits (s : State) (ps : List Placed) (run : State → Placed → Out) : Out :=
  let op := s.opAt ps
  let moves := ((op.map fun o => decide (0x60 ≤ o && o ≤ 0x63))).getD false
  let alone := if moves || op.isNone || op = some 0x64 then s.runApart run else run
  let r := s.runUnits ps alone
  let loads := ps.filter s.needsOverlay
  let overlays : Bool := moves && ps.length > 1 && !loads.isEmpty
  match firstOf r.2 with
  | none =>
    if overlays then .next (s.runUnits loads alone).1
    else .next (if op = some 0x6E && ps.length > 1 then s.ovmapTogether r.1 ps else r.1)
  | some (x, p) =>
    if overlays && x.rank = 31 then .next (s.runUnits loads alone).1
    else
      match run s p with
      | .next t => .next (if p.block = 0 then t else t.widenEvent ps p)
      | o => o

/-- A unit issues alone. -/
def runOne (s : State) (p : Placed) : Out := (s.aim p p.unit.ip).issueCur

/-! ## Pairs (R34, R35) -/

/-- A group-wide instruction (R36). -/
def groupWide (op : Nat) (f : Fields) : Bool :=
  f.namesS || (0x52 ≤ op && op ≤ 0x56) || (0xB0 ≤ op && op ≤ 0xBF) || op = 0xC0 || op = 0xC1 || op = 0xC3

/-- An instruction that a pair may hold: no control, wait, engine or group-wide instruction (R34). Of the memory chapter LD
to PREF may pair and the others are wait instructions (R221); no instruction of the engine chapter pairs (R245). -/
def pairs (i : Instr) : Bool :=
  match i.isa with
  | none => false
  | some (op, f) => !groupWide op f && (op < 0x50 || op = 0x57 || op = 0x58 || (0x70 ≤ op && op ≤ 0x78))

/-- The instructions of a pair at the current issuer's unit, when it may issue as one (R34). DESIGN CHOICE
(notes/assumptions/80.md): slots whose second word fails the checks of R138 step 2 form no pair, so that slot k issues alone
and the condition is raised at slot k + 1; the spec does not say which of the two it is. -/
def State.pairAt (s : State) : Option (Instr × Instr) :=
  match s.ctx? with
  | none => none
  | some c =>
    let ip := c.u.ip
    let k := slotOf ip
    let atEnd (t : Thread) : Bool :=
      let n := topLevel t.loops 0
      n ≠ 0 && (t.loops.getD (n - 1) .off).last = ip
    if k < 4 && (s.frameAt ip).isSome && bit (lineWord (s.lineAt ip)) (5 + k) &&
        !(c.lanes.any fun l => atEnd (c.g.thread l) || (c.g.thread l).back) then
      match s.fetch ip, s.fetch (nextSlot ip) with
      | .instr i, .instr j => if pairs i && pairs j then some (i, j) else none
      | _, _ => none
    else none

/-- The registers of a lane that an instruction waits for (R66). -/
def State.waitRegs (s : State) (c : Ctx) (i : Instr) (l : Nat) : List Nat :=
  match i with
  | .mov f =>
    match f.a, f.d with
    | .v a, .v _ => if f.ty.pair then (c.rd.thread l).moveReads a.toNat else readRegs 0x40 f
    | _, _ => readRegs 0x40 f
  | .vldx f => s.vldxReads c.rd f l
  | i => match i.isa with | some (op, f) => readRegs op f | none => []

/-- The commands a lane waits for before a pair: those of either instruction. -/
def State.pairWaits (s : State) (c : Ctx) (i j : Instr) (l : Nat) : List Nat :=
  let t := c.rd.thread l
  let of (x : Instr) : List Nat :=
    match x.isa with
    | some (_, f) => if t.guard f then t.waitsFor (s.waitRegs c x l) else []
    | none => []
  distinct (of i ++ of j)

/-- The second slot of a pair: the loop end of a redundant launch is compared before the instruction (R412). -/
def State.issueSecond (s : State) (j : Instr) : Out :=
  match s.ctx?, j.isa with
  | some c, some (op, f) =>
    match firstTrap (s.loopEndTraps c op f) with
    | some x => .next (s.takeTrap x)
    | none => Sys2Proof.Machine.exec j s
  | _, _ => Sys2Proof.Machine.exec j s

/-- A pair takes effect whole or not at all: both instructions read the group as it stood, the second's writes are kept
over the first's, a trap of either is taken in the state before the pair, and a hold of either holds both (R34, R35). -/
def runPair (s : State) (p : Placed) : Out :=
  let s := s.aim p p.unit.ip
  match s.ctx?, s.pairAt with
  | some c, some (i, j) =>
    if c.lanes.any fun l => !(s.pairWaits c i j l).isEmpty then .next (s.parkLanes c (s.pairWaits c i j))
    else
      match Sys2Proof.Machine.exec i { s with pairRead := some (c.g, true) } with
      | .next t =>
        if t.trapped.isSome then .next t
        else if t.groupOf s.cur = some c.g then .next (s.setRequests t.fabric.requests)
        else
          let t := t.aim p (nextSlot p.unit.ip)
          match ({ t with pairRead := some (c.g, false) } : State).issueSecond j with
          | .next u =>
            match u.trapped with
            | some x => .next (({ s with pairRead := some (c.g, false) } : State).takeTrap x)
            | none =>
              if u.groupOf t.cur = t.groupOf t.cur then .next (s.setRequests u.fabric.requests)
              else ({ s with pairRead := some (c.g, false) } : State).confine c (.next { u with pairRead := none })
          | o => o
      | o => o
  | _, _ => s.issueCur

/-! ## The issue former (R33) -/

/-- The five issue units of a partition. -/
inductive IssuePort where
  | vector | memory | scalar | matrix | control
  deriving DecidableEq, Repr

/-- The issue unit of an instruction (R33). -/
def issuePort (i : Instr) : IssuePort :=
  match i.isa with
  | none => .control
  | some (op, f) =>
    if op < 0x50 then (if f.namesS then .scalar else .vector)
    else if 0x70 ≤ op && op < 0xB0 then .memory
    else if 0xB0 ≤ op && op < 0xC0 then .matrix
    else .control

/-- An entry's priority: its class and its stamp; a smaller one goes first (R33). -/
def State.entryKey (s : State) (core : Nat) (ps : List Placed) : Nat × Nat :=
  let stamp := (ps.map fun p => p.unit.stamp).foldl min ((ps.head?.map fun p => p.unit.stamp).getD 0)
  (if stamp + 32768 ≤ s.columnClock (columnOf core) then 0 else if ps.any fun p => p.unit.hinted then 1 else 2, stamp)

/-- The entries of a partition that may issue, in set and way order, with their keys. -/
def State.entries (s : State) (core part : Nat) : List ((Nat × Nat) × List Placed) :=
  ((List.range 16).flatMap fun set => (List.range 4).map fun way => s.entryUnits core part set way).filterMap fun ps =>
    if ps.isEmpty then none else some (s.entryKey core ps, ps)

/-- The entry that goes first; ties go to the earlier set and way. -/
def bestEntry (es : List ((Nat × Nat) × List Placed)) : Option (List Placed) :=
  (es.foldl (fun (m : Option ((Nat × Nat) × List Placed)) e =>
    match m with
    | none => some e
    | some x => if e.1.1 < x.1.1 || (e.1.1 = x.1.1 && e.1.2 < x.1.2) then some e else some x) none).map (·.2)

/-- The issue unit an entry's instruction needs; none where its fetch traps. -/
def State.portOf (s : State) (ps : List Placed) : Option IssuePort :=
  match ps.head? with
  | none => none
  | some p =>
    let s := s.aim p p.unit.ip
    if (s.frameAt p.unit.ip).isNone then none
    else match s.fetch p.unit.ip with | .instr i => some (issuePort i) | .trap _ _ => none

/-- A thread of an entry issues its pair again (R35). -/
def State.pairAgainIn (s : State) (ps : List Placed) : Bool :=
  ps.any fun p =>
    match s.groupOf (.unit p.block p.group 0) with
    | some g => (lanesOf p.unit.lanes).any fun l => (g.thread l).again
    | none => false

/-- Issue slots of an entry counted to its launch, where the issue has had an effect (R383); its blocks do not wait
(R338). -/
def State.countSlots (s : State) (ps : List Placed) (n : Nat) (t : State) : State :=
  match ps.head? with
  | none => t
  | some p =>
    if ps.all fun q => t.groupOf (.unit q.block q.group 0) = s.groupOf (.unit q.block q.group 0) then t
    else
      let core := ((s.block? p.block).map (·.coreOf p.group)).getD 0
      let old := ((t.slots.find? fun x => x.1 = core && x.2.1 = p.launch).map (·.2.2)).getD 0
      { ps.foldl (fun (t : State) q => t.updBlock q.block fun b => { b with idle := 0 }) t with
        slots := (t.slots.filter fun x => !(x.1 = core && x.2.1 = p.launch)) ++ [(core, p.launch, old + n)] }

/-- The units of an entry issue one instruction, or two as a pair. -/
def State.issueAs (s : State) (ps : List Placed) (pair : Bool) : Out :=
  match s.issueUnits ps (if pair then runPair else runOne) with
  | .next t => .next (s.countSlots ps (if pair then 2 else 1) t)
  | o => o

/-- An entry issues: alone, or again as the pair that has trapped (R35). -/
def State.issueEntry (s : State) (ps : List Placed) : Out := s.issueAs ps (s.pairAgainIn ps)

/-- One pclk of a partition's former (R33, R34): the first entry issues, as a pair where it may; else a second entry
that needs another issue unit issues beside it. -/
def State.form (s : State) (core part : Nat) : Out :=
  match bestEntry (s.entries core part) with
  | none => .next s
  | some ps =>
    let paired := s.pairAgainIn ps || ps.all fun p => ((s.aim p p.unit.ip).pairAt).isSome
    if paired then s.issueAs ps true
    else
      let port := s.portOf ps
      let rest := (s.entries core part).filter fun e => e.2 ≠ ps && (port.isNone || s.portOf e.2 ≠ port)
      match s.issueAs ps false, bestEntry rest with
      | .next t, some qs =>
        let qs := qs.filter t.mayIssue
        t.issueEntry qs
      | o, _ => o

/-! ## The management core (R301, R312, R316) -/

/-- The management core takes a pending interrupt, or issues. A parked or held thread, and one that has ended, does
nothing. -/
def State.mgmtAct (s : State) : Out :=
  if s.mgmt.halted || s.stopped then .next s
  else if s.interrupted then execInterruptEntry s
  else
    match s.mgmt.group.units.head? with
    | none => .next s
    | some u => if u.held.isSome then .next s else ({ s with cur := .mgmt, trapped := none } : State).issueCur

/-! ## The agenda -/

/-- A checker disagrees in a partition (R409, R410): codes 0 and 1 stand against its next result; a column failure takes
the spare (code 3), or leaves the partition without an array. -/
def State.disagree (s : State) (here code : Nat) : State :=
  if code ≤ 1 then { s with rel := { s.rel with checker := s.rel.checker ++ [(here, code)] } }
  else if s.rel.noSpare.contains here then s
  else if s.rel.spare.contains here || Config.spareUsed s.rel.boots here then
    { s with rel := { s.rel with noSpare := here :: s.rel.noSpare, spFail := s.rel.spFail + 1 } }
  else { s with rel := { s.rel with checker := s.rel.checker ++ [(here, 3)] } }

/-- The context for which another agent acts, whose free values it draws (R9); 64: none. -/
def State.actsFor (s : State) (i : Instr) : Nat :=
  let ofLaunch (l : Nat) : Nat := ((s.launch? l).map (·.ctx)).getD 64
  let ofBlock (b : Nat) : Nat := ((s.block? b).map fun x => ofLaunch x.launch).getD 64
  let ofCmd (id : Nat) : Nat := ((s.cmds.find? fun c => c.id = id).map (·.ctx)).getD 64
  let ofName (k : Nat) : Nat := ((s.deferred[k]?).map (·.ctx)).getD 64
  let ofQueue (k : Nat) : Nat := ((s.queues[k]?).map (·.ctx.toNat)).getD 64
  min 64 <| match i with
    | .loadComplete b _ _ _ | .storePerformed b _ _ | .matrixComplete b _ | .yieldHoldEnd b _ _ | .acmSpillDone b _ _
    | .acmRestore b _ _ | .partSaveDone b _ | .partRestoreDone b _ | .blockSwitchOut b | .blockSwitchIn b
    | .ballastRequestExpiry b _ | .shuntReservationExpiry b _ => ofBlock b
    | .engineSourceRead id _ _ | .enginePublish id | .holdSetPublish id | .commandFail id _ | .commandCancel id
    | .collHashMatch id _ | .collShardPublish id _ | .reductionSwitchLeaves id | .fabricTimeout id _ => ofCmd id
    | .collMemberFailure k _ _ _ | .collMemberLeaves k _ _ | .collectiveFlitArrival k _ _ _ _ _ | .backlogReplay k
    | .backlogTimeout _ k _ _ | .pageWalk k _ => k
    | .freeRingAppend k _ | .ringAppendRetry k => ofName k
    | .reclaimSearchComplete id _ => ((s.searches.find? fun q => q.id = id).map (·.ctx)).getD 64
    | .recordCheck k | .waitRecordPoll k => ofQueue k
    | .combAdmit l | .prio7Preempt l _ | .launchFlushDone l => ofLaunch l
    | _ => 64

/-- What an action of the agenda does. -/
def State.act (s : State) : Action → Out
  | .mgmt => s.mgmtAct
  | .entry core part set way => s.issueEntry (s.entryUnits core part set way)
  | .former core part => s.form core part
  | .event i => if i.isa.isNone then Sys2Proof.Machine.exec i (s.drawFor (s.actsFor i)) else .next s
  | .tick ns => .next (s.tick ns)
  | .hostStore a size val => .next { s with hostMem := s.hostMem.write a (min size 8) val.toNat }
  | .poison kind a => .next (s.poisonUnit kind a)
  | .corrected n => .next (s.corrected n)
  | .hostSetup base ide => .next { s with fabric := { s.fabric with hdmBase := base, ide } }
  | .matrixRead b g => .next (s.acrdRead b g)
  | .traffic l2 ctx line write =>
    let cls := s.tenantOf (ctx % 64)
    .next (if 128 * line ≥ hbmSize then s
      else s.withCaches (if l2 then s.caches.l2Access s.csr.qosMask cls (Config.l2Slice line % 192) line write
        else s.caches.mscAccess s.csr.qosMask cls (128 * line) write))
  | .hostCache prot =>
    .next (if s.fabric.hostLink && s.fabric.ide && !prot then
      { s with fabric := { s.fabric with ideDrops := s.fabric.ideDrops + 1 } } else s)
  | .hostTrain features => .next (s.hostTrain features)
  | .hostRead off size => .next (if goodStore off size && s.fabric.hostLink then s.barRead off size else s)
  | .msixSent e => .next { s with fabric := { s.fabric with msix := s.fabric.msix &&& ~~~(BitVec.ofNat 2048 (2 ^ (e % 2048))) } }
  | .peer dev answers => .next (s.peerAnswers dev answers)
  | .frameError launch core line => .next (s.frameError launch core line)
  | .parkSpill b => .next (if s.schedules then s.parkSpill b else s)
  | .checker part code => .next (s.disagree part code)

/-! ## Placing a word where the next step fetches it -/

/-- The line at an IP with the word of its slot replaced, and its line word made correct: reserved bits 0, PAR the
parity of the area (R129 to R131). -/
def placeWord (line slot w : Nat) : Nat :=
  let area := setBits (line % 2 ^ 480) (96 * slot) 96 w
  area + 2 ^ 480 * (bits line 488 480 + 2 ^ 24 * parOf area)

/-- The management core stands ready at its thread's IP. -/
def Mgmt.standing (m : Mgmt) : Mgmt :=
  let ip := (m.group.thread 0).ip
  { m with
    halted := false, inWfi := false
    group := { m.group.updThread 0 fun t => { t with status := .ready, back := false } with
      units := [⟨1, ip, some 0, m.pclk, false, none, false, false⟩] } }

/-- An instruction word placed at the management core's IP, which fetches it in the next step. -/
def State.placeFetch (s : State) (w : Nat) : State :=
  let ip := (s.mgmt.group.thread 0).ip
  let a := lineOf ip
  { s with
    agenda := [], stopped := false, mgmt := s.mgmt.standing
    mem := s.mem.write a 64 (placeWord (s.mem.read a 64) (slotOf ip) w) }

end Sys2Proof.Machine
end

