-- ==== Sys2Proof/Machine/Step.lean ====
section
/-!
DEFINITION. One step of the machine.
-/

namespace Sys2Proof.Machine

open Sys2Proof

/-- One step: the head of the agenda acts; with an empty agenda the management core does, unless a double trap or a
power-down has halted it. -/
def step (s : State) : Host.Outcome State Fault Refusal :=
  match s.agenda with
  | [] => if s.mgmt.halted || s.stopped then .fault .halted else tidyOut (s.act .mgmt)
  | a :: rest => tidyOut (({ s with agenda := rest } : State).act a)

/-- The state with an instruction of `nbits` bits `w` where the next step fetches: at the management core's IP. -/
def State.withFetchWord (s : State) (nbits w : Nat) : State := s.placeFetch (w % 2 ^ nbits)

end Sys2Proof.Machine
end

