-- ==== Sys2Proof/Safety.lean ====
section
/-!
DEFINITION. What counts as a safe run, in the terms that claims use: the memories keep their canonical form, the levels
are levels that exist, and the parts of the state that have a fixed shape keep it.
-/

namespace Sys2Proof.Machine

open Sys2Proof

/-- The memories of a part, a frame window and a command are canonical. -/
def Part.wf (p : Part) : Bool := p.scratch.wf && p.bslots.wf && p.codebook.wf && p.acm.wf
def FrameWin.wf (w : FrameWin) : Bool := w.bytes.wf
def Cmd.wf (c : Cmd) : Bool := c.data.wf
def Launch.wf (l : Launch) : Bool := l.consts.wf
def Block.wf (b : Block) : Bool := b.parts.all Part.wf

/-- Every memory of the machine is in canonical form. -/
def State.memoriesWf (s : State) : Bool :=
  s.mem.wf && s.hostMem.wf && s.peerMem.wf && s.mgmt.scratch.wf && s.fabric.msixTable.wf &&
    s.blocks.all Block.wf && s.windows.all FrameWin.wf && s.cmds.all Cmd.wf && s.launches.all Launch.wf

/-- The management core stands at supervisor or hypervisor level (R303). -/
def State.levelOk (s : State) : Bool := s.csr.pl = 1 || s.csr.pl = 2

/-! ## What an issue leaves -/

/-- The thread `u` is `t`, or `t` released from a quad instruction whose quad-mates have all come, parked at a JWAIT or
ended (R39): the end of any issue may release it. -/
def Thread.Released (t u : Thread) : Prop := u = t ∨ (t.status = .parked .quad ∧ u = { t with status := .ready })

/-- A queued matrix instruction apart from the destinations it has lost to later writers (R71). -/
def MxOp.kept (o : MxOp) : MxOp := { o with lost := [] }

/-- Of a group only its threads, its units and the lost destinations of queued matrix instructions change, and every
lane holds the thread that `want` gives it, up to a release from a quad instruction. S and J registers, arrivals, pin
registers and requests are as in `g`. -/
def Group.OnlyLanes (g h : Group) (want : Nat → Thread) : Prop :=
  h = { g with threads := h.threads, units := h.units, mxq := h.mxq } ∧
    h.threads.length = g.threads.length ∧ h.mxq.map MxOp.kept = g.mxq.map MxOp.kept ∧
    ∀ l, l < g.threads.length → Thread.Released (want l) (h.thread l)

/-- A thread with a result in its V destination, a register or a pair; a discarded result, or one that goes to an S
register, leaves the thread alone. -/
def Thread.withDst (t : Thread) (o : Opnd) (pair : Bool) (x : DWord) : Thread :=
  match o with
  | .v n =>
    if pair then (t.setReg n.toNat (x.extractLsb' 0 32)).setReg (n.toNat + 1) (x.extractLsb' 32 32)
    else t.setReg n.toNat (x.extractLsb' 0 32)
  | _ => t

/-- A thread with a result in its predicate destination; PT discards. -/
def Thread.withPred (t : Thread) (o : Opnd) (x : Bool) : Thread :=
  match o with
  | .p n => t.setPred n.val x
  | _ => t

/-- The S registers with a result in an S destination. -/
def withS (s : List Word) (o : Opnd) (pair : Bool) (x : DWord) : List Word :=
  match o with
  | .s n =>
    let s1 := setAt s n.val (x.extractLsb' 0 32)
    if pair then setAt s1 (n.val + 1) (x.extractLsb' 32 32) else s1
  | _ => s

/-- The threads after an issue in which each thread of the unit whose guard holds does `run`, and every thread of the
unit then moves on (R44, R135). -/
def Ctx.after (c : Ctx) (f : Fields) (run : Nat → Thread → Thread) (l : Nat) : Thread :=
  if l ∈ c.lanes then (if (c.rd.thread l).guard f then run l (c.g.thread l) else c.g.thread l).advance else c.g.thread l

/-- The current issuer's unit `c` stands at an instruction whose register sources are ready and sound: no active thread
reads a register that waits for a command or whose command was cancelled (R66, R67), and none is poisoned (R415). -/
structure State.Ready (s : State) (c : Ctx) (op : Nat) (f : Fields) : Prop where
  ctx : s.ctx? = some c
  pend : ∀ l ∈ c.lanes, (c.rd.thread l).guard f = true → (c.rd.thread l).pendIn (readRegs op f) = []
  sound : ∀ l ∈ c.lanes, (c.rd.thread l).guard f = true → s.poisonTrap l (readRegs op f) = []

/-- The same, and no checker stands against the result (R409). -/
structure State.Clear (s : State) (c : Ctx) (op : Nat) (f : Fields) : Prop extends s.Ready c op f where
  checker : s.checkerCode [0] = none ∧ s.checkerCode [1] = none

/-- The same for a group-wide form that names an S register (R36, R37): the unit holds a thread, the group is
whole, and the reads of its lowest non-helper lane are ready and sound where that lane's guard holds. -/
structure State.ClearGroup (s : State) (c : Ctx) (op : Nat) (f : Fields) : Prop where
  ctx : s.ctx? = some c
  checker : s.checkerCode [1] = none
  some : c.lanes ≠ []
  whole : c.whole = true
  pend : (c.rd.thread c.lowLane).guard f = true → (c.rd.thread c.lowLane).pendIn (readRegs op f) = []
  sound : (c.rd.thread c.lowLane).guard f = true → s.poisonTrap c.lowLane (readRegs op f) = []

/-- The threads after an issue that acts once for the group: where the guard of the lowest lane holds, each thread of the
unit does `run`; every thread of the unit moves on (R37). -/
def Ctx.afterGroup (c : Ctx) (f : Fields) (run : Nat → Thread → Thread) (l : Nat) : Thread :=
  if l ∈ c.lanes then (if (c.rd.thread c.lowLane).guard f then run l (c.g.thread l) else c.g.thread l).advance
  else c.g.thread l

/-- The threads after an issue in which each thread of the unit whose guard holds does `run`, which says where it goes, and
the others move on. -/
def Ctx.afterGoing (c : Ctx) (f : Fields) (run : Nat → Thread → Thread) (l : Nat) : Thread :=
  if l ∈ c.lanes then (if (c.rd.thread l).guard f then run l (c.g.thread l) else (c.g.thread l).advance) else c.g.thread l

/-! ## Forms of the memory pipe -/

/-- The lanes that act in a memory, barrier or engine form: every active lane, or in an S form the lowest non-helper lane
where its guard holds (R220). -/
def Ctx.actors (c : Ctx) (f : Fields) : List Nat :=
  if f.namesS then (if (c.rd.thread c.lowLane).guard f then [c.lowLane] else []) else c.active f

/-- The lanes that receive the value an actor's event gives: itself, or in an S form the unit (R220). -/
def Ctx.takers (c : Ctx) (f : Fields) (l : Nat) : List Nat := if f.namesS then c.lanes else [l]

/-- The current issuer's unit `c` stands at a memory, barrier or engine form whose actors' register sources are ready and
sound; an S form needs the whole group (R36). -/
structure State.CanRun (s : State) (c : Ctx) (op : Nat) (f : Fields) : Prop where
  ctx : s.ctx? = some c
  whole : f.namesS = true → c.lanes ≠ [] ∧ c.whole = true
  pend : ∀ l ∈ c.actors f, (c.rd.thread l).pendIn (readRegs op f) = []
  sound : ∀ l ∈ c.actors f, s.poisonTrap l (readRegs op f) = []

/-- The threads after a form of the memory pipe: a thread whose actor acts and is in `who` does `run` of its actor, and
every thread of the unit moves on. -/
def Ctx.afterMem (c : Ctx) (f : Fields) (who : Nat → Bool) (run : Nat → Nat → Thread → Thread) (l : Nat) : Thread :=
  if l ∈ c.lanes then
    let a := if f.namesS then c.lowLane else l
    (if (c.rd.thread a).guard f && who a then run a l (c.g.thread l) else c.g.thread l).advance
  else c.g.thread l

/-- A thread with a load of these registers outstanding (R69, R71). -/
def Thread.withLoad (t : Thread) (regs : List (Nat × Word)) : Thread :=
  { t with
    ld := t.ld ++ [⟨regs⟩]
    pend := t.pend.filter fun q => !(regs.any fun r => r.1 = q.reg || r.1 = q.reg + 1) }

/-- A place that an access reads and writes as plain memory: no control register, no device that does not answer, no saved
part (R75), not the half of a buffer that only engines write (R92). -/
def State.plain (s : State) (p : Place) (size : Nat) : Prop :=
  match p with
  | .loc _ => s.deadPlace p = none
  | .scr _ off => s.heldPlace p = false ∧ s.hiddenHalf off size = false
  | .const _ | .zero => True
  | .ctl _ _ => False

/-- Read-modify-write events of these lanes one after another: the state and the old values. -/
def State.atomEvents (s : State) (place : Nat → Place) (size : Nat) (new : Nat → DWord → Nat) :
    List Nat → State × List (Nat × DWord)
  | [] => (s, [])
  | l :: ls =>
    let old := BitVec.ofNat 64 (s.readPlace (place l) size)
    let r := (s.writePlace (place l) size (new l old)).atomEvents place size new ls
    (r.1, (l, old) :: r.2)

/-! ## Commands -/

/-- A command as its completion with a code and a number of bytes leaves it (R66, R251, R262). -/
def Cmd.ended (k : Cmd) (code bytes stamp : Nat) : Cmd :=
  { k with state := .done, code, bytes, failAt := stamp }

/-! ## Control and runs -/

/-- A target a thread may go to: well formed and within the image, in an overlay that has a frame (R133, R46). -/
def State.reaches (s : State) (ip : DWord) : Prop := s.ipOk ip = true ∧ (s.frameAt ip).isSome = true

/-- A step that answers a next state. -/
def Steps (s t : State) : Prop := step s = .next t

/-- A run: a state reached from another by steps. -/
inductive Runs : State → State → Prop where
  | refl (s : State) : Runs s s
  | tail {s t u : State} : Runs s t → Steps t u → Runs s u

end Sys2Proof.Machine
end

