-- ==== Sys2Proof/WellFormed.lean ====
section
/-!
DEFINITION. Well-formed instructions. Of the instruction set: those the checks of R138 step 2 accept in the widest window
(R136, R140, R144, R57), which are the ones that have an encoding. Of the other agents' steps: those that name parts of
the machine which exist, and carry readings of the right shape.
-/

namespace Sys2Proof

/-! ## The instruction set -/

/-- FN is assigned for the opcode (R144). -/
def fnOk (op : Nat) (f : Fields) : Bool := f.fn.toNat ≤ fnMax op

/-- Unused and reserved fields hold what the entry allows (R136). -/
def reservedOk (op : Nat) (f : Fields) : Bool := (formOf op f).unusedOk f && (formOf op f).resOk

/-- Every operand is one its position accepts, in a window of 256 registers (R140, R57). -/
def operandsOk (op : Nat) (f : Fields) : Bool := (formOf op f).operandsOk 256 f

/-- The type and rounding codes are ones the form accepts (R103, R111). -/
def typesOk (op : Nat) (f : Fields) : Bool := (formOf op f).tyOk && (formOf op f).rndOk

/-- A well-formed instruction of the instruction set: its constructor is the one its opcode and FN name. -/
def isaOk (i : Instr) (op : Nat) (f : Fields) : Bool :=
  Instr.ofKey op f = some i && fnOk op f && reservedOk op f && operandsOk op f && typesOk op f

/-! ## Steps of other agents -/

/-- The lanes, cores, partitions, sectors, columns and domains there are (R14, R17, R24). -/
def laneOk (l : Nat) : Bool := l < 32
def coreOk (c : Nat) : Bool := c < 192
def sectorOk (t : Nat) : Bool := t < 4
def columnOk (c : Nat) : Bool := c < 48

/-- A register store's address and size (R429). -/
def storeOk (a size : Nat) : Bool := (size = 1 || size = 2 || size = 4 || size = 8) && a % size = 0

/-- A step of another agent whose parameters name what exists. -/
def stepOk : Instr → Bool
  | .loadComplete _ _ l _ | .storePerformed _ _ l => laneOk l
  | .unitTakesFreedWay core part set => coreOk core && part < 16 && set < 16
  | .engineSourceRead _ _ len => 1 ≤ len && len ≤ 256
  | .collMemberFailure ctx _ _ dev | .collMemberLeaves ctx _ dev => ctx < 64 && dev < 2048
  | .collectiveFlitArrival ctx _ _ dev _ _ => ctx < 64 && dev < 2048
  | .backlogReplay ctx | .backlogTimeout _ ctx _ _ | .pageWalk ctx _ => ctx < 64
  | .hostMemAccess _ _ a size _ => [1, 2, 4, 8, 16, 32, 64].contains size && a % size = 0
  | .acmEvict core sector | .acmGrant core sector => coreOk core && sectorOk sector
  | .acmSpillDone _ part sector | .acmRestore _ part sector => part < 4 && sectorOk sector
  | .partSaveDone _ k | .partRestoreDone _ k => k < 4
  | .queueDoorbell _ k _ | .queueResume _ k | .recordCheck k | .waitRecordPoll k => k < 256
  | .prio7Preempt _ col | .imbalRelease col | .slopeLimitRamp col _ => columnOk col
  | .balanceSample cols falls power _ _ => cols.length = 48 && falls.length = 48 && power.length = 4
  | .levelChange d | .cohortLevelAdopt d => d < 4
  | .thermalPoll temps => temps.length = 240
  | .thrcfgWrite i _ => i < 50
  | .clrpois a => a % 64 = 0
  | .serdesCalibration i | .flitReceive i _ | .linkDown i | .linkRekey i => i < 18
  | .linkUp i _ lanes _ => i < 18 && 1 ≤ lanes && lanes ≤ 8
  | .diodeCalibration i => i < 240
  | .agingMonitor margins core => margins.length = 192 && coreOk core
  | .sledNumberReport n slot => n < 512 && slot < 4
  | .registerWrite _ a size _ => storeOk a size
  | _ => true

/-- A well-formed instruction. -/
def wellFormed (i : Instr) : Bool :=
  match i.isa with
  | some (op, f) => isaOk i op f
  | none => stepOk i

end Sys2Proof
end

