-- ==== Sys2Proof/Certificates/Slice0/Obligations.lean ====
section
/-!
DEFINITION. The statements about the model: what the numbered rules of spec/ say an instruction, a step of another agent
or the machine does. A statement about an instruction gives its next state; what it names as unchanged is its frame.
-/


namespace Sys2Proof.Machine

open Sys2Proof

/-! ## Results of the arithmetic, convert and move instructions -/

/-- An instruction with one result: its opcode, its fields, whether the result is 64 bits wide, and the result of a lane,
from the group as its operands are read. -/
structure Result where
  op    : Nat
  f     : Fields
  pair  : Bool
  value : State → Group → Nat → DWord

/-- An integer result: an exact integer of the operands' values, wrapped to the type, or clamped with .SAT (R161). -/
def intOf (op : Nat) (f : Fields) (x : Int → Int → Int → Int) : Result :=
  ⟨op, f, f.ty.pair, fun s g l =>
    let v := x (intVal f.ty (s.operand g l f f.ty.pair f.a)) (intVal f.ty (s.operand g l f f.ty.pair f.b))
      (intVal f.ty (s.operand g l f f.ty.pair f.c))
    extend f.ty (wrap (if f.rnd = 1 then clamp v f.ty else v) f.ty.width)⟩

/-- A result computed from the bits of the operands as naturals: A and C at the type's width, B as 32 bits. -/
def bitsOf (op : Nat) (f : Fields) (pair : Bool) (x : Nat → Nat → Nat → Nat) : Result :=
  ⟨op, f, pair, fun s g l =>
    BitVec.ofNat 64 (x (s.operand g l f f.ty.pair f.a).toNat (s.operand g l f false f.b).toNat
      (s.operand g l f f.ty.pair f.c).toNat)⟩

/-- The integer instructions with one register result (R161, R163 to R169). -/
def integerResult (i : Instr) : Option Result :=
  match i with
  | .iadd f => some (intOf 0x00 f fun a b _ => a + b)
  | .isub f => some (intOf 0x02 f fun a b _ => a - b)
  | .imul f => some (intOf 0x03 f fun a b _ => a * b)
  | .imad f => some (intOf 0x05 f fun a b c => a * b + c)
  | .imin f => some (intOf 0x06 f fun a b _ => min a b)
  | .imax f => some (intOf 0x07 f fun a b _ => max a b)
  | .iabs f => some (intOf 0x08 f fun a _ _ => (a.natAbs : Int))
  | .imulh f => some ⟨0x04, f, f.ty.pair, fun s g l =>
      BitVec.ofNat 64 (wrap (intVal f.ty (s.operand g l f f.ty.pair f.a) * intVal f.ty (s.operand g l f f.ty.pair f.b)
        / 2 ^ f.ty.width) f.ty.width)⟩
  | .logic f => some ⟨0x09, f, f.ty.pair, fun s g l =>
      BitVec.ofNat 64 (logic3 (f.immBits 7 0) (s.operand g l f f.ty.pair f.a).toNat (s.operand g l f f.ty.pair f.b).toNat
        (s.operand g l f f.ty.pair f.c).toNat f.ty.width)⟩
  | .shl f => some ⟨0x0A, f, f.ty.pair, fun s g l =>
      BitVec.ofNat 64 (shl f.ty.width (intVal f.ty (s.operand g l f f.ty.pair f.a)) (s.operand g l f false f.b).toNat)⟩
  | .shr f => some ⟨0x0B, f, f.ty.pair, fun s g l =>
      BitVec.ofNat 64 (shr f.ty.width (intVal f.ty (s.operand g l f f.ty.pair f.a)) (s.operand g l f false f.b).toNat)⟩
  | .rot f => some (bitsOf 0x0C f f.ty.pair fun a b _ =>
      rotl f.ty.width a (if f.fn = 1 then (f.ty.width - b % f.ty.width) % f.ty.width else b % f.ty.width))
  | .bfx f => some (bitsOf 0x0D f f.ty.pair fun a b _ => bfx f.ty a b)
  | .bfi f => some (bitsOf 0x0E f f.ty.pair fun a b c => bfi f.ty.width a b c)
  | .popc f => some (bitsOf 0x0F f false fun a _ _ => popcount f.ty.width a)
  | .clz f => some (bitsOf 0x10 f false fun a _ _ => leadingZeros f.ty.width a)
  | .brev f => some (bitsOf 0x11 f f.ty.pair fun a _ _ => reverseBits f.ty.width a)
  | .idot4 f => some ⟨0x13, f, false, fun s g l =>
      let acc : Ty := if f.ty = .i8 then .i32 else .n32
      let x := idot4 f.ty (s.operand g l f false f.a).toNat (s.operand g l f false f.b).toNat
        (intVal acc (s.operand g l f false f.c))
      extend acc (wrap (if f.rnd = 1 then clamp x acc else x) 32)⟩
  | _ => none

/-- A code rounded once from an exact value, subnormal results flushed with .FTZ (R111, R114). -/
def roundedTo (f : Fields) (x : FVal) : Nat :=
  flush (fmtOf f.ty) f.flag (roundVal (fmtOf f.ty) f.rnd.toNat false 0 x)

/-- A floating-point result: an exact value of the operands' values, rounded once (R172). -/
def floatOf (op : Nat) (f : Fields) (x : FVal → FVal → FVal → FVal) : Result :=
  ⟨op, f, false, fun s g l =>
    let v (o : Opnd) := fval f.ty f.flag (s.operand g l f false o)
    BitVec.ofNat 64 (roundedTo f (x (v f.a) (v f.b) (v f.c)))⟩

/-- A packed result: the exact values of elements 0 and 1, each rounded once (R173). -/
def packedOf (op : Nat) (f : Fields) (x : FVal → FVal → FVal → FVal) : Result :=
  ⟨op, f, false, fun s g l =>
    let v (o : Opnd) (e : Nat) := fval f.ty f.flag (BitVec.ofNat 64 ((s.operand g l f false o).toNat / 2 ^ (16 * e) % 2 ^ 16))
    let r (e : Nat) := roundedTo f (x (v f.a e) (v f.b e) (v f.c e))
    BitVec.ofNat 64 (r 0 + r 1 * 2 ^ f.ty.width)⟩

/-- A result computed from the codes of A and B, subnormals flushed with .FTZ. -/
def codeOf (op : Nat) (f : Fields) (x : Nat → Nat → Nat) : Result :=
  ⟨op, f, false, fun s g l =>
    let v (o : Opnd) := flush (fmtOf f.ty) f.flag ((s.operand g l f false o).toNat % 2 ^ f.ty.width)
    BitVec.ofNat 64 (x (v f.a) (v f.b))⟩

/-- An approximate function of R126: the exact function rounded once under RN. -/
def approxOf (op : Nat) (f : Fields) (x : FVal → XVal) : Result :=
  ⟨op, f, false, fun s g l =>
    BitVec.ofNat 64 (flush (fmtOf .f32) f.flag
      (roundX (fmtOf .f32) 0 0 (x (fval f.ty f.flag (s.operand g l f false f.a)))))⟩

/-- The floating-point instructions with one register result (R172 to R178), in every rounding mode but SR. -/
def floatResult (i : Instr) : Option Result :=
  match i with
  | .fadd f => some (floatOf 0x20 f fun a b _ => a.add f.rnd.toNat b)
  | .fmul f => some (floatOf 0x21 f fun a b _ => a.mul b)
  | .ffma f => some (floatOf 0x22 f fun a b c => (a.mul b).add f.rnd.toNat c)
  | .fmin f => some (codeOf 0x23 f fun a b => floatMinMax (fmtOf f.ty) false a b)
  | .fmax f => some (codeOf 0x24 f fun a b => floatMinMax (fmtOf f.ty) true a b)
  | .fclass f => some ⟨0x26, f, false, fun s g l =>
      BitVec.ofNat 64 (2 ^ classOf (fmtOf f.ty) ((s.operand g l f false f.a).toNat % 2 ^ f.ty.width))⟩
  | .frcp f => some (approxOf 0x27 f rcpX)
  | .frsq f => some (approxOf 0x28 f rsqX)
  | .fsqrt f => some ⟨0x29, f, false, fun s g l =>
      BitVec.ofNat 64 (flush (fmtOf f.ty) f.flag
        (roundX (fmtOf f.ty) f.rnd.toNat 0 (sqrtX (fval f.ty f.flag (s.operand g l f false f.a)))))⟩
  | .fexp2 f => some (approxOf 0x2A f exp2X)
  | .flog2 f => some (approxOf 0x2B f log2X)
  | .sinr f => some (approxOf 0x2C f sinX)
  | .cosr f => some (approxOf 0x2D f cosX)
  | .fscale f => some ⟨0x2E, f, false, fun s g l =>
      BitVec.ofNat 64 (roundedTo f ((fval f.ty f.flag (s.operand g l f false f.a)).scale
        (intVal .i32 (s.operand g l f false f.b))))⟩
  | .ffrac f => some ⟨0x2F, f, false, fun s g l =>
      BitVec.ofNat 64 (flush (fmtOf f.ty) f.flag
        (roundVal (fmtOf f.ty) 0 false 0 (fval f.ty f.flag (s.operand g l f false f.a)).frac))⟩
  | .pkfma f => some (packedOf 0x30 f fun a b c => (a.mul b).add f.rnd.toNat c)
  | .pkadd f => some (packedOf 0x31 f fun a b _ => a.add f.rnd.toNat b)
  | .pkmul f => some (packedOf 0x32 f fun a b _ => a.mul b)
  | _ => none

/-- MOVIH.N64 names the odd register of the pair it sets (R181). -/
def oddOf : Opnd → Opnd
  | .v n => .v (n + 1)
  | .s n => .s (n + 1)
  | o => o

/-- The convert and move instructions with one register result (R180 to R186, R188), in every rounding mode but SR. A
64-bit MOV between V pairs copies a handle too and is stated by itself. -/
def moveResult (i : Instr) : Option Result :=
  match i with
  | .mov f => some ⟨0x40, f, f.ty.pair, fun s g l => s.operand g l f f.ty.pair f.a⟩
  | .movi f => some ⟨0x41, f, f.ty.pair, fun _ _ _ => immValue f f.ty.pair⟩
  | .movih f =>
    some (if f.ty.pair then ⟨0x42, { f with d := oddOf f.d }, false, fun _ _ _ => f.imm.zeroExtend 64⟩
      else ⟨0x42, f, false, fun s g l =>
        BitVec.ofNat 64 ((s.operand g l f false f.d).toNat % 2 ^ 16 + f.immBits 15 0 * 2 ^ 16)⟩)
  | .sel f => some ⟨0x43, f, f.ty.pair, fun s g l =>
      if (g.thread l).predOf f.c then s.operand g l f f.ty.pair f.a else s.operand g l f f.ty.pair f.b⟩
  | .bysel f => some ⟨0x44, f, false, fun s g l =>
      BitVec.ofNat 64 (bysel (s.operand g l f false f.a).toNat (s.operand g l f false f.b).toNat (f.immBits 19 0))⟩
  | .cvt f =>
    let st := Ty.ofCode (BitVec.ofNat 4 (f.immBits 3 0))
    some ⟨0x45, f, f.ty.pair, fun s g l => convert f.ty st f.rnd.toNat f.flag 0 (s.operand g l f st.pair f.a)⟩
  | .pack f => some ⟨0x46, f, false, fun s g l =>
      let r (o : Opnd) := roundVal (fmtOf f.ty) f.rnd.toNat f.flag 0 (fval .f32 false (s.operand g l f false o))
      BitVec.ofNat 64 (packReg f.ty (r f.a) (r f.b) (s.operand g l f false f.c).toNat)⟩
  | .unpk f => some ⟨0x47, f, false, fun s g l =>
      let e := (s.operand g l f false f.b).toNat % (32 / f.ty.width)
      unpackElem f.ty ((s.operand g l f false f.a).toNat / 2 ^ (f.ty.width * e) % 2 ^ f.ty.width)⟩
  | .rdsp f => some ⟨0x4A, f, f.ty.pair, fun s g l =>
      if f.ty.pair then BitVec.ofNat 64 (s.stackPage s.cur l) else BitVec.ofNat 64 (g.thread l).depth⟩
  | _ => none

/-- A 64-bit MOV between V pairs. -/
def movesPair (i : Instr) : Bool :=
  match i with
  | .mov f => f.ty.pair && (match f.a, f.d with | .v _, .v _ => true | _, _ => false)
  | _ => false

/-- The instruction completes in its V form: each thread of the unit whose guard holds gets the result of its own lane in
D, every thread of the unit moves on, and nothing else of the machine changes. -/
def CompletesInLanes (i : Instr) (r : Result) : Prop :=
  ∀ (s : State) (c : Ctx), s.Clear c r.op r.f → r.f.namesS = false →
    ∃ h, exec i s = .next (s.setGroup s.cur h) ∧
      c.g.OnlyLanes h (c.after r.f fun l t => t.withDst r.f.d r.pair (r.value s c.rd l))

/-- The instruction completes in its S form: where the guard of the lowest lane holds, the result of that lane goes to D,
once to an S register, or to the V register of every thread of the unit; every thread of the unit moves on, and nothing
else of the machine changes (R37, R158). -/
def CompletesForGroup (i : Instr) (r : Result) : Prop :=
  ∀ (s : State) (c : Ctx), s.ClearGroup c r.op r.f → r.f.namesS = true →
    ∃ h, exec i s = .next (s.setGroup s.cur h) ∧
      ({ c.g with
          s := if (c.rd.thread c.lowLane).guard r.f then withS c.g.s r.f.d r.pair (r.value s c.rd c.lowLane) else c.g.s }
        : Group).OnlyLanes h (c.afterGroup r.f fun _ t => t.withDst r.f.d r.pair (r.value s c.rd c.lowLane))

/-- A form that rounds under SR (R113): its opcode, its fields, whether the result is 64 bits wide, and, from a lane's
stream, its result and the stream after its draws. -/
structure SrResult where
  op    : Nat
  f     : Fields
  pair  : Bool
  value : State → Group → Nat → Word → DWord × Word

/-- One draw, one rounding. -/
def srOne (op : Nat) (f : Fields) (x : State → Group → Nat → FVal) : SrResult :=
  ⟨op, f, false, fun s g l z =>
    (BitVec.ofNat 64 (flush (fmtOf f.ty) f.flag (roundVal (fmtOf f.ty) 5 false (srStep z).toNat (x s g l))), srStep z)⟩

/-- Two draws, for element 0 and then for element 1. -/
def srTwo (op : Nat) (f : Fields) (x : FVal → FVal → FVal → FVal) : SrResult :=
  ⟨op, f, false, fun s g l z =>
    let v (o : Opnd) (e : Nat) := fval f.ty f.flag (BitVec.ofNat 64 ((s.operand g l f false o).toNat / 2 ^ (16 * e) % 2 ^ 16))
    let r (e : Nat) (z : Word) :=
      flush (fmtOf f.ty) f.flag (roundVal (fmtOf f.ty) 5 false z.toNat (x (v f.a e) (v f.b e) (v f.c e)))
    (BitVec.ofNat 64 (r 0 (srStep z) + r 1 (srStep (srStep z)) * 2 ^ f.ty.width), srStep (srStep z))⟩

/-- The instructions that may round under SR, in their .SR forms (R113). -/
def stochasticResult (i : Instr) : Option SrResult :=
  match i with
  | .fadd f => some (srOne 0x20 f fun s g l =>
      (fval f.ty f.flag (s.operand g l f false f.a)).add 5 (fval f.ty f.flag (s.operand g l f false f.b)))
  | .fmul f => some (srOne 0x21 f fun s g l =>
      (fval f.ty f.flag (s.operand g l f false f.a)).mul (fval f.ty f.flag (s.operand g l f false f.b)))
  | .ffma f => some (srOne 0x22 f fun s g l =>
      ((fval f.ty f.flag (s.operand g l f false f.a)).mul (fval f.ty f.flag (s.operand g l f false f.b))).add 5
        (fval f.ty f.flag (s.operand g l f false f.c)))
  | .fscale f => some (srOne 0x2E f fun s g l =>
      (fval f.ty f.flag (s.operand g l f false f.a)).scale (intVal .i32 (s.operand g l f false f.b)))
  | .pkfma f => some (srTwo 0x30 f fun a b c => (a.mul b).add 5 c)
  | .pkadd f => some (srTwo 0x31 f fun a b _ => a.add 5 b)
  | .pkmul f => some (srTwo 0x32 f fun a b _ => a.mul b)
  | .fsqrt f => some ⟨0x29, f, false, fun s g l z =>
      (BitVec.ofNat 64 (flush (fmtOf f.ty) f.flag
        (roundX (fmtOf f.ty) 5 (srStep z).toNat (sqrtX (fval f.ty f.flag (s.operand g l f false f.a))))), srStep z)⟩
  | .cvt f =>
    let st := Ty.ofCode (BitVec.ofNat 4 (f.immBits 3 0))
    some ⟨0x45, f, f.ty.pair, fun s g l z =>
      (convert f.ty st 5 f.flag (srStep z).toNat (s.operand g l f st.pair f.a), srStep z)⟩
  | .pack f => some ⟨0x46, f, false, fun s g l z =>
      let r (z : Word) (o : Opnd) := roundVal (fmtOf f.ty) 5 f.flag z.toNat (fval .f32 false (s.operand g l f false o))
      (BitVec.ofNat 64 (packReg f.ty (r (srStep z) f.a) (r (srStep (srStep z)) f.b) (s.operand g l f false f.c).toNat),
        srStep (srStep z))⟩
  | _ => none

/-- A compare (R170, R175) or a predicate function (R217): opcode, fields and the predicate of a lane. -/
structure PredResult where
  op    : Nat
  f     : Fields
  value : State → Group → Nat → Bool

def predResult (i : Instr) : Option PredResult :=
  match i with
  | .icmp f => some ⟨0x12, f, fun s g l =>
      intCompare f.fn.toNat (intVal f.ty (s.operand g l f f.ty.pair f.a)) (intVal f.ty (s.operand g l f f.ty.pair f.b))⟩
  | .fcmp f => some ⟨0x25, f, fun s g l =>
      floatCompare f.fn.toNat (fval f.ty f.flag (s.operand g l f false f.a)) (fval f.ty f.flag (s.operand g l f false f.b))⟩
  | _ => none

end Sys2Proof.Machine

section

open Sys2Proof Sys2Proof.Machine

/-- R161, R163 to R169, with R135 and R158: IADD, ISUB, IMUL, IMAD, IMULH, IMIN, IMAX, IABS, LOGIC, SHL, SHR, ROT, BFX, BFI,
POPC, CLZ, BREV and IDOT4 complete in every active thread, and change only their destination. -/
def Obligations.IntegerResultsInLanes : Prop :=
  ∀ (i : Instr) (r : Result), integerResult i = some r → CompletesInLanes i r

/-- R172 to R178, with R135 and R158: FADD, FMUL, FFMA, FMIN, FMAX, FCLASS, FRCP, FRSQ, FSQRT, FEXP2, FLOG2, SINR, COSR, FSCALE,
FFRAC, PKFMA, PKADD and PKMUL complete in every active thread in every rounding mode but SR. The 192-bit approximations
behind the functions of R126 are notes/assumptions/12.md. -/
def Obligations.FloatResultsInLanes : Prop :=
  ∀ (i : Instr) (r : Result), floatResult i = some r → r.f.rnd ≠ 5 → CompletesInLanes i r

/-- R180 to R186 and R188: MOV, MOVI, MOVIH, SEL, BYSEL, CVT, PACK, UNPK and RDSP complete in every active thread in every
rounding mode but SR. -/
def Obligations.MoveResultsInLanes : Prop :=
  ∀ (i : Instr) (r : Result), moveResult i = some r → r.f.rnd ≠ 5 → movesPair i = false → CompletesInLanes i r

/-- R36, R37, R158: the same instructions in the forms that name an S register act once for the group. -/
def Obligations.ScalarFormsOnceForGroup : Prop :=
  ∀ (i : Instr) (r : Result), integerResult i = some r ∨ floatResult i = some r ∨ moveResult i = some r → r.f.rnd ≠ 5 →
    movesPair i = false → CompletesForGroup i r

/-- R113: FADD, FMUL, FFMA, FSCALE, PKFMA, PKADD, PKMUL, FSQRT, CVT and PACK under SR step the thread's own stream once for
each rounding, before it, and round with the draw; the stream keeps the last state. -/
def Obligations.StochasticRoundingDrawsFromTheThread : Prop :=
  ∀ (i : Instr) (r : SrResult) (s : State) (c : Ctx), stochasticResult i = some r → r.f.rnd = 5 → s.Clear c r.op r.f →
    r.f.namesS = false →
    ∃ h, exec i s = .next (s.setGroup s.cur h) ∧ c.g.OnlyLanes h (c.after r.f fun l t =>
      let x := r.value s c.rd l t.z
      ({ t with z := x.2 } : Thread).withDst r.f.d r.pair x.1)

/-- R170, R175, R158: ICMP and FCMP complete and write their predicate, in each active thread, or in the S form from the
lowest lane into every thread of the unit. -/
def Obligations.ComparesWritePredicates : Prop :=
  ∀ (i : Instr) (r : PredResult), predResult i = some r →
    (∀ (s : State) (c : Ctx), s.Clear c r.op r.f → r.f.namesS = false →
      ∃ h, exec i s = .next (s.setGroup s.cur h) ∧
        c.g.OnlyLanes h (c.after r.f fun l t => t.withPred r.f.d (r.value s c.rd l))) ∧
    (∀ (s : State) (c : Ctx), s.ClearGroup c r.op r.f → r.f.namesS = true →
      ∃ h, exec i s = .next (s.setGroup s.cur h) ∧
        c.g.OnlyLanes h (c.afterGroup r.f fun _ t => t.withPred r.f.d (r.value s c.rd c.lowLane)))

/-- R162: IADDC writes `wrap(A + B + carry, w)` to D and the carry out to the predicate it read, PT read as 1 and never
written. In the S form the predicate is written in every thread of the unit (R158). -/
def Obligations.AddWithCarryWritesTheCarryBack : Prop :=
  ∀ (f : Fields) (s : State) (c : Ctx),
    let sum (l : Nat) : Nat := (s.operand c.rd l f f.ty.pair f.a).toNat + (s.operand c.rd l f f.ty.pair f.b).toNat
      + (if (c.rd.thread l).predOf f.c then 1 else 0)
    let low (l : Nat) : DWord := BitVec.ofNat 64 (sum l % 2 ^ f.ty.width)
    let carry (l : Nat) : Bool := decide (2 ^ f.ty.width ≤ sum l)
    (s.Clear c 0x01 f → f.namesS = false →
      ∃ h, exec (.iaddc f) s = .next (s.setGroup s.cur h) ∧
        c.g.OnlyLanes h (c.after f fun l t => (t.withDst f.d f.ty.pair (low l)).withPred f.c (carry l))) ∧
    (s.ClearGroup c 0x01 f → f.namesS = true →
      ∃ h, exec (.iaddc f) s = .next (s.setGroup s.cur h) ∧
        ({ c.g with
            s := if (c.rd.thread c.lowLane).guard f then withS c.g.s f.d f.ty.pair (low c.lowLane) else c.g.s }
          : Group).OnlyLanes h (c.afterGroup f fun _ t =>
            (t.withDst f.d f.ty.pair (low c.lowLane)).withPred f.c (carry c.lowLane)))

/-- R66, R180: a 64-bit MOV between V pairs copies A to D in each active thread without waiting for a pending pair: the
value, and where A is pending on a command that has not been cancelled, D is pending on it too. A pair that only overlaps A
must not be pending, or the thread waits. -/
def Obligations.MoveCopiesAPendingHandle : Prop :=
  ∀ (f : Fields) (a d : BitVec 8) (s : State) (c : Ctx), f.ty.pair = true → f.a = .v a → f.d = .v d → f.namesS = false →
    let handle (t : Thread) : Option PendPair := t.pend.find? fun q => q.reg = a.toNat && !q.cancelled
    let regs (l : Nat) : List Nat := if (handle (c.rd.thread l)).isSome then [] else [a.toNat, a.toNat + 1]
    s.ctx? = some c → s.checkerCode [0] = none →
    (∀ l ∈ c.lanes, (c.rd.thread l).guard f = true →
      (c.rd.thread l).pendIn (regs l) = [] ∧ s.poisonTrap l [a.toNat, a.toNat + 1] = []) →
    ∃ h, exec (.mov f) s = .next (s.setGroup s.cur h) ∧ c.g.OnlyLanes h (c.after f fun l t =>
      let u := t.withDst f.d true (pairOf (c.rd.thread l).v a.toNat)
      match handle (c.rd.thread l) with
      | some q => { u with pend := ⟨d.toNat, q.cmd, false⟩ :: u.pend }
      | none => u)

/-- R217, R218: PLOG writes `I[4 × Pa + 2 × Pb + Pc]` to Pd; PMOV.GET writes P0 to P6 as bits 0 to 6 of D; PMOV.SET sets
Pi := A[i] for every i with I[i] = 1. Each in every active thread. -/
def Obligations.PredicateFunctionsAndMoves : Prop :=
  ∀ (f : Fields) (s : State) (c : Ctx), f.namesS = false →
    (s.Clear c 0x57 f →
      ∃ h, exec (.plog f) s = .next (s.setGroup s.cur h) ∧ c.g.OnlyLanes h (c.after f fun l t =>
        let p (o : Opnd) : Nat := if (c.rd.thread l).predOf o then 1 else 0
        t.withPred f.d (f.imm.getLsbD (4 * p f.a + 2 * p f.b + p f.c)))) ∧
    (s.Clear c 0x58 f →
      (∃ h, exec (.pmovGet f) s = .next (s.setGroup s.cur h) ∧
        c.g.OnlyLanes h (c.after f fun l t => t.withDst f.d false ((c.rd.thread l).p.zeroExtend 64))) ∧
      ∃ h, exec (.pmovSet f) s = .next (s.setGroup s.cur h) ∧
        c.g.OnlyLanes h (c.after f fun l t =>
          t.setPreds (s.operand c.rd l f false f.a).toNat (f.immBits 6 0)))

end

namespace Sys2Proof.Machine

open Sys2Proof

/-- Byte `k` of a thread's register window (R59). -/
def Thread.windowByte (t : Thread) (k : Nat) : Byte := (t.reg (k / 4)).extractLsb' (8 * (k % 4)) 8

/-- `n` bytes of the window from `o` on, little-endian. -/
def Thread.windowNat (t : Thread) (o : Nat) : Nat → Nat
  | 0 => 0
  | n + 1 => (t.windowByte o).toNat + 256 * t.windowNat (o + 1) n

/-- The window access of every active thread is aligned and within the window (R187), and reads nothing that waits, is
cancelled or poisoned. -/
structure State.ClearWindow (s : State) (c : Ctx) (op : Nat) (f : Fields) (reads : Bool) : Prop where
  ctx : s.ctx? = some c
  noS : f.namesS = false
  checker : s.checkerCode [0] = none
  aligned : ∀ l ∈ c.lanes, (c.rd.thread l).guard f = true → s.windowOffset c.rd l f % (f.ty.width / 8) = 0
  inside : ∀ l ∈ c.lanes, (c.rd.thread l).guard f = true → s.windowOffset c.rd l f + f.ty.width / 8 ≤ 4 * s.window
  same : s.redundant = false
  ready : ∀ l ∈ c.lanes, (c.rd.thread l).guard f = true →
    let o := s.windowOffset c.rd l f
    let regs := readRegs op f ++ if reads then coveredRegs o (f.ty.width / 8) else []
    (c.rd.thread l).pendIn regs = [] ∧ s.poisonTrap l regs = []

end Sys2Proof.Machine

section

open Sys2Proof Sys2Proof.Machine

/-- R187: VLDX reads the bytes of the thread's own window at A + I and writes them to D under R157; VSTX writes the low
bytes of B there, whole registers, or one byte or half of a register whose other bytes keep the register's contents or
take the value of a load still outstanding to it, which of the two is not defined. The types are those of the forms.
(A redundant launch compares the offsets of the two halves first: stated by itself.) -/
def Obligations.WindowLoadsAndStores : Prop :=
  ∀ (f : Fields) (s : State) (c : Ctx), [Ty.i8, .n8, .i16, .n16, .i32, .n32, .f32, .i64, .n64].contains f.ty = true →
    (s.ClearWindow c 0x48 f true →
      ∃ h, exec (.vldx f) s = .next (s.setGroup s.cur h) ∧ c.g.OnlyLanes h (c.after f fun l t =>
        t.withDst f.d f.ty.pair (extend f.ty ((c.rd.thread l).windowNat (s.windowOffset c.rd l f) (f.ty.width / 8))))) ∧
    (s.ClearWindow c 0x49 f false →
      ∃ (h : Group) (base : Nat → Word),
        exec (.vstx f) s = .next { s.setGroup s.cur h with fresh := s.fresh + 1 } ∧
        (∀ l, l < c.g.threads.length →
          let r := s.windowOffset c.rd l f / 4
          base l = (c.g.thread l).reg r ∨ ∃ o ∈ (c.g.thread l).ld, (r, base l) ∈ o.regs) ∧
        c.g.OnlyLanes h (c.after f fun l t =>
          let o := s.windowOffset c.rd l f
          let x := s.operand c.rd l f f.ty.pair f.b
          if f.ty.width = 64 then
            (t.setReg (o / 4) (x.extractLsb' 0 32)).setReg (o / 4 + 1) (x.extractLsb' 32 32)
          else if f.ty.width = 32 then t.setReg (o / 4) (x.extractLsb' 0 32)
          else t.setReg (o / 4) (BitVec.ofNat 32 (setBits (base l).toNat (8 * (o % 4)) f.ty.width x.toNat))))

end

namespace Sys2Proof.Machine

open Sys2Proof

/-- A cross-lane instruction finds A ready and sound in every lane, and B in every active lane of the unit (R210). -/
def State.ClearLanes (s : State) (c : Ctx) (op : Nat) (f : Fields) : Prop :=
  (∀ l, l < 32 → (c.rd.thread l).pendIn (supplyRegs op f) = [] ∧ s.poisonTrap l (supplyRegs op f) = []) ∧
    ∀ l, l < 32 → (c.rd.thread l).guard f = true →
      (c.rd.thread l).pendIn (selectRegs op f) = [] ∧ s.poisonTrap l (selectRegs op f) = []

end Sys2Proof.Machine

section

open Sys2Proof Sys2Proof.Machine

/-- R39, R211: at QSWP and QBC the lanes whose quad is complete, with the mates that parked there before them, write the
value of A of the lane they name, and move on; the lanes of an incomplete quad park with their quad. A lane supplies its A
whatever its guard. Every register read is ready and sound. -/
def Obligations.QuadExchange : Prop :=
  ∀ (i : Instr) (op : Nat) (f : Fields) (src : State → Ctx → Nat → Nat) (s : State) (c : Ctx),
    (i = .qswp f ∧ op = 0x50 ∧ src = fun _ _ l => l / 4 * 4 + ((l % 4) ^^^ (f.fn.toNat + 1))) ∨
      (i = .qbc f ∧ op = 0x51 ∧ src = fun s c l => l / 4 * 4 + (s.operand c.rd l f false f.b).toNat % 4) →
    s.ctx? = some c → f.namesS = false → (∀ l ∈ c.lanes, (c.g.thread l).status = .ready) →
    s.ClearLanes c op f →
    let waitsHere (m : Nat) : Bool := (c.g.thread m).status = .parked .quad && (c.g.thread m).ip = c.u.ip
    let complete (l : Nat) : Bool := (quadMates l).all fun m =>
      c.lanes.contains m || waitsHere m || (c.g.thread m).quadExempt
    let value (l : Nat) : DWord :=
      if (c.rd.thread (src s c l)).status = .empty then 0 else s.operand c.rd (src s c l) f f.ty.pair f.a
    let acts (l : Nat) (t : Thread) : Thread :=
      (if (c.rd.thread l).guard f then t.withDst f.d f.ty.pair (value l) else t).advance
    ∃ h, exec i s = .next (s.setGroup s.cur h) ∧ c.g.OnlyLanes h fun l =>
      if l ∈ c.lanes then
        (if complete l then acts l (c.g.thread l) else { c.g.thread l with status := .parked .quad })
      else if l < 32 && waitsHere l && c.lanes.any (fun m => m / 4 = l / 4 && complete m) then
        acts l { c.g.thread l with status := .ready }
      else c.g.thread l

end

namespace Sys2Proof.Machine

open Sys2Proof

/-- What a group-wide lane instruction writes in a lane: a value of some width, or a predicate (R212 to R216). -/
def laneEffect (i : Instr) (s : State) (c : Ctx) : Option (Nat × Fields × (Nat → Thread → Thread)) :=
  -- the contributors of the lane's half: the whole group but in a redundant launch (R412)
  let peers (f : Fields) (l : Nat) : List Nat := c.lanes.filter fun m =>
    (c.rd.thread m).guard f && !(c.rd.thread m).helper && m / s.halfWidth = l / s.halfWidth
  let a (f : Fields) (m : Nat) : DWord :=
    if (c.rd.thread m).status = .empty then 0 else s.operand c.rd m f f.ty.pair f.a
  let leaf (f : Fields) (l i : Nat) : Option DWord :=
    let m := l / s.halfWidth * s.halfWidth + i
    if i < s.halfWidth && (peers f l).contains m then some (a f m) else none
  match i with
  | .gshf f => some (0x52, f, fun l t =>
      t.withDst f.d f.ty.pair
        (a f ((shuffleLane f.fn.toNat s.halfWidth l (s.operand c.rd l f false f.b).toNat).getD l)))
  | .gvote f => some (0x53, f, fun l t =>
      let holds (m : Nat) : Bool := (c.rd.thread m).predOf f.a
      if f.fn = 0 then t.withPred f.d ((peers f l).all holds)
      else if f.fn = 1 then t.withPred f.d ((peers f l).any holds)
      else t.withDst f.d false
        ((maskOf (((peers f l).filter holds).map (· % s.halfWidth))).zeroExtend 64))
  | .gred f => some (0x54, f, fun l t =>
      t.withDst f.d f.ty.pair ((treeReduce (combine f.fn.toNat f.ty) ((List.range 32).map (leaf f l))).getD
        (identityOf f.fn.toNat f.ty)))
  | .gscan f => some (0x55, f, fun l t =>
      t.withDst f.d f.ty.pair
        ((scanUpTo (combine f.fn.toNat f.ty) ((List.range 32).map (leaf f l)) (l % s.halfWidth)).getD
          (identityOf f.fn.toNat f.ty)))
  | .gmatch f => some (0x56, f, fun l t =>
      t.withDst f.d false
        ((maskOf (((peers f l).filter fun m => a f m = a f l).map (· % s.halfWidth))).zeroExtend 64))
  | _ => none

end Sys2Proof.Machine

section

open Sys2Proof Sys2Proof.Machine

/-- R36, R37, R210, R212 to R216, R306: GSHF, GVOTE, GRED, GSCAN and GMATCH complete where the group is whole, and write
every active lane from the values of the contributors of the group, or of its half in a redundant launch. Where it is not
whole, no read is pending and some lane of the unit is no helper, they take DIVERGED in the lowest lane present, with the
lanes present as DETAIL, whatever the guards. -/
def Obligations.GroupWideLaneInstructions : Prop :=
  ∀ (i : Instr) (s : State) (c : Ctx) (op : Nat) (f : Fields) (run : Nat → Thread → Thread),
    laneEffect i s c = some (op, f, run) → s.ctx? = some c → s.ClearLanes c op f →
    (c.whole = true → f.namesS = false → ∃ h, exec i s = .next (s.setGroup s.cur h) ∧ c.g.OnlyLanes h (c.after f run)) ∧
    (c.whole = false → (∃ l ∈ c.lanes, (c.g.thread l).helper = false) → exec i s = .next (s.takeTrap (mkTrap .diverged 0 (c.lanes.headD 0) c.u.lanes.toNat)))

end

namespace Sys2Proof.Machine

open Sys2Proof

/-! ## Control -/

/-- A transfer of control without a pop: its opcode and fields, the target of a lane, and whether it pushes the return IP
first (R193, R195, R196). -/
structure Transfer where
  op     : Nat
  f      : Fields
  target : Nat → DWord
  call   : Bool

def transferOf (i : Instr) (s : State) (c : Ctx) : Option Transfer :=
  match i with
  | .bra f => some ⟨0x60, f, fun _ => directTarget c.u.ip f, false⟩
  | .brx f => some ⟨0x61, f, fun l => s.imageBase + s.operand c.rd l f false f.a, false⟩
  | .call f => some ⟨0x62, f, fun _ => directTarget c.u.ip f, true⟩
  | .callx f => some ⟨0x63, f, fun l => s.imageBase + s.operand c.rd l f false f.a, true⟩
  | _ => none

end Sys2Proof.Machine

section

open Sys2Proof Sys2Proof.Machine

/-- R193, R195, R196: BRA, BRX, CALL and CALLX send every active thread to its target, an entry of the image that is a
legal target (R48), and the others to their next IP; CALL and CALLX first push the IP that follows them. The link stack
holds the return IP in the thread while the call depth stays at 8 or below. R133, R306: where an active thread has a target
that is ill formed or outside the image the instruction takes BADTARGET, and none of its threads moves; a target whose slot
is no legal target does so once every target has its frame (R46, R48). -/
def Obligations.TransfersGoToTheirTargets : Prop :=
  ∀ (i : Instr) (s : State) (c : Ctx) (x : Transfer), transferOf i s c = some x → s.Ready c x.op x.f → s.redundant = false →
    ((∀ l ∈ c.lanes, (c.rd.thread l).guard x.f = true → s.reaches (x.target l) ∧ s.isTarget (x.target l) = true) →
      (x.call = true → ∀ l ∈ c.lanes, (c.g.thread l).depth < 8) →
      ∃ h, exec i s = .next (s.setGroup s.cur h) ∧ c.g.OnlyLanes h (c.afterGoing x.f fun l t =>
        if x.call then
          { t with link := nextSlot c.u.ip :: t.link, depth := t.depth + 1, ip := x.target l, back := false, again := false }
        else { t with ip := x.target l, back := false, again := false })) ∧
    ((∃ l ∈ c.lanes, (c.rd.thread l).guard x.f = true ∧ s.ipOk (x.target l) = false) ∨
        ((∀ l ∈ c.lanes, (c.rd.thread l).guard x.f = true → s.reaches (x.target l)) ∧
          ∃ l ∈ c.lanes, (c.rd.thread l).guard x.f = true ∧ s.isTarget (x.target l) = false) →
      ∃ t : Trap, t.cause = .badTarget ∧ t.lane ∈ c.lanes ∧ t.detail = s.imageOffset (x.target t.lane) % 2 ^ 52 ∧
        exec i s = .next (s.takeTrap t))

/-- R197: RET pops the top entry of the link stack in every active thread and continues at it; no refill is due at a call
depth of 8 or less. A depth of 0 in an active thread takes BADTARGET. -/
def Obligations.ReturnsPopTheLinkStack : Prop :=
  ∀ (f : Fields) (s : State) (c : Ctx), s.Ready c 0x64 f → s.redundant = false →
    ((∀ l ∈ c.lanes, (c.rd.thread l).guard f = true →
        0 < (c.g.thread l).depth ∧ (c.g.thread l).depth ≤ 8 ∧ s.reaches ((c.g.thread l).link.headD 0)) →
      ∃ h, exec (.ret f) s = .next (s.setGroup s.cur h) ∧ c.g.OnlyLanes h (c.afterGoing f fun _ t =>
        { t with link := t.link.tail, depth := t.depth - 1, ip := t.link.headD 0, back := false, again := false })) ∧
    ((∃ l ∈ c.lanes, (c.rd.thread l).guard f = true ∧ (c.g.thread l).depth = 0) →
      ∃ t : Trap, t.cause = .badTarget ∧ exec (.ret f) s = .next (s.takeTrap t))

/-- R198, R44: LOOP reads its count from A and its end from I. Where the end lies after the LOOP, a count of 0 goes to the
IP after the end; any other count activates the lowest inactive level with the next IP as its start, and goes there. An
end that is no later takes BADTARGET where a thread is active.
R199: LOOPB deactivates the highest active level of every active thread and continues after that level's end.
R44, R198: moving past an instruction at the end of the highest active loop level: with a count above 1 the thread goes back
to the start and the count drops by 1; else the level ends, with every active level that shares its end, and the thread goes
on behind it. At any other IP the thread goes to the next slot. Nothing else of the thread changes but the marks of a
loop-back and of a pair to issue again. -/
def Obligations.LoopLevels : Prop :=
  (∀ (f : Fields) (s : State) (c : Ctx),
    let e := directTarget c.u.ip f
    let n (l : Nat) : Word := (s.operand c.rd l f false f.a).extractLsb' 0 32
    (s.Ready c 0x65 f → wellFormedIp e = true → (c.u.ip.toNat : Int) < directNum c.u.ip f → directNum c.u.ip f < 2 ^ 64 →
      (∀ l ∈ c.lanes, (c.rd.thread l).guard f = true → (c.g.thread l).loops.all (·.active) = false) →
      ∃ h, exec (.loop f) s = .next (s.setGroup s.cur h) ∧ c.g.OnlyLanes h (c.afterGoing f fun l t =>
        if n l = 0 then { t with ip := nextSlot e, back := false, again := false }
        else
          let k := (t.loops.findIdx? fun v => !v.active).getD 0
          { t with
            loops := setAt t.loops k ⟨true, nextSlot c.u.ip, e, n l⟩, ip := nextSlot c.u.ip, back := false, again := false })) ∧
    (s.Ready c 0x65 f → directNum c.u.ip f ≤ c.u.ip.toNat → (c.active f) ≠ [] →
      exec (.loop f) s = .next (s.takeTrap (mkTrap .badTarget 30 ((c.active f).headD 0) (s.imageOffset e % 2 ^ 52)))) ∧
    (s.Ready c 0x66 f → s.redundant = false →
      (∀ l ∈ c.lanes, (c.rd.thread l).guard f = true → topLevel (c.g.thread l).loops 0 ≠ 0) →
      ∃ h, exec (.loopb f) s = .next (s.setGroup s.cur h) ∧ c.g.OnlyLanes h (c.afterGoing f fun _ t =>
        let k := topLevel t.loops 0 - 1
        { t with loops := setAt t.loops k .off, ip := nextSlot (t.loops.getD k .off).last, back := false, again := false }))) ∧
  ∀ (t : Thread) (k : Nat), k < t.loops.length → (∀ j, j < t.loops.length → ((t.loops.getD j .off).active = true → j ≤ k)) →
    (t.loops.getD k .off).active = true →
    let lv := t.loops.getD k .off
    (lv.last = t.ip → 1 < lv.count.toNat →
      t.advance = { t with
        loops := setAt t.loops k { lv with count := lv.count - 1 }, ip := lv.start, back := true, again := false }) ∧
    (lv.last = t.ip → lv.count.toNat ≤ 1 →
      t.advance = { t with
        loops := t.loops.map fun x => if x.active ∧ x.last = t.ip then .off else x
        ip := nextSlot t.ip, back := false, again := false }) ∧
    (lv.last ≠ t.ip → t.advance = { t with ip := nextSlot t.ip, back := false, again := false })

end

namespace Sys2Proof.Machine

open Sys2Proof

/-- The group after JSET, JWAIT or JDROP, besides its threads. -/
def Group.withJoin (g : Group) (n : Nat) (mask arrived : Word) : Group :=
  { g with j := setAt g.j n mask, arrived := setAt g.arrived n arrived }

end Sys2Proof.Machine

section

open Sys2Proof Sys2Proof.Machine

/-- R201, R203: with an active thread, let M be the OR of A over the active threads that are no helpers, restricted to lanes
with a live thread that is none, in both halves of a redundant launch. JSET releases every thread parked at its mask, writes
M and clears the arrived set. JDROP takes M out of the mask and of its arrived set, and releases the dropped threads that
are parked there; where the lanes left have all arrived and some thread is left parked, all are released and the set is
cleared. R202: the active threads of a JWAIT that are in the mask arrive, given that the arrived set lies within the mask and
holds none of them; where that makes it the whole mask, every thread parked there is released, the set is cleared, and
all of them go on; else they park. -/
def Obligations.RejoinMasks : Prop :=
  ∀ (f : Fields) (n : Nat) (s : State) (c : Ctx), n < 8 → c.g.j.length = 8 → c.g.arrived.length = 8 →
    (∀ l ∈ c.lanes, (c.g.thread l).status = .ready) →
    let parked (l : Nat) : Bool := l < 32 && (c.g.thread l).status = .parked (.join n)
    (f.d = .j (BitVec.ofNat 3 n) → (∃ l ∈ c.lanes, (c.rd.thread l).guard f = true) →
      let named := (c.lanes.filter fun l => (c.rd.thread l).guard f && !(c.g.thread l).helper).foldl
        (fun m l => m ||| (s.operand c.rd l f false f.a).extractLsb' 0 32) (0 : Word)
      let both := if s.redundant then (named &&& 0xFFFF) ||| ((named &&& 0xFFFF) <<< 16) else named
      let m := both &&& c.g.liveLanes
      let left := c.g.j.getD n 0 &&& ~~~m
      let arrived := c.g.arrived.getD n 0 &&& ~~~m
      let all : Bool := arrived = left && (List.range 32).any fun l => parked l && !m.getLsbD l
      (s.Ready c 0x68 f → ∃ h, exec (.jset f) s = .next (s.setGroup s.cur h) ∧
        (c.g.withJoin n m 0).OnlyLanes h fun l =>
          if l ∈ c.lanes then (c.g.thread l).advance
          else if parked l then { c.g.thread l with status := .ready } else c.g.thread l) ∧
      (s.Ready c 0x6A f → ∃ h, exec (.jdrop f) s = .next (s.setGroup s.cur h) ∧
        (c.g.withJoin n left (if all then 0 else arrived)).OnlyLanes h fun l =>
          if l ∈ c.lanes then (c.g.thread l).advance
          else if parked l && (m.getLsbD l || all) then { c.g.thread l with status := .ready }
          else c.g.thread l)) ∧
    (s.Ready c 0x69 f → f.a = .j (BitVec.ofNat 3 n) →
      let mask := c.g.j.getD n 0
      let arrived := c.g.arrived.getD n 0
      let come := c.lanes.filter fun l => (c.rd.thread l).guard f && !(c.g.thread l).helper && mask.getLsbD l
      arrived &&& mask = arrived → (∀ l ∈ come, arrived.getLsbD l = false) → come ≠ [] →
      let all := arrived ||| maskOf come
      ∃ h, exec (.jwait f) s = .next (s.setGroup s.cur h) ∧
        if all = mask then
          (c.g.withJoin n mask 0).OnlyLanes h fun l =>
            if l ∈ c.lanes then (c.g.thread l).advance
            else if parked l then { c.g.thread l with status := .ready } else c.g.thread l
        else
          (c.g.withJoin n mask all).OnlyLanes h fun l =>
            if l ∈ come then { (c.g.thread l).advance with status := .parked (.join n) }
            else if l ∈ c.lanes then (c.g.thread l).advance else c.g.thread l)

/-- R205, R204, R206: NOP only moves every thread of its unit to its next IP; YIELD does that and holds the unit of its
threads where one is active; BRK with an active thread raises BREAK with the code I[15:0], and without one moves on. -/
def Obligations.NopYieldAndBreak : Prop :=
  ∀ (f : Fields) (s : State) (c : Ctx), s.ctx? = some c →
    (∃ h, exec (.nop f) s = .next (s.setGroup s.cur h) ∧ c.g.OnlyLanes h (c.after f fun _ t => t)) ∧
    (∃ h, exec (.yieldI f) s = .next (s.setGroup s.cur h) ∧ c.g.OnlyLanes h (c.after f fun _ t => t) ∧
        ((∀ r, s.pairRead ≠ some (r, true)) → (∃ l ∈ c.lanes, (c.rd.thread l).guard f = true) →
          ∀ l ∈ c.lanes, l < c.g.threads.length → (h.thread l).status = .ready →
            ∃ u ∈ h.units, u.held.isSome = true ∧ u.ip = (h.thread l).ip ∧ u.lanes.getLsbD l = true)) ∧
    (∀ l, (c.active f).head? = some l →
      exec (.brk f) s = .next (s.takeTrap (mkTrap .brk 30 l (f.immBits 15 0)))) ∧
    ((c.active f) = [] →
      ∃ h, exec (.brk f) s = .next (s.setGroup s.cur h) ∧ c.g.OnlyLanes h (c.after f fun _ t => t))

/-- R208: TRAPU pushes the next IP of every active thread, as a step of its loop level gives it, sets its cause to 2 and its
information to I, and sends it to the user trap entry. The link stack holds the pushed IP while the call depth stays at 8
or below. -/
def Obligations.UserTrapsGoToTheEntry : Prop :=
  ∀ (f : Fields) (s : State) (c : Ctx), s.ctx? = some c →
    (∀ l ∈ c.lanes, (c.g.thread l).depth < 8) →
    ∃ h, exec (.trapu f) s = .next (s.setGroup s.cur h) ∧ c.g.OnlyLanes h (c.afterGoing f fun _ t =>
      { t.advance with
        link := t.advance.ip :: t.link, depth := t.depth + 1, ucause := 2, uinfo := f.imm, ip := s.imageBase + 64
        back := false, again := false })

/-- R207: OVMAP changes, for its launch on its core, the frame map of the window, thread by thread in lane order: a frame
is unmapped, or an overlay leaves any other frame and the loading state and is mapped into it; and every thread of the
issue goes on at its next IP. Every frame and overlay number is valid, and no copy into a named frame is under way (R207
holds the issue while one is). Threads that wait for a mapped overlay are released. -/
def Obligations.OverlayMapping : Prop :=
  ∀ (f : Fields) (s : State) (c : Ctx) (la : Launch), s.Ready c 0x6E f → s.launchOf s.cur = some la →
    let fr (l : Nat) : Nat := (s.operand c.rd l f false f.a).toNat
    let ov (l : Nat) : Nat := (s.operand c.rd l f false f.b).toNat
    (∀ l ∈ c.lanes, (c.rd.thread l).guard f = true → fr l ≠ 0 ∧ fr l < la.frames ∧ ov l ≠ 0 ∧
      (ov l = 0xFFFFFFFF ∨ ov l < la.novl)) →
    (∀ k ∈ s.cmds, ∀ l ∈ c.lanes, ¬ (k.kind = .copy ∧ k.var = 3 ∧ k.launch = la.id ∧ k.core = s.coreOfCur ∧ k.a.toNat = fr l
      ∧ k.state ≠ .done)) →
    (∀ l ∈ c.lanes, (c.g.thread l).status = .ready) →
    ∃ t, exec (.ovmap f) s = .next t ∧ t = { s with blocks := t.blocks, mgmt := t.mgmt, windows := t.windows } ∧
      t.windows = (s.windows.map fun w =>
        if w.launch = la.id ∧ w.core = s.coreOfCur then (c.active f).foldl (fun w l => w.ovmap (fr l) (ov l)) w else w) ∧
      ∀ l ∈ c.lanes, l < c.g.threads.length → ∃ h, t.groupOf s.cur = some h ∧ h.thread l = (c.g.thread l).advance

/-- R42, R64, R200: EXIT ends every active thread; KILL, with an active thread, ends every thread of the group. An ended
thread has no outstanding loads, and no V, S or predicate register of the group changes. Memory, the privileged
registers, the queues, the commands in flight and everything else outside blocks and launches stay as they were. The
group loads no overlay, so that nobody waits for one of its loads (R46). -/
def Obligations.EndingThreads : Prop :=
  ∀ (i : Instr) (f : Fields) (s : State) (c : Ctx), s.ctx? = some c → s.redundant = false →
    c.g.threads.length = 32 → (∀ r, s.pairRead ≠ some (r, true)) →
    (∀ w ∈ s.windows, ∀ x ∈ w.loading, x.2.2.2 ≠ 0 ∧ ∀ b g u, s.cur = .unit b g u → ¬ (x.2.1 = b ∧ x.2.2.1 = g)) →
    (i = .exit f ∨ (i = .kill f ∧ ∃ l ∈ c.lanes, (c.rd.thread l).guard f = true)) →
    ∃ t h, exec i s = .next t ∧
      t = { s with
        blocks := t.blocks, mgmt := { s.mgmt with group := t.mgmt.group }, acmReqs := t.acmReqs
        launches := t.launches, deferred := t.deferred, nextId := t.nextId } ∧
      t.groupOf s.cur = some h ∧ h.s = c.g.s ∧ h.threads.length = 32 ∧
      (∀ l, l < 32 → (i = .kill f ∨ (l ∈ c.lanes ∧ (c.rd.thread l).guard f = true)) →
        (h.thread l).live = false ∧ ((c.g.thread l).live = true → (h.thread l).status = .ended ∧ (h.thread l).ld = [])) ∧
      ∀ l, l < 32 → (h.thread l).v = (c.g.thread l).v ∧ (h.thread l).p = (c.g.thread l).p

end

namespace Sys2Proof.Machine

open Sys2Proof

/-! ## Memory -/

/-- A memory instruction: its opcode, address space, the kind of access in DETAIL, and its fields. -/
structure MemOp where
  op   : Nat
  sp   : Space
  kind : Nat
  f    : Fields

def loadOf : Instr → Option MemOp
  | .ld f => some ⟨0x70, .glob, 0, f⟩
  | .lds f => some ⟨0x72, .scr, 4, f⟩
  | .ldk f => some ⟨0x74, .const, 7, f⟩
  | _ => none

def storeOf : Instr → Option MemOp
  | .st f => some ⟨0x71, .glob, 1, f⟩
  | .sts f => some ⟨0x73, .scr, 4, f⟩
  | _ => none

def atomicOf : Instr → Option MemOp
  | .atom f => some ⟨0x75, .glob, 2, f⟩
  | .atoms f => some ⟨0x76, .scr, 4, f⟩
  | .red f => some ⟨0x77, .glob, 2, f⟩
  | _ => none

/-- The size of an access in bytes. -/
def MemOp.size (m : MemOp) : Nat := Ty.bytes m.f.ty

/-- Where the access of an actor goes, and what its checks find (R222); a helper's load that would trap goes nowhere
(R27). -/
def State.goes (s : State) (c : Ctx) (m : MemOp) (write helper : Bool) (l : Nat) : Place × List Trap :=
  placed helper (s.place m.sp write m.kind l (s.effAddr c.rd l m.f (m.sp = .glob)) m.size)

end Sys2Proof.Machine

section

open Sys2Proof Sys2Proof.Machine

/-- R224, R69, R71, R220: LD, LDS and LDK read one item in each actor, where every check of R222 passes, and make the
load outstanding in each taker's thread with its destination; D gets the value when the load completes. No memory
changes. Each taker has fewer than 63 loads outstanding, and no SYSTEM store of the actor is still to be performed. -/
def Obligations.LoadsBecomeOutstandingWithTheirValue : Prop :=
  ∀ (i : Instr) (s : State) (c : Ctx) (m : MemOp), loadOf i = some m → s.CanRun c m.op m.f → s.redundant = false →
    let at_ (l : Nat) : Place × List Trap := s.goes c m false (c.rd.thread l).helper l
    (∀ l ∈ c.actors m.f, (at_ l).2 = [] ∧ s.plain (at_ l).1 m.size ∧ s.poisonRead l (at_ l).1 m.size = [] ∧
      (c.g.thread l).sysPending = false ∧ ∀ k ∈ c.takers m.f l, (c.g.thread k).ld.length < 63) →
    ∃ (cache l2 : List CacheLine) (stats : List CacheStat) (nextId fresh : Nat) (h : Group),
      exec i s = .next (({ s with cache, l2, stats, nextId, fresh } : State).setGroup s.cur h) ∧
      c.g.OnlyLanes h (c.afterMem m.f (fun _ => true) fun a _ t =>
        t.withLoad (dstRegs m.f.d m.f.ty.pair (extend m.f.ty (s.readPlace (at_ a).1 m.size))))

/-- R225, R70, R86, R100: ST and STS write the low bytes of B at the address of each actor that is no helper, in some
order, where every check of R222 passes; a store to a SYSTEM page waits in its thread instead. Each taker's thread counts
the store. -/
def Obligations.StoresWriteTheLowBytesInSomeOrder : Prop :=
  ∀ (i : Instr) (s : State) (c : Ctx) (m : MemOp), storeOf i = some m → s.CanRun c m.op m.f → s.redundant = false →
    let at_ (l : Nat) : Place × List Trap := s.goes c m true false l
    let does (l : Nat) : Bool := !(c.rd.thread l).helper
    let data (l : Nat) : Nat := (s.operand c.rd l m.f m.f.ty.pair m.f.b).toNat % 2 ^ (8 * m.size)
    (∀ l ∈ c.actors m.f, ∀ k ∈ c.takers m.f l, (c.g.thread k).st.length < 63) →
    (∀ l ∈ c.actors m.f, does l = true → (at_ l).2 = [] ∧ s.plain (at_ l).1 m.size ∧ (c.g.thread l).sysPending = false) →
    ∃ (order : List Nat) (cache l2 : List CacheLine) (stats : List CacheStat) (nextId fresh : Nat) (h : Group), order.Perm ((c.actors m.f).filter does) ∧
      exec i s = .next ((order.foldl (fun s l =>
        if (sysStore (at_ l).1 m.size (data l)).isSome then s else s.writePlace (at_ l).1 m.size (data l))
          ({ s with cache, l2, stats, nextId, fresh } : State)).setGroup s.cur h) ∧
      c.g.OnlyLanes h (c.afterMem m.f does fun a k t =>
        { t with st := t.st ++ [if k = a then sysStore (at_ a).1 m.size (data a) else none] })

/-- R228, R89: ATOM, ATOMS and RED make one read-modify-write event in each actor that is no helper, in some order, each
on what the events before it left. ATOM and ATOMS make a load outstanding with the old value (0 in a helper); RED counts a
store. -/
def Obligations.AtomicsReadModifyWriteInSomeOrder : Prop :=
  ∀ (i : Instr) (s : State) (c : Ctx) (m : MemOp), atomicOf i = some m → s.CanRun c m.op m.f → s.redundant = false →
    let at_ (l : Nat) : Place × List Trap := s.goes c m true false l
    let does (l : Nat) : Bool := !(c.rd.thread l).helper
    let new (l : Nat) (old : DWord) : Nat := atomNew m.f.fn.toNat m.f.ty old
      (s.operand c.rd l m.f m.f.ty.pair m.f.b) (s.operand c.rd l m.f m.f.ty.pair m.f.c)
    (∀ l ∈ c.actors m.f, ∀ k ∈ c.takers m.f l,
      (if m.op = 0x77 then (c.g.thread k).st.length else (c.g.thread k).ld.length) < 63) →
    (∀ l ∈ c.actors m.f, does l = true → (at_ l).2 = [] ∧ s.plain (at_ l).1 m.size ∧ s.poisonRead l (at_ l).1 m.size = [] ∧
      (c.g.thread l).sysPending = false) →
    ∃ (order : List Nat) (cache l2 : List CacheLine) (stats : List CacheStat) (nextId fresh last : Nat) (h : Group), order.Perm ((c.actors m.f).filter does) ∧
      let r := ({ s with cache, l2, stats, nextId, fresh } : State).atomEvents (fun l => (at_ l).1) m.size new order
      let old (l : Nat) : DWord := if does l then ((r.2.find? fun o => o.1 = l).map (·.2)).getD 0 else 0
      exec i s = .next (({ r.1 with fresh := last } : State).setGroup s.cur h) ∧
      c.g.OnlyLanes h (c.afterMem m.f (fun l => does l || m.op ≠ 0x77) fun a _ t =>
        if m.op = 0x77 then { t with st := t.st ++ [none] }
        else t.withLoad (dstRegs m.f.d m.f.ty.pair (extend m.f.ty (old a).toNat)))

/-- R6, R72: a plain place reads back what was written to it, and no other byte of any memory changes: not of device
memory, other devices' memory, host memory, or any scratchpad the issuer sees (the management core has one). -/
def Obligations.PlacesReadBackWhatWasWritten : Prop :=
  ∀ (s : State) (p : Place) (n x : Nat), s.memoriesWf = true → s.plain p n → (∀ o, p ≠ .const o) → p ≠ .zero →
    (∀ part off, p = .scr part off → s.cur = .mgmt ∨ ∃ b g u k, s.cur = .unit b g u ∧ (s.block? b).bind (·.part part) = some k) →
    let t := s.writePlace p n x
    t.readPlace p n = x % 256 ^ n ∧
      (∀ a, (∀ y o, p = .loc y → y.loc = .dev o → a < o ∨ o + n ≤ a) → t.mem.byte a = s.mem.byte a) ∧
      (∀ a, (∀ y o, p = .loc y → y.loc = .peer o → a < o ∨ o + n ≤ a) → t.peerMem.byte a = s.peerMem.byte a) ∧
      (∀ a, (∀ y o, p = .loc y → y.loc = .host o → a < o ∨ o + n ≤ a) → t.hostMem.byte a = s.hostMem.byte a) ∧
      ∀ q a, (∀ part o, p = .scr part o → part = q ∨ s.cur = .mgmt → a < o ∨ o + n ≤ a) →
        (t.scratch q).byte a = (s.scratch q).byte a

/-- R226, R79, R227, R243: PREF moves its unit on, with the lookups of a load at the lines of its actors whose access no check of
R222 stops, on a page that is cacheable (not SYSTEM, MS = 0) of a device that answers; it changes nothing else. FSYS does so once no actor has a SYSTEM store to perform, and CWAIT
once each actor has at most I[5:0] loads, I[11:6] stores and I[15:12] matrix instructions outstanding; till then they
hold the unit, and nothing changes. -/
def Obligations.PrefetchAndWaitingForCounters : Prop :=
  ∀ (s : State) (c : Ctx) (f : Fields),
    (s.CanRun c 0x78 f → s.redundant = false →
      ∃ (cache l2 : List CacheLine) (stats : List CacheStat) (nextId : Nat) (h : Group) (ps : List Place),
        s.touchAll false ps = { s with cache, l2, stats, nextId } ∧
        exec (.pref f) s = .next ((s.touchAll false ps).setGroup s.cur h) ∧ c.g.OnlyLanes h (c.after f fun _ t => t) ∧
        ∀ p, p ∈ ps ↔ ∃ l ∈ c.actors f, ∃ x, p = .loc x ∧
          s.place .glob false 0 l (s.effAddr c.rd l f true) (Ty.bytes f.ty) = .ok (.loc x) ∧
          (∀ a, x.loc ≠ .host a) ∧ x.ms = false ∧ s.deadPlace (.loc x) = none) ∧
    (s.CanRun c 0x7C f →
      if ∀ l ∈ c.actors f, (c.g.thread l).sysPending = false then
        ∃ h, exec (.fsys f) s = .next (s.setGroup s.cur h) ∧ c.g.OnlyLanes h (c.after f fun _ t => t)
      else exec (.fsys f) s = .next s) ∧
    (s.CanRun c 0x98 f →
      if ∀ l ∈ c.actors f, (c.g.thread l).ld.length ≤ f.immBits 5 0 ∧ (c.g.thread l).st.length ≤ f.immBits 11 6 ∧
          (c.g.thread l).mx ≤ f.immBits 15 12 then
        ∃ h, exec (.cwait f) s = .next (s.setGroup s.cur h) ∧ c.g.OnlyLanes h (c.after f fun _ t => t)
      else exec (.cwait f) s = .next s)

end

namespace Sys2Proof.Machine

open Sys2Proof

/-! ## Pins, barriers, handles -/

end Sys2Proof.Machine

section

open Sys2Proof Sys2Proof.Machine

/-- R229, R98, R86: PIN writes the name of A, and UNPIN 0, into PNn, once for each actor that is no helper, in an order that
is not defined, so that the register ends with one of the names; each write counts as an overwrite. Deferred names whose
pins are all clear become ready (a form of an S register whose guard fails only moves on). -/
def Obligations.PinsHoldOneOfTheNamesWritten : Prop :=
  ∀ (i : Instr) (f : Fields) (s : State) (c : Ctx), s.redundant = false →
    (i = .pin f ∧ s.CanRun c 0x79 f ∨ i = .unpin f ∧ s.CanRun c 0x7A f) →
    let does := (c.actors f).filter fun l => !(c.rd.thread l).helper
    let name (l : Nat) : DWord := if i = .pin f then s.operand c.rd l f true f.a else 0
    ∃ (last : Option Nat) (h : Group) (n : Nat),
      (last = none ↔ does = []) ∧ (∀ l, last = some l → l ∈ does) ∧
      (let t := ({ s with fresh := n } : State).setGroup s.cur h
       exec i s = .next (if f.namesS && (c.actors f).isEmpty then t else t.settle)) ∧
      ({ c.g with
          pn := (match last with | some l => setAt c.g.pn (pinNum f.d) (name l) | none => c.g.pn)
          pnGen := if does = [] then c.g.pnGen else updAt c.g.pnGen (pinNum f.d) (· + does.length) } : Group).OnlyLanes h
        (c.after f fun _ t => t)

/-- R230, R98, R220: RECLAIM makes a search for each actor that is no helper, of the name A, with its barrier, its ring and
the pins that hold the name in the contexts of its address space, and holds the unit's threads at the instruction, each till the search of its actor is over, those without one of their
own with the first; every check passes. (Numbers in use lie below the next one.) -/
def Obligations.ReclaimSearchesAndHolds : Prop :=
  ∀ (f : Fields) (s : State) (c : Ctx), s.CanRun c 0x7B f → s.redundant = false → (∀ q ∈ s.searches, q.id < s.nextId) →
    let does := (c.actors f).filter fun l => !(c.rd.thread l).helper
    let bar (l : Nat) : Nat := (s.operand c.rd l f false f.b).toNat
    (∀ l ∈ does, s.reclaimTraps f c l = [] ∧ s.partSaved (scrPart (bar l)) = false) →
    ∃ (qs : List Search) (h : Group),
      exec (.reclaim f) s = .next (({ s with searches := s.searches ++ qs, nextId := s.nextId + does.length } : State).setGroup
        s.cur h) ∧
      qs.length = does.length ∧
      (∀ k, k < does.length → ∀ q, qs[k]? = some q →
        let l := does.getD k 0
        q.id = s.nextId + k ∧ q.lanes = maskOf (c.takers f l) ∧ q.ctx = s.ctxOf ∧ q.name = s.operand c.rd l f true f.a ∧
          q.bar = bar l ∧ q.ring = (s.operand c.rd l f true f.c).toNat ∧
          q.found = s.findPins (fun k => s.asidOf k = s.asidOf s.ctxOf) q.name ∧ q.domain = s.domainName q.name) ∧
      c.g.OnlyLanes h fun l =>
        if l ∈ c.lanes then
          match does.findIdx? fun a => (c.takers f a).contains l with
          | some k => { c.g.thread l with status := .parked (.search (s.nextId + k)) }
          | none => if does = [] then (c.g.thread l).advance else { c.g.thread l with status := .parked (.search s.nextId) }
        else c.g.thread l

end

namespace Sys2Proof.Machine

open Sys2Proof

/-- A barrier instruction that makes an event in each actor that is no helper: its opcode, its fields, whether it reads the
object, and the event at a barrier object of an actor with these operands (R236, R237, R239). -/
structure BarOp where
  op    : Nat
  f     : Fields
  reads : Bool
  act   : State → (Opnd → Nat) → Nat → Nat → Nat → State

def barOf : Instr → Option BarOp
  | .binit f => some ⟨0x90, f, false, fun s read b p o => s.binit b p o (read f.b) (read f.c)⟩
  | .barv f => some ⟨0x91, f, true, fun s _ b p o => s.arrive b p o 1 0 0⟩
  | .bexp f => some ⟨0x92, f, true, fun s read b p o => s.arrive b p o 0 0 (read f.b)⟩
  | .brst f => some ⟨0x95, f, true, fun s read b p o => s.brst b p o (read f.b % 2 ^ 16)⟩
  | _ => none

/-- The part and offset of the barrier object of an actor. -/
def State.objectAt (s : State) (f : Fields) (c : Ctx) (l : Nat) : Nat × Nat :=
  match s.barPlace f c l with
  | .ok (.scr p o) => (p, o)
  | _ => (0, 0)

/-- The checks of a barrier access pass, and its part is in its core (R222, R75); with `reads` it is not poisoned. -/
def State.objectOk (s : State) (f : Fields) (c : Ctx) (reads : Bool) (l : Nat) : Prop :=
  ∃ p o, s.barPlace f c l = .ok (.scr p o) ∧ s.partSaved p = false ∧ (reads = true → s.poisonRead l (.scr p o) 16 = [])

end Sys2Proof.Machine

section

open Sys2Proof Sys2Proof.Machine

/-- R234 (the test): an event that adds arrivals and bytes and takes B off, none of which passes its field's range: the
phase completes exactly where ARRA and BAL then both reach their expectations, which advances PHASE modulo 2^16 and clears
ARRA and BAL; else they hold the sums and PHASE stands. EXPA, EXPB and CODE stay.
R236, R239: what BINIT and BRST leave in their barrier object. BINIT sets EXPA to B[15:0] and EXPB to C, and ARRA, BAL, CODE, OVF,
RESET and PHASE to 0; with both expectations 0 the phase completes in its own event, so that PHASE is 1. BRST sets PHASE to B[15:0],
ARRA and BAL to 0 and RESET to 1, keeps EXPA, EXPB and OVF, and sets CODE to 6 exactly where it abandons a command. (The object
lies in a part of its block; every command of the block names barriers at multiples of 16, so that none lies across another.) -/
def Obligations.BarrierPhasesCompleteWhenBothExpectationsAreMet : Prop :=
  (∀ (n arrivals bytes bexp : Nat), n < 2 ^ 128 → barArra n + arrivals < 2 ^ 16 →
     -2 ^ 31 ≤ barBal n + bytes - bexp → barBal n + bytes - bexp < 2 ^ 31 →
     let r := barTest n arrivals bytes bexp
     let met := barExpa n ≤ barArra n + arrivals ∧ (barExpb n : Int) ≤ barBal n + bytes - bexp
     (r.2 = true ↔ met) ∧ barExpa r.1 = barExpa n ∧ barExpb r.1 = barExpb n ∧ barCode r.1 = barCode n ∧
       (met → barPhase r.1 = (barPhase n + 1) % 2 ^ 16 ∧ barArra r.1 = 0 ∧ barBal r.1 = 0) ∧
       (¬ met → barPhase r.1 = barPhase n ∧ barArra r.1 = barArra n + arrivals ∧ barBal r.1 = barBal n + bytes - bexp)) ∧
  ∀ (s : State) (b part off : Nat), s.memoriesWf = true → part < 4 → off < 2 ^ 20 → off % 16 = 0 →
    (if b = 0 then part = 0 else ∃ x p, s.block? b = some x ∧ x.part part = some p) →
    (∀ k ∈ s.cmds, k.block ≠ 0 ∧ (k.block = b → k.bar % 16 = 0 ∧ k.bar < 2 ^ 22)) →
    let old := s.bar b part off
    let abandons := ∃ k ∈ s.cmds, k.state = .running ∧ k.block = b ∧ s.publishesOn k (part * 2 ^ 20 + off) = true
    (∀ expa expb,
      let n := (s.binit b part off expa expb).bar b part off
      barExpa n = expa % 2 ^ 16 ∧ barExpb n = expb % 2 ^ 32 ∧ barArra n = 0 ∧ barBal n = 0 ∧ barCode n = 0 ∧ bit n 120 = false ∧
        bit n 121 = false ∧ barPhase n = if expa % 2 ^ 16 = 0 ∧ expb % 2 ^ 32 = 0 then 1 else 0) ∧
    ∀ phase,
      let n := (s.brst b part off phase).bar b part off
      barPhase n = phase % 2 ^ 16 ∧ barArra n = 0 ∧ barBal n = 0 ∧ bit n 120 = true ∧ barExpa n = barExpa old ∧
        barExpb n = barExpb old ∧ bit n 121 = bit old 121 ∧ (abandons → barCode n = 6) ∧ (¬ abandons → barCode n = barCode old)

/-- R236, R237, R239, R86: BINIT, BARV, BEXP and BRST make their events on the barrier objects of their actors that are no
helpers, in some order, each after the SYSTEM stores its thread has still to perform (R100), and the unit moves on. -/
def Obligations.BarrierInstructionsMakeTheirEvents : Prop :=
  ∀ (i : Instr) (s : State) (c : Ctx) (b : BarOp), barOf i = some b → s.CanRun c b.op b.f → s.redundant = false →
    let does := (c.actors b.f).filter fun l => !(c.rd.thread l).helper
    (∀ l ∈ does, s.objectOk b.f c b.reads l) →
    ∃ (order : List Nat) (n : Nat) (h : Group), order.Perm does ∧
      let u := order.foldl (fun u l => b.act
        (u.beforeAccess l (.scr (s.objectAt b.f c l).1 (s.objectAt b.f c l).2) 16 true) (fun o => (s.operand c.rd l b.f false o).toNat) s.cur.owner
        (s.objectAt b.f c l).1 (s.objectAt b.f c l).2) ({ s with fresh := n } : State)
      exec i s = .next (u.setGroup u.cur h) ∧
        ∀ g, u.groupOf u.cur = some g →
          g.OnlyLanes h fun l => if l ∈ c.lanes then (g.thread l).advance else g.thread l

/-- R235, R237, R238: BTEST writes the status word of each actor's object for p = B[15:0] to its takers. BWAIT does so where
SAT holds; else its takers park on the object, at the instruction. -/
def Obligations.BarrierWaitsAndTests : Prop :=
  ∀ (f : Fields) (s : State) (c : Ctx), s.redundant = false → (∀ n, f.d ≠ .s n) →
    (∀ l ∈ c.actors f, s.objectOk f c true l) →
    let at_ (l : Nat) : Nat × Nat := s.objectAt f c l
    let seen (l : Nat) : Nat := s.bar s.cur.owner (at_ l).1 (at_ l).2
    let phase (l : Nat) : Nat := (s.operand c.rd l f false f.b).toNat % 2 ^ 16
    let word (l : Nat) : DWord := (barStatus (seen l) (phase l)).zeroExtend 64
    (s.CanRun c 0x94 f →
      ∃ h, exec (.btest f) s = .next (s.setGroup s.cur h) ∧ c.g.OnlyLanes h
        (c.afterMem f (fun _ => true) fun a _ t => t.withDst f.d false (word a))) ∧
    (s.CanRun c 0x93 f →
      ∃ h, exec (.bwait f) s = .next (s.setGroup s.cur h) ∧ c.g.OnlyLanes h fun l =>
        if l ∈ c.lanes then
          let a := if f.namesS then c.lowLane else l
          if (c.rd.thread a).guard f then
            if barSat (seen a) (phase a) then ((c.g.thread l).withDst f.d false (word a)).advance
            else { c.g.thread l with status := .parked (.barrier (at_ a).1 (at_ a).2 (phase a)
              (match f.d with | .v r => some r.toNat | _ => none)) }
          else (c.g.thread l).advance
        else c.g.thread l)

/-- R241, R242: HTEST writes, for the pair of A, bit 0 where it is pending and bit 1 where its command was cancelled, and
neither waits nor ends the pending state. HCANCEL asks every command that a pending pair of A in an active thread waits
for to cancel, and does nothing else. -/
def Obligations.HandleTestsAndCancels : Prop :=
  ∀ (f : Fields) (r : BitVec 8) (s : State) (c : Ctx), f.a = .v r → f.namesS = false → s.redundant = false →
    (s.CanRun c 0x96 f →
      ∃ h, exec (.htest f) s = .next (s.setGroup s.cur h) ∧ c.g.OnlyLanes h (c.after f fun l t =>
        let has (x : Bool) : Bool := (c.rd.thread l).pend.any fun q => q.reg = r.toNat && q.cancelled == x
        t.withDst f.d false (BitVec.ofNat 64 ((if has false then 1 else 0) + (if has true then 2 else 0))))) ∧
    (s.CanRun c 0x97 f →
      let wanted (k : Cmd) : Bool := s.undone k.id && (c.active f).any fun l =>
        (c.rd.thread l).pend.any fun q => q.reg = r.toNat && !q.cancelled && q.cmd = k.id
      let after (k : Cmd) : Cmd := if wanted k then { k with cancel := true } else k
      ∃ h, exec (.hcancel f) s = .next (({ s with cmds := s.cmds.map after } : State).setGroup s.cur h) ∧
        c.g.OnlyLanes h (c.after f fun _ t => t))

end

namespace Sys2Proof.Machine

open Sys2Proof

/-! ## Engine commands -/

/-- The seven instructions that issue a command to an engine: opcode, fields, and which field holds what (R247). -/
def engineOf : Instr → Option (Nat × Fields × EngForm)
  | .xcopy f => some (0xA0, f, ⟨.copy, true, (·.a), fun _ => false, (·.b), noOpnd⟩)
  | .xgath f => some (0xA1, f, ⟨.gather, true, (·.a), fun _ => false, noOpnd, (·.b)⟩)
  | .xscat f => some (0xA2, f, ⟨.scatter, true, (·.a), fun _ => false, noOpnd, (·.b)⟩)
  | .xfill f => some (0xA3, f, ⟨.fill, true, noOpnd, fun _ => false, (·.a), (·.b)⟩)
  | .xpub f => some (0xA4, f, ⟨.pub, false, (·.a), fun f => f.immBits 26 24 = 1, noOpnd, noOpnd⟩)
  | .coll f => some (0xA5, f, ⟨.coll, true, (·.a), fun f => f.immBits 26 24 % 2 = 1, (·.b), noOpnd⟩)
  | .cseq f => some (0xA6, f, ⟨.cseq, false, (·.a), fun _ => false, noOpnd, (·.b)⟩)
  | _ => none

/-- The checks of R247 pass for the command of a lane with this record: the record and every barrier object it names may be
accessed and their parts are in the core, and its coordinate registers lie in the window and are ready and sound. -/
structure State.IssueOk (s : State) (c : Ctx) (f : Fields) (e : EngForm) (l : Nat) (record : List Byte) : Prop where
  rec_ : e.hasRec = true → s.readRecord f l = (record, [])
  recThere : e.hasRec = true → recInScratch f = true → s.partSaved (scrPart (recAddr f)) = false
  none_ : e.hasRec = false → record = []
  bars : ∀ b ∈ s.issueBars e record (s.operand c.rd l f false f.c).toNat,
    (∃ p, s.place .scr true 5 l b 16 = .ok p) ∧ s.partSaved (scrPart b) = false
  window : coordTrap (e.coord f) (Shape.of record).ndim s.window l = []
  pend : (c.rd.thread l).pendIn (coordRegs (e.coord f) (Shape.of record).ndim) = []
  sound : s.poisonTrap l (coordRegs (e.coord f) (Shape.of record).ndim) = []

end Sys2Proof.Machine

section

open Sys2Proof Sys2Proof.Machine

/-- R247, R66, R27, R220, R261, R263: a command for each actor that is no helper is accepted, with the actor's operands,
its record and its coordinates, where every check passes and the engine of the core holds at most 64 commands with them.
The handle pair in D becomes pending on it in each taker; its bits are not defined. A helper's command is not performed
and its pair reads CANCELLED. Only a collective takes a sequence number: one alone takes its group's next. -/
def Obligations.EngineCommandsAreAccepted : Prop :=
  ∀ (i : Instr) (op : Nat) (f : Fields) (e : EngForm) (s : State) (c : Ctx) (r : BitVec 8) (b g u : Nat) (x : Block) (la : Launch)
    (record : Nat → List Byte), engineOf i = some (op, f, e) → s.CanRun c op f → s.redundant = false → f.d = .v r →
    s.cur = .unit b g u → s.block? b = some x → s.launchOf s.cur = some la →
    let does := (c.actors f).filter fun l => !(c.rd.thread l).helper
    (∀ l ∈ does, s.IssueOk c f e l (record l)) → s.tceLoad s.coreOfCur + does.length ≤ 64 →
    ∃ (qs : List Cmd) (n : Nat) (cx : List CtxBlock) (bits : Nat → DWord) (h : Group),
      exec i s = .next (({ s with cmds := s.cmds ++ qs, nextId := s.nextId + does.length, fresh := n, ctxs := cx } :
        State).setGroup s.cur h) ∧
      qs.length = does.length ∧
      (∀ k q, qs[k]? = some q →
        let l := does.getD k 0
        q = { id := s.nextId + k, kind := e.kind, core := x.coreOf g, block := b, part := x.partOf g, group := g
              lanes := maskOf (c.takers f l), ctx := la.ctx, launch := la.id, var := f.immBits 26 24
              hold := f.imm.getLsbD 23, record := record l, a := s.operand c.rd l f (e.wide f) (e.addr f)
              b := s.operand c.rd l f false (e.value f), bar := (s.operand c.rd l f false f.c).toNat
              coords := coordVals c.rd l (e.coord f) (Shape.of (record l)).ndim, state := .running, data := .empty
              read := [], code := 0, bytes := 0, failAt := 0, cancel := false, since := s.uptime, entry := q.entry, seq := q.seq
              hashes := q.hashes, matched := false, innet := false, tiles := q.tiles, shards := [] }) ∧
      (e.kind ≠ .coll → cx = s.ctxs ∧ ∀ q ∈ qs, q.entry = 0 ∧ q.seq = 0 ∧ q.hashes = [] ∧ q.tiles = []) ∧
      (∀ l y t z, e.kind = .coll → does = [l] → s.ctxs[la.ctx]? = some y → y.entryFor (Shape.of (record l)).group = some t →
        y.groups[t]? = some z →
        (∀ q ∈ qs, q.entry = t ∧ q.seq = z.next) ∧
          (cx[la.ctx]?.bind fun y => y.groups[t]?) = some { z with next := z.next + 1 }) ∧
      c.g.OnlyLanes h (c.afterMem f (fun _ => true) fun a k t =>
        if (c.rd.thread a).helper then t.withDst f.d true 9
        else
          let w := t.withDst f.d true (bits (s.nextId + does.idxOf a))
          { w with pend := w.pend ++ [⟨r.toNat, s.nextId + does.idxOf a, false⟩] })

end

namespace Sys2Proof.Machine

open Sys2Proof

/-! ## The life of a command -/

end Sys2Proof.Machine

section

open Sys2Proof Sys2Proof.Machine

/-- R92 to R95, R242, R250, R251: the events of a command's life have the effect they are given below, one for each clause. -/
def Obligations.CommandEventsHaveTheirEffect : Prop :=
  -- Up to 256 bytes of the source stream that have not been read and can be are read, with their cache lookups.
  (∀ (s : State) (id off len : Nat) (q : Cmd) (bytes : List Byte), s.running? id = some q → s.cmdThere q = true → 0 < len →
    len ≤ 256 → off + len ≤ q.total → bytes.length = len →
    (∀ k, k < len → q.knows (off + k) = true ∧ q.hasRead (off + k) 1 = false ∧ s.srcThere q (s.srcAt q (off + k)) = true ∧
      s.readSrc q (s.srcAt q (off + k)) = .ok (bytes.getD k 0)) →
      exec (.engineSourceRead id off len) s = .next
        ((s.touchSources q off len).updCmd id fun k => { k with data := k.data.setBytes off bytes, read := (off, len) ::
          k.read })) ∧
  -- A command whose source is read, and before which none on its buffer is still running, publishes what it writes and
  -- arrives with the number of bytes written.
  (∀ (s : State) (id : Nat) (q : Cmd), s.running? id = some q → s.cmdThere q = true → q.hold = false → q.kind ≠ .pub →
    q.kind ≠ .coll → q.hasRead 0 q.total = true → s.cmdCheck q = none → s.firstOnBuffer q = true →
    s.capHolds q.ctx (s.isPublish q q.bar) = false →
      exec (.enginePublish id) s = .next
        (((if q.kind = .copy ∧ q.var = 3 then s.writeFrame q (s.cmdWrites q) else s.publish (s.buffer q) (s.cmdWrites q)).endCmd
          q 0 (s.cmdWrites q).length true))) ∧
  -- The running commands of a set of which none has failed publish together, in the order of issue, each arriving with
  -- its bytes, and the XPUB completes.
  (∀ (s : State) (id : Nat) (q : Cmd) (set live : List Cmd), s.running? id = some q → s.cmdThere q = true → q.kind = .pub →
    s.cmdCheck q = none → set = s.holdSet q →
    (∀ k ∈ s.cmds, k.kind = .pub → k.id < q.id → k.state = .running → s.buffer k ≠ s.buffer q) → (∀ k ∈ set, k.code = 0) →
    (∀ k ∈ set, k.state = .running → s.holdWritten k = true) → live = set.filter (fun k => decide (k.state = .running)) →
    s.capHolds q.ctx (s.isPublish (live.head?.getD q) (live.head?.getD q).bar) = false →
      exec (.holdSetPublish id) s = .next
        ((live.foldl (fun t k => t.endCmd k 0 (s.cmdBytes k) true)
          (if live = [] then s else s.publish (s.buffer q) (live.flatMap s.cmdWrites))).endCmd q 0 0 true)) ∧
  -- A set of which a command has failed is abandoned, and the XPUB fails with the code of the first to fail (its own
  -- barrier included: notes/assumptions/74.md).
  (∀ (s : State) (id : Nat) (q k : Cmd), s.running? id = some q → s.cmdThere q = true → q.kind = .pub → s.cmdCheck q = none →
    (∀ k ∈ s.cmds, k.kind = .pub → k.id < q.id → k.state = .running → s.buffer k ≠ s.buffer q) → k ∈ s.holdSet q →
    k.code ≠ 0 → (∀ m ∈ s.holdSet q, m.code ≠ 0 → m ≠ k → k.failAt < m.failAt) → s.failWaits q k.code = false →
      exec (.holdSetPublish id) s = .next
        ((((s.holdSet q).filter fun k => decide (k.state = .running)).foldl (fun t k => t.endCmd k 6 0 true) s).endCmd
          q k.code 0 true)) ∧
  -- A command fails on its record, group or destination.
  (∀ (s : State) (id pos code : Nat) (q : Cmd), s.running? id = some q → s.cmdThere q = true → s.lossLater q = false →
    s.cmdCheck q = some code → s.failWaits q code = false →
      exec (.commandFail id pos) s = .next (s.failCmd q code none)) ∧
  -- A command fails on a byte of its source stream that cannot be read.
  (∀ (s : State) (id pos code : Nat) (q : Cmd), s.running? id = some q → s.cmdThere q = true → s.lossLater q = false →
    s.cmdCheck q = none → pos < q.total → q.knows pos = true → q.hasRead pos 1 = false → s.srcThere q (s.srcAt q pos) = true →
    s.readSrc q (s.srcAt q pos) = .error code → s.failWaits q code = false →
      exec (.commandFail id pos) s = .next (s.failCmd q code none)) ∧
  -- A command asked to cancel fails with CANCELLED.
  (∀ (s : State) (id : Nat) (q : Cmd), s.running? id = some q → s.cmdThere q = true → q.cancel = true →
    s.failWaits q 9 = false →
      exec (.commandCancel id) s = .next (s.failCmd q 9 none)) ∧
  -- Under replay a failure has no effect before its record is the next (the model's choice for events that no thread
  -- makes, notes/assumptions/82.md).
  (∀ (s : State) (id pos code : Nat) (q : Cmd), s.running? id = some q → s.cmdThere q = true → s.lossLater q = false →
    s.cmdCheck q = some code → s.failWaits q code = true →
      exec (.commandFail id pos) s = .next (s.capWait (s.failRecord q code)))

/-- R66, R94, R251: completion gives the command its code and BYTES, and leaves every other
command as it was; a failed command that is neither an XPUB nor a sharded collective does so, and completes no other. In a
thread, every pair pending on the command reads the code and BYTES and is pending no more, or after CANCELLED is in the
cancelled state; every other pair stays.
R92: publishing into a scratch buffer writes the bytes and no others of that scratchpad; publishing into a region of a
context, of which no replaced descriptor may still be used, makes, at once, every address of it read the published byte or the byte it showed before. -/
def Obligations.CommandsCompleteAndPublish : Prop :=
  (∀ (s : State) (q : Cmd) (code bytes : Nat),
    (∀ arrives, (s.endCmd q code bytes arrives).cmds = s.cmds.map fun k => if k.id = q.id then k.ended code bytes s.nextId else k) ∧
    (s.undone q.id = true → q.kind ≠ .pub → ¬ (q.kind = .coll ∧ q.shape.shard = true) →
      (s.failCmd q code none).cmds = s.cmds.map fun k => if k.id = q.id then k.ended code 0 s.nextId else k) ∧
    ∀ (t : Thread) (p : PendPair), p ∈ t.pend → p.cmd = q.id → p.cancelled = false → p.reg + 1 < t.v.length →
      (∀ r ∈ t.pend, r ≠ p → r.cmd = q.id → r.reg + 1 < p.reg ∨ p.reg + 1 < r.reg) → t.pend.Nodup →
      let u := t.complete q.id code bytes
      u.reg p.reg = BitVec.ofNat 32 code ∧ u.reg (p.reg + 1) = BitVec.ofNat 32 bytes ∧
        (code = 9 → ({ p with cancelled := true } : PendPair) ∈ u.pend) ∧
        (code ≠ 9 → ∀ r, r ∈ u.pend ↔ r ∈ t.pend ∧ (r.cmd ≠ q.id ∨ r.cancelled = true))) ∧
  (∀ (s : State) (ws : List (Nat × Byte)), s.memoriesWf = true →
    (∀ (b p j : Nat), (b = 0 ∨ ∃ k, (s.block? b).bind (·.part p) = some k) →
      ∀ a, ((s.publish (some (.scr b p j)) ws).scratchOf b p).byte a =
        match ws.reverse.find? fun w => scrOff w.1 = a with
        | some w => w.2
        | none => (s.scratchOf b p).byte a) ∧
    (∀ (ctx idx : Nat) (x : CtxBlock) (r : Region), s.ctxs[ctx]? = some x → x.desc.length = 128 →
      (∀ d ∈ x.oldDesc, d.1 ≠ idx) → (x.regions.find? fun y => y.idx = idx) = some r → (∀ w ∈ ws, r.base ≤ w.1) →
      (r.backing true + r.size ≤ r.backing false ∨ r.backing false + r.size ≤ r.backing true) →
      ∃ (y : CtxBlock) (q : Region), (s.publish (some (.reg ctx idx)) ws).ctxs[ctx]? = some y ∧
        (y.regions.find? fun z => z.idx = idx) = some q ∧ q.base = r.base ∧ q.size = r.size ∧
        q.backing true = r.backing false ∧
        ∀ k, k < r.size → (s.publish (some (.reg ctx idx)) ws).mem.byte (q.backing true + k) =
          match ws.reverse.find? fun w => w.1 = r.base + k with
          | some w => w.2
          | none => s.mem.byte (r.backing true + k)))

end

namespace Sys2Proof.Machine

open Sys2Proof

/-! ## Collectives -/

end Sys2Proof.Machine

section

open Sys2Proof Sys2Proof.Machine

/-- R97, R262 to R265, R406 to R408: the events of collective commands have the effect they are given below, one for each clause. -/
def Obligations.CollectiveEventsHaveTheirEffect : Prop :=
  -- With the hashes of all members, all equal, a command is matched; where every switch takes part a reduction runs in
  -- the network.
  (∀ (s : State) (id : Nat) (innet : Bool) (q : Cmd), s.running? id = some q → q.kind = .coll → q.matched = false →
    s.cmdThere q = true → s.cmdCheck q = none → s.capHolds q.ctx q.isMatch = false →
    (∀ l, l < q.shape.members → ∃ h ∈ q.hashes, h.1 = q.shape.gorg + l) →
    (∀ h ∈ q.hashes, q.shape.hasMember h.1 = true → h.2 = q.shape.hash) →
      exec (.collHashMatch id innet) s = .next
        (((s.updCmd id fun k => { k with matched := true, innet := innet && q.shape.rop ≠ 0 }).capAppend 3 q.ctx 0
          (leBytes 2 q.shape.group ++ [0, 0] ++ leBytes 4 q.seq.toNat ++ leBytes 4 (s.blkIdxOf q.block))).capMatch q.ctx q.isMatch)) ∧
  -- Where a member's hash differs the command fails with MISMATCH.
  (∀ (s : State) (id : Nat) (innet : Bool) (q : Cmd) (dev hash : Nat), s.running? id = some q → q.kind = .coll →
    q.matched = false → s.cmdThere q = true → s.cmdCheck q = none →
    (∀ l, l < q.shape.members → ∃ h ∈ q.hashes, h.1 = q.shape.gorg + l) → (dev, hash) ∈ q.hashes →
    q.shape.hasMember dev = true → hash ≠ q.shape.hash → s.failWaits q 5 = false →
      exec (.collHashMatch id innet) s = .next (s.failCmd q 5 none)) ∧
  -- A matched collective publishes what R262 has it write once every tile of its set is there.
  (∀ (s : State) (id : Nat) (q : Cmd) (tiles : List (List Byte)), s.running? id = some q → q.kind = .coll → q.matched = true →
    q.hold = false → q.shape.shard = false → s.cmdThere q = true → q.hasRead 0 q.total = true → s.cmdCheck q = none →
    s.firstOnBuffer q = true → s.capHolds q.ctx (s.isPublish q q.bar) = false → s.setTiles q = some tiles →
      exec (.enginePublish id) s = .next
        ((s.publish (s.buffer q) (s.collWrites q tiles)).endCmd q 0 (s.collWrites q tiles).length true)) ∧
  -- The shard of rank `j`, a tile of another member that is there, or this member's own once it is read, publishes on its
  -- own barrier.
  (∀ (s : State) (id j dev : Nat) (q : Cmd) (tile : List Byte), s.running? id = some q → q.kind = .coll →
    q.shape.shard = true → q.matched = true → s.cmdThere q = true → s.cmdCheck q = none →
    (q.shape.setOf s.fabric.devnum.toNat)[j]? = some dev → dev ≠ s.fabric.devnum.toNat → (∀ x ∈ q.shards, x.1 ≠ j) →
    s.shardLoss q dev = none → q.tiles.find? (fun t => t.1 = dev) = some (dev, tile) → s.firstOnBuffer q = true →
    s.capHolds q.ctx (s.isPublish q ((s.barsOf q).getD j 0)) = false →
      exec (.collShardPublish id j) s = .next (s.endShard q j 0 (layBytes (q.a.toNat + j * q.shape.dense) tile))) ∧
  (∀ (s : State) (id j : Nat) (q : Cmd), s.running? id = some q → q.kind = .coll → q.shape.shard = true → q.matched = true →
    s.cmdThere q = true → s.cmdCheck q = none → (q.shape.setOf s.fabric.devnum.toNat)[j]? = some s.fabric.devnum.toNat →
    (∀ x ∈ q.shards, x.1 ≠ j) → s.shardLoss q s.fabric.devnum.toNat = none → q.hasRead 0 q.shape.dense = true →
    s.firstOnBuffer q = true → s.capHolds q.ctx (s.isPublish q ((s.barsOf q).getD j 0)) = false →
      exec (.collShardPublish id j) s = .next
        (s.endShard q j 0 (layBytes (q.a.toNat + j * q.shape.dense) (q.bytesAt 0 q.shape.dense)))) ∧
  -- The shard of a member that has failed fails with its code.
  (∀ (s : State) (id j dev code : Nat) (q : Cmd), s.running? id = some q → q.kind = .coll → q.shape.shard = true →
    s.cmdThere q = true → s.cmdCheck q = none → (q.shape.setOf s.fabric.devnum.toNat)[j]? = some dev →
    (∀ x ∈ q.shards, x.1 ≠ j) → s.shardLoss q dev = some code →
    s.capHolds q.ctx (isPublished q.ctx (s.blkIdxOf q.block) ((s.barsOf q).getD j 0) code) = false →
      exec (.collShardPublish id j) s = .next (s.endShard q j code [])) ∧
  -- The failure of another member's command fails this member's with ABANDONED; with SHARD, or before this member has
  -- issued it, it is noted.
  (∀ (s : State) (ctx gid dev : Nat) (seq : Word) (q : Cmd), s.collOf ctx gid seq = some q → q.shape.hasMember dev = true →
    dev ≠ s.fabric.devnum.toNat → q.shape.shard = false → s.cmdThere q = true → s.failWaits q 6 = false →
      exec (.collMemberFailure ctx gid seq dev) s = .next (s.failCmd q 6 none)) ∧
  (∀ (s : State) (ctx gid dev : Nat) (seq : Word) (q : Cmd), s.collOf ctx gid seq = some q → q.shape.hasMember dev = true →
    dev ≠ s.fabric.devnum.toNat → q.shape.shard = true →
      exec (.collMemberFailure ctx gid seq dev) s = .next (s.noteLoss ctx gid seq 6 dev)) ∧
  (∀ (s : State) (ctx gid dev : Nat) (seq : Word), s.collOf ctx gid seq = none → s.unissued ctx gid seq = true →
    dev ≠ s.fabric.devnum.toNat →
      exec (.collMemberFailure ctx gid seq dev) s = .next (s.noteLoss ctx gid seq 6 dev)) ∧
  -- A member leaves: the group's commands fail with PEERLOST, and a group that is open closes with that member as the
  -- lost one.
  (∀ (s : State) (ctx gid dev e : Nat), s.groupEntry ctx gid = some e →
    (∀ q ∈ s.cmds, q.kind = .coll → q.ctx = ctx → s.failWaits q 7 = false) →
      exec (.collMemberLeaves ctx gid dev) s = .next
        (((s.cmds.filter fun q => decide (q.state = .running) && q.kind = .coll && q.ctx = ctx && q.entry = e && q.shape.group = gid
            ).foldl (fun s q => s.failCmd q 7 none) s).updCtx ctx fun x =>
          { x with groups := updAt x.groups e (fun g =>
            if g.closed then g else { g with closed := true, lost := BitVec.ofNat 32 dev }) })) ∧
  -- A flit of a scheduled context with an open group, an empty backlog ring and a command whose parts are in their cores
  -- goes to its command, and its sender is stalled no more.
  (∀ (s : State) (ctx gid dev hash : Nat) (seq : Word) (tile : List Byte) (x : CtxBlock), s.ctxs[ctx]? = some x →
    s.ctxScheduled ctx = true → (s.groupEntry ctx gid).isSome = true → (∀ g ∈ x.flits, g.held = 0) →
    (∀ q, s.collOf ctx gid seq = some q → s.cmdThere q = true) →
      exec (.collectiveFlitArrival ctx gid seq dev hash tile) s = .next
        (({ s with ctxs := setAt s.ctxs ctx { x.unstall ⟨gid, seq, dev, hash, tile, 0, 0⟩ with
          flits := x.flits.filter fun g => !(g.gid = gid && g.seq = seq && g.dev = dev) } } : State).deliver ctx
          ⟨gid, seq, dev, hash, tile, 0, 0⟩)) ∧
  -- Else as much of the tile as the backlog ring has room for is appended; the rest stays with its sender, who is stalled
  -- from its first such flit on. The spec gives no layout of the ring's bytes: a freely chosen 4 KiB unit of it takes
  -- free values (notes/assumptions/19.md).
  (∀ (s : State) (ctx gid dev hash room : Nat) (seq : Word) (tile : List Byte) (x : CtxBlock) (f : Flit),
    s.ctxs[ctx]? = some x →
    (s.ctxScheduled ctx = false ∨ s.groupEntry ctx gid = none ∨ (∃ g ∈ x.flits, 0 < g.held) ∨
      ∃ q, s.collOf ctx gid seq = some q ∧ s.cmdThere q = false) →
    x.bv = true → (∀ g ∈ x.flits, ¬ (g.gid = gid ∧ g.seq = seq ∧ g.dev = dev)) → room = 14 * x.blSize.toNat - x.used →
    0 < room → f = ⟨gid, seq, dev, hash, tile, 0, 0⟩ →
      exec (.collectiveFlitArrival ctx gid seq dev hash tile) s = .next
        { s.writeBacklog ctx with
          ctxs := setAt s.ctxs ctx (if f.size ≤ room then { x.unstall f with flits := x.flits ++ [{ f with held := f.size }] }
            else { x.stall f s.uptime with flits := x.flits ++ [{ f with held := room }] }) }) ∧
  -- The sender goes on with the rest of its tile when the ring has room again.
  (∀ (s : State) (ctx room : Nat) (x : CtxBlock) (f g : Flit) (pre post : List Flit), s.ctxs[ctx]? = some x →
    (s.ctxScheduled ctx = false ∨ s.groupEntry ctx g.gid = none ∨ (∃ g ∈ x.flits, 0 < g.held) ∨
      ∃ q, s.collOf ctx g.gid g.seq = some q ∧ s.cmdThere q = false) →
    x.bv = true → x.flits = pre ++ g :: post → (∀ k ∈ pre ++ post, ¬ (k.gid = g.gid ∧ k.seq = g.seq ∧ k.dev = g.dev)) →
    room = 14 * x.blSize.toNat - x.used → 0 < room → f = { g with held := g.held + min room (g.size - g.held - g.gone) } →
      exec (.collectiveFlitArrival ctx g.gid g.seq g.dev g.hash g.tile) s = .next
        { s.writeBacklog ctx with
          ctxs := setAt s.ctxs ctx (if f.size ≤ f.held + f.gone then { x.unstall f with flits := pre ++ f :: post }
            else { x.stall f s.uptime with flits := pre ++ f :: post }) }) ∧
  -- Without a ring, or with a full one, its sender is stalled.
  (∀ (s : State) (ctx gid dev hash : Nat) (seq : Word) (tile : List Byte) (x : CtxBlock), s.ctxs[ctx]? = some x →
    (s.ctxScheduled ctx = false ∨ s.groupEntry ctx gid = none ∨ (∃ g ∈ x.flits, 0 < g.held) ∨
      ∃ q, s.collOf ctx gid seq = some q ∧ s.cmdThere q = false) →
    (x.bv = false ∨ 14 * x.blSize.toNat ≤ x.used) → (∀ g ∈ x.flits, ¬ (g.gid = gid ∧ g.seq = seq ∧ g.dev = dev)) →
    (∀ k ∈ x.stalls, ¬ (k.1 = gid ∧ k.2.1 = seq ∧ k.2.2.1 = dev)) →
      exec (.collectiveFlitArrival ctx gid seq dev hash tile) s = .next
        { s with ctxs := setAt s.ctxs ctx { x with stalls := x.stalls ++ [(gid, seq, dev, s.uptime)] } }) ∧
  -- The oldest flits of a resumed context are replayed: a tile that is whole goes to its command, and of one that is not
  -- the hash.
  (∀ (s : State) (ctx : Nat) (x : CtxBlock) (f : Flit) (fs : List Flit), s.ctxs[ctx]? = some x → x.flits = f :: fs →
    0 < f.held → f.size ≤ f.held + f.gone → s.ctxScheduled ctx = true → (s.groupEntry ctx f.gid).isSome = true →
    (∀ q, s.collOf ctx f.gid f.seq = some q → s.cmdThere q = true) →
      exec (.backlogReplay ctx) s = .next
        (({ s with ctxs := setAt s.ctxs ctx { x with flits := fs } } : State).deliver ctx f)) ∧
  (∀ (s : State) (ctx : Nat) (x : CtxBlock) (f : Flit) (fs : List Flit), s.ctxs[ctx]? = some x → x.flits = f :: fs → f ∉ fs →
    0 < f.held → f.held + f.gone < f.size → s.ctxScheduled ctx = true → (s.groupEntry ctx f.gid).isSome = true →
    (∀ q, s.collOf ctx f.gid f.seq = some q → s.cmdThere q = true) →
      exec (.backlogReplay ctx) s = .next
        (({ s with ctxs := setAt s.ctxs ctx { x with flits := { f with held := 0, gone := f.gone + f.held } :: fs } } : State).deliver
          ctx { f with tile := [] })) ∧
  -- A stalled sender's command fails with BACKLOG; a sender stalled at this receiver for its BLTO makes the receiver's
  -- command fail with BACKLOG when its context resumes.
  (∀ (s : State) (ctx gid : Nat) (seq : Word) (q : Cmd), s.collOf ctx gid seq = some q → s.cmdThere q = true →
    s.failWaits q 8 = false →
      exec (.backlogTimeout true ctx gid seq) s = .next (s.failCmd q 8 none)) ∧
  (∀ (s : State) (ctx gid dev since : Nat) (seq : Word) (x : CtxBlock), s.ctxs[ctx]? = some x →
    (gid, seq, dev, since) ∈ x.stalls → since + 1000 * x.blTo ≤ s.uptime →
      exec (.backlogTimeout false ctx gid seq) s = .next
        { s with ctxs := setAt s.ctxs ctx { x with
        lostSeq := x.lostSeq ++ [(gid, seq, 8, s.fabric.devnum.toNat)]
        stalls := x.stalls.filter fun k => ¬ (k.1 = gid ∧ k.2.1 = seq) } }) ∧
  -- A reduction that a switch leaves is reduced at the endpoints.
  (∀ (s : State) (id : Nat) (q : Cmd), s.running? id = some q → q.innet = true →
      exec (.reductionSwitchLeaves id) s = .next (s.updCmd id fun k => { k with innet := false })) ∧
  -- V written to 1 opens a group in an entry of a context, with its sequence at 0: what has come for a group that was not
  -- open waits for it, and what was held for one that was is dropped.
  (∀ (s : State) (ctx : BitVec 6) (entry : BitVec 5) (gid : BitVec 16) (x y : CtxBlock) (g : CollGroup),
    s.ctxs[ctx.toNat]? = some x → x.groups[entry.toNat]? = some g → g.v = false → x.entryFor gid.toNat = none →
    (s.csr.pl = 2 ∨ s.tenantOf ctx.toNat = s.csr.part.toNat) →
    y = { x with groups := setAt x.groups entry.toNat ⟨true, false, gid, g.lost, 0, 0, 0⟩ } →
      exec (.collGroupOpen ctx entry gid) s = .next { s with ctxs := setAt s.ctxs ctx.toNat y }) ∧
  (∀ (s : State) (ctx : BitVec 6) (entry : BitVec 5) (gid : BitVec 16) (x y : CtxBlock) (g : CollGroup),
    s.ctxs[ctx.toNat]? = some x → x.groups[entry.toNat]? = some g → x.entryFor gid.toNat = some entry.toNat →
    (s.csr.pl = 2 ∨ s.tenantOf ctx.toNat = s.csr.part.toNat) →
    y = { x with
      groups := setAt x.groups entry.toNat ⟨true, false, gid, g.lost, 0, 0, 0⟩
      lostSeq := x.lostSeq.filter fun k => k.1 ≠ gid.toNat
      inbox := x.inbox.filter fun f => f.gid ≠ gid.toNat } →
      exec (.collGroupOpen ctx entry gid) s = .next { s with ctxs := setAt s.ctxs ctx.toNat y })

end

namespace Sys2Proof.Machine

open Sys2Proof

/-! ## Matrix -/

/-- The whole group of the current issuer stands at a matrix instruction that its low lane performs: no register that a lane
reads is pending, cancelled or poisoned, no failure of the partition's array stands, and, where the form counts, no thread
has 15 matrix instructions outstanding (R37, R69, R267). -/
structure State.MatrixReady (s : State) (c : Ctx) (h : Home) (op : Nat) (f : Fields) (rows : List Nat) (counted : Bool) : Prop where
  ctx : s.ctx? = some c
  home : s.home = some h
  whole : c.whole = true
  some_ : c.lanes ≠ []
  on : (c.rd.thread c.lowLane).guard f = true
  pend : ∀ l ∈ c.lanes, (c.rd.thread l).pendIn (rows ++ readRegs op f) = []
  sound : ∀ l ∈ c.lanes, ∀ regs : List Nat, (∀ r ∈ regs, r ∈ rows ++ readRegs op f) → s.poisonTrap l regs = []
  array : s.arrayTrap h c.lowLane = []
  room : counted = true → ∀ l ∈ c.rd.holders, (c.rd.thread l).mx < 15

/-- Every granule of a tile of `n` granules from `b` on is held by the group's block in its sector (R269). -/
def Home.HasTile (h : Home) (c : Ctx) (b n : Nat) : Prop := ∀ k, k < n → h.holds c.g.mxq (b + k) = true

/-- A matrix instruction that queues an operation: opcode, fields, the V rows it reads, whether it counts, its checks, and the
operation. -/
structure Queues where
  op      : Nat
  f       : Fields
  rows    : List Nat
  counted : Bool
  ok      : State → Ctx → Home → Prop
  queued  : State → Ctx → Home → MxOp

def queuesOf (i : Instr) : Option Queues :=
  match i with
  | .bldReg f => some ⟨0xB0, f, rowFrom f.a 16, true, fun s c _ => s.low32 c f f.b ≤ 3, fun s c h =>
      { mxOp c i (rowFrom f.a 16) true with slots := [4 * h.loc + s.low32 c f f.b], base := f.immBits 7 0 }⟩
  | .mmaq f => some ⟨0xB1, f, mxRows f, true,
      fun s c h =>
        (∀ l, (s.operand c.rd l f false f.b).toNat ≤ 3) ∧ h.HasTile c (s.low32 c f f.c) (mxGranules (mxN f)) ∧
          s.rel.poison = [],
      fun s c h => { mxOp c i (mxRows f) true with
        slots := (List.range 4).map fun q =>
          ((c.rd.holders.find? fun l => l / 8 = q).map fun l => (s.operand c.rd l f false f.b).toNat).getD 0
        base := s.low32 c f f.c, book := if mxTb f = .cb2 then h.part.codebook.bytes 0 1056 else [] }⟩
  | .acfree f => some ⟨0xB4, f, [], false,
      fun s c h => 1 ≤ s.low32 c f f.b ∧ s.low32 c f f.b ≤ 128 ∧ h.HasTile c (s.low32 c f f.a) (s.low32 c f f.b),
      fun s c _ => { mxOp c i [] false with base := s.low32 c f f.a, src := s.low32 c f f.b }⟩
  | .aczero f => some ⟨0xB5, f, [], false,
      fun s c h => 1 ≤ s.low32 c f f.b ∧ s.low32 c f f.b ≤ 128 ∧ h.HasTile c (s.low32 c f f.a) (s.low32 c f f.b),
      fun s c _ => { mxOp c i [] false with base := s.low32 c f f.a, src := s.low32 c f f.b }⟩
  | .acwr f => some ⟨0xB7, f, rowFrom f.a 8, true, fun s c h => h.HasTile c (s.low32 c f f.c + mxCol f / 32) 1,
      fun s c _ => { mxOp c i (rowFrom f.a 8) true with base := s.low32 c f f.c }⟩
  | .scacc f => some ⟨0xB8, f, rowFrom f.b 1, true,
      fun s c h => h.HasTile c (s.low32 c f f.c) 1 ∧ h.HasTile c (s.low32 c f f.a) 1 ∧ s.rel.poison = [],
      fun s c _ => { mxOp c i (rowFrom f.b 1) true with base := s.low32 c f f.c, src := s.low32 c f f.a }⟩
  | _ => none

/-- The threads after a matrix instruction of the group: each thread that takes part has one more outstanding where it
counts, and the unit moves on. -/
def Ctx.afterMx (c : Ctx) (counted : Bool) (run : Thread → Thread) (l : Nat) : Thread :=
  let t := if c.rd.holders.contains l then
      (let u := run (c.g.thread l); if counted then { u with mx := u.mx + 1 } else u)
    else c.g.thread l
  if l ∈ c.lanes then t.advance else t

end Sys2Proof.Machine

section

open Sys2Proof Sys2Proof.Machine

/-- R267, R269, R271, R272, R276, R278, R279: BLD from registers, MMAQ, ACFREE, ACZERO, ACWR and SCACC, where their slots
exist, their tiles are held and no word they read is poisoned, queue their operation with the rows as they are at issue,
and each thread counts it where the form counts. -/
def Obligations.MatrixInstructionsQueueTheirOperation : Prop :=
  ∀ (i : Instr) (s : State) (c : Ctx) (h : Home) (m : Queues), queuesOf i = some m →
    s.MatrixReady c h m.op m.f m.rows m.counted → m.ok s c h →
    ∃ g, exec i s = .next (s.setGroup s.cur g) ∧
      ({ c.g with mxq := c.g.mxq ++ [m.queued s c h] } : Group).OnlyLanes g (c.afterMx m.counted fun t => t)

/-- R271, R277, R280, R110: BLD from a scratchpad queues the bytes of the columns it reads. ACRD queues its read, takes
eight draws of the stochastic-rounding stream of each thread with .SR, and takes its destination from outstanding loads
and pending pairs (ZERO there discards the results: notes/assumptions/89.md). CBLD makes the image it reads the codebook
of its core part at once. The ranges are aligned, in the scratchpad, in the core, and not in a hidden half; nothing read
is poisoned. -/
def Obligations.MatrixLoadsAndReads : Prop :=
  ∀ (f : Fields) (s : State) (c : Ctx) (h : Home) (p o : Nat), s.rel.poison = [] → s.partSaved p = false →
    (s.MatrixReady c h 0xB0 f [] false → s.low32 c f f.b ≤ 3 →
      s.mxScratch c.lowLane (s.low32 c f f.a) (64 * f.immBits 16 8) 64 = .ok (p, o) →
      (∀ k, k < 8 * f.immBits 16 8 → s.hiddenHalf (o + 8 * k) 8 = false) →
      ∃ g, exec (.bld f) s = .next (s.setGroup s.cur g) ∧
        ({ c.g with mxq := c.g.mxq ++ [{ mxOp c (.bld f) [] false with
          slots := [4 * h.loc + s.low32 c f f.b], base := f.immBits 7 0, src := f.immBits 16 8
          bdata := Memory.empty.setBytes 0 ((List.range (8 * f.immBits 16 8)).flatMap fun k =>
            leBytes 8 ((s.scratch p).read (o + 8 * k) 8)) }] } : Group).OnlyLanes g (c.afterMx false fun t => t)) ∧
    (s.MatrixReady c h 0xB6 f [] true → h.HasTile c (s.low32 c f f.a + mxCol f / 32) 1 →
      let dst := if f.d = .zero then [] else rowFrom f.d (acrdRegs f.ty)
      ∃ g, exec (.acrd f) s = .next (s.setGroup s.cur g) ∧
        ({ c.g with mxq := c.g.mxq ++ [{ mxOp c (.acrd f) [] true with
          base := s.low32 c f f.a, zs := (List.range 32).map fun l => (c.rd.thread l).z }] } : Group).OnlyLanes g
            (c.afterMx true fun t => { t with
              z := if f.rnd = 5 then srSteps t.z 8 else t.z
              ld := t.ld.map fun o => { o with regs := o.regs.filter fun r => !dst.contains r.1 }
              pend := t.pend.filter fun q => !(dst.contains q.reg || dst.contains (q.reg + 1)) })) ∧
    (s.MatrixReady c h 0xB9 f [] false → s.mxScratch c.lowLane (s.low32 c f f.a) 1056 8 = .ok (p, o) →
      (∀ k, k < 132 → s.hiddenHalf (o + 8 * k) 8 = false) →
      ∃ g, exec (.cbld f) s = .next ((s.updPart h.blk.id h.pnum fun p' => { p' with
          codebook := Memory.empty.setBytes 0 ((List.range 132).flatMap fun k =>
            leBytes 8 ((s.scratch p).read (o + 8 * k) 8)) }).setGroup s.cur g) ∧
        c.g.OnlyLanes g (c.afterMx false fun t => t))

/-- R273: the first three groups of an MMAS rendezvous park on their sector and tag; with the fourth of one form every group
has the operation, to be performed together, counted in the threads of the fourth, which moves on with the parked ones, and
the rendezvous is over. -/
def Obligations.MmasMeetsInFours : Prop :=
  ∀ (f : Fields) (s : State) (c : Ctx) (h : Home), s.MatrixReady c h 0xB2 f (mxRows f) true → s.rel.poison = [] →
    s.low32 c f f.b ≤ 3 → h.HasTile c (s.low32 c f f.c) (mxGranules (mxN f)) →
    let tag := f.immBits 23 16
    let mates := h.blk.mmas.filter fun x => x.part = h.pnum && x.sector = h.sector && x.tag = tag
    let op : MxOp := { mxOp c (.mmas f) (mxRows f) true with
      slots := [s.low32 c f f.b], base := s.low32 c f f.c, book := if mxTb f = .cb2 then h.part.codebook.bytes 0 1056 else [] }
    (∀ x ∈ mates, x.place ≠ h.loc % 4) →
    (mates.length < 3 →
      ∃ g, exec (.mmas f) s = .next ((s.updBlock h.blk.id fun x => { x with mmas := x.mmas ++ [
          { part := h.pnum, sector := h.sector, tag, place := h.loc % 4, group := h.grp, op }] }).setGroup s.cur g) ∧
        c.g.OnlyLanes g fun l => if l ∈ c.lanes then { c.g.thread l with status := .parked (.mmas h.sector tag) } else c.g.thread l) ∧
    (3 ≤ mates.length → (∀ x ∈ mates, ∃ k, x.op.instr = .mmas k ∧ k.ty = f.ty ∧ k.immBits 15 0 = f.immBits 15 0) →
      (∀ x ∈ mates, x.group ≠ h.grp) →
      ∃ t b, exec (.mmas f) s = .next t ∧ t.cmds = s.cmds ∧ t.mem = s.mem ∧ t.csr = s.csr ∧ t.block? h.blk.id = some b ∧
          b.mmas = h.blk.mmas.filter (fun x => !(x.part = h.pnum && x.sector = h.sector && x.tag = tag)) ∧
          b.parts = h.blk.parts ∧
          (∃ g, b.groups[h.grp]? = some g ∧
            ({ c.g with mxq := c.g.mxq ++ [{ op with meet := s.nextId, ready := false }] } : Group).OnlyLanes g
              (c.afterMx true fun t => t)) ∧
          ∀ x ∈ mates, (∀ y ∈ mates, y ≠ x → y.group ≠ x.group) → h.blk.mmas.Nodup →
            (∃ g, h.blk.groups[x.group]? = some g) →
            ∃ g, b.groups[x.group]? = some g ∧ g.mxq.getLast? = some { x.op with meet := s.nextId, ready := false })

end

namespace Sys2Proof.Machine

open Sys2Proof

/-! ## Accumulators -/

end Sys2Proof.Machine

section

open Sys2Proof Sys2Proof.Machine

/-- R274, R275: ACALLOC of 1 to 128 granules within the ceiling takes the lowest free run at once, where there is one and no
older request waits: D is its first granule (ZERO discards it, R56, R244: notes/assumptions/89.md). Else its group parks and
its request waits. (While an ACFREE of the group is queued it waits its turn, R267.) Beyond the ceiling it traps with
ACMCEIL. R275, R340: the events of the allocator have the effect they are given below, one for each clause. -/
def Obligations.AccumulatorsAreAllocated : Prop :=
  (∀ (f : Fields) (s : State) (c : Ctx) (h : Home), s.MatrixReady c h 0xB3 f [] false →
    let n := s.low32 c f f.a
    let held := (h.part.held.filter fun x => x.1 ≠ h.sector || h.holds c.g.mxq x.2).length
    let older := ∃ r ∈ s.acmReqs, s.reqWaits h.part.core h.sector r = true ∧ (r.age < h.blk.age ∨ r.block = h.blk.id)
    let run := acmRun (s.acmTaken h.part.core h.sector true) n
    1 ≤ n → n ≤ 128 →
    (h.run.acmCeil < held + n → exec (.acalloc f) s = .next (s.takeTrap (mkTrap .acmCeil 16 c.lowLane
      (n % 2 ^ 8 + held % 2 ^ 8 * 2 ^ 8 + h.run.acmCeil % 2 ^ 8 * 2 ^ 16)))) ∧
    (held + n ≤ h.run.acmCeil → c.g.freeing = false → ¬ older → ∀ b, run = some b → ∃ g,
      exec (.acalloc f) s = .next ((s.giveGranules h.blk.id h.pnum h.part.core h.sector ((List.range n).map (b + ·)) true).setGroup
        s.cur g) ∧
      ({ c.g with s := withS c.g.s f.d false (BitVec.ofNat 64 b) } : Group).OnlyLanes g
        fun l => if l ∈ c.lanes then (c.g.thread l).advance else c.g.thread l) ∧
    (held + n ≤ h.run.acmCeil → c.g.freeing = false → older ∨ run = none → ∃ g,
      exec (.acalloc f) s = .next (({ s with
        nextId := s.nextId + 1
        acmReqs := s.acmReqs ++ [{ id := s.nextId, block := h.blk.id, age := h.blk.age, part := h.pnum, sector := h.sector
                                   exact := none, count := n, group := h.grp
                                   dst := match f.d with | .s d => some d.val | _ => none }] } : State).setGroup s.cur g) ∧
      c.g.OnlyLanes g fun l =>
        if l ∈ c.lanes then { c.g.thread l with status := .parked (.acm s.nextId) } else c.g.thread l)) ∧
  -- The oldest waiting request is met: an ACALLOC's group gets its base and moves on; a return gets the granules it had.
  (∀ (s : State) (core sector : Nat) (r : AcmReq) (b : Nat) (t : State), s.oldestReq core sector = some r → r.exact = none →
    acmRun (s.acmTaken core sector true) r.count = some b →
    t = (({ s with acmReqs := s.acmReqs.filter fun x => x.id ≠ r.id } : State).giveGranules r.block r.part core sector
      ((List.range r.count).map (b + ·)) true).updGroup (.unit r.block r.group 0) (fun g =>
        { g with s := setOpt g.s r.dst (BitVec.ofNat 32 b) }) →
      exec (.acmGrant core sector) s = .next
        (t.wake (.unit r.block r.group 0) (match t.groupOf (.unit r.block r.group 0) with
        | some g => (List.range 32).filter fun l => (g.thread l).status = .parked (.acm r.id)
        | none => []) fun _ t => t.advance)) ∧
  (∀ (s : State) (core sector : Nat) (r : AcmReq) (gs : List Nat), s.oldestReq core sector = some r → r.exact = some gs →
    (∀ g ∈ gs, g ∉ s.acmTaken core sector true) →
      exec (.acmGrant core sector) s = .next
        (({ s with acmReqs := s.acmReqs.filter fun x => x.id ≠ r.id } : State).giveGranules
        r.block r.part core sector gs false)) ∧
  -- The youngest younger block is evicted for a request that fails without its granules and is met with them.
  (∀ (s : State) (core sector b age part : Nat) (r : AcmReq) (x : Block), s.oldestReq core sector = some r →
    r.fits (s.acmTaken core sector false) = false → r.fits (s.acmOlder core sector r.age) = true →
    s.victim core sector r.age = some (b, age, part) → s.block? b = some x → x.mxQuiet part sector = true →
      exec (.acmEvict core sector) s = .next (s.evict b age part core sector)) ∧
  -- Spilled granules are written to the part's spill area, where the save slot does not fault: neither the area's place
  -- in the slot nor the form of its contents is stated, so the place is freely chosen and the contents are free values
  -- (notes/assumptions/48.md).
  (∀ (s : State) (b part sector : Nat) (x : Block) (p : Part), s.block? b = some x → x.part part = some p →
    p.spillDue sector = true → s.slotFault x true = none →
      exec (.acmSpillDone b part sector) s = .next
        ((s.fillSpill x part sector).updPart b part fun p => { p with
          spilled := p.spilled.map fun e => (e.1, e.2.1, e.2.2 || decide (e.1 = sector)) })) ∧
  -- Granules that are held again are read back, and the block waits for them no longer.
  (∀ (s : State) (b part sector : Nat) (x : Block) (p : Part), s.block? b = some x → x.part part = some p →
    (∀ y ∈ s.blocks, y.id = b → y = x) → p.state = .resident → s.slotFault x false = none →
      exec (.acmRestore b part sector) s = .next
        (s.updPart b part fun p => { p with
        spilled := p.spilled.filter fun e => ¬ (e.1 = sector ∧ e.2.2 = true ∧ ∀ g ∈ e.2.1, (e.1, g) ∈ p.held) }))

end

namespace Sys2Proof.Machine

open Sys2Proof

/-! ## Completions -/

end Sys2Proof.Machine

section

open Sys2Proof Sys2Proof.Machine

/-- R31, R69, R70, R100, R204, R273, R282, R283: completions have the effect they are given below, one for each clause. -/
def Obligations.CompletionsHaveTheirEffect : Prop :=
  -- Load `i` of a thread writes its registers and is outstanding no more; an older load of one of them is discarded
  -- there, as is a queued matrix result for one of them.
  (∀ (s : State) (b g l i : Nat) (x : Group) (o : LoadOut), s.groupOf (issuerOf b g) = some x → (x.thread l).ld[i]? = some o →
    l < x.threads.length →
      exec (.loadComplete b g l i) s = .next
        (s.setGroup (issuerOf b g) { x with
          threads := setAt x.threads l { x.thread l with
            v := o.regs.foldl (fun v r => setAt v r.1 r.2) (x.thread l).v
            ld := ((x.thread l).ld.take i).map (fun e => { e with regs := e.regs.filter fun r => o.regs.all fun q => q.1 ≠ r.1 })
              ++ (x.thread l).ld.drop (i + 1) }
          mxq := x.mxq.map fun m => { m with lost := o.regs.map (fun r => (l, r.1)) ++ m.lost } })) ∧
  -- The oldest store of a thread takes its place; one to a SYSTEM page is seen by the host.
  (∀ (s : State) (b g l : Nat) (x : Group) (o : Option SysStore) (os : List (Option SysStore)),
    s.groupOf (issuerOf b g) = some x → (x.thread l).st = o :: os → l < x.threads.length →
      exec (.storePerformed b g l) s = .next
        (({ s with hostMem := (o.map fun y => s.hostMem.write y.addr y.size y.val.toNat).getD s.hostMem } : State).setGroup
          (issuerOf b g) { x with threads := setAt x.threads l { x.thread l with st := os } })) ∧
  -- The oldest matrix operation of a group has its effect, and its threads one less outstanding. Its free values are
  -- drawn for the context of its block (R9).
  (∀ (s : State) (b g : Nat) (h : Home) (x : Group) (o : MxOp) (os : List MxOp), s.homeOf b g = some h →
    s.groupOf (.unit b g 0) = some x → x.mxq = o :: os → o.ready = true →
      exec (.matrixComplete b g) s = .next ((s.drawForBlock b).mxFinish h o)) ∧
  -- The first group of an MMAS whose four groups have all reached it: the slots are read for all of them.
  (∀ (s : State) (b g : Nat) (h : Home) (x y : Group) (o o1 : MxOp) (os os1 : List MxOp) (u : State), s.homeOf b g = some h →
    s.groupOf (.unit b g 0) = some x → x.mxq = o :: os → o.ready = false → (s.drawForBlock b).mmasRead h o = some u →
    u.groupOf (.unit b g 0) = some y → y.mxq = o1 :: os1 →
      exec (.matrixComplete b g) s = .next (u.mxFinish h o1)) ∧
  -- The oldest unit that waits for a set of a partition is placed there.
  (∀ (s : State) (core part set : Nat) (p : Placed) (g : Group) (us : List IssueUnit) (v : IssueUnit),
    p ∈ s.placedAt core part → p.unit.waitsAt set = true →
    (∀ q ∈ s.placedAt core part, q.unit.waitsAt set = true → q ≠ p → p.unit.stamp < q.unit.stamp) →
    s.groupOf (.unit p.block p.group p.idx) = some g →
    us = placeUnit (s.others (.unit p.block p.group p.idx)) p.launch p.block p.group (g.units.eraseIdx p.idx)
      { p.unit with stamp := if p.unit.aged then p.unit.stamp else s.clockOf (.unit p.block p.group p.idx) } true →
    us.getLast? = some v → v.way ≠ none →
      exec (.unitTakesFreedWay core part set) s = .next (s.setGroup (.unit p.block p.group p.idx) { g with units := us })) ∧
  -- 64 pclk after its YIELD a unit is held no more, and is made ready at its IP.
  (∀ (s : State) (b g u since : Nat) (iss : Issuer) (x : Group) (v : IssueUnit),
    iss = (if b = 0 then .mgmt else .unit b g u) → s.groupOf iss = some x → x.units[u]? = some v → v.held = some since →
    since + 64 ≤ s.clockOf iss →
      exec (.yieldHoldEnd b g u) s = .next
        (s.setGroup iss { x with
        units := placeUnit (s.others iss) (((s.launchOf iss).map (·.id)).getD 0) b g (x.units.eraseIdx u)
          { v with held := none, stamp := s.clockOf iss } false })) ∧
  -- A ballast request and a shunt reservation end at their time.
  (∀ (s : State) (b g : Nat) (x : Block) (y : Group) (r : BurnReq), s.block? b = some x → (∀ z ∈ s.blocks, z.id = b → z = x) →
    x.groups[g]? = some y → y.burn = some r → r.expiry ≤ s.ftime →
      exec (.ballastRequestExpiry b g) s = .next
        (s.updBlock b fun z => { z with groups := setAt z.groups g { y with burn := none } })) ∧
  (∀ (s : State) (b g : Nat) (x : Block) (y : Group) (r : BurnReq), s.block? b = some x → (∀ z ∈ s.blocks, z.id = b → z = x) →
    x.groups[g]? = some y → y.shunt = some r → r.expiry ≤ s.ftime →
      exec (.shuntReservationExpiry b g) s = .next
        (s.updBlock b fun z => { z with groups := setAt z.groups g { y with shunt := none } }))

end

namespace Sys2Proof.Machine

open Sys2Proof

/-- The oldest queued operation `o` of group `g` of block `b`, at home `h`; `x` is the group, `os` what is queued after it. -/
structure State.OldestMx (s : State) (b g : Nat) (h : Home) (x : Group) (o : MxOp) (os : List MxOp) : Prop where
  home : s.homeOf b g = some h
  group : s.groupOf (.unit b g 0) = some x
  queue : x.mxq = o :: os
  lanes : ∀ l ∈ lanesOf o.lanes, l < x.threads.length
  columns : o.bdata.wf = true
  memories : s.memoriesWf = true

/-- R69: the completion of a group's oldest operation leaves its core part `p` and its group `y`, whose queue is one shorter and
whose threads that counted the operation count one less. -/
def State.MxLeaves (s : State) (b g : Nat) (h : Home) (x : Group) (o : MxOp) (os : List MxOp) (p : Part) (y : Group) : Prop :=
  ∃ t, exec (.matrixComplete b g) s = .next t ∧ ((t.block? b).bind fun z => z.part h.pnum) = some p ∧
    t.groupOf (.unit b g 0) = some y ∧ y.mxq = os ∧
    ∀ l, (y.thread l).mx = (x.thread l).mx - (if o.counted = true ∧ l ∈ lanesOf o.lanes then 1 else 0)

/-- A completion changed nothing of the group's threads but their counts. -/
def Group.OnlyCounts (x y : Group) : Prop := ∀ l, y.thread l = { x.thread l with mx := (y.thread l).mx }

end Sys2Proof.Machine

section

open Sys2Proof Sys2Proof.Machine

/-- R272, R269, R270, R119: an MMAQ that completes while its A registers are as it issued replaces each element of its tile,
in the row of each thread that takes part, by the accumulation of that row of A with the column of its quarter's B slot on
the old element, and changes no other accumulator.
R267, R271, R273, R276 to R279: what the queued operations other than MMAQ do when they complete, while the V registers that they
read are as they issued. BLD fills the columns of its slot, with the bytes read from scratch or, in the register form, with the
registers of each lane, zeros where it holds no thread. MMAS updates its tile from the columns broadcast; the group that completes
first of the four reads them, each quarter of them from the slot that its partition's group supplies. ACZERO zeroes its granules, and
ACFREE releases them too. ACWR writes eight registers of each lane to its row. SCACC adds the scaled partial granule, rounded once. ACRD
packs eight converted elements of each lane's row into its registers, but for those written since. Nothing else of the slots, the
accumulators and the registers changes. -/
def Obligations.MatrixProductsUpdateTheTile : Prop :=
  (∀ (f : Fields) (s : State) (b g : Nat) (h : Home) (x : Group) (o : MxOp) (os : List MxOp),
     s.homeOf b g = some h → s.groupOf (.unit b g 0) = some x → x.mxq = o :: os → o.ready = true → o.instr = .mmaq f →
     s.memoriesWf = true → (∀ l ∈ lanesOf o.lanes, o.rows.getD l [] = (x.thread l).row (mxRows f)) →
     ∃ t p, exec (.matrixComplete b g) s = .next t ∧ ((t.block? b).bind fun y => y.part h.pnum) = some p ∧
       (∀ l ∈ lanesOf o.lanes, ∀ c, c < mxN f →
         p.acm.read (acmAt h.sector o.base l c) 4 =
           mxElem f h.run.nbv o.book (fun k => rowElem f.ty.width ((x.thread l).row (mxRows f)) k)
             (h.part.bslots.read ((4 * h.loc + o.slots.getD (l / 8) 0) * 16384 + 64 * c) 64)
             (h.part.acm.read (acmAt h.sector o.base l c) 4) % 2 ^ 32) ∧
       ∀ a, (∀ l ∈ lanesOf o.lanes, ∀ c, c < mxN f → a < acmAt h.sector o.base l c ∨ acmAt h.sector o.base l c + 4 ≤ a) →
         p.acm.byte a = h.part.acm.byte a) ∧
  ∀ (s : State) (b g : Nat) (h : Home) (x : Group) (o : MxOp) (os : List MxOp), s.OldestMx b g h x o os →
    let lanes := lanesOf o.lanes
    let leaves (q : Part → Group → Prop) : Prop := ∃ p y, s.MxLeaves b g h x o os p y ∧ q p y
    let slot := o.slots.headD 0 * 16384 + 64 * o.base
    let asIssued (regs : List Nat) : Prop := ∀ l ∈ lanes, o.rows.getD l [] = (x.thread l).row regs
    let at_ (l c : Nat) : Nat := acmAt h.sector o.base l c
    let old (l c : Nat) : Nat := h.part.acm.read (at_ l c) 4
    -- BLD, scratch form
    (∀ f, o.instr = .bld f → o.ready = true → leaves fun p y =>
      p = { h.part with bslots := p.bslots } ∧ x.OnlyCounts y ∧
      (∀ k, k < 64 * o.src → p.bslots.byte (slot + k) = o.bdata.byte k) ∧
      ∀ a, (a < slot ∨ slot + 64 * o.src ≤ a) → p.bslots.byte a = h.part.bslots.byte a) ∧
    -- BLD, register form
    (∀ f, o.instr = .bldReg f → o.ready = true → asIssued (rowFrom f.a 16) → leaves fun p y =>
      p = { h.part with bslots := p.bslots } ∧ x.OnlyCounts y ∧
      (∀ l w, l < 32 → w < 16 → p.bslots.read (slot + 64 * l + 4 * w) 4 =
        if l ∈ lanes then ((x.thread l).reg (f.a.vNum + w)).toNat else 0) ∧
      ∀ a, (a < slot ∨ slot + 64 * 32 ≤ a) → p.bslots.byte a = h.part.bslots.byte a) ∧
    -- MMAS, its columns read
    (∀ f, o.instr = .mmas f → o.ready = true → asIssued (mxRows f) → leaves fun p y =>
      p = { h.part with acm := p.acm } ∧ x.OnlyCounts y ∧
      (∀ l ∈ lanes, ∀ c, c < mxN f → p.acm.read (at_ l c) 4 =
        mxElem f h.run.nbv o.book (fun k => rowElem f.ty.width ((x.thread l).row (mxRows f)) k) (o.bdata.read (64 * c) 64)
          (old l c) % 2 ^ 32) ∧
      ∀ a, (∀ l ∈ lanes, ∀ c, c < mxN f → a < at_ l c ∨ at_ l c + 4 ≤ a) → p.acm.byte a = h.part.acm.byte a) ∧
    -- MMAS, the first of its four groups to complete
    (∀ (f : Fields) (k : Nat → Nat) (q : Nat → MxOp), o.instr = .mmas f → o.ready = false → asIssued (mxRows f) → mxN f % 4 = 0 →
      mxN f ≤ 1024 → (∀ e ∈ os, e.meet ≠ o.meet) →
      (∀ i, i < 4 → h.blk.partitionOf (k i) = 4 * h.sector + i ∧
        ((h.blk.groups[k i]?).bind fun z => z.mxq.head?) = some (q i) ∧ (q i).meet = o.meet) →
      (∀ j z e, h.blk.groups[j]? = some z → z.mxq.head? = some e → e.meet = o.meet → ∃ i, i < 4 ∧ j = k i) →
      let quarter := mxN f / 4
      leaves fun p y =>
        p = { h.part with acm := p.acm } ∧ x.OnlyCounts y ∧
        (∀ l ∈ lanes, ∀ c, c < mxN f → p.acm.read (at_ l c) 4 =
          mxElem f h.run.nbv o.book (fun k => rowElem f.ty.width ((x.thread l).row (mxRows f)) k)
            (h.part.bslots.read
              ((4 * (4 * h.sector + c / quarter) + (q (c / quarter)).slots.headD 0) * 16384 + 64 * (c % quarter)) 64)
            (old l c) % 2 ^ 32) ∧
        ∀ a, (∀ l ∈ lanes, ∀ c, c < mxN f → a < at_ l c ∨ at_ l c + 4 ≤ a) → p.acm.byte a = h.part.acm.byte a) ∧
    -- ACZERO and ACFREE
    (∀ f, (o.instr = .aczero f ∨ o.instr = .acfree f) → o.ready = true → leaves fun p y =>
      let lo := h.sector * 2 ^ 19 + o.base * 4096
      p = { h.part with acm := p.acm, held := p.held } ∧ x.OnlyCounts y ∧
      (∀ a, p.acm.byte a = if lo ≤ a ∧ a < lo + o.src * 4096 then 0 else h.part.acm.byte a) ∧
      (o.instr = .aczero f → p.held = h.part.held) ∧
      (o.instr = .acfree f → ∀ e, e ∈ p.held ↔ e ∈ h.part.held ∧ ¬ (e.1 = h.sector ∧ o.base ≤ e.2 ∧ e.2 < o.base + o.src))) ∧
    -- ACWR
    (∀ f, o.instr = .acwr f → o.ready = true → asIssued (rowFrom f.a 8) → leaves fun p y =>
      p = { h.part with acm := p.acm } ∧ x.OnlyCounts y ∧
      (∀ l ∈ lanes, ∀ e, e < 8 → p.acm.read (at_ l (mxCol f + e)) 4 = ((x.thread l).reg (f.a.vNum + e)).toNat) ∧
      ∀ a, (∀ l ∈ lanes, ∀ e, e < 8 → a < at_ l (mxCol f + e) ∨ at_ l (mxCol f + e) + 4 ≤ a) → p.acm.byte a = h.part.acm.byte a) ∧
    -- SCACC
    (∀ f, o.instr = .scacc f → o.ready = true → asIssued (rowFrom f.b 1) →
      let scales (l : Nat) : Nat := if l ∈ lanes then ((x.thread l).reg f.b.vNum).toNat else 0x7F7F
      leaves fun p y =>
        p = { h.part with acm := p.acm } ∧ x.OnlyCounts y ∧
        (∀ l ∈ lanes, ∀ c, c < 32 →
          let sa := bits (scales l) 7 0
          let sb := bits (scales c) 15 8
          let partial_ := unpack (fmtOf .f32) (h.part.acm.read (acmAt h.sector o.src l c) 4)
          p.acm.read (at_ l c) 4 =
            (if sa = 255 ∨ sb = 255 then (fmtOf .f32).nan
            else roundVal (fmtOf .f32) 0 false 0
              ((unpack (fmtOf .f32) (old l c)).add 0 ((partial_.scale ((sa : Int) - 127)).scale ((sb : Int) - 127)))) % 2 ^ 32) ∧
        ∀ a, (∀ l ∈ lanes, ∀ c, c < 32 → a < at_ l c ∨ at_ l c + 4 ≤ a) → p.acm.byte a = h.part.acm.byte a) ∧
    -- ACRD
    (∀ f, o.instr = .acrd f → o.ready = true → (f.d ≠ .zero → ∀ l ∈ lanes, f.d.vNum + acrdRegs f.ty ≤ (x.thread l).v.length) →
      let element (l e : Nat) : Nat :=
        (convert f.ty (Ty.ofCode (BitVec.ofNat 4 (f.immBits 3 0))) f.rnd.toNat f.flag (srSteps (o.zs.getD l 0) (e + 1)).toNat
          (BitVec.ofNat 64 (old l (mxCol f + e)))).toNat % 2 ^ f.ty.width
      let packed (l : Nat) : Nat := (List.range 8).foldl (fun n e => n + element l e * 2 ^ (f.ty.width * e)) 0
      leaves fun p y =>
        p = h.part ∧ (∀ l, y.thread l = { x.thread l with mx := (y.thread l).mx, v := (y.thread l).v }) ∧
        ∀ l r, (y.thread l).reg r =
          if f.d ≠ .zero ∧ l ∈ lanes ∧ f.d.vNum ≤ r ∧ r < f.d.vNum + acrdRegs f.ty ∧ (l, r) ∉ o.lost then
            BitVec.ofNat 32 (packed l / 2 ^ (32 * (r - f.d.vNum)))
          else (x.thread l).reg r)

end

namespace Sys2Proof.Machine

open Sys2Proof

/-! ## The pin unit, and accesses of other agents -/

end Sys2Proof.Machine

section

open Sys2Proof Sys2Proof.Machine

/-- R74, R97, R98, R102, R230 to R232, R349, R396, R400, R401: the pin unit, page walks, other devices and the host do what
is given below, one for each clause.
R231, R232: an append into a ring that has room stores the name at the entry that HEAD names and advances HEAD, in one
event with one arrival on the barrier of the RECLAIM, which is dropped once its block has retired, and takes the name off the
list (R353: of a list that has not been moved since). -/
def Obligations.OtherAgentsHaveTheirEffect : Prop :=
  -- A search ends: FREE where no pin holds the name, DEFERRED with an entry of the list, or BUSY where that is full. The
  -- pins of other devices count in a domain search that asked one. The spec gives no layout of the list's bytes, and
  -- writing it makes a freely chosen unit of it free values (notes/assumptions/19.md).
  (∀ (s : State) (id remote code : Nat) (q : Search) (u t : State), s.searches.find? (fun x => x.id = id) = some q →
    u = { (if code = 1 then s.writeDeferred q.ctx else s) with
      searches := s.searches.filter fun x => x.id ≠ id
      deferred := if code = 1 then s.deferred ++ [{ ctx := q.ctx, name := q.name, pins := q.found
                                                    remote := if q.domain ∧ q.asked ≠ [] then remote else 0, ring := q.ring
                                                    block := q.block, bar := q.bar, order := 0, faulted := false
                                                    moved := false }] else s.deferred } →
    code = (if q.found = [] ∧ (q.domain = false ∨ q.asked = [] ∨ remote = 0) then 0
      else if ((s.ctxs[q.ctx]?).map (·.defCap.toNat)).getD 0 ≤ (s.deferred.filter fun d => d.ctx = q.ctx).length then 2
      else 1) →
    t = u.updGroup (issuerOf q.block q.group) (fun g => (lanesOf q.lanes).foldl (fun g l => match q.dst with
      | some r => if (g.thread l).live then g.setReg l r (BitVec.ofNat 32 code) else g
      | none => g) g) →
      exec (.reclaimSearchComplete id remote) s = .next
        (t.wake (issuerOf q.block q.group) (((t.groupOf (issuerOf q.block q.group)).map fun g =>
          g.searchDone fun i => t.searches.any fun x => x.id = i).getD []) fun _ t => t.advance).settle) ∧
  -- A query of another device is answered with the pins of its scope.
  (∀ (s : State) (job asid : Nat) (name : DWord) (found : List (Nat × Nat × Nat × Nat)),
    found = s.findPins (fun k => match s.tenants[s.tenantOf k]? with
      | some t => t.jv && t.jobId.toNat = job && s.asidOf k = asid
      | none => false) name →
      exec (.pinQuery job asid name) s = .next { s with queries := s.queries ++ [{ job, asid, name, found }] }) ∧
  -- A ready deferred name, first of its ring, is appended or raises RINGFAULT; a faulted one is tried again.
  (∀ (s : State) (k : Nat) (d : Deferred), s.deferred[k]? = some d → s.appendable d = true → d.faulted = false →
      exec (.freeRingAppend k false) s = .next (s.append d)) ∧
  (∀ (s : State) (k : Nat) (d : Deferred), s.deferred[k]? = some d → s.appendable d = true → d.faulted = true →
      exec (.ringAppendRetry k) s = .next (s.append d)) ∧
  -- A walk of a context's tables that ends in a valid leaf may be kept.
  (∀ (s : State) (ctx va e level : Nat) (x : Xlate) (t : TlbEntry), (s.csr.ptBase.getD ctx 0).getLsbD 0 = true →
    walkFrom s.mem va (bits (s.csr.ptBase.getD ctx 0).toNat 39 12 * 4096) 3 = some (e, level) → s.leafLoc e level va = .ok x →
    t = { ctx, va := va / 2 ^ levelShift level * 2 ^ levelShift level, size := 2 ^ levelShift level
          leaf := BitVec.ofNat 64 e, level } →
      exec (.pageWalk ctx va) s = .next { s with tlb := t :: s.tlb.filter fun x => x ≠ t }) ∧
  -- Another device stores to this one's memory, makes an atomic there, where the unit is sound, or loads from it; each
  -- makes its cache lookups. (What such a device sends is the operand: notes/assumptions/68.md.)
  (∀ (s : State) (fn : Nat) (ty : Ty) (a : Nat) (x y : DWord), 0 < Ty.bytes ty → a % Ty.bytes ty = 0 →
    a + Ty.bytes ty ≤ hbmSize →
      exec (.remoteAccess 1 fn ty a x y) s = .next
        { (s.touchFrom (Config.freeIndex s.nextId a % 8) a true).snoopOut (.dev a) with
          mem := s.mem.write a (Ty.bytes ty) (x.toNat % 2 ^ (8 * Ty.bytes ty)) }) ∧
  (∀ (s : State) (kind fn : Nat) (ty : Ty) (a : Nat) (x y : DWord), 2 ≤ kind → 0 < Ty.bytes ty → a % Ty.bytes ty = 0 →
    a + Ty.bytes ty ≤ hbmSize → s.poisonAt (.dev a) = none →
      exec (.remoteAccess kind fn ty a x y) s = .next
        { (s.touchFrom (Config.freeIndex s.nextId a % 8) a true).snoopOut (.dev a) with
        mem := s.mem.write a (Ty.bytes ty) (atomNew fn ty (BitVec.ofNat 64 (s.mem.read a (Ty.bytes ty))) x y) }) ∧
  (∀ (s : State) (fn : Nat) (ty : Ty) (a : Nat) (x y : DWord), 0 < Ty.bytes ty → a % Ty.bytes ty = 0 →
    a + Ty.bytes ty ≤ hbmSize →
      exec (.remoteAccess 0 fn ty a x y) s = .next (s.touchFrom (Config.freeIndex s.nextId a % 8) a false)) ∧
  -- A device that has not answered for FTIMEOUT: the command that needs it fails with PEERLOST, or the access that waits
  -- for it is not answered (notes/assumptions/27.md).
  (∀ (s : State) (cmd dev since : Nat) (q : Cmd), cmd ≠ 0 → dev ≠ s.fabric.devnum.toNat → (dev, since) ∈ s.fabric.silent →
    max q.since since + 1000 * s.fabric.ftimeout ≤ s.uptime → s.cmds.find? (fun x => x.id = cmd) = some q →
    s.cmdThere q = true → s.cmdNeeds q dev = true → s.failWaits q 7 = false →
      exec (.fabricTimeout cmd dev) s = .next (s.failCmd q 7 none)) ∧
  (∀ (s : State) (dev since : Nat) (rs : List Request), dev ≠ s.fabric.devnum.toNat → (dev, since) ∈ s.fabric.silent →
    (∀ x ∈ s.fabric.silent, x.1 = dev → x.2 = since) →
    rs = s.fabric.requests.map (fun r =>
      if r.dev = dev ∧ max r.since since + 1000 * s.fabric.ftimeout ≤ s.uptime then { r with expired := true } else r) →
      exec (.fabricTimeout 0 dev) s = .next { s with fabric := { s.fabric with requests := rs } }) ∧
  -- The host writes or reads up to 64 aligned bytes of device memory in one event; the line may be in its cache. A read
  -- carries the poison indication. With IDE on, unprotected traffic is dropped and counted.
  (∀ (s : State) (prot : Bool) (a o size x : Nat) (u : State), s.fabric.hostLink = true →
    (s.fabric.ide = true → prot = true) → s.fabric.hdmBase ≤ a → size ∈ [1, 2, 4, 8, 16, 32, 64] → o = a - s.fabric.hdmBase →
    o % size = 0 → o + size ≤ hbmSize →
    u = (({ s with snoop := o / 64 * 64 :: s.snoop.filter fun k => k ≠ o / 64 * 64 } : State).touchFrom 0 o true) →
      exec (.hostMemAccess true prot a size x) s = .next { u with mem := s.mem.write o size (x % 2 ^ (8 * size)) }) ∧
  (∀ (s : State) (prot : Bool) (a o size x : Nat) (u : State), s.fabric.hostLink = true →
    (s.fabric.ide = true → prot = true) → s.fabric.hdmBase ≤ a → size ∈ [1, 2, 4, 8, 16, 32, 64] → o = a - s.fabric.hdmBase →
    o % size = 0 → o + size ≤ hbmSize →
    u = (({ s with snoop := o / 64 * 64 :: s.snoop.filter fun k => k ≠ o / 64 * 64 } : State).touchFrom 0 o false) →
      exec (.hostMemAccess false prot a size x) s = .next
        { u with fabric := { u.fabric with hostReply := (s.mem.read o size, decide ((0, o / 64 * 64) ∈ s.rel.poison)) } }) ∧
  (∀ (s : State) (write : Bool) (a size x : Nat), s.fabric.hostLink = true → s.fabric.ide = true →
      exec (.hostMemAccess write false a size x) s = .next
        { s with fabric := { s.fabric with ideDrops := s.fabric.ideDrops + 1 } }) ∧
  ∀ (s : State) (d : Deferred) (b h e : Nat) (th te : Xlate), s.memoriesWf = true →
    s.translate d.ctx d.ring true = .ok th → th.loc = .dev h → b = s.mem.read h 8 → b % 8 = 0 → d.moved = false →
    let cap := s.mem.read (h + 8) 4
    let head := s.mem.read (h + 16) 4
    let tail := s.mem.read (h + 20) 4
    (∃ k, k < 25 ∧ cap = 2 ^ k) → (head + 2 ^ 32 - tail) % 2 ^ 32 < cap →
    b + 8 * (head % cap) < 2 ^ 52 →
    s.translate d.ctx (b + 8 * (head % cap)) true = .ok te → te.loc = .dev e → (e + 8 ≤ h + 16 ∨ h + 20 ≤ e) →
    let t := s.append d
    t.mem.read e 8 = d.name.toNat ∧ t.mem.read (h + 16) 4 = (head + 1) % 2 ^ 32 ∧ t.deferred = s.deferred.erase d ∧
      (∀ a, (a < e ∨ e + 8 ≤ a) → (a < h + 16 ∨ h + 20 ≤ a) → t.mem.byte a = s.mem.byte a) ∧
      (∀ x, s.block? d.block = some x → x.state ≠ .retired → d.block ≠ 0 → (∃ p, x.part (scrPart d.bar) = some p) →
        t.bar d.block (scrPart d.bar) (scrOff d.bar) = (barTest (s.bar d.block (scrPart d.bar) (scrOff d.bar)) 1 0 0).1) ∧
      ((∀ x, s.block? d.block = some x → x.state = .retired) → t.blocks = s.blocks)

end

namespace Sys2Proof.Machine

open Sys2Proof

/-! ## Power -/

/-- The whole group of the current issuer, a group of a block, stands at a group-wide power form that its low lane performs,
with its source ready and sound (R37, R245, R281). -/
structure State.PowerReady (s : State) (c : Ctx) (op : Nat) (f : Fields) (b g : Nat) : Prop where
  ctx : s.ctx? = some c
  unit : ∃ u, s.cur = .unit b g u
  whole : c.whole = true
  some_ : c.lanes ≠ []
  on : (c.rd.thread c.lowLane).guard f = true
  pend : (c.rd.thread c.lowLane).pendIn (readRegs op f) = []
  sound : s.poisonTrap c.lowLane (readRegs op f) = []

/-- The threads after a group-wide form that writes a value to D: a V destination is written in every thread of the unit. -/
def Ctx.afterPower (c : Ctx) (d : Opnd) (x : Word) (l : Nat) : Thread :=
  if l ∈ c.lanes then ((c.g.thread l).withDst d false (x.zeroExtend 64)).advance else c.g.thread l

end Sys2Proof.Machine

section

open Sys2Proof Sys2Proof.Machine

/-- R282, R283, R285: BURN makes the group's ballast request: level A[4:0], at most 16, for A[31:8] µs; a level or a time of
0 ends it. SHUNT replaces the group's reservation by the least of A[7:0], 120 and what the rails next to its core have free,
for A[31:8] µs, and gives it to D. PLREQ gives the domain's effective level to D and makes A, at most 15, the context's
requested level.
R284, R286: BALQ writes the last balance sample of the core to the pair D of every active thread, ENRD the energy its launch
has been charged; ZERO discards it (notes/assumptions/89.md). A sample holds the group counts of the stack-mates, the
difference of demand to each, saturated to a byte, the demand of each and of the core itself in 1/128 of nominal, an inexact
one rounded down or up, and the level and state of the column; every field of an absent stack-mate is 0 (which of the two a
demand rounds to, and the 0: notes/assumptions/32.md). -/
def Obligations.PowerInstructions : Prop :=
  (∀ (f : Fields) (s : State) (c : Ctx) (b g : Nat),
    let a := (s.operand c.rd c.lowLane f false f.a).toNat
    let till := s.ftime + 1000 * (a / 2 ^ 8)
    let core := s.issuerCore b g
    (s.PowerReady c 0xC0 f b g → f.d = .zero →
      let level := min 16 (a % 32)
      ∃ h, exec (.burn f) s = .next (s.setGroup s.cur h) ∧
        ({ c.g with burn := if level = 0 ∨ a / 2 ^ 8 = 0 then none else some ⟨level, till⟩ } : Group).OnlyLanes h
          (c.after f fun _ t => t)) ∧
    (s.PowerReady c 0xC1 f b g →
      let s1 := s.updBlockGroup b g fun x => { x with shunt := none }
      let grant := (railsOf core).foldl (fun n r => min n (s1.railFree (columnOf core) r)) (min 120 (a % 256))
      ∃ h, exec (.shunt f) s = .next (s.setGroup s.cur h) ∧
        ({ c.g with
            shunt := if grant = 0 then none else some ⟨grant, till⟩
            s := withS c.g.s f.d false (BitVec.ofNat 64 grant) } : Group).OnlyLanes h (c.afterPower f.d (BitVec.ofNat 32 grant))) ∧
    (s.PowerReady c 0xC3 f b g →
      let pl := ((s.supplies[s.supplyOf (columnOf core)]?).map (·.effPl)).getD 0
      ∃ h, exec (.plreq f) s = .next (({ s with
          ctxs := updAt s.ctxs s.ctxOf fun x => { x with reqPl := min 15 a } } : State).relevel.setGroup s.cur h) ∧
        ({ c.g with s := withS c.g.s f.d false (BitVec.ofNat 64 pl) } : Group).OnlyLanes h
          (c.afterPower f.d (BitVec.ofNat 32 pl)))) ∧
  (∀ (f : Fields) (s : State) (c : Ctx) (b g u : Nat), (∀ n, f.d ≠ .s n) → s.cur = .unit b g u →
    let core := s.issuerCore b g
    let k := layerOf core
    let x := s.balq core
    (s.Ready c 0xC2 f →
      ∃ h, exec (.balq f) s = .next (s.setGroup s.cur h) ∧
        c.g.OnlyLanes h (c.after f fun _ t => t.withDst f.d true x)) ∧
    (s.Ready c 0xC4 f → ∀ la, s.launchOf s.cur = some la →
      ∃ h, exec (.enrd f) s = .next (s.setGroup s.cur h) ∧
        c.g.OnlyLanes h (c.after f fun _ t => t.withDst f.d true (BitVec.ofNat 64 la.energy))) ∧
    (core < 192 → ∀ y, s.columns[columnOf core]? = some y → y.shown.state < 4 → y.shown.pl < 16 →
      let mate (l : Nat) : Nat := min 255 (y.shown.occ.getD l 0)
      let act (l : Nat) (n : Nat) : Prop := let d := y.demand.getD l 0 * 128
        n = min 255 (d / 1000) ∨ n = min 255 ((d + 999) / 1000)
      let diff (l : Nat) : Int := max (-128) (min 127 ((y.demand.getD k 0 : Int) - y.demand.getD l 0))
      (x.extractLsb' 56 8).toNat = (if k < 3 then mate (k + 1) else 0) ∧
        (x.extractLsb' 48 8).toNat = (if 0 < k then mate (k - 1) else 0) ∧
        (x.extractLsb' 40 8).toInt = (if k < 3 then diff (k + 1) else 0) ∧
        (x.extractLsb' 32 8).toInt = (if 0 < k then diff (k - 1) else 0) ∧
        (if k < 3 then act (k + 1) (x.extractLsb' 24 8).toNat else x.extractLsb' 24 8 = 0) ∧
        (if 0 < k then act (k - 1) (x.extractLsb' 16 8).toNat else x.extractLsb' 16 8 = 0) ∧
        act k (x.extractLsb' 8 8).toNat ∧ (x.extractLsb' 0 4).toNat = y.shown.state ∧ (x.extractLsb' 4 4).toNat = y.shown.pl))

end

namespace Sys2Proof.Machine

open Sys2Proof

/-! ## The management core -/

/-- The thread of the management core stands at a system form that its level may issue and its guard lets run, with its
sources sound (R301, R313). -/
structure State.MgmtRuns (s : State) (c : Ctx) (i : Instr) (op : Nat) (f : Fields) : Prop where
  can : s.CanRun c op f
  cur : s.cur = .mgmt
  lane : c.lanes = [0]
  on : (c.rd.thread 0).guard f = true
  plain : f.namesS = false
  level : s.privilege i = none

/-- The threads of the management core after a form that changes its one thread by `run` and moves it on. -/
def Group.afterOne (g : Group) (run : Thread → Thread) (l : Nat) : Thread :=
  if l = 0 then (run (g.thread 0)).advance else g.thread l

end Sys2Proof.Machine

section

open Sys2Proof Sys2Proof.Machine

/-- R302, R314, R7: CSRR gives D the bits of an existing register of the writer's partition and clears its RC fields (a
narrow CSRR those that it reads: notes/assumptions/35.md); CSRW writes the bits of its width under the register's access codes. A store reads back where the register is RW without
reserved bits; TRAPVEC takes bits 39 to 6 at hypervisor level alone; writing 1 to an interrupt source 5 to 8 clears it. MSTAT
takes IE, PIE, TL and PPL, PART at hypervisor level alone, and PL never. -/
def Obligations.ControlRegistersAreReadAndWritten : Prop :=
  ∀ (f : Fields) (s : State) (c : Ctx),
    let n := f.immBits 11 0
    let i := (s.operand c.rd 0 f false f.b).toNat
    (s.MgmtRuns c (.csrr f) 0xE0 f → i < csrCount n →
      (s.csr.pl = 2 ∨ (n ≠ 0x010 ∧ n ≠ 0x011 ∧ n ≠ 0x012) ∨ s.tenantOf i = s.csr.part.toNat) →
      ∃ h, exec (.csrr f) s = .next ((s.csrClear n i (csrMask f)).setGroup .mgmt h) ∧
        c.g.OnlyLanes h (c.g.afterOne fun t => t.withDst f.d f.ty.pair (s.csrRead n i))) ∧
    (s.MgmtRuns c (.csrw f) 0xE1 f → s.csrTrap n i 0 true = [] →
      let t := s.csrWrite n i (s.operand c.rd 0 f f.ty.pair f.a) (csrMask f) s.isHyper
      ∃ h, exec (.csrw f) s = .next (t.setGroup t.cur h) ∧
        ∀ g, t.groupOf t.cur = some g → g.OnlyLanes h fun l => if l ∈ c.lanes then (g.thread l).advance else g.thread l) ∧
    ∀ (x mask : DWord) (hyper : Bool),
      (∀ k, k = 0x003 ∨ k = 0x004 ∨ k = 0x007 →
        (s.csrWrite k 0 x mask hyper).csrRead k 0 = (s.csrRead k 0 &&& ~~~mask) ||| (x &&& mask)) ∧
      (s.csrWrite 0x001 0 x mask true).csr.trapVec =
        (s.csr.trapVec &&& ~~~(mask &&& fieldMask 39 6)) ||| (x &&& mask &&& fieldMask 39 6) ∧
      s.csrWrite 0x001 0 x mask false = s ∧
      (∀ k : Nat, k < 9 → (s.csrWrite 0x005 0 x mask hyper).csr.intPend.getLsbD k =
        (s.csr.intPend.getLsbD k && !(decide (5 ≤ k) && x.getLsbD k && mask.getLsbD k))) ∧
      (let c := (s.csrWrite 0x000 0 x (fieldMask 63 0) hyper).csr
       c.ie = x.getLsbD 0 ∧ c.pie = x.getLsbD 1 ∧ c.tl = x.getLsbD 2 ∧ c.ppl = x.extractLsb' 8 2 ∧ c.pl = s.csr.pl ∧
         c.part = if hyper then x.extractLsb' 16 3 else s.csr.part)

end

namespace Sys2Proof.Machine

open Sys2Proof

/-- The system forms of R313 but CAPMK, and the lowest level at which each issues. -/
def systemOf : Instr → Option (Fields × Nat)
  | .csrr f => some (f, 1)
  | .csrw f => some (f, if csrHyper.contains (f.immBits 11 0) then 2 else 1)
  | .eret f => some (f, 1)
  | .wfi f => some (f, 1)
  | .sev f => some (f, 1)
  | .intack f => some (f, 1)
  | .tlbinvCtx f => some (f, 1)
  | .tlbinvPage f => some (f, 1)
  | .ctxsv f => some (f, 1)
  | .ctxld f => some (f, 1)
  | .tokxf f => some (f, 2)
  | _ => none

end Sys2Proof.Machine

section

open Sys2Proof Sys2Proof.Machine

/-- R145, R300, R302, R306, R313: a system form issued below its level, so on every compute core, takes ILLEGAL with reason 4
in the lowest lane, and does nothing else. -/
def Obligations.SystemFormsNeedTheirLevel : Prop :=
  ∀ (i : Instr) (f : Fields) (level : Nat) (s : State) (c : Ctx), systemOf i = some (f, level) → s.ctx? = some c →
    (s.cur = .mgmt → s.csr.pl.toNat < level) →
    exec i s = .next (s.takeTrap (mkTrap .illegal 0 (c.lanes.headD 0) 4))

/-- R315 to R318: ERET gives back the level, IE and the IP and clears TL; a level of 0, 3 or above PL takes ACCESS (with the level
as its DETAIL: notes/assumptions/30.md). WFI ends once an enabled source pends, and waits till then. INTACK gives D the lowest pending and enabled source, whose
write-one-to-clear bit it clears, or 2^31. SEV raises a vector of its partition. TLBINV drops the translations of a context, with its
replaced publish regions, or of one page of it, once no store of the context is still to be performed. -/
def Obligations.ManagementControlInstructions : Prop :=
  ∀ (f : Fields) (s : State) (c : Ctx),
    let a := (s.operand c.rd 0 f false f.a).toNat
    let moved (h : Group) : Prop := c.g.OnlyLanes h (c.g.afterOne fun t => t)
    (s.MgmtRuns c (.eret f) 0xE2 f →
      (s.csr.ppl = 1 ∨ s.csr.ppl = 2 ∧ s.csr.pl = 2 → s.ipOk s.csr.trapIp = true →
        ∃ t, exec (.eret f) s = .next t ∧ t.csr = { s.csr with pl := s.csr.ppl, ie := s.csr.pie, tl := false } ∧
          t.mem = s.mem ∧ t.blocks = s.blocks ∧ (0 < s.mgmt.group.threads.length →
            t.mgmt.group.thread 0 = { s.mgmt.group.thread 0 with ip := s.csr.trapIp, back := false })) ∧
      (s.csr.ppl = 0 ∨ s.csr.ppl = 3 ∨ s.csr.pl.toNat < s.csr.ppl.toNat →
        exec (.eret f) s = .next (s.takeTrap (mkTrap .access 15 0 (s.csr.ppl.toNat + 7 * 2 ^ 52))))) ∧
    (s.MgmtRuns c (.wfi f) 0xE3 f →
      if s.takenSource = none then exec (.wfi f) s = .next { s with mgmt := { s.mgmt with inWfi := true } }
      else ∃ h, exec (.wfi f) s = .next (({ s with mgmt := { s.mgmt with inWfi := false } } : State).setGroup .mgmt h) ∧ moved h) ∧
    (s.MgmtRuns c (.intack f) 0xE5 f →
      ∃ h, exec (.intack f) s = .next (({ s with csr := { s.csr with intPend := match s.takenSource with
          | some i => s.csr.intPend &&& ~~~(BitVec.ofNat 9 (2 ^ i))
          | none => s.csr.intPend } } : State).setGroup .mgmt h) ∧
        c.g.OnlyLanes h (c.g.afterOne fun t => t.withDst f.d false
          (match s.takenSource with | some i => BitVec.ofNat 64 i | none => 0x80000000))) ∧
    (s.MgmtRuns c (.sev f) 0xE4 f → ∀ t, s.tenants[bits a 18 16]? = some t → a % 2 ^ 16 < t.vcnt.toNat →
      (s.csr.pl = 2 ∨ bits a 18 16 = s.csr.part.toNat) →
      ∃ h, exec (.sev f) s = .next ((s.raiseMsix (t.vbase.toNat + a % 2 ^ 16)).setGroup .mgmt h) ∧ moved h) ∧
    (a ≤ 63 → (s.csr.pl = 2 ∨ s.tenantOf a = s.csr.part.toNat) → s.ctxStores a = false →
      (s.MgmtRuns c (.tlbinvCtx f) 0xE6 f →
        ∃ h, exec (.tlbinvCtx f) s = .next (({ s with
            tlb := s.tlb.filter fun t => t.ctx ≠ a
            ctxs := updAt s.ctxs a fun x => { x with oldDesc := [] } } : State).setGroup .mgmt h) ∧ moved h) ∧
      (s.MgmtRuns c (.tlbinvPage f) 0xE6 f →
        let va := (s.operand c.rd 0 f true f.b).toNat
        ∃ h, exec (.tlbinvPage f) s = .next (({ s with
            tlb := s.tlb.filter fun t => ¬ (t.ctx = a ∧ t.va ≤ va ∧ va < t.va + t.size) } : State).setGroup .mgmt h) ∧ moved h))

end

namespace Sys2Proof.Machine

open Sys2Proof

/-! ## Exceptions and interrupts -/

end Sys2Proof.Machine

section

open Sys2Proof Sys2Proof.Machine

/-- R307, R312, R311: an exception on the management core saves its cause, TRAPINFO, the IP of the instruction, the level and
IE, clears IE, sets TL, goes to hypervisor level and to TRAPVEC; taken while TL stands it halts the core and stops the
package. On a compute core it parks the block: the state is as before but for one more event that waits, which
names the cause, the block, its unit's lanes and the IP. An enabled pending source enters TRAPVEC the same way,
with the number of the lowest one and the next IP. TIMECMP_REACHED lets time pass until the timer source pends. -/
def Obligations.ExceptionsAndInterruptsAreTaken : Prop :=
  ∀ (s : State) (t : Trap),
    (s.cur = .mgmt → s.csr.tl = false → 0 < s.mgmt.group.threads.length →
      let u := s.takeTrap t
      u.csr = { s.csr with
        trapInt := false, trapCode := BitVec.ofNat 8 t.cause.code, trapIp := (s.mgmt.group.thread 0).ip
        trapInfo := trapInfo (match s.pairRead with | some (_, false) => true | _ => false) t.lane t.detail
        ppl := s.csr.pl, pie := s.csr.ie, ie := false, tl := true, pl := 2 } ∧
      u.mgmt.group.thread 0 = { s.mgmt.group.thread 0 with ip := s.csr.trapVec, back := false, status := .ready } ∧
      u.mem = s.mem ∧ u.blocks = s.blocks ∧ u.stopped = s.stopped) ∧
    (s.cur = .mgmt → s.csr.tl = true →
      let u := s.takeTrap t
      u.mgmt = { s.mgmt with halted := true } ∧ u.stopped = true ∧ u.csr = s.csr ∧ u.mem = s.mem ∧ u.blocks = s.blocks) ∧
    (∀ b g u x y v, s.cur = .unit b g u → s.block? b = some x → x.groups[g]? = some y → y.units[u]? = some v →
      s.pairRead = none → t.cause ≠ .pipe →
      ∃ e : Event, s.takeTrap t = { s with waiting := s.waiting ++ [e], trapped := some t } ∧
        e.cause = t.cause ∧ e.parked = true ∧ e.block = b ∧ e.lanes = [(g, v.lanes)] ∧ e.trapIp = v.ip ∧
        e.info = trapInfo false t.lane t.detail ∧ e.extra = t.extra ∧ e.pair = false ∧ e.answer = none) ∧
    (∀ i, s.takenSource = some i → s.csr.ie = true → s.mgmt.halted = false → s.stopped = false → s.csr.tl = false →
      s.mgmt.inWfi = false → 0 < s.mgmt.group.threads.length →
      ∃ u, exec .interruptEntry s = .next u ∧
        u.csr = { s.csr with
          trapInt := true, trapCode := BitVec.ofNat 8 i, trapIp := (s.mgmt.group.thread 0).ip, trapInfo := 0
          ppl := s.csr.pl, pie := true, ie := false, tl := true, pl := 2 } ∧
        (u.mgmt.group.thread 0).ip = s.csr.trapVec ∧ u.mem = s.mem ∧ u.blocks = s.blocks) ∧
    (s.ftime < s.csr.timeCmp.toNat →
      ∃ u, exec .timecmpReached s = .next u ∧ u.ftime = s.csr.timeCmp.toNat ∧ bit u.intPending 4 = true ∧ u.csr = s.csr ∧
        u.mem = s.mem ∧ u.blocks = s.blocks)

/-- R319 to R322, R324, R325: CTXSV selects parts to be saved, one at a time of one save, CTXLD begins the restores of those that its
selector names; D is their result, 0 where they begin. TOKXF sends tokens that are there, and gives 0, or gives 1 and sends none. CAPMK
records its mark under capture, matches the recorded one under replay, waits there for the records before it, and has no
effect outside both. -/
def Obligations.ContextsTokensAndMarks : Prop :=
  ∀ (f : Fields) (s : State) (c : Ctx),
    let a := s.operand c.rd 0 f true f.a
    let a32 := (s.operand c.rd 0 f false f.a).toNat
    let b := s.operand c.rd 0 f false f.b
    let gives (h : Group) (x : Nat) : Prop := c.g.OnlyLanes h (c.g.afterOne fun t => t.withDst f.d false (BitVec.ofNat 64 x))
    (s.MgmtRuns c (.ctxsv f) 0xE7 f →
      let r := s.saveResult a.toNat
      ∃ h, exec (.ctxsv f) s = .next ((r.2.foldl (fun s p => s.updPart p.1 p.2 fun q =>
          { q with queued := true, sel := a, charge := b.extractLsb' 0 32 }) s).nextSave.setGroup .mgmt h) ∧ gives h r.1) ∧
    (s.nextSave = s ∨ ∃ x k q, x ∈ s.blocks ∧ x.parts[k]? = some q ∧ q.queued = true ∧ q.state = .resident ∧
      s.saveRuns x.id q = false ∧ s.nextSave = s.updPart x.id k fun q => { q with state := .saving, queued := false }) ∧
    (s.MgmtRuns c (.ctxld f) 0xE8 f →
      let r := s.loadResult a.toNat b.toNat
      ∃ h, exec (.ctxld f) s = .next ((r.2.foldl (fun s p =>
          (s.updPart p.1 p.2 fun q => { q with sel := a }).beginRestore p
            (if b.toNat = 0xFFFFFFFF then ((s.updPart p.1 p.2 fun q => { q with sel := a }).chooseColumn p).getD 48
              else b.toNat)) s).setGroup .mgmt h) ∧ gives h r.1) ∧
    (s.MgmtRuns c (.tokxf f) 0xE9 f →
      if b.toNat ≤ s.csr.tokens then
        ∃ h, exec (.tokxf f) s = .next (({ s with
          csr := { s.csr with tokens := s.csr.tokens - b.toNat }
          fabric := { s.fabric with waggles := s.fabric.waggles ++ [⟨a32 % 2 ^ 11, BitVec.ofNat 32 b.toNat, s.ftime⟩] } } :
            State).setGroup .mgmt h) ∧ gives h 0
      else ∃ h, exec (.tokxf f) s = .next (s.setGroup .mgmt h) ∧ gives h 1) ∧
    (∀ blk g u x l ls, s.CanRun c 0xEA f → s.cur = .unit blk g u → s.block? blk = some x →
      (c.actors f).filter (fun l => !(c.rd.thread l).helper) = l :: ls →
      let ctx := s.ctxOf
      let mark := (s.operand c.rd l f false f.a).toNat
      let moved (h : Group) : Prop := c.g.OnlyLanes h (c.after f fun _ t => t)
      (s.capOn 1 ctx = true → ∃ h, exec (.capmk f) s =
        .next ((s.capAppend 5 ctx 0 (leBytes 4 mark ++ leBytes 4 x.index)).setGroup s.cur h) ∧ moved h) ∧
      (s.capOn 2 ctx = true → s.csr.capFree = false → ∀ r, s.capNext = some r → isMark ctx x.index r = true →
        (leAt r 16 4 = mark → ∃ h, exec (.capmk f) s =
          .next (s.capMove.setGroup s.cur h) ∧ moved h) ∧
        (leAt r 16 4 ≠ mark → exec (.capmk f) s = .next (s.takeTrap (mkTrap .replay 15 l mark)))) ∧
      (s.capHolds ctx (isMark ctx x.index) = true → exec (.capmk f) s = .next (s.capWait (isMark ctx x.index))) ∧
      (s.csr.capEarly = [] → s.capMove = { s with csr := { s.csr with capHead := s.csr.capHead + 1, capSince := none } }) ∧
      (s.csr.capMode = 0 → ∃ h, exec (.capmk f) s = .next (s.setGroup s.cur h) ∧ moved h))

end

namespace Sys2Proof.Machine

open Sys2Proof

/-! ## The scheduler -/

end Sys2Proof.Machine

section

open Sys2Proof Sys2Proof.Machine

/-- R308 to R310, R320, R322, R327 to R331, R333 to R335, R338, R339, R342, R343: queues, records and launches, and blocks, their
saves and restores and their events, proceed as each clause gives it. -/
def Obligations.TheSchedulerProceeds : Prop :=
  -- A write of TAIL: the queue is examined, the doorbell source pends, and the waiting WAIT records are polled.
  (∀ (s : State) (host : Bool) (k : Nat) (tail : Word) (q : Queue), s.queues[k]? = some q → s.queueFrozen q = false →
    (if host then s.fabric.hostLink = true else s.csr.pl = 2 ∨ q.tpart = s.csr.part) →
      exec (.queueDoorbell host k tail) s = .next
        ((s.updQueue k fun q => ({ q with tail } : Queue).examine).setPend 5).pollWaits) ∧
  -- A write of 1 to RESUME: a halted queue skips its record.
  (∀ (s : State) (host : Bool) (k : Nat) (q : Queue), s.queues[k]? = some q → s.queueFrozen q = false →
    (if host then s.fabric.hostLink = true else s.csr.pl = 2 ∨ q.tpart = s.csr.part) → q.state = 3 →
      exec (.queueResume host k) s = .next
        (s.updQueue k fun q =>
        { q with head := q.head + 1, code := 0, state := if q.head + 1 = q.tail then 0 else 1 })) ∧
  -- The first ready record is taken, with the lookups of what CHECK reads. It is refused: its queue halts with the code,
  -- and a LAUNCH record's vector is raised.
  (∀ (s : State) (k code : Nat) (q : Queue), s.stopped = false → s.queues[k]? = some q → s.firstReady k = true →
    s.verdict k q = .refuse code →
    (leAt (s.recordAt q) 0 1 ≠ 1 ∨ code = 9 ∨ (launchOfRecord k q.ctx.toNat (s.recordAt q)).wantsMsix = false) →
      exec (.recordCheck k) s = .next ((s.touchCheck q false).haltQueue k code)) ∧
  -- A NOP record, or a WAIT whose word has reached its value, is passed.
  (∀ (s : State) (k : Nat) (q : Queue), s.stopped = false → s.queues[k]? = some q → s.firstReady k = true →
    s.verdict k q = .nop →
      exec (.recordCheck k) s = .next ((s.touchCheck q false).advanceQueue k)) ∧
  (∀ (s : State) (k : Nat) (q : Queue), s.stopped = false → s.queues[k]? = some q → s.firstReady k = true →
    s.verdict k q = .waiting →
      exec (.recordCheck k) s = .next ((s.touchCheck q false).updQueue k fun q => { q with state := 2 })) ∧
  -- A LAUNCH record that every check passes becomes a launch.
  (∀ (s : State) (k : Nat) (q : Queue) (l : Launch) (u : State), s.stopped = false → s.queues[k]? = some q →
    s.firstReady k = true → s.verdict k q = .launch l → s.csr.capMode = 0 → u = s.touchCheck q true →
      exec (.recordCheck k) s = .next
        { ({ u with nextId := u.nextId + 1 } : State).advanceQueue k with launches := s.launches ++ [{ l with id := u.nextId
          }] }) ∧
  -- A launch that a replay holds back is ready: it waits for the record before its own.
  (∀ (s : State) (k : Nat) (q : Queue), s.stopped = false → s.queues[k]? = some q → q.valid = true → q.en = true →
    q.state = 1 → s.verdict k q = .held →
      exec (.recordCheck k) s = .next (s.capWait (isLaunchRecord q.ctx.toNat))) ∧
  -- A WAIT record is polled, with the lookup of a load: passed where its word has reached its value, refused where the
  -- word cannot be read, or still waiting.
  (∀ (s : State) (k : Nat) (q : Queue) (w : List Byte), s.stopped = false → s.queues[k]? = some q → q.valid = true →
    q.en = true → q.state = 2 → s.readVa q.ctx.toNat (leAt (s.recordAt q) 80 8) 8 = some w →
    leAt (s.recordAt q) 88 8 ≤ leNat w →
      exec (.waitRecordPoll k) s = .next ((s.touchVa q.ctx.toNat (leAt (s.recordAt q) 80 8) 8).advanceQueue k)) ∧
  (∀ (s : State) (k : Nat) (q : Queue), s.stopped = false → s.queues[k]? = some q → q.valid = true → q.en = true →
    q.state = 2 → s.readVa q.ctx.toNat (leAt (s.recordAt q) 80 8) 8 = none →
      exec (.waitRecordPoll k) s = .next (s.haltQueue k 5)) ∧
  (∀ (s : State) (k : Nat) (q : Queue) (w : List Byte), s.stopped = false → s.queues[k]? = some q → q.valid = true →
    q.en = true → q.state = 2 → s.readVa q.ctx.toNat (leAt (s.recordAt q) 80 8) 8 = some w →
    leNat w < leAt (s.recordAt q) 88 8 →
      exec (.waitRecordPoll k) s = .next (s.touchVa q.ctx.toNat (leAt (s.recordAt q) 80 8) 8)) ∧
  -- The next comb of a launch stands on the preferred column that qualifies, with save slots of its own; a COOP launch's
  -- combs all come at once, on columns that need not differ (notes/assumptions/62.md).
  (∀ (s : State) (l col : Nat) (x : Launch) (t : Tenant) (slots : List Nat), s.stopped = false → s.launch? l = some x →
    x.state = .admission → x.coop = false → s.tenants[s.tenantOf x.ctx]? = some t → t.rbusy = false →
    s.saveSlots x x.combBlocks = some slots →
    s.prefer x.ac ((s.columnsOf (s.tenantOf x.ctx)).filter (s.qualifies x)) = some col →
      exec (.combAdmit l) s = .next (s.placeComb x col slots)) ∧
  (∀ (s : State) (l : Nat) (x : Launch) (t : Tenant) (u : State), s.stopped = false → s.launch? l = some x →
    x.state = .admission → x.coop = true → s.tenants[s.tenantOf x.ctx]? = some t → t.rbusy = false →
    State.admitAll l (x.combs - x.nextComb) s = some u →
      exec (.combAdmit l) s = .next u) ∧
  -- A flushed launch is done: its energy is its context's ELAST, its signal is stored and the waiting WAIT records are
  -- polled, its vector raised, its frames free.
  (∀ (s : State) (l : Nat) (x : Launch) (u : State), s.stopped = false → s.launch? l = some x → x.state = .flush →
    s.flushed l = true → x.wantsMsix = false →
    u = (let s1 := s.updCtx x.ctx fun c => { c with eLast := BitVec.ofNat 64 x.energy }
         if x.signal then ((s1.signalStore x).map State.pollWaits).getD (s1.haltQueue x.queue 10) else s1) →
      exec (.launchFlushDone l) s = .next
        ({ u with windows := u.windows.filter fun (w : FrameWin) => w.launch ≠ l }.updLaunch l
        fun y => { y with state := .done, consts := .empty, overlay0 := [] })) ∧
  -- The candidate that goes before every other one that could come in is made resident, on columns of its partition; what
  -- it parked is read back from its slot where it has spilled there.
  (∀ (s : State) (b : Nat) (x : Block), s.stopped = false → s.block? b = some x → s.wantsIn x = true → s.blockFits x = true →
    s.inMask x = true → x.inSlot = false ∨ s.slotFault x false = none →
    (∀ y ∈ s.blocks, y.id ≠ b → s.wantsIn y = true → y.shares x = true → s.blockFits y = true → s.inMask y = true →
      s.goesBefore y x = false) →
      exec (.blockSwitchIn b) s = .next ((if x.inSlot then s.readSlot x else s).makeResident b)) ∧
  -- Where what it parked has spilled to its slot, and the slot faults, it is parked (as below).
  (∀ (s : State) (b va : Nat) (x : Block), s.stopped = false → s.block? b = some x → s.wantsIn x = true →
    s.blockFits x = true → s.inMask x = true → x.inSlot = true → s.slotFault x false = some va →
    (∀ y ∈ s.blocks, y.id ≠ b → s.wantsIn y = true → y.shares x = true → s.blockFits y = true → s.inMask y = true →
      s.goesBefore y x = false) →
      exec (.blockSwitchIn b) s = .next (s.slotPark x 0 va false)) ∧
  -- A resident block whose threads have all waited for 1 µs (counted as in notes/assumptions/45.md) gives way to a
  -- candidate of its cores.
  (∀ (s : State) (b : Nat) (x y : Block) (l : Launch), s.stopped = false → s.block? b = some x → x.state = .resident →
    s.launch? x.launch = some l → l.coop = false → x.allWait = true → 1000 ≤ x.idle → y ∈ s.blocks → y.id ≠ b →
    s.wantsIn y = true → y.shares x = true →
      exec (.blockSwitchOut b) s = .next
        (s.updBlock b fun x =>
        { x with
          state := .inactive
          heldOn := x.groups.zipIdx.map fun (g : Group × Nat) => (g.2, g.1.stuckLanes)
          groups := x.groups.map fun g => { g with units := [] } })) ∧
  -- A drained part that is being saved is copied to the block's slot, whose bytes are free values
  -- (notes/assumptions/48.md), and leaves its core, its poison with it (notes/assumptions/24.md); SAVED is posted, and
  -- the next part of the save begins; a pre-empted block's is to be restored.
  (∀ (s : State) (b k : Nat) (x : Block) (p : Part) (u : State), s.stopped = false → s.block? b = some x → x.part k = some p →
    p.queued = false → p.state = .saving → x.lives = true → s.drained x k p = true → s.slotFault x true = none →
    u = ({ (s.carryMarks b k).fillSlot x with
        cmds := s.cmds.map fun c => if c.block = b ∧ c.part = k ∧ c.kind ≠ .coll ∧ c.state = .running then c.rollBack else c
        acmReqs := s.acmReqs.filter fun r => ¬ (r.block = b ∧ r.part = k ∧ r.exact.isSome = true)
        acmLeft := s.acmLeft ++ p.held.map fun (g : Nat × Nat) => (p.core, g.1, g.2) } : State).updBlock b (fun y =>
      let own (q : Part) := q.held.filter fun h => !(q.spilled.any fun e => e.1 = h.1 && e.2.1.contains h.2)
      let ps := updAt y.parts k fun (q : Part) => { q with state := .saved, held := [], spilled := q.spilled ++ savedGranules (own q) }
      { y with
        groups := y.groups.zipIdx.map fun (z : Group × Nat) => if y.partOf z.2 = k then { z.1 with burn := none, shunt := none } else z.1
        parts := ps, state := if ps.any Part.onCore then y.state else .saved }) →
      exec (.partSaveDone b k) s = .next
        (let v := u.postPart .saved (s.ctxOfLaunch x.launch) p.sel
         (if x.preempted then v.beginRestore (b, k) 48 else v).nextSave)) ∧
  -- A part that is selected for a save waits its turn.
  (∀ (s : State) (b k : Nat) (x : Block) (p : Part), s.stopped = false → s.block? b = some x → x.part k = some p →
    p.queued = true →
      exec (.partSaveDone b k) s = .next s.nextSave) ∧
  -- A fault on the block's save slot posts a PAGE event that parks the block; the part waits. The IP is a free value
  -- (notes/assumptions/31.md).
  (∀ (s : State) (b k va : Nat) (x : Block) (p : Part) (l : Launch) (e : Event), s.stopped = false → s.block? b = some x →
    x.part k = some p → s.launch? x.launch = some l → p.queued = false → p.state = .saving → x.lives = true →
    s.drained x k p = true → s.slotFault x true = some va → (∀ d ∈ s.waiting ++ s.events, d.block = x.id → d.cause ≠ .page) →
    e = { cause := .page, parked := true, savedPart := false, ctx := l.ctx, tpart := s.tenantOf l.ctx, blkWord := x.eventWord k 0
          blkIdx := BitVec.ofNat 32 x.index, trapIp := Config.freeValue s.fresh, info := trapInfo false 0 (va % 2 ^ 52 + 2 ^ 52)
          extra := [], block := x.id, lanes := [], pair := false, answer := none, seq := 0 } →
      exec (.partSaveDone b k) s = .next { s with fresh := s.fresh + 1, waiting := s.waiting ++ [e] }) ∧
  -- The scheduler chooses the column of a part to be restored; with its granules back and room on its core, of a column
  -- that its partition has, it stands there.
  (∀ (s : State) (b k c col : Nat) (x : Block) (p : Part) (l : Launch), s.stopped = false → s.block? b = some x →
    x.part k = some p → s.launch? x.launch = some l → p.state = .restoring c → 48 ≤ c → x.lives = true → x.preempted = false →
    s.chooseColumn (b, k) = some col →
      exec (.partRestoreDone b k) s = .next (s.updPart b k fun q => { q with state := .restoring col })) ∧
  (∀ (s : State) (b k c slot : Nat) (x : Block) (p : Part) (l : Launch), s.stopped = false → s.block? b = some x →
    x.part k = some p → s.launch? x.launch = some l → p.state = .restoring c → c < 48 → x.lives = true →
    s.freeSlot (coreAt c (layerOf p.core)) = some slot → p.granulesBack = true →
    s.framesFree l (coreAt c (layerOf p.core)) = true → c ∈ s.columnsOf (s.tenantOf l.ctx) → s.slotFault x false = none →
      exec (.partRestoreDone b k) s = .next
        ((((s.readSlot x).putBack b k l (coreAt c (layerOf p.core)) slot).applyRecorded b).postPart .restored l.ctx p.sel)) ∧
  -- A launch of PRIO 7 that has waited 20 µs and finds no column saves a block of a column of its partition, part by
  -- part, and no other column until it comes in; a save's ballast is charged to its context. The selector of such a save
  -- is notes/assumptions/36.md.
  (∀ (s : State) (l col : Nat) (x : Launch) (q : Queue) (b : Block), s.stopped = false → s.launch? l = some x →
    x.state = .admission → s.queues[x.queue]? = some q → q.prio = 7 → x.waiting + 20000 ≤ s.ftime → s.stuckInAdmit x = true →
    (∀ b ∈ s.blocks, b.preempted = true → b.lives = true → ∀ p ∈ b.parts, p.queued = true ∨ p.state = .saving → columnOf
    p.core ≠ col) → col ∈ s.columnsOf (s.tenantOf x.ctx) → x.emptying = none ∨ x.emptying = some col →
    s.preemptVictim (s.tenantOf x.ctx) col = some b →
      exec (.prio7Preempt l col) s = .next
        (((s.updBlock b.id fun y => { y with preempted := true }).updLaunch l fun y =>
          { y with emptying := some col }).queueSaves ((List.range b.parts.length).map fun k => (b.id, k))
        (fun k => ((b.part k.2).map fun (p : Part) => selFor (s.ctxOfLaunch b.launch) p.core p.slot k.2).getD 0)
        (BitVec.ofNat 32 x.ctx))) ∧
  -- An event is written at HEAD of the event queue, and can be answered; while the queue is full OVF is set.
  (∀ (s : State) (k : Nat) (e e' : Event), s.waiting[k]? = some e → s.csr.evqEn = true → s.powerOff = none →
    s.csr.evqOld = [] → (∀ d ∈ s.waiting.take k, e.block = 0 ∨ d.block ≠ e.block) →
    (s.csr.evqHead - s.csr.evqTail).toNat < evqEntries s.csr.evqSize.toNat →
    s.csr.evqBase.toNat + 64 * (s.csr.evqHead.toNat % evqEntries s.csr.evqSize.toNat) + 64 ≤ hbmSize →
    e' = { e with seq := s.evSeq, savedPart := ((s.block? e.block).map Block.partAway).getD false } →
      exec (.eventPost k) s = .next
        { s with
        mem := s.mem.setBytes (s.csr.evqBase.toNat + 64 * (s.csr.evqHead.toNat % evqEntries s.csr.evqSize.toNat))
          (e'.bytes s.ftime s.evSeq (Config.freeValue (s.fresh + 1)))
        snoop := s.snoop.filter fun u => u ≠ (s.csr.evqBase.toNat + 64 * (s.csr.evqHead.toNat % evqEntries s.csr.evqSize.toNat)) / 64 * 64
        fresh := s.fresh + 2
        csr := { s.csr with evqHead := s.csr.evqHead + 1 }
        evSeq := (s.evSeq + 1) % 2 ^ 32
        waiting := s.waiting.eraseIdx k
        events := if e.parked then s.events ++ [e'] else s.events }) ∧
  (∀ (s : State) (k : Nat) (e : Event), s.waiting[k]? = some e → s.csr.evqEn = true → s.powerOff = none →
    (∀ d ∈ s.waiting.take k, e.block = 0 ∨ d.block ≠ e.block) →
    evqEntries s.csr.evqSize.toNat ≤ (s.csr.evqHead - s.csr.evqTail).toNat →
      exec (.eventPost k) s = .next (({ s with csr := { s.csr with evqOvf := true } } : State).setPend 8)) ∧
  -- An event of a block in its cores is answered: RESUME lets the block go on at the instruction, a pair as a pair; SKIP
  -- goes past it, a pair past both slots (the lanes are those of the event: notes/assumptions/26.md); KILL ends the
  -- block. What its lanes waited with for other devices is over.
  (∀ (s : State) (seq : Word) (e : Event) (rs : List Request) (u : State), s.answerable seq.toNat s.isHyper = some e →
    s.eventAway e = false → rs = (s.fabric.requests.filter fun r => !(r.block = e.block && e.lanes.any fun l => l.1 = r.group
    && l.2.getLsbD r.lane)) → u = ({ s with events := s.events.erase e } : State).setRequests rs →
      exec (.blkctlResume seq) s = .next
        (if e.pair then e.lanes.foldl (fun (s : State) x => s.updGroup (.unit e.block x.1 0) fun g =>
          (lanesOf x.2).foldl (fun g l => g.updThread l fun t => { t with again := true }) g) u else u)) ∧
  (∀ (s : State) (seq : Word) (e : Event) (rs : List Request), s.answerable seq.toNat s.isHyper = some e →
    s.eventAway e = false → rs = (s.fabric.requests.filter fun r => !(r.block = e.block && e.lanes.any fun l => l.1 = r.group
    && l.2.getLsbD r.lane)) →
      exec (.blkctlSkip seq) s = .next
        (e.lanes.foldl (fun (s : State) x => s.skipLanes e.block x.1 x.2 e.pair)
        (({ s with events := s.events.erase e } : State).setRequests rs))) ∧
  (∀ (s : State) (seq : Word) (e : Event) (rs : List Request), s.answerable seq.toNat s.isHyper = some e →
    s.eventAway e = false → rs = (s.fabric.requests.filter fun r => !(r.block = e.block && e.lanes.any fun l => l.1 = r.group
    && l.2.getLsbD r.lane)) →
      exec (.blkctlKill seq) s = .next ((({ s with events := s.events.erase e } : State).setRequests rs).killBlock e.block))

end

namespace Sys2Proof.Machine

open Sys2Proof

/-! ## Power, temperature and tokens -/

end Sys2Proof.Machine

section

open Sys2Proof Sys2Proof.Machine

/-- R371, R372, R380, R383: a balance sample takes, for each column, the rails' mismatches, the upper core's demand minus the
lower one's, where a core draws what its ballast engine runs at, ramped down to now, at least; the current, which falls by no more than 125 in each
250 ns; and state 2 with an IMBAL event once some mismatch was above 250 in two samples in a row, which it keeps. Ballast
does what BURN asks at least. Each launch is charged its part of the energy, the window its energy and its cap of
min(TOKENS, 3,900), and every domain's level is re-evaluated. The status registers show the sample. Nothing else of the
machine changes. (The readings, among them how a fall's ballast is shared, are the environment's: notes/assumptions/39.md;
the layer voltage behind a charge is notes/assumptions/86.md.) -/
def Obligations.BalanceSamples : Prop :=
  ∀ (cols : List ColumnReading) (falls : List (List (Nat × Nat))) (power : List Nat) (energy proj : Nat) (s : State),
    ∃ t, exec (.balanceSample cols falls power energy proj) s = .next t ∧
      t = { s with
        columns := t.columns, launches := t.launches, supplies := t.supplies, waiting := t.waiting, fresh := t.fresh
        slots := [], capDuty := t.capDuty, winEnergy := s.winEnergy + energy, winBudget := s.winBudget + min s.csr.tokens 3900 } ∧
      (∀ (k : Nat) (c : Column) (r : ColumnReading), s.columns[k]? = some c → cols[k]? = some r →
        ∃ d, t.columns[k]? = some d ∧ d.pclk20 = c.pclk20 ∧
          (∀ y, y < 4 → d.demand.getD y 0 = max (r.demand.getD y 0) (1000 * (c.ramped s.uptime).blst.getD y 0 / 16)) ∧
          d.rails = [(d.demand.getD 1 0 : Int) - d.demand.getD 0 0, (d.demand.getD 2 0 : Int) - d.demand.getD 1 0,
            (d.demand.getD 3 0 : Int) - d.demand.getD 2 0] ∧
          d.curr = max (min 4095 r.curr) (c.curr - (s.uptime - c.rampAt) / 2) ∧
          d.shown.state = d.state ∧ d.shown.curr = d.curr ∧ d.shown.blst = d.blst ∧
          d.overCnt = (if ∃ m ∈ d.rails, 250 < m.natAbs then c.overCnt + 1 else 0) ∧
          (d.state = 2 ↔ c.state = 2 ∨ 2 ≤ d.overCnt) ∧
          d.imbCnt = (if c.state ≠ 2 ∧ 2 ≤ d.overCnt then min 255 (c.imbCnt + 1) else c.imbCnt) ∧
          ∀ y, y < 4 → (s.burnOf (coreAt k y)).1 ≤ 16 → (s.burnOf (coreAt k y)).1 ≤ d.blst.getD y 0 ∧ d.blst.getD y 0 ≤ 16) ∧
      (∃ es : List Event, t.waiting = s.waiting ++ es ∧ (∀ e ∈ es, e.cause = .imbal ∧ e.parked = false) ∧
        es.length = ((List.range s.columns.length).filter fun k =>
          ((s.columns[k]?).map fun c => decide (c.state ≠ 2)).getD false && ((t.columns[k]?).map fun c => decide (c.state = 2)).getD false).length) ∧
      t.launches = (s.launches.map fun l => { l with energy := l.energy + chargeTo l.id (s.charges cols falls) }) ∧
      ∀ (d : Nat) (x : Supply), t.supplies[d]? = some x → x.effPl = t.effective d

/-- R369, R370, R373, R374, R377 to R382, R385 to R388, R324, R418: supplies, domains, columns, sensors and tokens change.
R370, R378: the effective level of a domain that feeds columns of one partition is the least of what is wanted, the cohort
level in cohort mode and else the highest level that a context running there requests, the partition's ceiling and CAPL. -/
def Obligations.PowerEventsHaveTheirEffect : Prop :=
  -- A domain's clock is switched to its effective level.
  (∀ (s : State) (d : Nat) (x : Supply), s.supplies[d]? = some x →
      exec (.levelChange d) s = .next { s with supplies := setAt s.supplies d { x with clock := x.effPl } }) ∧
  -- At its time the cohort level becomes NEXT, and in cohort mode the clock switches at that instant.
  (∀ (s : State) (d : Nat) (x : Supply) (u : State), s.supplies[d]? = some x → x.pending = true → x.adoptAt ≤ s.ftime →
    u = ({ s with supplies := setAt s.supplies d { x with cohort := x.next, pending := false } } : State).relevel →
      exec (.cohortLevelAdopt d) s = .next
        { u with
        supplies := updAt u.supplies d fun y => if x.cen then { y with clock := y.effPl } else y }) ∧
  -- Cohort control of a domain, whatever CEN is (notes/assumptions/37.md): a time less than 10 µs ahead sets LATE and
  -- counts as 10 µs ahead; entering cohort mode takes EFFPL as the cohort level.
  (∀ (s : State) (d : BitVec 2) (v : DWord) (x : Supply), s.supplies[d.toNat]? = some x →
      exec (.cohortWrite d v) s = .next
        (({ s with supplies := setAt s.supplies d.toNat { x with
        cen := v.getLsbD 63
        next := (v.extractLsb' 56 4).toNat
        atField := (v.extractLsb' 0 56).toNat
        adoptAt := max (s.ftime + 10000) (v.extractLsb' 0 56).toNat
        late := x.late || decide ((v.extractLsb' 0 56).toNat < s.ftime + 10000)
        pending := true
        cohort := if v.getLsbD 63 && !x.cen then x.effPl else x.cohort } } : State).relevel)) ∧
  -- The assignment of columns to supplies, of one tower at hypervisor level: ignored whole where a supply would feed two
  -- partitions or a column that moves is not idle.
  (∀ (s : State) (t : Bool) (v : DWord) (m : List (BitVec 2)), s.csr.pl = 2 → m.length = 48 → s.csr.supply.length = 48 →
    (∀ c, c < 48 → m.getD c 0 = if c / 24 = b2n t then v.extractLsb' (2 * (c % 24)) 2 else s.csr.supply.getD c 0) →
    s.supplyClash (b2n t) m = false → (∀ c, c < 48 → m.getD c 0 = s.csr.supply.getD c 0 ∨ s.columnBusy c = false) →
    s.powerOff = none →
      exec (.swmatrixWrite t v) s = .next
        (({ s with
        csr := { s.csr with supply := m }
        supplies := s.supplies.zipIdx.map fun (u : Supply × Nat) =>
          if (List.range 48).any (fun c => (m.getD c 0).toNat = u.2) then { u.1 with on := true } else { u.1 with on := false, power := 0 } } : State).relevel)) ∧
  (∀ (s : State) (t : Bool) (v : DWord) (m : List (BitVec 2)), m.length = 48 → s.csr.supply.length = 48 →
    (∀ c, c < 48 → m.getD c 0 = if c / 24 = b2n t then v.extractLsb' (2 * (c % 24)) 2 else s.csr.supply.getD c 0) →
    (s.csr.pl.toNat < 2 ∨ s.supplyClash (b2n t) m = true ∨
      ∃ c, c < 48 ∧ m.getD c 0 ≠ s.csr.supply.getD c 0 ∧ s.columnBusy c = true) →
      exec (.swmatrixWrite t v) s = .next s) ∧
  -- Thresholds written at hypervisor level in rising order, up to the fused limit; a column's duty of 1 to 16 sixteenths.
  (∀ (s : State) (i : Nat) (v : DWord), i < 2 → s.csr.pl = 2 → v.extractLsb' 0 10 < v.extractLsb' 10 10 →
    v.extractLsb' 10 10 < v.extractLsb' 20 10 → (v.extractLsb' 20 10).toNat ≤ critLimit i →
    (s.csr.thrcfg.getD i 0).extractLsb' 48 16 = 0 →
      exec (.thrcfgWrite i v) s = .next
        { s with csr := { s.csr with thrcfg := setAt s.csr.thrcfg i (v &&& 0x0000FFFFFFFFFFFF) } }) ∧
  (∀ (s : State) (i : Nat) (v : DWord), 2 ≤ i → s.csr.duty.getD (i - 2) 0 ≤ 16 → 1 ≤ (v.extractLsb' 0 5).toNat →
    (v.extractLsb' 0 5).toNat ≤ 16 →
      exec (.thrcfgWrite i v) s = .next
        { s with csr := { s.csr with duty := setAt s.csr.duty (i - 2) (v.extractLsb' 0 5).toNat } }) ∧
  -- A column held by an imbalance returns after 100 samples in balance.
  (∀ (s : State) (col : Nat) (c : Column), s.columns[col]? = some c → c.state = 2 → 100 ≤ c.calm →
      exec (.imbalRelease col) s = .next
        { s with columns := setAt s.columns col { c with state := s.balanceState col c.rails, calm := 0 } }) ∧
  -- A column's current follows a fall by no more than 125 in each 250 ns since it last took a value, and a rise at once;
  -- ballast of its cores holds what is between, and no more, where their other ballast does not (on a tie the charge is
  -- as notes/assumptions/85.md gives it).
  (∀ (s : State) (col want now : Nat) (c : Column), s.columns[col]? = some c → want ≤ 4095 →
    now = max want (c.curr - (s.uptime - c.rampAt) / 2) →
      exec (.slopeLimitRamp col want) s = .next
        { s with columns := setAt s.columns col { c with
        curr := now, ramp := now - want, rampAt := s.uptime
        blst := c.base.map fun b => max b.1 (min 16 (((now - want) * 16 + 999) / 1000))
        causes := c.base.map fun b => if b.1 < min 16 (((now - want) * 16 + 999) / 1000) then .falls else b.2 } }) ∧
  -- Every sensor is read; a reading 20 units beyond CRIT stops the package and its supplies go off 1 ms later (the
  -- model's choice: notes/assumptions/98.md).
  (∀ (s : State) (temps : List Nat) (sensors : List Sensor), temps.length = s.sensors.length →
    sensors.length = s.sensors.length →
    (∀ (k : Nat) (x : Sensor) (t : Nat), s.sensors[k]? = some x → temps[k]? = some t →
      sensors[k]? = some (if x.skip then { x with skip := false }
        else { temp := t % 1024, level := nextLevel (s.thrCfg k) (t % 1024) x.level, peak := max x.peak (t % 1024), skip := false })) →
    (∀ (k : Nat) (x : Sensor) (t : Nat), s.sensors[k]? = some x → temps[k]? = some t → x.skip = false →
      t % 1024 < thrOf (s.thrCfg k) 3 + 20) →
      exec (.thermalPoll temps) s = .next { s with sensors }) ∧
  (∀ (s : State) (temps : List Nat) (k t : Nat) (x : Sensor) (u : State), s.sensors[k]? = some x → temps[k]? = some t →
    x.skip = false → thrOf (s.thrCfg k) 3 + 20 ≤ t % 1024 → s.powerOff = none →
    u = { s with sensors := u.sensors, stopped := true, powerOff := some (s.uptime + 1000000) } → u.sensors =
    (s.sensors.zipIdx.map fun (y : Sensor × Nat) => ((temps[y.2]?).map (pollSensor (s.thrCfg y.2) y.1)).getD y.1) →
      exec (.thermalPoll temps) s = .next u) ∧
  -- A diode is calibrated: the next poll leaves its reading.
  (∀ (s : State) (i : Nat) (x : Sensor), s.sensors[i]? = some x →
      exec (.diodeCalibration i) s = .next { s with sensors := setAt s.sensors i { x with skip := true } }) ∧
  -- The end of a token window: the energy beyond the budget is the debt of the next.
  (∀ (s : State), s.tokWindow < s.ftime / 1000000 → s.winEnergy + s.csr.debt ≤ s.winBudget →
      exec (.tokenWindowEnd) s = .next
        { s with
        tokWindow := s.ftime / 1000000, winEnergy := 0, winBudget := 0, csr := { s.csr with debt := 0 } }) ∧
  (∀ (s : State), s.tokWindow < s.ftime / 1000000 → s.winBudget < s.winEnergy + s.csr.debt → s.csr.overn ≤ 255 →
      exec (.tokenWindowEnd) s = .next
        { s with
        tokWindow := s.ftime / 1000000, winEnergy := 0, winBudget := 0
        csr := { s.csr with debt := s.winEnergy + s.csr.debt - s.winBudget, overn := if s.csr.overn = 255 then 255 else s.csr.overn + 1 } }) ∧
  -- The token authority at hypervisor level adds a signed amount, where the sum stays in the range.
  (∀ (s : State) (x : Word) (n : Nat), s.csr.pl = 2 → s.csr.auth = true → (n : Int) = s.csr.tokens + x.toInt → n < 2 ^ 32 →
      exec (.mint x) s = .next { s with csr := { s.csr with tokens := n } }) ∧
  (∀ (s : State) (x : Word),
    (s.csr.pl.toNat < 2 ∨ s.csr.auth = false ∨ s.csr.tokens + x.toInt < 0 ∨ 2 ^ 32 ≤ s.csr.tokens + x.toInt) →
      exec (.mint x) s = .next s) ∧
  -- A transfer younger than 50 µs is accepted, and WAGGLE pends; a later one is refused.
  (∀ (s : State) (amount : Word) (t0 : Nat), s.ftime < t0 + 50000 → s.csr.tokens + amount.toNat < 2 ^ 32 →
      exec (.waggleAccept amount t0) s = .next
        { s with csr := { s.csr with
        tokens := s.csr.tokens + amount.toNat, intPend := s.csr.intPend ||| 0x40 } }) ∧
  (∀ (s : State) (amount : Word) (t0 : Nat), t0 + 50000 ≤ s.ftime →
      exec (.waggleAccept amount t0) s = .next s) ∧
  -- An acknowledged transfer is over; one not acknowledged within 100 µs returns its tokens, and TOKRET is posted with
  -- the device and the amount. The context and partition it names are free (notes/assumptions/31.md).
  (∀ (s : State) (k : Nat),
      exec (.waggleAck k) s = .next { s with fabric := { s.fabric with waggles := s.fabric.waggles.eraseIdx k } }) ∧
  (∀ (s : State) (k : Nat) (w : Waggle) (e : Event), s.fabric.waggles[k]? = some w → w.sent + 100000 ≤ s.ftime →
    s.csr.tokens + w.amount.toNat < 2 ^ 32 →
    e = plainEvent .tokRet e.ctx e.tpart 0 (leBytes 2 w.dev ++ [0, 0] ++ leBytes 4 w.amount.toNat) →
    e.ctx = (Config.freeValue s.fresh).toNat % 64 → e.tpart = (Config.freeValue s.fresh).toNat / 64 % 8 →
      exec (.tokret k) s = .next
        { s with
        fresh := s.fresh + 1
        csr := { s.csr with tokens := s.csr.tokens + w.amount.toNat }
        fabric := { s.fabric with waggles := s.fabric.waggles.eraseIdx k }
        waiting := s.waiting ++ [e] }) ∧
  ∀ (s : State) (d p : Nat) (x : Supply), s.supplies[d]? = some x → s.domain d ≠ [] →
    (∀ c ∈ s.domain d, s.tenantOfColumn c = some p) →
    s.effective d = min (if x.cen then x.cohort else s.reqPl d) (min (s.csr.ceil.getD p 15).toNat x.capL) ∧
    (∀ k y, s.ctxs[k]? = some y → s.runsIn k d = true → y.reqPl ≤ s.reqPl d) ∧
    (s.reqPl d = 0 ∨ ∃ k y, s.ctxs[k]? = some y ∧ s.runsIn k d = true ∧ y.reqPl = s.reqPl d)

end

namespace Sys2Proof.Machine

open Sys2Proof

/-! ## Links, registers, storage and reset -/

end Sys2Proof.Machine

section

open Sys2Proof Sys2Proof.Machine

/-- R3, R7, R326, R351 to R354, R396 to R404, R414, R417, R418, R422, R424 to R426, R429: links, registers, storage, background
work and reset have the effect they are given below, one for each clause. -/
def Obligations.DeviceEventsHaveTheirEffect : Prop :=
  -- A port that is up authenticates a flit or discards it; after 8 failures in a row the link goes down; after 2^31 flits
  -- its key is renewed; till then no flit is taken.
  (∀ (s : State) (i : Nat) (ok : Bool) (p q : Port), s.fabric.ports[i]? = some p → p.up = true → p.fails < 8 →
    p.flits < 2 ^ 31 → q = (if ok then { p with flits := p.flits + 1, fails := 0 } else { p with fails := p.fails + 1 }) →
      exec (.flitReceive i ok) s = .next { s with fabric := { s.fabric with ports := setAt s.fabric.ports i q } }) ∧
  (∀ (s : State) (i : Nat) (ok : Bool) (p : Port), s.fabric.ports[i]? = some p →
    (p.up = false ∨ 8 ≤ p.fails ∨ 2 ^ 31 ≤ p.flits) →
      exec (.flitReceive i ok) s = .next s) ∧
  (∀ (s : State) (i : Nat) (p : Port), s.fabric.ports[i]? = some p → p.up = true → 8 ≤ p.fails →
      exec (.linkDown i) s = .next { s with fabric := { s.fabric with ports := setAt s.fabric.ports i .down } }) ∧
  (∀ (s : State) (i : Nat) (p : Port), s.fabric.ports[i]? = some p → p.fails < 8 →
      exec (.linkDown i) s = .next s) ∧
  (∀ (s : State) (i : Nat) (p : Port), s.fabric.ports[i]? = some p → p.up = true → 2 ^ 31 ≤ p.flits →
      exec (.linkRekey i) s = .next
        { s with fabric := { s.fabric with ports := setAt s.fabric.ports i { p with flits := 0 } } }) ∧
  (∀ (s : State) (i : Nat) (peer : BitVec 16) (lanes : Nat) (att : Bool) (p : Port), s.stopped = false →
    s.fabric.unsigned = false → 1 ≤ lanes → lanes ≤ 8 → s.fabric.ports[i]? = some p → p.up = false →
      exec (.linkUp i peer lanes att) s = .next
        { s with fabric := { s.fabric with
        ports := setAt s.fabric.ports i ({ up := true, att, enc := true, lanes, peer, fails := 0, flits := 0 } : Port) } }) ∧
  -- After a signature failure no link comes up.
  (∀ (s : State) (i : Nat) (peer : BitVec 16) (lanes : Nat) (att : Bool), s.fabric.unsigned = true →
      exec (.linkUp i peer lanes att) s = .next s) ∧
  (∀ (s : State) (i : Nat),
      exec (.serdesCalibration i) s = .next s) ∧
  -- A module of a sled learns 4n + slot, its only device number, before it joins.
  (∀ (s : State) (n slot : Nat), Config.isSled = true → s.fabric.joined = false → slot < 4 → 4 * n + slot < 2048 →
      exec (.sledNumberReport n slot) s = .next { s with fabric := { s.fabric with sled := some (4 * n + slot) } }) ∧
  (∀ (s : State) (n slot : Nat), (Config.isSled = false ∨ s.fabric.joined = true) →
      exec (.sledNumberReport n slot) s = .next s) ∧
  -- A join over a link that is up: `%ftime` steps forward to domain time, or is held until domain time reaches it, and
  -- TSYNC tells whether it is within 20 ns; a module of a sled refuses a number that is not its own, and the host is
  -- told. (A new number while a block lives is not taken: notes/assumptions/87.md.)
  (∀ (s : State) (dev : BitVec 11) (time : Nat) (auth : Bool) (p : Port), s.stopped = false → s.fabric.unsigned = false →
    s.fabric.joined = false → p ∈ s.fabric.ports → p.up = true → s.devnumFree dev.toNat = true →
    (Config.isSled = true → s.fabric.sled = some dev.toNat) →
      exec (.fabricJoin dev time auth) s = .next
        { s with
        ftime := if s.ftime ≤ time then time else s.ftime
        csr := { s.csr with auth }
        fabric := { s.fabric with joined := true, tsync := decide (s.ftime ≤ time + 20), devnum := dev
                                  holdTime := if s.ftime ≤ time then 0 else s.ftime - time } }) ∧
  (∀ (s : State) (dev : BitVec 11) (time : Nat) (auth : Bool),
    (s.fabric.joined = true ∨ (∀ p ∈ s.fabric.ports, p.up = false) ∨ s.fabric.unsigned = true ∨
      s.devnumFree dev.toNat = false ∧ (Config.isSled = true → s.fabric.sled = some dev.toNat)) →
      exec (.fabricJoin dev time auth) s = .next s) ∧
  (∀ (s : State) (dev : BitVec 11) (time : Nat) (auth : Bool) (p : Port), s.stopped = false → s.fabric.unsigned = false →
    s.fabric.joined = false → p ∈ s.fabric.ports → p.up = true → Config.isSled = true → s.fabric.sled ≠ some dev.toNat →
      exec (.fabricJoin dev time auth) s = .next { s with fabric := { s.fabric with refused := some dev.toNat } }) ∧
  (∀ (s : State) (err : Nat), s.fabric.joined = true →
      exec (.timeSync err) s = .next
        { s with fabric := { s.fabric with tsync := decide (err ≤ 20 ∧ s.fabric.holdTime ≤ 20) } }) ∧
  -- The host's words of the mailbox, whose last pends HOSTMBOX, and the management core's, whose last raises entry 2047.
  (∀ (s : State) (i : BitVec 3) (x : DWord), s.fabric.hostLink = true → i ≠ 7 →
      exec (.hostMailboxWrite i x) s = .next { s with fabric := { s.fabric with hdata := setAt s.fabric.hdata i.toNat x } }) ∧
  (∀ (s : State) (x : DWord), s.fabric.hostLink = true →
      exec (.hostMailboxWrite 7 x) s = .next
        { s with
        fabric := { s.fabric with hseq := x.extractLsb' 0 32 }
        csr := { s.csr with intPend := s.csr.intPend ||| 0x80 } }) ∧
  (∀ (s : State) (i : BitVec 3) (x : DWord), s.csr.pl = 2 → i ≠ 7 →
      exec (.mgmtMailboxWrite i x) s = .next { s with fabric := { s.fabric with mdata := setAt s.fabric.mdata i.toNat x } }) ∧
  (∀ (s : State) (x : DWord), s.csr.pl = 2 →
      exec (.mgmtMailboxWrite 7 x) s = .next
        { s with fabric := { s.fabric with
        mseq := x.extractLsb' 0 32, msix := s.fabric.msix ||| BitVec.ofNat 2048 (2 ^ 2047) } }) ∧
  (∀ (s : State) (i : BitVec 3) (x : DWord), s.csr.pl.toNat < 2 →
      exec (.mgmtMailboxWrite i x) s = .next s) ∧
  -- A partition's job: its number is written only while JV is 0, and JV = 0 discards the keys; a key that names the job
  -- is accepted, or the older of two retired.
  (∀ (s : State) (p : BitVec 3) (x : DWord) (t : Tenant), s.csr.pl = 2 → s.tenants[p.toNat]? = some t →
      exec (.jobRegisterWrite p x) s = .next
        { s with tenants := setAt s.tenants p.toNat { t with
        jobId := if t.jv then t.jobId else x.extractLsb' 0 16, jv := x.getLsbD 63, keySt := if x.getLsbD 63 then t.keySt else 0 } }) ∧
  (∀ (s : State) (p : BitVec 3) (job : BitVec 16) (t : Tenant), s.tenants[p.toNat]? = some t → t.jv = true → t.jobId = job →
      exec (.jobKeyAccept p job false) s = .next
        { s with
        tenants := setAt s.tenants p.toNat { t with keySt := if t.keySt = 0 then 1 else 2 } }) ∧
  (∀ (s : State) (p : BitVec 3) (job : BitVec 16) (t : Tenant), s.tenants[p.toNat]? = some t → t.jv = true → t.jobId = job →
    t.keySt = 2 →
      exec (.jobKeyAccept p job true) s = .next { s with tenants := setAt s.tenants p.toNat { t with keySt := 1 } }) ∧
  (∀ (s : State) (p : BitVec 3) (job : BitVec 16) (retire : Bool) (t : Tenant), s.tenants[p.toNat]? = some t →
    (t.jv = false ∨ t.jobId ≠ job) →
      exec (.jobKeyAccept p job retire) s = .next s) ∧
  -- A context's identity at hypervisor level; one that comes to exist has nominal voltage and level, NBV 2 and 8, and the
  -- level requested by one that ends is gone with it.
  (∀ (s : State) (k : BitVec 6) (x : DWord), s.csr.pl = 2 → s.csr.ctxValid.getLsbD k.toNat = x.getLsbD 63 →
      exec (.ctxidWrite k x) s = .next
        { s with csr := { s.csr with
        ctxPart := setAt s.csr.ctxPart k.toNat (x.extractLsb' 56 3), ctxAsid := setAt s.csr.ctxAsid k.toNat (x.extractLsb' 0 16) } }) ∧
  (∀ (s : State) (k : BitVec 6) (x : DWord) (c : CtxBlock), s.csr.pl = 2 → s.csr.ctxValid.getLsbD k.toNat = false →
    x.getLsbD 63 = true → s.ctxs[k.toNat]? = some c →
      exec (.ctxidWrite k x) s = .next
        (({ s with
        csr := { s.csr with
          ctxValid := s.csr.ctxValid ||| (1#64 <<< k.toNat), nbv := setAt s.csr.nbv k.toNat 2
          ctxPart := setAt s.csr.ctxPart k.toNat (x.extractLsb' 56 3), ctxAsid := setAt s.csr.ctxAsid k.toNat (x.extractLsb' 0 16) }
        ctxs := setAt s.ctxs k.toNat { c with reqPl := 8 } } : State).relevel)) ∧
  (∀ (s : State) (k : BitVec 6) (x : DWord) (c : CtxBlock), s.csr.pl = 2 → s.csr.ctxValid.getLsbD k.toNat = true →
    x.getLsbD 63 = false → s.ctxs[k.toNat]? = some c →
      exec (.ctxidWrite k x) s = .next
        (({ s with
        csr := { s.csr with
          ctxValid := s.csr.ctxValid &&& ~~~(1#64 <<< k.toNat)
          ctxPart := setAt s.csr.ctxPart k.toNat (x.extractLsb' 56 3), ctxAsid := setAt s.csr.ctxAsid k.toNat (x.extractLsb' 0 16) }
        ctxs := setAt s.ctxs k.toNat { c with reqPl := 8 } } : State).relevel)) ∧
  -- Reads that clear: TOKDEBT, THRSTAT and BALSTAT by CSRR, and the error counters at their address.
  (∀ (s : State) (i : Nat),
      exec (.readToClear true 0x031 i) s = .next { s with csr := { s.csr with overn := 0 } }) ∧
  (∀ (s : State) (i : Nat) (x : Sensor), s.sensors[i]? = some x →
      exec (.readToClear true 0x034 i) s = .next { s with sensors := setAt s.sensors i { x with peak := 0 } }) ∧
  (∀ (s : State) (k : Nat) (c : Column), s.columns[k]? = some c →
      exec (.readToClear true 0x035 (2 * k)) s = .next { s with columns := setAt s.columns k { c with imbCnt := 0 } }) ∧
  (∀ (s : State) (i p : Nat), s.csr.pl = 2 → p < 8 →
      exec (.readToClear false (0xFF00010A00 + 4096 * p) i) s = .next { s with rel := { s.rel with ceCnt := 0, ueCnt := 0 } }) ∧
  -- Stores of 8 bytes to a partition control block at hypervisor level: its columns, vectors, bandwidth, windows and job
  -- map.
  (∀ (s : State) (p : Nat) (x : DWord) (t : Tenant), s.csr.pl = 2 → p < 8 → s.tenants[p]? = some t → t.rbusy = false →
    s.partitionRuns p = false → s.columnTwice p (x.extractLsb' 0 48) = false →
      exec (.registerWrite false (0xFF00010008 + 4096 * p) 8 x) s = .next
        ({ s with tenants := setAt s.tenants p { t with colMask := x.extractLsb' 0 48 } } : State).relevel) ∧
  (∀ (s : State) (p : Nat) (x : DWord), p < 8 → (s.partitionRuns p = true ∨ s.columnTwice p (x.extractLsb' 0 48) = true) →
      exec (.registerWrite false (0xFF00010008 + 4096 * p) 8 x) s = .next s) ∧
  (∀ (s : State) (p : Nat) (x : DWord) (t : Tenant), s.csr.pl = 2 → p < 8 → s.tenants[p]? = some t →
      exec (.registerWrite false (0xFF00010010 + 4096 * p) 8 x) s = .next
        { s with tenants := setAt s.tenants p { t with vcnt := x.extractLsb' 16 11, vbase := x.extractLsb' 0 11 } }) ∧
  (∀ (s : State) (p : Nat) (x : DWord) (t : Tenant), s.csr.pl = 2 → p < 8 → s.tenants[p]? = some t →
      exec (.registerWrite false (0xFF00010018 + 4096 * p) 8 x) s = .next
        { s with tenants := setAt s.tenants p { t with bwShare := x.extractLsb' 0 8 } }) ∧
  (∀ (s : State) (p j : Nat) (x : DWord) (t : Tenant), s.csr.pl = 2 → p < 8 → j < 32 → s.tenants[p]? = some t →
      exec (.registerWrite false (0xFF00010100 + 4096 * p + 8 * j) 8 x) s = .next
        { s with tenants := setAt s.tenants p { t with jobMap := setAt t.jobMap j x } }) ∧
  -- A store of the upper half of such a register leaves its lower half.
  (∀ (s : State) (p j : Nat) (x : DWord) (t : Tenant), s.csr.pl = 2 → p < 8 → j < 32 → s.tenants[p]? = some t →
      exec (.registerWrite false (0xFF00010104 + 4096 * p + 8 * j) 4 x) s = .next
        { s with
        tenants := setAt s.tenants p
          ({ t with jobMap := setAt t.jobMap j (x.extractLsb' 0 32 ++ (t.jobMap.getD j 0).extractLsb' 0 32) } : Tenant) }) ∧
  (∀ (s : State) (x : DWord), s.csr.pl = 2 → 0 < s.tenants.length → 10 ≤ x.toNat % 2 ^ 20 → x.toNat % 2 ^ 20 ≤ 10000 →
    s.fabric.ftimeout < 2 ^ 20 →
      exec (.registerWrite false 0xFF00010808 8 x) s = .next
        { s with fabric := { s.fabric with ftimeout := x.toNat % 2 ^ 20 } }) ∧
  -- A context's deferred-list base, of which bits 39 to 12 are kept (notes/assumptions/19.md), where the writer's level
  -- reaches the context.
  (∀ (s : State) (k : Nat) (x : DWord) (c : CtxBlock), k < 64 → (s.csr.pl = 2 ∨ s.tenantOf k = s.csr.part.toNat) →
    s.ctxs[k]? = some c → c.defBase &&& 0xFFFFFF0000000FFF = 0 →
      exec (.registerWrite false (0xFF00020400 + 4096 * k) 8 x) s = .next
        { s with ctxs := setAt s.ctxs k { c with defBase := x &&& 0x000000FFFFFFF000 } }) ∧
  -- The host's MSI-X table holds what the host stores to it (notes/assumptions/56.md).
  (∀ (s : State) (o : Nat) (x : DWord), s.fabric.hostLink = true → o < 0x8000 → o % 8 = 0 →
      exec (.registerWrite true (0x20000 + o) 8 x) s = .next
        { s with fabric := { s.fabric with msixTable := s.fabric.msixTable.write o 8 x.toNat } }) ∧
  (∀ (s : State) (host : Bool) (a size : Nat) (x : DWord), (size ∉ [1, 2, 4, 8] ∨ a % size ≠ 0) →
      exec (.registerWrite host a size x) s = .next s) ∧
  -- CLRPOIS at hypervisor level zeros one unit of HBM and takes its mark away; no other byte changes.
  (∀ (s : State) (a : Nat), s.csr.pl = 2 → a < hbmSize → a < 2 ^ 40 → 0 < s.tenants.length →
      exec (.clrpois a) s = .next
        { s with
        snoop := s.snoop.filter fun u => u ≠ a / 64 * 64
        mem := s.mem.clear (a / 64 * 64) 64
        rel := { s.rel with poison := s.rel.poison.filter fun k => k ≠ (0, a / 64 * 64) } }) ∧
  -- The scrubber corrects errors and may find a unit that it cannot correct: that is poisoned, counted and located.
  (∀ (s : State) (n : Nat) (bad : Option Nat), s.rel.sen = false →
      exec (.patrolScrub n bad) s = .next s) ∧
  (∀ (s : State) (n : Nat), s.rel.sen = true →
      exec (.patrolScrub n none) s = .next { s with rel := { s.rel with ceCnt := min 0xFFFFFFFF (s.rel.ceCnt + n) } }) ∧
  (∀ (s : State) (n a : Nat), s.rel.sen = true → a < hbmSize → (0, a / 64 * 64) ∉ s.rel.poison →
      exec (.patrolScrub n (some a)) s = .next
        { s with rel := { s.rel with
        ceCnt := min 0xFFFFFFFF (s.rel.ceCnt + n), ueCnt := min 65535 (s.rel.ueCnt + 1), uloc := 0, uaddr := a / 64 * 64
        poison := (0, a / 64 * 64) :: s.rel.poison } }) ∧
  -- The worst margin of the 192 cores and a core that has it.
  (∀ (s : State) (margins : List Byte) (core : Nat) (m : Byte), margins.length = 192 → margins[core]? = some m →
    (∀ x ∈ margins, m ≤ x) →
      exec (.agingMonitor margins core) s = .next
        { s with rel := { s.rel with ageMarg := m, ageCore := BitVec.ofNat 8 core } }) ∧
  -- A replay whose next event is missing 10 ms after the event that follows it was ready sets DIVERGE and holds nothing
  -- back any more.
  (∀ (s : State) (r : List Byte) (t : Nat), s.csr.capMode = 2 → s.csr.capFree = false → s.csr.capHead ≠ s.csr.capTail →
    s.csr.capSince = some t → t + 10000000 ≤ s.ftime → r = s.mem.bytes (s.csr.capSlot s.csr.capHead.toNat) 64 →
      exec (.replayTimeout) s = .next
        { s with
        csr := { s.csr with capDiv := true, capFree := true }
        waiting := s.waiting ++ [plainEvent .replay (leAt r 1 1 % 64) (s.tenantOf (leAt r 1 1 % 64)) 0 []] }) ∧
  (∀ (s : State), (s.csr.capMode ≠ 2 ∨ s.csr.capFree = true ∨ s.csr.capHead = s.csr.capTail ∨ s.csr.capSince = none) →
      exec (.replayTimeout) s = .next s) ∧
  (∀ (s : State) (t : Nat), s.csr.capSince = some t → s.ftime < t + 10000000 →
      exec (.replayTimeout) s = .next s) ∧
  -- A device reset with a signed image: everything of the device is at its reset value, HBM holds the image from 0 on and
  -- 0 elsewhere, and is what the host measures; the host link is up where the host has the port's features. With a
  -- refused image the management core is halted, the host link stays down and the mailbox says so.
  (∀ (s : State) (image : List Byte), s.powerOff = none →
      exec (.deviceReset image true) s = .next
        { State.reset with
      agenda := s.agenda, fresh := s.fresh, drawer := s.drawer, drawn := s.drawn
      nextId := s.nextId, hostMem := s.hostMem, peerMem := s.peerMem
      rel := { State.reset.rel with poison := s.rel.poison.filter fun k => k.1 = 9, boots := s.rel.boots + 1 }
      mem := Memory.empty.setBytes 0 image
      fabric := { State.reset.fabric with
        features := s.fabric.features, hostLink := s.fabric.features, measured := image
        silent := s.fabric.silent.map fun (x : Nat × Nat) => (x.1, 0)
        rasErrors := s.fabric.rasErrors, downReports := s.fabric.downReports } }) ∧
  (∀ (s : State) (image : List Byte), s.powerOff = none →
      exec (.deviceReset image false) s = .next
        { State.reset with
      agenda := s.agenda, fresh := s.fresh, drawer := s.drawer, drawn := s.drawn
      nextId := s.nextId, hostMem := s.hostMem, peerMem := s.peerMem
      rel := { State.reset.rel with poison := s.rel.poison.filter fun k => k.1 = 9, boots := s.rel.boots + 1 }
      mgmt := { State.reset.mgmt with halted := true }
      fabric := { State.reset.fabric with
        features := s.fabric.features, hostLink := false, unsigned := true, mseq := 1
        silent := s.fabric.silent.map fun (x : Nat × Nat) => (x.1, 0)
        rasErrors := s.fabric.rasErrors, downReports := s.fabric.downReports } }) ∧
  -- While the power is to go off, or is off, no reset restores it: it comes back on a request of the host no sooner than
  -- 60 s after it was taken away, with such a bring-up.
  (∀ (s : State) (image : List Byte) (signed : Bool) (t0 : Nat), s.powerOff = some t0 →
      exec (.deviceReset image signed) s = .next s) ∧
  (∀ (s : State) (image : List Byte) (t0 : Nat), s.powerOff = some t0 → t0 + 60000000000 ≤ s.uptime →
      exec (.powerRestoreRequest image true) s = .next
        { State.reset with
      agenda := s.agenda, fresh := s.fresh, drawer := s.drawer, drawn := s.drawn
      nextId := s.nextId, hostMem := s.hostMem, peerMem := s.peerMem
      rel := { State.reset.rel with poison := s.rel.poison.filter fun k => k.1 = 9, boots := s.rel.boots + 1 }
      mem := Memory.empty.setBytes 0 image
      fabric := { State.reset.fabric with
        features := s.fabric.features, hostLink := s.fabric.features, measured := image
        silent := s.fabric.silent.map fun (x : Nat × Nat) => (x.1, 0)
        rasErrors := s.fabric.rasErrors, downReports := s.fabric.downReports } }) ∧
  (∀ (s : State) (image : List Byte) (t0 : Nat), s.powerOff = some t0 → t0 + 60000000000 ≤ s.uptime →
      exec (.powerRestoreRequest image false) s = .next
        { State.reset with
      agenda := s.agenda, fresh := s.fresh, drawer := s.drawer, drawn := s.drawn
      nextId := s.nextId, hostMem := s.hostMem, peerMem := s.peerMem
      rel := { State.reset.rel with poison := s.rel.poison.filter fun k => k.1 = 9, boots := s.rel.boots + 1 }
      mgmt := { State.reset.mgmt with halted := true }
      fabric := { State.reset.fabric with
        features := s.fabric.features, hostLink := false, unsigned := true, mseq := 1
        silent := s.fabric.silent.map fun (x : Nat × Nat) => (x.1, 0)
        rasErrors := s.fabric.rasErrors, downReports := s.fabric.downReports } }) ∧
  (∀ (s : State) (image : List Byte) (signed : Bool) (t0 : Nat), s.powerOff = some t0 → s.uptime < t0 + 60000000000 →
      exec (.powerRestoreRequest image signed) s = .next s) ∧
  (∀ (s : State) (image : List Byte) (signed : Bool), s.powerOff = none →
      exec (.powerRestoreRequest image signed) s = .next s)

/-- R358: a reset of a partition disables its queues, drops its launches that have not ended and fails its commands; its blocks issue no more, and
their loads, stores, matrix operations, pins and accumulator requests are gone; its deferred list is empty and RBUSY is
set. Queues and launches of other partitions, device memory and the privileged registers stay. Its last step takes away the
partition's blocks, launches, frames, commands and translations, leaves zeros in its columns' accumulators and no poison in
its columns' arrays (the model's choice, with the numbering of the marked cores: notes/assumptions/24.md, 42.md), and clears
RBUSY. -/
def Obligations.PartitionsAreReset : Prop :=
  ∀ (p : BitVec 3) (s : State) (x : Tenant), s.tenants[p.toNat]? = some x → s.csr.capMode = 0 →
    (s.csr.pl = 2 → x.rbusy = false → ∃ t, exec (.partitionReset p) s = .next t ∧
      t.tenants = setAt s.tenants p.toNat { x with rbusy := true } ∧ t.mem = s.mem ∧ t.csr = s.csr ∧
      t.queues = (s.queues.map fun q =>
        if q.valid ∧ s.tenantOf q.ctx.toNat = p.toNat then { q with state := 4, en := false, code := 0 } else q) ∧
      t.launches = (s.launches.map fun l =>
        if s.tenantOf l.ctx = p.toNat ∧ l.state ≠ .done then { l with state := .dropped } else l) ∧
      (∀ c ∈ t.cmds, s.tenantOf c.ctx = p.toNat → c.state = .done) ∧ (∀ d ∈ t.deferred, s.tenantOf d.ctx ≠ p.toNat) ∧
      ∀ b ∈ t.blocks, s.tenantOf (s.ctxOfLaunch b.launch) = p.toNat → b.stopped = true ∧ (∀ r ∈ t.acmReqs, r.block ≠ b.id) ∧
        ∀ g ∈ b.groups, g.mxq = [] ∧ (∀ n ∈ g.pn, n = 0) ∧ ∀ th ∈ g.threads, th.ld = [] ∧ th.st = [] ∧ th.mx = 0) ∧
    (x.rbusy = true → ∃ t, exec (.partitionResetDone p) s = .next t ∧
      t = { s with
        blocks := t.blocks, windows := t.windows, launches := t.launches, cmds := t.cmds, tlb := t.tlb, ctxs := t.ctxs, acmLeft := t.acmLeft
        rel := { s.rel with poison := t.rel.poison }, tenants := setAt s.tenants p.toNat { x with rbusy := false } } ∧
      (∀ b, b ∈ t.blocks ↔ b ∈ s.blocks ∧ s.tenantOf (s.ctxOfLaunch b.launch) ≠ p.toNat) ∧
      (∀ l, l ∈ t.launches ↔ l ∈ s.launches ∧ s.tenantOf l.ctx ≠ p.toNat) ∧
      (∀ w, w ∈ t.windows ↔ w ∈ s.windows ∧ s.tenantOf (s.ctxOfLaunch w.launch) ≠ p.toNat) ∧
      (∀ c, c ∈ t.cmds ↔ c ∈ s.cmds ∧ s.tenantOf c.ctx ≠ p.toNat) ∧ (∀ e, e ∈ t.tlb ↔ e ∈ s.tlb ∧ s.tenantOf e.ctx ≠ p.toNat) ∧
      (∀ a, a ∈ t.acmLeft ↔ a ∈ s.acmLeft ∧ x.colMask.getLsbD (columnOf a.1) = false) ∧
      ∀ k, k ∈ t.rel.poison ↔ k ∈ s.rel.poison ∧ ¬ ((4 ≤ k.1 ∧ k.1 ≤ 7 ∨ k.1 = 17) ∧ x.colMask.getLsbD (columnOf (k.2 / 2 ^ 20 % 2 ^ 20)) = true))

end

namespace Sys2Proof.Machine

open Sys2Proof

/-! ## Encoding, the step, reset and invariants -/

end Sys2Proof.Machine

section

open Sys2Proof Sys2Proof.Machine

/-- R134, R136, R137, R140 to R145: words that the spec writes out decode to the instructions they stand for: FFMA.F32 under
@P1 V8, V2, V5, V8; BRA.H under @!P2; LOGIC's table 0x96; CVT with saturation; LD V4, [V2+8]; ATOM.CAS; BWAIT; XCOPY; MMAQ;
BURN 6, 300; and CSRR of TRAPIP. -/
def Obligations.WordsOfTheSpecDecode : Prop :=
  let f (d a b c : Opnd) (ty : Ty) (imm : BitVec 32) : Fields :=
    { fn := 0, gn := false, gp := 7, d, a, b, c, ty, rnd := 0, flag := false, imm }
  decode 0x220102002014088000000000 = .ok (.ffma { f (.v 8) (.v 2) (.v 5) (.v 8) .f32 0 with gp := 1 }) ∧
  decode 0x600AFFFFFFFFFF01FFFFFFE9 = .ok (.bra { f .zero .zero .zero .zero .i8 0xFFFFFFE9 with gn := true, gp := 2, flag := true }) ∧
  decode 0x09070040200C046000000096 = .ok (.logic (f (.v 1) (.v 2) (.v 3) (.v 4) .n32 0x96)) ∧
  decode 0x450700C01FFFFFB100000008 = .ok (.cvt { f (.v 3) (.v 1) .zero .zero .e4m3 8 with flag := true }) ∧
  decode 0x700701002FFFFF6000000008 = .ok (.ld (f (.v 4) (.v 2) .zero .zero .n32 8)) ∧
  decode 0x757701802020096000000000 = .ok (.atom { f (.v 6) (.v 2) (.v 8) (.v 9) .n32 0 with fn := 7 }) ∧
  decode 0x930700C0A02FFF0000000010 = .ok (.bwait (f (.v 3) (.v 10) (.v 11) .zero .i8 0x10)) ∧
  decode 0xA00701814060080000001000 = .ok (.xcopy (f (.v 6) (.v 20) (.v 24) (.v 8) .i8 0x1000)) ∧
  decode 0xB107FFC20FFD04A00000A100 = .ok (.mmaq (f .zero (.v 32) .zero (.s 4) .b16 0xA100)) ∧
  decode 0xC007FFDFFFFFFF0000012C06 = .ok (.burn (f .zero .imm .zero .zero .i8 0x12C06)) ∧
  decode 0xE007013FFFFFFF7000000004 = .ok (.csrr (f (.v 4) .zero .zero .zero .n64 4))

/-- R134, R138, R140, R144: for every well-formed instruction of the instruction set, decoding its encoding gives it back; and a
word that decodes is the encoding of the well-formed instruction it decodes to, so that no bit of a word is dropped.
R136, R138, R144, R306: a word that decodes to nothing is refused with the reason of the first check it fails, in the order that
notes/assumptions/73.md reads from R138 (the model's reading): 0 for an opcode that no instruction has, whatever the other bits
are, and for an FN above the highest that its opcode assigns; else, where the operand fields name operands, 1 for a field that is
reserved, unused and not ZERO or 0, or wrongly set, 2 for an operand outside its position's space or class or a window of 256
registers, and 3 for a type or rounding that the form does not accept. A word with an operand code that names nothing is
refused with at most 2. -/
def Obligations.DecodingAndEncodingAgree : Prop :=
  (∀ (i : Instr) (w : IWord), wellFormed i = true → encode i = some w → decode w = .ok i) ∧
  (∀ (i : Instr) (w : IWord), decode w = .ok i → encode i = some w ∧ wellFormed i = true) ∧
  (∀ (w : IWord) (r : Nat), decode w = .error (.illegal r) → r ≤ 3) ∧
  (∀ (w : IWord), (∀ f, Instr.ofKey (w.toNat / 2 ^ 88) f = none) → decode w = .error (.illegal 0)) ∧
  (∀ op, (0x14 ≤ op ∧ op ≤ 0x1F ∨ 0x33 ≤ op ∧ op ≤ 0x3F ∨ 0x4B ≤ op ∧ op ≤ 0x4F ∨ 0x59 ≤ op ∧ op ≤ 0x5F ∨ 0x7D ≤ op ∧ op ≤ 0x8F ∨
    0x99 ≤ op ∧ op ≤ 0x9F ∨ 0xA7 ≤ op ∧ op ≤ 0xAF ∨ 0xBA ≤ op ∧ op ≤ 0xBF ∨ 0xC5 ≤ op ∧ op ≤ 0xDF ∨ 0xEB ≤ op) →
    ∀ f, Instr.ofKey op f = none) ∧
  (∀ (w : IWord), (match w.toNat / 2 ^ 88 with
      | 0x0C | 0x58 | 0x67 | 0xE6 => 1 | 0x50 | 0x53 => 2 | 0x52 => 3 | 0x12 | 0x54 | 0x55 | 0x77 => 5 | 0x25 | 0x75 | 0x76 => 7
      | _ => 0) < fieldOf w 84 4 → decode w = .error (.illegal 0)) ∧
  (∀ (op : Nat) (f : Fields) (i : Instr), op < 256 → Instr.ofKey op f = some i → f.fn.toNat ≤ fnMax op →
    decode (encodeFields op f) =
      if (formOf op f).unusedOk f = false ∨ (formOf op f).resOk = false then .error (.illegal 1)
      else if (formOf op f).operandsOk 256 f = false then .error (.illegal 2)
      else if (formOf op f).tyOk = false ∨ (formOf op f).rndOk = false then .error (.illegal 3)
      else .ok i) ∧
  ∀ (w : IWord), (∃ at_ ∈ [70, 60, 50, 40], Opnd.ofCode (fieldOf w at_ 10) = none) → ∃ r, r ≤ 2 ∧ decode w = .error (.illegal r)

end

namespace Sys2Proof.Machine

open Sys2Proof

/-- The instruction at the IP of the current issuer's unit `c` is `i`: the IP lies in the image (R133), its line is whole and correct (R129 to R131), the
word in its slot decodes to `i` in the issuer's window (R138), the issuer's level and place may issue it (R301, R313), and no
lane of the unit stands there by a loop-back to a slot that is no legal target (R44). -/
structure State.Stands (s : State) (c : Ctx) (i : Instr) : Prop where
  ctx : s.ctx? = some c
  inside : s.ipOk c.u.ip = true
  frame : (s.frameAt c.u.ip).isSome = true
  back : (∀ l ∈ c.lanes, (c.g.thread l).back = false) ∨ s.isTarget c.u.ip = true
  parity : parFails (s.lineAt c.u.ip) = 0
  reserved : bits (lineWord (s.lineAt c.u.ip)) 23 9 = 0
  mgmt : s.cur = .mgmt → (s.level = 2 ∨ s.inWindows (lineOf c.u.ip) = true) ∧
    mgmtRefuses (fieldOf (slotWord (s.lineAt c.u.ip) (slotOf c.u.ip)) 88 8) = false
  word : decodeAt s.window (slotWord (s.lineAt c.u.ip) (slotOf c.u.ip)) = .ok i
  level : s.privilege i = none
  single : s.redundant = false

/-- No lane of an issuer's unit that still lives has been sent out of the image. -/
def State.Stays (m t : State) (c : Ctx) : Prop :=
  ∀ g, t.groupOf m.cur = some g → ∀ l ∈ c.lanes, (g.thread l).live = true → m.ipOk (g.thread l).ip = true

end Sys2Proof.Machine

section

open Sys2Proof Sys2Proof.Machine

/-- A step of the management core, which takes no interrupt, and a step of an entry with one unit that repeats no pair run the
instruction that stands at the IP: the next state is that of `exec` on it, but for who is the issuer, which is noted
only during an issue, the free values, which every step draws anew, and for an entry the slots its launch has used and
whether it was held. An event that it raises concerns the lanes of its block in the entry; DIVERGED stops its group alone. An
instruction that would send a lane out of the image takes BADTARGET in the first such lane, and has no effect (R133). A
step of another agent runs its row. -/
def Obligations.AStepRunsTheInstructionAtTheIp : Prop :=
  ∀ (s t : State) (i : Instr),
    (∀ (m : State) (c : Ctx) (u : IssueUnit) (us : List IssueUnit), s.agenda = [] → s.mgmt.halted = false → s.stopped = false →
      s.interrupted = false → s.mgmt.group.units = u :: us → u.held = none → m = { s with cur := .mgmt, trapped := none } →
      m.Stands c i → exec i m = .next t →
      (t.trapped ≠ none ∨ m.Stays t c → step s = .next t.tidy) ∧
      ∀ l ip, t.trapped = none → m.stray t c = some (l, ip) →
        step s = .next (m.takeTrap (mkTrap .badTarget 30 l (m.imageOffset ip % 2 ^ 52))).tidy) ∧
    (∀ (core part set way : Nat) (rest : List Action) (u : State) (p : Placed) (c : Ctx),
      s.agenda = .entry core part set way :: rest → u = { s with agenda := rest } → u.entryUnits core part set way = [p] →
      u.pairAgainIn [p] = false → (u.aim p p.unit.ip).Stands c i → exec i (u.aim p p.unit.ip) = .next t →
      (t.trapped = none → (u.aim p p.unit.ip).Stays t c →
        step s = .next (u.countSlots [p] 1 (u.noteHeld t p)).tidy) ∧
      ∀ x, t.trapped = some x → p.block ≠ 0 →
        step s = .next (u.countSlots [p] 1
          (if x.cause = .diverged then { t with trapped := none } else t.widenEvent [p] p)).tidy) ∧
    (∀ (rest : List Action), s.agenda = .event i :: rest → i.isa = none → exec i { s with agenda := rest } = .next t →
      step s = .next t.tidy)

/-- R302 to R311, R316, R327, R348, R354, R359, R361, R369, R377, R379, R381, R385, R403, R406, R417, R419, R424: the values that
the spec gives registers for reset. -/
def Obligations.ResetValues : Prop :=
  let s := State.reset
  (s.mgmt.group.thread 0).ip = 0 ∧ s.csrRead 0x000 0 = 0x20 ∧ s.csrRead 0x001 0 = 0x40 ∧ s.csrRead 0x005 0 = 0 ∧
  s.csrRead 0x006 0 = 0 ∧ s.csrRead 0x007 0 = 0xFFFFFFFFFFFFFFFF ∧ s.csrRead 0x008 0 = 0 ∧ s.csrRead 0x008 1 = 0 ∧
  (∀ k, k < 64 → s.csrRead 0x010 k = 0 ∧ s.csrRead 0x011 k = 0 ∧ s.csrRead 0x012 k = 2) ∧ (∀ k, k < 16 → s.csrRead 0x020 k = 0xFFFF) ∧
  (∀ k, k < 25 → s.csrRead 0x021 k = 0) ∧ s.csrRead 0x030 0 = 0 ∧ s.csrRead 0x030 1 = 0 ∧ s.csrRead 0x031 0 = 0 ∧ (∀ k, k < 8 → s.csrRead 0x032 k = 15) ∧
  (∀ k, k < 4 → s.csrRead 0x032 (8 + k) = 0) ∧ s.csrRead 0x033 0 = 0x20821A45F154 ∧ s.csrRead 0x033 1 = 0x20821905F154 ∧
  (∀ k, k < 48 → s.csrRead 0x033 (2 + k) = 16) ∧ (∀ k, k < 8 → s.csrRead 0x040 k = 0) ∧
  (∀ q, q < 256 → s.queueRead q 5 = 4 ∧ s.queueRead q 1 = 0 ∧ s.queueRead q 2 = 0) ∧
  (∀ p, p < 8 → s.tenantRead p 0 = 0 ∧ s.tenantRead p 8 = 0 ∧ s.tenantRead p 0x18 = 32 ∧ s.tenantRead p 0x60 = 0) ∧
  s.tenantRead 0 0x800 = 0 ∧ s.tenantRead 0 0x808 = 100 ∧ s.tenantRead 0 0xA10 = 0x8000000000015180 ∧
  (∀ k, k < 64 → s.ctxRead k 0x418 = 0x3E800000000) ∧ (∀ a, s.mem.byte a = 0) ∧ s.rel.poison = []

/-- At reset every memory is in canonical form and the management core is at hypervisor level. -/
def Obligations.ResetMeetsTheInvariants : Prop := State.reset.memoriesWf = true ∧ State.reset.csr.pl = 2 ∧ State.reset.levelOk = true

/-- Every step keeps every memory of the machine in canonical form, in which equal contents are equal data. -/
def Obligations.StepsKeepMemoriesCanonical : Prop :=
  ∀ (s t : State), s.memoriesWf = true → step s = .next t → t.memoriesWf = true

/-- R303, R312, R315: every step leaves the management core at supervisor or hypervisor level; it never comes to user level. -/
def Obligations.StepsKeepALegalLevel : Prop :=
  ∀ (s t : State), s.levelOk = true → step s = .next t → t.levelOk = true

end
end

