-- ==== Sys2Proof/Laws/Memory.lean ====
section
/-!
SUPPORT. Laws of the sparse memory: a byte written is the byte read, every other byte stays, and every operation keeps
the canonical form, so that equal memories are equal data.
-/

namespace Sys2Proof.Machine

open Sys2Proof

/-! ## Cells -/

/-- Every listed address of a canonical list lies above a bound. -/
def cellsAbove (a : Nat) (cs : List Host.Cell) : Prop := ∀ c ∈ cs, a < c.1

theorem sortedCells_cons (c : Host.Cell) (cs : List Host.Cell) :
    sortedCells (c :: cs) = true ↔ c.2 ≠ 0 ∧ cellsAbove c.1 cs ∧ sortedCells cs = true := by
  induction cs generalizing c with
  | nil => simp [sortedCells, cellsAbove]
  | cons d ds ih =>
    simp only [sortedCells, Bool.and_eq_true, bne_iff_ne, ne_eq, decide_eq_true_eq, ih, cellsAbove]
    constructor
    · rintro ⟨⟨h1, h2⟩, h3⟩
      refine ⟨h1, ?_, h3⟩
      intro x hx
      rcases List.mem_cons.1 hx with rfl | hx
      · exact h2
      · exact Nat.lt_trans h2 (h3.2.1 x hx)
    · rintro ⟨h1, h2, h3⟩
      exact ⟨⟨h1, h2 d (by simp)⟩, h3⟩

theorem readCells_above {a : Nat} : ∀ {cs : List Host.Cell}, cellsAbove a cs → readCells cs a = 0
  | [], _ => rfl
  | (b, x) :: cs, h => by
    have hb : a < b := h (b, x) (by simp)
    simp [readCells, hb, Nat.ne_of_lt hb]

theorem writeCells_above {a b : Nat} {x : Byte} :
    ∀ {cs : List Host.Cell}, b < a → cellsAbove b cs → cellsAbove b (writeCells cs a x)
  | [], hba, _ => by
    by_cases hx : x = 0 <;> simp [writeCells, hx, cellsAbove, hba]
  | (d, y) :: cs, hba, h => by
    have hd : b < d := h (d, y) (by simp)
    have hcs : cellsAbove b cs := fun c hc => h c (by simp [hc])
    have ih := writeCells_above (x := x) hba hcs
    simp only [writeCells]
    intro c hc
    split at hc
    · split at hc
      · exact h c hc
      · rcases List.mem_cons.1 hc with rfl | hc
        · exact hba
        · exact h c hc
    · split at hc
      · split at hc
        · exact hcs c hc
        · rcases List.mem_cons.1 hc with rfl | hc
          · exact hba
          · exact hcs c hc
      · rcases List.mem_cons.1 hc with rfl | hc
        · exact hd
        · exact ih c hc

/-- A write keeps the canonical form. -/
theorem writeCells_sorted {a : Nat} {x : Byte} :
    ∀ {cs : List Host.Cell}, sortedCells cs = true → sortedCells (writeCells cs a x) = true
  | [], _ => by simp only [writeCells]; split <;> simp_all [sortedCells]
  | (b, y) :: cs, h => by
    have hs := (sortedCells_cons (b, y) cs).1 h
    simp only [writeCells]
    split
    · rename_i hab
      split
      · exact h
      · rename_i hx
        refine (sortedCells_cons _ _).2 ⟨hx, ?_, h⟩
        intro c hc
        rcases List.mem_cons.1 hc with rfl | hc
        · exact hab
        · exact Nat.lt_trans hab (hs.2.1 c hc)
    · split
      · rename_i hab
        subst hab
        split
        · exact hs.2.2
        · rename_i hx
          exact (sortedCells_cons _ _).2 ⟨hx, hs.2.1, hs.2.2⟩
      · rename_i h1 h2
        exact (sortedCells_cons _ _).2
          ⟨hs.1, writeCells_above (Nat.lt_of_le_of_ne (Nat.not_lt.1 h1) (Ne.symm h2)) hs.2.1, writeCells_sorted hs.2.2⟩

theorem readCells_writeCells_same {a : Nat} {x : Byte} :
    ∀ {cs : List Host.Cell}, sortedCells cs = true → readCells (writeCells cs a x) a = x
  | [], _ => by simp only [writeCells]; split <;> simp_all [readCells]
  | (b, y) :: cs, h => by
    have hs := (sortedCells_cons (b, y) cs).1 h
    simp only [writeCells]
    split
    · rename_i hab
      split
      · rename_i hx
        simp [readCells, hab, Nat.ne_of_lt hab, hx]
      · simp [readCells]
    · split
      · rename_i hab
        subst hab
        split
        · rename_i hx
          rw [hx]
          exact readCells_above hs.2.1
        · simp [readCells]
      · rename_i h1 h2
        simp only [readCells, h2, h1, if_false]
        exact readCells_writeCells_same hs.2.2

theorem readCells_writeCells_other {a b : Nat} {x : Byte} (hab : b ≠ a) :
    ∀ {cs : List Host.Cell}, sortedCells cs = true → readCells (writeCells cs a x) b = readCells cs b
  | [], _ => by
    simp only [writeCells]
    split <;> simp_all [readCells]
  | (d, y) :: cs, h => by
    have hs := (sortedCells_cons (d, y) cs).1 h
    simp only [writeCells]
    split
    · rename_i had
      split
      · rfl
      · by_cases hba : b < a
        · have hbd : b < d := Nat.lt_trans hba had
          simp [readCells, hab, hba, hbd, Nat.ne_of_lt hbd]
        · simp [readCells, hab, hba]
    · split
      · rename_i had
        subst had
        split
        · by_cases hba : b < a
          · have hcs : cellsAbove b cs := fun c hc => Nat.lt_trans hba (hs.2.1 c hc)
            rw [readCells_above hcs]
            simp [readCells, hab, hba]
          · simp [readCells, hab, hba]
        · simp [readCells, hab]
      · rename_i h1 h2
        simp only [readCells]
        split
        · rfl
        · split
          · rfl
          · exact readCells_writeCells_other hab hs.2.2

theorem filter_sorted (p : Host.Cell → Bool) :
    ∀ {cs : List Host.Cell}, sortedCells cs = true → sortedCells (cs.filter p) = true
  | [], _ => by simp [sortedCells]
  | c :: cs, h => by
    have hs := (sortedCells_cons c cs).1 h
    by_cases hp : p c
    · rw [List.filter_cons_of_pos hp]
      exact (sortedCells_cons _ _).2
        ⟨hs.1, fun d hd => hs.2.1 d (List.mem_of_mem_filter hd), filter_sorted p hs.2.2⟩
    · rw [List.filter_cons_of_neg hp]
      exact filter_sorted p hs.2.2

/-! ## Memories -/

@[simp] theorem Memory.empty_wf : Memory.empty.wf = true := rfl

@[simp] theorem Memory.empty_byte (a : Nat) : Memory.empty.byte a = 0 := rfl

theorem Memory.setByte_wf {m : Memory} (h : m.wf = true) (a : Nat) (x : Byte) : (m.setByte a x).wf = true :=
  writeCells_sorted h

/-- A byte written is the byte read. -/
theorem Memory.byte_setByte_same {m : Memory} (h : m.wf = true) (a : Nat) (x : Byte) : (m.setByte a x).byte a = x :=
  readCells_writeCells_same h

/-- A write leaves every other byte as it was. -/
theorem Memory.byte_setByte_other {m : Memory} (h : m.wf = true) {a b : Nat} (hab : b ≠ a) (x : Byte) :
    (m.setByte a x).byte b = m.byte b :=
  readCells_writeCells_other hab h

theorem Memory.write_wf {m : Memory} (h : m.wf = true) (a n x : Nat) : (m.write a n x).wf = true := by
  induction n generalizing m a x with
  | zero => exact h
  | succ n ih => exact ih (Memory.setByte_wf h a _) _ _

theorem Memory.setBytes_wf {m : Memory} (h : m.wf = true) (a : Nat) (bs : List Byte) : (m.setBytes a bs).wf = true := by
  induction bs generalizing m a with
  | nil => exact h
  | cons b bs ih => exact ih (Memory.setByte_wf h a b) _

theorem Memory.clear_wf {m : Memory} (h : m.wf = true) (lo n : Nat) : (m.clear lo n).wf = true :=
  filter_sorted _ h

theorem copyCells_wf {dst : Memory} (h : dst.wf = true) (lo n dest : Nat) (cs : List Host.Cell) :
    (copyCells dst lo n dest cs).wf = true := by
  induction cs generalizing dst with
  | nil => exact h
  | cons c cs ih =>
    simp only [copyCells]
    split
    · exact ih (Memory.setByte_wf h _ _)
    · exact ih h

theorem readCells_filter {keep : Host.Cell → Bool} {q : Nat → Bool} (hq : ∀ c, keep c = q c.1) (a : Nat) :
    ∀ {cs : List Host.Cell}, sortedCells cs = true → readCells (cs.filter keep) a = if q a then readCells cs a else 0
  | [], _ => by simp [readCells]
  | (b, x) :: cs, h => by
    obtain ⟨-, hab, hs⟩ := (sortedCells_cons (b, x) cs).1 h
    have ih := readCells_filter hq a hs
    have hle : a ≤ b → readCells cs a = 0 := fun hl => readCells_above fun c hc => Nat.lt_of_le_of_lt hl (hab c hc)
    by_cases hk : keep (b, x) = true
    · rw [List.filter_cons_of_pos hk]
      simp only [readCells]
      by_cases he : a = b
      · subst he; simp [← hq (a, x), hk]
      · by_cases hl : a < b <;> simp [he, hl, ih]
    · rw [List.filter_cons_of_neg hk, ih]
      by_cases he : a = b
      · subst he; simp [← hq (a, x), hk]
      · by_cases hl : a < b <;> simp [readCells, he, hl]
        exact fun _ => hle (Nat.le_of_lt hl)

/-- A memory cleared over a range reads 0 there and as before elsewhere. -/
theorem Memory.byte_clear {m : Memory} (h : m.wf = true) (lo n a : Nat) :
    (m.clear lo n).byte a = if lo ≤ a ∧ a < lo + n then 0 else m.byte a := by
  unfold Memory.byte Memory.clear
  rw [readCells_filter (q := fun a => a < lo || lo + n ≤ a) (fun _ => rfl) a h]
  by_cases h1 : a < lo <;> by_cases h2 : lo + n ≤ a <;> simp [h1, h2]

/-- A copy of listed bytes puts those of its range that are not 0 at their places and leaves every other byte as it was. -/
theorem byte_copyCells {lo n dest : Nat} (a : Nat) : ∀ {cs : List Host.Cell} {dst : Memory}, dst.wf = true → sortedCells cs = true →
    (copyCells dst lo n dest cs).byte a =
      if dest ≤ a ∧ a < dest + n ∧ readCells cs (lo + (a - dest)) ≠ 0 then readCells cs (lo + (a - dest)) else dst.byte a
  | [], dst, _, _ => by simp [copyCells, readCells]
  | (b, x) :: cs, dst, hd, h => by
    obtain ⟨hx, hab, hs⟩ := (sortedCells_cons (b, x) cs).1 h
    have hle : ∀ y, y ≤ b → readCells cs y = 0 := fun y hl => readCells_above fun c hc => Nat.lt_of_le_of_lt hl (hab c hc)
    have hcons : ∀ y, readCells ((b, x) :: cs) y = if y = b then x else readCells cs y := by
      intro y
      simp only [readCells]
      by_cases he : y = b
      · simp [he]
      · by_cases hl : y < b <;> simp [he, hl]
        exact (hle y (Nat.le_of_lt hl)).symm
    simp only [copyCells, hcons]
    have hb0 := hle b (Nat.le_refl _)
    split
    · rename_i hr
      simp only [Bool.and_eq_true, decide_eq_true_eq] at hr
      rw [byte_copyCells a (Memory.setByte_wf hd _ _) hs]
      by_cases ha : a = dest + (b - lo)
      · have hy : lo + (a - dest) = b := by omega
        have hin : dest ≤ a ∧ a < dest + n := by omega
        simp only [hy, hb0, if_pos, hin.1, hin.2]
        rw [ha, Memory.byte_setByte_same hd]
        simp only [ne_eq, not_true_eq_false, and_false, if_false, true_and]
        rw [if_pos hx]
      · rw [Memory.byte_setByte_other hd ha]
        by_cases hin : dest ≤ a ∧ a < dest + n
        · have hy : lo + (a - dest) ≠ b := by omega
          simp [hy]
        · have : ¬ (dest ≤ a ∧ a < dest + n ∧ readCells cs (lo + (a - dest)) ≠ 0) := fun k => hin ⟨k.1, k.2.1⟩
          rw [if_neg this, if_neg (fun k => hin ⟨k.1, k.2.1⟩)]
    · rename_i hr
      simp only [Bool.and_eq_true, decide_eq_true_eq] at hr
      rw [byte_copyCells a hd hs]
      by_cases hin : dest ≤ a ∧ a < dest + n
      · have hy : lo + (a - dest) ≠ b := by omega
        simp [hy]
      · have : ¬ (dest ≤ a ∧ a < dest + n ∧ readCells cs (lo + (a - dest)) ≠ 0) := fun k => hin ⟨k.1, k.2.1⟩
        rw [if_neg this, if_neg (fun k => hin ⟨k.1, k.2.1⟩)]

/-- Memories whose bytes agree over a range read alike there. -/
theorem Memory.read_congr {m k : Memory} : ∀ {n a b : Nat}, (∀ i, i < n → m.byte (a + i) = k.byte (b + i)) → m.read a n = k.read b n
  | 0, _, _, _ => rfl
  | n + 1, a, b, h => by
    have h0 := h 0 (by omega)
    rw [Nat.add_zero, Nat.add_zero] at h0
    simp only [Memory.read, h0]
    rw [Memory.read_congr (n := n) (a := a + 1) (b := b + 1) fun i hi => by
      have := h (i + 1) (by omega)
      rwa [show a + 1 + i = a + (i + 1) by omega, show b + 1 + i = b + (i + 1) by omega]]

/-- A write of `n` bytes leaves every byte outside them as it was. -/
theorem Memory.byte_write_other {m : Memory} (h : m.wf = true) {a n b : Nat} (x : Nat) (hb : b < a ∨ a + n ≤ b) :
    (m.write a n x).byte b = m.byte b := by
  induction n generalizing m a x with
  | zero => rfl
  | succ n ih =>
    simp only [Memory.write]
    rw [ih (Memory.setByte_wf h _ _) _ (by omega), Memory.byte_setByte_other h (by omega)]

/-- A byte list written leaves every byte outside it as it was. -/
theorem Memory.byte_setBytes_other {m : Memory} (h : m.wf = true) {a b : Nat} {bs : List Byte}
    (hb : b < a ∨ a + bs.length ≤ b) : (m.setBytes a bs).byte b = m.byte b := by
  induction bs generalizing m a with
  | nil => rfl
  | cons y ys ih =>
    simp only [List.length_cons] at hb
    simp only [Memory.setBytes]
    rw [ih (Memory.setByte_wf h _ _) (by omega), Memory.byte_setByte_other h (by omega)]

/-- The bytes written are the little-endian bytes of the value (R6). -/
theorem Memory.byte_write_in {m : Memory} (h : m.wf = true) {a n i : Nat} (x : Nat) (hi : i < n) :
    (m.write a n x).byte (a + i) = BitVec.ofNat 8 (x / 256 ^ i) := by
  induction n generalizing m a x i with
  | zero => omega
  | succ n ih =>
    simp only [Memory.write]
    rcases i with _ | i
    · rw [Memory.byte_write_other (Memory.setByte_wf h _ _) _ (by omega)]
      simp [Memory.byte_setByte_same h]
    · have := ih (Memory.setByte_wf h a (BitVec.ofNat 8 x)) (a := a + 1) (x := x / 256) (i := i) (by omega)
      rw [show a + (i + 1) = a + 1 + i by omega, this, Nat.div_div_eq_div_mul, Nat.pow_succ, Nat.mul_comm]

/-- What is written is what is read. -/
theorem Memory.read_write_same {m : Memory} (h : m.wf = true) (a n x : Nat) :
    (m.write a n x).read a n = x % 256 ^ n := by
  have key : ∀ (k a : Nat) (m' : Memory) (y : Nat),
      (∀ i, i < k → m'.byte (a + i) = BitVec.ofNat 8 (y / 256 ^ i)) → m'.read a k = y % 256 ^ k := by
    intro k
    induction k with
    | zero => intro a m' y _; simp [Memory.read, Nat.mod_one]
    | succ k ih =>
      intro a m' y hb
      simp only [Memory.read]
      have h0 := hb 0 (by omega)
      have hr := ih (a + 1) m' (y / 256) (fun i hi => by
        have := hb (i + 1) (by omega)
        rw [show a + 1 + i = a + (i + 1) by omega, this, Nat.div_div_eq_div_mul, Nat.pow_succ, Nat.mul_comm])
      rw [hr]
      simp only [Nat.add_zero, Nat.pow_zero, Nat.div_one] at h0
      rw [h0, BitVec.toNat_ofNat, Nat.pow_succ (n := 256), Nat.mul_comm (256 ^ k) 256, Nat.mod_mul]
  exact key n a _ x fun i hi => Memory.byte_write_in h x hi

/-- Two memories in canonical form that read alike are the same data. -/
theorem sortedCells_ext : ∀ {cs ds : List Host.Cell}, sortedCells cs = true → sortedCells ds = true →
    (∀ a, readCells cs a = readCells ds a) → cs = ds
  | [], [], _, _, _ => rfl
  | [], (b, y) :: ds, _, h, he => by
    have hs := (sortedCells_cons (b, y) ds).1 h
    have := he b
    simp only [readCells, if_true] at this
    exact absurd this.symm hs.1
  | (b, y) :: cs, [], h, _, he => by
    have hs := (sortedCells_cons (b, y) cs).1 h
    have := he b
    simp only [readCells, if_true] at this
    exact absurd this hs.1
  | (a, x) :: cs, (b, y) :: ds, hc, hd, he => by
    have hsc := (sortedCells_cons (a, x) cs).1 hc
    have hsd := (sortedCells_cons (b, y) ds).1 hd
    have hab : a = b := by
      rcases Nat.lt_trichotomy a b with h | h | h
      · have := he a
        simp only [readCells, if_true, Nat.ne_of_lt h, h, if_false] at this
        exact absurd this hsc.1
      · exact h
      · have := he b
        simp only [readCells, if_true, Nat.ne_of_lt h, h, if_false] at this
        exact absurd this.symm hsd.1
    subst hab
    have hxy : x = y := by simpa [readCells] using he a
    subst hxy
    rw [sortedCells_ext hsc.2.2 hsd.2.2 fun c => ?_]
    rcases Nat.lt_trichotomy c a with h | h | h
    · rw [readCells_above fun e he => Nat.lt_trans h (hsc.2.1 e he),
        readCells_above fun e he => Nat.lt_trans h (hsd.2.1 e he)]
    · subst h
      rw [readCells_above hsc.2.1, readCells_above hsd.2.1]
    · have := he c
      simpa [readCells, Nat.ne_of_gt h, Nat.not_lt.2 (Nat.le_of_lt h)] using this

theorem Memory.ext_of_wf {m n : Memory} (hm : m.wf = true) (hn : n.wf = true) (h : ∀ a, m.byte a = n.byte a) : m = n := by
  cases m; cases n
  exact congrArg Memory.mk (sortedCells_ext hm hn h)

/-- What `oneOf` chooses is one of the list, and of a list that is not empty it chooses one. -/
theorem oneOf_mem {α : Type} (n : Nat) (xs : List α) (h : xs ≠ []) : ∃ x ∈ xs, oneOf n xs = some x := by
  match xs with
  | [x] => exact ⟨x, by simp, rfl⟩
  | x :: y :: l =>
    have hn : n % (x :: y :: l).length < (x :: y :: l).length := Nat.mod_lt _ (by simp)
    exact ⟨_, List.getElem_mem hn, List.getElem?_eq_getElem hn⟩

end Sys2Proof.Machine
end

