-- ==== Sys2Proof/Laws/Groups.lean ====
section
/-!
SUPPORT. Laws of groups and threads: reading after updating, and what committing an issue leaves of a group.
-/

namespace Sys2Proof.Machine

open Sys2Proof

/-! ## Lists -/

section Lists
variable {α : Type}

@[simp] theorem updAt_length : ∀ (l : List α) (i : Nat) (f : α → α), (updAt l i f).length = l.length
  | [], _, _ => rfl
  | _ :: _, 0, _ => rfl
  | _ :: xs, i + 1, f => by simp [updAt, updAt_length xs i f]

theorem updAt_get? : ∀ (l : List α) (i : Nat) (f : α → α) (k : Nat),
    (updAt l i f)[k]? = if k = i then (l[k]?).map f else l[k]?
  | [], i, f, k => by simp [updAt]
  | x :: xs, 0, f, k => by cases k <;> simp [updAt]
  | x :: xs, i + 1, f, k => by
    cases k with
    | zero => simp [updAt]
    | succ k => simp [updAt, updAt_get? xs i f k]

theorem updAt_getD (l : List α) (i : Nat) (f : α → α) (k : Nat) (d : α) (h : k < l.length) :
    (updAt l i f).getD k d = if k = i then f (l.getD k d) else l.getD k d := by
  simp only [List.getD_eq_getElem?_getD, updAt_get?]
  split <;> simp [List.getElem?_eq_getElem h]

theorem updAt_getD_other (l : List α) (i : Nat) (f : α → α) (k : Nat) (d : α) (h : k ≠ i) :
    (updAt l i f).getD k d = l.getD k d := by
  simp [List.getD_eq_getElem?_getD, updAt_get?, h]

@[simp] theorem setAt_length (l : List α) (i : Nat) (x : α) : (setAt l i x).length = l.length := by simp [setAt]

theorem setAt_getD (l : List α) (i : Nat) (x : α) (k : Nat) (d : α) (h : k < l.length) :
    (setAt l i x).getD k d = if k = i then x else l.getD k d := updAt_getD _ _ _ _ _ h

theorem setAt_getD_other (l : List α) (i : Nat) (x : α) (k : Nat) (d : α) (h : k ≠ i) :
    (setAt l i x).getD k d = l.getD k d := updAt_getD_other _ _ _ _ _ h

end Lists

theorem lanesOf_nodup (m : Word) : (lanesOf m).Nodup := List.Nodup.filter _ List.nodup_range

/-! ## Threads of a group -/

@[simp] theorem Group.updThread_length (g : Group) (l : Nat) (f : Thread → Thread) :
    (g.updThread l f).threads.length = g.threads.length := by simp [Group.updThread]

theorem Group.thread_updThread (g : Group) (l k : Nat) (f : Thread → Thread) (h : k < g.threads.length) :
    (g.updThread l f).thread k = if k = l then f (g.thread k) else g.thread k :=
  updAt_getD _ _ _ _ _ h

theorem Group.thread_updThread_other (g : Group) (l k : Nat) (f : Thread → Thread) (h : k ≠ l) :
    (g.updThread l f).thread k = g.thread k :=
  updAt_getD_other _ _ _ _ _ h

@[simp] theorem Group.updThread_s (g : Group) (l : Nat) (f : Thread → Thread) : (g.updThread l f).s = g.s := rfl
@[simp] theorem Group.updThread_j (g : Group) (l : Nat) (f : Thread → Thread) : (g.updThread l f).j = g.j := rfl
@[simp] theorem Group.updThread_arrived (g : Group) (l : Nat) (f : Thread → Thread) :
    (g.updThread l f).arrived = g.arrived := rfl
@[simp] theorem Group.updThread_pn (g : Group) (l : Nat) (f : Thread → Thread) : (g.updThread l f).pn = g.pn := rfl
@[simp] theorem Group.updThread_pnGen (g : Group) (l : Nat) (f : Thread → Thread) :
    (g.updThread l f).pnGen = g.pnGen := rfl
@[simp] theorem Group.updThread_units (g : Group) (l : Nat) (f : Thread → Thread) : (g.updThread l f).units = g.units := rfl
@[simp] theorem Group.updThread_mxq (g : Group) (l : Nat) (f : Thread → Thread) : (g.updThread l f).mxq = g.mxq := rfl
@[simp] theorem Group.updThread_burn (g : Group) (l : Nat) (f : Thread → Thread) : (g.updThread l f).burn = g.burn := rfl
@[simp] theorem Group.updThread_shunt (g : Group) (l : Nat) (f : Thread → Thread) : (g.updThread l f).shunt = g.shunt := rfl

/-- A group with only threads changed: everything else is kept. -/
def Group.OnlyThreads (g h : Group) : Prop :=
  h = { g with threads := h.threads } ∧ h.threads.length = g.threads.length

theorem Group.OnlyThreads.refl (g : Group) : g.OnlyThreads g := ⟨rfl, rfl⟩

theorem Group.OnlyThreads.trans {g h k : Group} (a : g.OnlyThreads h) (b : h.OnlyThreads k) : g.OnlyThreads k := by
  obtain ⟨a1, a2⟩ := a
  obtain ⟨b1, b2⟩ := b
  refine ⟨?_, b2.trans a2⟩
  rw [b1, a1]

theorem Group.onlyThreads_updThread (g : Group) (l : Nat) (f : Thread → Thread) : g.OnlyThreads (g.updThread l f) :=
  ⟨rfl, by simp⟩

/-- Threads changed lane by lane, each once. -/
theorem foldl_updThread (f : Nat → Thread → Thread) :
    ∀ (ls : List Nat) (g : Group), ls.Nodup →
      g.OnlyThreads (ls.foldl (fun g l => g.updThread l (f l)) g) ∧
      ∀ k, k < g.threads.length →
        (ls.foldl (fun g l => g.updThread l (f l)) g).thread k = if k ∈ ls then f k (g.thread k) else g.thread k
  | [], g, _ => ⟨.refl g, by simp⟩
  | l :: ls, g, h => by
    obtain ⟨hl, hls⟩ := List.nodup_cons.1 h
    obtain ⟨i1, i2⟩ := foldl_updThread f ls (g.updThread l (f l)) hls
    refine ⟨(g.onlyThreads_updThread l (f l)).trans i1, fun k hk => ?_⟩
    simp only [List.foldl_cons]
    rw [i2 k (by simpa using hk), g.thread_updThread l k (f l) hk]
    by_cases hkl : k = l
    · subst hkl; simp [hl]
    · simp [hkl]

theorem Group.unpark_spec (g : Group) (ls : List Nat) :
    g.OnlyThreads (g.unpark ls) ∧
      ∀ k, k < g.threads.length → (g.unpark ls).thread k =
        if k ∈ ls then { g.thread k with status := .ready } else g.thread k := by
  induction ls generalizing g with
  | nil => exact ⟨.refl g, by simp [Group.unpark]⟩
  | cons l ls ih =>
    obtain ⟨i1, i2⟩ := ih (g.updThread l fun t => { t with status := .ready })
    refine ⟨(g.onlyThreads_updThread l _).trans i1, fun k hk => ?_⟩
    have : g.unpark (l :: ls) = (g.updThread l fun t => { t with status := .ready }).unpark ls := rfl
    rw [this, i2 k (by simpa using hk), g.thread_updThread l k _ hk]
    by_cases hkl : k = l
    · subst hkl; simp
    · simp [hkl]

theorem Group.quadDone_parked (g : Group) {l : Nat} (h : l ∈ g.quadDone) : (g.thread l).status = .parked .quad := by
  simp only [Group.quadDone, List.mem_filter, Bool.and_eq_true, decide_eq_true_eq] at h
  exact h.2.1

/-! ## The issuer's group -/

/-- A changed block read back. -/
theorem State.block?_updBlock (s : State) (b : Nat) (f : Block → Block) (hf : ∀ x, (f x).id = x.id) :
    (s.updBlock b f).block? b = (s.block? b).map f := by
  unfold State.block? State.updBlock
  dsimp only
  induction s.blocks with
  | nil => rfl
  | cons x xs ih =>
    simp only [List.map_cons, List.find?_cons]
    by_cases hx : x.id = b
    · have h1 : ((if x.id = b then f x else x).id == b) = true := by simp [hx, hf]
      have h2 : (x.id == b) = true := by simp [hx]
      rw [h1, h2]; simp [hx]
    · have h1 : ((if x.id = b then f x else x).id == b) = false := by simp [hx]
      have h2 : (x.id == b) = false := by simp [hx]
      rw [h1, h2]; exact ih

/-- A replaced group read back, where the issuer has one. -/
theorem State.groupOf_setGroup {s : State} {i : Issuer} {g : Group} (h : Group) (hg : s.groupOf i = some g) :
    (s.setGroup i h).groupOf i = some h := by
  cases i with
  | mgmt => rfl
  | unit b n u =>
    simp only [State.groupOf] at hg ⊢
    simp only [State.setGroup]
    rw [State.block?_updBlock s b (fun x => { x with groups := setAt x.groups n h }) (fun _ => rfl)]
    cases hb : s.block? b with
    | none => rw [hb] at hg; cases hg
    | some x =>
      rw [hb] at hg
      simp only [Option.bind_some] at hg
      simp only [Option.map_some, Option.bind_some]
      rw [setAt, updAt_get?, if_pos rfl, hg]
      rfl

/-- Two replacements of the issuer's group that agree replace it by the same group. -/
theorem State.setGroup_inj {s : State} {i : Issuer} {g a b : Group} (hg : s.groupOf i = some g)
    (h : s.setGroup i a = s.setGroup i b) : a = b := by
  have h1 := State.groupOf_setGroup a hg
  have h2 := State.groupOf_setGroup b hg
  rw [h, h2] at h1
  cases h1; rfl

/-- Placing ready lanes changes the issuer's group and of it only the units. -/
theorem State.ready_spec {s : State} {iss : Issuer} {g : Group} {ls : List Nat} {hi : Word → Bool} {he : Option Nat}
    {P : State → Prop} (h : ∀ us, P (s.setGroup iss { g with units := us })) : P (s.ready iss g ls hi he) := by
  unfold State.ready
  exact h _

/-- What committing an issue leaves: of the machine only the issuer's group changes; of the group only the units and the
threads; the lanes of the unit go where they are sent, and a thread parked at a quad instruction may be released. -/
theorem State.commitWith_spec (s : State) (c : Ctx) (g : Group) (dest : Nat → Goto) (keep : Bool) (hint : Word)
    (extra : List Nat) (held : Bool) (hc : c.lanes.Nodup) :
    ∃ h, s.commitWith c g dest keep hint extra held = s.setGroup s.cur h ∧
      h = { g with threads := h.threads, units := h.units } ∧ h.threads.length = g.threads.length ∧
      ∀ l, l < g.threads.length → Thread.Released (if l ∈ c.lanes then (g.thread l).goto (dest l) else g.thread l) (h.thread l) := by
  obtain ⟨o1, o2⟩ := foldl_updThread (fun l t => t.goto (dest l)) c.lanes g hc
  obtain ⟨e1, e2⟩ := o1
  unfold State.commitWith
  generalize hg1 : c.lanes.foldl (fun g l => g.updThread l fun t => t.goto (dest l)) g = g1 at o2 e1 e2
  have hthr : ∀ (us : List IssueUnit) (k : Nat), Group.thread { g1 with units := us } k = g1.thread k := fun _ _ => rfl
  dsimp only
  split
  · refine ⟨_, rfl, ?_, e2, fun l hl => ?_⟩
    · rw [e1]
    · left; rw [hthr, o2 l hl]
  · obtain ⟨⟨u1, u3⟩, u2⟩ := g1.unpark_spec g1.quadDone
    generalize hg2 : g1.unpark g1.quadDone = g2 at u1 u2 u3
    have hlv : (g2.leave c.lanes) = { g2 with units := (g2.leave c.lanes).units } := rfl
    rw [hlv]
    apply State.ready_spec (P := fun t => ∃ h, t = s.setGroup s.cur h ∧
      h = { g with threads := h.threads, units := h.units } ∧ h.threads.length = g.threads.length ∧
      ∀ l, l < g.threads.length → Thread.Released (if l ∈ c.lanes then (g.thread l).goto (dest l) else g.thread l) (h.thread l))
    intro us
    refine ⟨_, rfl, ?_, u3.trans e2, fun l hl => ?_⟩
    · rw [u1, e1]
    · show Thread.Released _ (g2.thread l)
      have hl1 : l < g1.threads.length := by omega
      rw [u2 l hl1]
      simp only []
      rw [← o2 l hl]
      split
      · rename_i hq
        exact .inr ⟨Group.quadDone_parked _ hq, rfl⟩
      · exact .inl rfl

theorem State.ctx?_lanes {s : State} {c : Ctx} (h : s.ctx? = some c) : c.lanes.Nodup ∧ c.lanes = lanesOf c.u.lanes := by
  unfold State.ctx? at h
  split at h
  · cases h
  · split at h
    · cases h
    · cases h; exact ⟨lanesOf_nodup _, rfl⟩

theorem State.ctx?_group {s : State} {c : Ctx} (h : s.ctx? = some c) :
    s.groupOf s.cur = some c.g ∧ c.rd = ((s.pairRead.map (·.1)).getD c.g).mixed s.fresh ∧ c.g.units[s.cur.idx]? = some c.u := by
  unfold State.ctx? at h
  split at h
  · cases h
  · rename_i hg
    split at h
    · cases h
    · rename_i hu
      cases h; exact ⟨hg, rfl, hu⟩

end Sys2Proof.Machine
end

