-- ==== Sys2Proof/Laws/Pipeline.lean ====
section
/-!
SUPPORT. Laws of the register pipeline: what an instruction that only reads and writes registers leaves, once for every
such instruction.
-/

namespace Sys2Proof.Machine

open Sys2Proof

/-! ## Traps -/

@[simp] theorem guardTraps_nil (k : Except Stop State) : guardTraps [] k = k := rfl

/-- A unit that is not of helpers alone goes through the checks of a group-wide form. -/
theorem guardGroup_whole {c : Ctx} (hw : c.whole = true) (ts : List Trap) (k : Except Stop State) :
    guardGroup c ts k = guardTraps ts k := by simp [guardGroup, Ctx.helpersAlone, Ctx.diverged, hw]

@[simp] theorem finish_ok (s t : State) : s.finish (.ok t) = .next t := rfl

@[simp] theorem finish_trap (s : State) (x : Trap) : s.finish (.error (.trap x)) = .next (s.takeTrap x) := rfl

@[simp] theorem finish_hold (s : State) : s.finish (.error .hold) = .next s := rfl

/-! ## Thread updates -/

/-- What acts on one lane: its thread by `f`, and of the rest of the group only what a queued matrix instruction has
lost. -/
def LaneLocal (act : Group → Nat → Group) (f : Nat → Thread → Thread) : Prop :=
  ∀ g l, act g l = { g with threads := updAt g.threads l (f l), mxq := (act g l).mxq } ∧
    (act g l).mxq.map MxOp.kept = g.mxq.map MxOp.kept

theorem foldl_local {act : Group → Nat → Group} {f : Nat → Thread → Thread} (ha : LaneLocal act f) :
    ∀ (ls : List Nat) (g : Group), ls.Nodup →
      let h := ls.foldl act g
      h = { g with threads := h.threads, mxq := h.mxq } ∧ h.threads.length = g.threads.length ∧
        h.mxq.map MxOp.kept = g.mxq.map MxOp.kept ∧
        ∀ k, k < g.threads.length → h.thread k = if k ∈ ls then f k (g.thread k) else g.thread k
  | [], g, _ => by simp
  | l :: ls, g, hn => by
    obtain ⟨hl, hls⟩ := List.nodup_cons.1 hn
    obtain ⟨a1, a2⟩ := ha g l
    obtain ⟨i1, i2, i3, i4⟩ := foldl_local ha ls (act g l) hls
    have hlen : (act g l).threads.length = g.threads.length := by rw [a1]; simp
    refine ⟨?_, i2.trans hlen, i3.trans a2, fun k hk => ?_⟩
    · simp only [List.foldl_cons]
      rw [i1]
      rw [a1]
    · simp only [List.foldl_cons]
      rw [i4 k (by omega)]
      have ht : (act g l).thread k = if k = l then f l (g.thread k) else g.thread k := by
        rw [a1]; exact updAt_getD _ _ _ _ _ hk
      rw [ht]
      by_cases hkl : k = l
      · subst hkl; simp [hl]
      · simp [hkl]

theorem setReg_local (n : Nat → Nat) (x : Nat → Word) :
    LaneLocal (fun g l => g.setReg l (n l) (x l)) fun l t => t.setReg (n l) (x l) := by
  intro g l
  refine ⟨rfl, ?_⟩
  simp [Group.setReg, MxOp.kept, Function.comp_def]

theorem setPair_local (n : Nat → Nat) (x : Nat → DWord) :
    LaneLocal (fun g l => g.setPair l (n l) (x l)) fun l t =>
      (t.setReg (n l) ((x l).extractLsb' 0 32)).setReg (n l + 1) ((x l).extractLsb' 32 32) := by
  intro g l
  constructor
  · simp only [Group.setPair, Group.setReg, Group.updThread]
    congr 1
    have : ∀ (ts : List Thread) (i : Nat) (f h : Thread → Thread), updAt (updAt ts i f) i h = updAt ts i (fun t => h (f t)) := by
      intro ts
      induction ts with
      | nil => intros; rfl
      | cons t ts ih => intro i f h; cases i <;> simp [updAt, ih]
    rw [this]
  · simp [Group.setPair, Group.setReg, MxOp.kept, Function.comp_def]

theorem same_local : LaneLocal (fun g _ => g) fun _ t => t := by
  intro g l
  refine ⟨?_, rfl⟩
  have : ∀ (ts : List Thread) (i : Nat), updAt ts i (fun t => t) = ts := by
    intro ts
    induction ts with
    | nil => intros; rfl
    | cons t ts ih => intro i; cases i <;> simp [updAt, ih]
  simp only [this]

theorem updThread_local (f : Nat → Thread → Thread) : LaneLocal (fun g l => g.updThread l (f l)) f :=
  fun _ _ => ⟨rfl, rfl⟩

/-- A V destination, a discarded one included, is written in its lane alone. -/
theorem writeDst_local (o : Opnd) (pair : Bool) (x : Nat → DWord) (ho : ∀ n, o ≠ .s n) :
    LaneLocal (fun g l => g.writeDst l o pair (x l)) fun l t => t.withDst o pair (x l) := by
  cases o <;> first
    | exact same_local
    | exact absurd rfl (ho _)
    | (cases pair
       · exact setReg_local _ _
       · exact setPair_local _ _)

theorem writePred_local (o : Opnd) (x : Nat → Bool) :
    LaneLocal (fun g l => g.writePred l o (x l)) fun l t => t.withPred o (x l) := by
  cases o <;> first
    | exact same_local
    | exact updThread_local _

theorem LaneLocal.comp {a b : Group → Nat → Group} {f h : Nat → Thread → Thread} (ha : LaneLocal a f) (hb : LaneLocal b h) :
    LaneLocal (fun g l => b (a g l) l) fun l t => h l (f l t) := by
  intro g l
  obtain ⟨a1, a2⟩ := ha g l
  obtain ⟨b1, b2⟩ := hb (a g l) l
  refine ⟨?_, b2.trans a2⟩
  have : ∀ (ts : List Thread) (i : Nat) (f h : Thread → Thread), updAt (updAt ts i f) i h = updAt ts i (fun t => h (f t)) := by
    intro ts
    induction ts with
    | nil => intros; rfl
    | cons t ts ih => intro i f h; cases i <;> simp [updAt, ih]
  dsimp only
  generalize (b (a g l) l) = y at b1 b2 ⊢
  generalize a g l = x at a1 a2 b1 b2
  obtain ⟨_, _, _, _, _, _, _, _, _, _⟩ := x
  simp only [Group.mk.injEq] at a1
  obtain ⟨rfl, rfl, rfl, rfl, rfl, rfl, rfl, -, rfl, rfl⟩ := a1
  rw [b1, this]

theorem Group.OnlyLanes.congr {g h : Group} {a b : Nat → Thread} (k : g.OnlyLanes h a)
    (e : ∀ l, l < g.threads.length → a l = b l) : g.OnlyLanes h b :=
  ⟨k.1, k.2.1, k.2.2.1, fun l hl => e l hl ▸ k.2.2.2 l hl⟩

/-! ## Committing -/

theorem namesS_false {f : Fields} (h : f.namesS = false) : ∀ n, f.d ≠ .s n := by
  intro n hd
  simp [Fields.namesS, hd] at h

/-- An issue in which the active lanes of the unit act locally and all its lanes move on. -/
theorem commit_local {s : State} {c : Ctx} (hc : s.ctx? = some c) (f : Fields) {act : Group → Nat → Group}
    {run : Nat → Thread → Thread} (ha : LaneLocal act run) (keep : Bool) (hint : Word) (g : Group)
    (hg : g.threads = c.g.threads) :
    ∃ h, s.commit c ((c.active f).foldl act g) (fun _ => .next) keep hint = s.setGroup s.cur h ∧
      g.OnlyLanes h (c.after f run) := by
  obtain ⟨hn, -⟩ := State.ctx?_lanes hc
  obtain ⟨i1, i2, i3, i4⟩ := foldl_local ha (c.active f) g (hn.filter _)
  obtain ⟨h, e, e1, e2, e3⟩ := State.commitWith_spec s c ((c.active f).foldl act g) (fun _ => .next) keep hint [] false hn
  refine ⟨h, e, ?_, e2.trans i2, ?_, fun l hl => ?_⟩
  · rw [e1]; rw [i1]
  · rw [e1]; exact i3
  · have := e3 l (by omega)
    rw [i4 l hl] at this
    have ht : g.thread l = c.g.thread l := by simp [Group.thread, hg]
    simp only [Ctx.after, Ctx.active, List.mem_filter, Thread.goto, ht] at this ⊢
    by_cases hl : l ∈ c.lanes <;> simpa [hl] using this

/-- The per-thread pipeline where every source is ready and sound. -/
theorem perThread_clear {s : State} {c : Ctx} (hc : s.ctx? = some c) (f : Fields) (regs : Nat → List Nat)
    (hp : ∀ l ∈ c.lanes, (c.rd.thread l).guard f = true → (c.rd.thread l).pendIn (regs l) = [])
    (hs : ∀ l ∈ c.lanes, (c.rd.thread l).guard f = true → s.poisonTrap l (regs l) = [])
    (checks : Ctx → List Nat → List Trap) (hk : checks c (c.active f) = []) (act : LaneOp) :
    s.perThread f regs checks act =
      .ok (s.commit c ((c.active f).foldl (fun g l => act c g l) c.g) (fun _ => .next) true 0) := by
  have hon : ∀ l ∈ c.active f, l ∈ c.lanes ∧ (c.rd.thread l).guard f = true := fun l hl => by
    simpa [Ctx.active] using hl
  have ht : ((c.active f).flatMap fun l => (c.rd.thread l).handleTrap l (regs l) ++ s.poisonTrap l (regs l)) = [] := by
    rw [List.flatMap_eq_nil_iff]
    intro l hl
    obtain ⟨h1, h2⟩ := hon l hl
    simp [Thread.handleTrap, hp l h1 h2, hs l h1 h2]
  have hw : (c.lanes.filter fun l => (if (c.active f).contains l then (c.rd.thread l).waitsFor (regs l) else []).isEmpty)
      = c.lanes := by
    rw [List.filter_eq_self]
    intro l hl
    split
    · rename_i hm
      obtain ⟨h1, h2⟩ := hon l (by simpa using hm)
      simp [Thread.waitsFor, hp l h1 h2]
    · rfl
  unfold State.perThread
  rw [hc]
  dsimp only
  rw [ht, guardTraps_nil]
  unfold State.withoutWaiting
  dsimp only
  rw [hw, if_pos rfl, hk, guardTraps_nil]

theorem checked_clear {s : State} {f : Fields} (h : s.checkerCode [if f.namesS then 1 else 0] = none)
    (r : Except Stop State) : s.checked f r = r := by
  unfold State.checked
  rw [h]

theorem State.Clear.checked {s : State} {c : Ctx} {op : Nat} {f : Fields} (h : s.Clear c op f) (r : Except Stop State) :
    s.checked f r = r :=
  checked_clear (by cases f.namesS <;> simp [h.checker]) r

theorem State.ClearGroup.checked {s : State} {c : Ctx} {op : Nat} {f : Fields} (h : s.ClearGroup c op f)
    (hf : f.namesS = true) (r : Except Stop State) : s.checked f r = r :=
  checked_clear (by simp [hf, h.checker]) r

/-- A computation whose result goes to a V register of each active thread. -/
theorem compute_clear {s : State} {c : Ctx} {op : Nat} {f : Fields} (h : s.Clear c op f) (hf : f.namesS = false)
    (pair : Bool) (value : State → Group → Nat → DWord) :
    ∃ t, s.finish (s.compute op f pair value) = .next (s.setGroup s.cur t) ∧
      c.g.OnlyLanes t (c.after f fun l t => t.withDst f.d pair (value s c.rd l)) := by
  unfold State.compute
  rw [h.checked, hf, if_neg Bool.false_ne_true]
  rw [perThread_clear h.ctx f _ h.pend h.sound _ rfl]
  obtain ⟨t, e, k⟩ := commit_local h.ctx f (writeDst_local f.d pair (fun l => value s c.rd l) (namesS_false hf)) true 0
    c.g rfl
  exact ⟨t, by rw [finish_ok, e], k⟩

/-- A computation whose result goes to a predicate of each active thread. -/
theorem computePred_clear {s : State} {c : Ctx} {op : Nat} {f : Fields} (h : s.Clear c op f) (hf : f.namesS = false)
    (value : State → Group → Nat → Bool) :
    ∃ t, s.finish (s.computePred op f value) = .next (s.setGroup s.cur t) ∧
      c.g.OnlyLanes t (c.after f fun l t => t.withPred f.d (value s c.rd l)) := by
  unfold State.computePred
  rw [h.checked, hf, if_neg Bool.false_ne_true]
  rw [perThread_clear h.ctx f _ h.pend h.sound _ rfl]
  obtain ⟨t, e, k⟩ := commit_local h.ctx f (writePred_local f.d (fun l => value s c.rd l)) true 0 c.g rfl
  exact ⟨t, by rw [finish_ok, e], k⟩

/-! ## Lane operations that read their own thread -/

theorem updAt_congr {α : Type} : ∀ (l : List α) (i : Nat) (f h : α → α) (d : α),
    f (l.getD i d) = h (l.getD i d) → updAt l i f = updAt l i h
  | [], _, _, _, _, _ => rfl
  | x :: l, 0, f, h, d, he => by simp_all [updAt]
  | x :: l, i + 1, f, h, d, he => by simp only [updAt]; rw [updAt_congr l i f h d (by simpa using he)]

theorem updAt_far {α : Type} : ∀ (l : List α) (i : Nat) (f : α → α), ¬ i < l.length → updAt l i f = l
  | [], _, _, _ => rfl
  | _ :: _, 0, _, h => absurd (by simp) h
  | x :: l, i + 1, f, h => by simp only [updAt]; rw [updAt_far l i f (by simpa using h)]

/-- A lane operation that depends on the thread as it stands. -/
theorem LaneLocal.own {act : Group → Nat → Thread → Group} {f : Nat → Thread → Thread → Thread}
    (h : ∀ t0 : Nat → Thread, LaneLocal (fun g l => act g l (t0 l)) (fun l t => f l (t0 l) t)) :
    LaneLocal (fun g l => act g l (g.thread l)) fun l t => f l t t := by
  intro g l
  obtain ⟨a1, a2⟩ := h (fun l => g.thread l) g l
  refine ⟨?_, a2⟩
  rw [a1]
  congr 1
  by_cases hl : l < g.threads.length
  · exact updAt_congr _ _ _ _ (Thread.none 0) rfl
  · rw [updAt_far _ _ _ hl, updAt_far _ _ _ hl]

/-! ## Group-wide forms -/

theorem setAt_setAt {α : Type} (x y : α) : ∀ (l : List α) (i : Nat), setAt (setAt l i x) i y = setAt l i y
  | [], _ => rfl
  | _ :: _, 0 => rfl
  | _ :: l, i + 1 => by
    have := setAt_setAt x y l i
    simp only [setAt] at this
    simp [setAt, updAt, this]

@[simp] theorem setAt_self {α : Type} (d : α) : ∀ (l : List α) (n : Nat), setAt l n (l.getD n d) = l
  | [], _ => rfl
  | _ :: _, 0 => rfl
  | x :: l, n + 1 => by
    have := setAt_self d l n
    simp only [setAt] at this
    simpa [setAt, updAt] using this

theorem setAt_getD_same {α : Type} (l : List α) (n : Nat) (x d : α) (h : n < l.length) : (setAt l n x).getD n d = x := by
  rw [setAt_getD _ _ _ _ _ h, if_pos rfl]

theorem setAt_comm {α : Type} (x y : α) : ∀ (l : List α) (i j : Nat), i ≠ j → setAt (setAt l i x) j y = setAt (setAt l j y) i x
  | [], _, _, _ => rfl
  | _ :: _, 0, 0, h => absurd rfl h
  | _ :: _, 0, j + 1, _ => rfl
  | _ :: _, i + 1, 0, _ => rfl
  | z :: l, i + 1, j + 1, h => by
    have := setAt_comm x y l i j (by omega)
    simp only [setAt] at this
    simp [setAt, updAt, this]

theorem withS_twice (s : List Word) (o : Opnd) (pair : Bool) (x : DWord) :
    withS (withS s o pair x) o pair x = withS s o pair x := by
  cases o <;> try rfl
  rename_i n
  cases pair
  · exact setAt_setAt _ _ _ _
  · simp only [withS, if_true]
    rw [setAt_comm _ _ _ (n.val + 1) n.val (by omega), setAt_setAt, setAt_setAt]

/-- A result written in every lane of a list, which is not empty: its S destination is written once. -/
theorem foldl_writeDst (o : Opnd) (pair : Bool) (x : DWord) (ls : List Nat) (g : Group) (hn : ls.Nodup) (hne : ls ≠ []) :
    let h := ls.foldl (fun g l => g.writeDst l o pair x) g
    h = { g with s := withS g.s o pair x, threads := h.threads, mxq := h.mxq } ∧ h.threads.length = g.threads.length ∧
      h.mxq.map MxOp.kept = g.mxq.map MxOp.kept ∧
      ∀ k, k < g.threads.length → h.thread k = if k ∈ ls then (g.thread k).withDst o pair x else g.thread k := by
  by_cases ho : ∃ n, o = .s n
  · obtain ⟨n, rfl⟩ := ho
    have key : ∀ (ls : List Nat) (g : Group), ls ≠ [] →
        ls.foldl (fun g l => g.writeDst l (.s n) pair x) g = { g with s := withS g.s (.s n) pair x } := by
      intro ls
      induction ls with
      | nil => intro g h; exact absurd rfl h
      | cons l ls ih =>
        intro g _
        by_cases hl : ls = []
        · subst hl; rfl
        · simp only [List.foldl_cons]
          rw [ih _ hl]
          show ({ g with s := withS (withS g.s (.s n) pair x) (.s n) pair x } : Group) = _
          rw [withS_twice]
    simp only [key ls g hne]
    refine ⟨trivial, trivial, trivial, fun k _ => ?_⟩
    simp only [Thread.withDst, ite_self]
    rfl
  · have ho : ∀ n, o ≠ .s n := fun n h => ho ⟨n, h⟩
    obtain ⟨i1, i2, i3, i4⟩ := foldl_local (writeDst_local o pair (fun _ => x) ho) ls g hn
    refine ⟨?_, i2, i3, i4⟩
    have : withS g.s o pair x = g.s := by cases o <;> first | rfl | exact absurd rfl (ho _)
    rw [this]
    exact i1

/-- The group-wide pipeline where the group is whole and every source ready and sound. -/
theorem perGroup_clear {s : State} {c : Ctx} (hc : s.ctx? = some c) (f : Fields) (regs : List Nat)
    (hw : c.whole = true) (hp : (c.rd.thread c.lowLane).guard f = true → (c.rd.thread c.lowLane).pendIn regs = [])
    (hs : (c.rd.thread c.lowLane).guard f = true → s.poisonTrap c.lowLane regs = [])
    (value : Ctx → Nat → DWord) (write : Group → Nat → DWord → Group) (also : Ctx → Group → Group) :
    s.perGroup f regs value write also = .ok (s.commit c
      (if (c.rd.thread c.lowLane).guard f then
        also c (c.lanes.foldl (fun g l => write g l (value c c.lowLane)) c.g) else c.g) (fun _ => .next) true 0) := by
  unfold State.perGroup
  rw [hc]
  dsimp only
  by_cases hg : (c.rd.thread c.lowLane).guard f = true
  · simp [hg, Thread.waitsFor, Thread.handleTrap, hp hg, hs hg, guardGroup_whole hw]
  · simp [hg, guardGroup_whole hw]

/-- Committing a group that differs from `base` in its threads alone: every lane of the unit goes where it is sent. -/
theorem commit_dest {s : State} {c : Ctx} (hn : c.lanes.Nodup) (base g : Group) (before : Nat → Thread)
    (h1 : g = { base with threads := g.threads, mxq := g.mxq }) (h2 : g.threads.length = base.threads.length)
    (h3 : g.mxq.map MxOp.kept = base.mxq.map MxOp.kept) (h4 : ∀ k, k < base.threads.length → g.thread k = before k)
    (dest : Nat → Goto) (keep : Bool) (hint : Word) (extra : List Nat) (held : Bool) :
    ∃ t, s.commitWith c g dest keep hint extra held = s.setGroup s.cur t ∧
      base.OnlyLanes t fun l => if l ∈ c.lanes then (before l).goto (dest l) else before l := by
  obtain ⟨t, e, e1, e2, e3⟩ := State.commitWith_spec s c g dest keep hint extra held hn
  refine ⟨t, e, ?_, e2.trans h2, ?_, fun l hl => ?_⟩
  · rw [e1]; rw [h1]
  · rw [e1]; exact h3
  · have := e3 l (by omega)
    rwa [h4 l hl] at this

theorem commit_all {s : State} {c : Ctx} (hc : s.ctx? = some c) (g h : Group) (run : Nat → Thread → Thread)
    (h1 : h = { g with threads := h.threads, mxq := h.mxq }) (h2 : h.threads.length = g.threads.length)
    (h3 : h.mxq.map MxOp.kept = g.mxq.map MxOp.kept)
    (h4 : ∀ k, k < g.threads.length → h.thread k = if k ∈ c.lanes then run k (g.thread k) else g.thread k)
    (keep : Bool) (hint : Word) :
    ∃ t, s.commit c h (fun _ => .next) keep hint = s.setGroup s.cur t ∧
      g.OnlyLanes t fun l => if l ∈ c.lanes then (run l (g.thread l)).advance else g.thread l := by
  obtain ⟨hn, -⟩ := State.ctx?_lanes hc
  obtain ⟨t, e, e1, e2, e3⟩ := State.commitWith_spec s c h (fun _ => .next) keep hint [] false hn
  refine ⟨t, e, ?_, e2.trans h2, ?_, fun l hl => ?_⟩
  · rw [e1]; rw [h1]
  · rw [e1]; exact h3
  · have := e3 l (by omega)
    rw [h4 l hl] at this
    by_cases hl : l ∈ c.lanes <;> simpa [hl, Thread.goto] using this

theorem lowLane_lanes {c : Ctx} (hw : c.lanes ≠ []) : c.lowLane ∈ c.lanes := by
  unfold Ctx.lowLane
  cases hf : c.lanes.find? fun l => !(c.g.thread l).helper with
  | none =>
    cases hl : c.lanes with
    | nil => exact absurd hl hw
    | cons a l => simp
  | some a => simpa using List.mem_of_find?_eq_some hf

/-- A control instruction whose sources are ready and sound runs over the whole unit. -/
theorem control_ready {s : State} {c : Ctx} {op : Nat} {f : Fields} (h : s.Ready c op f)
    (run : State → Ctx → List Nat → Except Stop State) : s.control op f run = s.finish (run s c (c.active f)) := by
  have hon : ∀ l ∈ c.active f, l ∈ c.lanes ∧ (c.rd.thread l).guard f = true := fun l hl => by
    simpa [Ctx.active] using hl
  have ht : ((c.active f).flatMap fun l =>
      (c.rd.thread l).handleTrap l (readRegs op f) ++ s.poisonTrap l (readRegs op f)) = [] := by
    rw [List.flatMap_eq_nil_iff]
    intro l hl
    obtain ⟨h1, h2⟩ := hon l hl
    simp [Thread.handleTrap, h.pend l h1 h2, h.sound l h1 h2]
  have hw : (c.lanes.filter fun l =>
      (if (c.active f).contains l then (c.rd.thread l).waitsFor (readRegs op f) else []).isEmpty) = c.lanes := by
    rw [List.filter_eq_self]
    intro l hl
    split
    · rename_i hm
      obtain ⟨h1, h2⟩ := hon l (by simpa using hm)
      simp [Thread.waitsFor, h.pend l h1 h2]
    · rfl
  unfold State.control
  rw [h.ctx]
  dsimp only
  rw [ht, guardTraps_nil]
  unfold State.withoutWaiting
  dsimp only
  rw [hw, if_pos rfl]

theorem poisonTrap_nil (s : State) (l : Nat) : s.poisonTrap l [] = [] := by
  unfold State.poisonTrap
  split
  · rfl
  · split <;> rfl

@[simp] theorem opndRegs_unused (o : Opnd) : opndRegs .unused o = [] := by
  cases o <;> rfl

/-- A form without register sources is always ready. -/
theorem ready_of_noReads {s : State} {c : Ctx} {op : Nat} {f : Fields} (hc : s.ctx? = some c) (hr : readRegs op f = []) :
    s.Ready c op f :=
  ⟨hc, fun l _ _ => by simp [hr, Thread.pendIn], fun l _ _ => by rw [hr]; exact poisonTrap_nil s l⟩

/-- A computation that names an S register: once for the group. -/
theorem computeS_clear {s : State} {c : Ctx} {op : Nat} {f : Fields} (h : s.ClearGroup c op f) (hf : f.namesS = true)
    (pair : Bool) (value : State → Group → Nat → DWord) :
    ∃ t, s.finish (s.compute op f pair value) = .next (s.setGroup s.cur t) ∧
      ({ c.g with s := if (c.rd.thread c.lowLane).guard f then withS c.g.s f.d pair (value s c.rd c.lowLane) else c.g.s }
        : Group).OnlyLanes t (c.afterGroup f fun _ t => t.withDst f.d pair (value s c.rd c.lowLane)) := by
  unfold State.compute
  rw [h.checked hf, hf, if_pos rfl]
  rw [perGroup_clear h.ctx f _ h.whole h.pend h.sound]
  obtain ⟨hn, -⟩ := State.ctx?_lanes h.ctx
  rw [finish_ok]
  by_cases hg : (c.rd.thread c.lowLane).guard f = true
  · simp only [hg, if_true]
    obtain ⟨i1, i2, i3, i4⟩ := foldl_writeDst f.d pair (value s c.rd c.lowLane) c.lanes c.g hn h.some
    obtain ⟨t, e, k⟩ := commit_all h.ctx { c.g with s := withS c.g.s f.d pair (value s c.rd c.lowLane) } _
      (fun _ t => t.withDst f.d pair (value s c.rd c.lowLane)) i1 i2 i3 i4 true 0
    refine ⟨t, by rw [e], ?_⟩
    have hfun : (c.afterGroup f fun _ t => t.withDst f.d pair (value s c.rd c.lowLane)) = fun l =>
        if l ∈ c.lanes then ((c.g.thread l).withDst f.d pair (value s c.rd c.lowLane)).advance else c.g.thread l := by
      funext l; simp [Ctx.afterGroup, hg]
    rw [hfun]
    exact k
  · simp only [hg, Bool.false_eq_true, if_false]
    obtain ⟨t, e, k⟩ := commit_all h.ctx c.g c.g (fun _ t => t) rfl rfl rfl (by simp) true 0
    refine ⟨t, by rw [e], ?_⟩
    have hfun : (c.afterGroup f fun _ t => t.withDst f.d pair (value s c.rd c.lowLane)) = fun l =>
        if l ∈ c.lanes then (c.g.thread l).advance else c.g.thread l := by
      funext l; simp [Ctx.afterGroup, hg]
    rw [hfun]
    exact k

end Sys2Proof.Machine
end

