-- ==== Sys2Proof/Laws/Units.lean ====
section
/-!
SUPPORT. Laws of issue units: every ready thread that an issue places stands in a unit at its IP (R30, R31).
-/

namespace Sys2Proof.Machine

open Sys2Proof

theorem two_pow_getLsbD (l k : Nat) (hl : l < 32) : (BitVec.ofNat 32 (2 ^ l)).getLsbD k = decide (k = l) := by
  rw [BitVec.getLsbD_ofNat, Nat.testBit_two_pow]
  by_cases h : k = l
  · subst h; simp [hl]
  · simp [h, Ne.symm h]

theorem foldl_or_getLsbD (k : Nat) : ∀ (ls : List Nat) (m : Word), (∀ l ∈ ls, l < 32) →
    (ls.foldl (fun m l => m ||| BitVec.ofNat 32 (2 ^ l)) m).getLsbD k = (m.getLsbD k || decide (k ∈ ls))
  | [], m, _ => by simp
  | l :: ls, m, h => by
    simp only [List.foldl_cons]
    rw [foldl_or_getLsbD k ls _ (fun x hx => h x (List.mem_cons_of_mem _ hx)), BitVec.getLsbD_or,
      two_pow_getLsbD l k (h l (by simp)), Bool.or_assoc]
    congr 1
    by_cases hk : k = l <;> simp [hk]

/-- The bits of a mask are the lanes of its list. -/
theorem maskOf_getLsbD (ls : List Nat) (k : Nat) (h : ∀ l ∈ ls, l < 32) : (maskOf ls).getLsbD k = decide (k ∈ ls) := by
  unfold maskOf
  rw [foldl_or_getLsbD k ls 0 h]
  simp

theorem lanesOf_lt {m : Word} {l : Nat} (h : l ∈ lanesOf m) : l < 32 := by
  simp only [lanesOf, List.mem_filter, List.mem_range] at h
  exact h.1

theorem mem_lanesOf {m : Word} {l : Nat} : l ∈ lanesOf m ↔ l < 32 ∧ m.getLsbD l = true := by
  simp [lanesOf]

theorem mem_distinct {α : Type} [DecidableEq α] (l : List α) (x : α) : x ∈ distinct l ↔ x ∈ l := by
  have key : ∀ (l acc : List α), x ∈ l.foldl (fun acc x => if acc.contains x then acc else acc ++ [x]) acc ↔ x ∈ acc ∨ x ∈ l := by
    intro l
    induction l with
    | nil => simp
    | cons a l ih =>
      intro acc
      simp only [List.foldl_cons]
      rw [ih]
      split
      · rename_i h
        have h : a ∈ acc := by simpa using h
        simp only [List.mem_cons]
        constructor
        · rintro (h | h) <;> simp [h]
        · rintro (h | rfl | h) <;> simp [*]
      · simp [or_assoc]
  unfold distinct
  rw [key]
  simp

/-- A unit that a list of units has at an IP, with these lanes. -/
def HasUnit (us : List IssueUnit) (ip : DWord) (lanes : Nat → Prop) (held : Bool) : Prop :=
  ∃ u ∈ us, u.ip = ip ∧ (held = true → u.held.isSome = true) ∧ ∀ l, lanes l → u.lanes.getLsbD l = true

theorem choosePlace_ip (ps : List Placed) (launch : Nat) (u : IssueUnit) (turn : Bool) :
    (choosePlace ps launch u turn).ip = u.ip ∧ (choosePlace ps launch u turn).held = u.held ∧
      (choosePlace ps launch u turn).lanes = u.lanes := by
  unfold choosePlace
  split
  · exact ⟨rfl, rfl, rfl⟩
  · split
    · exact ⟨rfl, rfl, rfl⟩
    · split <;> exact ⟨rfl, rfl, rfl⟩

/-- A placed unit stands at its IP. -/
theorem placeUnit_has (others : List Placed) (launch blk grp : Nat) (us : List IssueUnit) (u : IssueUnit) (turn : Bool) :
    HasUnit (placeUnit others launch blk grp us u turn) u.ip (fun l => u.lanes.getLsbD l = true) u.held.isSome := by
  unfold placeUnit
  dsimp only
  split
  · exact ⟨u, by simp, rfl, id, fun _ h => h⟩
  · split
    · refine ⟨_, List.mem_append_right _ (List.mem_singleton.2 rfl), ?_⟩
      obtain ⟨a, b, c⟩ := choosePlace_ip (others ++ (us.filter fun x => !(decide (x.ip = u.ip) && x.way.isSome)).map
        fun x => ⟨launch, blk, grp, 0, x⟩) launch u turn
      exact ⟨a, by rw [b]; exact id, by rw [c]; exact fun _ h => h⟩
    · split
      · exact ⟨_, List.mem_append_right _ (List.mem_singleton.2 rfl), rfl, id, fun l h => by simp [h]⟩
      · rename_i x _ _
        refine ⟨_, List.mem_append_right _ (List.mem_singleton.2 rfl), ?_⟩
        obtain ⟨a, b, c⟩ := choosePlace_ip (others ++ (us.filter fun x => !(decide (x.ip = u.ip) && x.way.isSome)).map
          fun x => ⟨launch, blk, grp, 0, x⟩) launch { u with
            lanes := x.lanes ||| u.lanes, stamp := min x.stamp u.stamp, hinted := x.hinted || u.hinted, aged := true } turn
        exact ⟨a, by rw [b]; exact id, by rw [c]; exact fun l h => by simp [h]⟩

/-- Units at other IPs stay. -/
theorem placeUnit_keeps (others : List Placed) (launch blk grp : Nat) (us : List IssueUnit) (u : IssueUnit) (turn : Bool)
    {ip : DWord} {lanes : Nat → Prop} {held : Bool} (hne : ip ≠ u.ip) (h : HasUnit us ip lanes held) :
    HasUnit (placeUnit others launch blk grp us u turn) ip lanes held := by
  obtain ⟨x, hx, h1, h2, h3⟩ := h
  have hrest : x ∈ us.filter fun y => !(decide (y.ip = u.ip) && y.way.isSome) := by
    simp only [List.mem_filter, hx, true_and, h1, hne, decide_false, Bool.false_and, Bool.not_false]
  unfold placeUnit
  dsimp only
  split
  · exact ⟨x, by simp [hx], h1, h2, h3⟩
  · split
    · exact ⟨x, by simp [hx], h1, h2, h3⟩
    · split
      · exact ⟨x, List.mem_append_left _ hrest, h1, h2, h3⟩
      · exact ⟨x, List.mem_append_left _ hrest, h1, h2, h3⟩

/-- Placing units at several IPs. -/
theorem placeAll_has (others : List Placed) (launch blk grp : Nat) (mk : DWord → IssueUnit) (hip : ∀ ip, (mk ip).ip = ip)
    (ip : DWord) : ∀ (ips : List DWord) (us : List IssueUnit),
    (ip ∈ ips ∨ HasUnit us ip (fun l => (mk ip).lanes.getLsbD l = true) (mk ip).held.isSome) →
    HasUnit (ips.foldl (fun us ip => placeUnit others launch blk grp us (mk ip) false) us) ip
      (fun l => (mk ip).lanes.getLsbD l = true) (mk ip).held.isSome
  | [], us, h => by simpa using h
  | a :: ips, us, h => by
    simp only [List.foldl_cons]
    refine placeAll_has others launch blk grp mk hip ip ips _ ?_
    by_cases ha : ip = a
    · subst ha
      right
      have := placeUnit_has others launch blk grp us (mk ip) false
      rw [hip] at this
      exact this
    · rcases h with h | h
      · rcases List.mem_cons.1 h with h | h
        · exact absurd h ha
        · exact .inl h
      · right
        exact placeUnit_keeps others launch blk grp us (mk a) false (by rw [hip]; exact ha) h

/-- Every ready lane that is placed stands in a unit of the group at its IP, held if its units are. -/
theorem State.ready_has (s : State) (iss : Issuer) (g : Group) (ls : List Nat) (hi : Word → Bool) (held : Option Nat)
    (hls : ∀ l ∈ ls, l < 32) : ∃ h, s.ready iss g ls hi held = s.setGroup iss h ∧ h = { g with units := h.units } ∧
      ∀ l ∈ ls, (g.thread l).status = .ready → HasUnit h.units (g.thread l).ip (fun k => k = l) held.isSome := by
  unfold State.ready
  refine ⟨_, rfl, rfl, fun l hl hr => ?_⟩
  have := placeAll_has (s.others iss) (((s.launchOf iss).map (·.id)).getD 0)
    (match iss with | .mgmt => (0, 0) | .unit b n _ => (b, n)).1 (match iss with | .mgmt => (0, 0) | .unit b n _ => (b, n)).2
    (fun ip => { lanes := maskOf (g.lanesAt ls ip), ip, way := none, stamp := s.clockOf iss,
                 hinted := hi (maskOf (g.lanesAt ls ip)), held, aged := false, stuck := false }) (fun _ => rfl) (g.thread l).ip
    (distinct ((ls.filter fun l => (g.thread l).status = .ready).map fun l => (g.thread l).ip)) g.units (.inl (by
      rw [mem_distinct, List.mem_map]
      exact ⟨l, by simp [hl, hr], rfl⟩))
  obtain ⟨u, hu, h1, h2, h3⟩ := this
  refine ⟨u, hu, h1, h2, fun k hk => h3 k ?_⟩
  subst hk
  show (maskOf _).getLsbD k = true
  rw [maskOf_getLsbD _ _ (fun x hx => hls x (by simp only [Group.lanesAt, List.mem_filter] at hx; exact hx.1))]
  simp [Group.lanesAt, hl, hr]

/-- Every ready lane that an issue moves stands in a unit of its group at its IP, held if the issue holds its units. The
first slot of a pair keeps its unit (R34). -/
theorem State.commitWith_has (s : State) (c : Ctx) (g : Group) (dest : Nat → Goto) (keep : Bool) (hint : Word)
    (extra : List Nat) (held : Bool) (hc : s.ctx? = some c) (hx : ∀ l ∈ extra, l < 32)
    (hp : ∀ r, s.pairRead ≠ some (r, true)) :
    ∃ h, s.commitWith c g dest keep hint extra held = s.setGroup s.cur h ∧
      ∀ l ∈ c.lanes ++ extra, (h.thread l).status = .ready → HasUnit h.units (h.thread l).ip (fun k => k = l) held := by
  obtain ⟨-, hl⟩ := State.ctx?_lanes hc
  unfold State.commitWith
  dsimp only
  split
  · rename_i r he; exact absurd he (hp r)
  · generalize c.lanes.foldl (fun g l => g.updThread l fun t => t.goto (dest l)) g = g1
    obtain ⟨h, e, e1, e2⟩ := State.ready_has s s.cur ((g1.unpark g1.quadDone).leave c.lanes)
      (c.lanes ++ extra ++ g1.quadDone)
      (fun m => m &&& c.hintedLanes g1 dest keep ≠ 0 ||
        (hint ≠ 0 && m &&& hint = m)) (if held then some (s.clockOf s.cur) else none) (fun l hm => by
          rcases List.mem_append.1 hm with hm | hm
          · rcases List.mem_append.1 hm with hm | hm
            · exact lanesOf_lt (hl ▸ hm)
            · exact hx l hm
          · simp only [Group.quadDone, List.mem_filter, List.mem_range] at hm; exact hm.1)
    refine ⟨h, e, fun l hm hr => ?_⟩
    have hth : h.thread l = ((g1.unpark g1.quadDone).leave c.lanes).thread l := by
      rw [e1]; rfl
    rw [hth] at hr ⊢
    have := e2 l (List.mem_append_left _ hm) hr
    cases held <;> simpa using this

end Sys2Proof.Machine
end

