-- ==== Sys2Proof/Laws/Control.lean ====
section
/-!
SUPPORT. Laws of control: pushes and pops within the register part of the link stack, transfers, loop levels, arrivals
at rejoin masks, and the first trap that a list of checks finds.
-/

namespace Sys2Proof.Machine

open Sys2Proof

theorem commit_going {s : State} {c : Ctx} (hc : s.ctx? = some c) (f : Fields) (g : Group) (run : Nat → Thread → Thread)
    (h1 : g = { c.g with threads := g.threads, mxq := g.mxq }) (h2 : g.threads.length = c.g.threads.length)
    (h3 : g.mxq.map MxOp.kept = c.g.mxq.map MxOp.kept)
    (h4 : ∀ k, k < c.g.threads.length → (k ∉ c.lanes ∨ (c.rd.thread k).guard f = false) → g.thread k = c.g.thread k)
    (dest : Nat → Goto)
    (h5 : ∀ k, k < c.g.threads.length → k ∈ c.lanes → (c.rd.thread k).guard f = true → (g.thread k).goto (dest k) = run k (c.g.thread k))
    (h6 : ∀ k, k ∈ c.lanes → (c.rd.thread k).guard f = false → dest k = .next)
    (keep : Bool) (hint : Word) :
    ∃ t, s.commit c g dest keep hint = s.setGroup s.cur t ∧ c.g.OnlyLanes t (c.afterGoing f run) := by
  obtain ⟨hn, -⟩ := State.ctx?_lanes hc
  obtain ⟨t, e, k1, k2, k3, k4⟩ := commit_dest (s := s) hn c.g g (fun k => g.thread k) h1 h2 h3 (fun _ _ => rfl) dest keep hint [] false
  refine ⟨t, e, k1, k2, k3, fun l hl => ?_⟩
  have := k4 l hl
  dsimp only at this
  simp only [Ctx.afterGoing]
  by_cases hlane : l ∈ c.lanes
  · by_cases hg : (c.rd.thread l).guard f = true
    · rw [if_pos hlane, if_pos hg]
      rw [if_pos hlane, h5 l hl hlane hg] at this
      exact this
    · have hg' : (c.rd.thread l).guard f = false := by simpa using hg
      rw [if_pos hlane, if_neg hg]
      rw [if_pos hlane, h4 l hl (.inr hg'), h6 l hlane hg'] at this
      exact this
  · rw [if_neg hlane]
    rw [if_neg hlane, h4 l hl (.inl hlane)] at this
    exact this

theorem pushAll_shallow (s : State) (ip : Nat → DWord) : ∀ (ls : List Nat) (g : Group), ls.Nodup →
    (∀ l ∈ ls, (g.thread l).depth < 8) →
    s.pushAll g ip ls = .ok (s, ls.foldl (fun g l => g.updThread l fun t => { t with link := ip l :: t.link, depth := t.depth + 1 }) g) := by
  intro ls
  induction ls with
  | nil => intro g _ _; rfl
  | cons l ls ih =>
    intro g hn hd
    obtain ⟨hl, hls⟩ := List.nodup_cons.1 hn
    have h8 := hd l (by simp)
    have hp : s.push g l (ip l) = .ok (s, g.updThread l fun t => { t with link := ip l :: t.link, depth := t.depth + 1 }) := by
      unfold State.push
      dsimp only
      rw [if_neg (by omega), if_neg (by omega)]
      congr 2
      unfold Group.updThread
      congr 1
      exact updAt_congr _ _ _ _ (Thread.none 0) rfl
    unfold State.pushAll
    rw [hp]
    show s.pushAll _ ip ls = _
    rw [ih _ hls (fun k hk => by
      have : k ≠ l := fun h => hl (h ▸ hk)
      rw [Group.thread_updThread_other _ _ _ _ this]
      exact hd k (by simp [hk]))]
    rfl

theorem active_spec {c : Ctx} {f : Fields} {l : Nat} : l ∈ c.active f ↔ l ∈ c.lanes ∧ (c.rd.thread l).guard f = true := by
  simp [Ctx.active]

theorem mismatch_none {s : State} (h : s.redundant = false) (c : Ctx) (k : Nat → List DWord) : s.mismatch c k = [] := by
  simp [State.mismatch, h]

theorem transfer_ok {s : State} {c : Ctx} (hc : s.ctx? = some c) (f : Fields) (hr : s.redundant = false) (target : Nat → DWord) (hint : Word)
    (ht : ∀ l ∈ c.lanes, (c.rd.thread l).guard f = true → s.reaches (target l) ∧ s.isTarget (target l) = true)
    (pre : State → List Nat → Except Stop (State × Group)) (g : Group) (hp : pre s (c.active f) = .ok (s, g)) :
    s.transfer c (c.active f) target hint pre =
      .ok (s.commit c g (fun l => if (c.active f).contains l then .jump (target l) else .next) false hint) := by
  have a1 : ((c.active f).filter fun l => !s.ipOk (target l)) = [] := by
    rw [List.filter_eq_nil_iff]; intro l hl
    obtain ⟨h1, h2⟩ := active_spec.1 hl
    simp [(ht l h1 h2).1.1]
  have a2 : ((c.active f).filter fun l => (s.frameAt (target l)).isNone) = [] := by
    rw [List.filter_eq_nil_iff]; intro l hl
    obtain ⟨h1, h2⟩ := active_spec.1 hl
    have := (ht l h1 h2).1.2
    cases hf : s.frameAt (target l) <;> simp_all
  have a3 : ((c.active f).filter fun l => !s.isTarget (target l)) = [] := by
    rw [List.filter_eq_nil_iff]; intro l hl
    obtain ⟨h1, h2⟩ := active_spec.1 hl
    simp [(ht l h1 h2).2]
  unfold State.transfer
  simp only [State.targetMismatch, mismatch_none hr, a1, a2, a3, List.map_nil, List.append_nil, guardTraps_nil, List.isEmpty_nil,
    Bool.not_true, Bool.false_eq_true, if_false, hp]
  rfl

theorem callFold (c : Ctx) (f : Fields) (hn : c.lanes.Nodup) :
    let g := (c.active f).foldl (fun g l => g.updThread l fun t => { t with link := nextSlot c.u.ip :: t.link, depth := t.depth + 1 }) c.g
    c.g.OnlyThreads g ∧ ∀ k, k < c.g.threads.length → g.thread k =
      if k ∈ c.active f then { c.g.thread k with link := nextSlot c.u.ip :: (c.g.thread k).link, depth := (c.g.thread k).depth + 1 } else c.g.thread k :=
  foldl_updThread (fun _ t => { t with link := nextSlot c.u.ip :: t.link, depth := t.depth + 1 }) _ _ (hn.filter _)

theorem firstTrap_mem : ∀ (ts : List Trap), ts ≠ [] → ∃ t ∈ ts, firstTrap ts = some t := by
  have key : ∀ (ts : List Trap) (b : Option Trap), (b.isSome ∨ ts ≠ []) →
      ∃ t, (t ∈ ts ∨ b = some t) ∧ ts.foldl (fun best t =>
        match best with
        | none => some t
        | some b => if t.rank < b.rank || (t.rank = b.rank && t.lane < b.lane) then some t else some b) b = some t := by
    intro ts
    induction ts with
    | nil => intro b hb; cases b with
      | none => simp at hb
      | some b => exact ⟨b, .inr rfl, rfl⟩
    | cons x ts ih =>
      intro b hb
      simp only [List.foldl_cons]
      cases b with
      | none =>
        obtain ⟨t, h1, h2⟩ := ih (some x) (.inl rfl)
        refine ⟨t, ?_, h2⟩
        rcases h1 with h | h
        · left; simp [h]
        · left; cases h; simp
      | some b =>
        by_cases hc : (decide (x.rank < b.rank) || (decide (x.rank = b.rank) && decide (x.lane < b.lane))) = true
        · simp only [hc, if_true]
          obtain ⟨t, h1, h2⟩ := ih (some x) (.inl rfl)
          refine ⟨t, ?_, h2⟩
          rcases h1 with h | h
          · left; simp [h]
          · left; cases h; simp
        · simp only [hc]
          obtain ⟨t, h1, h2⟩ := ih (some b) (.inl rfl)
          refine ⟨t, ?_, h2⟩
          rcases h1 with h | h
          · left; simp [h]
          · right; exact h
  intro ts hts
  obtain ⟨t, h1, h2⟩ := key ts none (.inr hts)
  rcases h1 with h | h
  · exact ⟨t, h, h2⟩
  · cases h

theorem guardTraps_some {ts : List Trap} (h : ts ≠ []) (k : Except Stop State) :
    ∃ t ∈ ts, guardTraps ts k = .error (.trap t) := by
  obtain ⟨t, h1, h2⟩ := firstTrap_mem ts h
  exact ⟨t, h1, by simp [guardTraps, h2]⟩

theorem popAll_shallow (s : State) : ∀ (ls : List Nat) (g : Group), ls.Nodup →
    (∀ l ∈ ls, (g.thread l).depth ≤ 8) →
    s.popAll g ls = .ok (s, ls.foldl (fun g l => g.updThread l fun t => { t with link := t.link.tail, depth := t.depth - 1 }) g) := by
  intro ls
  induction ls with
  | nil => intro g _ _; rfl
  | cons l ls ih =>
    intro g hn hd
    obtain ⟨hl, hls⟩ := List.nodup_cons.1 hn
    have h8 := hd l (by simp)
    have hp : s.pop g l = .ok (s, g.updThread l fun t => { t with link := t.link.tail, depth := t.depth - 1 }) := by
      unfold State.pop
      dsimp only
      rw [if_neg (by omega)]
      congr 2
      unfold Group.updThread
      congr 1
      exact updAt_congr _ _ _ _ (Thread.none 0) rfl
    have hk : ∀ k ∈ ls, (g.updThread l fun t => { t with link := t.link.tail, depth := t.depth - 1 }).thread k = g.thread k := fun k hk =>
      Group.thread_updThread_other _ _ _ _ (fun h => hl (h ▸ hk))
    unfold State.popAll
    rw [hp]
    simp only [bind, Except.bind]
    rw [ih _ hls (fun k hk' => by rw [hk k hk']; exact hd k (by simp [hk']))]
    rfl

theorem find_map (ls : List Nat) (x : Nat → DWord) (l : Nat) (h : l ∈ ls) :
    (((ls.map fun l => (l, x l)).find? fun p => p.1 = l).map (·.2)).getD 0 = x l := by
  induction ls with
  | nil => cases h
  | cons a ls ih =>
    by_cases hal : a = l
    · subst hal; simp
    · have : l ∈ ls := by rcases List.mem_cons.1 h with h | h; exact absurd h.symm hal; exact h
      simpa [hal] using ih this

theorem topLevel_spec : ∀ (ls : List LoopLevel) (b : Nat), topLevel ls b ≠ 0 ↔ ∃ j, j < ls.length ∧ (ls.getD j .off).active = true := by
  intro ls
  induction ls with
  | nil => intro b; simp [topLevel]
  | cons l ls ih =>
    intro b
    simp only [topLevel]
    constructor
    · intro h
      by_cases hr : topLevel ls (b + 1) ≠ 0
      · obtain ⟨j, h1, h2⟩ := (ih (b + 1)).1 hr
        exact ⟨j + 1, by simpa using h1, by simpa using h2⟩
      · rw [if_neg hr] at h
        by_cases hl : l.active = true
        · exact ⟨0, by simp, by simpa using hl⟩
        · simp [hl] at h
    · rintro ⟨j, h1, h2⟩
      by_cases hr : topLevel ls (b + 1) ≠ 0
      · rw [if_pos hr]; exact hr
      · rw [if_neg hr]
        cases j with
        | zero => simp at h2; simp [h2]
        | succ j => exact absurd ((ih (b + 1)).2 ⟨j, by simpa using h1, by simpa using h2⟩) hr

theorem topLevel_eq : ∀ (ls : List LoopLevel) (b k : Nat), k < ls.length → (ls.getD k .off).active = true →
    (∀ j, j < ls.length → (ls.getD j .off).active = true → j ≤ k) → topLevel ls b = b + k + 1 := by
  intro ls
  induction ls with
  | nil => intro b k h; simp at h
  | cons l ls ih =>
    intro b k hk ha hmax
    simp only [topLevel]
    cases k with
    | zero =>
      have hr : ¬ topLevel ls (b + 1) ≠ 0 := by
        rw [topLevel_spec]
        rintro ⟨j, h1, h2⟩
        have := hmax (j + 1) (by simpa using h1) (by simpa using h2)
        omega
      rw [if_neg hr]
      simp at ha
      simp [ha]
    | succ k =>
      have h := ih (b + 1) k (by simpa using hk) (by simpa using ha) (fun j h1 h2 => by
        have := hmax (j + 1) (by simpa using h1) (by simpa using h2); omega)
      rw [if_pos (by omega), h]; omega

theorem joinParked_spec (g : Group) (n l : Nat) : l ∈ g.joinParked n ↔ l < 32 ∧ (g.thread l).status = .parked (.join n) := by
  simp [Group.joinParked]

theorem isEmpty_active {c : Ctx} {f : Fields} (h : ∃ l ∈ c.lanes, (c.rd.thread l).guard f = true) : (c.active f).isEmpty = false := by
  obtain ⟨l, h1, h2⟩ := h
  have : l ∈ c.active f := active_spec.2 ⟨h1, h2⟩
  cases hc : c.active f with
  | nil => rw [hc] at this; cases this
  | cons a b => rfl

theorem joinMask_eq (s : State) (c : Ctx) (f : Fields) : s.joinMask c f (c.active f) =
    (let named := (c.lanes.filter fun l => (c.rd.thread l).guard f && !(c.g.thread l).helper).foldl
      (fun m l => m ||| (s.operand c.rd l f false f.a).extractLsb' 0 32) (0 : Word)
     let both := if s.redundant then (named &&& 0xFFFF) ||| ((named &&& 0xFFFF) <<< 16) else named
     both &&& c.g.liveLanes) := by
  have : (c.active f).filter (fun l => !(c.g.thread l).helper) = c.lanes.filter fun l => (c.rd.thread l).guard f && !(c.g.thread l).helper := by
    simp only [Ctx.active, List.filter_filter]
    congr 1; funext l; exact Bool.and_comm _ _
  unfold State.joinMask
  rw [this]

/-- commit after unparking a list `freed` -/
theorem commit_freed' {s : State} {c : Ctx} (hn : c.lanes.Nodup) (base : Group) (hb : base.threads = c.g.threads) (freed : List Nat)
    (dest : Nat → Goto) (keep : Bool) (hint : Word) (extra : List Nat) (held : Bool) (want : Nat → Thread)
    (hw : ∀ l, l < c.g.threads.length → want l = (let t := if l ∈ freed then { c.g.thread l with status := .ready } else c.g.thread l
      if l ∈ c.lanes then t.goto (dest l) else t)) :
    ∃ t, s.commitWith c (base.unpark freed) dest keep hint extra held = s.setGroup s.cur t ∧ base.OnlyLanes t want := by
  obtain ⟨⟨u1, u3⟩, u2⟩ := base.unpark_spec freed
  have hth : ∀ l, base.thread l = c.g.thread l := fun l => by simp [Group.thread, hb]
  obtain ⟨t, e, k1, k2, k3, k4⟩ := commit_dest (s := s) hn base (base.unpark freed)
    (fun l => if l ∈ freed then { c.g.thread l with status := .ready } else c.g.thread l)
    (by rw [u1]) u3 (by rw [u1]) (fun k hk => by rw [u2 k hk, hth]) dest keep hint extra held
  refine ⟨t, e, k1, k2, k3, fun l hl => ?_⟩
  rw [hw l (by rw [← hb]; exact hl)]
  exact k4 l hl

theorem commit_freed {s : State} {c : Ctx} (hc : s.ctx? = some c) (base : Group) (hb : base.threads = c.g.threads) (freed : List Nat)
    (dest : Nat → Goto) (keep : Bool) (hint : Word) (extra : List Nat) (held : Bool) (want : Nat → Thread)
    (hw : ∀ l, l < c.g.threads.length → want l = (let t := if l ∈ freed then { c.g.thread l with status := .ready } else c.g.thread l
      if l ∈ c.lanes then t.goto (dest l) else t)) :
    ∃ t, s.commitWith c (base.unpark freed) dest keep hint extra held = s.setGroup s.cur t ∧ base.OnlyLanes t want :=
  commit_freed' (State.ctx?_lanes hc).1 base hb freed dest keep hint extra held want hw

theorem maskOf_cons (l : Nat) (ls : List Nat) (h : ∀ x ∈ l :: ls, x < 32) : maskOf (l :: ls) = BitVec.ofNat 32 (2 ^ l) ||| maskOf ls := by
  apply BitVec.eq_of_getLsbD_eq
  intro k hk
  rw [maskOf_getLsbD _ _ h, BitVec.getLsbD_or, maskOf_getLsbD _ _ (fun x hx => h x (List.mem_cons_of_mem _ hx)), two_pow_getLsbD l k (h l (by simp))]
  by_cases hk : k = l <;> simp [hk]

/-- Arriving one after another: who parks, who is let go. -/
theorem joinArrive_spec (n : Nat) (mask : Word) : ∀ (ls : List Nat) (g : Group) (parked freed : List Nat),
    ls.Nodup → (∀ l ∈ ls, l < 32) → n < g.arrived.length → g.j.getD n 0 = mask →
    (∀ l ∈ ls, mask.getLsbD l = true → (g.arrived.getD n 0).getLsbD l = false) →
    let come := ls.filter fun l => mask.getLsbD l
    let all := g.arrived.getD n 0 ||| maskOf come
    (come = [] → joinArrive n ls g parked freed = (g, parked, freed)) ∧
    (come ≠ [] → all = mask → joinArrive n ls g parked freed = ({ g with arrived := setAt g.arrived n 0 }, [], freed ++ g.joinParked n)) ∧
    (come ≠ [] → all ≠ mask → joinArrive n ls g parked freed = ({ g with arrived := setAt g.arrived n all }, come.reverse ++ parked, freed))
  | [], g, parked, freed => by
    intro _ _ _ _ _ come all
    exact ⟨fun _ => rfl, fun h => absurd rfl h, fun h => absurd rfl h⟩
  | l :: ls, g, parked, freed => by
    intro hn hlt hlen hj ha come all
    obtain ⟨hl, hls⟩ := List.nodup_cons.1 hn
    have hl32 : l < 32 := hlt l (by simp)
    have hlt' : ∀ x ∈ ls, x < 32 := fun x hx => hlt x (List.mem_cons_of_mem _ hx)
    have hjd : g.j.getD n 0 = mask := hj
    by_cases hm : mask.getLsbD l = true
    · have hcome : come = l :: ls.filter fun l => mask.getLsbD l := by simp only [come, List.filter_cons]; rw [if_pos hm]
      let arr := g.arrived.getD n 0 ||| BitVec.ofNat 32 (2 ^ l)
      have hstep : joinArrive n (l :: ls) g parked freed = if arr = mask then
        joinArrive n ls { g with arrived := setAt g.arrived n 0 } [] (freed ++ g.joinParked n)
        else joinArrive n ls { g with arrived := setAt g.arrived n arr } (l :: parked) freed := by
        simp only [joinArrive, hjd, hm, if_true]; rfl
      have hall : all = arr ||| maskOf (ls.filter fun l => mask.getLsbD l) := by
        show g.arrived.getD n 0 ||| maskOf come = _
        rw [hcome, maskOf_cons _ _ (fun x hx => by
          rcases List.mem_cons.1 hx with rfl | hx
          · exact hl32
          · exact hlt' x (List.mem_filter.1 hx).1), ← BitVec.or_assoc]
      have harr : ∀ x ∈ ls, mask.getLsbD x = true → arr.getLsbD x = false := by
        intro x hx hmx
        show (g.arrived.getD n 0 ||| BitVec.ofNat 32 (2 ^ l)).getLsbD x = false
        rw [BitVec.getLsbD_or, two_pow_getLsbD l x hl32, ha x (List.mem_cons_of_mem _ hx) hmx]
        have : x ≠ l := fun h => hl (h ▸ hx)
        simp [this]
      refine ⟨fun h => (by rw [hcome] at h; cases h), fun _ hx => ?_, fun _ hx => ?_⟩
      · by_cases hrest : (ls.filter fun l => mask.getLsbD l) = []
        · have : arr = mask := by rw [← hx, hall, hrest]; simp [maskOf]
          rw [hstep, if_pos this]
          have := (joinArrive_spec n mask ls { g with arrived := setAt g.arrived n 0 } [] (freed ++ g.joinParked n) hls hlt' (by simpa using hlen) hjd (by
            intro x hx hmx
            have : x ∈ ls.filter fun l => mask.getLsbD l := List.mem_filter.2 ⟨hx, hmx⟩
            rw [hrest] at this; cases this)).1 hrest
          exact this
        · have hne : arr ≠ mask := by
            intro h
            obtain ⟨x, hx⟩ := List.exists_mem_of_ne_nil _ hrest
            obtain ⟨h1, h2⟩ := List.mem_filter.1 hx
            have := harr x h1 h2
            rw [h, h2] at this; cases this
          rw [hstep, if_neg hne]
          have := (joinArrive_spec n mask ls { g with arrived := setAt g.arrived n arr } (l :: parked) freed hls hlt' (by simpa using hlen) hjd (by
            intro x hx hmx; rw [setAt_getD_same _ _ _ _ hlen]; exact harr x hx hmx)).2.1 hrest (by
              show (setAt g.arrived n arr).getD n 0 ||| _ = mask
              rw [setAt_getD_same _ _ _ _ hlen, ← hall]; exact hx)
          rw [this]
          show (({ g with arrived := setAt (setAt g.arrived n arr) n 0 } : Group), _) = _
          rw [setAt_setAt]
          rfl
      · have hne : arr ≠ mask := by
          intro h
          by_cases hrest : (ls.filter fun l => mask.getLsbD l) = []
          · rw [hall, hrest] at hx; exact hx (by simp [maskOf, h])
          · obtain ⟨x, hx⟩ := List.exists_mem_of_ne_nil _ hrest
            obtain ⟨h1, h2⟩ := List.mem_filter.1 hx
            have := harr x h1 h2
            rw [h, h2] at this; cases this
        rw [hstep, if_neg hne]
        obtain ⟨i1, -, i3⟩ := joinArrive_spec n mask ls { g with arrived := setAt g.arrived n arr } (l :: parked) freed hls hlt' (by simpa using hlen) hjd (by
            intro x hx hmx; rw [setAt_getD_same _ _ _ _ hlen]; exact harr x hx hmx)
        by_cases hrest : (ls.filter fun l => mask.getLsbD l) = []
        · rw [i1 hrest, hcome, hrest, hall, hrest]
          simp [maskOf]
        · rw [i3 hrest (by
              show (setAt g.arrived n arr).getD n 0 ||| _ ≠ mask
              rw [setAt_getD_same _ _ _ _ hlen, ← hall]; exact hx)]
          show (({ g with arrived := setAt (setAt g.arrived n arr) n ((setAt g.arrived n arr).getD n 0 ||| maskOf (ls.filter fun l => mask.getLsbD l)) } : Group), _) = _
          rw [setAt_setAt, setAt_getD_same _ _ _ _ hlen, ← hall, hcome]
          simp
    · have hcome : come = ls.filter fun l => mask.getLsbD l := by simp only [come, List.filter_cons]; rw [if_neg hm]
      have hstep : joinArrive n (l :: ls) g parked freed = joinArrive n ls g parked freed := by
        simp only [joinArrive, hjd]; rw [if_neg hm]
      have := joinArrive_spec n mask ls g parked freed hls hlt' hlen hj (fun x hx => ha x (List.mem_cons_of_mem _ hx))
      rw [hstep]
      simp only [all, hcome]
      exact this

end Sys2Proof.Machine
end

