-- ==== Sys2Proof/Laws/Endings.lean ====
section
/-!
SUPPORT. Laws of endings and stack pages: what ending lanes leaves of a group, what retiring a block and releasing an
overlay leave of the machine, and a refill that gives back what was spilled.
-/

namespace Sys2Proof.Machine

open Sys2Proof

/-- Only blocks and the management core change. -/
def Only (s t : State) : Prop := t = { s with blocks := t.blocks, mgmt := t.mgmt }

theorem Only.refl (s : State) : Only s s := rfl

theorem Only.trans {s t u : State} (a : Only s t) (b : Only t u) : Only s u := by
  unfold Only at *; rw [b, a]

theorem only_setGroup (s : State) (i : Issuer) (g : Group) : Only s (s.setGroup i g) := by
  cases i <;> rfl

theorem only_foldl {α : Type} (f : State → α → State) (h : ∀ s x, Only s (f s x)) : ∀ (l : List α) (s : State), Only s (l.foldl f s)
  | [], s => .refl s
  | x :: l, s => (h s x).trans (only_foldl f h l (f s x))

theorem only_release (s : State) (l c o : Nat) : Only s (s.releaseOverlay l c o) := by
  unfold State.releaseOverlay
  apply only_foldl
  intro s b
  split
  · apply only_foldl
    intro s g
    split
    · unfold State.wake
      split
      · exact .refl _
      · unfold State.ready; exact only_setGroup _ _ _
    · exact .refl _
  · exact .refl _

/-- A thread that keeps its registers, and its end. -/
def Thread.Keeps (t u : Thread) : Prop :=
  u.v = t.v ∧ u.p = t.p ∧ (t.live = false → u.live = false ∧ (t.status = .ended → t.ld = [] → u.status = .ended ∧ u.ld = []))

theorem Thread.Keeps.refl (t : Thread) : t.Keeps t := ⟨rfl, rfl, fun h => ⟨h, fun a b => ⟨a, b⟩⟩⟩

theorem Thread.Keeps.trans {t u w : Thread} (a : t.Keeps u) (b : u.Keeps w) : t.Keeps w := by
  obtain ⟨a1, a2, a3⟩ := a
  obtain ⟨b1, b2, b3⟩ := b
  refine ⟨b1.trans a1, b2.trans a2, fun h => ?_⟩
  obtain ⟨x1, x2⟩ := a3 h
  obtain ⟨y1, y2⟩ := b3 x1
  exact ⟨y1, fun p q => by obtain ⟨m, n⟩ := x2 p q; exact y2 m n⟩

/-- A group whose threads keep their registers and ends, and whose S registers stand. -/
def Group.Keeps (g h : Group) : Prop :=
  h.s = g.s ∧ h.threads.length = g.threads.length ∧ ∀ k, k < g.threads.length → (g.thread k).Keeps (h.thread k)

theorem Group.Keeps.refl (g : Group) : g.Keeps g := ⟨rfl, rfl, fun _ _ => .refl _⟩

theorem Group.Keeps.trans {g h k : Group} (a : g.Keeps h) (b : h.Keeps k) : g.Keeps k :=
  ⟨b.1.trans a.1, b.2.1.trans a.2.1, fun l hl => (a.2.2 l hl).trans (b.2.2 l (by rw [a.2.1]; exact hl))⟩

theorem Group.keeps_fold (f : Nat → Thread → Thread) (hf : ∀ l (t : Thread), t.Keeps (f l t)) (ls : List Nat) (g : Group) :
    g.Keeps (ls.foldl (fun g l => g.updThread l (f l)) g) := by
  induction ls generalizing g with
  | nil => exact .refl g
  | cons l ls ih =>
    refine Group.Keeps.trans (h := g.updThread l (f l)) ⟨rfl, by simp, fun k hk => ?_⟩ (ih (g.updThread l (f l)))
    rw [Group.thread_updThread _ _ _ _ hk]
    split
    · exact hf _ _
    · exact .refl _

theorem Thread.keeps_end (t : Thread) : t.Keeps (if t.live then t.goto .ended else t) := by
  split
  · rename_i h; exact ⟨rfl, rfl, fun h' => by rw [h] at h'; cases h'⟩
  · exact .refl t

theorem Group.keeps_unpark (g : Group) (ls : List Nat) (h : ∀ l ∈ ls, (g.thread l).live = true) : g.Keeps (g.unpark ls) := by
  obtain ⟨⟨u1, u3⟩, u2⟩ := g.unpark_spec ls
  refine ⟨by rw [u1], u3, fun k hk => ?_⟩
  rw [u2 k hk]
  split
  · rename_i hk'; exact ⟨rfl, rfl, fun h' => by rw [h k hk'] at h'; cases h'⟩
  · exact .refl _

theorem killLanes_keeps (g : Group) (ls : List Nat) : g.Keeps (g.kill ls) :=
  Group.keeps_fold (fun _ t => if t.live then t.goto .ended else t) (fun _ t => t.keeps_end) ls g

theorem killLanes_ends (g : Group) (ls : List Nat) : ∀ l ∈ ls, l < g.threads.length →
    ((g.kill ls).thread l).live = false ∧ ((g.thread l).live = true → ((g.kill ls).thread l).status = .ended ∧ ((g.kill ls).thread l).ld = []) := by
  have key : ∀ (ls : List Nat) (g : Group), ∀ l ∈ ls, l < g.threads.length →
      let h := ls.foldl (fun g l => g.updThread l fun t => if t.live then t.goto .ended else t) g
      (h.thread l).live = false ∧ ((g.thread l).live = true → (h.thread l).status = .ended ∧ (h.thread l).ld = []) := by
    intro ls
    induction ls with
    | nil => intro _ _ h; cases h
    | cons a ls ih =>
      intro g l hl hlen h
      have hk := Group.keeps_fold (fun _ t => if t.live then t.goto .ended else t) (fun _ t => t.keeps_end) ls (g.updThread a fun t => if t.live then t.goto .ended else t)
      by_cases ha : l = a
      · subst ha
        have h1 : ((g.updThread l fun t => if t.live then t.goto .ended else t).thread l) = if (g.thread l).live then (g.thread l).goto .ended else g.thread l := by
          rw [Group.thread_updThread _ _ _ _ hlen, if_pos rfl]
        obtain ⟨-, -, k3⟩ := hk
        obtain ⟨-, -, k⟩ := k3 l (by simpa using hlen)
        rw [h1] at k
        cases hlv : (g.thread l).live with
        | true =>
          rw [hlv, if_pos rfl] at k
          obtain ⟨x, y⟩ := k rfl
          exact ⟨x, fun _ => y rfl rfl⟩
        | false =>
          rw [hlv] at k
          obtain ⟨x, -⟩ := k hlv
          exact ⟨x, fun h => by cases h⟩
      · rcases List.mem_cons.1 hl with rfl | hl
        · exact absurd rfl ha
        · have := ih (g.updThread a fun t => if t.live then t.goto .ended else t) l hl (by simpa using hlen)
          rw [Group.thread_updThread_other _ _ _ _ ha] at this
          exact this
  exact key ls g

theorem joinParked_live (g : Group) (n l : Nat) (h : l ∈ g.joinParked n) : (g.thread l).live = true := by
  have := ((joinParked_spec g n l).1 h).2
  unfold Thread.live; rw [this]

theorem endLanes_keeps (g : Group) (ls : List Nat) : (g.kill ls).Keeps (g.endLanes ls).1 := by
  unfold Group.endLanes
  dsimp only
  generalize g.kill ls = g1
  by_cases h0 : g1.liveLanes = 0
  · rw [if_pos h0]
    have h1 := killLanes_keeps g1 (List.range 32)
    generalize g1.kill (List.range 32) = g2 at h1 ⊢
    exact h1.trans ⟨rfl, rfl, fun _ _ => .refl _⟩
  · rw [if_neg h0]
    have key : ∀ (ns : List Nat) (r : Group × List Nat), g1.Keeps r.1 → g1.Keeps (ns.foldl Group.releaseFull r).1 := by
      intro ns
      induction ns with
      | nil => intro r h; exact h
      | cons n ns ih =>
        intro r h
        simp only [List.foldl_cons]
        apply ih
        unfold Group.releaseFull
        dsimp only
        split
        · exact h.trans (Group.keeps_unpark r.1 _ fun l hl => joinParked_live r.1 n l hl)
        · exact h
    exact key _ _ (.refl _)

theorem endLanes_spec (g : Group) (ls : List Nat) (hn : ∀ l ∈ ls, l < g.threads.length) : g.Keeps (g.endLanes ls).1 ∧
    ∀ l ∈ ls, ((g.endLanes ls).1.thread l).live = false ∧ ((g.thread l).live = true → ((g.endLanes ls).1.thread l).status = .ended ∧ ((g.endLanes ls).1.thread l).ld = []) := by
  have h1 := killLanes_keeps g ls
  have h2 := endLanes_keeps g ls
  refine ⟨h1.trans h2, fun l hl => ?_⟩
  obtain ⟨a, b⟩ := killLanes_ends g ls l hl (hn l hl)
  obtain ⟨-, -, k⟩ := h2.2.2 l (by rw [h1.2.1]; exact hn l hl)
  obtain ⟨x, y⟩ := k a
  exact ⟨x, fun h => by obtain ⟨p, q⟩ := b h; exact y p q⟩

theorem setGroup_block {s : State} {b n u : Nat} {x : Block} (hb : s.block? b = some x) (g : Group) :
    (s.setGroup (.unit b n u) g).block? b = some { x with groups := setAt x.groups n g } := by
  show (s.updBlock b _).block? b = _
  rw [State.block?_updBlock s b (fun x => { x with groups := setAt x.groups n g }) (fun _ => rfl), hb]
  rfl

theorem dropLoaders_same {s : State} (b g : Nat) (m : Word) (h : ∀ w ∈ s.windows, ∀ x ∈ w.loading, x.2.2.2 ≠ 0 ∧ ¬ (x.2.1 = b ∧ x.2.2.1 = g)) :
    s.dropLoaders b g m = s := by
  have h1 : (s.windows.map fun (w : FrameWin) => { w with loading := w.loading.map fun x =>
    if x.2.1 = b && x.2.2.1 = g then (x.1, x.2.1, x.2.2.1, x.2.2.2 &&& ~~~m) else x }) = s.windows := by
    conv_rhs => rw [← List.map_id s.windows]
    apply List.map_congr_left
    intro w hw
    have : (w.loading.map fun x => if x.2.1 = b && x.2.2.1 = g then (x.1, x.2.1, x.2.2.1, x.2.2.2 &&& ~~~m) else x) = w.loading := by
      conv_rhs => rw [← List.map_id w.loading]
      apply List.map_congr_left
      intro x hx
      have := (h w hw x hx).2
      simp only [Bool.and_eq_true, decide_eq_true_eq, this, if_false, id]
    rw [this]; rfl
  have h2 : (s.windows.flatMap fun (w : FrameWin) => (w.loading.filter fun x =>
      x.2.2.2 = 0 && !(w.loading.any fun (y : Nat × Nat × Nat × Word) => y.1 = x.1 && y.2.2.2 ≠ 0)).map fun x =>
        (w.launch, w.core, x.1)) = [] := by
    rw [List.flatMap_eq_nil_iff]
    intro w hw
    rw [List.map_eq_nil_iff, List.filter_eq_nil_iff]
    intro x hx
    exact fun h0 => (h w hw x hx).1 (by simp only [Bool.and_eq_true, decide_eq_true_eq] at h0; exact h0.1)
  have h3 : (s.windows.map fun (w : FrameWin) => { w with loading := w.loading.filter fun x => x.2.2.2 ≠ 0 }) = s.windows := by
    conv_rhs => rw [← List.map_id s.windows]
    apply List.map_congr_left
    intro w hw
    have : (w.loading.filter fun x => x.2.2.2 ≠ 0) = w.loading := by
      rw [List.filter_eq_self]; intro x hx; simpa using (h w hw x hx).1
    rw [this]; rfl
  unfold State.dropLoaders
  dsimp only
  rw [h1, h2, h3]
  rfl

/-- What retiring leaves. -/
theorem retire_spec (s : State) (b : Nat) :
    (s.retire b) = { s with blocks := (s.retire b).blocks, acmReqs := (s.retire b).acmReqs, launches := (s.retire b).launches } ∧
    ∀ x, s.block? b = some x → ∃ y, (s.retire b).block? b = some y ∧ y.groups = x.groups := by
  unfold State.retire
  split
  · exact ⟨rfl, fun x h => by simp_all⟩
  · rename_i x hx
    split
    · refine ⟨rfl, fun y hy => ?_⟩
      have := State.block?_updBlock s b (fun x => { x with state := .retired, mmas := [], parts := x.parts.map fun p => { p with held := [], spilled := [], acm := .empty } }) (fun _ => rfl)
      rw [hy] at this
      exact ⟨_, this, rfl⟩
    · exact ⟨rfl, fun y hy => ⟨y, hy, rfl⟩⟩

theorem mismatch_none' {s : State} (h : s.redundant = false) {c : Ctx} {on : List Nat} {k : Nat → DWord} : s.targetMismatch c on k = [] := mismatch_none h _ _

theorem read_write_dword {m : Memory} (h : m.wf = true) (a : Nat) (x : DWord) : BitVec.ofNat 64 ((m.write a 8 x.toNat).read a 8) = x := by
  rw [Memory.read_write_same h]
  apply BitVec.eq_of_toNat_eq
  rw [BitVec.toNat_ofNat]
  have := x.isLt
  omega

/-! ## Lookups and stores in flight -/

/-- Two states differ in the caches, their counters and the stamps alone. -/
abbrev Looked (s t : State) : Prop := t = { s with cache := t.cache, l2 := t.l2, stats := t.stats, nextId := t.nextId }

theorem Looked.trans {s t u : State} (h : Looked s t) (k : Looked t u) : Looked s u := by
  unfold Looked at *
  rw [k, h]

theorem looked_foldl {α : Type} (f : State → α → State) (h : ∀ s x, Looked s (f s x)) :
    ∀ (l : List α) (s : State), Looked s (l.foldl f s)
  | [], _ => rfl
  | x :: l, s => (h s x).trans (looked_foldl f h l (f s x))

/-- The lookups of an access change the caches, their counters and the stamps alone. -/
theorem looked_touch (s : State) (cls die : Nat) (x : Xlate) (w : Bool) : Looked s (s.touch cls die x w) := rfl

/-- Performing a thread's SYSTEM stores keeps host memory canonical and leaves none of them to perform. -/
theorem drainSys_spec {m : Memory} (h : m.wf = true) : ∀ st, (drainSys m st).1.wf = true ∧ ∀ o ∈ (drainSys m st).2, o = none
  | [] => ⟨h, by simp [drainSys]⟩
  | o :: os => by
    unfold drainSys
    dsimp only
    have hw : (match o with | some x => m.write x.addr x.size x.val.toNat | none => m).wf = true := by
      cases o with
      | none => exact h
      | some x => exact Memory.write_wf h _ _ _
    obtain ⟨h1, h2⟩ := drainSys_spec hw os
    refine ⟨h1, fun p hp => ?_⟩
    rcases List.mem_cons.mp hp with rfl | hp
    · rfl
    · exact h2 p hp

/-- With none left, a load performs none. -/
theorem drainHits_none (a size : Nat) (m : Memory) : ∀ {st : List (Option SysStore)}, (∀ o ∈ st, o = none) →
    drainHits a size m st = (m, st)
  | [], _ => rfl
  | o :: os, h => by
    unfold drainHits
    rw [if_neg]
    intro hh
    unfold sysHits at hh
    obtain ⟨p, hp, hx⟩ := List.any_eq_true.mp hh
    rw [h p hp] at hx
    cases hx

end Sys2Proof.Machine
end

