-- ==== Sys2Proof/Laws/MemForms.lean ====
section
/-!
SUPPORT. Laws of the forms of the memory pipe: who acts, what their group holds afterwards, and events of the actors in
any order over device memory, host memory, peer memory and scratchpads.
-/

namespace Sys2Proof.Machine

open Sys2Proof

/-- The agents of a form that can run. -/
def Ctx.agents (c : Ctx) (f : Fields) : List Agent := (c.actors f).map fun l => (l, c.takers f l)

theorem Ctx.actors_nodup {s : State} {c : Ctx} (hc : s.ctx? = some c) (f : Fields) : (c.actors f).Nodup := by
  unfold Ctx.actors
  split
  · split <;> simp
  · exact (State.ctx?_lanes hc).1.filter _

theorem Ctx.actors_guard {c : Ctx} {f : Fields} {l : Nat} (h : l ∈ c.actors f) : (c.rd.thread l).guard f = true := by
  unfold Ctx.actors at h
  split at h
  · split at h
    · rename_i hg; simp only [List.mem_singleton] at h; rw [h]; exact hg
    · cases h
  · exact (active_spec.1 h).2

theorem State.CanRun.actors_lanes {s : State} {c : Ctx} {op : Nat} {f : Fields} (h : s.CanRun c op f) {l : Nat}
    (hl : l ∈ c.actors f) : l ∈ c.lanes := by
  unfold Ctx.actors at hl
  split at hl
  · rename_i hs
    split at hl
    · simp only [List.mem_singleton] at hl; rw [hl]; exact lowLane_lanes (h.whole hs).1
    · cases hl
  · exact (active_spec.1 hl).1

/-- A form that can run, runs over its actors. -/
theorem memForm_run {s : State} {c : Ctx} {op : Nat} {f : Fields} (h : s.CanRun c op f)
    (run : State → Ctx → List Agent → Except Stop State)
    (h0 : f.namesS = true → c.actors f = [] → run s c [] = .ok (s.commit c c.g (fun _ => .next) true 0)) :
    s.memForm op f run = s.finish (run s c (c.agents f)) := by
  unfold State.memForm
  rw [h.ctx]
  dsimp only
  cases hs : f.namesS with
  | true =>
    rw [if_pos rfl]
    by_cases hg : (c.rd.thread c.lowLane).guard f = true
    · have ha : c.actors f = [c.lowLane] := by simp [Ctx.actors, hs, hg]
      have h1 := h.pend c.lowLane (by simp [ha])
      have h2 := h.sound c.lowLane (by simp [ha])
      have hag : c.agents f = [(c.lowLane, c.lanes)] := by simp [Ctx.agents, ha, Ctx.takers, hs]
      simp only [hg, if_true, Thread.waitsFor, h1, List.filter_nil, List.map_nil, List.isEmpty_nil, Bool.not_true,
        Bool.false_eq_true, if_false, Thread.handleTrap, h2, guardGroup_whole (h.whole hs).2, hag, List.head?_nil,
        Option.map_none, Option.toList_none, ite_self, List.append_nil, guardTraps_nil]
    · have ha0 : c.actors f = [] := by simp [Ctx.actors, hs, hg]
      have ha : c.agents f = [] := by simp [Ctx.agents, ha0]
      simp only [hg, Bool.false_eq_true, if_false, List.isEmpty_nil, Bool.not_true, guardGroup_whole (h.whole hs).2,
        guardTraps_nil, ha, h0 hs ha0]
  | false =>
    rw [if_neg Bool.false_ne_true]
    have ha : c.actors f = c.active f := by simp [Ctx.actors, hs]
    have hag : c.agents f = (c.active f).map fun l => (l, [l]) := by simp [Ctx.agents, ha, Ctx.takers, hs]
    have ht : ((c.active f).flatMap fun l =>
        (c.rd.thread l).handleTrap l (readRegs op f) ++ s.poisonTrap l (readRegs op f)) = [] := by
      rw [List.flatMap_eq_nil_iff]
      intro l hl
      simp [Thread.handleTrap, h.pend l (ha ▸ hl), h.sound l (ha ▸ hl)]
    have hw : (c.lanes.filter fun l =>
        (if (c.active f).contains l then (c.rd.thread l).waitsFor (readRegs op f) else []).isEmpty) = c.lanes := by
      rw [List.filter_eq_self]
      intro l hl
      split
      · rename_i hm
        simp [Thread.waitsFor, h.pend l (ha ▸ (by simpa using hm))]
      · rfl
    rw [ht, guardTraps_nil]
    unfold State.withoutWaiting
    dsimp only
    rw [hw, if_pos rfl, hag]

/-- An S form whose guard does not hold only moves on. -/
theorem memForm_off {s : State} {c : Ctx} {op : Nat} {f : Fields} (h : s.CanRun c op f)
    (run : State → Ctx → List Agent → Except Stop State) (hs : f.namesS = true) (ha : c.actors f = []) :
    s.memForm op f run = .next (s.commit c c.g (fun _ => .next) true 0) := by
  have h1 := memForm_run h (fun s c _ => .ok (s.commit c c.g (fun _ => .next) true 0)) (fun _ _ => rfl)
  rw [finish_ok] at h1
  rw [← h1]
  have hg : ¬ (c.rd.thread c.lowLane).guard f = true := by
    intro hg
    simp [Ctx.actors, hs, hg] at ha
  unfold State.memForm
  rw [h.ctx]
  dsimp only
  rw [if_pos hs, if_pos hs]
  simp only [hg, Bool.false_eq_true, if_false]

/-- Local actions of the actors of `who`, in any order: what each thread of the group is afterwards. -/
theorem mem_fold {c : Ctx} (hn : c.lanes.Nodup) (f : Fields) (who : Nat → Bool)
    {act : Nat → Group → Nat → Group} {run : Nat → Nat → Thread → Thread} (ha : ∀ a, LaneLocal (act a) (run a))
    (order : List Nat) (hp : order.Perm ((c.actors f).filter who)) (hna : (c.actors f).Nodup) (g : Group)
    (hg : g.threads = c.g.threads) :
    let h := order.foldl (fun g l => (c.takers f l).foldl (act l) g) g
    h = { g with threads := h.threads, mxq := h.mxq } ∧ h.threads.length = g.threads.length ∧
      h.mxq.map MxOp.kept = g.mxq.map MxOp.kept ∧
      ∀ k, k < g.threads.length → h.thread k =
        (fun l => if l ∈ c.lanes then
          (let a := if f.namesS then c.lowLane else l
           if (c.rd.thread a).guard f && who a then run a l (c.g.thread l) else c.g.thread l) else c.g.thread l) k := by
  have hth : ∀ l, g.thread l = c.g.thread l := fun l => by simp [Group.thread, hg]
  have hon : order.Nodup := hp.nodup_iff.2 (hna.filter _)
  cases hs : f.namesS with
  | true =>
    have hac : order = [] ∧ ¬ ((c.rd.thread c.lowLane).guard f && who c.lowLane) = true ∨
        order = [c.lowLane] ∧ ((c.rd.thread c.lowLane).guard f && who c.lowLane) = true := by
      unfold Ctx.actors at hp
      rw [if_pos hs] at hp
      by_cases hg : (c.rd.thread c.lowLane).guard f = true
      · rw [if_pos hg] at hp
        by_cases hw : who c.lowLane = true
        · right
          rw [show [c.lowLane].filter who = [c.lowLane] by simp [hw]] at hp
          exact ⟨List.perm_singleton.1 hp, by simp [hg, hw]⟩
        · left
          rw [show [c.lowLane].filter who = [] by simp [hw]] at hp
          exact ⟨List.perm_nil.1 hp, by simp [hw]⟩
      · left
        rw [if_neg hg] at hp
        exact ⟨List.perm_nil.1 hp, by simp [hg]⟩
    rcases hac with ⟨rfl, hno⟩ | ⟨rfl, hyes⟩
    · refine ⟨rfl, rfl, rfl, fun k _ => ?_⟩
      show g.thread k = _
      by_cases hk : k ∈ c.lanes
      · simp only [hk, if_true, hno, Bool.false_eq_true, if_false]; exact hth k
      · simp only [hk, if_false]; exact hth k
    · have ht : c.takers f c.lowLane = c.lanes := by simp [Ctx.takers, hs]
      simp only [List.foldl_cons, List.foldl_nil, ht]
      obtain ⟨i1, i2, i3, i4⟩ := foldl_local (ha c.lowLane) c.lanes g hn
      refine ⟨i1, i2, i3, fun k hk => ?_⟩
      rw [i4 k hk]
      simp only [if_true, hyes, hth]
  | false =>
    have ht : ∀ l, c.takers f l = [l] := fun l => by simp [Ctx.takers, hs]
    have hac : c.actors f = c.active f := by simp [Ctx.actors, hs]
    have hl : LaneLocal (fun g l => (c.takers f l).foldl (act l) g) (fun l => run l l) := by
      intro g l
      simp only [ht, List.foldl_cons, List.foldl_nil]
      exact ha l g l
    obtain ⟨i1, i2, i3, i4⟩ := foldl_local hl order g hon
    refine ⟨i1, i2, i3, fun k hk => ?_⟩
    rw [i4 k hk]
    have hm : k ∈ order ↔ (k ∈ c.lanes ∧ (c.rd.thread k).guard f = true) ∧ who k = true := by
      rw [hp.mem_iff, List.mem_filter, hac, active_spec]
    simp only [Bool.false_eq_true, if_false, hth]
    by_cases h1 : k ∈ c.lanes
    · by_cases h2 : ((c.rd.thread k).guard f && who k) = true
      · have h2' := h2
        simp only [Bool.and_eq_true] at h2
        rw [if_pos (hm.2 ⟨⟨h1, h2.1⟩, h2.2⟩), if_pos h1, if_pos h2']
      · have h2' := h2
        simp only [Bool.and_eq_true] at h2
        rw [if_neg (fun h => h2 ⟨(hm.1 h).1.2, (hm.1 h).2⟩), if_pos h1, if_neg h2']
    · rw [if_neg (fun h => h1 (hm.1 h).1.1), if_neg h1]

/-- Local actions of the actors of `who`, in any order, and every lane of the unit moves on. -/
theorem commit_mem {s : State} {c : Ctx} (hn : c.lanes.Nodup) (f : Fields) (who : Nat → Bool)
    {act : Nat → Group → Nat → Group} {run : Nat → Nat → Thread → Thread} (ha : ∀ a, LaneLocal (act a) (run a))
    (order : List Nat) (hp : order.Perm ((c.actors f).filter who)) (hna : (c.actors f).Nodup) (g : Group)
    (hg : g.threads = c.g.threads) (keep : Bool) (hint : Word) :
    ∃ h, s.commit c (order.foldl (fun g l => (c.takers f l).foldl (act l) g) g) (fun _ => .next) keep hint =
        s.setGroup s.cur h ∧ g.OnlyLanes h (c.afterMem f who run) := by
  obtain ⟨k1, k2, k3, k4⟩ := mem_fold hn f who ha order hp hna g hg
  obtain ⟨t, e, e1⟩ := commit_dest (s := s) hn g _ _ k1 k2 k3 k4 (fun _ => .next) keep hint [] false
  refine ⟨t, e, ?_⟩
  have : (fun l => if l ∈ c.lanes then ((fun l => if l ∈ c.lanes then
            (let a := if f.namesS then c.lowLane else l
             if (c.rd.thread a).guard f && who a then run a l (c.g.thread l) else c.g.thread l) else c.g.thread l) l).goto .next else
          (fun l => if l ∈ c.lanes then
            (let a := if f.namesS then c.lowLane else l
             if (c.rd.thread a).guard f && who a then run a l (c.g.thread l) else c.g.thread l) else c.g.thread l) l) = c.afterMem f who run := by
    funext l
    by_cases hl : l ∈ c.lanes <;> simp [hl, Ctx.afterMem, Thread.goto]
  rw [this] at e1
  exact e1

/-! ## States that differ in the issuer's group -/

/-- `x` is `y` with the issuer's group `g`, as far as a later write of that group shows. -/
structure Under (i : Issuer) (x y : State) (g : Group) : Prop where
  cur : x.cur = i ∧ y.cur = i
  grp : x.groupOf i = some g
  same : ∀ h, x.setGroup i h = y.setGroup i h

theorem Under.start {s : State} {g : Group} (h : s.groupOf s.cur = some g) : Under s.cur s s g := ⟨⟨rfl, rfl⟩, h, fun _ => rfl⟩

@[simp] theorem State.setGroup_cur (s : State) (i : Issuer) (g : Group) : (s.setGroup i g).cur = s.cur := by
  cases i <;> rfl

theorem State.setGroup_setGroup (s : State) (i : Issuer) (g h : Group) : (s.setGroup i g).setGroup i h = s.setGroup i h := by
  cases i with
  | mgmt => rfl
  | unit b n u =>
    simp only [State.setGroup, State.updBlock]
    congr 1
    rw [List.map_map]
    apply List.map_congr_left
    intro x _
    simp only [Function.comp]
    by_cases hx : x.id = b
    · simp [hx, setAt_setAt]
    · simp [hx]

theorem Under.updGroup {i : Issuer} {x y : State} {g : Group} (h : Under i x y g) (f : Group → Group) :
    Under i (x.updGroup i f) y (f g) := by
  have : x.updGroup i f = x.setGroup i (f g) := by simp [State.updGroup, h.grp]
  rw [this]
  refine ⟨⟨by simpa using h.cur.1, h.cur.2⟩, State.groupOf_setGroup _ h.grp, fun k => ?_⟩
  rw [State.setGroup_setGroup]
  exact h.same k

/-- A part of the state that no group touches. -/
structure Blind (f : State → State) : Prop where
  cur : ∀ s, (f s).cur = s.cur
  grp : ∀ s i, (f s).groupOf i = s.groupOf i
  comm : ∀ s i g, f (s.setGroup i g) = (f s).setGroup i g

theorem Under.blind {i : Issuer} {x y : State} {g : Group} (h : Under i x y g) {f : State → State} (hf : Blind f) :
    Under i (f x) (f y) g :=
  ⟨⟨by rw [hf.cur]; exact h.cur.1, by rw [hf.cur]; exact h.cur.2⟩, by rw [hf.grp]; exact h.grp, fun k => by rw [← hf.comm, h.same, hf.comm]⟩

theorem Blind.comp {f g : State → State} (hf : Blind f) (hg : Blind g) : Blind (fun s => g (f s)) :=
  ⟨fun s => by rw [hg.cur, hf.cur], fun s i => by rw [hg.grp, hf.grp], fun s i k => by rw [hf.comm, hg.comm]⟩

theorem Blind.id : Blind (fun s => s) := ⟨fun _ => rfl, fun _ _ => rfl, fun _ _ _ => rfl⟩

/-- The unit moves on with its group as the state holds it. -/
theorem Under.commitCur {x y : State} {c : Ctx} {g : Group} (h : Under x.cur x y g) :
    x.commitCur c = x.commit c g (fun _ => .next) true 0 ∧ ∀ k, x.setGroup x.cur k = y.setGroup y.cur k := by
  constructor
  · simp [State.commitCur, State.curGroup, h.grp]
  · intro k; rw [h.same, h.cur.2]

theorem blind_cache (ca : List CacheLine) (n : Nat) : Blind fun s => { s with cache := ca, nextId := n } :=
  ⟨fun _ => rfl, fun _ i => by cases i <;> rfl, fun _ i _ => by cases i <;> rfl⟩

theorem blind_fresh (n : Nat) : Blind fun s => { s with fresh := n } :=
  ⟨fun _ => rfl, fun _ i => by cases i <;> rfl, fun _ i _ => by cases i <;> rfl⟩

theorem State.block?_setGroup (s : State) (b n u : Nat) (g : Group) (k : Nat) :
    (s.setGroup (.unit b n u) g).block? k = (s.block? k).map fun x => if x.id = b then { x with groups := setAt x.groups n g } else x := by
  unfold State.block? State.setGroup State.updBlock
  dsimp only
  induction s.blocks with
  | nil => rfl
  | cons x xs ih =>
    simp only [List.map_cons, List.find?_cons]
    have he : ((if x.id = b then ({ x with groups := setAt x.groups n g } : Block) else x).id == k) = (x.id == k) := by
      split <;> rfl
    rw [he]
    cases hx : x.id == k with
    | true => rfl
    | false => exact ih

theorem State.launchOf_setGroup (s : State) (i j : Issuer) (g : Group) : (s.setGroup i g).launchOf j = s.launchOf j := by
  cases i with
  | mgmt => cases j <;> rfl
  | unit b n u =>
    cases j with
    | mgmt => rfl
    | unit b2 n2 u2 =>
      simp only [State.launchOf]
      rw [State.block?_setGroup]
      cases hb : s.block? b2 with
      | none => rfl
      | some x =>
        simp only [Option.map_some, Option.bind_some]
        split <;> rfl

theorem State.scratch_setGroup (s : State) (i : Issuer) (g : Group) (part : Nat) : (s.setGroup i g).scratch part = s.scratch part := by
  unfold State.scratch
  rw [State.setGroup_cur]
  cases hc : s.cur with
  | mgmt => cases i <;> rfl
  | unit b n u =>
    cases i with
    | mgmt => rfl
    | unit b2 n2 u2 =>
      dsimp only
      rw [State.block?_setGroup]
      cases hb : s.block? b with
      | none => rfl
      | some x =>
        simp only [Option.map_some, Option.bind_some]
        split <;> rfl

theorem blind_writeLoc (p : Loc) (n x : Nat) : Blind fun s => (s.snoopOut p).writeLoc p n x := by
  cases p <;> exact ⟨fun _ => rfl, fun _ i => by cases i <;> rfl, fun _ i _ => by cases i <;> rfl⟩

theorem State.updPart_setGroup (s : State) (b part : Nat) (f : Part → Part) (i : Issuer) (g : Group) :
    (s.setGroup i g).updPart b part f = (s.updPart b part f).setGroup i g := by
  cases i with
  | mgmt => rfl
  | unit b2 n u =>
    simp only [State.updPart, State.setGroup, State.updBlock]
    congr 1
    rw [List.map_map, List.map_map]
    apply List.map_congr_left
    intro x _
    simp only [Function.comp]
    let F (y : Block) : Block := if y.id = b then { y with parts := updAt y.parts part f } else y
    let G (y : Block) : Block := if y.id = b2 then { y with groups := setAt y.groups n g } else y
    have hF : ∀ y : Block, y.id = b → F y = { y with parts := updAt y.parts part f } := fun y h => if_pos h
    have hF' : ∀ y : Block, y.id ≠ b → F y = y := fun y h => if_neg h
    have hG : ∀ y : Block, y.id = b2 → G y = { y with groups := setAt y.groups n g } := fun y h => if_pos h
    have hG' : ∀ y : Block, y.id ≠ b2 → G y = y := fun y h => if_neg h
    show F (G x) = G (F x)
    by_cases h2 : x.id = b2 <;> by_cases h1 : x.id = b
    · rw [hG x h2, hF x h1]
      exact (hF { x with groups := setAt x.groups n g } h1).trans (hG { x with parts := updAt x.parts part f } h2).symm
    · rw [hG x h2, hF' x h1, hG x h2]
      exact hF' { x with groups := setAt x.groups n g } h1
    · rw [hG' x h2, hF x h1]
      exact (hG' { x with parts := updAt x.parts part f } h2).symm
    · rw [hG' x h2, hF' x h1, hG' x h2]

theorem State.groupOf_updPart (s : State) (b part : Nat) (f : Part → Part) (i : Issuer) :
    (s.updPart b part f).groupOf i = s.groupOf i := by
  cases i with
  | mgmt => rfl
  | unit b2 n u =>
    simp only [State.groupOf, State.updPart]
    unfold State.block? State.updBlock
    dsimp only
    induction s.blocks with
    | nil => rfl
    | cons x xs ih =>
      simp only [List.map_cons, List.find?_cons]
      have he : ((if x.id = b then ({ x with parts := updAt x.parts part f } : Block) else x).id == b2) = (x.id == b2) := by
        split <;> rfl
      rw [he]
      cases hx : x.id == b2 with
      | true => simp only [Option.bind_some]; split <;> rfl
      | false => exact ih

theorem blind_setScratch (part : Nat) (w : Memory → Memory) : Blind fun s => s.setScratch part (w (s.scratch part)) := by
  refine ⟨fun s => ?_, fun s i => ?_, fun s i g => ?_⟩
  · unfold State.setScratch; split <;> rfl
  · unfold State.setScratch
    cases s.cur with
    | mgmt => cases i <;> rfl
    | unit b n u => exact State.groupOf_updPart _ _ _ _ _
  · rw [State.scratch_setGroup]
    unfold State.setScratch
    rw [State.setGroup_cur]
    cases s.cur with
    | mgmt => cases i <;> rfl
    | unit b n u => exact State.updPart_setGroup _ _ _ _ _ _

end Sys2Proof.Machine
end

