-- ==== Sys2Proof/Laws/Events.lean ====
section
/-!
SUPPORT. Laws of memory events: their order, their places, and a run of them over states that differ in the issuer's
group alone.
-/

namespace Sys2Proof.Machine

open Sys2Proof

theorem insertLane_perm (rank : Nat → Nat) (l : Nat) : ∀ ls : List Nat, (insertLane rank l ls).Perm (l :: ls)
  | [] => .refl _
  | m :: ms => by
    unfold insertLane
    split
    · exact .refl _
    · exact ((insertLane_perm rank l ms).cons m).trans (.swap _ _ _)

/-- The order of events is an order of the lanes, and only the counter of free values moves. -/
theorem State.eventOrder_spec (s : State) (ls : List Nat) : ∃ order n, s.eventOrder ls = (order, { s with fresh := n }) ∧ order.Perm ls := by
  unfold State.eventOrder
  split
  · exact ⟨[], s.fresh, rfl, .refl _⟩
  · exact ⟨_, s.fresh, rfl, .refl _⟩
  · refine ⟨_, s.fresh + 1, rfl, ?_⟩
    have : ∀ ls : List Nat, (ls.foldr (insertLane (Config.laneRank s.fresh)) []).Perm ls := by
      intro ls
      induction ls with
      | nil => exact .refl _
      | cons a ls ih => exact (insertLane_perm _ _ _).trans (ih.cons a)
    exact this _

/-- The lookups of an issue change the caches, their counters and the stamps alone. -/
theorem State.touchAll_spec (s : State) (write : Bool) (ps : List Place) : ∃ cache l2 stats nextId,
    s.touchAll write ps = { s with cache, l2, stats, nextId } :=
  ⟨_, _, _, _, looked_foldl _ (fun s p => by split; exact looked_touch _ _ _ _ _; rfl) (distinct ps) s⟩

/-- No control register. -/
def Place.memory : Place → Bool
  | .ctl _ _ => false
  | _ => true

theorem State.hiddenHalf_setGroup (s : State) (i : Issuer) (g : Group) (o n : Nat) : (s.setGroup i g).hiddenHalf o n = s.hiddenHalf o n := by
  unfold State.hiddenHalf
  rw [State.setGroup_cur, State.launchOf_setGroup]

theorem State.readPlace_setGroup (s : State) (i : Issuer) (g : Group) (p : Place) (n : Nat) (hp : p.memory = true) :
    (s.setGroup i g).readPlace p n = s.readPlace p n := by
  cases p with
  | loc x => simp only [State.readPlace]; cases x.loc <;> cases i <;> rfl
  | ctl r a => cases hp
  | scr part off =>
    simp only [State.readPlace, State.hiddenHalf_setGroup, State.scratch_setGroup]
    cases i <;> rfl
  | const off => simp only [State.readPlace, State.setGroup_cur, State.launchOf_setGroup]
  | zero => rfl

/-- A write at a plain place touches no group. -/
theorem blind_writePlace (p : Place) (n x : Nat) (hp : p.memory = true) : Blind fun s => s.writePlace p n x := by
  cases p with
  | loc y => exact blind_writeLoc y.loc n x
  | ctl r a => cases hp
  | scr part off => exact blind_setScratch part fun m => m.write off n x
  | const off => exact Blind.id
  | zero => exact Blind.id

theorem Under.readPlace {i : Issuer} {x y : State} {g : Group} (h : Under i x y g) (p : Place) (n : Nat) (hp : p.memory = true) :
    x.readPlace p n = y.readPlace p n := by
  rw [← State.readPlace_setGroup x i g p n hp, h.same, State.readPlace_setGroup y i g p n hp]

theorem Under.hiddenHalf {i : Issuer} {x y : State} {g : Group} (h : Under i x y g) (o n : Nat) : x.hiddenHalf o n = y.hiddenHalf o n := by
  rw [← State.hiddenHalf_setGroup x i g, h.same, State.hiddenHalf_setGroup y i g]

/-- The group does not change by what is already so. -/
theorem Under.updGroup_same {i : Issuer} {x y : State} {g : Group} (h : Under i x y g) (f : Group → Group) (hf : f g = g) :
    Under i (x.updGroup i f) y g := by
  have := h.updGroup f; rw [hf] at this; exact this

theorem drainSys_none (m : Memory) : ∀ l : List (Option SysStore), l.any Option.isSome = false → drainSys m l = (m, l)
  | [], _ => rfl
  | o :: os, h => by
    simp only [List.any_cons, Bool.or_eq_false_iff] at h
    cases o with
    | some x => simp at h
    | none => simp [drainSys, drainSys_none m os h.2]

theorem updAt_id {α : Type} (f : α → α) : ∀ (l : List α) (i : Nat), (∀ x ∈ l[i]?, f x = x) → updAt l i f = l
  | [], _, _ => rfl
  | x :: l, 0, h => by simp [updAt, h x (by simp)]
  | x :: l, i + 1, h => by simp only [updAt]; rw [updAt_id f l i (by simpa using h)]

theorem Group.updThread_same (g : Group) (l : Nat) (f : Thread → Thread) (h : f (g.thread l) = g.thread l) : g.updThread l f = g := by
  unfold Group.updThread
  rw [updAt_id f g.threads l ?_]
  intro x hx
  have : g.thread l = x := by
    unfold Group.thread
    have hx : g.threads[l]? = some x := hx
    rw [List.getD_eq_getElem?_getD, hx]; rfl
  rw [← this]; exact h

/-- A thread without SYSTEM stores to perform has none performed. -/
theorem Under.flushSys {x y : State} {g : Group} (h : Under x.cur x y g) (l : Nat) (hs : (g.thread l).sysPending = false) :
    Under x.cur (x.flushSys l) y g := by
  unfold State.flushSys
  rw [h.grp]
  dsimp only
  rw [drainSys_none _ _ hs]
  have hg : g.updThread l (fun t => { t with st := (g.thread l).st }) = g := by
    exact Group.updThread_same g l _ rfl
  rw [hg]
  have hset : ∀ k, ({ x.setGroup x.cur k with hostMem := x.hostMem } : State) = x.setGroup x.cur k := by
    intro k; cases x.cur <;> rfl
  rw [hset]
  exact ⟨⟨by simp, h.cur.2⟩, State.groupOf_setGroup _ h.grp, fun k => by rw [State.setGroup_setGroup]; exact h.same k⟩

theorem sysHits_none (a size : Nat) (st : List (Option SysStore)) (h : (st.any Option.isSome) = false) :
    sysHits a size st = false := by
  simp only [sysHits, List.any_eq_false] at h ⊢
  intro o ho
  cases o with
  | none => simp
  | some x => exact absurd rfl (h _ ho)

/-- A thread without SYSTEM stores to perform has none that a load of its own may not pass. -/
theorem Under.flushHits {x y : State} {g : Group} (h : Under x.cur x y g) (l a size : Nat)
    (hs : (g.thread l).sysPending = false) : Under x.cur (x.flushHits l a size) y g := by
  have hd : drainHits a size x.hostMem (g.thread l).st = (x.hostMem, (g.thread l).st) := by
    cases hst : (g.thread l).st with
    | nil => rfl
    | cons o os =>
      have := sysHits_none a size (o :: os) (by rw [← hst]; exact hs)
      simp [drainHits, this]
  unfold State.flushHits
  rw [h.grp]
  dsimp only
  rw [hd]
  have hg : g.updThread l (fun t => { t with st := (g.thread l).st }) = g := by
    exact Group.updThread_same g l _ rfl
  dsimp only
  rw [hg]
  have hset : ∀ k, ({ x.setGroup x.cur k with hostMem := x.hostMem } : State) = x.setGroup x.cur k := by
    intro k; cases x.cur <;> rfl
  rw [hset]
  exact ⟨⟨by simp, h.cur.2⟩, State.groupOf_setGroup _ h.grp, fun k => by rw [State.setGroup_setGroup]; exact h.same k⟩

theorem Under.beforeAccess {x y : State} {g : Group} (h : Under x.cur x y g) (l : Nat) (p : Place) (n : Nat) (w : Bool)
    (hs : (g.thread l).sysPending = false) : Under x.cur (x.beforeAccess l p n w) y g := by
  unfold State.beforeAccess
  split
  · split
    · split
      · exact h.flushSys l hs
      · exact h.flushHits l _ _ hs
    · split
      · exact h.flushSys l hs
      · exact h
  · split
    · exact h.flushSys l hs
    · exact h
  · split
    · exact h.flushSys l hs
    · exact h
  · exact h

theorem updAt_proj {α β : Type} (P : α → β) (F : α → α) (hF : ∀ x, P (F x) = P x) (l : List α) (i k : Nat) (d : α) :
    P ((updAt l i F).getD k d) = P (l.getD k d) := by
  simp only [List.getD_eq_getElem?_getD, updAt_get?]
  split
  · cases h : l[k]? <;> simp [hF]
  · rfl

theorem fold_under {i : Issuer} (Q : State → Group → List Nat → Prop) (step stepY : State → Nat → State) (G : Group → Nat → Group) :
    ∀ (ls : List Nat) (x y : State) (g : Group),
      (∀ x y g l ls, Under i x y g → Q y g (l :: ls) → Under i (step x l) (stepY y l) (G g l) ∧ Q (stepY y l) (G g l) ls) →
      Under i x y g → Q y g ls → Under i (ls.foldl step x) (ls.foldl stepY y) (ls.foldl G g)
  | [], _, _, _, _, h, _ => h
  | l :: ls, x, y, g, hs, h, hq => by
    obtain ⟨h1, h2⟩ := hs x y g l ls h hq
    exact fold_under Q step stepY G ls _ _ _ hs h1 h2

theorem foldl_same {α β : Type} (ls : List α) (y : β) : ls.foldl (fun y _ => y) y = y := by
  induction ls with
  | nil => rfl
  | cons a ls ih => exact ih

theorem readPlace_plain {s : State} {p : Place} {n : Nat} (h : s.plain p n) (cache l2 : List CacheLine) (stats : List CacheStat)
    (nextId fresh : Nat) : ({ s with cache, l2, stats, nextId, fresh } : State).readPlace p n = s.readPlace p n := by
  cases p with
  | loc x => simp only [State.readPlace]; cases x.loc <;> rfl
  | ctl r a => cases h
  | scr part off =>
    have h2 : s.hiddenHalf off n = false := h.2
    have h3 : ({ s with cache, l2, stats, nextId, fresh } : State).hiddenHalf off n = false := h2
    simp only [State.readPlace, h2, h3]
    rfl
  | const off => rfl
  | zero => rfl

theorem find_agents {α : Type} (c : Ctx) (f : Fields) (w : Nat → α) (l : Nat) (h : l ∈ c.actors f) :
    ((c.agents f).map fun a => (a, w a.1)).find? (fun x => x.1.1 = l) = some ((l, c.takers f l), w l) := by
  unfold Ctx.agents
  rw [List.map_map]
  generalize c.actors f = as at h ⊢
  induction as with
  | nil => cases h
  | cons a as ih =>
    simp only [List.map_cons, List.find?_cons, Function.comp]
    by_cases ha : a = l
    · subst ha; simp
    · simp only [ha, decide_false]
      exact ih (by rcases List.mem_cons.1 h with h | h; exact absurd h.symm ha; exact h)

theorem mem_agents {c : Ctx} {f : Fields} {a : Agent} (h : a ∈ c.agents f) : a.1 ∈ c.actors f ∧ a.2 = c.takers f a.1 := by
  unfold Ctx.agents at h
  obtain ⟨l, hl, rfl⟩ := List.mem_map.1 h
  exact ⟨hl, rfl⟩

theorem issueLoad_local (regs : List (Nat × Word)) : LaneLocal (fun g m => g.issueLoad m regs) (fun _ t => t.withLoad regs) := by
  intro g l
  refine ⟨rfl, ?_⟩
  simp [Group.issueLoad]

theorem issueLoads_st (regs : List (Nat × Word)) (k : Nat) : ∀ (ms : List Nat) (g : Group),
    ((ms.foldl (fun g m => g.issueLoad m regs) g).thread k).st = (g.thread k).st
  | [], _ => rfl
  | m :: ms, g => by
    simp only [List.foldl_cons]
    rw [issueLoads_st regs k ms]
    exact updAt_proj (fun t : Thread => t.st) (fun t => t.withLoad regs) (fun _ => rfl) _ _ _ _

theorem finish_setGroup {s x y : State} {c : Ctx} {g : Group} {P : Group → Prop} (hx : Under s.cur x y g) (hxc : x.cur = s.cur)
    (h : ∀ s' : State, ∃ h, s'.commit c g (fun _ => .next) true 0 = s'.setGroup s'.cur h ∧ P h) :
    ∃ h, x.commitCur c = y.setGroup s.cur h ∧ P h := by
  have hu : Under x.cur x y g := by rw [hxc]; exact hx
  obtain ⟨h1, h2⟩ := hu.commitCur (c := c)
  obtain ⟨k, e, p⟩ := h x
  refine ⟨k, ?_, p⟩
  rw [h1, e, h2, hx.cur.2]

/-- A place that reads and writes as plain memory. -/
theorem plain_spec {s : State} {p : Place} {n : Nat} (h : s.plain p n) : p.memory = true ∧ s.heldPlace p = false ∧ s.deadPlace p = none ∧
    s.afterRead p n = s := by
  cases p with
  | loc x => exact ⟨rfl, rfl, h, rfl⟩
  | ctl r a => cases h
  | scr part off =>
    obtain ⟨h1, h2⟩ := h
    exact ⟨rfl, h1, rfl, by simp [State.afterRead, h2]⟩
  | const off => exact ⟨rfl, rfl, rfl, rfl⟩
  | zero => exact ⟨rfl, rfl, rfl, rfl⟩

theorem deadTrap_none {s : State} {kind : Nat} {ps : List (Nat × Place)} {act : State → Nat × Place → State}
    (h : ∀ p ∈ ps, s.deadPlace p.2 = none) : s.deadTrap kind ps act = none := by
  have : (ps.filterMap fun p => (s.deadPlace p.2).map fun a => (p.1, a)) = [] := by
    rw [List.filterMap_eq_nil_iff]
    intro p hp
    simp [h p hp]
  unfold State.deadTrap
  simp only [this, List.find?_nil, List.filter_nil]

theorem helperPlace_self {s : State} {p : Place} (h : s.deadPlace p = none) (helper : Bool) (l : Nat) :
    s.helperPlace helper l p = p := by
  simp [State.helperPlace, h]

theorem helpersAnswered_self {s : State} {ps : List (Nat × Place)} (h : ∀ p ∈ ps, s.deadPlace p.2 = none) :
    s.helpersAnswered ps = s := by
  have : (ps.find? fun p => (s.deadPlace p.2).isSome) = none := by
    rw [List.find?_eq_none]
    intro p hp
    simp [h p hp]
  simp only [State.helpersAnswered, this]

theorem commitCur_self {s : State} {c : Ctx} (hc : s.ctx? = some c) : s.commitCur c = s.commit c c.g (fun _ => .next) true 0 := by
  simp [State.commitCur, State.curGroup, (State.ctx?_group hc).1]

/-- One store event, besides its group. -/
theorem Under.storeEvent {i : Issuer} {x y : State} {g : Group} (h : Under i x y g) (l : Nat) (ms : List Nat) (p : Place)
    (size v : Nat) (hp : p.memory = true) (hs : (g.thread l).sysPending = false) :
    Under i (x.storeEvent l ms p size v) (if (sysStore p size v).isSome then y else y.writePlace p size v)
      (ms.foldl (fun g m => g.issueStore m (if m = l then sysStore p size v else none)) g) := by
  obtain rfl := h.cur.1
  have hb := (h.beforeAccess l p size true hs).blind (blind_writePlace p size v hp)
  unfold State.storeEvent
  dsimp only
  by_cases he : (sysStore p size v).isSome = true
  · rw [if_pos he, if_pos he]
    exact h.updGroup _
  · rw [if_neg he, if_neg he, hb.cur.1]
    exact hb.updGroup _

theorem performers_eq {s : State} {c : Ctx} (hred : s.redundant = false) (f : Fields) :
    s.performers c (c.agents f) = ((c.actors f).filter fun l => !(c.rd.thread l).helper).map fun l => (l, c.takers f l) := by
  unfold State.performers Ctx.agents
  rw [List.filter_map]
  congr 1
  apply List.filter_congr
  intro l _
  simp [hred]

theorem find_map_lane {α : Type} (ls : List Nat) (w : Nat → α) (l : Nat) (h : l ∈ ls) :
    (ls.map fun l => (l, w l)).find? (fun x => x.1 = l) = some (l, w l) := by
  induction ls with
  | nil => cases h
  | cons a as ih =>
    simp only [List.map_cons, List.find?_cons]
    by_cases ha : a = l
    · subst ha; simp
    · simp only [ha, decide_false]
      exact ih (by rcases List.mem_cons.1 h with h | h; exact absurd h.symm ha; exact h)

theorem find_map_pair {α β : Type} (ls : List Nat) (v : Nat → β) (w : Nat → α) (l : Nat) (h : l ∈ ls) :
    (ls.map fun l => ((l, v l), w l)).find? (fun x => x.1.1 = l) = some ((l, v l), w l) := by
  induction ls with
  | nil => cases h
  | cons a as ih =>
    simp only [List.map_cons, List.find?_cons]
    by_cases ha : a = l
    · subst ha; simp
    · simp only [ha, decide_false]
      exact ih (by rcases List.mem_cons.1 h with h | h; exact absurd h.symm ha; exact h)

theorem filterMap_find {α : Type} (ls : List Nat) (v : Nat → List Nat) (w : Nat → α) (found : List (Agent × α))
    (hf : ∀ l ∈ ls, (found.find? fun x => x.1.1 = l) = some ((l, v l), w l)) :
    ((ls.map fun l => ((l, v l) : Agent)).filterMap fun a => (found.find? fun x => x.1.1 = a.1).map fun x => (a.1, x.2)) = ls.map fun l => (l, w l) := by
  induction ls with
  | nil => rfl
  | cons a as ih =>
    simp only [List.map_cons, List.filterMap_cons, hf a (by simp), Option.map_some]
    rw [ih (fun l hl => hf l (List.mem_cons_of_mem _ hl))]

theorem issueStore_local (l : Nat) (e : Option SysStore) :
    LaneLocal (fun g m => g.issueStore m (if m = l then e else none)) (fun m t => { t with st := t.st ++ [if m = l then e else none] }) :=
  updThread_local (fun m t => { t with st := t.st ++ [if m = l then e else none] })

theorem storeRun_nil {s : State} {c : Ctx} (hc : s.ctx? = some c) (hred : s.redundant = false) (f : Fields) (sp : Space) (kind : Nat) :
    s.storeRun f sp kind c [] = .ok (s.commit c c.g (fun _ => .next) true 0) := by
  unfold State.storeRun
  simp only [List.filter_nil, List.map_nil, List.flatMap_nil, mismatch_none hred, List.append_nil, guardTraps_nil, Ctx.stFull, List.any_nil, Bool.or_self,
    Bool.false_eq_true, if_false, State.deadTrap, List.find?_nil, State.performers, List.filterMap_nil]
  show Except.ok (s.commitCur c) = _
  rw [commitCur_self hc]

theorem issueStores_other (act : Nat → Option SysStore) (k : Nat) : ∀ (ms : List Nat) (g : Group), k ∉ ms →
    ((ms.foldl (fun g m => g.issueStore m (act m)) g).thread k) = g.thread k
  | [], _, _ => rfl
  | m :: ms, g, h => by
    simp only [List.foldl_cons]
    rw [issueStores_other act k ms _ (fun h' => h (List.mem_cons_of_mem _ h'))]
    exact Group.thread_updThread_other _ _ _ _ (fun h' => h (h' ▸ by simp))

/-- An actor's takers hold no other actor. -/
theorem takers_apart {c : Ctx} {f : Fields} {l k : Nat} (hl : l ∈ c.actors f) (hk : k ∈ c.actors f) (hne : k ≠ l) : k ∉ c.takers f l := by
  unfold Ctx.takers
  cases hs : f.namesS with
  | true =>
    unfold Ctx.actors at hl hk
    rw [if_pos hs] at hl hk
    split at hl
    · rename_i hg
      rw [if_pos hg] at hk
      simp only [List.mem_singleton] at hl hk; exact absurd (hk.trans hl.symm) hne
    · cases hl
  | false => simp [hne]

theorem State.launchOf_updPart (s : State) (b part : Nat) (f : Part → Part) (i : Issuer) :
    (s.updPart b part f).launchOf i = s.launchOf i := by
  cases i with
  | mgmt => rfl
  | unit b2 n u =>
    simp only [State.launchOf, State.updPart]
    unfold State.block? State.updBlock State.launch?
    dsimp only
    induction s.blocks with
    | nil => rfl
    | cons x xs ih =>
      simp only [List.map_cons, List.find?_cons]
      have he : ((if x.id = b then ({ x with parts := updAt x.parts part f } : Block) else x).id == b2) = (x.id == b2) := by
        split <;> rfl
      rw [he]
      cases hx : x.id == b2 with
      | true => simp only [Option.bind_some]; split <;> rfl
      | false => exact ih

theorem State.hiddenHalf_writePlace (s : State) (p : Place) (n x : Nat) (hp : p.memory = true) (o k : Nat) :
    (s.writePlace p n x).hiddenHalf o k = s.hiddenHalf o k := by
  cases p with
  | loc y => simp only [State.writePlace]; cases y.loc <;> rfl
  | ctl r a => cases hp
  | scr part off =>
    simp only [State.writePlace, State.hiddenHalf]
    unfold State.setScratch
    cases hc : s.cur with
    | mgmt => rfl
    | unit b g u =>
      dsimp only
      rw [show (s.updPart b part _).cur = s.cur from rfl, hc, State.launchOf_updPart]
  | const o => rfl
  | zero => rfl

/-- Atomic events one after another, besides the group. -/
theorem atom_fold {i : Issuer} {g : Group} (s : State) (place : Nat → Place) (size : Nat) (new : Nat → DWord → Nat)
    (step : State × List (Nat × DWord) → Nat → State × List (Nat × DWord)) :
    ∀ (ls : List Nat) (x y : State) (acc : List (Nat × DWord)),
      (∀ l ∈ ls, s.plain (place l) size ∧ (g.thread l).sysPending = false ∧ ∀ r : State × List (Nat × DWord),
        step r l =
          (let old := BitVec.ofNat 64 ((r.1.beforeAccess l (place l) size true).readPlace (place l) size)
           (((r.1.beforeAccess l (place l) size true).afterRead (place l) size).writePlace (place l) size (new l old), (l, old) :: r.2))) →
      Under i x y g → (∀ o k, y.hiddenHalf o k = s.hiddenHalf o k) →
      Under i (ls.foldl step (x, acc)).1 (y.atomEvents place size new ls).1 g ∧
        (ls.foldl step (x, acc)).2 = (y.atomEvents place size new ls).2.reverse ++ acc
  | [], x, y, acc, _, hu, _ => ⟨hu, rfl⟩
  | l :: ls, x, y, acc, hs, hu, hh => by
    obtain ⟨h1, h2, h3⟩ := hs l (by simp)
    obtain ⟨p1, -, -, -⟩ := plain_spec h1
    obtain rfl := hu.cur.1
    have hb := hu.beforeAccess l (place l) size true h2
    have hrd := hb.readPlace (place l) size p1
    have har : (x.beforeAccess l (place l) size true).afterRead (place l) size = x.beforeAccess l (place l) size true := by
      cases hpl : place l with
      | ctl r a => rw [hpl] at p1; cases p1
      | scr part off =>
        rw [hpl] at h1 hb
        have : (x.beforeAccess l (.scr part off) size true).hiddenHalf off size = false := by
          rw [hb.hiddenHalf, hh]; exact h1.2
        simp [State.afterRead, this]
      | loc z => rfl
      | const o => rfl
      | zero => rfl
    simp only [List.foldl_cons]
    rw [h3]
    dsimp only
    rw [hrd, har]
    have hw := hb.blind (blind_writePlace (place l) size (new l (BitVec.ofNat 64 (y.readPlace (place l) size))) p1)
    obtain ⟨i1, i2⟩ := atom_fold s place size new step ls _ _ ((l, BitVec.ofNat 64 (y.readPlace (place l) size)) :: acc)
      (fun k hk => hs k (List.mem_cons_of_mem _ hk)) hw (fun o k => by rw [State.hiddenHalf_writePlace _ _ _ _ p1, hh])
    refine ⟨i1, ?_⟩
    rw [i2]
    simp [State.atomEvents]

theorem find_reverse (ls : List (Nat × DWord)) (l : Nat) (hn : (ls.map (·.1)).Nodup) :
    ls.reverse.find? (fun o => o.1 = l) = ls.find? (fun o => o.1 = l) := by
  induction ls with
  | nil => rfl
  | cons a as ih =>
    simp only [List.map_cons, List.nodup_cons] at hn
    simp only [List.reverse_cons, List.find?_append, List.find?_cons, List.find?_nil]
    rw [ih hn.2]
    by_cases ha : a.1 = l
    · have : as.find? (fun o => o.1 = l) = none := by
        rw [List.find?_eq_none]
        intro x hx
        simp only [decide_eq_true_eq]
        intro h
        exact hn.1 (by rw [ha, ← h]; exact List.mem_map_of_mem hx)
      simp [this, ha]
    · simp [ha]

theorem atomEvents_lanes (place : Nat → Place) (size : Nat) (new : Nat → DWord → Nat) : ∀ (ls : List Nat) (s : State),
    (s.atomEvents place size new ls).2.map (·.1) = ls
  | [], _ => rfl
  | l :: ls, s => by
    simp only [State.atomEvents, List.map_cons]
    rw [atomEvents_lanes place size new ls]

theorem find_some_of_mem (ls : List (Nat × DWord)) (l : Nat) (h : l ∈ ls.map (·.1)) : ∃ x, ls.find? (fun o => o.1 = l) = some x := by
  cases hf : ls.find? (fun o => o.1 = l) with
  | some x => exact ⟨x, rfl⟩
  | none =>
    rw [List.find?_eq_none] at hf
    obtain ⟨x, hx, rfl⟩ := List.mem_map.1 h
    have := hf x hx
    simp at this

theorem foldl_ext' {α β : Type} (f g : β → α → β) (ls : List α) (h : ∀ b, ∀ a ∈ ls, f b a = g b a) : ∀ b, ls.foldl f b = ls.foldl g b := by
  induction ls with
  | nil => intro b; rfl
  | cons a ls ih =>
    intro b
    simp only [List.foldl_cons]
    rw [h b a (by simp)]
    exact ih (fun b a ha => h b a (List.mem_cons_of_mem _ ha)) _

theorem afterMem_none {c : Ctx} {f : Fields} (run : Nat → Nat → Thread → Thread) : c.afterMem f (fun _ => false) run = c.after f fun _ t => t := by
  funext l
  unfold Ctx.afterMem Ctx.after
  by_cases h : l ∈ c.lanes
  · simp [h]
  · simp [h]

/-- A form that only moves its unit on. -/
theorem commit_move {s : State} {c : Ctx} (hc : s.ctx? = some c) (f : Fields) (keep : Bool) (hint : Word) :
    ∃ h, s.commit c c.g (fun _ => .next) keep hint = s.setGroup s.cur h ∧ c.g.OnlyLanes h (c.after f fun _ t => t) := by
  obtain ⟨t, e, k⟩ := commit_freed hc c.g rfl [] (fun _ => .next) keep hint [] false (c.after f fun _ t => t) (fun l _ => by
      simp [Ctx.after, Thread.goto])
  exact ⟨t, e, k⟩

theorem part_wf {s : State} (h : s.memoriesWf = true) (part : Nat) : (s.scratch part).wf = true := by
  unfold State.memoriesWf at h
  simp only [Bool.and_eq_true] at h
  unfold State.scratch
  cases hc : s.cur with
  | mgmt => exact h.1.1.1.1.1.2
  | unit b g u =>
    dsimp only
    cases hb : (s.block? b).bind (·.part part) with
    | none => rfl
    | some p =>
      cases hx : s.block? b with
      | none => rw [hx] at hb; cases hb
      | some x =>
        rw [hx] at hb
        have hxm : x ∈ s.blocks := List.mem_of_find?_eq_some hx
        have := List.all_eq_true.1 h.1.1.1.2 x hxm
        have hpm : p ∈ x.parts := List.mem_of_getElem? hb
        have := List.all_eq_true.1 this p hpm
        simp only [Part.wf, Bool.and_eq_true] at this
        exact this.1.1.1

theorem scratch_setScratch {s : State} (part : Nat) (m : Memory)
    (hex : s.cur = .mgmt ∨ ∃ b g u k, s.cur = .unit b g u ∧ (s.block? b).bind (·.part part) = some k) (q : Nat) :
    (s.setScratch part m).scratch q = if q = part ∨ s.cur = .mgmt then m else s.scratch q := by
  rcases hex with h | ⟨b, g, u, k, h, hk⟩
  · unfold State.setScratch State.scratch
    simp only [h, or_true, if_true]
  · have hc : (s.setScratch part m).cur = .unit b g u := by unfold State.setScratch; rw [h]; exact h
    unfold State.scratch
    rw [hc, h]
    dsimp only
    have h2 : (s.setScratch part m) = s.updPart b part fun p => { p with scratch := m } := by unfold State.setScratch; rw [h]
    rw [h2]
    unfold State.updPart
    rw [State.block?_updBlock s b (fun x => { x with parts := updAt x.parts part fun p => { p with scratch := m } }) (fun _ => rfl)]
    cases hx : s.block? b with
    | none => rw [hx] at hk; cases hk
    | some x =>
      rw [hx] at hk
      simp only [Option.map_some, Option.bind_some] at hk ⊢
      show (((updAt x.parts part fun p => { p with scratch := m })[q]?).map (·.scratch)).getD .empty = if q = part ∨ _ then m else (x.parts[q]?.map (·.scratch)).getD .empty
      rw [updAt_get?]
      by_cases hq : q = part
      · subst hq
        have hk : x.parts[q]? = some k := hk
        simp [hk]
      · simp [hq]

end Sys2Proof.Machine
end

