-- ==== Sys2Proof/Laws/Commands.lean ====
section
/-!
SUPPORT. Laws of the end of a command: what completion, arrival, release and publish leave alone.
-/

namespace Sys2Proof.Machine

open Sys2Proof

/-- A release from waiting changes one group. -/
theorem State.wake_spec (s : State) (iss : Issuer) (ls : List Nat) (f : Nat → Thread → Thread) :
    s.wake iss ls f = s ∨ ∃ h, s.wake iss ls f = s.setGroup iss h := by
  unfold State.wake
  cases s.groupOf iss with
  | none => exact .inl rfl
  | some g => exact .inr ⟨_, rfl⟩

@[simp] theorem State.setGroup_cmds (s : State) (i : Issuer) (g : Group) : (s.setGroup i g).cmds = s.cmds := by
  cases i <;> rfl

@[simp] theorem State.wake_cmds (s : State) (iss : Issuer) (ls : List Nat) (f : Nat → Thread → Thread) :
    (s.wake iss ls f).cmds = s.cmds := by
  rcases s.wake_spec iss ls f with h | ⟨h, e⟩
  · rw [h]
  · rw [e, State.setGroup_cmds]

theorem foldl_cmds {α : Type} (step : State → α → State) (h : ∀ s a, (step s a).cmds = s.cmds) :
    ∀ (l : List α) (s : State), (l.foldl step s).cmds = s.cmds
  | [], _ => rfl
  | a :: l, s => (foldl_cmds step h l (step s a)).trans (h s a)

@[simp] theorem State.releaseBar_cmds (s : State) (b part off : Nat) (all : Bool) :
    (s.releaseBar b part off all).cmds = s.cmds := by
  unfold State.releaseBar
  dsimp only
  split
  · exact State.wake_cmds _ _ _ _
  · split
    · rfl
    · exact foldl_cmds _ (fun _ _ => State.wake_cmds _ _ _ _) _ _

@[simp] theorem State.setBar_cmds (s : State) (b part off n : Nat) : (s.setBar b part off n).cmds = s.cmds := by
  unfold State.setBar State.setScratchOf
  split <;> rfl

@[simp] theorem State.arrive_cmds (s : State) (b part off arrivals bytes bexp : Nat) :
    (s.arrive b part off arrivals bytes bexp).cmds = s.cmds := by
  unfold State.arrive
  dsimp only
  split <;> simp

@[simp] theorem State.cmdArrives_cmds (s : State) (c : Cmd) (bar code bytes : Nat) :
    (s.cmdArrives c bar code bytes).cmds = s.cmds := by
  unfold State.cmdArrives
  dsimp only
  rw [State.arrive_cmds]
  split <;> simp

@[simp] theorem State.wakeHandles_cmds (s : State) (b : Nat) : (s.wakeHandles b).cmds = s.cmds := by
  unfold State.wakeHandles
  split
  · rfl
  · exact foldl_cmds _ (fun _ _ => State.wake_cmds _ _ _ _) _ _

@[simp] theorem State.capAppend_cmds (s : State) (kind ctx part : Nat) (payload : List Byte) :
    (s.capAppend kind ctx part payload).cmds = s.cmds := by
  unfold State.capAppend
  split
  · rfl
  · split <;> rfl

@[simp] theorem State.capPass_cmds : ∀ (n : Nat) (s : State), (State.capPass n s).cmds = s.cmds
  | 0, _ => rfl
  | n + 1, s => by
    unfold State.capPass
    dsimp only
    split
    · rfl
    · split
      · rfl
      · exact (State.capPass_cmds n _).trans rfl

@[simp] theorem State.capMatch_cmds (s : State) (ctx : Nat) (mine : List Byte → Bool) : (s.capMatch ctx mine).cmds = s.cmds := by
  unfold State.capMatch State.capMove
  split <;> simp

@[simp] theorem State.capWait_cmds (s : State) (mine : List Byte → Bool) : (s.capWait mine).cmds = s.cmds := by
  unfold State.capWait
  split <;> rfl

@[simp] theorem State.capPublish_cmds (s : State) (c : Cmd) (bar code bytes : Nat) : (s.capPublish c bar code bytes).cmds = s.cmds := by
  unfold State.capPublish
  dsimp only
  split <;> simp

theorem State.completeCmd_cmds (s : State) (c : Cmd) (code bytes : Nat) :
    (s.completeCmd c code bytes).cmds = s.cmds.map fun k => if k.id = c.id then k.ended code bytes s.nextId else k := by
  unfold State.completeCmd
  dsimp only
  rw [State.wakeHandles_cmds]
  split
  · split <;> rfl
  · rw [State.capPublish_cmds]
    split <;> rfl

theorem State.endCmd_cmds (s : State) (c : Cmd) (code bytes : Nat) (arrives : Bool) :
    (s.endCmd c code bytes arrives).cmds = s.cmds.map fun k => if k.id = c.id then k.ended code bytes s.nextId else k := by
  unfold State.endCmd
  dsimp only
  split
  · rw [State.cmdArrives_cmds, State.completeCmd_cmds]
  · exact State.completeCmd_cmds _ _ _ _

@[simp] theorem State.publishScr_cmds (s : State) (b p : Nat) (ws : List (Nat × Byte)) : (s.publishScr b p ws).cmds = s.cmds := by
  unfold State.publishScr State.setScratchOf
  dsimp only
  split <;> split <;> rfl

@[simp] theorem State.publishReg_cmds (s : State) (ctx idx : Nat) (ws : List (Nat × Byte)) :
    (s.publishReg ctx idx ws).cmds = s.cmds := by
  unfold State.publishReg
  dsimp only
  split <;> rfl

@[simp] theorem State.publish_cmds (s : State) (buf : Option BufKey) (ws : List (Nat × Byte)) :
    (s.publish buf ws).cmds = s.cmds := by
  unfold State.publish
  split <;> simp

@[simp] theorem State.writeFrame_cmds (s : State) (c : Cmd) (ws : List (Nat × Byte)) : (s.writeFrame c ws).cmds = s.cmds := rfl

end Sys2Proof.Machine
end

