-- ==== Sys2Proof/Laws/Barriers.lean ====
section
/-!
SUPPORT. Laws of the scratchpads and of the barrier objects in them: what the end of a command leaves of them, and what a
barrier object written reads as.
-/

namespace Sys2Proof.Machine

open Sys2Proof

/-! ## Operations that reach no core part -/

/-- Every core part of a block, and the management core's scratchpad, are the same in two states. -/
structure State.SameParts (s t : State) : Prop where
  part : ∀ b p, ((t.block? b).bind fun x => x.part p) = (s.block? b).bind fun x => x.part p
  mgmt : t.mgmt.scratch = s.mgmt.scratch

theorem State.SameParts.refl (s : State) : s.SameParts s := ⟨fun _ _ => rfl, rfl⟩

theorem State.SameParts.trans {s t u : State} (h : s.SameParts t) (k : t.SameParts u) : s.SameParts u :=
  ⟨fun b p => (k.part b p).trans (h.part b p), k.mgmt.trans h.mgmt⟩

theorem State.SameParts.scratchOf {s t : State} (h : s.SameParts t) (b p : Nat) : t.scratchOf b p = s.scratchOf b p := by
  unfold State.scratchOf
  rw [h.part, h.mgmt]

/-- A change of a block that keeps its parts. -/
theorem State.updBlock_sameParts (s : State) (k : Nat) (f : Block → Block) (hi : ∀ x, (f x).id = x.id)
    (hp : ∀ x, (f x).parts = x.parts) : s.SameParts (s.updBlock k f) := by
  refine ⟨fun b p => ?_, rfl⟩
  unfold State.block? State.updBlock
  dsimp only
  induction s.blocks with
  | nil => rfl
  | cons x xs ih =>
    simp only [List.map_cons, List.find?_cons]
    have he : ((if x.id = k then f x else x).id == b) = (x.id == b) := by split <;> simp [hi]
    rw [he]
    split
    · simp only [Option.bind_some, Block.part]
      split <;> simp [hp]
    · exact ih

theorem State.setGroup_sameParts (s : State) (i : Issuer) (g : Group) : s.SameParts (s.setGroup i g) := by
  cases i with
  | mgmt => exact ⟨fun _ _ => rfl, rfl⟩
  | unit k n u => exact s.updBlock_sameParts k (fun x => { x with groups := setAt x.groups n g }) (fun _ => rfl) (fun _ => rfl)

theorem State.wake_sameParts (s : State) (i : Issuer) (ls : List Nat) (f : Nat → Thread → Thread) : s.SameParts (s.wake i ls f) := by
  rcases s.wake_spec i ls f with h | ⟨h, e⟩
  · rw [h]; exact .refl s
  · rw [e]; exact s.setGroup_sameParts i h

theorem foldl_sameParts {α : Type} (step : State → α → State) (h : ∀ (s : State) (a : α), s.SameParts (step s a)) :
    ∀ (l : List α) (s : State), s.SameParts (l.foldl step s)
  | [], s => .refl s
  | a :: l, s => (h s a).trans (foldl_sameParts step h l (step s a))

theorem State.releaseBar_sameParts (s : State) (k part off : Nat) (all : Bool) : s.SameParts (s.releaseBar k part off all) := by
  unfold State.releaseBar
  dsimp only
  split
  · exact s.wake_sameParts ..
  · split
    · exact .refl s
    · exact foldl_sameParts _ (fun s _ => s.wake_sameParts ..) _ _

theorem State.wakeHandles_sameParts (s : State) (k : Nat) : s.SameParts (s.wakeHandles k) := by
  unfold State.wakeHandles
  split
  · exact .refl s
  · exact foldl_sameParts _ (fun s _ => s.wake_sameParts ..) _ _

theorem State.capAppend_sameParts (s : State) (kind ctx part : Nat) (payload : List Byte) :
    s.SameParts (s.capAppend kind ctx part payload) := by
  unfold State.capAppend
  split
  · exact .refl s
  · split <;> exact ⟨fun _ _ => rfl, rfl⟩

theorem State.capPass_sameParts : ∀ (n : Nat) (s : State), s.SameParts (State.capPass n s)
  | 0, s => .refl s
  | n + 1, s => by
    unfold State.capPass
    dsimp only
    split
    · exact ⟨fun _ _ => rfl, rfl⟩
    · split
      · exact ⟨fun _ _ => rfl, rfl⟩
      · have h := State.capPass_sameParts n
        exact ⟨fun b p => ((h _).part b p).trans rfl, (h _).mgmt.trans rfl⟩

theorem State.capMatch_sameParts (s : State) (ctx : Nat) (mine : List Byte → Bool) : s.SameParts (s.capMatch ctx mine) := by
  unfold State.capMatch State.capMove
  split
  · exact State.capPass_sameParts ..
  · exact .refl s

theorem State.capWait_sameParts (s : State) (mine : List Byte → Bool) : s.SameParts (s.capWait mine) := by
  unfold State.capWait
  split <;> exact ⟨fun _ _ => rfl, rfl⟩

theorem State.capPublish_sameParts (s : State) (c : Cmd) (bar code bytes : Nat) : s.SameParts (s.capPublish c bar code bytes) := by
  unfold State.capPublish
  dsimp only
  split
  · exact (s.capAppend_sameParts ..).trans (State.capMatch_sameParts ..)
  · exact ((s.capAppend_sameParts ..).trans (State.capWait_sameParts ..)).trans ⟨fun _ _ => rfl, rfl⟩

theorem State.completeCmd_sameParts (s : State) (c : Cmd) (code bytes : Nat) : s.SameParts (s.completeCmd c code bytes) := by
  unfold State.completeCmd
  dsimp only
  have base := State.updBlock_sameParts
    (s.newId.2.updCmd c.id fun x => { x with state := .done, code, bytes, failAt := s.newId.1 }) c.block
    (fun k => { k with groups := updAt k.groups c.group fun g => { g with threads := g.threads.map fun t => t.complete c.id code bytes } })
    (fun _ => rfl) (fun _ => rfl)
  have base : s.SameParts _ := ⟨base.part, base.mgmt⟩
  refine .trans ?_ (State.wakeHandles_sameParts _ c.block)
  split
  · split
    · exact ⟨base.part, base.mgmt⟩
    · exact base
  · refine .trans ?_ (State.capPublish_sameParts _ c c.bar code bytes)
    split
    · exact ⟨base.part, base.mgmt⟩
    · exact base

/-! ## Scratchpads replaced -/

/-- A block, or the management core, has the part. -/
def State.hasPart (s : State) (b p : Nat) : Prop := b = 0 ∨ ((s.block? b).bind fun x => x.part p).isSome = true

theorem State.SameParts.hasPart {s t : State} (h : s.SameParts t) {b p : Nat} (k : s.hasPart b p) : t.hasPart b p := by
  unfold State.hasPart at *
  rwa [h.part]

/-- A changed core part of a block changes no other block. -/
theorem State.updPart_block? (s : State) {b k : Nat} (p : Nat) (f : Part → Part) (h : k ≠ b) : (s.updPart b p f).block? k = s.block? k := by
  unfold State.block? State.updPart State.updBlock
  dsimp only
  induction s.blocks with
  | nil => rfl
  | cons z zs ih =>
    simp only [List.map_cons, List.find?_cons]
    by_cases hz : z.id = b
    · have h1 : (z.id == k) = false := by simp [hz, Ne.symm h]
      have h2 : ((if z.id = b then ({ z with parts := updAt z.parts p f } : Block) else z).id == k) = false := by
        split <;> exact h1
      simp only [h1, h2]
      exact ih
    · simp only [hz, if_false]
      split
      · rfl
      · exact ih

/-- A scratchpad replaced adds no part. -/
theorem State.setScratchOf_parts (s : State) (b p : Nat) (m : Memory) (k q : Nat) (h : (s.setScratchOf b p m).hasPart k q) : s.hasPart k q := by
  rcases h with h | h
  · exact .inl h
  · unfold State.setScratchOf at h
    split at h
    · exact .inr h
    · by_cases hk : k = b
      · subst hk
        refine .inr ?_
        unfold State.updPart at h
        rw [State.block?_updBlock s k (fun z => { z with parts := updAt z.parts p fun u => { u with scratch := m } }) (fun _ => rfl)] at h
        cases hx : s.block? k with
        | none => rw [hx] at h; cases h
        | some x =>
          rw [hx] at h
          simp only [Option.map_some, Option.bind_some, Block.part, updAt_get?] at h ⊢
          split at h
          · rwa [Option.isSome_map] at h
          · exact h
      · refine .inr ?_
        rwa [State.updPart_block? s p (fun u => { u with scratch := m }) hk] at h

/-- A scratchpad replaced is the one read; every other one stands, as does which parts there are. -/
theorem State.setScratchOf_spec (s : State) (b p : Nat) (m : Memory) :
    (∀ k q, s.hasPart k q → (s.setScratchOf b p m).hasPart k q) ∧
    ∀ k q, (k = 0 → q = 0) → (b = 0 → p = 0) → s.hasPart k q →
      (s.setScratchOf b p m).scratchOf k q = if k = b ∧ q = p then m else s.scratchOf k q := by
  unfold State.setScratchOf
  by_cases hb : b = 0
  · subst hb
    refine ⟨fun k q h => h, fun k q hk hp _ => ?_⟩
    unfold State.scratchOf
    by_cases h0 : k = 0
    · subst h0; simp [hk rfl, hp rfl]
    · simp [h0]; rfl
  · rw [if_neg hb]
    have key : ∀ k q, k ≠ 0 → (((s.updPart b p fun u => { u with scratch := m }).block? k).bind fun x => x.part q) =
        if k = b ∧ q = p then ((s.block? k).bind fun x => x.part q).map fun u => { u with scratch := m }
        else (s.block? k).bind fun x => x.part q := by
      intro k q hk
      by_cases h : k = b
      · subst h
        unfold State.updPart
        rw [State.block?_updBlock s k (fun z => { z with parts := updAt z.parts p fun u => { u with scratch := m } }) (fun _ => rfl)]
        cases s.block? k with
        | none => simp
        | some x =>
          simp only [Option.map_some, Option.bind_some, Block.part, updAt_get?, true_and]
      · rw [if_neg (fun e => h e.1)]
        rw [State.updPart_block? s p (fun u => { u with scratch := m }) h]
    refine ⟨fun k q h => ?_, fun k q _ _ h => ?_⟩
    · rcases h with h | h
      · exact .inl h
      · by_cases hk : k = 0
        · exact .inl hk
        · refine .inr ?_
          rw [key k q hk]
          split
          · rw [Option.isSome_map]; exact h
          · exact h
    · unfold State.scratchOf
      by_cases hk : k = 0
      · subst hk
        simp [Ne.symm hb, State.updPart, State.updBlock]
      · rw [if_neg hk, if_neg hk, key k q hk]
        split
        · rename_i e
          have h := h.resolve_left hk
          obtain ⟨y, hy⟩ := Option.isSome_iff_exists.1 h
          rw [hy]; rfl
        · rfl

/-! ## Barrier objects -/

/-- The scratchpads of the parts there are are in canonical form. -/
def State.scratchWf (s : State) : Prop := ∀ b p, s.hasPart b p → (s.scratchOf b p).wf = true

/-- A barrier object written is the one read; another one, no byte of which is shared, stands. -/
theorem State.setBar_spec {s : State} (hw : s.scratchWf) (b p o n : Nat) (h0 : b = 0 → p = 0) :
    (s.setBar b p o n).scratchWf ∧ (∀ k q, s.hasPart k q → (s.setBar b p o n).hasPart k q) ∧
    ∀ k q c, s.hasPart k q → (k = 0 → q = 0) →
      ((k = b ∧ q = p ∧ c = o) → (s.setBar b p o n).bar k q c = n % 2 ^ 128) ∧
      ((k ≠ b ∨ q ≠ p ∨ c + 16 ≤ o ∨ o + 16 ≤ c) → (s.setBar b p o n).bar k q c = s.bar k q c) := by
  obtain ⟨a1, a2⟩ := s.setScratchOf_spec b p ((s.scratchOf b p).write o 16 n)
  refine ⟨fun k q h => ?_, a1, fun k q c h hz => ⟨?_, ?_⟩⟩
  · have keep : ∀ k q, (s.setScratchOf b p ((s.scratchOf b p).write o 16 n)).hasPart k q → s.hasPart k q := s.setScratchOf_parts b p _
    replace h := keep k q h
    by_cases hk : k = 0
    · subst hk
      have e := a2 0 0 (fun _ => rfl) h0 (.inl rfl)
      have : (s.setBar b p o n).scratchOf 0 q = (s.setBar b p o n).scratchOf 0 0 := rfl
      rw [this]
      unfold State.setBar
      rw [e]
      split
      · rename_i hk
        exact Memory.write_wf (hw _ _ (by rw [← hk.1]; exact .inl rfl)) _ _ _
      · exact hw _ _ (.inl rfl)
    · unfold State.setBar
      rw [a2 k q (fun e => absurd e hk) h0 h]
      split
      · rename_i e
        obtain ⟨rfl, rfl⟩ := e
        exact Memory.write_wf (hw _ _ h) _ _ _
      · exact hw _ _ h
  · rintro ⟨rfl, rfl, rfl⟩
    unfold State.bar State.setBar
    rw [a2 k q hz h0 h, if_pos ⟨rfl, rfl⟩, Memory.read_write_same (hw _ _ h)]
    norm_num
  · intro he
    unfold State.bar State.setBar
    rw [a2 k q hz h0 h]
    split
    · rename_i e
      obtain ⟨rfl, rfl⟩ := e
      have he : c + 16 ≤ o ∨ o + 16 ≤ c := by simpa using he
      refine Memory.read_congr fun i hi => ?_
      exact Memory.byte_write_other (hw _ _ h) _ (by omega)
    · rfl

theorem State.SameParts.bar {s t : State} (h : s.SameParts t) (b p o : Nat) : t.bar b p o = s.bar b p o := by
  unfold State.bar
  rw [h.scratchOf]

theorem State.SameParts.wf {s t : State} (h : s.SameParts t) (hw : s.scratchWf) : t.scratchWf := fun b p k => by
  rw [h.scratchOf]
  refine hw b p ?_
  unfold State.hasPart at *
  rwa [h.part] at k

/-- What an operation keeps of one barrier object: its contents, with the canonical forms and the parts there are. -/
structure State.KeepsBar (s t : State) (b p o : Nat) : Prop where
  bar : t.bar b p o = s.bar b p o
  wf : t.scratchWf
  part : t.hasPart b p

theorem State.SameParts.keeps {s t : State} (h : s.SameParts t) (hw : s.scratchWf) {b p : Nat} (k : s.hasPart b p) (o : Nat) :
    s.KeepsBar t b p o := ⟨h.bar b p o, h.wf hw, h.hasPart k⟩

theorem State.KeepsBar.trans {s t u : State} {b p o : Nat} (h : s.KeepsBar t b p o) (k : t.KeepsBar u b p o) : s.KeepsBar u b p o :=
  ⟨k.bar.trans h.bar, k.wf, k.part⟩

/-- A command's arrival at another barrier object, no byte of which is shared, keeps this one. -/
theorem State.cmdArrives_keeps {s : State} (hw : s.scratchWf) {b p o : Nat} (hp : s.hasPart b p) (hz : b = 0 → p = 0) (c : Cmd)
    (bar code bytes : Nat) (h0 : c.block ≠ 0)
    (h : b ≠ c.block ∨ p ≠ scrPart bar ∨ o + 16 ≤ scrOff bar ∨ scrOff bar + 16 ≤ o) :
    s.KeepsBar (s.cmdArrives c bar code bytes) b p o := by
  have one : ∀ {t : State}, t.scratchWf → t.hasPart b p → ∀ n, t.KeepsBar (t.setBar c.block (scrPart bar) (scrOff bar) n) b p o := by
    intro t hw hp n
    obtain ⟨a1, a2, a3⟩ := State.setBar_spec hw c.block (scrPart bar) (scrOff bar) n (fun e => absurd e h0)
    exact ⟨(a3 b p o hp hz).2 h, a1, a2 b p hp⟩
  have first : s.KeepsBar (if code = 0 then s else s.setBar c.block (scrPart bar) (scrOff bar)
      (setCode (s.bar c.block (scrPart bar) (scrOff bar)) code)) b p o := by
    split
    · exact ⟨rfl, hw, hp⟩
    · exact one hw hp _
  unfold State.cmdArrives State.arrive
  dsimp only
  generalize (if code = 0 then s else s.setBar c.block (scrPart bar) (scrOff bar)
      (setCode (s.bar c.block (scrPart bar) (scrOff bar)) code)) = t at first ⊢
  generalize (if code = 0 then bytes else 0) = num
  have second := first.trans (one first.wf first.part (barTest (t.bar c.block (scrPart bar) (scrOff bar)) 1 num 0).1)
  split
  · exact second.trans ((State.releaseBar_sameParts _ c.block (scrPart bar) (scrOff bar) false).keeps second.wf second.part o)
  · exact second

/-- The commands of a state name blocks and barriers that commands of another did. -/
def State.SameNames (s t : State) : Prop := ∀ k ∈ t.cmds, ∃ j ∈ s.cmds, k.block = j.block ∧ k.bar = j.bar

theorem State.SameNames.trans {s t u : State} (h : s.SameNames t) (k : t.SameNames u) : s.SameNames u := fun c hc => by
  obtain ⟨d, hd, e1, e2⟩ := k c hc
  obtain ⟨j, hj, f1, f2⟩ := h d hd
  exact ⟨j, hj, e1.trans f1, e2.trans f2⟩

theorem State.sameNames_of_map {s t : State} {i : Nat} {f : Cmd → Cmd} (hf : ∀ k, (f k).block = k.block ∧ (f k).bar = k.bar)
    (h : t.cmds = s.cmds.map fun k => if k.id = i then f k else k) : s.SameNames t := by
  intro k hk
  rw [h] at hk
  obtain ⟨j, hj, rfl⟩ := List.mem_map.1 hk
  refine ⟨j, hj, ?_⟩
  split
  · exact hf j
  · exact ⟨rfl, rfl⟩

theorem State.endCmd_sameNames (s : State) (c : Cmd) (code bytes : Nat) (arrives : Bool) : s.SameNames (s.endCmd c code bytes arrives) :=
  State.sameNames_of_map (f := fun k => k.ended code bytes s.nextId) (fun _ => ⟨rfl, rfl⟩) (s.endCmd_cmds c code bytes arrives)

theorem State.failCmd_sameNames (s : State) (c : Cmd) (code : Nat) (reset : Option Nat) : s.SameNames (s.failCmd c code reset) := by
  have same : ∀ {t u : State}, u.cmds = t.cmds → t.SameNames u := fun h k hk => ⟨k, h ▸ hk, rfl, rfl⟩
  unfold State.failCmd
  split
  · exact same rfl
  · dsimp only
    have set : ∀ (l : List Cmd) (t : State), t.SameNames (l.foldl (fun s h => s.endCmd h 6 0 (reset != some h.bar)) t) := by
      intro l
      induction l with
      | nil => exact fun _ => same rfl
      | cons k l ih => exact fun t => (t.endCmd_sameNames k 6 0 _).trans (ih _)
    have d := set (if c.kind = .pub then (s.holdSet c).filter fun h => decide (h.state = .running) else []) s
    generalize (List.foldl (fun (s : State) (h : Cmd) => s.endCmd h 6 0 (reset != some h.bar)) s
      (if c.kind = .pub then (s.holdSet c).filter fun h => decide (h.state = .running) else [])) = u at d ⊢
    refine d.trans ?_
    split
    · refine State.SameNames.trans (State.sameNames_of_map (f := fun k => k.ended _ _ _) (fun _ => ⟨rfl, rfl⟩)
        (State.completeCmd_cmds _ c _ _)) (same (foldl_cmds _ (fun s j => ?_) _ _))
      split <;> simp
    · exact u.endCmd_sameNames c code 0 reset.isNone

/-- The abandonment of a command by a BRST of an object keeps the object: whatever arrives does so at another one (R239). -/
theorem State.failCmd_keeps {s : State} (hw : s.scratchWf) {b p o : Nat} (hp : s.hasPart b p) (hz : b = 0 → p = 0)
    (c : Cmd) (code : Nat)
    (hcmd : ∀ k ∈ s.cmds, k.block ≠ 0 ∧ (k.block = b → k.bar ≠ p * 2 ^ 20 + o →
      p ≠ scrPart k.bar ∨ o + 16 ≤ scrOff k.bar ∨ scrOff k.bar + 16 ≤ o)) :
    s.KeepsBar (s.failCmd c code (some (p * 2 ^ 20 + o))) b p o := by
  unfold State.failCmd
  split
  · exact ⟨rfl, hw, hp⟩
  · dsimp only
    have done : ∀ {t : State} (d : Cmd) (code bytes : Nat), t.scratchWf → t.hasPart b p → t.KeepsBar (t.completeCmd d code bytes) b p o :=
      fun d code bytes hw hp => (State.completeCmd_sameParts _ d code bytes).keeps hw hp o
    have set : ∀ (l : List Cmd) (t : State), (∀ k ∈ l, k ∈ s.cmds) → t.scratchWf → t.hasPart b p →
        t.KeepsBar (l.foldl (fun s h => s.endCmd h 6 0 (some (p * 2 ^ 20 + o) != some h.bar)) t) b p o := by
      intro l
      induction l with
      | nil => exact fun t _ hw hp => ⟨rfl, hw, hp⟩
      | cons k l ih =>
        intro t hl hw hp
        have e : t.KeepsBar (t.endCmd k 6 0 (some (p * 2 ^ 20 + o) != some k.bar)) b p o := by
          unfold State.endCmd
          dsimp only
          have d := done (t := t) k 6 0 hw hp
          split
          · rename_i hne
            have hne : k.bar ≠ p * 2 ^ 20 + o := by
              intro e; simp [e] at hne
            obtain ⟨c1, c2⟩ := hcmd k (hl k (by simp))
            refine d.trans (State.cmdArrives_keeps d.wf d.part hz k k.bar 6 0 c1 ?_)
            by_cases hb : k.block = b
            · exact .inr (c2 hb hne)
            · exact .inl (Ne.symm hb)
          · exact d
        exact e.trans (ih _ (fun x hx => hl x (List.mem_cons_of_mem _ hx)) e.wf e.part)
    have d := set (if c.kind = .pub then (s.holdSet c).filter fun h => decide (h.state = .running) else []) s (by
      intro k hk
      split at hk
      · exact List.mem_of_mem_filter (List.mem_of_mem_filter hk)
      · cases hk) hw hp
    generalize (List.foldl (fun (s : State) (h : Cmd) => s.endCmd h 6 0 (some (p * 2 ^ 20 + o) != some h.bar)) s
      (if c.kind = .pub then (s.holdSet c).filter fun h => decide (h.state = .running) else [])) = u at d ⊢
    refine d.trans ?_
    split
    · have d2 := done c (((c.shards.find? fun x => x.2 ≠ 0).map (·.2)).getD code)
        ((c.shards.filter fun x => x.2 = 0).length * c.shape.dense) d.wf d.part
      exact d2.trans ((foldl_sameParts _ (fun s j => State.capPublish_sameParts ..) _ _).keeps d2.wf d2.part o)
    · unfold State.endCmd
      exact done c _ _ d.wf d.part

/-- What a BRST leaves in its object (R239), where every command of the block names barriers at multiples of 16. -/
theorem State.brst_keeps {s : State} (hw : s.scratchWf) {b p o : Nat} (hp : s.hasPart b p) (hz : b = 0 → p = 0) (hp4 : p < 4)
    (ho : o < 2 ^ 20) (ha : o % 16 = 0) (hcmd : ∀ k ∈ s.cmds, k.block ≠ 0 ∧ (k.block = b → k.bar % 16 = 0 ∧ k.bar < 2 ^ 22))
    (phase : Nat) :
    let n := setBits (setPhase (setBal (setArra (s.bar b p o) 0) 0) phase) 120 1 1 % 2 ^ 128
    let victims := s.cmds.filter fun c => decide (c.state = .running) && c.block = b && s.publishesOn c (p * 2 ^ 20 + o)
    (s.brst b p o phase).bar b p o = (if victims.isEmpty then n else setCode n 6 % 2 ^ 128) ∧ (s.brst b p o phase).scratchWf ∧
      (s.brst b p o phase).hasPart b p := by
  intro n victims
  obtain ⟨a1, a2, a3⟩ := State.setBar_spec hw b p o (setBits (setPhase (setBal (setArra (s.bar b p o) 0) 0) phase) 120 1 1) hz
  have hcmd2 : ∀ k ∈ s.cmds, k.block ≠ 0 ∧ (k.block = b → k.bar ≠ p * 2 ^ 20 + o →
      p ≠ scrPart k.bar ∨ o + 16 ≤ scrOff k.bar ∨ scrOff k.bar + 16 ≤ o) := by
    intro k hk
    obtain ⟨c1, c2⟩ := hcmd k hk
    refine ⟨c1, fun hb hne => ?_⟩
    obtain ⟨e1, e2⟩ := c2 hb
    unfold scrPart scrOff bits
    simp only [Nat.reduceAdd, Nat.reduceSub, Nat.reducePow] at *
    omega
  have abandon : ∀ (l : List Cmd) (t : State), t.scratchWf → t.hasPart b p →
      (∀ k ∈ t.cmds, k.block ≠ 0 ∧ (k.block = b → k.bar ≠ p * 2 ^ 20 + o →
        p ≠ scrPart k.bar ∨ o + 16 ≤ scrOff k.bar ∨ scrOff k.bar + 16 ≤ o)) →
      t.KeepsBar (l.foldl (fun s c => s.failCmd c 6 (some (p * 2 ^ 20 + o))) t) b p o := by
    intro l
    induction l with
    | nil => exact fun t hw hp _ => ⟨rfl, hw, hp⟩
    | cons c l ih =>
      intro t hw hp hc
      have e := State.failCmd_keeps hw hp hz c 6 hc
      refine e.trans (ih _ e.wf e.part fun k hk => ?_)
      obtain ⟨j, hj, e1, e2⟩ := t.failCmd_sameNames c 6 (some (p * 2 ^ 20 + o)) k hk
      rw [e1, e2]
      exact hc j hj
  have hrd := (a3 b p o hp hz).1 ⟨rfl, rfl, rfl⟩
  unfold State.brst
  dsimp only
  have hv := abandon (s.cmds.filter fun c => decide (c.state = .running) && c.block = b &&
    (s.setBar b p o (setBits (setPhase (setBal (setArra (s.bar b p o) 0) 0) phase) 120 1 1)).publishesOn c (p * 2 ^ 20 + o)) _ a1
    (a2 b p hp) (by rw [State.setBar_cmds]; exact hcmd2)
  rw [State.setBar_cmds]
  have hpub : ∀ c, (s.setBar b p o (setBits (setPhase (setBal (setArra (s.bar b p o) 0) 0) phase) 120 1 1)).publishesOn c
      (p * 2 ^ 20 + o) = s.publishesOn c (p * 2 ^ 20 + o) := by
    intro c
    unfold State.publishesOn State.barsOf State.setBar State.setScratchOf
    split <;> rfl
  simp only [hpub] at hv ⊢
  generalize hl : victims.foldl (fun s c => s.failCmd c 6 (some (p * 2 ^ 20 + o)))
    (s.setBar b p o (setBits (setPhase (setBal (setArra (s.bar b p o) 0) 0) phase) 120 1 1)) = t at hv ⊢
  have hn : t.bar b p o = n := hv.bar.trans hrd
  have h6 := State.setBar_spec hv.wf b p o (setCode (t.bar b p o) 6) hz
  suffices k : t.KeepsBar (t.releaseBar b p o true) b p o ∧
      (t.setBar b p o (setCode (t.bar b p o) 6)).KeepsBar ((t.setBar b p o (setCode (t.bar b p o) 6)).releaseBar b p o true) b p o by
    obtain ⟨k1, k2⟩ := k
    rw [hn] at h6 k2
    by_cases he : victims.isEmpty = true
    · have he2 := he
      unfold victims at he2
      rw [if_pos he, if_pos he2]
      exact ⟨k1.bar.trans hn, k1.wf, k1.part⟩
    · have he2 := he
      unfold victims at he2
      rw [if_neg he, if_neg he2, hn]
      exact ⟨k2.bar.trans ((h6.2.2 b p o hv.part hz).1 ⟨rfl, rfl, rfl⟩), k2.wf, k2.part⟩
  exact ⟨(t.releaseBar_sameParts b p o true).keeps hv.wf hv.part o,
    (State.releaseBar_sameParts _ b p o true).keeps h6.1 (h6.2.1 b p hv.part) o⟩

end Sys2Proof.Machine
end

