-- ==== Sys2Proof/Laws/Matrix.lean ====
section
/-!
SUPPORT. Laws of the matrix unit: its home, the end of an operation, the tiles, slots and registers that operations update.
-/

namespace Sys2Proof.Machine

open Sys2Proof

/-- The block, the group and the part of a matrix unit's home. -/
theorem State.homeOf_spec {s : State} {b g : Nat} {h : Home} (hh : s.homeOf b g = some h) :
    s.block? b = some h.blk ∧ h.blk.id = b ∧ h.grp = g ∧ h.blk.part h.pnum = some h.part := by
  unfold State.homeOf at hh
  split at hh
  · cases hh
  · rename_i x hx
    split at hh
    · rename_i p l h1 h2
      cases hh
      refine ⟨hx, ?_, rfl, h1⟩
      have := List.find?_some hx
      simpa using this
    · cases hh

/-- The end of an operation lowers the counts of its lanes and takes it off the queue (R69). -/
theorem Group.mxDone_spec (x : Group) (o : MxOp) (hl : ∀ l ∈ lanesOf o.lanes, l < x.threads.length) :
    (x.mxDone o).mxq = x.mxq.drop 1 ∧
    ∀ k, (x.mxDone o).thread k = { x.thread k with mx := (x.thread k).mx - if o.counted = true ∧ k ∈ lanesOf o.lanes then 1 else 0 } := by
  have key : ∀ (ls : List Nat) (x : Group), ls.Nodup → (∀ l ∈ ls, l < x.threads.length) →
      (ls.foldl (fun g l => g.updThread l fun t => { t with mx := t.mx - 1 }) x).mxq = x.mxq ∧
      ∀ k, ((ls.foldl (fun g l => g.updThread l fun t => { t with mx := t.mx - 1 }) x)).thread k =
        { x.thread k with mx := (x.thread k).mx - if k ∈ ls then 1 else 0 } := by
    intro ls
    induction ls with
    | nil => exact fun x _ _ => ⟨rfl, fun k => by simp⟩
    | cons a ls ih =>
      intro x hn hl
      obtain ⟨h1, h2⟩ := List.nodup_cons.1 hn
      obtain ⟨i1, i2⟩ := ih (x.updThread a fun t => { t with mx := t.mx - 1 }) h2
        (fun l h => by simpa using hl l (List.mem_cons_of_mem _ h))
      refine ⟨i1, fun k => ?_⟩
      simp only [List.foldl_cons]
      rw [i2]
      by_cases hk : k = a
      · subst hk
        rw [Group.thread_updThread _ _ _ _ (hl k (by simp))]
        simp [h1]
      · rw [Group.thread_updThread_other _ _ _ _ hk]
        simp [hk]
  obtain ⟨k1, k2⟩ := key _ x (lanesOf_nodup o.lanes) hl
  unfold Group.mxDone
  dsimp only
  by_cases hc : o.counted = true
  · rw [if_pos hc]
    exact ⟨congrArg _ k1, fun k => (k2 k).trans (by simp [hc])⟩
  · rw [if_neg hc]
    exact ⟨rfl, fun k => by simp [hc]; rfl⟩

/-- The same of the home's group in the state; every core part stands. -/
theorem State.mxDone_spec {s : State} {b g : Nat} {z : Group} (o : MxOp) (hz : s.groupOf (.unit b g 0) = some z) (n : Nat) :
    let t : State := { s.updGroup (.unit b g 0) (fun g => g.mxDone o) with fresh := n }
    t.groupOf (.unit b g 0) = some (z.mxDone o) ∧ s.SameParts t := by
  intro t
  have e : t = { s.setGroup (.unit b g 0) (z.mxDone o) with fresh := n } := by
    simp only [t]; unfold State.updGroup; rw [hz]
  rw [e]
  have h := s.setGroup_sameParts (.unit b g 0) (z.mxDone o)
  exact ⟨State.groupOf_setGroup _ hz, h.part, h.mgmt⟩

/-- A changed part of a home, read back; the groups stand. -/
theorem State.updHome_spec {s : State} {b g : Nat} {h : Home} (hid : h.blk.id = b)
    (hp : ((s.block? b).bind fun z => z.part h.pnum) = some h.part) (F : Part → Part) :
    ((s.updHome h F).block? b).bind (fun z => z.part h.pnum) = some (F h.part) ∧ (s.updHome h F).groupOf (.unit b g 0) = s.groupOf (.unit b g 0) := by
  unfold State.updHome State.updPart
  rw [hid]
  have e := State.block?_updBlock s b (fun x => { x with parts := updAt x.parts h.pnum F }) (fun _ => rfl)
  cases hb : s.block? b with
  | none => rw [hb] at hp; cases hp
  | some y =>
  refine ⟨?_, by show (State.block? _ b).bind _ = (s.block? b).bind _; rw [e, hb]; rfl⟩
  rw [hb] at hp
  rw [e, hb]
  simp only [Option.map_some, Option.bind_some, Block.part, updAt_get?, if_pos] at hp ⊢
  rw [hp]; rfl

/-- An operation whose effect is a change of its home's part: what its completion leaves. -/
theorem State.mxFinish_spec {s : State} {b g : Nat} {h : Home} {x : Group} {o : MxOp} (h2 : h.blk.id = b) (h3 : h.grp = g)
    (hp : ((s.block? b).bind fun z => z.part h.pnum) = some h.part) (hg : s.groupOf (.unit b g 0) = some x) (F : Part → Part)
    (hF : s.mxPerform h x o = s.updHome h F) :
    (((s.mxFinish h o).block? b).bind fun z => z.part h.pnum) = some (F h.part) ∧
      (s.mxFinish h o).groupOf (.unit b g 0) = some (x.mxDone o) := by
  obtain ⟨p1, p2⟩ := State.updHome_spec (g := g) h2 hp F
  obtain ⟨y1, y2⟩ := State.mxDone_spec o (p2.trans hg) (((s.updHome h F).updGroup (.unit b g 0) fun g => g.mxDone o).fresh + 1)
  unfold State.mxFinish
  rw [h2, h3, hg]
  dsimp only
  rw [hF]
  exact ⟨(y2.part b h.pnum).trans p1, y1⟩

/-- A fold within a fold is one over the pairs. -/
theorem foldl_nest {α β γ : Type} (f : γ → α → β → γ) (bs : List β) : ∀ (as : List α) (m : γ),
    as.foldl (fun m a => bs.foldl (fun m b => f m a b) m) m = (as.flatMap fun a => bs.map fun b => (a, b)).foldl (fun m x => f m x.1 x.2) m
  | [], _ => rfl
  | a :: as, m => by
    simp only [List.foldl_cons, List.flatMap_cons, List.foldl_append, List.foldl_map]
    exact foldl_nest f bs as _

/-- Values written at places that do not overlap, each made from what stood there: each is read back, and every other byte stands. -/
theorem foldl_write {ι : Type} (addr : ι → Nat) (val : ι → Nat → Nat) (n : Nat) : ∀ (L : List ι) (m : Memory), m.wf = true → L.Nodup →
    (∀ i ∈ L, ∀ j ∈ L, i ≠ j → addr i + n ≤ addr j ∨ addr j + n ≤ addr i) →
    let r := L.foldl (fun m i => m.write (addr i) n (val i (m.read (addr i) n))) m
    r.wf = true ∧ (∀ i ∈ L, r.read (addr i) n = val i (m.read (addr i) n) % 256 ^ n) ∧
      ∀ a, (∀ i ∈ L, a < addr i ∨ addr i + n ≤ a) → r.byte a = m.byte a
  | [], m, hw, _, _ => ⟨hw, by simp, fun _ _ => rfl⟩
  | i :: L, m, hw, hn, hd => by
    obtain ⟨h1, h2⟩ := List.nodup_cons.1 hn
    have hw2 := Memory.write_wf hw (addr i) n (val i (m.read (addr i) n))
    obtain ⟨r1, r2, r3⟩ := foldl_write addr val n L _ hw2 h2 (fun i hi j hj => hd i (List.mem_cons_of_mem _ hi) j (List.mem_cons_of_mem _ hj))
    refine ⟨r1, fun j hj => ?_, fun a ha => ?_⟩
    · rcases List.mem_cons.1 hj with rfl | hj
      · refine Eq.trans (Memory.read_congr fun k hk => r3 (addr j + k) fun i hi => ?_) (Memory.read_write_same hw _ _ _)
        have := hd j (by simp) i (List.mem_cons_of_mem _ hi) (by rintro rfl; exact h1 hi)
        omega
      · refine (r2 j hj).trans ?_
        congr 2
        refine Memory.read_congr fun k hk => Memory.byte_write_other hw _ ?_
        have := hd i (by simp) j (List.mem_cons_of_mem _ hj) (by rintro rfl; exact h1 hj)
        omega
    · refine (r3 a fun k hk => ha k (List.mem_cons_of_mem _ hk)).trans (Memory.byte_write_other hw _ (ha i (by simp)))

/-- Bytes written at different places: each is read back, and every other byte stands. -/
theorem foldl_setByte {ι : Type} (addr : ι → Nat) (val : ι → Byte) : ∀ (L : List ι) (m : Memory), m.wf = true → L.Nodup →
    (∀ i ∈ L, ∀ j ∈ L, i ≠ j → addr i ≠ addr j) →
    let r := L.foldl (fun m i => m.setByte (addr i) (val i)) m
    r.wf = true ∧ (∀ i ∈ L, r.byte (addr i) = val i) ∧ ∀ a, (∀ i ∈ L, a ≠ addr i) → r.byte a = m.byte a
  | [], m, hw, _, _ => ⟨hw, by simp, fun _ _ => rfl⟩
  | i :: L, m, hw, hn, hd => by
    obtain ⟨h1, h2⟩ := List.nodup_cons.1 hn
    have hw2 := Memory.setByte_wf hw (addr i) (val i)
    obtain ⟨r1, r2, r3⟩ := foldl_setByte addr val L _ hw2 h2 (fun i hi j hj => hd i (List.mem_cons_of_mem _ hi) j (List.mem_cons_of_mem _ hj))
    refine ⟨r1, fun j hj => ?_, fun a ha => ?_⟩
    · rcases List.mem_cons.1 hj with rfl | hj
      · refine (r3 (addr j) fun i hi => hd j (by simp) i (List.mem_cons_of_mem _ hi) (by rintro rfl; exact h1 hi)).trans (Memory.byte_setByte_same hw _ _)
      · exact r2 j hj
    · refine (r3 a fun k hk => ha k (List.mem_cons_of_mem _ hk)).trans (Memory.byte_setByte_other hw (ha i (by simp)) _)

/-- The pairs of a list without repeats and a range have none. -/
theorem pairs_nodup (ls : List Nat) (n : Nat) (h : ls.Nodup) : (ls.flatMap fun a => (List.range n).map fun b => (a, b)).Nodup := by
  rw [List.nodup_flatMap]
  refine ⟨fun a _ => List.Nodup.map (fun _ _ h => by cases h; rfl) List.nodup_range, ?_⟩
  exact h.imp fun {a b} hab => by
    simp only [Function.onFun, List.Disjoint]
    intro x hx hy
    obtain ⟨_, _, rfl⟩ := List.mem_map.1 hx
    obtain ⟨_, _, e⟩ := List.mem_map.1 hy
    cases e; exact hab rfl

/-- The pairs of a list and a range. -/
theorem mem_pairs {ls : List Nat} {n : Nat} {x : Nat × Nat} : x ∈ (ls.flatMap fun a => (List.range n).map fun b => (a, b)) ↔ x.1 ∈ ls ∧ x.2 < n := by
  simp only [List.mem_flatMap, List.mem_map, List.mem_range]
  constructor
  · rintro ⟨a, ha, b, hb, rfl⟩; exact ⟨ha, hb⟩
  · rintro ⟨h1, h2⟩; exact ⟨x.1, h1, x.2, h2, rfl⟩

/-- Different elements of a tile do not overlap. -/
theorem acmAt_apart {sector base i c j d : Nat} (hi : i < 32) (hj : j < 32) (h : (i, c) ≠ (j, d)) :
    acmAt sector base i c + 4 ≤ acmAt sector base j d ∨ acmAt sector base j d + 4 ≤ acmAt sector base i c := by
  unfold acmAt
  have : i ≠ j ∨ c ≠ d := by
    by_contra hh; simp only [not_or, not_not] at hh; exact h (by rw [hh.1, hh.2])
  omega

/-- An accumulator tile updated (R269, R272). -/
theorem tileMap_spec {acm : Memory} (hw : acm.wf = true) (sector base : Nat) (w : Word) (n : Nat) (elem : Nat → Nat → Nat → Nat) :
    let r := tileMap acm sector base (lanesOf w) n elem
    (∀ l ∈ lanesOf w, ∀ c, c < n → r.read (acmAt sector base l c) 4 = elem l c (acm.read (acmAt sector base l c) 4) % 2 ^ 32) ∧
    ∀ a, (∀ l ∈ lanesOf w, ∀ c, c < n → a < acmAt sector base l c ∨ acmAt sector base l c + 4 ≤ a) → r.byte a = acm.byte a := by
  intro r
  have e : r = ((lanesOf w).flatMap fun a => (List.range n).map fun b => (a, b)).foldl
    (fun m x => m.write (acmAt sector base x.1 x.2) 4 (elem x.1 x.2 (m.read (acmAt sector base x.1 x.2) 4))) acm :=
    foldl_nest (γ := Memory) (fun m i c => m.write (acmAt sector base i c) 4 (elem i c (m.read (acmAt sector base i c) 4))) (List.range n) (lanesOf w) acm
  obtain ⟨-, r2, r3⟩ := foldl_write (fun x : Nat × Nat => acmAt sector base x.1 x.2) (fun x => elem x.1 x.2) 4
    ((lanesOf w).flatMap fun a => (List.range n).map fun b => (a, b)) acm hw (pairs_nodup _ _ (lanesOf_nodup _)) (by
      intro x hx y hy hne
      exact acmAt_apart (lanesOf_lt (mem_pairs.1 hx).1) (lanesOf_lt (mem_pairs.1 hy).1) hne)
  rw [e]
  exact ⟨fun l hl c hc => (r2 (l, c) (mem_pairs.2 ⟨hl, hc⟩)), fun a ha => r3 a fun x hx => ha x.1 (mem_pairs.1 hx).1 x.2 (mem_pairs.1 hx).2⟩

/-- A register that stands as at issue supplies its element (R70). -/
theorem usedElem_same {fresh l w : Nat} {old new : List Word} (h : old = new) (k : Nat) : usedElem fresh l w old new k = rowElem w new k := by
  subst h; simp [usedElem]

/-- A register of a row. -/
theorem Thread.row_getD (t : Thread) (o : Opnd) (n w : Nat) (h : w < n) : (t.row (rowFrom o n)).getD w 0 = t.reg (o.vNum + w) := by
  unfold Thread.row rowFrom
  simp [List.getD_eq_getElem?_getD, h]

/-- The registers that an ACRD writes, and what it leaves (R277). -/
theorem acrdOuts_fold : ∀ (L : List (Nat × Nat × Word)) (x : Group), (∀ e ∈ L, e.1 < x.threads.length) →
    (∀ e ∈ L, e.2.1 < (x.thread e.1).v.length) →
    (L.map fun e => (e.1, e.2.1)).Nodup →
    let z := L.foldl (fun g e => g.updThread e.1 fun t => { t with v := setAt t.v e.2.1 e.2.2 }) x
    z.mxq = x.mxq ∧ z.threads.length = x.threads.length ∧ (∀ l, z.thread l = { x.thread l with v := (z.thread l).v }) ∧
      (∀ e ∈ L, (z.thread e.1).reg e.2.1 = e.2.2) ∧ ∀ l r, (∀ e ∈ L, (e.1, e.2.1) ≠ (l, r)) → (z.thread l).reg r = (x.thread l).reg r
  | [], x, _, _, _ => ⟨rfl, rfl, fun _ => rfl, by simp, fun _ _ _ => rfl⟩
  | a :: L, x, h1, h2, h3 => by
    simp only [List.map_cons, List.nodup_cons] at h3
    obtain ⟨h3, h4⟩ := h3
    have hth : ∀ l, (x.updThread a.1 fun t => { t with v := setAt t.v a.2.1 a.2.2 }).thread l =
        { x.thread l with v := if l = a.1 then setAt (x.thread l).v a.2.1 a.2.2 else (x.thread l).v } := by
      intro l
      by_cases hl : l = a.1
      · subst hl
        rw [Group.thread_updThread _ _ _ _ (h1 a (by simp))]
        simp
      · rw [Group.thread_updThread_other _ _ _ _ hl]; simp [hl]
    obtain ⟨k1, k2, k3, k4, k5⟩ := acrdOuts_fold L (x.updThread a.1 fun t => { t with v := setAt t.v a.2.1 a.2.2 })
      (fun e he => by simpa using h1 e (List.mem_cons_of_mem _ he))
      (fun e he => by
        rw [hth]; dsimp only; split <;> simpa using h2 e (List.mem_cons_of_mem _ he)) h4
    refine ⟨k1, k2.trans (by simp), fun l => ?_, fun e he => ?_, fun l r hlr => ?_⟩
    · simp only [List.foldl_cons]
      rw [k3 l, hth]
    · rcases List.mem_cons.1 he with rfl | he
      · simp only [List.foldl_cons]
        rw [k5 e.1 e.2.1 (fun y hy hh => h3 (hh ▸ List.mem_map.2 ⟨y, hy, rfl⟩)), hth]
        simp only [if_true]
        unfold Thread.reg
        exact setAt_getD_same _ _ _ _ (h2 e (by simp))
      · exact k4 e he
    · simp only [List.foldl_cons]
      rw [k5 l r (fun y hy => hlr y (List.mem_cons_of_mem _ hy)), hth]
      unfold Thread.reg
      dsimp only
      split
      · rename_i hl
        have := hlr a (by simp)
        exact setAt_getD_other _ _ _ _ _ (by rintro rfl; exact this (by rw [hl]))
      · rfl

/-- A change of the groups that meet in an MMAS reaches a group of the block where it is one of them (R273). -/
theorem mates_fold (id g : Nat) (u : Group → Group) (hu : ∀ z, u (u z) = u z) : ∀ (M : List (Nat × MxOp)) (s : State) (x : Group),
    s.groupOf (.unit id g 0) = some x →
    let t := M.foldl (fun s y => s.updGroup (.unit id y.1 0) u) s
    s.SameParts t ∧ t.groupOf (.unit id g 0) = some (if g ∈ M.map (·.1) then u x else x)
  | [], s, x, hx => ⟨.refl s, by simpa using hx⟩
  | a :: M, s, x, hx => by
    have h1 : s.SameParts (s.updGroup (.unit id a.1 0) u) := by
      unfold State.updGroup
      split
      · exact .refl s
      · exact State.setGroup_sameParts ..
    have h2 : (s.updGroup (.unit id a.1 0) u).groupOf (.unit id g 0) = some (if g = a.1 then u x else x) := by
      by_cases he : g = a.1
      · rw [← he]
        unfold State.updGroup
        rw [hx, if_pos rfl]
        exact State.groupOf_setGroup _ hx
      · rw [if_neg he]
        unfold State.updGroup
        split
        · exact hx
        · rename_i z hz
          show ((State.setGroup s (.unit id a.1 0) (u z)).block? id).bind _ = _
          rw [State.block?_setGroup]
          have hx : ((s.block? id).bind fun x => x.groups[g]?) = some x := hx
          cases hb : s.block? id with
          | none => rw [hb] at hx; cases hx
          | some y =>
            rw [hb] at hx
            simp only [Option.map_some, Option.bind_some] at hx ⊢
            split
            · simp only [setAt, updAt_get?, if_neg he]; exact hx
            · exact hx
    obtain ⟨k1, k2⟩ := mates_fold id g u hu M _ _ h2
    refine ⟨h1.trans k1, ?_⟩
    simp only [List.foldl_cons]
    rw [k2]
    refine congrArg some ?_
    by_cases he : g = a.1
    · have hin : g ∈ (a :: M).map (·.1) := by rw [List.map_cons, List.mem_cons]; exact .inl he
      rw [if_pos hin, if_pos he]
      by_cases hm : g ∈ M.map (·.1)
      · rw [if_pos hm]; exact hu x
      · rw [if_neg hm]
    · rw [if_neg he]
      by_cases hm : g ∈ M.map (·.1)
      · rw [if_pos hm, if_pos (by rw [List.map_cons]; exact List.mem_cons_of_mem _ hm)]
      · rw [if_neg hm, if_neg (by rw [List.map_cons, List.mem_cons]; tauto)]

/-- The columns of the four slots of an MMAS, copied one after the other: a byte of a quarter is that of its slot (R273). -/
theorem columns_fold (cs : List Host.Cell) (hcs : sortedCells cs = true) (n : Nat) (part : Nat → Nat) (a i : Nat) (V : Byte)
    (hn : 0 < n) : ∀ (M : List (Nat × MxOp)) (dst : Memory), dst.wf = true →
    (∀ y ∈ M, part y.1 % 4 = i → 64 * n * i ≤ a ∧ a < 64 * n * i + 64 * n ∧
      readCells cs ((4 * part y.1 + y.2.slots.headD 0) * 16384 + (a - 64 * n * i)) = V) →
    (∀ y ∈ M, part y.1 % 4 ≠ i → a < 64 * n * (part y.1 % 4) ∨ 64 * n * (part y.1 % 4) + 64 * n ≤ a) →
    (dst.byte a = 0 ∨ dst.byte a = V) →
    let r := M.foldl (fun m y => copyCells m ((4 * part y.1 + y.2.slots.headD 0) * 16384) (64 * n) (64 * n * (part y.1 % 4)) cs) dst
    ((dst.byte a = V ∨ ∃ y ∈ M, part y.1 % 4 = i) → r.byte a = V)
  | [], dst, _, _, _, _ => by
    rintro r (h | h)
    · exact h
    · obtain ⟨y, hy, _⟩ := h; cases hy
  | y :: M, dst, hw, h1, h2, h3 => by
    have hw2 := copyCells_wf hw ((4 * part y.1 + y.2.slots.headD 0) * 16384) (64 * n) (64 * n * (part y.1 % 4)) cs
    have hb := byte_copyCells (lo := (4 * part y.1 + y.2.slots.headD 0) * 16384) (n := 64 * n) (dest := 64 * n * (part y.1 % 4)) a hw hcs
    obtain ⟨next, hnext⟩ : ∃ next, next = copyCells dst ((4 * part y.1 + y.2.slots.headD 0) * 16384) (64 * n) (64 * n * (part y.1 % 4)) cs := ⟨_, rfl⟩
    rw [← hnext] at hw2 hb
    have key : (part y.1 % 4 = i ∨ dst.byte a = V) → next.byte a = V := by
      intro h
      by_cases hi : part y.1 % 4 = i
      · obtain ⟨g1, g2, g3⟩ := h1 y (by simp) hi
        rw [hb, hi]
        by_cases hz : V = 0
        · rw [if_neg (by rw [g3]; simp [hz])]
          rcases h3 with h | h
          · rw [h, hz]
          · exact h
        · rw [if_pos ⟨g1, g2, by rw [g3]; exact hz⟩, g3]
      · rw [hb, if_neg (by have := h2 y (by simp) hi; omega)]
        exact h.resolve_left hi
    have key2 : next.byte a = 0 ∨ next.byte a = V := by
      by_cases hi : part y.1 % 4 = i
      · exact .inr (key (.inl hi))
      · rw [hb, if_neg (by have := h2 y (by simp) hi; omega)]; exact h3
    have ih := columns_fold cs hcs n part a i V hn M _ hw2 (fun z hz => h1 z (List.mem_cons_of_mem _ hz)) (fun z hz => h2 z (List.mem_cons_of_mem _ hz)) key2
    intro r h
    have hr : r = M.foldl (fun m y => copyCells m ((4 * part y.1 + y.2.slots.headD 0) * 16384) (64 * n) (64 * n * (part y.1 % 4)) cs) next := by
      rw [hnext]; rfl
    rw [hr]
    refine ih ?_
    rcases h with h | ⟨z, hz, he⟩
    · exact .inl (key (.inr h))
    · rcases List.mem_cons.1 hz with rfl | hz
      · exact .inl (key (.inl he))
      · exact .inr ⟨z, hz, he⟩

end Sys2Proof.Machine
end

