-- ==== Sys2Proof/Laws/PerInstr.lean ====
section
/-!
SUPPORT. A law stated instruction by instruction: where a well-formed instruction has an encoding, its opcode fits the
opcode field and names it again; the steps of other agents have no encoding.
-/

namespace Sys2Proof.Laws.NamedByOpcode

open Sys2Proof

/-- The opcode of an instruction of the instruction set fits 8 bits, and opcode and fields name the instruction. -/
def Statement (i : Instr) : Prop :=
  ∀ (op : Nat) (f : Fields), i.isa = some (op, f) → op < 256 ∧ (wellFormed i = true → Instr.ofKey op f = some i)

theorem of_word (i : Instr) (n : Nat) (g : Fields) (hn : n < 256) (h : i.isa = some (n, g)) : Statement i := by
  intro op f hf
  rw [h] at hf
  cases hf
  refine ⟨hn, fun hw => ?_⟩
  simp only [wellFormed, h, isaOk, Bool.and_eq_true, decide_eq_true_eq] at hw
  exact hw.1.1.1.1

theorem of_step (i : Instr) (h : i.isa = none) : Statement i := by
  intro op f hf
  rw [h] at hf
  cases hf

theorem iadd (f : Fields) : Statement (.iadd f) := of_word _ _ _ (by decide) rfl
theorem iaddc (f : Fields) : Statement (.iaddc f) := of_word _ _ _ (by decide) rfl
theorem isub (f : Fields) : Statement (.isub f) := of_word _ _ _ (by decide) rfl
theorem imul (f : Fields) : Statement (.imul f) := of_word _ _ _ (by decide) rfl
theorem imulh (f : Fields) : Statement (.imulh f) := of_word _ _ _ (by decide) rfl
theorem imad (f : Fields) : Statement (.imad f) := of_word _ _ _ (by decide) rfl
theorem imin (f : Fields) : Statement (.imin f) := of_word _ _ _ (by decide) rfl
theorem imax (f : Fields) : Statement (.imax f) := of_word _ _ _ (by decide) rfl
theorem iabs (f : Fields) : Statement (.iabs f) := of_word _ _ _ (by decide) rfl
theorem logic (f : Fields) : Statement (.logic f) := of_word _ _ _ (by decide) rfl
theorem shl (f : Fields) : Statement (.shl f) := of_word _ _ _ (by decide) rfl
theorem shr (f : Fields) : Statement (.shr f) := of_word _ _ _ (by decide) rfl
theorem rot (f : Fields) : Statement (.rot f) := of_word _ _ _ (by decide) rfl
theorem bfx (f : Fields) : Statement (.bfx f) := of_word _ _ _ (by decide) rfl
theorem bfi (f : Fields) : Statement (.bfi f) := of_word _ _ _ (by decide) rfl
theorem popc (f : Fields) : Statement (.popc f) := of_word _ _ _ (by decide) rfl
theorem clz (f : Fields) : Statement (.clz f) := of_word _ _ _ (by decide) rfl
theorem brev (f : Fields) : Statement (.brev f) := of_word _ _ _ (by decide) rfl
theorem icmp (f : Fields) : Statement (.icmp f) := of_word _ _ _ (by decide) rfl
theorem idot4 (f : Fields) : Statement (.idot4 f) := of_word _ _ _ (by decide) rfl
theorem fadd (f : Fields) : Statement (.fadd f) := of_word _ _ _ (by decide) rfl
theorem fmul (f : Fields) : Statement (.fmul f) := of_word _ _ _ (by decide) rfl
theorem ffma (f : Fields) : Statement (.ffma f) := of_word _ _ _ (by decide) rfl
theorem fmin (f : Fields) : Statement (.fmin f) := of_word _ _ _ (by decide) rfl
theorem fmax (f : Fields) : Statement (.fmax f) := of_word _ _ _ (by decide) rfl
theorem fcmp (f : Fields) : Statement (.fcmp f) := of_word _ _ _ (by decide) rfl
theorem fclass (f : Fields) : Statement (.fclass f) := of_word _ _ _ (by decide) rfl
theorem frcp (f : Fields) : Statement (.frcp f) := of_word _ _ _ (by decide) rfl
theorem frsq (f : Fields) : Statement (.frsq f) := of_word _ _ _ (by decide) rfl
theorem fsqrt (f : Fields) : Statement (.fsqrt f) := of_word _ _ _ (by decide) rfl
theorem fexp2 (f : Fields) : Statement (.fexp2 f) := of_word _ _ _ (by decide) rfl
theorem flog2 (f : Fields) : Statement (.flog2 f) := of_word _ _ _ (by decide) rfl
theorem sinr (f : Fields) : Statement (.sinr f) := of_word _ _ _ (by decide) rfl
theorem cosr (f : Fields) : Statement (.cosr f) := of_word _ _ _ (by decide) rfl
theorem fscale (f : Fields) : Statement (.fscale f) := of_word _ _ _ (by decide) rfl
theorem ffrac (f : Fields) : Statement (.ffrac f) := of_word _ _ _ (by decide) rfl
theorem pkfma (f : Fields) : Statement (.pkfma f) := of_word _ _ _ (by decide) rfl
theorem pkadd (f : Fields) : Statement (.pkadd f) := of_word _ _ _ (by decide) rfl
theorem pkmul (f : Fields) : Statement (.pkmul f) := of_word _ _ _ (by decide) rfl
theorem mov (f : Fields) : Statement (.mov f) := of_word _ _ _ (by decide) rfl
theorem movi (f : Fields) : Statement (.movi f) := of_word _ _ _ (by decide) rfl
theorem movih (f : Fields) : Statement (.movih f) := of_word _ _ _ (by decide) rfl
theorem sel (f : Fields) : Statement (.sel f) := of_word _ _ _ (by decide) rfl
theorem bysel (f : Fields) : Statement (.bysel f) := of_word _ _ _ (by decide) rfl
theorem cvt (f : Fields) : Statement (.cvt f) := of_word _ _ _ (by decide) rfl
theorem pack (f : Fields) : Statement (.pack f) := of_word _ _ _ (by decide) rfl
theorem unpk (f : Fields) : Statement (.unpk f) := of_word _ _ _ (by decide) rfl
theorem vldx (f : Fields) : Statement (.vldx f) := of_word _ _ _ (by decide) rfl
theorem vstx (f : Fields) : Statement (.vstx f) := of_word _ _ _ (by decide) rfl
theorem rdsp (f : Fields) : Statement (.rdsp f) := of_word _ _ _ (by decide) rfl
theorem qswp (f : Fields) : Statement (.qswp f) := of_word _ _ _ (by decide) rfl
theorem qbc (f : Fields) : Statement (.qbc f) := of_word _ _ _ (by decide) rfl
theorem gshf (f : Fields) : Statement (.gshf f) := of_word _ _ _ (by decide) rfl
theorem gvote (f : Fields) : Statement (.gvote f) := of_word _ _ _ (by decide) rfl
theorem gred (f : Fields) : Statement (.gred f) := of_word _ _ _ (by decide) rfl
theorem gscan (f : Fields) : Statement (.gscan f) := of_word _ _ _ (by decide) rfl
theorem gmatch (f : Fields) : Statement (.gmatch f) := of_word _ _ _ (by decide) rfl
theorem plog (f : Fields) : Statement (.plog f) := of_word _ _ _ (by decide) rfl
theorem pmovGet (f : Fields) : Statement (.pmovGet f) := of_word _ _ _ (by decide) rfl
theorem pmovSet (f : Fields) : Statement (.pmovSet f) := of_word _ _ _ (by decide) rfl
theorem bra (f : Fields) : Statement (.bra f) := of_word _ _ _ (by decide) rfl
theorem brx (f : Fields) : Statement (.brx f) := of_word _ _ _ (by decide) rfl
theorem call (f : Fields) : Statement (.call f) := of_word _ _ _ (by decide) rfl
theorem callx (f : Fields) : Statement (.callx f) := of_word _ _ _ (by decide) rfl
theorem ret (f : Fields) : Statement (.ret f) := of_word _ _ _ (by decide) rfl
theorem loop (f : Fields) : Statement (.loop f) := of_word _ _ _ (by decide) rfl
theorem loopb (f : Fields) : Statement (.loopb f) := of_word _ _ _ (by decide) rfl
theorem exit (f : Fields) : Statement (.exit f) := of_word _ _ _ (by decide) rfl
theorem kill (f : Fields) : Statement (.kill f) := of_word _ _ _ (by decide) rfl
theorem jset (f : Fields) : Statement (.jset f) := of_word _ _ _ (by decide) rfl
theorem jwait (f : Fields) : Statement (.jwait f) := of_word _ _ _ (by decide) rfl
theorem jdrop (f : Fields) : Statement (.jdrop f) := of_word _ _ _ (by decide) rfl
theorem yieldI (f : Fields) : Statement (.yieldI f) := of_word _ _ _ (by decide) rfl
theorem nop (f : Fields) : Statement (.nop f) := of_word _ _ _ (by decide) rfl
theorem brk (f : Fields) : Statement (.brk f) := of_word _ _ _ (by decide) rfl
theorem ovmap (f : Fields) : Statement (.ovmap f) := of_word _ _ _ (by decide) rfl
theorem trapu (f : Fields) : Statement (.trapu f) := of_word _ _ _ (by decide) rfl
theorem ld (f : Fields) : Statement (.ld f) := of_word _ _ _ (by decide) rfl
theorem st (f : Fields) : Statement (.st f) := of_word _ _ _ (by decide) rfl
theorem lds (f : Fields) : Statement (.lds f) := of_word _ _ _ (by decide) rfl
theorem sts (f : Fields) : Statement (.sts f) := of_word _ _ _ (by decide) rfl
theorem ldk (f : Fields) : Statement (.ldk f) := of_word _ _ _ (by decide) rfl
theorem atom (f : Fields) : Statement (.atom f) := of_word _ _ _ (by decide) rfl
theorem atoms (f : Fields) : Statement (.atoms f) := of_word _ _ _ (by decide) rfl
theorem red (f : Fields) : Statement (.red f) := of_word _ _ _ (by decide) rfl
theorem pref (f : Fields) : Statement (.pref f) := of_word _ _ _ (by decide) rfl
theorem pin (f : Fields) : Statement (.pin f) := of_word _ _ _ (by decide) rfl
theorem unpin (f : Fields) : Statement (.unpin f) := of_word _ _ _ (by decide) rfl
theorem reclaim (f : Fields) : Statement (.reclaim f) := of_word _ _ _ (by decide) rfl
theorem fsys (f : Fields) : Statement (.fsys f) := of_word _ _ _ (by decide) rfl
theorem binit (f : Fields) : Statement (.binit f) := of_word _ _ _ (by decide) rfl
theorem barv (f : Fields) : Statement (.barv f) := of_word _ _ _ (by decide) rfl
theorem bexp (f : Fields) : Statement (.bexp f) := of_word _ _ _ (by decide) rfl
theorem bwait (f : Fields) : Statement (.bwait f) := of_word _ _ _ (by decide) rfl
theorem btest (f : Fields) : Statement (.btest f) := of_word _ _ _ (by decide) rfl
theorem brst (f : Fields) : Statement (.brst f) := of_word _ _ _ (by decide) rfl
theorem htest (f : Fields) : Statement (.htest f) := of_word _ _ _ (by decide) rfl
theorem hcancel (f : Fields) : Statement (.hcancel f) := of_word _ _ _ (by decide) rfl
theorem cwait (f : Fields) : Statement (.cwait f) := of_word _ _ _ (by decide) rfl
theorem xcopy (f : Fields) : Statement (.xcopy f) := of_word _ _ _ (by decide) rfl
theorem xgath (f : Fields) : Statement (.xgath f) := of_word _ _ _ (by decide) rfl
theorem xscat (f : Fields) : Statement (.xscat f) := of_word _ _ _ (by decide) rfl
theorem xfill (f : Fields) : Statement (.xfill f) := of_word _ _ _ (by decide) rfl
theorem xpub (f : Fields) : Statement (.xpub f) := of_word _ _ _ (by decide) rfl
theorem coll (f : Fields) : Statement (.coll f) := of_word _ _ _ (by decide) rfl
theorem cseq (f : Fields) : Statement (.cseq f) := of_word _ _ _ (by decide) rfl
theorem bld (f : Fields) : Statement (.bld f) := of_word _ _ _ (by decide) rfl
theorem bldReg (f : Fields) : Statement (.bldReg f) := of_word _ _ _ (by decide) rfl
theorem mmaq (f : Fields) : Statement (.mmaq f) := of_word _ _ _ (by decide) rfl
theorem mmas (f : Fields) : Statement (.mmas f) := of_word _ _ _ (by decide) rfl
theorem acalloc (f : Fields) : Statement (.acalloc f) := of_word _ _ _ (by decide) rfl
theorem acfree (f : Fields) : Statement (.acfree f) := of_word _ _ _ (by decide) rfl
theorem aczero (f : Fields) : Statement (.aczero f) := of_word _ _ _ (by decide) rfl
theorem acrd (f : Fields) : Statement (.acrd f) := of_word _ _ _ (by decide) rfl
theorem acwr (f : Fields) : Statement (.acwr f) := of_word _ _ _ (by decide) rfl
theorem scacc (f : Fields) : Statement (.scacc f) := of_word _ _ _ (by decide) rfl
theorem cbld (f : Fields) : Statement (.cbld f) := of_word _ _ _ (by decide) rfl
theorem burn (f : Fields) : Statement (.burn f) := of_word _ _ _ (by decide) rfl
theorem shunt (f : Fields) : Statement (.shunt f) := of_word _ _ _ (by decide) rfl
theorem balq (f : Fields) : Statement (.balq f) := of_word _ _ _ (by decide) rfl
theorem plreq (f : Fields) : Statement (.plreq f) := of_word _ _ _ (by decide) rfl
theorem enrd (f : Fields) : Statement (.enrd f) := of_word _ _ _ (by decide) rfl
theorem csrr (f : Fields) : Statement (.csrr f) := of_word _ _ _ (by decide) rfl
theorem csrw (f : Fields) : Statement (.csrw f) := of_word _ _ _ (by decide) rfl
theorem eret (f : Fields) : Statement (.eret f) := of_word _ _ _ (by decide) rfl
theorem wfi (f : Fields) : Statement (.wfi f) := of_word _ _ _ (by decide) rfl
theorem sev (f : Fields) : Statement (.sev f) := of_word _ _ _ (by decide) rfl
theorem intack (f : Fields) : Statement (.intack f) := of_word _ _ _ (by decide) rfl
theorem tlbinvCtx (f : Fields) : Statement (.tlbinvCtx f) := of_word _ _ _ (by decide) rfl
theorem tlbinvPage (f : Fields) : Statement (.tlbinvPage f) := of_word _ _ _ (by decide) rfl
theorem ctxsv (f : Fields) : Statement (.ctxsv f) := of_word _ _ _ (by decide) rfl
theorem ctxld (f : Fields) : Statement (.ctxld f) := of_word _ _ _ (by decide) rfl
theorem tokxf (f : Fields) : Statement (.tokxf f) := of_word _ _ _ (by decide) rfl
theorem capmk (f : Fields) : Statement (.capmk f) := of_word _ _ _ (by decide) rfl
theorem loadComplete (b g l i : Nat) : Statement (.loadComplete b g l i) := of_step _ rfl
theorem storePerformed (b g l : Nat) : Statement (.storePerformed b g l) := of_step _ rfl
theorem matrixComplete (b g : Nat) : Statement (.matrixComplete b g) := of_step _ rfl
theorem unitTakesFreedWay (core part set : Nat) : Statement (.unitTakesFreedWay core part set) := of_step _ rfl
theorem yieldHoldEnd (b g u : Nat) : Statement (.yieldHoldEnd b g u) := of_step _ rfl
theorem engineSourceRead (id off len : Nat) : Statement (.engineSourceRead id off len) := of_step _ rfl
theorem enginePublish (id : Nat) : Statement (.enginePublish id) := of_step _ rfl
theorem holdSetPublish (id : Nat) : Statement (.holdSetPublish id) := of_step _ rfl
theorem commandFail (id pos : Nat) : Statement (.commandFail id pos) := of_step _ rfl
theorem commandCancel (id : Nat) : Statement (.commandCancel id) := of_step _ rfl
theorem collHashMatch (id : Nat) (innet : Bool) : Statement (.collHashMatch id innet) := of_step _ rfl
theorem collShardPublish (id j : Nat) : Statement (.collShardPublish id j) := of_step _ rfl
theorem collMemberFailure (ctx gid : Nat) (seq : Word) (dev : Nat) : Statement (.collMemberFailure ctx gid seq dev) := of_step _ rfl
theorem collMemberLeaves (ctx gid dev : Nat) : Statement (.collMemberLeaves ctx gid dev) := of_step _ rfl
theorem collectiveFlitArrival (ctx gid : Nat) (seq : Word) (dev hash : Nat) (tile : List Byte) : Statement (.collectiveFlitArrival ctx gid seq dev hash tile) := of_step _ rfl
theorem backlogReplay (ctx : Nat) : Statement (.backlogReplay ctx) := of_step _ rfl
theorem backlogTimeout (own : Bool) (ctx gid : Nat) (seq : Word) : Statement (.backlogTimeout own ctx gid seq) := of_step _ rfl
theorem reductionSwitchLeaves (id : Nat) : Statement (.reductionSwitchLeaves id) := of_step _ rfl
theorem pinQuery (job asid : Nat) (name : DWord) : Statement (.pinQuery job asid name) := of_step _ rfl
theorem freeRingAppend (k : Nat) (clear : Bool) : Statement (.freeRingAppend k clear) := of_step _ rfl
theorem ringAppendRetry (k : Nat) : Statement (.ringAppendRetry k) := of_step _ rfl
theorem pageWalk (ctx va : Nat) : Statement (.pageWalk ctx va) := of_step _ rfl
theorem remoteAccess (kind fn : Nat) (ty : Ty) (a : Nat) (x y : DWord) : Statement (.remoteAccess kind fn ty a x y) := of_step _ rfl
theorem fabricTimeout (cmd dev : Nat) : Statement (.fabricTimeout cmd dev) := of_step _ rfl
theorem hostMemAccess (write prot : Bool) (a size x : Nat) : Statement (.hostMemAccess write prot a size x) := of_step _ rfl
theorem acmEvict (core sector : Nat) : Statement (.acmEvict core sector) := of_step _ rfl
theorem acmGrant (core sector : Nat) : Statement (.acmGrant core sector) := of_step _ rfl
theorem acmSpillDone (b part sector : Nat) : Statement (.acmSpillDone b part sector) := of_step _ rfl
theorem acmRestore (b part sector : Nat) : Statement (.acmRestore b part sector) := of_step _ rfl
theorem eventPost (k : Nat) : Statement (.eventPost k) := of_step _ rfl
theorem blkctlResume (seq : Word) : Statement (.blkctlResume seq) := of_step _ rfl
theorem blkctlSkip (seq : Word) : Statement (.blkctlSkip seq) := of_step _ rfl
theorem blkctlKill (seq : Word) : Statement (.blkctlKill seq) := of_step _ rfl
theorem interruptEntry : Statement .interruptEntry := of_step _ rfl
theorem timecmpReached : Statement .timecmpReached := of_step _ rfl
theorem partSaveDone (b k : Nat) : Statement (.partSaveDone b k) := of_step _ rfl
theorem partRestoreDone (b k : Nat) : Statement (.partRestoreDone b k) := of_step _ rfl
theorem queueDoorbell (host : Bool) (k : Nat) (tail : Word) : Statement (.queueDoorbell host k tail) := of_step _ rfl
theorem queueResume (host : Bool) (k : Nat) : Statement (.queueResume host k) := of_step _ rfl
theorem recordCheck (k : Nat) : Statement (.recordCheck k) := of_step _ rfl
theorem waitRecordPoll (k : Nat) : Statement (.waitRecordPoll k) := of_step _ rfl
theorem combAdmit (l : Nat) : Statement (.combAdmit l) := of_step _ rfl
theorem blockSwitchOut (b : Nat) : Statement (.blockSwitchOut b) := of_step _ rfl
theorem blockSwitchIn (b : Nat) : Statement (.blockSwitchIn b) := of_step _ rfl
theorem prio7Preempt (l col : Nat) : Statement (.prio7Preempt l col) := of_step _ rfl
theorem launchFlushDone (l : Nat) : Statement (.launchFlushDone l) := of_step _ rfl
theorem partitionReset (p : BitVec 3) : Statement (.partitionReset p) := of_step _ rfl
theorem partitionResetDone (p : BitVec 3) : Statement (.partitionResetDone p) := of_step _ rfl
theorem swmatrixWrite (t : Bool) (x : DWord) : Statement (.swmatrixWrite t x) := of_step _ rfl
theorem balanceSample (cols : List ColumnReading) (falls : List (List (Nat × Nat))) (power : List Nat) (energy proj : Nat) :
    Statement (.balanceSample cols falls power energy proj) := of_step _ rfl
theorem imbalRelease (col : Nat) : Statement (.imbalRelease col) := of_step _ rfl
theorem levelChange (d : Nat) : Statement (.levelChange d) := of_step _ rfl
theorem cohortWrite (d : BitVec 2) (x : DWord) : Statement (.cohortWrite d x) := of_step _ rfl
theorem cohortLevelAdopt (d : Nat) : Statement (.cohortLevelAdopt d) := of_step _ rfl
theorem tokenWindowEnd : Statement .tokenWindowEnd := of_step _ rfl
theorem mint (x : Word) : Statement (.mint x) := of_step _ rfl
theorem waggleAccept (amount : Word) (t0 : Nat) : Statement (.waggleAccept amount t0) := of_step _ rfl
theorem waggleAck (k : Nat) : Statement (.waggleAck k) := of_step _ rfl
theorem tokret (k : Nat) : Statement (.tokret k) := of_step _ rfl
theorem thermalPoll (temps : List Nat) : Statement (.thermalPoll temps) := of_step _ rfl
theorem thrcfgWrite (i : Nat) (x : DWord) : Statement (.thrcfgWrite i x) := of_step _ rfl
theorem ctxidWrite (k : BitVec 6) (x : DWord) : Statement (.ctxidWrite k x) := of_step _ rfl
theorem clrpois (a : Nat) : Statement (.clrpois a) := of_step _ rfl
theorem patrolScrub (n : Nat) (bad : Option Nat) : Statement (.patrolScrub n bad) := of_step _ rfl
theorem serdesCalibration (i : Nat) : Statement (.serdesCalibration i) := of_step _ rfl
theorem diodeCalibration (i : Nat) : Statement (.diodeCalibration i) := of_step _ rfl
theorem agingMonitor (margins : List Byte) (core : Nat) : Statement (.agingMonitor margins core) := of_step _ rfl
theorem replayTimeout : Statement .replayTimeout := of_step _ rfl
theorem hostMailboxWrite (i : BitVec 3) (x : DWord) : Statement (.hostMailboxWrite i x) := of_step _ rfl
theorem mgmtMailboxWrite (i : BitVec 3) (x : DWord) : Statement (.mgmtMailboxWrite i x) := of_step _ rfl
theorem collGroupOpen (ctx : BitVec 6) (entry : BitVec 5) (gid : BitVec 16) : Statement (.collGroupOpen ctx entry gid) := of_step _ rfl
theorem jobRegisterWrite (p : BitVec 3) (x : DWord) : Statement (.jobRegisterWrite p x) := of_step _ rfl
theorem jobKeyAccept (p : BitVec 3) (job : BitVec 16) (retire : Bool) : Statement (.jobKeyAccept p job retire) := of_step _ rfl
theorem flitReceive (i : Nat) (ok : Bool) : Statement (.flitReceive i ok) := of_step _ rfl
theorem linkDown (i : Nat) : Statement (.linkDown i) := of_step _ rfl
theorem linkRekey (i : Nat) : Statement (.linkRekey i) := of_step _ rfl
theorem linkUp (i : Nat) (peer : BitVec 16) (lanes : Nat) (att : Bool) : Statement (.linkUp i peer lanes att) := of_step _ rfl
theorem sledNumberReport (n slot : Nat) : Statement (.sledNumberReport n slot) := of_step _ rfl
theorem fabricJoin (dev : BitVec 11) (time : Nat) (auth : Bool) : Statement (.fabricJoin dev time auth) := of_step _ rfl
theorem timeSync (err : Nat) : Statement (.timeSync err) := of_step _ rfl
theorem deviceReset (image : List Byte) (signed : Bool) : Statement (.deviceReset image signed) := of_step _ rfl
theorem powerRestoreRequest (image : List Byte) (signed : Bool) : Statement (.powerRestoreRequest image signed) := of_step _ rfl
theorem readToClear (csr : Bool) (n i : Nat) : Statement (.readToClear csr n i) := of_step _ rfl
theorem registerWrite (host : Bool) (a size : Nat) (val : DWord) : Statement (.registerWrite host a size val) := of_step _ rfl
theorem ballastRequestExpiry (b g : Nat) : Statement (.ballastRequestExpiry b g) := of_step _ rfl
theorem shuntReservationExpiry (b g : Nat) : Statement (.shuntReservationExpiry b g) := of_step _ rfl
theorem reclaimSearchComplete (id remote : Nat) : Statement (.reclaimSearchComplete id remote) := of_step _ rfl
theorem slopeLimitRamp (col want : Nat) : Statement (.slopeLimitRamp col want) := of_step _ rfl

end Sys2Proof.Laws.NamedByOpcode
end

