-- ==== Sys2Proof/Laws/State.lean ====
section
/-!
SUPPORT. The fields of the state after each of its updates: one lemma for each field and each update.
-/

namespace Sys2Proof.Machine

open Sys2Proof

/-! ## State.updBlock -/

@[simp] theorem State.updBlock_agenda (s : State) (b : Nat) (f : Block → Block) : (s.updBlock b f).agenda = s.agenda := rfl
@[simp] theorem State.updBlock_cur (s : State) (b : Nat) (f : Block → Block) : (s.updBlock b f).cur = s.cur := rfl
@[simp] theorem State.updBlock_pairRead (s : State) (b : Nat) (f : Block → Block) : (s.updBlock b f).pairRead = s.pairRead := rfl
@[simp] theorem State.updBlock_trapped (s : State) (b : Nat) (f : Block → Block) : (s.updBlock b f).trapped = s.trapped := rfl
@[simp] theorem State.updBlock_fresh (s : State) (b : Nat) (f : Block → Block) : (s.updBlock b f).fresh = s.fresh := rfl
@[simp] theorem State.updBlock_drawer (s : State) (b : Nat) (f : Block → Block) : (s.updBlock b f).drawer = s.drawer := rfl
@[simp] theorem State.updBlock_drawn (s : State) (b : Nat) (f : Block → Block) : (s.updBlock b f).drawn = s.drawn := rfl
@[simp] theorem State.updBlock_nextId (s : State) (b : Nat) (f : Block → Block) : (s.updBlock b f).nextId = s.nextId := rfl
@[simp] theorem State.updBlock_ftime (s : State) (b : Nat) (f : Block → Block) : (s.updBlock b f).ftime = s.ftime := rfl
@[simp] theorem State.updBlock_uptime (s : State) (b : Nat) (f : Block → Block) : (s.updBlock b f).uptime = s.uptime := rfl
@[simp] theorem State.updBlock_mem (s : State) (b : Nat) (f : Block → Block) : (s.updBlock b f).mem = s.mem := rfl
@[simp] theorem State.updBlock_hostMem (s : State) (b : Nat) (f : Block → Block) : (s.updBlock b f).hostMem = s.hostMem := rfl
@[simp] theorem State.updBlock_peerMem (s : State) (b : Nat) (f : Block → Block) : (s.updBlock b f).peerMem = s.peerMem := rfl
@[simp] theorem State.updBlock_snoop (s : State) (b : Nat) (f : Block → Block) : (s.updBlock b f).snoop = s.snoop := rfl
@[simp] theorem State.updBlock_mgmt (s : State) (b : Nat) (f : Block → Block) : (s.updBlock b f).mgmt = s.mgmt := rfl
@[simp] theorem State.updBlock_csr (s : State) (b : Nat) (f : Block → Block) : (s.updBlock b f).csr = s.csr := rfl
@[simp] theorem State.updBlock_blocks (s : State) (b : Nat) (f : Block → Block) : (s.updBlock b f).blocks = s.blocks.map fun x => if x.id = b then f x else x := rfl
@[simp] theorem State.updBlock_launches (s : State) (b : Nat) (f : Block → Block) : (s.updBlock b f).launches = s.launches := rfl
@[simp] theorem State.updBlock_windows (s : State) (b : Nat) (f : Block → Block) : (s.updBlock b f).windows = s.windows := rfl
@[simp] theorem State.updBlock_cmds (s : State) (b : Nat) (f : Block → Block) : (s.updBlock b f).cmds = s.cmds := rfl
@[simp] theorem State.updBlock_deferred (s : State) (b : Nat) (f : Block → Block) : (s.updBlock b f).deferred = s.deferred := rfl
@[simp] theorem State.updBlock_searches (s : State) (b : Nat) (f : Block → Block) : (s.updBlock b f).searches = s.searches := rfl
@[simp] theorem State.updBlock_queries (s : State) (b : Nat) (f : Block → Block) : (s.updBlock b f).queries = s.queries := rfl
@[simp] theorem State.updBlock_acmReqs (s : State) (b : Nat) (f : Block → Block) : (s.updBlock b f).acmReqs = s.acmReqs := rfl
@[simp] theorem State.updBlock_acmLeft (s : State) (b : Nat) (f : Block → Block) : (s.updBlock b f).acmLeft = s.acmLeft := rfl
@[simp] theorem State.updBlock_waiting (s : State) (b : Nat) (f : Block → Block) : (s.updBlock b f).waiting = s.waiting := rfl
@[simp] theorem State.updBlock_events (s : State) (b : Nat) (f : Block → Block) : (s.updBlock b f).events = s.events := rfl
@[simp] theorem State.updBlock_evSeq (s : State) (b : Nat) (f : Block → Block) : (s.updBlock b f).evSeq = s.evSeq := rfl
@[simp] theorem State.updBlock_tlb (s : State) (b : Nat) (f : Block → Block) : (s.updBlock b f).tlb = s.tlb := rfl
@[simp] theorem State.updBlock_cache (s : State) (b : Nat) (f : Block → Block) : (s.updBlock b f).cache = s.cache := rfl
@[simp] theorem State.updBlock_l2 (s : State) (b : Nat) (f : Block → Block) : (s.updBlock b f).l2 = s.l2 := rfl
@[simp] theorem State.updBlock_stats (s : State) (b : Nat) (f : Block → Block) : (s.updBlock b f).stats = s.stats := rfl
@[simp] theorem State.updBlock_queues (s : State) (b : Nat) (f : Block → Block) : (s.updBlock b f).queues = s.queues := rfl
@[simp] theorem State.updBlock_tenants (s : State) (b : Nat) (f : Block → Block) : (s.updBlock b f).tenants = s.tenants := rfl
@[simp] theorem State.updBlock_ctxs (s : State) (b : Nat) (f : Block → Block) : (s.updBlock b f).ctxs = s.ctxs := rfl
@[simp] theorem State.updBlock_sensors (s : State) (b : Nat) (f : Block → Block) : (s.updBlock b f).sensors = s.sensors := rfl
@[simp] theorem State.updBlock_supplies (s : State) (b : Nat) (f : Block → Block) : (s.updBlock b f).supplies = s.supplies := rfl
@[simp] theorem State.updBlock_columns (s : State) (b : Nat) (f : Block → Block) : (s.updBlock b f).columns = s.columns := rfl
@[simp] theorem State.updBlock_slots (s : State) (b : Nat) (f : Block → Block) : (s.updBlock b f).slots = s.slots := rfl
@[simp] theorem State.updBlock_coreLast (s : State) (b : Nat) (f : Block → Block) : (s.updBlock b f).coreLast = s.coreLast := rfl
@[simp] theorem State.updBlock_capDuty (s : State) (b : Nat) (f : Block → Block) : (s.updBlock b f).capDuty = s.capDuty := rfl
@[simp] theorem State.updBlock_winEnergy (s : State) (b : Nat) (f : Block → Block) : (s.updBlock b f).winEnergy = s.winEnergy := rfl
@[simp] theorem State.updBlock_winBudget (s : State) (b : Nat) (f : Block → Block) : (s.updBlock b f).winBudget = s.winBudget := rfl
@[simp] theorem State.updBlock_tokWindow (s : State) (b : Nat) (f : Block → Block) : (s.updBlock b f).tokWindow = s.tokWindow := rfl
@[simp] theorem State.updBlock_fabric (s : State) (b : Nat) (f : Block → Block) : (s.updBlock b f).fabric = s.fabric := rfl
@[simp] theorem State.updBlock_rel (s : State) (b : Nat) (f : Block → Block) : (s.updBlock b f).rel = s.rel := rfl
@[simp] theorem State.updBlock_stopped (s : State) (b : Nat) (f : Block → Block) : (s.updBlock b f).stopped = s.stopped := rfl
@[simp] theorem State.updBlock_powerOff (s : State) (b : Nat) (f : Block → Block) : (s.updBlock b f).powerOff = s.powerOff := rfl

/-! ## State.updLaunch -/

@[simp] theorem State.updLaunch_agenda (s : State) (l : Nat) (f : Launch → Launch) : (s.updLaunch l f).agenda = s.agenda := rfl
@[simp] theorem State.updLaunch_cur (s : State) (l : Nat) (f : Launch → Launch) : (s.updLaunch l f).cur = s.cur := rfl
@[simp] theorem State.updLaunch_pairRead (s : State) (l : Nat) (f : Launch → Launch) : (s.updLaunch l f).pairRead = s.pairRead := rfl
@[simp] theorem State.updLaunch_trapped (s : State) (l : Nat) (f : Launch → Launch) : (s.updLaunch l f).trapped = s.trapped := rfl
@[simp] theorem State.updLaunch_fresh (s : State) (l : Nat) (f : Launch → Launch) : (s.updLaunch l f).fresh = s.fresh := rfl
@[simp] theorem State.updLaunch_drawer (s : State) (l : Nat) (f : Launch → Launch) : (s.updLaunch l f).drawer = s.drawer := rfl
@[simp] theorem State.updLaunch_drawn (s : State) (l : Nat) (f : Launch → Launch) : (s.updLaunch l f).drawn = s.drawn := rfl
@[simp] theorem State.updLaunch_nextId (s : State) (l : Nat) (f : Launch → Launch) : (s.updLaunch l f).nextId = s.nextId := rfl
@[simp] theorem State.updLaunch_ftime (s : State) (l : Nat) (f : Launch → Launch) : (s.updLaunch l f).ftime = s.ftime := rfl
@[simp] theorem State.updLaunch_uptime (s : State) (l : Nat) (f : Launch → Launch) : (s.updLaunch l f).uptime = s.uptime := rfl
@[simp] theorem State.updLaunch_mem (s : State) (l : Nat) (f : Launch → Launch) : (s.updLaunch l f).mem = s.mem := rfl
@[simp] theorem State.updLaunch_hostMem (s : State) (l : Nat) (f : Launch → Launch) : (s.updLaunch l f).hostMem = s.hostMem := rfl
@[simp] theorem State.updLaunch_peerMem (s : State) (l : Nat) (f : Launch → Launch) : (s.updLaunch l f).peerMem = s.peerMem := rfl
@[simp] theorem State.updLaunch_snoop (s : State) (l : Nat) (f : Launch → Launch) : (s.updLaunch l f).snoop = s.snoop := rfl
@[simp] theorem State.updLaunch_mgmt (s : State) (l : Nat) (f : Launch → Launch) : (s.updLaunch l f).mgmt = s.mgmt := rfl
@[simp] theorem State.updLaunch_csr (s : State) (l : Nat) (f : Launch → Launch) : (s.updLaunch l f).csr = s.csr := rfl
@[simp] theorem State.updLaunch_blocks (s : State) (l : Nat) (f : Launch → Launch) : (s.updLaunch l f).blocks = s.blocks := rfl
@[simp] theorem State.updLaunch_launches (s : State) (l : Nat) (f : Launch → Launch) : (s.updLaunch l f).launches = s.launches.map fun x => if x.id = l then f x else x := rfl
@[simp] theorem State.updLaunch_windows (s : State) (l : Nat) (f : Launch → Launch) : (s.updLaunch l f).windows = s.windows := rfl
@[simp] theorem State.updLaunch_cmds (s : State) (l : Nat) (f : Launch → Launch) : (s.updLaunch l f).cmds = s.cmds := rfl
@[simp] theorem State.updLaunch_deferred (s : State) (l : Nat) (f : Launch → Launch) : (s.updLaunch l f).deferred = s.deferred := rfl
@[simp] theorem State.updLaunch_searches (s : State) (l : Nat) (f : Launch → Launch) : (s.updLaunch l f).searches = s.searches := rfl
@[simp] theorem State.updLaunch_queries (s : State) (l : Nat) (f : Launch → Launch) : (s.updLaunch l f).queries = s.queries := rfl
@[simp] theorem State.updLaunch_acmReqs (s : State) (l : Nat) (f : Launch → Launch) : (s.updLaunch l f).acmReqs = s.acmReqs := rfl
@[simp] theorem State.updLaunch_acmLeft (s : State) (l : Nat) (f : Launch → Launch) : (s.updLaunch l f).acmLeft = s.acmLeft := rfl
@[simp] theorem State.updLaunch_waiting (s : State) (l : Nat) (f : Launch → Launch) : (s.updLaunch l f).waiting = s.waiting := rfl
@[simp] theorem State.updLaunch_events (s : State) (l : Nat) (f : Launch → Launch) : (s.updLaunch l f).events = s.events := rfl
@[simp] theorem State.updLaunch_evSeq (s : State) (l : Nat) (f : Launch → Launch) : (s.updLaunch l f).evSeq = s.evSeq := rfl
@[simp] theorem State.updLaunch_tlb (s : State) (l : Nat) (f : Launch → Launch) : (s.updLaunch l f).tlb = s.tlb := rfl
@[simp] theorem State.updLaunch_cache (s : State) (l : Nat) (f : Launch → Launch) : (s.updLaunch l f).cache = s.cache := rfl
@[simp] theorem State.updLaunch_l2 (s : State) (l : Nat) (f : Launch → Launch) : (s.updLaunch l f).l2 = s.l2 := rfl
@[simp] theorem State.updLaunch_stats (s : State) (l : Nat) (f : Launch → Launch) : (s.updLaunch l f).stats = s.stats := rfl
@[simp] theorem State.updLaunch_queues (s : State) (l : Nat) (f : Launch → Launch) : (s.updLaunch l f).queues = s.queues := rfl
@[simp] theorem State.updLaunch_tenants (s : State) (l : Nat) (f : Launch → Launch) : (s.updLaunch l f).tenants = s.tenants := rfl
@[simp] theorem State.updLaunch_ctxs (s : State) (l : Nat) (f : Launch → Launch) : (s.updLaunch l f).ctxs = s.ctxs := rfl
@[simp] theorem State.updLaunch_sensors (s : State) (l : Nat) (f : Launch → Launch) : (s.updLaunch l f).sensors = s.sensors := rfl
@[simp] theorem State.updLaunch_supplies (s : State) (l : Nat) (f : Launch → Launch) : (s.updLaunch l f).supplies = s.supplies := rfl
@[simp] theorem State.updLaunch_columns (s : State) (l : Nat) (f : Launch → Launch) : (s.updLaunch l f).columns = s.columns := rfl
@[simp] theorem State.updLaunch_slots (s : State) (l : Nat) (f : Launch → Launch) : (s.updLaunch l f).slots = s.slots := rfl
@[simp] theorem State.updLaunch_coreLast (s : State) (l : Nat) (f : Launch → Launch) : (s.updLaunch l f).coreLast = s.coreLast := rfl
@[simp] theorem State.updLaunch_capDuty (s : State) (l : Nat) (f : Launch → Launch) : (s.updLaunch l f).capDuty = s.capDuty := rfl
@[simp] theorem State.updLaunch_winEnergy (s : State) (l : Nat) (f : Launch → Launch) : (s.updLaunch l f).winEnergy = s.winEnergy := rfl
@[simp] theorem State.updLaunch_winBudget (s : State) (l : Nat) (f : Launch → Launch) : (s.updLaunch l f).winBudget = s.winBudget := rfl
@[simp] theorem State.updLaunch_tokWindow (s : State) (l : Nat) (f : Launch → Launch) : (s.updLaunch l f).tokWindow = s.tokWindow := rfl
@[simp] theorem State.updLaunch_fabric (s : State) (l : Nat) (f : Launch → Launch) : (s.updLaunch l f).fabric = s.fabric := rfl
@[simp] theorem State.updLaunch_rel (s : State) (l : Nat) (f : Launch → Launch) : (s.updLaunch l f).rel = s.rel := rfl
@[simp] theorem State.updLaunch_stopped (s : State) (l : Nat) (f : Launch → Launch) : (s.updLaunch l f).stopped = s.stopped := rfl
@[simp] theorem State.updLaunch_powerOff (s : State) (l : Nat) (f : Launch → Launch) : (s.updLaunch l f).powerOff = s.powerOff := rfl

/-! ## State.updCmd -/

@[simp] theorem State.updCmd_agenda (s : State) (c : Nat) (f : Cmd → Cmd) : (s.updCmd c f).agenda = s.agenda := rfl
@[simp] theorem State.updCmd_cur (s : State) (c : Nat) (f : Cmd → Cmd) : (s.updCmd c f).cur = s.cur := rfl
@[simp] theorem State.updCmd_pairRead (s : State) (c : Nat) (f : Cmd → Cmd) : (s.updCmd c f).pairRead = s.pairRead := rfl
@[simp] theorem State.updCmd_trapped (s : State) (c : Nat) (f : Cmd → Cmd) : (s.updCmd c f).trapped = s.trapped := rfl
@[simp] theorem State.updCmd_fresh (s : State) (c : Nat) (f : Cmd → Cmd) : (s.updCmd c f).fresh = s.fresh := rfl
@[simp] theorem State.updCmd_drawer (s : State) (c : Nat) (f : Cmd → Cmd) : (s.updCmd c f).drawer = s.drawer := rfl
@[simp] theorem State.updCmd_drawn (s : State) (c : Nat) (f : Cmd → Cmd) : (s.updCmd c f).drawn = s.drawn := rfl
@[simp] theorem State.updCmd_nextId (s : State) (c : Nat) (f : Cmd → Cmd) : (s.updCmd c f).nextId = s.nextId := rfl
@[simp] theorem State.updCmd_ftime (s : State) (c : Nat) (f : Cmd → Cmd) : (s.updCmd c f).ftime = s.ftime := rfl
@[simp] theorem State.updCmd_uptime (s : State) (c : Nat) (f : Cmd → Cmd) : (s.updCmd c f).uptime = s.uptime := rfl
@[simp] theorem State.updCmd_mem (s : State) (c : Nat) (f : Cmd → Cmd) : (s.updCmd c f).mem = s.mem := rfl
@[simp] theorem State.updCmd_hostMem (s : State) (c : Nat) (f : Cmd → Cmd) : (s.updCmd c f).hostMem = s.hostMem := rfl
@[simp] theorem State.updCmd_peerMem (s : State) (c : Nat) (f : Cmd → Cmd) : (s.updCmd c f).peerMem = s.peerMem := rfl
@[simp] theorem State.updCmd_snoop (s : State) (c : Nat) (f : Cmd → Cmd) : (s.updCmd c f).snoop = s.snoop := rfl
@[simp] theorem State.updCmd_mgmt (s : State) (c : Nat) (f : Cmd → Cmd) : (s.updCmd c f).mgmt = s.mgmt := rfl
@[simp] theorem State.updCmd_csr (s : State) (c : Nat) (f : Cmd → Cmd) : (s.updCmd c f).csr = s.csr := rfl
@[simp] theorem State.updCmd_blocks (s : State) (c : Nat) (f : Cmd → Cmd) : (s.updCmd c f).blocks = s.blocks := rfl
@[simp] theorem State.updCmd_launches (s : State) (c : Nat) (f : Cmd → Cmd) : (s.updCmd c f).launches = s.launches := rfl
@[simp] theorem State.updCmd_windows (s : State) (c : Nat) (f : Cmd → Cmd) : (s.updCmd c f).windows = s.windows := rfl
@[simp] theorem State.updCmd_cmds (s : State) (c : Nat) (f : Cmd → Cmd) : (s.updCmd c f).cmds = s.cmds.map fun x => if x.id = c then f x else x := rfl
@[simp] theorem State.updCmd_deferred (s : State) (c : Nat) (f : Cmd → Cmd) : (s.updCmd c f).deferred = s.deferred := rfl
@[simp] theorem State.updCmd_searches (s : State) (c : Nat) (f : Cmd → Cmd) : (s.updCmd c f).searches = s.searches := rfl
@[simp] theorem State.updCmd_queries (s : State) (c : Nat) (f : Cmd → Cmd) : (s.updCmd c f).queries = s.queries := rfl
@[simp] theorem State.updCmd_acmReqs (s : State) (c : Nat) (f : Cmd → Cmd) : (s.updCmd c f).acmReqs = s.acmReqs := rfl
@[simp] theorem State.updCmd_acmLeft (s : State) (c : Nat) (f : Cmd → Cmd) : (s.updCmd c f).acmLeft = s.acmLeft := rfl
@[simp] theorem State.updCmd_waiting (s : State) (c : Nat) (f : Cmd → Cmd) : (s.updCmd c f).waiting = s.waiting := rfl
@[simp] theorem State.updCmd_events (s : State) (c : Nat) (f : Cmd → Cmd) : (s.updCmd c f).events = s.events := rfl
@[simp] theorem State.updCmd_evSeq (s : State) (c : Nat) (f : Cmd → Cmd) : (s.updCmd c f).evSeq = s.evSeq := rfl
@[simp] theorem State.updCmd_tlb (s : State) (c : Nat) (f : Cmd → Cmd) : (s.updCmd c f).tlb = s.tlb := rfl
@[simp] theorem State.updCmd_cache (s : State) (c : Nat) (f : Cmd → Cmd) : (s.updCmd c f).cache = s.cache := rfl
@[simp] theorem State.updCmd_l2 (s : State) (c : Nat) (f : Cmd → Cmd) : (s.updCmd c f).l2 = s.l2 := rfl
@[simp] theorem State.updCmd_stats (s : State) (c : Nat) (f : Cmd → Cmd) : (s.updCmd c f).stats = s.stats := rfl
@[simp] theorem State.updCmd_queues (s : State) (c : Nat) (f : Cmd → Cmd) : (s.updCmd c f).queues = s.queues := rfl
@[simp] theorem State.updCmd_tenants (s : State) (c : Nat) (f : Cmd → Cmd) : (s.updCmd c f).tenants = s.tenants := rfl
@[simp] theorem State.updCmd_ctxs (s : State) (c : Nat) (f : Cmd → Cmd) : (s.updCmd c f).ctxs = s.ctxs := rfl
@[simp] theorem State.updCmd_sensors (s : State) (c : Nat) (f : Cmd → Cmd) : (s.updCmd c f).sensors = s.sensors := rfl
@[simp] theorem State.updCmd_supplies (s : State) (c : Nat) (f : Cmd → Cmd) : (s.updCmd c f).supplies = s.supplies := rfl
@[simp] theorem State.updCmd_columns (s : State) (c : Nat) (f : Cmd → Cmd) : (s.updCmd c f).columns = s.columns := rfl
@[simp] theorem State.updCmd_slots (s : State) (c : Nat) (f : Cmd → Cmd) : (s.updCmd c f).slots = s.slots := rfl
@[simp] theorem State.updCmd_coreLast (s : State) (c : Nat) (f : Cmd → Cmd) : (s.updCmd c f).coreLast = s.coreLast := rfl
@[simp] theorem State.updCmd_capDuty (s : State) (c : Nat) (f : Cmd → Cmd) : (s.updCmd c f).capDuty = s.capDuty := rfl
@[simp] theorem State.updCmd_winEnergy (s : State) (c : Nat) (f : Cmd → Cmd) : (s.updCmd c f).winEnergy = s.winEnergy := rfl
@[simp] theorem State.updCmd_winBudget (s : State) (c : Nat) (f : Cmd → Cmd) : (s.updCmd c f).winBudget = s.winBudget := rfl
@[simp] theorem State.updCmd_tokWindow (s : State) (c : Nat) (f : Cmd → Cmd) : (s.updCmd c f).tokWindow = s.tokWindow := rfl
@[simp] theorem State.updCmd_fabric (s : State) (c : Nat) (f : Cmd → Cmd) : (s.updCmd c f).fabric = s.fabric := rfl
@[simp] theorem State.updCmd_rel (s : State) (c : Nat) (f : Cmd → Cmd) : (s.updCmd c f).rel = s.rel := rfl
@[simp] theorem State.updCmd_stopped (s : State) (c : Nat) (f : Cmd → Cmd) : (s.updCmd c f).stopped = s.stopped := rfl
@[simp] theorem State.updCmd_powerOff (s : State) (c : Nat) (f : Cmd → Cmd) : (s.updCmd c f).powerOff = s.powerOff := rfl

/-! ## State.updTenant -/

@[simp] theorem State.updTenant_agenda (s : State) (p : Nat) (f : Tenant → Tenant) : (s.updTenant p f).agenda = s.agenda := rfl
@[simp] theorem State.updTenant_cur (s : State) (p : Nat) (f : Tenant → Tenant) : (s.updTenant p f).cur = s.cur := rfl
@[simp] theorem State.updTenant_pairRead (s : State) (p : Nat) (f : Tenant → Tenant) : (s.updTenant p f).pairRead = s.pairRead := rfl
@[simp] theorem State.updTenant_trapped (s : State) (p : Nat) (f : Tenant → Tenant) : (s.updTenant p f).trapped = s.trapped := rfl
@[simp] theorem State.updTenant_fresh (s : State) (p : Nat) (f : Tenant → Tenant) : (s.updTenant p f).fresh = s.fresh := rfl
@[simp] theorem State.updTenant_drawer (s : State) (p : Nat) (f : Tenant → Tenant) : (s.updTenant p f).drawer = s.drawer := rfl
@[simp] theorem State.updTenant_drawn (s : State) (p : Nat) (f : Tenant → Tenant) : (s.updTenant p f).drawn = s.drawn := rfl
@[simp] theorem State.updTenant_nextId (s : State) (p : Nat) (f : Tenant → Tenant) : (s.updTenant p f).nextId = s.nextId := rfl
@[simp] theorem State.updTenant_ftime (s : State) (p : Nat) (f : Tenant → Tenant) : (s.updTenant p f).ftime = s.ftime := rfl
@[simp] theorem State.updTenant_uptime (s : State) (p : Nat) (f : Tenant → Tenant) : (s.updTenant p f).uptime = s.uptime := rfl
@[simp] theorem State.updTenant_mem (s : State) (p : Nat) (f : Tenant → Tenant) : (s.updTenant p f).mem = s.mem := rfl
@[simp] theorem State.updTenant_hostMem (s : State) (p : Nat) (f : Tenant → Tenant) : (s.updTenant p f).hostMem = s.hostMem := rfl
@[simp] theorem State.updTenant_peerMem (s : State) (p : Nat) (f : Tenant → Tenant) : (s.updTenant p f).peerMem = s.peerMem := rfl
@[simp] theorem State.updTenant_snoop (s : State) (p : Nat) (f : Tenant → Tenant) : (s.updTenant p f).snoop = s.snoop := rfl
@[simp] theorem State.updTenant_mgmt (s : State) (p : Nat) (f : Tenant → Tenant) : (s.updTenant p f).mgmt = s.mgmt := rfl
@[simp] theorem State.updTenant_csr (s : State) (p : Nat) (f : Tenant → Tenant) : (s.updTenant p f).csr = s.csr := rfl
@[simp] theorem State.updTenant_blocks (s : State) (p : Nat) (f : Tenant → Tenant) : (s.updTenant p f).blocks = s.blocks := rfl
@[simp] theorem State.updTenant_launches (s : State) (p : Nat) (f : Tenant → Tenant) : (s.updTenant p f).launches = s.launches := rfl
@[simp] theorem State.updTenant_windows (s : State) (p : Nat) (f : Tenant → Tenant) : (s.updTenant p f).windows = s.windows := rfl
@[simp] theorem State.updTenant_cmds (s : State) (p : Nat) (f : Tenant → Tenant) : (s.updTenant p f).cmds = s.cmds := rfl
@[simp] theorem State.updTenant_deferred (s : State) (p : Nat) (f : Tenant → Tenant) : (s.updTenant p f).deferred = s.deferred := rfl
@[simp] theorem State.updTenant_searches (s : State) (p : Nat) (f : Tenant → Tenant) : (s.updTenant p f).searches = s.searches := rfl
@[simp] theorem State.updTenant_queries (s : State) (p : Nat) (f : Tenant → Tenant) : (s.updTenant p f).queries = s.queries := rfl
@[simp] theorem State.updTenant_acmReqs (s : State) (p : Nat) (f : Tenant → Tenant) : (s.updTenant p f).acmReqs = s.acmReqs := rfl
@[simp] theorem State.updTenant_acmLeft (s : State) (p : Nat) (f : Tenant → Tenant) : (s.updTenant p f).acmLeft = s.acmLeft := rfl
@[simp] theorem State.updTenant_waiting (s : State) (p : Nat) (f : Tenant → Tenant) : (s.updTenant p f).waiting = s.waiting := rfl
@[simp] theorem State.updTenant_events (s : State) (p : Nat) (f : Tenant → Tenant) : (s.updTenant p f).events = s.events := rfl
@[simp] theorem State.updTenant_evSeq (s : State) (p : Nat) (f : Tenant → Tenant) : (s.updTenant p f).evSeq = s.evSeq := rfl
@[simp] theorem State.updTenant_tlb (s : State) (p : Nat) (f : Tenant → Tenant) : (s.updTenant p f).tlb = s.tlb := rfl
@[simp] theorem State.updTenant_cache (s : State) (p : Nat) (f : Tenant → Tenant) : (s.updTenant p f).cache = s.cache := rfl
@[simp] theorem State.updTenant_l2 (s : State) (p : Nat) (f : Tenant → Tenant) : (s.updTenant p f).l2 = s.l2 := rfl
@[simp] theorem State.updTenant_stats (s : State) (p : Nat) (f : Tenant → Tenant) : (s.updTenant p f).stats = s.stats := rfl
@[simp] theorem State.updTenant_queues (s : State) (p : Nat) (f : Tenant → Tenant) : (s.updTenant p f).queues = s.queues := rfl
@[simp] theorem State.updTenant_tenants (s : State) (p : Nat) (f : Tenant → Tenant) : (s.updTenant p f).tenants = updAt s.tenants p f := rfl
@[simp] theorem State.updTenant_ctxs (s : State) (p : Nat) (f : Tenant → Tenant) : (s.updTenant p f).ctxs = s.ctxs := rfl
@[simp] theorem State.updTenant_sensors (s : State) (p : Nat) (f : Tenant → Tenant) : (s.updTenant p f).sensors = s.sensors := rfl
@[simp] theorem State.updTenant_supplies (s : State) (p : Nat) (f : Tenant → Tenant) : (s.updTenant p f).supplies = s.supplies := rfl
@[simp] theorem State.updTenant_columns (s : State) (p : Nat) (f : Tenant → Tenant) : (s.updTenant p f).columns = s.columns := rfl
@[simp] theorem State.updTenant_slots (s : State) (p : Nat) (f : Tenant → Tenant) : (s.updTenant p f).slots = s.slots := rfl
@[simp] theorem State.updTenant_coreLast (s : State) (p : Nat) (f : Tenant → Tenant) : (s.updTenant p f).coreLast = s.coreLast := rfl
@[simp] theorem State.updTenant_capDuty (s : State) (p : Nat) (f : Tenant → Tenant) : (s.updTenant p f).capDuty = s.capDuty := rfl
@[simp] theorem State.updTenant_winEnergy (s : State) (p : Nat) (f : Tenant → Tenant) : (s.updTenant p f).winEnergy = s.winEnergy := rfl
@[simp] theorem State.updTenant_winBudget (s : State) (p : Nat) (f : Tenant → Tenant) : (s.updTenant p f).winBudget = s.winBudget := rfl
@[simp] theorem State.updTenant_tokWindow (s : State) (p : Nat) (f : Tenant → Tenant) : (s.updTenant p f).tokWindow = s.tokWindow := rfl
@[simp] theorem State.updTenant_fabric (s : State) (p : Nat) (f : Tenant → Tenant) : (s.updTenant p f).fabric = s.fabric := rfl
@[simp] theorem State.updTenant_rel (s : State) (p : Nat) (f : Tenant → Tenant) : (s.updTenant p f).rel = s.rel := rfl
@[simp] theorem State.updTenant_stopped (s : State) (p : Nat) (f : Tenant → Tenant) : (s.updTenant p f).stopped = s.stopped := rfl
@[simp] theorem State.updTenant_powerOff (s : State) (p : Nat) (f : Tenant → Tenant) : (s.updTenant p f).powerOff = s.powerOff := rfl

/-! ## State.updCtx -/

@[simp] theorem State.updCtx_agenda (s : State) (k : Nat) (f : CtxBlock → CtxBlock) : (s.updCtx k f).agenda = s.agenda := rfl
@[simp] theorem State.updCtx_cur (s : State) (k : Nat) (f : CtxBlock → CtxBlock) : (s.updCtx k f).cur = s.cur := rfl
@[simp] theorem State.updCtx_pairRead (s : State) (k : Nat) (f : CtxBlock → CtxBlock) : (s.updCtx k f).pairRead = s.pairRead := rfl
@[simp] theorem State.updCtx_trapped (s : State) (k : Nat) (f : CtxBlock → CtxBlock) : (s.updCtx k f).trapped = s.trapped := rfl
@[simp] theorem State.updCtx_fresh (s : State) (k : Nat) (f : CtxBlock → CtxBlock) : (s.updCtx k f).fresh = s.fresh := rfl
@[simp] theorem State.updCtx_drawer (s : State) (k : Nat) (f : CtxBlock → CtxBlock) : (s.updCtx k f).drawer = s.drawer := rfl
@[simp] theorem State.updCtx_drawn (s : State) (k : Nat) (f : CtxBlock → CtxBlock) : (s.updCtx k f).drawn = s.drawn := rfl
@[simp] theorem State.updCtx_nextId (s : State) (k : Nat) (f : CtxBlock → CtxBlock) : (s.updCtx k f).nextId = s.nextId := rfl
@[simp] theorem State.updCtx_ftime (s : State) (k : Nat) (f : CtxBlock → CtxBlock) : (s.updCtx k f).ftime = s.ftime := rfl
@[simp] theorem State.updCtx_uptime (s : State) (k : Nat) (f : CtxBlock → CtxBlock) : (s.updCtx k f).uptime = s.uptime := rfl
@[simp] theorem State.updCtx_mem (s : State) (k : Nat) (f : CtxBlock → CtxBlock) : (s.updCtx k f).mem = s.mem := rfl
@[simp] theorem State.updCtx_hostMem (s : State) (k : Nat) (f : CtxBlock → CtxBlock) : (s.updCtx k f).hostMem = s.hostMem := rfl
@[simp] theorem State.updCtx_peerMem (s : State) (k : Nat) (f : CtxBlock → CtxBlock) : (s.updCtx k f).peerMem = s.peerMem := rfl
@[simp] theorem State.updCtx_snoop (s : State) (k : Nat) (f : CtxBlock → CtxBlock) : (s.updCtx k f).snoop = s.snoop := rfl
@[simp] theorem State.updCtx_mgmt (s : State) (k : Nat) (f : CtxBlock → CtxBlock) : (s.updCtx k f).mgmt = s.mgmt := rfl
@[simp] theorem State.updCtx_csr (s : State) (k : Nat) (f : CtxBlock → CtxBlock) : (s.updCtx k f).csr = s.csr := rfl
@[simp] theorem State.updCtx_blocks (s : State) (k : Nat) (f : CtxBlock → CtxBlock) : (s.updCtx k f).blocks = s.blocks := rfl
@[simp] theorem State.updCtx_launches (s : State) (k : Nat) (f : CtxBlock → CtxBlock) : (s.updCtx k f).launches = s.launches := rfl
@[simp] theorem State.updCtx_windows (s : State) (k : Nat) (f : CtxBlock → CtxBlock) : (s.updCtx k f).windows = s.windows := rfl
@[simp] theorem State.updCtx_cmds (s : State) (k : Nat) (f : CtxBlock → CtxBlock) : (s.updCtx k f).cmds = s.cmds := rfl
@[simp] theorem State.updCtx_deferred (s : State) (k : Nat) (f : CtxBlock → CtxBlock) : (s.updCtx k f).deferred = s.deferred := rfl
@[simp] theorem State.updCtx_searches (s : State) (k : Nat) (f : CtxBlock → CtxBlock) : (s.updCtx k f).searches = s.searches := rfl
@[simp] theorem State.updCtx_queries (s : State) (k : Nat) (f : CtxBlock → CtxBlock) : (s.updCtx k f).queries = s.queries := rfl
@[simp] theorem State.updCtx_acmReqs (s : State) (k : Nat) (f : CtxBlock → CtxBlock) : (s.updCtx k f).acmReqs = s.acmReqs := rfl
@[simp] theorem State.updCtx_acmLeft (s : State) (k : Nat) (f : CtxBlock → CtxBlock) : (s.updCtx k f).acmLeft = s.acmLeft := rfl
@[simp] theorem State.updCtx_waiting (s : State) (k : Nat) (f : CtxBlock → CtxBlock) : (s.updCtx k f).waiting = s.waiting := rfl
@[simp] theorem State.updCtx_events (s : State) (k : Nat) (f : CtxBlock → CtxBlock) : (s.updCtx k f).events = s.events := rfl
@[simp] theorem State.updCtx_evSeq (s : State) (k : Nat) (f : CtxBlock → CtxBlock) : (s.updCtx k f).evSeq = s.evSeq := rfl
@[simp] theorem State.updCtx_tlb (s : State) (k : Nat) (f : CtxBlock → CtxBlock) : (s.updCtx k f).tlb = s.tlb := rfl
@[simp] theorem State.updCtx_cache (s : State) (k : Nat) (f : CtxBlock → CtxBlock) : (s.updCtx k f).cache = s.cache := rfl
@[simp] theorem State.updCtx_l2 (s : State) (k : Nat) (f : CtxBlock → CtxBlock) : (s.updCtx k f).l2 = s.l2 := rfl
@[simp] theorem State.updCtx_stats (s : State) (k : Nat) (f : CtxBlock → CtxBlock) : (s.updCtx k f).stats = s.stats := rfl
@[simp] theorem State.updCtx_queues (s : State) (k : Nat) (f : CtxBlock → CtxBlock) : (s.updCtx k f).queues = s.queues := rfl
@[simp] theorem State.updCtx_tenants (s : State) (k : Nat) (f : CtxBlock → CtxBlock) : (s.updCtx k f).tenants = s.tenants := rfl
@[simp] theorem State.updCtx_ctxs (s : State) (k : Nat) (f : CtxBlock → CtxBlock) : (s.updCtx k f).ctxs = updAt s.ctxs k f := rfl
@[simp] theorem State.updCtx_sensors (s : State) (k : Nat) (f : CtxBlock → CtxBlock) : (s.updCtx k f).sensors = s.sensors := rfl
@[simp] theorem State.updCtx_supplies (s : State) (k : Nat) (f : CtxBlock → CtxBlock) : (s.updCtx k f).supplies = s.supplies := rfl
@[simp] theorem State.updCtx_columns (s : State) (k : Nat) (f : CtxBlock → CtxBlock) : (s.updCtx k f).columns = s.columns := rfl
@[simp] theorem State.updCtx_slots (s : State) (k : Nat) (f : CtxBlock → CtxBlock) : (s.updCtx k f).slots = s.slots := rfl
@[simp] theorem State.updCtx_coreLast (s : State) (k : Nat) (f : CtxBlock → CtxBlock) : (s.updCtx k f).coreLast = s.coreLast := rfl
@[simp] theorem State.updCtx_capDuty (s : State) (k : Nat) (f : CtxBlock → CtxBlock) : (s.updCtx k f).capDuty = s.capDuty := rfl
@[simp] theorem State.updCtx_winEnergy (s : State) (k : Nat) (f : CtxBlock → CtxBlock) : (s.updCtx k f).winEnergy = s.winEnergy := rfl
@[simp] theorem State.updCtx_winBudget (s : State) (k : Nat) (f : CtxBlock → CtxBlock) : (s.updCtx k f).winBudget = s.winBudget := rfl
@[simp] theorem State.updCtx_tokWindow (s : State) (k : Nat) (f : CtxBlock → CtxBlock) : (s.updCtx k f).tokWindow = s.tokWindow := rfl
@[simp] theorem State.updCtx_fabric (s : State) (k : Nat) (f : CtxBlock → CtxBlock) : (s.updCtx k f).fabric = s.fabric := rfl
@[simp] theorem State.updCtx_rel (s : State) (k : Nat) (f : CtxBlock → CtxBlock) : (s.updCtx k f).rel = s.rel := rfl
@[simp] theorem State.updCtx_stopped (s : State) (k : Nat) (f : CtxBlock → CtxBlock) : (s.updCtx k f).stopped = s.stopped := rfl
@[simp] theorem State.updCtx_powerOff (s : State) (k : Nat) (f : CtxBlock → CtxBlock) : (s.updCtx k f).powerOff = s.powerOff := rfl

/-! ## State.updPort -/

@[simp] theorem State.updPort_agenda (s : State) (i : Nat) (f : Port → Port) : (s.updPort i f).agenda = s.agenda := rfl
@[simp] theorem State.updPort_cur (s : State) (i : Nat) (f : Port → Port) : (s.updPort i f).cur = s.cur := rfl
@[simp] theorem State.updPort_pairRead (s : State) (i : Nat) (f : Port → Port) : (s.updPort i f).pairRead = s.pairRead := rfl
@[simp] theorem State.updPort_trapped (s : State) (i : Nat) (f : Port → Port) : (s.updPort i f).trapped = s.trapped := rfl
@[simp] theorem State.updPort_fresh (s : State) (i : Nat) (f : Port → Port) : (s.updPort i f).fresh = s.fresh := rfl
@[simp] theorem State.updPort_drawer (s : State) (i : Nat) (f : Port → Port) : (s.updPort i f).drawer = s.drawer := rfl
@[simp] theorem State.updPort_drawn (s : State) (i : Nat) (f : Port → Port) : (s.updPort i f).drawn = s.drawn := rfl
@[simp] theorem State.updPort_nextId (s : State) (i : Nat) (f : Port → Port) : (s.updPort i f).nextId = s.nextId := rfl
@[simp] theorem State.updPort_ftime (s : State) (i : Nat) (f : Port → Port) : (s.updPort i f).ftime = s.ftime := rfl
@[simp] theorem State.updPort_uptime (s : State) (i : Nat) (f : Port → Port) : (s.updPort i f).uptime = s.uptime := rfl
@[simp] theorem State.updPort_mem (s : State) (i : Nat) (f : Port → Port) : (s.updPort i f).mem = s.mem := rfl
@[simp] theorem State.updPort_hostMem (s : State) (i : Nat) (f : Port → Port) : (s.updPort i f).hostMem = s.hostMem := rfl
@[simp] theorem State.updPort_peerMem (s : State) (i : Nat) (f : Port → Port) : (s.updPort i f).peerMem = s.peerMem := rfl
@[simp] theorem State.updPort_snoop (s : State) (i : Nat) (f : Port → Port) : (s.updPort i f).snoop = s.snoop := rfl
@[simp] theorem State.updPort_mgmt (s : State) (i : Nat) (f : Port → Port) : (s.updPort i f).mgmt = s.mgmt := rfl
@[simp] theorem State.updPort_csr (s : State) (i : Nat) (f : Port → Port) : (s.updPort i f).csr = s.csr := rfl
@[simp] theorem State.updPort_blocks (s : State) (i : Nat) (f : Port → Port) : (s.updPort i f).blocks = s.blocks := rfl
@[simp] theorem State.updPort_launches (s : State) (i : Nat) (f : Port → Port) : (s.updPort i f).launches = s.launches := rfl
@[simp] theorem State.updPort_windows (s : State) (i : Nat) (f : Port → Port) : (s.updPort i f).windows = s.windows := rfl
@[simp] theorem State.updPort_cmds (s : State) (i : Nat) (f : Port → Port) : (s.updPort i f).cmds = s.cmds := rfl
@[simp] theorem State.updPort_deferred (s : State) (i : Nat) (f : Port → Port) : (s.updPort i f).deferred = s.deferred := rfl
@[simp] theorem State.updPort_searches (s : State) (i : Nat) (f : Port → Port) : (s.updPort i f).searches = s.searches := rfl
@[simp] theorem State.updPort_queries (s : State) (i : Nat) (f : Port → Port) : (s.updPort i f).queries = s.queries := rfl
@[simp] theorem State.updPort_acmReqs (s : State) (i : Nat) (f : Port → Port) : (s.updPort i f).acmReqs = s.acmReqs := rfl
@[simp] theorem State.updPort_acmLeft (s : State) (i : Nat) (f : Port → Port) : (s.updPort i f).acmLeft = s.acmLeft := rfl
@[simp] theorem State.updPort_waiting (s : State) (i : Nat) (f : Port → Port) : (s.updPort i f).waiting = s.waiting := rfl
@[simp] theorem State.updPort_events (s : State) (i : Nat) (f : Port → Port) : (s.updPort i f).events = s.events := rfl
@[simp] theorem State.updPort_evSeq (s : State) (i : Nat) (f : Port → Port) : (s.updPort i f).evSeq = s.evSeq := rfl
@[simp] theorem State.updPort_tlb (s : State) (i : Nat) (f : Port → Port) : (s.updPort i f).tlb = s.tlb := rfl
@[simp] theorem State.updPort_cache (s : State) (i : Nat) (f : Port → Port) : (s.updPort i f).cache = s.cache := rfl
@[simp] theorem State.updPort_l2 (s : State) (i : Nat) (f : Port → Port) : (s.updPort i f).l2 = s.l2 := rfl
@[simp] theorem State.updPort_stats (s : State) (i : Nat) (f : Port → Port) : (s.updPort i f).stats = s.stats := rfl
@[simp] theorem State.updPort_queues (s : State) (i : Nat) (f : Port → Port) : (s.updPort i f).queues = s.queues := rfl
@[simp] theorem State.updPort_tenants (s : State) (i : Nat) (f : Port → Port) : (s.updPort i f).tenants = s.tenants := rfl
@[simp] theorem State.updPort_ctxs (s : State) (i : Nat) (f : Port → Port) : (s.updPort i f).ctxs = s.ctxs := rfl
@[simp] theorem State.updPort_sensors (s : State) (i : Nat) (f : Port → Port) : (s.updPort i f).sensors = s.sensors := rfl
@[simp] theorem State.updPort_supplies (s : State) (i : Nat) (f : Port → Port) : (s.updPort i f).supplies = s.supplies := rfl
@[simp] theorem State.updPort_columns (s : State) (i : Nat) (f : Port → Port) : (s.updPort i f).columns = s.columns := rfl
@[simp] theorem State.updPort_slots (s : State) (i : Nat) (f : Port → Port) : (s.updPort i f).slots = s.slots := rfl
@[simp] theorem State.updPort_coreLast (s : State) (i : Nat) (f : Port → Port) : (s.updPort i f).coreLast = s.coreLast := rfl
@[simp] theorem State.updPort_capDuty (s : State) (i : Nat) (f : Port → Port) : (s.updPort i f).capDuty = s.capDuty := rfl
@[simp] theorem State.updPort_winEnergy (s : State) (i : Nat) (f : Port → Port) : (s.updPort i f).winEnergy = s.winEnergy := rfl
@[simp] theorem State.updPort_winBudget (s : State) (i : Nat) (f : Port → Port) : (s.updPort i f).winBudget = s.winBudget := rfl
@[simp] theorem State.updPort_tokWindow (s : State) (i : Nat) (f : Port → Port) : (s.updPort i f).tokWindow = s.tokWindow := rfl
@[simp] theorem State.updPort_fabric (s : State) (i : Nat) (f : Port → Port) : (s.updPort i f).fabric = { s.fabric with ports := updAt s.fabric.ports i f } := rfl
@[simp] theorem State.updPort_rel (s : State) (i : Nat) (f : Port → Port) : (s.updPort i f).rel = s.rel := rfl
@[simp] theorem State.updPort_stopped (s : State) (i : Nat) (f : Port → Port) : (s.updPort i f).stopped = s.stopped := rfl
@[simp] theorem State.updPort_powerOff (s : State) (i : Nat) (f : Port → Port) : (s.updPort i f).powerOff = s.powerOff := rfl

/-! ## State.setRequests -/

@[simp] theorem State.setRequests_agenda (s : State) (rs : List Request) : (s.setRequests rs).agenda = s.agenda := rfl
@[simp] theorem State.setRequests_cur (s : State) (rs : List Request) : (s.setRequests rs).cur = s.cur := rfl
@[simp] theorem State.setRequests_pairRead (s : State) (rs : List Request) : (s.setRequests rs).pairRead = s.pairRead := rfl
@[simp] theorem State.setRequests_trapped (s : State) (rs : List Request) : (s.setRequests rs).trapped = s.trapped := rfl
@[simp] theorem State.setRequests_fresh (s : State) (rs : List Request) : (s.setRequests rs).fresh = s.fresh := rfl
@[simp] theorem State.setRequests_drawer (s : State) (rs : List Request) : (s.setRequests rs).drawer = s.drawer := rfl
@[simp] theorem State.setRequests_drawn (s : State) (rs : List Request) : (s.setRequests rs).drawn = s.drawn := rfl
@[simp] theorem State.setRequests_nextId (s : State) (rs : List Request) : (s.setRequests rs).nextId = s.nextId := rfl
@[simp] theorem State.setRequests_ftime (s : State) (rs : List Request) : (s.setRequests rs).ftime = s.ftime := rfl
@[simp] theorem State.setRequests_uptime (s : State) (rs : List Request) : (s.setRequests rs).uptime = s.uptime := rfl
@[simp] theorem State.setRequests_mem (s : State) (rs : List Request) : (s.setRequests rs).mem = s.mem := rfl
@[simp] theorem State.setRequests_hostMem (s : State) (rs : List Request) : (s.setRequests rs).hostMem = s.hostMem := rfl
@[simp] theorem State.setRequests_peerMem (s : State) (rs : List Request) : (s.setRequests rs).peerMem = s.peerMem := rfl
@[simp] theorem State.setRequests_snoop (s : State) (rs : List Request) : (s.setRequests rs).snoop = s.snoop := rfl
@[simp] theorem State.setRequests_mgmt (s : State) (rs : List Request) : (s.setRequests rs).mgmt = s.mgmt := rfl
@[simp] theorem State.setRequests_csr (s : State) (rs : List Request) : (s.setRequests rs).csr = s.csr := rfl
@[simp] theorem State.setRequests_blocks (s : State) (rs : List Request) : (s.setRequests rs).blocks = s.blocks := rfl
@[simp] theorem State.setRequests_launches (s : State) (rs : List Request) : (s.setRequests rs).launches = s.launches := rfl
@[simp] theorem State.setRequests_windows (s : State) (rs : List Request) : (s.setRequests rs).windows = s.windows := rfl
@[simp] theorem State.setRequests_cmds (s : State) (rs : List Request) : (s.setRequests rs).cmds = s.cmds := rfl
@[simp] theorem State.setRequests_deferred (s : State) (rs : List Request) : (s.setRequests rs).deferred = s.deferred := rfl
@[simp] theorem State.setRequests_searches (s : State) (rs : List Request) : (s.setRequests rs).searches = s.searches := rfl
@[simp] theorem State.setRequests_queries (s : State) (rs : List Request) : (s.setRequests rs).queries = s.queries := rfl
@[simp] theorem State.setRequests_acmReqs (s : State) (rs : List Request) : (s.setRequests rs).acmReqs = s.acmReqs := rfl
@[simp] theorem State.setRequests_acmLeft (s : State) (rs : List Request) : (s.setRequests rs).acmLeft = s.acmLeft := rfl
@[simp] theorem State.setRequests_waiting (s : State) (rs : List Request) : (s.setRequests rs).waiting = s.waiting := rfl
@[simp] theorem State.setRequests_events (s : State) (rs : List Request) : (s.setRequests rs).events = s.events := rfl
@[simp] theorem State.setRequests_evSeq (s : State) (rs : List Request) : (s.setRequests rs).evSeq = s.evSeq := rfl
@[simp] theorem State.setRequests_tlb (s : State) (rs : List Request) : (s.setRequests rs).tlb = s.tlb := rfl
@[simp] theorem State.setRequests_cache (s : State) (rs : List Request) : (s.setRequests rs).cache = s.cache := rfl
@[simp] theorem State.setRequests_l2 (s : State) (rs : List Request) : (s.setRequests rs).l2 = s.l2 := rfl
@[simp] theorem State.setRequests_stats (s : State) (rs : List Request) : (s.setRequests rs).stats = s.stats := rfl
@[simp] theorem State.setRequests_queues (s : State) (rs : List Request) : (s.setRequests rs).queues = s.queues := rfl
@[simp] theorem State.setRequests_tenants (s : State) (rs : List Request) : (s.setRequests rs).tenants = s.tenants := rfl
@[simp] theorem State.setRequests_ctxs (s : State) (rs : List Request) : (s.setRequests rs).ctxs = s.ctxs := rfl
@[simp] theorem State.setRequests_sensors (s : State) (rs : List Request) : (s.setRequests rs).sensors = s.sensors := rfl
@[simp] theorem State.setRequests_supplies (s : State) (rs : List Request) : (s.setRequests rs).supplies = s.supplies := rfl
@[simp] theorem State.setRequests_columns (s : State) (rs : List Request) : (s.setRequests rs).columns = s.columns := rfl
@[simp] theorem State.setRequests_slots (s : State) (rs : List Request) : (s.setRequests rs).slots = s.slots := rfl
@[simp] theorem State.setRequests_coreLast (s : State) (rs : List Request) : (s.setRequests rs).coreLast = s.coreLast := rfl
@[simp] theorem State.setRequests_capDuty (s : State) (rs : List Request) : (s.setRequests rs).capDuty = s.capDuty := rfl
@[simp] theorem State.setRequests_winEnergy (s : State) (rs : List Request) : (s.setRequests rs).winEnergy = s.winEnergy := rfl
@[simp] theorem State.setRequests_winBudget (s : State) (rs : List Request) : (s.setRequests rs).winBudget = s.winBudget := rfl
@[simp] theorem State.setRequests_tokWindow (s : State) (rs : List Request) : (s.setRequests rs).tokWindow = s.tokWindow := rfl
@[simp] theorem State.setRequests_fabric (s : State) (rs : List Request) : (s.setRequests rs).fabric = { s.fabric with requests := rs } := rfl
@[simp] theorem State.setRequests_rel (s : State) (rs : List Request) : (s.setRequests rs).rel = s.rel := rfl
@[simp] theorem State.setRequests_stopped (s : State) (rs : List Request) : (s.setRequests rs).stopped = s.stopped := rfl
@[simp] theorem State.setRequests_powerOff (s : State) (rs : List Request) : (s.setRequests rs).powerOff = s.powerOff := rfl

/-! ## State.setPend -/

@[simp] theorem State.setPend_agenda (s : State) (i : Nat) : (s.setPend i).agenda = s.agenda := rfl
@[simp] theorem State.setPend_cur (s : State) (i : Nat) : (s.setPend i).cur = s.cur := rfl
@[simp] theorem State.setPend_pairRead (s : State) (i : Nat) : (s.setPend i).pairRead = s.pairRead := rfl
@[simp] theorem State.setPend_trapped (s : State) (i : Nat) : (s.setPend i).trapped = s.trapped := rfl
@[simp] theorem State.setPend_fresh (s : State) (i : Nat) : (s.setPend i).fresh = s.fresh := rfl
@[simp] theorem State.setPend_drawer (s : State) (i : Nat) : (s.setPend i).drawer = s.drawer := rfl
@[simp] theorem State.setPend_drawn (s : State) (i : Nat) : (s.setPend i).drawn = s.drawn := rfl
@[simp] theorem State.setPend_nextId (s : State) (i : Nat) : (s.setPend i).nextId = s.nextId := rfl
@[simp] theorem State.setPend_ftime (s : State) (i : Nat) : (s.setPend i).ftime = s.ftime := rfl
@[simp] theorem State.setPend_uptime (s : State) (i : Nat) : (s.setPend i).uptime = s.uptime := rfl
@[simp] theorem State.setPend_mem (s : State) (i : Nat) : (s.setPend i).mem = s.mem := rfl
@[simp] theorem State.setPend_hostMem (s : State) (i : Nat) : (s.setPend i).hostMem = s.hostMem := rfl
@[simp] theorem State.setPend_peerMem (s : State) (i : Nat) : (s.setPend i).peerMem = s.peerMem := rfl
@[simp] theorem State.setPend_snoop (s : State) (i : Nat) : (s.setPend i).snoop = s.snoop := rfl
@[simp] theorem State.setPend_mgmt (s : State) (i : Nat) : (s.setPend i).mgmt = s.mgmt := rfl
@[simp] theorem State.setPend_csr (s : State) (i : Nat) : (s.setPend i).csr = { s.csr with intPend := s.csr.intPend ||| BitVec.ofNat 9 (2 ^ i) } := rfl
@[simp] theorem State.setPend_blocks (s : State) (i : Nat) : (s.setPend i).blocks = s.blocks := rfl
@[simp] theorem State.setPend_launches (s : State) (i : Nat) : (s.setPend i).launches = s.launches := rfl
@[simp] theorem State.setPend_windows (s : State) (i : Nat) : (s.setPend i).windows = s.windows := rfl
@[simp] theorem State.setPend_cmds (s : State) (i : Nat) : (s.setPend i).cmds = s.cmds := rfl
@[simp] theorem State.setPend_deferred (s : State) (i : Nat) : (s.setPend i).deferred = s.deferred := rfl
@[simp] theorem State.setPend_searches (s : State) (i : Nat) : (s.setPend i).searches = s.searches := rfl
@[simp] theorem State.setPend_queries (s : State) (i : Nat) : (s.setPend i).queries = s.queries := rfl
@[simp] theorem State.setPend_acmReqs (s : State) (i : Nat) : (s.setPend i).acmReqs = s.acmReqs := rfl
@[simp] theorem State.setPend_acmLeft (s : State) (i : Nat) : (s.setPend i).acmLeft = s.acmLeft := rfl
@[simp] theorem State.setPend_waiting (s : State) (i : Nat) : (s.setPend i).waiting = s.waiting := rfl
@[simp] theorem State.setPend_events (s : State) (i : Nat) : (s.setPend i).events = s.events := rfl
@[simp] theorem State.setPend_evSeq (s : State) (i : Nat) : (s.setPend i).evSeq = s.evSeq := rfl
@[simp] theorem State.setPend_tlb (s : State) (i : Nat) : (s.setPend i).tlb = s.tlb := rfl
@[simp] theorem State.setPend_cache (s : State) (i : Nat) : (s.setPend i).cache = s.cache := rfl
@[simp] theorem State.setPend_l2 (s : State) (i : Nat) : (s.setPend i).l2 = s.l2 := rfl
@[simp] theorem State.setPend_stats (s : State) (i : Nat) : (s.setPend i).stats = s.stats := rfl
@[simp] theorem State.setPend_queues (s : State) (i : Nat) : (s.setPend i).queues = s.queues := rfl
@[simp] theorem State.setPend_tenants (s : State) (i : Nat) : (s.setPend i).tenants = s.tenants := rfl
@[simp] theorem State.setPend_ctxs (s : State) (i : Nat) : (s.setPend i).ctxs = s.ctxs := rfl
@[simp] theorem State.setPend_sensors (s : State) (i : Nat) : (s.setPend i).sensors = s.sensors := rfl
@[simp] theorem State.setPend_supplies (s : State) (i : Nat) : (s.setPend i).supplies = s.supplies := rfl
@[simp] theorem State.setPend_columns (s : State) (i : Nat) : (s.setPend i).columns = s.columns := rfl
@[simp] theorem State.setPend_slots (s : State) (i : Nat) : (s.setPend i).slots = s.slots := rfl
@[simp] theorem State.setPend_coreLast (s : State) (i : Nat) : (s.setPend i).coreLast = s.coreLast := rfl
@[simp] theorem State.setPend_capDuty (s : State) (i : Nat) : (s.setPend i).capDuty = s.capDuty := rfl
@[simp] theorem State.setPend_winEnergy (s : State) (i : Nat) : (s.setPend i).winEnergy = s.winEnergy := rfl
@[simp] theorem State.setPend_winBudget (s : State) (i : Nat) : (s.setPend i).winBudget = s.winBudget := rfl
@[simp] theorem State.setPend_tokWindow (s : State) (i : Nat) : (s.setPend i).tokWindow = s.tokWindow := rfl
@[simp] theorem State.setPend_fabric (s : State) (i : Nat) : (s.setPend i).fabric = s.fabric := rfl
@[simp] theorem State.setPend_rel (s : State) (i : Nat) : (s.setPend i).rel = s.rel := rfl
@[simp] theorem State.setPend_stopped (s : State) (i : Nat) : (s.setPend i).stopped = s.stopped := rfl
@[simp] theorem State.setPend_powerOff (s : State) (i : Nat) : (s.setPend i).powerOff = s.powerOff := rfl

/-! ## State.raise -/

@[simp] theorem State.raise_agenda (s : State) (e : Event) : (s.raise e).agenda = s.agenda := rfl
@[simp] theorem State.raise_cur (s : State) (e : Event) : (s.raise e).cur = s.cur := rfl
@[simp] theorem State.raise_pairRead (s : State) (e : Event) : (s.raise e).pairRead = s.pairRead := rfl
@[simp] theorem State.raise_trapped (s : State) (e : Event) : (s.raise e).trapped = s.trapped := rfl
@[simp] theorem State.raise_fresh (s : State) (e : Event) : (s.raise e).fresh = s.fresh := rfl
@[simp] theorem State.raise_drawer (s : State) (e : Event) : (s.raise e).drawer = s.drawer := rfl
@[simp] theorem State.raise_drawn (s : State) (e : Event) : (s.raise e).drawn = s.drawn := rfl
@[simp] theorem State.raise_nextId (s : State) (e : Event) : (s.raise e).nextId = s.nextId := rfl
@[simp] theorem State.raise_ftime (s : State) (e : Event) : (s.raise e).ftime = s.ftime := rfl
@[simp] theorem State.raise_uptime (s : State) (e : Event) : (s.raise e).uptime = s.uptime := rfl
@[simp] theorem State.raise_mem (s : State) (e : Event) : (s.raise e).mem = s.mem := rfl
@[simp] theorem State.raise_hostMem (s : State) (e : Event) : (s.raise e).hostMem = s.hostMem := rfl
@[simp] theorem State.raise_peerMem (s : State) (e : Event) : (s.raise e).peerMem = s.peerMem := rfl
@[simp] theorem State.raise_snoop (s : State) (e : Event) : (s.raise e).snoop = s.snoop := rfl
@[simp] theorem State.raise_mgmt (s : State) (e : Event) : (s.raise e).mgmt = s.mgmt := rfl
@[simp] theorem State.raise_csr (s : State) (e : Event) : (s.raise e).csr = s.csr := rfl
@[simp] theorem State.raise_blocks (s : State) (e : Event) : (s.raise e).blocks = s.blocks := rfl
@[simp] theorem State.raise_launches (s : State) (e : Event) : (s.raise e).launches = s.launches := rfl
@[simp] theorem State.raise_windows (s : State) (e : Event) : (s.raise e).windows = s.windows := rfl
@[simp] theorem State.raise_cmds (s : State) (e : Event) : (s.raise e).cmds = s.cmds := rfl
@[simp] theorem State.raise_deferred (s : State) (e : Event) : (s.raise e).deferred = s.deferred := rfl
@[simp] theorem State.raise_searches (s : State) (e : Event) : (s.raise e).searches = s.searches := rfl
@[simp] theorem State.raise_queries (s : State) (e : Event) : (s.raise e).queries = s.queries := rfl
@[simp] theorem State.raise_acmReqs (s : State) (e : Event) : (s.raise e).acmReqs = s.acmReqs := rfl
@[simp] theorem State.raise_acmLeft (s : State) (e : Event) : (s.raise e).acmLeft = s.acmLeft := rfl
@[simp] theorem State.raise_waiting (s : State) (e : Event) : (s.raise e).waiting = s.waiting ++ [e] := rfl
@[simp] theorem State.raise_events (s : State) (e : Event) : (s.raise e).events = s.events := rfl
@[simp] theorem State.raise_evSeq (s : State) (e : Event) : (s.raise e).evSeq = s.evSeq := rfl
@[simp] theorem State.raise_tlb (s : State) (e : Event) : (s.raise e).tlb = s.tlb := rfl
@[simp] theorem State.raise_cache (s : State) (e : Event) : (s.raise e).cache = s.cache := rfl
@[simp] theorem State.raise_l2 (s : State) (e : Event) : (s.raise e).l2 = s.l2 := rfl
@[simp] theorem State.raise_stats (s : State) (e : Event) : (s.raise e).stats = s.stats := rfl
@[simp] theorem State.raise_queues (s : State) (e : Event) : (s.raise e).queues = s.queues := rfl
@[simp] theorem State.raise_tenants (s : State) (e : Event) : (s.raise e).tenants = s.tenants := rfl
@[simp] theorem State.raise_ctxs (s : State) (e : Event) : (s.raise e).ctxs = s.ctxs := rfl
@[simp] theorem State.raise_sensors (s : State) (e : Event) : (s.raise e).sensors = s.sensors := rfl
@[simp] theorem State.raise_supplies (s : State) (e : Event) : (s.raise e).supplies = s.supplies := rfl
@[simp] theorem State.raise_columns (s : State) (e : Event) : (s.raise e).columns = s.columns := rfl
@[simp] theorem State.raise_slots (s : State) (e : Event) : (s.raise e).slots = s.slots := rfl
@[simp] theorem State.raise_coreLast (s : State) (e : Event) : (s.raise e).coreLast = s.coreLast := rfl
@[simp] theorem State.raise_capDuty (s : State) (e : Event) : (s.raise e).capDuty = s.capDuty := rfl
@[simp] theorem State.raise_winEnergy (s : State) (e : Event) : (s.raise e).winEnergy = s.winEnergy := rfl
@[simp] theorem State.raise_winBudget (s : State) (e : Event) : (s.raise e).winBudget = s.winBudget := rfl
@[simp] theorem State.raise_tokWindow (s : State) (e : Event) : (s.raise e).tokWindow = s.tokWindow := rfl
@[simp] theorem State.raise_fabric (s : State) (e : Event) : (s.raise e).fabric = s.fabric := rfl
@[simp] theorem State.raise_rel (s : State) (e : Event) : (s.raise e).rel = s.rel := rfl
@[simp] theorem State.raise_stopped (s : State) (e : Event) : (s.raise e).stopped = s.stopped := rfl
@[simp] theorem State.raise_powerOff (s : State) (e : Event) : (s.raise e).powerOff = s.powerOff := rfl

/-! ## State.drawFor -/

@[simp] theorem State.drawFor_agenda (s : State) (k : Nat) : (s.drawFor k).agenda = s.agenda := rfl
@[simp] theorem State.drawFor_cur (s : State) (k : Nat) : (s.drawFor k).cur = s.cur := rfl
@[simp] theorem State.drawFor_pairRead (s : State) (k : Nat) : (s.drawFor k).pairRead = s.pairRead := rfl
@[simp] theorem State.drawFor_trapped (s : State) (k : Nat) : (s.drawFor k).trapped = s.trapped := rfl
@[simp] theorem State.drawFor_fresh (s : State) (k : Nat) : (s.drawFor k).fresh = if k = s.drawer then s.fresh else s.drawn.getD k 0 := rfl
@[simp] theorem State.drawFor_drawer (s : State) (k : Nat) : (s.drawFor k).drawer = k := rfl
@[simp] theorem State.drawFor_drawn (s : State) (k : Nat) : (s.drawFor k).drawn = setAt s.drawn s.drawer s.fresh := rfl
@[simp] theorem State.drawFor_nextId (s : State) (k : Nat) : (s.drawFor k).nextId = s.nextId := rfl
@[simp] theorem State.drawFor_ftime (s : State) (k : Nat) : (s.drawFor k).ftime = s.ftime := rfl
@[simp] theorem State.drawFor_uptime (s : State) (k : Nat) : (s.drawFor k).uptime = s.uptime := rfl
@[simp] theorem State.drawFor_mem (s : State) (k : Nat) : (s.drawFor k).mem = s.mem := rfl
@[simp] theorem State.drawFor_hostMem (s : State) (k : Nat) : (s.drawFor k).hostMem = s.hostMem := rfl
@[simp] theorem State.drawFor_peerMem (s : State) (k : Nat) : (s.drawFor k).peerMem = s.peerMem := rfl
@[simp] theorem State.drawFor_snoop (s : State) (k : Nat) : (s.drawFor k).snoop = s.snoop := rfl
@[simp] theorem State.drawFor_mgmt (s : State) (k : Nat) : (s.drawFor k).mgmt = s.mgmt := rfl
@[simp] theorem State.drawFor_csr (s : State) (k : Nat) : (s.drawFor k).csr = s.csr := rfl
@[simp] theorem State.drawFor_blocks (s : State) (k : Nat) : (s.drawFor k).blocks = s.blocks := rfl
@[simp] theorem State.drawFor_launches (s : State) (k : Nat) : (s.drawFor k).launches = s.launches := rfl
@[simp] theorem State.drawFor_windows (s : State) (k : Nat) : (s.drawFor k).windows = s.windows := rfl
@[simp] theorem State.drawFor_cmds (s : State) (k : Nat) : (s.drawFor k).cmds = s.cmds := rfl
@[simp] theorem State.drawFor_deferred (s : State) (k : Nat) : (s.drawFor k).deferred = s.deferred := rfl
@[simp] theorem State.drawFor_searches (s : State) (k : Nat) : (s.drawFor k).searches = s.searches := rfl
@[simp] theorem State.drawFor_queries (s : State) (k : Nat) : (s.drawFor k).queries = s.queries := rfl
@[simp] theorem State.drawFor_acmReqs (s : State) (k : Nat) : (s.drawFor k).acmReqs = s.acmReqs := rfl
@[simp] theorem State.drawFor_acmLeft (s : State) (k : Nat) : (s.drawFor k).acmLeft = s.acmLeft := rfl
@[simp] theorem State.drawFor_waiting (s : State) (k : Nat) : (s.drawFor k).waiting = s.waiting := rfl
@[simp] theorem State.drawFor_events (s : State) (k : Nat) : (s.drawFor k).events = s.events := rfl
@[simp] theorem State.drawFor_evSeq (s : State) (k : Nat) : (s.drawFor k).evSeq = s.evSeq := rfl
@[simp] theorem State.drawFor_tlb (s : State) (k : Nat) : (s.drawFor k).tlb = s.tlb := rfl
@[simp] theorem State.drawFor_cache (s : State) (k : Nat) : (s.drawFor k).cache = s.cache := rfl
@[simp] theorem State.drawFor_l2 (s : State) (k : Nat) : (s.drawFor k).l2 = s.l2 := rfl
@[simp] theorem State.drawFor_stats (s : State) (k : Nat) : (s.drawFor k).stats = s.stats := rfl
@[simp] theorem State.drawFor_queues (s : State) (k : Nat) : (s.drawFor k).queues = s.queues := rfl
@[simp] theorem State.drawFor_tenants (s : State) (k : Nat) : (s.drawFor k).tenants = s.tenants := rfl
@[simp] theorem State.drawFor_ctxs (s : State) (k : Nat) : (s.drawFor k).ctxs = s.ctxs := rfl
@[simp] theorem State.drawFor_sensors (s : State) (k : Nat) : (s.drawFor k).sensors = s.sensors := rfl
@[simp] theorem State.drawFor_supplies (s : State) (k : Nat) : (s.drawFor k).supplies = s.supplies := rfl
@[simp] theorem State.drawFor_columns (s : State) (k : Nat) : (s.drawFor k).columns = s.columns := rfl
@[simp] theorem State.drawFor_slots (s : State) (k : Nat) : (s.drawFor k).slots = s.slots := rfl
@[simp] theorem State.drawFor_coreLast (s : State) (k : Nat) : (s.drawFor k).coreLast = s.coreLast := rfl
@[simp] theorem State.drawFor_capDuty (s : State) (k : Nat) : (s.drawFor k).capDuty = s.capDuty := rfl
@[simp] theorem State.drawFor_winEnergy (s : State) (k : Nat) : (s.drawFor k).winEnergy = s.winEnergy := rfl
@[simp] theorem State.drawFor_winBudget (s : State) (k : Nat) : (s.drawFor k).winBudget = s.winBudget := rfl
@[simp] theorem State.drawFor_tokWindow (s : State) (k : Nat) : (s.drawFor k).tokWindow = s.tokWindow := rfl
@[simp] theorem State.drawFor_fabric (s : State) (k : Nat) : (s.drawFor k).fabric = s.fabric := rfl
@[simp] theorem State.drawFor_rel (s : State) (k : Nat) : (s.drawFor k).rel = s.rel := rfl
@[simp] theorem State.drawFor_stopped (s : State) (k : Nat) : (s.drawFor k).stopped = s.stopped := rfl
@[simp] theorem State.drawFor_powerOff (s : State) (k : Nat) : (s.drawFor k).powerOff = s.powerOff := rfl

/-! ## State.tidy -/

@[simp] theorem State.tidy_agenda (s : State) : (s.tidy).agenda = s.agenda := rfl
@[simp] theorem State.tidy_cur (s : State) : (s.tidy).cur = .mgmt := rfl
@[simp] theorem State.tidy_pairRead (s : State) : (s.tidy).pairRead = none := rfl
@[simp] theorem State.tidy_trapped (s : State) : (s.tidy).trapped = none := rfl
@[simp] theorem State.tidy_fresh (s : State) : (s.tidy).fresh = if 64 = s.drawer then s.fresh + 1 else s.drawn.getD 64 0 := rfl
@[simp] theorem State.tidy_drawer (s : State) : (s.tidy).drawer = 64 := rfl
@[simp] theorem State.tidy_drawn (s : State) : (s.tidy).drawn = setAt s.drawn s.drawer (s.fresh + 1) := rfl
@[simp] theorem State.tidy_nextId (s : State) : (s.tidy).nextId = s.nextId := rfl
@[simp] theorem State.tidy_ftime (s : State) : (s.tidy).ftime = s.ftime := rfl
@[simp] theorem State.tidy_uptime (s : State) : (s.tidy).uptime = s.uptime := rfl
@[simp] theorem State.tidy_mem (s : State) : (s.tidy).mem = s.mem := rfl
@[simp] theorem State.tidy_hostMem (s : State) : (s.tidy).hostMem = s.hostMem := rfl
@[simp] theorem State.tidy_peerMem (s : State) : (s.tidy).peerMem = s.peerMem := rfl
@[simp] theorem State.tidy_snoop (s : State) : (s.tidy).snoop = s.snoop := rfl
@[simp] theorem State.tidy_mgmt (s : State) : (s.tidy).mgmt = s.mgmt := rfl
@[simp] theorem State.tidy_csr (s : State) : (s.tidy).csr = s.csr := rfl
@[simp] theorem State.tidy_blocks (s : State) : (s.tidy).blocks = s.blocks := rfl
@[simp] theorem State.tidy_launches (s : State) : (s.tidy).launches = s.launches := rfl
@[simp] theorem State.tidy_windows (s : State) : (s.tidy).windows = s.windows := rfl
@[simp] theorem State.tidy_cmds (s : State) : (s.tidy).cmds = s.cmds := rfl
@[simp] theorem State.tidy_deferred (s : State) : (s.tidy).deferred = s.deferred := rfl
@[simp] theorem State.tidy_searches (s : State) : (s.tidy).searches = s.searches := rfl
@[simp] theorem State.tidy_queries (s : State) : (s.tidy).queries = s.queries := rfl
@[simp] theorem State.tidy_acmReqs (s : State) : (s.tidy).acmReqs = s.acmReqs := rfl
@[simp] theorem State.tidy_acmLeft (s : State) : (s.tidy).acmLeft = s.acmLeft := rfl
@[simp] theorem State.tidy_waiting (s : State) : (s.tidy).waiting = s.waiting := rfl
@[simp] theorem State.tidy_events (s : State) : (s.tidy).events = s.events := rfl
@[simp] theorem State.tidy_evSeq (s : State) : (s.tidy).evSeq = s.evSeq := rfl
@[simp] theorem State.tidy_tlb (s : State) : (s.tidy).tlb = s.tlb := rfl
@[simp] theorem State.tidy_cache (s : State) : (s.tidy).cache = s.cache := rfl
@[simp] theorem State.tidy_l2 (s : State) : (s.tidy).l2 = s.l2 := rfl
@[simp] theorem State.tidy_stats (s : State) : (s.tidy).stats = s.stats := rfl
@[simp] theorem State.tidy_queues (s : State) : (s.tidy).queues = s.queues := rfl
@[simp] theorem State.tidy_tenants (s : State) : (s.tidy).tenants = s.tenants := rfl
@[simp] theorem State.tidy_ctxs (s : State) : (s.tidy).ctxs = s.ctxs := rfl
@[simp] theorem State.tidy_sensors (s : State) : (s.tidy).sensors = s.sensors := rfl
@[simp] theorem State.tidy_supplies (s : State) : (s.tidy).supplies = s.supplies := rfl
@[simp] theorem State.tidy_columns (s : State) : (s.tidy).columns = s.columns := rfl
@[simp] theorem State.tidy_slots (s : State) : (s.tidy).slots = s.slots := rfl
@[simp] theorem State.tidy_coreLast (s : State) : (s.tidy).coreLast = s.coreLast := rfl
@[simp] theorem State.tidy_capDuty (s : State) : (s.tidy).capDuty = s.capDuty := rfl
@[simp] theorem State.tidy_winEnergy (s : State) : (s.tidy).winEnergy = s.winEnergy := rfl
@[simp] theorem State.tidy_winBudget (s : State) : (s.tidy).winBudget = s.winBudget := rfl
@[simp] theorem State.tidy_tokWindow (s : State) : (s.tidy).tokWindow = s.tokWindow := rfl
@[simp] theorem State.tidy_fabric (s : State) : (s.tidy).fabric = s.fabric := rfl
@[simp] theorem State.tidy_rel (s : State) : (s.tidy).rel = s.rel := rfl
@[simp] theorem State.tidy_stopped (s : State) : (s.tidy).stopped = s.stopped := rfl
@[simp] theorem State.tidy_powerOff (s : State) : (s.tidy).powerOff = s.powerOff := rfl

end Sys2Proof.Machine
end

