-- ==== Sys2Proof/Tests/Slice0.lean ====
section
/-!
SUPPORT. Tests. Words of every instruction of the instruction set written out from the spec's encodings and decoded;
ill-formed terms that each check of WellFormed refuses; single steps on small states; and for every statement with
hypotheses a concrete state and operands that meet them together.
-/

set_option Elab.async false

namespace Sys2Proof.Tests

open Sys2Proof Sys2Proof.Machine

/-! ## Decoding -/

/-- Fields of an unguarded instruction with FN, rounding and flag 0. -/
def fld (d a b c : Opnd) (ty : Ty) (imm : BitVec 32) : Fields :=
  { fn := 0, gn := false, gp := 7, d, a, b, c, ty, rnd := 0, flag := false, imm }

/-- The word of a pair decodes to its instruction. -/
def reads (x : IWord × Instr) : Bool := (decode x.1).toOption = some x.2

/-- Words of the integer instructions, written out from their encodings (R134, R140, R103). -/
def words_integer : List (IWord × Instr) :=
  [(0x00070040200FFF6000000000, .iadd (fld (.v 1) (.v 2) (.v 3) .zero .n32 0x0)),
   (0x010701006021227000000000, .iaddc (fld (.v 4) (.v 6) (.v 8) (.p 2) .n64 0x0)),
   (0x0207405027FFFF2200000007, .isub { fld (.s 1) (.s 2) .imm .zero .i32 0x7 with rnd := 1 }),
   (0x03070040200FFF2000000000, .imul (fld (.v 1) (.v 2) (.v 3) .zero .i32 0x0)),
   (0x04070040200FFF6000000000, .imulh (fld (.v 1) (.v 2) (.v 3) .zero .n32 0x0)),
   (0x05070040200C042200000000, .imad { fld (.v 1) (.v 2) (.v 3) (.v 4) .i32 0x0 with rnd := 1 }),
   (0x060702C0B01FFF6000000000, .imin (fld (.v 11) (.v 11) (.v 7) .zero .n32 0x0)),
   (0x07070040200FFF2000000000, .imax (fld (.v 1) (.v 2) (.v 3) .zero .i32 0x0)),
   (0x080700402FFFFF2200000000, .iabs { fld (.v 1) (.v 2) .zero .zero .i32 0x0 with rnd := 1 }),
   (0x09070040200C046000000096, .logic (fld (.v 1) (.v 2) (.v 3) (.v 4) .n32 0x96)),
   (0x0A07010047FFFF6000000002, .shl (fld (.v 4) (.v 4) .imm .zero .n32 0x2)),
   (0x0B070040200FFF2000000000, .shr (fld (.v 1) (.v 2) (.v 3) .zero .i32 0x0)),
   (0x0C170080401BFF7000000000, .rot { fld (.v 2) (.v 4) (.v 6) .zero .n64 0x0 with fn := 1 }),
   (0x0D07018067FFFF600000020A, .bfx (fld (.v 6) (.v 6) .imm .zero .n32 0x20A)),
   (0x0E07004027FC036000000808, .bfi (fld (.v 1) (.v 2) .imm (.v 3) .n32 0x808)),
   (0x0F0700402FFFFF7000000000, .popc (fld (.v 1) (.v 2) .zero .zero .n64 0x0)),
   (0x100700403FFFFF6000000000, .clz (fld (.v 1) (.v 3) .zero .zero .n32 0x0)),
   (0x110700403FFFFF6000000000, .brev (fld (.v 1) (.v 3) .zero .zero .n32 0x0)),
   (0x12174880C02BFF7000000000, .icmp { fld (.p 2) (.v 12) (.v 10) .zero .n64 0x0 with fn := 1 }),
   (0x13070040200C044000000000, .idot4 (fld (.v 1) (.v 2) (.v 3) (.v 4) .n8 0x0))]

theorem test_words_integer : words_integer.all reads = true := by decide +kernel

/-- Words of the float instructions, written out from their encodings (R134, R140, R103). -/
def words_float : List (IWord × Instr) :=
  [(0x20070040200FFF8A00000000, .fadd { fld (.v 1) (.v 2) (.v 3) .zero .f32 0x0 with rnd := 5 }),
   (0x2107064197FFFF80BD000000, .fmul (fld (.v 25) (.v 25) .imm .zero .f32 0xBD000000)),
   (0x220102002014088000000000, .ffma { fld (.v 8) (.v 2) (.v 5) (.v 8) .f32 0x0 with gp := 1 }),
   (0x23070040200FFFA000000000, .fmin (fld (.v 1) (.v 2) (.v 3) .zero .b16 0x0)),
   (0x24070040200FFF9100000000, .fmax { fld (.v 1) (.v 2) (.v 3) .zero .f16 0x0 with flag := true }),
   (0x257748C0200FFF8000000000, .fcmp { fld (.p 3) (.v 2) (.v 3) .zero .f32 0x0 with fn := 7 }),
   (0x260700402FFFFFC000000000, .fclass (fld (.v 1) (.v 2) .zero .zero .e5m2 0x0)),
   (0x270700402FFFFF8000000000, .frcp (fld (.v 1) (.v 2) .zero .zero .f32 0x0)),
   (0x280700402FFFFF8100000000, .frsq { fld (.v 1) (.v 2) .zero .zero .f32 0x0 with flag := true }),
   (0x290700402FFFFF8200000000, .fsqrt { fld (.v 1) (.v 2) .zero .zero .f32 0x0 with rnd := 1 }),
   (0x2A0700402FFFFF8000000000, .fexp2 (fld (.v 1) (.v 2) .zero .zero .f32 0x0)),
   (0x2B0700402FFFFF8000000000, .flog2 (fld (.v 1) (.v 2) .zero .zero .f32 0x0)),
   (0x2C0707017FFFFF8000000000, .sinr (fld (.v 28) (.v 23) .zero .zero .f32 0x0)),
   (0x2D0700402FFFFF8000000000, .cosr (fld (.v 1) (.v 2) .zero .zero .f32 0x0)),
   (0x2E070040200FFF8000000000, .fscale (fld (.v 1) (.v 2) (.v 3) .zero .f32 0x0)),
   (0x2F0700402FFFFF8000000000, .ffrac (fld (.v 1) (.v 2) .zero .zero .f32 0x0)),
   (0x30070040200C049000000000, .pkfma (fld (.v 1) (.v 2) (.v 3) (.v 4) .f16 0x0)),
   (0x31070040200FFFA000000000, .pkadd (fld (.v 1) (.v 2) (.v 3) .zero .b16 0x0)),
   (0x32070040200FFF9400000000, .pkmul { fld (.v 1) (.v 2) (.v 3) .zero .f16 0x0 with rnd := 2 })]

theorem test_words_float : words_float.all reads = true := by decide +kernel

/-- Words of the move instructions, written out from their encodings (R134, R140, R103). -/
def words_move : List (IWord × Instr) :=
  [(0x400700904FFFFF7000000000, .mov (fld (.v 2) (.s 4) .zero .zero .n64 0x0)),
   (0x4107007FFFFFFF803F800000, .movi (fld (.v 1) .zero .zero .zero .f32 0x3F800000)),
   (0x4207007FFFFFFF600000BEEF, .movih (fld (.v 1) .zero .zero .zero .n32 0xBEEF)),
   (0x43070040200D246000000000, .sel (fld (.v 1) (.v 2) (.v 3) (.p 4) .n32 0x0)),
   (0x44070040200FFF6000018820, .bysel (fld (.v 1) (.v 2) (.v 3) .zero .n32 0x18820)),
   (0x450700C01FFFFFB100000008, .cvt { fld (.v 3) (.v 1) .zero .zero .e4m3 0x8 with flag := true }),
   (0x46070500C037FFA000000000, .pack (fld (.v 20) (.v 12) (.v 13) .zero .b16 0x0)),
   (0x470701C147FFFFA000000001, .unpk (fld (.v 7) (.v 20) .imm .zero .b16 0x1)),
   (0x480700402FFFFF4000000003, .vldx (fld (.v 1) (.v 2) .zero .zero .n8 0x3)),
   (0x4907FFC0200FFF50FFFFFFFE, .vstx (fld .zero (.v 2) (.v 3) .zero .n16 0xFFFFFFFE)),
   (0x4A07007FFFFFFF6000000000, .rdsp (fld (.v 1) .zero .zero .zero .n32 0x0))]

theorem test_words_move : words_move.all reads = true := by decide +kernel

/-- Words of the lane instructions, written out from their encodings (R134, R140, R103). -/
def words_lane : List (IWord × Instr) :=
  [(0x502700402FFFFF6000000000, .qswp { fld (.v 1) (.v 2) .zero .zero .n32 0x0 with fn := 2 }),
   (0x51070080401FFF7000000000, .qbc (fld (.v 2) (.v 4) (.v 7) .zero .n64 0x0)),
   (0x523700C027FFFF6000000010, .gshf { fld (.v 3) (.v 2) .imm .zero .n32 0x10 with fn := 3 }),
   (0x530748922FFFFF0000000000, .gvote (fld (.p 2) (.p 2) .zero .zero .i8 0x0)),
   (0x545700402FFFFF2000000000, .gred { fld (.v 1) (.v 2) .zero .zero .i32 0x0 with fn := 5 }),
   (0x551700402FFFFF8000000000, .gscan { fld (.v 1) (.v 2) .zero .zero .f32 0x0 with fn := 1 }),
   (0x560700402FFFFF7000000000, .gmatch (fld (.v 1) (.v 2) .zero .zero .n64 0x0)),
   (0x570748D2148BFF00000000C0, .plog (fld (.p 3) (.p 1) (.p 2) .zero .i8 0xC0)),
   (0x5807007FFFFFFF0000000000, .pmovGet (fld (.v 1) .zero .zero .zero .i8 0x0)),
   (0x5817FFC01FFFFF000000007F, .pmovSet { fld .zero (.v 1) .zero .zero .i8 0x7F with fn := 1 })]

theorem test_words_lane : words_lane.all reads = true := by decide +kernel

/-- Words of the control instructions, written out from their encodings (R134, R140, R103). -/
def words_control : List (IWord × Instr) :=
  [(0x600AFFFFFFFFFF01FFFFFFE9, .bra { fld .zero .zero .zero .zero .i8 0xFFFFFFE9 with gn := true, gp := 2, flag := true }),
   (0x6107FFC03FFFFF0000000000, .brx (fld .zero (.v 3) .zero .zero .i8 0x0)),
   (0x6207FFFFFFFFFF0000000010, .call (fld .zero .zero .zero .zero .i8 0x10)),
   (0x6307FFC05FFFFF0000000000, .callx (fld .zero (.v 5) .zero .zero .i8 0x0)),
   (0x6407FFFFFFFFFF0000000000, .ret (fld .zero .zero .zero .zero .i8 0x0)),
   (0x6507FFC09FFFFF0000000013, .loop (fld .zero (.v 9) .zero .zero .i8 0x13)),
   (0x6600FFFFFFFFFF0000000000, .loopb { fld .zero .zero .zero .zero .i8 0x0 with gp := 0 }),
   (0x6707FFFFFFFFFF0000000000, .exit (fld .zero .zero .zero .zero .i8 0x0)),
   (0x6717FFFFFFFFFF0000000000, .kill { fld .zero .zero .zero .zero .i8 0x0 with fn := 1 }),
   (0x68074AC01FFFFF0000000000, .jset (fld (.j 3) (.v 1) .zero .zero .i8 0x0)),
   (0x6907FFD28FFFFF0000000000, .jwait (fld .zero (.j 0) .zero .zero .i8 0x0)),
   (0x6A074BDFFFFFFF00000000FF, .jdrop (fld (.j 7) .imm .zero .zero .i8 0xFF)),
   (0x6B07FFFFFFFFFF0000000000, .yieldI (fld .zero .zero .zero .zero .i8 0x0)),
   (0x6C07FFFFFFFFFF0000000000, .nop (fld .zero .zero .zero .zero .i8 0x0)),
   (0x6D07FFFFFFFFFF000000FFFF, .brk (fld .zero .zero .zero .zero .i8 0xFFFF)),
   (0x6E07FFC0100BFF0000000000, .ovmap (fld .zero (.v 1) (.v 2) .zero .i8 0x0)),
   (0x6F07FFFFFFFFFF0012345678, .trapu (fld .zero .zero .zero .zero .i8 0x12345678))]

theorem test_words_control : words_control.all reads = true := by decide +kernel

/-- Words of the memory instructions, written out from their encodings (R134, R140, R103). -/
def words_memory : List (IWord × Instr) :=
  [(0x700701002FFFFF6000000008, .ld (fld (.v 4) (.v 2) .zero .zero .n32 0x8)),
   (0x7107FFC02013FF70FFFFFFF8, .st (fld .zero (.v 2) (.v 4) .zero .n64 0xFFFFFFF8)),
   (0x720701003FFFFF0000000000, .lds (fld (.v 4) (.v 3) .zero .zero .i8 0x0)),
   (0x7307FFC03017FF8000000004, .sts (fld .zero (.v 3) (.v 5) .zero .f32 0x4)),
   (0x7407013FFFFFFF6000001000, .ldk (fld (.v 4) .zero .zero .zero .n32 0x1000)),
   (0x757701802020096000000000, .atom { fld (.v 6) (.v 2) (.v 8) (.v 9) .n32 0x0 with fn := 7 }),
   (0x760701803023FF8000000000, .atoms (fld (.v 6) (.v 3) (.v 8) .zero .f32 0x0)),
   (0x7717FFC02023FF7000000000, .red { fld .zero (.v 2) (.v 8) .zero .n64 0x0 with fn := 1 }),
   (0x7807FFC02FFFFF0000000040, .pref (fld .zero (.v 2) .zero .zero .i8 0x40)),
   (0x79074C00AFFFFF0000000000, .pin (fld (.pn 0) (.v 10) .zero .zero .i8 0x0)),
   (0x7A074C3FFFFFFF0000000000, .unpin (fld (.pn 0) .zero .zero .zero .i8 0x0)),
   (0x7B07028060140E0000000000, .reclaim (fld (.v 10) (.v 6) (.v 5) (.v 14) .i8 0x0)),
   (0x7C07FFFFFFFFFF0000000000, .fsys (fld .zero .zero .zero .zero .i8 0x0))]

theorem test_words_memory : words_memory.all reads = true := by decide +kernel

/-- Words of the sync instructions, written out from their encodings (R134, R140, R103). -/
def words_sync : List (IWord × Instr) :=
  [(0x9007FFFFF02BFF0000000010, .binit (fld .zero .zero (.v 10) .zero .i8 0x10)),
   (0x9107FFFFFFFFFF0000000000, .barv (fld .zero .zero .zero .zero .i8 0x0)),
   (0x9207FFC0100BFF0000000000, .bexp (fld .zero (.v 1) (.v 2) .zero .i8 0x0)),
   (0x930700C0A02FFF0000000010, .bwait (fld (.v 3) (.v 10) (.v 11) .zero .i8 0x10)),
   (0x94070380DFFFFF0000000000, .btest (fld (.v 14) (.v 13) .zero .zero .i8 0x0)),
   (0x9507FFC01FFFFF0000000000, .brst (fld .zero (.v 1) .zero .zero .i8 0x0)),
   (0x960700404FFFFF0000000000, .htest (fld (.v 1) (.v 4) .zero .zero .i8 0x0)),
   (0x9707FFC04FFFFF0000000000, .hcancel (fld .zero (.v 4) .zero .zero .i8 0x0)),
   (0x9807FFFFFFFFFF000000FFC0, .cwait (fld .zero .zero .zero .zero .i8 0xFFC0))]

theorem test_words_sync : words_sync.all reads = true := by decide +kernel

/-- Words of the engine instructions, written out from their encodings (R134, R140, R103). -/
def words_engine : List (IWord × Instr) :=
  [(0xA00701814060080000001000, .xcopy (fld (.v 6) (.v 20) (.v 24) (.v 8) .i8 0x1000)),
   (0xA10701801008030000400040, .xgath (fld (.v 6) (.v 1) (.v 2) (.v 3) .i8 0x400040)),
   (0xA20701801008030001000000, .xscat (fld (.v 6) (.v 1) (.v 2) (.v 3) .i8 0x1000000)),
   (0xA307033FF01D010001001040, .xfill (fld (.v 12) .zero (.v 7) (.s 1) .i8 0x1001040)),
   (0xA40701802FFC030001000000, .xpub (fld (.v 6) (.v 2) .zero (.v 3) .i8 0x1000000)),
   (0xA50701102FFD030002001080, .coll (fld (.v 4) (.s 2) .zero (.s 3) .i8 0x2001080)),
   (0xA60701801008030000000000, .cseq (fld (.v 6) (.v 1) (.v 2) (.v 3) .i8 0x0))]

theorem test_words_engine : words_engine.all reads = true := by decide +kernel

/-- Words of the matrix instructions, written out from their encodings (R134, R140, R103). -/
def words_matrix : List (IWord × Instr) :=
  [(0xB007FFC0200FFF0000002010, .bld (fld .zero (.v 2) (.v 3) .zero .i8 0x2010)),
   (0xB007FFC20FFFFF0001002000, .bldReg (fld .zero (.v 32) .zero .zero .i8 0x1002000)),
   (0xB107FFC20FFD04A00000A100, .mmaq (fld .zero (.v 32) .zero (.s 4) .b16 0xA100)),
   (0xB207FFC20FFD049000059040, .mmas (fld .zero (.v 32) .zero (.s 4) .f16 0x59040)),
   (0xB307411FFFFFFF0000000008, .acalloc (fld (.s 4) .imm .zero .zero .i8 0x8)),
   (0xB407FFD047FFFF0000000008, .acfree (fld .zero (.s 4) .imm .zero .i8 0x8)),
   (0xB507FFD04417FF0000000000, .aczero (fld .zero (.s 4) (.s 5) .zero .i8 0x0)),
   (0xB60702104FFFFFAA00000808, .acrd { fld (.v 8) (.s 4) .zero .zero .b16 0x808 with rnd := 5 }),
   (0xB307FFDFFFFFFF0000000008, .acalloc (fld .zero .imm .zero .zero .i8 0x8)),
   (0xB607FFD04FFFFFAA00000808, .acrd { fld .zero (.s 4) .zero .zero .b16 0x808 with rnd := 5 }),
   (0xB707FFC08FFD04800003F800, .acwr (fld .zero (.v 8) .zero (.s 4) .f32 0x3F800)),
   (0xB807FFD05025048000000000, .scacc (fld .zero (.s 5) (.v 9) (.s 4) .f32 0x0)),
   (0xB907FFC03FFFFF0000000000, .cbld (fld .zero (.v 3) .zero .zero .i8 0x0))]

theorem test_words_matrix : words_matrix.all reads = true := by decide +kernel

/-- Words of the power instructions, written out from their encodings (R134, R140, R103). -/
def words_power : List (IWord × Instr) :=
  [(0xC007FFDFFFFFFF0000012C06, .burn (fld .zero .imm .zero .zero .i8 0x12C06)),
   (0xC107051FFFFFFF000007D064, .shunt (fld (.v 20) .imm .zero .zero .i8 0x7D064)),
   (0xC207043FFFFFFF0000000000, .balq (fld (.v 16) .zero .zero .zero .i8 0x0)),
   (0xC207FFFFFFFFFF0000000000, .balq (fld .zero .zero .zero .zero .i8 0x0)),
   (0xC307005FFFFFFF000000000C, .plreq (fld (.v 1) .imm .zero .zero .i8 0xC)),
   (0xC40700BFFFFFFF0000000000, .enrd (fld (.v 2) .zero .zero .zero .i8 0x0))]

theorem test_words_power : words_power.all reads = true := by decide +kernel

/-- Words of the system instructions, written out from their encodings (R134, R140, R103). -/
def words_system : List (IWord × Instr) :=
  [(0xE007013FFFFFFF7000000004, .csrr (fld (.v 4) .zero .zero .zero .n64 0x4)),
   (0xE107FFC0B023FF6000000033, .csrw (fld .zero (.v 11) (.v 8) .zero .n32 0x33)),
   (0xE207FFFFFFFFFF0000000000, .eret (fld .zero .zero .zero .zero .i8 0x0)),
   (0xE307FFFFFFFFFF0000000000, .wfi (fld .zero .zero .zero .zero .i8 0x0)),
   (0xE407FFC01FFFFF0000000000, .sev (fld .zero (.v 1) .zero .zero .i8 0x0)),
   (0xE50700BFFFFFFF0000000000, .intack (fld (.v 2) .zero .zero .zero .i8 0x0)),
   (0xE607FFC01FFFFF0000000000, .tlbinvCtx (fld .zero (.v 1) .zero .zero .i8 0x0)),
   (0xE617FFC0100BFF0000000000, .tlbinvPage { fld .zero (.v 1) (.v 2) .zero .i8 0x0 with fn := 1 }),
   (0xE7070040200FFF0000000000, .ctxsv (fld (.v 1) (.v 2) (.v 3) .zero .i8 0x0)),
   (0xE8070040200FFF0000000000, .ctxld (fld (.v 1) (.v 2) (.v 3) .zero .i8 0x0)),
   (0xE9070040200FFF0000000000, .tokxf (fld (.v 1) (.v 2) (.v 3) .zero .i8 0x0)),
   (0xEA07FFDFFFFFFF0000000007, .capmk (fld .zero .imm .zero .zero .i8 0x7))]

theorem test_words_system : words_system.all reads = true := by decide +kernel

/-- An unassigned opcode, an unassigned FN, a reserved I bit, an operand code that names nothing, a type the form does not
take: each is refused with its reason (R138, R144, R306). -/
theorem test_refused : decode 0x1407FFFFFFFFFF0000000000 = .error (.illegal 0) ∧
    decode 0x0017004020_0FFF6000000000 = .error (.illegal 0) ∧ decode 0x6C07FFFFFFFFFF0000000001 = .error (.illegal 1) ∧
    decode 0x00075FC0200FFF6000000000 = .error (.illegal 2) ∧ decode 0x00070040200FFF8000000000 = .error (.illegal 3) := by
  decide +kernel

/-- An all-zero slot is an IADD whose unused C names V0: ILLEGAL (R136). -/
theorem test_zero_word : decode 0 = .error (.illegal 1) := by decide +kernel

/-! ## Well-formed instructions -/

/-- IADD.N32 V1, V2, V3. -/
def add3 : Fields := fld (.v 1) (.v 2) (.v 3) .zero .n32 0

theorem test_wf : wellFormed (.iadd add3) = true := by decide +kernel
/-- FN 1 is not assigned for IADD. -/
theorem test_wf_fn : fnOk 0 { add3 with fn := 1 } = false ∧ wellFormed (.iadd { add3 with fn := 1 }) = false := by decide +kernel
/-- An unused C is ZERO, and field I is 0 unless an operand names IMM. -/
theorem test_wf_reserved : reservedOk 0 { add3 with c := .v 0 } = false ∧ reservedOk 0 { add3 with imm := 1 } = false ∧
    wellFormed (.iadd { add3 with c := .v 0 }) = false := by decide +kernel
/-- A 64-bit operand is an even register; a predicate is no integer destination. -/
theorem test_wf_operands : operandsOk 0 { add3 with ty := .n64, a := .v 3 } = false ∧ operandsOk 0 { add3 with d := .p 1 } = false ∧
    wellFormed (.iadd { add3 with d := .p 1 }) = false := by decide +kernel
/-- IADD takes no floating-point type, and no rounding code above 1. -/
theorem test_wf_types : typesOk 0 { add3 with ty := .f32 } = false ∧ typesOk 0 { add3 with rnd := 2 } = false ∧
    wellFormed (.iadd { add3 with ty := .f32 }) = false := by decide +kernel
/-- EXIT's fields under KILL's FN are not a well-formed EXIT. -/
theorem test_wf_key : wellFormed (.exit { fld .zero .zero .zero .zero .i8 0 with fn := 1 }) = false := by decide +kernel

/-- Steps of other agents that name a part of the machine which does not exist, or carry readings of the wrong shape. -/
def illFormedSteps : List Instr :=
  [.loadComplete 1 0 32 0, .storePerformed 1 0 32, .unitTakesFreedWay 192 0 0, .unitTakesFreedWay 0 16 0, .unitTakesFreedWay 0 0 16,
   .engineSourceRead 1 0 0, .engineSourceRead 1 0 257, .collMemberFailure 64 0 0 0, .collMemberLeaves 0 0 2048,
   .collectiveFlitArrival 64 0 0 0 0 [], .backlogReplay 64, .backlogTimeout true 64 0 0, .pageWalk 64 0, .hostMemAccess true true 0 3 0,
   .acmEvict 192 0, .acmGrant 0 4, .acmSpillDone 1 4 0, .acmRestore 1 0 4, .partSaveDone 1 4, .partRestoreDone 1 4,
   .queueDoorbell true 256 0, .queueResume true 256, .recordCheck 256, .waitRecordPoll 256, .prio7Preempt 1 48, .imbalRelease 48,
   .slopeLimitRamp 48 0, .balanceSample [] [] [] 0 0, .levelChange 4, .cohortLevelAdopt 4, .thermalPoll [], .thrcfgWrite 50 0,
   .clrpois 1, .serdesCalibration 18, .flitReceive 18 true, .linkDown 18, .linkRekey 18, .linkUp 0 0 9 true, .linkUp 0 0 0 true,
   .diodeCalibration 240, .agingMonitor [] 0, .sledNumberReport 512 0, .sledNumberReport 0 4, .registerWrite true 4 8 0]

theorem test_wf_steps : illFormedSteps.all (fun i => !stepOk i && !wellFormed i) = true := by decide +kernel
/-- The last that exists is well formed. -/
theorem test_wf_last : [Instr.loadComplete 1 0 31 0, .unitTakesFreedWay 191 15 15, .engineSourceRead 1 0 256, .backlogReplay 63,
    .acmGrant 191 3, .partSaveDone 1 3, .recordCheck 255, .imbalRelease 47, .levelChange 3, .thrcfgWrite 49 0, .clrpois 64,
    .flitReceive 17 true, .linkUp 17 0 8 true, .diodeCalibration 239, .sledNumberReport 511 3].all wellFormed = true := by decide +kernel

/-! ## One step of the management core, against the spec's own examples -/

/-- The management core after reset with registers of its thread set. -/
def mg (regs : List (Nat × Word)) : State :=
  let s := State.reset
  { s with mgmt := { s.mgmt with group := s.mgmt.group.updThread 0 fun t =>
      { t with v := regs.foldl (fun v r => setAt v r.1 r.2) t.v } } }

/-- The thread of the management core after an instruction. -/
def mgThread (i : Instr) (s : State) : Option Thread :=
  match exec i s with
  | .next t => some (t.mgmt.group.thread 0)
  | _ => none

/-- A register of that thread. -/
def mgReg (i : Instr) (regs : List (Nat × Word)) (r : Nat) : Option Word := (mgThread i (mg regs)).map fun t => t.reg r

/-- D := V1 from A = V2 and B = V3 or IMM. -/
def ab (ty : Ty) : Fields := fld (.v 1) (.v 2) (.v 3) .zero ty 0
def aImm (ty : Ty) (imm : BitVec 32) : Fields := fld (.v 1) (.v 2) .imm .zero ty imm
def aOnly (ty : Ty) : Fields := fld (.v 1) (.v 2) .zero .zero ty 0

/-- R161's example: 0x7FFFFFFF + 1 with and without .SAT. -/
theorem test_iadd_sat : mgReg (.iadd { ab .i32 with rnd := 1 }) [(2, 0x7FFFFFFF), (3, 1)] 1 = some 0x7FFFFFFF ∧
    mgReg (.iadd (ab .i32)) [(2, 0x7FFFFFFF), (3, 1)] 1 = some 0x80000000 := by decide +kernel
/-- R162: the carry goes to the predicate that was read. -/
theorem test_iaddc_carry : (mgThread (.iaddc { ab .n32 with c := .p 0 }) (mg [(2, 0xFFFFFFFF), (3, 1)])).map
    (fun t => (t.reg 1, t.pred 0)) = some (0, true) := by decide +kernel
theorem test_isub : mgReg (.isub (ab .n32)) [(2, 1), (3, 2)] 1 = some 0xFFFFFFFF := by decide +kernel
theorem test_imul_wraps : mgReg (.imul (ab .n32)) [(2, 0x10000), (3, 0x10001)] 1 = some 0x10000 := by decide +kernel
/-- R163's example. -/
theorem test_imulh : mgReg (.imulh (ab .n32)) [(2, 0xFFFFFFFE), (3, 3)] 1 = some 2 ∧
    mgReg (.imulh (ab .i32)) [(2, 0xFFFFFFFE), (3, 3)] 1 = some 0xFFFFFFFF := by decide +kernel
theorem test_imad : mgReg (.imad { ab .i32 with c := .v 4 }) [(2, 0xFFFFFFFF), (3, 5), (4, 7)] 1 = some 2 := by decide +kernel
/-- R164's example. -/
theorem test_imin : mgReg (.imin (aImm .i32 0xFFFFFFFF)) [(2, 0x7FFFFFFF)] 1 = some 0xFFFFFFFF ∧
    mgReg (.imin (aImm .n32 0xFFFFFFFF)) [(2, 0x7FFFFFFF)] 1 = some 0x7FFFFFFF := by decide +kernel
theorem test_imax_iabs : mgReg (.imax (ab .i32)) [(2, 0xFFFFFFFF), (3, 1)] 1 = some 1 ∧
    mgReg (.iabs (aOnly .i32)) [(2, 0xFFFFFFFB)] 1 = some 5 := by decide +kernel
/-- R165's example. -/
theorem test_idot4 : mgReg (.idot4 { ab .i8 with c := .v 4 }) [(2, 0x010203FF), (3, 0x01010101), (4, 10)] 1 = some 15 := by
  decide +kernel
/-- R166: table 0x96 is the exclusive or of three. -/
theorem test_logic : mgReg (.logic { ab .n32 with c := .v 4, imm := 0x96 }) [(2, 0xF0), (3, 0xCC), (4, 0xAA)] 1 = some 0x96 := by
  decide +kernel
/-- R167's examples: a shift by more than the width fills with the sign. -/
theorem test_shift : mgReg (.shr (aImm .i32 40)) [(2, 0x80000000)] 1 = some 0xFFFFFFFF ∧
    mgReg (.shl (aImm .n32 32)) [(2, 1)] 1 = some 0 := by decide +kernel
theorem test_rot_right : mgReg (.rot { aImm .n32 4 with fn := 1 }) [(2, 0x80000000)] 1 = some 0x08000000 := by decide +kernel
/-- R168's examples. -/
theorem test_bfx : mgReg (.bfx (aImm .i32 0x0804)) [(2, 0xF80)] 1 = some 0xFFFFFFF8 := by decide +kernel
theorem test_bfi : mgReg (.bfi { aImm .n32 0x0804 with c := .v 3 }) [(2, 0xAB), (3, 0)] 1 = some 0xAB0 := by decide +kernel
/-- R169's example, and the other two by hand. -/
theorem test_clz : mgReg (.clz (fld (.v 1) (.v 4) .zero .zero .n64 0)) [(4, 0), (5, 1)] 1 = some 31 := by decide +kernel
theorem test_popc_brev : mgReg (.popc (aOnly .n32)) [(2, 0xF0F0)] 1 = some 8 ∧
    mgReg (.brev (aOnly .n32)) [(2, 0x00000003)] 1 = some 0xC0000000 := by decide +kernel
/-- R170's example. -/
theorem test_icmp : (mgThread (.icmp { fld (.p 2) (.v 6) .imm .zero .i32 0 with fn := 2 }) (mg [(6, 0xFFFFFFFF)])).map
    (fun t => t.pred 2) = some true := by decide +kernel

/-- R172's example: a halfway case under RN and .RU. -/
theorem test_fadd : mgReg (.fadd (ab .b16)) [(2, 0x3F80), (3, 0x3B80)] 1 = some 0x3F80 ∧
    mgReg (.fadd { ab .b16 with rnd := 2 }) [(2, 0x3F80), (3, 0x3B80)] 1 = some 0x3F81 := by decide +kernel
/-- 1.5 × 2 = 3, and 1.5 × 2 + 1 = 4. -/
theorem test_fmul_ffma : mgReg (.fmul (ab .f32)) [(2, 0x3FC00000), (3, 0x40000000)] 1 = some 0x40400000 ∧
    mgReg (.ffma { ab .f32 with c := .v 4 }) [(2, 0x3FC00000), (3, 0x40000000), (4, 0x3F800000)] 1 = some 0x40800000 := by
  decide +kernel
/-- Both BF16 halves: 1 + 1 and 2 + (−2); 1 × 2 and 2 × 2; 1 × 1 + 1 and 2 × 2 + 2 (R173). -/
theorem test_packed : mgReg (.pkadd (ab .b16)) [(2, 0x40003F80), (3, 0xC0003F80)] 1 = some 0x00004000 ∧
    mgReg (.pkmul (ab .b16)) [(2, 0x40003F80), (3, 0x40004000)] 1 = some 0x40804000 ∧
    mgReg (.pkfma { ab .b16 with c := .v 2 }) [(2, 0x40003F80), (3, 0x40003F80)] 1 = some 0x40C04000 := by decide +kernel
/-- R174's example: FMAX of −0 and +0 is +0; FMIN is −0. -/
theorem test_fmax_zero : mgReg (.fmax (aImm .f32 0)) [(2, 0x80000000)] 1 = some 0 ∧
    mgReg (.fmin (aImm .f32 0)) [(2, 0x80000000)] 1 = some 0x80000000 := by decide +kernel
/-- R175's example: NAN of a NaN. -/
theorem test_fcmp_nan : (mgThread (.fcmp { fld (.p 3) (.v 4) (.v 4) .zero .f32 0 with fn := 7 }) (mg [(4, 0x7FC00000)])).map
    (fun t => t.pred 3) = some true := by decide +kernel
/-- R176's example. -/
theorem test_fclass : mgReg (.fclass (aOnly .f16)) [(2, 1)] 1 = some 0x20 := by decide +kernel
/-- R177's examples. -/
theorem test_fscale : mgReg (.fscale (aImm .f32 0xFFFFFFFD)) [(2, 0x40A00000)] 1 = some 0x3F200000 := by decide +kernel
theorem test_ffrac : mgReg (.ffrac (aOnly .f32)) [(2, 0xC0300000)] 1 = some 0xBF400000 := by decide +kernel
/-- √4 = 2, 1 ÷ 4, 1 ÷ √4, 2^3, log2 8 (R178). -/
theorem test_roots : mgReg (.fsqrt (aOnly .f32)) [(2, 0x40800000)] 1 = some 0x40000000 ∧
    mgReg (.frcp (aOnly .f32)) [(2, 0x40800000)] 1 = some 0x3E800000 ∧
    mgReg (.frsq (aOnly .f32)) [(2, 0x40800000)] 1 = some 0x3F000000 := by decide +kernel
theorem test_exp_log : mgReg (.fexp2 (aOnly .f32)) [(2, 0x40400000)] 1 = some 0x41000000 ∧
    mgReg (.flog2 (aOnly .f32)) [(2, 0x41000000)] 1 = some 0x40400000 := by decide +kernel
/-- R127's example: sine and cosine of 1.75 turns of π. -/
theorem test_sin_cos : mgReg (.sinr (aOnly .f32)) [(2, 0x3FE00000)] 1 = some 0xBF800000 ∧
    mgReg (.cosr (aOnly .f32)) [(2, 0x3FE00000)] 1 = some 0 := by decide +kernel

theorem test_mov_sel : mgReg (.mov (aOnly .n32)) [(2, 7)] 1 = some 7 ∧
    mgReg (.sel { ab .n32 with c := .p 1 }) [(2, 7), (3, 9)] 1 = some 9 ∧
    mgReg (.sel { ab .n32 with c := .pt }) [(2, 7), (3, 9)] 1 = some 7 := by decide +kernel
/-- R181's example: MOVIH sets the upper register of the pair, and leaves the lower one. -/
theorem test_movih : mgReg (.movih (fld (.v 2) .zero .zero .zero .n64 0x200)) [(2, 0x89ABCDEF)] 3 = some 0x200 ∧
    mgReg (.movih (fld (.v 2) .zero .zero .zero .n64 0x200)) [(2, 0x89ABCDEF)] 2 = some 0x89ABCDEF ∧
    mgReg (.movi (fld (.v 2) .zero .zero .zero .i64 0x80000000)) [] 3 = some 0xFFFFFFFF := by decide +kernel
/-- R183's examples. -/
theorem test_bysel : mgReg (.bysel { ab .n32 with imm := 0x29020 }) [(2, 0x44332211), (3, 0x88776655)] 1 = some 0x66552211 ∧
    mgReg (.bysel (fld (.v 1) (.v 3) (.v 2) .zero .n32 0x9CE63)) [(2, 0x44332211), (3, 0x88776655)] 1 = some 0xFFFFFF88 := by
  decide +kernel
/-- R117's examples: 500.0 to E4M3 with and without .SAT, and 0.3 to B16. -/
theorem test_cvt : mgReg (.cvt { fld (.v 1) (.v 2) .zero .zero .e4m3 8 with flag := true }) [(2, 0x43FA0000)] 1 = some 0x7E ∧
    mgReg (.cvt (fld (.v 1) (.v 2) .zero .zero .e4m3 8)) [(2, 0x43FA0000)] 1 = some 0x7F ∧
    mgReg (.cvt (fld (.v 1) (.v 2) .zero .zero .b16 8)) [(2, 0x3E99999A)] 1 = some 0x3E9A := by decide +kernel
/-- R185's and R186's examples. -/
theorem test_pack : mgReg (.pack (ab .b16)) [(2, 0x3F800000), (3, 0xC0200000)] 1 = some 0xC0203F80 := by decide +kernel
theorem test_unpk : mgReg (.unpk (aImm .e2m1 3)) [(2, 0x0000F000)] 1 = some 0xC0C00000 := by decide +kernel
/-- R187: a byte of the window with its sign, and a byte of a register stored. -/
theorem test_window : mgReg (.vldx (fld (.v 1) (.v 2) .zero .zero .i8 0)) [(2, 13), (3, 0x00008000)] 1 = some 0xFFFFFF80 := by
  decide +kernel
theorem test_rdsp : mgReg (.rdsp (fld (.v 1) .zero .zero .zero .n32 0)) [(1, 5)] 1 = some 0 := by decide +kernel

/-- R217's example: PLOG's table 0xC0 is P1 AND P2, here of PT and PT. -/
theorem test_plog : (mgThread (.plog (fld (.p 3) .pt .pt .zero .i8 0xC0)) (mg [])).map (fun t => t.pred 3) = some true ∧
    (mgThread (.pmovSet { fld .zero (.v 1) .zero .zero .i8 0x41 with fn := 1 }) (mg [(1, 0xFF)])).map (·.p) = some 0x41 := by
  decide +kernel

/-- R193: a branch from line 0 by I lines and slots, to a slot whose TM bit is set; R195's example: slot 5 is no slot, so BADTARGET. -/
theorem test_bra : (mgThread (.bra (fld .zero .zero .zero .zero .i8 0x13)) { mg [] with mem := ⟨[(0xBC, 8)]⟩ }).map (·.ip) = some 0x83 := by decide +kernel
theorem test_brx_bad_target : (match exec (.brx (fld .zero (.v 7) .zero .zero .i8 0)) (mg [(7, 0x85)]) with
    | .next t => some (t.csr.trapCode, t.csr.trapIp, t.csr.tl, (t.mgmt.group.thread 0).ip)
    | _ => none) = some (2, 0, true, 0x40) := by decide +kernel
/-- R196, R197: CALL pushes the next IP. -/
theorem test_call : (mgThread (.call (fld .zero .zero .zero .zero .i8 8)) { mg [] with mem := ⟨[(0x7C, 1)]⟩ }).map (fun t => (t.ip, t.link, t.depth))
    = some (0x40, [1], 1) := by decide +kernel
/-- R198's example: a count of 3 activates level 0; a count of 0 goes behind the end. -/
theorem test_loop : (mgThread (.loop (fld .zero (.v 9) .zero .zero .i8 0x13)) (mg [(9, 3)])).map
      (fun t => (t.ip, t.loops.getD 0 .off)) = some (1, ⟨true, 1, 0x83, 3⟩) ∧
    (mgThread (.loop (fld .zero (.v 9) .zero .zero .i8 0x13)) (mg [])).map (·.ip) = some 0x84 := by decide +kernel
/-- R208's example. -/
theorem test_trapu : (mgThread (.trapu (fld .zero .zero .zero .zero .i8 7)) (mg [])).map (fun t => (t.ucause, t.uinfo, t.link))
    = some (2, 7, [1]) := by decide +kernel
/-- R29's example: the set of an IP. -/
theorem test_pc_set : pcSet 0x13C43 = 9 := by decide +kernel

/-- The management core's word 0x1000 of device memory after a store, and its value in flight after a load (R225, R224). -/
theorem test_st : (match exec (.st (fld .zero (.v 2) (.v 4) .zero .n16 0xFFFFFFFE)) (mg [(2, 0x1002), (4, 0xABCDEF)]) with
    | .next t => some (t.mem.read 0x1000 4) | _ => none) = some 0xCDEF := by decide +kernel
theorem test_ld : (mgThread (.ld (fld (.v 4) (.v 2) .zero .zero .i8 1)) { mg [(2, 0x1000)] with mem := ⟨[(0x1001, 0x80)]⟩ }).map
    (fun t => t.ld) = some [⟨[(4, 0xFFFFFF80)]⟩] := by decide +kernel
theorem test_ld_misaligned : (match exec (.ld (fld (.v 4) (.v 2) .zero .zero .n32 2)) (mg [(2, 0x1000)]) with
    | .next t => some (t.csr.trapCode) | _ => none) = some 6 := by decide +kernel
/-- R228: a compare and swap that finds its value stores the other, and the old value is in flight. -/
theorem test_cas : (match exec (.atoms { fld (.v 6) .zero (.v 8) (.v 9) .n32 8 with fn := 7 }) (mg [(8, 5), (9, 0)]) with
    | .next t => some (t.mgmt.scratch.read 8 4, (t.mgmt.group.thread 0).ld) | _ => none) = some (5, [⟨[(6, 0)]⟩]) := by decide +kernel

/-- R235's example: SAT of a phase operand at PHASE 0xFFFF and 0. -/
theorem test_bar_sat : barSat (0xFFFF * 2 ^ 96) 0xFFFF = false ∧ barSat 0 0xFFFF = true ∧ barSat (0xFFFF * 2 ^ 96) 0x7FFF = true ∧
    barSat (0xFFFF * 2 ^ 96) 0x7FFE = false := by decide +kernel
/-- R234, R236, R237: BINIT with an expectation of one arrival, then an arrival completes the phase. -/
theorem test_barrier : (match exec (.binit (fld .zero .zero (.v 1) .zero .i8 0x20)) (mg [(1, 1)]) with
    | .next t => (match exec (.barv (fld .zero .zero .zero .zero .i8 0x20)) t with
      | .next u => some (barPhase (u.bar 0 0 0x20), barArra (u.bar 0 0 0x20)) | _ => none)
    | _ => none) = some (1, 0) := by decide +kernel

/-- R314's example: CSRR of TRAPVEC after reset; a write of INTEN. -/
theorem test_csr : mgReg (.csrr (fld (.v 4) .zero .zero .zero .n64 1)) [] 4 = some 0x40 ∧
    (match exec (.csrw (fld .zero (.v 2) .zero .zero .n32 6)) (mg [(2, 0x20)]) with
     | .next t => some t.csr.intEn | _ => none) = some 0x20 := by decide +kernel
/-- R325: CAPMK has no effect outside capture and replay; R316: WFI waits while nothing pends. -/
theorem test_capmk_wfi : (mgThread (.capmk (fld .zero .imm .zero .zero .i8 7)) (mg [])).map (·.ip) = some 1 ∧
    (match exec (.wfi (fld .zero .zero .zero .zero .i8 0)) (mg []) with
     | .next t => some (t.mgmt.inWfi, (t.mgmt.group.thread 0).ip) | _ => none) = some (true, 0) := by decide +kernel

/-- R345's and R347's examples: the channel of an interleaved address, and back. -/
theorem test_channel : channelOf 0x45670040 = (84, 0x2E4040) ∧ interleaved 5 0x10000 = 0x1975000 := by decide +kernel
/-- R346's example: the leaf 0x45670047 at level 0 is valid; one with a reserved bit, or a table at level 0, is not. -/
theorem test_pte : pteValid 0 0x45670047 = true ∧ pteValid 0 0x45670147 = false ∧ pteValid 0 0x45670045 = false ∧
    pteValid 3 0x45670047 = false ∧ pteValid 0 0x0000000280010057 = true := by decide +kernel

/-- A step of the machine after reset runs the word placed where it fetches: MOVI.N32 V2, 7 (R134, R301). -/
theorem test_step : (match step (State.reset.withFetchWord 96 0x410700BFFFFFFF6000000007) with
    | .next t => some ((t.mgmt.group.thread 0).reg 2, (t.mgmt.group.thread 0).ip) | _ => none) = some (7, 1) := by decide +kernel

/-! ## States for the witnesses -/

/-- The issuing unit of a state that has one. -/
def here (s : State) : Ctx := s.ctx?.getD ⟨s.mgmt.group, s.mgmt.group, ⟨0, 0, none, 0, false, none, false, false⟩, []⟩

/-- A launch of one block of 32 threads with 40 registers, 16 KiB of scratch and one buffer, in context 0. -/
def la1 : Launch :=
  { id := 1, queue := 0, ctx := 0, state := .run, flags := 0, comb := 0, ac := 0, frames := 2, grid := [1, 1, 1], blk := [32, 1, 1]
    regs := 40, scratch := 0x4000, acmCeil := 64, msixv := 0, codeVa := 0x100000, novl := 3, argLen := 0, dataLen := 0x100, saveVa := 0
    saveLen := 0x100000, sigVa := 0, sigVal := 0, seed := 0, tag := 0, stkVa := 0, bufs := [(0x1000, 0x1000)], nbv := 2
    consts := .empty, constMarks := [], overlay0 := [], nextComb := 1, retired := 0, energy := 0, waiting := 0, emptying := none }

/-- Its part, on core 0, with the first 8 granules of sector 0. -/
def pt1 : Part :=
  { core := 0, slot := 0, state := .resident, scratch := .empty, bslots := .empty, codebook := .empty, acm := .empty
    held := (List.range 8).map fun g => (0, g), spilled := [], charge := 0, queued := false, sel := 0, marks := [] }

/-- Its group, whole at slot 0 of line 0 of the image. -/
def gr1 : Group :=
  Group.fresh (List.replicate 32 (Thread.fresh 40 0x100000 1 false)) [⟨0xFFFFFFFF, 0x100000, some 0, 0, false, none, false, false⟩]

def bl1 : Block :=
  { id := 1, launch := 1, index := 0, age := 1, slot := 0, state := .resident, started := true, stopped := false, preempted := false, inSlot := false
    groups := [gr1], parts := [pt1], mmas := [], idle := 0, heldOn := [] }

/-- The machine with that block resident and its unit issuing, overlay 0 in frame 0, every slot of line 0 a legal target. -/
def blk : State :=
  { State.reset with
    cur := .unit 1 0 0, nextId := 10, blocks := [bl1], launches := [la1]
    windows := [{ launch := 1, core := 0, map := [some 0, none], loading := [], bytes := ⟨[(0x3C, 0x1F)]⟩ }] }

/-- The same machine with its group changed. -/
def blkG (f : Group → Group) : State := { blk with blocks := [{ bl1 with groups := [f gr1] }] }

/-- The same machine with half of the group away at another IP. -/
def split : State :=
  blkG fun g => { g with
    threads := g.threads.mapIdx fun l t => if l < 16 then t else { t with ip := 0x100040 }
    units := [⟨0xFFFF, 0x100000, some 0, 0, false, none, false, false⟩, ⟨0xFFFF0000, 0x100040, some 0, 0, false, none, false, false⟩] }

/-- The unit of a state stands, no pair of its group is pending, nothing is poisoned and no checker stands against it. -/
def quiet (s : State) : Bool :=
  s.ctx? = some (here s) && (here s).rd.threads.all (fun t => t.pend.isEmpty) && s.rel.poison.isEmpty && s.rel.checker.isEmpty

/-- Its unit also is the whole group. -/
def quietWhole (s : State) : Bool := quiet s && !(here s).lanes.isEmpty && (here s).whole

theorem pendIn_of_quiet {s : State} (h : quiet s = true) (l : Nat) (regs : List Nat) : ((here s).rd.thread l).pendIn regs = [] := by
  simp only [quiet, Bool.and_eq_true, List.all_eq_true] at h
  have : ((here s).rd.thread l).pend = [] := by
    unfold Group.thread
    by_cases hl : l < (here s).rd.threads.length
    · simpa [List.getD_eq_getElem?_getD, hl] using h.1.1.2 _ (List.getElem_mem hl)
    · simp [List.getD_eq_getElem?_getD, hl, Thread.none, Thread.fresh]
  simp [Thread.pendIn, this]

theorem poisonTrap_of_quiet {s : State} (h : quiet s = true) (l : Nat) (regs : List Nat) : s.poisonTrap l regs = [] := by
  simp only [quiet, Bool.and_eq_true] at h
  simp [State.poisonTrap, h.1.2]

theorem checker_of_quiet {s : State} (h : quiet s = true) (cs : List Nat) : s.checkerCode cs = none := by
  simp only [quiet, Bool.and_eq_true, List.isEmpty_iff] at h
  unfold State.checkerCode
  split
  · rfl
  · simp [h.2]

theorem ctx_of_quiet {s : State} (h : quiet s = true) : s.ctx? = some (here s) := by
  simp only [quiet, Bool.and_eq_true, decide_eq_true_eq] at h
  exact h.1.1.1

theorem ready_of_quiet {s : State} (h : quiet s = true) (op : Nat) (f : Fields) : s.Ready (here s) op f :=
  ⟨ctx_of_quiet h, fun l _ _ => pendIn_of_quiet h l _, fun l _ _ => poisonTrap_of_quiet h l _⟩

theorem clear_of_quiet {s : State} (h : quiet s = true) (op : Nat) (f : Fields) : s.Clear (here s) op f :=
  ⟨ready_of_quiet h op f, checker_of_quiet h _, checker_of_quiet h _⟩

theorem clearGroup_of_quiet {s : State} (h : quietWhole s = true) (op : Nat) (f : Fields) : s.ClearGroup (here s) op f := by
  simp only [quietWhole, Bool.and_eq_true, Bool.not_eq_true', List.isEmpty_eq_false_iff] at h
  exact ⟨ctx_of_quiet h.1.1, checker_of_quiet h.1.1 _, h.1.2, h.2, fun _ => pendIn_of_quiet h.1.1 _ _,
    fun _ => poisonTrap_of_quiet h.1.1 _ _⟩

theorem canRun_of_quiet {s : State} (h : quietWhole s = true) (op : Nat) (f : Fields) : s.CanRun (here s) op f := by
  simp only [quietWhole, Bool.and_eq_true, Bool.not_eq_true', List.isEmpty_eq_false_iff] at h
  exact ⟨ctx_of_quiet h.1.1, fun _ => ⟨h.1.2, h.2⟩, fun l _ => pendIn_of_quiet h.1.1 l _, fun l _ => poisonTrap_of_quiet h.1.1 l _⟩

theorem blk_quiet : quietWhole blk = true := by decide +kernel
theorem mg_quiet : quietWhole (mg []) = true := by decide +kernel
theorem split_quiet : quiet split = true ∧ (here split).whole = false := by decide +kernel

theorem quiet_of {s : State} (h : quietWhole s = true) : quiet s = true := by
  simp only [quietWhole, Bool.and_eq_true] at h
  exact h.1.1

/-! ## Witnesses: the register pipeline -/

theorem wit_IntegerResultsInLanes : ∃ (i : Instr) (r : Result) (s : State) (c : Ctx), integerResult i = some r ∧
    s.Clear c r.op r.f ∧ r.f.namesS = false :=
  ⟨.iadd add3, _, blk, _, rfl, clear_of_quiet (quiet_of blk_quiet) _ _, rfl⟩

theorem wit_FloatResultsInLanes : ∃ (i : Instr) (r : Result) (s : State) (c : Ctx), floatResult i = some r ∧ r.f.rnd ≠ 5 ∧
    s.Clear c r.op r.f ∧ r.f.namesS = false :=
  ⟨.fadd (ab .f32), _, blk, _, rfl, by decide, clear_of_quiet (quiet_of blk_quiet) _ _, rfl⟩

theorem wit_MoveResultsInLanes : ∃ (i : Instr) (r : Result) (s : State) (c : Ctx), moveResult i = some r ∧ r.f.rnd ≠ 5 ∧
    movesPair i = false ∧ s.Clear c r.op r.f ∧ r.f.namesS = false :=
  ⟨.sel { ab .f32 with c := .p 1 }, _, blk, _, rfl, by decide, rfl, clear_of_quiet (quiet_of blk_quiet) _ _, rfl⟩

/-- S4 := S5 + 1. -/
def sAdd : Fields := fld (.s 4) (.s 5) .imm .zero .i32 1

theorem wit_ScalarFormsOnceForGroup : ∃ (i : Instr) (r : Result) (s : State) (c : Ctx), integerResult i = some r ∧ r.f.rnd ≠ 5 ∧
    movesPair i = false ∧ s.ClearGroup c r.op r.f ∧ r.f.namesS = true :=
  ⟨.iadd sAdd, _, blk, _, rfl, by decide, rfl, clearGroup_of_quiet blk_quiet _ _, rfl⟩

theorem wit_StochasticRoundingDrawsFromTheThread : ∃ (i : Instr) (r : SrResult) (s : State) (c : Ctx), stochasticResult i = some r ∧
    r.f.rnd = 5 ∧ s.Clear c r.op r.f ∧ r.f.namesS = false :=
  ⟨.fadd { ab .f32 with rnd := 5 }, _, blk, _, rfl, rfl, clear_of_quiet (quiet_of blk_quiet) _ _, rfl⟩

/-- ICMP.EQ.I32 P2, S5, V6 for the group; FCMP in lanes. -/
theorem wit_ComparesWritePredicates :
    (∃ (i : Instr) (r : PredResult) (s : State) (c : Ctx), predResult i = some r ∧ s.Clear c r.op r.f ∧ r.f.namesS = false) ∧
    ∃ (i : Instr) (r : PredResult) (s : State) (c : Ctx), predResult i = some r ∧ s.ClearGroup c r.op r.f ∧ r.f.namesS = true :=
  ⟨⟨.fcmp (fld (.p 3) (.v 4) (.v 4) .zero .f32 0), _, blk, _, rfl, clear_of_quiet (quiet_of blk_quiet) _ _, rfl⟩,
    ⟨.icmp (fld (.p 2) (.s 5) (.v 6) .zero .i32 0), _, blk, _, rfl, clearGroup_of_quiet blk_quiet _ _, rfl⟩⟩

theorem wit_AddWithCarryWritesTheCarryBack :
    (∃ (f : Fields) (s : State) (c : Ctx), s.Clear c 0x01 f ∧ f.namesS = false) ∧
      ∃ (f : Fields) (s : State) (c : Ctx), s.ClearGroup c 0x01 f ∧ f.namesS = true :=
  ⟨⟨{ ab .n32 with c := .p 0 }, blk, _, clear_of_quiet (quiet_of blk_quiet) _ _, rfl⟩,
    ⟨{ sAdd with ty := .n32, c := .p 0 }, blk, _, clearGroup_of_quiet blk_quiet _ _, rfl⟩⟩

/-- V4:V5 is pending on command 7 in every lane, and V8:V9 is pending on nothing. -/
def pendBlk : State := blkG fun g => { g with threads := g.threads.map fun t => { t with pend := [⟨4, 7, false⟩] } }

theorem wit_MoveCopiesAPendingHandle : ∃ (f : Fields) (a d : BitVec 8), f.ty.pair = true ∧ f.a = .v a ∧ f.d = .v d ∧
    f.namesS = false ∧ pendBlk.ctx? = some (here pendBlk) ∧ pendBlk.checkerCode [0] = none ∧
    ∀ l ∈ (here pendBlk).lanes, ((here pendBlk).rd.thread l).guard f = true →
      let handle (t : Thread) : Option PendPair := t.pend.find? fun q => q.reg = a.toNat && !q.cancelled
      let regs (l : Nat) : List Nat := if (handle ((here pendBlk).rd.thread l)).isSome then [] else [a.toNat, a.toNat + 1]
      ((here pendBlk).rd.thread l).pendIn (regs l) = [] ∧ pendBlk.poisonTrap l (regs l) = [] ∧
        (handle ((here pendBlk).rd.thread l)).isSome = true :=
  ⟨fld (.v 8) (.v 4) .zero .zero .n64 0, 4, 8, rfl, rfl, rfl, rfl, by decide +kernel, by decide +kernel, by decide +kernel⟩

theorem wit_PredicateFunctionsAndMoves : ∃ (f g : Fields) (s : State) (c : Ctx), f.namesS = false ∧ s.Clear c 0x57 f ∧
    g.namesS = false ∧ s.Clear c 0x58 g :=
  ⟨fld (.p 3) (.p 1) (.p 2) .zero .i8 0xC0, { fld .zero (.v 1) .zero .zero .i8 0x7F with fn := 1 }, blk, _, rfl,
    clear_of_quiet (quiet_of blk_quiet) _ _, rfl, clear_of_quiet (quiet_of blk_quiet) _ _⟩

/-- The last 8 bytes of the window (V38:V39 of 40), and its last byte. -/
theorem wit_WindowLoadsAndStores :
    (∃ (f : Fields) (s : State) (c : Ctx), f.ty = .n64 ∧ s.ClearWindow c 0x48 f true) ∧
      ∃ (f : Fields) (s : State) (c : Ctx), f.ty = .i8 ∧ s.ClearWindow c 0x49 f false :=
  ⟨⟨fld (.v 2) .zero .zero .zero .n64 152, blk, here blk, rfl,
      { ctx := by decide +kernel, noS := rfl, checker := by decide +kernel, aligned := by decide +kernel, inside := by decide +kernel
        same := by decide +kernel, ready := by decide +kernel }⟩,
    ⟨fld .zero .zero (.v 3) .zero .i8 159, blk, here blk, rfl,
      { ctx := by decide +kernel, noS := rfl, checker := by decide +kernel, aligned := by decide +kernel, inside := by decide +kernel
        same := by decide +kernel, ready := by decide +kernel }⟩⟩

theorem clearLanes_of_quiet {s : State} (h : quiet s = true) (op : Nat) (f : Fields) : s.ClearLanes (here s) op f :=
  ⟨fun l _ => ⟨pendIn_of_quiet h l _, poisonTrap_of_quiet h l _⟩, fun l _ _ => ⟨pendIn_of_quiet h l _, poisonTrap_of_quiet h l _⟩⟩

theorem wit_QuadExchange : ∃ (f g : Fields) (s : State) (c : Ctx), s.ctx? = some c ∧ f.namesS = false ∧ g.namesS = false ∧
    (∀ l ∈ c.lanes, (c.g.thread l).status = .ready) ∧ s.ClearLanes c 0x50 f ∧ s.ClearLanes c 0x51 g :=
  ⟨fld (.v 1) (.v 2) .zero .zero .n32 0, fld (.v 1) (.v 2) (.v 3) .zero .n32 0, split, here split, by decide +kernel, rfl, rfl,
    by decide +kernel, clearLanes_of_quiet split_quiet.1 _ _, clearLanes_of_quiet split_quiet.1 _ _⟩

/-- A whole group, and a divided one. -/
theorem wit_GroupWideLaneInstructions :
    (∃ (i : Instr) (s : State) (c : Ctx) (op : Nat) (f : Fields) (run : Nat → Thread → Thread), laneEffect i s c = some (op, f, run) ∧
      s.ctx? = some c ∧ s.ClearLanes c op f ∧ c.whole = true ∧ f.namesS = false) ∧
    ∃ (i : Instr) (s : State) (c : Ctx) (op : Nat) (f : Fields) (run : Nat → Thread → Thread), laneEffect i s c = some (op, f, run) ∧
      s.ctx? = some c ∧ s.ClearLanes c op f ∧ c.whole = false :=
  ⟨⟨.gshf { fld (.v 3) (.v 2) .imm .zero .n32 16 with fn := 3 }, blk, here blk, _, _, _, rfl, by decide +kernel,
      clearLanes_of_quiet (quiet_of blk_quiet) _ _, by decide +kernel, rfl⟩,
    ⟨.gred (fld (.v 1) (.v 2) .zero .zero .i32 0), split, here split, _, _, _, rfl, by decide +kernel,
      clearLanes_of_quiet split_quiet.1 _ _, split_quiet.2⟩⟩

/-! ## Witnesses: control -/

/-- A branch to line 0's slot 3, an indirect call to slot 4, and a target of line 3 whose slot is no legal target; an
indirect target that is ill formed. -/
theorem wit_TransfersGoToTheirTargets :
    (∃ (i : Instr) (x : Transfer), transferOf i blk (here blk) = some x ∧ blk.Ready (here blk) x.op x.f ∧ blk.redundant = false ∧
      x.call = true ∧ (∀ l ∈ (here blk).lanes, blk.reaches (x.target l) ∧ blk.isTarget (x.target l) = true) ∧
      ∀ l ∈ (here blk).lanes, ((here blk).g.thread l).depth < 8) ∧
    (∃ (i : Instr) (x : Transfer), transferOf i blk (here blk) = some x ∧ blk.Ready (here blk) x.op x.f ∧
      ∃ l ∈ (here blk).lanes, ((here blk).rd.thread l).guard x.f = true ∧ blk.ipOk (x.target l) = false) ∧
    ∃ (i : Instr) (x : Transfer), transferOf i blk (here blk) = some x ∧ blk.Ready (here blk) x.op x.f ∧
      (∀ l ∈ (here blk).lanes, ((here blk).rd.thread l).guard x.f = true → blk.reaches (x.target l)) ∧
      ∃ l ∈ (here blk).lanes, ((here blk).rd.thread l).guard x.f = true ∧ blk.isTarget (x.target l) = false := by
  have hr := fun op f => ready_of_quiet (quiet_of blk_quiet) op f
  unfold State.reaches
  exact ⟨⟨.call (fld .zero .zero .zero .zero .i8 4), _, rfl, hr _ _, by decide +kernel, rfl, by decide +kernel, by decide +kernel⟩,
    ⟨.bra (fld .zero .zero .zero .zero .i8 5), _, rfl, hr _ _, by decide +kernel⟩,
    ⟨.bra (fld .zero .zero .zero .zero .i8 0x18), _, rfl, hr _ _, by decide +kernel, by decide +kernel⟩⟩

/-- Every thread has called to depth 8, the most that needs no refill. -/
def deep : State := blkG fun g => { g with threads := g.threads.map fun t => { t with depth := 8, link := List.replicate 8 0x100003 } }

theorem wit_ReturnsPopTheLinkStack :
    (∃ f : Fields, deep.Ready (here deep) 0x64 f ∧ deep.redundant = false ∧ ∀ l ∈ (here deep).lanes,
      0 < ((here deep).g.thread l).depth ∧ ((here deep).g.thread l).depth ≤ 8 ∧ deep.reaches (((here deep).g.thread l).link.headD 0)) ∧
    ∃ f : Fields, blk.Ready (here blk) 0x64 f ∧
      ∃ l ∈ (here blk).lanes, ((here blk).rd.thread l).guard f = true ∧ ((here blk).g.thread l).depth = 0 := by
  unfold State.reaches
  exact ⟨⟨fld .zero .zero .zero .zero .i8 0, ready_of_quiet (by decide +kernel) _ _, by decide +kernel, by decide +kernel⟩,
    ⟨fld .zero .zero .zero .zero .i8 0, ready_of_quiet (quiet_of blk_quiet) _ _, by decide +kernel⟩⟩

/-- Every thread in level 0 of a loop whose end is the current slot, with 2 and with 1 passes left. -/
def looped (n : Word) : Thread := { Thread.fresh 40 0x100000 1 false with loops := [⟨true, 0x100000, 0x100000, n⟩, .off, .off, .off] }
def loopBlk : State := blkG fun g => { g with threads := g.threads.map fun _ => looped 2 }

theorem wit_LoopLevels :
    (∃ f : Fields, blk.Ready (here blk) 0x65 f ∧ wellFormedIp (directTarget (here blk).u.ip f) = true ∧
      ((here blk).u.ip.toNat : Int) < directNum (here blk).u.ip f ∧ directNum (here blk).u.ip f < 2 ^ 64 ∧
      ∀ l ∈ (here blk).lanes, ((here blk).g.thread l).loops.all (·.active) = false) ∧
    (∃ f : Fields, blk.Ready (here blk) 0x65 f ∧ directNum (here blk).u.ip f = (here blk).u.ip.toNat ∧ (here blk).active f ≠ []) ∧
    (∃ f : Fields, loopBlk.Ready (here loopBlk) 0x66 f ∧ loopBlk.redundant = false ∧
      ∀ l ∈ (here loopBlk).lanes, topLevel ((here loopBlk).g.thread l).loops 0 ≠ 0) ∧
    ∀ n : Fin 3, ∃ (t : Thread) (k : Nat), k < t.loops.length ∧
      (∀ j, j < t.loops.length → ((t.loops.getD j .off).active = true → j ≤ k)) ∧ (t.loops.getD k .off).active = true ∧
      (if n = 2 then (t.loops.getD k .off).last ≠ t.ip
       else (t.loops.getD k .off).last = t.ip ∧ (t.loops.getD k .off).count.toNat = n.val + 1) := by
  refine ⟨⟨fld .zero (.v 1) .zero .zero .i8 1, ready_of_quiet (quiet_of blk_quiet) _ _, by decide +kernel, by decide +kernel,
      by decide +kernel, by decide +kernel⟩, ⟨fld .zero (.v 1) .zero .zero .i8 0, ready_of_quiet (quiet_of blk_quiet) _ _, by decide +kernel,
      by decide +kernel⟩, ⟨fld .zero .zero .zero .zero .i8 0, ready_of_quiet (by decide +kernel) _ _, by decide +kernel,
      by decide +kernel⟩, fun n => ?_⟩
  match n with
  | 0 => exact ⟨looped 1, 0, by decide +kernel, by decide +kernel, rfl, rfl, rfl⟩
  | 1 => exact ⟨looped 2, 0, by decide +kernel, by decide +kernel, rfl, rfl, rfl⟩
  | 2 => exact ⟨{ looped 2 with ip := 0x100001 }, 0, by decide +kernel, by decide +kernel, rfl, by decide +kernel⟩

/-- J7 names lanes 0 to 15 and holds no arrival yet. -/
def joinBlk : State := blkG fun g => { g with j := setAt g.j 7 0xFFFF }

theorem wit_RejoinMasks : ∃ (f : Fields) (a : Fields) (n : Nat) (s : State), n < 8 ∧ (here s).g.j.length = 8 ∧ (here s).g.arrived.length = 8 ∧
    (∀ l ∈ (here s).lanes, ((here s).g.thread l).status = .ready) ∧ f.d = .j (BitVec.ofNat 3 n) ∧
    (∃ l ∈ (here s).lanes, ((here s).rd.thread l).guard f = true) ∧ s.Ready (here s) 0x68 f ∧ s.Ready (here s) 0x6A f ∧
    s.Ready (here s) 0x69 a ∧ a.a = .j (BitVec.ofNat 3 n) ∧ (here s).g.arrived.getD n 0 &&& (here s).g.j.getD n 0 = (here s).g.arrived.getD n 0 ∧
    (here s).lanes.filter (fun l => ((here s).rd.thread l).guard a && !((here s).g.thread l).helper && ((here s).g.j.getD n 0).getLsbD l) ≠ [] ∧
    ∀ l ∈ (here s).lanes, ((here s).g.arrived.getD n 0).getLsbD l = false := by
  have h : quiet joinBlk = true := by decide +kernel
  exact ⟨fld (.j 7) .imm .zero .zero .i8 0xFF, fld .zero (.j 7) .zero .zero .i8 0, 7, joinBlk, by decide, by decide +kernel, by decide +kernel,
    by decide +kernel, rfl, by decide +kernel, ready_of_quiet h _ _, ready_of_quiet h _ _, ready_of_quiet h _ _, rfl, by decide +kernel,
    by decide +kernel, by decide +kernel⟩

theorem wit_NopYieldAndBreak : ∃ (f : Fields) (s : State) (c : Ctx), s.ctx? = some c ∧ (∀ r, s.pairRead ≠ some (r, true)) ∧
    (∃ l ∈ c.lanes, (c.rd.thread l).guard f = true) ∧ (c.active f).head? = some 0 ∧ (c.active { f with gn := true }) = [] :=
  ⟨fld .zero .zero .zero .zero .i8 0xFFFF, blk, here blk, by decide +kernel, (by intro r h; cases h), by decide +kernel, by decide +kernel,
    by decide +kernel⟩

theorem wit_UserTrapsGoToTheEntry : ∃ (s : State) (c : Ctx), s.ctx? = some c ∧ ∀ l ∈ c.lanes, (c.g.thread l).depth < 8 :=
  ⟨blk, here blk, by decide +kernel, by decide +kernel⟩

/-- Frame 1, the only frame that may be named, receives overlay 2, the last of the image, or is unmapped. -/
theorem wit_OverlayMapping : ∀ n ∈ [(2 : Word), 0xFFFFFFFF], ∃ (f : Fields) (s : State) (la : Launch), s.Ready (here s) 0x6E f ∧ s.launchOf s.cur = some la ∧
    (∀ l ∈ (here s).lanes, ((here s).rd.thread l).guard f = true →
      let fr := (s.operand (here s).rd l f false f.a).toNat
      let ov := (s.operand (here s).rd l f false f.b).toNat
      fr ≠ 0 ∧ fr < la.frames ∧ ov = n.toNat ∧ ov ≠ 0 ∧ (ov = 0xFFFFFFFF ∨ ov < la.novl)) ∧ s.cmds = [] ∧
    ∀ l ∈ (here s).lanes, ((here s).g.thread l).status = .ready := by
  simp only [List.mem_cons, List.not_mem_nil, or_false, forall_eq_or_imp, forall_eq]
  exact ⟨⟨fld .zero (.v 1) (.v 2) .zero .i8 0, blkG fun g => { g with threads := g.threads.map fun t => { t with v := [0, 1, 2] } }, la1,
      ready_of_quiet (by decide +kernel) _ _, by decide +kernel, by decide +kernel, rfl, by decide +kernel⟩,
    ⟨fld .zero (.v 1) (.v 2) .zero .i8 0, blkG fun g => { g with threads := g.threads.map fun t => { t with v := [0, 1, 0xFFFFFFFF] } }, la1,
      ready_of_quiet (by decide +kernel) _ _, by decide +kernel, by decide +kernel, rfl, by decide +kernel⟩⟩

theorem wit_EndingThreads : ∃ (f : Fields) (s : State) (c : Ctx), s.ctx? = some c ∧ s.redundant = false ∧ c.g.threads.length = 32 ∧
    (∀ r, s.pairRead ≠ some (r, true)) ∧ (∀ w ∈ s.windows, w.loading = []) ∧ ∃ l ∈ c.lanes, (c.rd.thread l).guard f = true :=
  ⟨fld .zero .zero .zero .zero .i8 0, blk, here blk, by decide +kernel, by decide +kernel, by decide +kernel, (by intro r h; cases h),
    by decide +kernel, by decide +kernel⟩

/-! ## Witnesses: memory -/

/-- A plain place, as a Bool. -/
def plainB (s : State) (p : Place) (size : Nat) : Bool :=
  match p with
  | .loc _ => (s.deadPlace p).isNone
  | .scr _ off => !s.heldPlace p && !s.hiddenHalf off size
  | .const _ | .zero => true
  | .ctl _ _ => false

theorem plain_of {s : State} {p : Place} {n : Nat} (h : plainB s p n = true) : s.plain p n := by
  cases p <;> simp_all [plainB, State.plain]

/-- The lanes of the unit hold register values of their own. -/
def withV (s : State) (v : Nat → List Word) : State :=
  { s with blocks := s.blocks.map fun b => { b with groups := b.groups.map fun g => { g with
      threads := g.threads.mapIdx fun l t => { t with v := v l } } } }

/-- The last word of HBM for the management core; a scratch word of each lane, up to the last of the allocation, for a block. -/
def topMem : State := mg [(2, 0xFFFFFFFC), (3, 0xBF)]
def lanesMem : State := withV blk fun l => [BitVec.ofNat 32 (0x3F80 + 4 * l), 1, 2, 3]

theorem topMem_quiet : quietWhole topMem = true := by decide +kernel
theorem lanesMem_quiet : quietWhole lanesMem = true := by decide +kernel

theorem wit_LoadsBecomeOutstandingWithTheirValue :
    ∀ x ∈ [(topMem, Instr.ld (fld (.v 4) (.v 2) .zero .zero .n32 0)), (lanesMem, Instr.lds (fld (.v 2) (.v 0) .zero .zero .n32 0)),
        (blk, Instr.ldk (fld (.v 2) .zero .zero .zero .n32 0x10FC))],
      ∃ (s : State) (m : MemOp), s = x.1 ∧ loadOf x.2 = some m ∧ s.CanRun (here s) m.op m.f ∧ s.redundant = false ∧
        ∀ l ∈ (here s).actors m.f,
          let p := s.goes (here s) m false ((here s).rd.thread l).helper l
          p.2 = [] ∧ s.plain p.1 m.size ∧ s.poisonRead l p.1 m.size = [] ∧ ((here s).g.thread l).sysPending = false ∧
            ∀ k ∈ (here s).takers m.f l, ((here s).g.thread k).ld.length < 63 := by
  have ok (s : State) (m : MemOp) (h : ∀ l ∈ (here s).actors m.f,
      let p := s.goes (here s) m false ((here s).rd.thread l).helper l
      p.2 = [] ∧ plainB s p.1 m.size = true ∧ s.poisonRead l p.1 m.size = [] ∧ ((here s).g.thread l).sysPending = false ∧
        ∀ k ∈ (here s).takers m.f l, ((here s).g.thread k).ld.length < 63) :
      ∀ l ∈ (here s).actors m.f,
        let p := s.goes (here s) m false ((here s).rd.thread l).helper l
        p.2 = [] ∧ s.plain p.1 m.size ∧ s.poisonRead l p.1 m.size = [] ∧ ((here s).g.thread l).sysPending = false ∧
          ∀ k ∈ (here s).takers m.f l, ((here s).g.thread k).ld.length < 63 :=
    fun l hl => ⟨(h l hl).1, plain_of (h l hl).2.1, (h l hl).2.2⟩
  simp only [List.mem_cons, List.not_mem_nil, or_false, forall_eq_or_imp, forall_eq]
  exact ⟨⟨_, _, rfl, rfl, canRun_of_quiet topMem_quiet _ _, by decide +kernel, ok _ _ (by decide +kernel)⟩,
    ⟨_, _, rfl, rfl, canRun_of_quiet lanesMem_quiet _ _, by decide +kernel, ok _ _ (by decide +kernel)⟩,
    ⟨_, _, rfl, rfl, canRun_of_quiet blk_quiet _ _, by decide +kernel, ok _ _ (by decide +kernel)⟩⟩

theorem wit_StoresWriteTheLowBytesInSomeOrder :
    ∀ x ∈ [(topMem, Instr.st (fld .zero (.v 2) (.v 4) .zero .n8 3)), (lanesMem, Instr.sts (fld .zero (.v 0) (.v 2) .zero .n32 0))],
      ∃ (s : State) (m : MemOp), s = x.1 ∧ storeOf x.2 = some m ∧ s.CanRun (here s) m.op m.f ∧ s.redundant = false ∧
        (∀ l ∈ (here s).actors m.f, ∀ k ∈ (here s).takers m.f l, ((here s).g.thread k).st.length < 63) ∧
        ∀ l ∈ (here s).actors m.f, ((here s).rd.thread l).helper = false ∧
          (s.goes (here s) m true false l).2 = [] ∧ s.plain (s.goes (here s) m true false l).1 m.size ∧
          ((here s).g.thread l).sysPending = false := by
  have ok (s : State) (m : MemOp) (h : ∀ l ∈ (here s).actors m.f, ((here s).rd.thread l).helper = false ∧
      (s.goes (here s) m true false l).2 = [] ∧ plainB s (s.goes (here s) m true false l).1 m.size = true ∧
      ((here s).g.thread l).sysPending = false) :
      ∀ l ∈ (here s).actors m.f, ((here s).rd.thread l).helper = false ∧
        (s.goes (here s) m true false l).2 = [] ∧ s.plain (s.goes (here s) m true false l).1 m.size ∧
        ((here s).g.thread l).sysPending = false :=
    fun l hl => ⟨(h l hl).1, (h l hl).2.1, plain_of (h l hl).2.2.1, (h l hl).2.2.2⟩
  simp only [List.mem_cons, List.not_mem_nil, or_false, forall_eq_or_imp, forall_eq]
  exact ⟨⟨_, _, rfl, rfl, canRun_of_quiet topMem_quiet _ _, by decide +kernel, by decide +kernel, ok _ _ (by decide +kernel)⟩,
    ⟨_, _, rfl, rfl, canRun_of_quiet lanesMem_quiet _ _, by decide +kernel, by decide +kernel, ok _ _ (by decide +kernel)⟩⟩

theorem wit_AtomicsReadModifyWriteInSomeOrder :
    ∀ x ∈ [(topMem, Instr.atom (fld (.v 6) (.v 2) (.v 8) .zero .n32 0)),
        (lanesMem, Instr.atoms { fld (.v 3) (.v 0) (.v 1) (.v 2) .n32 0 with fn := 7 }),
        (topMem, Instr.red (fld .zero (.v 2) (.v 8) .zero .n32 0))],
      ∃ (s : State) (m : MemOp), s = x.1 ∧ atomicOf x.2 = some m ∧ s.CanRun (here s) m.op m.f ∧ s.redundant = false ∧
        (∀ l ∈ (here s).actors m.f, ∀ k ∈ (here s).takers m.f l,
          ((here s).g.thread k).st.length < 63 ∧ ((here s).g.thread k).ld.length < 63) ∧
        ∀ l ∈ (here s).actors m.f, ((here s).rd.thread l).helper = false ∧
          (s.goes (here s) m true false l).2 = [] ∧ s.plain (s.goes (here s) m true false l).1 m.size ∧
          s.poisonRead l (s.goes (here s) m true false l).1 m.size = [] ∧ ((here s).g.thread l).sysPending = false := by
  have ok (s : State) (m : MemOp) (h : ∀ l ∈ (here s).actors m.f, ((here s).rd.thread l).helper = false ∧
      (s.goes (here s) m true false l).2 = [] ∧ plainB s (s.goes (here s) m true false l).1 m.size = true ∧
      s.poisonRead l (s.goes (here s) m true false l).1 m.size = [] ∧ ((here s).g.thread l).sysPending = false) :
      ∀ l ∈ (here s).actors m.f, ((here s).rd.thread l).helper = false ∧
        (s.goes (here s) m true false l).2 = [] ∧ s.plain (s.goes (here s) m true false l).1 m.size ∧
        s.poisonRead l (s.goes (here s) m true false l).1 m.size = [] ∧ ((here s).g.thread l).sysPending = false :=
    fun l hl => ⟨(h l hl).1, (h l hl).2.1, plain_of (h l hl).2.2.1, (h l hl).2.2.2⟩
  simp only [List.mem_cons, List.not_mem_nil, or_false, forall_eq_or_imp, forall_eq]
  exact ⟨⟨_, _, rfl, rfl, canRun_of_quiet topMem_quiet _ _, by decide +kernel, by decide +kernel, ok _ _ (by decide +kernel)⟩,
    ⟨_, _, rfl, rfl, canRun_of_quiet lanesMem_quiet _ _, by decide +kernel, by decide +kernel, ok _ _ (by decide +kernel)⟩,
    ⟨_, _, rfl, rfl, canRun_of_quiet topMem_quiet _ _, by decide +kernel, by decide +kernel, ok _ _ (by decide +kernel)⟩⟩

/-- Context 0's tables map VA 0x200000 to the 64 KiB at 0x300000, class DEVICE, writable: R346's walk. -/
def tables : Memory :=
  ⟨[(0x10000, 0x01), (0x10001, 0x10), (0x10002, 0x01), (0x11000, 0x01), (0x11001, 0x20), (0x11002, 0x01), (0x12000, 0x01),
    (0x12001, 0x30), (0x12002, 0x01), (0x13100, 0x47), (0x13102, 0x30)]⟩

def paged (s : State) : State := { s with mem := tables, csr := { s.csr with ptBase := setAt s.csr.ptBase 0 0x10001 } }

theorem test_walk : (paged blk).leafOf 0 0x20FFFF = some (0x300047, 0) ∧ (paged blk).leafOf 0 0x210000 = none := by decide +kernel

/-- Device memory, a scratch place of the block and one of the management core. -/
theorem wit_PlacesReadBackWhatWasWritten :
    ∀ x ∈ [(blk, Place.scr 0 0x3FFC), (topMem, Place.scr 0 0x7FFFC), (topMem, Place.loc ⟨.dev 0xBFFFFFFFFC, true, 2, false⟩)],
      x.1.memoriesWf = true ∧ x.1.plain x.2 4 ∧ (∀ o, x.2 ≠ .const o) ∧ x.2 ≠ .zero ∧
        ∀ part off, x.2 = .scr part off → x.1.cur = .mgmt ∨ ∃ b g u k, x.1.cur = .unit b g u ∧ (x.1.block? b).bind (·.part part) = some k := by
  simp only [List.mem_cons, List.not_mem_nil, or_false, forall_eq_or_imp, forall_eq]
  refine ⟨⟨by decide +kernel, plain_of (by decide +kernel), by simp, by simp, fun part off h => Or.inr ⟨1, 0, 0, pt1, rfl, ?_⟩⟩,
    ⟨by decide +kernel, plain_of (by decide +kernel), by simp, by simp, fun _ _ _ => Or.inl rfl⟩,
    ⟨by decide +kernel, plain_of (by decide +kernel), by simp, by simp, fun _ _ _ => Or.inl rfl⟩⟩
  injection h with h1 h2
  subst h1
  rfl

/-- No counter beyond its bound, and a load too many. -/
theorem wit_PrefetchAndWaitingForCounters :
    (∃ f, blk.CanRun (here blk) 0x78 f ∧ blk.redundant = false) ∧ (∃ f, blk.CanRun (here blk) 0x7C f ∧ ∀ l ∈ (here blk).actors f, ((here blk).g.thread l).sysPending = false) ∧
    (∃ f, blk.CanRun (here blk) 0x98 f ∧ ∀ l ∈ (here blk).actors f, ((here blk).g.thread l).ld.length ≤ f.immBits 5 0 ∧
      ((here blk).g.thread l).st.length ≤ f.immBits 11 6 ∧ ((here blk).g.thread l).mx ≤ f.immBits 15 12) :=
  ⟨⟨fld .zero (.v 2) .zero .zero .i8 64, canRun_of_quiet blk_quiet _ _, by decide +kernel⟩,
    ⟨fld .zero .zero .zero .zero .i8 0, canRun_of_quiet blk_quiet _ _, by decide +kernel⟩,
    ⟨fld .zero .zero .zero .zero .i8 0, canRun_of_quiet blk_quiet _ _, by decide +kernel⟩⟩

/-! ## Witnesses: pins, barriers, handles -/

theorem wit_PinsHoldOneOfTheNamesWritten : ∃ f g : Fields, blk.redundant = false ∧ blk.CanRun (here blk) 0x79 f ∧
    blk.CanRun (here blk) 0x7A g ∧ ((here blk).actors f).filter (fun l => !((here blk).rd.thread l).helper) ≠ [] :=
  ⟨fld (.pn 0) (.v 10) .zero .zero .i8 0, fld (.pn 3) .zero .zero .zero .i8 0, by decide +kernel, canRun_of_quiet blk_quiet _ _,
    canRun_of_quiet blk_quiet _ _, by decide +kernel⟩

/-- The ring in the mapped page, the barrier in the last 16 bytes of scratch. -/
def pinBlk : State := paged (withV blk fun _ => [0x3FF0, 0, 0x200000, 0])

theorem wit_ReclaimSearchesAndHolds : ∃ f : Fields, pinBlk.CanRun (here pinBlk) 0x7B f ∧ pinBlk.redundant = false ∧
    (∀ q ∈ pinBlk.searches, q.id < pinBlk.nextId) ∧
    ∀ l ∈ ((here pinBlk).actors f).filter (fun l => !((here pinBlk).rd.thread l).helper),
      pinBlk.reclaimTraps f (here pinBlk) l = [] ∧
        pinBlk.partSaved (scrPart (pinBlk.operand (here pinBlk).rd l f false f.b).toNat) = false :=
  ⟨fld (.v 10) (.v 6) (.v 0) (.v 2) .i8 0, canRun_of_quiet (by decide +kernel) _ _, by decide +kernel, by decide +kernel,
    by decide +kernel⟩

/-- The last arrival and the last bytes complete the phase; one arrival, or one byte, short they do not. -/
theorem wit_BarrierPhasesCompleteWhenBothExpectationsAreMet :
    ∀ x ∈ ([(0xFFFF + 0xFFFE * 2 ^ 16 + 64 * 2 ^ 32, 1, 64, 0, true), (0xFFFF + 0xFFFD * 2 ^ 16 + 64 * 2 ^ 32, 1, 64, 0, false),
        (1 + 64 * 2 ^ 32, 1, 63, 0, false), (1 + 0x7FFFFFFF * 2 ^ 64, 1, 0, 1, true)] : List (Nat × Nat × Nat × Nat × Bool)),
      x.1 < 2 ^ 128 ∧ barArra x.1 + x.2.1 < 2 ^ 16 ∧ -2 ^ 31 ≤ barBal x.1 + (x.2.2.1 : Int) - (x.2.2.2.1 : Int) ∧
        barBal x.1 + (x.2.2.1 : Int) - (x.2.2.2.1 : Int) < 2 ^ 31 ∧
        (barTest x.1 x.2.1 x.2.2.1 x.2.2.2.1).2 = x.2.2.2.2 := by decide +kernel

theorem wit_BarrierInstructionsMakeTheirEvents :
    ∀ i ∈ [Instr.binit (fld .zero (.v 0) (.v 1) (.v 2) .i8 0), .barv (fld .zero (.v 0) .zero .zero .i8 0),
        .bexp (fld .zero (.v 0) (.v 1) .zero .i8 0), .brst (fld .zero (.v 0) (.v 1) .zero .i8 0)],
      ∃ (s : State) (b : BarOp), barOf i = some b ∧ s.CanRun (here s) b.op b.f ∧ s.redundant = false ∧
        ((here s).actors b.f).filter (fun l => !((here s).rd.thread l).helper) ≠ [] ∧
        ∀ l ∈ ((here s).actors b.f).filter (fun l => !((here s).rd.thread l).helper), s.objectOk b.f (here s) b.reads l := by
  have hq : quietWhole (withV blk fun _ => [0x3FF0, 1, 2]) = true := by decide +kernel
  simp only [List.mem_cons, List.not_mem_nil, or_false, forall_eq_or_imp, forall_eq]
  have ok (f : Fields) (rd : Bool) (h : ∀ l ∈ ((here (withV blk fun _ => [0x3FF0, 1, 2])).actors f).filter
      (fun l => !((here (withV blk fun _ => [0x3FF0, 1, 2])).rd.thread l).helper),
      (withV blk fun _ => [0x3FF0, 1, 2]).barPlace f (here (withV blk fun _ => [0x3FF0, 1, 2])) l = .ok (.scr 0 0x3FF0) ∧
      (withV blk fun _ => [0x3FF0, 1, 2]).partSaved 0 = false ∧ (withV blk fun _ => [0x3FF0, 1, 2]).poisonRead l (.scr 0 0x3FF0) 16 = []) :=
    fun l hl => (⟨0, 0x3FF0, (h l hl).1, (h l hl).2.1, fun _ => (h l hl).2.2⟩ : State.objectOk _ f _ rd l)
  exact ⟨⟨_, _, rfl, canRun_of_quiet hq _ _, by decide +kernel, by decide +kernel, ok _ _ (by decide +kernel)⟩,
    ⟨_, _, rfl, canRun_of_quiet hq _ _, by decide +kernel, by decide +kernel, ok _ _ (by decide +kernel)⟩,
    ⟨_, _, rfl, canRun_of_quiet hq _ _, by decide +kernel, by decide +kernel, ok _ _ (by decide +kernel)⟩,
    ⟨_, _, rfl, canRun_of_quiet hq _ _, by decide +kernel, by decide +kernel, ok _ _ (by decide +kernel)⟩⟩

/-- The barrier at the last place of scratch is in phase 1: phase 0 is satisfied, phase 1 is not. -/
def barBlk (v : List Word) : State :=
  let s := withV blk fun _ => v
  s.setScratchOf 1 0 (Memory.empty.write 0x3FF0 16 (2 ^ 96 + 1))

theorem objectOk_of {s : State} {f : Fields} {c : Ctx} {l o : Nat} (h : s.barPlace f c l = .ok (.scr 0 o) ∧ s.partSaved 0 = false ∧
    s.poisonRead l (.scr 0 o) 16 = []) (rd : Bool) : s.objectOk f c rd l :=
  ⟨0, o, h.1, h.2.1, fun _ => h.2.2⟩

/-- BWAIT or BTEST V5, [V0], V1. -/
def waitF : Fields := fld (.v 5) (.v 0) (.v 1) .zero .i8 0

theorem wait_runs {v : List Word} {sat : Bool} (hq : quietWhole (barBlk v) = true) (hr : (barBlk v).redundant = false)
    (h : ∀ l ∈ (here (barBlk v)).actors waitF, ((barBlk v).barPlace waitF (here (barBlk v)) l = .ok (.scr 0 0x3FF0) ∧
      (barBlk v).partSaved 0 = false ∧ (barBlk v).poisonRead l (.scr 0 0x3FF0) 16 = []) ∧
      barSat ((barBlk v).bar (barBlk v).cur.owner ((barBlk v).objectAt waitF (here (barBlk v)) l).1
        ((barBlk v).objectAt waitF (here (barBlk v)) l).2)
        (((barBlk v).operand (here (barBlk v)).rd l waitF false waitF.b).toNat % 2 ^ 16) = sat) :
    ∃ (f : Fields) (s : State), s.redundant = false ∧ (∀ n, f.d ≠ .s n) ∧
      (∀ l ∈ (here s).actors f, s.objectOk f (here s) true l) ∧ s.CanRun (here s) 0x94 f ∧ s.CanRun (here s) 0x93 f ∧
      ∀ l ∈ (here s).actors f, barSat (s.bar s.cur.owner (s.objectAt f (here s) l).1 (s.objectAt f (here s) l).2)
        ((s.operand (here s).rd l f false f.b).toNat % 2 ^ 16) = sat :=
  ⟨waitF, barBlk v, hr, (by intro n hn; cases hn), fun l hl => objectOk_of (h l hl).1 true, canRun_of_quiet hq _ _,
    canRun_of_quiet hq _ _, fun l hl => (h l hl).2⟩

theorem wit_BarrierWaitsAndTests : ∀ sat : Bool, ∃ (f : Fields) (s : State), s.redundant = false ∧ (∀ n, f.d ≠ .s n) ∧
    (∀ l ∈ (here s).actors f, s.objectOk f (here s) true l) ∧ s.CanRun (here s) 0x94 f ∧ s.CanRun (here s) 0x93 f ∧
    ∀ l ∈ (here s).actors f, barSat (s.bar s.cur.owner (s.objectAt f (here s) l).1 (s.objectAt f (here s) l).2)
      ((s.operand (here s).rd l f false f.b).toNat % 2 ^ 16) = sat
  | true => wait_runs (v := [0x3FF0, 0]) (by decide +kernel) (by decide +kernel) (by decide +kernel)
  | false => wait_runs (v := [0x3FF0, 1]) (by decide +kernel) (by decide +kernel) (by decide +kernel)

/-- A fill of 4 words from 0x1000 on, block 1's command 7. -/
def tileRec (base : Nat) (n : Nat) : List Byte :=
  leBytes 8 base ++ leBytes 4 0x21 ++ leBytes 4 0 ++ leBytes 4 n ++ List.replicate 32 0 ++ leBytes 2 n ++ List.replicate 10 0

def cmd7 : Cmd :=
  { id := 7, kind := .fill, core := 0, block := 1, part := 0, group := 0, lanes := 1, ctx := 0, launch := 1, var := 1, hold := false
    record := tileRec 0x1000 4, a := 0, b := 0x11223344, bar := 0, coords := [0], state := .running, data := .empty, read := []
    code := 0, bytes := 0, failAt := 0, cancel := false, entry := 0, seq := 0, hashes := [], matched := false, innet := false
    tiles := [], shards := [], since := 0 }

/-- The barrier at the last place of scratch, which a command names or none does. -/
theorem wit_BarrierInitAndReset : ∀ bar : Fin 2, ∃ s : State, s.memoriesWf = true ∧
    (∃ x p, s.block? 1 = some x ∧ x.part 0 = some p) ∧
    (∀ k ∈ s.cmds, k.block ≠ 0 ∧ (k.block = 1 → k.bar % 16 = 0 ∧ k.bar < 2 ^ 22)) ∧
    s.cmds.any (fun k => decide (k.state = .running) && k.block = 1 && s.publishesOn k 0x3FF0) = decide (bar.val = 1) := by
  intro bar
  refine ⟨{ blk with cmds := [{ cmd7 with bar := 0x3FF0 * bar.val }] }, ?_, ⟨bl1, pt1, rfl, rfl⟩, ?_, ?_⟩
  all_goals (revert bar; decide +kernel)

/-- V4:V5 is pending on command 7 in every lane. -/
def handleBlk : State := { pendBlk with cmds := [cmd7] }

theorem wit_HandleTestsAndCancels : ∃ (f : Fields) (r : BitVec 8) (s : State), f.a = .v r ∧ f.namesS = false ∧ s.redundant = false ∧
    s.CanRun (here s) 0x96 f ∧ s.CanRun (here s) 0x97 f ∧ s.undone 7 = true ∧
    ∃ l ∈ (here s).active f, ((here s).rd.thread l).pend.any (fun q => q.reg = r.toNat && !q.cancelled && q.cmd = 7) = true := by
  refine ⟨fld (.v 8) (.v 4) .zero .zero .i8 0, 4, handleBlk, rfl, rfl, by decide +kernel, ⟨by decide +kernel, (by intro h; cases h), ?_, ?_⟩,
    ⟨by decide +kernel, (by intro h; cases h), ?_, ?_⟩, by decide +kernel, by decide +kernel⟩ <;>
  decide +kernel

/-! ## Witnesses: engines -/

/-- A tile record and a collective record stand in scratch, and group 5 of context 0 is open. Lane 0 alone has P1. -/
def collRec (ctl : Nat) : List Byte :=
  leBytes 8 0 ++ leBytes 4 (0x1021 + ctl) ++ leBytes 4 0 ++ leBytes 4 4 ++ leBytes 4 0 ++ leBytes 2 5 ++ leBytes 2 0 ++ leBytes 2 2
    ++ leBytes 2 1 ++ leBytes 2 1 ++ leBytes 2 0 ++ List.replicate 4 0 ++ leBytes 2 0xFFFF ++ List.replicate 4 0
    ++ List.replicate 6 0 ++ leBytes 2 4 ++ List.replicate 10 0

def group5 : CollGroup := ⟨true, false, 5, 0xFFFFFFFF, 3, 3, 0⟩

def ctx5 : CtxBlock := { (State.reset.ctxs.getD 0 CtxBlock.reset) with groups := group5 :: List.replicate 31 ⟨false, false, 0, 0, 0, 0, 0⟩ }

def engBlk : State :=
  let s := blkG fun g => { g with threads := g.threads.mapIdx fun l t =>
    { t with v := [0x1000, 0, 0, 0, 0, 0, 0, 0], p := if l = 0 then 1 else 0 } }
  let s := { s with ctxs := setAt s.ctxs 0 ctx5 }
  s.setScratchOf 1 0 ((Memory.empty.setBytes 0x40 (tileRec 0x1000 4)).setBytes 0x80 (collRec 0x10000))

theorem test_collective_record : (Shape.of (collRec 0x10000)).collOk 0 = true ∧ (Shape.of (tileRec 0x1000 4)).tileOk = true ∧
    (Shape.of (collRec 0x10000)).setOf 0 = [0, 1] := by decide +kernel

/-- XFILL of every lane, XPUB, and a COLL of lane 0. -/
theorem wit_EngineCommandsAreAccepted :
    ∀ i ∈ [Instr.xfill (fld (.v 4) (.v 1) (.v 2) (.v 3) .i8 0x01400040), .xpub (fld (.v 4) (.v 0) .zero (.v 3) .i8 0),
        .coll { fld (.v 4) (.v 0) (.v 1) (.v 3) .i8 0x400080 with gp := 0 }],
      ∃ (op : Nat) (f : Fields) (e : EngForm) (r : BitVec 8) (x : Block) (la : Launch) (record : Nat → List Byte),
        engineOf i = some (op, f, e) ∧ engBlk.CanRun (here engBlk) op f ∧ engBlk.redundant = false ∧ f.d = .v r ∧
        engBlk.cur = .unit 1 0 0 ∧ engBlk.block? 1 = some x ∧ engBlk.launchOf engBlk.cur = some la ∧
        (∀ l ∈ ((here engBlk).actors f).filter (fun l => !((here engBlk).rd.thread l).helper),
          engBlk.IssueOk (here engBlk) f e l (record l)) ∧
        engBlk.tceLoad engBlk.coreOfCur + (((here engBlk).actors f).filter fun l => !((here engBlk).rd.thread l).helper).length ≤ 64 ∧
        (e.kind = .coll → (((here engBlk).actors f).filter fun l => !((here engBlk).rd.thread l).helper) = [0] ∧
          ∃ y t z, engBlk.ctxs[la.ctx]? = some y ∧ y.entryFor (Shape.of (record 0)).group = some t ∧ y.groups[t]? = some z) := by
  have hq : quietWhole engBlk = true := by decide +kernel
  have hb : ∃ x la, engBlk.block? 1 = some x ∧ engBlk.launchOf engBlk.cur = some la ∧ la = la1 := by
    refine ⟨_, la1, rfl, by decide +kernel, rfl⟩
  obtain ⟨x, la, hx, hla, rfl⟩ := hb
  have ok (f : Fields) (e : EngForm) (rec : List Byte) (h : ∀ l ∈ ((here engBlk).actors f).filter (fun l => !((here engBlk).rd.thread l).helper),
      (if e.hasRec then engBlk.readRecord f l = (rec, []) else rec = []) ∧
      (engBlk.issueBars e rec (engBlk.operand (here engBlk).rd l f false f.c).toNat) = [0] ∧
      engBlk.place .scr true 5 l 0 16 = .ok (.scr 0 0) ∧ engBlk.partSaved 0 = false ∧ scrPart (recAddr f) = 0 ∧
      coordTrap (e.coord f) (Shape.of rec).ndim engBlk.window l = []) :
      ∀ l ∈ ((here engBlk).actors f).filter (fun l => !((here engBlk).rd.thread l).helper), engBlk.IssueOk (here engBlk) f e l rec := fun l hl =>
    have g := h l hl
    { rec_ := fun hr => by have := g.1; simpa [hr] using this
      recThere := fun _ _ => by rw [g.2.2.2.2.1]; exact g.2.2.2.1
      none_ := fun hr => by have := g.1; simpa [hr] using this
      bars := fun b hb => by
        rw [g.2.1, List.mem_singleton] at hb
        subst hb
        exact ⟨⟨_, g.2.2.1⟩, g.2.2.2.1⟩
      window := g.2.2.2.2.2
      pend := pendIn_of_quiet (quiet_of hq) l _
      sound := poisonTrap_of_quiet (quiet_of hq) l _ }
  simp only [List.mem_cons, List.not_mem_nil, or_false, forall_eq_or_imp, forall_eq]
  exact ⟨⟨_, _, _, _, x, la1, fun _ => tileRec 0x1000 4, rfl, canRun_of_quiet hq _ _, by decide +kernel, rfl, rfl, hx, hla,
      ok _ _ _ (by decide +kernel), by decide +kernel, (by intro h; cases h)⟩,
    ⟨_, _, _, _, x, la1, fun _ => [], rfl, canRun_of_quiet hq _ _, by decide +kernel, rfl, rfl, hx, hla,
      ok _ _ _ (by decide +kernel), by decide +kernel, (by intro h; cases h)⟩,
    ⟨_, _, _, _, x, la1, fun _ => collRec 0x10000, rfl, canRun_of_quiet hq _ _, by decide +kernel, rfl, rfl, hx, hla,
      ok _ _ _ (by decide +kernel), by decide +kernel, fun _ => ⟨by decide +kernel, ctx5, 0, group5, by decide +kernel, by decide +kernel,
        by decide +kernel⟩⟩⟩

/-! ## The clauses of the statements about the steps of other agents

Each relation restates the clauses of one obligation, one constructor a clause: a step, what a state meets, and the state it
then gives, so that a witness can name the clause it meets. -/

/-- The clauses of `Obligations.CommandEventsHaveTheirEffect`. -/
inductive CommandEvent (s : State) : Instr → State → Prop where
  | read (id off len : Nat) (q : Cmd) (bytes : List Byte) : s.running? id = some q → s.cmdThere q = true → 0 < len →
      len ≤ 256 → off + len ≤ q.total → bytes.length = len →
      (∀ k, k < len → q.knows (off + k) = true ∧ q.hasRead (off + k) 1 = false ∧ s.srcThere q (s.srcAt q (off + k)) = true ∧
        s.readSrc q (s.srcAt q (off + k)) = .ok (bytes.getD k 0)) →
      CommandEvent s (.engineSourceRead id off len)
        ((s.touchSources q off len).updCmd id fun k => { k with data := k.data.setBytes off bytes, read := (off, len) :: k.read })
  | publish (id : Nat) (q : Cmd) : s.running? id = some q → s.cmdThere q = true → q.hold = false → q.kind ≠ .pub →
      q.kind ≠ .coll → q.hasRead 0 q.total = true → s.cmdCheck q = none → s.firstOnBuffer q = true →
      s.capHolds q.ctx (s.isPublish q q.bar) = false →
      CommandEvent s (.enginePublish id)
        (((if q.kind = .copy ∧ q.var = 3 then s.writeFrame q (s.cmdWrites q) else s.publish (s.buffer q) (s.cmdWrites q)).endCmd
          q 0 (s.cmdWrites q).length true))
  | publishSet (id : Nat) (q : Cmd) (set live : List Cmd) : s.running? id = some q → s.cmdThere q = true → q.kind = .pub →
      s.cmdCheck q = none → set = s.holdSet q →
      (∀ k ∈ s.cmds, k.kind = .pub → k.id < q.id → k.state = .running → s.buffer k ≠ s.buffer q) → (∀ k ∈ set, k.code = 0) →
      (∀ k ∈ set, k.state = .running → s.holdWritten k = true) →
      live = set.filter (fun k => decide (k.state = .running)) → s.capHolds q.ctx (s.isPublish (live.head?.getD q) (live.head?.getD q).bar) = false →
      CommandEvent s (.holdSetPublish id)
        ((live.foldl (fun t k => t.endCmd k 0 (s.cmdBytes k) true)
          (if live = [] then s else s.publish (s.buffer q) (live.flatMap s.cmdWrites))).endCmd q 0 0 true)
  | abandonSet (id : Nat) (q k : Cmd) : s.running? id = some q → s.cmdThere q = true → q.kind = .pub → s.cmdCheck q = none →
      (∀ k ∈ s.cmds, k.kind = .pub → k.id < q.id → k.state = .running → s.buffer k ≠ s.buffer q) → k ∈ s.holdSet q →
      k.code ≠ 0 → (∀ m ∈ s.holdSet q, m.code ≠ 0 → m ≠ k → k.failAt < m.failAt) → s.failWaits q k.code = false →
      CommandEvent s (.holdSetPublish id)
        ((((s.holdSet q).filter fun k => decide (k.state = .running)).foldl (fun t k => t.endCmd k 6 0 true) s).endCmd
          q k.code 0 true)
  | failCheck (id pos code : Nat) (q : Cmd) : s.running? id = some q → s.cmdThere q = true → s.lossLater q = false →
      s.cmdCheck q = some code → s.failWaits q code = false → CommandEvent s (.commandFail id pos) (s.failCmd q code none)
  | failRead (id pos code : Nat) (q : Cmd) : s.running? id = some q → s.cmdThere q = true → s.lossLater q = false →
      s.cmdCheck q = none → pos < q.total → q.knows pos = true → q.hasRead pos 1 = false → s.srcThere q (s.srcAt q pos) = true → s.readSrc q (s.srcAt q pos) = .error code →
      s.failWaits q code = false → CommandEvent s (.commandFail id pos) (s.failCmd q code none)
  | cancel (id : Nat) (q : Cmd) : s.running? id = some q → s.cmdThere q = true → q.cancel = true →
      s.failWaits q 9 = false → CommandEvent s (.commandCancel id) (s.failCmd q 9 none)
  | held (id pos code : Nat) (q : Cmd) : s.running? id = some q → s.cmdThere q = true → s.lossLater q = false →
      s.cmdCheck q = some code → s.failWaits q code = true →
      CommandEvent s (.commandFail id pos) (s.capWait (s.failRecord q code))

/-- The clauses of `Obligations.CollectiveEventsHaveTheirEffect`. -/
inductive CollEvent (s : State) : Instr → State → Prop where
  | matched (id : Nat) (innet : Bool) (q : Cmd) : s.running? id = some q → q.kind = .coll → q.matched = false →
      s.cmdThere q = true → s.cmdCheck q = none → s.capHolds q.ctx q.isMatch = false →
      (∀ l, l < q.shape.members → ∃ h ∈ q.hashes, h.1 = q.shape.gorg + l) →
      (∀ h ∈ q.hashes, q.shape.hasMember h.1 = true → h.2 = q.shape.hash) →
      CollEvent s (.collHashMatch id innet)
        (((s.updCmd id fun k => { k with matched := true, innet := innet && q.shape.rop ≠ 0 }).capAppend 3 q.ctx 0
          (leBytes 2 q.shape.group ++ [0, 0] ++ leBytes 4 q.seq.toNat ++ leBytes 4 (s.blkIdxOf q.block))).capMatch q.ctx q.isMatch)
  | mismatch (id : Nat) (innet : Bool) (q : Cmd) (dev hash : Nat) : s.running? id = some q → q.kind = .coll →
      q.matched = false → s.cmdThere q = true → s.cmdCheck q = none →
      (∀ l, l < q.shape.members → ∃ h ∈ q.hashes, h.1 = q.shape.gorg + l) → (dev, hash) ∈ q.hashes →
      q.shape.hasMember dev = true → hash ≠ q.shape.hash → s.failWaits q 5 = false →
      CollEvent s (.collHashMatch id innet) (s.failCmd q 5 none)
  | publish (id : Nat) (q : Cmd) (tiles : List (List Byte)) : s.running? id = some q → q.kind = .coll → q.matched = true →
      q.hold = false → q.shape.shard = false → s.cmdThere q = true → q.hasRead 0 q.total = true → s.cmdCheck q = none →
      s.firstOnBuffer q = true → s.capHolds q.ctx (s.isPublish q q.bar) = false → s.setTiles q = some tiles →
      CollEvent s (.enginePublish id)
        ((s.publish (s.buffer q) (s.collWrites q tiles)).endCmd q 0 (s.collWrites q tiles).length true)
  | shard (id j dev : Nat) (q : Cmd) (tile : List Byte) : s.running? id = some q → q.kind = .coll → q.shape.shard = true →
      q.matched = true → s.cmdThere q = true → s.cmdCheck q = none → (q.shape.setOf s.fabric.devnum.toNat)[j]? = some dev →
      dev ≠ s.fabric.devnum.toNat → (∀ x ∈ q.shards, x.1 ≠ j) → s.shardLoss q dev = none →
      q.tiles.find? (fun t => t.1 = dev) = some (dev, tile) → s.firstOnBuffer q = true →
      s.capHolds q.ctx (s.isPublish q ((s.barsOf q).getD j 0)) = false →
      CollEvent s (.collShardPublish id j) (s.endShard q j 0 (layBytes (q.a.toNat + j * q.shape.dense) tile))
  | shardOwn (id j : Nat) (q : Cmd) : s.running? id = some q → q.kind = .coll → q.shape.shard = true → q.matched = true →
      s.cmdThere q = true → s.cmdCheck q = none → (q.shape.setOf s.fabric.devnum.toNat)[j]? = some s.fabric.devnum.toNat →
      (∀ x ∈ q.shards, x.1 ≠ j) → s.shardLoss q s.fabric.devnum.toNat = none → q.hasRead 0 q.shape.dense = true →
      s.firstOnBuffer q = true → s.capHolds q.ctx (s.isPublish q ((s.barsOf q).getD j 0)) = false →
      CollEvent s (.collShardPublish id j)
        (s.endShard q j 0 (layBytes (q.a.toNat + j * q.shape.dense) (q.bytesAt 0 q.shape.dense)))
  | shardLost (id j dev code : Nat) (q : Cmd) : s.running? id = some q → q.kind = .coll → q.shape.shard = true →
      s.cmdThere q = true → s.cmdCheck q = none → (q.shape.setOf s.fabric.devnum.toNat)[j]? = some dev →
      (∀ x ∈ q.shards, x.1 ≠ j) → s.shardLoss q dev = some code →
      s.capHolds q.ctx (isPublished q.ctx (s.blkIdxOf q.block) ((s.barsOf q).getD j 0) code) = false →
      CollEvent s (.collShardPublish id j) (s.endShard q j code [])
  | failed (ctx gid dev : Nat) (seq : Word) (q : Cmd) : s.collOf ctx gid seq = some q → q.shape.hasMember dev = true →
      dev ≠ s.fabric.devnum.toNat → q.shape.shard = false → s.cmdThere q = true → s.failWaits q 6 = false →
      CollEvent s (.collMemberFailure ctx gid seq dev) (s.failCmd q 6 none)
  | failedShard (ctx gid dev : Nat) (seq : Word) (q : Cmd) : s.collOf ctx gid seq = some q → q.shape.hasMember dev = true →
      dev ≠ s.fabric.devnum.toNat → q.shape.shard = true →
      CollEvent s (.collMemberFailure ctx gid seq dev) (s.noteLoss ctx gid seq 6 dev)
  | failedEarly (ctx gid dev : Nat) (seq : Word) : s.collOf ctx gid seq = none → s.unissued ctx gid seq = true →
      dev ≠ s.fabric.devnum.toNat → CollEvent s (.collMemberFailure ctx gid seq dev) (s.noteLoss ctx gid seq 6 dev)
  | leaves (ctx gid dev e : Nat) : s.groupEntry ctx gid = some e → (∀ q ∈ s.cmds, q.kind = .coll → q.ctx = ctx → s.failWaits q 7 = false) →
      CollEvent s (.collMemberLeaves ctx gid dev)
        (((s.cmds.filter fun q => decide (q.state = .running) && q.kind = .coll && q.ctx = ctx && q.entry = e && q.shape.group = gid
            ).foldl (fun s q => s.failCmd q 7 none) s).updCtx ctx fun x =>
          { x with groups := updAt x.groups e (fun g =>
            if g.closed then g else { g with closed := true, lost := BitVec.ofNat 32 dev }) })
  | flit (ctx gid dev hash : Nat) (seq : Word) (tile : List Byte) (x : CtxBlock) : s.ctxs[ctx]? = some x →
      s.ctxScheduled ctx = true → (s.groupEntry ctx gid).isSome = true → (∀ g ∈ x.flits, g.held = 0) →
      (∀ q, s.collOf ctx gid seq = some q → s.cmdThere q = true) →
      CollEvent s (.collectiveFlitArrival ctx gid seq dev hash tile)
        (({ s with ctxs := setAt s.ctxs ctx { x.unstall ⟨gid, seq, dev, hash, tile, 0, 0⟩ with
          flits := x.flits.filter fun g => !(g.gid = gid && g.seq = seq && g.dev = dev) } } : State).deliver ctx
          ⟨gid, seq, dev, hash, tile, 0, 0⟩)
  | backlog (ctx gid dev hash room : Nat) (seq : Word) (tile : List Byte) (x : CtxBlock) (f : Flit) : s.ctxs[ctx]? = some x →
      (s.ctxScheduled ctx = false ∨ s.groupEntry ctx gid = none ∨ (∃ g ∈ x.flits, 0 < g.held) ∨
        ∃ q, s.collOf ctx gid seq = some q ∧ s.cmdThere q = false) → x.bv = true →
      (∀ g ∈ x.flits, ¬ (g.gid = gid ∧ g.seq = seq ∧ g.dev = dev)) → room = 14 * x.blSize.toNat - x.used → 0 < room →
      f = ⟨gid, seq, dev, hash, tile, 0, 0⟩ →
      CollEvent s (.collectiveFlitArrival ctx gid seq dev hash tile)
        { s.writeBacklog ctx with
          ctxs := setAt s.ctxs ctx (if f.size ≤ room then { x.unstall f with flits := x.flits ++ [{ f with held := f.size }] }
            else { x.stall f s.uptime with flits := x.flits ++ [{ f with held := room }] }) }
  | goesOn (ctx room : Nat) (x : CtxBlock) (f g : Flit) (pre post : List Flit) : s.ctxs[ctx]? = some x →
      (s.ctxScheduled ctx = false ∨ s.groupEntry ctx g.gid = none ∨ (∃ g ∈ x.flits, 0 < g.held) ∨
        ∃ q, s.collOf ctx g.gid g.seq = some q ∧ s.cmdThere q = false) → x.bv = true → x.flits = pre ++ g :: post →
      (∀ k ∈ pre ++ post, ¬ (k.gid = g.gid ∧ k.seq = g.seq ∧ k.dev = g.dev)) → room = 14 * x.blSize.toNat - x.used →
      0 < room → f = { g with held := g.held + min room (g.size - g.held - g.gone) } →
      CollEvent s (.collectiveFlitArrival ctx g.gid g.seq g.dev g.hash g.tile)
        { s.writeBacklog ctx with
          ctxs := setAt s.ctxs ctx (if f.size ≤ f.held + f.gone then { x.unstall f with flits := pre ++ f :: post }
            else { x.stall f s.uptime with flits := pre ++ f :: post }) }
  | stalled (ctx gid dev hash : Nat) (seq : Word) (tile : List Byte) (x : CtxBlock) : s.ctxs[ctx]? = some x →
      (s.ctxScheduled ctx = false ∨ s.groupEntry ctx gid = none ∨ (∃ g ∈ x.flits, 0 < g.held) ∨
        ∃ q, s.collOf ctx gid seq = some q ∧ s.cmdThere q = false) →
      (x.bv = false ∨ 14 * x.blSize.toNat ≤ x.used) → (∀ g ∈ x.flits, ¬ (g.gid = gid ∧ g.seq = seq ∧ g.dev = dev)) →
      (∀ k ∈ x.stalls, ¬ (k.1 = gid ∧ k.2.1 = seq ∧ k.2.2.1 = dev)) →
      CollEvent s (.collectiveFlitArrival ctx gid seq dev hash tile)
        { s with ctxs := setAt s.ctxs ctx { x with stalls := x.stalls ++ [(gid, seq, dev, s.uptime)] } }
  | replay (ctx : Nat) (x : CtxBlock) (f : Flit) (fs : List Flit) : s.ctxs[ctx]? = some x → x.flits = f :: fs → 0 < f.held →
      f.size ≤ f.held + f.gone → s.ctxScheduled ctx = true → (s.groupEntry ctx f.gid).isSome = true →
      (∀ q, s.collOf ctx f.gid f.seq = some q → s.cmdThere q = true) →
      CollEvent s (.backlogReplay ctx) (({ s with ctxs := setAt s.ctxs ctx { x with flits := fs } } : State).deliver ctx f)
  | replayPart (ctx : Nat) (x : CtxBlock) (f : Flit) (fs : List Flit) : s.ctxs[ctx]? = some x → x.flits = f :: fs → f ∉ fs →
      0 < f.held → f.held + f.gone < f.size → s.ctxScheduled ctx = true → (s.groupEntry ctx f.gid).isSome = true →
      (∀ q, s.collOf ctx f.gid f.seq = some q → s.cmdThere q = true) →
      CollEvent s (.backlogReplay ctx)
        (({ s with ctxs := setAt s.ctxs ctx { x with flits := { f with held := 0, gone := f.gone + f.held } :: fs } } : State).deliver
          ctx { f with tile := [] })
  | timeoutOwn (ctx gid : Nat) (seq : Word) (q : Cmd) : s.collOf ctx gid seq = some q → s.cmdThere q = true → s.failWaits q 8 = false →
      CollEvent s (.backlogTimeout true ctx gid seq) (s.failCmd q 8 none)
  | timeout (ctx gid dev since : Nat) (seq : Word) (x : CtxBlock) : s.ctxs[ctx]? = some x → (gid, seq, dev, since) ∈ x.stalls →
      since + 1000 * x.blTo ≤ s.uptime →
      CollEvent s (.backlogTimeout false ctx gid seq) { s with ctxs := setAt s.ctxs ctx { x with
        lostSeq := x.lostSeq ++ [(gid, seq, 8, s.fabric.devnum.toNat)]
        stalls := x.stalls.filter fun k => ¬ (k.1 = gid ∧ k.2.1 = seq) } }
  | switchLeaves (id : Nat) (q : Cmd) : s.running? id = some q → q.innet = true →
      CollEvent s (.reductionSwitchLeaves id) (s.updCmd id fun k => { k with innet := false })
  | opens (ctx : BitVec 6) (entry : BitVec 5) (gid : BitVec 16) (x y : CtxBlock) (g : CollGroup) : s.ctxs[ctx.toNat]? = some x →
      x.groups[entry.toNat]? = some g → g.v = false → x.entryFor gid.toNat = none →
      (s.csr.pl = 2 ∨ s.tenantOf ctx.toNat = s.csr.part.toNat) →
      y = { x with groups := setAt x.groups entry.toNat ⟨true, false, gid, g.lost, 0, 0, 0⟩ } →
      CollEvent s (.collGroupOpen ctx entry gid) { s with ctxs := setAt s.ctxs ctx.toNat y }
  | reopens (ctx : BitVec 6) (entry : BitVec 5) (gid : BitVec 16) (x y : CtxBlock) (g : CollGroup) : s.ctxs[ctx.toNat]? = some x →
      x.groups[entry.toNat]? = some g → x.entryFor gid.toNat = some entry.toNat →
      (s.csr.pl = 2 ∨ s.tenantOf ctx.toNat = s.csr.part.toNat) →
      y = { x with
        groups := setAt x.groups entry.toNat ⟨true, false, gid, g.lost, 0, 0, 0⟩
        lostSeq := x.lostSeq.filter fun k => k.1 ≠ gid.toNat
        inbox := x.inbox.filter fun f => f.gid ≠ gid.toNat } →
      CollEvent s (.collGroupOpen ctx entry gid) { s with ctxs := setAt s.ctxs ctx.toNat y }

/-- The clauses of `Obligations.AccumulatorsAreAllocated`. -/
inductive AcmEvent (s : State) : Instr → State → Prop where
  | grant (core sector : Nat) (r : AcmReq) (b : Nat) (t : State) : s.oldestReq core sector = some r → r.exact = none →
      acmRun (s.acmTaken core sector true) r.count = some b →
      t = (({ s with acmReqs := s.acmReqs.filter fun x => x.id ≠ r.id } : State).giveGranules r.block r.part core sector
        ((List.range r.count).map (b + ·)) true).updGroup (.unit r.block r.group 0) (fun g =>
          { g with s := setOpt g.s r.dst (BitVec.ofNat 32 b) }) →
      AcmEvent s (.acmGrant core sector) (t.wake (.unit r.block r.group 0) (match t.groupOf (.unit r.block r.group 0) with
        | some g => (List.range 32).filter fun l => (g.thread l).status = .parked (.acm r.id)
        | none => []) fun _ t => t.advance)
  | back (core sector : Nat) (r : AcmReq) (gs : List Nat) : s.oldestReq core sector = some r → r.exact = some gs →
      (∀ g ∈ gs, g ∉ s.acmTaken core sector true) →
      AcmEvent s (.acmGrant core sector) (({ s with acmReqs := s.acmReqs.filter fun x => x.id ≠ r.id } : State).giveGranules
        r.block r.part core sector gs false)
  | evict (core sector b age part : Nat) (r : AcmReq) (x : Block) : s.oldestReq core sector = some r →
      r.fits (s.acmTaken core sector false) = false → r.fits (s.acmOlder core sector r.age) = true →
      s.victim core sector r.age = some (b, age, part) → s.block? b = some x → x.mxQuiet part sector = true →
      AcmEvent s (.acmEvict core sector) (s.evict b age part core sector)
  | spilled (b part sector : Nat) (x : Block) (p : Part) : s.block? b = some x → x.part part = some p → p.spillDue sector = true →
      s.slotFault x true = none → AcmEvent s (.acmSpillDone b part sector)
        ((s.fillSpill x part sector).updPart b part fun p => { p with
          spilled := p.spilled.map fun e => (e.1, e.2.1, e.2.2 || decide (e.1 = sector)) })
  | restored (b part sector : Nat) (x : Block) (p : Part) : s.block? b = some x → x.part part = some p →
      (∀ y ∈ s.blocks, y.id = b → y = x) → p.state = .resident → s.slotFault x false = none →
      AcmEvent s (.acmRestore b part sector) (s.updPart b part fun p => { p with
        spilled := p.spilled.filter fun e => ¬ (e.1 = sector ∧ e.2.2 = true ∧ ∀ g ∈ e.2.1, (e.1, g) ∈ p.held) })

/-- The clauses of `Obligations.CompletionsHaveTheirEffect`. -/
inductive CompletionEvent (s : State) : Instr → State → Prop where
  | load (b g l i : Nat) (x : Group) (o : LoadOut) : s.groupOf (issuerOf b g) = some x → (x.thread l).ld[i]? = some o →
      l < x.threads.length →
      CompletionEvent s (.loadComplete b g l i) (s.setGroup (issuerOf b g) { x with
          threads := setAt x.threads l { x.thread l with
            v := o.regs.foldl (fun v r => setAt v r.1 r.2) (x.thread l).v
            ld := ((x.thread l).ld.take i).map (fun e => { e with regs := e.regs.filter fun r => o.regs.all fun q => q.1 ≠ r.1 })
              ++ (x.thread l).ld.drop (i + 1) }
          mxq := x.mxq.map fun m => { m with lost := o.regs.map (fun r => (l, r.1)) ++ m.lost } })
  | store (b g l : Nat) (x : Group) (o : Option SysStore) (os : List (Option SysStore)) : s.groupOf (issuerOf b g) = some x →
      (x.thread l).st = o :: os → l < x.threads.length →
      CompletionEvent s (.storePerformed b g l)
        (({ s with hostMem := (o.map fun y => s.hostMem.write y.addr y.size y.val.toNat).getD s.hostMem } : State).setGroup
          (issuerOf b g) { x with threads := setAt x.threads l { x.thread l with st := os } })
  | matrix (b g : Nat) (h : Home) (x : Group) (o : MxOp) (os : List MxOp) : s.homeOf b g = some h →
      s.groupOf (.unit b g 0) = some x → x.mxq = o :: os → o.ready = true →
      CompletionEvent s (.matrixComplete b g) ((s.drawForBlock b).mxFinish h o)
  | mmas (b g : Nat) (h : Home) (x y : Group) (o o1 : MxOp) (os os1 : List MxOp) (u : State) : s.homeOf b g = some h →
      s.groupOf (.unit b g 0) = some x → x.mxq = o :: os → o.ready = false → (s.drawForBlock b).mmasRead h o = some u →
      u.groupOf (.unit b g 0) = some y → y.mxq = o1 :: os1 →
      CompletionEvent s (.matrixComplete b g) (u.mxFinish h o1)
  | way (core part set : Nat) (p : Placed) (g : Group) (us : List IssueUnit) (v : IssueUnit) : p ∈ s.placedAt core part →
      p.unit.waitsAt set = true →
      (∀ q ∈ s.placedAt core part, q.unit.waitsAt set = true → q ≠ p → p.unit.stamp < q.unit.stamp) →
      s.groupOf (.unit p.block p.group p.idx) = some g →
      us = placeUnit (s.others (.unit p.block p.group p.idx)) p.launch p.block p.group (g.units.eraseIdx p.idx)
        { p.unit with stamp := if p.unit.aged then p.unit.stamp else s.clockOf (.unit p.block p.group p.idx) } true →
      us.getLast? = some v → v.way ≠ none →
      CompletionEvent s (.unitTakesFreedWay core part set)
        (s.setGroup (.unit p.block p.group p.idx) { g with units := us })
  | hold (b g u since : Nat) (iss : Issuer) (x : Group) (v : IssueUnit) : iss = (if b = 0 then .mgmt else .unit b g u) →
      s.groupOf iss = some x → x.units[u]? = some v → v.held = some since → since + 64 ≤ s.clockOf iss →
      CompletionEvent s (.yieldHoldEnd b g u) (s.setGroup iss { x with
        units := placeUnit (s.others iss) (((s.launchOf iss).map (·.id)).getD 0) b g (x.units.eraseIdx u)
          { v with held := none, stamp := s.clockOf iss } false })
  | burn (b g : Nat) (x : Block) (y : Group) (r : BurnReq) : s.block? b = some x → (∀ z ∈ s.blocks, z.id = b → z = x) →
      x.groups[g]? = some y → y.burn = some r → r.expiry ≤ s.ftime →
      CompletionEvent s (.ballastRequestExpiry b g)
        (s.updBlock b fun z => { z with groups := setAt z.groups g { y with burn := none } })
  | shunt (b g : Nat) (x : Block) (y : Group) (r : BurnReq) : s.block? b = some x → (∀ z ∈ s.blocks, z.id = b → z = x) →
      x.groups[g]? = some y → y.shunt = some r → r.expiry ≤ s.ftime →
      CompletionEvent s (.shuntReservationExpiry b g)
        (s.updBlock b fun z => { z with groups := setAt z.groups g { y with shunt := none } })

/-- The clauses of `Obligations.OtherAgentsHaveTheirEffect`. -/
inductive AgentEvent (s : State) : Instr → State → Prop where
  | found (id remote code : Nat) (q : Search) (u t : State) : s.searches.find? (fun x => x.id = id) = some q →
      u = { (if code = 1 then s.writeDeferred q.ctx else s) with
        searches := s.searches.filter fun x => x.id ≠ id
        deferred := if code = 1 then s.deferred ++ [{ ctx := q.ctx, name := q.name, pins := q.found
                                                      remote := if q.domain ∧ q.asked ≠ [] then remote else 0, ring := q.ring
                                                      block := q.block, bar := q.bar, order := 0, faulted := false
                                                      moved := false }] else s.deferred } →
      code = (if q.found = [] ∧ (q.domain = false ∨ q.asked = [] ∨ remote = 0) then 0
        else if ((s.ctxs[q.ctx]?).map (·.defCap.toNat)).getD 0 ≤ (s.deferred.filter fun d => d.ctx = q.ctx).length then 2
        else 1) →
      t = u.updGroup (issuerOf q.block q.group) (fun g => (lanesOf q.lanes).foldl (fun g l => match q.dst with
        | some r => if (g.thread l).live then g.setReg l r (BitVec.ofNat 32 code) else g
        | none => g) g) →
      AgentEvent s (.reclaimSearchComplete id remote)
        (t.wake (issuerOf q.block q.group) (((t.groupOf (issuerOf q.block q.group)).map fun g =>
          g.searchDone fun i => t.searches.any fun x => x.id = i).getD []) fun _ t => t.advance).settle
  | query (job asid : Nat) (name : DWord) (found : List (Nat × Nat × Nat × Nat)) :
      found = s.findPins (fun k => match s.tenants[s.tenantOf k]? with
        | some t => t.jv && t.jobId.toNat = job && s.asidOf k = asid
        | none => false) name →
      AgentEvent s (.pinQuery job asid name) { s with queries := s.queries ++ [{ job, asid, name, found }] }
  | append (k : Nat) (d : Deferred) : s.deferred[k]? = some d → s.appendable d = true → d.faulted = false →
      AgentEvent s (.freeRingAppend k false) (s.append d)
  | retry (k : Nat) (d : Deferred) : s.deferred[k]? = some d → s.appendable d = true → d.faulted = true →
      AgentEvent s (.ringAppendRetry k) (s.append d)
  | walk (ctx va e level : Nat) (x : Xlate) (t : TlbEntry) : (s.csr.ptBase.getD ctx 0).getLsbD 0 = true →
      walkFrom s.mem va (bits (s.csr.ptBase.getD ctx 0).toNat 39 12 * 4096) 3 = some (e, level) → s.leafLoc e level va = .ok x →
      t = { ctx, va := va / 2 ^ levelShift level * 2 ^ levelShift level, size := 2 ^ levelShift level
            leaf := BitVec.ofNat 64 e, level } →
      AgentEvent s (.pageWalk ctx va) { s with tlb := t :: s.tlb.filter fun x => x ≠ t }
  | remoteStore (fn : Nat) (ty : Ty) (a : Nat) (x y : DWord) : 0 < Ty.bytes ty → a % Ty.bytes ty = 0 → a + Ty.bytes ty ≤ hbmSize →
      AgentEvent s (.remoteAccess 1 fn ty a x y)
        { (s.touchFrom (Config.freeIndex s.nextId a % 8) a true).snoopOut (.dev a) with
          mem := s.mem.write a (Ty.bytes ty) (x.toNat % 2 ^ (8 * Ty.bytes ty)) }
  | remoteAtomic (kind fn : Nat) (ty : Ty) (a : Nat) (x y : DWord) : 2 ≤ kind → 0 < Ty.bytes ty → a % Ty.bytes ty = 0 →
      a + Ty.bytes ty ≤ hbmSize → s.poisonAt (.dev a) = none →
      AgentEvent s (.remoteAccess kind fn ty a x y) { (s.touchFrom (Config.freeIndex s.nextId a % 8) a true).snoopOut (.dev a) with
        mem := s.mem.write a (Ty.bytes ty) (atomNew fn ty (BitVec.ofNat 64 (s.mem.read a (Ty.bytes ty))) x y) }
  | remoteLoad (fn : Nat) (ty : Ty) (a : Nat) (x y : DWord) : 0 < Ty.bytes ty → a % Ty.bytes ty = 0 → a + Ty.bytes ty ≤ hbmSize →
      AgentEvent s (.remoteAccess 0 fn ty a x y) (s.touchFrom (Config.freeIndex s.nextId a % 8) a false)
  | peerLost (cmd dev since : Nat) (q : Cmd) : cmd ≠ 0 → dev ≠ s.fabric.devnum.toNat → (dev, since) ∈ s.fabric.silent →
      max q.since since + 1000 * s.fabric.ftimeout ≤ s.uptime → s.cmds.find? (fun x => x.id = cmd) = some q →
      s.cmdThere q = true → s.cmdNeeds q dev = true → s.failWaits q 7 = false →
      AgentEvent s (.fabricTimeout cmd dev) (s.failCmd q 7 none)
  | noAnswer (dev since : Nat) (rs : List Request) : dev ≠ s.fabric.devnum.toNat → (dev, since) ∈ s.fabric.silent →
      (∀ x ∈ s.fabric.silent, x.1 = dev → x.2 = since) →
      rs = s.fabric.requests.map (fun r =>
        if r.dev = dev ∧ max r.since since + 1000 * s.fabric.ftimeout ≤ s.uptime then { r with expired := true } else r) →
      AgentEvent s (.fabricTimeout 0 dev) { s with fabric := { s.fabric with requests := rs } }
  | host (prot : Bool) (a o size x : Nat) (u : State) : s.fabric.hostLink = true → (s.fabric.ide = true → prot = true) →
      s.fabric.hdmBase ≤ a → size ∈ [1, 2, 4, 8, 16, 32, 64] → o = a - s.fabric.hdmBase → o % size = 0 → o + size ≤ hbmSize →
      u = (({ s with snoop := o / 64 * 64 :: s.snoop.filter fun k => k ≠ o / 64 * 64 } : State).touchFrom 0 o true) →
      AgentEvent s (.hostMemAccess true prot a size x) { u with mem := s.mem.write o size (x % 2 ^ (8 * size)) }
  | hostRead (prot : Bool) (a o size x : Nat) (u : State) : s.fabric.hostLink = true → (s.fabric.ide = true → prot = true) →
      s.fabric.hdmBase ≤ a → size ∈ [1, 2, 4, 8, 16, 32, 64] → o = a - s.fabric.hdmBase → o % size = 0 → o + size ≤ hbmSize →
      u = (({ s with snoop := o / 64 * 64 :: s.snoop.filter fun k => k ≠ o / 64 * 64 } : State).touchFrom 0 o false) →
      AgentEvent s (.hostMemAccess false prot a size x)
        { u with fabric := { u.fabric with hostReply := (s.mem.read o size, decide ((0, o / 64 * 64) ∈ s.rel.poison)) } }
  | hostDropped (write : Bool) (a size x : Nat) : s.fabric.hostLink = true → s.fabric.ide = true →
      AgentEvent s (.hostMemAccess write false a size x) { s with fabric := { s.fabric with ideDrops := s.fabric.ideDrops + 1 } }

/-- The clauses of `Obligations.TheSchedulerProceeds`. -/
inductive QueueEvent (s : State) : Instr → State → Prop where
  | doorbell (host : Bool) (k : Nat) (tail : Word) (q : Queue) : s.queues[k]? = some q → s.queueFrozen q = false →
      (if host then s.fabric.hostLink = true else s.csr.pl = 2 ∨ q.tpart = s.csr.part) →
      QueueEvent s (.queueDoorbell host k tail)
        ((s.updQueue k fun q => ({ q with tail } : Queue).examine).setPend 5).pollWaits
  | resume (host : Bool) (k : Nat) (q : Queue) : s.queues[k]? = some q → s.queueFrozen q = false →
      (if host then s.fabric.hostLink = true else s.csr.pl = 2 ∨ q.tpart = s.csr.part) → q.state = 3 →
      QueueEvent s (.queueResume host k) (s.updQueue k fun q =>
        { q with head := q.head + 1, code := 0, state := if q.head + 1 = q.tail then 0 else 1 })
  | refuse (k code : Nat) (q : Queue) : s.stopped = false → s.queues[k]? = some q → s.firstReady k = true →
      s.verdict k q = .refuse code →
      (leAt (s.recordAt q) 0 1 ≠ 1 ∨ code = 9 ∨ (launchOfRecord k q.ctx.toNat (s.recordAt q)).wantsMsix = false) →
      QueueEvent s (.recordCheck k) ((s.touchCheck q false).haltQueue k code)
  | pass (k : Nat) (q : Queue) : s.stopped = false → s.queues[k]? = some q → s.firstReady k = true → s.verdict k q = .nop →
      QueueEvent s (.recordCheck k) ((s.touchCheck q false).advanceQueue k)
  | wait (k : Nat) (q : Queue) : s.stopped = false → s.queues[k]? = some q → s.firstReady k = true →
      s.verdict k q = .waiting → QueueEvent s (.recordCheck k) ((s.touchCheck q false).updQueue k fun q => { q with state := 2 })
  | launch (k : Nat) (q : Queue) (l : Launch) (u : State) : s.stopped = false → s.queues[k]? = some q → s.firstReady k = true →
      s.verdict k q = .launch l → s.csr.capMode = 0 → u = s.touchCheck q true →
      QueueEvent s (.recordCheck k)
        { ({ u with nextId := u.nextId + 1 } : State).advanceQueue k with launches := s.launches ++ [{ l with id := u.nextId }] }
  | held (k : Nat) (q : Queue) : s.stopped = false → s.queues[k]? = some q → q.valid = true → q.en = true → q.state = 1 →
      s.verdict k q = .held → QueueEvent s (.recordCheck k) (s.capWait (isLaunchRecord q.ctx.toNat))
  | poll (k : Nat) (q : Queue) (w : List Byte) : s.stopped = false → s.queues[k]? = some q → q.valid = true → q.en = true → q.state = 2 →
      s.readVa q.ctx.toNat (leAt (s.recordAt q) 80 8) 8 = some w → leAt (s.recordAt q) 88 8 ≤ leNat w →
      QueueEvent s (.waitRecordPoll k) ((s.touchVa q.ctx.toNat (leAt (s.recordAt q) 80 8) 8).advanceQueue k)
  | pollFault (k : Nat) (q : Queue) : s.stopped = false → s.queues[k]? = some q → q.valid = true → q.en = true → q.state = 2 →
      s.readVa q.ctx.toNat (leAt (s.recordAt q) 80 8) 8 = none → QueueEvent s (.waitRecordPoll k) (s.haltQueue k 5)
  | stillWaits (k : Nat) (q : Queue) (w : List Byte) : s.stopped = false → s.queues[k]? = some q → q.valid = true → q.en = true → q.state = 2 →
      s.readVa q.ctx.toNat (leAt (s.recordAt q) 80 8) 8 = some w → leNat w < leAt (s.recordAt q) 88 8 →
      QueueEvent s (.waitRecordPoll k) (s.touchVa q.ctx.toNat (leAt (s.recordAt q) 80 8) 8)
  | comb (l col : Nat) (x : Launch) (t : Tenant) (slots : List Nat) : s.stopped = false → s.launch? l = some x → x.state = .admission →
      x.coop = false → s.tenants[s.tenantOf x.ctx]? = some t → t.rbusy = false → s.saveSlots x x.combBlocks = some slots →
      s.prefer x.ac ((s.columnsOf (s.tenantOf x.ctx)).filter (s.qualifies x)) = some col →
      QueueEvent s (.combAdmit l) (s.placeComb x col slots)
  | combs (l : Nat) (x : Launch) (t : Tenant) (u : State) : s.stopped = false → s.launch? l = some x → x.state = .admission →
      x.coop = true → s.tenants[s.tenantOf x.ctx]? = some t → t.rbusy = false →
      State.admitAll l (x.combs - x.nextComb) s = some u → QueueEvent s (.combAdmit l) u
  | done (l : Nat) (x : Launch) (u : State) : s.stopped = false → s.launch? l = some x → x.state = .flush → s.flushed l = true →
      x.wantsMsix = false →
      u = (let s1 := s.updCtx x.ctx fun c => { c with eLast := BitVec.ofNat 64 x.energy }
           if x.signal then ((s1.signalStore x).map State.pollWaits).getD (s1.haltQueue x.queue 10) else s1) →
      QueueEvent s (.launchFlushDone l) ({ u with windows := u.windows.filter fun (w : FrameWin) => w.launch ≠ l }.updLaunch l
        fun y => { y with state := .done, consts := .empty, constMarks := [], overlay0 := [] })

/-- The clauses of `Obligations.TheSchedulerProceeds`. -/
inductive BlockEvent (s : State) : Instr → State → Prop where
  | switchIn (b : Nat) (x : Block) : s.stopped = false → s.block? b = some x → s.wantsIn x = true → s.blockFits x = true →
      s.inMask x = true → x.inSlot = false ∨ s.slotFault x false = none →
      (∀ y ∈ s.blocks, y.id ≠ b → s.wantsIn y = true → y.shares x = true → s.blockFits y = true → s.inMask y = true →
        s.goesBefore y x = false) →
      BlockEvent s (.blockSwitchIn b) ((if x.inSlot then s.readSlot x else s).makeResident b)
  | switchInFault (b va : Nat) (x : Block) : s.stopped = false → s.block? b = some x → s.wantsIn x = true → s.blockFits x = true →
      s.inMask x = true → x.inSlot = true → s.slotFault x false = some va →
      (∀ y ∈ s.blocks, y.id ≠ b → s.wantsIn y = true → y.shares x = true → s.blockFits y = true → s.inMask y = true →
        s.goesBefore y x = false) →
      BlockEvent s (.blockSwitchIn b) (s.slotPark x 0 va false)
  | switchOut (b : Nat) (x y : Block) (l : Launch) : s.stopped = false → s.block? b = some x → x.state = .resident →
      s.launch? x.launch = some l → l.coop = false → x.allWait = true → 1000 ≤ x.idle → y ∈ s.blocks → y.id ≠ b → s.wantsIn y = true →
      y.shares x = true →
      BlockEvent s (.blockSwitchOut b) (s.updBlock b fun x =>
        { x with
          state := .inactive
          heldOn := x.groups.zipIdx.map fun (g : Group × Nat) => (g.2, g.1.stuckLanes)
          groups := x.groups.map fun g => { g with units := [] } })
  | saved (b k : Nat) (x : Block) (p : Part) (u : State) : s.stopped = false → s.block? b = some x → x.part k = some p →
      p.queued = false → p.state = .saving → x.lives = true → s.drained x k p = true → s.slotFault x true = none →
      u = ({ (s.carryMarks b k).fillSlot x with
          cmds := s.cmds.map fun c => if c.block = b ∧ c.part = k ∧ c.kind ≠ .coll ∧ c.state = .running then c.rollBack else c
          acmReqs := s.acmReqs.filter fun r => ¬ (r.block = b ∧ r.part = k ∧ r.exact.isSome = true)
          acmLeft := s.acmLeft ++ p.held.map fun (g : Nat × Nat) => (p.core, g.1, g.2) } : State).updBlock b (fun y =>
        let own (q : Part) := q.held.filter fun h => !(q.spilled.any fun e => e.1 = h.1 && e.2.1.contains h.2)
        let ps := updAt y.parts k fun (q : Part) => { q with state := .saved, held := [], spilled := q.spilled ++ savedGranules (own q) }
        { y with
          groups := y.groups.zipIdx.map fun (z : Group × Nat) => if y.partOf z.2 = k then { z.1 with burn := none, shunt := none } else z.1
          parts := ps, state := if ps.any Part.onCore then y.state else .saved }) →
      BlockEvent s (.partSaveDone b k)
        (let v := u.postPart .saved (s.ctxOfLaunch x.launch) p.sel
         (if x.preempted then v.beginRestore (b, k) 48 else v).nextSave)
  | queued (b k : Nat) (x : Block) (p : Part) : s.stopped = false → s.block? b = some x → x.part k = some p →
      p.queued = true → BlockEvent s (.partSaveDone b k) s.nextSave
  | slotFault (b k va : Nat) (x : Block) (p : Part) (l : Launch) (e : Event) : s.stopped = false → s.block? b = some x →
      x.part k = some p → s.launch? x.launch = some l → p.queued = false → p.state = .saving → x.lives = true → s.drained x k p = true →
      s.slotFault x true = some va → (∀ d ∈ s.waiting ++ s.events, d.block = x.id → d.cause ≠ .page) →
      e = { cause := .page, parked := true, savedPart := false, ctx := l.ctx, tpart := s.tenantOf l.ctx, blkWord := x.eventWord k 0
            blkIdx := BitVec.ofNat 32 x.index, trapIp := Config.freeValue s.fresh, info := trapInfo false 0 (va % 2 ^ 52 + 2 ^ 52)
            extra := [], block := x.id, lanes := [], pair := false, answer := none, seq := 0 } →
      BlockEvent s (.partSaveDone b k) { s with fresh := s.fresh + 1, waiting := s.waiting ++ [e] }
  | column (b k c col : Nat) (x : Block) (p : Part) (l : Launch) : s.stopped = false → s.block? b = some x →
      x.part k = some p → s.launch? x.launch = some l → p.state = .restoring c → 48 ≤ c → x.lives = true → x.preempted = false →
      s.chooseColumn (b, k) = some col →
      BlockEvent s (.partRestoreDone b k) (s.updPart b k fun q => { q with state := .restoring col })
  | restored (b k c slot : Nat) (x : Block) (p : Part) (l : Launch) : s.stopped = false → s.block? b = some x →
      x.part k = some p → s.launch? x.launch = some l → p.state = .restoring c → c < 48 → x.lives = true →
      s.freeSlot (coreAt c (layerOf p.core)) = some slot → p.granulesBack = true →
      s.framesFree l (coreAt c (layerOf p.core)) = true → c ∈ s.columnsOf (s.tenantOf l.ctx) → s.slotFault x false = none →
      BlockEvent s (.partRestoreDone b k)
        ((((s.readSlot x).putBack b k l (coreAt c (layerOf p.core)) slot).applyRecorded b).postPart .restored l.ctx p.sel)
  | preempt (l col : Nat) (x : Launch) (q : Queue) (b : Block) : s.stopped = false → s.launch? l = some x → x.state = .admission →
      s.queues[x.queue]? = some q → q.prio = 7 → x.waiting + 20000 ≤ s.ftime → s.stuckInAdmit x = true →
      (∀ b ∈ s.blocks, b.preempted = true → b.lives = true → ∀ p ∈ b.parts, p.queued = true ∨ p.state = .saving → columnOf p.core ≠ col) →
      col ∈ s.columnsOf (s.tenantOf x.ctx) → x.emptying = none ∨ x.emptying = some col →
      s.preemptVictim (s.tenantOf x.ctx) col = some b →
      BlockEvent s (.prio7Preempt l col) (((s.updBlock b.id fun y => { y with preempted := true }).updLaunch l fun y =>
          { y with emptying := some col }).queueSaves ((List.range b.parts.length).map fun k => (b.id, k))
        (fun k => ((b.part k.2).map fun (p : Part) => selFor (s.ctxOfLaunch b.launch) p.core p.slot k.2).getD 0)
        (BitVec.ofNat 32 x.ctx))
  | post (k : Nat) (e e' : Event) : s.waiting[k]? = some e → s.csr.evqEn = true → s.powerOff = none → s.csr.evqOld = [] →
      (∀ d ∈ s.waiting.take k, e.block = 0 ∨ d.block ≠ e.block) →
      (s.csr.evqHead - s.csr.evqTail).toNat < evqEntries s.csr.evqSize.toNat →
      s.csr.evqBase.toNat + 64 * (s.csr.evqHead.toNat % evqEntries s.csr.evqSize.toNat) + 64 ≤ hbmSize →
      e' = { e with seq := s.evSeq, savedPart := ((s.block? e.block).map Block.partAway).getD false } →
      BlockEvent s (.eventPost k) { s with
        mem := s.mem.setBytes (s.csr.evqBase.toNat + 64 * (s.csr.evqHead.toNat % evqEntries s.csr.evqSize.toNat))
          (e'.bytes s.ftime s.evSeq (Config.freeValue (s.fresh + 1)))
        snoop := s.snoop.filter fun u => u ≠ (s.csr.evqBase.toNat + 64 * (s.csr.evqHead.toNat % evqEntries s.csr.evqSize.toNat)) / 64 * 64
        fresh := s.fresh + 2
        csr := { s.csr with evqHead := s.csr.evqHead + 1 }
        evSeq := (s.evSeq + 1) % 2 ^ 32
        waiting := s.waiting.eraseIdx k
        events := if e.parked then s.events ++ [e'] else s.events }
  | full (k : Nat) (e : Event) : s.waiting[k]? = some e → s.csr.evqEn = true → s.powerOff = none →
      (∀ d ∈ s.waiting.take k, e.block = 0 ∨ d.block ≠ e.block) →
      evqEntries s.csr.evqSize.toNat ≤ (s.csr.evqHead - s.csr.evqTail).toNat →
      BlockEvent s (.eventPost k) (({ s with csr := { s.csr with evqOvf := true } } : State).setPend 8)
  | blkResume (seq : Word) (e : Event) (rs : List Request) (u : State) : s.answerable seq.toNat s.isHyper = some e →
      s.eventAway e = false →
      rs = (s.fabric.requests.filter fun r => !(r.block = e.block && e.lanes.any fun l => l.1 = r.group && l.2.getLsbD r.lane)) →
      u = ({ s with events := s.events.erase e } : State).setRequests rs →
      BlockEvent s (.blkctlResume seq)
        (if e.pair then e.lanes.foldl (fun (s : State) x => s.updGroup (.unit e.block x.1 0) fun g =>
          (lanesOf x.2).foldl (fun g l => g.updThread l fun t => { t with again := true }) g) u else u)
  | blkSkip (seq : Word) (e : Event) (rs : List Request) : s.answerable seq.toNat s.isHyper = some e → s.eventAway e = false →
      rs = (s.fabric.requests.filter fun r => !(r.block = e.block && e.lanes.any fun l => l.1 = r.group && l.2.getLsbD r.lane)) →
      BlockEvent s (.blkctlSkip seq) (e.lanes.foldl (fun (s : State) x => s.skipLanes e.block x.1 x.2 e.pair)
        (({ s with events := s.events.erase e } : State).setRequests rs))
  | blkKill (seq : Word) (e : Event) (rs : List Request) : s.answerable seq.toNat s.isHyper = some e → s.eventAway e = false →
      rs = (s.fabric.requests.filter fun r => !(r.block = e.block && e.lanes.any fun l => l.1 = r.group && l.2.getLsbD r.lane)) →
      BlockEvent s (.blkctlKill seq) ((({ s with events := s.events.erase e } : State).setRequests rs).killBlock e.block)

/-- The clauses of `Obligations.PowerEventsHaveTheirEffect`. -/
inductive PowerEvent (s : State) : Instr → State → Prop where
  | level (d : Nat) (x : Supply) : s.supplies[d]? = some x →
      PowerEvent s (.levelChange d) { s with supplies := setAt s.supplies d { x with clock := x.effPl } }
  | adopt (d : Nat) (x : Supply) (u : State) : s.supplies[d]? = some x → x.pending = true → x.adoptAt ≤ s.ftime →
      u = ({ s with supplies := setAt s.supplies d { x with cohort := x.next, pending := false } } : State).relevel →
      PowerEvent s (.cohortLevelAdopt d) { u with
        supplies := updAt u.supplies d fun y => if x.cen then { y with clock := y.effPl } else y }
  | cohort (d : BitVec 2) (v : DWord) (x : Supply) : s.supplies[d.toNat]? = some x →
      PowerEvent s (.cohortWrite d v) (({ s with supplies := setAt s.supplies d.toNat { x with
        cen := v.getLsbD 63
        next := (v.extractLsb' 56 4).toNat
        atField := (v.extractLsb' 0 56).toNat
        adoptAt := max (s.ftime + 10000) (v.extractLsb' 0 56).toNat
        late := x.late || decide ((v.extractLsb' 0 56).toNat < s.ftime + 10000)
        pending := true
        cohort := if v.getLsbD 63 && !x.cen then x.effPl else x.cohort } } : State).relevel)
  | matrix (t : Bool) (v : DWord) (m : List (BitVec 2)) : s.csr.pl = 2 → m.length = 48 → s.csr.supply.length = 48 →
      (∀ c, c < 48 → m.getD c 0 = if c / 24 = b2n t then v.extractLsb' (2 * (c % 24)) 2 else s.csr.supply.getD c 0) →
      s.supplyClash (b2n t) m = false → (∀ c, c < 48 → m.getD c 0 = s.csr.supply.getD c 0 ∨ s.columnBusy c = false) →
      s.powerOff = none →
      PowerEvent s (.swmatrixWrite t v) (({ s with
        csr := { s.csr with supply := m }
        supplies := s.supplies.zipIdx.map fun (u : Supply × Nat) =>
          if (List.range 48).any (fun c => (m.getD c 0).toNat = u.2) then { u.1 with on := true } else { u.1 with on := false, power := 0 } } : State).relevel)
  | matrixIgnored (t : Bool) (v : DWord) (m : List (BitVec 2)) : m.length = 48 → s.csr.supply.length = 48 →
      (∀ c, c < 48 → m.getD c 0 = if c / 24 = b2n t then v.extractLsb' (2 * (c % 24)) 2 else s.csr.supply.getD c 0) →
      (s.csr.pl.toNat < 2 ∨ s.supplyClash (b2n t) m = true ∨
        ∃ c, c < 48 ∧ m.getD c 0 ≠ s.csr.supply.getD c 0 ∧ s.columnBusy c = true) →
      PowerEvent s (.swmatrixWrite t v) s
  | thresholds (i : Nat) (v : DWord) : i < 2 → s.csr.pl = 2 → v.extractLsb' 0 10 < v.extractLsb' 10 10 →
      v.extractLsb' 10 10 < v.extractLsb' 20 10 → (v.extractLsb' 20 10).toNat ≤ critLimit i → (s.csr.thrcfg.getD i 0).extractLsb' 48 16 = 0 →
      PowerEvent s (.thrcfgWrite i v)
        { s with csr := { s.csr with thrcfg := setAt s.csr.thrcfg i (v &&& 0x0000FFFFFFFFFFFF) } }
  | duty (i : Nat) (v : DWord) : 2 ≤ i → s.csr.duty.getD (i - 2) 0 ≤ 16 → 1 ≤ (v.extractLsb' 0 5).toNat → (v.extractLsb' 0 5).toNat ≤ 16 →
      PowerEvent s (.thrcfgWrite i v)
        { s with csr := { s.csr with duty := setAt s.csr.duty (i - 2) (v.extractLsb' 0 5).toNat } }
  | release (col : Nat) (c : Column) : s.columns[col]? = some c → c.state = 2 → 100 ≤ c.calm →
      PowerEvent s (.imbalRelease col)
        { s with columns := setAt s.columns col { c with state := s.balanceState col c.rails, calm := 0 } }
  | ramp (col want now : Nat) (c : Column) : s.columns[col]? = some c → want ≤ 4095 →
      now = max want (c.curr - (s.uptime - c.rampAt) / 2) →
      PowerEvent s (.slopeLimitRamp col want) { s with columns := setAt s.columns col { c with
        curr := now, ramp := now - want, rampAt := s.uptime
        blst := c.base.map fun b => max b.1 (min 16 (((now - want) * 16 + 999) / 1000))
        causes := c.base.map fun b => if b.1 < min 16 (((now - want) * 16 + 999) / 1000) then .falls else b.2 } }
  | poll (temps : List Nat) (sensors : List Sensor) : temps.length = s.sensors.length → sensors.length = s.sensors.length →
      (∀ (k : Nat) (x : Sensor) (t : Nat), s.sensors[k]? = some x → temps[k]? = some t →
        sensors[k]? = some (if x.skip then { x with skip := false }
          else { temp := t % 1024, level := nextLevel (s.thrCfg k) (t % 1024) x.level, peak := max x.peak (t % 1024), skip := false })) →
      (∀ (k : Nat) (x : Sensor) (t : Nat), s.sensors[k]? = some x → temps[k]? = some t → x.skip = false →
        t % 1024 < thrOf (s.thrCfg k) 3 + 20) →
      PowerEvent s (.thermalPoll temps) { s with sensors }
  | burn (temps : List Nat) (k t : Nat) (x : Sensor) (u : State) : s.sensors[k]? = some x → temps[k]? = some t → x.skip = false →
      thrOf (s.thrCfg k) 3 + 20 ≤ t % 1024 → s.powerOff = none →
      u = { s with sensors := u.sensors, stopped := true, powerOff := some (s.uptime + 1000000) } →
      u.sensors = (s.sensors.zipIdx.map fun (y : Sensor × Nat) => ((temps[y.2]?).map (pollSensor (s.thrCfg y.2) y.1)).getD y.1) →
      PowerEvent s (.thermalPoll temps) u
  | calibrate (i : Nat) (x : Sensor) : s.sensors[i]? = some x →
      PowerEvent s (.diodeCalibration i) { s with sensors := setAt s.sensors i { x with skip := true } }
  | window : s.tokWindow < s.ftime / 1000000 → s.winEnergy + s.csr.debt ≤ s.winBudget →
      PowerEvent s .tokenWindowEnd { s with
        tokWindow := s.ftime / 1000000, winEnergy := 0, winBudget := 0, csr := { s.csr with debt := 0 } }
  | debt : s.tokWindow < s.ftime / 1000000 → s.winBudget < s.winEnergy + s.csr.debt → s.csr.overn ≤ 255 →
      PowerEvent s .tokenWindowEnd { s with
        tokWindow := s.ftime / 1000000, winEnergy := 0, winBudget := 0
        csr := { s.csr with debt := s.winEnergy + s.csr.debt - s.winBudget, overn := if s.csr.overn = 255 then 255 else s.csr.overn + 1 } }
  | mint (x : Word) (n : Nat) : s.csr.pl = 2 → s.csr.auth = true → (n : Int) = s.csr.tokens + x.toInt → n < 2 ^ 32 →
      PowerEvent s (.mint x) { s with csr := { s.csr with tokens := n } }
  | mintIgnored (x : Word) : (s.csr.pl.toNat < 2 ∨ s.csr.auth = false ∨ s.csr.tokens + x.toInt < 0 ∨ 2 ^ 32 ≤ s.csr.tokens + x.toInt) →
      PowerEvent s (.mint x) s
  | accept (amount : Word) (t0 : Nat) : s.ftime < t0 + 50000 → s.csr.tokens + amount.toNat < 2 ^ 32 →
      PowerEvent s (.waggleAccept amount t0) { s with csr := { s.csr with
        tokens := s.csr.tokens + amount.toNat, intPend := s.csr.intPend ||| 0x40 } }
  | refuse (amount : Word) (t0 : Nat) : t0 + 50000 ≤ s.ftime → PowerEvent s (.waggleAccept amount t0) s
  | ack (k : Nat) : PowerEvent s (.waggleAck k)
      { s with fabric := { s.fabric with waggles := s.fabric.waggles.eraseIdx k } }
  | returned (k : Nat) (w : Waggle) (e : Event) : s.fabric.waggles[k]? = some w → w.sent + 100000 ≤ s.ftime →
      s.csr.tokens + w.amount.toNat < 2 ^ 32 →
      e = plainEvent .tokRet e.ctx e.tpart 0 (leBytes 2 w.dev ++ [0, 0] ++ leBytes 4 w.amount.toNat) →
      e.ctx = (Config.freeValue s.fresh).toNat % 64 → e.tpart = (Config.freeValue s.fresh).toNat / 64 % 8 →
      PowerEvent s (.tokret k) { s with
        fresh := s.fresh + 1
        csr := { s.csr with tokens := s.csr.tokens + w.amount.toNat }
        fabric := { s.fabric with waggles := s.fabric.waggles.eraseIdx k }
        waiting := s.waiting ++ [e] }

/-- The clauses of `Obligations.DeviceEventsHaveTheirEffect`. -/
inductive DeviceEvent (s : State) : Instr → State → Prop where
  | flit (i : Nat) (ok : Bool) (p q : Port) : s.fabric.ports[i]? = some p → p.up = true →
      p.fails < 8 → p.flits < 2 ^ 31 → q = (if ok then { p with flits := p.flits + 1, fails := 0 } else { p with fails := p.fails + 1 }) →
      DeviceEvent s (.flitReceive i ok) { s with fabric := { s.fabric with ports := setAt s.fabric.ports i q } }
  | dead (i : Nat) (ok : Bool) (p : Port) : s.fabric.ports[i]? = some p → (p.up = false ∨ 8 ≤ p.fails ∨ 2 ^ 31 ≤ p.flits) →
      DeviceEvent s (.flitReceive i ok) s
  | down (i : Nat) (p : Port) : s.fabric.ports[i]? = some p → p.up = true → 8 ≤ p.fails →
      DeviceEvent s (.linkDown i) { s with fabric := { s.fabric with ports := setAt s.fabric.ports i .down } }
  | stays (i : Nat) (p : Port) : s.fabric.ports[i]? = some p → p.fails < 8 → DeviceEvent s (.linkDown i) s
  | rekey (i : Nat) (p : Port) : s.fabric.ports[i]? = some p → p.up = true → 2 ^ 31 ≤ p.flits →
      DeviceEvent s (.linkRekey i) { s with fabric := { s.fabric with ports := setAt s.fabric.ports i { p with flits := 0 } } }
  | up (i : Nat) (peer : BitVec 16) (lanes : Nat) (att : Bool) (p : Port) : s.stopped = false → s.fabric.unsigned = false → 1 ≤ lanes → lanes ≤ 8 →
      s.fabric.ports[i]? = some p → p.up = false →
      DeviceEvent s (.linkUp i peer lanes att) { s with fabric := { s.fabric with
        ports := setAt s.fabric.ports i ({ up := true, att, enc := true, lanes, peer, fails := 0, flits := 0 } : Port) } }
  | noLink (i : Nat) (peer : BitVec 16) (lanes : Nat) (att : Bool) : s.fabric.unsigned = true → DeviceEvent s (.linkUp i peer lanes att) s
  | calibrate (i : Nat) : DeviceEvent s (.serdesCalibration i) s
  | sled (n slot : Nat) : Config.isSled = true → s.fabric.joined = false → slot < 4 → 4 * n + slot < 2048 →
      DeviceEvent s (.sledNumberReport n slot) { s with fabric := { s.fabric with sled := some (4 * n + slot) } }
  | noSled (n slot : Nat) : (Config.isSled = false ∨ s.fabric.joined = true) → DeviceEvent s (.sledNumberReport n slot) s
  | join (dev : BitVec 11) (time : Nat) (auth : Bool) (p : Port) : s.stopped = false → s.fabric.unsigned = false → s.fabric.joined = false →
      p ∈ s.fabric.ports → p.up = true → s.devnumFree dev.toNat = true → (Config.isSled = true → s.fabric.sled = some dev.toNat) →
      DeviceEvent s (.fabricJoin dev time auth) { s with
        ftime := if s.ftime ≤ time then time else s.ftime
        csr := { s.csr with auth }
        fabric := { s.fabric with joined := true, tsync := decide (s.ftime ≤ time + 20), devnum := dev
                                  holdTime := if s.ftime ≤ time then 0 else s.ftime - time } }
  | noJoin (dev : BitVec 11) (time : Nat) (auth : Bool) :
      (s.fabric.joined = true ∨ (∀ p ∈ s.fabric.ports, p.up = false) ∨ s.fabric.unsigned = true ∨
        s.devnumFree dev.toNat = false ∧ (Config.isSled = true → s.fabric.sled = some dev.toNat)) →
      DeviceEvent s (.fabricJoin dev time auth) s
  | refuseJoin (dev : BitVec 11) (time : Nat) (auth : Bool) (p : Port) : s.stopped = false → s.fabric.unsigned = false →
      s.fabric.joined = false → p ∈ s.fabric.ports → p.up = true → Config.isSled = true → s.fabric.sled ≠ some dev.toNat →
      DeviceEvent s (.fabricJoin dev time auth) { s with fabric := { s.fabric with refused := some dev.toNat } }
  | sync (err : Nat) : s.fabric.joined = true →
      DeviceEvent s (.timeSync err) { s with fabric := { s.fabric with tsync := decide (err ≤ 20 ∧ s.fabric.holdTime ≤ 20) } }
  | hostWord (i : BitVec 3) (x : DWord) : s.fabric.hostLink = true → i ≠ 7 →
      DeviceEvent s (.hostMailboxWrite i x) { s with fabric := { s.fabric with hdata := setAt s.fabric.hdata i.toNat x } }
  | hostSeq (x : DWord) : s.fabric.hostLink = true →
      DeviceEvent s (.hostMailboxWrite 7 x) { s with
        fabric := { s.fabric with hseq := x.extractLsb' 0 32 }
        csr := { s.csr with intPend := s.csr.intPend ||| 0x80 } }
  | mgmtWord (i : BitVec 3) (x : DWord) : s.csr.pl = 2 → i ≠ 7 →
      DeviceEvent s (.mgmtMailboxWrite i x) { s with fabric := { s.fabric with mdata := setAt s.fabric.mdata i.toNat x } }
  | mgmtSeq (x : DWord) : s.csr.pl = 2 →
      DeviceEvent s (.mgmtMailboxWrite 7 x) { s with fabric := { s.fabric with
        mseq := x.extractLsb' 0 32, msix := s.fabric.msix ||| BitVec.ofNat 2048 (2 ^ 2047) } }
  | mgmtDenied (i : BitVec 3) (x : DWord) : s.csr.pl.toNat < 2 → DeviceEvent s (.mgmtMailboxWrite i x) s
  | job (p : BitVec 3) (x : DWord) (t : Tenant) : s.csr.pl = 2 → s.tenants[p.toNat]? = some t →
      DeviceEvent s (.jobRegisterWrite p x) { s with tenants := setAt s.tenants p.toNat { t with
        jobId := if t.jv then t.jobId else x.extractLsb' 0 16, jv := x.getLsbD 63, keySt := if x.getLsbD 63 then t.keySt else 0 } }
  | key (p : BitVec 3) (job : BitVec 16) (t : Tenant) : s.tenants[p.toNat]? = some t → t.jv = true → t.jobId = job →
      DeviceEvent s (.jobKeyAccept p job false) { s with
        tenants := setAt s.tenants p.toNat { t with keySt := if t.keySt = 0 then 1 else 2 } }
  | keyRetired (p : BitVec 3) (job : BitVec 16) (t : Tenant) : s.tenants[p.toNat]? = some t → t.jv = true → t.jobId = job →
      t.keySt = 2 → DeviceEvent s (.jobKeyAccept p job true) { s with tenants := setAt s.tenants p.toNat { t with keySt := 1 } }
  | noKey (p : BitVec 3) (job : BitVec 16) (retire : Bool) (t : Tenant) : s.tenants[p.toNat]? = some t → (t.jv = false ∨ t.jobId ≠ job) →
      DeviceEvent s (.jobKeyAccept p job retire) s
  | context (k : BitVec 6) (x : DWord) : s.csr.pl = 2 → s.csr.ctxValid.getLsbD k.toNat = x.getLsbD 63 →
      DeviceEvent s (.ctxidWrite k x) { s with csr := { s.csr with
        ctxPart := setAt s.csr.ctxPart k.toNat (x.extractLsb' 56 3), ctxAsid := setAt s.csr.ctxAsid k.toNat (x.extractLsb' 0 16) } }
  | contextMade (k : BitVec 6) (x : DWord) (c : CtxBlock) : s.csr.pl = 2 → s.csr.ctxValid.getLsbD k.toNat = false → x.getLsbD 63 = true →
      s.ctxs[k.toNat]? = some c →
      DeviceEvent s (.ctxidWrite k x) (({ s with
        csr := { s.csr with
          ctxValid := s.csr.ctxValid ||| (1#64 <<< k.toNat), nbv := setAt s.csr.nbv k.toNat 2
          ctxPart := setAt s.csr.ctxPart k.toNat (x.extractLsb' 56 3), ctxAsid := setAt s.csr.ctxAsid k.toNat (x.extractLsb' 0 16) }
        ctxs := setAt s.ctxs k.toNat { c with reqPl := 8 } } : State).relevel)
  | contextEnded (k : BitVec 6) (x : DWord) (c : CtxBlock) : s.csr.pl = 2 → s.csr.ctxValid.getLsbD k.toNat = true →
      x.getLsbD 63 = false → s.ctxs[k.toNat]? = some c →
      DeviceEvent s (.ctxidWrite k x) (({ s with
        csr := { s.csr with
          ctxValid := s.csr.ctxValid &&& ~~~(1#64 <<< k.toNat)
          ctxPart := setAt s.csr.ctxPart k.toNat (x.extractLsb' 56 3), ctxAsid := setAt s.csr.ctxAsid k.toNat (x.extractLsb' 0 16) }
        ctxs := setAt s.ctxs k.toNat { c with reqPl := 8 } } : State).relevel)
  | clearDebt (i : Nat) : DeviceEvent s (.readToClear true 0x031 i) { s with csr := { s.csr with overn := 0 } }
  | clearPeak (i : Nat) (x : Sensor) : s.sensors[i]? = some x →
      DeviceEvent s (.readToClear true 0x034 i) { s with sensors := setAt s.sensors i { x with peak := 0 } }
  | clearImb (k : Nat) (c : Column) : s.columns[k]? = some c →
      DeviceEvent s (.readToClear true 0x035 (2 * k)) { s with columns := setAt s.columns k { c with imbCnt := 0 } }
  | clearErrors (i p : Nat) : s.csr.pl = 2 → p < 8 →
      DeviceEvent s (.readToClear false (0xFF00010A00 + 4096 * p) i) { s with rel := { s.rel with ceCnt := 0, ueCnt := 0 } }
  | columns (p : Nat) (x : DWord) (t : Tenant) : s.csr.pl = 2 → p < 8 → s.tenants[p]? = some t → t.rbusy = false →
      s.partitionRuns p = false → s.columnTwice p (x.extractLsb' 0 48) = false →
      DeviceEvent s (.registerWrite false (0xFF00010008 + 4096 * p) 8 x)
        ({ s with tenants := setAt s.tenants p { t with colMask := x.extractLsb' 0 48 } } : State).relevel
  | columnsIgnored (p : Nat) (x : DWord) : p < 8 → (s.partitionRuns p = true ∨ s.columnTwice p (x.extractLsb' 0 48) = true) →
      DeviceEvent s (.registerWrite false (0xFF00010008 + 4096 * p) 8 x) s
  | vectors (p : Nat) (x : DWord) (t : Tenant) : s.csr.pl = 2 → p < 8 → s.tenants[p]? = some t →
      DeviceEvent s (.registerWrite false (0xFF00010010 + 4096 * p) 8 x)
        { s with tenants := setAt s.tenants p { t with vcnt := x.extractLsb' 16 11, vbase := x.extractLsb' 0 11 } }
  | share (p : Nat) (x : DWord) (t : Tenant) : s.csr.pl = 2 → p < 8 → s.tenants[p]? = some t →
      DeviceEvent s (.registerWrite false (0xFF00010018 + 4096 * p) 8 x)
        { s with tenants := setAt s.tenants p { t with bwShare := x.extractLsb' 0 8 } }
  | jobMap (p j : Nat) (x : DWord) (t : Tenant) : s.csr.pl = 2 → p < 8 → j < 32 → s.tenants[p]? = some t →
      DeviceEvent s (.registerWrite false (0xFF00010100 + 4096 * p + 8 * j) 8 x)
        { s with tenants := setAt s.tenants p { t with jobMap := setAt t.jobMap j x } }
  | jobMapUpper (p j : Nat) (x : DWord) (t : Tenant) : s.csr.pl = 2 → p < 8 → j < 32 → s.tenants[p]? = some t →
      DeviceEvent s (.registerWrite false (0xFF00010104 + 4096 * p + 8 * j) 4 x) { s with
        tenants := setAt s.tenants p
          ({ t with jobMap := setAt t.jobMap j (x.extractLsb' 0 32 ++ (t.jobMap.getD j 0).extractLsb' 0 32) } : Tenant) }
  | fabricTimeout (x : DWord) : s.csr.pl = 2 → 0 < s.tenants.length → 10 ≤ x.toNat % 2 ^ 20 → x.toNat % 2 ^ 20 ≤ 10000 →
      s.fabric.ftimeout < 2 ^ 20 →
      DeviceEvent s (.registerWrite false 0xFF00010808 8 x) { s with fabric := { s.fabric with ftimeout := x.toNat % 2 ^ 20 } }
  | deferBase (k : Nat) (x : DWord) (c : CtxBlock) : k < 64 → (s.csr.pl = 2 ∨ s.tenantOf k = s.csr.part.toNat) → s.ctxs[k]? = some c →
      c.defBase &&& 0xFFFFFF0000000FFF = 0 →
      DeviceEvent s (.registerWrite false (0xFF00020400 + 4096 * k) 8 x)
        { s with ctxs := setAt s.ctxs k { c with defBase := x &&& 0x000000FFFFFFF000 } }
  | msixTable (o : Nat) (x : DWord) : s.fabric.hostLink = true → o < 0x8000 → o % 8 = 0 →
      DeviceEvent s (.registerWrite true (0x20000 + o) 8 x)
        { s with fabric := { s.fabric with msixTable := s.fabric.msixTable.write o 8 x.toNat } }
  | misaligned (host : Bool) (a size : Nat) (x : DWord) : (size ∉ [1, 2, 4, 8] ∨ a % size ≠ 0) →
      DeviceEvent s (.registerWrite host a size x) s
  | clear (a : Nat) : s.csr.pl = 2 → a < hbmSize → a < 2 ^ 40 → 0 < s.tenants.length →
      DeviceEvent s (.clrpois a) { s with
        snoop := s.snoop.filter fun u => u ≠ a / 64 * 64
        mem := s.mem.clear (a / 64 * 64) 64
        rel := { s.rel with poison := s.rel.poison.filter fun k => k ≠ (0, a / 64 * 64) } }
  | noScrub (n : Nat) (bad : Option Nat) : s.rel.sen = false → DeviceEvent s (.patrolScrub n bad) s
  | scrub (n : Nat) : s.rel.sen = true → DeviceEvent s (.patrolScrub n none)
      { s with rel := { s.rel with ceCnt := min 0xFFFFFFFF (s.rel.ceCnt + n) } }
  | scrubBad (n a : Nat) : s.rel.sen = true → a < hbmSize → (0, a / 64 * 64) ∉ s.rel.poison →
      DeviceEvent s (.patrolScrub n (some a)) { s with rel := { s.rel with
        ceCnt := min 0xFFFFFFFF (s.rel.ceCnt + n), ueCnt := min 65535 (s.rel.ueCnt + 1), uloc := 0, uaddr := a / 64 * 64
        poison := (0, a / 64 * 64) :: s.rel.poison } }
  | aging (margins : List Byte) (core : Nat) (m : Byte) : margins.length = 192 → margins[core]? = some m → (∀ x ∈ margins, m ≤ x) →
      DeviceEvent s (.agingMonitor margins core) { s with rel := { s.rel with ageMarg := m, ageCore := BitVec.ofNat 8 core } }
  | replay (r : List Byte) (t : Nat) : s.csr.capMode = 2 → s.csr.capFree = false → s.csr.capHead ≠ s.csr.capTail →
      s.csr.capSince = some t → t + 10000000 ≤ s.ftime →
      r = s.mem.bytes (s.csr.capSlot s.csr.capHead.toNat) 64 →
      DeviceEvent s .replayTimeout { s with
        csr := { s.csr with capDiv := true, capFree := true }
        waiting := s.waiting ++ [plainEvent .replay (leAt r 1 1 % 64) (s.tenantOf (leAt r 1 1 % 64)) 0 []] }
  | noReplay : (s.csr.capMode ≠ 2 ∨ s.csr.capFree = true ∨ s.csr.capHead = s.csr.capTail ∨ s.csr.capSince = none) →
      DeviceEvent s .replayTimeout s
  | early (t : Nat) : s.csr.capSince = some t → s.ftime < t + 10000000 → DeviceEvent s .replayTimeout s
  | reset (image : List Byte) : s.powerOff = none → DeviceEvent s (.deviceReset image true) { State.reset with
      agenda := s.agenda, fresh := s.fresh, drawer := s.drawer, drawn := s.drawn
      nextId := s.nextId, hostMem := s.hostMem, peerMem := s.peerMem
      rel := { State.reset.rel with poison := s.rel.poison.filter fun k => k.1 = 9, boots := s.rel.boots + 1 }
      mem := Memory.empty.setBytes 0 image
      fabric := { State.reset.fabric with
        features := s.fabric.features, hostLink := s.fabric.features, measured := image
        silent := s.fabric.silent.map fun (x : Nat × Nat) => (x.1, 0)
        rasErrors := s.fabric.rasErrors, downReports := s.fabric.downReports } }
  | refused (image : List Byte) : s.powerOff = none → DeviceEvent s (.deviceReset image false) { State.reset with
      agenda := s.agenda, fresh := s.fresh, drawer := s.drawer, drawn := s.drawn
      nextId := s.nextId, hostMem := s.hostMem, peerMem := s.peerMem
      rel := { State.reset.rel with poison := s.rel.poison.filter fun k => k.1 = 9, boots := s.rel.boots + 1 }
      mgmt := { State.reset.mgmt with halted := true }
      fabric := { State.reset.fabric with
        features := s.fabric.features, hostLink := false, unsigned := true, mseq := 1
        silent := s.fabric.silent.map fun (x : Nat × Nat) => (x.1, 0)
        rasErrors := s.fabric.rasErrors, downReports := s.fabric.downReports } }
  | noReset (image : List Byte) (signed : Bool) (t0 : Nat) : s.powerOff = some t0 → DeviceEvent s (.deviceReset image signed) s
  | restore (image : List Byte) (t0 : Nat) : s.powerOff = some t0 → t0 + 60000000000 ≤ s.uptime →
      DeviceEvent s (.powerRestoreRequest image true) { State.reset with
      agenda := s.agenda, fresh := s.fresh, drawer := s.drawer, drawn := s.drawn
      nextId := s.nextId, hostMem := s.hostMem, peerMem := s.peerMem
      rel := { State.reset.rel with poison := s.rel.poison.filter fun k => k.1 = 9, boots := s.rel.boots + 1 }
      mem := Memory.empty.setBytes 0 image
      fabric := { State.reset.fabric with
        features := s.fabric.features, hostLink := s.fabric.features, measured := image
        silent := s.fabric.silent.map fun (x : Nat × Nat) => (x.1, 0)
        rasErrors := s.fabric.rasErrors, downReports := s.fabric.downReports } }
  | restoreRefused (image : List Byte) (t0 : Nat) : s.powerOff = some t0 → t0 + 60000000000 ≤ s.uptime →
      DeviceEvent s (.powerRestoreRequest image false) { State.reset with
      agenda := s.agenda, fresh := s.fresh, drawer := s.drawer, drawn := s.drawn
      nextId := s.nextId, hostMem := s.hostMem, peerMem := s.peerMem
      rel := { State.reset.rel with poison := s.rel.poison.filter fun k => k.1 = 9, boots := s.rel.boots + 1 }
      mgmt := { State.reset.mgmt with halted := true }
      fabric := { State.reset.fabric with
        features := s.fabric.features, hostLink := false, unsigned := true, mseq := 1
        silent := s.fabric.silent.map fun (x : Nat × Nat) => (x.1, 0)
        rasErrors := s.fabric.rasErrors, downReports := s.fabric.downReports } }
  | notYet (image : List Byte) (signed : Bool) (t0 : Nat) : s.powerOff = some t0 → s.uptime < t0 + 60000000000 →
      DeviceEvent s (.powerRestoreRequest image signed) s
  | powered (image : List Byte) (signed : Bool) : s.powerOff = none → DeviceEvent s (.powerRestoreRequest image signed) s

/-- A copy of 256 words of scratch to the buffer at 0x1000. -/
def copy7 : Cmd := { cmd7 with kind := .copy, var := 2, record := tileRec 0 256, a := 0x1000 }

def withCmds (qs : List Cmd) : State := { blk with cmds := qs, nextId := 20 }

/-- Context 0 replayed: the next record is a mark. -/
def replays (qs : List Cmd) : State :=
  { withCmds qs with
    mem := Memory.empty.setBytes 0x4000 [5]
    csr := { blk.csr with capMode := 2, capCtxs := 1, capRing := 0x4000, capHead := 0, capTail := 1 } }

def pub9 : Cmd := { cmd7 with id := 9, kind := .pub, var := 0, record := [], a := 0x1000, coords := [] }

/-- The last 256 bytes are read; a copy and a frame copy publish; a set of a fill and its XPUB; a set whose command failed;
a record without dimensions; a source address that is not in scratch; a cancellation; a failure that a replay holds back. -/
theorem wit_CommandEventsHaveTheirEffect :
    (∃ s t, CommandEvent s (.engineSourceRead 7 768 256) t) ∧ (∃ s t, CommandEvent s (.enginePublish 7) t) ∧
      (∃ s t q, s.running? 7 = some q ∧ q.kind = .copy ∧ q.var = 3 ∧ CommandEvent s (.enginePublish 7) t) ∧
      (∃ s t, CommandEvent s (.holdSetPublish 9) t ∧ ∀ k ∈ s.holdSet pub9, k.code = 0 ∧ k.state = .running) ∧
      (∃ s t, CommandEvent s (.holdSetPublish 9) t ∧ ∃ k ∈ s.holdSet pub9, k.code ≠ 0) ∧
      (∃ s t, CommandEvent s (.commandFail 7 0) t ∧ s.cmdCheck { cmd7 with record := [] } = some 2) ∧
      (∃ s t, CommandEvent s (.commandFail 7 1023) t ∧ s.cmdCheck { copy7 with record := tileRec 0x3FFC 256 } = none) ∧
      (∃ s t, CommandEvent s (.commandCancel 7) t) ∧ ∃ s t, CommandEvent s (.commandFail 7 0) t ∧ s.csr.capMode = 2 := by
  refine ⟨⟨withCmds [copy7], _, .read 7 768 256 copy7 (List.replicate 256 0) ?_ ?_ ?_ ?_ ?_ ?_ ?_⟩,
    ⟨withCmds [{ copy7 with read := [(0, 1024)] }], _, .publish 7 { copy7 with read := [(0, 1024)] } ?_ ?_ ?_ ?_ ?_ ?_ ?_ ?_ ?_⟩,
    ⟨withCmds [{ copy7 with var := 3, a := 1, record := tileRec 0x200000 1024, read := [(0, 4096)] }], _,
      { copy7 with var := 3, a := 1, record := tileRec 0x200000 1024, read := [(0, 4096)] }, ?_, ?_, ?_,
      .publish 7 { copy7 with var := 3, a := 1, record := tileRec 0x200000 1024, read := [(0, 4096)] } ?_ ?_ ?_ ?_ ?_ ?_ ?_ ?_ ?_⟩,
    ⟨withCmds [{ cmd7 with hold := true }, pub9], _,
      .publishSet 9 pub9 [{ cmd7 with hold := true }] [{ cmd7 with hold := true }] ?_ ?_ ?_ ?_ ?_ ?_ ?_ ?_ ?_ ?_, ?_⟩,
    ⟨withCmds [{ cmd7 with hold := true, state := .done, code := 3, failAt := 8 }, pub9], _,
      .abandonSet 9 pub9 { cmd7 with hold := true, state := .done, code := 3, failAt := 8 } ?_ ?_ ?_ ?_ ?_ ?_ ?_ ?_ ?_, ?_⟩,
    ⟨withCmds [{ cmd7 with record := [] }], _, .failCheck 7 0 2 { cmd7 with record := [] } ?_ ?_ ?_ ?_ ?_, ?_⟩,
    ⟨withCmds [{ copy7 with record := tileRec 0x3FFC 256 }], _,
      .failRead 7 1023 2 { copy7 with record := tileRec 0x3FFC 256 } ?_ ?_ ?_ ?_ ?_ ?_ ?_ ?_ ?_ ?_, ?_⟩,
    ⟨withCmds [{ cmd7 with cancel := true }], _, .cancel 7 { cmd7 with cancel := true } ?_ ?_ ?_ ?_⟩,
    ⟨replays [{ cmd7 with record := [] }], _, .held 7 0 2 { cmd7 with record := [] } ?_ ?_ ?_ ?_ ?_, ?_⟩⟩ <;>
  decide +kernel

/-- Context 0's region 0 is 2 MiB at 4 MiB, its backings the second and the third 2 MiB of HBM. -/
def regCtx : CtxBlock := { ctx5 with desc := setAt (setAt ctx5.desc 0 0x400101) 1 0x100001 }

def reg0 : Region := ⟨0, 0x400000, 0x200000, 0, false, false, (0x200000, 0x400000)⟩

theorem wit_CommandsCompleteAndPublish :
    (∃ (s : State) (q : Cmd) (t : Thread) (p : PendPair), s.undone q.id = true ∧ q.kind ≠ .pub ∧
      ¬ (q.kind = .coll ∧ q.shape.shard = true) ∧ p ∈ t.pend ∧ p.cmd = q.id ∧ p.cancelled = false ∧ p.reg + 1 < t.v.length ∧
      (∀ r ∈ t.pend, r ≠ p → r.cmd = q.id → r.reg + 1 < p.reg ∨ p.reg + 1 < r.reg) ∧ t.pend.Nodup) ∧
    (∃ (s : State) (ws : List (Nat × Byte)) (k : Part), s.memoriesWf = true ∧ ws ≠ [] ∧ (s.block? 1).bind (·.part 0) = some k) ∧
    ∃ (s : State) (ws : List (Nat × Byte)) (ctx idx : Nat) (x : CtxBlock) (r : Region), s.memoriesWf = true ∧
      s.ctxs[ctx]? = some x ∧ x.desc.length = 128 ∧ (∀ d ∈ x.oldDesc, d.1 ≠ idx) ∧ (x.regions.find? fun y => y.idx = idx) = some r ∧ ws ≠ [] ∧ (∀ w ∈ ws, r.base ≤ w.1) ∧
      (r.backing true + r.size ≤ r.backing false ∨ r.backing false + r.size ≤ r.backing true) := by
  refine ⟨⟨withCmds [cmd7], cmd7, { Thread.fresh 40 0 1 false with pend := [⟨38, 7, false⟩, ⟨4, 7, false⟩] }, ⟨38, 7, false⟩, ?_⟩,
    ⟨blk, [(0x1FFF, 0x55)], pt1, ?_⟩, ⟨{ blk with ctxs := setAt blk.ctxs 0 regCtx }, [(0x5FFFFF, 0x55)], 0, 0, regCtx, reg0, ?_⟩⟩ <;>
  decide +kernel

/-! ## Witnesses: collectives -/

/-- This device is member 0 and device 1 is member 1 of group 5; the job of context 0's tenant has both. -/
def coll7 : Cmd :=
  { cmd7 with kind := .coll, var := 2, record := collRec 0x10000, a := 0x1000, seq := 3
              hashes := [(0, (Shape.of (collRec 0x10000)).hash), (1, (Shape.of (collRec 0x10000)).hash)] }

def collS (qs : List Cmd) : State :=
  { withCmds qs with
    ctxs := setAt blk.ctxs 0 ctx5
    tenants := updAt blk.tenants 0 fun t => { t with jv := true, jobMap := 3 :: t.jobMap.tail } }

/-- All hashes are there; the own tile is read and the other has come. -/
def collRead : Cmd := { coll7 with matched := true, read := [(0, 16)], tiles := [(1, List.replicate 16 0x11)] }
def collShard : Cmd := { collRead with record := collRec 0x12000 }

/-- Group 5 of context 0 with flits waiting, with the ring's room, and with losses noted. -/
def collX (f : CtxBlock → CtxBlock) (qs : List Cmd) : State := { collS qs with ctxs := setAt blk.ctxs 0 (f ctx5) }

def flit1 : Flit := ⟨5, 3, 1, 0x1234, [0x55], 17, 0⟩

theorem all_some {α : Type} {o : Option α} {p : α → Bool} (h : (o.map p).getD true = true) : ∀ q, o = some q → p q = true := by
  rintro q rfl
  exact h

/-- Also: a flit beyond a backlog that is off stalls its sender, and the own shard of rank 0 publishes. -/
theorem wit_CollectiveEventsHaveTheirEffect :
    (∃ s t, CollEvent s (.collHashMatch 7 true) t) ∧
      (∃ s t, CollEvent s (.collHashMatch 7 false) t ∧ ∃ q, s.running? 7 = some q ∧ ∃ h ∈ q.hashes, h.2 ≠ q.shape.hash) ∧
      (∃ s t, CollEvent s (.enginePublish 7) t) ∧
      (∃ s t, CollEvent s (.collShardPublish 7 1) t ∧ s.ctxs[0]? = some ctx5) ∧
      (∃ s t, CollEvent s (.collShardPublish 7 1) t ∧ s.shardLoss collShard 1 = some 6) ∧
      (∃ s t, CollEvent s (.collMemberFailure 0 5 3 1) t ∧ s.cmds = [coll7]) ∧
      (∃ s t, CollEvent s (.collMemberFailure 0 5 3 1) t ∧ s.cmds = [collShard]) ∧
      (∃ s t, CollEvent s (.collMemberFailure 0 5 3 1) t ∧ s.cmds = []) ∧
      (∃ s t, CollEvent s (.collMemberLeaves 0 5 1) t) ∧
      (∃ s t, CollEvent s (.collectiveFlitArrival 0 5 3 1 0x1234 [0x55]) t) ∧
      (∃ s t, CollEvent s (.collectiveFlitArrival 0 6 3 1 0x1234 [0x55]) t ∧ s.ctxs.any (fun x => x.bv) = true) ∧
      (∃ s t, CollEvent s (.collectiveFlitArrival 0 6 3 1 0x1234 [0x55]) t ∧ s.ctxs.any (fun x => x.flits ≠ []) = true) ∧
      (∃ s t, CollEvent s (.collectiveFlitArrival 0 6 3 1 0x1234 [0x55]) t ∧ s.ctxs.any (fun x => x.bv) = false) ∧
      (∃ s t, CollEvent s (.collShardPublish 7 0) t) ∧
      (∃ s t, CollEvent s (.backlogReplay 0) t) ∧
      (∃ s t, CollEvent s (.backlogReplay 0) t ∧ ∃ x ∈ s.ctxs, ∃ f ∈ x.flits, f.held + f.gone < f.size) ∧ (∃ s t, CollEvent s (.backlogTimeout true 0 5 3) t) ∧
      (∃ s t, CollEvent s (.backlogTimeout false 0 6 3) t) ∧ (∃ s t, CollEvent s (.reductionSwitchLeaves 7) t) ∧
      (∃ s t, CollEvent s (.collGroupOpen 63 31 5) t) ∧ ∃ s t, CollEvent s (.collGroupOpen 0 0 5) t := by
  refine ⟨⟨collS [coll7], _, .matched 7 true coll7 ?_ ?_ ?_ ?_ ?_ ?_ ?_ ?_⟩,
    ⟨collS [{ coll7 with hashes := [(0, coll7.shape.hash), (1, 0)] }], _,
      .mismatch 7 false { coll7 with hashes := [(0, coll7.shape.hash), (1, 0)] } 1 0 ?_ ?_ ?_ ?_ ?_ ?_ ?_ ?_ ?_ ?_,
      { coll7 with hashes := [(0, coll7.shape.hash), (1, 0)] }, ?_, (1, 0), ?_, ?_⟩,
    ⟨collS [collRead], _, .publish 7 collRead [List.replicate 16 0, List.replicate 16 0x11] ?_ ?_ ?_ ?_ ?_ ?_ ?_ ?_ ?_ ?_ ?_⟩,
    ⟨collS [collShard], _, .shard 7 1 1 collShard (List.replicate 16 0x11) ?_ ?_ ?_ ?_ ?_ ?_ ?_ ?_ ?_ ?_ ?_ ?_ ?_, ?_⟩,
    ⟨collX (fun x => { x with lostSeq := [(5, 3, 6, 1)] }) [collShard], _, .shardLost 7 1 1 6 collShard ?_ ?_ ?_ ?_ ?_ ?_ ?_ ?_ ?_, ?_⟩,
    ⟨collS [coll7], _, .failed 0 5 1 3 coll7 ?_ ?_ ?_ ?_ ?_ ?_, ?_⟩, ⟨collS [collShard], _, .failedShard 0 5 1 3 collShard ?_ ?_ ?_ ?_, ?_⟩,
    ⟨collS [], _, .failedEarly 0 5 1 3 ?_ ?_ ?_, ?_⟩, ⟨collS [coll7], _, .leaves 0 5 1 0 ?_ ?_⟩,
    ⟨collS [coll7], _, .flit 0 5 1 0x1234 3 [0x55] ctx5 ?_ ?_ ?_ (by decide +kernel) (all_some ?_)⟩,
    ⟨collX (fun x => { x with bv := true, blSize := 0xFFFF }) [], _,
      .backlog 0 6 1 0x1234 (14 * 0xFFFF) 3 [0x55] { ctx5 with bv := true, blSize := 0xFFFF } _ ?_ (.inr (.inl ?_)) ?_ ?_ ?_ ?_ rfl, ?_⟩,
    ⟨collX (fun x => { x with bv := true, blSize := 0xFFFF, flits := [{ flit1 with gid := 6, held := 0, gone := 1 }] }) [], _,
      .goesOn 0 (14 * 0xFFFF) { ctx5 with bv := true, blSize := 0xFFFF, flits := [{ flit1 with gid := 6, held := 0, gone := 1 }] } _
        { flit1 with gid := 6, held := 0, gone := 1 } [] [] ?_ (.inr (.inl ?_)) ?_ rfl ?_ ?_ ?_ rfl, ?_⟩,
    ⟨collS [], _, .stalled 0 6 1 0x1234 3 [0x55] ctx5 ?_ (.inr (.inl ?_)) (.inl ?_) ?_ ?_, ?_⟩,
    ⟨collS [collShard], _, .shardOwn 7 0 collShard ?_ ?_ ?_ ?_ ?_ ?_ ?_ ?_ ?_ ?_ ?_ ?_⟩,
    ⟨collX (fun x => { x with flits := [flit1] }) [], _, .replay 0 { ctx5 with flits := [flit1] } flit1 [] ?_ ?_ ?_ ?_ ?_ ?_ (all_some ?_)⟩,
    ⟨collX (fun x => { x with flits := [{ flit1 with held := 1 }] }) [], _,
      .replayPart 0 { ctx5 with flits := [{ flit1 with held := 1 }] } { flit1 with held := 1 } [] ?_ ?_ ?_ ?_ ?_ ?_ ?_ (all_some ?_), ?_⟩,
    ⟨collS [coll7], _, .timeoutOwn 0 5 3 coll7 ?_ ?_ ?_⟩,
    ⟨{ collX (fun x => { x with stalls := [(6, 3, 1, 0)] }) [] with uptime := 1000 * ctx5.blTo }, _,
      .timeout 0 6 1 0 3 { ctx5 with stalls := [(6, 3, 1, 0)] } ?_ ?_ ?_⟩,
    ⟨collS [{ collRead with innet := true }], _, .switchLeaves 7 { collRead with innet := true } ?_ ?_⟩,
    ⟨collS [], _, .opens 63 31 5 CtxBlock.reset _ ⟨false, false, 0, 0xFFFFFFFF, 0, 0, 0⟩ ?_ ?_ ?_ ?_ (.inl ?_) rfl⟩,
    ⟨collS [], _, .reopens 0 0 5 ctx5 _ group5 ?_ ?_ ?_ (.inl ?_) rfl⟩⟩ <;>
  decide +kernel


/-! ## Witnesses: matrix -/

/-- A block of four groups in the four partitions of sector 0; S0 to S3 hold 0, 3, 8 and 7. -/
def gr4 : Group := { gr1 with s := setAt (setAt (setAt gr1.s 1 3) 2 8) 3 7 }
def mxBl : Block := { bl1 with groups := List.replicate 4 gr4 }
def mxS (f : Block → Block) : State := { blk with blocks := [f mxBl] }
def mxBlk : State := mxS id

/-- The matrix unit of the issuing group. -/
def hereHome (s : State) : Home := s.home.getD ⟨bl1, 0, 0, pt1, 0, la1⟩

theorem home_of {s : State} (h : s.home.isSome = true) : s.home = some (hereHome s) := by
  obtain ⟨x, hx⟩ := Option.isSome_iff_exists.1 h
  simp [hereHome, hx]

theorem matrixReady_of {s : State} (hq : quietWhole s = true) (hh : s.home.isSome = true) {f : Fields}
    (hon : ((here s).rd.thread (here s).lowLane).guard f = true) (ha : s.arrayTrap (hereHome s) (here s).lowLane = [])
    (hr : ∀ l ∈ (here s).rd.holders, ((here s).rd.thread l).mx < 15) (op : Nat) (rows : List Nat) (counted : Bool) :
    s.MatrixReady (here s) (hereHome s) op f rows counted := by
  have hp (l : Nat) (regs : List Nat) := pendIn_of_quiet (quiet_of hq) l regs
  simp only [quietWhole, Bool.and_eq_true, Bool.not_eq_true', List.isEmpty_eq_false_iff] at hq
  exact ⟨ctx_of_quiet hq.1.1, home_of hh, hq.2, hq.1.2, hon, fun l _ => hp l _,
    fun l _ regs _ => poisonTrap_of_quiet hq.1.1 l regs, ha, fun _ => hr⟩

theorem hasTile_of {h : Home} {c : Ctx} {b n : Nat} (x : (List.range n).all (fun k => h.holds c.g.mxq (b + k)) = true) : h.HasTile c b n := by
  intro k hk
  exact List.all_eq_true.1 x k (List.mem_range.2 hk)

/-- Slot 3, a tile of 256 columns in granules 0 to 7, all 8 granules freed and zeroed, the last granule written and summed. -/
theorem wit_MatrixInstructionsQueueTheirOperation :
    ∀ i ∈ [Instr.bldReg (fld .zero (.v 0) (.s 1) .zero .i8 0xE0), .mmaq (fld .zero (.v 0) (.s 1) (.s 0) .i8 0x100),
        .acfree (fld .zero (.s 0) (.s 2) .zero .i8 0), .aczero (fld .zero (.s 3) (.imm) .zero .i8 1),
        .acwr (fld .zero (.v 0) .zero (.s 3) .i8 0), .scacc (fld .zero (.s 0) (.v 1) (.s 3) .i8 0)],
      ∃ m, queuesOf i = some m ∧ mxBlk.MatrixReady (here mxBlk) (hereHome mxBlk) m.op m.f m.rows m.counted ∧
        m.ok mxBlk (here mxBlk) (hereHome mxBlk) := by
  have hr (f : Fields) (hon : ((here mxBlk).rd.thread (here mxBlk).lowLane).guard f = true) :=
    @matrixReady_of mxBlk (by decide +kernel) (by decide +kernel) f hon (by decide +kernel) (by decide +kernel)
  simp only [List.mem_cons, List.not_mem_nil, or_false, forall_eq_or_imp, forall_eq]
  refine ⟨⟨_, rfl, hr _ (by decide +kernel) _ _ _, ?_⟩, ⟨_, rfl, hr _ (by decide +kernel) _ _ _, ?_, hasTile_of ?_, ?_⟩,
    ⟨_, rfl, hr _ (by decide +kernel) _ _ _, ?_, ?_, hasTile_of ?_⟩, ⟨_, rfl, hr _ (by decide +kernel) _ _ _, ?_, ?_, hasTile_of ?_⟩,
    ⟨_, rfl, hr _ (by decide +kernel) _ _ _, hasTile_of ?_⟩,
    ⟨_, rfl, hr _ (by decide +kernel) _ _ _, hasTile_of ?_, hasTile_of ?_, ?_⟩⟩
  case refine_2 =>
    intro l
    change (mxBlk.operand (here mxBlk).rd 0 (fld .zero (.v 0) (.s 1) (.s 0) .i8 0x100) false (.s 1)).toNat ≤ 3
    decide +kernel
  all_goals decide +kernel

theorem wit_MatrixLoadsAndReads :
    (∃ f p o, mxBlk.rel.poison = [] ∧ mxBlk.partSaved p = false ∧ mxBlk.MatrixReady (here mxBlk) (hereHome mxBlk) 0xB0 f [] false ∧
      mxBlk.low32 (here mxBlk) f f.b ≤ 3 ∧
      mxBlk.mxScratch (here mxBlk).lowLane (mxBlk.low32 (here mxBlk) f f.a) (64 * f.immBits 16 8) 64 = .ok (p, o) ∧
      ∀ k, k < 8 * f.immBits 16 8 → mxBlk.hiddenHalf (o + 8 * k) 8 = false) ∧
    (∃ f, mxBlk.MatrixReady (here mxBlk) (hereHome mxBlk) 0xB6 f [] true ∧
      (hereHome mxBlk).HasTile (here mxBlk) (mxBlk.low32 (here mxBlk) f f.a + mxCol f / 32) 1) ∧
    ∃ f p o, mxBlk.partSaved p = false ∧ mxBlk.MatrixReady (here mxBlk) (hereHome mxBlk) 0xB9 f [] false ∧
      mxBlk.mxScratch (here mxBlk).lowLane (mxBlk.low32 (here mxBlk) f f.a) 1056 8 = .ok (p, o) ∧
      ∀ k, k < 132 → mxBlk.hiddenHalf (o + 8 * k) 8 = false := by
  have hr (f : Fields) (hon : ((here mxBlk).rd.thread (here mxBlk).lowLane).guard f = true) :=
    @matrixReady_of mxBlk (by decide +kernel) (by decide +kernel) f hon (by decide +kernel) (by decide +kernel)
  refine ⟨⟨fld .zero .zero (.s 1) .zero .i8 0x4000, 0, 0, ?_, ?_, hr _ ?_ _ _ _, ?_, ?_, ?_⟩,
    ⟨fld (.v 0) (.s 0) .zero .zero .f32 0xF800, hr _ ?_ _ _ _, hasTile_of ?_⟩,
    ⟨fld .zero .zero .zero .zero .i8 0, 0, 0, ?_, hr _ ?_ _ _ _, ?_, ?_⟩⟩
  all_goals decide +kernel

/-- Lanes of groups 1, 2 and 3 parked at an MMAS with tag 255 in sector 0, of the form that group 0 issues. -/
def mmasF : Fields := fld .zero (.v 0) (.s 1) (.s 0) .i8 0xFF0100

def mate (place group : Nat) (ty : Ty) : MmasArrival :=
  { part := 0, sector := 0, tag := 255, place, group
    op := { instr := .mmas { mmasF with ty }, lanes := 0xFFFFFFFF, counted := true, rows := [], slots := [3], base := 0, src := 0, meet := 0
            bdata := .empty, ready := true, book := [], zs := [], lost := [], outs := [] } }

def mmasS (n : Nat) : State := mxS fun b => { b with mmas := [mate 1 1 .i8, mate 2 2 .i8, mate 3 3 .i8].take n }

theorem wit_MmasMeetsInFours : ∀ n : Fin 4, ∃ (f : Fields) (s : State),
    s.MatrixReady (here s) (hereHome s) 0xB2 f (mxRows f) true ∧ s.rel.poison = [] ∧ s.low32 (here s) f f.b ≤ 3 ∧
      (hereHome s).HasTile (here s) (s.low32 (here s) f f.c) (mxGranules (mxN f)) ∧
      let h := hereHome s
      let mates := h.blk.mmas.filter fun x => x.part = h.pnum && x.sector = h.sector && x.tag = f.immBits 23 16
      (∀ x ∈ mates, x.place ≠ h.loc % 4) ∧ mates.length = n.val ∧
        (∀ x ∈ mates, ∃ k, x.op.instr = .mmas k ∧ k.ty = f.ty ∧ k.immBits 15 0 = f.immBits 15 0) ∧
        (∀ x ∈ mates, x.group ≠ h.grp ∧ (∀ y ∈ mates, y ≠ x → y.group ≠ x.group) ∧ (∃ g, h.blk.groups[x.group]? = some g)) ∧
        h.blk.mmas.Nodup := by
  intro n
  have key : quietWhole (mmasS n) = true ∧ (mmasS n).home.isSome = true ∧
      ((here (mmasS n)).rd.thread (here (mmasS n)).lowLane).guard mmasF = true ∧
      (mmasS n).arrayTrap (hereHome (mmasS n)) (here (mmasS n)).lowLane = [] ∧
      (∀ l ∈ (here (mmasS n)).rd.holders, ((here (mmasS n)).rd.thread l).mx < 15) ∧ (mmasS n).rel.poison = [] ∧
      (mmasS n).low32 (here (mmasS n)) mmasF mmasF.b ≤ 3 ∧
      ((List.range 8).all fun k => (hereHome (mmasS n)).holds (here (mmasS n)).g.mxq ((mmasS n).low32 (here (mmasS n)) mmasF mmasF.c + k)) = true ∧
      (∀ x ∈ (hereHome (mmasS n)).blk.mmas.filter (fun x => x.part = (hereHome (mmasS n)).pnum && x.sector = (hereHome (mmasS n)).sector &&
        x.tag = mmasF.immBits 23 16), x.place ≠ (hereHome (mmasS n)).loc % 4 ∧ x.op.instr = .mmas mmasF ∧ x.group ≠ (hereHome (mmasS n)).grp ∧
          (∀ y ∈ (hereHome (mmasS n)).blk.mmas, y ≠ x → y.group ≠ x.group) ∧ ((hereHome (mmasS n)).blk.groups[x.group]?).isSome = true) ∧
      ((hereHome (mmasS n)).blk.mmas.filter (fun x => x.part = (hereHome (mmasS n)).pnum && x.sector = (hereHome (mmasS n)).sector &&
        x.tag = mmasF.immBits 23 16)).length = n.val ∧ (hereHome (mmasS n)).blk.mmas.Nodup := by
    revert n
    decide +kernel
  obtain ⟨hq, hh, hg, ha, hr, hp, hs, ht, hm, hl, hd⟩ := key
  refine ⟨mmasF, mmasS n, matrixReady_of hq hh hg ha hr _ _ _, hp, hs, hasTile_of ht, ?_⟩
  dsimp only
  exact ⟨fun x hx => (hm x hx).1, hl, fun x hx => ⟨mmasF, (hm x hx).2.1, rfl, rfl⟩,
    fun x hx => ⟨(hm x hx).2.2.1, fun y hy => (hm x hx).2.2.2.1 y (List.mem_filter.1 hy).1, Option.isSome_iff_exists.1 (hm x hx).2.2.2.2⟩, hd⟩

/-- Block 2, younger, on the same core, holds the 120 other granules of sector 0. -/
def bl2 : Block :=
  { bl1 with id := 2, age := 2, slot := 1, groups := [], parts := [{ pt1 with slot := 1, held := (List.range 120).map fun g => (0, g + 8) }] }

def fullBlk : State := { mxBlk with blocks := [mxBl, bl2] }

/-- The 8 granules held and 56 more reach the ceiling of 64; 57 pass it; with every other granule taken one waits. -/
theorem wit_AccumulatorsAreAllocated :
    (∃ f : Fields, mxBlk.MatrixReady (here mxBlk) (hereHome mxBlk) 0xB3 f [] false ∧
      mxBlk.low32 (here mxBlk) f f.a = 57 ∧ (hereHome mxBlk).run.acmCeil = 64 ∧
      ((hereHome mxBlk).part.held.filter fun x => x.1 ≠ (hereHome mxBlk).sector || (hereHome mxBlk).holds (here mxBlk).g.mxq x.2).length = 8) ∧
    (∃ f : Fields, mxBlk.MatrixReady (here mxBlk) (hereHome mxBlk) 0xB3 f [] false ∧
      mxBlk.low32 (here mxBlk) f f.a = 56 ∧ mxBlk.acmReqs = [] ∧
      acmRun (mxBlk.acmTaken (hereHome mxBlk).part.core (hereHome mxBlk).sector true) 56 = some 8) ∧
    ∃ f : Fields, fullBlk.MatrixReady (here fullBlk) (hereHome fullBlk) 0xB3 f [] false ∧
      fullBlk.low32 (here fullBlk) f f.a = 1 ∧
      acmRun (fullBlk.acmTaken (hereHome fullBlk).part.core (hereHome fullBlk).sector true) 1 = none := by
  have hr (f : Fields) (hon : ((here mxBlk).rd.thread (here mxBlk).lowLane).guard f = true) :=
    @matrixReady_of mxBlk (by decide +kernel) (by decide +kernel) f hon (by decide +kernel) (by decide +kernel)
  have hr2 (f : Fields) (hon : ((here fullBlk).rd.thread (here fullBlk).lowLane).guard f = true) :=
    @matrixReady_of fullBlk (by decide +kernel) (by decide +kernel) f hon (by decide +kernel) (by decide +kernel)
  refine ⟨⟨fld (.s 4) .imm .zero .zero .i8 57, hr _ ?_ _ _ _, ?_, ?_, ?_⟩,
    ⟨fld (.s 4) .imm .zero .zero .i8 56, hr _ ?_ _ _ _, ?_, ?_, ?_⟩,
    ⟨fld (.s 4) .imm .zero .zero .i8 1, hr2 _ ?_ _ _ _, ?_, ?_⟩⟩
  all_goals decide +kernel

/-- The first 32 MiB of VA map to the first of HBM; block 1's save slot starts at 0x200000. -/
def slotTables : Memory :=
  ⟨[(0x10000, 0x01), (0x10001, 0x10), (0x10002, 0x01), (0x11000, 0x01), (0x11001, 0x20), (0x11002, 0x01), (0x12000, 0x47)]⟩

def slotS (f : Block → Block) : State :=
  { mxS f with
    mem := slotTables, launches := [{ la1 with saveVa := 0x200000 }], csr := { blk.csr with ptBase := setAt blk.csr.ptBase 0 0x10001 } }

theorem test_slot : ∀ x, (slotS id).block? 1 = some x → (slotS id).slotFault x true = none ∧ (slotS id).slotFault x false = none := by
  intro x hx
  have : x = mxBl := by
    have h : (slotS id).block? 1 = some mxBl := by decide +kernel
    exact (Option.some.inj (h.symm.trans hx)).symm
  subst this
  decide +kernel

/-- Granules 120 to 127 of the block are evicted and still to be written. -/
def spillPart : Part := { pt1 with spilled := [(0, (List.range 8).map (· + 120), false)] }

def acmReq (n dst age : Nat) (exact : Option (List Nat)) : AcmReq :=
  { id := 5, block := 1, age, part := 0, sector := 0, exact, count := n, group := 0, dst }

theorem wit_AccumulatorEvents :
    (∃ s t, AcmEvent s (.acmGrant 0 0) t ∧ (s.oldestReq 0 0).map (·.exact) = some none) ∧
    (∃ s t, AcmEvent s (.acmGrant 0 0) t ∧ (s.oldestReq 0 0).map (·.exact) = some (some [127])) ∧
    (∃ s t, AcmEvent s (.acmEvict 0 0) t) ∧ (∃ s t, AcmEvent s (.acmSpillDone 1 0 0) t) ∧
    ∃ s t, AcmEvent s (.acmRestore 1 0 0) t := by
  refine ⟨⟨{ mxBlk with acmReqs := [acmReq 56 4 1 none] }, _, .grant 0 0 (acmReq 56 4 1 none) 8 _ ?_ ?_ ?_ rfl, ?_⟩,
    ⟨{ mxBlk with acmReqs := [acmReq 1 0 1 (some [127])] }, _, .back 0 0 (acmReq 1 0 1 (some [127])) [127] ?_ ?_ ?_, ?_⟩,
    ⟨{ fullBlk with acmReqs := [acmReq 1 4 1 none] }, _, .evict 0 0 2 2 0 (acmReq 1 4 1 none) bl2 ?_ ?_ ?_ ?_ ?_ ?_⟩,
    ⟨slotS fun b => { b with parts := [spillPart] }, _, .spilled 1 0 0 { mxBl with parts := [spillPart] } spillPart ?_ ?_ ?_ ?_⟩,
    ⟨slotS id, _, .restored 1 0 0 mxBl pt1 ?_ ?_ ?_ ?_ (test_slot _ ?_).2⟩⟩
  all_goals decide +kernel

/-- The MMAQ of a whole group on 256 columns, queued and not overtaken. -/
def mmaqF : Fields := fld .zero (.v 0) (.s 1) (.s 0) .i8 0x100
def mmaqOp : MxOp := { mxOp (here mxBlk) (.mmaq mmaqF) (mxRows mmaqF) true with slots := [3, 3, 3, 3], base := 0 }
def mmaqS : State := mxS fun b => { b with groups := updAt b.groups 0 fun g => { g with mxq := [mmaqOp] } }

def hereHomeOf (s : State) (b g : Nat) : Home := (s.homeOf b g).getD ⟨bl1, 0, 0, pt1, 0, la1⟩

theorem homeOf_of {s : State} {b g : Nat} (h : (s.homeOf b g).isSome = true) : s.homeOf b g = some (hereHomeOf s b g) := by
  obtain ⟨x, hx⟩ := Option.isSome_iff_exists.1 h
  simp [hereHomeOf, hx]

theorem wit_MatrixProductsUpdateTheTile : ∃ (x : Group) (o : MxOp), mmaqS.homeOf 1 0 = some (hereHomeOf mmaqS 1 0) ∧
    mmaqS.groupOf (.unit 1 0 0) = some x ∧ x.mxq = [o] ∧ o.ready = true ∧ o.instr = .mmaq mmaqF ∧ mmaqS.memoriesWf = true ∧
    lanesOf o.lanes ≠ [] ∧ ∀ l ∈ lanesOf o.lanes, o.rows.getD l [] = (x.thread l).row (mxRows mmaqF) := by
  refine ⟨{ gr4 with mxq := [mmaqOp] }, mmaqOp, homeOf_of ?_, ?_, ?_, ?_, ?_, ?_, ?_, ?_⟩
  all_goals decide +kernel

/-- Group 0's only queued operation is `o`. -/
def queuedS (o : MxOp) : State := mxS fun b => { b with groups := updAt b.groups 0 fun g => { g with mxq := [o] } }

/-- An operation of the whole group on slot 3 and on granules from 0 on, as it issued. -/
def queuedOp (i : Instr) (rows : List Nat) : MxOp :=
  { mxOp (here mxBlk) i rows true with slots := [3, 3, 3, 3], base := 0, src := 1, ready := true }

theorem oldest_of (o : MxOp) (h : ((queuedS o).homeOf 1 0).isSome = true ∧
    (queuedS o).groupOf (.unit 1 0 0) = some { gr4 with mxq := [o] } ∧ o.bdata.wf = true ∧ (queuedS o).memoriesWf = true) :
    (queuedS o).OldestMx 1 0 (hereHomeOf (queuedS o) 1 0) { gr4 with mxq := [o] } o [] :=
  ⟨homeOf_of h.1, h.2.1, rfl, fun _ hl => by simpa [gr4, gr1, Group.fresh] using List.mem_range.1 (List.mem_filter.1 hl).1, h.2.2.1, h.2.2.2⟩

/-- Each of the queued operations, with the registers that it reads as they issued. -/
theorem wit_QueuedMatrixOperations :
    ∀ x ∈ [(Instr.bld (fld .zero .zero (.s 1) .zero .i8 0x4000), ([] : List Nat)),
        (.bldReg (fld .zero (.v 0) (.s 1) .zero .i8 0), rowFrom (.v 0) 16), (.mmas mmasF, mxRows mmasF),
        (.aczero (fld .zero (.s 0) (.imm) .zero .i8 1), []), (.acfree (fld .zero (.s 0) (.imm) .zero .i8 1), []),
        (.acwr (fld .zero (.v 0) .zero (.s 3) .i8 0), rowFrom (.v 0) 8), (.scacc (fld .zero (.s 0) (.v 1) (.s 3) .i8 0), rowFrom (.v 1) 1),
        (.acrd (fld (.v 0) (.s 0) .zero .zero .f32 0xF800), [])],
      let o := queuedOp x.1 x.2
      (queuedS o).OldestMx 1 0 (hereHomeOf (queuedS o) 1 0) { gr4 with mxq := [o] } o [] ∧ o.ready = true ∧ lanesOf o.lanes ≠ [] ∧
        (x.2 ≠ [] → ∀ l ∈ lanesOf o.lanes, o.rows.getD l [] = (gr4.thread l).row x.2) ∧
        ∀ l ∈ lanesOf o.lanes, 8 ≤ (gr4.thread l).v.length := by
  simp only [List.mem_cons, List.not_mem_nil, or_false, forall_eq_or_imp, forall_eq]
  refine ⟨⟨oldest_of _ ?_, ?_⟩, ⟨oldest_of _ ?_, ?_⟩, ⟨oldest_of _ ?_, ?_⟩, ⟨oldest_of _ ?_, ?_⟩, ⟨oldest_of _ ?_, ?_⟩,
    ⟨oldest_of _ ?_, ?_⟩, ⟨oldest_of _ ?_, ?_⟩, ⟨oldest_of _ ?_, ?_⟩⟩
  all_goals decide +kernel

/-- The first of the four groups of a rendezvous, which have all reached their MMAS. -/
theorem wit_QueuedMmasOfFourGroups : ∃ (s : State) (h : Home) (x : Group) (o : MxOp) (k : Nat → Nat) (q : Nat → MxOp), s.OldestMx 1 0 h x o [] ∧
    o.instr = .mmas mmasF ∧ o.ready = false ∧ (∀ l ∈ lanesOf o.lanes, o.rows.getD l [] = (x.thread l).row (mxRows mmasF)) ∧
    mxN mmasF % 4 = 0 ∧ mxN mmasF ≤ 1024 ∧
    (∀ i, i < 4 → h.blk.partitionOf (k i) = 4 * h.sector + i ∧
      ((h.blk.groups[k i]?).bind fun z => z.mxq.head?) = some (q i) ∧ (q i).meet = o.meet) ∧
    ∀ j z e, h.blk.groups[j]? = some z → z.mxq.head? = some e → e.meet = o.meet → ∃ i, i < 4 ∧ j = k i := by
  let o : MxOp := { queuedOp (.mmas mmasF) (mxRows mmasF) with meet := 9, ready := false }
  let s : State := mxS fun b => { b with groups := b.groups.map fun g => { g with mxq := [o] } }
  have hb : (hereHomeOf s 1 0).blk.groups.length = 4 := by decide +kernel
  refine ⟨s, hereHomeOf s 1 0, { gr4 with mxq := [o] }, o, id, fun _ => o, ⟨homeOf_of ?_, ?_, rfl,
    fun _ hl => by simpa [gr4, gr1, Group.fresh] using List.mem_range.1 (List.mem_filter.1 hl).1, ?_, ?_⟩, rfl, rfl, ?_, ?_, ?_, ?_,
    fun j z _ hz _ _ => ⟨j, hb ▸ (List.getElem?_eq_some_iff.1 hz).1, rfl⟩⟩
  all_goals decide +kernel

/-! ## Witnesses: completions and other agents -/

theorem getD_of {α : Type} {x : Option α} {d : α} (h : x.isSome = true) : x = some (x.getD d) := by
  obtain ⟨y, hy⟩ := Option.isSome_iff_exists.1 h
  simp [hy]

/-- Two loads of V38 outstanding, and a SYSTEM store before a plain one; lane 31. -/
def pend31 : Thread :=
  { Thread.fresh 40 0x100000 1 false with ld := [⟨[(38, 1), (39, 2)]⟩, ⟨[(38, 3)]⟩], st := [some ⟨0x1000, 4, 7⟩, none] }
def lsGroup : Group := { gr1 with threads := setAt gr1.threads 31 pend31 }

/-- The four groups have all reached the MMAS of rendezvous 9. -/
def metOp (q : Nat) : MxOp := { (mate q q .i8).op with meet := 9, ready := false }
def metS : State := mxS fun b => { b with groups := b.groups.mapIdx fun q g => { g with mxq := [metOp q] } }
def metRead : State := ((metS.drawForBlock 1).mmasRead (hereHomeOf metS 1 0) (metOp 0)).getD metS
def metGroup : Group := (metRead.groupOf (.unit 1 0 0)).getD gr4

def waitUnit : IssueUnit := ⟨0xFFFFFFFF, 0x100000, none, 0, false, none, false, false⟩
def heldUnit : IssueUnit := ⟨0xFFFFFFFF, 0x100000, some 0, 0, false, some 0, false, false⟩

theorem wit_CompletionsHaveTheirEffect :
    (∃ s t, CompletionEvent s (.loadComplete 1 0 31 1) t) ∧ (∃ s t, CompletionEvent s (.storePerformed 1 0 31) t) ∧
      (∃ s t, CompletionEvent s (.matrixComplete 1 0) t ∧ s = mmaqS) ∧ (∃ s t, CompletionEvent s (.matrixComplete 1 0) t ∧ s = metS) ∧
      (∃ s t, CompletionEvent s (.unitTakesFreedWay 0 0 (pcSet 0x100000)) t) ∧
      (∃ s t, CompletionEvent s (.yieldHoldEnd 1 0 0) t ∧ s.clockOf (.unit 1 0 0) = 64) ∧
      (∃ s t, CompletionEvent s (.ballastRequestExpiry 1 0) t) ∧ ∃ s t, CompletionEvent s (.shuntReservationExpiry 1 0) t := by
  refine ⟨⟨blkG fun _ => lsGroup, _, .load 1 0 31 1 lsGroup ⟨[(38, 3)]⟩ ?_ ?_ ?_⟩,
    ⟨blkG fun _ => lsGroup, _, .store 1 0 31 lsGroup (some ⟨0x1000, 4, 7⟩) [none] ?_ ?_ ?_⟩,
    ⟨mmaqS, _, .matrix 1 0 (hereHomeOf mmaqS 1 0) { gr4 with mxq := [mmaqOp] } mmaqOp [] (homeOf_of ?_) ?_ ?_ ?_, rfl⟩,
    ⟨metS, _, .mmas 1 0 (hereHomeOf metS 1 0) { gr4 with mxq := [metOp 0] } metGroup (metOp 0) (metGroup.mxq.headD (metOp 0)) [] [] metRead
      (homeOf_of ?_) ?_ ?_ ?_ (getD_of ?_) (getD_of ?_) ?_, rfl⟩,
    ⟨blkG fun g => { g with units := [waitUnit] }, _, .way 0 0 (pcSet 0x100000) ⟨1, 1, 0, 0, waitUnit⟩ { gr1 with units := [waitUnit] } _
      ⟨0xFFFFFFFF, 0x100000, some 0, 0, false, none, false, false⟩ ?_ ?_ ?_ ?_ rfl ?_ ?_⟩,
    ⟨{ (blkG fun g => { g with units := [heldUnit] }) with columns := updAt blk.columns 0 fun c => { c with pclk20 := 1280 } }, _,
      .hold 1 0 0 0 (.unit 1 0 0) { gr1 with units := [heldUnit] } heldUnit ?_ ?_ ?_ ?_ ?_, ?_⟩,
    ⟨blkG fun g => { g with burn := some ⟨3, 0⟩ }, _, .burn 1 0 { bl1 with groups := [{ gr1 with burn := some ⟨3, 0⟩ }] }
      { gr1 with burn := some ⟨3, 0⟩ } ⟨3, 0⟩ ?_ ?_ ?_ ?_ ?_⟩,
    ⟨blkG fun g => { g with shunt := some ⟨3, 0⟩ }, _, .shunt 1 0 { bl1 with groups := [{ gr1 with shunt := some ⟨3, 0⟩ }] }
      { gr1 with shunt := some ⟨3, 0⟩ } ⟨3, 0⟩ ?_ ?_ ?_ ?_ ?_⟩⟩
  all_goals decide +kernel

/-- Device 1 has not answered for FTIMEOUT. -/
def silentS (qs : List Cmd) : State :=
  { withCmds qs with uptime := 1000 * State.reset.fabric.ftimeout, fabric := { blk.fabric with silent := [(1, 0)] } }

/-- A search of block 1 for a name, with its lane 0 waiting. -/
def search5 (found : List (Nat × Nat × Nat × Nat)) : Search :=
  { id := 5, block := 1, group := 0, lanes := 1, ctx := 0, name := 0x77, dst := some 4, ring := 0x200000, bar := 0, found, domain := false, asked := [] }

def searchS (cap : Word) (found : List (Nat × Nat × Nat × Nat)) : State :=
  { blk with searches := [search5 found], ctxs := setAt blk.ctxs 0 { ctx5 with defCap := cap } }

/-- A ready deferred name, first of its ring; the ring in the mapped page has one entry and is empty. -/
def def1 (faulted : Bool) : Deferred :=
  { ctx := 0, name := 0x77, pins := [], remote := 0, ring := 0x200000, block := 9, bar := 0, order := 1, faulted, moved := false }

def ringS (faulted : Bool) : State :=
  { paged blk with
    mem := ⟨tables.cells ++ [(0x300001, 0x01), (0x300002, 0x20), (0x300008, 0x01), (0x300010, 0x05), (0x300014, 0x05)]⟩
    deferred := [def1 faulted] }

def walked : Nat × Nat := (walkFrom tables 0x20FFFF 0x10000 3).getD (0, 0)
def walkedTo : Xlate := ⟨.dev 0x30FFFF, true, 2, false⟩

theorem wit_OtherAgentsHaveTheirEffect :
    (∀ code ∈ [0, 1, 2], ∃ s t, AgentEvent s (.reclaimSearchComplete 5 0) t ∧ ∃ q ∈ s.searches,
        code = (if q.found = [] ∧ q.domain = false then 0
          else if ((s.ctxs[q.ctx]?).map (·.defCap.toNat)).getD 0 ≤ (s.deferred.filter fun d => d.ctx = q.ctx).length then 2 else 1)) ∧
      (∃ s t, AgentEvent s (.pinQuery 3 0 0x77) t) ∧ (∃ s t, AgentEvent s (.freeRingAppend 0 false) t) ∧
      (∃ s t, AgentEvent s (.ringAppendRetry 0) t) ∧ (∃ s t, AgentEvent s (.pageWalk 0 0x20FFFF) t) ∧
      (∃ s t, AgentEvent s (.remoteAccess 1 0 .n64 0xBFFFFFFFF8 7 0) t) ∧
      (∃ s t, AgentEvent s (.remoteAccess 2 7 .n32 0xBFFFFFFFFC 7 0) t) ∧ (∃ s t, AgentEvent s (.remoteAccess 0 0 .n8 3 0 0) t) ∧
      (∃ s t, AgentEvent s (.fabricTimeout 7 1) t) ∧ (∃ s t, AgentEvent s (.fabricTimeout 0 1) t ∧ t.fabric.requests.any (fun r => r.expired) = true) ∧
      (∃ s t, AgentEvent s (.hostMemAccess true false 0xBFFFFFFFC0 64 7) t) ∧ (∃ s t, AgentEvent s (.hostMemAccess false false 3 1 0) t) ∧
      ∃ s t, AgentEvent s (.hostMemAccess true false 0 8 7) t := by
  refine ⟨?_, ⟨blk, _, .query 3 0 0x77 _ rfl⟩, ⟨ringS false, _, .append 0 (def1 false) ?_ ?_ ?_⟩, ⟨ringS true, _, .retry 0 (def1 true) ?_ ?_ ?_⟩,
    ⟨paged blk, _, .walk 0 0x20FFFF walked.1 walked.2 walkedTo _ ?_ ?_ ?_ rfl⟩, ⟨blk, _, .remoteStore 0 .n64 0xBFFFFFFFF8 7 0 ?_ ?_ ?_⟩,
    ⟨blk, _, .remoteAtomic 2 7 .n32 0xBFFFFFFFFC 7 0 ?_ ?_ ?_ ?_ ?_⟩, ⟨blk, _, .remoteLoad 0 .n8 3 0 0 ?_ ?_ ?_⟩,
    ⟨{ silentS [coll7] with ctxs := setAt blk.ctxs 0 ctx5 }, _, .peerLost 7 1 0 coll7 ?_ ?_ ?_ ?_ ?_ ?_ ?_ ?_⟩,
    ⟨{ silentS [] with fabric := { (silentS []).fabric with requests := [⟨1, 0, 31, 0x100000, 1, 0, false⟩] } }, _, .noAnswer 1 0 _ ?_ ?_ ?_ rfl, ?_⟩,
    ⟨blk, _, .host false 0xBFFFFFFFC0 0xBFFFFFFFC0 64 7 _ ?_ ?_ ?_ ?_ ?_ ?_ ?_ rfl⟩, ⟨blk, _, .hostRead false 3 3 1 0 _ ?_ ?_ ?_ ?_ ?_ ?_ ?_ rfl⟩,
    ⟨{ blk with fabric := { blk.fabric with ide := true } }, _, .hostDropped true 0 8 7 ?_ ?_⟩⟩
  case refine_1 =>
    simp only [List.mem_cons, List.not_mem_nil, or_false, forall_eq_or_imp, forall_eq]
    refine ⟨⟨searchS 1 [], _, .found 5 0 0 (search5 []) _ _ ?_ rfl ?_ rfl, search5 [], ?_, ?_⟩,
      ⟨searchS 1 [(1, 0, 0, 0)], _, .found 5 0 1 (search5 [(1, 0, 0, 0)]) _ _ ?_ rfl ?_ rfl, search5 [(1, 0, 0, 0)], ?_, ?_⟩,
      ⟨searchS 0 [(1, 0, 0, 0)], _, .found 5 0 2 (search5 [(1, 0, 0, 0)]) _ _ ?_ rfl ?_ rfl, search5 [(1, 0, 0, 0)], ?_, ?_⟩⟩
    all_goals decide +kernel
  all_goals decide +kernel

/-- The block of the name lives, or is gone. -/
theorem wit_AppendHasRoom : ∀ live : Bool, ∃ (s : State) (d : Deferred) (b h e : Nat) (th te : Xlate), s.memoriesWf = true ∧
    s.translate d.ctx d.ring true = .ok th ∧ th.loc = .dev h ∧ b = s.mem.read h 8 ∧ b % 8 = 0 ∧ b < 2 ^ 52 ∧
    (∃ k, k < 25 ∧ s.mem.read (h + 8) 4 = 2 ^ k) ∧
    (s.mem.read (h + 16) 4 + 2 ^ 32 - s.mem.read (h + 20) 4) % 2 ^ 32 < s.mem.read (h + 8) 4 ∧
    s.translate d.ctx (b + 8 * (s.mem.read (h + 16) 4 % s.mem.read (h + 8) 4)) true = .ok te ∧ te.loc = .dev e ∧
    (e + 8 ≤ h + 16 ∨ h + 20 ≤ e) ∧ d.moved = false ∧
    (if live = true then ∃ x, s.block? d.block = some x ∧ x.state ≠ .retired ∧ d.block ≠ 0 ∧ ∃ p, x.part (scrPart d.bar) = some p
     else ∀ x, s.block? d.block = some x → x.state = .retired) := by
  intro live
  have hr : (ringS false).block? 1 = some bl1 ∧ (ringS false).block? 9 = none ∧ bl1.part 0 = some pt1 := by decide +kernel
  refine ⟨ringS false, { def1 false with block := if live then 1 else 9 }, 0x200100, 0x300000, 0x300100, ⟨.dev 0x300000, true, 2, false⟩,
    ⟨.dev 0x300100, true, 2, false⟩, ?_, ?_, rfl, ?_, ?_, ?_, ⟨0, ?_, ?_⟩, ?_, ?_, rfl, ?_, rfl, ?_⟩
  case refine_11 =>
    cases live
    · intro x hx
      exact absurd (hr.2.1.symm.trans hx) (by simp)
    · exact ⟨bl1, hr.1, by decide, by decide, pt1, hr.2.2⟩
  all_goals first | decide +kernel | (cases live <;> decide +kernel)

/-! ## Witnesses: power forms and the management core -/

theorem powerReady_of {s : State} (hq : quietWhole s = true) {f : Fields} {b g u : Nat} (hu : s.cur = .unit b g u)
    (hon : ((here s).rd.thread (here s).lowLane).guard f = true) (op : Nat) : s.PowerReady (here s) op f b g := by
  have hp (l : Nat) (regs : List Nat) := pendIn_of_quiet (quiet_of hq) l regs
  simp only [quietWhole, Bool.and_eq_true, Bool.not_eq_true', List.isEmpty_eq_false_iff] at hq
  exact ⟨ctx_of_quiet hq.1.1, ⟨u, hu⟩, hq.2, hq.1.2, hon, hp _ _, poisonTrap_of_quiet hq.1.1 _ _⟩

/-- The block on core 95, the uppermost core of column 23. -/
def topBlk : State := { blk with blocks := [{ bl1 with parts := [{ pt1 with core := 95 }] }] }

theorem wit_PowerInstructions :
    (∃ f, blk.PowerReady (here blk) 0xC0 f 1 0 ∧ f.d = .zero) ∧ (∃ f, blk.PowerReady (here blk) 0xC1 f 1 0) ∧
      (∃ f, blk.PowerReady (here blk) 0xC3 f 1 0) ∧
      ∀ s ∈ [blk, topBlk], ∃ (f : Fields) (y : Column), (∀ n, f.d ≠ .s n) ∧ s.cur = .unit 1 0 0 ∧ s.Ready (here s) 0xC2 f ∧
        s.Ready (here s) 0xC4 f ∧ s.launchOf s.cur = some la1 ∧ s.issuerCore 1 0 < 192 ∧
        s.columns[columnOf (s.issuerCore 1 0)]? = some y ∧ y.shown.state < 4 ∧ y.shown.pl < 16 := by
  have ne (x : BitVec 8) : ∀ n, (Opnd.v x) ≠ .s n := by
    intro n h
    cases h
  refine ⟨⟨fld .zero .imm .zero .zero .i8 0x12C06, powerReady_of blk_quiet rfl ?_ _, rfl⟩,
    ⟨fld (.v 1) .imm .zero .zero .i8 0x12CFF, powerReady_of blk_quiet rfl ?_ _⟩,
    ⟨fld (.v 1) .imm .zero .zero .i8 15, powerReady_of blk_quiet rfl ?_ _⟩, ?_⟩
  case refine_4 =>
    simp only [List.mem_cons, List.not_mem_nil, or_false, forall_eq_or_imp, forall_eq]
    refine ⟨⟨fld (.v 4) .zero .zero .zero .i8 0, (blk.columns[0]?).getD (blk.columns.headD Column.reset), ne _, rfl,
        ready_of_quiet (quiet_of blk_quiet) _ _, ready_of_quiet (quiet_of blk_quiet) _ _, ?_, ?_, ?_, ?_, ?_⟩,
      ⟨fld (.v 4) .zero .zero .zero .i8 0, (blk.columns[23]?).getD (blk.columns.headD Column.reset), ne _, rfl,
        ready_of_quiet ?_ _ _, ready_of_quiet ?_ _ _, ?_, ?_, ?_, ?_, ?_⟩⟩
    all_goals decide +kernel
  all_goals decide +kernel

theorem mgmtRuns_of {s : State} (hq : quietWhole s = true) (hc : s.cur = .mgmt) (hl : (here s).lanes = [0]) {f : Fields}
    (hon : ((here s).rd.thread 0).guard f = true) (hp : f.namesS = false) {i : Instr} (hi : s.privilege i = none) (op : Nat) :
    s.MgmtRuns (here s) i op f :=
  ⟨canRun_of_quiet hq _ _, hc, hl, hon, hp, hi⟩

/-- The management core with control registers and registers of its thread changed. -/
def mgC (c : Csrs → Csrs) (regs : List (Nat × Word)) : State := { mg regs with csr := c State.reset.csr }

/-- V2 is 1. -/
def oneF : Fields := fld (.v 1) (.v 2) (.v 3) .zero .i8 0

/-- CSRR of the mask of a context and of TRAPIP by a supervisor; CSRW of TRAPVEC. -/
theorem wit_ControlRegistersAreReadAndWritten :
    (∃ (f : Fields) (s : State), s.MgmtRuns (here s) (.csrr f) 0xE0 f ∧
      (s.operand (here s).rd 0 f false f.b).toNat < csrCount (f.immBits 11 0) ∧ s.csr.pl = 2) ∧
    (∃ (f : Fields) (s : State), s.MgmtRuns (here s) (.csrr f) 0xE0 f ∧ f.immBits 11 0 = 0x010 ∧
      (s.operand (here s).rd 0 f false f.b).toNat = 63 ∧ s.csr.pl = 1 ∧
      s.tenantOf (s.operand (here s).rd 0 f false f.b).toNat = s.csr.part.toNat) ∧
    ∃ (f : Fields) (s : State), s.MgmtRuns (here s) (.csrw f) 0xE1 f ∧
      s.csrTrap (f.immBits 11 0) (s.operand (here s).rd 0 f false f.b).toNat 0 true = [] := by
  refine ⟨⟨fld (.v 4) .zero .zero .zero .n64 0x004, mg [], mgmtRuns_of ?_ rfl ?_ ?_ rfl ?_ _, ?_, ?_⟩,
    ⟨fld (.v 4) .zero (.v 2) .zero .n64 0x010, mgC (fun c => { c with pl := 1 }) [(2, 63)], mgmtRuns_of ?_ rfl ?_ ?_ rfl ?_ _, ?_, ?_, ?_, ?_⟩,
    ⟨fld .zero (.v 2) .zero .zero .n64 0x001, mg [(2, 0x1040)], mgmtRuns_of ?_ rfl ?_ ?_ rfl ?_ _, ?_⟩⟩
  all_goals decide +kernel

/-- ERET on a compute core; TOKXF at supervisor level. -/
theorem wit_SystemFormsNeedTheirLevel :
    (∃ (i : Instr) (f : Fields) (level : Nat) (s : State) (c : Ctx), systemOf i = some (f, level) ∧ s.ctx? = some c ∧ s.cur ≠ .mgmt) ∧
      ∃ (i : Instr) (f : Fields) (level : Nat) (s : State) (c : Ctx), systemOf i = some (f, level) ∧ s.ctx? = some c ∧ s.cur = .mgmt ∧
        s.csr.pl = 1 ∧ level = 2 := by
  refine ⟨⟨.eret oneF, oneF, 1, blk, here blk, rfl, ?_, by intro h; cases h⟩,
    ⟨.tokxf oneF, oneF, 2, mgC (fun c => { c with pl := 1 }) [], here (mgC (fun c => { c with pl := 1 }) []), rfl, ?_, rfl, ?_, rfl⟩⟩
  all_goals decide +kernel

theorem wit_ManagementControlInstructions :
    (∀ p ∈ [(1 : BitVec 2), 2], ∃ (f : Fields) (s : State), s.MgmtRuns (here s) (.eret f) 0xE2 f ∧ s.csr.ppl = p ∧ s.csr.pl = 2 ∧
      s.ipOk s.csr.trapIp = true ∧ 0 < s.mgmt.group.threads.length) ∧
    (∀ p ∈ [(0, 2), (3, 2), (2, 1)], ∃ (f : Fields) (s : State), s.MgmtRuns (here s) (.eret f) 0xE2 f ∧ s.csr.ppl.toNat = p.1 ∧ s.csr.pl.toNat = p.2) ∧
    (∀ x ∈ [none, some 8], ∃ (f : Fields) (s : State), s.MgmtRuns (here s) (.wfi f) 0xE3 f ∧ s.MgmtRuns (here s) (.intack f) 0xE5 f ∧
      s.takenSource = x) ∧
    (∃ (f : Fields) (s : State) (t : Tenant), s.MgmtRuns (here s) (.sev f) 0xE4 f ∧
      let a := (s.operand (here s).rd 0 f false f.a).toNat
      s.tenants[bits a 18 16]? = some t ∧ a % 2 ^ 16 < t.vcnt.toNat ∧ (s.csr.pl = 2 ∨ bits a 18 16 = s.csr.part.toNat)) ∧
    ∃ (f : Fields) (s : State), s.MgmtRuns (here s) (.tlbinvCtx f) 0xE6 f ∧ s.MgmtRuns (here s) (.tlbinvPage f) 0xE6 f ∧
      (s.operand (here s).rd 0 f false f.a).toNat = 63 ∧ s.csr.pl = 2 ∧ s.ctxStores 63 = false := by
  have er (c : Csrs → Csrs) (hq : quietWhole (mgC c []) = true) (hl : (here (mgC c [])).lanes = [0])
      (hg : ((here (mgC c [])).rd.thread 0).guard oneF = true) (hi : (mgC c []).privilege (.eret oneF) = none) :=
    @mgmtRuns_of (mgC c []) hq rfl hl oneF hg rfl (.eret oneF) hi
  refine ⟨?_, ?_, ?_,
    ⟨oneF, { mg [(2, 0x70007)] with tenants := updAt State.reset.tenants 7 fun t => { t with vcnt := 8 } },
      { Tenant.reset with vcnt := 8 }, mgmtRuns_of ?_ rfl ?_ ?_ rfl ?_ _, ?_⟩,
    ⟨oneF, mg [(2, 63)], mgmtRuns_of ?_ rfl ?_ ?_ rfl ?_ _, mgmtRuns_of ?_ rfl ?_ ?_ rfl ?_ _, ?_, ?_, ?_⟩⟩
  case refine_1 =>
    simp only [List.mem_cons, List.not_mem_nil, or_false, forall_eq_or_imp, forall_eq]
    refine ⟨⟨oneF, mgC (fun c => { c with ppl := 1, tl := true }) [], er _ ?_ ?_ ?_ ?_ _, ?_, ?_, ?_, ?_⟩,
      ⟨oneF, mgC (fun c => { c with ppl := 2, tl := true }) [], er _ ?_ ?_ ?_ ?_ _, ?_, ?_, ?_, ?_⟩⟩
    all_goals decide +kernel
  case refine_2 =>
    simp only [List.mem_cons, List.not_mem_nil, or_false, forall_eq_or_imp, forall_eq]
    refine ⟨⟨oneF, mgC (fun c => { c with ppl := 0 }) [], er _ ?_ ?_ ?_ ?_ _, ?_, ?_⟩,
      ⟨oneF, mgC (fun c => { c with ppl := 3 }) [], er _ ?_ ?_ ?_ ?_ _, ?_, ?_⟩,
      ⟨oneF, mgC (fun c => { c with ppl := 2, pl := 1 }) [], er _ ?_ ?_ ?_ ?_ _, ?_, ?_⟩⟩
    all_goals decide +kernel
  case refine_3 =>
    simp only [List.mem_cons, List.not_mem_nil, or_false, forall_eq_or_imp, forall_eq]
    refine ⟨⟨oneF, mg [], mgmtRuns_of ?_ rfl ?_ ?_ rfl ?_ _, mgmtRuns_of ?_ rfl ?_ ?_ rfl ?_ _, ?_⟩,
      ⟨oneF, mgC (fun c => { c with intPend := 0x100, intEn := 0x1FF }) [], mgmtRuns_of ?_ rfl ?_ ?_ rfl ?_ _,
        mgmtRuns_of ?_ rfl ?_ ?_ rfl ?_ _, ?_⟩⟩
    all_goals decide +kernel
  all_goals decide +kernel

theorem wit_ExceptionsAndInterruptsAreTaken :
    (∃ s : State, s.cur = .mgmt ∧ s.csr.tl = false ∧ 0 < s.mgmt.group.threads.length) ∧ (∃ s : State, s.cur = .mgmt ∧ s.csr.tl = true) ∧
    (∃ (s : State) (t : Trap) (b g u : Nat) (x : Block) (y : Group) (v : IssueUnit), s.cur = .unit b g u ∧ s.block? b = some x ∧
      x.groups[g]? = some y ∧ y.units[u]? = some v ∧ s.pairRead = none ∧ t.cause ≠ .pipe) ∧
    (∃ s : State, s.takenSource = some 4 ∧ s.csr.ie = true ∧ s.mgmt.halted = false ∧ s.stopped = false ∧ s.csr.tl = false ∧
      s.mgmt.inWfi = false ∧ 0 < s.mgmt.group.threads.length) ∧
    ∃ s : State, s.ftime < s.csr.timeCmp.toNat := by
  refine ⟨⟨mg [], rfl, ?_, ?_⟩, ⟨mgC (fun c => { c with tl := true }) [], rfl, ?_⟩,
    ⟨blk, mkTrap .access 15 0 0, 1, 0, 0, bl1, gr1, ⟨0xFFFFFFFF, 0x100000, some 0, 0, false, none, false, false⟩, rfl, ?_, ?_, ?_, ?_, ?_⟩,
    ⟨mgC (fun c => { c with timeCmp := 0, intEn := 0x1FF, ie := true }) [], ?_, ?_, ?_, ?_, ?_, ?_, ?_⟩, ⟨mg [], ?_⟩⟩
  all_goals decide +kernel

/-- A captured block, a replayed one at its own mark and at another, and one under neither. -/
def capS (mode : BitVec 2) (mark : Word) : State :=
  { withV blk (fun _ => [mark]) with
    csr := { blk.csr with capMode := mode, capCtxs := 1, capHead := 3, capTail := 0 }
    mem := Memory.empty.setBytes 192 (capRecord 5 0 0 3 0 (leBytes 4 7 ++ leBytes 4 0)) }

/-- CAPMK V0. -/
def markF : Fields := fld .zero (.v 0) .zero .zero .i8 0

theorem wit_ContextsTokensAndMarks :
    (∃ (f : Fields) (s : State), s.MgmtRuns (here s) (.ctxsv f) 0xE7 f ∧ s.MgmtRuns (here s) (.ctxld f) 0xE8 f) ∧
    (∀ n ∈ [5, 6], ∃ (f : Fields) (s : State), s.MgmtRuns (here s) (.tokxf f) 0xE9 f ∧ s.csr.tokens = 5 ∧
      (s.operand (here s).rd 0 f false f.b).toNat = n) ∧
    ∀ x ∈ [((1 : BitVec 2), (7 : Word)), (2, 7), (2, 8), (0, 7)], ∃ (f : Fields) (l : Nat) (ls : List Nat) (s : State) (b : Block),
      s.CanRun (here s) 0xEA f ∧ s.cur = .unit 1 0 0 ∧ s.block? 1 = some b ∧
      ((here s).actors f).filter (fun l => !((here s).rd.thread l).helper) = l :: ls ∧ s.csr.capMode = x.1 ∧
      (s.operand (here s).rd l f false f.a).toNat = x.2.toNat ∧ (x.1 ≠ 0 → s.capOn x.1 s.ctxOf = true) ∧
      (x.1 = 2 → s.csr.capFree = false ∧ ∃ r, s.capNext = some r ∧ isMark s.ctxOf b.index r = true ∧ leAt r 16 4 = 7) := by
  refine ⟨⟨oneF, mg [], mgmtRuns_of ?_ rfl ?_ ?_ rfl ?_ _, mgmtRuns_of ?_ rfl ?_ ?_ rfl ?_ _⟩, ?_, ?_⟩
  case refine_9 =>
    simp only [List.mem_cons, List.not_mem_nil, or_false, forall_eq_or_imp, forall_eq]
    refine ⟨⟨oneF, mgC (fun c => { c with tokens := 5 }) [(2, 1), (3, 5)], mgmtRuns_of ?_ rfl ?_ ?_ rfl ?_ _, ?_, ?_⟩,
      ⟨oneF, mgC (fun c => { c with tokens := 5 }) [(2, 1), (3, 6)], mgmtRuns_of ?_ rfl ?_ ?_ rfl ?_ _, ?_, ?_⟩⟩
    all_goals decide +kernel
  case refine_10 =>
    have key (mode : BitVec 2) (mark : Word) (hq : quietWhole (capS mode mark) = true)
        (h : (capS mode mark).cur = .unit 1 0 0 ∧ ((capS mode mark).block? 1).map (·.index) = some 0 ∧
          ((here (capS mode mark)).actors markF).filter (fun l => !((here (capS mode mark)).rd.thread l).helper) = List.range 32 ∧
          (capS mode mark).csr.capMode = mode ∧
          ((capS mode mark).operand (here (capS mode mark)).rd 0 markF false markF.a).toNat = mark.toNat ∧
          (mode ≠ 0 → (capS mode mark).capOn mode (capS mode mark).ctxOf = true) ∧
          (mode = 2 → (capS mode mark).csr.capFree = false ∧
            ((capS mode mark).capNext.map fun r => isMark (capS mode mark).ctxOf 0 r && decide (leAt r 16 4 = 7)) = some true)) :
        ∃ (f : Fields) (l : Nat) (ls : List Nat) (s : State) (b : Block), s.CanRun (here s) 0xEA f ∧ s.cur = .unit 1 0 0 ∧ s.block? 1 = some b ∧
          ((here s).actors f).filter (fun l => !((here s).rd.thread l).helper) = l :: ls ∧ s.csr.capMode = mode ∧
          (s.operand (here s).rd l f false f.a).toNat = mark.toNat ∧ (mode ≠ 0 → s.capOn mode s.ctxOf = true) ∧
          (mode = 2 → s.csr.capFree = false ∧ ∃ r, s.capNext = some r ∧ isMark s.ctxOf b.index r = true ∧ leAt r 16 4 = 7) := by
      obtain ⟨b, hb, hi⟩ := Option.map_eq_some_iff.1 h.2.1
      refine ⟨markF, 0, (List.range 31).map (· + 1), capS mode mark, b, canRun_of_quiet hq _ _, h.1, hb, h.2.2.1, h.2.2.2.1, h.2.2.2.2.1,
        h.2.2.2.2.2.1, fun hm => ⟨(h.2.2.2.2.2.2 hm).1, ?_⟩⟩
      obtain ⟨r, hr, hx⟩ := Option.map_eq_some_iff.1 (h.2.2.2.2.2.2 hm).2
      simp only [Bool.and_eq_true, decide_eq_true_eq] at hx
      exact ⟨r, hr, hi ▸ hx.1, hx.2⟩
    intro x hx
    rcases List.mem_cons.1 hx with rfl | hx
    · exact key 1 7 (by decide +kernel) (by decide +kernel)
    rcases List.mem_cons.1 hx with rfl | hx
    · exact key 2 7 (by decide +kernel) (by decide +kernel)
    rcases List.mem_cons.1 hx with rfl | hx
    · exact key 2 8 (by decide +kernel) (by decide +kernel)
    obtain rfl := List.mem_singleton.1 hx
    exact key 0 7 (by decide +kernel) (by decide +kernel)
  all_goals decide +kernel

/-! ## Witnesses: the scheduler -/

/-- Queue 5 of context 0 at the start of HBM, with one record of 128 bytes. -/
def qRec (kind : Nat) (at80 at88 : Nat) : List Byte :=
  leBytes 1 kind ++ List.replicate 79 0 ++ leBytes 8 at80 ++ leBytes 8 at88 ++ List.replicate 32 0

def q5 (state : BitVec 3) : Queue := { Queue.reset with en := true, valid := true, state, tail := 1 }

def qS (state : BitVec 3) (record : List Byte) : State :=
  { paged State.reset with mem := tables.setBytes 0 record, queues := setAt State.reset.queues 5 (q5 state) }

/-- A launch of an empty grid: 32 threads a block, 8 registers, one frame and one overlay. -/
def emptyLaunch : List Byte :=
  [1, 0, 0, 1] ++ leBytes 4 0 ++ leBytes 4 1 ++ leBytes 4 1 ++ leBytes 2 32 ++ leBytes 2 1 ++ leBytes 2 1 ++ leBytes 2 8 ++ List.replicate 16 0
    ++ leBytes 2 1 ++ List.replicate 86 0

def launchS : State := { qS 1 emptyLaunch with csr := { (qS 1 emptyLaunch).csr with ctxValid := 1 } }

/-- The launch of a verdict. -/
def begun : Verdict → Option Launch
  | .launch l => some l
  | _ => none

def refused : Verdict → Option Nat
  | .refuse c => some c
  | _ => none

def isNop : Verdict → Bool
  | .nop => true
  | _ => false

def isWaiting : Verdict → Bool
  | .waiting => true
  | _ => false

def isHeld : Verdict → Bool
  | .held => true
  | _ => false

theorem held_of {v : Verdict} (h : isHeld v = true) : v = .held := by
  cases v <;> simp_all [isHeld]

theorem launch_of {v : Verdict} (h : (begun v).isSome = true) : ∃ l, v = .launch l := by
  cases v <;> simp_all [begun]

theorem refuse_of {v : Verdict} {n : Nat} (h : refused v = some n) : v = .refuse n := by
  cases v <;> simp_all [refused]

/-- A replay whose next record is a mark, where the launch is ready. -/
def heldS : State :=
  { launchS with
    csr := { launchS.csr with capMode := 2, capCtxs := 1, capRing := 0x4000, capHead := 0, capTail := 1 }
    mem := launchS.mem.setBytes 0x4000 (capRecord 5 0 0 3 0 []) }

theorem nop_of {v : Verdict} (h : isNop v = true) : v = .nop := by
  cases v <;> simp_all [isNop]

theorem waiting_of {v : Verdict} (h : isWaiting v = true) : v = .waiting := by
  cases v <;> simp_all [isWaiting]

/-- A launch whose blocks hold no registers, so that any core's repaired capacity covers it. -/
def la0 (f : Launch → Launch) : Launch := f { la1 with regs := 0, state := .admission, nextComb := 0 }

theorem alloc_zero {l : Launch} (h : l.regs = 0) (k : Nat) : l.alloc k = 0 := by
  simp [Launch.alloc, h, ceilDiv]

theorem qualifies_of {s : State} {l : Launch} {col : Nat} (h : l.regs = 0) (hs : s.noSpareOn col = false)
    (hf : ((List.range 4).all fun y => (s.freeSlot (coreAt col y)).isSome && s.framesFree l (coreAt col y)) = true) :
    s.qualifies l col = true := by
  simp only [State.qualifies, Launch.holdsOn, alloc_zero h, hs, hf]
  simp

theorem roomFor_of {s : State} {l : Launch} {k core : Nat} (h : l.regs = 0) (hh : s.holdersOn core = []) (hs : l.scratch ≤ 2 ^ 20)
    (hg : l.partitionGroups k ≤ 16) : s.roomFor l k core = true := by
  simp [State.roomFor, hh, alloc_zero h, h, hg]
  omega

/-- A partition with column 0, no block yet, and the launch waiting for its comb. -/
def admS (l : Launch) : State :=
  { blk with
    cur := .mgmt, blocks := [], windows := [], launches := [l]
    tenants := updAt blk.tenants 0 fun t => { t with colMask := 1 } }

def coop0 : Launch := la0 fun l => { l with flags := 1 }
def plain0 : Launch := la0 id

def coopEnd : State := (State.admitAll 1 1 (admS coop0)).getD (admS coop0)

theorem coop_admitted : State.admitAll 1 (coop0.combs - coop0.nextComb) (admS coop0) = some coopEnd := by
  have h1 : coop0.combs - coop0.nextComb = 1 := by decide +kernel
  have hq : (admS coop0).qualifies coop0 0 = true := qualifies_of rfl (by decide +kernel) (by decide +kernel)
  have hc : State.combFits coop0 (admS coop0) 0 = true := by
    have hr (y : Nat) (hy : y < 4) : (admS coop0).roomFor coop0 (coop0.partOn y) (coreAt 0 y) = true :=
      roomFor_of rfl (by revert y; decide +kernel) (by decide +kernel) (by revert y; decide +kernel)
    simp only [State.combFits, List.all_eq_true, List.mem_range, Bool.or_eq_true]
    exact fun y hy => .inr (hr y hy)
  have ha : ((admS coop0).admitComb coop0 (State.combFits coop0)).isSome = true := by
    have hcol : (admS coop0).columnsOf ((admS coop0).tenantOf coop0.ctx) = [0] := by decide +kernel
    have hs : ((admS coop0).saveSlots coop0 coop0.combBlocks).isSome = true := by decide +kernel
    have hp : (admS coop0).prefer coop0.ac [0] = some 0 := by decide +kernel
    obtain ⟨x, hx⟩ := Option.isSome_iff_exists.1 hs
    simp [State.admitComb, hcol, hx, hq, hc, hp]
  obtain ⟨t, ht⟩ := Option.isSome_iff_exists.1 ha
  have hl : (admS coop0).launch? 1 = some coop0 := by decide +kernel
  rw [h1]
  unfold coopEnd State.admitAll
  simp [hl, ht, State.admitAll]

theorem wit_QueuesRecordsAndLaunches :
    (∃ s t, QueueEvent s (.queueDoorbell true 255 16) t) ∧ (∃ s t, QueueEvent s (.queueResume false 5) t) ∧
      (∃ s t, QueueEvent s (.recordCheck 5) t ∧ refused (s.verdict 5 (q5 1)) = some 1) ∧
      (∃ s t, QueueEvent s (.recordCheck 5) t ∧ isNop (s.verdict 5 (q5 1)) = true) ∧
      (∃ s t, QueueEvent s (.recordCheck 5) t ∧ isWaiting (s.verdict 5 (q5 1)) = true) ∧
      (∃ s t, QueueEvent s (.recordCheck 5) t ∧ (begun (s.verdict 5 (q5 1))).isSome = true) ∧
      (∃ s t, QueueEvent s (.recordCheck 5) t ∧ isHeld (s.verdict 5 (q5 1)) = true) ∧
      (∀ x ∈ [(0x200000, 0), (0x200000, 1), (0x7F000000, 0)], ∃ s t, QueueEvent s (.waitRecordPoll 5) t ∧ s = qS 2 (qRec 2 x.1 x.2)) ∧ (∃ s t, QueueEvent s (.combAdmit 1) t ∧ s = admS plain0) ∧
      (∃ s t, QueueEvent s (.combAdmit 1) t ∧ s = admS coop0) ∧ ∃ s t, QueueEvent s (.launchFlushDone 1) t := by
  have hl : ∃ l, launchS.verdict 5 (q5 1) = .launch l := launch_of (by decide +kernel)
  obtain ⟨l, hl⟩ := hl
  have hp : (admS plain0).prefer plain0.ac (((admS plain0).columnsOf ((admS plain0).tenantOf plain0.ctx)).filter
      ((admS plain0).qualifies plain0)) = some 0 := by
    have hq : (admS plain0).qualifies plain0 0 = true := qualifies_of rfl (by decide +kernel) (by decide +kernel)
    have hcol : (admS plain0).columnsOf ((admS plain0).tenantOf plain0.ctx) = [0] := by decide +kernel
    have hp : (admS plain0).prefer plain0.ac [0] = some 0 := by decide +kernel
    simp [hcol, hq, hp]
  refine ⟨⟨qS 1 [], _, .doorbell true 255 16 Queue.reset ?_ ?_ ?_⟩, ⟨qS 3 [], _, .resume false 5 (q5 3) ?_ ?_ ?_ ?_⟩,
    ⟨qS 1 (qRec 3 0 0), _, .refuse 5 1 (q5 1) ?_ ?_ ?_ (refuse_of ?_) ?_, ?_⟩,
    ⟨qS 1 (qRec 0 0 0), _, .pass 5 (q5 1) ?_ ?_ ?_ (nop_of ?_), ?_⟩,
    ⟨qS 1 (qRec 2 0x200000 1), _, .wait 5 (q5 1) ?_ ?_ ?_ (waiting_of ?_), ?_⟩,
    ⟨launchS, _, .launch 5 (q5 1) l _ ?_ ?_ ?_ hl ?_ rfl, ?_⟩,
    ⟨heldS, _, .held 5 (q5 1) ?_ ?_ ?_ ?_ ?_ (held_of ?_), ?_⟩, ?polls,
    ⟨admS plain0, _, .comb 1 0 plain0 { Tenant.reset with colMask := 1 } [0] ?_ ?_ ?_ ?_ ?_ ?_ ?_ hp, rfl⟩,
    ⟨admS coop0, _, .combs 1 coop0 { Tenant.reset with colMask := 1 } coopEnd ?_ ?_ ?_ ?_ ?_ ?_ coop_admitted, rfl⟩,
    ⟨{ blk with blocks := [], launches := [{ la1 with state := .flush, energy := 7 }] }, _,
      .done 1 { la1 with state := .flush, energy := 7 } _ ?_ ?_ ?_ ?_ ?_ rfl⟩⟩
  case polls =>
    simp only [List.mem_cons, List.not_mem_nil, or_false, forall_eq_or_imp, forall_eq]
    refine ⟨⟨_, _, .poll 5 (q5 2) (List.replicate 8 0) ?_ ?_ ?_ ?_ ?_ ?_ ?_, rfl⟩,
      ⟨_, _, .stillWaits 5 (q5 2) (List.replicate 8 0) ?_ ?_ ?_ ?_ ?_ ?_ ?_, rfl⟩, ⟨_, _, .pollFault 5 (q5 2) ?_ ?_ ?_ ?_ ?_ ?_, rfl⟩⟩
    all_goals decide +kernel
  all_goals decide +kernel

/-- Block 1 whose threads all wait for a barrier; block 3, admitted, waits for its core. -/
def parkedBl : Block :=
  { bl1 with idle := 1000, groups := [{ gr1 with threads := gr1.threads.map fun t => { t with status := .parked (.barrier 0 0 0 none) } }] }

def bl3 : Block := { bl1 with id := 3, launch := 3, age := 3, slot := 2, state := .admitted, parts := [{ pt1 with slot := 2, held := [] }] }

def waitS : State := { blk with blocks := [parkedBl, bl3], launches := [la1, { la0 id with id := 3, state := .run }] }

/-- Partition 0 has column 0. -/
def column0 : List Tenant := updAt blk.tenants 0 fun t => { t with colMask := 1 }

/-- Block 3 alone. -/
def aloneS : State := { blk with blocks := [bl3], launches := [{ la0 id with id := 3, state := .run }], tenants := column0 }

theorem alone_fits : aloneS.blockFits bl3 = true := by
  have hl : aloneS.launch? bl3.launch = some { la0 id with id := 3, state := .run } := by decide +kernel
  have hr : aloneS.roomFor { la0 id with id := 3, state := .run } 0 0 = true :=
    roomFor_of rfl (by decide +kernel) (by decide +kernel) (by decide +kernel)
  simp only [State.blockFits, hl]
  simp [bl3, pt1, hr]

/-- Block 3 alone, spilled to a slot that does not translate. -/
def spilled3 : Block := { bl3 with inSlot := true, slot := 0 }
def spilledS : State := { blk with blocks := [spilled3], launches := [{ la0 id with id := 3, state := .run }], tenants := column0 }

theorem spilled_fits : spilledS.blockFits spilled3 = true := by
  have hl : spilledS.launch? spilled3.launch = some { la0 id with id := 3, state := .run } := by decide +kernel
  have hr : spilledS.roomFor { la0 id with id := 3, state := .run } 0 0 = true :=
    roomFor_of rfl (by decide +kernel) (by decide +kernel) (by decide +kernel)
  simp only [State.blockFits, hl]
  simp [spilled3, bl3, pt1, hr]

/-- The part of block 1 is being saved. -/
def savingPart : Part := { pt1 with state := .saving }
def savingBl : Block := { mxBl with parts := [savingPart] }

/-- Two parts of a block, one on core 24, the other waiting for its column, then on its way to column 0. -/
def movingBl (c : Nat) : Block := { bl1 with parts := [{ pt1 with state := .restoring c }, { pt1 with core := 24, slot := 1 }] }

def trapEvent : Event :=
  { plainEvent .access 0 0 0 [] with parked := true, block := 1, lanes := [(0, 0xFFFFFFFF)], trapIp := 0x100000, seq := 7 }

def prio7S : State :=
  { blk with
    ftime := 20000, launches := [la1, { la1 with id := 2, queue := 7, state := .admission, saveLen := 0, nextComb := 0 }]
    queues := updAt blk.queues 7 fun q => { q with prio := 7 }, tenants := updAt blk.tenants 0 fun t => { t with colMask := 1 } }

def postS (e : Event) (head : BitVec 16) : State :=
  { blk with waiting := [e], csr := { blk.csr with evqEn := true, evqBase := 0x4000, evqHead := head } }

theorem wit_BlocksSavesAndEvents :
    (∃ s t, BlockEvent s (.blockSwitchIn 3) t) ∧ (∃ s t, BlockEvent s (.blockSwitchIn 3) t ∧ s.slotFault spilled3 false = some 0) ∧
      (∃ s t, BlockEvent s (.blockSwitchOut 1) t) ∧
      (∃ s t, BlockEvent s (.partSaveDone 1 0) t ∧ s.slotFault savingBl true = none) ∧
      (∃ s t, BlockEvent s (.partSaveDone 1 0) t ∧ s.slotFault savingBl true = some 0) ∧
      (∃ s t, BlockEvent s (.partSaveDone 1 0) t ∧ ((s.block? 1).bind fun b => b.part 0).map (·.queued) = some true) ∧
      (∃ s t, BlockEvent s (.partRestoreDone 1 0) t ∧ s.block? 1 = some (movingBl 48)) ∧
      (∃ s t, BlockEvent s (.partRestoreDone 1 0) t ∧ s.block? 1 = some (movingBl 0)) ∧
      (∃ s t, BlockEvent s (.prio7Preempt 2 0) t) ∧ (∃ s t, BlockEvent s (.eventPost 0) t ∧ s.csr.evqHead = 63) ∧
      (∃ s t, BlockEvent s (.eventPost 0) t ∧ s.csr.evqHead = 64) ∧
      (∃ s t, BlockEvent s (.blkctlResume 7) t) ∧ (∃ s t, BlockEvent s (.blkctlSkip 7) t) ∧
      ∃ s t, BlockEvent s (.blkctlKill 7) t := by
  refine ⟨⟨aloneS, _, .switchIn 3 bl3 ?_ ?_ ?_ alone_fits ?_ (.inl ?_) ?_⟩,
    ⟨spilledS, _, .switchInFault 3 0 spilled3 ?_ ?_ ?_ spilled_fits ?_ ?_ ?_ ?_, ?_⟩,
    ⟨waitS, _, .switchOut 1 parkedBl bl3 la1 ?_ ?_ ?_ ?_ ?_ ?_ ?_ ?_ ?_ ?_ ?_⟩,
    ⟨slotS fun b => { b with parts := [savingPart] }, _, .saved 1 0 savingBl savingPart _ ?_ ?_ ?_ ?_ ?_ ?_ ?_ ?_ rfl, ?_⟩,
    ⟨mxS fun b => { b with parts := [savingPart] }, _, .slotFault 1 0 0 savingBl savingPart la1 _ ?_ ?_ ?_ ?_ ?_ ?_ ?_ ?_ ?_ ?_ rfl, ?_⟩,
    ⟨slotS fun b => { b with parts := [{ savingPart with queued := true }] }, _, .queued 1 0 { mxBl with parts := [{ savingPart with queued := true }] }
      { savingPart with queued := true } ?_ ?_ ?_ ?_, ?_⟩,
    ⟨{ blk with blocks := [movingBl 48] }, _, .column 1 0 48 0 (movingBl 48) { pt1 with state := .restoring 48 } la1 ?_ ?_ ?_ ?_ ?_ ?_ ?_ ?_ ?_, ?_⟩,
    ⟨{ slotS id with blocks := [movingBl 0], tenants := column0 }, _,
      .restored 1 0 0 0 (movingBl 0) { pt1 with state := .restoring 0 } { la1 with saveVa := 0x200000 } ?_ ?_ ?_ ?_ ?_ ?_ ?_ ?_ ?_ ?_ ?_ ?_, ?_⟩,
    ⟨prio7S, _, .preempt 2 0 { la1 with id := 2, queue := 7, state := .admission, saveLen := 0, nextComb := 0 } { Queue.reset with prio := 7 } bl1
      ?_ ?_ ?_ ?_ ?_ ?_ ?_ ?_ ?_ (.inl ?_) ?_⟩,
    ⟨postS trapEvent 63, _, .post 0 trapEvent _ ?_ ?_ ?_ ?_ ?_ ?_ ?_ rfl, ?_⟩, ⟨postS trapEvent 64, _, .full 0 trapEvent ?_ ?_ ?_ ?_ ?_, ?_⟩,
    ⟨{ blk with events := [trapEvent] }, _, .blkResume 7 trapEvent _ _ ?_ ?_ rfl rfl⟩,
    ⟨{ blk with events := [trapEvent] }, _, .blkSkip 7 trapEvent _ ?_ ?_ rfl⟩,
    ⟨{ blk with events := [trapEvent] }, _, .blkKill 7 trapEvent _ ?_ ?_ rfl⟩⟩
  all_goals decide +kernel

/-! ## Witnesses: power, links, registers and reset -/

/-- The machine after reset with one part of it changed. -/
def base : State := State.reset

def supply3 (f : Supply → Supply) : State := { base with supplies := updAt base.supplies 3 f }

def hot : Nat := thrOf (base.thrCfg 0) 3 + 20
def polled (temps : List Nat) : List Sensor :=
  base.sensors.zipIdx.map fun (y : Sensor × Nat) => ((temps[y.2]?).map (pollSensor (base.thrCfg y.2) y.1)).getD y.1

theorem poll_reads (ts : List Nat) (k : Nat) (x : Sensor) (t : Nat) (hx : base.sensors[k]? = some x) (ht : ts[k]? = some t) :
    (polled ts)[k]? = some (if x.skip then { x with skip := false }
      else { temp := t % 1024, level := nextLevel (base.thrCfg k) (t % 1024) x.level, peak := max x.peak (t % 1024), skip := false }) := by
  simp only [polled, List.getElem?_map, List.getElem?_zipIdx, hx, Option.map_some, Nat.zero_add, ht, Option.getD_some, pollSensor]

theorem poll_cool (ts : List Nat) (h : ∀ t ∈ ts, t = 300) (k : Nat) (x : Sensor) (t : Nat) (hx : base.sensors[k]? = some x)
    (ht : ts[k]? = some t) : t % 1024 < thrOf (base.thrCfg k) 3 + 20 := by
  have hl : base.sensors.length = 240 := by decide +kernel
  have hk : k < 240 := hl ▸ (List.getElem?_eq_some_iff.1 hx).1
  have all : ∀ k < 240, 300 % 1024 < thrOf (base.thrCfg k) 3 + 20 := by decide +kernel
  rw [h t (List.mem_of_getElem? ht)]
  exact all k hk

theorem wit_PowerEventsHaveTheirEffect :
    (∃ s t, PowerEvent s (.levelChange 3) t) ∧ (∃ s t, PowerEvent s (.cohortLevelAdopt 3) t) ∧
      (∃ s t, PowerEvent s (.cohortWrite 3 0x8500000000000000) t) ∧
      (∃ s t, PowerEvent s (.swmatrixWrite false 0x555555400000) t ∧ s.csr.pl = 2) ∧
      (∃ s t, PowerEvent s (.swmatrixWrite false 0x555555400000) t ∧ s.csr.pl = 1) ∧
      (∃ s t, PowerEvent s (.thrcfgWrite 1 0x1A468C01) t) ∧ (∃ s t, PowerEvent s (.thrcfgWrite 49 16) t) ∧
      (∃ s t, PowerEvent s (.imbalRelease 47) t) ∧ (∃ s t, PowerEvent s (.slopeLimitRamp 0 0) t) ∧
      (∃ s t, PowerEvent s (.thermalPoll (List.replicate 240 300)) t) ∧ (∃ s t, PowerEvent s (.thermalPoll [hot]) t) ∧
      (∃ s t, PowerEvent s (.diodeCalibration 239) t) ∧
      (∃ s t, PowerEvent s .tokenWindowEnd t ∧ s.winEnergy + s.csr.debt ≤ s.winBudget) ∧
      (∃ s t, PowerEvent s .tokenWindowEnd t ∧ s.winBudget < s.winEnergy + s.csr.debt ∧ s.csr.overn = 255) ∧
      (∃ s t, PowerEvent s (.mint 0xFFFFFFFF) t ∧ s.csr.tokens = 1) ∧ (∃ s t, PowerEvent s (.mint 0xFFFFFFFF) t ∧ s.csr.tokens = 0) ∧
      (∃ s t, PowerEvent s (.waggleAccept 5 0) t ∧ s.ftime = 49999) ∧ (∃ s t, PowerEvent s (.waggleAccept 5 0) t ∧ s.ftime = 50000) ∧
      (∃ s t, PowerEvent s (.waggleAck 0) t) ∧ ∃ s t, PowerEvent s (.tokret 0) t := by
  refine ⟨⟨base, _, .level 3 Supply.reset ?_⟩, ⟨supply3 fun x => { x with pending := true, next := 5 }, _,
      .adopt 3 { Supply.reset with pending := true, next := 5 } _ ?_ ?_ ?_ rfl⟩, ⟨base, _, .cohort 3 0x8500000000000000 Supply.reset ?_⟩,
    ⟨base, _, .matrix false 0x555555400000 (setAt base.csr.supply 11 1) ?_ ?_ ?_ ?_ ?_ ?_ ?_, ?_⟩,
    ⟨{ base with csr := { base.csr with pl := 1 } }, _,
      .matrixIgnored false 0x555555400000 (setAt base.csr.supply 11 1) ?_ ?_ ?_ (Or.inl ?_), ?_⟩,
    ⟨base, _, .thresholds 1 0x1A468C01 ?_ ?_ ?_ ?_ ?_ ?_⟩, ⟨base, _, .duty 49 16 ?_ ?_ ?_ ?_⟩,
    ⟨{ base with columns := updAt base.columns 47 fun c => { c with state := 2, calm := 100 } }, _,
      .release 47 ((base.columns.getD 47 (base.columns.headD Column.reset)) |> fun c => { c with state := 2, calm := 100 })
        ?_ ?_ ?_⟩,
    ⟨{ base with columns := updAt base.columns 0 fun c => { c with curr := 4095 } }, _,
      .ramp 0 0 4095 { base.columns.headD Column.reset with curr := 4095 } ?_ ?_ ?_⟩,
    ⟨base, _, .poll (List.replicate 240 300) (polled (List.replicate 240 300)) ?_ ?_ (poll_reads _)
      (fun k x t hx ht _ => poll_cool _ (fun _ h => List.eq_of_mem_replicate h) k x t hx ht)⟩,
    ⟨base, _, .burn [hot] 0 hot ⟨0, 0, 0, false⟩ { base with sensors := polled [hot], stopped := true, powerOff := some (base.uptime + 1000000) }
      ?_ ?_ ?_ ?_ ?_ rfl rfl⟩,
    ⟨base, _, .calibrate 239 ⟨0, 0, 0, false⟩ ?_⟩,
    ⟨{ base with ftime := 1000000, winBudget := 3900, winEnergy := 3900 }, _, .window ?_ ?_, ?_⟩,
    ⟨{ base with ftime := 1000000, winEnergy := 1, csr := { base.csr with overn := 255 } }, _, .debt ?_ ?_ ?_, ?_⟩,
    ⟨{ base with csr := { base.csr with auth := true, tokens := 1 } }, _, .mint 0xFFFFFFFF 0 ?_ ?_ ?_ ?_, ?_⟩,
    ⟨{ base with csr := { base.csr with auth := true, tokens := 0 } }, _, .mintIgnored 0xFFFFFFFF (Or.inr (Or.inr (Or.inl ?_))), ?_⟩,
    ⟨{ base with ftime := 49999 }, _, .accept 5 0 ?_ ?_, ?_⟩, ⟨{ base with ftime := 50000 }, _, .refuse 5 0 ?_, ?_⟩, ⟨base, _, .ack 0⟩,
    ⟨{ base with ftime := 100000, fabric := { base.fabric with waggles := [⟨3, 5, 0⟩] } }, _,
      .returned 0 ⟨3, 5, 0⟩ (plainEvent .tokRet ((Config.freeValue base.fresh).toNat % 64) ((Config.freeValue base.fresh).toNat / 64 % 8) 0
        (leBytes 2 3 ++ [0, 0] ++ leBytes 4 5)) ?_ ?_ ?_ rfl rfl rfl⟩⟩
  all_goals decide +kernel

/-- A domain of the columns of one partition. -/
theorem wit_EffectiveLevelOfADomain : ∃ (s : State) (x : Supply), s.supplies[0]? = some x ∧ s.domain 0 ≠ [] ∧
    ∀ c ∈ s.domain 0, s.tenantOfColumn c = some 0 := by
  refine ⟨{ base with tenants := updAt base.tenants 0 fun t => { t with colMask := 0xFFF } }, Supply.reset, ?_, ?_, ?_⟩
  all_goals decide +kernel

/-- Column 0 and its reading, with a ballast request of 16 on its lowest core. -/
theorem wit_BalanceSamples : ∃ (s : State) (cols : List ColumnReading) (c : Column) (r : ColumnReading), s.columns[0]? = some c ∧
    cols[0]? = some r ∧ ∀ y, y < 4 → (s.burnOf (coreAt 0 y)).1 ≤ 16 := by
  refine ⟨blkG fun g => { g with burn := some ⟨16, 1⟩ }, [⟨[300, 0, 0, 0], 5000⟩], base.columns.headD Column.reset,
    ⟨[300, 0, 0, 0], 5000⟩, ?_, ?_, ?_⟩
  all_goals decide +kernel

def fab (f : Fabric → Fabric) : State := { base with fabric := f base.fabric }
def upPort : Port := { up := true, att := false, enc := true, lanes := 8, peer := 3, fails := 7, flits := 5 }
def linked (p : Port) : State := fab fun f => { f with ports := setAt f.ports 17 p }

theorem wit_LinkAndHostEvents :
    (∃ s t, DeviceEvent s (.flitReceive 17 false) t) ∧ (∃ s t, DeviceEvent s (.flitReceive 17 true) t ∧ s = linked { upPort with fails := 8 }) ∧ (∃ s t, DeviceEvent s (.linkDown 17) t ∧ s = linked { upPort with fails := 8 }) ∧
      (∃ s t, DeviceEvent s (.linkDown 17) t ∧ s = linked upPort) ∧ (∃ s t, DeviceEvent s (.linkRekey 17) t) ∧
      (∃ s t, DeviceEvent s (.linkUp 0 3 8 true) t) ∧ (∃ s t, DeviceEvent s (.linkUp 0 3 8 true) t ∧ s.fabric.unsigned = true) ∧ (∃ s t, DeviceEvent s (.serdesCalibration 0) t) ∧
      (Config.isSled = true → ∃ s t, DeviceEvent s (.sledNumberReport 511 3) t) ∧
      (Config.isSled = false → ∃ s t, DeviceEvent s (.sledNumberReport 0 0) t) ∧
      (∃ s t, DeviceEvent s (.fabricJoin 2047 99 true) t ∧ s.fabric.joined = false ∧ s.ftime = 100) ∧
      (Config.isSled = true → ∃ s t, DeviceEvent s (.fabricJoin 2047 99 true) t) ∧
      (∃ s t, DeviceEvent s (.fabricJoin 2047 99 true) t ∧ s.fabric.joined = true) ∧ (∃ s t, DeviceEvent s (.timeSync 21) t) ∧
      (∃ s t, DeviceEvent s (.hostMailboxWrite 6 5) t) ∧ (∃ s t, DeviceEvent s (.hostMailboxWrite 7 5) t) ∧
      (∃ s t, DeviceEvent s (.mgmtMailboxWrite 6 5) t ∧ s.csr.pl = 2) ∧ (∃ s t, DeviceEvent s (.mgmtMailboxWrite 7 5) t ∧ s.csr.pl = 2) ∧
      ∃ s t, DeviceEvent s (.mgmtMailboxWrite 7 5) t ∧ s.csr.pl = 1 := by
  refine ⟨⟨linked upPort, _, .flit 17 false upPort { upPort with fails := 8 } ?_ ?_ ?_ ?_ ?_⟩, ⟨linked { upPort with fails := 8 }, _, .dead 17 true { upPort with fails := 8 } ?_ (.inr (.inl ?_)), rfl⟩,
    ⟨linked { upPort with fails := 8 }, _, .down 17 { upPort with fails := 8 } ?_ ?_ ?_, rfl⟩, ⟨linked upPort, _, .stays 17 upPort ?_ ?_, rfl⟩,
    ⟨linked { upPort with flits := 2 ^ 31 }, _, .rekey 17 { upPort with flits := 2 ^ 31 } ?_ ?_ ?_⟩,
    ⟨base, _, .up 0 3 8 true .down ?_ ?_ ?_ ?_ ?_ ?_⟩, ⟨fab fun f => { f with unsigned := true }, _, .noLink 0 3 8 true ?_, ?_⟩, ⟨base, _, .calibrate 0⟩,
    fun h => ⟨base, _, .sled 511 3 h ?_ ?_ ?_⟩, fun h => ⟨base, _, .noSled 0 0 (Or.inl h)⟩,
    ⟨{ linked upPort with ftime := 100, fabric := { (linked upPort).fabric with sled := some 2047 } }, _, .join 2047 99 true upPort ?_ ?_ ?_ ?_ ?_ ?_ (fun _ => ?_),
      ?_, ?_⟩,
    fun h => ⟨linked upPort, _, .refuseJoin 2047 99 true upPort ?_ ?_ ?_ ?_ ?_ h ?_⟩,
    ⟨fab fun f => { f with joined := true }, _, .noJoin 2047 99 true (Or.inl ?_), ?_⟩, ⟨fab fun f => { f with joined := true }, _, .sync 21 ?_⟩,
    ⟨base, _, .hostWord 6 5 ?_ ?_⟩, ⟨base, _, .hostSeq 5 ?_⟩, ⟨base, _, .mgmtWord 6 5 ?_ ?_, ?_⟩, ⟨base, _, .mgmtSeq 5 ?_, ?_⟩,
    ⟨{ base with csr := { base.csr with pl := 1 } }, _, .mgmtDenied 7 5 ?_, ?_⟩⟩
  all_goals decide +kernel

/-- Partition 7's block in a state. -/
def ten7 (f : Tenant → Tenant) : State := { base with tenants := updAt base.tenants 7 f }
def inJob : Tenant := { Tenant.reset with jv := true, jobId := 9, keySt := 2 }

theorem wit_RegisterEvents :
    (∃ s t, DeviceEvent s (.jobRegisterWrite 7 0x8000000000000009) t) ∧ (∃ s t, DeviceEvent s (.jobKeyAccept 7 9 false) t) ∧
      (∃ s t, DeviceEvent s (.jobKeyAccept 7 9 true) t) ∧ (∃ s t, DeviceEvent s (.jobKeyAccept 7 8 false) t) ∧
      (∃ s t, DeviceEvent s (.ctxidWrite 63 0x8700000000000003) t ∧ s.csr.ctxValid.getLsbD 63 = true) ∧
      (∃ s t, DeviceEvent s (.ctxidWrite 63 0x8700000000000003) t ∧ s.csr.ctxValid.getLsbD 63 = false) ∧
      (∃ s t, DeviceEvent s (.ctxidWrite 63 0) t) ∧
      (∃ s t, DeviceEvent s (.readToClear true 0x031 0) t) ∧ (∃ s t, DeviceEvent s (.readToClear true 0x034 239) t) ∧
      (∃ s t, DeviceEvent s (.readToClear true 0x035 94) t) ∧ (∃ s t, DeviceEvent s (.readToClear false 0xFF00017A00 0) t) ∧
      (∃ s t, DeviceEvent s (.registerWrite false 0xFF00017008 8 3) t ∧ s.columnTwice 7 3 = false) ∧
      (∃ s t, DeviceEvent s (.registerWrite false 0xFF00017008 8 3) t ∧ s.columnTwice 7 3 = true) ∧
      (∃ s t, DeviceEvent s (.registerWrite false 0xFF00017010 8 3) t) ∧ (∃ s t, DeviceEvent s (.registerWrite false 0xFF00017018 8 3) t) ∧
      (∃ s t, DeviceEvent s (.registerWrite false 0xFF000171F8 8 3) t) ∧ (∃ s t, DeviceEvent s (.registerWrite false 0xFF000171FC 4 3) t) ∧
      (∃ s t, DeviceEvent s (.registerWrite false 0xFF00010808 8 10) t) ∧ (∃ s t, DeviceEvent s (.registerWrite false 0xFF0005F400 8 0x3000) t) ∧
      (∃ s t, DeviceEvent s (.registerWrite true 0x27FF8 8 3) t) ∧ ∃ s t, DeviceEvent s (.registerWrite true 0xFF00010809 8 3) t := by
  refine ⟨⟨base, _, .job 7 0x8000000000000009 Tenant.reset ?_ ?_⟩, ⟨ten7 fun _ => inJob, _, .key 7 9 inJob ?_ ?_ ?_⟩,
    ⟨ten7 fun _ => inJob, _, .keyRetired 7 9 inJob ?_ ?_ ?_ ?_⟩, ⟨ten7 fun _ => inJob, _, .noKey 7 8 false inJob ?_ (Or.inr ?_)⟩,
    ⟨{ base with csr := { base.csr with ctxValid := 1 <<< 63 } }, _, .context 63 0x8700000000000003 ?_ ?_, ?_⟩,
    ⟨base, _, .contextMade 63 0x8700000000000003 CtxBlock.reset ?_ ?_ ?_ ?_, ?_⟩,
    ⟨{ base with csr := { base.csr with ctxValid := 1 <<< 63 } }, _, .contextEnded 63 0 CtxBlock.reset ?_ ?_ ?_ ?_⟩, ⟨base, _, .clearDebt 0⟩,
    ⟨base, _, .clearPeak 239 ⟨0, 0, 0, false⟩ ?_⟩, ⟨base, _, .clearImb 47 (base.columns.headD Column.reset) ?_⟩,
    ⟨base, _, .clearErrors 0 7 ?_ ?_⟩, ⟨base, _, .columns 7 3 Tenant.reset ?_ ?_ ?_ ?_ ?_ ?_, ?_⟩,
    ⟨{ base with tenants := updAt base.tenants 6 fun t => { t with colMask := 2 } }, _, .columnsIgnored 7 3 ?_ (Or.inr ?_), ?_⟩,
    ⟨base, _, .vectors 7 3 Tenant.reset ?_ ?_ ?_⟩, ⟨base, _, .share 7 3 Tenant.reset ?_ ?_ ?_⟩, ⟨base, _, .jobMap 7 31 3 Tenant.reset ?_ ?_ ?_ ?_⟩,
    ⟨base, _, .jobMapUpper 7 31 3 Tenant.reset ?_ ?_ ?_ ?_⟩, ⟨base, _, .fabricTimeout 10 ?_ ?_ ?_ ?_ ?_⟩,
    ⟨base, _, .deferBase 63 0x3000 CtxBlock.reset ?_ ?_ ?_ ?_⟩, ⟨base, _, .msixTable 0x7FF8 3 ?_ ?_ ?_⟩, ⟨base, _, .misaligned true 0xFF00010809 8 3 (Or.inr ?_)⟩⟩
  all_goals decide +kernel

/-- A replay whose ring at 0 holds one record of context 2. -/
def replayS (free : Bool) (ftime : Nat) : State :=
  { base with
    mem := Memory.empty.setBytes 1 [2], csr := { base.csr with capMode := 2, capCtxs := 4, capHead := 0, capTail := 1, capFree := free, capSince := some 7 }, ftime }

def dark (uptime : Nat) : State := { base with powerOff := some 0, uptime }

theorem wit_StorageAndResetEvents :
    (∃ s t, DeviceEvent s (.clrpois 0xBFFFFFFFFF) t) ∧ (∃ s t, DeviceEvent s (.patrolScrub 3 none) t ∧ s.rel.sen = false) ∧
      (∃ s t, DeviceEvent s (.patrolScrub 3 none) t ∧ s.rel.sen = true) ∧ (∃ s t, DeviceEvent s (.patrolScrub 3 (some 0xBFFFFFFFFF)) t) ∧
      (∃ s t, DeviceEvent s (.agingMonitor (1 :: List.replicate 191 2) 0) t) ∧
      (∃ s t, DeviceEvent s .replayTimeout t ∧ s.csr.capFree = false) ∧ (∃ s t, DeviceEvent s .replayTimeout t ∧ s.csr.capFree = true) ∧
      (∃ s t, DeviceEvent s .replayTimeout t ∧ s.ftime = 10000006) ∧
      (∃ s t, DeviceEvent s (.deviceReset [1, 2] true) t) ∧ (∃ s t, DeviceEvent s (.deviceReset [1, 2] false) t) ∧
      (∃ s t, DeviceEvent s (.deviceReset [1, 2] true) t ∧ s = dark 60000000000) ∧
      (∀ x : Bool, ∃ s t, DeviceEvent s (.powerRestoreRequest [] x) t ∧ s.uptime = 60000000000) ∧
      (∃ s t, DeviceEvent s (.powerRestoreRequest [] true) t ∧ s.uptime = 59999999999) ∧
      ∃ s t, DeviceEvent s (.powerRestoreRequest [] true) t ∧ s.powerOff = none := by
  have sen (x : Bool) : ({ base with rel := { base.rel with sen := x } } : State).rel.sen = x := rfl
  refine ⟨⟨base, _, .clear 0xBFFFFFFFFF ?_ ?_ ?_ ?_⟩, ⟨{ base with rel := { base.rel with sen := false } }, _, .noScrub 3 none rfl, rfl⟩,
    ⟨{ base with rel := { base.rel with sen := true } }, _, .scrub 3 rfl, rfl⟩,
    ⟨{ base with rel := { base.rel with sen := true } }, _, .scrubBad 3 0xBFFFFFFFFF rfl ?_ ?_⟩,
    ⟨base, _, .aging (1 :: List.replicate 191 2) 0 1 ?_ ?_ ?_⟩, ⟨replayS false 10000007, _, .replay _ 7 ?_ ?_ ?_ ?_ ?_ rfl, ?_⟩,
    ⟨replayS true 0, _, .noReplay (Or.inr (Or.inl ?_)), ?_⟩, ⟨replayS false 10000006, _, .early 7 ?_ ?_, ?_⟩, ⟨base, _, .reset [1, 2] ?_⟩, ⟨base, _, .refused [1, 2] ?_⟩,
    ⟨dark 60000000000, _, .noReset [1, 2] true 0 ?_, rfl⟩,
    fun x => (match x with
      | true => ⟨dark 60000000000, _, .restore [] 0 rfl (Nat.le_refl _), rfl⟩
      | false => ⟨dark 60000000000, _, .restoreRefused [] 0 rfl (Nat.le_refl _), rfl⟩),
    ⟨dark 59999999999, _, .notYet [] true 0 ?_ ?_, rfl⟩, ⟨base, _, .powered [] true ?_, ?_⟩⟩
  all_goals decide +kernel

theorem wit_PartitionsAreReset :
    (∃ (s : State) (x : Tenant), s.tenants[7]? = some x ∧ s.csr.capMode = 0 ∧ s.csr.pl = 2 ∧ x.rbusy = false) ∧
      ∃ (s : State) (x : Tenant), s.tenants[7]? = some x ∧ s.csr.capMode = 0 ∧ x.rbusy = true := by
  refine ⟨⟨base, Tenant.reset, ?_, ?_, ?_, ?_⟩, ⟨ten7 fun t => { t with rbusy := true }, { Tenant.reset with rbusy := true }, ?_, ?_, ?_⟩⟩
  all_goals decide +kernel

/-! ## Witnesses: encoding, the step, invariants -/

/-- FN above the highest of NOP and of IADD; a reserved bit, an operand outside its class, and a type not accepted, of IADD. -/
theorem wit_WordsAreRefused :
    (∃ w : IWord, 0 < fieldOf w 84 4 ∧ decode w = .error (.illegal 0)) ∧
      (∀ r ∈ [(1, fld (.v 0) (.v 1) (.v 2) (.v 3) .i32 0), (2, fld .imm (.v 1) (.v 2) .zero .i32 0), (3, fld (.v 0) (.v 1) (.v 2) .zero .b16 0)],
        ∃ i, Instr.ofKey 0x00 r.2 = some i ∧ r.2.fn.toNat ≤ fnMax 0x00 ∧
          decode (encodeFields 0x00 r.2) = .error (.illegal r.1)) ∧
      ∃ (w : IWord), Opnd.ofCode (fieldOf w 70 10) = none := by
  refine ⟨⟨1 <<< 84, ?_, ?_⟩, ?_, ⟨0x3FB <<< 70, ?_⟩⟩
  case refine_3 =>
    simp only [List.mem_cons, List.not_mem_nil, or_false, forall_eq_or_imp, forall_eq]
    refine ⟨⟨_, rfl, ?_, ?_⟩, ⟨_, rfl, ?_, ?_⟩, ⟨_, rfl, ?_, ?_⟩⟩
    all_goals decide +kernel
  all_goals decide +kernel

theorem wit_DecodingAndEncodingAgree :
    (∃ (i : Instr) (w : IWord), wellFormed i = true ∧ encode i = some w) ∧ (∃ (i : Instr) (w : IWord), decode w = .ok i) ∧
      (∃ (w : IWord) (r : Nat), decode w = .error (.illegal r)) ∧
      ∃ (w : IWord), ∀ f, Instr.ofKey (w.toNat / 2 ^ 88) f = none := by
  refine ⟨⟨.burn (fld .zero .imm .zero .zero .i8 0x12C06), 0xC007FFDFFFFFFF0000012C06, ?_, ?_⟩,
    ⟨.burn (fld .zero .imm .zero .zero .i8 0x12C06), 0xC007FFDFFFFFFF0000012C06, ?_⟩, ⟨0xFF0000000000000000000000, 0, ?_⟩,
    ⟨0xFF0000000000000000000000, fun f => rfl⟩⟩
  all_goals decide +kernel

def nexts (o : Host.Outcome State Fault Refusal) : Bool := match o with | .next _ => true | _ => false

theorem next_of {o : Host.Outcome State Fault Refusal} (h : nexts o = true) : ∃ t, o = .next t := by
  cases o <;> simp_all [nexts]

/-- Every lane of the unit that lives stays within the image. -/
def staysIn (m t : State) (c : Ctx) : Bool :=
  ((t.groupOf m.cur).map fun g => c.lanes.all fun l => !(g.thread l).live || m.ipOk (g.thread l).ip).getD true

theorem stays_of {m t : State} {c : Ctx} (h : staysIn m t c = true) : m.Stays t c := by
  intro g hg l hl hv
  simp only [staysIn, hg, Option.map_some, Option.getD_some, List.all_eq_true, Bool.or_eq_true, Bool.not_eq_true'] at h
  exact (h l hl).resolve_left (by simp [hv])

/-- An unguarded NOP at the management core's IP, which is a given one. -/
def nopF : Fields := fld .zero .zero .zero .zero .i8 0
def nopWord : IWord := (encode (.nop nopF)).getD 0
def nopAt (ip : DWord) : State :=
  let m := State.reset.mgmt
  ({ State.reset with mgmt := { m with group := { m.group with
      threads := m.group.threads.map (fun t => { t with ip }), units := m.group.units.map fun u => { u with ip } } } } : State).withFetchWord
    96 nopWord.toNat
def nopMg : State := nopAt 0

/-- The last slot of HBM. -/
def lastIp : DWord := 0xBFFFFFFFC4
def lastMg : State := { nopAt lastIp with cur := .mgmt, trapped := none }

/-- A word in the first slot of block 1's image. -/
def wordBlk (w : Nat) (agenda : List Action) : State :=
  { blk with
    agenda
    windows := [{ launch := 1, core := 0, map := [some 0, none], loading := []
                  bytes := Memory.empty.setBytes 0 (leBytes 60 w ++ [0x1F, 0, 0, BitVec.ofNat 8 (parOf w)]) }] }

def nopBlk : List Action → State := wordBlk nopWord.toNat
/-- LD.N32 V4, [V2+1], which is misaligned where V2 is 0. -/
def oddF : Fields := fld (.v 4) (.v 2) .zero .zero .n32 1
def oddBlk : List Action → State := wordBlk ((encode (.ld oddF)).getD 0).toNat

def nopPlaced : Placed := ⟨1, 1, 0, 0, ⟨0xFFFFFFFF, 0x100000, some 0, 0, false, none, false, false⟩⟩

/-- Where an instruction ends that has been run. -/
def after (o : Host.Outcome State Fault Refusal) (s : State) : State := match o with | .next t => t | _ => s

theorem after_of {o : Host.Outcome State Fault Refusal} (s : State) (h : nexts o = true) : o = .next (after o s) := by
  cases o <;> simp_all [nexts, after]

theorem wit_AStepRunsTheInstructionAtTheIp :
    (∀ s ∈ [nopMg, nopAt lastIp], ∃ (m t : State) (c : Ctx) (u : IssueUnit) (us : List IssueUnit) (i : Instr), s.agenda = [] ∧
      s.mgmt.halted = false ∧ s.stopped = false ∧ s.interrupted = false ∧ s.mgmt.group.units = u :: us ∧ u.held = none ∧
      m = { s with cur := .mgmt, trapped := none } ∧ m.Stands c i ∧ exec i m = .next t ∧ t.trapped = none ∧
      (s = nopMg → m.Stays t c) ∧ (s = nopAt lastIp → ∃ l ip, m.stray t c = some (l, ip))) ∧
    (∀ s ∈ [nopBlk [.entry 0 0 (pcSet 0x100000) 0], oddBlk [.entry 0 0 (pcSet 0x100000) 0]], ∃ (t u : State) (core part set way : Nat) (rest : List Action) (p : Placed) (c : Ctx)
      (i : Instr), s.agenda = .entry core part set way :: rest ∧ u = { s with agenda := rest } ∧ u.entryUnits core part set way = [p] ∧
      u.pairAgainIn [p] = false ∧ (u.aim p p.unit.ip).Stands c i ∧ exec i (u.aim p p.unit.ip) = .next t ∧ p.block ≠ 0 ∧
      (t.trapped = none ∧ (u.aim p p.unit.ip).Stays t c ∨ t.trapped ≠ none ∧ i = .ld oddF)) ∧
    ∃ (s t : State) (rest : List Action) (i : Instr), s.agenda = .event i :: rest ∧ i.isa = none ∧ exec i { s with agenda := rest } = .next t := by
  have h1 := after_of nopMg (o := exec (.nop nopF) { nopMg with cur := .mgmt, trapped := none }) (by decide +kernel)
  have h4 := after_of nopMg (o := exec (.nop nopF) lastMg) (by decide +kernel)
  have h2 := after_of nopMg (o := exec (.nop nopF) ((nopBlk []).aim nopPlaced nopPlaced.unit.ip)) (by decide +kernel)
  have h5 := after_of nopMg (o := exec (.ld oddF) ((oddBlk []).aim nopPlaced nopPlaced.unit.ip)) (by decide +kernel)
  obtain ⟨t3, h3⟩ := next_of (o := exec .tokenWindowEnd nopMg) (by decide +kernel)
  refine ⟨?_, ?_, ⟨{ nopMg with agenda := [.event .tokenWindowEnd] }, t3, [], .tokenWindowEnd, rfl, rfl, h3⟩⟩
  · simp only [List.mem_cons, List.not_mem_nil, or_false, forall_eq_or_imp, forall_eq]
    refine ⟨⟨_, _, here { nopMg with cur := .mgmt, trapped := none }, nopMg.mgmt.group.units.headD ⟨0, 0, none, 0, false, none, false, false⟩, [],
        .nop nopF, ?_, ?_, ?_, ?_, ?_, ?_, rfl, ⟨?_, ?_, ?_, Or.inl ?_, ?_, ?_, ?_, ?_, ?_, ?_⟩, h1, ?_, fun _ => stays_of ?_, fun h => absurd h ?_⟩,
      ⟨_, _, here lastMg, (nopAt lastIp).mgmt.group.units.headD ⟨0, 0, none, 0, false, none, false, false⟩, [],
        .nop nopF, ?_, ?_, ?_, ?_, ?_, ?_, rfl, ⟨?_, ?_, ?_, Or.inl ?_, ?_, ?_, ?_, ?_, ?_, ?_⟩, h4, ?_, fun h => absurd h ?_, fun _ => ⟨0, 0xC000000000, ?_⟩⟩⟩
    all_goals decide +kernel
  · simp only [List.mem_cons, List.not_mem_nil, or_false, forall_eq_or_imp, forall_eq]
    refine ⟨⟨_, nopBlk [], 0, 0, pcSet 0x100000, 0, [], nopPlaced,
        here ((nopBlk []).aim nopPlaced nopPlaced.unit.ip), .nop nopF, rfl, rfl, ?_, ?_, ⟨?_, ?_, ?_, Or.inl ?_, ?_, ?_, ?_, ?_, ?_, ?_⟩, h2, ?_, .inl ⟨?_, stays_of ?_⟩⟩,
      ⟨_, oddBlk [], 0, 0, pcSet 0x100000, 0, [], nopPlaced, here ((oddBlk []).aim nopPlaced nopPlaced.unit.ip), .ld oddF, rfl, rfl, ?_, ?_,
        ⟨?_, ?_, ?_, Or.inl ?_, ?_, ?_, ?_, ?_, ?_, ?_⟩, h5, ?_, .inr ⟨?_, rfl⟩⟩⟩
    all_goals decide +kernel

/-- A step from reset with the word in place runs it: the IP moves to the next slot. -/
theorem test_step_from_reset : (match step nopMg with | .next t => (t.mgmt.group.thread 0).ip | _ => 0) = 1 ∧
    decodeTableWord 96 nopWord.toNat = some (.nop nopF) := by decide +kernel

theorem test_empty_image_halts : step { State.reset with stopped := true } = .fault .halted := rfl

/-- Both invariants hold of the placed machine, which steps. -/
theorem wit_StepsKeepTheInvariants : ∃ s t : State, s.memoriesWf = true ∧ s.levelOk = true ∧ step s = .next t := by
  obtain ⟨t, h⟩ := next_of (o := step nopMg) (by decide +kernel)
  exact ⟨nopMg, t, by decide +kernel, by decide +kernel, h⟩

end Sys2Proof.Tests
end

section
/-!
# Places read back what was written (O24)

A write at a plain place reaches one memory: device memory, other devices' memory, host memory, or the issuer's scratchpad
of one core part. Each of these follows the laws of the sparse memory, so a proof about a place says which memory it is in.
-/

namespace Sys2Proof.Machine

open Sys2Proof

/-! ## The memories behind global addresses -/

/-- The three memories behind global addresses are canonical where all memories are. -/
theorem State.globalMemories_wf {s : State} (h : s.memoriesWf = true) :
    s.mem.wf = true ∧ s.peerMem.wf = true ∧ s.hostMem.wf = true := by
  simp only [State.memoriesWf, Bool.and_eq_true] at h
  tauto

/-- R6: what is written at a location, after the snoop of its line (R102), is what is read there. -/
theorem State.readLoc_writeLoc_same {s : State} (h : s.memoriesWf = true) (l : Loc) (n x : Nat) :
    ((s.snoopOut l).writeLoc l n x).readLoc l n = x % 256 ^ n := by
  obtain ⟨hdev, hpeer, hhost⟩ := State.globalMemories_wf h
  cases l with
  | dev o => exact Memory.read_write_same hdev o n x
  | peer o => exact Memory.read_write_same hpeer o n x
  | host o => exact Memory.read_write_same hhost o n x

/-- A write at a location leaves every byte of the global memories that is not of the location. -/
theorem State.byte_writeLoc_other {s : State} (h : s.memoriesWf = true) (l : Loc) (n x a : Nat) :
    let t := (s.snoopOut l).writeLoc l n x
    ((∀ o, l = .dev o → a < o ∨ o + n ≤ a) → t.mem.byte a = s.mem.byte a) ∧
      ((∀ o, l = .peer o → a < o ∨ o + n ≤ a) → t.peerMem.byte a = s.peerMem.byte a) ∧
      ((∀ o, l = .host o → a < o ∨ o + n ≤ a) → t.hostMem.byte a = s.hostMem.byte a) := by
  obtain ⟨hdev, hpeer, hhost⟩ := State.globalMemories_wf h
  cases l with
  | dev o => exact ⟨fun ha => Memory.byte_write_other hdev x (ha o rfl), fun _ => rfl, fun _ => rfl⟩
  | peer o => exact ⟨fun _ => rfl, fun ha => Memory.byte_write_other hpeer x (ha o rfl), fun _ => rfl⟩
  | host o => exact ⟨fun _ => rfl, fun _ => rfl, fun ha => Memory.byte_write_other hhost x (ha o rfl)⟩

@[simp] theorem State.scratch_writeLoc (s : State) (l : Loc) (n x q : Nat) :
    ((s.snoopOut l).writeLoc l n x).scratch q = s.scratch q := by
  cases l <;> rfl

/-! ## The scratchpads of the issuer -/

/-- A scratchpad replaced leaves the global memories. -/
theorem State.globalMemories_setScratch (s : State) (part : Nat) (m : Memory) :
    (s.setScratch part m).mem = s.mem ∧ (s.setScratch part m).peerMem = s.peerMem ∧
      (s.setScratch part m).hostMem = s.hostMem := by
  unfold State.setScratch
  cases s.cur <;> exact ⟨rfl, rfl, rfl⟩

/-- The management core has one scratchpad, whatever part is named (R301). -/
theorem State.scratch_of_mgmt {s : State} (h : s.cur = .mgmt) (p q : Nat) : s.scratch p = s.scratch q := by
  simp only [State.scratch, h]

/-- The issuer has a core part `part`; the management core's one scratchpad answers to every number. -/
def State.hasScratch (s : State) (part : Nat) : Prop :=
  s.cur = .mgmt ∨ ∃ b g u k, s.cur = .unit b g u ∧ (s.block? b).bind (·.part part) = some k

/-- R6: what is written at a scratch place outside every hidden half is what is read there. -/
theorem State.readPlace_writePlace_scr {s : State} (h : s.memoriesWf = true) {part off n : Nat} (x : Nat)
    (hpart : s.hasScratch part) (hvis : s.hiddenHalf off n = false) :
    (s.writePlace (.scr part off) n x).readPlace (.scr part off) n = x % 256 ^ n := by
  have hvis' : (s.writePlace (.scr part off) n x).hiddenHalf off n = false := by
    rw [State.hiddenHalf_writePlace s _ n x rfl, hvis]
  have hscr : (s.writePlace (.scr part off) n x).scratch part = (s.scratch part).write off n x := by
    simp only [State.writePlace, scratch_setScratch part _ hpart, true_or, if_true]
  simp only [State.readPlace, hvis', Bool.false_eq_true, if_false, hscr, Memory.read_write_same (part_wf h part)]

/-- A write at a scratch place leaves every other byte of the scratchpads that the issuer sees. -/
theorem State.scratch_byte_writePlace_scr {s : State} (h : s.memoriesWf = true) {part off n q a : Nat} (x : Nat)
    (hpart : s.hasScratch part) (ha : part = q ∨ s.cur = .mgmt → a < off ∨ off + n ≤ a) :
    ((s.writePlace (.scr part off) n x).scratch q).byte a = (s.scratch q).byte a := by
  simp only [State.writePlace, scratch_setScratch part _ hpart]
  split
  case isFalse => rfl
  case isTrue hq =>
    have hsame : s.scratch part = s.scratch q := by
      rcases hq with rfl | hm
      · rfl
      · exact State.scratch_of_mgmt hm part q
    rw [Memory.byte_write_other (part_wf h part) x (ha (hq.imp_left Eq.symm)), hsame]

/-- Settles O24: a location by the laws of the global memories, a scratch place by those of the scratchpads. -/
theorem placesReadBackWhatWasWritten : Obligations.PlacesReadBackWhatWasWritten := by
  intro s p n x hwf hplain hconst hzero hpart
  cases p with
  | loc y =>
    have hother := State.byte_writeLoc_other hwf y.loc n x
    exact ⟨State.readLoc_writeLoc_same hwf y.loc n x, fun a ha => (hother a).1 fun o => ha y o rfl,
      fun a ha => (hother a).2.1 fun o => ha y o rfl, fun a ha => (hother a).2.2 fun o => ha y o rfl,
      fun q a _ => by simp only [State.writePlace, State.scratch_writeLoc]⟩
  | scr part off =>
    have hscr : s.hasScratch part := hpart part off rfl
    obtain ⟨hdev, hpeer, hhost⟩ := s.globalMemories_setScratch part ((s.scratch part).write off n x)
    exact ⟨State.readPlace_writePlace_scr hwf x hscr hplain.2, fun _ _ => by rw [State.writePlace, hdev],
      fun _ _ => by rw [State.writePlace, hpeer], fun _ _ => by rw [State.writePlace, hhost],
      fun _ _ ha => State.scratch_byte_writePlace_scr hwf x hscr (ha part off rfl)⟩
  | const o => exact absurd rfl (hconst o)
  | zero => exact absurd rfl hzero
  | ctl r a => exact hplain.elim

end Sys2Proof.Machine
end

section
/-!
# Endings (O20)

EXIT and KILL first end lanes of their group and write the group back; then a compute core drops the group's overlay loads,
retires its block and settles the deferred names. The first part keeps registers and ends (`Group.Keeps`); the second is
`State.afterEnding`, which keeps the issuer's group and reaches none of the machine but what `State.EndsTo` lists.
-/

namespace Sys2Proof.Machine

open Sys2Proof

/-! ## Threads that end -/

/-- What becomes of a thread that EXIT or KILL ends (R42, R64): `u` is not live, and where `t` was, it has ended with no
load outstanding. -/
def Thread.EndsAs (t u : Thread) : Prop :=
  u.live = false ∧ (t.live = true → u.status = .ended ∧ u.ld = [])

/-- An end stands whatever follows that keeps ends. -/
theorem Thread.EndsAs.keeps {t u w : Thread} (ends : t.EndsAs u) (keeps : u.Keeps w) : t.EndsAs w := by
  obtain ⟨hdead, hended⟩ := ends
  obtain ⟨-, -, hkeeps⟩ := keeps
  obtain ⟨hdead', hended'⟩ := hkeeps hdead
  refine ⟨hdead', fun hlive => ?_⟩
  obtain ⟨hstatus, hld⟩ := hended hlive
  exact hended' hstatus hld

/-- Only a live thread is released from a quad instruction (R39). -/
theorem Thread.Released.keeps {t u : Thread} (h : t.Released u) : t.Keeps u := by
  rcases h with rfl | ⟨hparked, rfl⟩
  · exact .refl _
  · exact ⟨rfl, rfl, fun hdead => by simp [Thread.live, hparked] at hdead⟩

/-- Where EXIT sends a thread of its unit: past the instruction, or to its end. -/
def exitDest (c : Ctx) (g : Group) (l : Nat) : Goto :=
  if (g.thread l).live then .jump (nextSlot c.u.ip) else .ended

/-- EXIT moves a live thread on with its registers, and ends again one that has ended. -/
theorem keeps_goto_exitDest (c : Ctx) (g : Group) (l : Nat) : (g.thread l).Keeps ((g.thread l).goto (exitDest c g l)) := by
  unfold exitDest
  split
  case isTrue hlive => exact ⟨rfl, rfl, fun hdead => absurd hlive (by simp [hdead])⟩
  case isFalse => exact ⟨rfl, rfl, fun _ => ⟨rfl, fun _ _ => ⟨rfl, rfl⟩⟩⟩

/-- Committing an EXIT keeps the registers and the ends of the group. -/
theorem State.commitWith_exitDest (s : State) {c : Ctx} (hc : s.ctx? = some c) (g : Group) (freed : List Nat) :
    ∃ h, s.commitWith c g (exitDest c g) true 0 freed false = s.setGroup s.cur h ∧ g.Keeps h := by
  obtain ⟨h, hcommit, hframe, hlen, hthread⟩ :=
    s.commitWith_spec c g (exitDest c g) true 0 freed false (State.ctx?_lanes hc).1
  refine ⟨h, hcommit, by rw [hframe], hlen, fun l hl => Thread.Keeps.trans ?_ (hthread l hl).keeps⟩
  split
  · exact keeps_goto_exitDest c g l
  · exact .refl _

/-! ## What follows an ending -/

/-- What follows once the lanes of an issuer's group have ended: on a compute core the lanes `m` load no overlay any more,
the block may retire, and deferred names whose pins are clear become ready. -/
def State.afterEnding (s : State) (i : Issuer) (m : Word) : State :=
  match i with
  | .mgmt => s
  | .unit b n _ => ((s.dropLoaders b n m).retire b).settle

/-- What an ending may change of the machine. -/
def State.EndsTo (s t : State) : Prop :=
  t = { s with
    blocks := t.blocks, mgmt := { s.mgmt with group := t.mgmt.group }, acmReqs := t.acmReqs
    launches := t.launches, deferred := t.deferred, nextId := t.nextId }

/-- Every overlay that loads is loaded by some lane, and none by a lane of the issuer's group (R46). -/
def State.LoadsNoOverlay (s : State) : Prop :=
  ∀ w ∈ s.windows, ∀ x ∈ w.loading, x.2.2.2 ≠ 0 ∧ ∀ b g u, s.cur = .unit b g u → ¬ (x.2.1 = b ∧ x.2.2.1 = g)

/-- The group written back stands through all that follows: no overlay waits on its lanes, and a block that retires keeps
its groups (R46, R338). -/
theorem State.afterEnding_setGroup {s : State} {g : Group} (hg : s.groupOf s.cur = some g) (hload : s.LoadsNoOverlay)
    (h : Group) (m : Word) :
    s.EndsTo ((s.setGroup s.cur h).afterEnding s.cur m) ∧
      ((s.setGroup s.cur h).afterEnding s.cur m).groupOf s.cur = some h := by
  have hback := State.groupOf_setGroup h hg
  cases hcur : s.cur with
  | mgmt => exact ⟨rfl, rfl⟩
  | unit b n u =>
    rw [hcur] at hback
    have hdrop : (s.setGroup (.unit b n u) h).dropLoaders b n m = s.setGroup (.unit b n u) h :=
      dropLoaders_same b n m fun w hw x hx => ⟨(hload w hw x hx).1, (hload w hw x hx).2 b n u hcur⟩
    obtain ⟨hframe, hgroups⟩ := retire_spec (s.setGroup (.unit b n u) h) b
    simp only [State.afterEnding, hdrop]
    refine ⟨by rw [hframe]; rfl, ?_⟩
    show (((s.setGroup (.unit b n u) h).retire b).block? b).bind (fun x => x.groups[n]?) = some h
    obtain ⟨x, hx, hxn⟩ := Option.bind_eq_some_iff.1 hback
    obtain ⟨y, hy, hyx⟩ := hgroups x hx
    rw [hy, Option.bind_some, hyx, hxn]

/-! ## EXIT and KILL -/

/-- An issue that ends the lanes `ls` of its group and leaves registers and memory as they were. -/
def State.EndsLanes (s : State) (c : Ctx) (ls : List Nat) (t : State) : Prop :=
  s.EndsTo t ∧ ∃ h, t.groupOf s.cur = some h ∧ c.g.Keeps h ∧ ∀ l ∈ ls, (c.g.thread l).EndsAs (h.thread l)

/-- Registers and ends of a group do not depend on its units. -/
theorem Group.keeps_units (g : Group) (us : List IssueUnit) : g.Keeps { g with units := us } :=
  ⟨rfl, rfl, fun _ _ => .refl _⟩

/-- Ending lanes of the issuer's group, any change after it that keeps registers and ends, and what follows on the core
together make an issue that ends those lanes. -/
theorem State.endsLanes_afterEnding {s : State} {c : Ctx} (hc : s.ctx? = some c) (hload : s.LoadsNoOverlay) {ls : List Nat}
    (hls : ∀ l ∈ ls, l < c.g.threads.length) {h : Group} (hkeeps : (c.g.endLanes ls).1.Keeps h) (m : Word) :
    s.EndsLanes c ls ((s.setGroup s.cur h).afterEnding s.cur m) := by
  obtain ⟨hto, hgroup⟩ := State.afterEnding_setGroup (State.ctx?_group hc).1 hload h m
  obtain ⟨hended, hends⟩ := endLanes_spec c.g ls hls
  refine ⟨hto, h, hgroup, hended.trans hkeeps, fun l hl => ?_⟩
  obtain ⟨-, hlen, -⟩ := hended
  obtain ⟨-, -, hthread⟩ := hkeeps
  exact Thread.EndsAs.keeps (hends l hl) (hthread l (hlen ▸ hls l hl))

/-- EXIT and KILL read no register, so they run over their whole unit. -/
theorem control_ending {s : State} {c : Ctx} (hc : s.ctx? = some c) (f : Fields)
    (run : State → Ctx → List Nat → Except Stop State) : s.control 0x67 f run = s.finish (run s c (c.active f)) :=
  control_ready (ready_of_noReads hc (by simp [readRegs, formOf, plain])) run

/-- EXIT commits its unit after ending the active lanes; `m` are the lanes that have ended with it. -/
theorem execExit_eq {s : State} {c : Ctx} (hc : s.ctx? = some c) (hr : s.redundant = false) (f : Fields) :
    ∃ m, execExit f s = .next ((s.commitWith c (c.g.endLanes (c.active f)).1 (exitDest c (c.g.endLanes (c.active f)).1)
      true 0 (c.g.endLanes (c.active f)).2 false).afterEnding s.cur m) := by
  unfold execExit
  rw [control_ending hc]
  dsimp only
  rw [mismatch_none' hr, guardTraps_nil]
  cases s.cur with
  | mgmt => exact ⟨0, rfl⟩
  | unit => exact ⟨_, rfl⟩

/-- KILL with an active thread ends every lane and leaves its group without units. -/
theorem execKill_eq {s : State} {c : Ctx} (hc : s.ctx? = some c) (hr : s.redundant = false) (f : Fields)
    (hon : ∃ l ∈ c.lanes, (c.rd.thread l).guard f = true) :
    ∃ m, execKill f s =
      .next ((s.setGroup s.cur { (c.g.endLanes (List.range 32)).1 with units := [] }).afterEnding s.cur m) := by
  unfold execKill
  rw [control_ending hc]
  dsimp only
  rw [mismatch_none' hr, guardTraps_nil, isEmpty_active hon]
  cases s.cur with
  | mgmt => exact ⟨0, rfl⟩
  | unit => exact ⟨_, rfl⟩

/-- EXIT ends the active lanes (R200). -/
theorem execExit_endsLanes {s : State} {c : Ctx} (hc : s.ctx? = some c) (hr : s.redundant = false)
    (hlen : c.g.threads.length = 32) (hload : s.LoadsNoOverlay) (f : Fields) :
    ∃ t, execExit f s = .next t ∧ s.EndsLanes c (c.active f) t := by
  obtain ⟨m, hexec⟩ := execExit_eq hc hr f
  obtain ⟨h, hcommit, hkeeps⟩ := s.commitWith_exitDest hc (c.g.endLanes (c.active f)).1 (c.g.endLanes (c.active f)).2
  have hls : ∀ l ∈ c.active f, l < c.g.threads.length := fun l hl => by
    rw [hlen]
    exact lanesOf_lt ((State.ctx?_lanes hc).2 ▸ (active_spec.1 hl).1)
  rw [hcommit] at hexec
  exact ⟨_, hexec, State.endsLanes_afterEnding hc hload hls hkeeps m⟩

/-- KILL with an active thread ends all lanes (R200). -/
theorem execKill_endsLanes {s : State} {c : Ctx} (hc : s.ctx? = some c) (hr : s.redundant = false)
    (hlen : c.g.threads.length = 32) (hload : s.LoadsNoOverlay) (f : Fields)
    (hon : ∃ l ∈ c.lanes, (c.rd.thread l).guard f = true) :
    ∃ t, execKill f s = .next t ∧ s.EndsLanes c (List.range 32) t := by
  obtain ⟨m, hexec⟩ := execKill_eq hc hr f hon
  have hls : ∀ l ∈ List.range 32, l < c.g.threads.length := fun l hl => by
    rw [hlen]
    exact List.mem_range.1 hl
  exact ⟨_, hexec, State.endsLanes_afterEnding hc hload hls (Group.keeps_units _ []) m⟩

/-- Settles O20: EXIT ends the active lanes and KILL all of them, by the one account of what follows an ending. -/
theorem endingThreads : Obligations.EndingThreads := by
  intro i f s c hc hr hlen _ hload hi
  obtain ⟨ls, t, hexec, ⟨hto, h, hgroup, ⟨hs, hlen', hkeeps⟩, hends⟩, hls⟩ : ∃ ls t, exec i s = .next t ∧ s.EndsLanes c ls t ∧
      ∀ l, l < 32 → i = .kill f ∨ (l ∈ c.lanes ∧ (c.rd.thread l).guard f = true) → l ∈ ls := by
    rcases hi with rfl | ⟨rfl, hon⟩
    · obtain ⟨t, hexec, hends⟩ := execExit_endsLanes hc hr hlen hload f
      exact ⟨_, t, hexec, hends, fun l _ hl => active_spec.2 (hl.resolve_left nofun)⟩
    · obtain ⟨t, hexec, hends⟩ := execKill_endsLanes hc hr hlen hload f hon
      exact ⟨_, t, hexec, hends, fun l hl _ => List.mem_range.2 hl⟩
  refine ⟨t, h, hexec, hto, hgroup, hs, hlen'.trans hlen, fun l hl hl' => hends l (hls l hl hl'), fun l hl => ?_⟩
  obtain ⟨hv, hp, -⟩ := hkeeps l (hlen ▸ hl)
  exact ⟨hv, hp⟩

end Sys2Proof.Machine
end

section
/-!
# A 64-bit MOV copies a pending handle (O8)

The MOV reads with waiting only where its pair is not pending, and acts on each lane alone: the pair is written, and where
A was pending D is pending on the same command (R66). So the law of the register pipeline applies (`commit_local`).
-/

namespace Sys2Proof.Machine

open Sys2Proof

/-- A thread whose pair `d` takes the value of the pair `a` of `src`, and what that pair is pending on (R66). -/
def Thread.withPairOf (t src : Thread) (a : Nat) (d : BitVec 8) : Thread :=
  let u := t.withDst (.v d) true (pairOf src.v a)
  match src.pendAt a with
  | some q => { u with pend := ⟨d.toNat, q.cmd, false⟩ :: u.pend }
  | .none => u

/-- One lane's part of the MOV. -/
def movePair (c : Ctx) (a : Nat) (d : BitVec 8) (g : Group) (l : Nat) : Group :=
  let g' := g.setPair l d.toNat (pairOf (c.rd.thread l).v a)
  match (c.rd.thread l).pendAt a with
  | some q => g'.updThread l fun t => { t with pend := ⟨d.toNat, q.cmd, false⟩ :: t.pend }
  | none => g'

/-- The MOV changes each lane's own thread alone. -/
theorem movePair_local (c : Ctx) (a : Nat) (d : BitVec 8) :
    LaneLocal (movePair c a d) fun l t => t.withPairOf (c.rd.thread l) a d := by
  have hpair := setPair_local (fun _ => d.toNat) fun l => pairOf (c.rd.thread l).v a
  intro g l
  dsimp only [movePair, Thread.withPairOf]
  cases (c.rd.thread l).pendAt a with
  | none => exact hpair g l
  | some q => exact hpair.comp (updThread_local fun _ t => { t with pend := ⟨d.toNat, q.cmd, false⟩ :: t.pend }) g l

/-- With a pair that is pending or ready, and sound, in every active thread, the MOV runs in the whole unit. -/
theorem moveHandle_clear {s : State} {c : Ctx} (hc : s.ctx? = some c) (f : Fields) (a : Nat) (d : BitVec 8)
    (hready : ∀ l ∈ c.lanes, (c.rd.thread l).guard f = true → (c.rd.thread l).pendIn ((c.rd.thread l).moveReads a) = [])
    (hsound : ∀ l ∈ c.lanes, (c.rd.thread l).guard f = true → s.poisonTrap l [a, a + 1] = []) :
    s.moveHandle f a d.toNat = .ok (s.commit c ((c.active f).foldl (movePair c a d) c.g) (fun _ => .next) true 0) := by
  have hchecks : ((c.active f).flatMap fun l => s.poisonTrap l [a, a + 1]) = [] :=
    List.flatMap_eq_nil_iff.2 fun l hl => by
      obtain ⟨hlane, hguard⟩ := List.mem_filter.1 hl
      exact hsound l hlane hguard
  have hreads : ∀ l ∈ c.lanes, (c.rd.thread l).guard f = true → s.poisonTrap l ((c.rd.thread l).moveReads a) = [] := by
    intro l hlane hguard
    unfold Thread.moveReads
    split
    · exact poisonTrap_nil s l
    · exact hsound l hlane hguard
  unfold State.moveHandle
  rw [hc]
  exact perThread_clear hc f (fun l => (c.rd.thread l).moveReads a) hready hreads
    (fun _ on => on.flatMap fun l => s.poisonTrap l [a, a + 1]) hchecks fun c g l => movePair c a d g l

/-- Settles O8, by the law of the register pipeline for what acts on each lane alone. -/
theorem moveCopiesAPendingHandle : Obligations.MoveCopiesAPendingHandle := by
  intro f a d s c hpair ha hd hnoS _ _ hc hcheck hready
  have hexec : exec (.mov f) s = s.finish (s.checked f (s.moveHandle f a.toNat d.toNat)) := by
    show execMov f s = _
    simp only [execMov, ha, hd, hpair, if_true]
  rw [hexec, checked_clear (by rw [hnoS]; exact hcheck),
    moveHandle_clear hc f a.toNat d (fun l hl hg => (hready l hl hg).1) fun l hl hg => (hready l hl hg).2, finish_ok]
  obtain ⟨h, hcommit, hlanes⟩ := commit_local hc f (movePair_local c a.toNat d) true 0 c.g rfl
  rw [hcommit, hd]
  exact ⟨h, rfl, hlanes⟩

end Sys2Proof.Machine
end

section
/-!
# Completions (O40)

Each step of another agent here changes one group or one block: its clause follows from the equation of that change.
-/

namespace Sys2Proof.Machine

open Sys2Proof

/-! ## Changes of a group or a block that stands -/

/-- An element that a list has, changed, is that element replaced. -/
theorem updAt_eq_setAt {α : Type} {l : List α} {i : Nat} {x : α} (h : l[i]? = some x) (f : α → α) :
    updAt l i f = setAt l i (f x) :=
  updAt_congr l i f (fun _ => f x) x (by rw [List.getD_eq_getElem?_getD, h]; rfl)

/-- A lane's thread changed is the thread replaced. -/
theorem Group.updThread_eq_setAt (x : Group) (l : Nat) (f : Thread → Thread) :
    x.updThread l f = { x with threads := setAt x.threads l (f (x.thread l)) } :=
  congrArg (fun ts => { x with threads := ts }) (updAt_congr x.threads l f (fun _ => f (x.thread l)) (Thread.none 0) rfl)

/-- A group that stands, changed, is replaced. -/
theorem State.updGroup_eq_setGroup {s : State} {i : Issuer} {x : Group} (h : s.groupOf i = some x) (f : Group → Group) :
    s.updGroup i f = s.setGroup i (f x) := by
  unfold State.updGroup
  rw [h]

/-- Of a block that alone has its number, a group changed is that group replaced. -/
theorem State.updBlockGroup_eq {s : State} {b g : Nat} {x : Block} {y : Group} (honly : ∀ z ∈ s.blocks, z.id = b → z = x)
    (hy : x.groups[g]? = some y) (f : Group → Group) :
    s.updBlockGroup b g f = s.updBlock b fun z => { z with groups := setAt z.groups g (f y) } := by
  refine congrArg (fun bs => { s with blocks := bs }) (List.map_congr_left fun z hz => ?_)
  by_cases hid : z.id = b
  · rw [if_pos hid, if_pos hid, honly z hz hid]
    exact congrArg (fun gs => { x with groups := gs }) (updAt_eq_setAt hy f)
  · rw [if_neg hid, if_neg hid]

/-- Host memory and a group are replaced in any order. -/
theorem State.setGroup_hostMem (s : State) (i : Issuer) (x : Group) (m : Memory) :
    ({ s.setGroup i x with hostMem := m } : State) = ({ s with hostMem := m } : State).setGroup i x := by
  cases i <;> rfl

/-! ## Loads and stores (R69, R71, R100) -/

/-- An outstanding load completed writes its registers, and the loads before it and queued matrix results lose them. -/
theorem Group.finishLoad_eq {x : Group} {l i : Nat} {o : LoadOut} (ho : (x.thread l).ld[i]? = some o) :
    x.finishLoad l i = { x with
      threads := setAt x.threads l { x.thread l with
        v := o.regs.foldl (fun v r => setAt v r.1 r.2) (x.thread l).v
        ld := ((x.thread l).ld.take i).map (fun e => { e with regs := e.regs.filter fun r => o.regs.all fun q => q.1 ≠ r.1 })
          ++ (x.thread l).ld.drop (i + 1) }
      mxq := x.mxq.map fun m => { m with lost := o.regs.map (fun r => (l, r.1)) ++ m.lost } } := by
  unfold Group.finishLoad Thread.finishLoad
  simp only [Group.updThread_eq_setAt, ho, Option.map_some, Option.getD_some, List.not_any_eq_all_not, ← decide_not, ne_eq]

/-- The oldest store of a thread is performed: a SYSTEM store is seen by the host. -/
theorem execStorePerformed_eq {s : State} {b g l : Nat} {x : Group} {o : Option SysStore} {os : List (Option SysStore)}
    (hx : s.groupOf (issuerOf b g) = some x) (ho : (x.thread l).st = o :: os) :
    execStorePerformed b g l s = .next
      (({ s with hostMem := (o.map fun y => s.hostMem.write y.addr y.size y.val.toNat).getD s.hostMem } : State).setGroup
        (issuerOf b g) { x with threads := setAt x.threads l { x.thread l with st := os } }) := by
  unfold execStorePerformed
  rw [hx]
  dsimp only
  rw [ho]
  dsimp only
  rw [Group.updThread_eq_setAt, State.setGroup_hostMem]
  cases o <;> rfl

/-! ## Matrix operations (R69, R273) -/

/-- The oldest operation of a group completes where it is ready. -/
theorem execMatrixComplete_ready {s : State} {b g : Nat} {h : Home} {x : Group} {o : MxOp} {os : List MxOp}
    (hh : s.homeOf b g = some h) (hx : s.groupOf (.unit b g 0) = some x) (hq : x.mxq = o :: os) (hr : o.ready = true) :
    execMatrixComplete b g s = .next ((s.drawForBlock b).mxFinish h o) := by
  simp only [execMatrixComplete, hh, hx, hq, List.head?_cons, hr, if_true]

/-- An MMAS that its four groups have reached completes once the slots are read for all of them. -/
theorem execMatrixComplete_meets {s u : State} {b g : Nat} {h : Home} {x y : Group} {o o1 : MxOp} {os os1 : List MxOp}
    (hh : s.homeOf b g = some h) (hx : s.groupOf (.unit b g 0) = some x) (hq : x.mxq = o :: os) (hr : o.ready = false)
    (hread : (s.drawForBlock b).mmasRead h o = some u) (hy : u.groupOf (.unit b g 0) = some y) (hq1 : y.mxq = o1 :: os1) :
    execMatrixComplete b g s = .next (u.mxFinish h o1) := by
  simp only [execMatrixComplete, hh, hx, hq, List.head?_cons, hr, Bool.false_eq_true, if_false, hread, hy, hq1, Option.bind_some]

/-! ## Units (R31, R204) -/

/-- The older of two units, the first where neither is. -/
def Placed.older (m : Option Placed) (p : Placed) : Option Placed :=
  match m with
  | none => some p
  | some x => if p.unit.stamp < x.unit.stamp then some p else some x

/-- A unit that is this one or has come later. -/
def Placed.notBefore (p q : Placed) : Prop := q = p ∨ p.unit.stamp < q.unit.stamp

/-- Of two units that are not before `p`, the older is not before `p`, and is `p` where one of them is. -/
theorem Placed.older_notBefore {p q : Placed} {m : Option Placed} (hq : p.notBefore q) (hm : ∀ r ∈ m, p.notBefore r) :
    (∀ r ∈ Placed.older m q, p.notBefore r) ∧ (p = q ∨ m = some p → Placed.older m q = some p) := by
  cases m with
  | none => exact ⟨fun r hr => Option.mem_some.1 hr ▸ hq, fun h => by rw [h.resolve_right nofun]; rfl⟩
  | some x =>
    have hx : p.notBefore x := hm x rfl
    unfold Placed.older
    dsimp only
    split
    next hlt =>
      refine ⟨fun r hr => Option.mem_some.1 hr ▸ hq, fun h => congrArg some ?_⟩
      rcases h with rfl | h
      · rfl
      · cases h
        exact hq.resolve_right (by omega)
    next hle =>
      refine ⟨fun r hr => Option.mem_some.1 hr ▸ hx, fun h => congrArg some ?_⟩
      rcases h with rfl | h
      · exact hx.resolve_right hle
      · exact Option.some.inj h

/-- A unit of a list that none is before is the one found. -/
theorem foldl_older {p : Placed} : ∀ (ps : List Placed) (m : Option Placed), (∀ q ∈ ps, p.notBefore q) →
    (∀ q ∈ m, p.notBefore q) → (p ∈ ps ∨ m = some p) → ps.foldl Placed.older m = some p
  | [], _, _, _, hp => hp.resolve_left List.not_mem_nil
  | q :: ps, m, hps, hm, hp => by
    obtain ⟨hq, hps⟩ := List.forall_mem_cons.1 hps
    obtain ⟨hkeep, hfound⟩ := Placed.older_notBefore hq hm
    refine foldl_older ps _ hps hkeep ?_
    rcases hp with hp | hp
    · exact (List.mem_cons.1 hp).elim (fun h => .inr (hfound (.inl h))) .inl
    · exact .inr (hfound (.inr hp))

/-- The unit that waits for a set of a partition with the oldest stamp is the one found. -/
theorem State.oldestWaiting {s : State} {core part set : Nat} {p : Placed} (hp : p ∈ s.placedAt core part)
    (hw : p.unit.waitsAt set = true)
    (hmin : ∀ q ∈ s.placedAt core part, q.unit.waitsAt set = true → q ≠ p → p.unit.stamp < q.unit.stamp) :
    ((s.placedAt core part).filter fun q => q.unit.waitsAt set).foldl Placed.older none = some p := by
  refine foldl_older _ none (fun q hq => ?_) nofun (.inl (List.mem_filter.2 ⟨hp, hw⟩))
  obtain ⟨hq, hqw⟩ := List.mem_filter.1 hq
  exact or_iff_not_imp_left.2 (hmin q hq hqw)

/-- The oldest unit that waits for a set takes its place there, where it finds one. -/
theorem execUnitTakesFreedWay_eq {s : State} {core part set : Nat} {p : Placed} {g : Group} {us : List IssueUnit} {v : IssueUnit}
    (hold : ((s.placedAt core part).filter fun q => q.unit.waitsAt set).foldl Placed.older none = some p)
    (hg : s.groupOf (.unit p.block p.group p.idx) = some g)
    (hus : us = placeUnit (s.others (.unit p.block p.group p.idx)) p.launch p.block p.group (g.units.eraseIdx p.idx)
      { p.unit with stamp := if p.unit.aged then p.unit.stamp else s.clockOf (.unit p.block p.group p.idx) } true)
    (hlast : us.getLast? = some v) (hway : v.way ≠ none) :
    execUnitTakesFreedWay core part set s = .next (s.setGroup (.unit p.block p.group p.idx) { g with units := us }) := by
  unfold execUnitTakesFreedWay
  dsimp only
  split
  next hnone => exact absurd (hold.symm.trans hnone) nofun
  next q hsome =>
    obtain rfl : p = q := Option.some.inj (hold.symm.trans hsome)
    rw [hg]
    dsimp only
    rw [← hus, hlast, if_neg]
    simpa only [Option.map_some, Option.getD_some, Option.isNone_iff_eq_none] using hway

/-- A unit whose hold is over is made ready at its IP. -/
theorem execYieldHoldEnd_eq {s : State} {b g u since : Nat} {iss : Issuer} {x : Group} {v : IssueUnit}
    (hiss : iss = if b = 0 then .mgmt else .unit b g u) (hx : s.groupOf iss = some x) (hv : x.units[u]? = some v)
    (hheld : v.held = some since) (hover : since + 64 ≤ s.clockOf iss) :
    execYieldHoldEnd b g u s = .next (s.setGroup iss { x with
      units := placeUnit (s.others iss) (((s.launchOf iss).map (·.id)).getD 0) b g (x.units.eraseIdx u)
        { v with held := none, stamp := s.clockOf iss } false }) := by
  simp only [execYieldHoldEnd, ← hiss, hx, hv, hheld, hover, if_true]

/-! ## Requests that end (R282, R283) -/

/-- A ballast request ends at its time. -/
theorem execBallastRequestExpiry_eq {s : State} {b g : Nat} {x : Block} {y : Group} {r : BurnReq}
    (honly : ∀ z ∈ s.blocks, z.id = b → z = x) (hy : x.groups[g]? = some y) (hr : y.burn = some r) (hend : r.expiry ≤ s.ftime) :
    execBallastRequestExpiry b g s =
      .next (s.updBlock b fun z => { z with groups := setAt z.groups g { y with burn := none } }) := by
  unfold execBallastRequestExpiry
  rw [State.updBlockGroup_eq honly hy]
  simp only [hr, hend, if_true]

/-- A shunt reservation ends at its time. -/
theorem execShuntReservationExpiry_eq {s : State} {b g : Nat} {x : Block} {y : Group} {r : BurnReq}
    (honly : ∀ z ∈ s.blocks, z.id = b → z = x) (hy : x.groups[g]? = some y) (hr : y.shunt = some r) (hend : r.expiry ≤ s.ftime) :
    execShuntReservationExpiry b g s =
      .next (s.updBlock b fun z => { z with groups := setAt z.groups g { y with shunt := none } }) := by
  unfold execShuntReservationExpiry
  rw [State.updBlockGroup_eq honly hy]
  simp only [hr, hend, if_true]

/-- Settles O40: one equation for each completion. -/
theorem completionsHaveTheirEffect : Obligations.CompletionsHaveTheirEffect :=
  ⟨fun s b g l i _ _ hx ho _ => congrArg Host.Outcome.next
      ((State.updGroup_eq_setGroup hx fun y => y.finishLoad l i).trans (congrArg (s.setGroup (issuerOf b g)) (Group.finishLoad_eq ho))),
    fun _ _ _ _ _ _ _ hx ho _ => execStorePerformed_eq hx ho,
    fun _ _ _ _ _ _ _ => execMatrixComplete_ready,
    fun _ _ _ _ _ _ _ _ _ _ _ => execMatrixComplete_meets,
    fun _ _ _ _ _ _ _ _ hp hw hmin => execUnitTakesFreedWay_eq (State.oldestWaiting hp hw hmin),
    fun _ _ _ _ _ _ _ _ => execYieldHoldEnd_eq,
    fun _ _ _ _ _ _ _ => execBallastRequestExpiry_eq,
    fun _ _ _ _ _ _ _ => execShuntReservationExpiry_eq⟩

end Sys2Proof.Machine
end

section
/-!
# Publishing beyond M (O34)

HBM ends at M (R344), but the backings of a publish region may reach beyond it: R351 gives them any address below 2^40. The model's
publish then writes the part below M alone and inverts VIS all the same, so an address whose new backing lies at M or above
shows neither a published byte nor the byte it showed before. The statement asks no region to lie below M, and so fails.
-/

namespace Sys2Proof.Machine

open Sys2Proof

/-- Bytes written elsewhere leave a byte as it was. -/
theorem Memory.byte_foldl_setByte_other {a : Nat} : ∀ (ws : List (Nat × Byte)) {m : Memory}, m.wf = true → (∀ w ∈ ws, a ≠ w.1) →
    (ws.foldl (fun m w => m.setByte w.1 w.2) m).byte a = m.byte a
  | [], _, _, _ => rfl
  | w :: ws, m, hm, ha => by
    obtain ⟨hw, hws⟩ := List.forall_mem_cons.1 ha
    rw [List.foldl_cons, Memory.byte_foldl_setByte_other ws (Memory.setByte_wf hm w.1 w.2) hws, Memory.byte_setByte_other hm hw]

/-- A publish writes no byte at M or above (R344). -/
theorem State.publishReg_byte_beyond {s : State} (hm : s.mem.wf = true) (ctx idx : Nat) (ws : List (Nat × Byte)) {a : Nat}
    (ha : hbmSize ≤ a) : (s.publishReg ctx idx ws).mem.byte a = s.mem.byte a := by
  unfold State.publishReg
  dsimp only
  split
  case h_1 => rfl
  case h_2 r _ =>
    dsimp only
    generalize hsize : min r.size (hbmSize - r.backing false) = size
    have hout : ∀ k, k < size → r.backing false + k ≠ a := by omega
    have hclear := Memory.clear_wf hm (r.backing false) size
    rw [Memory.byte_foldl_setByte_other _ (copyCells_wf hclear _ _ _ _) fun w hw => ?_, byte_copyCells a hclear hm,
      if_neg fun h => hout (a - r.backing false) (by omega) (by omega), Memory.byte_clear hm, if_neg (by omega)]
    obtain ⟨x, hx, rfl⟩ := List.mem_map.1 hw
    have hin := (List.mem_filter.1 hx).2
    simp only [Bool.and_eq_true, decide_eq_true_eq] at hin
    exact (hout (x.1 - r.base) (by omega)).symm

/-- Region 0 is the first 4 MiB of the VAs. Its visible half is the first 4 MiB of HBM; of its hidden half the first 2 MiB
lie below M and the others do not. -/
def ctxAcrossM : CtxBlock := { CtxBlock.reset with desc := setAt (setAt CtxBlock.reset.desc 0 0x201) 1 0x2FFFF80000 }

def regionAcrossM : Region :=
  { idx := 0, base := 0, size := 0x400000, cls := 0, w := false, vis := false, back := (0, hbmSize - 0x200000) }

/-- The machine after reset, with that region in context 0 and the byte 0x77 in its second 2 MiB. -/
def stateAcrossM : State :=
  { State.reset with mem := Memory.empty.setByte 0x200000 0x77, ctxs := setAt State.reset.ctxs 0 ctxAcrossM }

theorem stateAcrossM_byte (a : Nat) (ha : a ≠ 0x200000) : stateAcrossM.mem.byte a = 0 :=
  Memory.byte_setByte_other Memory.empty_wf ha _

/-- Refutes O34: the byte 0x55 is published at the first address of a region whose hidden half reaches beyond M. The byte 0x77
at offset 0x200000, which is not published, is shown no more: that address has its backing at M, where nothing is written. -/
theorem not_commandsCompleteAndPublish : ¬ Obligations.CommandsCompleteAndPublish := by
  rintro ⟨-, hpublish⟩
  obtain ⟨-, hregion⟩ := hpublish stateAcrossM [(0, 0x55)] (by decide)
  obtain ⟨_, q, -, -, -, -, hback, hbytes⟩ := hregion 0 0 ctxAcrossM regionAcrossM rfl (by simp [ctxAcrossM, CtxBlock.reset]) nofun
    (by decide +kernel) (by decide) (by decide)
  have hM : q.backing true + 0x200000 = hbmSize := by rw [hback]; decide
  have hkept : (stateAcrossM.publish (some (.reg 0 0)) [(0, 0x55)]).mem.byte hbmSize = 0 :=
    (State.publishReg_byte_beyond rfl 0 0 _ le_rfl).trans (stateAcrossM_byte hbmSize (by decide))
  have hshown := hbytes 0x200000 (by decide)
  rw [hM, hkept] at hshown
  exact absurd hshown (by decide)

end Sys2Proof.Machine
end

section
/-!
# Canonical memories (O59)

The canonical form of a machine state, field by field (`State.Canon`, tied to `State.memoriesWf` by `State.memoriesWf_iff`), and what
folds, case splits and updates of one block, command, launch or part keep of it. Below, `f_canon` says that `f` ends in a canonical
state; where `f` stops an issue instead (`Yields`), nothing is to be shown.
-/

namespace Sys2Proof.Machine

open Sys2Proof

/-! ## Canonical states -/

/-- The memories of a part are canonical. -/
structure Part.Canon (p : Part) : Prop where
  scratch : p.scratch.wf = true
  bslots : p.bslots.wf = true
  codebook : p.codebook.wf = true
  acm : p.acm.wf = true

/-- The memories of a block's parts are canonical. -/
def Block.Canon (b : Block) : Prop := ∀ p ∈ b.parts, p.Canon

/-- The memories of the machine are canonical: `State.memoriesWf`, field by field. -/
structure State.Canon (s : State) : Prop where
  mem : s.mem.wf = true
  hostMem : s.hostMem.wf = true
  peerMem : s.peerMem.wf = true
  scratch : s.mgmt.scratch.wf = true
  msix : s.fabric.msixTable.wf = true
  blocks : ∀ x ∈ s.blocks, x.Canon
  windows : ∀ w ∈ s.windows, w.wf = true
  cmds : ∀ c ∈ s.cmds, c.wf = true
  launches : ∀ l ∈ s.launches, l.wf = true

theorem Part.wf_iff {p : Part} : p.wf = true ↔ p.Canon := by
  simp only [Part.wf, Bool.and_eq_true]
  exact ⟨fun ⟨⟨⟨h1, h2⟩, h3⟩, h4⟩ => ⟨h1, h2, h3, h4⟩, fun ⟨h1, h2, h3, h4⟩ => ⟨⟨⟨h1, h2⟩, h3⟩, h4⟩⟩

theorem Block.wf_iff {b : Block} : b.wf = true ↔ b.Canon := by
  simp only [Block.wf, List.all_eq_true, Part.wf_iff, Block.Canon]

theorem State.memoriesWf_iff {s : State} : s.memoriesWf = true ↔ s.Canon := by
  simp only [State.memoriesWf, Bool.and_eq_true, List.all_eq_true, Block.wf_iff]
  exact ⟨fun ⟨⟨⟨⟨⟨⟨⟨⟨h1, h2⟩, h3⟩, h4⟩, h5⟩, h6⟩, h7⟩, h8⟩, h9⟩ => ⟨h1, h2, h3, h4, h5, h6, h7, h8, h9⟩,
    fun ⟨h1, h2, h3, h4, h5, h6, h7, h8, h9⟩ => ⟨⟨⟨⟨⟨⟨⟨⟨h1, h2⟩, h3⟩, h4⟩, h5⟩, h6⟩, h7⟩, h8⟩, h9⟩⟩

/-- The state that an outcome answers is canonical. -/
def Out.Canon : Out → Prop
  | .next t => t.Canon
  | _ => True

/-- `P` holds of what an issue that is not stopped gives. -/
def Yields {α : Type} (P : α → Prop) : Except Stop α → Prop
  | .ok a => P a
  | .error _ => True

/-- A bind yields what its continuation yields. -/
theorem Yields.bind {α β : Type} {P : α → Prop} {Q : β → Prop} {x : Except Stop α} {f : α → Except Stop β} (hx : Yields P x)
    (hf : ∀ a, P a → Yields Q (f a)) : Yields Q (x >>= f) :=
  match x, hx with
  | .ok a, ha => hf a ha
  | .error _, _ => trivial

theorem Yields.map {α β : Type} {P : α → Prop} {Q : β → Prop} {x : Except Stop α} {f : α → β} (hx : Yields P x) (hf : ∀ a, P a → Q (f a)) :
    Yields Q (x.map f) :=
  match x, hx with
  | .ok a, ha => hf a ha
  | .error _, _ => trivial

theorem Yields.ite {α : Type} {P : α → Prop} {c : Prop} [Decidable c] {x y : Except Stop α} (hx : Yields P x) (hy : Yields P y) :
    Yields P (if c then x else y) := by
  split
  · exact hx
  · exact hy

theorem Out.ite_canon {c : Prop} [Decidable c] {x y : Out} (hx : Out.Canon x) (hy : Out.Canon y) :
    Out.Canon (if c then x else y) := by
  split
  · exact hx
  · exact hy

/-! ## Lists -/

/-- A property that elements keep where they are changed holds of a list with some of them changed. -/
theorem forall_mem_map_ite {α : Type} {P : α → Prop} {l : List α} {f : α → α} {c : α → Prop} [DecidablePred c]
    (h : ∀ x ∈ l, P x) (hf : ∀ x, P x → P (f x)) : ∀ x ∈ l.map fun x => if c x then f x else x, P x := by
  refine List.forall_mem_map.2 fun x hx => ?_
  split
  · exact hf x (h x hx)
  · exact h x hx

/-- A property that an element keeps where it is changed holds of the list with it changed. -/
theorem forall_mem_updAt {α : Type} {P : α → Prop} {f : α → α} (hf : ∀ x, P x → P (f x)) :
    ∀ {l : List α} {i : Nat}, (∀ x ∈ l, P x) →
    ∀ x ∈ updAt l i f, P x
  | [], _, h => h
  | _ :: _, 0, h => List.forall_mem_cons.2 ⟨hf _ (List.forall_mem_cons.1 h).1, (List.forall_mem_cons.1 h).2⟩
  | _ :: _, _ + 1, h => List.forall_mem_cons.2 ⟨(List.forall_mem_cons.1 h).1, forall_mem_updAt hf (List.forall_mem_cons.1 h).2⟩

theorem forall_mem_filter {α : Type} {P : α → Prop} {l : List α} {p : α → Bool} (h : ∀ x ∈ l, P x) : ∀ x ∈ l.filter p, P x :=
  fun x hx => h x (List.mem_of_mem_filter hx)

/-- A fold whose steps keep a property keeps it. -/
theorem foldl_keeps {α β : Type} {P : β → Prop} {f : β → α → β} {l : List α} {b : β} (h : P b) (hf : ∀ b a, P b → P (f b a)) :
    P (l.foldl f b) :=
  List.foldlRecOn l f h fun b hb a _ => hf b a hb

/-- A fold that carries a state beside other data keeps it canonical. -/
theorem foldl_fst_canon {α β : Type} {f : State × β → α → State × β} {l : List α} {b : State × β} (h : b.1.Canon)
    (hf : ∀ r a, r.1.Canon → (f r a).1.Canon) : (l.foldl f b).1.Canon :=
  foldl_keeps (P := fun r : State × β => r.1.Canon) h hf

/-- A fold of writes keeps the canonical form. -/
theorem Memory.foldl_wf {α : Type} {f : Memory → α → Memory} {l : List α} {m : Memory} (hm : m.wf = true)
    (hf : ∀ k a, k.wf = true → (f k a).wf = true) : (l.foldl f m).wf = true :=
  foldl_keeps (P := fun k => Memory.wf k = true) hm hf

theorem Memory.ite_wf {c : Prop} [Decidable c] {m k : Memory} (hm : m.wf = true) (hk : k.wf = true) :
    (if c then m else k).wf = true := by
  split
  · exact hm
  · exact hk

theorem State.ite_canon {c : Prop} [Decidable c] {s t : State} (hs : s.Canon) (ht : t.Canon) : (if c then s else t).Canon := by
  split
  · exact hs
  · exact ht

/-- A state that a step is taken from where a condition holds. -/
theorem State.iteThen_canon {c : Prop} [Decidable c] {s t : State} (hs : s.Canon) (ht : s.Canon → t.Canon) :
    (if c then t else s).Canon :=
  State.ite_canon (ht hs) hs

/-- A state that a step is taken from where a condition does not hold. -/
theorem State.iteElse_canon {c : Prop} [Decidable c] {s t : State} (hs : s.Canon) (ht : s.Canon → t.Canon) :
    (if c then s else t).Canon :=
  State.ite_canon hs (ht hs)

/-! ## Changing one block, command, launch or part -/

theorem State.updBlock_canon {s : State} {b : Nat} {f : Block → Block} (h : s.Canon) (hf : ∀ x : Block, x.Canon → (f x).Canon) :
    (s.updBlock b f).Canon :=
  { h with blocks := forall_mem_map_ite h.blocks hf }

theorem State.updCmd_canon {s : State} {c : Nat} {f : Cmd → Cmd} (h : s.Canon) (hf : ∀ x, x.wf = true → (f x).wf = true) :
    (s.updCmd c f).Canon :=
  { h with cmds := forall_mem_map_ite h.cmds hf }

theorem State.updLaunch_canon {s : State} {l : Nat} {f : Launch → Launch} (h : s.Canon)
    (hf : ∀ x, x.wf = true → (f x).wf = true) :
    (s.updLaunch l f).Canon :=
  { h with launches := forall_mem_map_ite h.launches hf }

theorem State.updPart_canon {s : State} {b part : Nat} {f : Part → Part} (h : s.Canon) (hf : ∀ p : Part, p.Canon → (f p).Canon) :
    (s.updPart b part f).Canon :=
  State.updBlock_canon h fun _ hx => forall_mem_updAt hf hx

theorem State.setGroup_canon {s : State} {i : Issuer} {g : Group} (h : s.Canon) : (s.setGroup i g).Canon :=
  match i with
  | .mgmt => { h with }
  | .unit _ _ _ => State.updBlock_canon h fun _ hx => hx

/-! ## Reading -/

theorem State.scratch_canon {s : State} {part : Nat} (h : s.Canon) : (s.scratch part).wf = true :=
  part_wf (State.memoriesWf_iff.2 h) part

theorem drainSys_canon {m : Memory} {l : List (Option SysStore)} (hm : m.wf = true) : (drainSys m l).1.wf = true := by
  induction l generalizing m with
  | nil => exact hm
  | cons o os ih =>
    cases o with
    | none => exact ih hm
    | some x => exact ih (Memory.write_wf hm _ _ _)

theorem drainHits_canon {m : Memory} {a size : Nat} {l : List (Option SysStore)} (hm : m.wf = true) :
    (drainHits a size m l).1.wf = true := by
  induction l generalizing m with
  | nil => exact hm
  | cons o os ih =>
    unfold drainHits
    split
    · cases o with
      | none => exact ih hm
      | some x => exact ih (Memory.write_wf hm _ _ _)
    · exact hm

theorem drainGroup_canon {m : Memory} {l : List Thread} (hm : m.wf = true) : (drainGroup m l).1.wf = true := by
  induction l generalizing m with
  | nil => exact hm
  | cons t ts ih => exact ih (drainSys_canon hm)

theorem drainGroups_canon {m : Memory} {l : List Group} (hm : m.wf = true) : (drainGroups m l).1.wf = true := by
  induction l generalizing m with
  | nil => exact hm
  | cons g gs ih => exact ih (drainGroup_canon hm)

/-- A block that is found is one of the machine's. -/
theorem State.block?_canon {s : State} {b : Nat} {x : Block} (h : s.Canon) (hx : s.block? b = some x) : x.Canon :=
  h.blocks x (List.mem_of_find?_eq_some hx)

theorem Block.part_canon {x : Block} {k : Nat} {p : Part} (h : x.Canon) (hp : x.part k = some p) : p.Canon :=
  h p (List.mem_of_getElem? hp)

theorem State.scratchOf_canon {s : State} {b part : Nat} (h : s.Canon) : (s.scratchOf b part).wf = true := by
  unfold State.scratchOf
  split
  · exact h.scratch
  · cases hp : (s.block? b).bind fun x => x.part part with
    | none => rfl
    | some p =>
      obtain ⟨x, hx, hp⟩ := Option.bind_eq_some_iff.1 hp
      exact (Block.part_canon (State.block?_canon h hx) hp).scratch

/-! ## Guards -/

theorem guardTraps_canon {ts : List Trap} {k : Except Stop State} (hk : Yields State.Canon k) :
    Yields State.Canon (guardTraps ts k) := by
  unfold guardTraps
  split
  · trivial
  · exact hk

theorem guardGroup_canon {c : Ctx} {ts : List Trap} {k : Except Stop State} (hk : Yields State.Canon k) :
    Yields State.Canon (guardGroup c ts k) := by
  unfold guardGroup
  split
  · trivial
  · exact guardTraps_canon hk

/-- What an access yields where its place answers, it yields where it may wait. -/
theorem State.onAnswer_canon {α : Type} {P : α → Prop} {s : State} {l kind : Nat} {x : Loc} {k : Except Stop α}
    (hk : Yields P k) :
    Yields P (s.onAnswer l kind x k) := by
  unfold State.onAnswer
  split
  · split
    · trivial
    · split
      · trivial
      · exact hk
  · exact hk

/-- An issue that leaves canonical states ends in one: a trap and a hold leave what stood before it. -/
theorem State.finish_canon {s : State} {r : Except Stop State} (h : s.Canon) (hr : Yields State.Canon r) :
    Out.Canon (s.finish r) := by
  have htrap : ∀ x, (s.takeTrap x).Canon := fun x => by
    unfold State.takeTrap
    dsimp only
    split
    · unfold State.enterTrapVec
      split <;> exact { h with }
    · split
      · exact { h with }
      · exact h
  match r with
  | .ok t => exact hr
  | .error (.trap x) => exact htrap x
  | .error .hold => exact h
  | .error (.wait rs) => exact { h with }

theorem State.checked_canon {s : State} {f : Fields} {r : Except Stop State} (hr : Yields State.Canon r) :
    Yields State.Canon (s.checked f r) := by
  unfold State.checked
  split
  · split
    · exact hr
    · trivial
  · exact hr

end Sys2Proof.Machine
end

section
/-!
# Canonical memories: registers, fetch and control (O59)

The operations on registers, operands, accesses and overlays, and the instructions that move threads, write memories only through
`Memory.setByte`, `write`, `setBytes`, `clear` and `copyCells`, each of which keeps the canonical form (Laws/Memory).
-/

namespace Sys2Proof.Machine

open Sys2Proof

section
variable {s : State}

theorem State.drawFor_canon {k : Nat} (h : s.Canon) : (s.drawFor k).Canon :=
  { h with }

theorem State.free_canon (h : s.Canon) : s.free.2.Canon :=
  { h with }

theorem State.ready_canon {iss : Issuer} {g : Group} {ls : List Nat} {hinted : Word → Bool} {held : Option Nat} (h : s.Canon) :
    (s.ready iss g ls hinted held).Canon :=
  State.setGroup_canon h

theorem State.commitWith_canon {c : Ctx} {g : Group} {dest : Nat → Goto} {keep : Bool} {hint : Word} {extra : List Nat}
    {held : Bool} (h : s.Canon) :
    (s.commitWith c g dest keep hint extra held).Canon := by
  unfold State.commitWith
  dsimp only
  split
  · exact State.setGroup_canon h
  · exact State.ready_canon h

theorem State.commit_canon {c : Ctx} {g : Group} {dest : Nat → Goto} {keep : Bool} {hint : Word} (h : s.Canon) :
    (s.commit c g dest keep hint).Canon :=
  State.commitWith_canon h

theorem State.wake_canon {iss : Issuer} {ls : List Nat} {f : Nat → Thread → Thread} (h : s.Canon) : (s.wake iss ls f).Canon := by
  unfold State.wake
  dsimp only
  split
  · exact h
  · exact State.ready_canon h

theorem State.raise_canon {e : Event} (h : s.Canon) : (s.raise e).Canon :=
  { h with }

theorem State.enterTrapVec_canon {isInt : Bool} {code : Nat} {info ip : DWord} (h : s.Canon) :
    (s.enterTrapVec isInt code info ip).Canon :=
  State.ite_canon { h with } { h with }

theorem State.takeTrap_canon {t : Trap} (h : s.Canon) : (s.takeTrap t).Canon := by
  unfold State.takeTrap
  dsimp only
  split
  · exact { State.enterTrapVec_canon h with }
  · split
    · exact { h with }
    · exact h

theorem State.returnFromTrap_canon (h : s.Canon) : s.returnFromTrap.Canon :=
  { h with }

theorem State.setRequests_canon {rs : List Request} (h : s.Canon) : (s.setRequests rs).Canon :=
  { h with }

theorem State.newId_canon (h : s.Canon) : s.newId.2.Canon :=
  { h with }

theorem State.settle_canon (h : s.Canon) : s.settle.Canon :=
  { h with }

theorem State.parkUnit_canon {c : Ctx} {cmds : List Nat} (h : s.Canon) : (s.parkUnit c cmds).Canon :=
  State.commit_canon h

theorem State.parkLanes_canon {c : Ctx} {wait : Nat → List Nat} (h : s.Canon) : (s.parkLanes c wait).Canon :=
  State.commit_canon h

theorem State.withoutWaiting_canon {c : Ctx} {wait : Nat → List Nat} {run : State → Ctx → Except Stop State} (h : s.Canon)
    (hrun : ∀ t x, State.Canon t → Yields State.Canon (run t x)) :
    Yields State.Canon (s.withoutWaiting c wait run) := by
  unfold State.withoutWaiting
  dsimp only
  split
  · exact hrun _ _ h
  · split
    · exact State.parkLanes_canon h
    · exact hrun _ _ (State.setGroup_canon h)

theorem State.perThread_canon {f : Fields} {regs : Nat → List Nat} {checks : Ctx → List Nat → List Trap} {act : LaneOp}
    (h : s.Canon) :
    Yields State.Canon (s.perThread f regs checks act) := by
  unfold State.perThread
  dsimp only
  split
  · exact h
  · exact guardTraps_canon (State.withoutWaiting_canon h fun _ _ ht => guardTraps_canon (State.commit_canon ht))

theorem State.perGroup_canon {f : Fields} {regs : List Nat} {value : Ctx → Nat → DWord} {write : Group → Nat → DWord → Group}
    {also : Ctx → Group → Group} (h : s.Canon) :
    Yields State.Canon (s.perGroup f regs value write also) := by
  unfold State.perGroup
  dsimp only
  split
  · exact h
  · refine Yields.ite (State.parkUnit_canon h) ?_
    refine guardGroup_canon ?_
    split <;> exact State.commit_canon h

theorem State.compute_canon {op : Nat} {f : Fields} {pair : Bool} {value : State → Group → Nat → DWord} (h : s.Canon) :
    Yields State.Canon (s.compute op f pair value) := by
  unfold State.compute
  refine State.checked_canon ?_
  split
  · exact State.perGroup_canon h
  · exact State.perThread_canon h

theorem State.computePred_canon {op : Nat} {f : Fields} {value : State → Group → Nat → Bool} (h : s.Canon) :
    Yields State.Canon (s.computePred op f value) := by
  unfold State.computePred
  refine State.checked_canon ?_
  split
  · exact State.perGroup_canon h
  · exact State.perThread_canon h

theorem State.writeLoc_canon {l : Loc} {n x : Nat} (h : s.Canon) : (s.writeLoc l n x).Canon := by
  unfold State.writeLoc
  split
  · exact { h with mem := Memory.write_wf h.mem _ _ _ }
  · exact { h with peerMem := Memory.write_wf h.peerMem _ _ _ }
  · exact { h with hostMem := Memory.write_wf h.hostMem _ _ _ }

theorem State.snoopOut_canon {l : Loc} (h : s.Canon) : (s.snoopOut l).Canon := by
  unfold State.snoopOut
  split
  · exact { h with }
  · exact h

theorem State.withCaches_canon {k : Caches} (h : s.Canon) : (s.withCaches k).Canon :=
  { h with }

theorem State.touch_canon {cls die : Nat} {x : Xlate} {write : Bool} (h : s.Canon) : (s.touch cls die x write).Canon :=
  State.withCaches_canon h

theorem State.touchFrom_canon {cls a : Nat} {write : Bool} (h : s.Canon) : (s.touchFrom cls a write).Canon :=
  State.touch_canon h

theorem State.touchVa_canon {ctx va n : Nat} (h : s.Canon) : (s.touchVa ctx va n).Canon := by
  unfold State.touchVa
  refine foldl_keeps h ?_
  intro _ _ ht
  refine State.ite_canon ?_ ht
  split
  · exact State.touch_canon ht
  · exact ht

theorem State.flushSys_canon {lane : Nat} (h : s.Canon) : (s.flushSys lane).Canon := by
  unfold State.flushSys
  dsimp only
  split
  · exact h
  · exact { State.setGroup_canon h with hostMem := drainSys_canon h.hostMem }

theorem State.flushHits_canon {lane a size : Nat} (h : s.Canon) : (s.flushHits lane a size).Canon := by
  unfold State.flushHits
  dsimp only
  split
  · exact h
  · exact { State.setGroup_canon h with hostMem := drainHits_canon h.hostMem }

theorem State.setScratch_canon {part : Nat} {m : Memory} (h : s.Canon) (hm : m.wf = true) : (s.setScratch part m).Canon := by
  unfold State.setScratch
  dsimp only
  split
  · exact { h with scratch := hm }
  · exact State.updPart_canon h fun _ hp => { hp with scratch := hm }

theorem State.spill_canon {lane off : Nat} {x : DWord} (h : s.Canon) : Yields State.Canon (s.spill lane off x) := by
  unfold State.spill
  dsimp only
  split
  · exact State.setScratch_canon h (Memory.write_wf (State.scratch_canon h) _ _ _)
  · split
    · trivial
    · exact State.onAnswer_canon (State.writeLoc_canon (State.snoopOut_canon (State.touch_canon (State.flushSys_canon h))))

theorem State.refill_canon {lane off : Nat} (h : s.Canon) : Yields (fun r => r.2.Canon) (s.refill lane off) := by
  unfold State.refill
  dsimp only
  split
  · split
    · trivial
    · exact h
  · split
    · trivial
    · split
      · trivial
      · refine State.onAnswer_canon ?_
        refine State.touch_canon ?_
        split
        · exact State.flushHits_canon h
        · exact h

theorem State.scribble_canon {ws : List Loc} (h : s.Canon) : (s.scribble ws).Canon :=
  { foldl_keeps h fun _ _ ht => State.writeLoc_canon (State.snoopOut_canon ht) with }

theorem State.touchPages_canon {b : Block} {ps : List Xlate} {write : Bool} (h : s.Canon) : (s.touchPages b ps write).Canon :=
  foldl_keeps h fun _ _ ht => foldl_keeps ht fun _ _ hu => State.touch_canon hu

theorem State.drawForBlock_canon {b : Nat} (h : s.Canon) : (s.drawForBlock b).Canon :=
  State.drawFor_canon h

theorem State.fillPages_canon {b : Block} {ps : List Xlate} (h : s.Canon) : (s.fillPages b ps).Canon :=
  { State.scribble_canon (State.touchPages_canon h) with }

theorem State.fillSlot_canon {b : Block} (h : s.Canon) : (s.fillSlot b).Canon :=
  State.fillPages_canon (State.drawForBlock_canon h)

theorem State.readSlot_canon {b : Block} (h : s.Canon) : (s.readSlot b).Canon :=
  State.touchPages_canon h

theorem State.slotPark_canon {b : Block} {k va : Nat} {write : Bool} (h : s.Canon) : (s.slotPark b k va write).Canon :=
  State.ite_canon h (State.raise_canon { h with })

theorem State.push_canon {g : Group} {l : Nat} {ip : DWord} (h : s.Canon) : Yields (fun r => r.1.Canon) (s.push g l ip) := by
  unfold State.push
  dsimp only
  split
  · trivial
  · split
    · exact Yields.bind (State.spill_canon h) fun _ ht => ht
    · exact h

theorem State.pop_canon {g : Group} {l : Nat} (h : s.Canon) : Yields (fun r => r.1.Canon) (s.pop g l) := by
  unfold State.pop
  dsimp only
  split
  · exact Yields.bind (State.refill_canon h) fun _ hr => hr
  · exact h

theorem State.pushAll_canon {g : Group} {ip : Nat → DWord} {ls : List Nat} (h : s.Canon) :
    Yields (fun r => r.1.Canon) (s.pushAll g ip ls) := by
  induction ls generalizing s g with
  | nil => exact h
  | cons l ls ih => exact Yields.bind (State.push_canon h) fun r hr => ih hr

theorem State.markLoading_canon {ovlOf : Nat → Nat} {ls : List Nat} (h : s.Canon) : (s.markLoading ovlOf ls).Canon := by
  unfold State.markLoading
  dsimp only
  split
  · exact { h with windows := forall_mem_map_ite h.windows fun _ hw => hw }
  · exact h

theorem State.overlayTrap_canon {c : Ctx} {g : Group} {target : Nat → DWord} {ls : List Nat} {keep : Bool} (h : s.Canon) :
    Yields State.Canon (s.overlayTrap c g target ls keep) :=
  Yields.bind (State.pushAll_canon h) fun _ hr => State.commit_canon (State.markLoading_canon hr)

theorem State.transfer_canon {c : Ctx} {on : List Nat} {target : Nat → DWord} {hint : Word}
    {pre : State → List Nat → Except Stop (State × Group)} (h : s.Canon)
    (hpre : ∀ t x, State.Canon t → Yields (fun r => r.1.Canon) (pre t x)) :
    Yields State.Canon (s.transfer c on target hint pre) := by
  unfold State.transfer
  refine guardTraps_canon ?_
  dsimp only
  split
  · exact Yields.bind (hpre _ _ h) fun _ hr => State.overlayTrap_canon hr
  · exact guardTraps_canon (Yields.bind (hpre _ _ h) fun _ hr => State.commit_canon hr)

theorem State.control_canon {op : Nat} {f : Fields} {run : State → Ctx → List Nat → Except Stop State} (h : s.Canon)
    (hrun : ∀ t x y, State.Canon t → Yields State.Canon (run t x y)) :
    Out.Canon (s.control op f run) := by
  unfold State.control
  refine State.finish_canon h ?_
  dsimp only
  split
  · exact h
  · exact guardTraps_canon (State.withoutWaiting_canon h fun _ _ ht => hrun _ _ _ ht)

theorem noPush_canon {c : Ctx} {ls : List Nat} (h : s.Canon) : Yields (fun r => r.1.Canon) (noPush c s ls) :=
  h

theorem callPush_canon {c : Ctx} {ls : List Nat} (h : s.Canon) : Yields (fun r => r.1.Canon) (callPush c s ls) :=
  State.pushAll_canon h

theorem execBra_canon {f : Fields} (h : s.Canon) : Out.Canon (execBra f s) :=
  State.control_canon h fun _ _ _ ht => State.transfer_canon ht fun _ _ hu => noPush_canon hu

theorem execBrx_canon {f : Fields} (h : s.Canon) : Out.Canon (execBrx f s) :=
  State.control_canon h fun _ _ _ ht => State.transfer_canon ht fun _ _ hu => noPush_canon hu

theorem execCall_canon {f : Fields} (h : s.Canon) : Out.Canon (execCall f s) :=
  State.control_canon h fun _ _ _ ht => State.transfer_canon ht fun _ _ hu => callPush_canon hu

theorem execCallx_canon {f : Fields} (h : s.Canon) : Out.Canon (execCallx f s) :=
  State.control_canon h fun _ _ _ ht => State.transfer_canon ht fun _ _ hu => callPush_canon hu

theorem State.popAll_canon {g : Group} {ls : List Nat} (h : s.Canon) : Yields (fun r => r.1.Canon) (s.popAll g ls) := by
  induction ls generalizing s g with
  | nil => exact h
  | cons l ls ih => exact Yields.bind (State.pop_canon h) fun r hr => ih hr

theorem execRet_canon {f : Fields} (h : s.Canon) : Out.Canon (execRet f s) :=
  State.control_canon h fun _ _ _ ht => guardTraps_canon
    (Yields.bind (State.popAll_canon ht) fun _ hr => State.commit_canon (State.markLoading_canon hr))

theorem execLoop_canon {f : Fields} (h : s.Canon) : Out.Canon (execLoop f s) :=
  State.control_canon h fun _ _ _ ht => guardTraps_canon (State.commit_canon ht)

theorem execLoopb_canon {f : Fields} (h : s.Canon) : Out.Canon (execLoopb f s) :=
  State.control_canon h fun _ _ _ ht => guardTraps_canon (State.commit_canon ht)

theorem execJset_canon {f : Fields} (h : s.Canon) : Out.Canon (execJset f s) := by
  unfold execJset
  refine State.control_canon h ?_
  intro _ _ _ ht
  dsimp only
  split
  · exact State.commit_canon ht
  · exact State.commitWith_canon ht

theorem execJwait_canon {f : Fields} (h : s.Canon) : Out.Canon (execJwait f s) :=
  State.control_canon h fun _ _ _ ht => State.commitWith_canon ht

theorem execJdrop_canon {f : Fields} (h : s.Canon) : Out.Canon (execJdrop f s) := by
  unfold execJdrop
  refine State.control_canon h ?_
  intro _ _ _ ht
  dsimp only
  split
  · exact State.commit_canon ht
  · exact State.commitWith_canon ht

theorem State.releaseOverlay_canon {launch core ovl : Nat} (h : s.Canon) : (s.releaseOverlay launch core ovl).Canon :=
  foldl_keeps h fun _ _ ht => State.ite_canon (foldl_keeps ht fun _ _ hu => State.ite_canon (State.wake_canon hu) hu) ht

theorem State.dropLoaders_canon {b g : Nat} {m : Word} (h : s.Canon) : (s.dropLoaders b g m).Canon :=
  foldl_keeps { h with windows := List.forall_mem_map.2 (List.forall_mem_map.2 h.windows) } fun _ _ ht =>
    State.releaseOverlay_canon ht

theorem State.retire_canon {b : Nat} (h : s.Canon) : (s.retire b).Canon := by
  unfold State.retire
  dsimp only
  split
  · exact h
  · split
    · refine State.updLaunch_canon ?_ fun _ hl => hl
      refine { State.updBlock_canon h ?_ with }
      exact fun x hx => List.forall_mem_map.2 fun p hp => { hx p hp with acm := Memory.empty_wf }
    · exact h

theorem execExit_canon {f : Fields} (h : s.Canon) : Out.Canon (execExit f s) := by
  unfold execExit
  refine State.control_canon h ?_
  intro _ _ _ ht
  refine guardTraps_canon ?_
  dsimp only
  split
  · exact State.commitWith_canon ht
  · exact State.settle_canon (State.retire_canon (State.dropLoaders_canon (State.commitWith_canon ht)))

theorem execKill_canon {f : Fields} (h : s.Canon) : Out.Canon (execKill f s) := by
  unfold execKill
  refine State.control_canon h ?_
  intro _ _ _ ht
  refine guardTraps_canon ?_
  dsimp only
  split
  · exact State.commit_canon ht
  · split
    · exact State.setGroup_canon ht
    · exact State.settle_canon (State.retire_canon (State.dropLoaders_canon (State.setGroup_canon ht)))

theorem execYield_canon {f : Fields} (h : s.Canon) : Out.Canon (execYield f s) :=
  State.control_canon h fun _ _ _ ht => State.commitWith_canon ht

theorem execNop_canon {f : Fields} (h : s.Canon) : Out.Canon (execNop f s) :=
  State.control_canon h fun _ _ _ ht => State.commit_canon ht

theorem execBrk_canon {f : Fields} (h : s.Canon) : Out.Canon (execBrk f s) := by
  unfold execBrk
  refine State.control_canon h ?_
  intro _ _ _ ht
  split
  · exact State.commit_canon ht
  · trivial

theorem State.mapOverlays_canon {launch core : Nat} {maps : List (Nat × Nat × Nat)} (h : s.Canon) :
    (s.mapOverlays launch core maps).Canon := by
  refine { h with windows := forall_mem_map_ite h.windows fun w hw => foldl_keeps (P := fun w => FrameWin.wf w = true) hw fun v _ hv => ?_ }
  unfold FrameWin.ovmap
  split <;> exact hv

theorem execOvmap_canon {f : Fields} (h : s.Canon) : Out.Canon (execOvmap f s) := by
  refine State.control_canon h fun t c on ht => ?_
  dsimp only
  split
  · exact ht
  · refine guardTraps_canon ?_
    split
    · trivial
    · exact foldl_keeps (State.commit_canon (State.mapOverlays_canon ht)) fun _ _ hu => State.releaseOverlay_canon hu

theorem execTrapu_canon {f : Fields} (h : s.Canon) : Out.Canon (execTrapu f s) :=
  State.control_canon h fun _ _ _ ht => Yields.bind (State.pushAll_canon ht) fun _ hr => State.commit_canon hr

end

end Sys2Proof.Machine
end

section
/-!
# Canonical memories: commands, barriers and partitions (O59)

What engine commands, barrier objects, handles, save slots and the control registers of partitions and contexts do to a state.
-/

namespace Sys2Proof.Machine

open Sys2Proof

section
variable {s : State}

theorem State.setScratchOf_canon {b part : Nat} {m : Memory} (h : s.Canon) (hm : m.wf = true) : (s.setScratchOf b part m).Canon :=
  State.ite_canon { h with scratch := hm } (State.updPart_canon h fun _ hp => { hp with scratch := hm })

theorem State.setBar_canon {b part off n : Nat} (h : s.Canon) : (s.setBar b part off n).Canon :=
  State.setScratchOf_canon h (Memory.write_wf (State.scratchOf_canon h) _ _ _)

theorem State.releaseBar_canon {b part off : Nat} {all : Bool} (h : s.Canon) : (s.releaseBar b part off all).Canon := by
  unfold State.releaseBar
  refine State.ite_canon (State.wake_canon h) ?_
  split
  · exact h
  · exact foldl_keeps h fun _ _ ht => State.wake_canon ht

theorem State.arrive_canon {b part off arrivals bytes bexp : Nat} (h : s.Canon) :
    (s.arrive b part off arrivals bytes bexp).Canon :=
  State.ite_canon (State.releaseBar_canon (State.setBar_canon h)) (State.setBar_canon h)

theorem State.capAppend_canon {kind ctx part : Nat} {payload : List Byte} (h : s.Canon) :
    (s.capAppend kind ctx part payload).Canon :=
  State.ite_canon h (State.ite_canon { h with }
    { State.snoopOut_canon h with mem := Memory.ite_wf (Memory.setBytes_wf h.mem _ _) h.mem })

theorem State.capWait_canon {mine : List Byte → Bool} (h : s.Canon) : (s.capWait mine).Canon :=
  State.ite_canon { h with } h

theorem State.capPass_canon {n : Nat} (h : s.Canon) : (State.capPass n s).Canon := by
  induction n generalizing s with
  | zero => exact h
  | succ n ih =>
    unfold State.capPass
    dsimp only
    split
    · exact { h with }
    · split
      · exact { h with }
      · exact ih { h with }

theorem State.capMove_canon (h : s.Canon) : s.capMove.Canon :=
  State.capPass_canon h

theorem State.capMatch_canon {ctx : Nat} {mine : List Byte → Bool} (h : s.Canon) : (s.capMatch ctx mine).Canon :=
  State.ite_canon (State.capMove_canon h) h

theorem State.capDiverges_canon {ctx : Nat} (h : s.Canon) : (s.capDiverges ctx).Canon :=
  State.raise_canon { h with }

theorem State.wakeHandles_canon {b : Nat} (h : s.Canon) : (s.wakeHandles b).Canon := by
  unfold State.wakeHandles
  split
  · exact h
  · exact foldl_keeps h fun _ _ ht => State.wake_canon ht

theorem State.capPublish_canon {c : Cmd} {bar code bytes : Nat} (h : s.Canon) : (s.capPublish c bar code bytes).Canon :=
  State.ite_canon (State.capMatch_canon (State.capAppend_canon h)) { State.capWait_canon (State.capAppend_canon h) with }

theorem State.completeCmd_canon {c : Cmd} {code bytes : Nat} (h : s.Canon) : (s.completeCmd c code bytes).Canon := by
  unfold State.completeCmd
  refine State.wakeHandles_canon ?_
  refine State.ite_canon ?_ ?_
  · refine State.ite_canon ?_ (State.updBlock_canon (State.updCmd_canon { h with } fun _ hk => hk) fun _ hx => hx)
    refine { State.updBlock_canon (State.updCmd_canon { h with } ?_) ?_ with }
    · exact fun _ hk => hk
    · exact fun _ hx => hx
  · refine State.capPublish_canon ?_
    refine State.ite_canon ?_ (State.updBlock_canon (State.updCmd_canon { h with } fun _ hk => hk) fun _ hx => hx)
    refine { State.updBlock_canon (State.updCmd_canon { h with } ?_) ?_ with }
    · exact fun _ hk => hk
    · exact fun _ hx => hx

theorem State.cmdArrives_canon {c : Cmd} {bar code bytes : Nat} (h : s.Canon) : (s.cmdArrives c bar code bytes).Canon :=
  State.arrive_canon (State.ite_canon h (State.setBar_canon h))

theorem State.endCmd_canon {c : Cmd} {code bytes : Nat} {arrives : Bool} (h : s.Canon) : (s.endCmd c code bytes arrives).Canon :=
  State.ite_canon (State.cmdArrives_canon (State.completeCmd_canon h)) (State.completeCmd_canon h)

theorem State.failCmd_canon {c : Cmd} {code : Nat} {reset : Option Nat} (h : s.Canon) : (s.failCmd c code reset).Canon := by
  have hset : ∀ set : List Cmd, (set.foldl (fun s h => s.endCmd h 6 0 (reset != some h.bar)) s).Canon :=
    fun _ => foldl_keeps h fun _ _ ht => State.endCmd_canon ht
  refine State.ite_canon h (State.ite_canon ?_ (State.endCmd_canon (hset _)))
  exact foldl_keeps (State.completeCmd_canon (hset _)) fun _ _ ht => State.iteThen_canon
    (State.capPublish_canon ht) State.cmdArrives_canon

theorem State.failHeld_canon {c : Cmd} {code : Nat} (h : s.Canon) : (s.failHeld c code).Canon :=
  State.ite_canon (State.capWait_canon h) (State.failCmd_canon h)

theorem State.publishScr_canon {b p : Nat} {ws : List (Nat × Byte)} (h : s.Canon) : (s.publishScr b p ws).Canon := by
  unfold State.publishScr
  refine State.ite_canon (State.setScratchOf_canon h
    (Memory.foldl_wf (State.scratchOf_canon h) fun _ _ hm => Memory.setByte_wf hm _ _)) ?_
  refine { State.setScratchOf_canon h (Memory.foldl_wf (State.scratchOf_canon h) ?_) with }
  exact fun _ _ hm => Memory.setByte_wf hm _ _

theorem State.publishReg_canon {ctx idx : Nat} {ws : List (Nat × Byte)} (h : s.Canon) : (s.publishReg ctx idx ws).Canon := by
  unfold State.publishReg
  dsimp only
  split
  · exact h
  · exact { h with mem := Memory.foldl_wf (copyCells_wf (Memory.clear_wf h.mem _ _) _ _ _ _) fun _ _ hm => Memory.setByte_wf hm _ _ }

theorem State.publish_canon {buf : Option BufKey} {ws : List (Nat × Byte)} (h : s.Canon) : (s.publish buf ws).Canon := by
  unfold State.publish
  split
  · exact State.publishScr_canon h
  · exact State.publishReg_canon h
  · exact h

theorem State.raiseMsix_canon {e : Nat} (h : s.Canon) : (s.raiseMsix e).Canon :=
  { h with }

theorem State.setPend_canon {i : Nat} (h : s.Canon) : (s.setPend i).Canon :=
  { h with }

theorem State.relevel_canon (h : s.Canon) : s.relevel.Canon :=
  { h with }

theorem State.updQueue_canon {q : Nat} {f : Queue → Queue} (h : s.Canon) : (s.updQueue q f).Canon := by
  unfold State.updQueue
  dsimp only
  split
  · exact h
  · exact State.ite_canon { h with } { h with }

theorem State.touchRecord_canon {q : Queue} (h : s.Canon) : (s.touchRecord q).Canon :=
  State.touchFrom_canon h

theorem State.haltQueue_canon {k code : Nat} (h : s.Canon) : (s.haltQueue k code).Canon :=
  State.updQueue_canon h

theorem State.advanceQueue_canon {k : Nat} (h : s.Canon) : (s.advanceQueue k).Canon :=
  State.updQueue_canon h

theorem State.pollWait_canon {k : Nat} (h : s.Canon) : (s.pollWait k).Canon := by
  unfold State.pollWait
  dsimp only
  split
  · exact h
  · refine State.ite_canon ?_ h
    split
    · exact State.haltQueue_canon h
    · exact State.ite_canon (State.advanceQueue_canon (State.touchVa_canon h)) (State.touchVa_canon h)

theorem State.pollWaits_canon (h : s.Canon) : s.pollWaits.Canon :=
  State.ite_canon h (State.drawFor_canon (foldl_keeps h fun _ _ ht => State.pollWait_canon (State.drawFor_canon ht)))

theorem State.queueTail_canon {q : Nat} {tail : Word} (h : s.Canon) : (s.queueTail q tail).Canon :=
  State.pollWaits_canon (State.setPend_canon (State.updQueue_canon h))

theorem State.queueResume_canon {q : Nat} (h : s.Canon) : (s.queueResume q).Canon :=
  State.updQueue_canon h

theorem State.queueWrite_canon {q reg : Nat} {x mask : DWord} {hyper : Bool} (h : s.Canon) :
    (s.queueWrite q reg x mask hyper).Canon := by
  unfold State.queueWrite
  dsimp only
  split
  · exact h
  · refine State.ite_canon h ?_
    split
    · exact State.ite_canon h (State.updQueue_canon h)
    · exact State.ite_canon (State.queueResume_canon (State.updQueue_canon h)) (State.updQueue_canon h)
    · exact State.ite_canon h (State.updQueue_canon h)
    · exact State.ite_canon (State.queueTail_canon h) h
    · exact h

theorem State.drainBlocks_canon {mine : Block → Bool} (h : s.Canon) : (s.drainBlocks mine).Canon :=
  foldl_keeps h fun _ _ ht => State.ite_canon
    { ht with hostMem := drainGroups_canon ht.hostMem, blocks := forall_mem_map_ite ht.blocks fun _ hx => hx } ht

theorem State.partitionReset_canon {p : Nat} (h : s.Canon) : (s.partitionReset p).Canon := by
  unfold State.partitionReset
  split
  · exact h
  · refine State.ite_canon h (State.settle_canon ?_)
    refine { foldl_keeps (P := State.Canon) ?_ fun _ _ hu => State.failCmd_canon hu with }
    have hl := forall_mem_map_ite (c := fun l => (s.ctxIn p l.ctx && l.state != .done) = true)
      (f := fun l => { l with state := .dropped }) h.launches fun _ hl => hl
    refine { State.drainBlocks_canon ?_ with blocks := List.forall_mem_map.2 fun x hx => ?_ }
    · exact { h with launches := hl }
    · have hx : x.Canon := by
        refine (State.drainBlocks_canon ?_).blocks x hx
        exact { h with launches := hl }
      exact iteInduction (motive := Block.Canon) (fun _ => hx) fun _ => hx

theorem State.partitionResetDone_canon {p : Nat} (h : s.Canon) : (s.partitionResetDone p).Canon := by
  unfold State.partitionResetDone
  dsimp only
  split
  · exact h
  · refine State.ite_canon h { h with blocks := ?_, windows := ?_, cmds := ?_, launches := ?_ }
    · exact forall_mem_filter h.blocks
    · exact forall_mem_filter h.windows
    · exact forall_mem_filter h.cmds
    · exact forall_mem_filter h.launches

theorem State.updTenant_canon {p : Nat} {f : Tenant → Tenant} (h : s.Canon) : (s.updTenant p f).Canon :=
  { h with }

theorem State.clearPoison_canon {a : Nat} (h : s.Canon) : (s.clearPoison a).Canon :=
  State.ite_canon { State.snoopOut_canon h with mem := Memory.clear_wf h.mem _ _ } h

theorem State.tenantWrite_canon {p o : Nat} {x mask : DWord} (h : s.Canon) : (s.tenantWrite p o x mask).Canon := by
  have htenant : ∀ f, (s.updTenant p f).Canon := fun _ => State.updTenant_canon h
  unfold State.tenantWrite
  dsimp only
  -- one register for each line, in the order of the definition
  refine State.ite_canon (State.ite_canon (State.partitionReset_canon h) h) ?_
  refine State.ite_canon (State.ite_canon h (State.relevel_canon (htenant _))) ?_
  refine State.ite_canon (htenant _) ?_
  refine State.ite_canon (htenant _) ?_
  refine State.ite_canon (State.ite_canon (htenant _) (htenant _)) ?_
  refine State.ite_canon (State.ite_canon (htenant _) h) ?_
  refine State.ite_canon (htenant _) ?_
  refine State.ite_canon (State.ite_canon { h with } h) ?_
  refine State.ite_canon (State.ite_canon { h with } h) ?_
  refine State.ite_canon { h with } ?_
  refine State.ite_canon (State.ite_canon (State.raiseMsix_canon { h with }) h) ?_
  refine State.ite_canon { h with } ?_
  exact State.ite_canon (State.ite_canon (State.clearPoison_canon h) h) h

theorem State.updCtx_canon {k : Nat} {f : CtxBlock → CtxBlock} (h : s.Canon) : (s.updCtx k f).Canon :=
  { h with }

theorem State.moveDeferred_canon {k : Nat} {f : CtxBlock → CtxBlock} (h : s.Canon) : (s.moveDeferred k f).Canon :=
  State.ite_canon (State.updCtx_canon h) { h with }

theorem State.ctxWrite_canon {k o : Nat} {x mask : DWord} (h : s.Canon) : (s.ctxWrite k o x mask).Canon := by
  have hctx : ∀ f, (s.updCtx k f).Canon := fun _ => State.updCtx_canon h
  unfold State.ctxWrite
  dsimp only
  refine State.ite_canon (hctx _) ?_
  refine State.ite_canon (State.moveDeferred_canon h) ?_
  refine State.ite_canon (State.moveDeferred_canon h) ?_
  refine State.ite_canon (hctx _) ?_
  refine State.ite_canon (hctx _) ?_
  exact State.ite_canon (hctx _) h

theorem State.ctlClear_canon {r : CtlReg} {mask : DWord} (h : s.Canon) : (s.ctlClear r mask).Canon := by
  unfold State.ctlClear
  dsimp only
  split
  · exact { h with }
  · exact h

theorem State.ctlWrite_canon {r : CtlReg} {x mask : DWord} {hyper : Bool} (h : s.Canon) : (s.ctlWrite r x mask hyper).Canon := by
  unfold State.ctlWrite
  split
  · exact State.queueWrite_canon h
  · exact State.tenantWrite_canon h
  · exact State.ctxWrite_canon h

end

end Sys2Proof.Machine
end

section
/-!
# Canonical memories: arithmetic and memory instructions (O59)

The compute forms write registers; loads, stores and atomics reach memory through a place.
-/

namespace Sys2Proof.Machine

open Sys2Proof

section
variable {s : State}

theorem State.intOp_canon {op : Nat} {f : Fields} {x : Int → Int → Int → Int} (h : s.Canon) : Out.Canon (s.intOp op f x) :=
  State.finish_canon h (State.compute_canon h)

theorem execIadd_canon {f : Fields} (h : s.Canon) : Out.Canon (execIadd f s) :=
  State.intOp_canon h

theorem execIsub_canon {f : Fields} (h : s.Canon) : Out.Canon (execIsub f s) :=
  State.intOp_canon h

theorem execImul_canon {f : Fields} (h : s.Canon) : Out.Canon (execImul f s) :=
  State.intOp_canon h

theorem execImad_canon {f : Fields} (h : s.Canon) : Out.Canon (execImad f s) :=
  State.intOp_canon h

theorem execIaddc_canon {f : Fields} (h : s.Canon) : Out.Canon (execIaddc f s) := by
  unfold execIaddc
  refine State.finish_canon h ?_
  refine State.checked_canon ?_
  split
  · exact State.perGroup_canon h
  · exact State.perThread_canon h

theorem execImulh_canon {f : Fields} (h : s.Canon) : Out.Canon (execImulh f s) :=
  State.finish_canon h (State.compute_canon h)

theorem execImin_canon {f : Fields} (h : s.Canon) : Out.Canon (execImin f s) :=
  State.intOp_canon h

theorem execImax_canon {f : Fields} (h : s.Canon) : Out.Canon (execImax f s) :=
  State.intOp_canon h

theorem execIabs_canon {f : Fields} (h : s.Canon) : Out.Canon (execIabs f s) :=
  State.intOp_canon h

theorem execLogic_canon {f : Fields} (h : s.Canon) : Out.Canon (execLogic f s) :=
  State.finish_canon h (State.compute_canon h)

theorem execShl_canon {f : Fields} (h : s.Canon) : Out.Canon (execShl f s) :=
  State.finish_canon h (State.compute_canon h)

theorem execShr_canon {f : Fields} (h : s.Canon) : Out.Canon (execShr f s) :=
  State.finish_canon h (State.compute_canon h)

theorem execRot_canon {f : Fields} (h : s.Canon) : Out.Canon (execRot f s) :=
  State.finish_canon h (State.compute_canon h)

theorem execBfx_canon {f : Fields} (h : s.Canon) : Out.Canon (execBfx f s) :=
  State.finish_canon h (State.compute_canon h)

theorem execBfi_canon {f : Fields} (h : s.Canon) : Out.Canon (execBfi f s) :=
  State.finish_canon h (State.compute_canon h)

theorem execPopc_canon {f : Fields} (h : s.Canon) : Out.Canon (execPopc f s) :=
  State.finish_canon h (State.compute_canon h)

theorem execClz_canon {f : Fields} (h : s.Canon) : Out.Canon (execClz f s) :=
  State.finish_canon h (State.compute_canon h)

theorem execBrev_canon {f : Fields} (h : s.Canon) : Out.Canon (execBrev f s) :=
  State.finish_canon h (State.compute_canon h)

theorem execIcmp_canon {f : Fields} (h : s.Canon) : Out.Canon (execIcmp f s) :=
  State.finish_canon h (State.computePred_canon h)

theorem execIdot4_canon {f : Fields} (h : s.Canon) : Out.Canon (execIdot4 f s) :=
  State.finish_canon h (State.compute_canon h)

theorem State.floatOp_canon {op : Nat} {f : Fields} {elems : State → Group → Nat → List FVal} (h : s.Canon) :
    Out.Canon (s.floatOp op f elems) :=
  Out.ite_canon (State.finish_canon h (State.checked_canon (State.perThread_canon h)))
    (State.finish_canon h (State.compute_canon h))

theorem execFadd_canon {f : Fields} (h : s.Canon) : Out.Canon (execFadd f s) :=
  State.floatOp_canon h

theorem execFmul_canon {f : Fields} (h : s.Canon) : Out.Canon (execFmul f s) :=
  State.floatOp_canon h

theorem execFfma_canon {f : Fields} (h : s.Canon) : Out.Canon (execFfma f s) :=
  State.floatOp_canon h

theorem execPkfma_canon {f : Fields} (h : s.Canon) : Out.Canon (execPkfma f s) :=
  State.floatOp_canon h

theorem execPkadd_canon {f : Fields} (h : s.Canon) : Out.Canon (execPkadd f s) :=
  State.floatOp_canon h

theorem execPkmul_canon {f : Fields} (h : s.Canon) : Out.Canon (execPkmul f s) :=
  State.floatOp_canon h

theorem execFmin_canon {f : Fields} (h : s.Canon) : Out.Canon (execFmin f s) :=
  State.finish_canon h (State.compute_canon h)

theorem execFmax_canon {f : Fields} (h : s.Canon) : Out.Canon (execFmax f s) :=
  State.finish_canon h (State.compute_canon h)

theorem execFcmp_canon {f : Fields} (h : s.Canon) : Out.Canon (execFcmp f s) :=
  State.finish_canon h (State.computePred_canon h)

theorem execFclass_canon {f : Fields} (h : s.Canon) : Out.Canon (execFclass f s) :=
  State.finish_canon h (State.compute_canon h)

theorem State.approx_canon {op : Nat} {f : Fields} {fn : FVal → XVal} (h : s.Canon) : Out.Canon (s.approx op f fn) :=
  State.finish_canon h (State.compute_canon h)

theorem execFrcp_canon {f : Fields} (h : s.Canon) : Out.Canon (execFrcp f s) :=
  State.approx_canon h

theorem execFrsq_canon {f : Fields} (h : s.Canon) : Out.Canon (execFrsq f s) :=
  State.approx_canon h

theorem execFexp2_canon {f : Fields} (h : s.Canon) : Out.Canon (execFexp2 f s) :=
  State.approx_canon h

theorem execFlog2_canon {f : Fields} (h : s.Canon) : Out.Canon (execFlog2 f s) :=
  State.approx_canon h

theorem execSinr_canon {f : Fields} (h : s.Canon) : Out.Canon (execSinr f s) :=
  State.approx_canon h

theorem execCosr_canon {f : Fields} (h : s.Canon) : Out.Canon (execCosr f s) :=
  State.approx_canon h

theorem execFsqrt_canon {f : Fields} (h : s.Canon) : Out.Canon (execFsqrt f s) :=
  Out.ite_canon (State.finish_canon h (State.checked_canon (State.perThread_canon h)))
    (State.finish_canon h (State.compute_canon h))

theorem execFscale_canon {f : Fields} (h : s.Canon) : Out.Canon (execFscale f s) :=
  State.floatOp_canon h

theorem execFfrac_canon {f : Fields} (h : s.Canon) : Out.Canon (execFfrac f s) :=
  State.finish_canon h (State.compute_canon h)

theorem State.moveHandle_canon {f : Fields} {a d : Nat} (h : s.Canon) : Yields State.Canon (s.moveHandle f a d) :=
  State.perThread_canon h

theorem execMov_canon {f : Fields} (h : s.Canon) : Out.Canon (execMov f s) := by
  unfold execMov
  split
  · exact Out.ite_canon (State.finish_canon h (State.checked_canon (State.moveHandle_canon h)))
      (State.finish_canon h (State.compute_canon h))
  · exact State.finish_canon h (State.compute_canon h)

theorem execMovi_canon {f : Fields} (h : s.Canon) : Out.Canon (execMovi f s) :=
  State.finish_canon h (State.compute_canon h)

theorem execMovih_canon {f : Fields} (h : s.Canon) : Out.Canon (execMovih f s) :=
  Out.ite_canon (State.finish_canon h (State.compute_canon h)) (State.finish_canon h (State.compute_canon h))

theorem execSel_canon {f : Fields} (h : s.Canon) : Out.Canon (execSel f s) :=
  State.finish_canon h (State.compute_canon h)

theorem execBysel_canon {f : Fields} (h : s.Canon) : Out.Canon (execBysel f s) :=
  State.finish_canon h (State.compute_canon h)

theorem execCvt_canon {f : Fields} (h : s.Canon) : Out.Canon (execCvt f s) :=
  Out.ite_canon (State.finish_canon h (State.checked_canon (State.perThread_canon h)))
    (State.finish_canon h (State.compute_canon h))

theorem execPack_canon {f : Fields} (h : s.Canon) : Out.Canon (execPack f s) :=
  Out.ite_canon (State.finish_canon h (State.checked_canon (State.perThread_canon h)))
    (State.finish_canon h (State.compute_canon h))

theorem execUnpk_canon {f : Fields} (h : s.Canon) : Out.Canon (execUnpk f s) :=
  State.finish_canon h (State.compute_canon h)

theorem execVldx_canon {f : Fields} (h : s.Canon) : Out.Canon (execVldx f s) :=
  State.finish_canon h (State.checked_canon (State.perThread_canon h))

theorem execVstx_canon {f : Fields} (h : s.Canon) : Out.Canon (execVstx f s) :=
  State.finish_canon h (Yields.map (State.checked_canon (State.perThread_canon h)) fun _ ht => { ht with })

theorem execRdsp_canon {f : Fields} (h : s.Canon) : Out.Canon (execRdsp f s) :=
  State.finish_canon h (State.compute_canon h)

theorem State.afterRead_canon {p : Place} {size : Nat} (h : s.Canon) : (s.afterRead p size).Canon := by
  unfold State.afterRead
  split
  · exact State.ctlClear_canon h
  · exact State.ite_canon { h with } h
  · exact h

theorem State.writePlace_canon {p : Place} {size x : Nat} (h : s.Canon) : (s.writePlace p size x).Canon := by
  unfold State.writePlace
  split
  · exact State.writeLoc_canon (State.snoopOut_canon h)
  · exact State.ctlWrite_canon h
  · exact State.setScratch_canon h (Memory.write_wf (State.scratch_canon h) _ _ _)
  · exact h
  · exact h

theorem State.touchAll_canon {write : Bool} {ps : List Place} (h : s.Canon) : (s.touchAll write ps).Canon := by
  unfold State.touchAll
  refine foldl_keeps h ?_
  intro _ _ ht
  split
  · exact State.touch_canon ht
  · exact ht

theorem State.eventOrder_canon {ls : List Nat} (h : s.Canon) : (s.eventOrder ls).2.Canon := by
  unfold State.eventOrder
  split
  · exact h
  · exact h
  · exact { h with }

theorem State.updGroup_canon {i : Issuer} {f : Group → Group} (h : s.Canon) : (s.updGroup i f).Canon := by
  unfold State.updGroup
  split
  · exact h
  · exact State.setGroup_canon h

theorem State.memForm_canon {op : Nat} {f : Fields} {run : State → Ctx → List Agent → Except Stop State} (h : s.Canon)
    (hrun : ∀ t x y, State.Canon t → Yields State.Canon (run t x y)) :
    Out.Canon (s.memForm op f run) := by
  unfold State.memForm
  refine State.finish_canon h ?_
  dsimp only
  split
  · exact h
  · split
    · refine Yields.ite (State.parkUnit_canon h) ?_
      refine guardGroup_canon ?_
      split
      · exact hrun _ _ _ h
      · exact State.commit_canon h
    · exact guardTraps_canon (State.withoutWaiting_canon h fun _ _ ht => hrun _ _ _ ht)

theorem State.commitCur_canon {c : Ctx} (h : s.Canon) : (s.commitCur c).Canon :=
  State.commit_canon h

theorem State.beforeAccess_canon {l : Nat} {p : Place} {size : Nat} {store : Bool} (h : s.Canon) :
    (s.beforeAccess l p size store).Canon := by
  unfold State.beforeAccess
  split
  · split
    · exact State.ite_canon (State.flushSys_canon h) (State.flushHits_canon h)
    · exact State.ite_canon (State.flushSys_canon h) h
  · exact State.ite_canon (State.flushSys_canon h) h
  · exact State.ite_canon (State.flushSys_canon h) h
  · exact h

theorem State.deadTrap_canon {kind : Nat} {ps : List (Nat × Place)} {act : State → Nat × Place → State} {r : Except Stop State}
    (h : s.Canon)
    (hact : ∀ t p, t.Canon → (act t p).Canon) (hr : s.deadTrap kind ps act = some r) : Yields State.Canon r := by
  unfold State.deadTrap at hr
  dsimp only at hr
  split at hr
  · cases hr
    refine State.takeTrap_canon (foldl_keeps (State.touchAll_canon ?_) hact)
    exact { State.eventOrder_canon h with }
  · split at hr
    · cases hr
    · cases hr
      trivial

theorem State.helpersAnswered_canon {ps : List (Nat × Place)} (h : s.Canon) : (s.helpersAnswered ps).Canon := by
  unfold State.helpersAnswered
  split
  · exact h
  · exact State.setRequests_canon h

theorem State.loadEvent_canon {size : Nat} {found : List (Nat × Place)} {r : State × List (Nat × Nat)} {l : Nat}
    (hr : r.1.Canon) :
    (State.loadEvent size found r l).1.Canon := by
  unfold State.loadEvent
  split
  · exact hr
  · exact State.afterRead_canon (State.beforeAccess_canon hr)

theorem State.loadRun_canon {f : Fields} {sp : Space} {kind : Nat} {c : Ctx} {agents : List Agent} (h : s.Canon) :
    Yields State.Canon (s.loadRun f sp kind c agents) := by
  unfold State.loadRun
  refine guardTraps_canon ?_
  dsimp only
  split
  · trivial
  · split
    next r hr => exact State.deadTrap_canon h (fun _ _ ht => State.afterRead_canon (State.beforeAccess_canon ht)) hr
    next =>
      refine State.commitCur_canon (State.updGroup_canon (foldl_fst_canon ?_ fun _ _ hr => State.loadEvent_canon hr))
      exact State.touchAll_canon (State.eventOrder_canon (State.helpersAnswered_canon h))

theorem execLd_canon {f : Fields} (h : s.Canon) : Out.Canon (execLd f s) :=
  State.memForm_canon h fun _ _ _ ht => State.loadRun_canon ht

theorem execLds_canon {f : Fields} (h : s.Canon) : Out.Canon (execLds f s) :=
  State.memForm_canon h fun _ _ _ ht => State.loadRun_canon ht

theorem execLdk_canon {f : Fields} (h : s.Canon) : Out.Canon (execLdk f s) :=
  State.memForm_canon h fun _ _ _ ht => State.loadRun_canon ht

theorem State.storeEvent_canon {l : Nat} {ms : List Nat} {p : Place} {size x : Nat} (h : s.Canon) :
    (s.storeEvent l ms p size x).Canon :=
  State.updGroup_canon (State.ite_canon h (State.writePlace_canon (State.beforeAccess_canon h)))

theorem State.storeRun_canon {f : Fields} {sp : Space} {kind : Nat} {c : Ctx} {agents : List Agent} (h : s.Canon) :
    Yields State.Canon (s.storeRun f sp kind c agents) := by
  unfold State.storeRun
  refine guardTraps_canon ?_
  dsimp only
  split
  · trivial
  · split
    next r hr => exact State.deadTrap_canon h (fun _ _ ht => State.writePlace_canon (State.beforeAccess_canon ht)) hr
    next =>
      refine State.commitCur_canon (foldl_keeps (State.touchAll_canon (State.eventOrder_canon h)) fun _ _ ht => ?_)
      split
      · exact State.storeEvent_canon ht
      · exact ht

theorem execSt_canon {f : Fields} (h : s.Canon) : Out.Canon (execSt f s) :=
  State.memForm_canon h fun _ _ _ ht => State.storeRun_canon ht

theorem execSts_canon {f : Fields} (h : s.Canon) : Out.Canon (execSts f s) :=
  State.memForm_canon h fun _ _ _ ht => State.storeRun_canon ht

theorem State.rmw_canon {size : Nat} {new : DWord → Nat} {p : Place} (h : s.Canon) : (s.rmw size new p).2.Canon :=
  State.writePlace_canon (State.afterRead_canon h)

theorem State.atomEvent_canon {size : Nat} {new : Nat → DWord → Nat} {mine : List (Nat × Place)} {r : State × List (Nat × DWord)}
    {l : Nat} (hr : r.1.Canon) : (State.atomEvent size new mine r l).1.Canon := by
  unfold State.atomEvent
  split
  · exact State.rmw_canon (State.beforeAccess_canon hr)
  · exact hr

theorem State.atomRun_canon {f : Fields} {sp : Space} {kind : Nat} {ret : Bool} {c : Ctx} {agents : List Agent} (h : s.Canon) :
    Yields State.Canon (s.atomRun f sp kind ret c agents) := by
  unfold State.atomRun
  refine guardTraps_canon (Yields.ite trivial ?_)
  dsimp only
  split
  next r hr => exact State.deadTrap_canon h (fun _ _ ht => State.rmw_canon (State.beforeAccess_canon ht)) hr
  next =>
    refine State.commitCur_canon ?_
    refine { State.updGroup_canon (foldl_fst_canon ?_ fun _ _ hr => State.atomEvent_canon hr) with }
    exact State.touchAll_canon (State.eventOrder_canon h)

theorem execAtom_canon {f : Fields} (h : s.Canon) : Out.Canon (execAtom f s) :=
  State.memForm_canon h fun _ _ _ ht => State.atomRun_canon ht

theorem execAtoms_canon {f : Fields} (h : s.Canon) : Out.Canon (execAtoms f s) :=
  State.memForm_canon h fun _ _ _ ht => State.atomRun_canon ht

theorem execRed_canon {f : Fields} (h : s.Canon) : Out.Canon (execRed f s) :=
  State.memForm_canon h fun _ _ _ ht => State.atomRun_canon ht

theorem execPref_canon {f : Fields} (h : s.Canon) : Out.Canon (execPref f s) :=
  State.memForm_canon h fun _ _ _ ht => State.commit_canon (State.touchAll_canon ht)

theorem execFsys_canon {f : Fields} (h : s.Canon) : Out.Canon (execFsys f s) := by
  unfold execFsys
  refine State.memForm_canon h ?_
  intro _ _ _ ht
  split
  · trivial
  · exact State.commit_canon ht

theorem execLoadComplete_canon {b g l i : Nat} (h : s.Canon) : Out.Canon (execLoadComplete b g l i s) :=
  State.updGroup_canon h

theorem execStorePerformed_canon {b g l : Nat} (h : s.Canon) : Out.Canon (execStorePerformed b g l s) := by
  unfold execStorePerformed
  dsimp only
  split
  · exact h
  · split
    · exact h
    · refine { State.setGroup_canon h with hostMem := ?_ }
      split
      · exact Memory.write_wf h.hostMem _ _ _
      · exact h.hostMem

theorem execPageWalk_canon {ctx va : Nat} (h : s.Canon) : Out.Canon (execPageWalk ctx va s) := by
  unfold execPageWalk
  dsimp only
  split
  · exact h
  · split
    · exact h
    · exact { h with }

theorem execRemoteAccess_canon {kind fn : Nat} {ty : Ty} {a : Nat} {x y : DWord} (h : s.Canon) :
    Out.Canon (execRemoteAccess kind fn ty a x y s) := by
  unfold execRemoteAccess
  refine Out.ite_canon h ?_
  dsimp only
  split
  · exact State.touchFrom_canon h
  · exact { State.snoopOut_canon (State.touchFrom_canon h) with mem := Memory.write_wf h.mem _ _ _ }
  · exact Out.ite_canon h { State.snoopOut_canon (State.touchFrom_canon h) with mem := Memory.write_wf h.mem _ _ _ }

theorem execFabricTimeout_canon {cmd dev : Nat} (h : s.Canon) : Out.Canon (execFabricTimeout cmd dev s) := by
  unfold execFabricTimeout
  refine Out.ite_canon h ?_
  refine Out.ite_canon (State.setRequests_canon h) ?_
  split
  · exact h
  · exact Out.ite_canon (State.failHeld_canon h) h

theorem execHostMemAccess_canon {write prot : Bool} {a size x : Nat} (h : s.Canon) :
    Out.Canon (execHostMemAccess write prot a size x s) := by
  unfold execHostMemAccess
  dsimp only
  split
  · exact h
  · split
    · exact { h with }
    · split
      · exact h
      · split
        · exact { h with mem := Memory.write_wf h.mem _ _ _ }
        · exact { h with }

end

end Sys2Proof.Machine
end

section
/-!
# Canonical memories: pins, barriers and the engine (O59)

The pin unit, the barrier instructions and the life of an engine command.
-/

namespace Sys2Proof.Machine

open Sys2Proof

section
variable {s : State}

theorem State.pinRun_canon {f : Fields} {name : Ctx → Nat → DWord} {c : Ctx} {agents : List Agent} (h : s.Canon) :
    Yields State.Canon (s.pinRun f name c agents) :=
  guardTraps_canon (State.settle_canon (State.commit_canon (State.eventOrder_canon h)))

theorem execPin_canon {f : Fields} (h : s.Canon) : Out.Canon (execPin f s) :=
  State.memForm_canon h fun _ _ _ ht => State.pinRun_canon ht

theorem execUnpin_canon {f : Fields} (h : s.Canon) : Out.Canon (execUnpin f s) :=
  State.memForm_canon h fun _ _ _ ht => State.pinRun_canon ht

theorem State.addSearch_canon {f : Fields} {c : Ctx} {a : Agent} (h : s.Canon) : (State.addSearch f c s a).Canon :=
  { h with }

theorem execReclaim_canon {f : Fields} (h : s.Canon) : Out.Canon (execReclaim f s) := by
  unfold execReclaim
  refine State.memForm_canon h ?_
  intro _ _ _ ht
  refine guardTraps_canon ?_
  dsimp only
  split
  · trivial
  · exact State.commit_canon (foldl_keeps ht fun _ _ hu => State.addSearch_canon hu)

theorem State.writeDeferred_canon {ctx : Nat} (h : s.Canon) : (s.writeDeferred ctx).Canon := by
  unfold State.writeDeferred
  dsimp only
  split
  · exact h
  · exact State.scribble_canon (State.drawFor_canon h)

theorem State.searchResult_canon {q : Search} {remote : Nat} (h : s.Canon) : (s.searchResult q remote).2.Canon :=
  iteInduction (motive := fun r : Nat × State => r.2.Canon) (fun _ => h) fun _ =>
    iteInduction (motive := fun r : Nat × State => r.2.Canon) (fun _ => h) fun _ => { State.writeDeferred_canon h with }

theorem execReclaimSearchComplete_canon {id remote : Nat} (h : s.Canon) : Out.Canon (execReclaimSearchComplete id remote s) := by
  unfold execReclaimSearchComplete
  dsimp only
  split
  · exact h
  · exact State.settle_canon (State.wake_canon (State.updGroup_canon { State.searchResult_canon h with }))

theorem execPinQuery_canon {job asid : Nat} {name : DWord} (h : s.Canon) : Out.Canon (execPinQuery job asid name s) :=
  { h with }

theorem State.storeAt_canon {ctx : Nat} {x : Xlate} {n v : Nat} (h : s.Canon) : (s.storeAt ctx x n v).Canon :=
  State.writeLoc_canon (State.snoopOut_canon (State.touch_canon h))

theorem State.append_canon {d : Deferred} (h : s.Canon) : (s.append d).Canon := by
  unfold State.append
  split
  · exact h
  · exact State.ite_canon h (State.raise_canon { h with })
  next entry header head _ =>
    have h0 : (if d.moved then (s.drawFor d.ctx).free else (d.name, s)).2.Canon := by
      split
      · exact State.free_canon (State.drawFor_canon h)
      · exact h
    have h1 : ∀ (t : State) (v : Nat), t.Canon → ((t.storeAt d.ctx entry 8 v).storeAt d.ctx header 4 head).Canon :=
      fun _ _ ht => State.storeAt_canon (State.storeAt_canon ht)
    dsimp only
    split
    · exact State.ite_canon { h1 _ _ h0 with } (State.arrive_canon { h1 _ _ h0 with })
    · exact { h1 _ _ h0 with }

theorem execFreeRingAppend_canon {k : Nat} {clear : Bool} (h : s.Canon) : Out.Canon (execFreeRingAppend k clear s) := by
  unfold execFreeRingAppend
  dsimp only
  split
  · exact Out.ite_canon (State.append_canon (State.ite_canon (State.settle_canon { h with }) h))
      (State.ite_canon (State.settle_canon { h with }) h)
  · exact State.ite_canon (State.settle_canon { h with }) h

theorem execRingAppendRetry_canon {k : Nat} (h : s.Canon) : Out.Canon (execRingAppendRetry k s) := by
  unfold execRingAppendRetry
  split
  · exact Out.ite_canon (State.append_canon h) h
  · exact h

theorem State.brst_canon {b part off phase : Nat} (h : s.Canon) : (s.brst b part off phase).Canon :=
  State.releaseBar_canon (State.ite_canon (foldl_keeps (State.setBar_canon h) fun _ _ ht => State.failCmd_canon ht)
    (State.setBar_canon (foldl_keeps (State.setBar_canon h) fun _ _ ht => State.failCmd_canon ht)))

theorem State.binit_canon {b part off expa expb : Nat} (h : s.Canon) : (s.binit b part off expa expb).Canon :=
  State.setBar_canon (State.brst_canon h)

theorem State.barRun_canon {op : Nat} {f : Fields} {reads : Bool} {act : State → (Opnd → Nat) → Nat → Nat → Nat → State}
    (h : s.Canon) (hact : ∀ t x y z w, State.Canon t → (act t x y z w).Canon) :
    Out.Canon (s.barRun op f reads act) := by
  unfold State.barRun
  refine State.memForm_canon h ?_
  intro _ _ _ ht
  refine guardTraps_canon ?_
  dsimp only
  split
  · trivial
  · refine State.commitCur_canon ?_
    refine foldl_keeps (State.eventOrder_canon ht) ?_
    intro _ _ hu
    split
    · exact hact _ _ _ _ _ (State.beforeAccess_canon hu)
    · exact hu

theorem execBinit_canon {f : Fields} (h : s.Canon) : Out.Canon (execBinit f s) :=
  State.barRun_canon h fun _ _ _ _ _ ht => State.binit_canon ht

theorem execBarv_canon {f : Fields} (h : s.Canon) : Out.Canon (execBarv f s) :=
  State.barRun_canon h fun _ _ _ _ _ ht => State.arrive_canon ht

theorem execBexp_canon {f : Fields} (h : s.Canon) : Out.Canon (execBexp f s) :=
  State.barRun_canon h fun _ _ _ _ _ ht => State.arrive_canon ht

theorem execBrst_canon {f : Fields} (h : s.Canon) : Out.Canon (execBrst f s) :=
  State.barRun_canon h fun _ _ _ _ _ ht => State.brst_canon ht

theorem State.phaseRead_canon {op : Nat} {f : Fields}
    {act : Ctx → List (Agent × Nat × Nat × Nat × Nat) → State → Except Stop State} (h : s.Canon)
    (hact : ∀ x y t, State.Canon t → Yields State.Canon (act x y t)) :
    Out.Canon (s.phaseRead op f act) := by
  unfold State.phaseRead
  refine State.memForm_canon h ?_
  intro _ _ _ ht
  refine guardTraps_canon ?_
  dsimp only
  split
  · trivial
  · exact hact _ _ _ ht

theorem execBtest_canon {f : Fields} (h : s.Canon) : Out.Canon (execBtest f s) :=
  State.phaseRead_canon h fun _ _ _ ht => State.commit_canon ht

theorem execBwait_canon {f : Fields} (h : s.Canon) : Out.Canon (execBwait f s) :=
  State.phaseRead_canon h fun _ _ _ ht => State.commit_canon ht

theorem execHtest_canon {f : Fields} (h : s.Canon) : Out.Canon (execHtest f s) :=
  State.memForm_canon h fun _ _ _ ht => State.commit_canon ht

theorem execHcancel_canon {f : Fields} (h : s.Canon) : Out.Canon (execHcancel f s) :=
  State.memForm_canon h fun _ _ _ ht => State.commit_canon
    (foldl_keeps ht fun _ _ hu => State.ite_canon (State.updCmd_canon hu fun _ hk => hk) hu)

theorem execCwait_canon {f : Fields} (h : s.Canon) : Out.Canon (execCwait f s) := by
  unfold execCwait
  refine State.memForm_canon h ?_
  intro _ _ _ ht
  split
  · exact State.commit_canon ht
  · trivial

theorem State.takeSequence_canon {c : Cmd} (h : s.Canon) : (s.takeSequence c).2.Canon := by
  unfold State.takeSequence
  split
  · exact h
  · split
    · exact h
    · split
      · exact h
      · exact State.updCtx_canon h

/-- The command keeps its data. -/
theorem State.takeSequence_wf {c : Cmd} (hc : c.wf = true) : (s.takeSequence c).1.wf = true := by
  unfold State.takeSequence
  split
  · exact hc
  · split
    · exact hc
    · split <;> exact hc

theorem State.acceptCmd_canon {r : Nat} {lanes : List Nat} {cmd : Cmd} (h : s.Canon) (hcmd : cmd.wf = true) :
    (s.acceptCmd r lanes cmd).Canon := by
  have h1 := State.free_canon (State.takeSequence_canon (c := { cmd with id := s.newId.1 }) (State.newId_canon h))
  exact State.updGroup_canon { h1 with
    cmds := List.forall_mem_append.2 ⟨h1.cmds, List.forall_mem_singleton.2 (State.takeSequence_wf hcmd)⟩ }

/-- A new command has no data. -/
theorem State.newCmd_wf {f : Fields} {e : EngForm} {c : Ctx} {record : Nat → List Byte} {a : Agent} {q : Cmd}
    (hq : s.newCmd f e c record a = some q) : q.wf = true := by
  unfold State.newCmd at hq
  split at hq
  · obtain ⟨_, _, rfl⟩ := Option.map_eq_some_iff.1 hq
    exact Memory.empty_wf
  · cases hq

theorem State.engineAccept_canon {f : Fields} {e : EngForm} {record : Nat → List Byte} {c : Ctx} {agents : List Agent}
    (h : s.Canon) :
    Yields State.Canon (s.engineAccept f e record c agents) := by
  unfold State.engineAccept
  refine guardTraps_canon (Yields.ite trivial (State.commitCur_canon (State.updGroup_canon ?_)))
  refine List.foldlRecOn _ _ h fun t ht q hq => State.acceptCmd_canon ht ?_
  obtain ⟨_, _, hnew⟩ := List.mem_filterMap.1 hq
  obtain ⟨_, hcmd, rfl⟩ := Option.map_eq_some_iff.1 hnew
  exact State.newCmd_wf hcmd

theorem State.engineIssue_canon {op : Nat} {f : Fields} {e : EngForm} (h : s.Canon) : Out.Canon (s.engineIssue op f e) := by
  unfold State.engineIssue
  refine State.finish_canon h ?_
  dsimp only
  split
  · exact h
  · split
    · exact guardGroup_canon (Yields.ite (State.parkUnit_canon h) (State.engineAccept_canon h))
    · exact guardTraps_canon (State.withoutWaiting_canon h fun _ _ ht => State.engineAccept_canon ht)

theorem execXcopy_canon {f : Fields} (h : s.Canon) : Out.Canon (execXcopy f s) :=
  State.engineIssue_canon h

theorem execXgath_canon {f : Fields} (h : s.Canon) : Out.Canon (execXgath f s) :=
  State.engineIssue_canon h

theorem execXscat_canon {f : Fields} (h : s.Canon) : Out.Canon (execXscat f s) :=
  State.engineIssue_canon h

theorem execXfill_canon {f : Fields} (h : s.Canon) : Out.Canon (execXfill f s) :=
  State.engineIssue_canon h

theorem execXpub_canon {f : Fields} (h : s.Canon) : Out.Canon (execXpub f s) :=
  State.engineIssue_canon h

theorem execColl_canon {f : Fields} (h : s.Canon) : Out.Canon (execColl f s) :=
  State.engineIssue_canon h

theorem execCseq_canon {f : Fields} (h : s.Canon) : Out.Canon (execCseq f s) :=
  State.engineIssue_canon h

theorem State.touchSources_canon {c : Cmd} {off len : Nat} (h : s.Canon) : (s.touchSources c off len).Canon :=
  foldl_keeps h fun _ _ ht => State.touch_canon ht

theorem execEngineSourceRead_canon {id off len : Nat} (h : s.Canon) : Out.Canon (execEngineSourceRead id off len s) := by
  unfold execEngineSourceRead
  split
  · exact h
  · refine Out.ite_canon h ?_
    split
    · exact h
    · exact State.updCmd_canon (State.touchSources_canon h) fun _ hk => Memory.setBytes_wf hk _ _

theorem State.writeFrame_canon {c : Cmd} {ws : List (Nat × Byte)} (h : s.Canon) : (s.writeFrame c ws).Canon :=
  { h with windows := forall_mem_map_ite h.windows fun _ hw => Memory.foldl_wf hw fun _ _ hm => Memory.setByte_wf hm _ _ }

theorem execEnginePublish_canon {id : Nat} (h : s.Canon) : Out.Canon (execEnginePublish id s) := by
  unfold execEnginePublish
  dsimp only
  split
  · exact h
  · refine Out.ite_canon h ?_
    refine Out.ite_canon ?_ (Out.ite_canon (State.capWait_canon h)
      (State.endCmd_canon (State.ite_canon (State.writeFrame_canon h) (State.publish_canon h))))
    split
    · exact Out.ite_canon (Out.ite_canon (State.capWait_canon h) (State.endCmd_canon (State.publish_canon h))) h
    · exact h

theorem execHoldSetPublish_canon {id : Nat} (h : s.Canon) : Out.Canon (execHoldSetPublish id s) := by
  unfold execHoldSetPublish
  dsimp only
  split
  · exact h
  · refine Out.ite_canon h ?_
    split
    · exact State.failHeld_canon h
    · exact Out.ite_canon h (Out.ite_canon (State.capWait_canon h)
        (State.endCmd_canon (foldl_keeps (State.ite_canon h (State.publish_canon h)) fun _ _ ht => State.endCmd_canon ht)))

theorem execCommandFail_canon {id pos : Nat} (h : s.Canon) : Out.Canon (execCommandFail id pos s) := by
  unfold execCommandFail
  split
  · exact h
  · refine Out.ite_canon h ?_
    split
    · exact State.failHeld_canon h
    · refine Out.ite_canon h ?_
      split
      · exact State.failHeld_canon h
      · exact h

theorem execCommandCancel_canon {id : Nat} (h : s.Canon) : Out.Canon (execCommandCancel id s) := by
  unfold execCommandCancel
  split
  · exact h
  · exact Out.ite_canon (State.failHeld_canon h) h

theorem execCollHashMatch_canon {id : Nat} {innet : Bool} (h : s.Canon) : Out.Canon (execCollHashMatch id innet s) := by
  unfold execCollHashMatch
  dsimp only
  split
  · exact h
  · exact Out.ite_canon h (Out.ite_canon (State.failHeld_canon h)
      (Out.ite_canon (State.capWait_canon h)
        (State.capMatch_canon (State.capAppend_canon (State.updCmd_canon h fun _ hk => hk)))))

theorem State.endShard_canon {c : Cmd} {j code : Nat} {ws : List (Nat × Byte)} (h : s.Canon) : (s.endShard c j code ws).Canon :=
  State.cmdArrives_canon (State.iteElse_canon
    (State.capPublish_canon (State.updCmd_canon (State.ite_canon (State.publish_canon h) h) fun _ hk => hk))
    State.completeCmd_canon)

theorem execCollShardPublish_canon {id j : Nat} (h : s.Canon) : Out.Canon (execCollShardPublish id j s) := by
  unfold execCollShardPublish
  dsimp only
  split
  · exact h
  · refine Out.ite_canon h ?_
    split
    · exact Out.ite_canon (State.capWait_canon h) (State.endShard_canon h)
    · split
      · exact h
      · exact Out.ite_canon h (Out.ite_canon (State.capWait_canon h) (State.endShard_canon h))

theorem State.noteLoss_canon {ctx gid : Nat} {seq : Word} {code dev : Nat} (h : s.Canon) :
    (s.noteLoss ctx gid seq code dev).Canon :=
  State.updCtx_canon h

theorem execCollMemberFailure_canon {ctx gid : Nat} {seq : Word} {dev : Nat} (h : s.Canon) :
    Out.Canon (execCollMemberFailure ctx gid seq dev s) := by
  unfold execCollMemberFailure
  split
  · exact Out.ite_canon h (Out.ite_canon (State.noteLoss_canon h) (Out.ite_canon (State.failHeld_canon h) h))
  · exact Out.ite_canon (State.noteLoss_canon h) h

theorem execCollMemberLeaves_canon {ctx gid dev : Nat} (h : s.Canon) : Out.Canon (execCollMemberLeaves ctx gid dev s) := by
  unfold execCollMemberLeaves
  dsimp only
  split
  · exact h
  · split
    · exact State.capWait_canon h
    · exact State.updCtx_canon (foldl_keeps h fun _ _ ht => State.failCmd_canon ht)

theorem State.deliver_canon {ctx : Nat} {f : Flit} (h : s.Canon) : (s.deliver ctx f).Canon := by
  unfold State.deliver
  split
  · exact State.updCmd_canon h fun _ hk => hk
  · exact State.ite_canon (State.updCtx_canon h) h

theorem State.writeBacklog_canon {ctx : Nat} (h : s.Canon) : (s.writeBacklog ctx).Canon := by
  unfold State.writeBacklog
  dsimp only
  split
  · exact h
  · exact State.scribble_canon (State.drawFor_canon h)

theorem execCollectiveFlitArrival_canon {ctx gid : Nat} {seq : Word} {dev hash : Nat} {tile : List Byte} (h : s.Canon) :
    Out.Canon (execCollectiveFlitArrival ctx gid seq dev hash tile s) :=
  Out.ite_canon (State.updCtx_canon (State.ite_canon (State.writeBacklog_canon h) h)) (State.deliver_canon (State.updCtx_canon h))

theorem execBacklogReplay_canon {ctx : Nat} (h : s.Canon) : Out.Canon (execBacklogReplay ctx s) := by
  unfold execBacklogReplay
  split
  · exact h
  · exact Out.ite_canon h (State.deliver_canon (State.updCtx_canon h))

theorem execBacklogTimeout_canon {own : Bool} {ctx gid : Nat} {seq : Word} (h : s.Canon) :
    Out.Canon (execBacklogTimeout own ctx gid seq s) := by
  unfold execBacklogTimeout
  refine Out.ite_canon ?_ (Out.ite_canon (State.updCtx_canon (State.noteLoss_canon h)) h)
  split
  · exact Out.ite_canon (State.failHeld_canon h) h
  · exact h

theorem execReductionSwitchLeaves_canon {id : Nat} (h : s.Canon) : Out.Canon (execReductionSwitchLeaves id s) := by
  unfold execReductionSwitchLeaves
  split
  · exact Out.ite_canon (State.updCmd_canon h fun _ hk => hk) h
  · exact h

end

end Sys2Proof.Machine
end

section
/-!
# Canonical memories: the matrix unit (O59)

Slots, accumulators and codebooks, element by element.
-/

namespace Sys2Proof.Machine

open Sys2Proof

section
variable {s : State}

theorem State.matrixForm_canon {op : Nat} {f : Fields} {rows : List Nat} {quarters counted : Bool}
    {run : State → Ctx → Home → Except Stop State} (h : s.Canon)
    (hrun : ∀ t x y, State.Canon t → Yields State.Canon (run t x y)) :
    Out.Canon (s.matrixForm op f rows quarters counted run) := by
  unfold State.matrixForm
  refine State.finish_canon h ?_
  dsimp only
  split
  · refine Yields.ite (State.parkUnit_canon h) ?_
    refine guardGroup_canon ?_
    split
    · exact State.commit_canon h
    · split
      · trivial
      · exact hrun _ _ _ h
  · exact h

theorem State.commitMx_canon {c : Ctx} {o : MxOp} (h : s.Canon) : (s.commitMx c o).Canon :=
  State.commit_canon h

theorem State.readWords_canon {part off n : Nat} (h : s.Canon) : (s.readWords part off n).2.Canon := by
  induction n with
  | zero => exact h
  | succ n ih => exact State.afterRead_canon (p := .scr part (off + 8 * n)) (size := 8) ih

theorem execBld_canon {f : Fields} (h : s.Canon) : Out.Canon (execBld f s) := by
  unfold execBld
  refine State.matrixForm_canon h fun _ c _ ht => ?_
  dsimp only
  split
  · trivial
  · split
    · trivial
    · exact guardTraps_canon (Yields.ite trivial (State.commitMx_canon (State.readWords_canon ht)))

theorem execBldReg_canon {f : Fields} (h : s.Canon) : Out.Canon (execBldReg f s) := by
  unfold execBldReg
  refine State.matrixForm_canon h ?_
  intro _ _ _ ht
  dsimp only
  split
  · trivial
  · exact State.commitMx_canon ht

theorem execMmaq_canon {f : Fields} (h : s.Canon) : Out.Canon (execMmaq f s) := by
  unfold execMmaq
  refine State.matrixForm_canon h fun _ _ _ ht => ?_
  exact guardTraps_canon (State.commitMx_canon ht)

theorem State.withCur_canon {i : Issuer} (h : s.Canon) : ({ s with cur := i } : State).Canon :=
  { h with }

theorem State.mmasTrap_canon {b : Nat} {a : MmasArrival} (h : s.Canon) : (s.mmasTrap b a).Canon :=
  State.withCur_canon (State.takeTrap_canon (State.withCur_canon (State.wake_canon h)))

theorem State.mmasArrive_canon {c : Ctx} {hm : Home} {a : MmasArrival} {f : Fields} (h : s.Canon) :
    Yields State.Canon (s.mmasArrive c hm a f) := by
  unfold State.mmasArrive
  dsimp only
  split
  · trivial
  · split
    · exact State.commit_canon (State.updBlock_canon h fun _ hx => hx)
    · split
      · exact State.commitMx_canon (foldl_keeps (State.newId_canon (State.updBlock_canon h fun _ hx => hx)) fun _ _ ht =>
          State.wake_canon (State.updGroup_canon ht))
      · exact State.takeTrap_canon (foldl_keeps (State.updBlock_canon h fun _ hx => hx) fun _ _ ht => State.mmasTrap_canon ht)

theorem execMmas_canon {f : Fields} (h : s.Canon) : Out.Canon (execMmas f s) := by
  unfold execMmas
  refine State.matrixForm_canon h fun _ _ _ ht => ?_
  exact guardTraps_canon (State.mmasArrive_canon ht)

theorem State.giveGranules_canon {b part core sector : Nat} {gs : List Nat} {fill : Bool} (h : s.Canon) :
    (s.giveGranules b part core sector gs fill).Canon := by
  unfold State.giveGranules
  refine { State.updPart_canon (State.drawForBlock_canon h) ?_ with }
  refine fun _ hp => { hp with acm := Memory.ite_wf ?_ hp.acm }
  exact Memory.foldl_wf hp.acm fun _ _ hm => Memory.foldl_wf hm fun _ _ hk => Memory.write_wf hk _ _ _

theorem execAcalloc_canon {f : Fields} (h : s.Canon) : Out.Canon (execAcalloc f s) := by
  unfold execAcalloc
  refine State.matrixForm_canon h ?_
  intro _ _ _ ht
  dsimp only
  split
  · trivial
  · split
    · trivial
    · split
      · trivial
      · split
        · exact State.commit_canon (State.giveGranules_canon ht)
        · exact State.commit_canon { ht with }

theorem State.acmGrant_canon {core sector : Nat} {r : AcmReq} (h : s.Canon) : (s.acmGrant core sector r).Canon := by
  unfold State.acmGrant
  dsimp only
  split
  · exact State.giveGranules_canon { h with }
  · split
    · exact h
    · exact State.wake_canon (State.updGroup_canon (State.giveGranules_canon { h with }))

theorem execAcmGrant_canon {core sector : Nat} (h : s.Canon) : Out.Canon (execAcmGrant core sector s) := by
  unfold execAcmGrant
  split
  · exact h
  · exact Out.ite_canon (State.acmGrant_canon h) h

theorem State.evict_canon {b age part core sector : Nat} (h : s.Canon) : (s.evict b age part core sector).Canon := by
  unfold State.evict
  refine { State.updPart_canon { h with } ?_ with }
  exact fun _ hp => { hp with }

theorem execAcmEvict_canon {core sector : Nat} (h : s.Canon) : Out.Canon (execAcmEvict core sector s) := by
  unfold execAcmEvict
  split
  · exact h
  · refine Out.ite_canon h ?_
    split
    · exact h
    · exact Out.ite_canon (State.evict_canon h) h

theorem State.fillSpill_canon {b : Block} {part sector : Nat} (h : s.Canon) : (s.fillSpill b part sector).Canon :=
  State.fillPages_canon (State.drawForBlock_canon h)

theorem State.readSpill_canon {b : Block} {part sector : Nat} (h : s.Canon) : (s.readSpill b part sector).Canon :=
  State.touchPages_canon h

theorem execAcmSpillDone_canon {b part sector : Nat} (h : s.Canon) : Out.Canon (execAcmSpillDone b part sector s) := by
  unfold execAcmSpillDone
  dsimp only
  split
  · exact State.slotPark_canon h
  · refine State.updPart_canon ?_ fun _ hp => { hp with }
    split
    · exact State.ite_canon (State.fillSpill_canon h) h
    · exact h

theorem execAcmRestore_canon {b part sector : Nat} (h : s.Canon) : Out.Canon (execAcmRestore b part sector s) := by
  unfold execAcmRestore
  dsimp only
  split
  · exact State.slotPark_canon h
  · refine State.updPart_canon ?_ ?_
    · split
      · exact State.ite_canon (State.readSpill_canon (State.drawForBlock_canon h)) h
      · exact h
    · intro _ hp
      split
      · exact { hp with }
      · exact hp

theorem State.granuleForm_canon {op : Nat} {f : Fields} {i : Instr} (h : s.Canon) : Out.Canon (s.granuleForm op f i) := by
  unfold State.granuleForm
  refine State.matrixForm_canon h ?_
  intro _ _ _ ht
  dsimp only
  split
  · trivial
  · exact guardTraps_canon (State.commitMx_canon ht)

theorem execAcfree_canon {f : Fields} (h : s.Canon) : Out.Canon (execAcfree f s) :=
  State.granuleForm_canon h

theorem execAczero_canon {f : Fields} (h : s.Canon) : Out.Canon (execAczero f s) :=
  State.granuleForm_canon h

theorem execAcrd_canon {f : Fields} (h : s.Canon) : Out.Canon (execAcrd f s) :=
  State.matrixForm_canon h fun _ _ _ ht => guardTraps_canon (State.commit_canon ht)

theorem execAcwr_canon {f : Fields} (h : s.Canon) : Out.Canon (execAcwr f s) := by
  unfold execAcwr
  refine State.matrixForm_canon h fun _ _ _ ht => ?_
  exact guardTraps_canon (State.commitMx_canon ht)

theorem execScacc_canon {f : Fields} (h : s.Canon) : Out.Canon (execScacc f s) := by
  unfold execScacc
  refine State.matrixForm_canon h fun _ _ _ ht => ?_
  exact guardTraps_canon (State.commitMx_canon ht)

theorem execCbld_canon {f : Fields} (h : s.Canon) : Out.Canon (execCbld f s) := by
  unfold execCbld
  refine State.matrixForm_canon h fun t c _ ht => ?_
  dsimp only
  split
  · trivial
  next p o _ =>
    refine guardTraps_canon (Yields.ite trivial ?_)
    generalize hw : t.readWords p o 132 = r
    have hr : r.2.Canon := hw ▸ State.readWords_canon ht
    exact State.commit_canon (State.updPart_canon hr fun _ hp => { hp with codebook := Memory.setBytes_wf Memory.empty_wf _ _ })

theorem State.updHome_canon {hm : Home} {f : Part → Part} (h : s.Canon) (hf : ∀ (x : Part), x.Canon → (f x).Canon) :
    (s.updHome hm f).Canon :=
  State.updPart_canon h fun _ hp => hf _ hp

theorem Part.withSlots_canon {p : Part} {m : Memory} (hp : p.Canon) (hm : m.wf = true) : Part.Canon { p with bslots := m } :=
  { hp with bslots := hm }

theorem Part.withAcm_canon {p : Part} {m : Memory} (hp : p.Canon) (hm : m.wf = true) : Part.Canon { p with acm := m } :=
  { hp with acm := hm }

theorem Memory.setBytesFold_wf {α β : Type} {m : Memory} {l : List α} {k : List β} {a : α → β → Nat} {x : α → β → Byte}
    (hm : m.wf = true) :
    (l.foldl (fun m i => k.foldl (fun m j => m.setByte (a i j) (x i j)) m) m).wf = true :=
  Memory.foldl_wf hm fun _ _ hm => Memory.foldl_wf hm fun _ _ hk => Memory.setByte_wf hk _ _

theorem tileMap_wf {m : Memory} {sector base n : Nat} {lanes : List Nat} {elem : Nat → Nat → Nat → Nat} (hm : m.wf = true) :
    (tileMap m sector base lanes n elem).wf = true :=
  Memory.foldl_wf hm fun _ _ hm => Memory.foldl_wf hm fun _ _ hk => Memory.write_wf hk _ _ _

theorem State.mxPerform_canon {hm : Home} {g : Group} {o : MxOp} (h : s.Canon) : (s.mxPerform hm g o).Canon := by
  unfold State.mxPerform
  dsimp only
  split
  · exact State.updHome_canon h fun _ hp => Part.withSlots_canon hp (copyCells_wf (Memory.clear_wf hp.bslots _ _) _ _ _ _)
  · exact State.updHome_canon h fun _ hp => Part.withSlots_canon hp (Memory.setBytesFold_wf hp.bslots)
  · exact State.updHome_canon h fun _ hp => Part.withAcm_canon hp (tileMap_wf hp.acm)
  · exact State.updHome_canon h fun _ hp => Part.withAcm_canon hp (tileMap_wf hp.acm)
  · exact State.updHome_canon h fun _ hp => { hp with acm := Memory.clear_wf hp.acm _ _ }
  · exact State.updHome_canon h fun _ hp => Part.withAcm_canon hp (Memory.clear_wf hp.acm _ _)
  · exact State.updHome_canon h fun _ hp =>
      Part.withAcm_canon hp (Memory.foldl_wf hp.acm fun _ _ hm => Memory.foldl_wf hm fun _ _ hk => Memory.write_wf hk _ _ _)
  · exact State.updHome_canon h fun _ hp => Part.withAcm_canon hp (tileMap_wf hp.acm)
  · exact State.setGroup_canon h
  · exact h

theorem State.acrdRead_canon {b g : Nat} (h : s.Canon) : (s.acrdRead b g).Canon := by
  unfold State.acrdRead
  split
  · split
    · exact State.updGroup_canon h
    · exact h
  · exact h

theorem State.mxFinish_canon {hm : Home} {o : MxOp} (h : s.Canon) : (s.mxFinish hm o).Canon := by
  unfold State.mxFinish
  dsimp only
  split
  · exact h
  · exact { State.updGroup_canon (State.mxPerform_canon h) with }

theorem State.mmasRead_canon {hm : Home} {o : MxOp} {t : State} (h : s.Canon) (ht : s.mmasRead hm o = some t) : t.Canon := by
  unfold State.mmasRead at ht
  dsimp only at ht
  split at ht
  · cases ht
  · cases ht
    exact foldl_keeps h fun _ _ hu => State.updGroup_canon hu

theorem execMatrixComplete_canon {b g : Nat} (h : s.Canon) : Out.Canon (execMatrixComplete b g s) := by
  have h1 := State.drawForBlock_canon (b := b) h
  unfold execMatrixComplete
  split
  · dsimp only
    split
    · exact h1
    · refine Out.ite_canon (State.mxFinish_canon h1) ?_
      split
      · exact h1
      next t ht =>
        split
        · exact State.mxFinish_canon (State.mmasRead_canon h1 ht)
        · exact State.mmasRead_canon h1 ht
  · exact h

end

end Sys2Proof.Machine
end

section
/-!
# Canonical memories: power (O59)

Ballast, shunts and the samples.
-/

namespace Sys2Proof.Machine

open Sys2Proof

section
variable {s : State}

theorem execLevelChange_canon {d : Nat} (h : s.Canon) : Out.Canon (execLevelChange d s) :=
  { h with }

theorem execCohortLevelAdopt_canon {d : Nat} (h : s.Canon) : Out.Canon (execCohortLevelAdopt d s) := by
  unfold execCohortLevelAdopt
  dsimp only
  split
  · exact h
  · exact Out.ite_canon { State.relevel_canon { h with } with } h

theorem State.powerForm_canon {op : Nat} {f : Fields} {run : State → Nat → Nat → Nat → Word × State} (h : s.Canon)
    (hrun : ∀ t x y z, State.Canon t → (run t x y z).2.Canon) :
    Out.Canon (s.powerForm op f run) := by
  unfold State.powerForm
  refine State.finish_canon h ?_
  dsimp only
  split
  · refine Yields.ite (State.parkUnit_canon h) ?_
    refine guardGroup_canon ?_
    split
    · exact State.commit_canon h
    · exact State.commit_canon (hrun _ _ _ _ h)
  · exact h

theorem State.updBlockGroup_canon {b g : Nat} {f : Group → Group} (h : s.Canon) : (s.updBlockGroup b g f).Canon :=
  State.updBlock_canon h fun _ hx => hx

theorem execBurn_canon {f : Fields} (h : s.Canon) : Out.Canon (execBurn f s) :=
  State.powerForm_canon h fun _ _ _ _ ht => State.updBlockGroup_canon ht

theorem execShunt_canon {f : Fields} (h : s.Canon) : Out.Canon (execShunt f s) :=
  State.powerForm_canon h fun _ _ _ _ ht => State.updBlockGroup_canon (State.updBlockGroup_canon ht)

theorem execPlreq_canon {f : Fields} (h : s.Canon) : Out.Canon (execPlreq f s) :=
  State.powerForm_canon h fun _ _ _ _ ht => State.relevel_canon { ht with }

theorem State.pairForm_canon {op : Nat} {f : Fields} {x : State → DWord} (h : s.Canon) : Out.Canon (s.pairForm op f x) :=
  State.finish_canon h (State.perThread_canon h)

theorem execBalq_canon {f : Fields} (h : s.Canon) : Out.Canon (execBalq f s) :=
  State.pairForm_canon h

theorem execEnrd_canon {f : Fields} (h : s.Canon) : Out.Canon (execEnrd f s) :=
  State.pairForm_canon h

theorem execBallastRequestExpiry_canon {b g : Nat} (h : s.Canon) : Out.Canon (execBallastRequestExpiry b g s) :=
  State.updBlockGroup_canon h

theorem execShuntReservationExpiry_canon {b g : Nat} (h : s.Canon) : Out.Canon (execShuntReservationExpiry b g s) :=
  State.updBlockGroup_canon h

theorem State.imbal_canon {col : Nat} {rails : List Int} (h : s.Canon) : (s.imbal col rails).Canon :=
  State.raise_canon { h with }

theorem State.stepCap_canon {d : Nat} {up : Bool} (h : s.Canon) : (s.stepCap d up).Canon :=
  { h with }

theorem State.raiseCap_canon (h : s.Canon) : s.raiseCap.Canon := by
  unfold State.raiseCap
  dsimp only
  split
  · exact { h with }
  · exact h

theorem State.capControl_canon {proj : Nat} (h : s.Canon) : (s.capControl proj).Canon := by
  have hlim : ((List.range 4).foldl (fun s d => if s.overLimit d then s.stepCap d false else s) s).Canon :=
    foldl_keeps h fun _ _ ht => State.ite_canon (State.stepCap_canon ht) ht
  unfold State.capControl
  dsimp only
  generalize (List.range 4).foldl (fun s d => if s.overLimit d then s.stepCap d false else s) s = t at hlim ⊢
  refine State.ite_canon ?_ (State.ite_canon (State.ite_canon ?_ (State.raiseCap_canon hlim)) hlim)
  · split
    · exact State.stepCap_canon hlim
    · exact State.ite_canon { hlim with } hlim
  · exact { State.raiseCap_canon hlim with }

theorem State.sampled_canon {fresh : Nat} {columns : List Column} (h : s.Canon) :
    State.Canon { s with fresh := fresh, columns := columns } :=
  { h with }

theorem execBalanceSample_canon {cols : List ColumnReading} {falls : List (List (Nat × Nat))} {power : List Nat}
    {energy proj : Nat}
    (h : s.Canon) : Out.Canon (execBalanceSample cols falls power energy proj s) :=
  State.sampled_canon (State.relevel_canon (State.capControl_canon (foldl_keeps (P := State.Canon)
    { h with launches := List.forall_mem_map.2 h.launches } fun _ _ ht => State.ite_canon (State.imbal_canon ht) ht)))

theorem execImbalRelease_canon {col : Nat} (h : s.Canon) : Out.Canon (execImbalRelease col s) := by
  unfold execImbalRelease
  split
  · exact h
  · exact Out.ite_canon { h with } h

theorem execSlopeLimitRamp_canon {col want : Nat} (h : s.Canon) : Out.Canon (execSlopeLimitRamp col want s) :=
  { h with }

theorem execTokenWindowEnd_canon (h : s.Canon) : Out.Canon (execTokenWindowEnd s) :=
  Out.ite_canon { h with } h

theorem execWaggleAccept_canon {amount : Word} {t0 : Nat} (h : s.Canon) : Out.Canon (execWaggleAccept amount t0 s) :=
  Out.ite_canon (State.setPend_canon { h with }) h

theorem execWaggleAck_canon {k : Nat} (h : s.Canon) : Out.Canon (execWaggleAck k s) :=
  { h with }

theorem execTokret_canon {k : Nat} (h : s.Canon) : Out.Canon (execTokret k s) := by
  unfold execTokret
  dsimp only
  split
  · exact h
  · exact Out.ite_canon (State.raise_canon { h with }) h

theorem execThermalPoll_canon {temps : List Nat} (h : s.Canon) : Out.Canon (execThermalPoll temps s) :=
  State.ite_canon { { h with } with } { h with }

theorem execDiodeCalibration_canon {i : Nat} (h : s.Canon) : Out.Canon (execDiodeCalibration i s) :=
  { h with }

end

end Sys2Proof.Machine
end

section
/-!
# Canonical memories: control registers (O59)

Register reads and writes, and queue commands.
-/

namespace Sys2Proof.Machine

open Sys2Proof

section
variable {s : State}

theorem State.csrClear_canon {n i : Nat} {mask : DWord} (h : s.Canon) : (s.csrClear n i mask).Canon := by
  unfold State.csrClear
  dsimp only
  split
  · exact State.ite_canon { h with } h
  · exact State.ite_canon { h with } h
  · exact State.ite_canon { h with } h
  · exact h

theorem State.writeCtxid_canon {k : Nat} {x mask : DWord} (h : s.Canon) : (s.writeCtxid k x mask).Canon :=
  State.ite_canon (State.relevel_canon { h with }) { h with }

theorem State.mint_canon {x : DWord} (h : s.Canon) : (s.mint x).Canon :=
  State.ite_canon { h with } h

theorem State.writePlceil_canon {i : Nat} {x mask : DWord} {hyper : Bool} (h : s.Canon) : (s.writePlceil i x mask hyper).Canon :=
  State.ite_canon (State.ite_canon (State.relevel_canon { h with }) h) (State.relevel_canon { h with })

theorem State.writeThrcfg_canon {i : Nat} {x mask : DWord} {hyper : Bool} (h : s.Canon) : (s.writeThrcfg i x mask hyper).Canon :=
  State.ite_canon (State.ite_canon { h with } h) (State.ite_canon { h with } h)

theorem State.writeSwmatrix_canon {i : Nat} {x mask : DWord} (h : s.Canon) : (s.writeSwmatrix i x mask).Canon :=
  State.ite_canon (State.ite_canon h (State.relevel_canon { { h with } with })) (State.relevel_canon { h with })

theorem State.writePtBase_canon {k : Nat} {x : DWord} (h : s.Canon) : (s.writePtBase k x).Canon :=
  State.ite_canon (State.updCtx_canon { h with }) { h with }

theorem State.skipLanes_canon {b g : Nat} {lanes : Word} {pair : Bool} (h : s.Canon) : (s.skipLanes b g lanes pair).Canon := by
  unfold State.skipLanes
  dsimp only
  split
  · exact h
  · exact State.ready_canon h

theorem State.killBlock_canon {b : Nat} (h : s.Canon) : (s.killBlock b).Canon := by
  unfold State.killBlock
  dsimp only
  split
  · exact h
  · exact State.settle_canon (State.retire_canon (foldl_keeps h fun _ _ ht => State.dropLoaders_canon (State.updGroup_canon ht)))

theorem State.pairAgain_canon {b g : Nat} {lanes : Word} (h : s.Canon) : (s.pairAgain b g lanes).Canon :=
  State.updGroup_canon h

theorem State.dropRequests_canon {e : Event} (h : s.Canon) : (s.dropRequests e).Canon :=
  State.ite_canon h (State.setRequests_canon h)

theorem State.applyAnswer_canon {e : Event} (h : s.Canon) : (s.applyAnswer e).Canon := by
  unfold State.applyAnswer
  dsimp only
  split
  · exact State.killBlock_canon (State.dropRequests_canon h)
  · exact foldl_keeps (State.dropRequests_canon h) fun _ _ ht => State.skipLanes_canon ht
  · exact State.ite_canon (foldl_keeps (State.dropRequests_canon h) fun _ _ ht => State.pairAgain_canon ht)
      (State.dropRequests_canon h)
  · exact State.dropRequests_canon h

theorem State.answer_canon {seq : Nat} {a : Answer} {hyper : Bool} (h : s.Canon) : (s.answer seq a hyper).Canon := by
  unfold State.answer
  dsimp only
  split
  · exact h
  · exact State.ite_canon { h with } (State.applyAnswer_canon { h with })

theorem State.writeBlkctl_canon {x mask : DWord} {hyper : Bool} (h : s.Canon) : (s.writeBlkctl x mask hyper).Canon := by
  unfold State.writeBlkctl
  dsimp only
  split
  · exact State.answer_canon h
  · exact h

theorem State.csrWrite_canon {n i : Nat} {x mask : DWord} {hyper : Bool} (h : s.Canon) : (s.csrWrite n i x mask hyper).Canon := by
  unfold State.csrWrite
  dsimp only
  split
  · exact { h with }
  · exact State.ite_canon { h with } h
  · exact { h with }
  · exact { h with }
  · exact { h with }
  · exact { h with }
  · exact { h with }
  · exact { h with }
  · exact { h with }
  · exact State.writeBlkctl_canon h
  · exact State.ite_canon (State.writeCtxid_canon h) h
  · exact State.writePtBase_canon h
  · exact State.ite_canon h { h with }
  · exact State.ite_canon { h with } h
  · exact State.ite_canon { h with } h
  · exact State.ite_canon (State.mint_canon h) h
  · exact State.writePlceil_canon h
  · exact State.writeThrcfg_canon h
  · exact State.ite_canon (State.writeSwmatrix_canon h) h
  · exact State.ite_canon { h with } h
  · exact h

theorem State.system_canon {i : Instr} {run : Out} (h : s.Canon) (hrun : Out.Canon run) : Out.Canon (s.system i run) := by
  unfold State.system
  split
  · exact State.takeTrap_canon h
  · exact hrun

theorem execCsrr_canon {f : Fields} (h : s.Canon) : Out.Canon (execCsrr f s) :=
  State.system_canon h (State.memForm_canon h fun _ _ _ ht => guardTraps_canon
    (State.commitCur_canon (foldl_keeps ht fun _ _ hu => State.updGroup_canon (State.csrClear_canon hu))))

theorem execCsrw_canon {f : Fields} (h : s.Canon) : Out.Canon (execCsrw f s) :=
  State.system_canon h (State.memForm_canon h fun _ _ _ ht => guardTraps_canon
    (State.commitCur_canon (foldl_keeps ht fun _ _ hu => State.csrWrite_canon hu)))

end

end Sys2Proof.Machine
end

section
/-!
# Canonical memories: traps and events (O59)

Trap entry and return, interrupts and their events.
-/

namespace Sys2Proof.Machine

open Sys2Proof

section
variable {s : State}

theorem execEret_canon {f : Fields} (h : s.Canon) : Out.Canon (execEret f s) := by
  unfold execEret
  refine State.system_canon h ?_
  refine State.memForm_canon h ?_
  intro _ _ _ ht
  dsimp only
  split
  · exact State.commit_canon ht
  · split
    · trivial
    · split
      · trivial
      · exact State.returnFromTrap_canon ht

theorem execWfi_canon {f : Fields} (h : s.Canon) : Out.Canon (execWfi f s) := by
  unfold execWfi
  refine State.system_canon h ?_
  refine State.memForm_canon h ?_
  intro _ _ _ ht
  dsimp only
  split
  · exact State.commit_canon { ht with }
  · exact { ht with }

theorem execSev_canon {f : Fields} (h : s.Canon) : Out.Canon (execSev f s) :=
  State.system_canon h (State.memForm_canon h fun _ _ _ ht => guardTraps_canon
    (State.commitCur_canon (foldl_keeps ht fun _ _ hu => State.raiseMsix_canon hu)))

theorem execIntack_canon {f : Fields} (h : s.Canon) : Out.Canon (execIntack f s) := by
  unfold execIntack
  refine State.system_canon h ?_
  refine State.memForm_canon h ?_
  intro _ _ _ ht
  refine State.commitCur_canon ?_
  refine foldl_keeps ht ?_
  intro _ _ hu
  refine State.updGroup_canon ?_
  dsimp only
  split
  · exact { hu with }
  · exact hu

theorem State.tlbInv_canon {f : Fields} {whole : Bool} {gone : Nat → Nat → TlbEntry → Bool} (h : s.Canon) :
    Out.Canon (s.tlbInv f whole gone) := by
  unfold State.tlbInv
  refine State.memForm_canon h ?_
  intro _ _ _ ht
  refine guardTraps_canon ?_
  dsimp only
  split
  · trivial
  · refine State.commitCur_canon ?_
    refine { State.ite_canon (foldl_keeps ht ?_) ht with }
    exact fun _ _ hu => State.updCtx_canon hu

theorem execTlbinvCtx_canon {f : Fields} (h : s.Canon) : Out.Canon (execTlbinvCtx f s) :=
  State.system_canon h (State.tlbInv_canon h)

theorem execTlbinvPage_canon {f : Fields} (h : s.Canon) : Out.Canon (execTlbinvPage f s) :=
  State.system_canon h (State.tlbInv_canon h)

theorem execTokxf_canon {f : Fields} (h : s.Canon) : Out.Canon (execTokxf f s) :=
  State.system_canon h (State.memForm_canon h fun _ _ _ ht => State.commitCur_canon
    (foldl_keeps ht fun _ _ hu => State.ite_canon (State.updGroup_canon hu) (State.updGroup_canon { hu with })))

theorem State.markMet_canon {ctx blk : Nat} (h : s.Canon) : (s.markMet ctx blk).Canon :=
  State.ite_canon { h with } (State.capMatch_canon h)

theorem execCapmk_canon {f : Fields} (h : s.Canon) : Out.Canon (execCapmk f s) := by
  unfold execCapmk
  refine State.memForm_canon h ?_
  intro _ _ _ ht
  dsimp only
  split
  · split
    · exact State.commitCur_canon (State.capAppend_canon ht)
    · split
      · exact State.capWait_canon ht
      · split
        · split
          · exact State.commitCur_canon (State.markMet_canon ht)
          · trivial
        · exact State.commit_canon ht
  · exact State.commit_canon ht

theorem execEventPost_canon {k : Nat} (h : s.Canon) : Out.Canon (execEventPost k s) := by
  unfold execEventPost
  dsimp only
  split
  · exact h
  · exact Out.ite_canon h (Out.ite_canon (State.setPend_canon { h with })
      { State.snoopOut_canon h with mem := Memory.ite_wf (Memory.setBytes_wf h.mem _ _) h.mem })

theorem execBlkctlResume_canon {seq : Word} (h : s.Canon) : Out.Canon (execBlkctlResume seq s) :=
  State.answer_canon h

theorem execBlkctlSkip_canon {seq : Word} (h : s.Canon) : Out.Canon (execBlkctlSkip seq s) :=
  State.answer_canon h

theorem execBlkctlKill_canon {seq : Word} (h : s.Canon) : Out.Canon (execBlkctlKill seq s) :=
  State.answer_canon h

theorem execInterruptEntry_canon (h : s.Canon) : Out.Canon (execInterruptEntry s) :=
  Out.ite_canon h (Out.ite_canon (State.takeTrap_canon { h with }) (State.enterTrapVec_canon { h with }))

theorem execCtxidWrite_canon {k : BitVec 6} {x : DWord} (h : s.Canon) : Out.Canon (execCtxidWrite k x s) :=
  State.csrWrite_canon h

theorem execSwmatrixWrite_canon {t : Bool} {x : DWord} (h : s.Canon) : Out.Canon (execSwmatrixWrite t x s) :=
  State.csrWrite_canon h

theorem execCohortWrite_canon {d : BitVec 2} {x : DWord} (h : s.Canon) : Out.Canon (execCohortWrite d x s) :=
  State.csrWrite_canon h

theorem execMint_canon {x : Word} (h : s.Canon) : Out.Canon (execMint x s) :=
  State.csrWrite_canon h

theorem execThrcfgWrite_canon {i : Nat} {x : DWord} (h : s.Canon) : Out.Canon (execThrcfgWrite i x s) :=
  State.csrWrite_canon h

theorem State.ctlStore_canon {r : CtlReg} {x : DWord} (h : s.Canon) : (s.ctlStore r x).Canon :=
  State.ite_canon (State.ctlWrite_canon h) h

theorem execClrpois_canon {a : Nat} (h : s.Canon) : Out.Canon (execClrpois a s) :=
  State.ctlStore_canon h

theorem execPartitionReset_canon {p : BitVec 3} (h : s.Canon) : Out.Canon (execPartitionReset p s) :=
  State.ctlStore_canon h

theorem execPartitionResetDone_canon {p : BitVec 3} (h : s.Canon) : Out.Canon (execPartitionResetDone p s) :=
  State.partitionResetDone_canon h

theorem execCollGroupOpen_canon {ctx : BitVec 6} {entry : BitVec 5} {gid : BitVec 16} (h : s.Canon) :
    Out.Canon (execCollGroupOpen ctx entry gid s) :=
  State.ctlStore_canon h

theorem execJobRegisterWrite_canon {p : BitVec 3} {x : DWord} (h : s.Canon) : Out.Canon (execJobRegisterWrite p x s) :=
  State.ctlStore_canon h

theorem execMgmtMailboxWrite_canon {i : BitVec 3} {x : DWord} (h : s.Canon) : Out.Canon (execMgmtMailboxWrite i x s) :=
  State.ctlStore_canon h

theorem execReadToClear_canon {csr : Bool} {n i : Nat} (h : s.Canon) : Out.Canon (execReadToClear csr n i s) := by
  unfold execReadToClear
  refine Out.ite_canon (State.csrClear_canon h) ?_
  split
  · exact Out.ite_canon (State.ctlClear_canon h) h
  · exact h

end

end Sys2Proof.Machine
end

section
/-!
# Canonical memories: the scheduler (O59)

Records, launches, combs, saves and restores.
-/

namespace Sys2Proof.Machine

open Sys2Proof

section
variable {s : State}

theorem State.touchPayload_canon {ctx : Nat} {r : List Byte} (h : s.Canon) : (s.touchPayload ctx r).Canon :=
  State.touchVa_canon (State.touchVa_canon (State.touchVa_canon (State.touchVa_canon h)))

theorem State.capPiece_canon {ctx kind part : Nat} {payload : List Byte} (h : s.Canon) :
    (s.capPiece ctx kind part payload).2.Canon := by
  have h1 := State.capAppend_canon (kind := kind) (ctx := ctx) (part := part) (payload := payload) h
  unfold State.capPiece
  dsimp only
  generalize (if (s.capAppend kind ctx part payload).capOn 2 ctx then (s.capAppend kind ctx part payload).capNext else none) = r
  cases r with
  | none => exact h1
  | some r => exact iteInduction (motive := fun r : Bool × State => r.2.Canon) (fun _ => State.capMove_canon h1) fun _ => h1

theorem State.capStep_canon {ctx kind : Nat} {pieces : List (Nat × List Byte)} (h : s.Canon) :
    (s.capStep ctx kind pieces).Canon := by
  have hr : ∀ (a : Bool × State), a.2.Canon → (pieces.foldl (fun (a : Bool × State) p =>
      let b := a.2.capPiece ctx kind p.1 p.2
      (a.1 || b.1, b.2)) a).2.Canon :=
    fun _ ha => foldl_keeps (P := fun a : Bool × State => a.2.Canon) ha fun _ _ hb => State.capPiece_canon hb
  exact State.ite_canon (State.capDiverges_canon (hr (false, s) h)) (hr (false, s) h)

theorem State.capLaunch_canon {l : Launch} {r : List Byte} (h : s.Canon) : (s.capLaunch l r).Canon :=
  foldl_keeps (State.capStep_canon (State.capStep_canon h)) fun _ _ ht => State.ite_canon (State.capStep_canon ht) ht

theorem State.raiseVector_canon {p v : Nat} (h : s.Canon) : (s.raiseVector p v).Canon :=
  State.ite_canon (State.raiseMsix_canon h) h

theorem State.touchCheck_canon {q : Queue} {passes : Bool} (h : s.Canon) : (s.touchCheck q passes).Canon :=
  State.ite_canon (State.touchVa_canon (State.touchRecord_canon h))
    (State.ite_canon (State.touchPayload_canon (State.touchRecord_canon h)) (State.touchRecord_canon h))

theorem State.beginLaunch_wf {l : Launch} {r : List Byte} {m : Payload} : (s.beginLaunch l r m).wf = true :=
  Memory.ite_wf Memory.empty_wf (Memory.setBytes_wf (Memory.setBytes_wf Memory.empty_wf _ _) _ _)

/-- What a WAIT record is answered begins no launch. -/
theorem State.waitVerdict_ne_launch {ctx : Nat} {r : List Byte} {l : Launch} : s.waitVerdict ctx r ≠ .launch l := by
  unfold State.waitVerdict
  dsimp only
  split
  · nofun
  · split
    · nofun
    · split
      · nofun
      · split <;> nofun

/-- A launch that a record begins holds its constants. -/
theorem State.verdict_wf {k : Nat} {q : Queue} {l : Launch} (hl : s.verdict k q = .launch l) : l.wf = true := by
  unfold State.verdict at hl
  dsimp only at hl
  split at hl
  · cases hl
  · split at hl
    · cases hl
    · split at hl
      · cases hl
      · split at hl
        · cases hl
        · split at hl
          · cases hl
          · cases hl
            exact State.beginLaunch_wf
    · exact absurd hl State.waitVerdict_ne_launch
    · cases hl

theorem State.carryOut_canon {k : Nat} {q : Queue} (h : s.Canon) : (s.carryOut k q).Canon := by
  unfold State.carryOut
  dsimp only
  split
  · exact State.ite_canon (State.raiseVector_canon (State.haltQueue_canon (State.touchCheck_canon h)))
      (State.haltQueue_canon (State.touchCheck_canon h))
  · exact State.advanceQueue_canon (State.touchCheck_canon h)
  · exact State.updQueue_canon (State.touchCheck_canon h)
  · exact h
  · exact h
  next l hl =>
    have hw : l.wf = true := State.verdict_wf hl
    have h1 : ((s.touchCheck q true).newId.2.capLaunch l (s.recordAt q)).Canon :=
      State.capLaunch_canon (State.newId_canon (State.touchCheck_canon h))
    exact { State.advanceQueue_canon h1 with
      launches := List.forall_mem_append.2 ⟨h1.launches, List.forall_mem_singleton.2 hw⟩ }

theorem execRecordCheck_canon {k : Nat} (h : s.Canon) : Out.Canon (execRecordCheck k s) := by
  unfold execRecordCheck
  split
  · exact h
  · exact Out.ite_canon (State.carryOut_canon h) (Out.ite_canon (State.capWait_canon h) h)

theorem execWaitRecordPoll_canon {k : Nat} (h : s.Canon) : Out.Canon (execWaitRecordPoll k s) := by
  unfold execWaitRecordPoll
  split
  · exact h
  · exact Out.ite_canon (State.pollWait_canon h) h

theorem execQueueDoorbell_canon {host : Bool} {k : Nat} {tail : Word} (h : s.Canon) :
    Out.Canon (execQueueDoorbell host k tail s) := by
  unfold execQueueDoorbell
  split
  · exact h
  · exact Out.ite_canon (State.queueTail_canon h) h

theorem execQueueResume_canon {host : Bool} {k : Nat} (h : s.Canon) : Out.Canon (execQueueResume host k s) := by
  unfold execQueueResume
  split
  · exact h
  · exact Out.ite_canon (State.queueResume_canon h) h

theorem State.giveWindow_canon {l : Launch} {core : Nat} (h : s.Canon) : (s.giveWindow l core).Canon :=
  have hnew : ∀ w : FrameWin, w.bytes = Memory.empty.setBytes 0 l.overlay0 → w.wf = true := fun w hw => by
    rw [FrameWin.wf, hw]
    exact Memory.setBytes_wf Memory.empty_wf _ _
  State.ite_canon h { h with windows := List.forall_mem_append.2 ⟨h.windows, List.forall_mem_singleton.2 (hnew _ rfl)⟩ }

theorem State.startClean_canon {b : Block} (h : s.Canon) : (s.startClean b).Canon :=
  { h with }

/-- A new block's parts hold nothing. -/
theorem State.newBlock_canon {l : Launch} {col first index slot : Nat} : (s.newBlock l col first index slot).Canon :=
  List.forall_mem_map.2 fun _ _ => ⟨Memory.empty_wf, Memory.empty_wf, Memory.empty_wf, Memory.empty_wf⟩

theorem State.placeBlock_canon {b : Block} {id : Nat} (h : s.Canon) (hb : b.Canon) :
    State.Canon { s.startClean b with blocks := s.blocks ++ [b], nextId := id } :=
  { State.startClean_canon (b := b) h with blocks := List.forall_mem_append.2 ⟨h.blocks, List.forall_mem_singleton.2 hb⟩ }

theorem State.placeComb_canon {l : Launch} {col : Nat} {slots : List Nat} (h : s.Canon) : (s.placeComb l col slots).Canon := by
  unfold State.placeComb
  refine State.updLaunch_canon (foldl_keeps (foldl_keeps h fun _ _ ht => State.giveWindow_canon ht) fun _ _ ht => ?_) fun _ hl =>
    hl
  exact State.placeBlock_canon ht State.newBlock_canon

theorem State.admitComb_canon {l : Launch} {fits : State → Nat → Bool} {t : State} (h : s.Canon)
    (ht : s.admitComb l fits = some t) :
    t.Canon := by
  unfold State.admitComb at ht
  split at ht
  · cases ht
    exact State.placeComb_canon h
  · cases ht

theorem State.placeUnits_canon {b : Nat} (h : s.Canon) : (s.placeUnits b).Canon := by
  unfold State.placeUnits
  split
  · exact h
  · refine foldl_keeps h ?_
    intro _ _ ht
    split
    · exact ht
    · exact State.ite_canon (State.ready_canon ht) ht

theorem State.noteLast_canon {b : Nat} (h : s.Canon) : (s.noteLast b).Canon := by
  unfold State.noteLast
  dsimp only
  split
  · exact h
  · exact { h with }

theorem State.makeResident_canon {b : Nat} (h : s.Canon) : (s.makeResident b).Canon :=
  State.noteLast_canon (State.placeUnits_canon (State.updBlock_canon h fun _ hx => hx))

theorem State.startAll_canon {l : Nat} (h : s.Canon) : (s.startAll l).Canon :=
  foldl_keeps h fun _ _ ht => State.ite_canon (State.makeResident_canon ht) ht

theorem State.admitAll_canon {l n : Nat} {t : State} (h : s.Canon) (ht : State.admitAll l n s = some t) : t.Canon := by
  induction n generalizing s with
  | zero =>
    cases ht
    exact h
  | succ n ih =>
    unfold State.admitAll at ht
    split at ht
    · cases ht
    · split at ht
      · cases ht
      next u hu => exact ih (State.startAll_canon (State.admitComb_canon h hu)) ht

theorem getD_canon {o : Option State} (h : s.Canon) (ho : ∀ t, o = some t → t.Canon) : (o.getD s).Canon :=
  match o, ho with
  | none, _ => h
  | some t, ho => ho t rfl

theorem execCombAdmit_canon {l : Nat} (h : s.Canon) : Out.Canon (execCombAdmit l s) := by
  unfold execCombAdmit
  split
  · exact h
  · refine Out.ite_canon h (getD_canon h fun t ht => ?_)
    split at ht
    · exact State.admitAll_canon h ht
    · exact State.admitComb_canon h ht

theorem execBlockSwitchIn_canon {b : Nat} (h : s.Canon) : Out.Canon (execBlockSwitchIn b s) := by
  unfold execBlockSwitchIn
  dsimp only
  split
  · exact h
  · refine Out.ite_canon ?_ h
    split
    · exact State.slotPark_canon h
    · exact State.makeResident_canon (State.ite_canon (State.readSlot_canon h) h)

theorem execBlockSwitchOut_canon {b : Nat} (h : s.Canon) : Out.Canon (execBlockSwitchOut b s) := by
  unfold execBlockSwitchOut
  dsimp only
  split
  · exact h
  · exact Out.ite_canon (State.updBlock_canon h fun _ hx => hx) h

theorem State.parkSpill_canon {b : Nat} (h : s.Canon) : (s.parkSpill b).Canon := by
  unfold State.parkSpill
  split
  · exact h
  · refine State.ite_canon h ?_
    split
    · exact State.slotPark_canon h
    · exact State.updBlock_canon (State.fillSlot_canon h) fun _ hx => hx

theorem execUnitTakesFreedWay_canon {core part set : Nat} (h : s.Canon) : Out.Canon (execUnitTakesFreedWay core part set s) := by
  unfold execUnitTakesFreedWay
  dsimp only
  split
  · exact h
  · split
    · exact h
    · exact Out.ite_canon h (State.setGroup_canon h)

theorem execYieldHoldEnd_canon {b g u : Nat} (h : s.Canon) : Out.Canon (execYieldHoldEnd b g u s) := by
  unfold execYieldHoldEnd
  dsimp only
  split
  · exact h
  · split
    · exact h
    · split
      · exact h
      · exact Out.ite_canon (State.setGroup_canon h) h

theorem State.beginSave_canon {p : Nat × Nat} (h : s.Canon) : (s.beginSave p).Canon :=
  State.updPart_canon h fun _ hp => { hp with }

theorem State.nextSave_canon (h : s.Canon) : s.nextSave.Canon := by
  unfold State.nextSave
  dsimp only
  split
  · exact State.beginSave_canon h
  · exact h

theorem State.queueSaves_canon {ps : List (Nat × Nat)} {sel : Nat × Nat → DWord} {charge : Word} (h : s.Canon) :
    (s.queueSaves ps sel charge).Canon :=
  State.nextSave_canon (foldl_keeps h fun _ _ ht => State.updPart_canon ht fun _ hp => { hp with })

theorem execCtxsv_canon {f : Fields} (h : s.Canon) : Out.Canon (execCtxsv f s) :=
  State.system_canon h (State.memForm_canon h fun _ _ _ ht => State.commitCur_canon
    (foldl_keeps ht fun _ _ hu => State.updGroup_canon (State.queueSaves_canon hu)))

theorem State.askBack_canon {p : Nat × Nat} (h : s.Canon) : (s.askBack p).Canon := by
  unfold State.askBack
  split
  · exact foldl_keeps h fun _ _ ht => { ht with }
  · exact h

theorem State.beginRestore_canon {p : Nat × Nat} {col : Nat} (h : s.Canon) : (s.beginRestore p col).Canon :=
  State.askBack_canon (State.updPart_canon h fun _ hp => { hp with })

theorem execCtxld_canon {f : Fields} (h : s.Canon) : Out.Canon (execCtxld f s) :=
  State.system_canon h (State.memForm_canon h fun _ _ _ ht => State.commitCur_canon
    (foldl_keeps ht fun _ _ hu => State.updGroup_canon
      (foldl_keeps hu fun _ _ hv => State.beginRestore_canon (State.updPart_canon hv fun _ hp => { hp with }))))

theorem State.postPart_canon {cause : Cause} {ctx : Nat} {sel : DWord} (h : s.Canon) : (s.postPart cause ctx sel).Canon :=
  State.raise_canon h

theorem State.carryMarks_canon {b k : Nat} (h : s.Canon) : (s.carryMarks b k).Canon := by
  unfold State.carryMarks
  dsimp only
  split
  · exact h
  · refine { State.updPart_canon h ?_ with }
    exact fun _ hp => { hp with }

theorem State.bringMarks_canon {b k core slot : Nat} (h : s.Canon) : (s.bringMarks b k core slot).Canon := by
  unfold State.bringMarks
  dsimp only
  split
  · exact h
  · refine { State.updPart_canon h ?_ with }
    exact fun _ hp => { hp with }

theorem execPartSaveDone_canon {b k : Nat} (h : s.Canon) : Out.Canon (execPartSaveDone b k s) := by
  unfold execPartSaveDone
  dsimp only
  split
  · refine Out.ite_canon (State.nextSave_canon h) (Out.ite_canon h ?_)
    split
    · exact State.slotPark_canon h
    · refine State.nextSave_canon (State.iteThen_canon
        (State.postPart_canon (State.updBlock_canon ?_ fun _ hx => ?_)) State.beginRestore_canon)
      · exact { State.fillSlot_canon (State.carryMarks_canon h) with cmds := forall_mem_map_ite h.cmds fun _ _ => Memory.empty_wf }
      · exact forall_mem_updAt (fun _ hp => { hp with }) hx
  · exact h

theorem State.applyRecorded_canon {b : Nat} (h : s.Canon) : (s.applyRecorded b).Canon :=
  foldl_keeps { h with } fun _ _ ht => State.applyAnswer_canon ht

theorem State.putBack_canon {b k : Nat} {l : Launch} {core slot : Nat} (h : s.Canon) : (s.putBack b k l core slot).Canon := by
  have hgiven : ((s.bringMarks b k core slot).giveWindow l core).Canon := State.giveWindow_canon (State.bringMarks_canon h)
  unfold State.putBack
  dsimp only
  split
  · exact State.updBlock_canon hgiven fun _ hx => forall_mem_updAt (fun _ hp => { hp with }) hx
  · refine State.iteThen_canon (State.updBlock_canon (State.updBlock_canon hgiven fun _ hx => ?_) fun _ hx =>
      hx) State.makeResident_canon
    exact forall_mem_updAt (fun _ hp => { hp with }) hx

theorem execPartRestoreDone_canon {b k : Nat} (h : s.Canon) : Out.Canon (execPartRestoreDone b k s) := by
  unfold execPartRestoreDone
  dsimp only
  split
  · split
    · refine Out.ite_canon h ?_
      refine Out.ite_canon ?_ ?_
      · refine Out.ite_canon h ?_
        split
        · exact h
        · exact State.updPart_canon h fun _ hp => { hp with }
      · split
        · exact h
        · refine Out.ite_canon h ?_
          split
          · exact State.slotPark_canon h
          · exact State.postPart_canon (State.applyRecorded_canon (State.putBack_canon (State.readSlot_canon h)))
    · exact h
  · exact h

theorem execPrio7Preempt_canon {l col : Nat} (h : s.Canon) : Out.Canon (execPrio7Preempt l col s) := by
  unfold execPrio7Preempt
  dsimp only
  split
  · exact h
  · refine Out.ite_canon h ?_
    split
    · exact h
    · exact State.queueSaves_canon (State.updLaunch_canon (State.updBlock_canon h fun _ hx => hx) fun _ hl => hl)

theorem State.signalStore_canon {l : Launch} {t : State} (h : s.Canon) (ht : s.signalStore l = some t) : t.Canon := by
  unfold State.signalStore at ht
  split at ht
  · cases ht
  · split at ht
    · cases ht
      exact State.writeLoc_canon (State.snoopOut_canon (State.touch_canon h))
    · cases ht

theorem State.endLaunch_canon {l : Nat} (h : s.Canon) :
    (State.updLaunch { s with windows := s.windows.filter fun (w : FrameWin) => w.launch ≠ l } l fun y =>
      { y with state := .done, consts := .empty, overlay0 := [] }).Canon :=
  State.updLaunch_canon { h with windows := forall_mem_filter h.windows } fun _ _ => Memory.empty_wf

theorem execLaunchFlushDone_canon {l : Nat} (h : s.Canon) : Out.Canon (execLaunchFlushDone l s) := by
  unfold execLaunchFlushDone
  split
  · exact h
  next x _ =>
    refine Out.ite_canon h (State.endLaunch_canon ?_)
    have h1 : (s.updCtx x.ctx fun c => { c with eLast := BitVec.ofNat 64 x.energy }).Canon := State.updCtx_canon h
    have h2 : (if x.signal then (((s.updCtx x.ctx fun c => { c with eLast := BitVec.ofNat 64 x.energy }).signalStore x).map
        State.pollWaits).getD ((s.updCtx x.ctx fun c => { c with eLast := BitVec.ofNat 64 x.energy }).haltQueue x.queue 10)
        else s.updCtx x.ctx fun c => { c with eLast := BitVec.ofNat 64 x.energy }).Canon := by
      refine State.ite_canon (getD_canon (State.haltQueue_canon h1) fun t ht => ?_) h1
      obtain ⟨u, hu, rfl⟩ := Option.map_eq_some_iff.1 ht
      exact State.pollWaits_canon (State.signalStore_canon h1 hu)
    exact State.ite_canon (State.raiseVector_canon h2) h2

end

end Sys2Proof.Machine
end

section
/-!
# Canonical memories: the fabric, reset and faults (O59)

Messages, the host window, reset and what a fault changes.
-/

namespace Sys2Proof.Machine

open Sys2Proof

section
variable {s : State}

theorem State.tick_canon {ns : Nat} (h : s.Canon) : (s.tick ns).Canon :=
  { h with blocks := List.forall_mem_map.2 h.blocks }

theorem execTimecmpReached_canon (h : s.Canon) : Out.Canon (execTimecmpReached s) :=
  Out.ite_canon (State.tick_canon h) h

theorem execTimeSync_canon {err : Nat} (h : s.Canon) : Out.Canon (execTimeSync err s) :=
  Out.ite_canon { h with } h

theorem State.updPort_canon {i : Nat} {f : Port → Port} (h : s.Canon) : (s.updPort i f).Canon :=
  { h with }

theorem execFlitReceive_canon {i : Nat} {ok : Bool} (h : s.Canon) : Out.Canon (execFlitReceive i ok s) :=
  State.updPort_canon h

theorem execLinkDown_canon {i : Nat} (h : s.Canon) : Out.Canon (execLinkDown i s) :=
  State.updPort_canon h

theorem execLinkRekey_canon {i : Nat} (h : s.Canon) : Out.Canon (execLinkRekey i s) :=
  State.updPort_canon h

theorem execLinkUp_canon {i : Nat} {peer : BitVec 16} {lanes : Nat} {att : Bool} (h : s.Canon) :
    Out.Canon (execLinkUp i peer lanes att s) :=
  Out.ite_canon h (State.updPort_canon h)

theorem execSledNumberReport_canon {n slot : Nat} (h : s.Canon) : Out.Canon (execSledNumberReport n slot s) :=
  Out.ite_canon { h with } h

theorem execFabricJoin_canon {dev : BitVec 11} {time : Nat} {auth : Bool} (h : s.Canon) :
    Out.Canon (execFabricJoin dev time auth s) :=
  Out.ite_canon h (Out.ite_canon { h with } (Out.ite_canon h { h with }))

theorem execJobKeyAccept_canon {p : BitVec 3} {job : BitVec 16} {retire : Bool} (h : s.Canon) :
    Out.Canon (execJobKeyAccept p job retire s) :=
  State.updTenant_canon h

theorem State.hostMailbox_canon {i : Nat} {x mask : DWord} (h : s.Canon) : (s.hostMailbox i x mask).Canon :=
  State.ite_canon { h with } (State.ite_canon (State.setPend_canon { h with }) h)

theorem State.barWrite_canon {off size : Nat} {val : DWord} (h : s.Canon) : (s.barWrite off size val).Canon := by
  unfold State.barWrite
  refine State.ite_canon (State.queueWrite_canon h) (State.ite_canon (State.hostMailbox_canon h) (State.ite_canon ?_ h))
  exact { h with msix := Memory.write_wf h.msix _ _ _ }

theorem State.barRead_canon {off size : Nat} (h : s.Canon) : (s.barRead off size).Canon :=
  { h with }

theorem State.hostTrain_canon {features : Bool} (h : s.Canon) : (s.hostTrain features).Canon :=
  { h with }

theorem State.peerAnswers_canon {dev : Nat} {answers : Bool} (h : s.Canon) : (s.peerAnswers dev answers).Canon :=
  { h with }

theorem execRegisterWrite_canon {host : Bool} {a size : Nat} {val : DWord} (h : s.Canon) :
    Out.Canon (execRegisterWrite host a size val s) := by
  unfold execRegisterWrite
  refine Out.ite_canon h ?_
  refine Out.ite_canon (State.ite_canon (State.barWrite_canon h) h) ?_
  split
  · exact Out.ite_canon (State.ctlWrite_canon h) h
  · exact h

theorem execHostMailboxWrite_canon {i : BitVec 3} {x : DWord} (h : s.Canon) : Out.Canon (execHostMailboxWrite i x s) :=
  State.ite_canon (State.hostMailbox_canon h) h

theorem State.corrected_canon {n : Nat} (h : s.Canon) : (s.corrected n).Canon :=
  { h with }

theorem State.poisonUnit_canon {kind a : Nat} (h : s.Canon) : (s.poisonUnit kind a).Canon := by
  unfold State.poisonUnit
  refine State.ite_canon { h with } ?_
  refine State.ite_canon (State.corrected_canon h) ?_
  refine State.ite_canon ?_ (State.ite_canon { h with } { h with })
  dsimp only
  split
  · exact State.failCmd_canon { h with }
  · exact { h with }

theorem State.frameError_canon {launch core line : Nat} (h : s.Canon) : (s.frameError launch core line).Canon :=
  { h with windows := forall_mem_map_ite h.windows fun _ hw => Memory.write_wf hw _ _ _ }

theorem execPatrolScrub_canon {n : Nat} {bad : Option Nat} (h : s.Canon) : Out.Canon (execPatrolScrub n bad s) := by
  unfold execPatrolScrub
  refine Out.ite_canon h ?_
  dsimp only
  split
  · exact Out.ite_canon (State.poisonUnit_canon (State.corrected_canon h)) (State.corrected_canon h)
  · exact State.corrected_canon h

theorem execAgingMonitor_canon {margins : List Byte} {core : Nat} (h : s.Canon) :
    Out.Canon (execAgingMonitor margins core s) := by
  unfold execAgingMonitor
  dsimp only
  split
  · exact h
  · exact Out.ite_canon { h with } h

theorem execReplayTimeout_canon (h : s.Canon) : Out.Canon (execReplayTimeout s) := by
  unfold execReplayTimeout
  dsimp only
  split
  next _ r _ _ => exact Out.ite_canon { State.capDiverges_canon (ctx := leAt r 1 1 % 64) h with } h
  · exact h

/-- Every memory of the reset state is empty. -/
theorem State.reset_canon : State.reset.Canon :=
  { mem := Memory.empty_wf, hostMem := Memory.empty_wf, peerMem := Memory.empty_wf, scratch := Memory.empty_wf, msix := Memory.empty_wf
    blocks := nofun, windows := nofun, cmds := nofun, launches := nofun }

theorem State.bringUp_canon {image : List Byte} {signed : Bool} (h : s.Canon) : (s.bringUp image signed).Canon := by
  unfold State.bringUp
  refine State.ite_canon ?_ ?_
  · exact { State.reset_canon with hostMem := h.hostMem, peerMem := h.peerMem, mem := Memory.setBytes_wf Memory.empty_wf _ _ }
  · exact { State.reset_canon with hostMem := h.hostMem, peerMem := h.peerMem }

theorem execDeviceReset_canon {image : List Byte} {signed : Bool} (h : s.Canon) : Out.Canon (execDeviceReset image signed s) :=
  Out.ite_canon h (State.bringUp_canon h)

theorem execPowerRestoreRequest_canon {image : List Byte} {signed : Bool} (h : s.Canon) :
    Out.Canon (execPowerRestoreRequest image signed s) := by
  unfold execPowerRestoreRequest
  split
  · exact Out.ite_canon (State.bringUp_canon h) h
  · exact h

end

end Sys2Proof.Machine
end

section
/-!
# Canonical memories: cross-lane instructions (O59)

Exchanges and reductions within a group.
-/

namespace Sys2Proof.Machine

open Sys2Proof

section
variable {s : State}

theorem State.crossLane_canon {op : Nat} {f : Fields} {c : Ctx} {wide : Bool} {suppliers : List Nat} {act : Group → Nat → Group}
    (h : s.Canon) :
    Yields State.Canon (s.crossLane op f c wide suppliers act) := by
  unfold State.crossLane
  dsimp only
  split
  · exact State.parkUnit_canon h
  · split
    · exact guardGroup_canon (State.commit_canon h)
    · exact guardTraps_canon (State.commit_canon h)

theorem State.quadOp_canon {op : Nat} {f : Fields} {src : State → Ctx → Nat → Nat} (h : s.Canon) :
    Out.Canon (s.quadOp op f src) := by
  unfold State.quadOp
  refine State.finish_canon h ?_
  dsimp only
  split
  · exact h
  · split
    · exact State.commit_canon h
    · split
      · exact State.parkUnit_canon h
      · exact guardTraps_canon (State.commit_canon h)

theorem execQswp_canon {f : Fields} (h : s.Canon) : Out.Canon (execQswp f s) :=
  State.quadOp_canon h

theorem execQbc_canon {f : Fields} (h : s.Canon) : Out.Canon (execQbc f s) :=
  State.quadOp_canon h

theorem execGshf_canon {f : Fields} (h : s.Canon) : Out.Canon (execGshf f s) := by
  unfold execGshf
  refine State.finish_canon h ?_
  dsimp only
  split
  · exact h
  · exact State.crossLane_canon h

theorem execGvote_canon {f : Fields} (h : s.Canon) : Out.Canon (execGvote f s) := by
  unfold execGvote
  refine State.finish_canon h ?_
  dsimp only
  split
  · exact h
  · exact State.crossLane_canon h

theorem execGred_canon {f : Fields} (h : s.Canon) : Out.Canon (execGred f s) := by
  unfold execGred
  refine State.finish_canon h ?_
  split
  · exact h
  · exact State.crossLane_canon h

theorem execGscan_canon {f : Fields} (h : s.Canon) : Out.Canon (execGscan f s) := by
  unfold execGscan
  refine State.finish_canon h ?_
  split
  · exact h
  · exact State.crossLane_canon h

theorem execGmatch_canon {f : Fields} (h : s.Canon) : Out.Canon (execGmatch f s) := by
  unfold execGmatch
  refine State.finish_canon h ?_
  dsimp only
  split
  · exact h
  · exact State.crossLane_canon h

theorem execPlog_canon {f : Fields} (h : s.Canon) : Out.Canon (execPlog f s) :=
  State.finish_canon h (State.perThread_canon h)

theorem execPmovGet_canon {f : Fields} (h : s.Canon) : Out.Canon (execPmovGet f s) :=
  State.finish_canon h (State.perThread_canon h)

theorem execPmovSet_canon {f : Fields} (h : s.Canon) : Out.Canon (execPmovSet f s) :=
  State.finish_canon h (State.perThread_canon h)

end

end Sys2Proof.Machine
end

section
/-!
# Canonical memories: every instruction (O59)

One case for each constructor of `Instr`; an instruction that is an instance of a shared form is settled by the form.
-/

namespace Sys2Proof.Machine

open Sys2Proof

section
variable {s : State}

/-- What an instruction, or a step of another agent, ends in is canonical. -/
theorem exec_canon {i : Instr} (h : s.Canon) : Out.Canon (exec i s) :=
  match i with
  | .iadd _ => execIadd_canon h
  | .iaddc _ => execIaddc_canon h
  | .isub _ => execIsub_canon h
  | .imul _ => execImul_canon h
  | .imulh _ => execImulh_canon h
  | .imad _ => execImad_canon h
  | .imin _ => execImin_canon h
  | .imax _ => execImax_canon h
  | .iabs _ => execIabs_canon h
  | .logic _ => execLogic_canon h
  | .shl _ => execShl_canon h
  | .shr _ => execShr_canon h
  | .rot _ => execRot_canon h
  | .bfx _ => execBfx_canon h
  | .bfi _ => execBfi_canon h
  | .popc _ => execPopc_canon h
  | .clz _ => execClz_canon h
  | .brev _ => execBrev_canon h
  | .icmp _ => execIcmp_canon h
  | .idot4 _ => execIdot4_canon h
  | .fadd _ => execFadd_canon h
  | .fmul _ => execFmul_canon h
  | .ffma _ => execFfma_canon h
  | .fmin _ => execFmin_canon h
  | .fmax _ => execFmax_canon h
  | .fcmp _ => execFcmp_canon h
  | .fclass _ => execFclass_canon h
  | .frcp _ => execFrcp_canon h
  | .frsq _ => execFrsq_canon h
  | .fsqrt _ => execFsqrt_canon h
  | .fexp2 _ => execFexp2_canon h
  | .flog2 _ => execFlog2_canon h
  | .sinr _ => execSinr_canon h
  | .cosr _ => execCosr_canon h
  | .fscale _ => execFscale_canon h
  | .ffrac _ => execFfrac_canon h
  | .pkfma _ => execPkfma_canon h
  | .pkadd _ => execPkadd_canon h
  | .pkmul _ => execPkmul_canon h
  | .mov _ => execMov_canon h
  | .movi _ => execMovi_canon h
  | .movih _ => execMovih_canon h
  | .sel _ => execSel_canon h
  | .bysel _ => execBysel_canon h
  | .cvt _ => execCvt_canon h
  | .pack _ => execPack_canon h
  | .unpk _ => execUnpk_canon h
  | .vldx _ => execVldx_canon h
  | .vstx _ => execVstx_canon h
  | .rdsp _ => execRdsp_canon h
  | .qswp _ => execQswp_canon h
  | .qbc _ => execQbc_canon h
  | .gshf _ => execGshf_canon h
  | .gvote _ => execGvote_canon h
  | .gred _ => execGred_canon h
  | .gscan _ => execGscan_canon h
  | .gmatch _ => execGmatch_canon h
  | .plog _ => execPlog_canon h
  | .pmovGet _ => execPmovGet_canon h
  | .pmovSet _ => execPmovSet_canon h
  | .bra _ => execBra_canon h
  | .brx _ => execBrx_canon h
  | .call _ => execCall_canon h
  | .callx _ => execCallx_canon h
  | .ret _ => execRet_canon h
  | .loop _ => execLoop_canon h
  | .loopb _ => execLoopb_canon h
  | .exit _ => execExit_canon h
  | .kill _ => execKill_canon h
  | .jset _ => execJset_canon h
  | .jwait _ => execJwait_canon h
  | .jdrop _ => execJdrop_canon h
  | .yieldI _ => execYield_canon h
  | .nop _ => execNop_canon h
  | .brk _ => execBrk_canon h
  | .ovmap _ => execOvmap_canon h
  | .trapu _ => execTrapu_canon h
  | .ld _ => execLd_canon h
  | .st _ => execSt_canon h
  | .lds _ => execLds_canon h
  | .sts _ => execSts_canon h
  | .ldk _ => execLdk_canon h
  | .atom _ => execAtom_canon h
  | .atoms _ => execAtoms_canon h
  | .red _ => execRed_canon h
  | .pref _ => execPref_canon h
  | .pin _ => execPin_canon h
  | .unpin _ => execUnpin_canon h
  | .reclaim _ => execReclaim_canon h
  | .fsys _ => execFsys_canon h
  | .binit _ => execBinit_canon h
  | .barv _ => execBarv_canon h
  | .bexp _ => execBexp_canon h
  | .bwait _ => execBwait_canon h
  | .btest _ => execBtest_canon h
  | .brst _ => execBrst_canon h
  | .htest _ => execHtest_canon h
  | .hcancel _ => execHcancel_canon h
  | .cwait _ => execCwait_canon h
  | .xcopy _ => execXcopy_canon h
  | .xgath _ => execXgath_canon h
  | .xscat _ => execXscat_canon h
  | .xfill _ => execXfill_canon h
  | .xpub _ => execXpub_canon h
  | .coll _ => execColl_canon h
  | .cseq _ => execCseq_canon h
  | .bld _ => execBld_canon h
  | .bldReg _ => execBldReg_canon h
  | .mmaq _ => execMmaq_canon h
  | .mmas _ => execMmas_canon h
  | .acalloc _ => execAcalloc_canon h
  | .acfree _ => execAcfree_canon h
  | .aczero _ => execAczero_canon h
  | .acrd _ => execAcrd_canon h
  | .acwr _ => execAcwr_canon h
  | .scacc _ => execScacc_canon h
  | .cbld _ => execCbld_canon h
  | .burn _ => execBurn_canon h
  | .shunt _ => execShunt_canon h
  | .balq _ => execBalq_canon h
  | .plreq _ => execPlreq_canon h
  | .enrd _ => execEnrd_canon h
  | .csrr _ => execCsrr_canon h
  | .csrw _ => execCsrw_canon h
  | .eret _ => execEret_canon h
  | .wfi _ => execWfi_canon h
  | .sev _ => execSev_canon h
  | .intack _ => execIntack_canon h
  | .tlbinvCtx _ => execTlbinvCtx_canon h
  | .tlbinvPage _ => execTlbinvPage_canon h
  | .ctxsv _ => execCtxsv_canon h
  | .ctxld _ => execCtxld_canon h
  | .tokxf _ => execTokxf_canon h
  | .capmk _ => execCapmk_canon h
  | .loadComplete _ _ _ _ => execLoadComplete_canon h
  | .storePerformed _ _ _ => execStorePerformed_canon h
  | .matrixComplete _ _ => execMatrixComplete_canon h
  | .unitTakesFreedWay _ _ _ => execUnitTakesFreedWay_canon h
  | .yieldHoldEnd _ _ _ => execYieldHoldEnd_canon h
  | .engineSourceRead _ _ _ => execEngineSourceRead_canon h
  | .enginePublish _ => execEnginePublish_canon h
  | .holdSetPublish _ => execHoldSetPublish_canon h
  | .commandFail _ _ => execCommandFail_canon h
  | .commandCancel _ => execCommandCancel_canon h
  | .collHashMatch _ _ => execCollHashMatch_canon h
  | .collShardPublish _ _ => execCollShardPublish_canon h
  | .collMemberFailure _ _ _ _ => execCollMemberFailure_canon h
  | .collMemberLeaves _ _ _ => execCollMemberLeaves_canon h
  | .collectiveFlitArrival _ _ _ _ _ _ => execCollectiveFlitArrival_canon h
  | .backlogReplay _ => execBacklogReplay_canon h
  | .backlogTimeout _ _ _ _ => execBacklogTimeout_canon h
  | .reductionSwitchLeaves _ => execReductionSwitchLeaves_canon h
  | .pinQuery _ _ _ => execPinQuery_canon h
  | .freeRingAppend _ _ => execFreeRingAppend_canon h
  | .ringAppendRetry _ => execRingAppendRetry_canon h
  | .pageWalk _ _ => execPageWalk_canon h
  | .remoteAccess _ _ _ _ _ _ => execRemoteAccess_canon h
  | .fabricTimeout _ _ => execFabricTimeout_canon h
  | .hostMemAccess _ _ _ _ _ => execHostMemAccess_canon h
  | .acmEvict _ _ => execAcmEvict_canon h
  | .acmGrant _ _ => execAcmGrant_canon h
  | .acmSpillDone _ _ _ => execAcmSpillDone_canon h
  | .acmRestore _ _ _ => execAcmRestore_canon h
  | .eventPost _ => execEventPost_canon h
  | .blkctlResume _ => execBlkctlResume_canon h
  | .blkctlSkip _ => execBlkctlSkip_canon h
  | .blkctlKill _ => execBlkctlKill_canon h
  | .interruptEntry => execInterruptEntry_canon h
  | .timecmpReached => execTimecmpReached_canon h
  | .partSaveDone _ _ => execPartSaveDone_canon h
  | .partRestoreDone _ _ => execPartRestoreDone_canon h
  | .queueDoorbell _ _ _ => execQueueDoorbell_canon h
  | .queueResume _ _ => execQueueResume_canon h
  | .recordCheck _ => execRecordCheck_canon h
  | .waitRecordPoll _ => execWaitRecordPoll_canon h
  | .combAdmit _ => execCombAdmit_canon h
  | .blockSwitchOut _ => execBlockSwitchOut_canon h
  | .blockSwitchIn _ => execBlockSwitchIn_canon h
  | .prio7Preempt _ _ => execPrio7Preempt_canon h
  | .launchFlushDone _ => execLaunchFlushDone_canon h
  | .partitionReset _ => execPartitionReset_canon h
  | .partitionResetDone _ => execPartitionResetDone_canon h
  | .swmatrixWrite _ _ => execSwmatrixWrite_canon h
  | .balanceSample _ _ _ _ _ => execBalanceSample_canon h
  | .imbalRelease _ => execImbalRelease_canon h
  | .levelChange _ => execLevelChange_canon h
  | .cohortWrite _ _ => execCohortWrite_canon h
  | .cohortLevelAdopt _ => execCohortLevelAdopt_canon h
  | .tokenWindowEnd => execTokenWindowEnd_canon h
  | .mint _ => execMint_canon h
  | .waggleAccept _ _ => execWaggleAccept_canon h
  | .waggleAck _ => execWaggleAck_canon h
  | .tokret _ => execTokret_canon h
  | .thermalPoll _ => execThermalPoll_canon h
  | .thrcfgWrite _ _ => execThrcfgWrite_canon h
  | .ctxidWrite _ _ => execCtxidWrite_canon h
  | .clrpois _ => execClrpois_canon h
  | .patrolScrub _ _ => execPatrolScrub_canon h
  | .serdesCalibration _ => h
  | .diodeCalibration _ => execDiodeCalibration_canon h
  | .agingMonitor _ _ => execAgingMonitor_canon h
  | .replayTimeout => execReplayTimeout_canon h
  | .hostMailboxWrite _ _ => execHostMailboxWrite_canon h
  | .mgmtMailboxWrite _ _ => execMgmtMailboxWrite_canon h
  | .collGroupOpen _ _ _ => execCollGroupOpen_canon h
  | .jobRegisterWrite _ _ => execJobRegisterWrite_canon h
  | .jobKeyAccept _ _ _ => execJobKeyAccept_canon h
  | .flitReceive _ _ => execFlitReceive_canon h
  | .linkDown _ => execLinkDown_canon h
  | .linkRekey _ => execLinkRekey_canon h
  | .linkUp _ _ _ _ => execLinkUp_canon h
  | .sledNumberReport _ _ => execSledNumberReport_canon h
  | .fabricJoin _ _ _ => execFabricJoin_canon h
  | .timeSync _ => execTimeSync_canon h
  | .deviceReset _ _ => execDeviceReset_canon h
  | .powerRestoreRequest _ _ => execPowerRestoreRequest_canon h
  | .readToClear _ _ _ => execReadToClear_canon h
  | .registerWrite _ _ _ _ => execRegisterWrite_canon h
  | .ballastRequestExpiry _ _ => execBallastRequestExpiry_canon h
  | .shuntReservationExpiry _ _ => execShuntReservationExpiry_canon h
  | .reclaimSearchComplete _ _ => execReclaimSearchComplete_canon h
  | .slopeLimitRamp _ _ => execSlopeLimitRamp_canon h

end

end Sys2Proof.Machine
end

section
/-!
# Canonical memories: issue and the step (O59)

Units, pairs, entries, the issue former and the agenda.
-/

namespace Sys2Proof.Machine

open Sys2Proof

section
variable {s : State}

theorem State.tidy_canon (h : s.Canon) : s.tidy.Canon := by
  have h1 : State.Canon { s with fresh := s.fresh + 1 } := { h with }
  have h2 := State.drawFor_canon (k := 64) h1
  exact { h2 with }

theorem tidyOut_canon {o : Out} (ho : Out.Canon o) : Out.Canon (tidyOut o) :=
  match o, ho with
  | .next _, ho => State.tidy_canon ho
  | .fault _, _ => trivial
  | .refused _, _ => trivial

theorem State.backTrap_canon {c : Ctx} {back : List Nat} (h : s.Canon) : (s.backTrap c back).Canon :=
  State.takeTrap_canon h

theorem State.unback_canon {ls : List (Nat × Word)} {b : Nat} (h : s.Canon) : (s.unback ls b).Canon :=
  foldl_keeps h fun _ _ ht => State.updGroup_canon ht

theorem State.confine_canon {c : Ctx} {o : Out} (h : s.Canon) (ho : Out.Canon o) : Out.Canon (s.confine c o) := by
  match o, ho with
  | .next t, ho =>
    refine Out.ite_canon ho ?_
    split
    · exact State.takeTrap_canon h
    · exact ho
  | .fault _, _ => trivial
  | .refused _, _ => trivial

theorem State.issueCur_canon (h : s.Canon) : Out.Canon s.issueCur := by
  unfold State.issueCur
  split
  · exact h
  · refine Out.ite_canon (State.takeTrap_canon h) (Out.ite_canon (State.finish_canon h (State.overlayTrap_canon h))
      (Out.ite_canon (State.backTrap_canon h) ?_))
    split
    · exact State.takeTrap_canon h
    · split
      · exact State.takeTrap_canon h
      · exact State.confine_canon h (exec_canon h)

theorem State.aim_canon {p : Placed} {ip : DWord} (h : s.Canon) : (s.aim p ip).Canon :=
  { h with }

theorem State.widenEvent_canon {ps : List Placed} {p : Placed} (h : s.Canon) : (s.widenEvent ps p).Canon := by
  unfold State.widenEvent
  dsimp only
  split
  · exact h
  · exact State.ite_canon (State.unback_canon { h with }) { h with }

theorem State.noteHeld_canon {t : State} {p : Placed} (ht : t.Canon) : (s.noteHeld t p).Canon := by
  unfold State.noteHeld
  dsimp only
  split
  · exact State.ite_canon (State.setGroup_canon ht) ht
  · exact ht

theorem State.runApart_canon {run : State → Placed → Out} {t : State} {p : Placed}
    (hrun : ∀ t p, State.Canon t → Out.Canon (run t p))
    (ht : t.Canon) : Out.Canon (s.runApart run t p) := by
  have hbefore : Out.Canon (run { t with windows := t.windows.map fun (w : FrameWin) => { w with loading := s.loadingOf w } } p) :=
    hrun _ _ { ht with windows := List.forall_mem_map.2 ht.windows }
  unfold State.runApart
  dsimp only
  split
  next u hu =>
    rw [hu] at hbefore
    exact { hbefore with windows := List.forall_mem_map.2 hbefore.windows }
  · exact hbefore

theorem State.runUnits_canon {ps : List Placed} {run : State → Placed → Out} (h : s.Canon)
    (hrun : ∀ t p, State.Canon t → Out.Canon (run t p)) : (s.runUnits ps run).1.Canon := by
  refine foldl_fst_canon h fun acc p hacc => ?_
  have hp := hrun acc.1 p hacc
  split
  next t ht =>
    rw [ht] at hp
    split
    · split <;> exact { hp with }
    · exact State.noteHeld_canon hp
  · exact hacc

theorem State.ovmapTogether_canon {r : State} {ps : List Placed} (h : s.Canon) (hr : r.Canon) : (s.ovmapTogether r ps).Canon := by
  unfold State.ovmapTogether
  refine State.ite_canon h ?_
  dsimp only
  split
  · exact hr
  · exact { hr with windows := (State.mapOverlays_canon h).windows }

theorem State.issueUnits_canon {ps : List Placed} {run : State → Placed → Out} (h : s.Canon)
    (hrun : ∀ t p, State.Canon t → Out.Canon (run t p)) : Out.Canon (s.issueUnits ps run) := by
  have halone : ∀ (c : Prop) [Decidable c], ∀ t p, State.Canon t → Out.Canon ((if c then s.runApart run else run) t p) := by
    intro c _ t p ht
    split
    · exact State.runApart_canon hrun ht
    · exact hrun t p ht
  unfold State.issueUnits
  dsimp only
  split
  · exact Out.ite_canon (State.runUnits_canon h (halone _))
      (State.ite_canon (State.ovmapTogether_canon h (State.runUnits_canon h (halone _))) (State.runUnits_canon h (halone _)))
  next x p _ =>
    refine Out.ite_canon (State.runUnits_canon h (halone _)) ?_
    have hp := hrun s p h
    split
    next t ht =>
      rw [ht] at hp
      exact State.ite_canon hp (State.widenEvent_canon hp)
    · exact hp

theorem runOne_canon {p : Placed} (h : s.Canon) : Out.Canon (runOne s p) :=
  State.issueCur_canon (State.aim_canon h)

theorem State.issueSecond_canon {j : Instr} (h : s.Canon) : Out.Canon (s.issueSecond j) := by
  unfold State.issueSecond
  split
  · split
    · exact State.takeTrap_canon h
    · exact exec_canon h
  · exact exec_canon h

theorem State.withPairRead_canon {r : Option (Group × Bool)} (h : s.Canon) : State.Canon { s with pairRead := r } :=
  { h with }

theorem runPair_canon {p : Placed} (h : s.Canon) : Out.Canon (runPair s p) := by
  have ha := State.aim_canon (p := p) (ip := p.unit.ip) h
  unfold runPair
  dsimp only
  split
  next c i j _ _ =>
    refine Out.ite_canon (State.parkLanes_canon ha) ?_
    have hi := exec_canon (i := i) (State.withPairRead_canon (r := some (c.g, true)) ha)
    split
    next t ht =>
      rw [ht] at hi
      refine Out.ite_canon hi (Out.ite_canon (State.setRequests_canon ha) ?_)
      have hj := State.issueSecond_canon (j := j)
        (State.withPairRead_canon (r := some (c.g, false)) (State.aim_canon (p := p) (ip := nextSlot p.unit.ip) hi))
      split
      next u hu =>
        rw [hu] at hj
        split
        · exact State.takeTrap_canon (State.withPairRead_canon ha)
        · exact Out.ite_canon (State.setRequests_canon ha)
            (State.confine_canon (State.withPairRead_canon ha) (State.withPairRead_canon hj))
      · exact hj
    · exact hi
  · exact State.issueCur_canon ha

theorem State.countSlots_canon {ps : List Placed} {n : Nat} {t : State} (ht : t.Canon) : (s.countSlots ps n t).Canon := by
  have h1 : (ps.foldl (fun (t : State) q => t.updBlock q.block fun b => { b with idle := 0 }) t).Canon :=
    foldl_keeps ht fun _ _ hu => State.updBlock_canon hu fun _ hx => hx
  unfold State.countSlots
  split
  · exact ht
  · exact State.ite_canon ht { h1 with }

theorem State.issueAs_canon {ps : List Placed} {pair : Bool} (h : s.Canon) : Out.Canon (s.issueAs ps pair) := by
  have hu : Out.Canon (s.issueUnits ps (if pair then runPair else runOne)) := by
    refine State.issueUnits_canon h fun t p ht => ?_
    split
    · exact runPair_canon ht
    · exact runOne_canon ht
  unfold State.issueAs
  split
  next t ht =>
    rw [ht] at hu
    exact State.countSlots_canon hu
  · exact hu

theorem State.issueEntry_canon {ps : List Placed} (h : s.Canon) : Out.Canon (s.issueEntry ps) :=
  State.issueAs_canon h

theorem State.form_canon {core part : Nat} (h : s.Canon) : Out.Canon (s.form core part) := by
  unfold State.form
  split
  · exact h
  next ps _ =>
    refine Out.ite_canon (State.issueAs_canon h) ?_
    have hps := State.issueAs_canon (ps := ps) (pair := false) h
    dsimp only
    split
    next t _ ht _ =>
      rw [ht] at hps
      exact State.issueEntry_canon hps
    · exact hps

theorem State.mgmtAct_canon (h : s.Canon) : Out.Canon s.mgmtAct := by
  unfold State.mgmtAct
  refine Out.ite_canon h ?_
  refine Out.ite_canon (execInterruptEntry_canon h) ?_
  split
  · exact h
  · exact Out.ite_canon h (State.issueCur_canon { h with })

theorem State.disagree_canon {here code : Nat} (h : s.Canon) : (s.disagree here code).Canon :=
  State.ite_canon { h with } (State.ite_canon h (State.ite_canon { h with } { h with }))

theorem State.act_canon {a : Action} (h : s.Canon) : Out.Canon (s.act a) :=
  match a with
  | .mgmt => State.mgmtAct_canon h
  | .entry _ _ _ _ => State.issueEntry_canon h
  | .former _ _ => State.form_canon h
  | .event _ => Out.ite_canon (exec_canon (State.drawFor_canon h)) h
  | .tick _ => State.tick_canon h
  | .hostStore _ _ _ => { h with hostMem := Memory.write_wf h.hostMem _ _ _ }
  | .poison _ _ => State.poisonUnit_canon h
  | .corrected _ => State.corrected_canon h
  | .hostSetup _ _ => { h with }
  | .matrixRead _ _ => State.acrdRead_canon h
  | .traffic _ _ _ _ => State.ite_canon h (State.withCaches_canon h)
  | .hostCache _ => State.ite_canon { h with } h
  | .hostTrain _ => State.hostTrain_canon h
  | .hostRead _ _ => State.ite_canon (State.barRead_canon h) h
  | .msixSent _ => { h with }
  | .peer _ _ => State.peerAnswers_canon h
  | .frameError _ _ _ => State.frameError_canon h
  | .parkSpill _ => State.ite_canon (State.parkSpill_canon h) h
  | .checker _ _ => State.disagree_canon h

theorem State.placeFetch_canon {w : Nat} (h : s.Canon) : (s.placeFetch w).Canon :=
  { h with mem := Memory.write_wf h.mem _ _ _ }

theorem step_canon {t : State} (h : s.Canon) (ht : step s = .next t) : t.Canon := by
  have hs : Out.Canon (step s) := by
    unfold step
    split
    · exact Out.ite_canon trivial (tidyOut_canon (State.act_canon h))
    · exact tidyOut_canon (State.act_canon { h with })
  rw [ht] at hs
  exact hs

end

/-- Settles O59: every operation writes memories only by writes that keep the canonical form (`exec_canon`, `State.act_canon`). -/
theorem stepsKeepMemoriesCanonical : Obligations.StepsKeepMemoriesCanonical :=
  fun _ _ hs ht => State.memoriesWf_iff.2 (step_canon (State.memoriesWf_iff.1 hs) ht)

end Sys2Proof.Machine
end

section
/-!
# The events of an engine command (O33)

Each event is one decision on the state: its conditions are put in, and the branch that is left is the effect. Two of them need
more than that: a range of the source stream is read byte by byte (`State.readRange_eq`), and the first command of a set to
fail is the least of a fold (`foldl_failsFirst`).
-/

namespace Sys2Proof.Machine

open Sys2Proof

theorem State.running?_spec {s : State} {id : Nat} {q : Cmd} (h : s.running? id = some q) :
    q ∈ s.cmds ∧ q.id = id ∧ q.state = .running := by
  have hq := List.find?_some h
  simp only [Bool.and_eq_true, decide_eq_true_eq] at hq
  exact ⟨List.mem_of_find?_eq_some h, hq⟩

/-- A running command is still to complete. -/
theorem State.undone_of_running {s : State} {id : Nat} {q : Cmd} (h : s.running? id = some q) : s.undone q.id = true := by
  obtain ⟨hmem, -, hrun⟩ := State.running?_spec h
  simp only [State.undone, List.any_eq_true, Bool.and_eq_true, decide_eq_true_eq]
  exact ⟨q, hmem, rfl, hrun⟩

/-! ## Reading the source stream -/

/-- A range is read where each of its bytes is. -/
theorem State.readRange_eq {s : State} {q : Cmd} {off : Nat} {bytes : List Byte}
    (h : ∀ k, k < bytes.length → s.readSrc q (s.srcAt q (off + k)) = .ok (bytes.getD k 0)) :
    s.readRange q off bytes.length = some bytes := by
  induction bytes generalizing off with
  | nil => rfl
  | cons b bs ih =>
    have hhead : s.readSrc q (s.srcAt q off) = .ok b := h 0 (Nat.succ_pos _)
    have htail : s.readRange q (off + 1) bs.length = some bs := ih fun k hk => by
      rw [Nat.add_assoc, Nat.add_comm 1]
      exact h (k + 1) (Nat.succ_lt_succ hk)
    simp only [List.length_cons, State.readRange, hhead, htail]

/-- A range can be read where each of its bytes can be. -/
theorem State.readable_iff {s : State} {q : Cmd} {off len : Nat} : s.readable q off len = true ↔
    ∀ k, k < len → q.knows (off + k) = true ∧ q.hasRead (off + k) 1 = false ∧ s.srcThere q (s.srcAt q (off + k)) = true := by
  simp only [State.readable, List.all_eq_true, List.mem_range, Bool.and_eq_true, Bool.not_eq_true', and_assoc]

/-- The bytes of a range that can be read enter the command's data, with their lookups. -/
theorem exec_engineSourceRead {s : State} {id off len : Nat} {q : Cmd} {bytes : List Byte} (hq : s.running? id = some q)
    (hthere : s.cmdThere q = true) (hpos : 0 < len) (hmax : len ≤ 256) (hend : off + len ≤ q.total)
    (hreadable : s.readable q off len = true) (hbytes : s.readRange q off len = some bytes) :
    exec (.engineSourceRead id off len) s = .next
      ((s.touchSources q off len).updCmd id fun k => { k with data := k.data.setBytes off bytes, read := (off, len) :: k.read }) := by
  show execEngineSourceRead id off len s = _
  unfold execEngineSourceRead
  simp [hq, hthere, hreadable, hbytes, Nat.pos_iff_ne_zero.1 hpos, Nat.not_lt.2 hmax, Nat.not_lt.2 hend]

/-! ## Failing -/

/-- A failure that replay does not hold back takes effect. -/
theorem State.failHeld_eq {s : State} {q : Cmd} {code : Nat} (h : s.failWaits q code = false) :
    s.failHeld q code = s.failCmd q code none := by
  simp [State.failHeld, h]

/-- A failure that replay holds back waits for its record. -/
theorem State.failHeld_waits {s : State} {q : Cmd} {code : Nat} (h : s.failWaits q code = true) :
    s.failHeld q code = s.capWait (s.failRecord q code) := by
  simp [State.failHeld, h]

/-- An XPUB that fails abandons the running commands of its set. -/
theorem State.failCmd_pub {s : State} {q : Cmd} {code : Nat} (hq : s.undone q.id = true) (hkind : q.kind = .pub) :
    s.failCmd q code none =
      (((s.holdSet q).filter fun k => decide (k.state = .running)).foldl (fun t k => t.endCmd k 6 0 true) s).endCmd
        q code 0 true := by
  simp only [State.failCmd, hq, hkind]
  rfl

theorem exec_commandFail_check {s : State} {id pos code : Nat} {q : Cmd} (hq : s.running? id = some q) (hthere : s.cmdThere q = true)
    (hlater : s.lossLater q = false) (hcheck : s.cmdCheck q = some code) :
    exec (.commandFail id pos) s = .next (s.failHeld q code) := by
  show execCommandFail id pos s = _
  unfold execCommandFail
  simp [hq, hthere, hlater, hcheck]

theorem exec_commandFail_read {s : State} {id pos code : Nat} {q : Cmd} (hq : s.running? id = some q) (hthere : s.cmdThere q = true)
    (hlater : s.lossLater q = false) (hcheck : s.cmdCheck q = none) (hpos : pos < q.total) (hreadable : s.readable q pos 1 = true)
    (hread : s.readSrc q (s.srcAt q pos) = .error code) :
    exec (.commandFail id pos) s = .next (s.failHeld q code) := by
  show execCommandFail id pos s = _
  unfold execCommandFail
  simp [hq, hthere, hlater, hcheck, hreadable, hread, Nat.not_le.2 hpos]

theorem exec_commandCancel {s : State} {id : Nat} {q : Cmd} (hq : s.running? id = some q) (hthere : s.cmdThere q = true)
    (hcancel : q.cancel = true) : exec (.commandCancel id) s = .next (s.failHeld q 9) := by
  show execCommandCancel id s = _
  unfold execCommandCancel
  simp [hq, hthere, hcancel]

/-! ## Publishing -/

theorem exec_enginePublish {s : State} {id : Nat} {q : Cmd} (hq : s.running? id = some q) (hthere : s.cmdThere q = true)
    (hhold : q.hold = false) (hpub : q.kind ≠ .pub) (hcoll : q.kind ≠ .coll) (hread : q.hasRead 0 q.total = true)
    (hcheck : s.cmdCheck q = none) (hfirst : s.firstOnBuffer q = true) (hcap : s.capHolds q.ctx (s.isPublish q q.bar) = false) :
    exec (.enginePublish id) s = .next
      ((if q.kind = .copy ∧ q.var = 3 then s.writeFrame q (s.cmdWrites q) else s.publish (s.buffer q) (s.cmdWrites q)).endCmd
        q 0 (s.cmdWrites q).length true) := by
  show execEnginePublish id s = _
  unfold execEnginePublish
  simp [hq, hthere, hhold, hpub, hcoll, hread, hcheck, hfirst, hcap]

/-- Of two commands that have failed, the one that `execHoldSetPublish` keeps: the earlier in failing. -/
def failsFirst (best : Option Cmd) (h : Cmd) : Option Cmd :=
  match best with
  | none => some h
  | some k => if h.failAt < k.failAt then some h else some k

/-- The kept command stays where the next has not failed before it. -/
theorem failsFirst_of_le {k h : Cmd} (hle : k.failAt ≤ h.failAt) : failsFirst (some k) h = some k :=
  if_neg (Nat.not_lt.2 hle)

/-- A command is kept where it failed before what was kept. -/
theorem failsFirst_of_lt {best : Option Cmd} {k : Cmd} (hlt : ∀ m, best = some m → k.failAt < m.failAt) : failsFirst best k = some k :=
  match best with
  | none => rfl
  | some m => if_pos (hlt m rfl)

/-- What is kept is the next command or what was kept. -/
theorem failsFirst_mem {best : Option Cmd} {h m : Cmd} (hm : failsFirst best h = some m) : m = h ∨ best = some m := by
  unfold failsFirst at hm
  split at hm
  · exact .inl (Option.some.inj hm).symm
  · split at hm
    · exact .inl (Option.some.inj hm).symm
    · exact .inr hm

/-- A fold that has met the command that failed before every other keeps it. -/
theorem foldl_failsFirst_kept {k : Cmd} {l : List Cmd} (hl : ∀ m ∈ l, m ≠ k → k.failAt < m.failAt) :
    l.foldl failsFirst (some k) = some k := by
  refine List.foldlRecOn (motive := fun best => best = some k) l failsFirst rfl fun best hbest m hm => ?_
  rw [hbest]
  by_cases hmk : m = k
  · exact failsFirst_of_le (hmk ▸ le_rfl)
  · exact failsFirst_of_le (hl m hm hmk).le

/-- A fold over all commands keeps the one that failed before every other. -/
theorem foldl_failsFirst {k : Cmd} : ∀ {l : List Cmd} {best : Option Cmd}, k ∈ l → (∀ m ∈ l, m ≠ k → k.failAt < m.failAt) →
    (∀ m, best = some m → k.failAt < m.failAt) → l.foldl failsFirst best = some k
  | h :: l, best, hk, hl, hbest => by
    obtain ⟨hhead, hrest⟩ := List.forall_mem_cons.1 hl
    rw [List.foldl_cons]
    by_cases hkh : h = k
    · rw [hkh, failsFirst_of_lt hbest, foldl_failsFirst_kept hrest]
    · refine foldl_failsFirst ((List.mem_cons.1 hk).resolve_left (Ne.symm hkh)) hrest fun m hm => ?_
      rcases failsFirst_mem hm with hnew | hold
      · exact hnew ▸ hhead hkh
      · exact hbest m hold

/-- No XPUB before this one on its buffer is still running. -/
theorem State.noEarlierPub {s : State} {q : Cmd}
    (h : ∀ k ∈ s.cmds, k.kind = .pub → k.id < q.id → k.state = .running → s.buffer k ≠ s.buffer q) :
    (s.cmds.any fun k => k.kind = .pub && k.id < q.id && decide (k.state = .running) && s.buffer k = s.buffer q) = false := by
  refine List.any_eq_false.2 fun k hk hall => ?_
  simp only [Bool.and_eq_true, decide_eq_true_eq] at hall
  obtain ⟨⟨⟨hkind, hid⟩, hrun⟩, hbuf⟩ := hall
  exact h k hk hkind hid hrun hbuf

theorem exec_holdSetPublish {s : State} {id : Nat} {q : Cmd} (hq : s.running? id = some q) (hthere : s.cmdThere q = true)
    (hkind : q.kind = .pub) (hcheck : s.cmdCheck q = none)
    (hearlier : ∀ k ∈ s.cmds, k.kind = .pub → k.id < q.id → k.state = .running → s.buffer k ≠ s.buffer q)
    (hsound : ∀ k ∈ s.holdSet q, k.code = 0) (hwritten : ∀ k ∈ s.holdSet q, k.state = .running → s.holdWritten k = true) {live : List Cmd}
    (hlive : live = (s.holdSet q).filter fun k => decide (k.state = .running))
    (hcap : s.capHolds q.ctx (s.isPublish (live.head?.getD q) (live.head?.getD q).bar) = false) :
    exec (.holdSetPublish id) s = .next ((live.foldl (fun t k => t.endCmd k 0 (s.cmdBytes k) true)
      (if live = [] then s else s.publish (s.buffer q) (live.flatMap s.cmdWrites))).endCmd q 0 0 true) := by
  have hnone : (s.holdSet q).filter (fun k => decide (k.code ≠ 0)) = [] :=
    List.filter_eq_nil_iff.2 fun k hk hne => of_decide_eq_true hne (hsound k hk)
  have hall : live.all s.holdWritten = true := List.all_eq_true.2 fun k hk => by
    obtain ⟨hmem, hrun⟩ := List.mem_filter.1 (hlive ▸ hk)
    exact hwritten k hmem (of_decide_eq_true hrun)
  show execHoldSetPublish id s = _
  unfold execHoldSetPublish
  simp only [hq, State.noEarlierPub hearlier, hthere, hkind, hcheck, hnone, ← hlive, hall, hcap, List.isEmpty_iff]
  rfl

theorem exec_holdSetPublish_fails {s : State} {id : Nat} {q k : Cmd} (hq : s.running? id = some q) (hthere : s.cmdThere q = true)
    (hkind : q.kind = .pub) (hcheck : s.cmdCheck q = none)
    (hearlier : ∀ k ∈ s.cmds, k.kind = .pub → k.id < q.id → k.state = .running → s.buffer k ≠ s.buffer q)
    (hk : k ∈ s.holdSet q) (hcode : k.code ≠ 0) (hfirst : ∀ m ∈ s.holdSet q, m.code ≠ 0 → m ≠ k → k.failAt < m.failAt) :
    exec (.holdSetPublish id) s = .next (s.failHeld q k.code) := by
  have hfold : ((s.holdSet q).filter fun h => decide (h.code ≠ 0)).foldl failsFirst none = some k := by
    refine foldl_failsFirst (List.mem_filter.2 ⟨hk, decide_eq_true hcode⟩) (fun m hm => ?_) nofun
    obtain ⟨hmem, hne⟩ := List.mem_filter.1 hm
    exact hfirst m hmem (of_decide_eq_true hne)
  show execHoldSetPublish id s = _
  unfold execHoldSetPublish
  simp only [hq, State.noEarlierPub hearlier, hthere, hkind, hcheck]
  rw [if_neg (by decide)]
  split
  next m hm =>
    obtain rfl : m = k := Option.some.inj (hm.symm.trans hfold)
    rfl
  next hm => exact nomatch hm.symm.trans hfold

/-- Settles O33: each clause is the event's equation above under the clause's conditions; none of them fails. -/
theorem commandEventsHaveTheirEffect : Obligations.CommandEventsHaveTheirEffect := by
  refine ⟨?_, ?_, ?_, ?_, ?_, ?_, ?_, ?_⟩
  · intro s id off len q bytes hq hthere hpos hmax hend hlen hall
    have hreadable := State.readable_iff.2 fun k hk => (hall k hk).imp_right fun h => h.imp_right And.left
    refine exec_engineSourceRead hq hthere hpos hmax hend hreadable ?_
    subst hlen
    exact State.readRange_eq fun k hk => (hall k hk).2.2.2
  · intro s id q hq hthere hhold hpub hcoll hread hcheck hfirst hcap
    exact exec_enginePublish hq hthere hhold hpub hcoll hread hcheck hfirst hcap
  · rintro s id q set live hq hthere hkind hcheck rfl hearlier hsound hwritten hlive hcap
    exact exec_holdSetPublish hq hthere hkind hcheck hearlier hsound hwritten hlive hcap
  · intro s id q k hq hthere hkind hcheck hearlier hk hcode hfirst hwaits
    rw [exec_holdSetPublish_fails hq hthere hkind hcheck hearlier hk hcode hfirst, State.failHeld_eq hwaits,
      State.failCmd_pub (State.undone_of_running hq) hkind]
  · intro s id pos code q hq hthere hlater hcheck hwaits
    rw [exec_commandFail_check hq hthere hlater hcheck, State.failHeld_eq hwaits]
  · intro s id pos code q hq hthere hlater hcheck hpos hknows hnew hsrc hread hwaits
    have hreadable : s.readable q pos 1 = true := State.readable_iff.2 fun k hk => by
      obtain rfl := Nat.lt_one_iff.1 hk
      exact ⟨hknows, hnew, hsrc⟩
    rw [exec_commandFail_read hq hthere hlater hcheck hpos hreadable hread, State.failHeld_eq hwaits]
  · intro s id q hq hthere hcancel hwaits
    rw [exec_commandCancel hq hthere hcancel, State.failHeld_eq hwaits]
  · intro s id pos code q hq hthere hlater hcheck hwaits
    rw [exec_commandFail_check hq hthere hlater hcheck, State.failHeld_waits hwaits]

end Sys2Proof.Machine
end

section
/-!
# The pin unit, other devices and the host (O42)

Every event but one is a decision on the state whose conditions are put in. An append into a ring with room makes two stores and an
arrival: `State.ringState_room` finds the places of the stores, `State.append_room` gives the state after them, and
`State.arrive_only` and `State.bar_arrive` say what the arrival leaves and what it writes.
-/

namespace Sys2Proof.Machine

open Sys2Proof

/-! ## Barrier objects after a test -/

/-- A field replaced within the first `m` bits leaves a number of `m` bits. -/
theorem setBits_lt {m n lo w : Nat} (hn : n < 2 ^ m) (hm : lo + w ≤ m) (x : Nat) : setBits n lo w x < 2 ^ m := by
  obtain ⟨k, rfl⟩ := Nat.exists_eq_add_of_le hm
  have hhigh : n / 2 ^ lo / 2 ^ w < 2 ^ k := by
    rw [Nat.div_div_eq_div_mul, ← pow_add]
    exact Nat.div_lt_of_lt_mul (by rwa [← pow_add])
  have hfield : x % 2 ^ w < 2 ^ w := Nat.mod_lt _ (by positivity)
  have hlow : n % 2 ^ lo < 2 ^ lo := Nat.mod_lt _ (by positivity)
  have hsplit : setBits n lo w x = 2 ^ lo * (2 ^ w * (n / 2 ^ lo / 2 ^ w) + x % 2 ^ w) + n % 2 ^ lo := by
    have hwhole : n = 2 ^ lo * (2 ^ w * (n / 2 ^ lo / 2 ^ w)) + n % 2 ^ lo + n / 2 ^ lo % 2 ^ w * 2 ^ lo := by
      calc n = 2 ^ lo * (2 ^ w * (n / 2 ^ lo / 2 ^ w) + n / 2 ^ lo % 2 ^ w) + n % 2 ^ lo := by
            rw [Nat.div_add_mod, Nat.div_add_mod]
        _ = _ := by ring
    rw [setBits, Nat.sub_eq_of_eq_add hwhole]
    ring
  rw [hsplit, pow_add, pow_add, mul_assoc]
  calc 2 ^ lo * (2 ^ w * (n / 2 ^ lo / 2 ^ w) + x % 2 ^ w) + n % 2 ^ lo
      < 2 ^ lo * (2 ^ w * (n / 2 ^ lo / 2 ^ w) + x % 2 ^ w + 1) := by rw [mul_add_one]; exact Nat.add_lt_add_left hlow _
    _ ≤ 2 ^ lo * (2 ^ w * (n / 2 ^ lo / 2 ^ w + 1)) := Nat.mul_le_mul_left _ (by rw [mul_add_one]; exact Nat.add_le_add_left hfield _)
    _ ≤ 2 ^ lo * (2 ^ w * 2 ^ k) := Nat.mul_le_mul_left _ (Nat.mul_le_mul_left _ hhigh)

/-- A barrier object keeps its 128 bits through a test. -/
theorem barTest_lt {n : Nat} (hn : n < 2 ^ 128) (arrivals bytes bexp : Nat) : (barTest n arrivals bytes bexp).1 < 2 ^ 128 := by
  have hovf : ∀ {k : Nat} (c : Bool), k < 2 ^ 128 → orOvf k c < 2 ^ 128 := fun c hk => by
    unfold orOvf
    split
    · exact setBits_lt hk (by decide) _
    · exact hk
  have hbal : ∀ {k : Nat} (x : Int), k < 2 ^ 128 → setBal k x < 2 ^ 128 := fun _ hk => setBits_lt hk (by decide) _
  have harra : ∀ {k : Nat} (x : Nat), k < 2 ^ 128 → setArra k x < 2 ^ 128 := fun _ hk => setBits_lt hk (by decide) _
  have hphase : ∀ {k : Nat} (x : Nat), k < 2 ^ 128 → setPhase k x < 2 ^ 128 := fun _ hk => setBits_lt hk (by decide) _
  unfold barTest
  dsimp only
  split
  · exact hbal _ (harra _ (hphase _ (hovf _ (hovf _ (hbal _ (harra _ hn))))))
  · exact hovf _ (hbal _ (harra _ hn))

theorem Memory.read_lt (m : Memory) (a n : Nat) : m.read a n < 256 ^ n := by
  induction n generalizing a with
  | zero => exact Nat.one_pos
  | succ n ih =>
    have hbyte := (m.byte a).isLt
    have hrest := ih (a + 1)
    rw [Memory.read, pow_succ]
    omega

theorem State.bar_lt (s : State) (b part off : Nat) : s.bar b part off < 2 ^ 128 :=
  (Memory.read_lt _ off 16).trans_eq (by norm_num)

/-- An arrival leaves a barrier object as the test of its event does. -/
theorem State.bar_arrive {s : State} {b p o : Nat} (hw : s.scratchWf) (hpart : s.hasPart b p) (h0 : b ≠ 0) (arrivals bytes bexp : Nat) :
    (s.arrive b p o arrivals bytes bexp).bar b p o = (barTest (s.bar b p o) arrivals bytes bexp).1 := by
  obtain ⟨-, -, hset⟩ := State.setBar_spec hw b p o (barTest (s.bar b p o) arrivals bytes bexp).1 (fun h => absurd h h0)
  have hwritten : (s.setBar b p o (barTest (s.bar b p o) arrivals bytes bexp).1).bar b p o =
      (barTest (s.bar b p o) arrivals bytes bexp).1 := by
    rw [(hset b p o hpart fun h => absurd h h0).1 ⟨rfl, rfl, rfl⟩]
    exact Nat.mod_eq_of_lt (barTest_lt (s.bar_lt b p o) _ _ _)
  unfold State.arrive
  dsimp only
  split
  · rw [(State.releaseBar_sameParts _ b p o false).bar, hwritten]
  · exact hwritten

theorem only_wake (s : State) (i : Issuer) (ls : List Nat) (f : Nat → Thread → Thread) : Only s (s.wake i ls f) := by
  rcases s.wake_spec i ls f with h | ⟨g, h⟩
  · rw [h]
    exact .refl s
  · rw [h]
    exact only_setGroup s i g

theorem only_releaseBar (s : State) (b part off : Nat) (all : Bool) : Only s (s.releaseBar b part off all) := by
  unfold State.releaseBar
  dsimp only
  split
  · exact only_wake ..
  · split
    · exact .refl s
    · exact only_foldl _ (fun _ _ => only_wake ..) _ _

theorem only_setBar (s : State) (b part off n : Nat) : Only s (s.setBar b part off n) := by
  unfold State.setBar State.setScratchOf
  split <;> rfl

/-- An arrival changes blocks and the management core alone. -/
theorem State.arrive_only (s : State) (b part off arrivals bytes bexp : Nat) : Only s (s.arrive b part off arrivals bytes bexp) := by
  unfold State.arrive
  dsimp only
  split
  · exact (only_setBar ..).trans (only_releaseBar ..)
  · exact only_setBar ..

theorem Only.mem {s t : State} (h : Only s t) : t.mem = s.mem := by
  rw [h]

theorem Only.deferred {s t : State} (h : Only s t) : t.deferred = s.deferred := by
  rw [h]

/-- The scratchpads of a canonical state are canonical. -/
theorem State.scratchWf_of_memoriesWf {s : State} (h : s.memoriesWf = true) : s.scratchWf :=
  fun _ _ _ => State.scratchOf_canon (State.memoriesWf_iff.1 h)

/-! ## An append -/

/-- A location in device memory is read from it. -/
@[simp] theorem State.readLoc_dev (s : State) (a n : Nat) : s.readLoc (.dev a) n = s.mem.read a n := rfl

/-- A store of the pin unit to device memory changes its bytes, the line's snoop entry and the caches. -/
theorem State.storeAt_dev (s : State) {ctx : Nat} {x : Xlate} {a : Nat} (hx : x.loc = .dev a) (n v : Nat) :
    s.storeAt ctx x n v =
      { ((s.touch (s.tenantOf ctx) 0 x true).snoopOut (.dev a)) with mem := s.mem.write a n v } := by
  rw [State.storeAt, hx]
  rfl

/-- A ring whose header and next entry are in device memory and that is not full has room (R231, R232). -/
theorem State.ringState_room {s : State} {d : Deferred} {b h : Nat} {th te : Xlate} (hring : s.translate d.ctx d.ring true = .ok th)
    (hth : th.loc = .dev h) (hb : b = s.mem.read h 8) (halign : b % 8 = 0) (hcap : ∃ k, k < 25 ∧ s.mem.read (h + 8) 4 = 2 ^ k)
    (hroom : (s.mem.read (h + 16) 4 + 2 ^ 32 - s.mem.read (h + 20) 4) % 2 ^ 32 < s.mem.read (h + 8) 4)
    (hentry : b + 8 * (s.mem.read (h + 16) 4 % s.mem.read (h + 8) 4) < 2 ^ 52)
    (hte : s.translate d.ctx (b + 8 * (s.mem.read (h + 16) 4 % s.mem.read (h + 8) 4)) true = .ok te) :
    s.ringState d = .room te { th with loc := .dev (h + 16) } ((s.mem.read (h + 16) 4 + 1) % 2 ^ 32) := by
  have hsize : ((List.range 25).any fun k => s.mem.read (h + 8) 4 = 2 ^ k) = true := by
    simpa only [List.any_eq_true, List.mem_range, decide_eq_true_eq] using hcap
  subst hb
  have hbase : s.mem.read h 8 < 2 ^ 52 := Nat.lt_of_le_of_lt (Nat.le_add_right _ _) hentry
  unfold State.ringState
  simp only [hring, hth, Loc.plus, State.readLoc_dev]
  rw [if_neg, if_neg (Nat.not_le.2 hroom), if_pos hentry, hte]
  simp only [hsize, halign, Bool.not_true, ne_eq, not_true_eq_false, decide_false, Bool.or_self, Bool.false_or, decide_eq_true_eq]
  exact Nat.not_le.2 hbase

/-- The two stores of an append, in device memory. -/
def State.appendStores (s : State) (d : Deferred) (entry header : Xlate) (head : Nat) : State :=
  { (s.storeAt d.ctx entry 8 d.name.toNat).storeAt d.ctx header 4 head with deferred := s.deferred.erase d }

theorem State.storeAt_deferred (s : State) (ctx : Nat) (x : Xlate) (n v : Nat) : (s.storeAt ctx x n v).deferred = s.deferred := by
  unfold State.storeAt State.snoopOut State.writeLoc
  cases x.loc <;> rfl

theorem State.storeAt_blocks (s : State) (ctx : Nat) (x : Xlate) (n v : Nat) : (s.storeAt ctx x n v).blocks = s.blocks := by
  unfold State.storeAt State.snoopOut State.writeLoc
  cases x.loc <;> rfl

theorem State.storeAt_mgmt (s : State) (ctx : Nat) (x : Xlate) (n v : Nat) : (s.storeAt ctx x n v).mgmt = s.mgmt := by
  unfold State.storeAt State.snoopOut State.writeLoc
  cases x.loc <;> rfl

/-- The stores leave blocks, with their scratchpads, and the management core. -/
theorem State.appendStores_blocks (s : State) (d : Deferred) (entry header : Xlate) (head : Nat) :
    (s.appendStores d entry header head).blocks = s.blocks := by
  show ((s.storeAt d.ctx entry 8 d.name.toNat).storeAt d.ctx header 4 head).blocks = s.blocks
  rw [State.storeAt_blocks, State.storeAt_blocks]

theorem State.appendStores_mgmt (s : State) (d : Deferred) (entry header : Xlate) (head : Nat) :
    (s.appendStores d entry header head).mgmt = s.mgmt := by
  show ((s.storeAt d.ctx entry 8 d.name.toNat).storeAt d.ctx header 4 head).mgmt = s.mgmt
  rw [State.storeAt_mgmt, State.storeAt_mgmt]

theorem State.appendStores_sameParts (s : State) (d : Deferred) (entry header : Xlate) (head : Nat) :
    s.SameParts (s.appendStores d entry header head) :=
  ⟨fun b p => by rw [State.block?, State.appendStores_blocks]; rfl, by rw [State.appendStores_mgmt]⟩

theorem State.appendStores_mem (s : State) {d : Deferred} {entry header : Xlate} {e h : Nat} (head : Nat) (he : entry.loc = .dev e)
    (hh : header.loc = .dev h) :
    (s.appendStores d entry header head).mem = (s.mem.write e 8 d.name.toNat).write h 4 head := by
  rw [State.appendStores, State.storeAt_dev _ hh, State.storeAt_dev _ he]

/-- An append into a ring with room makes its two stores, and then the arrival on the barrier unless the block has retired or is
gone (R231, R232). -/
theorem State.append_room {s : State} {d : Deferred} {entry header : Xlate} {head : Nat} (hroom : s.ringState d = .room entry header head)
    (hmoved : d.moved = false) :
    (∀ x, s.block? d.block = some x → x.state ≠ .retired →
      s.append d = (s.appendStores d entry header head).arrive d.block (scrPart d.bar) (scrOff d.bar) 1 0 0) ∧
    ((∀ x, s.block? d.block = some x → x.state = .retired) → s.append d = s.appendStores d entry header head) := by
  have hdeferred : ((s.storeAt d.ctx entry 8 d.name.toNat).storeAt d.ctx header 4 head).deferred = s.deferred := by
    rw [State.storeAt_deferred, State.storeAt_deferred]
  unfold State.append
  simp only [hroom, hmoved, Bool.false_eq_true, if_false, hdeferred]
  refine ⟨fun x hx hlive => ?_, fun hgone => ?_⟩
  · simp only [hx, hlive, if_false]
    rfl
  · cases hx : s.block? d.block with
    | none => rfl
    | some x => exact if_pos (hgone x hx)

/-- Whether the append arrives on a barrier or not, it ends as its stores do but for blocks and the management core. -/
theorem State.append_only {s : State} {d : Deferred} {entry header : Xlate} {head : Nat} (hroom : s.ringState d = .room entry header head)
    (hmoved : d.moved = false) : Only (s.appendStores d entry header head) (s.append d) := by
  obtain ⟨hlives, hends⟩ := State.append_room hroom hmoved
  by_cases hgone : ∀ x, s.block? d.block = some x → x.state = .retired
  · rw [hends hgone]
    exact .refl _
  · push Not at hgone
    obtain ⟨x, hx, hlive⟩ := hgone
    rw [hlives x hx hlive]
    exact State.arrive_only ..

/-- A store of a value that fits is read back through another that shares no byte with it. -/
theorem Memory.read_write_write {m : Memory} (hm : m.wf = true) {a n b k : Nat} (x y : Nat) (hdisj : a + n ≤ b ∨ b + k ≤ a)
    (hx : x < 256 ^ n) : ((m.write a n x).write b k y).read a n = x := by
  have hother : ((m.write a n x).write b k y).read a n = (m.write a n x).read a n :=
    Memory.read_congr fun i hi => Memory.byte_write_other (Memory.write_wf hm _ _ _) y (by omega)
  rw [hother, Memory.read_write_same hm, Nat.mod_eq_of_lt hx]

/-! ## Searches -/

theorem State.scribble_searches (s : State) (ws : List Loc) : (s.scribble ws).searches = s.searches := by
  refine List.foldlRecOn (motive := fun t : State => t.searches = s.searches) _ _ rfl fun t ht w _ => ?_
  unfold State.snoopOut State.writeLoc
  cases w.1 <;> exact ht

theorem State.writeDeferred_searches (s : State) (ctx : Nat) : (s.writeDeferred ctx).searches = s.searches := by
  unfold State.writeDeferred
  split
  · rfl
  · exact State.scribble_searches _ _

/-- The entry that a search leaves in the list of deferred names. -/
def Search.deferral (q : Search) (remote : Nat) : Deferred :=
  { ctx := q.ctx, name := q.name, pins := q.found, remote := if q.domain ∧ q.asked ≠ [] then remote else 0, ring := q.ring
    block := q.block, bar := q.bar, order := 0, faulted := false, moved := false }

/-- The code of a search whose list has `listed` of `cap` entries (R230). -/
def Search.code (q : Search) (remote listed cap : Nat) : Nat :=
  if q.found = [] ∧ (q.domain = false ∨ q.asked = [] ∨ remote = 0) then 0 else if cap ≤ listed then 2 else 1

/-- The pins of other devices count where a domain search asked one. -/
theorem Search.remote_eq_zero_iff (q : Search) (remote : Nat) :
    (if q.domain && !q.asked.isEmpty then remote else 0) = 0 ↔ q.domain = false ∨ q.asked = [] ∨ remote = 0 := by
  cases q.domain <;> cases q.asked <;> simp

/-- The result of a search: its code, and with DEFERRED a new entry whose bytes in the list are written. -/
theorem State.searchResult_eq (s : State) (q : Search) (remote : Nat) :
    let code := q.code remote (s.deferred.filter fun d => d.ctx = q.ctx).length (((s.ctxs[q.ctx]?).map (·.defCap.toNat)).getD 0)
    s.searchResult q remote = (code, { (if code = 1 then s.writeDeferred q.ctx else s) with
      deferred := if code = 1 then s.deferred ++ [q.deferral remote] else s.deferred }) := by
  intro code
  have hfree : (q.found.isEmpty && decide ((if q.domain && !q.asked.isEmpty then remote else 0) = 0)) = true ↔
      q.found = [] ∧ (q.domain = false ∨ q.asked = [] ∨ remote = 0) := by
    rw [Bool.and_eq_true, List.isEmpty_iff, decide_eq_true_eq, Search.remote_eq_zero_iff]
  unfold State.searchResult
  dsimp only
  by_cases hnone : q.found = [] ∧ (q.domain = false ∨ q.asked = [] ∨ remote = 0)
  · have hcode : code = 0 := if_pos hnone
    rw [if_pos (hfree.2 hnone), hcode]
    rfl
  · rw [if_neg (mt hfree.1 hnone)]
    by_cases hfull : ((s.ctxs[q.ctx]?).map (·.defCap.toNat)).getD 0 ≤ (s.deferred.filter fun d => d.ctx = q.ctx).length
    · have hcode : code = 2 := (if_neg hnone).trans (if_pos hfull)
      rw [if_pos hfull, hcode]
      rfl
    · have hcode : code = 1 := (if_neg hnone).trans (if_neg hfull)
      rw [if_neg hfull, hcode]
      simp [Search.deferral]

theorem exec_reclaimSearchComplete {s : State} {id remote code : Nat} {q : Search} {u t : State}
    (hq : s.searches.find? (fun x => x.id = id) = some q)
    (hcode : code = q.code remote (s.deferred.filter fun d => d.ctx = q.ctx).length (((s.ctxs[q.ctx]?).map (·.defCap.toNat)).getD 0))
    (hu : u = { (if code = 1 then s.writeDeferred q.ctx else s) with
      searches := s.searches.filter fun x => x.id ≠ id
      deferred := if code = 1 then s.deferred ++ [q.deferral remote] else s.deferred })
    (ht : t = u.updGroup (issuerOf q.block q.group) fun g => (lanesOf q.lanes).foldl (fun g l => match q.dst with
      | some r => if (g.thread l).live then g.setReg l r (BitVec.ofNat 32 code) else g
      | none => g) g) :
    exec (.reclaimSearchComplete id remote) s = .next
      (t.wake (issuerOf q.block q.group) (((t.groupOf (issuerOf q.block q.group)).map fun g =>
        g.searchDone fun i => t.searches.any fun x => x.id = i).getD []) fun _ t => t.advance).settle := by
  have hsearches : (if code = 1 then s.writeDeferred q.ctx else s).searches = s.searches := by
    split
    · exact State.writeDeferred_searches s q.ctx
    · rfl
  subst ht hu
  show execReclaimSearchComplete id remote s = _
  unfold execReclaimSearchComplete
  simp only [hq, State.searchResult_eq, ← hcode, hsearches] <;> rfl

/-! ## Appends of the list -/

theorem exec_freeRingAppend {s : State} {k : Nat} {d : Deferred} (hd : s.deferred[k]? = some d) (hready : s.appendable d = true)
    (hsound : d.faulted = false) : exec (.freeRingAppend k false) s = .next (s.append d) := by
  show execFreeRingAppend k false s = _
  unfold execFreeRingAppend
  simp [hd, hready, hsound]

theorem exec_ringAppendRetry {s : State} {k : Nat} {d : Deferred} (hd : s.deferred[k]? = some d) (hready : s.appendable d = true)
    (hfault : d.faulted = true) : exec (.ringAppendRetry k) s = .next (s.append d) := by
  show execRingAppendRetry k s = _
  unfold execRingAppendRetry
  simp [hd, hready, hfault]

/-! ## Walks, other devices and the host -/

theorem exec_pageWalk {s : State} {ctx va e level : Nat} {x : Xlate} (hroot : (s.csr.ptBase.getD ctx 0).getLsbD 0 = true)
    (hwalk : walkFrom s.mem va (bits (s.csr.ptBase.getD ctx 0).toNat 39 12 * 4096) 3 = some (e, level))
    (hleaf : s.leafLoc e level va = .ok x) {t : TlbEntry}
    (ht : t = { ctx, va := va / 2 ^ levelShift level * 2 ^ levelShift level, size := 2 ^ levelShift level
                leaf := BitVec.ofNat 64 e, level }) :
    exec (.pageWalk ctx va) s = .next { s with tlb := t :: s.tlb.filter fun x => x ≠ t } := by
  have hvalid : bit (s.csr.ptBase.getD ctx 0).toNat 0 = true := by
    rwa [bit, ← Nat.testBit_eq_decide_div_mod_eq]
  have hwalks : s.walk ctx va = some (e, level) := (if_pos hvalid).trans hwalk
  subst ht
  show execPageWalk ctx va s = _
  unfold execPageWalk
  simp only [hwalks, hleaf]

/-- The accesses of another device that are well formed: aligned, of a size that is not 0, and below M. -/
theorem remoteAccess_ok {size a : Nat} (hpos : 0 < size) (halign : a % size = 0) (hend : a + size ≤ hbmSize) :
    (decide (size = 0) || decide (a % size ≠ 0) || decide (a + size > hbmSize)) = false := by
  simp [Nat.pos_iff_ne_zero.1 hpos, halign, hend]

theorem exec_remoteStore {s : State} {fn a : Nat} {ty : Ty} {x y : DWord} (hpos : 0 < Ty.bytes ty) (halign : a % Ty.bytes ty = 0)
    (hend : a + Ty.bytes ty ≤ hbmSize) :
    exec (.remoteAccess 1 fn ty a x y) s = .next { (s.touchFrom (Config.freeIndex s.nextId a % 8) a true).snoopOut (.dev a) with
      mem := s.mem.write a (Ty.bytes ty) (x.toNat % 2 ^ (8 * Ty.bytes ty)) } := by
  show execRemoteAccess 1 fn ty a x y s = _
  unfold execRemoteAccess
  simp only [remoteAccess_ok hpos halign hend]
  rfl

theorem exec_remoteAtomic {s : State} {kind fn a : Nat} {ty : Ty} {x y : DWord} (hkind : 2 ≤ kind) (hpos : 0 < Ty.bytes ty)
    (halign : a % Ty.bytes ty = 0) (hend : a + Ty.bytes ty ≤ hbmSize) (hsound : s.poisonAt (.dev a) = none) :
    exec (.remoteAccess kind fn ty a x y) s = .next { (s.touchFrom (Config.freeIndex s.nextId a % 8) a true).snoopOut (.dev a) with
      mem := s.mem.write a (Ty.bytes ty) (atomNew fn ty (BitVec.ofNat 64 (s.mem.read a (Ty.bytes ty))) x y) } := by
  obtain ⟨k, rfl⟩ := Nat.exists_eq_add_of_le' hkind
  show execRemoteAccess (k + 2) fn ty a x y s = _
  unfold execRemoteAccess
  simp only [remoteAccess_ok hpos halign hend, hsound]
  rfl

theorem exec_remoteLoad {s : State} {fn a : Nat} {ty : Ty} {x y : DWord} (hpos : 0 < Ty.bytes ty) (halign : a % Ty.bytes ty = 0)
    (hend : a + Ty.bytes ty ≤ hbmSize) :
    exec (.remoteAccess 0 fn ty a x y) s = .next (s.touchFrom (Config.freeIndex s.nextId a % 8) a false) := by
  show execRemoteAccess 0 fn ty a x y s = _
  unfold execRemoteAccess
  simp only [remoteAccess_ok hpos halign hend]
  rfl

/-- A device that has been silent for FTIMEOUT has timed out. -/
theorem State.timedOut_of_mem {s : State} {dev since start : Nat} (hsilent : (dev, since) ∈ s.fabric.silent)
    (htime : max start since + 1000 * s.fabric.ftimeout ≤ s.uptime) : s.timedOut dev start = true := by
  simp only [State.timedOut, List.any_eq_true, Bool.and_eq_true, decide_eq_true_eq]
  exact ⟨(dev, since), hsilent, rfl, htime⟩

/-- A device silent from one time on has timed out once FTIMEOUT has passed from then. -/
theorem State.timedOut_iff {s : State} {dev since start : Nat} (hsilent : (dev, since) ∈ s.fabric.silent)
    (honly : ∀ x ∈ s.fabric.silent, x.1 = dev → x.2 = since) :
    s.timedOut dev start = true ↔ max start since + 1000 * s.fabric.ftimeout ≤ s.uptime := by
  refine ⟨fun h => ?_, State.timedOut_of_mem hsilent⟩
  simp only [State.timedOut, List.any_eq_true, Bool.and_eq_true, decide_eq_true_eq] at h
  obtain ⟨x, hx, hdev, htime⟩ := h
  rwa [honly x hx hdev] at htime

theorem exec_fabricTimeout_cmd {s : State} {cmd dev since : Nat} {q : Cmd} (hcmd : cmd ≠ 0) (hdev : dev ≠ s.fabric.devnum.toNat)
    (hsilent : (dev, since) ∈ s.fabric.silent) (htime : max q.since since + 1000 * s.fabric.ftimeout ≤ s.uptime)
    (hq : s.cmds.find? (fun x => x.id = cmd) = some q) (hthere : s.cmdThere q = true) (hneeds : s.cmdNeeds q dev = true) :
    exec (.fabricTimeout cmd dev) s = .next (s.failHeld q 7) := by
  show execFabricTimeout cmd dev s = _
  unfold execFabricTimeout
  simp [hcmd, hdev, hq, hthere, hneeds, State.timedOut_of_mem hsilent htime]

theorem exec_fabricTimeout_requests {s : State} {dev since : Nat} (hdev : dev ≠ s.fabric.devnum.toNat)
    (hsilent : (dev, since) ∈ s.fabric.silent) (honly : ∀ x ∈ s.fabric.silent, x.1 = dev → x.2 = since) {rs : List Request}
    (hrs : rs = s.fabric.requests.map fun r =>
      if r.dev = dev ∧ max r.since since + 1000 * s.fabric.ftimeout ≤ s.uptime then { r with expired := true } else r) :
    exec (.fabricTimeout 0 dev) s = .next { s with fabric := { s.fabric with requests := rs } } := by
  have hexpire : s.expire dev = fun r : Request =>
      if r.dev = dev ∧ max r.since since + 1000 * s.fabric.ftimeout ≤ s.uptime then { r with expired := true } else r := by
    funext r
    simp only [State.expire, Bool.and_eq_true, decide_eq_true_eq, State.timedOut_iff hsilent honly]
  show execFabricTimeout 0 dev s = _
  unfold execFabricTimeout
  rw [if_neg hdev, if_pos rfl, hexpire, ← hrs]
  rfl

/-- The accesses of the host that are accepted: in its window of device memory, aligned, and of up to 64 bytes. -/
theorem hostAccess_ok {base a size : Nat} (hbase : base ≤ a) (hsize : size ∈ [1, 2, 4, 8, 16, 32, 64]) (halign : (a - base) % size = 0)
    (hend : a - base + size ≤ hbmSize) :
    (decide (a < base) || !hostSize size || decide ((a - base) % size ≠ 0) || decide (a - base + size > hbmSize)) = false := by
  have hof : hostSize size = true := List.elem_eq_true_of_mem hsize
  simp [Nat.not_lt.2 hbase, hof, halign, hend]

theorem exec_hostWrite {s : State} {prot : Bool} {a size x : Nat} (hlink : s.fabric.hostLink = true)
    (hide : s.fabric.ide = true → prot = true) (hbase : s.fabric.hdmBase ≤ a) (hsize : size ∈ [1, 2, 4, 8, 16, 32, 64])
    (halign : (a - s.fabric.hdmBase) % size = 0) (hend : a - s.fabric.hdmBase + size ≤ hbmSize) :
    exec (.hostMemAccess true prot a size x) s = .next
      { ({ s with snoop := (a - s.fabric.hdmBase) / 64 * 64 :: s.snoop.filter fun k => k ≠ (a - s.fabric.hdmBase) / 64 * 64 } :
          State).touchFrom 0 (a - s.fabric.hdmBase) true with
        mem := s.mem.write (a - s.fabric.hdmBase) size (x % 2 ^ (8 * size)) } := by
  have hprot : (s.fabric.ide && !prot) = false := by
    cases hon : s.fabric.ide
    · rfl
    · rw [hide hon]; rfl
  show execHostMemAccess true prot a size x s = _
  unfold execHostMemAccess
  simp only [hlink, hprot, hostAccess_ok hbase hsize halign hend]
  rfl

theorem exec_hostRead {s : State} {prot : Bool} {a size x : Nat} (hlink : s.fabric.hostLink = true)
    (hide : s.fabric.ide = true → prot = true) (hbase : s.fabric.hdmBase ≤ a) (hsize : size ∈ [1, 2, 4, 8, 16, 32, 64])
    (halign : (a - s.fabric.hdmBase) % size = 0) (hend : a - s.fabric.hdmBase + size ≤ hbmSize) {u : State}
    (hu : u = ({ s with snoop := (a - s.fabric.hdmBase) / 64 * 64 :: s.snoop.filter fun k => k ≠ (a - s.fabric.hdmBase) / 64 * 64 } :
      State).touchFrom 0 (a - s.fabric.hdmBase) false) :
    exec (.hostMemAccess false prot a size x) s = .next { u with fabric := { u.fabric with
      hostReply := (s.mem.read (a - s.fabric.hdmBase) size, (s.poisonAt (.dev (a - s.fabric.hdmBase))).isSome) } } := by
  have hprot : (s.fabric.ide && !prot) = false := by
    cases hon : s.fabric.ide
    · rfl
    · rw [hide hon]; rfl
  subst hu
  show execHostMemAccess false prot a size x s = _
  unfold execHostMemAccess
  simp only [hlink, hprot, hostAccess_ok hbase hsize halign hend]
  rfl

theorem exec_hostDropped {s : State} {write : Bool} {a size x : Nat} (hlink : s.fabric.hostLink = true) (hide : s.fabric.ide = true) :
    exec (.hostMemAccess write false a size x) s = .next
      { s with fabric := { s.fabric with ideDrops := s.fabric.ideDrops + 1 } } := by
  show execHostMemAccess write false a size x s = _
  unfold execHostMemAccess
  simp [hlink, hide]

/-- A poisoned location in device memory is one whose 64-byte unit is marked. -/
theorem State.poisonAt_dev_isSome (s : State) (a : Nat) :
    (s.poisonAt (.dev a)).isSome = decide ((0, a / 64 * 64) ∈ s.rel.poison) := by
  unfold State.poisonAt
  by_cases h : (0, a / 64 * 64) ∈ s.rel.poison <;> simp [h]

/-- What an append into a ring with room leaves (R231, R232): the last clause of O42. -/
theorem State.append_spec {s : State} {d : Deferred} {entry header : Xlate} {e h head : Nat} (hwf : s.memoriesWf = true)
    (hroom : s.ringState d = .room entry header head) (hmoved : d.moved = false) (he : entry.loc = .dev e) (hh : header.loc = .dev h)
    (hhead : head < 2 ^ 32) (hdisj : e + 8 ≤ h ∨ h + 4 ≤ e) :
    (s.append d).mem.read e 8 = d.name.toNat ∧ (s.append d).mem.read h 4 = head ∧ (s.append d).deferred = s.deferred.erase d ∧
      (∀ a, (a < e ∨ e + 8 ≤ a) → (a < h ∨ h + 4 ≤ a) → (s.append d).mem.byte a = s.mem.byte a) ∧
      (∀ x, s.block? d.block = some x → x.state ≠ .retired → d.block ≠ 0 → (∃ p, x.part (scrPart d.bar) = some p) →
        (s.append d).bar d.block (scrPart d.bar) (scrOff d.bar) =
          (barTest (s.bar d.block (scrPart d.bar) (scrOff d.bar)) 1 0 0).1) ∧
      ((∀ x, s.block? d.block = some x → x.state = .retired) → (s.append d).blocks = s.blocks) := by
  have hmem := (State.globalMemories_wf hwf).1
  have hfst := Memory.write_wf hmem e 8 d.name.toNat
  have honly := State.append_only hroom hmoved
  obtain ⟨hlives, hends⟩ := State.append_room hroom hmoved
  rw [honly.mem, honly.deferred, State.appendStores_mem s head he hh]
  refine ⟨?_, ?_, rfl, fun a hae hah => ?_, fun x hx hlive h0 hp => ?_, fun hgone => ?_⟩
  · exact Memory.read_write_write hmem _ _ hdisj (d.name.isLt.trans_eq (by norm_num))
  · rw [Memory.read_write_same hfst, Nat.mod_eq_of_lt (hhead.trans_eq (by norm_num))]
  · rw [Memory.byte_write_other hfst _ hah, Memory.byte_write_other hmem _ hae]
  · have hsame := State.appendStores_sameParts s d entry header head
    have hpart : s.hasPart d.block (scrPart d.bar) := .inr (by obtain ⟨p, hp⟩ := hp; rw [hx, Option.bind_some, hp]; rfl)
    rw [hlives x hx hlive, State.bar_arrive (hsame.wf (State.scratchWf_of_memoriesWf hwf)) (hsame.hasPart hpart) h0, hsame.bar]
  · rw [hends hgone, State.appendStores_blocks]

/-- Settles O42: the conditions of each clause decide its event; an append into a ring with room is `State.append_spec`. -/
theorem otherAgentsHaveTheirEffect : Obligations.OtherAgentsHaveTheirEffect := by
  refine ⟨?_, ?_, ?_, ?_, ?_, ?_, ?_, ?_, ?_, ?_, ?_, ?_, ?_, ?_⟩
  · intro s id remote code q u t hq hu hcode ht
    exact exec_reclaimSearchComplete hq hcode hu ht
  · rintro s job asid name found rfl
    rfl
  · intro s k d hd hready hsound
    exact exec_freeRingAppend hd hready hsound
  · intro s k d hd hready hfault
    exact exec_ringAppendRetry hd hready hfault
  · intro s ctx va e level x t hroot hwalk hleaf ht
    exact exec_pageWalk hroot hwalk hleaf ht
  · intro s fn ty a x y hpos halign hend
    exact exec_remoteStore hpos halign hend
  · intro s kind fn ty a x y hkind hpos halign hend hsound
    exact exec_remoteAtomic hkind hpos halign hend hsound
  · intro s fn ty a x y hpos halign hend
    exact exec_remoteLoad hpos halign hend
  · intro s cmd dev since q hcmd hdev hsilent htime hq hthere hneeds hwaits
    rw [exec_fabricTimeout_cmd hcmd hdev hsilent htime hq hthere hneeds, State.failHeld_eq hwaits]
  · intro s dev since rs hdev hsilent honly hrs
    exact exec_fabricTimeout_requests hdev hsilent honly hrs
  · rintro s prot a o size x u hlink hide hbase hsize rfl halign hend rfl
    exact exec_hostWrite hlink hide hbase hsize halign hend
  · rintro s prot a o size x u hlink hide hbase hsize rfl halign hend hu
    rw [exec_hostRead hlink hide hbase hsize halign hend hu, State.poisonAt_dev_isSome]
  · intro s write a size x hlink hide
    exact exec_hostDropped hlink hide
  · intro s d b h e th te hwf hring hth hb halign hmoved cap head tail hcap hroom hentry hte he hdisj
    exact State.append_spec hwf (State.ringState_room hring hth hb halign hcap hroom hentry hte) hmoved he rfl
      (Nat.mod_lt _ (by decide)) (hdisj.imp_right fun h => h)

end Sys2Proof.Machine
end

section
/-!
# SR forms draw from the thread's own stream (O5)

Under SR every one of the ten instructions acts on each active lane alone: it takes the lane's stream as it stands, makes the
result and the stream after its draws, and writes both to the lane's own thread (R113). So they are one operation,
`State.draws`, with a value of their own each, and the law of the register pipeline applies (`commit_local`).
-/

namespace Sys2Proof.Machine

open Sys2Proof

/-! ## Drawing in one lane -/

/-- A thread that takes the result and the stream that `value` gives for its own stream (R113). -/
def Thread.draw (t : Thread) (o : Opnd) (pair : Bool) (value : Word → DWord × Word) : Thread :=
  ({ t with z := (value t.z).2 } : Thread).withDst o pair (value t.z).1

/-- The same in a lane of a group. -/
def Group.draw (g : Group) (l : Nat) (o : Opnd) (pair : Bool) (value : Word → DWord × Word) : Group :=
  (g.updThread l fun t => { t with z := (value (g.thread l).z).2 }).writeDst l o pair (value (g.thread l).z).1

/-- A draw reads and changes its lane's own thread alone. -/
theorem draw_local (o : Opnd) (pair : Bool) (value : Nat → Word → DWord × Word) (ho : ∀ n, o ≠ .s n) :
    LaneLocal (fun g l => g.draw l o pair (value l)) fun l t => t.draw o pair (value l) :=
  LaneLocal.own
    (act := fun g l t0 => (g.updThread l fun t => { t with z := (value l t0.z).2 }).writeDst l o pair (value l t0.z).1)
    (f := fun l t0 t => ({ t with z := (value l t0.z).2 } : Thread).withDst o pair (value l t0.z).1)
    fun t0 => (updThread_local fun l t => { t with z := (value l (t0 l).z).2 }).comp
      (writeDst_local o pair (fun l => (value l (t0 l).z).1) ho)

/-! ## The forms under SR -/

/-- A form under SR: each active thread of the unit draws from its own stream (R113). -/
def State.draws (s : State) (r : SrResult) : Out :=
  s.finish <| s.checked r.f <| s.perThread r.f (fun _ => readRegs r.op r.f) (fun _ _ => []) fun c g l =>
    g.draw l r.f.d r.pair (r.value s c.rd l)

/-- Where the sources are ready and sound, every active thread of the unit takes its draw. -/
theorem draws_clear {s : State} {c : Ctx} {r : SrResult} (h : s.Clear c r.op r.f) (hnoS : r.f.namesS = false) :
    ∃ t, s.draws r = .next (s.setGroup s.cur t) ∧
      c.g.OnlyLanes t (c.after r.f fun l t => t.draw r.f.d r.pair (r.value s c.rd l)) := by
  obtain ⟨t, hcommit, hlanes⟩ :=
    commit_local h.ctx r.f (draw_local r.f.d r.pair (r.value s c.rd) (namesS_false hnoS)) true 0 c.g rfl
  refine ⟨t, ?_, hlanes⟩
  rw [State.draws, h.checked, perThread_clear h.ctx r.f _ h.pend h.sound _ rfl, finish_ok, hcommit]

/-- What a form that rounds exact elements in order does under SR: one draw for each element, before its rounding. -/
def srElems (op : Nat) (f : Fields) (elems : State → Group → Nat → List FVal) : SrResult :=
  ⟨op, f, false, fun s g l z =>
    let r := roundElems (fmtOf f.ty) 5 false f.flag z (elems s g l)
    (BitVec.ofNat 64 (r.1.getD 0 0 + r.1.getD 1 0 * 2 ^ f.ty.width), r.2)⟩

theorem State.floatOp_sr {f : Fields} (hsr : f.rnd = 5) (s : State) (op : Nat) (elems : State → Group → Nat → List FVal) :
    s.floatOp op f elems = s.draws (srElems op f elems) := by
  simp only [State.floatOp, hsr]
  rfl

/-- One exact element takes one draw. -/
theorem State.floatOp_sr_one {f : Fields} (hsr : f.rnd = 5) (s : State) (op : Nat) (x : State → Group → Nat → FVal) :
    s.floatOp op f (fun s g l => [x s g l]) = s.draws (srOne op f x) := by
  have hvalue : srElems op f (fun s g l => [x s g l]) = srOne op f x := by simp [srElems, srOne, roundElems, roundSr]
  rw [State.floatOp_sr hsr, hvalue]

/-- Two exact elements take two draws, element 0 before element 1 (R113, R173). -/
theorem State.floatOp_sr_two {f : Fields} (hsr : f.rnd = 5) (s : State) (op : Nat) (x : FVal → FVal → FVal → FVal) :
    s.floatOp op f (fun s g l => [0, 1].map fun e =>
      x (s.felem g l f f.a e) (s.felem g l f f.b e) (s.felem g l f f.c e)) = s.draws (srTwo op f x) :=
  State.floatOp_sr hsr s op _

/-- Each of the ten instructions under SR is a draw of its own value in each lane. The sums name the mode, which decides the
sign of an exact zero; the square root, the conversion and PACK choose their SR form by it. -/
theorem exec_sr {i : Instr} {r : SrResult} (hi : stochasticResult i = some r) (hsr : r.f.rnd = 5) (s : State) :
    exec i s = s.draws r := by
  unfold stochasticResult at hi
  split at hi <;> cases hi <;> rename_i f <;> replace hsr : f.rnd = 5 := hsr
  · show execFadd f s = _
    rw [execFadd, hsr]
    exact State.floatOp_sr_one hsr s 0x20 _
  · show execFmul f s = _
    exact State.floatOp_sr_one hsr s 0x21 _
  · show execFfma f s = _
    rw [execFfma, hsr]
    exact State.floatOp_sr_one hsr s 0x22 _
  · show execFscale f s = _
    exact State.floatOp_sr_one hsr s 0x2E _
  · show execPkfma f s = _
    rw [execPkfma, hsr]
    exact State.floatOp_sr_two hsr s 0x30 fun a b c => (a.mul b).add 5 c
  · show execPkadd f s = _
    rw [execPkadd, hsr]
    exact State.floatOp_sr_two hsr s 0x31 fun a b _ => a.add 5 b
  · show execPkmul f s = _
    exact State.floatOp_sr_two hsr s 0x32 fun a b _ => a.mul b
  · show execFsqrt f s = _
    simp only [execFsqrt, hsr]
    rfl
  · show execCvt f s = _
    simp only [execCvt, hsr]
    rfl
  · show execPack f s = _
    simp only [execPack, hsr]
    rfl

/-- Settles O5: each instruction is its draw (`exec_sr`), and a draw acts on each lane alone (`draws_clear`). -/
theorem stochasticRoundingDrawsFromTheThread : Obligations.StochasticRoundingDrawsFromTheThread := by
  intro i r s c hi hsr hclear hnoS
  rw [exec_sr hi hsr]
  exact draws_clear hclear hnoS

end Sys2Proof.Machine
end

section
/-!
# Decoding and encoding agree (O55)

An operand, a type and a special value have one code each, and an instruction word is its fields side by side (R134). So
reading the fields of an encoded word gives the fields back, writing the fields of a word gives the word back, and what is left
of the statement is about the checks of R138 on an opcode and its fields.
-/

namespace Sys2Proof

/-! ## Codes (R103, R140) -/

@[simp] theorem Ty.ofCode_code (t : Ty) : Ty.ofCode (BitVec.ofNat 4 t.code) = t := by
  cases t <;> rfl

@[simp] theorem Ty.code_ofCode (n : BitVec 4) : (Ty.ofCode n).code = n.toNat := by
  revert n
  decide

theorem Ty.code_lt (t : Ty) : t.code < 2 ^ 4 := by
  cases t <;> decide

@[simp] theorem Opnd.ofCode_code (o : Opnd) : Opnd.ofCode o.code = some o := by
  cases o with
  | v n | s n | p n | j n | pn n | lc n => revert n; decide
  | sp x => cases x <;> rfl
  | pt | imm | zero => rfl

/-- A code has 10 bits, so the converse is a finite fact. -/
theorem Opnd.code_of_ofCode {n : Nat} (hn : n < 2 ^ 10) {o : Opnd} (h : Opnd.ofCode n = some o) : o.code = n := by
  have hall : ∀ k < 2 ^ 10, ∀ o ∈ Opnd.ofCode k, o.code = k := by decide +kernel
  exact hall n hn o h

theorem Opnd.code_lt (o : Opnd) : o.code < 2 ^ 10 := by
  cases o with
  | v n | s n | p n | j n | pn n | lc n => revert n; decide
  | sp x => cases x <;> decide
  | pt | imm | zero => decide

/-! ## The layout of the word (R134) -/

theorem fieldOf_lt (w : IWord) (lo n : Nat) : fieldOf w lo n < 2 ^ n := Nat.mod_lt _ (by positivity)

/-- The opcode is what stands above bit 88. -/
theorem fieldOf_opcode (w : IWord) : fieldOf w 88 8 = w.toNat / 2 ^ 88 :=
  Nat.mod_eq_of_lt (by have := w.isLt; omega)

/-- What lies below bit `hi` of a word is its field from `lo` to there and what lies below the field. -/
theorem mod_eq_fieldOf_add (w : IWord) {hi : Nat} (lo n : Nat) (h : hi = lo + n) :
    w.toNat % 2 ^ hi = fieldOf w lo n * 2 ^ lo + w.toNat % 2 ^ lo := by
  rw [h, pow_add, Nat.mod_mul, fieldOf, Nat.mul_comm, Nat.add_comm]

/-- A word as the sum of its fields, each at its place. -/
theorem toNat_eq_fieldOf_sum (w : IWord) :
    w.toNat = fieldOf w 88 8 * 2 ^ 88 + fieldOf w 84 4 * 2 ^ 84 + fieldOf w 83 1 * 2 ^ 83 + fieldOf w 80 3 * 2 ^ 80 +
      fieldOf w 70 10 * 2 ^ 70 + fieldOf w 60 10 * 2 ^ 60 + fieldOf w 50 10 * 2 ^ 50 + fieldOf w 40 10 * 2 ^ 40 +
      fieldOf w 36 4 * 2 ^ 36 + fieldOf w 33 3 * 2 ^ 33 + fieldOf w 32 1 * 2 ^ 32 + fieldOf w 0 32 := by
  calc w.toNat
      = w.toNat % 2 ^ 96 := (Nat.mod_eq_of_lt w.isLt).symm
    _ = _ := by
      rw [mod_eq_fieldOf_add w 88 8 rfl, mod_eq_fieldOf_add w 84 4 rfl, mod_eq_fieldOf_add w 83 1 rfl,
        mod_eq_fieldOf_add w 80 3 rfl, mod_eq_fieldOf_add w 70 10 rfl, mod_eq_fieldOf_add w 60 10 rfl,
        mod_eq_fieldOf_add w 50 10 rfl, mod_eq_fieldOf_add w 40 10 rfl, mod_eq_fieldOf_add w 36 4 rfl,
        mod_eq_fieldOf_add w 33 3 rfl, mod_eq_fieldOf_add w 32 1 rfl, mod_eq_fieldOf_add w 0 32 rfl]
      simp only [pow_zero, Nat.mod_one]
      ring

theorem toNat_append_add {m n : Nat} (x : BitVec m) (y : BitVec n) : (x ++ y).toNat = x.toNat * 2 ^ n + y.toNat := by
  rw [BitVec.toNat_append, ← Nat.shiftLeft_add_eq_or_of_lt y.isLt, Nat.shiftLeft_eq]

/-- An encoded word as the sum of its fields, each at its place. -/
theorem toNat_encodeFields {op : Nat} (hop : op < 2 ^ 8) (f : Fields) :
    (encodeFields op f).toNat = op * 2 ^ 88 + f.fn.toNat * 2 ^ 84 + f.gn.toNat * 2 ^ 83 + f.gp.toNat * 2 ^ 80 +
      f.d.code * 2 ^ 70 + f.a.code * 2 ^ 60 + f.b.code * 2 ^ 50 + f.c.code * 2 ^ 40 + f.ty.code * 2 ^ 36 +
      f.rnd.toNat * 2 ^ 33 + f.flag.toNat * 2 ^ 32 + f.imm.toNat := by
  simp only [encodeFields, toNat_append_add, BitVec.toNat_ofNat, BitVec.toNat_ofBool, Nat.mod_eq_of_lt hop,
    Nat.mod_eq_of_lt (Opnd.code_lt _), Nat.mod_eq_of_lt (Ty.code_lt _)]
  ring

/-- The fields of a word, once its operand codes have named operands. -/
def wordFields (w : IWord) (d a b c : Opnd) : Fields :=
  { fn := BitVec.ofNat 4 (fieldOf w 84 4), gn := fieldOf w 83 1 = 1, gp := BitVec.ofNat 3 (fieldOf w 80 3)
    d, a, b, c, ty := Ty.ofCode (BitVec.ofNat 4 (fieldOf w 36 4)), rnd := BitVec.ofNat 3 (fieldOf w 33 3)
    flag := fieldOf w 32 1 = 1, imm := BitVec.ofNat 32 (fieldOf w 0 32) }

/-- Each field of an encoded word is the field that was written. -/
theorem fieldOf_encodeFields {op : Nat} (hop : op < 2 ^ 8) (f : Fields) (w : IWord) (hw : w = encodeFields op f) :
    fieldOf w 88 8 = op ∧ fieldOf w 84 4 = f.fn.toNat ∧ fieldOf w 83 1 = f.gn.toNat ∧ fieldOf w 80 3 = f.gp.toNat ∧
      fieldOf w 70 10 = f.d.code ∧ fieldOf w 60 10 = f.a.code ∧ fieldOf w 50 10 = f.b.code ∧ fieldOf w 40 10 = f.c.code ∧
      fieldOf w 36 4 = f.ty.code ∧ fieldOf w 33 3 = f.rnd.toNat ∧ fieldOf w 32 1 = f.flag.toNat ∧
      fieldOf w 0 32 = f.imm.toNat := by
  have hword := toNat_encodeFields hop f
  rw [← hw] at hword
  have hfn := f.fn.isLt
  have hgn := f.gn.toNat_lt
  have hgp := f.gp.isLt
  have hd := f.d.code_lt
  have ha := f.a.code_lt
  have hb := f.b.code_lt
  have hc := f.c.code_lt
  have hty := f.ty.code_lt
  have hrnd := f.rnd.isLt
  have hflag := f.flag.toNat_lt
  have himm := f.imm.isLt
  unfold fieldOf
  refine ⟨?_, ?_, ?_, ?_, ?_, ?_, ?_, ?_, ?_, ?_, ?_, ?_⟩ <;> omega

/-- The fields of an encoded word are those that were encoded. -/
theorem wordFields_encodeFields {op : Nat} (hop : op < 2 ^ 8) (f : Fields) :
    wordFields (encodeFields op f) f.d f.a f.b f.c = f := by
  obtain ⟨-, hfn, hgn, hgp, -, -, -, -, hty, hrnd, hflag, himm⟩ := fieldOf_encodeFields hop f _ rfl
  have hbool (x : Bool) : decide (x.toNat = 1) = x := by cases x <;> rfl
  simp only [wordFields, hfn, hgn, hgp, hty, hrnd, hflag, himm, hbool, Ty.ofCode_code, BitVec.ofNat_toNat,
    BitVec.setWidth_eq]

/-- A word is the encoding of its fields. -/
theorem encodeFields_wordFields {w : IWord} {d a b c : Opnd} (hd : d.code = fieldOf w 70 10) (ha : a.code = fieldOf w 60 10)
    (hb : b.code = fieldOf w 50 10) (hc : c.code = fieldOf w 40 10) :
    encodeFields (fieldOf w 88 8) (wordFields w d a b c) = w := by
  have hbit (lo : Nat) : (decide (fieldOf w lo 1 = 1)).toNat = fieldOf w lo 1 := by
    have := fieldOf_lt w lo 1
    interval_cases fieldOf w lo 1 <;> rfl
  have hmod (lo n : Nat) : fieldOf w lo n % 2 ^ n = fieldOf w lo n := Nat.mod_eq_of_lt (fieldOf_lt w lo n)
  apply BitVec.eq_of_toNat_eq
  rw [toNat_encodeFields (fieldOf_lt w 88 8), toNat_eq_fieldOf_sum w]
  simp only [wordFields, hd, ha, hb, hc, hbit, hmod, Ty.code_ofCode, BitVec.toNat_ofNat]

/-! ## Decoding by way of the fields -/

/-- Where every operand code names an operand, decoding a word is checking its fields. -/
theorem decodeAt_of_codes {win : Nat} {w : IWord} {d a b c : Opnd} (hd : Opnd.ofCode (fieldOf w 70 10) = some d)
    (ha : Opnd.ofCode (fieldOf w 60 10) = some a) (hb : Opnd.ofCode (fieldOf w 50 10) = some b)
    (hc : Opnd.ofCode (fieldOf w 40 10) = some c) :
    decodeAt win w = checkFields win (fieldOf w 88 8) (wordFields w d a b c) := by
  simp only [decodeAt, hd, ha, hb, hc, wordFields]

/-- Decoding an encoded word is checking what was encoded. -/
theorem decode_encodeFields {op : Nat} (hop : op < 2 ^ 8) (f : Fields) :
    decode (encodeFields op f) = checkFields 256 op f := by
  obtain ⟨hcode, -, -, -, hd, ha, hb, hc, -⟩ := fieldOf_encodeFields hop f _ rfl
  rw [decode, decodeAt_of_codes (d := f.d) (a := f.a) (b := f.b) (c := f.c), hcode, wordFields_encodeFields hop]
  · rw [hd, Opnd.ofCode_code]
  · rw [ha, Opnd.ofCode_code]
  · rw [hb, Opnd.ofCode_code]
  · rw [hc, Opnd.ofCode_code]

/-- The fields of a word with ZERO for each operand code that names nothing. -/
def gapFields (w : IWord) : Fields :=
  wordFields w ((Opnd.ofCode (fieldOf w 70 10)).getD .zero) ((Opnd.ofCode (fieldOf w 60 10)).getD .zero)
    ((Opnd.ofCode (fieldOf w 50 10)).getD .zero) ((Opnd.ofCode (fieldOf w 40 10)).getD .zero)

/-- A word with an operand code that names nothing is refused before types are looked at: with 0 where the check of opcode
and FN fails, which comes first, and with at most 2 elsewhere. -/
theorem decodeAt_of_noCode {win : Nat} {w : IWord} (h : ∃ lo ∈ [70, 60, 50, 40], Opnd.ofCode (fieldOf w lo 10) = none) :
    ∃ r, r ≤ 2 ∧ decodeAt win w =
      if Instr.ofKey (fieldOf w 88 8) (gapFields w) = none ∨ fnMax (fieldOf w 88 8) < (gapFields w).fn.toNat
      then .error (.illegal 0) else .error (.illegal r) := by
  unfold decodeAt
  split
  · simp_all
  · cases hkey : Instr.ofKey (fieldOf w 88 8) (gapFields w) with
    | none =>
      simp only [gapFields, wordFields] at hkey
      exact ⟨0, by decide, by simp only [hkey, true_or, if_true]⟩
    | some i =>
      simp only [gapFields, wordFields] at hkey ⊢
      simp only [hkey, reduceCtorEq, false_or]
      split_ifs
      · exact ⟨0, by decide, rfl⟩
      · exact ⟨1, by decide, rfl⟩
      · exact ⟨1, by decide, rfl⟩
      · exact ⟨2, by decide, rfl⟩

/-- Some operand code of a word names nothing, or all four name operands. -/
theorem exists_noCode_or_codes (w : IWord) :
    (∃ lo ∈ [70, 60, 50, 40], Opnd.ofCode (fieldOf w lo 10) = none) ∨
      ∃ d a b c, Opnd.ofCode (fieldOf w 70 10) = some d ∧ Opnd.ofCode (fieldOf w 60 10) = some a ∧
        Opnd.ofCode (fieldOf w 50 10) = some b ∧ Opnd.ofCode (fieldOf w 40 10) = some c := by
  simp only [List.mem_cons, List.not_mem_nil, or_false, exists_eq_or_imp, exists_eq_left, Option.eq_none_iff_forall_ne_some]
  grind

/-! ## The checks of an opcode and its fields (R138) -/

/-- An opcode or FN that is not assigned is refused with 0. -/
theorem checkFields_key_refused {win op : Nat} {f : Fields} (h : Instr.ofKey op f = none ∨ fnMax op < f.fn.toNat) :
    checkFields win op f = .error (.illegal 0) := by
  unfold checkFields
  split
  · rfl
  · rename_i i hkey
    exact if_pos (h.resolve_left (by simp [hkey]))

/-- Of an assigned opcode and FN, the checks of the other fields in their order. -/
theorem checkFields_of_key {win op : Nat} {f : Fields} {i : Instr} (hkey : Instr.ofKey op f = some i) (hfn : f.fn.toNat ≤ fnMax op) :
    checkFields win op f =
      if (formOf op f).unusedOk f = false ∨ (formOf op f).resOk = false then .error (.illegal 1)
      else if (formOf op f).operandsOk win f = false then .error (.illegal 2)
      else if (formOf op f).tyOk = false ∨ (formOf op f).rndOk = false then .error (.illegal 3)
      else .ok i := by
  simp only [checkFields, hkey, Nat.not_lt.2 hfn, if_false, Bool.not_eq_true', Bool.and_eq_false_iff]

/-- Opcode and fields of a well-formed instruction name it. -/
theorem ofKey_of_isaOk {op : Nat} {f : Fields} {i : Instr} (h : isaOk i op f = true) : Instr.ofKey op f = some i := by
  simp only [isaOk, Bool.and_eq_true, decide_eq_true_eq] at h
  obtain ⟨⟨⟨⟨hkey, -⟩, -⟩, -⟩, -⟩ := h
  exact hkey

/-- The checks accept exactly the fields that make a well-formed instruction. -/
theorem checkFields_ok_iff {op : Nat} {f : Fields} {i : Instr} : checkFields 256 op f = .ok i ↔ isaOk i op f = true := by
  by_cases hkey : Instr.ofKey op f = none ∨ fnMax op < f.fn.toNat
  · rw [checkFields_key_refused hkey]
    simp only [isaOk, fnOk, reduceCtorEq, Bool.and_eq_true, decide_eq_true_eq, false_iff]
    rintro ⟨⟨⟨⟨hi, hfn⟩, -⟩, -⟩, -⟩
    exact hkey.elim (by simp [hi]) (Nat.not_lt.2 hfn)
  · push Not at hkey
    obtain ⟨j, hj⟩ := Option.ne_none_iff_exists'.1 hkey.1
    rw [checkFields_of_key hj hkey.2]
    simp only [isaOk, fnOk, reservedOk, operandsOk, typesOk, hj, hkey.2, Option.some.injEq, Bool.and_eq_true,
      decide_eq_true_eq]
    split_ifs <;> grind

/-- The reasons of the checks are 0 to 3 (R306). -/
theorem checkFields_error {win op r : Nat} {f : Fields} (h : checkFields win op f = .error (.illegal r)) : r ≤ 3 := by
  by_cases hkey : Instr.ofKey op f = none ∨ fnMax op < f.fn.toNat
  · cases (checkFields_key_refused hkey).symm.trans h
    decide
  · push Not at hkey
    obtain ⟨i, hi⟩ := Option.ne_none_iff_exists'.1 hkey.1
    rw [checkFields_of_key hi hkey.2] at h
    split_ifs at h <;> cases h <;> decide

/-- The instruction that an opcode and fields name carries them. -/
theorem isa_of_ofKey {op : Nat} {f : Fields} {i : Instr} (h : Instr.ofKey op f = some i) : i.isa = some (op, f) := by
  unfold Instr.ofKey at h
  split at h <;> cases h <;> repeat' split
  all_goals rfl

theorem ofKey_unassigned {op : Nat}
    (h : 0x14 ≤ op ∧ op ≤ 0x1F ∨ 0x33 ≤ op ∧ op ≤ 0x3F ∨ 0x4B ≤ op ∧ op ≤ 0x4F ∨ 0x59 ≤ op ∧ op ≤ 0x5F ∨
      0x7D ≤ op ∧ op ≤ 0x8F ∨ 0x99 ≤ op ∧ op ≤ 0x9F ∨ 0xA7 ≤ op ∧ op ≤ 0xAF ∨ 0xBA ≤ op ∧ op ≤ 0xBF ∨
      0xC5 ≤ op ∧ op ≤ 0xDF ∨ 0xEB ≤ op) (f : Fields) : Instr.ofKey op f = none := by
  unfold Instr.ofKey
  split
  case h_131 => rfl
  all_goals omega

theorem op_lt_of_ofKey {op : Nat} {f : Fields} {i : Instr} (h : Instr.ofKey op f = some i) : op < 2 ^ 8 := by
  by_contra hop
  rw [ofKey_unassigned (by omega)] at h
  cases h

/-! ## The statement's parts -/

/-- Decoding gives back what was encoded. -/
theorem decode_of_encode {i : Instr} {w : IWord} (hwf : wellFormed i = true) (h : encode i = some w) : decode w = .ok i := by
  unfold encode at h
  unfold wellFormed at hwf
  split at h
  · rename_i op f hisa
    cases h
    simp only [hisa] at hwf
    rw [decode_encodeFields (op_lt_of_ofKey (ofKey_of_isaOk hwf)), checkFields_ok_iff]
    exact hwf
  · cases h

/-- A word that decodes is the encoding of the well-formed instruction it decodes to. -/
theorem encode_of_decode {i : Instr} {w : IWord} (h : decode w = .ok i) : encode i = some w ∧ wellFormed i = true := by
  rcases exists_noCode_or_codes w with hgap | ⟨d, a, b, c, hd, ha, hb, hc⟩
  · obtain ⟨r, -, hr⟩ := decodeAt_of_noCode (win := 256) hgap
    rw [← decode, h] at hr
    split_ifs at hr
  · rw [decode, decodeAt_of_codes hd ha hb hc, checkFields_ok_iff] at h
    have hword : encodeFields (fieldOf w 88 8) (wordFields w d a b c) = w :=
      encodeFields_wordFields (Opnd.code_of_ofCode (fieldOf_lt w 70 10) hd) (Opnd.code_of_ofCode (fieldOf_lt w 60 10) ha)
        (Opnd.code_of_ofCode (fieldOf_lt w 50 10) hb) (Opnd.code_of_ofCode (fieldOf_lt w 40 10) hc)
    simp only [encode, wellFormed, isa_of_ofKey (ofKey_of_isaOk h), hword, h, and_self]

/-- The reason of a refused word is 0 to 3 (R306). -/
theorem decode_error_le {w : IWord} {r : Nat} (h : decode w = .error (.illegal r)) : r ≤ 3 := by
  rcases exists_noCode_or_codes w with hgap | ⟨d, a, b, c, hd, ha, hb, hc⟩
  · obtain ⟨r', hle, hr⟩ := decodeAt_of_noCode (win := 256) hgap
    rw [← decode, h] at hr
    split_ifs at hr <;> cases hr <;> omega
  · rw [decode, decodeAt_of_codes hd ha hb hc] at h
    exact checkFields_error h

/-- A word whose opcode names no instruction, or whose FN is above the highest of its opcode, is refused with 0, whatever its
operand codes are. -/
theorem decode_key_refused {w : IWord}
    (h : (∀ f, Instr.ofKey (fieldOf w 88 8) f = none) ∨ fnMax (fieldOf w 88 8) < fieldOf w 84 4) :
    decode w = .error (.illegal 0) := by
  have hfields (d a b c : Opnd) : Instr.ofKey (fieldOf w 88 8) (wordFields w d a b c) = none ∨
      fnMax (fieldOf w 88 8) < (wordFields w d a b c).fn.toNat := by
    have hfn : (wordFields w d a b c).fn.toNat = fieldOf w 84 4 := Nat.mod_eq_of_lt (fieldOf_lt w 84 4)
    exact h.imp (fun hkey => hkey _) (fun hlt => hfn ▸ hlt)
  rcases exists_noCode_or_codes w with hgap | ⟨d, a, b, c, hd, ha, hb, hc⟩
  · obtain ⟨r, -, hr⟩ := decodeAt_of_noCode (win := 256) hgap
    rw [decode, hr, gapFields, if_pos (hfields _ _ _ _)]
  · rw [decode, decodeAt_of_codes hd ha hb hc, checkFields_key_refused (hfields _ _ _ _)]

end Sys2Proof

section

open Sys2Proof

/-- Settles O55: encoding and reading fields undo each other, and `checkFields` answers what each clause says. -/
theorem decodingAndEncodingAgree : Obligations.DecodingAndEncodingAgree := by
  refine ⟨fun i w => decode_of_encode, fun i w => encode_of_decode, fun w r => decode_error_le, ?_, fun op => ofKey_unassigned,
    ?_, ?_, ?_⟩
  · intro w h
    exact decode_key_refused (.inl (fieldOf_opcode w ▸ h))
  · intro w h
    refine decode_key_refused (.inr (Nat.lt_of_le_of_lt ?_ h))
    rw [fieldOf_opcode]
    generalize w.toNat / 2 ^ 88 = op
    unfold fnMax
    split
    case h_15 => exact Nat.zero_le _
    all_goals exact Nat.le_refl _
  · intro op f i hop hkey hfn
    rw [decode_encodeFields hop, checkFields_of_key hkey hfn]
  · intro w h
    obtain ⟨r, hle, hr⟩ := decodeAt_of_noCode (win := 256) h
    rw [decode, hr]
    split_ifs
    · exact ⟨0, by decide, rfl⟩
    · exact ⟨r, hle, rfl⟩

end
end

section
/-!
# System forms need their level (O45)

Every system form but CAPMK runs inside `State.system`, which asks `State.privilege` first; so the statement is a fact about the
levels alone: below the level that R313 gives its form, an instruction is refused with reason 4.
-/

namespace Sys2Proof.Machine

open Sys2Proof

/-- A system form runs under the check of its level. -/
theorem exec_systemOf {i : Instr} {f : Fields} {level : Nat} (hi : systemOf i = some (f, level)) (s : State) :
    ∃ run, exec i s = s.system i run := by
  unfold systemOf at hi
  split at hi
  case h_12 => cases hi
  all_goals exact ⟨_, rfl⟩

/-- No system form issues at user level, which every compute core has (R300). -/
theorem one_le_of_systemOf {i : Instr} {f : Fields} {level : Nat} (hi : systemOf i = some (f, level)) : 1 ≤ level := by
  unfold systemOf at hi
  split at hi <;> cases hi <;> repeat' split
  all_goals decide

/-- Below the level of its form, an issuer is refused with reason 4 (R145, R306). -/
theorem State.privilege_of_systemOf {i : Instr} {f : Fields} {level : Nat} (hi : systemOf i = some (f, level)) {s : State}
    (hlow : s.level < level) : s.privilege i = some 4 := by
  unfold systemOf at hi
  split at hi <;> cases hi
  case h_2 =>
    split_ifs at hlow with hhyper
    · by_cases hsup : s.level < opLevel 0xE1
      · exact if_pos hsup
      · simp only [State.privilege, Instr.isa, hsup, hlow, hhyper, decide_true, Bool.and_self, if_true, if_false]
    · exact if_pos hlow
  all_goals exact if_pos hlow

/-- The level of an issuer: the management core's, or user level. -/
theorem State.level_lt {s : State} {level : Nat} (hpos : 1 ≤ level) (h : s.cur = .mgmt → s.csr.pl.toNat < level) :
    s.level < level := by
  unfold State.level
  split
  case h_1 hcur => exact h hcur
  case h_2 => exact hpos

end Sys2Proof.Machine

section

open Sys2Proof Sys2Proof.Machine

/-- Settles O45: the form runs inside `State.system`, whose check refuses it. -/
theorem systemFormsNeedTheirLevel : Obligations.SystemFormsNeedTheirLevel := by
  intro i f level s c hi hc hlow
  obtain ⟨run, hrun⟩ := exec_systemOf hi s
  rw [hrun, State.system, State.privilege_of_systemOf hi (State.level_lt (one_le_of_systemOf hi) hlow), hc]
  rfl

end
end

section
/-!
# Words of the spec decode (O54)

The words are closed terms, so decoding each of them is a computation.
-/

/-- Settles O54: each word computes to its instruction. -/
theorem wordsOfTheSpecDecode : Obligations.WordsOfTheSpecDecode :=
  ⟨rfl, rfl, rfl, rfl, rfl, rfl, rfl, rfl, rfl, rfl, rfl⟩

end

section
/-!
# Two windows of one launch on one core (O56)

In a BRA, BRX, CALL, CALLX or RET each unit of an entry runs with the overlays that were loading before the issue, which
`State.runApart` looks up by launch and core (R46). The machine makes one frame window for a launch on a core, but the statement
does not ask that of a state. Where a state holds two, the step gives the second the overlays that the first is loading, while
`exec` of the instruction leaves both alone.
-/

namespace Sys2Proof.Machine

open Sys2Proof

/-- BRA under a guard that never holds: the thread moves on (R135). -/
def untakenBra : Fields :=
  { fn := 0, gn := true, gp := 7, d := .zero, a := .zero, b := .zero, c := .zero, ty := .i8, rnd := 0, flag := false, imm := 0 }

/-- Overlay 0 of an image that begins with the untaken BRA, in frame 0. -/
def windowLoading (loading : List (Nat × Nat × Nat × Word)) : FrameWin :=
  { launch := 1, core := 0, map := [some 0], loading
    bytes := Memory.empty.write 0 64 (placeWord 0 0 (encodeFields 0x60 untakenBra).toNat) }

/-- The only unit of block 1: lane 0 at the first slot of the image. -/
def braUnit : IssueUnit :=
  { lanes := 1, ip := 0, way := some 0, stamp := 0, hinted := false, held := none, aged := false, stuck := false }

/-- Launch 1 with its block 1 of one thread resident on core 0. The launch has two windows there, and only the first of them is
loading an overlay. -/
def stateTwoWindows (agenda : List Action) : State :=
  { State.reset with
    agenda
    launches := [{ launchOfRecord 0 0 [] with id := 1, state := .run, novl := 1, regs := 8 }]
    blocks := [{ id := 1, launch := 1, index := 0, age := 0, slot := 0, state := .resident, started := true, inSlot := false
                 stopped := false, preempted := false, groups := [Group.fresh [Thread.fresh 8 0 1 false] [braUnit]]
                 parts := [{ core := 0, slot := 0, state := .resident, scratch := .empty, bslots := .empty, codebook := .empty
                             acm := .empty, held := [], spilled := [], charge := 0, queued := false, sel := 0, marks := [] }]
                 mmas := [], idle := 0, heldOn := [] }]
    windows := [windowLoading [(1, 1, 0, 1)], windowLoading []] }

/-- Where that unit stands. -/
def braPlaced : Placed := { launch := 1, block := 1, group := 0, idx := 0, unit := braUnit }
/-- The unit issues. -/
def braIssuing : State := (stateTwoWindows []).aim braPlaced braUnit.ip

/-- What the unit's issue reads. -/
def braCtx : Ctx :=
  { g := Group.fresh [Thread.fresh 8 0 1 false] [braUnit], rd := Group.fresh [Thread.fresh 8 0 1 false] [braUnit]
    u := braUnit, lanes := [0] }

theorem braIssuing_stands : braIssuing.Stands braCtx (.bra untakenBra) where
  ctx := by decide +kernel
  inside := by decide +kernel
  frame := by decide +kernel
  back := .inl (by decide +kernel)
  parity := by decide +kernel
  reserved := by decide +kernel
  mgmt := nofun
  word := by decide +kernel
  level := rfl
  single := by decide +kernel

/-- What `exec` makes of the untaken BRA. -/
def braDone : State :=
  match exec (.bra untakenBra) braIssuing with
  | .next t => t
  | _ => braIssuing

theorem exec_untakenBra : exec (.bra untakenBra) braIssuing = .next braDone := by
  have hnext : (match exec (.bra untakenBra) braIssuing with | .next _ => true | _ => false) = true := by decide +kernel
  unfold braDone
  split at hnext
  case h_1 hexec => simp only [hexec]
  case h_2 => cases hnext

theorem braDone_stays : braIssuing.Stays braDone braCtx := by
  have hall : ∀ g ∈ braDone.groupOf braIssuing.cur, ∀ l ∈ braCtx.lanes, braIssuing.ipOk (g.thread l).ip = true := by
    decide +kernel
  exact fun g hg l hl _ => hall g hg l hl

/-- The overlays that the windows of an outcome's next state are loading. -/
def loadingsOf : Out → List (List (Nat × Nat × Nat × Word))
  | .next t => t.windows.map FrameWin.loading
  | _ => []

/-- Refutes O56: after a step that runs the untaken BRA both windows are loading overlay 1, where after `exec` of it the second
loads none. -/
theorem not_aStepRunsTheInstructionAtTheIp : ¬ Obligations.AStepRunsTheInstructionAtTheIp := by
  intro h
  obtain ⟨-, hentry, -⟩ := h (stateTwoWindows [.entry 0 0 0 0]) braDone (.bra untakenBra)
  obtain ⟨hstep, -⟩ := hentry 0 0 0 0 [] (stateTwoWindows []) braPlaced braCtx rfl rfl (by decide +kernel) (by decide +kernel)
    braIssuing_stands exec_untakenBra
  have hloadings := congrArg loadingsOf (hstep (by decide +kernel) braDone_stays)
  exact absurd hloadings (by decide +kernel)

end Sys2Proof.Machine
end

section
/-!
# Results of the register pipeline (O1, O2, O3, O4)

Every instruction of the arithmetic chapter with one register result is the same operation, `State.compute`, with an opcode, fields
and a value of its own. So each family settles into one equation (`exec_integerResult`, `exec_floatResult`, `exec_moveResult`),
and what completing means is proved once for the operation (`compute_clear` in lanes, `computeS_clear` for the group).
-/

namespace Sys2Proof.Machine

open Sys2Proof

/-! ## The one operation -/

/-- What an instruction with one result does: it computes the result under its opcode and fields (R156 to R159). -/
def State.computeResult (s : State) (r : Result) : Out := s.finish (s.compute r.op r.f r.pair r.value)

/-- Such an instruction completes in its V form. -/
theorem completesInLanes_of_computeResult {i : Instr} {r : Result} (h : ∀ s, exec i s = s.computeResult r) :
    CompletesInLanes i r := by
  intro s c hclear hnoS
  rw [h]
  exact compute_clear hclear hnoS r.pair r.value

/-- Such an instruction completes in its S form. -/
theorem completesForGroup_of_computeResult {i : Instr} {r : Result} (h : ∀ s, exec i s = s.computeResult r) :
    CompletesForGroup i r := by
  intro s c hclear hS
  rw [h]
  exact computeS_clear hclear hS r.pair r.value

/-! ## Integer results -/

/-- The exact result of an integer form, wrapped or with .SAT clamped once (R161). -/
theorem State.intOp_eq_computeResult (s : State) (op : Nat) (f : Fields) (x : Int → Int → Int → Int) :
    s.intOp op f x = s.computeResult (intOf op f x) := by
  simp only [State.intOp, State.computeResult, intOf, fitInt, decide_eq_true_eq]
  rfl

/-- Each integer instruction computes its result. The seven that wrap or clamp an exact integer share `State.intOp`; IDOT4 fits
its sum to a type of its own; the others are `State.compute` as they stand. -/
theorem exec_integerResult {i : Instr} {r : Result} (hi : integerResult i = some r) (s : State) :
    exec i s = s.computeResult r := by
  unfold integerResult at hi
  split at hi <;> cases hi
  case h_1 | h_2 | h_3 | h_4 | h_5 | h_6 | h_7 =>
    rw [← State.intOp_eq_computeResult]
    rfl
  case h_18 f =>
    show execIdot4 f s = _
    have hwidth : (if f.ty = .i8 then Ty.i32 else .n32).width = 32 := by split <;> rfl
    simp only [execIdot4, State.computeResult, fitInt, decide_eq_true_eq, hwidth]
  all_goals rfl

/-! ## Floating-point results -/

/-- The rounding code of a mode other than SR. -/
theorem rnd_toNat_ne {f : Fields} (hrnd : f.rnd ≠ 5) : f.rnd.toNat ≠ 5 := fun h => hrnd (BitVec.eq_of_toNat_eq h)

/-- In every mode but SR a rounding draws nothing (R113). -/
theorem roundSr_of_ne {mode : Nat} (hmode : mode ≠ 5) (fm : Fmt) (sat : Bool) (z : Word) (x : FVal) :
    roundSr fm mode sat z x = (roundVal fm mode sat z.toNat x, z) := by
  simp only [roundSr, if_neg hmode]

/-- A fold that appends to its first part and keeps its second is a map. -/
theorem foldl_append_map {α β γ : Type} (code : γ → α → β) (z : γ) (xs : List α) (codes : List β) :
    xs.foldl (fun r x => (r.1 ++ [code r.2 x], r.2)) (codes, z) = (codes ++ xs.map (code z), z) := by
  induction xs generalizing codes with
  | nil => simp
  | cons x xs ih => simp [ih]

/-- So elements are rounded one by one. -/
theorem roundElems_of_ne {mode : Nat} (hmode : mode ≠ 5) (fm : Fmt) (sat ftz : Bool) (z : Word) (xs : List FVal) :
    (roundElems fm mode sat ftz z xs).1 = xs.map fun x => flush fm ftz (roundVal fm mode sat z.toNat x) := by
  have hfold := foldl_append_map (fun (z : Word) x => flush fm ftz (roundVal fm mode sat z.toNat x)) z xs []
  simp only [roundElems, roundSr_of_ne hmode, hfold, List.nil_append]

/-- What a form that rounds exact elements does in every mode but SR: the codes of elements 0 and 1 side by side. -/
def roundedElems (op : Nat) (f : Fields) (elems : State → Group → Nat → List FVal) : Result :=
  ⟨op, f, false, fun s g l =>
    let codes := (elems s g l).map (roundedTo f)
    BitVec.ofNat 64 (codes.getD 0 0 + codes.getD 1 0 * 2 ^ f.ty.width)⟩

theorem State.floatOp_eq_computeResult {f : Fields} (hrnd : f.rnd ≠ 5) (s : State) (op : Nat)
    (elems : State → Group → Nat → List FVal) : s.floatOp op f elems = s.computeResult (roundedElems op f elems) := by
  have hmode := rnd_toNat_ne hrnd
  simp only [State.floatOp, if_neg hmode, roundElems_of_ne hmode]
  rfl

/-- One exact element, rounded once. -/
theorem State.floatOp_one {f : Fields} (hrnd : f.rnd ≠ 5) (s : State) (op : Nat) (x : State → Group → Nat → FVal) :
    s.floatOp op f (fun s g l => [x s g l])
      = s.computeResult ⟨op, f, false, fun s g l => BitVec.ofNat 64 (roundedTo f (x s g l))⟩ := by
  rw [State.floatOp_eq_computeResult hrnd]
  simp [roundedElems]

/-- Two exact elements, each rounded once (R173). -/
theorem State.floatOp_two {f : Fields} (hrnd : f.rnd ≠ 5) (s : State) (op : Nat) (x : FVal → FVal → FVal → FVal) :
    s.floatOp op f (fun s g l => [0, 1].map fun e =>
      x (s.felem g l f f.a e) (s.felem g l f f.b e) (s.felem g l f f.c e)) = s.computeResult (packedOf op f x) :=
  State.floatOp_eq_computeResult hrnd s op _

/-- Each floating-point instruction computes its result in every mode but SR. FADD, FMUL, FFMA, FSCALE and the
packed forms share `State.floatOp`, and FSQRT chooses by the mode; the others are `State.compute` as they stand. -/
theorem exec_floatResult {i : Instr} {r : Result} (hi : floatResult i = some r) (hrnd : r.f.rnd ≠ 5) (s : State) :
    exec i s = s.computeResult r := by
  unfold floatResult at hi
  split at hi <;> cases hi <;> rename_i f <;> replace hrnd : f.rnd ≠ 5 := hrnd
  case h_1 | h_2 | h_3 | h_14 => exact State.floatOp_one hrnd s _ _
  case h_9 =>
    show execFsqrt f s = _
    simp only [execFsqrt, if_neg hrnd]
    rfl
  case h_16 => exact State.floatOp_two hrnd s 0x30 fun a b c => (a.mul b).add f.rnd.toNat c
  case h_17 => exact State.floatOp_two hrnd s 0x31 fun a b _ => a.add f.rnd.toNat b
  case h_18 => exact State.floatOp_two hrnd s 0x32 fun a b _ => a.mul b
  all_goals rfl

/-! ## Moves and conversions -/

/-- A MOV that is not of 64 bits between V pairs computes its result. -/
theorem execMov_eq_computeResult {f : Fields} (hpair : movesPair (.mov f) = false) (s : State) :
    execMov f s = s.computeResult ⟨0x40, f, f.ty.pair, fun s g l => s.operand g l f f.ty.pair f.a⟩ := by
  unfold execMov
  split
  case h_1 a d ha hd =>
    have hnarrow : f.ty.pair = false := by simpa [movesPair, ha, hd] using hpair
    simp only [hnarrow, Bool.false_eq_true, if_false, State.computeResult, State.srcA]
  case h_2 => rfl

/-- MOVIH writes the odd register of its pair, or the upper half of its register (R181). -/
theorem execMovih_eq_computeResult {f : Fields} {r : Result} (hr : moveResult (.movih f) = some r) (s : State) :
    execMovih f s = s.computeResult r := by
  cases hr
  unfold execMovih
  split
  case isTrue hpair => rfl
  case isFalse hpair => rfl

/-- Each move and conversion computes its result in every mode but SR, a MOV that copies a pending handle apart. CVT and
PACK choose by the mode. -/
theorem exec_moveResult {i : Instr} {r : Result} (hi : moveResult i = some r) (hrnd : r.f.rnd ≠ 5)
    (hpair : movesPair i = false) (s : State) : exec i s = s.computeResult r := by
  unfold moveResult at hi
  split at hi
  case h_1 => cases hi; exact execMov_eq_computeResult hpair s
  case h_3 => exact execMovih_eq_computeResult hi s
  case h_6 f =>
    cases hi
    show execCvt f s = _
    replace hrnd : f.rnd ≠ 5 := hrnd
    simp only [execCvt, if_neg hrnd]
    rfl
  case h_7 f =>
    cases hi
    show execPack f s = _
    replace hrnd : f.rnd ≠ 5 := hrnd
    simp only [execPack, if_neg hrnd, roundSr_of_ne (rnd_toNat_ne hrnd)]
    rfl
  case h_2 | h_4 | h_5 | h_8 | h_9 =>
    cases hi
    rfl
  case h_10 => cases hi

/-! ## The statements -/

/-- Settles O1: each integer instruction is `State.compute`, whose law says what it leaves in lanes. -/
theorem integerResultsInLanes : Obligations.IntegerResultsInLanes :=
  fun _ _ hi => completesInLanes_of_computeResult (exec_integerResult hi)

/-- Settles O2: the same of the floating-point instructions, which outside SR draw nothing. -/
theorem floatResultsInLanes : Obligations.FloatResultsInLanes :=
  fun _ _ hi hrnd => completesInLanes_of_computeResult (exec_floatResult hi hrnd)

/-- Settles O3: the same of the moves and conversions. -/
theorem moveResultsInLanes : Obligations.MoveResultsInLanes :=
  fun _ _ hi hrnd hpair => completesInLanes_of_computeResult (exec_moveResult hi hrnd hpair)

/-- Settles O4: the same equations, with the law of what `State.compute` leaves for the group. -/
theorem scalarFormsOnceForGroup : Obligations.ScalarFormsOnceForGroup := by
  intro i r hi hrnd hpair
  refine completesForGroup_of_computeResult ?_
  rcases hi with hi | hi | hi
  · exact exec_integerResult hi
  · exact exec_floatResult hi hrnd
  · exact exec_moveResult hi hrnd hpair

end Sys2Proof.Machine
end

section
/-!
# Compares and IADDC (O6, O7)

These instructions write predicates, IADDC next to its register result. In lanes each acts on its own thread (`LaneLocal`). For the
group each writes the same in every lane of the unit, by one law of the group-wide pipeline (`perGroup_commits`).
-/

namespace Sys2Proof.Machine

open Sys2Proof

/-! ## What a list of lanes does -/

/-- The group `h` is `g` after each lane of `ls` has done `run`, apart from what queued matrix instructions have lost. -/
def Group.RunsLanes (g h : Group) (ls : List Nat) (run : Nat → Thread → Thread) : Prop :=
  h = { g with threads := h.threads, mxq := h.mxq } ∧ h.threads.length = g.threads.length ∧
    h.mxq.map MxOp.kept = g.mxq.map MxOp.kept ∧
    ∀ k, k < g.threads.length → h.thread k = if k ∈ ls then run k (g.thread k) else g.thread k

/-- The same lanes do one thing and then another. -/
theorem Group.RunsLanes.trans {g h k : Group} {ls : List Nat} {run after : Nat → Thread → Thread}
    (first : g.RunsLanes h ls run) (second : h.RunsLanes k ls after) :
    g.RunsLanes k ls fun l t => after l (run l t) := by
  obtain ⟨hg, hlen, hmxq, hthread⟩ := first
  obtain ⟨kh, klen, kmxq, kthread⟩ := second
  refine ⟨by rw [kh, hg], klen.trans hlen, kmxq.trans hmxq, fun l hl => ?_⟩
  rw [kthread l (hlen ▸ hl), hthread l hl]
  by_cases hmem : l ∈ ls
  · simp only [hmem, if_true]
  · simp only [hmem, if_false]

/-- A predicate written in every lane of a list. -/
theorem foldl_writePred_runsLanes (o : Opnd) (x : Bool) {ls : List Nat} (hn : ls.Nodup) (g : Group) :
    g.RunsLanes (ls.foldl (fun g l => g.writePred l o x) g) ls fun _ t => t.withPred o x :=
  foldl_local (writePred_local o fun _ => x) ls g hn

/-- A register result written in every lane of a list, an S destination once. -/
theorem foldl_writeDst_runsLanes (o : Opnd) (pair : Bool) (x : DWord) {ls : List Nat} (hn : ls.Nodup) (hne : ls ≠ [])
    (g : Group) :
    Group.RunsLanes { g with s := withS g.s o pair x } (ls.foldl (fun g l => g.writeDst l o pair x) g) ls
      fun _ t => t.withDst o pair x :=
  foldl_writeDst o pair x ls g hn hne

/-- The group-wide pipeline: where the lowest lane's guard holds, every lane of the unit does `run` and the S registers are
`sregs`; every lane moves on (R37, R158). -/
theorem perGroup_commits {s : State} {c : Ctx} {op : Nat} {f : Fields} (h : s.ClearGroup c op f) {value : Ctx → Nat → DWord}
    {write : Group → Nat → DWord → Group} {also : Ctx → Group → Group} {sregs : List Word} {run : Nat → Thread → Thread}
    (hrun : Group.RunsLanes { c.g with s := sregs }
      (also c (c.lanes.foldl (fun g l => write g l (value c c.lowLane)) c.g)) c.lanes run) :
    ∃ t, s.finish (s.perGroup f (readRegs op f) value write also) = .next (s.setGroup s.cur t) ∧
      ({ c.g with s := if (c.rd.thread c.lowLane).guard f then sregs else c.g.s } : Group).OnlyLanes t
        (c.afterGroup f run) := by
  rw [perGroup_clear h.ctx f _ h.whole h.pend h.sound, finish_ok]
  by_cases hguard : (c.rd.thread c.lowLane).guard f = true
  · obtain ⟨hframe, hlen, hmxq, hthread⟩ := hrun
    obtain ⟨t, hcommit, hlanes⟩ := commit_all h.ctx { c.g with s := sregs } _ run hframe hlen hmxq hthread true 0
    simp only [hguard, if_true]
    refine ⟨t, by rw [hcommit], hlanes.congr fun l _ => ?_⟩
    simp only [Ctx.afterGroup, hguard, if_true]
    rfl
  · obtain ⟨t, hcommit, hlanes⟩ := commit_all h.ctx c.g c.g (fun _ t => t) rfl rfl rfl (by simp) true 0
    simp only [hguard, Bool.false_eq_true, if_false]
    refine ⟨t, by rw [hcommit], hlanes.congr fun l _ => ?_⟩
    simp only [Ctx.afterGroup, hguard, Bool.false_eq_true, if_false]

/-! ## Compares -/

@[simp] theorem getLsbD_ofNat_b2n (x : Bool) : (BitVec.ofNat 64 (b2n x)).getLsbD 0 = x := by
  cases x <;> rfl

/-- A form that names an S register and writes a predicate: once for the group. -/
theorem computePredS_clear {s : State} {c : Ctx} {op : Nat} {f : Fields} (h : s.ClearGroup c op f) (hS : f.namesS = true)
    (value : State → Group → Nat → Bool) :
    ∃ t, s.finish (s.computePred op f value) = .next (s.setGroup s.cur t) ∧
      c.g.OnlyLanes t (c.afterGroup f fun _ t => t.withPred f.d (value s c.rd c.lowLane)) := by
  have hwrite := foldl_writePred_runsLanes f.d (value s c.rd c.lowLane) (State.ctx?_lanes h.ctx).1 c.g
  unfold State.computePred
  rw [h.checked hS, hS, if_pos rfl]
  obtain ⟨t, hfinish, hlanes⟩ := perGroup_commits h (value := fun c l => BitVec.ofNat 64 (b2n (value s c.rd l)))
    (write := fun g l x => g.writePred l f.d (x.getLsbD 0)) (also := fun _ g => g) (sregs := c.g.s)
    (run := fun _ t => t.withPred f.d (value s c.rd c.lowLane)) (by simpa only [getLsbD_ofNat_b2n] using hwrite)
  rw [ite_self] at hlanes
  exact ⟨t, hfinish, hlanes⟩

/-- A compare computes its predicate under its opcode and fields. -/
theorem exec_predResult {i : Instr} {r : PredResult} (hi : predResult i = some r) (s : State) :
    exec i s = s.finish (s.computePred r.op r.f r.value) := by
  unfold predResult at hi
  split at hi <;> cases hi
  case h_1 => rfl
  case h_2 => rfl

/-- Settles O6: a compare is `State.computePred`, whose laws say what it writes in lanes and for the group. -/
theorem comparesWritePredicates : Obligations.ComparesWritePredicates := by
  intro i r hi
  constructor
  · intro s c hclear hnoS
    rw [exec_predResult hi]
    exact computePred_clear hclear hnoS r.value
  · intro s c hclear hS
    rw [exec_predResult hi]
    exact computePredS_clear hclear hS r.value

/-! ## IADDC -/

/-- The sum and the carry of IADDC in a lane (R162). -/
def State.carrySum (s : State) (g : Group) (l : Nat) (f : Fields) : Nat × Bool :=
  addCarry f.ty.width (s.srcA g l f).toNat (s.srcB g l f).toNat ((g.thread l).predOf f.c)

/-- A thread with the sum in D and the carry in the predicate. -/
def Thread.withCarrySum (t : Thread) (f : Fields) (x : Nat × Bool) : Thread :=
  (t.withDst f.d f.ty.pair (BitVec.ofNat 64 x.1)).withPred f.c x.2

/-- IADDC in its V form, lane by lane. -/
theorem execIaddc_lanes {s : State} {c : Ctx} {f : Fields} (h : s.Clear c 0x01 f) (hnoS : f.namesS = false) :
    ∃ t, execIaddc f s = .next (s.setGroup s.cur t) ∧
      c.g.OnlyLanes t (c.after f fun l t => t.withCarrySum f (s.carrySum c.rd l f)) := by
  have hlocal := (writeDst_local f.d f.ty.pair (fun l => BitVec.ofNat 64 (s.carrySum c.rd l f).1) (namesS_false hnoS)).comp
    (writePred_local f.c fun l => (s.carrySum c.rd l f).2)
  obtain ⟨t, hcommit, hlanes⟩ := commit_local h.ctx f hlocal true 0 c.g rfl
  refine ⟨t, ?_, hlanes⟩
  unfold execIaddc
  dsimp only
  rw [h.checked, hnoS, if_neg Bool.false_ne_true, perThread_clear h.ctx f _ h.pend h.sound _ rfl, finish_ok, ← hcommit]
  rfl

/-- IADDC in its S form, once for the group. -/
theorem execIaddc_group {s : State} {c : Ctx} {f : Fields} (h : s.ClearGroup c 0x01 f) (hS : f.namesS = true) :
    ∃ t, execIaddc f s = .next (s.setGroup s.cur t) ∧
      ({ c.g with s := if (c.rd.thread c.lowLane).guard f
          then withS c.g.s f.d f.ty.pair (BitVec.ofNat 64 (s.carrySum c.rd c.lowLane f).1) else c.g.s } : Group).OnlyLanes t
        (c.afterGroup f fun _ t => t.withCarrySum f (s.carrySum c.rd c.lowLane f)) := by
  have hn := (State.ctx?_lanes h.ctx).1
  have hsum := foldl_writeDst_runsLanes f.d f.ty.pair (BitVec.ofNat 64 (s.carrySum c.rd c.lowLane f).1) hn h.some c.g
  have hcarry := foldl_writePred_runsLanes f.c (s.carrySum c.rd c.lowLane f).2 hn
  unfold execIaddc
  dsimp only
  rw [h.checked hS, hS, if_pos rfl]
  exact perGroup_commits h (hsum.trans (hcarry _))

/-- Settles O7: the sum and the carry are `State.carrySum`, written in lanes or once for the group. -/
theorem addWithCarryWritesTheCarryBack : Obligations.AddWithCarryWritesTheCarryBack := by
  intro f s c _ _ _
  exact ⟨fun hclear hnoS => execIaddc_lanes hclear hnoS, fun hclear hS => execIaddc_group hclear hS⟩

end Sys2Proof.Machine
end

section
/-!
# Loads and stores of the register window (O10)

The window is the thread's own registers as bytes (R59, R187). An aligned access of less than 8 bytes lies within one register and
one of 8 bytes is a register pair, so what the model reads of a register or a pair is what its bytes say (`windowNat_aligned`).
Both instructions act on each lane alone, so the law of the register pipeline applies (`commit_local`).
-/

namespace Sys2Proof.Machine

open Sys2Proof

/-! ## Bytes of the window -/

/-- Bytes within one register are bits of it. -/
theorem Thread.windowNat_in_reg (t : Thread) (r n : Nat) : ∀ k, k + n ≤ 4 →
    t.windowNat (4 * r + k) n = (t.reg r).toNat / 2 ^ (8 * k) % 2 ^ (8 * n) := by
  induction n with
  | zero => intro k _; simp [Thread.windowNat, Nat.mod_one]
  | succ n ih =>
    intro k hk
    have hbyte : (t.windowByte (4 * r + k)).toNat = (t.reg r).toNat / 2 ^ (8 * k) % 256 := by
      have hreg : (4 * r + k) / 4 = r := by omega
      have hoff : (4 * r + k) % 4 = k := by omega
      rw [Thread.windowByte, hreg, hoff, BitVec.extractLsb'_toNat, Nat.shiftRight_eq_div_pow]
    have hpow : 2 ^ (8 * (n + 1)) = 256 * 2 ^ (8 * n) := by rw [Nat.mul_succ, pow_add, Nat.mul_comm]; rfl
    have hnext : 2 ^ (8 * (k + 1)) = 2 ^ (8 * k) * 256 := by rw [Nat.mul_succ, pow_add]; rfl
    rw [Thread.windowNat, hbyte, Nat.add_assoc, ih (k + 1) (by omega), hnext, hpow, Nat.mod_mul, Nat.div_div_eq_div_mul]

/-- Bytes read in two parts. -/
theorem Thread.windowNat_add (t : Thread) (m n : Nat) : ∀ o,
    t.windowNat o (m + n) = t.windowNat o m + 256 ^ m * t.windowNat (o + m) n := by
  induction m with
  | zero => intro o; simp [Thread.windowNat]
  | succ m ih =>
    intro o
    have hlen : m + 1 + n = m + n + 1 := by omega
    have hoff : o + (m + 1) = o + 1 + m := by omega
    rw [hlen, hoff]
    simp only [Thread.windowNat, ih]
    ring

/-- The 8 bytes of a register pair are its value (R58). -/
theorem Thread.windowNat_pair (t : Thread) (r : Nat) : t.windowNat (4 * r) 8 = (pairOf t.v r).toNat := by
  have hword (r : Nat) : t.windowNat (4 * r) 4 = (t.reg r).toNat := by
    have h := t.windowNat_in_reg r 4 0 (by omega)
    have hlt := (t.reg r).isLt
    rw [Nat.add_zero] at h
    rw [h]
    omega
  rw [pairOf, toNat_append_add, t.windowNat_add 4 4, show 4 * r + 4 = 4 * (r + 1) by omega, hword, hword]
  simp only [Thread.reg]
  omega

/-- A type is a pair type where it has 64 bits. -/
theorem Ty.pair_eq_true_iff (t : Ty) : t.pair = true ↔ t.width = 64 := by
  cases t <;> decide

/-- A type has 4 bytes where it has 32 bits. -/
theorem Ty.bytes_eq_four_iff (t : Ty) : Ty.bytes t = 4 ↔ t.width = 32 := by
  cases t <;> decide

/-- The types of the window forms are of 8, 16, 32 or 64 bits (R187). -/
theorem width_of_windowType {t : Ty} (ht : [Ty.i8, .n8, .i16, .n16, .i32, .n32, .f32, .i64, .n64].contains t = true) :
    t.width = 8 ∨ t.width = 16 ∨ t.width = 32 ∨ t.width = 64 := by
  revert ht
  cases t <;> decide

/-- What a window load reads at an offset, as the model reads it: a pair, or bits of a register (R187). -/
def Thread.windowValue (t : Thread) (ty : Ty) (o : Nat) : Nat :=
  (if ty.pair then (pairOf t.v (o / 4)).toNat else (t.reg (o / 4)).toNat / 2 ^ (8 * (o % 4))) % 2 ^ ty.width

/-- At an aligned offset those are the bytes there. -/
theorem Thread.windowValue_aligned (t : Thread) {ty : Ty} {o : Nat}
    (hty : ty.width = 8 ∨ ty.width = 16 ∨ ty.width = 32 ∨ ty.width = 64) (ho : o % (ty.width / 8) = 0) :
    t.windowValue ty o = t.windowNat o (ty.width / 8) := by
  unfold Thread.windowValue
  by_cases hpair : ty.pair = true
  · have hwidth := (Ty.pair_eq_true_iff ty).1 hpair
    rw [hwidth] at ho ⊢
    have hreg : o = 4 * (o / 4) := by omega
    conv_rhs => rw [hreg, Thread.windowNat_pair]
    rw [if_pos hpair]
    exact Nat.mod_eq_of_lt (BitVec.isLt _)
  · have hwidth : ty.width ≠ 64 := fun h => hpair ((Ty.pair_eq_true_iff ty).2 h)
    have hin : o % 4 + ty.width / 8 ≤ 4 := by rcases hty with h | h | h | h <;> rw [h] at ho ⊢ <;> omega
    have hbits : 8 * (ty.width / 8) = ty.width := by rcases hty with h | h | h | h <;> rw [h]
    rw [if_neg hpair]
    conv_rhs => rw [← Nat.div_add_mod o 4, Thread.windowNat_in_reg t _ _ _ hin, hbits]

/-! ## Window loads -/

/-- An aligned access within the window raises nothing. -/
theorem State.windowTraps_nil {s : State} {g : Group} {f : Fields} {ls : List Nat}
    (haligned : ∀ l ∈ ls, s.windowOffset g l f % (f.ty.width / 8) = 0)
    (hinside : ∀ l ∈ ls, s.windowOffset g l f + f.ty.width / 8 ≤ 4 * s.window) : s.windowTraps g f ls = [] := by
  refine List.flatMap_eq_nil_iff.2 fun l hl => ?_
  simp [Ty.bytes, haligned l hl, Nat.not_lt.2 (hinside l hl)]

/-- The window accesses of a clear unit raise nothing. -/
theorem State.ClearWindow.windowTraps {s : State} {c : Ctx} {op : Nat} {f : Fields} {reads : Bool}
    (h : s.ClearWindow c op f reads) : s.windowTraps c.rd f (c.active f) = [] := by
  refine State.windowTraps_nil (fun l hl => ?_) fun l hl => ?_
  · obtain ⟨hlane, hguard⟩ := active_spec.1 hl
    exact h.aligned l hlane hguard
  · obtain ⟨hlane, hguard⟩ := active_spec.1 hl
    exact h.inside l hlane hguard

/-- A window load reads its sources and the registers it covers. -/
theorem State.ClearWindow.vldxReads {s : State} {c : Ctx} {op : Nat} {f : Fields} {reads : Bool}
    (h : s.ClearWindow c op f reads) {l : Nat} (hlane : l ∈ c.lanes) (hguard : (c.rd.thread l).guard f = true) :
    s.vldxReads c.rd f l = readRegs 0x48 f ++ coveredRegs (s.windowOffset c.rd l f) (f.ty.width / 8) := by
  have haligned := h.aligned l hlane hguard
  have hinside := h.inside l hlane hguard
  simp only [State.vldxReads, Ty.bytes, haligned, hinside, decide_true, Bool.and_self, if_true]

/-- Outside redundant launches each lane's events are its own. -/
theorem State.primaryOf_self {s : State} (h : s.redundant = false) (l : Nat) : s.primaryOf l = l := by
  simp [State.primaryOf, h]

/-- Of two that give each active thread the same, one stands for the other. -/
theorem Ctx.after_congr {c : Ctx} {f : Fields} {run run' : Nat → Thread → Thread}
    (h : ∀ l ∈ c.lanes, (c.rd.thread l).guard f = true → run l (c.g.thread l) = run' l (c.g.thread l)) (l : Nat) :
    c.after f run l = c.after f run' l := by
  unfold Ctx.after
  split
  case isFalse => rfl
  case isTrue hlane =>
    split
    case isFalse => rfl
    case isTrue hguard => rw [h l hlane hguard]

/-- VLDX loads in each active thread. -/
theorem execVldx_clear {s : State} {c : Ctx} {f : Fields} (h : s.ClearWindow c 0x48 f true) :
    ∃ t, execVldx f s = .next (s.setGroup s.cur t) ∧ c.g.OnlyLanes t (c.after f fun l t => t.withDst f.d f.ty.pair
      (extend f.ty ((c.rd.thread l).windowValue f.ty (s.windowOffset c.rd l f)))) := by
  have hready : ∀ l ∈ c.lanes, (c.rd.thread l).guard f = true →
      (c.rd.thread l).pendIn (s.vldxReads c.rd f l) = [] ∧ s.poisonTrap l (s.vldxReads c.rd f l) = [] := by
    intro l hlane hguard
    rw [h.vldxReads hlane hguard]
    exact h.ready l hlane hguard
  obtain ⟨t, hcommit, hlanes⟩ := commit_local h.ctx f (writeDst_local f.d f.ty.pair (fun l =>
    extend f.ty ((c.rd.thread l).windowValue f.ty (s.windowOffset c.rd l f))) (namesS_false h.noS)) true 0 c.g rfl
  refine ⟨t, ?_, hlanes⟩
  unfold execVldx
  simp only [h.ctx]
  rw [checked_clear (by rw [h.noS]; exact h.checker),
    perThread_clear h.ctx f (s.vldxReads c.rd f) (fun l hl hg => (hready l hl hg).1) (fun l hl hg => (hready l hl hg).2)
      _ (by rw [h.windowTraps, mismatch_none h.same, List.nil_append]),
    finish_ok, ← hcommit]
  simp only [State.primaryOf_self h.same, ite_self]
  rfl

/-! ## Window stores -/

/-- A thread after a window store of `x` at an offset: a pair, a register, or part of a register whose other bytes are those of
`base` (R187). -/
def Thread.storeWindow (t : Thread) (ty : Ty) (o : Nat) (x : DWord) (base : Word) : Thread :=
  if ty.width = 64 then (t.setReg (o / 4) (x.extractLsb' 0 32)).setReg (o / 4 + 1) (x.extractLsb' 32 32)
  else if ty.width = 32 then t.setReg (o / 4) (x.extractLsb' 0 32)
  else t.setReg (o / 4) (BitVec.ofNat 32 (setBits base.toNat (8 * (o % 4)) ty.width x.toNat))

/-- The same in a lane of a group. -/
def Group.storeWindow (g : Group) (l : Nat) (ty : Ty) (o : Nat) (x : DWord) (base : Word) : Group :=
  if ty.pair then g.setPair l (o / 4) x
  else if Ty.bytes ty = 4 then g.setReg l (o / 4) (x.extractLsb' 0 32)
  else g.setReg l (o / 4) (BitVec.ofNat 32 (setBits base.toNat (8 * (o % 4)) ty.width x.toNat))

/-- A window store changes its lane's own thread alone. -/
theorem storeWindow_local (ty : Ty) (o : Nat → Nat) (x : Nat → DWord) (base : Nat → Word) :
    LaneLocal (fun g l => g.storeWindow l ty (o l) (x l) (base l)) fun l t => t.storeWindow ty (o l) (x l) (base l) := by
  simp only [Group.storeWindow, Thread.storeWindow, Ty.pair_eq_true_iff, Ty.bytes_eq_four_iff]
  by_cases hpair : ty.width = 64
  · simp only [hpair, if_true]
    exact setPair_local (fun l => o l / 4) x
  · by_cases hword : ty.width = 32
    · simp only [hword, if_true]
      exact setReg_local (fun l => o l / 4) fun l => (x l).extractLsb' 0 32
    · simp only [hpair, hword, if_false]
      exact setReg_local (fun l => o l / 4) fun l =>
        BitVec.ofNat 32 (setBits (base l).toNat (8 * (o l % 4)) ty.width (x l).toNat)

/-- The bytes that a partial store leaves are the register's, or as a whole the value of a load still outstanding to it. -/
theorem partialBase_mem (t : Thread) (r : Nat) (loaded : Bool) :
    partialBase t r loaded = t.reg r ∨ ∃ o ∈ t.ld, (r, partialBase t r loaded) ∈ o.regs := by
  unfold partialBase
  split
  case h_1 q hq =>
    have hreg : q.1 = r := by simpa using List.find?_some hq
    obtain ⟨o, ho, hmem⟩ := List.mem_flatMap.1 (List.mem_of_find?_eq_some hq)
    cases loaded
    · exact .inl rfl
    · refine .inr ⟨o, ho, ?_⟩
      rw [← hreg]
      exact hmem
  case h_2 => exact .inl rfl

/-- The bytes that VSTX leaves in a lane (R187). -/
def State.storeBase (s : State) (c : Ctx) (f : Fields) (l : Nat) (t : Thread) : Word :=
  partialBase t (s.windowOffset c.rd l f / 4) (Config.freeChoice s.fresh l)

@[simp] theorem State.setGroup_fresh (s : State) (i : Issuer) (g : Group) : (s.setGroup i g).fresh = s.fresh := by
  cases i <;> rfl

/-- VSTX stores in each active thread. -/
theorem execVstx_clear {s : State} {c : Ctx} {f : Fields} (h : s.ClearWindow c 0x49 f false) :
    ∃ t, execVstx f s = .next { s.setGroup s.cur t with fresh := s.fresh + 1 } ∧
      c.g.OnlyLanes t (c.after f fun l t =>
        t.storeWindow f.ty (s.windowOffset c.rd l f) (s.srcB c.rd l f) (s.storeBase c f l t)) := by
  have hready : ∀ l ∈ c.lanes, (c.rd.thread l).guard f = true →
      (c.rd.thread l).pendIn (readRegs 0x49 f) = [] ∧ s.poisonTrap l (readRegs 0x49 f) = [] := by
    intro l hlane hguard
    simpa using h.ready l hlane hguard
  have hlocal := LaneLocal.own
    (act := fun g l t => g.storeWindow l f.ty (s.windowOffset c.rd l f) (s.srcB c.rd l f) (s.storeBase c f l t))
    (f := fun l t u => u.storeWindow f.ty (s.windowOffset c.rd l f) (s.srcB c.rd l f) (s.storeBase c f l t))
    fun t => storeWindow_local f.ty (s.windowOffset c.rd · f) (s.srcB c.rd · f) fun l => s.storeBase c f l (t l)
  obtain ⟨t, hcommit, hlanes⟩ := commit_local h.ctx f hlocal true 0 c.g rfl
  refine ⟨t, ?_, hlanes⟩
  unfold execVstx
  rw [checked_clear (by rw [h.noS]; exact h.checker),
    perThread_clear h.ctx f _ (fun l hl hg => (hready l hl hg).1) (fun l hl hg => (hready l hl hg).2) _ h.windowTraps]
  refine (congrArg (fun u : State => (.next { u with fresh := u.fresh + 1 } : Out)) hcommit).trans ?_
  dsimp only
  rw [State.setGroup_fresh]

/-- Settles O10: both instructions act on each lane alone, and an aligned access reads the bytes of its registers. -/
theorem windowLoadsAndStores : Obligations.WindowLoadsAndStores := by
  intro f s c hty
  constructor
  · intro hclear
    obtain ⟨h, hexec, hlanes⟩ := execVldx_clear hclear
    refine ⟨h, hexec, hlanes.congr fun l _ => Ctx.after_congr (fun k hlane hguard => ?_) l⟩
    rw [Thread.windowValue_aligned _ (width_of_windowType hty) (hclear.aligned k hlane hguard)]
  · intro hclear
    obtain ⟨h, hexec, hlanes⟩ := execVstx_clear hclear
    exact ⟨h, fun l => s.storeBase c f l (c.g.thread l), hexec, fun l _ => partialBase_mem _ _ _,
      hlanes.congr fun l _ => Ctx.after_congr (fun _ _ _ => rfl) l⟩

end Sys2Proof.Machine
end

section
/-!
# Predicate functions and moves (O9)

PLOG, PMOV.GET and PMOV.SET act on each lane alone, so the law of the register pipeline applies (`perThread_local`). PLOG and
PMOV.GET read predicates alone, which nothing can make wait.
-/

namespace Sys2Proof.Machine

open Sys2Proof

/-- The issue answers a next state in which of the machine the issuer's group alone has changed, and every lane holds the
thread that `want` gives it. -/
def State.Moves (s : State) (c : Ctx) (o : Out) (want : Nat → Thread) : Prop :=
  ∃ h, o = .next (s.setGroup s.cur h) ∧ c.g.OnlyLanes h want

/-- A form without S registers whose register sources are ready and sound, and which acts on each lane alone. -/
theorem perThread_local {s : State} {c : Ctx} (hc : s.ctx? = some c) {f : Fields} {regs : Nat → List Nat} {act : LaneOp}
    {run : Nat → Thread → Thread} (hlocal : LaneLocal (act c) run)
    (hpend : ∀ l ∈ c.lanes, (c.rd.thread l).guard f = true → (c.rd.thread l).pendIn (regs l) = [])
    (hsound : ∀ l ∈ c.lanes, (c.rd.thread l).guard f = true → s.poisonTrap l (regs l) = []) :
    s.Moves c (s.finish (s.perThread f regs (fun _ _ => []) act)) (c.after f run) := by
  obtain ⟨h, hcommit, hlanes⟩ := commit_local hc f hlocal true 0 c.g rfl
  rw [perThread_clear hc f regs hpend hsound _ rfl, finish_ok]
  exact ⟨h, congrArg _ hcommit, hlanes⟩

/-- One that reads no register is always ready. -/
theorem perThread_local_noReads {s : State} {c : Ctx} (hc : s.ctx? = some c) {f : Fields} {act : LaneOp}
    {run : Nat → Thread → Thread} (hlocal : LaneLocal (act c) run) :
    s.Moves c (s.finish (s.perThread f (fun _ => []) (fun _ _ => []) act)) (c.after f run) :=
  perThread_local hc hlocal (fun _ _ _ => by simp [Thread.pendIn]) fun l _ _ => poisonTrap_nil s l

/-- A bit of the low bits of field I is that bit of I. -/
theorem bit_immBits {f : Fields} {hi n : Nat} (hn : n ≤ hi) : bit (f.immBits hi 0) n = f.imm.getLsbD n := by
  have hbit (m : Nat) : bit m n = m.testBit n := by rw [bit, Nat.testBit_eq_decide_div_mod_eq]
  rw [hbit, Fields.immBits, pow_zero, Nat.div_one, Nat.testBit_mod_two_pow, BitVec.getLsbD]
  simp [Nat.lt_succ_of_le hn]

/-- PLOG looks its result up in field I (R217). -/
theorem predFunction_immBits (f : Fields) (a b c : Bool) :
    predFunction (f.immBits 7 0) a b c
      = f.imm.getLsbD (4 * (if a then 1 else 0) + 2 * (if b then 1 else 0) + if c then 1 else 0) := by
  cases a <;> cases b <;> cases c <;> exact bit_immBits (by decide)

/-- The predicates as a register value (R218). -/
theorem Thread.predBits_eq (t : Thread) : t.predBits = t.p.zeroExtend 64 :=
  BitVec.ofNat_toNat 64 t.p

/-- Settles O9: each of the three acts on every active lane alone. -/
theorem predicateFunctionsAndMoves : Obligations.PredicateFunctionsAndMoves := by
  intro f s c hnoS
  refine ⟨fun hclear => ?_, fun hclear => ⟨?_, ?_⟩⟩
  · have hlocal := writePred_local f.d fun l =>
      let p (o : Opnd) : Nat := if (c.rd.thread l).predOf o then 1 else 0
      f.imm.getLsbD (4 * p f.a + 2 * p f.b + p f.c)
    refine perThread_local_noReads hclear.ctx ?_
    simpa only [predFunction_immBits] using hlocal
  · have hlocal := writeDst_local f.d false (fun l => (c.rd.thread l).p.zeroExtend 64) (namesS_false hnoS)
    refine perThread_local_noReads hclear.ctx ?_
    simpa only [Thread.predBits_eq] using hlocal
  · exact perThread_local hclear.ctx
      (updThread_local fun l t => t.setPreds (s.operand c.rd l f false f.a).toNat (f.immBits 6 0)) hclear.pend hclear.sound

end Sys2Proof.Machine
end

section
/-!
# Cross-lane instructions (O11, O12)

A cross-lane instruction reads A in the lanes that supply it and B in those that name their source, and waits or traps as one unit
for all of these reads (R210). Where they are ready and sound (`waits_laneReads`, `traps_laneReads`) only the group remains to be
looked at. The five group-wide instructions are one operation, `State.crossLane`, whose writers act on their own lanes
(`exec_laneEffect`). A quad instruction goes on for the lanes of complete quads and the mates that join them, and parks the rest.
-/

namespace Sys2Proof.Machine

open Sys2Proof

/-! ## Reads -/

/-- The reads of a cross-lane instruction: A in its suppliers, B in the lanes `on` (R210). -/
def laneReads (op : Nat) (f : Fields) (suppliers on : List Nat) : List (Nat × List Nat) :=
  suppliers.map (fun l => (l, supplyRegs op f)) ++ on.map fun l => (l, selectRegs op f)

section
variable {s : State} {c : Ctx} {op : Nat} {f : Fields} {suppliers on : List Nat}

/-- A clear unit finds each of these reads ready and sound. -/
theorem State.ClearLanes.reads (h : s.ClearLanes c op f) (hsup : ∀ l ∈ suppliers, l < 32)
    (hon : ∀ l ∈ on, l < 32 ∧ (c.rd.thread l).guard f = true) {r : Nat × List Nat} (hr : r ∈ laneReads op f suppliers on) :
    (c.rd.thread r.1).pendIn r.2 = [] ∧ s.poisonTrap r.1 r.2 = [] := by
  obtain ⟨hsupply, hselect⟩ := h
  rcases List.mem_append.1 hr with hr | hr
  · obtain ⟨l, hl, rfl⟩ := List.mem_map.1 hr
    exact hsupply l (hsup l hl)
  · obtain ⟨l, hl, rfl⟩ := List.mem_map.1 hr
    exact hselect l (hon l hl).1 (hon l hl).2

/-- So it waits for no command. -/
theorem waits_laneReads (h : s.ClearLanes c op f) (hsup : ∀ l ∈ suppliers, l < 32)
    (hon : ∀ l ∈ on, l < 32 ∧ (c.rd.thread l).guard f = true) :
    distinct ((laneReads op f suppliers on).flatMap fun r => (c.rd.thread r.1).waitsFor r.2) = [] := by
  have hnone : ((laneReads op f suppliers on).flatMap fun r => (c.rd.thread r.1).waitsFor r.2) = [] :=
    List.flatMap_eq_nil_iff.2 fun r hr => by simp [Thread.waitsFor, (h.reads hsup hon hr).1]
  rw [hnone]
  rfl

/-- And its reads raise nothing. -/
theorem traps_laneReads (h : s.ClearLanes c op f) (hsup : ∀ l ∈ suppliers, l < 32)
    (hon : ∀ l ∈ on, l < 32 ∧ (c.rd.thread l).guard f = true) :
    ((laneReads op f suppliers on).flatMap fun r => (c.rd.thread r.1).handleTrap r.1 r.2 ++ s.poisonTrap r.1 r.2) = [] :=
  List.flatMap_eq_nil_iff.2 fun r hr => by
    obtain ⟨hpend, hsound⟩ := h.reads hsup hon hr
    simp [Thread.handleTrap, hpend, hsound]

end

/-- A lane of the issuing unit is one of the 32. -/
theorem State.lane_lt {s : State} {c : Ctx} (hc : s.ctx? = some c) {l : Nat} (hl : l ∈ c.lanes) : l < 32 :=
  lanesOf_lt ((State.ctx?_lanes hc).2 ▸ hl)

/-- An active lane is one of the 32 and its guard holds. -/
theorem State.active_lt {s : State} {c : Ctx} (hc : s.ctx? = some c) {f : Fields} {l : Nat} (hl : l ∈ c.active f) :
    l < 32 ∧ (c.rd.thread l).guard f = true := by
  obtain ⟨hlane, hguard⟩ := active_spec.1 hl
  exact ⟨State.lane_lt hc hlane, hguard⟩

/-! ## Group-wide instructions -/

/-- A group that is not whole traps, unless the unit is of helpers alone (R27, R36). -/
theorem guardGroup_diverged {c : Ctx} (hw : c.whole = false) (hmain : ∃ l ∈ c.lanes, (c.g.thread l).helper = false)
    (k : Except Stop State) :
    guardGroup c [] k = .error (.trap (mkTrap .diverged 0 (c.lanes.headD 0) c.u.lanes.toNat)) := by
  have halone : c.helpersAlone = false := by
    obtain ⟨l, hl, hhelper⟩ := hmain
    simp only [Ctx.helpersAlone, hw, Bool.not_false, Bool.true_and, List.all_eq_false]
    exact ⟨l, hl, by simp [hhelper]⟩
  simp [guardGroup, halone, Ctx.diverged, hw, guardTraps, firstTrap]

section
variable {s : State} {c : Ctx} (hc : s.ctx? = some c) {op : Nat} {f : Fields} (h : s.ClearLanes c op f)
  {suppliers : List Nat} (hsup : ∀ l ∈ suppliers, l < 32)
include hc h hsup

/-- With its reads ready and sound a group-wide instruction depends on the group alone. -/
theorem crossLane_clear (act : Group → Nat → Group) :
    s.crossLane op f c true suppliers act =
      guardGroup c [] (.ok (s.commit c ((c.active f).foldl act c.g) (fun _ => .next) true 0)) := by
  have hon := fun l (hl : l ∈ c.active f) => State.active_lt hc hl
  have hwaits := waits_laneReads h hsup hon
  have htraps := traps_laneReads h hsup hon
  unfold laneReads at hwaits htraps
  simp only [State.crossLane, hwaits, htraps, List.isEmpty_nil, Bool.not_true, Bool.false_eq_true, if_false, if_true]

/-- In a whole group every active lane writes. -/
theorem crossLane_whole (hw : c.whole = true) {act : Group → Nat → Group} {run : Nat → Thread → Thread}
    (hlocal : LaneLocal act run) : s.Moves c (s.finish (s.crossLane op f c true suppliers act)) (c.after f run) := by
  obtain ⟨t, hcommit, hlanes⟩ := commit_local hc f hlocal true 0 c.g rfl
  rw [crossLane_clear hc h hsup, guardGroup_whole hw, guardTraps_nil, finish_ok]
  exact ⟨t, congrArg _ hcommit, hlanes⟩

/-- In a divided one it takes DIVERGED. -/
theorem crossLane_diverged (hw : c.whole = false) (hmain : ∃ l ∈ c.lanes, (c.g.thread l).helper = false)
    (act : Group → Nat → Group) : s.finish (s.crossLane op f c true suppliers act) =
      .next (s.takeTrap (mkTrap .diverged 0 (c.lanes.headD 0) c.u.lanes.toNat)) := by
  rw [crossLane_clear hc h hsup, guardGroup_diverged hw hmain, finish_trap]

end

/-- The contributors of a lane's half, over the lanes of the unit (R210). -/
theorem contributors_eq (s : State) (c : Ctx) (f : Fields) (l : Nat) : s.contributors c f l = c.lanes.filter fun m =>
    (c.rd.thread m).guard f && !(c.rd.thread m).helper && m / s.halfWidth = l / s.halfWidth := by
  simp only [State.contributors, Ctx.active, List.filter_filter]
  congr 1
  funext m
  cases (c.rd.thread m).guard f <;> simp

/-- The result of a vote in a lane: a predicate for ALL and ANY, the mask of those in favour for BALLOT (R213). -/
def Group.vote (g : Group) (l : Nat) (f : Fields) (all any : Bool) (ballot : DWord) : Group :=
  if f.fn = 0 then g.writePred l f.d all else if f.fn = 1 then g.writePred l f.d any else g.writeDst l f.d false ballot

/-- A vote writes its lane's own thread alone. -/
theorem vote_local {f : Fields} (hnoS : f.namesS = false) (all any : Nat → Bool) (ballot : Nat → DWord) :
    LaneLocal (fun g l => g.vote l f (all l) (any l) (ballot l)) fun l t =>
      if f.fn = 0 then t.withPred f.d (all l) else if f.fn = 1 then t.withPred f.d (any l) else t.withDst f.d false (ballot l) := by
  unfold Group.vote
  by_cases hall : f.fn = 0
  · simpa only [if_pos hall] using writePred_local f.d all
  · by_cases hany : f.fn = 1
    · simpa only [if_neg hall, if_pos hany] using writePred_local f.d any
    · simpa only [if_neg hall, if_neg hany] using writeDst_local f.d false ballot (namesS_false hnoS)

/-- Each of the five group-wide instructions is `State.crossLane` with suppliers of its own, and writes in each lane what
`laneEffect` says (R212 to R216). -/
theorem exec_laneEffect {i : Instr} {s : State} {c : Ctx} {op : Nat} {f : Fields} {run : Nat → Thread → Thread}
    (hi : laneEffect i s c = some (op, f, run)) (hc : s.ctx? = some c) : ∃ suppliers act,
      exec i s = s.finish (s.crossLane op f c true suppliers act) ∧ (∀ l ∈ suppliers, l < 32) ∧
        (f.namesS = false → LaneLocal act run) := by
  have hactive : ∀ f : Fields, ∀ l ∈ c.active f, l < 32 := fun f l hl => (State.active_lt hc hl).1
  have hmain : ∀ f : Fields, ∀ l ∈ (c.active f).filter fun m => !(c.rd.thread m).helper, l < 32 :=
    fun f l hl => hactive f l (List.mem_filter.1 hl).1
  unfold laneEffect at hi
  split at hi <;> cases hi
  case h_1 =>
    refine ⟨List.range 32, _, ?_, fun l hl => List.mem_range.1 hl, fun hnoS => writeDst_local f.d f.ty.pair _ (namesS_false hnoS)⟩
    show execGshf f s = _
    simp only [execGshf, hc]
    rfl
  case h_2 =>
    refine ⟨[], _, ?_, nofun, fun hnoS => vote_local hnoS _ _ _⟩
    show execGvote f s = _
    simp only [execGvote, hc, contributors_eq]
    refine congrArg (fun act => s.finish (s.crossLane 0x53 f c true [] act)) (funext fun g => funext fun l => ?_)
    rw [Group.vote]
    split
    case h_1 hall => rw [if_pos (BitVec.eq_of_toNat_eq hall)]
    case h_2 hany =>
      have hfn : f.fn = 1 := BitVec.eq_of_toNat_eq hany
      rw [if_neg (by rw [hfn]; decide), if_pos hfn]
    case h_3 hall hany =>
      rw [if_neg fun hfn => hall (by rw [hfn]; rfl), if_neg fun hfn => hany (by rw [hfn]; rfl)]
  case h_3 =>
    refine ⟨_, _, ?_, hmain f, fun hnoS => writeDst_local f.d f.ty.pair _ (namesS_false hnoS)⟩
    show execGred f s = _
    simp only [execGred, hc, State.leaves, contributors_eq]
    rfl
  case h_4 =>
    refine ⟨_, _, ?_, hmain f, fun hnoS => writeDst_local f.d f.ty.pair _ (namesS_false hnoS)⟩
    show execGscan f s = _
    simp only [execGscan, hc, State.leaves, contributors_eq]
    rfl
  case h_5 =>
    refine ⟨_, _, ?_, hactive f, fun hnoS => writeDst_local f.d false _ (namesS_false hnoS)⟩
    show execGmatch f s = _
    simp only [execGmatch, hc, contributors_eq]
    rfl

/-- Settles O12: what a group-wide instruction does depends on the group alone, whole or divided. -/
theorem groupWideLaneInstructions : Obligations.GroupWideLaneInstructions := by
  intro i s c op f run hi hc hclear
  obtain ⟨suppliers, act, hexec, hsup, hlocal⟩ := exec_laneEffect hi hc
  rw [hexec]
  exact ⟨fun hw hnoS => crossLane_whole hc hclear hsup hw (hlocal hnoS),
    fun hw hmain => crossLane_diverged hc hclear hsup hw hmain act⟩

end Sys2Proof.Machine
end

section
/-!
# Quads (O11)

A quad instruction goes on for the lanes whose quad is complete together with the mates that parked there before, and parks the
others; the lanes that go on act each on its own thread.
-/

namespace Sys2Proof.Machine

open Sys2Proof

/-! ## Who goes on -/

/-- The lane has parked at the unit's quad instruction before (R39). -/
def Ctx.waitsHere (c : Ctx) (m : Nat) : Bool := (c.g.thread m).status = .parked .quad && (c.g.thread m).ip = c.u.ip

/-- Every other lane of the quad stands here, has parked here, or supplies its value without executing (R39). -/
def Ctx.quadComplete (c : Ctx) (l : Nat) : Bool :=
  (quadMates l).all fun m => c.lanes.contains m || c.waitsHere m || (c.g.thread m).quadExempt

/-- The lanes of the unit that go on. -/
def Ctx.quadGo (c : Ctx) : List Nat := c.lanes.filter c.quadComplete

/-- The mates that go on with them. -/
def Ctx.quadJoined (c : Ctx) : List Nat :=
  (List.range 32).filter fun m => c.waitsHere m && c.quadGo.any fun l => l / 4 = m / 4

/-- The issue of the lanes of complete quads with their mates, the rest of the unit beside them. -/
def Ctx.quadIssue (c : Ctx) : Ctx :=
  { c with lanes := c.quadGo ++ c.quadJoined ++ c.lanes.filter fun l => !c.quadComplete l, g := c.g.unpark c.quadJoined }

/-- The lanes that write. -/
def Ctx.quadActive (c : Ctx) (f : Fields) : List Nat :=
  (c.quadGo ++ c.quadJoined).filter fun l => (c.rd.thread l).guard f

/-- The lanes of the quads that go on: each supplies its A, whatever its guard (R210). -/
def Ctx.quads (c : Ctx) : List Nat :=
  (List.range 32).filter fun m => (c.quadGo ++ c.quadJoined).any fun l => l / 4 = m / 4

/-- Where a lane of that issue goes. -/
def Ctx.quadDest (c : Ctx) (l : Nat) : Goto := if (c.quadGo ++ c.quadJoined).contains l then .next else .park .quad

section
variable {c : Ctx} {l : Nat}

theorem Ctx.mem_quadGo : l ∈ c.quadGo ↔ l ∈ c.lanes ∧ c.quadComplete l = true := by
  simp [Ctx.quadGo]

theorem Ctx.mem_quadJoined : l ∈ c.quadJoined ↔
    (decide (l < 32) && c.waitsHere l && c.lanes.any fun m => decide (m / 4 = l / 4) && c.quadComplete m) = true := by
  simp only [Ctx.quadJoined, List.mem_filter, List.mem_range, Bool.and_eq_true, List.any_eq_true, decide_eq_true_eq,
    Ctx.mem_quadGo]
  grind

theorem Ctx.mem_quadActive {f : Fields} :
    l ∈ c.quadActive f ↔ (l ∈ c.quadGo ∨ l ∈ c.quadJoined) ∧ (c.rd.thread l).guard f = true := by
  simp [Ctx.quadActive, or_and_right]

theorem Ctx.quadDest_eq : c.quadDest l = if l ∈ c.quadGo ∨ l ∈ c.quadJoined then .next else .park .quad := by
  simp [Ctx.quadDest]

/-- A lane that has parked is none of the unit's, which are ready. -/
theorem Ctx.not_mem_lanes_of_joined (hready : ∀ l ∈ c.lanes, (c.g.thread l).status = .ready) (hl : l ∈ c.quadJoined) :
    l ∉ c.lanes := by
  intro hlane
  have hwaits := (Bool.and_eq_true_iff.1 (Ctx.mem_quadJoined.1 hl)).1
  simp [Ctx.waitsHere, hready l hlane] at hwaits

/-- The lanes of the issue are the unit's and the mates that join. -/
theorem Ctx.mem_quadIssue_lanes : l ∈ c.quadIssue.lanes ↔ l ∈ c.lanes ∨ l ∈ c.quadJoined := by
  simp only [Ctx.quadIssue, List.mem_append, Ctx.mem_quadGo, List.mem_filter, Bool.not_eq_true']
  cases c.quadComplete l <;> simp [or_comm]

/-- Each stands in it once. -/
theorem Ctx.quadIssue_nodup (hn : c.lanes.Nodup) (hready : ∀ l ∈ c.lanes, (c.g.thread l).status = .ready) :
    c.quadIssue.lanes.Nodup := by
  have hgo : c.quadGo.Nodup := hn.filter _
  have hjoined : c.quadJoined.Nodup := List.nodup_range.filter _
  refine (hgo.append hjoined fun l hl hj => ?_).append (hn.filter _) fun l hl hs => ?_
  · exact Ctx.not_mem_lanes_of_joined hready hj (Ctx.mem_quadGo.1 hl).1
  · obtain ⟨hlane, hincomplete⟩ := List.mem_filter.1 hs
    rcases List.mem_append.1 hl with hl | hl
    · simp [(Ctx.mem_quadGo.1 hl).2] at hincomplete
    · exact Ctx.not_mem_lanes_of_joined hready hl hlane

end

/-! ## What a quad instruction does -/

/-- A thread of a complete quad after the instruction: the value in D where its guard holds, and its next IP. -/
def quadActs (c : Ctx) (f : Fields) (value : Nat → DWord) (l : Nat) (t : Thread) : Thread :=
  (if (c.rd.thread l).guard f then t.withDst f.d f.ty.pair (value l) else t).advance

/-- The threads after a quad instruction (R39, R211). -/
def Ctx.afterQuad (c : Ctx) (f : Fields) (value : Nat → DWord) (l : Nat) : Thread :=
  if l ∈ c.lanes then
    if c.quadComplete l then quadActs c f value l (c.g.thread l) else { c.g.thread l with status := .parked .quad }
  else if decide (l < 32) && c.waitsHere l && c.lanes.any fun m => decide (m / 4 = l / 4) && c.quadComplete m then
    quadActs c f value l { c.g.thread l with status := .ready }
  else c.g.thread l

section
variable {s : State} {c : Ctx} (hc : s.ctx? = some c) {op : Nat} {f : Fields}
  (hready : ∀ l ∈ c.lanes, (c.g.thread l).status = .ready)
include hc

/-- A quad instruction in these terms. -/
theorem quadOp_eq (src : State → Ctx → Nat → Nat) : s.quadOp op f src = s.finish (
    if c.quadGo.isEmpty then .ok (s.commit c c.g (fun _ => .park .quad) false 0)
    else if !(distinct ((laneReads op f c.quads (c.quadActive f)).flatMap fun r => (c.rd.thread r.1).waitsFor r.2)).isEmpty
    then .ok (s.parkUnit c
      (distinct ((laneReads op f c.quads (c.quadActive f)).flatMap fun r => (c.rd.thread r.1).waitsFor r.2)))
    else guardTraps ((laneReads op f c.quads (c.quadActive f)).flatMap fun r =>
        (c.rd.thread r.1).handleTrap r.1 r.2 ++ s.poisonTrap r.1 r.2)
      (.ok (s.commit c.quadIssue ((c.quadActive f).foldl
        (fun g l => g.writeDst l f.d f.ty.pair (s.supply c f (src s c l))) (c.g.unpark c.quadJoined)) c.quadDest true 0))) := by
  unfold State.quadOp
  rw [hc]
  rfl

/-- Without a complete quad the whole unit parks. -/
theorem quadOp_park (hgo : c.quadGo = []) (src : State → Ctx → Nat → Nat) (value : Nat → DWord) :
    s.Moves c (s.quadOp op f src) (c.afterQuad f value) := by
  obtain ⟨h, hcommit, hlanes⟩ := commit_dest (s := s) (State.ctx?_lanes hc).1 c.g c.g (fun l => c.g.thread l) rfl rfl rfl
    (fun _ _ => rfl) (fun _ => .park .quad) false 0 [] false
  refine ⟨h, ?_, hlanes.congr fun l _ => ?_⟩
  · rw [quadOp_eq hc, hgo, ← hcommit]
    rfl
  · have hincomplete : ∀ m ∈ c.lanes, c.quadComplete m = false := fun m hm => by
      simpa using List.filter_eq_nil_iff.1 hgo m hm
    have hnone : (c.lanes.any fun m => decide (m / 4 = l / 4) && c.quadComplete m) = false :=
      List.any_eq_false.2 fun m hm => by simp [hincomplete m hm]
    unfold Ctx.afterQuad
    rw [hnone, Bool.and_false, if_neg Bool.false_ne_true]
    split
    case isTrue hlane => rw [hincomplete l hlane]; rfl
    case isFalse => rfl

/-- A lane that writes is one of the 32 and its guard holds. -/
theorem quadActive_lt {l : Nat} (hl : l ∈ c.quadActive f) : l < 32 ∧ (c.rd.thread l).guard f = true := by
  obtain ⟨hall, hguard⟩ := List.mem_filter.1 hl
  refine ⟨?_, hguard⟩
  rcases List.mem_append.1 hall with hl | hl
  · exact State.lane_lt hc (Ctx.mem_quadGo.1 hl).1
  · exact List.mem_range.1 (List.mem_filter.1 hl).1

/-- With a complete quad and every read ready and sound, the lanes that go on write and the issue moves as `quadDest` says. -/
theorem quadOp_go (hclear : s.ClearLanes c op f) (hgo : c.quadGo ≠ []) (src : State → Ctx → Nat → Nat) :
    s.quadOp op f src = .next (s.commit c.quadIssue ((c.quadActive f).foldl
      (fun g l => g.writeDst l f.d f.ty.pair (s.supply c f (src s c l))) (c.g.unpark c.quadJoined)) c.quadDest true 0) := by
  have hsome : c.quadGo.isEmpty = false := by simpa using hgo
  have hsup : ∀ l ∈ c.quads, l < 32 := fun l hl => List.mem_range.1 (List.mem_filter.1 hl).1
  have hwaits := waits_laneReads hclear hsup fun l hl => quadActive_lt hc hl
  have htraps := traps_laneReads hclear hsup fun l hl => quadActive_lt hc hl
  rw [quadOp_eq hc, hsome, hwaits, htraps]
  rfl

include hready in
/-- Then complete quads exchange and advance, and the other lanes of the unit park. -/
theorem quadOp_exchange (hclear : s.ClearLanes c op f) (hnoS : f.namesS = false) (hgo : c.quadGo ≠ [])
    (src : State → Ctx → Nat → Nat) :
    s.Moves c (s.quadOp op f src) (c.afterQuad f fun l => s.supply c f (src s c l)) := by
  have hissue := Ctx.quadIssue_nodup (State.ctx?_lanes hc).1 hready
  obtain ⟨⟨hframe, hlen⟩, hthread⟩ := c.g.unpark_spec c.quadJoined
  obtain ⟨wframe, wlen, wmxq, wthread⟩ := foldl_local
    (writeDst_local f.d f.ty.pair (fun l => s.supply c f (src s c l)) (namesS_false hnoS)) (c.quadActive f)
    (c.g.unpark c.quadJoined) ((List.nodup_append.1 hissue).1.filter _)
  obtain ⟨h, hcommit, hlanes⟩ := commit_dest (s := s) hissue c.g _ _ (by rw [wframe, hframe]) (wlen.trans hlen)
    (by rw [wmxq, hframe]) (fun l hl => by rw [wthread l (hlen ▸ hl), hthread l hl]) c.quadDest true 0 [] false
  refine ⟨h, (quadOp_go hc hclear hgo src).trans (congrArg _ hcommit), hlanes.congr fun l _ => ?_⟩
  simp only [Ctx.mem_quadIssue_lanes, Ctx.mem_quadActive, Ctx.quadDest_eq, Ctx.afterQuad, ← Ctx.mem_quadJoined]
  by_cases hlane : l ∈ c.lanes
  · have hnot : l ∉ c.quadJoined := fun hj => Ctx.not_mem_lanes_of_joined hready hj hlane
    cases hcomplete : c.quadComplete l
    · simp [hlane, hnot, Ctx.mem_quadGo, hcomplete, Thread.goto]
    · simp [hlane, hnot, Ctx.mem_quadGo, hcomplete, Thread.goto, quadActs]
  · by_cases hjoined : l ∈ c.quadJoined
    · simp [hlane, hjoined, Thread.goto, quadActs]
    · simp [hlane, hjoined, Ctx.mem_quadGo]

include hready in
/-- A quad instruction whose reads are ready and sound. -/
theorem quadOp_moves (hclear : s.ClearLanes c op f) (hnoS : f.namesS = false) (src : State → Ctx → Nat → Nat) :
    s.Moves c (s.quadOp op f src) (c.afterQuad f fun l => s.supply c f (src s c l)) := by
  by_cases hgo : c.quadGo = []
  · exact quadOp_park hc hgo src _
  · exact quadOp_exchange hc hready hclear hnoS hgo src

end

/-- Settles O11: QSWP and QBC are the quad instruction of their own source lane. -/
theorem quadExchange : Obligations.QuadExchange := by
  intro i op f src s c hi hc hnoS hready hclear
  have hexec : exec i s = s.quadOp op f src := by
    rcases hi with ⟨rfl, rfl, rfl⟩ | ⟨rfl, rfl, rfl⟩
    · rfl
    · rfl
  rw [hexec]
  exact quadOp_moves hc hready hclear hnoS src

end Sys2Proof.Machine
end

section
/-!
# Transfers, returns and user traps (O13, O14, O18)

BRA, BRX, CALL and CALLX are one operation, `State.transfer`, with a target and a push of their own (`exec_transferOf`). In a CALL, a
RET or a TRAPU every active lane changes its own thread (`Group.RunsLanes`) and then goes where it is sent, and every other lane of
the unit moves on (`moves_going`).
-/

namespace Sys2Proof.Machine

open Sys2Proof

/-! ## Going and moving on -/

/-- The parts of a thread that a step past an instruction leaves alone (R44). -/
theorem Thread.advance_eq (t : Thread) : t.advance =
    { t with loops := t.advance.loops, ip := t.advance.ip, back := t.advance.back, again := t.advance.again } := by
  unfold Thread.advance
  dsimp only
  split
  · split <;> rfl
  · rfl

@[simp] theorem Thread.advance_status (t : Thread) : t.advance.status = t.status := by rw [t.advance_eq]
@[simp] theorem Thread.advance_link (t : Thread) : t.advance.link = t.link := by rw [t.advance_eq]
@[simp] theorem Thread.advance_depth (t : Thread) : t.advance.depth = t.depth := by rw [t.advance_eq]

/-- A lane beyond the group's threads holds none. -/
theorem Group.thread_of_le {g : Group} {l : Nat} (h : g.threads.length ≤ l) : g.thread l = Thread.none 0 := by
  simp [Group.thread, List.getD_eq_getElem?_getD, h]

/-- A form without sources reads no register. -/
theorem readRegs_unused {op : Nat} {f : Fields} (hop : op ≠ 0x42) (ha : (formOf op f).a = .unused)
    (hb : (formOf op f).b = .unused) (hc : (formOf op f).c = .unused) : readRegs op f = [] := by
  simp [readRegs, hop, ha, hb, hc]

/-- A control instruction without register sources runs over its whole unit. -/
theorem control_noReads {s : State} {c : Ctx} (hc : s.ctx? = some c) {op : Nat} {f : Fields} (hregs : readRegs op f = [])
    (run : State → Ctx → List Nat → Except Stop State) : s.control op f run = s.finish (run s c (c.active f)) :=
  control_ready (ready_of_noReads hc hregs) run

section
variable {s : State} {c : Ctx} (hc : s.ctx? = some c) {f : Fields}
include hc

/-- The active lanes of a unit stand once each. -/
theorem active_nodup : (c.active f).Nodup := (State.ctx?_lanes hc).1.filter _

/-- Active lanes that act each on its own thread. -/
theorem runsLanes_active {act : Group → Nat → Group} {pre : Nat → Thread → Thread} (hlocal : LaneLocal act pre) :
    c.g.RunsLanes ((c.active f).foldl act c.g) (c.active f) pre :=
  foldl_local hlocal _ _ (active_nodup hc)

/-- The active lanes have done `pre` and go where `dest` says, the others move on. -/
theorem moves_going {g : Group} {pre run : Nat → Thread → Thread} (hrun : c.g.RunsLanes g (c.active f) pre)
    {dest : Nat → Goto}
    (hgo : ∀ l, l < c.g.threads.length → l ∈ c.active f → (pre l (c.g.thread l)).goto (dest l) = run l (c.g.thread l))
    (hnext : ∀ l, l ∉ c.active f → dest l = .next) (keep : Bool) (hint : Word) :
    s.Moves c (.next (s.commit c g dest keep hint)) (c.afterGoing f run) := by
  obtain ⟨hframe, hlen, hmxq, hthread⟩ := hrun
  obtain ⟨h, hcommit, hlanes⟩ := commit_going hc f g run hframe hlen hmxq
    (fun l hl hidle => by
      have hnot : l ∉ c.active f := fun hon => by
        obtain ⟨hlane, hguard⟩ := active_spec.1 hon
        rcases hidle with hidle | hidle
        · exact hidle hlane
        · simp [hguard] at hidle
      rw [hthread l hl, if_neg hnot])
    dest
    (fun l hl hlane hguard => by
      have hon := active_spec.2 ⟨hlane, hguard⟩
      rw [hthread l hl, if_pos hon, hgo l hl hon])
    (fun l _ hguard => hnext l fun hon => by simp [(active_spec.1 hon).2] at hguard) keep hint
  exact ⟨h, congrArg _ hcommit, hlanes⟩

end

/-! ## Transfers -/

/-- What a transfer pushes before it goes (R196). -/
def Transfer.pre (x : Transfer) (c : Ctx) : State → List Nat → Except Stop (State × Group) :=
  if x.call then callPush c else noPush c

/-- Each of the four transfers sends its active lanes to their targets. -/
theorem exec_transferOf {i : Instr} {s : State} {c : Ctx} {x : Transfer} (hi : transferOf i s c = some x)
    (hready : s.Ready c x.op x.f) :
    ∃ hint, exec i s = s.finish (s.transfer c (c.active x.f) x.target hint (x.pre c)) := by
  unfold transferOf at hi
  split at hi <;> cases hi
  case h_1 f =>
    show ∃ hint, execBra f s = _
    unfold execBra
    rw [control_ready hready]
    exact ⟨_, rfl⟩
  case h_2 f =>
    show ∃ hint, execBrx f s = _
    unfold execBrx
    rw [control_ready hready]
    exact ⟨_, rfl⟩
  case h_3 f =>
    show ∃ hint, execCall f s = _
    unfold execCall
    rw [control_ready hready]
    exact ⟨_, rfl⟩
  case h_4 f =>
    show ∃ hint, execCallx f s = _
    unfold execCallx
    rw [control_ready hready]
    exact ⟨_, rfl⟩

/-- A thread that has called: the return IP on top of its link stack (R196). -/
def Thread.called (t : Thread) (ip : DWord) : Thread := { t with link := ip :: t.link, depth := t.depth + 1 }

section
variable {s : State} {c : Ctx} {x : Transfer}

/-- The active threads of a legal transfer go to their targets, those of a call with the return IP pushed. -/
theorem transfer_moves (hc : s.ctx? = some c) (hsame : s.redundant = false)
    (htargets : ∀ l ∈ c.lanes, (c.rd.thread l).guard x.f = true → s.reaches (x.target l) ∧ s.isTarget (x.target l) = true)
    (hdepth : x.call = true → ∀ l ∈ c.lanes, (c.g.thread l).depth < 8) (hint : Word) :
    s.Moves c (s.finish (s.transfer c (c.active x.f) x.target hint (x.pre c))) (c.afterGoing x.f fun l t =>
      (if x.call then t.called (nextSlot c.u.ip) else t).goto (.jump (x.target l))) := by
  have hpre : ∃ g, x.pre c s (c.active x.f) = .ok (s, g) ∧ c.g.RunsLanes g (c.active x.f) fun _ t =>
      if x.call then t.called (nextSlot c.u.ip) else t := by
    cases hcall : x.call with
    | true =>
      refine ⟨_, ?_, runsLanes_active hc (updThread_local fun _ t => t.called (nextSlot c.u.ip))⟩
      rw [Transfer.pre, if_pos hcall]
      exact pushAll_shallow s _ _ c.g (active_nodup hc) fun l hl => hdepth hcall l (active_spec.1 hl).1
    | false =>
      refine ⟨c.g, by rw [Transfer.pre, if_neg (by simp [hcall])]; rfl, ?_⟩
      simpa [List.foldl_fixed] using runsLanes_active (f := x.f) hc same_local
  obtain ⟨g, hpush, hrun⟩ := hpre
  rw [transfer_ok hc x.f hsame x.target hint htargets _ g hpush, finish_ok]
  refine moves_going hc hrun (fun l _ hl => ?_) (fun l hl => ?_) false hint
  · simp only [List.contains_iff_mem, hl, if_true]
  · simp only [List.contains_iff_mem, hl, if_false]

/-- The BADTARGET of a lane (R306). -/
def State.badTarget (s : State) (target : Nat → DWord) (rank l : Nat) : Trap :=
  mkTrap .badTarget rank l (s.imageOffset (target l) % 2 ^ 52)

/-- The first of the traps of some lanes is one of theirs. -/
theorem guardTraps_badTarget (s : State) (target : Nat → DWord) (rank : Nat) {ls : List Nat} (hne : ls ≠ [])
    (k : Except Stop State) : ∃ l ∈ ls, guardTraps (ls.map (s.badTarget target rank)) k =
      .error (.trap (s.badTarget target rank l)) := by
  obtain ⟨t, ht, hguard⟩ := guardTraps_some (ts := ls.map (s.badTarget target rank)) (by simpa using hne) k
  obtain ⟨l, hl, rfl⟩ := List.mem_map.1 ht
  exact ⟨l, hl, hguard⟩

/-- Targets that can be reached are all well formed and all have a frame. -/
theorem filter_reaches {on : List Nat} {target : Nat → DWord} (h : ∀ l ∈ on, s.reaches (target l)) :
    on.filter (fun l => !s.ipOk (target l)) = [] ∧ on.filter (fun l => (s.frameAt (target l)).isNone) = [] := by
  constructor
  · exact List.filter_eq_nil_iff.2 fun l hl => by rw [(h l hl).1]; exact Bool.false_ne_true
  · exact List.filter_eq_nil_iff.2 fun l hl => by rw [← Option.not_isSome, (h l hl).2]; exact Bool.false_ne_true

/-- An active thread with a target that is ill formed, outside the image or, where every target has its frame, no legal
one. -/
def State.NoTarget (s : State) (c : Ctx) (f : Fields) (target : Nat → DWord) : Prop :=
  (∃ l ∈ c.lanes, (c.rd.thread l).guard f = true ∧ s.ipOk (target l) = false) ∨
    ((∀ l ∈ c.lanes, (c.rd.thread l).guard f = true → s.reaches (target l)) ∧
      ∃ l ∈ c.lanes, (c.rd.thread l).guard f = true ∧ s.isTarget (target l) = false)

/-- A transfer with such a thread takes BADTARGET in an active lane and does nothing else. -/
theorem transfer_badTarget {f : Fields} {target : Nat → DWord} (hsame : s.redundant = false)
    (hbad : s.NoTarget c f target) (hint : Word) (pre : State → List Nat → Except Stop (State × Group)) :
    ∃ l ∈ c.active f, ∃ rank, s.transfer c (c.active f) target hint pre = .error (.trap (s.badTarget target rank l)) := by
  unfold State.transfer
  dsimp only
  rw [mismatch_none' hsame, List.nil_append]
  rcases hbad with ⟨l, hlane, hguard, hill⟩ | ⟨hreach, l, hlane, hguard, hill⟩
  · have hne : (c.active f).filter (fun l => !s.ipOk (target l)) ≠ [] :=
      List.ne_nil_of_mem (List.mem_filter.2 ⟨active_spec.2 ⟨hlane, hguard⟩, by simp [hill]⟩)
    obtain ⟨k, hk, htrap⟩ := guardTraps_badTarget s target 30 hne _
    exact ⟨k, (List.mem_filter.1 hk).1, 30, htrap⟩
  · obtain ⟨hformed, hframed⟩ := filter_reaches fun k hk => hreach k (active_spec.1 hk).1 (active_spec.1 hk).2
    have hne : (c.active f).filter (fun l => !s.isTarget (target l)) ≠ [] :=
      List.ne_nil_of_mem (List.mem_filter.2 ⟨active_spec.2 ⟨hlane, hguard⟩, by simp [hill]⟩)
    rw [hformed, hframed]
    obtain ⟨k, hk, htrap⟩ := guardTraps_badTarget s target 31 hne _
    exact ⟨k, (List.mem_filter.1 hk).1, 31, htrap⟩

end

/-- Settles O13: the four transfers are `State.transfer`, which goes (`transfer_moves`) or traps (`transfer_badTarget`). -/
theorem transfersGoToTheirTargets : Obligations.TransfersGoToTheirTargets := by
  intro i s c x hi hready hsame
  obtain ⟨hint, hexec⟩ := exec_transferOf hi hready
  rw [hexec]
  refine ⟨fun htargets hdepth => ?_, fun hbad => ?_⟩
  · obtain ⟨h, hfinish, hlanes⟩ := transfer_moves hready.ctx hsame htargets hdepth hint
    refine ⟨h, hfinish, ?_⟩
    cases hcall : x.call <;> rw [hcall] at hlanes <;> exact hlanes
  · obtain ⟨l, hl, rank, htrap⟩ := transfer_badTarget hsame hbad hint (x.pre c)
    rw [htrap]
    exact ⟨s.badTarget x.target rank l, rfl, (active_spec.1 hl).1, rfl, rfl⟩

/-! ## Returns -/

/-- No overlay enters the loading state where no lane took OVERLAY. -/
theorem State.markLoading_nil (s : State) (ovlOf : Nat → Nat) : s.markLoading ovlOf [] = s := by
  unfold State.markLoading
  split
  case h_1 => simp [distinct]
  case h_2 => rfl

/-- Where some check finds a trap, the issue takes one of those found. -/
theorem finish_guardTraps {s : State} {p : Trap → Prop} {ts : List Trap} (hne : ts ≠ []) (hall : ∀ t ∈ ts, p t)
    (k : Except Stop State) : ∃ t, p t ∧ s.finish (guardTraps ts k) = .next (s.takeTrap t) := by
  obtain ⟨t, ht, htrap⟩ := guardTraps_some hne k
  exact ⟨t, hall t ht, by rw [htrap, finish_trap]⟩

/-- A thread that has popped its link stack (R197). -/
def Thread.popped (t : Thread) : Thread := { t with link := t.link.tail, depth := t.depth - 1 }

section
variable {s : State} {c : Ctx} {f : Fields} (hready : s.Ready c 0x64 f) (hsame : s.redundant = false)
include hready hsame

/-- Where every active thread has a return IP with a frame, RET pops it and goes there (R197). -/
theorem execRet_moves (hlink : ∀ l ∈ c.lanes, (c.rd.thread l).guard f = true →
      0 < (c.g.thread l).depth ∧ (c.g.thread l).depth ≤ 8 ∧ s.reaches ((c.g.thread l).link.headD 0)) :
    s.Moves c (execRet f s) (c.afterGoing f fun _ t => t.popped.goto (.jump (t.link.headD 0))) := by
  have hlink' := fun l (hl : l ∈ c.active f) => hlink l (active_spec.1 hl).1 (active_spec.1 hl).2
  have hdeep : (c.active f).filter (fun l => (c.g.thread l).depth = 0) = [] :=
    List.filter_eq_nil_iff.2 fun l hl => by simpa using (hlink' l hl).1.ne'
  obtain ⟨hformed, hframed⟩ := filter_reaches fun l hl => (hlink' l hl).2.2
  have hall : (c.active f).filter (fun l => !([] : List Nat).contains l) = c.active f := List.filter_eq_self.2 fun _ _ => rfl
  have hpop := popAll_shallow s _ c.g (active_nodup hready.ctx) fun l hl => (hlink' l hl).2.1
  unfold execRet
  rw [control_ready hready]
  dsimp only
  rw [hdeep, hformed, hframed, mismatch_none' hsame, hall, hpop]
  simp only [List.map_nil, List.append_nil, guardTraps_nil, List.filter_nil, List.foldl_nil, State.markLoading_nil,
    List.contains_nil, Bool.false_eq_true, if_false]
  refine moves_going hready.ctx (runsLanes_active hready.ctx (updThread_local fun _ t => t.popped)) (fun l _ hl => ?_)
    (fun l hl => ?_) false 0
  · simp only [List.contains_iff_mem, hl, if_true]
  · simp only [List.contains_iff_mem, hl, if_false]

/-- A depth of 0 takes BADTARGET, as does an ill-formed return IP. -/
theorem execRet_badTarget (hempty : ∃ l ∈ c.lanes, (c.rd.thread l).guard f = true ∧ (c.g.thread l).depth = 0) :
    ∃ t : Trap, t.cause = .badTarget ∧ execRet f s = .next (s.takeTrap t) := by
  obtain ⟨l, hlane, hguard, hdepth⟩ := hempty
  have hne : (c.active f).filter (fun l => (c.g.thread l).depth = 0) ≠ [] :=
    List.ne_nil_of_mem (List.mem_filter.2 ⟨active_spec.2 ⟨hlane, hguard⟩, by simpa using hdepth⟩)
  unfold execRet
  rw [control_ready hready]
  dsimp only
  rw [mismatch_none' hsame, List.append_nil]
  refine finish_guardTraps (List.append_ne_nil_of_left_ne_nil (by simpa using hne) _) (fun t ht => ?_) _
  rcases List.mem_append.1 ht with ht | ht
  · obtain ⟨_, -, rfl⟩ := List.mem_map.1 ht
    rfl
  · obtain ⟨_, -, rfl⟩ := List.mem_map.1 ht
    rfl

end

/-- Settles O14: RET pops and goes (`execRet_moves`) or traps (`execRet_badTarget`). -/
theorem returnsPopTheLinkStack : Obligations.ReturnsPopTheLinkStack :=
  fun _ _ _ hready hsame => ⟨execRet_moves hready hsame, execRet_badTarget hready hsame⟩

/-! ## User traps -/

/-- A thread that has stepped past its instruction, without the mark of a loop-back (R44). -/
def Thread.stepped (t : Thread) : Thread := { t.advance with back := false }

/-- A thread that has pushed its next IP and holds the cause and the information of a TRAPU (R208). -/
def Thread.userTrapped (t : Thread) (info : Word) : Thread :=
  { t.stepped.called t.stepped.ip with ucause := 2, uinfo := info }

/-- Each lane of a list does `run`. -/
theorem foldl_updThread_runsLanes (run : Nat → Thread → Thread) {ls : List Nat} (hn : ls.Nodup) (g : Group) :
    g.RunsLanes (ls.foldl (fun g l => g.updThread l (run l)) g) ls run :=
  foldl_local (updThread_local run) ls g hn

/-- Once its active lanes have stepped, TRAPU pushes the IP that each has come to, and notes the cause (R208). -/
theorem trapu_runsLanes {s : State} {c : Ctx} (hc : s.ctx? = some c) {f : Fields} {g : Group}
    (hstep : c.g.RunsLanes g (c.active f) fun _ t => t.stepped) (hdepth : ∀ l ∈ c.lanes, (c.g.thread l).depth < 8) :
    ∃ g', s.pushAll g (fun l => (g.thread l).ip) (c.active f) = .ok (s, g') ∧
      ∃ run, c.g.RunsLanes ((c.active f).foldl (fun g l => g.userTrap l 2 f.imm) g') (c.active f) run ∧
        ∀ l, l < c.g.threads.length → l ∈ c.active f → run l (c.g.thread l) = (c.g.thread l).userTrapped f.imm := by
  have hn := active_nodup (f := f) hc
  have hpush := foldl_updThread_runsLanes (fun l t => t.called (g.thread l).ip) hn g
  have hcause := foldl_updThread_runsLanes (fun _ t => { t with ucause := 2, uinfo := f.imm }) hn
  have hrun := hstep.trans (hpush.trans (hcause _))
  obtain ⟨-, hlen, -, hthread⟩ := hstep
  have hshallow : ∀ l ∈ c.active f, (g.thread l).depth < 8 := by
    intro l hl
    have hold := hdepth l (active_spec.1 hl).1
    by_cases hin : l < c.g.threads.length
    · rw [hthread l hin, if_pos hl]
      simpa [Thread.stepped] using hold
    · rw [Group.thread_of_le (by rw [hlen]; exact Nat.le_of_not_lt hin)]
      decide
  refine ⟨_, pushAll_shallow s _ _ g hn hshallow, _, hrun, fun l hin hl => ?_⟩
  rw [hthread l hin, if_pos hl]
  rfl

/-- Settles O18: TRAPU steps, pushes and notes its cause in every active lane, and sends it to the user trap entry. -/
theorem userTrapsGoToTheEntry : Obligations.UserTrapsGoToTheEntry := by
  intro f s c hc hdepth
  have hstep := foldl_updThread_runsLanes (fun _ t => t.stepped) (active_nodup (f := f) hc) c.g
  obtain ⟨g', hpush, run, hrun, hthread⟩ := trapu_runsLanes hc hstep hdepth
  show s.Moves c (execTrapu f s) _
  unfold execTrapu
  rw [control_noReads hc (readRegs_unused (by decide) rfl rfl rfl)]
  dsimp only [Thread.stepped] at hpush ⊢
  rw [hpush]
  refine moves_going hc hrun (fun l hin hl => ?_) (fun l hl => ?_) _ 0
  · rw [hthread l hin hl]
    simp only [List.contains_iff_mem, hl, if_true]
    simp only [Thread.userTrapped, Thread.stepped, Thread.called, Thread.goto, Thread.advance_link, Thread.advance_depth]
    rfl
  · simp only [List.contains_iff_mem, hl, if_false]

end Sys2Proof.Machine
end

section
/-!
# Loop levels (O15)

LOOP and LOOPB change the loop levels of their active lanes and send them on (`moves_going`); an end that is no later traps in the
lowest active lane, which is the first trap found (`firstTrap_first`). A step at the end of a level follows the number of the
highest active level (`topLevel_eq`).
-/

namespace Sys2Proof.Machine

open Sys2Proof

/-! ## The first trap -/

/-- A trap that no later one of the list comes before is the first. -/
theorem firstTrap_first {t : Trap} {ts : List Trap} (h : ∀ u ∈ ts, t.rank < u.rank ∨ t.rank = u.rank ∧ t.lane ≤ u.lane) :
    firstTrap (t :: ts) = some t := by
  induction ts with
  | nil => rfl
  | cons u ts ih =>
    have hnot : ¬ (u.rank < t.rank ∨ u.rank = t.rank ∧ u.lane < t.lane) := by
      have := h u (List.mem_cons_self ..)
      omega
    have hskip : firstTrap (t :: u :: ts) = firstTrap (t :: ts) := by simp [firstTrap, hnot]
    rw [hskip]
    exact ih fun v hv => h v (List.mem_cons_of_mem _ hv)

/-- The active lanes rise. -/
theorem active_rising {s : State} {c : Ctx} (hc : s.ctx? = some c) (f : Fields) : (c.active f).Pairwise (· < ·) := by
  unfold Ctx.active
  rw [(State.ctx?_lanes hc).2]
  exact (List.pairwise_lt_range.filter _).filter _

/-! ## LOOP and LOOPB -/

/-- An action of some lanes, and none in the others. -/
theorem LaneLocal.ite_same {act : Group → Nat → Group} {run : Nat → Thread → Thread} (h : LaneLocal act run) (p : Nat → Prop)
    [DecidablePred p] : LaneLocal (fun g l => if p l then g else act g l) fun l t => if p l then t else run l t := by
  intro g l
  by_cases hp : p l
  · simpa only [if_pos hp] using same_local g l
  · simpa only [if_neg hp] using h g l

/-- The lowest inactive level of a thread made active, with the slot after `ip` as its start, the end `last` and `n` passes
(R198). -/
def Thread.enterLoop (t : Thread) (ip last : DWord) (n : Word) : Thread :=
  { t with loops := setAt t.loops ((t.loops.findIdx? fun v => !v.active).getD 0) ⟨true, nextSlot ip, last, n⟩ }

/-- A thread after a LOOP with `n` passes: behind the end without any, else in the body at a new level (R198). -/
def Thread.looped (t : Thread) (ip last : DWord) (n : Word) : Thread :=
  if n = 0 then { t with ip := nextSlot last, back := false, again := false }
  else { t.enterLoop ip last n with ip := nextSlot ip, back := false, again := false }

section
variable {s : State} {c : Ctx} {f : Fields}

/-- A LOOP whose end lies after it, with a level free in every active thread (R198). -/
theorem execLoop_moves (hready : s.Ready c 0x65 f) (hformed : wellFormedIp (directTarget c.u.ip f) = true)
    (hafter : (c.u.ip.toNat : Int) < directNum c.u.ip f) (hrange : directNum c.u.ip f < 2 ^ 64)
    (hfree : ∀ l ∈ c.lanes, (c.rd.thread l).guard f = true → (c.g.thread l).loops.all (·.active) = false) :
    s.Moves c (execLoop f s) (c.afterGoing f fun l t =>
      t.looped c.u.ip (directTarget c.u.ip f) ((s.operand c.rd l f false f.a).extractLsb' 0 32)) := by
  have hends : ((c.active f).filter fun _ => !wellFormedIp (directTarget c.u.ip f) ||
      directNum c.u.ip f ≤ c.u.ip.toNat || directNum c.u.ip f ≥ 2 ^ 64) = [] :=
    List.filter_eq_nil_iff.2 fun _ _ => by simpa [hformed, hafter] using hrange
  have hlevels : ((c.active f).filter fun l => (c.g.thread l).loops.all (·.active)) = [] :=
    List.filter_eq_nil_iff.2 fun l hl => by
      rw [hfree l (active_spec.1 hl).1 (active_spec.1 hl).2]
      exact Bool.false_ne_true
  unfold execLoop
  rw [control_ready hready]
  dsimp only
  rw [hends, hlevels]
  refine moves_going hready.ctx (runsLanes_active hready.ctx ((updThread_local fun l t => t.enterLoop c.u.ip
    (directTarget c.u.ip f) ((s.operand c.rd l f false f.a).extractLsb' 0 32)).ite_same _)) (fun l _ hl => ?_)
    (fun l hl => ?_) true 0
  · have hon : (c.active f).contains l = true := List.contains_iff_mem.2 hl
    rw [hon, Bool.not_true, if_neg Bool.false_ne_true]
    by_cases hnone : (s.operand c.rd l f false f.a).extractLsb' 0 32 = 0
    · simp only [Thread.looped, hnone, if_true, Thread.goto]
    · simp only [Thread.looped, hnone, if_false, Thread.goto, Thread.enterLoop]
  · simp [hl]

/-- One whose end is no later traps in its lowest active lane (R198, R306). -/
theorem execLoop_badTarget (hready : s.Ready c 0x65 f) (hbefore : directNum c.u.ip f ≤ c.u.ip.toNat) (hon : c.active f ≠ []) :
    execLoop f s = .next (s.takeTrap
      (mkTrap .badTarget 30 ((c.active f).headD 0) (s.imageOffset (directTarget c.u.ip f) % 2 ^ 52))) := by
  have hends : ((c.active f).filter fun _ => !wellFormedIp (directTarget c.u.ip f) ||
      directNum c.u.ip f ≤ c.u.ip.toNat || directNum c.u.ip f ≥ 2 ^ 64) = c.active f :=
    List.filter_eq_self.2 fun _ _ => by simp [hbefore]
  have hrising := active_rising hready.ctx f
  unfold execLoop
  rw [control_ready hready]
  dsimp only
  rw [hends]
  cases hls : c.active f with
  | nil => exact absurd hls hon
  | cons l ls =>
    rw [hls] at hrising
    rw [guardTraps, List.map_cons, List.cons_append, firstTrap_first]
    · rfl
    · intro u hu
      rcases List.mem_append.1 hu with hu | hu
      · obtain ⟨k, hk, rfl⟩ := List.mem_map.1 hu
        exact .inr ⟨rfl, (List.rel_of_pairwise_cons hrising hk).le⟩
      · obtain ⟨k, -, rfl⟩ := List.mem_map.1 hu
        exact .inl (Nat.lt_succ_self 30)

/-- A thread that has left its highest active level (R199). -/
def Thread.leaveLoop (t : Thread) : Thread := { t with loops := setAt t.loops (topLevel t.loops 0 - 1) .off }

/-- LOOPB with an active level in every active thread (R199). -/
theorem execLoopb_moves (hready : s.Ready c 0x66 f) (hsame : s.redundant = false)
    (hlevel : ∀ l ∈ c.lanes, (c.rd.thread l).guard f = true → topLevel (c.g.thread l).loops 0 ≠ 0) :
    s.Moves c (execLoopb f s) (c.afterGoing f fun _ t =>
      t.leaveLoop.goto (.jump (nextSlot (t.loops.getD (topLevel t.loops 0 - 1) .off).last))) := by
  have hlevels : ((c.active f).filter fun l => topLevel (c.g.thread l).loops 0 = 0) = [] :=
    List.filter_eq_nil_iff.2 fun l hl => by simpa using hlevel l (active_spec.1 hl).1 (active_spec.1 hl).2
  unfold execLoopb
  rw [control_ready hready]
  dsimp only
  rw [hlevels, mismatch_none' hsame]
  refine moves_going hready.ctx (runsLanes_active hready.ctx (updThread_local fun l t =>
    { t with loops := setAt t.loops (topLevel (c.g.thread l).loops 0 - 1) .off })) (fun l _ hl => ?_) (fun l hl => ?_) false 0
  · simp only [List.contains_iff_mem, hl, if_true]
    rfl
  · simp only [List.contains_iff_mem, hl, if_false]

end

/-! ## The step at the end of a level -/

/-- The highest active level decides where a thread goes next (R44, R198). -/
theorem Thread.advance_of_topLevel {t : Thread} {k : Nat} (htop : topLevel t.loops 0 = k + 1) : t.advance =
    let lv := t.loops.getD k .off
    if lv.last = t.ip then
      if 1 < lv.count.toNat then
        { t with loops := setAt t.loops k { lv with count := lv.count - 1 }, ip := lv.start, back := true, again := false }
      else
        { t with
          loops := t.loops.map fun x => if x.active ∧ x.last = t.ip then .off else x
          ip := nextSlot t.ip, back := false, again := false }
    else { t with ip := nextSlot t.ip, back := false, again := false } := by
  unfold Thread.advance
  simp [htop]

/-- Settles O15: LOOP and LOOPB by what their active lanes do, the step by the highest active level. -/
theorem loopLevels : Obligations.LoopLevels := by
  refine ⟨fun f s c => ⟨execLoop_moves, execLoop_badTarget, execLoopb_moves⟩, fun t k hk hmax hactive => ?_⟩
  have htop : topLevel t.loops 0 = k + 1 := by simpa using topLevel_eq t.loops 0 k hk hactive hmax
  rw [Thread.advance_of_topLevel htop]
  dsimp only
  refine ⟨fun hend hcount => ?_, fun hend hcount => ?_, fun hend => ?_⟩
  · rw [if_pos hend, if_pos hcount]
  · rw [if_pos hend, if_neg (Nat.not_lt.2 hcount)]
  · rw [if_neg hend]

end Sys2Proof.Machine
end

section
/-!
# Rejoin masks, NOP, YIELD and BRK (O16, O17)

JSET, JWAIT and JDROP change a mask and its arrived set, release threads that are parked there, and move their unit on
(`commit_freed`); the arrivals of a JWAIT come one after the other (`joinArrive_spec`). NOP, YIELD and BRK without an active thread
only move their unit on.
-/

namespace Sys2Proof.Machine

open Sys2Proof

/-! ## Rejoin masks -/

/-- The mask that an operand names. -/
theorem joinNum_of_lt {n : Nat} (hn : n < 8) : joinNum (.j (BitVec.ofNat 3 n)) = n := by
  simp only [joinNum, BitVec.toNat_ofNat]
  omega

/-- A lane parked at a rejoin mask. -/
def Group.parkedAt (g : Group) (n l : Nat) : Bool := l < 32 && (g.thread l).status = .parked (.join n)

theorem Group.parkedAt_iff {g : Group} {n l : Nat} : g.parkedAt n l = true ↔ l ∈ g.joinParked n := by
  rw [joinParked_spec, Group.parkedAt, Bool.and_eq_true, decide_eq_true_eq, decide_eq_true_eq]

/-- The threads after a rejoin instruction that releases the lanes `freed` and moves its unit on. -/
def Ctx.afterJoin (c : Ctx) (freed : Nat → Bool) (l : Nat) : Thread :=
  if l ∈ c.lanes then (c.g.thread l).advance
  else if freed l then { c.g.thread l with status := .ready } else c.g.thread l

section
variable {s : State} {c : Ctx} {n : Nat} {f : Fields} (hc : s.ctx? = some c)
  (hready : ∀ l ∈ c.lanes, (c.g.thread l).status = .ready)
include hc hready

/-- A mask and its arrived set written, threads parked there released, and the unit moved on. -/
theorem commit_afterJoin (mask arrived : Word) {freed : List Nat} {free : Nat → Bool}
    (hfreed : ∀ l, free l = true ↔ l ∈ freed) (hparked : ∀ l ∈ freed, l ∈ c.g.joinParked n) (extra : List Nat) :
    ∃ h, s.commitWith c ((c.g.withJoin n mask arrived).unpark freed) (fun _ => .next) true 0 extra false = s.setGroup s.cur h ∧
      (c.g.withJoin n mask arrived).OnlyLanes h (c.afterJoin free) := by
  refine commit_freed hc (c.g.withJoin n mask arrived) rfl freed (fun _ => .next) true 0 extra false _ fun l _ => ?_
  unfold Ctx.afterJoin
  by_cases hlane : l ∈ c.lanes
  · have hnot : l ∉ freed := fun hl => by
      have hstatus := ((joinParked_spec c.g n l).1 (hparked l hl)).2
      rw [hready l hlane] at hstatus
      cases hstatus
    rw [if_pos hlane, if_neg hnot, if_pos hlane]
    rfl
  · simp only [hlane, if_false, hfreed]

/-- JSET releases whom it finds parked, and writes its mask (R201). -/
theorem execJset_joins (hrun : s.Ready c 0x68 f) (hd : joinNum f.d = n) (hon : (c.active f).isEmpty = false) :
    ∃ h, execJset f s = .next (s.setGroup s.cur h) ∧
      (c.g.withJoin n (s.joinMask c f (c.active f)) 0).OnlyLanes h (c.afterJoin (c.g.parkedAt n)) := by
  obtain ⟨h, hcommit, hlanes⟩ := commit_afterJoin hc hready (s.joinMask c f (c.active f)) 0
    (freed := c.g.joinParked n) (fun _ => Group.parkedAt_iff) (fun _ hl => hl) (c.g.joinParked n)
  refine ⟨h, ?_, hlanes⟩
  unfold execJset
  rw [control_ready hrun]
  dsimp only
  rw [hon, if_neg Bool.false_ne_true, hd]
  exact congrArg _ hcommit

/-- The lanes that a JDROP of `m` releases: those it drops, and with `all` the others. -/
def Group.droppedAt (g : Group) (n : Nat) (m : Word) (all : Bool) : List Nat :=
  ((g.joinParked n).filter fun l => m.getLsbD l) ++ if all then (g.joinParked n).filter fun l => !m.getLsbD l else []

omit hc hready in
theorem Group.mem_droppedAt {g : Group} {m : Word} {all : Bool} {l : Nat} :
    l ∈ g.droppedAt n m all ↔ l ∈ g.joinParked n ∧ (m.getLsbD l || all) = true := by
  unfold Group.droppedAt
  cases all with
  | false => simp
  | true => cases hbit : m.getLsbD l <;> simp [hbit]

omit hc hready in
/-- Some thread is left parked where not all that are parked are dropped. -/
theorem any_left (g : Group) (n : Nat) (m : Word) : ((List.range 32).any fun l => g.parkedAt n l && !m.getLsbD l) =
    !((g.joinParked n).filter fun l => !m.getLsbD l).isEmpty := by
  rw [Bool.eq_iff_iff, List.any_eq_true, Bool.not_eq_true', List.isEmpty_eq_false_iff_exists_mem]
  constructor
  · rintro ⟨l, -, hl⟩
    rw [Bool.and_eq_true, Group.parkedAt_iff] at hl
    exact ⟨l, List.mem_filter.2 hl⟩
  · rintro ⟨l, hl⟩
    obtain ⟨hparked, hbit⟩ := List.mem_filter.1 hl
    refine ⟨l, List.mem_range.2 ((joinParked_spec g n l).1 hparked).1, ?_⟩
    rw [Bool.and_eq_true, Group.parkedAt_iff]
    exact ⟨hparked, hbit⟩

/-- JDROP takes its lanes out of the mask and of the arrived set, and releases those of them that are parked there, or all
where the others have all arrived (R203). -/
theorem execJdrop_joins (hrun : s.Ready c 0x6A f) (hd : joinNum f.d = n) (hon : (c.active f).isEmpty = false)
    {m left arrived : Word} (hm : s.joinMask c f (c.active f) = m) (hleft : c.g.j.getD n 0 &&& ~~~m = left)
    (harrived : c.g.arrived.getD n 0 &&& ~~~m = arrived) {all : Bool}
    (hall : all = (decide (arrived = left) && (List.range 32).any fun l => c.g.parkedAt n l && !m.getLsbD l)) :
    ∃ h, execJdrop f s = .next (s.setGroup s.cur h) ∧
      (c.g.withJoin n left (if all then 0 else arrived)).OnlyLanes h
        (c.afterJoin fun l => c.g.parkedAt n l && (m.getLsbD l || all)) := by
  obtain ⟨h, hcommit, hlanes⟩ := commit_afterJoin hc hready left (if all then 0 else arrived)
    (freed := c.g.droppedAt n m all) (free := fun l => c.g.parkedAt n l && (m.getLsbD l || all))
    (fun l => by rw [Group.mem_droppedAt, Bool.and_eq_true, Group.parkedAt_iff])
    (fun l hl => (Group.mem_droppedAt.1 hl).1) (c.g.droppedAt n m all)
  refine ⟨h, ?_, hlanes⟩
  unfold execJdrop
  rw [control_ready hrun]
  dsimp only
  rw [hon, if_neg Bool.false_ne_true, hd, hm, hleft, harrived, ← any_left, ← hall]
  exact congrArg _ hcommit

/-- The threads of a JWAIT that arrive at the mask: active, no helpers, and named by it (R202). -/
def Ctx.arriving (c : Ctx) (f : Fields) (mask : Word) : List Nat :=
  c.lanes.filter fun l => (c.rd.thread l).guard f && !(c.g.thread l).helper && mask.getLsbD l

omit hc hready in
theorem Ctx.arriving_eq (c : Ctx) (f : Fields) (mask : Word) :
    ((c.active f).filter fun l => !(c.g.thread l).helper).filter (fun l => mask.getLsbD l) = c.arriving f mask := by
  simp only [Ctx.active, Ctx.arriving, List.filter_filter]
  congr 1
  funext l
  cases (c.rd.thread l).guard f <;> cases mask.getLsbD l <;> simp

omit hc hready in
/-- The mask stays as it is at a JWAIT. -/
theorem withJoin_same (g : Group) (arrived : Word) :
    g.withJoin n (g.j.getD n 0) arrived = { g with arrived := setAt g.arrived n arrived } := by
  rw [Group.withJoin, setAt_self]

section
variable (hrun : s.Ready c 0x69 f) (ha : joinNum f.a = n) (hlen : n < c.g.arrived.length) {mask all : Word}
  (hmask : c.g.j.getD n 0 = mask) (hnew : ∀ l ∈ c.arriving f mask, (c.g.arrived.getD n 0).getLsbD l = false)
  (hcome : c.arriving f mask ≠ []) (hall : c.g.arrived.getD n 0 ||| maskOf (c.arriving f mask) = all)
include hrun ha hlen hmask hnew hcome hall

omit hready hrun ha in
/-- What the arrivals of a JWAIT come to (R202). -/
theorem joinArrive_arriving : joinArrive n ((c.active f).filter fun l => !(c.g.thread l).helper) c.g [] [] =
    if all = mask then (c.g.withJoin n mask 0, [], c.g.joinParked n)
    else (c.g.withJoin n mask all, (c.arriving f mask).reverse, []) := by
  obtain ⟨-, hfull, hpart⟩ := joinArrive_spec n mask ((c.active f).filter fun l => !(c.g.thread l).helper) c.g [] []
    ((active_nodup hc).filter _) (fun l hl => (State.active_lt hc (List.mem_filter.1 hl).1).1) hlen hmask
    (fun l hl hbit => hnew l (by rw [← Ctx.arriving_eq]; exact List.mem_filter.2 ⟨hl, hbit⟩))
  rw [Ctx.arriving_eq, hall] at hfull hpart
  subst hmask
  rw [withJoin_same, withJoin_same]
  split
  case isTrue h => exact hfull hcome h
  case isFalse h => rw [hpart hcome h, List.append_nil]

/-- The arrival of the last releases every thread parked at the mask (R202). -/
theorem execJwait_releases (hfull : all = mask) : ∃ h, execJwait f s = .next (s.setGroup s.cur h) ∧
    (c.g.withJoin n mask 0).OnlyLanes h (c.afterJoin (c.g.parkedAt n)) := by
  obtain ⟨h, hcommit, hlanes⟩ := commit_afterJoin hc hready mask 0
    (freed := c.g.joinParked n) (fun _ => Group.parkedAt_iff) (fun _ hl => hl) (c.g.joinParked n)
  refine ⟨h, ?_, hlanes⟩
  unfold execJwait
  rw [control_ready hrun]
  dsimp only
  rw [ha, joinArrive_arriving hc hlen hmask hnew hcome hall, if_pos hfull]
  exact congrArg _ hcommit

omit hready in
/-- Before that the threads that arrive park at their next IP (R202). -/
theorem execJwait_parks (hpart : all ≠ mask) : ∃ h, execJwait f s = .next (s.setGroup s.cur h) ∧
    (c.g.withJoin n mask all).OnlyLanes h fun l =>
      if l ∈ c.arriving f mask then { (c.g.thread l).advance with status := .parked (.join n) }
      else if l ∈ c.lanes then (c.g.thread l).advance else c.g.thread l := by
  obtain ⟨h, hcommit, hlanes⟩ := commit_freed (s := s) hc (c.g.withJoin n mask all) rfl []
    (fun l => if (c.arriving f mask).reverse.contains l then .parkNext (.join n) else .next) true 0 [] false _ (fun l _ => rfl)
  refine ⟨h, ?_, hlanes.congr fun l _ => ?_⟩
  · unfold execJwait
    rw [control_ready hrun]
    dsimp only
    rw [ha, joinArrive_arriving hc hlen hmask hnew hcome hall, if_neg hpart]
    exact congrArg _ hcommit
  · by_cases hl : l ∈ c.arriving f mask
    · have hlane : l ∈ c.lanes := (List.mem_filter.1 hl).1
      simp [hl, hlane, Thread.goto]
    · simp [hl, Thread.goto]

end
end

/-- Settles O16: what each of the three does to its mask and to whom it releases or parks. -/
theorem rejoinMasks : Obligations.RejoinMasks := by
  intro f n s c hn hj harr hready
  refine ⟨fun hd hon => ⟨fun hrun => ?_, fun hrun => ?_⟩, fun hrun ha _ hnew hcome => ?_⟩
  · have hjoins := execJset_joins hrun.ctx hready hrun (by rw [hd, joinNum_of_lt hn]) (isEmpty_active hon)
    rw [joinMask_eq] at hjoins
    exact hjoins
  · exact execJdrop_joins hrun.ctx hready hrun (by rw [hd, joinNum_of_lt hn]) (isEmpty_active hon) (joinMask_eq s c f) rfl rfl rfl
  · have hnum : joinNum f.a = n := by rw [ha, joinNum_of_lt hn]
    have hlen : n < c.g.arrived.length := by omega
    by_cases hfull : c.g.arrived.getD n 0 ||| maskOf (c.arriving f (c.g.j.getD n 0)) = c.g.j.getD n 0
    · obtain ⟨h, hexec, hlanes⟩ := execJwait_releases hrun.ctx hready hrun hnum hlen rfl hnew hcome rfl hfull
      exact ⟨h, hexec, (if_pos hfull).mpr hlanes⟩
    · obtain ⟨h, hexec, hlanes⟩ := execJwait_parks hrun.ctx hrun hnum hlen rfl hnew hcome rfl hfull
      exact ⟨h, hexec, (if_neg hfull).mpr hlanes⟩

/-! ## NOP, YIELD and BRK -/

section
variable {s : State} {c : Ctx} (hc : s.ctx? = some c)
include hc

/-- Every lane of the unit moves on and nothing else changes. -/
theorem commitWith_next (f : Fields) (keep : Bool) (hint : Word) (extra : List Nat) (held : Bool) :
    s.Moves c (.next (s.commitWith c c.g (fun _ => .next) keep hint extra held)) (c.after f fun _ t => t) := by
  obtain ⟨h, hcommit, hlanes⟩ := commit_dest (s := s) (State.ctx?_lanes hc).1 c.g c.g (fun l => c.g.thread l) rfl rfl rfl
    (fun _ _ => rfl) (fun _ => .next) keep hint extra held
  refine ⟨h, congrArg _ hcommit, hlanes.congr fun l _ => ?_⟩
  simp only [Ctx.after, Thread.goto, ite_self]

/-- NOP only moves on (R205). -/
theorem execNop_moves (f : Fields) : s.Moves c (execNop f s) (c.after f fun _ t => t) := by
  unfold execNop
  rw [control_noReads hc (readRegs_unused (by decide) rfl rfl rfl)]
  exact commitWith_next hc f true 0 [] false

/-- YIELD moves on, and where a thread is active every ready thread of the unit then stands in a unit that is held (R204). -/
theorem execYield_moves (f : Fields) : ∃ h, execYield f s = .next (s.setGroup s.cur h) ∧
    c.g.OnlyLanes h (c.after f fun _ t => t) ∧
      ((∀ r, s.pairRead ≠ some (r, true)) → (∃ l ∈ c.lanes, (c.rd.thread l).guard f = true) →
        ∀ l ∈ c.lanes, (h.thread l).status = .ready → HasUnit h.units (h.thread l).ip (fun k => k = l) true) := by
  have hexec : execYield f s = .next (s.commitWith c c.g (fun _ => .next) (c.active f).isEmpty 0 [] (!(c.active f).isEmpty)) := by
    unfold execYield
    rw [control_noReads hc (readRegs_unused (by decide) rfl rfl rfl)]
    rfl
  obtain ⟨h, hcommit, hlanes⟩ := commitWith_next hc f (c.active f).isEmpty 0 [] (!(c.active f).isEmpty)
  refine ⟨h, hexec.trans hcommit, hlanes, fun hpair hon l hlane hstatus => ?_⟩
  obtain ⟨h', hcommit', hunits⟩ := s.commitWith_has c c.g (fun _ => .next) (c.active f).isEmpty 0 [] (!(c.active f).isEmpty)
    hc nofun hpair
  have hsame : h' = h := State.setGroup_inj (State.ctx?_group hc).1 (hcommit'.symm.trans (Host.Outcome.next.inj hcommit))
  subst hsame
  have hunit := hunits l (by simpa using hlane) hstatus
  rwa [isEmpty_active hon] at hunit

/-- BRK with an active thread raises BREAK in the lowest of them (R206). -/
theorem execBrk_traps (f : Fields) {l : Nat} (hl : (c.active f).head? = some l) :
    execBrk f s = .next (s.takeTrap (mkTrap .brk 30 l (f.immBits 15 0))) := by
  unfold execBrk
  rw [control_noReads hc (readRegs_unused (by decide) rfl rfl rfl)]
  obtain ⟨ls, hls⟩ := List.head?_eq_some_iff.1 hl
  rw [hls]
  rfl

/-- BRK without one moves on (R206). -/
theorem execBrk_moves (f : Fields) (hnone : c.active f = []) : s.Moves c (execBrk f s) (c.after f fun _ t => t) := by
  unfold execBrk
  rw [control_noReads hc (readRegs_unused (by decide) rfl rfl rfl), hnone]
  exact commitWith_next hc f true 0 [] false

end

/-- Settles O17: each moves its unit on (`commitWith_next`), YIELD into held units; an active BRK traps instead. -/
theorem nopYieldAndBreak : Obligations.NopYieldAndBreak := by
  intro f s c hc
  refine ⟨execNop_moves hc f, ?_, fun l hl => execBrk_traps hc f hl, execBrk_moves hc f⟩
  obtain ⟨h, hexec, hlanes, hheld⟩ := execYield_moves hc f
  refine ⟨h, hexec, hlanes, fun hpair hon l hlane _ hstatus => ?_⟩
  obtain ⟨u, hu, hip, hsome, hbit⟩ := hheld hpair hon l hlane hstatus
  exact ⟨u, hu, hsome rfl, hip, hbit l rfl⟩

end Sys2Proof.Machine
end

section
/-!
# OVMAP (O19)

OVMAP changes the frame map and moves its unit on; then it releases every thread of the launch on the core that waits for a mapped
overlay. A release makes waiting threads ready and changes nothing else of a thread, so a thread that is ready already keeps as it is
(`HasThread`), also where its own group is among the released ones.
-/

namespace Sys2Proof.Machine

open Sys2Proof

/-! ## A ready thread keeps -/

/-- An issuer's group holds the thread `t` in lane `l`. -/
def State.HasThread (s : State) (i : Issuer) (l : Nat) (t : Thread) : Prop :=
  ∃ g, s.groupOf i = some g ∧ l < g.threads.length ∧ g.thread l = t

section
variable {s : State} {i : Issuer} {l : Nat} {t : Thread}

/-- Making threads ready keeps one that is. -/
theorem thread_foldl_ready (hready : t.status = .ready) {ls : List Nat} {g : Group} (hl : l < g.threads.length)
    (ht : g.thread l = t) :
    let h := ls.foldl (fun g k => g.updThread k fun t => { t with status := .ready }) g
    l < h.threads.length ∧ h.thread l = t := by
  obtain ⟨⟨-, hlen⟩, hthread⟩ := g.unpark_spec ls
  refine ⟨hlen ▸ hl, ?_⟩
  show (g.unpark ls).thread l = t
  rw [hthread l hl, ht, ← hready, ite_self]

/-- A group written back elsewhere, or with the thread in it. -/
theorem State.HasThread.setGroup {b n u : Nat} {g g' : Group} (h : s.HasThread i l t) (hg : s.groupOf (.unit b n u) = some g)
    (hkeep : l < g.threads.length → g.thread l = t → l < g'.threads.length ∧ g'.thread l = t) :
    (s.setGroup (.unit b n u) g').HasThread i l t := by
  obtain ⟨x, hx, hl, ht⟩ := h
  cases i with
  | mgmt => exact ⟨x, hx, hl, ht⟩
  | unit b' n' u' =>
    by_cases hsame : b' = b ∧ n' = n
    · obtain ⟨rfl, rfl⟩ := hsame
      have hgx : g = x := Option.some.inj (hg.symm.trans hx)
      subst hgx
      exact ⟨g', State.groupOf_setGroup g' hg, hkeep hl ht⟩
    · obtain ⟨y, hy, hyn⟩ := Option.bind_eq_some_iff.1 hx
      have hid : y.id = b' := by simpa using List.find?_some hy
      refine ⟨x, ?_, hl, ht⟩
      simp only [State.groupOf, State.block?_setGroup, hy, Option.map_some, Option.bind_some, hid]
      split
      case isTrue hb => rw [setAt, updAt_get?, if_neg fun hn => hsame ⟨hb, hn⟩, hyn]
      case isFalse => exact hyn

/-- Waking threads of some group. -/
theorem State.HasThread.wake (h : s.HasThread i l t) (hready : t.status = .ready) (b n u : Nat) (ls : List Nat) :
    (s.wake (.unit b n u) ls fun _ t => t).HasThread i l t := by
  unfold State.wake
  split
  case h_1 => exact h
  case h_2 g hg =>
    refine State.ready_spec (P := fun s' : State => s'.HasThread i l t) fun us => h.setGroup hg fun hl ht => ?_
    exact thread_foldl_ready hready hl ht

/-- Releasing all that wait for an overlay (R46). -/
theorem State.HasThread.releaseOverlay (h : s.HasThread i l t) (hready : t.status = .ready) (launch core ovl : Nat) :
    (s.releaseOverlay launch core ovl).HasThread i l t := by
  unfold State.releaseOverlay
  refine foldl_keeps (P := fun s' : State => s'.HasThread i l t) h fun s b hs => ?_
  split
  case isFalse => exact hs
  case isTrue =>
    refine foldl_keeps (P := fun s' : State => s'.HasThread i l t) hs fun s g hs => ?_
    split
    case isFalse => exact hs
    case isTrue => exact hs.wake hready ..

end

/-! ## OVMAP -/

/-- The overlays mapped by these OVMAPs release who waits for them. -/
def State.releaseMapped (s : State) (launch core : Nat) (maps : List (Nat × Nat × Nat)) : State :=
  (maps.filter fun m => m.2.2 ≠ 0xFFFFFFFF).foldl (fun s m => s.releaseOverlay launch core m.2.2) s

theorem only_releaseMapped (s : State) (launch core : Nat) (maps : List (Nat × Nat × Nat)) :
    Only s (s.releaseMapped launch core maps) := by
  unfold State.releaseMapped
  refine only_foldl (fun (s : State) (m : Nat × Nat × Nat) => s.releaseOverlay launch core m.2.2) (fun s m => ?_) _ s
  exact only_release s launch core m.2.2

/-- A release keeps a thread that is ready. -/
theorem State.HasThread.releaseMapped {s : State} {i : Issuer} {l : Nat} {t : Thread} (h : s.HasThread i l t)
    (hready : t.status = .ready) (launch core : Nat) (maps : List (Nat × Nat × Nat)) :
    (s.releaseMapped launch core maps).HasThread i l t :=
  foldl_keeps (P := fun s' : State => s'.HasThread i l t) h fun _ _ hs => hs.releaseOverlay hready ..

/-- The frame map after the OVMAPs of some lanes, one after the other (R207). -/
theorem windows_mapOverlays (s : State) (launch core : Nat) (c : Ctx) (f : Fields) (on : List Nat) :
    (s.mapOverlays launch core (s.ovmapLanes c f on)).windows = s.windows.map fun w =>
      if w.launch = launch ∧ w.core = core then
        on.foldl (fun w l => w.ovmap (s.operand c.rd l f false f.a).toNat (s.operand c.rd l f false f.b).toNat) w
      else w := by
  simp only [State.mapOverlays, State.ovmapLanes, List.foldl_map, Bool.and_eq_true, decide_eq_true_eq]

section
variable {s : State} {c : Ctx} {f : Fields} {la : Launch} (hrun : s.Ready c 0x6E f) (hla : s.launchOf s.cur = some la)
include hrun hla

/-- OVMAP with valid numbers and no copy into a named frame under way maps, moves its unit on and releases (R207). -/
theorem execOvmap_eq
    (hvalid : ∀ m ∈ s.ovmapLanes c f (c.active f), m.2.1 ≠ 0 ∧ m.2.1 < la.frames ∧ m.2.2 ≠ 0 ∧
      (m.2.2 = 0xFFFFFFFF ∨ m.2.2 < la.novl))
    (hidle : ∀ k ∈ s.cmds, ∀ m ∈ s.ovmapLanes c f (c.active f), ¬ (k.kind = .copy ∧ k.var = 3 ∧ k.launch = la.id ∧
      k.core = s.coreOfCur ∧ k.a.toNat = m.2.1 ∧ k.state ≠ .done)) :
    execOvmap f s = .next (((s.mapOverlays la.id s.coreOfCur (s.ovmapLanes c f (c.active f))).commit c c.g
      (fun _ => .next) true 0).releaseMapped la.id s.coreOfCur (s.ovmapLanes c f (c.active f))) := by
  have hbusy : ((s.ovmapLanes c f (c.active f)).any fun m => s.cmds.any fun k =>
      k.kind = .copy && k.var = 3 && k.launch = la.id && k.core = s.coreOfCur && k.a.toNat = m.2.1 && k.state != .done)
        = false := by
    refine List.any_eq_false.2 fun m hm => ?_
    rw [List.any_eq_true]
    rintro ⟨k, hk, hcopy⟩
    exact hidle k hk m hm (by simpa [and_assoc] using hcopy)
  unfold execOvmap
  rw [control_ready hrun]
  dsimp only
  rw [hla]
  dsimp only
  rw [List.flatMap_eq_nil_iff.2, guardTraps_nil, hbusy]
  · rfl
  · intro m hm
    obtain ⟨hframe, hframes, hovl, hovls⟩ := hvalid m hm
    rw [if_neg (by simp [hframe, hframes]), if_neg (by simp [hovl]; omega)]

end

/-- Moving the unit on after a change of the frame maps: blocks and the management core alone change, and a ready thread of the
unit steps. -/
theorem commit_mapOverlays {s : State} {c : Ctx} (hc : s.ctx? = some c) (launch core : Nat) (maps : List (Nat × Nat × Nat)) :
    Only (s.mapOverlays launch core maps) ((s.mapOverlays launch core maps).commit c c.g (fun _ => .next) true 0) ∧
      ∀ l ∈ c.lanes, l < c.g.threads.length → (c.g.thread l).status = .ready →
        ((s.mapOverlays launch core maps).commit c c.g (fun _ => .next) true 0).HasThread s.cur l (c.g.thread l).advance := by
  obtain ⟨h, hcommit, -, hlen, hthread⟩ := (s.mapOverlays launch core maps).commitWith_spec c c.g (fun _ => .next) true 0 [] false
    (State.ctx?_lanes hc).1
  have hgroup : (s.mapOverlays launch core maps).groupOf s.cur = some c.g := by
    have hg := (State.ctx?_group hc).1
    cases hcur : s.cur <;> rw [hcur] at hg <;> exact hg
  rw [State.commit, hcommit]
  refine ⟨only_setGroup .., fun l hlane hl hready => ⟨h, State.groupOf_setGroup h hgroup, hlen ▸ hl, ?_⟩⟩
  have hreleased := hthread l hl
  rw [if_pos hlane] at hreleased
  rcases hreleased with hsame | ⟨hparked, -⟩
  · exact hsame
  · rw [Thread.goto, Thread.advance_status, hready] at hparked
    cases hparked

/-- Settles O19: the map is made by the OVMAPs in lane order, and neither the step nor a release touches anything else. -/
theorem overlayMapping : Obligations.OverlayMapping := by
  intro f s c la hrun hla fr ov hvalid hidle hready
  have hlanes : ∀ m ∈ s.ovmapLanes c f (c.active f),
      ∃ l ∈ c.lanes, (c.rd.thread l).guard f = true ∧ m = (l, fr l, ov l) := by
    intro m hm
    obtain ⟨l, hl, rfl⟩ := List.mem_map.1 hm
    obtain ⟨hlane, hguard⟩ := active_spec.1 hl
    exact ⟨l, hlane, hguard, rfl⟩
  have hexec := execOvmap_eq hrun hla
    (fun m hm => by
      obtain ⟨l, hlane, hguard, rfl⟩ := hlanes m hm
      exact hvalid l hlane hguard)
    (fun k hk m hm => by
      obtain ⟨l, hlane, -, rfl⟩ := hlanes m hm
      exact hidle k hk l hlane)
  obtain ⟨honly, hthread⟩ := commit_mapOverlays hrun.ctx la.id s.coreOfCur (s.ovmapLanes c f (c.active f))
  have hall := honly.trans (only_releaseMapped _ la.id s.coreOfCur (s.ovmapLanes c f (c.active f)))
  refine ⟨_, hexec, ?_, ?_, fun l hlane hl => ?_⟩
  · rw [hall]
    rfl
  · rw [hall]
    exact windows_mapOverlays s la.id s.coreOfCur c f (c.active f)
  · obtain ⟨h, hgroup, -, heq⟩ := (hthread l hlane hl (hready l hlane)).releaseMapped
      ((Thread.advance_status _).trans (hready l hlane)) la.id s.coreOfCur (s.ovmapLanes c f (c.active f))
    exact ⟨h, hgroup, heq⟩

end Sys2Proof.Machine
end

section
/-!
# Forms of the memory pipe: who acts, and what the checks let through

Shared by every form below: a form that can run either runs over its actors, or is an S form whose guard fails and only moves
on (`State.CanRun.acts`). Without redundancy every lane serves itself.
-/

namespace Sys2Proof.Machine

open Sys2Proof

/-- A form that can run runs over its actors, but for an S form without one, which only moves its unit on. -/
theorem State.CanRun.acts {s : State} {c : Ctx} {op : Nat} {f : Fields} (hcan : s.CanRun c op f)
    (run : State → Ctx → List Agent → Except Stop State) :
    (f.namesS = true ∧ c.actors f = [] ∧ s.memForm op f run = .next (s.commit c c.g (fun _ => .next) true 0)) ∨
      s.memForm op f run = s.finish (run s c (c.agents f)) := by
  by_cases hidle : f.namesS = true ∧ c.actors f = []
  · exact .inl ⟨hidle.1, hidle.2, memForm_off hcan run hidle.1 hidle.2⟩
  · exact .inr (memForm_run hcan run fun hS hnone => absurd ⟨hS, hnone⟩ hidle)

/-- Without an actor an S form leaves its threads as moving on does. -/
theorem Ctx.afterMem_idle {c : Ctx} {f : Fields} (hS : f.namesS = true) (hnone : c.actors f = []) (who : Nat → Bool)
    (run : Nat → Nat → Thread → Thread) : c.afterMem f who run = c.after f fun _ t => t := by
  have hguard : (c.rd.thread c.lowLane).guard f = false := by
    simpa [Ctx.actors, hS] using hnone
  funext l
  simp only [Ctx.afterMem, Ctx.after, hS, hguard, if_true, Bool.false_and, Bool.false_eq_true, if_false, ite_self]

/-- An S form that only moves on leaves its threads so (R37). -/
theorem commit_idle {s : State} {c : Ctx} (hc : s.ctx? = some c) {f : Fields} (hS : f.namesS = true) (hnone : c.actors f = [])
    (who : Nat → Bool) (run : Nat → Nat → Thread → Thread) :
    ∃ h, s.commit c c.g (fun _ => .next) true 0 = s.setGroup s.cur h ∧ c.g.OnlyLanes h (c.afterMem f who run) := by
  rw [Ctx.afterMem_idle hS hnone]
  exact commit_move hc f true 0

theorem State.readerOf_self {s : State} (h : s.redundant = false) (agents : List Agent) (l : Nat) : s.readerOf agents l = l := by
  simp only [State.readerOf, State.primaryOf_self h, ite_self]

/-- What an actor reads of a plain place changes nothing. -/
theorem Under.afterRead {i : Issuer} {x y : State} {g : Group} (h : Under i x y g) {p : Place} {n : Nat} (hp : y.plain p n) :
    x.afterRead p n = x := by
  cases p with
  | scr part off => simp only [State.afterRead, h.hiddenHalf, hp.2, Bool.false_eq_true, if_false]
  | ctl r a => cases hp
  | loc _ | const _ | zero => rfl

/-- One state is the other but for the caches, their counters and stamps, and the counter of free values: what the order and the
lookups of an issue leave (R79, R86). -/
def State.LooksUp (s t : State) : Prop :=
  ∃ (cache l2 : List CacheLine) (stats : List CacheStat) (nextId fresh : Nat), t = { s with cache, l2, stats, nextId, fresh }

section
variable {s t : State} (h : s.LooksUp t)
include h

theorem State.LooksUp.cur : t.cur = s.cur := by
  obtain ⟨_, _, _, _, _, rfl⟩ := h
  rfl

theorem State.LooksUp.under {c : Ctx} (hc : s.ctx? = some c) : Under s.cur t t c.g := by
  obtain ⟨_, _, _, _, _, rfl⟩ := h
  refine ⟨⟨rfl, rfl⟩, ?_, fun _ => rfl⟩
  rw [← (State.ctx?_group hc).1]
  cases s.cur <;> rfl

theorem State.LooksUp.redundant : t.redundant = s.redundant := by
  obtain ⟨_, _, _, _, _, rfl⟩ := h
  rfl

theorem State.LooksUp.plain {p : Place} {n : Nat} (hp : s.plain p n) : t.plain p n := by
  obtain ⟨_, _, _, _, _, rfl⟩ := h
  cases p <;> exact hp

theorem State.LooksUp.readPlace {p : Place} {n : Nat} (hp : s.plain p n) : t.readPlace p n = s.readPlace p n := by
  obtain ⟨_, _, _, _, _, rfl⟩ := h
  exact readPlace_plain hp ..

end

/-- The events of an issue take some order, and their lookups change the caches alone (R79, R86). -/
theorem State.ordered_lookups (s : State) (write : Bool) (ls : List Nat) (ps : List Nat → List Place) :
    ∃ (order : List Nat) (t : State), order.Perm ls ∧ s.LooksUp t ∧ (s.eventOrder ls).1 = order ∧
      (s.eventOrder ls).2.touchAll write (ps order) = t := by
  obtain ⟨order, fresh, horder, hperm⟩ := s.eventOrder_spec ls
  obtain ⟨cache, l2, stats, nextId, htouch⟩ := ({ s with fresh } : State).touchAll_spec write (ps order)
  exact ⟨order, _, hperm, ⟨cache, l2, stats, nextId, fresh, htouch⟩, by rw [horder], by rw [horder]⟩

/-- The unit moves on after events that leave `y` but for the group, in which the takers of the actors of `who` have changed. -/
theorem Under.commitCur_actors {s x y : State} {c : Ctx} (hc : s.ctx? = some c) (f : Fields) (who : Nat → Bool)
    {act : Nat → Group → Nat → Group} {run : Nat → Nat → Thread → Thread} (hact : ∀ a, LaneLocal (act a) (run a))
    {order : List Nat} (hperm : order.Perm ((c.actors f).filter who))
    (h : Under s.cur x y (order.foldl (fun g l => (c.takers f l).foldl (act l) g) c.g)) :
    ∃ h, x.commitCur c = y.setGroup s.cur h ∧ c.g.OnlyLanes h (c.afterMem f who run) :=
  finish_setGroup h h.cur.1 fun s' =>
    commit_mem (s := s') (State.ctx?_lanes hc).1 f who hact order hperm (Ctx.actors_nodup hc f) c.g rfl true 0

/-- The same where the takers change after the events. -/
theorem Under.commitCur_back {s x y : State} {c : Ctx} (hc : s.ctx? = some c) (f : Fields) (who : Nat → Bool)
    {act : Nat → Group → Nat → Group} {run : Nat → Nat → Thread → Thread} (hact : ∀ a, LaneLocal (act a) (run a))
    {order : List Nat} (hperm : order.Perm ((c.actors f).filter who)) (h : Under s.cur x y c.g) :
    ∃ h, (x.updGroup s.cur fun g => order.foldl (fun g l => (c.takers f l).foldl (act l) g) g).commitCur c = y.setGroup s.cur h ∧
      c.g.OnlyLanes h (c.afterMem f who run) :=
  Under.commitCur_actors hc f who hact hperm (h.updGroup fun g => order.foldl (fun g l => (c.takers f l).foldl (act l) g) g)

/-- No check of R222 finds a trap. -/
theorem flatMap_eq_nil {α β : Type} {l : List α} {f : α → List β} (h : ∀ a ∈ l, f a = []) : l.flatMap f = [] :=
  List.flatMap_eq_nil_iff.2 h

/-- A condition holds of no one. -/
theorem any_eq_false {α : Type} {l : List α} {p : α → Bool} (h : ∀ a ∈ l, p a = false) : l.any p = false :=
  List.any_eq_false.2 fun a ha => by simp [h a ha]

/-- A list of pairs, one for each lane, has that of a lane in it. -/
theorem find_pairs {α : Type} {ls : List Nat} (w : Nat → α) {l : Nat} (h : l ∈ ls) :
    ((ls.map fun l => (l, w l)).reverse.find? fun x => x.1 = l) = some (l, w l) := by
  rw [← List.map_reverse]
  exact find_map_lane ls.reverse w l (List.mem_reverse.2 h)

end Sys2Proof.Machine
end

section
/-!
# Loads (O21)

The load events of an issue leave the state as it was, whatever their order, since no SYSTEM store of an actor is pending and every
place is plain: `loads_under` says so and gives the values read. What remains is the loads made outstanding in the takers.
-/

namespace Sys2Proof.Machine

open Sys2Proof

/-- Load events at plain places, in any order: only the values read are noted (R100). -/
theorem loads_under {i : Issuer} {y : State} {g : Group} (place : Nat → Place) (size : Nat) {all : List Nat} :
    ∀ (ls : List Nat) (x : State) (acc : List (Nat × Nat)), Under i x y g →
      (∀ l ∈ ls, l ∈ all ∧ y.plain (place l) size ∧ (g.thread l).sysPending = false) →
      let r := ls.foldl (State.loadEvent size (all.map fun l => (l, place l))) (x, acc)
      Under i r.1 y g ∧ r.2 = (ls.map fun l => (l, y.readPlace (place l) size)).reverse ++ acc
  | [], _, _, hu, _ => ⟨hu, rfl⟩
  | l :: ls, x, acc, hu, hok => by
    obtain ⟨hmem, hplain, hsys⟩ := hok l (List.mem_cons_self ..)
    obtain rfl := hu.cur.1
    have hone := hu.beforeAccess l (place l) size false hsys
    have hevent : State.loadEvent size (all.map fun l => (l, place l)) (x, acc) l =
        (x.beforeAccess l (place l) size false, (l, y.readPlace (place l) size) :: acc) := by
      simp only [State.loadEvent, find_map_lane all place l hmem, hone.afterRead hplain, hone.readPlace _ _ (plain_spec hplain).1]
    simp only [List.foldl_cons, hevent]
    obtain ⟨hrest, hvals⟩ := loads_under place size ls _ ((l, y.readPlace (place l) size) :: acc) hone
      fun k hk => hok k (List.mem_cons_of_mem _ hk)
    exact ⟨hrest, by rw [hvals]; simp⟩

/-- The counters of no taker are full. -/
theorem Ctx.ldFull_eq_false {c : Ctx} {f : Fields} (h : ∀ l ∈ c.actors f, ∀ k ∈ c.takers f l, (c.g.thread k).ld.length < 63) :
    c.ldFull (c.agents f) = false := by
  simp only [Ctx.ldFull, Ctx.agents, List.any_map, List.any_eq_false, Function.comp]
  simpa using h

/-- Where a load's actors access, as R27 and R222 give it. -/
abbrev State.loadsAt (s : State) (c : Ctx) (m : MemOp) (l : Nat) : Place × List Trap := s.goes c m false (c.rd.thread l).helper l

/-- A load whose checks pass leaves the loads of its takers outstanding, each with the value its actor read (R224). -/
theorem State.loadRun_acts {s : State} {c : Ctx} (hc : s.ctx? = some c) (m : MemOp) (hsame : s.redundant = false)
    (hok : ∀ l ∈ c.actors m.f, (s.loadsAt c m l).2 = [] ∧ s.plain (s.loadsAt c m l).1 m.size ∧
      s.poisonRead l (s.loadsAt c m l).1 m.size = [] ∧ (c.g.thread l).sysPending = false ∧
        ∀ k ∈ c.takers m.f l, (c.g.thread k).ld.length < 63) :
    ∃ (t : State) (h : Group), s.LooksUp t ∧ s.loadRun m.f m.sp m.kind c (c.agents m.f) = .ok (t.setGroup s.cur h) ∧
      c.g.OnlyLanes h (c.afterMem m.f (fun _ => true) fun a _ t =>
        t.withLoad (dstRegs m.f.d m.f.ty.pair (extend m.f.ty (s.readPlace (s.loadsAt c m a).1 m.size)))) := by
  have hfound : ((c.agents m.f).map fun a => (a, placed (c.rd.thread a.1).helper
      (s.place m.sp false m.kind a.1 (s.effAddr c.rd a.1 m.f (m.sp = .glob)) (Ty.bytes m.f.ty)))) =
      (c.actors m.f).map fun l => ((l, c.takers m.f l), s.loadsAt c m l) := by
    simp only [Ctx.agents, List.map_map, Function.comp_def, State.loadsAt, State.goes, MemOp.size]
  have hdead : ∀ l ∈ c.actors m.f, s.deadPlace (s.loadsAt c m l).1 = none := fun l hl => (plain_spec (hok l hl).2.1).2.2.1
  have hplaces : ((c.actors m.f).map fun l => (l, s.helperPlace (c.rd.thread l).helper l (s.loadsAt c m l).1)) =
      (c.actors m.f).map fun l => (l, (s.loadsAt c m l).1) :=
    List.map_congr_left fun l hl => by rw [helperPlace_self (hdead l hl)]
  have htraps : ((c.actors m.f).flatMap fun l => (s.loadsAt c m l).2) ++
      ((c.actors m.f).flatMap fun l => s.poisonRead l (s.loadsAt c m l).1 m.size) = [] := by
    rw [flatMap_eq_nil fun l hl => (hok l hl).1, flatMap_eq_nil fun l hl => (hok l hl).2.2.1, List.nil_append]
  have hheld : ((c.actors m.f).any fun l => s.heldPlace (s.loadsAt c m l).1) = false :=
    any_eq_false fun l hl => (plain_spec (hok l hl).2.1).2.1
  unfold State.loadRun
  simp only [hfound, mismatch_none hsame, List.nil_append, List.flatMap_map, List.map_map, Function.comp_def, hplaces, List.any_map,
    Ctx.ldFull_eq_false fun l hl => (hok l hl).2.2.2.2, Bool.false_or]
  rw [← MemOp.size, htraps, guardTraps_nil, hheld, if_neg Bool.false_ne_true]
  simp only [State.readerOf_self hsame, decide_true, List.filter_true]
  rw [deadTrap_none (by simpa using hdead), helpersAnswered_self (by simpa using hdead)]
  simp only [List.map_map, Function.comp_def, List.map_id']
  obtain ⟨order, t, hperm, hlooks, horder, htouch⟩ := s.ordered_lookups false (c.actors m.f) fun order => order.filterMap fun l =>
    (((c.actors m.f).map fun l => (l, (s.loadsAt c m l).1)).find? fun p => p.1 = l).map (·.2)
  simp only [horder]
  simp only [htouch]
  obtain ⟨hunder, hvals⟩ := loads_under (all := c.actors m.f) (fun l => (s.loadsAt c m l).1) m.size order t [] (hlooks.under hc)
    fun l hl => ⟨hperm.mem_iff.1 hl, hlooks.plain (hok l (hperm.mem_iff.1 hl)).2.1, (hok l (hperm.mem_iff.1 hl)).2.2.2.1⟩
  simp only [hunder.cur.1, hvals, List.append_nil, State.readerOf_self (hlooks.redundant.trans hsame)]
  obtain ⟨h, hcommit, hlanes⟩ := hunder.commitCur_back hc m.f (fun _ => true) (fun a => issueLoad_local (dstRegs m.f.d m.f.ty.pair
    (extend m.f.ty (s.readPlace (s.loadsAt c m a).1 m.size)))) (order := c.actors m.f) (by simp)
  refine ⟨t, h, hlooks, congrArg _ (Eq.trans ?_ hcommit), hlanes⟩
  congr 2
  funext g
  rw [Ctx.agents, List.foldl_map]
  refine foldl_ext' _ _ _ (fun g l hl => ?_) g
  simp only [find_pairs _ (hperm.mem_iff.2 hl), hlooks.readPlace (hok l hl).2.1, Option.map_some, Option.getD_some]

/-- The loads are the forms of the memory pipe that `loadOf` lists. -/
theorem exec_loadOf {i : Instr} {m : MemOp} (hi : loadOf i = some m) (s : State) :
    exec i s = s.memForm m.op m.f fun s c agents => s.loadRun m.f m.sp m.kind c agents := by
  cases i <;> cases hi <;> rfl

/-- Settles O21: the load events leave the state but for their lookups, and then the takers' loads are outstanding. -/
theorem loadsBecomeOutstandingWithTheirValue : Obligations.LoadsBecomeOutstandingWithTheirValue := by
  intro i s c m hi hcan hsame at_ hok
  rw [exec_loadOf hi]
  rcases hcan.acts fun s c agents => s.loadRun m.f m.sp m.kind c agents with ⟨hS, hnone, hexec⟩ | hexec
  · obtain ⟨h, hcommit, hlanes⟩ := commit_idle hcan.ctx hS hnone _ _
    exact ⟨s.cache, s.l2, s.stats, s.nextId, s.fresh, h, hexec.trans (congrArg _ hcommit), hlanes⟩
  · obtain ⟨t, h, ⟨cache, l2, stats, nextId, fresh, rfl⟩, hrun, hlanes⟩ := s.loadRun_acts hcan.ctx m hsame hok
    exact ⟨cache, l2, stats, nextId, fresh, h, by rw [hexec, hrun, finish_ok], hlanes⟩

end Sys2Proof.Machine
end

section
/-!
# Stores (O22)

A store makes one event for each actor that is no helper. The events of an issue do not touch one another's threads, so that besides the
group they act as their writes alone (`stores_under`).
-/

namespace Sys2Proof.Machine

open Sys2Proof

/-- The actors that make events: no helpers (R27). -/
def Ctx.doers (c : Ctx) (f : Fields) : List Nat := (c.actors f).filter fun l => !(c.rd.thread l).helper

theorem Ctx.mem_doers {c : Ctx} {f : Fields} {l : Nat} :
    l ∈ c.doers f ↔ l ∈ c.actors f ∧ (!(c.rd.thread l).helper) = true := List.mem_filter

theorem Ctx.doers_nodup {s : State} {c : Ctx} (hc : s.ctx? = some c) (f : Fields) : (c.doers f).Nodup :=
  (Ctx.actors_nodup hc f).filter _

theorem performers_doers {s : State} (hsame : s.redundant = false) (c : Ctx) (f : Fields) :
    s.performers c (c.agents f) = (c.doers f).map fun l => (l, c.takers f l) := performers_eq hsame f

theorem Ctx.agents_doers (c : Ctx) (f : Fields) :
    ((c.agents f).filter fun a => !(c.rd.thread a.1).helper) = (c.doers f).map fun l => (l, c.takers f l) := by
  simp only [Ctx.agents, List.filter_map, Function.comp_def, Ctx.doers]

/-- The place of each performing actor, as it was found. -/
theorem filterMap_places {α β : Type} (ls : List Nat) (v : Nat → List Nat) (found : Nat → α × β) :
    ((ls.map fun l => ((l, v l) : Agent)).filterMap fun a =>
      ((ls.map fun l => (((l, v l) : Agent), found l)).find? fun x => x.1.1 = a.1).map fun x => (a.1, x.2.1)) =
      ls.map fun l => (l, (found l).1) := by
  rw [List.filterMap_map]
  refine (List.filterMap_congr fun l hl => ?_).trans (congrFun List.filterMap_eq_map' ls)
  simp only [Function.comp, find_map_pair ls v found l hl, Option.map_some]

/-- Where the event of an actor goes. -/
abbrev State.eventAt (s : State) (c : Ctx) (m : MemOp) (l : Nat) : Place × List Trap := s.goes c m true false l

/-- The agents that are no helpers, each with what its checks find. -/
theorem map_eventAt (s : State) (c : Ctx) (m : MemOp) :
    (((c.agents m.f).filter fun a => !(c.rd.thread a.1).helper).map fun a =>
      (a, placed false (s.place m.sp true m.kind a.1 (s.effAddr c.rd a.1 m.f (m.sp = .glob)) (Ty.bytes m.f.ty)))) =
      (c.doers m.f).map fun l => ((l, c.takers m.f l), s.eventAt c m l) := by
  simp only [Ctx.agents_doers, List.map_map, Function.comp_def, State.eventAt, State.goes, MemOp.size]

/-- The item that a store of a lane writes: the low bytes of B (R225). -/
def State.storeData (s : State) (c : Ctx) (m : MemOp) (l : Nat) : Nat :=
  (s.operand c.rd l m.f m.f.ty.pair m.f.b).toNat % 2 ^ (8 * m.size)

/-- Store events one after another, besides the group: a store to a SYSTEM page waits, any other writes its place. -/
def State.storeEvents (s : State) (place : Nat → Place) (size : Nat) (data : Nat → Nat) (ls : List Nat) : State :=
  ls.foldl (fun s l => if (sysStore (place l) size (data l)).isSome then s else s.writePlace (place l) size (data l)) s

/-- A store of a lane counted in a thread: the SYSTEM store it leaves stands in the lane's own (R69, R100). -/
def storeCount (place : Nat → Place) (size : Nat) (data : Nat → Nat) (l : Nat) (g : Group) (k : Nat) : Group :=
  g.issueStore k (if k = l then sysStore (place l) size (data l) else none)

/-- Store events of lanes none of which another one's takers hold. -/
theorem stores_under {i : Issuer} (takers : Nat → List Nat) (place : Nat → Place) (size : Nat) (data : Nat → Nat) :
    ∀ (ls : List Nat) (x y : State) (g : Group), ls.Nodup → (∀ l ∈ ls, ∀ k ∈ ls, k ≠ l → k ∉ takers l) →
      (∀ l ∈ ls, (place l).memory = true ∧ (g.thread l).sysPending = false) → Under i x y g →
      Under i (ls.foldl (fun s l => s.storeEvent l (takers l) (place l) size (data l)) x) (y.storeEvents place size data ls)
        (ls.foldl (fun g l => (takers l).foldl (storeCount place size data l) g) g)
  | [], _, _, _, _, _, _, hu => hu
  | l :: ls, x, y, g, hnodup, hapart, hok, hu => by
    obtain ⟨hl, hls⟩ := List.nodup_cons.1 hnodup
    obtain ⟨hplace, hsys⟩ := hok l (List.mem_cons_self ..)
    refine stores_under takers place size data ls _ _ _ hls (fun k hk j hj => hapart k (List.mem_cons_of_mem _ hk) j
      (List.mem_cons_of_mem _ hj)) (fun k hk => ?_) (hu.storeEvent l (takers l) (place l) size (data l) hplace hsys)
    obtain ⟨hplace', hsys'⟩ := hok k (List.mem_cons_of_mem _ hk)
    have hnot : k ∉ takers l := hapart l (List.mem_cons_self ..) k (List.mem_cons_of_mem _ hk) fun h => hl (h ▸ hk)
    have hthread : ((takers l).foldl (storeCount place size data l) g).thread k = g.thread k :=
      issueStores_other (fun m => if m = l then sysStore (place l) size (data l) else none) k _ g hnot
    exact ⟨hplace', hthread ▸ hsys'⟩

/-- The counters of no taker are full. -/
theorem Ctx.stFull_eq_false {c : Ctx} {f : Fields} (h : ∀ l ∈ c.actors f, ∀ k ∈ c.takers f l, (c.g.thread k).st.length < 63) :
    c.stFull (c.agents f) = false := by
  simp only [Ctx.stFull, Ctx.agents, List.any_map, List.any_eq_false, Function.comp]
  simpa using h

section
variable {s : State} {c : Ctx} (hc : s.ctx? = some c) (m : MemOp) (hsame : s.redundant = false)
include hc hsame

/-- A store whose checks pass makes its events, counted by the takers (R225). -/
theorem State.storeRun_acts
    (hfull : ∀ l ∈ c.actors m.f, ∀ k ∈ c.takers m.f l, (c.g.thread k).st.length < 63)
    (hok : ∀ l ∈ c.doers m.f, (s.eventAt c m l).2 = [] ∧ s.plain (s.eventAt c m l).1 m.size ∧ (c.g.thread l).sysPending = false) :
    ∃ (order : List Nat) (t : State) (h : Group), order.Perm (c.doers m.f) ∧ s.LooksUp t ∧
      s.storeRun m.f m.sp m.kind c (c.agents m.f) =
        .ok ((t.storeEvents (fun l => (s.eventAt c m l).1) m.size (s.storeData c m) order).setGroup s.cur h) ∧
      c.g.OnlyLanes h (c.afterMem m.f (fun l => !(c.rd.thread l).helper) fun a k t =>
        { t with st := t.st ++ [if k = a then sysStore (s.eventAt c m a).1 m.size (s.storeData c m a) else none] }) := by
  have hplain : ∀ l ∈ c.doers m.f, s.deadPlace (s.eventAt c m l).1 = none := fun l hl => (plain_spec (hok l hl).2.1).2.2.1
  have hheld : ((c.doers m.f).any fun l => s.heldPlace (s.eventAt c m l).1) = false :=
    any_eq_false fun l hl => (plain_spec (hok l hl).2.1).2.1
  have htraps : ((c.doers m.f).flatMap fun l => (s.eventAt c m l).2) = [] := flatMap_eq_nil fun l hl => (hok l hl).1
  unfold State.storeRun
  simp only [map_eventAt, mismatch_none hsame, List.nil_append, performers_doers hsame, filterMap_places, List.flatMap_map, List.map_map,
    Function.comp_def, List.map_id', List.any_map, Ctx.stFull_eq_false hfull, Bool.false_or, htraps, guardTraps_nil, hheld,
    Bool.false_eq_true, if_false]
  rw [← MemOp.size, deadTrap_none (by simpa using hplain)]
  obtain ⟨order, t, hperm, hlooks, horder, htouch⟩ := s.ordered_lookups true (c.doers m.f) fun order => order.filterMap fun l =>
    (((c.doers m.f).map fun l => (l, (s.eventAt c m l).1)).find? fun p => p.1 = l).map (·.2)
  simp only [horder]
  simp only [htouch]
  have hevents : order.foldl (fun u l =>
      match ((c.doers m.f).map fun l => ((l, c.takers m.f l) : Agent)).find? fun a => a.1 = l,
        ((c.doers m.f).map fun l => (l, (s.eventAt c m l).1)).find? fun p => p.1 = l with
      | some a, some p => u.storeEvent l a.2 p.2 m.size (s.storeData c m l)
      | _, _ => u) t =
      order.foldl (fun u l => u.storeEvent l (c.takers m.f l) (s.eventAt c m l).1 m.size (s.storeData c m l)) t :=
    foldl_ext' _ _ _ (fun u l hl => by
      rw [find_map_lane _ _ l (hperm.mem_iff.1 hl), find_map_lane _ _ l (hperm.mem_iff.1 hl)]) t
  have hunder := stores_under (c.takers m.f) (fun l => (s.eventAt c m l).1) m.size (s.storeData c m) order t t c.g
    (hperm.nodup_iff.2 (Ctx.doers_nodup hc m.f))
    (fun l hl k hk hne => takers_apart (Ctx.mem_doers.1 (hperm.mem_iff.1 hl)).1 (Ctx.mem_doers.1 (hperm.mem_iff.1 hk)).1 hne)
    (fun l hl => ⟨(plain_spec (hok l (hperm.mem_iff.1 hl)).2.1).1, (hok l (hperm.mem_iff.1 hl)).2.2⟩) (hlooks.under hc)
  obtain ⟨h, hcommit, hlanes⟩ := hunder.commitCur_actors hc m.f _ (fun a => issueStore_local a _) hperm
  exact ⟨order, t, h, hperm, hlooks, congrArg _ ((congrArg (·.commitCur c) hevents).trans hcommit), hlanes⟩

end

/-- The stores are the forms of the memory pipe that `storeOf` lists. -/
theorem exec_storeOf {i : Instr} {m : MemOp} (hi : storeOf i = some m) (s : State) :
    exec i s = s.memForm m.op m.f fun s c agents => s.storeRun m.f m.sp m.kind c agents := by
  cases i <;> cases hi <;> rfl

/-- Settles O22: besides the group the store events are their writes, which is what `State.storeEvents` runs. -/
theorem storesWriteTheLowBytesInSomeOrder : Obligations.StoresWriteTheLowBytesInSomeOrder := by
  intro i s c m hi hcan hsame at_ does data hfull hok
  rw [exec_storeOf hi]
  rcases hcan.acts fun s c agents => s.storeRun m.f m.sp m.kind c agents with ⟨hS, hnone, hexec⟩ | hexec
  · obtain ⟨h, hcommit, hlanes⟩ := commit_idle hcan.ctx hS hnone _ _
    exact ⟨[], s.cache, s.l2, s.stats, s.nextId, s.fresh, h, by rw [hnone]; exact .nil, hexec.trans (congrArg _ hcommit), hlanes⟩
  · obtain ⟨order, t, h, hperm, ⟨cache, l2, stats, nextId, fresh, rfl⟩, hrun, hlanes⟩ := s.storeRun_acts hcan.ctx m hsame hfull
      fun l hl => hok l (Ctx.mem_doers.1 hl).1 (Ctx.mem_doers.1 hl).2
    exact ⟨order, cache, l2, stats, nextId, fresh, h, hperm, by rw [hexec, hrun, finish_ok]; rfl, hlanes⟩

end Sys2Proof.Machine
end

section
/-!
# Atomics (O23)

The events are read-modify-writes one on what another left (the law `atom_fold`); the takers get the old values after them all.
-/

namespace Sys2Proof.Machine

open Sys2Proof

/-- The value that the atomic of a lane leaves in place of an old one (R228). -/
abbrev State.atomValue (s : State) (c : Ctx) (m : MemOp) (l : Nat) (old : DWord) : Nat :=
  atomNew m.f.fn.toNat m.f.ty old (s.operand c.rd l m.f m.f.ty.pair m.f.b) (s.operand c.rd l m.f m.f.ty.pair m.f.c)

/-- The old value that an atomic gives its takers: of its event, or 0 in a helper (R27, R228). -/
def Ctx.oldValue (c : Ctx) (events : List (Nat × DWord)) (l : Nat) : DWord :=
  if !(c.rd.thread l).helper then ((events.find? fun o => o.1 = l).map (·.2)).getD 0 else 0

/-- What an atomic leaves in a taker: RED counts a store, ATOM and ATOMS a load outstanding with the old value (R228). -/
def atomReturn (m : MemOp) (old : DWord) (g : Group) (k : Nat) : Group :=
  if m.op = 0x77 then g.issueStore k none else g.issueLoad k (dstRegs m.f.d m.f.ty.pair (extend m.f.ty old.toNat))

theorem atomReturn_local (m : MemOp) (old : DWord) : LaneLocal (atomReturn m old) fun _ t =>
    if m.op = 0x77 then { t with st := t.st ++ [none] }
    else t.withLoad (dstRegs m.f.d m.f.ty.pair (extend m.f.ty old.toNat)) := by
  unfold atomReturn
  split
  · exact updThread_local fun _ t => { t with st := t.st ++ [none] }
  · exact issueLoad_local _

/-- A list of actors, each with its takers, holds an actor where it is one of them. -/
theorem contains_agents (ls : List Nat) (v : Nat → List Nat) (l : Nat) :
    (ls.map fun l => ((l, v l) : Agent)).contains (l, v l) = ls.contains l := by
  rw [Bool.eq_iff_iff]
  simp

/-- The group after every actor's takers have got what the atomic gives them: RED gives only to those of its performing actors. -/
def Ctx.giveBack (c : Ctx) (m : MemOp) (old : Nat → DWord) (g : Group) : Group :=
  ((c.actors m.f).filter fun l => !(c.rd.thread l).helper || m.op ≠ 0x77).foldl
    (fun g l => (c.takers m.f l).foldl (atomReturn m (old l)) g) g

theorem foldl_atomBack (c : Ctx) (m : MemOp) {found old : Nat → DWord} (heq : ∀ l ∈ c.actors m.f, found l = old l) (g : Group) :
    (c.agents m.f).foldl (atomBack m.f (m.op ≠ 0x77) ((c.doers m.f).map fun l => (l, c.takers m.f l)) found) g =
      c.giveBack m old g := by
  unfold Ctx.giveBack
  rw [Ctx.agents, List.foldl_map, List.foldl_filter]
  refine foldl_ext' _ _ _ (fun g l hl => ?_) g
  simp only [atomBack, contains_agents, heq l hl]
  by_cases hred : m.op = 0x77
  · have hact : atomReturn m (old l) = fun g k => g.issueStore k none := by
      funext g k
      exact if_pos hred
    simp [hred, hact, Ctx.mem_doers, hl]
  · have hact : atomReturn m (old l) = fun g k => g.issueLoad k (dstRegs m.f.d m.f.ty.pair (extend m.f.ty (old l).toNat)) := by
      funext g k
      exact if_neg hred
    simp [hred, hact]

/-- The old value of the event of an actor is found in the list of the events, in either order. -/
theorem old_of_events {c : Ctx} {events : List (Nat × DWord)} (hnodup : (events.map (·.1)).Nodup) {l : Nat}
    (hmem : (!(c.rd.thread l).helper) = true → l ∈ events.map (·.1)) (other : DWord) :
    (if (c.rd.thread l).helper then 0 else ((events.reverse.find? fun o => o.1 = l).map (·.2)).getD other) = c.oldValue events l := by
  rw [find_reverse _ _ hnodup, Ctx.oldValue]
  cases hhelper : (c.rd.thread l).helper
  · obtain ⟨x, hx⟩ := find_some_of_mem events l (hmem (by rw [hhelper]; rfl))
    simp [hx]
  · simp

/-- The counters that an atomic raises are full in no taker. -/
theorem Ctx.atomFull_eq_false {c : Ctx} {m : MemOp} (hfull : ∀ l ∈ c.actors m.f, ∀ k ∈ c.takers m.f l,
      (if m.op = 0x77 then (c.g.thread k).st.length else (c.g.thread k).ld.length) < 63) :
    (if decide (m.op ≠ 0x77) = true then c.ldFull (c.agents m.f) else c.stFull (c.agents m.f)) = false := by
  by_cases hred : m.op = 0x77
  · simp only [hred, if_true] at hfull
    simpa [hred] using Ctx.stFull_eq_false hfull
  · simp only [hred, if_false] at hfull
    simpa [hred] using Ctx.ldFull_eq_false hfull

section
variable {s : State} {c : Ctx} (hc : s.ctx? = some c) (m : MemOp) (hsame : s.redundant = false)
include hc hsame

/-- An atomic whose checks pass makes its events, and its takers get the old values (R228). -/
theorem State.atomRun_acts
    (hfull : ∀ l ∈ c.actors m.f, ∀ k ∈ c.takers m.f l,
      (if m.op = 0x77 then (c.g.thread k).st.length else (c.g.thread k).ld.length) < 63)
    (hok : ∀ l ∈ c.doers m.f, (s.eventAt c m l).2 = [] ∧ s.plain (s.eventAt c m l).1 m.size ∧
      s.poisonRead l (s.eventAt c m l).1 m.size = [] ∧ (c.g.thread l).sysPending = false) :
    ∃ (order : List Nat) (t : State) (last : Nat) (h : Group), order.Perm (c.doers m.f) ∧ s.LooksUp t ∧
      let r := t.atomEvents (fun l => (s.eventAt c m l).1) m.size (s.atomValue c m) order
      s.atomRun m.f m.sp m.kind (m.op ≠ 0x77) c (c.agents m.f) = .ok (({ r.1 with fresh := last } : State).setGroup s.cur h) ∧
      c.g.OnlyLanes h (c.afterMem m.f (fun l => !(c.rd.thread l).helper || m.op ≠ 0x77) fun a _ t =>
        if m.op = 0x77 then { t with st := t.st ++ [none] }
        else t.withLoad (dstRegs m.f.d m.f.ty.pair (extend m.f.ty (c.oldValue r.2 a).toNat))) := by
  have hplain : ∀ l ∈ c.doers m.f, s.deadPlace (s.eventAt c m l).1 = none := fun l hl => (plain_spec (hok l hl).2.1).2.2.1
  have hheld : ((c.doers m.f).any fun l => s.heldPlace (s.eventAt c m l).1) = false :=
    any_eq_false fun l hl => (plain_spec (hok l hl).2.1).2.1
  have htraps : ((c.doers m.f).flatMap fun l => (s.eventAt c m l).2) ++
      ((c.doers m.f).flatMap fun l => s.poisonRead l (s.eventAt c m l).1 m.size) = [] := by
    rw [flatMap_eq_nil fun l hl => (hok l hl).1, flatMap_eq_nil fun l hl => (hok l hl).2.2.1, List.nil_append]
  unfold State.atomRun
  simp only [map_eventAt, mismatch_none hsame, List.nil_append, performers_doers hsame, filterMap_places, List.flatMap_map, List.map_map,
    Function.comp_def, List.map_id', List.any_map, hheld, Ctx.atomFull_eq_false hfull, Bool.or_false, Bool.false_eq_true, if_false]
  rw [← MemOp.size, htraps, guardTraps_nil, deadTrap_none (by simpa using hplain)]
  obtain ⟨order, t, hperm, hlooks, horder, htouch⟩ := s.ordered_lookups true (c.doers m.f) fun order => order.filterMap fun l =>
    (((c.doers m.f).map fun l => (l, (s.eventAt c m l).1)).find? fun p => p.1 = l).map (·.2)
  simp only [horder]
  simp only [htouch, State.primaryOf_self (hlooks.redundant.trans hsame)]
  obtain ⟨hunder, hvals⟩ := atom_fold t (fun l => (s.eventAt c m l).1) m.size (s.atomValue c m)
    (State.atomEvent m.size (s.atomValue c m) ((c.doers m.f).map fun l => (l, (s.eventAt c m l).1))) order t t []
    (fun l hl => ⟨hlooks.plain (hok l (hperm.mem_iff.1 hl)).2.1, (hok l (hperm.mem_iff.1 hl)).2.2.2, fun r => by
      simp only [State.atomEvent, find_map_lane _ _ l (hperm.mem_iff.1 hl), State.rmw]⟩) (hlooks.under hc) (fun _ _ => rfl)
  simp only [List.append_nil] at hvals
  have hlanes := atomEvents_lanes (fun l => (s.eventAt c m l).1) m.size (s.atomValue c m) order t
  generalize order.foldl (State.atomEvent m.size (s.atomValue c m) ((c.doers m.f).map fun l => (l, (s.eventAt c m l).1))) (t, []) = r
    at hunder hvals ⊢
  have hnodup : ((t.atomEvents (fun l => (s.eventAt c m l).1) m.size (s.atomValue c m) order).2.map (·.1)).Nodup := by
    rw [hlanes]
    exact hperm.nodup_iff.2 (Ctx.doers_nodup hc m.f)
  generalize hr : t.atomEvents (fun l => (s.eventAt c m l).1) m.size (s.atomValue c m) order = events at hunder hvals hlanes hnodup
  let last := (r.1.updGroup s.cur (c.giveBack m (c.oldValue events.2))).fresh + 1
  obtain ⟨h, hcommit, honly⟩ := Under.commitCur_actors hc m.f (fun l => !(c.rd.thread l).helper || m.op ≠ 0x77)
    (fun a => atomReturn_local m (c.oldValue events.2 a)) (.refl _)
    ((hunder.updGroup (c.giveBack m (c.oldValue events.2))).blind (blind_fresh last))
  have hold : ∀ l ∈ c.actors m.f, (!(c.rd.thread l).helper) = true → l ∈ events.2.map (·.1) := fun l hl hdoes => by
    rw [hlanes, hperm.mem_iff]
    exact Ctx.mem_doers.2 ⟨hl, hdoes⟩
  refine ⟨order, t, last, h, hperm, hlooks, ?_, ?_⟩
  · simp only [hr, hunder.cur.1, hvals]
    simp only [foldl_atomBack c m fun l hl => old_of_events hnodup (hold l hl) _]
    exact congrArg _ hcommit
  · rw [hr]
    exact honly

end

/-- The atomics are the forms of the memory pipe that `atomicOf` lists. -/
theorem exec_atomicOf {i : Instr} {m : MemOp} (hi : atomicOf i = some m) (s : State) :
    exec i s = s.memForm m.op m.f fun s c agents => s.atomRun m.f m.sp m.kind (m.op ≠ 0x77) c agents := by
  cases i <;> cases hi <;> rfl

/-- Settles O23: besides the group the events are the read-modify-writes that `State.atomEvents` runs, one on what another left. -/
theorem atomicsReadModifyWriteInSomeOrder : Obligations.AtomicsReadModifyWriteInSomeOrder := by
  intro i s c m hi hcan hsame at_ does new hfull hok
  rw [exec_atomicOf hi]
  rcases hcan.acts fun s c agents => s.atomRun m.f m.sp m.kind (m.op ≠ 0x77) c agents with ⟨hS, hnone, hexec⟩ | hexec
  · obtain ⟨h, hcommit, hlanes⟩ := commit_idle hcan.ctx hS hnone _ _
    exact ⟨[], s.cache, s.l2, s.stats, s.nextId, s.fresh, s.fresh, h, by rw [hnone]; exact .nil, hexec.trans (congrArg _ hcommit), hlanes⟩
  · obtain ⟨order, t, last, h, hperm, ⟨cache, l2, stats, nextId, fresh, rfl⟩, hrun, hlanes⟩ :=
      s.atomRun_acts hcan.ctx m hsame hfull fun l hl => hok l (Ctx.mem_doers.1 hl).1 (Ctx.mem_doers.1 hl).2
    exact ⟨order, cache, l2, stats, nextId, fresh, last, h, hperm, by rw [hexec, hrun, finish_ok], hlanes⟩

end Sys2Proof.Machine
end

section
/-!
# Prefetches, and waiting for counters (O25)

None of the three changes a thread but by moving on, so that each comes down to which state the unit moves on in, and when.
-/

namespace Sys2Proof.Machine

open Sys2Proof

/-- A unit moves on in any state, with a group that differs from the one issued in beside the threads alone. -/
theorem commit_next (s : State) {c : Ctx} (hlanes : c.lanes.Nodup) (f : Fields) (g : Group) (hg : g.threads = c.g.threads) :
    ∃ h, s.commit c g (fun _ => .next) true 0 = s.setGroup s.cur h ∧ g.OnlyLanes h (c.after f fun _ t => t) := by
  obtain ⟨h, hcommit, honly⟩ := commit_dest (s := s) hlanes g g g.thread rfl rfl rfl (fun _ _ => rfl) (fun _ => .next) true 0 [] false
  have hafter : (fun l => if l ∈ c.lanes then (g.thread l).goto .next else g.thread l) = c.after f fun _ t => t := by
    funext l
    have hthread : g.thread l = c.g.thread l := by rw [Group.thread, hg, ← Group.thread]
    simp only [Ctx.after, hthread, Thread.goto, ite_self]
  exact ⟨h, hcommit, hafter ▸ honly⟩

theorem Ctx.agents_lanes (c : Ctx) (f : Fields) : (c.agents f).map (·.1) = c.actors f := by
  simp only [Ctx.agents, List.map_map, Function.comp_def, List.map_id']

/-- Where a PREF of a lane asks for a lease: where no check of R222 stops its access, on a page that is cacheable, of a device that
answers (R226). -/
theorem prefPlace_eq_some {s : State} {f : Fields} {c : Ctx} {l : Nat} {p : Place} :
    s.prefPlace f c l = some p ↔ ∃ x, p = .loc x ∧
      s.place .glob false 0 l (s.effAddr c.rd l f true) (Ty.bytes f.ty) = .ok (.loc x) ∧
      (∀ a, x.loc ≠ .host a) ∧ x.ms = false ∧ s.deadPlace (.loc x) = none := by
  unfold State.prefPlace
  split
  next x hplace =>
    split
    next a hhost =>
      simp only [reduceCtorEq, false_iff]
      rintro ⟨y, -, hy, hnot, -⟩
      obtain rfl : x = y := by simpa [hplace] using hy
      exact hnot a hhost
    next hhost =>
      have hsame : ∀ y, s.place .glob false 0 l (s.effAddr c.rd l f true) (Ty.bytes f.ty) = .ok (.loc y) ↔ x = y := by simp [hplace]
      simp only [hsame]
      split
      next hbad =>
        simp only [reduceCtorEq, false_iff]
        rintro ⟨_, -, rfl, -, hms, hdead⟩
        simp [hms, hdead] at hbad
      next hgood =>
        obtain ⟨hms, hdead⟩ : x.ms = false ∧ s.deadPlace (.loc x) = none := by simpa using hgood
        constructor
        · exact fun h => ⟨x, (Option.some.inj h).symm, rfl, hhost, hms, hdead⟩
        · rintro ⟨_, rfl, rfl, -⟩
          rfl
  next hplace =>
    simp only [reduceCtorEq, false_iff]
    rintro ⟨x, -, hx, -⟩
    exact hplace x hx

section
variable {s : State} {c : Ctx} {f : Fields}

/-- PREF moves its unit on with the lookups of a load (R226). -/
theorem exec_pref (hcan : s.CanRun c 0x78 f) (hsame : s.redundant = false) :
    exec (.pref f) s = .next ((s.touchAll false ((c.actors f).filterMap fun l => s.prefPlace f c l)).commit c c.g (fun _ => .next) true 0) := by
  change execPref f s = _
  rw [execPref, memForm_run hcan _ fun _ _ => rfl]
  simp only [Ctx.agents_lanes, State.readerOf_self hsame, decide_true, List.filter_true, finish_ok]

section
variable {op : Nat} (hcan : s.CanRun c op f) {run : State → Ctx → List Agent → Except Stop State}
include hcan

/-- A form that commits at once moves its unit on. -/
theorem memForm_moves (hidle : run s c [] = .ok (s.commit c c.g (fun _ => .next) true 0))
    (hrun : run s c (c.agents f) = .ok (s.commit c c.g (fun _ => .next) true 0)) :
    ∃ h, s.memForm op f run = .next (s.setGroup s.cur h) ∧ c.g.OnlyLanes h (c.after f fun _ t => t) := by
  obtain ⟨h, hcommit, honly⟩ := commit_move hcan.ctx f true 0
  exact ⟨h, by rw [memForm_run hcan run fun _ _ => hidle, hrun, finish_ok, hcommit], honly⟩

/-- A form that waits for its actors changes nothing. -/
theorem memForm_holds (hidle : run s c [] = .ok (s.commit c c.g (fun _ => .next) true 0)) (hrun : run s c (c.agents f) = .error .hold) :
    s.memForm op f run = .next s := by
  rw [memForm_run hcan run fun _ _ => hidle, hrun, finish_hold]

end

/-- FSYS holds while an actor has a SYSTEM store to perform (R227). -/
theorem exec_fsys (hcan : s.CanRun c 0x7C f) :
    if ∀ l ∈ c.actors f, (c.g.thread l).sysPending = false then
      ∃ h, exec (.fsys f) s = .next (s.setGroup s.cur h) ∧ c.g.OnlyLanes h (c.after f fun _ t => t)
    else exec (.fsys f) s = .next s := by
  change if _ then ∃ h, execFsys f s = _ ∧ _ else execFsys f s = _
  unfold execFsys
  split
  next hnone => exact memForm_moves hcan rfl (if_neg (by simpa [Ctx.agents] using hnone))
  next hsome => exact memForm_holds hcan rfl (if_pos (by simpa [Ctx.agents] using hsome))

/-- CWAIT holds while an actor has more outstanding than its immediate allows (R243). -/
theorem exec_cwait (hcan : s.CanRun c 0x98 f) :
    if ∀ l ∈ c.actors f, (c.g.thread l).ld.length ≤ f.immBits 5 0 ∧ (c.g.thread l).st.length ≤ f.immBits 11 6 ∧
        (c.g.thread l).mx ≤ f.immBits 15 12 then
      ∃ h, exec (.cwait f) s = .next (s.setGroup s.cur h) ∧ c.g.OnlyLanes h (c.after f fun _ t => t)
    else exec (.cwait f) s = .next s := by
  change if _ then ∃ h, execCwait f s = _ ∧ _ else execCwait f s = _
  unfold execCwait
  split
  next hall => exact memForm_moves hcan rfl (if_pos (by simpa [Ctx.agents, Thread.within, and_assoc] using hall))
  next hsome => exact memForm_holds hcan rfl (if_neg (by simpa [Ctx.agents, Thread.within, and_assoc] using hsome))

end

/-- Settles O25: each of the three moves its unit on, PREF with its lookups and the others once their actors let them. -/
theorem prefetchAndWaitingForCounters : Obligations.PrefetchAndWaitingForCounters := by
  intro s c f
  refine ⟨fun hcan hsame => ?_, fun hcan => ?_, fun hcan => ?_⟩
  · obtain ⟨cache, l2, stats, nextId, htouch⟩ := s.touchAll_spec false ((c.actors f).filterMap fun l => s.prefPlace f c l)
    obtain ⟨h, hcommit, honly⟩ := commit_next (s.touchAll false ((c.actors f).filterMap fun l => s.prefPlace f c l))
      (State.ctx?_lanes hcan.ctx).1 f c.g rfl
    refine ⟨cache, l2, stats, nextId, h, _, htouch, ?_, honly, fun p => ?_⟩
    · rw [exec_pref hcan hsame, hcommit, show (s.touchAll false _).cur = s.cur by rw [htouch]]
    · simp only [List.mem_filterMap, prefPlace_eq_some]
  · exact exec_fsys hcan
  · exact exec_cwait hcan

end Sys2Proof.Machine
end

section
/-!
# Pins (O26)

PIN and UNPIN fold one write of a pin register over the actors, of which the last alone shows (`foldl_setPin`).
-/

namespace Sys2Proof.Machine

open Sys2Proof

theorem updAt_updAt {α : Type} (f g : α → α) : ∀ (l : List α) (i : Nat), updAt (updAt l i f) i g = updAt l i fun x => g (f x)
  | [], _ => rfl
  | _ :: _, 0 => rfl
  | _ :: l, i + 1 => congrArg _ (updAt_updAt f g l i)

/-- A group after names have been written to a pin register: the last one stands, and each write counts (R98). -/
def Group.pinned (g : Group) (n : Nat) (name : Nat → DWord) (order : List Nat) : Group :=
  { g with
    pn := match order.getLast? with | some l => setAt g.pn n (name l) | none => g.pn
    pnGen := updAt g.pnGen n (· + order.length) }

theorem foldl_setPin (n : Nat) (name : Nat → DWord) (order : List Nat) (g : Group) :
    order.foldl (fun g l => g.setPin n (name l)) g = g.pinned n name order := by
  induction order using List.reverseRecOn with
  | nil => simp [Group.pinned, updAt_id]
  | append_singleton ls l ih =>
    rw [List.foldl_append, ih]
    cases hlast : ls.getLast? <;>
      simp [Group.pinned, Group.setPin, hlast, setAt_setAt, updAt_updAt, Nat.add_assoc]

/-- PIN and UNPIN write their names in some order and move the unit on, and deferred names settle (R229). -/
theorem State.pinRun_acts {s : State} {c : Ctx} (hc : s.ctx? = some c) (hsame : s.redundant = false) (f : Fields)
    (name : Ctx → Nat → DWord) :
    ∃ (order : List Nat) (n : Nat) (h : Group), order.Perm (c.doers f) ∧
      s.pinRun f name c (c.agents f) = .ok ((({ s with fresh := n } : State).setGroup s.cur h).settle) ∧
      (c.g.pinned (pinNum f.d) (name c) order).OnlyLanes h (c.after f fun _ t => t) := by
  obtain ⟨order, n, horder, hperm⟩ := s.eventOrder_spec (c.doers f)
  obtain ⟨h, hcommit, honly⟩ := commit_next { s with fresh := n } (State.ctx?_lanes hc).1 f
    (c.g.pinned (pinNum f.d) (name c) order) rfl
  refine ⟨order, n, h, hperm, ?_, honly⟩
  unfold State.pinRun
  rw [mismatch_none hsame, guardTraps_nil, performers_doers hsame]
  simp only [List.map_map, Function.comp_def, List.map_id', horder, foldl_setPin, hcommit]

/-- Settles O26: the last name in the order of the writes stands. -/
theorem pinsHoldOneOfTheNamesWritten : Obligations.PinsHoldOneOfTheNamesWritten := by
  intro i f s c hsame hform does name
  obtain ⟨op, hcan, hexec⟩ : ∃ op, s.CanRun c op f ∧ exec i s = s.memForm op f fun s c agents =>
      s.pinRun f (fun c l => if i = .pin f then s.operand c.rd l f true f.a else 0) c agents := by
    rcases hform with ⟨rfl, hcan⟩ | ⟨rfl, hcan⟩
    · exact ⟨_, hcan, by simp only [if_true]; rfl⟩
    · exact ⟨_, hcan, by simp only [reduceCtorEq, if_false]; rfl⟩
  rw [hexec]
  by_cases hidle : f.namesS = true ∧ c.actors f = []
  · obtain ⟨hS, hnone⟩ := hidle
    obtain ⟨h, hcommit, honly⟩ := commit_move hcan.ctx f true 0
    have hdoes : does = [] := by simp [does, hnone]
    refine ⟨none, h, s.fresh, by simp [hdoes], nofun, ?_, ?_⟩
    · rw [memForm_off hcan _ hS hnone, hcommit]
      simp [hS, hnone]
    · simpa [hdoes] using honly
  · obtain ⟨order, n, h, hperm, hrun, honly⟩ := s.pinRun_acts hcan.ctx hsame f fun c l => if i = .pin f then s.operand c.rd l f true f.a else 0
    refine ⟨order.getLast?, h, n, ?_, fun l hl => ?_, ?_, ?_⟩
    · rw [List.getLast?_eq_none_iff]
      exact ⟨fun h => (h ▸ hperm).nil_eq.symm, fun h => (List.perm_nil.1 (h ▸ hperm))⟩
    · exact hperm.mem_iff.1 (List.mem_of_getLast? hl)
    · rw [memForm_run hcan _ fun hS hnone => absurd ⟨hS, hnone⟩ hidle, hrun, finish_ok]
      exact congrArg _ (if_neg (by simpa using hidle)).symm
    · have hgen : (if does = [] then c.g.pnGen else updAt c.g.pnGen (pinNum f.d) (· + does.length)) =
          updAt c.g.pnGen (pinNum f.d) (· + order.length) := by
        rw [hperm.length_eq]
        split
        next hnone => rw [show c.doers f = [] from hnone, updAt_id (· + ([] : List Nat).length) _ _ fun _ _ => rfl]
        next => rfl
      rw [hgen]
      exact honly

end Sys2Proof.Machine
end

section
/-!
# Pin searches (O27)

RECLAIM adds one search for each actor, numbered from the next number on (`foldl_addSearch`). Numbers in use lie below, so that the
searches found again by their numbers are those just made, and each lane waits for the first of them that names it, or for the first.
-/

namespace Sys2Proof.Machine

open Sys2Proof

/-- The searches that a RECLAIM makes for these actors, numbered from `first` on (R230). -/
def State.newSearches (s : State) (f : Fields) (c : Ctx) (first : Nat) : List Nat → List Search
  | [] => []
  | l :: ls => s.searchOf f c (l, c.takers f l) first :: s.newSearches f c (first + 1) ls

theorem State.newSearches_length (s : State) (f : Fields) (c : Ctx) : ∀ (ls : List Nat) (first : Nat),
    (s.newSearches f c first ls).length = ls.length
  | [], _ => rfl
  | _ :: ls, first => congrArg (· + 1) (s.newSearches_length f c ls (first + 1))

theorem State.newSearches_get? (s : State) (f : Fields) (c : Ctx) : ∀ (ls : List Nat) (first k : Nat),
    (s.newSearches f c first ls)[k]? = ls[k]?.map fun l => s.searchOf f c (l, c.takers f l) (first + k)
  | [], _, _ => rfl
  | _ :: _, _, 0 => rfl
  | _ :: ls, first, k + 1 => by
    rw [State.newSearches, List.getElem?_cons_succ, s.newSearches_get? f c ls, List.getElem?_cons_succ, Nat.add_right_comm, Nat.add_assoc]

theorem State.newSearches_head? (s : State) (f : Fields) (c : Ctx) (ls : List Nat) (first : Nat) :
    (s.newSearches f c first ls).head?.map (·.id) = if ls = [] then none else some first := by
  cases ls <;> rfl

/-- The new searches have numbers from the first one on. -/
theorem State.le_of_mem_newSearches {s : State} {f : Fields} {c : Ctx} {q : Search} : ∀ (ls : List Nat) (first : Nat),
    q ∈ s.newSearches f c first ls → first ≤ q.id
  | l :: ls, first, h => by
    rcases List.mem_cons.1 h with rfl | h
    · exact Nat.le_refl _
    · exact Nat.le_of_succ_le (State.le_of_mem_newSearches ls (first + 1) h)

/-- The first of the new searches that names a lane is that of the first actor that has the lane among its takers. -/
theorem State.find_newSearches {s : State} (hsame : s.redundant = false) (f : Fields) (c : Ctx) (k : Nat) :
    ∀ (ls : List Nat) (first : Nat), (∀ l ∈ ls, ∀ m ∈ c.takers f l, m < 32) →
      ((s.newSearches f c first ls).find? fun q => q.lanes.getLsbD k).map (·.id) =
        (ls.findIdx? fun l => (c.takers f l).contains k).map (first + ·)
  | [], _, _ => rfl
  | l :: ls, first, hlt => by
    have hlane : (s.searchOf f c (l, c.takers f l) first).lanes.getLsbD k = (c.takers f l).contains k := by
      simp only [State.searchOf, hsame, Bool.false_eq_true, if_false, List.append_nil]
      rw [maskOf_getLsbD _ _ (hlt l (List.mem_cons_self ..)), List.contains_eq_mem]
    have ih := State.find_newSearches hsame f c k ls (first + 1) fun m hm => hlt m (List.mem_cons_of_mem _ hm)
    rw [State.newSearches, List.find?_cons, List.findIdx?_cons, hlane]
    cases (c.takers f l).contains k
    · simp only [Bool.false_eq_true, if_false]
      rw [ih, Option.map_map]
      congr 1
      funext n
      simp only [Function.comp]
      omega
    · rfl

/-- A state after the searches of a RECLAIM have been added to it. -/
def State.searched (s : State) (f : Fields) (c : Ctx) (ls : List Nat) : State :=
  { s with searches := s.searches ++ s.newSearches f c s.nextId ls, nextId := s.nextId + ls.length }

/-- What a search is made of does not depend on the searches there are. -/
theorem State.newSearches_addSearch (s : State) (f : Fields) (c : Ctx) (a : Agent) : ∀ (ls : List Nat) (first : Nat),
    (State.addSearch f c s a).newSearches f c first ls = s.newSearches f c first ls
  | [], _ => rfl
  | l :: ls, first => by
    rw [State.newSearches, s.newSearches_addSearch f c a ls (first + 1)]
    rfl

theorem State.searched_cons (s : State) (f : Fields) (c : Ctx) (l : Nat) (ls : List Nat) :
    (State.addSearch f c s (l, c.takers f l)).searched f c ls = s.searched f c (l :: ls) := by
  rw [State.searched, State.newSearches_addSearch]
  simp [State.searched, State.addSearch, State.newSearches, Nat.add_comm, Nat.add_left_comm]

theorem foldl_addSearch (f : Fields) (c : Ctx) : ∀ (ls : List Nat) (s : State),
    (ls.map fun l => (l, c.takers f l)).foldl (State.addSearch f c) s = s.searched f c ls
  | [], s => by simp [State.searched, State.newSearches]
  | l :: ls, s => (foldl_addSearch f c ls _).trans (s.searched_cons f c l ls)

/-- The searches found again by their numbers are those just made, where numbers in use lie below the next one. -/
theorem State.searched_new {s : State} (hid : ∀ q ∈ s.searches, q.id < s.nextId) (f : Fields) (c : Ctx) (ls : List Nat) :
    (s.searched f c ls).searches.filter (fun q => q.id ≥ s.nextId) = s.newSearches f c s.nextId ls := by
  rw [State.searched, List.filter_append, List.filter_eq_nil_iff.2 fun q hq => by simpa using hid q hq,
    List.filter_eq_self.2 fun q hq => by simpa using State.le_of_mem_newSearches _ _ hq, List.nil_append]

/-- The search that a lane waits for: the first that names it, else the first of all (R230). -/
def Ctx.searchId (c : Ctx) (f : Fields) (first l : Nat) : Option Nat :=
  match (c.doers f).findIdx? fun a => (c.takers f a).contains l with
  | some k => some (first + k)
  | none => if c.doers f = [] then none else some first

/-- Where RECLAIM sends a lane: it is held till its search is over (R230). -/
def Ctx.searchGoto (c : Ctx) (f : Fields) (first l : Nat) : Goto :=
  match c.searchId f first l with
  | some id => .park (.search id)
  | none => .next

theorem Ctx.goto_search (c : Ctx) (f : Fields) (first l : Nat) (t : Thread) : t.goto (c.searchGoto f first l) =
    match (c.doers f).findIdx? fun a => (c.takers f a).contains l with
    | some k => { t with status := .parked (.search (first + k)) }
    | none => if c.doers f = [] then t.advance else { t with status := .parked (.search first) } := by
  unfold Ctx.searchGoto Ctx.searchId
  cases (c.doers f).findIdx? fun a => (c.takers f a).contains l with
  | some k => rfl
  | none =>
    by_cases hnone : c.doers f = []
    · simp only [if_pos hnone]
      rfl
    · simp only [if_neg hnone]
      rfl

/-- RECLAIM adds its searches and moves each lane on or holds it (R230). -/
theorem exec_reclaim {s : State} {c : Ctx} {f : Fields} (hcan : s.CanRun c 0x7B f) (hsame : s.redundant = false)
    (hid : ∀ q ∈ s.searches, q.id < s.nextId)
    (hok : ∀ l ∈ c.doers f, s.reclaimTraps f c l = [] ∧ s.partSaved (scrPart (s.operand c.rd l f false f.b).toNat) = false) :
    exec (.reclaim f) s = .next ((s.searched f c (c.doers f)).commit c c.g (c.searchGoto f s.nextId) true 0) := by
  have hlt : ∀ l ∈ c.doers f, ∀ m ∈ c.takers f l, m < 32 := fun l hl m hm => by
    have hlane := hcan.actors_lanes (Ctx.mem_doers.1 hl).1
    simp only [Ctx.takers] at hm
    split at hm
    · exact State.lane_lt hcan.ctx hm
    · exact List.mem_singleton.1 hm ▸ State.lane_lt hcan.ctx hlane
  have hmine : ∀ l, (((s.newSearches f c s.nextId (c.doers f)).find? fun q => q.lanes.getLsbD l).orElse fun _ =>
      (s.newSearches f c s.nextId (c.doers f)).head?).map (·.id) = c.searchId f s.nextId l := fun l => by
    rw [Option.orElse_eq_or, Option.map_or, State.find_newSearches hsame f c l (c.doers f) s.nextId hlt, s.newSearches_head?]
    unfold Ctx.searchId
    cases (c.doers f).findIdx? fun a => (c.takers f a).contains l <;> rfl
  change execReclaim f s = _
  unfold execReclaim
  by_cases hidle : f.namesS = true ∧ c.actors f = []
  · obtain ⟨hS, hnone⟩ := hidle
    have hdoes : c.doers f = [] := by simp [Ctx.doers, hnone]
    refine (memForm_off hcan _ hS hnone).trans ?_
    have hgoto : c.searchGoto f s.nextId = fun _ => .next := by
      funext l
      simp [Ctx.searchGoto, Ctx.searchId, hdoes]
    simp [hdoes, hgoto, State.searched, State.newSearches]
  · refine (memForm_run hcan _ fun hS hnone => absurd ⟨hS, hnone⟩ hidle).trans ?_
    have htraps : ((c.doers f).flatMap fun l => s.reclaimTraps f c l) = [] := flatMap_eq_nil fun l hl => (hok l hl).1
    have hsaved : ((c.doers f).any fun l => s.partSaved (scrPart (s.operand c.rd l f false f.b).toNat)) = false :=
      any_eq_false fun l hl => (hok l hl).2
    simp only [mismatch_none hsame, List.nil_append, Ctx.agents_doers, List.flatMap_map, htraps, guardTraps_nil, List.any_map,
      Function.comp_def, hsaved, Bool.false_eq_true, if_false, performers_doers hsame, foldl_addSearch, State.searched_new hid, hmine, finish_ok]
    rfl

/-- Settles O27: the searches are those of the actors in turn, and each lane waits for the first that names it. -/
theorem reclaimSearchesAndHolds : Obligations.ReclaimSearchesAndHolds := by
  intro f s c hcan hsame hid does bar hok
  obtain ⟨h, hcommit, honly⟩ := commit_dest (s := s.searched f c does) (State.ctx?_lanes hcan.ctx).1 c.g c.g c.g.thread rfl rfl rfl
    (fun _ _ => rfl) (c.searchGoto f s.nextId) true 0 [] false
  refine ⟨s.newSearches f c s.nextId does, h, ?_, s.newSearches_length f c does _, fun k hk q hq => ?_, ?_⟩
  · exact (exec_reclaim hcan hsame hid hok).trans (congrArg _ hcommit)
  · rw [State.newSearches_get?, List.getElem?_eq_getElem hk, Option.map_some, Option.some.injEq] at hq
    subst hq
    rw [List.getD_eq_getElem _ _ hk]
    refine ⟨rfl, ?_, rfl, rfl, rfl, rfl, rfl, rfl⟩
    simp [State.searchOf, hsame]
  · simp only [Ctx.goto_search] at honly
    exact honly

end Sys2Proof.Machine
end

section
/-!
# Barrier events (O29)

The four instructions that make events share one run: `barRun_acts` says which events it makes, in some order.
-/

namespace Sys2Proof.Machine

open Sys2Proof

/-- A barrier object that may be accessed is where it is found, and raises no check of R222. -/
theorem State.objectOk.found {s : State} {f : Fields} {c : Ctx} {reads : Bool} {l : Nat} (h : s.objectOk f c reads l) :
    placed false (s.barPlace f c l) = (.scr (s.objectAt f c l).1 (s.objectAt f c l).2, []) ∧ s.partSaved (s.objectAt f c l).1 = false ∧
      (reads = true → s.poisonRead l (.scr (s.objectAt f c l).1 (s.objectAt f c l).2) 16 = []) := by
  obtain ⟨p, o, hplace, hsaved, hpoison⟩ := h
  simp only [State.objectAt, hplace]
  exact ⟨rfl, hsaved, hpoison⟩

/-- The unit moves on after events, in the group that they leave. -/
theorem commitCur_spec (u : State) {c : Ctx} (hlanes : c.lanes.Nodup) :
    ∃ h, u.commitCur c = u.setGroup u.cur h ∧ ∀ g, u.groupOf u.cur = some g →
      g.OnlyLanes h fun l => if l ∈ c.lanes then (g.thread l).advance else g.thread l := by
  obtain ⟨h, hcommit, honly⟩ := commit_dest (s := u) hlanes (u.curGroup c) (u.curGroup c) (u.curGroup c).thread rfl rfl rfl (fun _ _ => rfl)
    (fun _ => .next) true 0 [] false
  refine ⟨h, hcommit, fun g hg => ?_⟩
  have hcur : u.curGroup c = g := by rw [State.curGroup, hg, Option.getD_some]
  exact hcur ▸ honly

/-- The barrier instructions that make events are the forms that `barOf` lists. -/
theorem exec_barOf {i : Instr} {b : BarOp} (hi : barOf i = some b) (s : State) : exec i s = s.barRun b.op b.f b.reads b.act := by
  cases i <;> cases hi <;> rfl

/-- The event of a lane on its barrier object (R236, R237, R239). -/
abbrev State.barEvent (s : State) (b : BarOp) (c : Ctx) (u : State) (l : Nat) : State :=
  b.act (u.beforeAccess l (.scr (s.objectAt b.f c l).1 (s.objectAt b.f c l).2) 16 true) (fun o => (s.operand c.rd l b.f false o).toNat)
    s.cur.owner (s.objectAt b.f c l).1 (s.objectAt b.f c l).2

/-- A form with an actor, or of no S register, makes its events in some order and moves on. -/
theorem barRun_acts {s : State} {c : Ctx} {b : BarOp} (hcan : s.CanRun c b.op b.f) (hsame : s.redundant = false)
    (hidle : ¬(b.f.namesS = true ∧ c.actors b.f = [])) (hok : ∀ l ∈ c.doers b.f, s.objectOk b.f c b.reads l) :
    ∃ (order : List Nat) (n : Nat), order.Perm (c.doers b.f) ∧
      s.barRun b.op b.f b.reads b.act = .next ((order.foldl (s.barEvent b c) { s with fresh := n }).commitCur c) := by
  obtain ⟨order, n, horder, hperm⟩ := s.eventOrder_spec (c.doers b.f)
  refine ⟨order, n, hperm, ?_⟩
  unfold State.barRun
  rw [memForm_run hcan _ fun hS hnone => absurd ⟨hS, hnone⟩ hidle]
  have hfound : (c.doers b.f).map (fun l => (l, placed false (s.barPlace b.f c l))) =
      (c.doers b.f).map fun l => (l, (Place.scr (s.objectAt b.f c l).1 (s.objectAt b.f c l).2, ([] : List Trap))) :=
    List.map_congr_left fun l hl => by rw [(hok l hl).found.1]
  have hpoison : (if b.reads then (c.doers b.f).flatMap fun l => s.poisonRead l (.scr (s.objectAt b.f c l).1 (s.objectAt b.f c l).2) 16
      else []) = [] := by
    split
    next hreads => exact flatMap_eq_nil fun l hl => (hok l hl).found.2.2 hreads
    next => rfl
  have hheld : ((c.doers b.f).any fun l => s.heldPlace (.scr (s.objectAt b.f c l).1 (s.objectAt b.f c l).2)) = false :=
    any_eq_false fun l hl => (hok l hl).found.2.1
  simp only [Ctx.agents_doers, List.map_map, Function.comp_def, hfound, List.flatMap_map, mismatch_none hsame, List.nil_append, hpoison, List.any_map,
    hheld, performers_doers hsame, List.map_id', horder, Bool.false_eq_true, if_false]
  rw [flatMap_eq_nil fun _ _ => rfl, List.nil_append, guardTraps_nil, finish_ok]
  congr 2
  refine foldl_ext' _ _ _ (fun u l hl => ?_) _
  rw [find_map_lane _ _ l (hperm.mem_iff.1 hl)]
  rfl

/-- Settles O29: the events of the actors that are no helpers, each on what the one before it left. -/
theorem barrierInstructionsMakeTheirEvents : Obligations.BarrierInstructionsMakeTheirEvents := by
  intro i s c b hi hcan hsame does hok
  rw [exec_barOf hi]
  by_cases hidle : b.f.namesS = true ∧ c.actors b.f = []
  · obtain ⟨hS, hnone⟩ := hidle
    obtain ⟨h, hcommit, honly⟩ := commitCur_spec s (State.ctx?_lanes hcan.ctx).1
    have hcur : s.curGroup c = c.g := by rw [State.curGroup, (State.ctx?_group hcan.ctx).1, Option.getD_some]
    refine ⟨[], s.fresh, h, by simp [does, hnone], ?_, honly⟩
    exact (memForm_off hcan _ hS hnone).trans (congrArg _ ((congrArg (s.commit c · _ true 0) hcur.symm).trans hcommit))
  · obtain ⟨order, n, hperm, hrun⟩ := barRun_acts hcan hsame hidle hok
    obtain ⟨h, hcommit, honly⟩ := commitCur_spec (order.foldl (s.barEvent b c) { s with fresh := n }) (State.ctx?_lanes hcan.ctx).1
    exact ⟨order, n, h, hperm, hrun.trans (congrArg _ hcommit), honly⟩

end Sys2Proof.Machine
end

section
/-!
# Waits and tests on barriers (O30)

BTEST and BWAIT only look at the objects: `phaseRead_acts` gives the list of what each actor sees. A lane takes part through the one
actor that has it among its takers (`Ctx.actorOf`), whose answer tells whether the lane moves on or parks.
-/

namespace Sys2Proof.Machine

open Sys2Proof

/-- The lane whose operands a lane of a form uses: of a form of an S register, the lowest (R37). -/
def Ctx.actorOf (c : Ctx) (f : Fields) (l : Nat) : Nat := if f.namesS then c.lowLane else l

section
variable {c : Ctx} {f : Fields} {l : Nat} (hl : l ∈ c.lanes)
include hl

theorem Ctx.actorOf_mem : c.actorOf f l ∈ c.actors f ↔ (c.rd.thread (c.actorOf f l)).guard f = true := by
  unfold Ctx.actorOf Ctx.actors
  cases f.namesS with
  | true => simp
  | false => simp [active_spec, hl]

theorem Ctx.mem_takers {a : Nat} (ha : a ∈ c.actors f) : l ∈ c.takers f a ↔ a = c.actorOf f l := by
  unfold Ctx.actorOf Ctx.takers
  unfold Ctx.actors at ha
  cases hS : f.namesS with
  | true =>
    have hlow : a = c.lowLane := by
      simp only [hS, if_true] at ha
      split at ha <;> simp_all
    simp [hl, hlow]
  | false => simp [eq_comm]

/-- The one actor that has a lane among its takers and meets a condition. -/
theorem Ctx.find_actor (p : Nat → Bool) :
    ((c.actors f).find? fun a => (c.takers f a).contains l && p a) =
      if (c.rd.thread (c.actorOf f l)).guard f && p (c.actorOf f l) then some (c.actorOf f l) else none := by
  split
  next hyes =>
    obtain ⟨hguard, hp⟩ := Bool.and_eq_true_iff.1 hyes
    have hmem := (Ctx.actorOf_mem hl).2 hguard
    have hsome : ((c.actors f).find? fun a => (c.takers f a).contains l && p a).isSome := by
      rw [List.find?_isSome]
      exact ⟨_, hmem, by simpa [Ctx.mem_takers hl hmem] using hp⟩
    obtain ⟨a, ha⟩ := Option.isSome_iff_exists.1 hsome
    have hfound := List.find?_some ha
    rw [ha, Option.some.injEq]
    exact (Ctx.mem_takers hl (List.mem_of_find?_eq_some ha)).1 (by simpa using (Bool.and_eq_true_iff.1 hfound).1)
  next hno =>
    rw [List.find?_eq_none]
    intro a ha hyes
    obtain ⟨htaker, hp⟩ := Bool.and_eq_true_iff.1 hyes
    obtain rfl := (Ctx.mem_takers hl ha).1 (by simpa using htaker)
    exact hno (Bool.and_eq_true_iff.2 ⟨(Ctx.actorOf_mem hl).1 ha, hp⟩)

end

/-- The object of a lane as it stands (R235). -/
def State.barSeen (s : State) (c : Ctx) (f : Fields) (l : Nat) : Nat := s.bar s.cur.owner (s.objectAt f c l).1 (s.objectAt f c l).2

/-- The phase that a lane asks for (R235). -/
def State.phaseAsked (s : State) (c : Ctx) (f : Fields) (l : Nat) : Nat := (s.operand c.rd l f false f.b).toNat % 2 ^ 16

/-- What the actors see: each with its takers, its object and its phase. -/
def State.phaseReads (s : State) (c : Ctx) (f : Fields) : List (Agent × Nat × Nat × Nat × Nat) :=
  (c.actors f).map fun l =>
    ((l, c.takers f l), s.barSeen c f l, (s.objectAt f c l).1, (s.objectAt f c l).2, s.phaseAsked c f l)

/-- The word of a lane (R235). -/
def State.statusWord (s : State) (c : Ctx) (f : Fields) (l : Nat) : DWord := (barStatus (s.barSeen c f l) (s.phaseAsked c f l)).zeroExtend 64

/-- A form that looks at objects that may be accessed acts on what its actors see. -/
theorem phaseRead_acts {s : State} {c : Ctx} {op : Nat} {f : Fields} (hcan : s.CanRun c op f) (hsame : s.redundant = false)
    (hok : ∀ l ∈ c.actors f, s.objectOk f c true l)
    (act : Ctx → List (Agent × Nat × Nat × Nat × Nat) → State → Except Stop State)
    (hidle : act c [] s = .ok (s.commit c c.g (fun _ => .next) true 0)) :
    s.phaseRead op f act = s.finish (act c (s.phaseReads c f) s) := by
  unfold State.phaseRead
  rw [memForm_run hcan _ fun _ _ => by simp [mismatch_none hsame, guardTraps_nil, hidle]]
  have hfound : (c.agents f).map (fun a => (a, placed false (s.barPlace f c a.1))) =
      (c.actors f).map fun l => ((l, c.takers f l), (Place.scr (s.objectAt f c l).1 (s.objectAt f c l).2, ([] : List Trap))) := by
    rw [Ctx.agents, List.map_map]
    exact List.map_congr_left fun l hl => by simp only [Function.comp, (hok l hl).found.1]
  have hpoison : ((c.actors f).flatMap fun l => s.poisonRead l (.scr (s.objectAt f c l).1 (s.objectAt f c l).2) 16) = [] :=
    flatMap_eq_nil fun l hl => (hok l hl).found.2.2 rfl
  have hheld : ((c.actors f).any fun l => s.heldPlace (.scr (s.objectAt f c l).1 (s.objectAt f c l).2)) = false :=
    any_eq_false fun l hl => (hok l hl).found.2.1
  simp only [hfound, List.flatMap_map, mismatch_none hsame, List.nil_append, hpoison, List.any_map, Function.comp_def, hheld,
    Bool.false_eq_true, if_false, List.filterMap_map]
  rw [flatMap_eq_nil fun _ _ => rfl, List.nil_append, guardTraps_nil]
  rw [List.filterMap_eq_map']
  rfl

/-- The wait of an actor is satisfied (R235). -/
def State.satisfied (s : State) (c : Ctx) (f : Fields) (a : Nat) : Bool := barSat (s.barSeen c f a) (s.phaseAsked c f a)

/-- The register that a wait writes. -/
def waitDst : Opnd → Option Nat
  | .v n => some n.toNat
  | _ => none

/-- The object that a lane parks on: that of its actor, where the actor's wait is not satisfied (R237). -/
def State.parksOn (s : State) (c : Ctx) (f : Fields) (l : Nat) : Option WaitOn :=
  ((s.phaseReads c f).find? fun r => r.1.2.contains l && !barSat r.2.1 r.2.2.2.2).map fun r =>
    .barrier r.2.2.1 r.2.2.2.1 r.2.2.2.2 (waitDst f.d)

theorem State.parksOn_eq (s : State) {c : Ctx} (f : Fields) {l : Nat} (hl : l ∈ c.lanes) :
    s.parksOn c f l =
      if (c.rd.thread (c.actorOf f l)).guard f && !s.satisfied c f (c.actorOf f l) then
        some (.barrier (s.objectAt f c (c.actorOf f l)).1 (s.objectAt f c (c.actorOf f l)).2 (s.phaseAsked c f (c.actorOf f l)) (waitDst f.d))
      else none := by
  rw [State.parksOn, State.phaseReads, List.find?_map]
  simp only [Function.comp_def, Ctx.find_actor hl fun a => !barSat (s.barSeen c f a) (s.phaseAsked c f a), State.satisfied]
  by_cases hpark : ((c.rd.thread (c.actorOf f l)).guard f &&
      !barSat (s.barSeen c f (c.actorOf f l)) (s.phaseAsked c f (c.actorOf f l))) = true
  · simp only [if_pos hpark, Option.map_some]
    exact (if_pos hpark).symm
  · simp only [if_neg hpark, Option.map_none]
    exact (if_neg hpark).symm

/-- Where BWAIT sends a lane (R237). -/
def State.waitGoto (s : State) (c : Ctx) (f : Fields) (l : Nat) : Goto :=
  match s.parksOn c f l with
  | some w => .park w
  | none => .next

/-- A lane of BWAIT: it goes on where its actor's guard fails or its wait is satisfied, and then with the word; else it parks. -/
theorem State.goto_wait (s : State) {c : Ctx} (f : Fields) {l : Nat} (hl : l ∈ c.lanes) (t : Thread) :
    (if (c.rd.thread (c.actorOf f l)).guard f && s.satisfied c f (c.actorOf f l) then
        t.withDst f.d false (s.statusWord c f (c.actorOf f l)) else t).goto (s.waitGoto c f l) =
      if (c.rd.thread (c.actorOf f l)).guard f then
        if s.satisfied c f (c.actorOf f l) then (t.withDst f.d false (s.statusWord c f (c.actorOf f l))).advance
        else { t with status := .parked (.barrier (s.objectAt f c (c.actorOf f l)).1 (s.objectAt f c (c.actorOf f l)).2
          (s.phaseAsked c f (c.actorOf f l)) (waitDst f.d)) }
      else t.advance := by
  rw [State.waitGoto, s.parksOn_eq f hl]
  cases (c.rd.thread (c.actorOf f l)).guard f <;> cases s.satisfied c f (c.actorOf f l) <;> rfl

/-- The registers that pending matrix operations no longer write, since BWAIT is to write them. -/
def State.waitLost (s : State) (c : Ctx) (f : Fields) : List (Nat × Nat) :=
  match waitDst f.d with
  | some n => (c.lanes.filter fun l => (s.parksOn c f l).isSome).map fun l => (l, n)
  | none => []

/-- The words that BWAIT writes to the takers of the actors whose wait is satisfied. -/
def State.waitWords (s : State) (c : Ctx) (f : Fields) : Group :=
  ((c.actors f).filter (s.satisfied c f)).foldl
    (fun g l => (c.takers f l).foldl (fun g k => g.writeDst k f.d false (s.statusWord c f l)) g) c.g

/-- A group whose pending matrix operations have lost more lanes keeps them but for that. -/
theorem map_kept_lost (lost : List (Nat × Nat)) (ops : List MxOp) :
    (ops.map fun o => { o with lost := lost ++ o.lost }).map MxOp.kept = ops.map MxOp.kept := by
  rw [List.map_map]
  rfl

/-- BTEST writes each taker the word of its actor (R238). -/
theorem exec_btest {s : State} {c : Ctx} {f : Fields} (hcan : s.CanRun c 0x94 f) (hsame : s.redundant = false) (hdst : ∀ n, f.d ≠ .s n)
    (hok : ∀ l ∈ c.actors f, s.objectOk f c true l) :
    ∃ h, exec (.btest f) s = .next (s.setGroup s.cur h) ∧
      c.g.OnlyLanes h (c.afterMem f (fun _ => true) fun a _ t => t.withDst f.d false (s.statusWord c f a)) := by
  obtain ⟨h, hcommit, honly⟩ := commit_mem (s := s) (State.ctx?_lanes hcan.ctx).1 f (fun _ => true)
    (fun a => writeDst_local f.d false (fun _ => s.statusWord c f a) hdst) (c.actors f) (by simp) (Ctx.actors_nodup hcan.ctx f) c.g rfl true 0
  refine ⟨h, ?_, honly⟩
  change execBtest f s = _
  rw [execBtest, phaseRead_acts hcan hsame hok _ rfl, finish_ok, State.phaseReads]
  simp only [List.foldl_map]
  exact congrArg _ hcommit

/-- BWAIT writes its words and parks the lanes whose wait is not satisfied, taking their registers from pending matrix operations. -/
theorem exec_bwait {s : State} {c : Ctx} {f : Fields} (hcan : s.CanRun c 0x93 f) (hsame : s.redundant = false)
    (hok : ∀ l ∈ c.actors f, s.objectOk f c true l) :
    exec (.bwait f) s = .next (s.commit c
      { s.waitWords c f with mxq := (s.waitWords c f).mxq.map fun o => { o with lost := s.waitLost c f ++ o.lost } }
      (s.waitGoto c f) true 0) := by
  change execBwait f s = _
  rw [execBwait, phaseRead_acts hcan hsame hok, finish_ok]
  · have hwords : s.waitWords c f = (s.phaseReads c f).foldl (fun g r =>
        if barSat r.2.1 r.2.2.2.2 then
          r.1.2.foldl (fun g m => g.writeDst m f.d false ((barStatus r.2.1 r.2.2.2.2).zeroExtend 64)) g
        else g) c.g := by
      rw [State.waitWords, State.phaseReads, List.foldl_map, List.foldl_filter]
      rfl
    rw [hwords]
    rfl
  · cases f.d <;> simp

/-- Settles O30: a lane follows its actor, whose answer BTEST writes and BWAIT writes or waits for. -/
theorem barrierWaitsAndTests : Obligations.BarrierWaitsAndTests := by
  intro f s c hsame hdst hok at_ seen phase word
  refine ⟨fun hcan => exec_btest hcan hsame hdst hok, fun hcan => ?_⟩
  obtain ⟨hgroup, hlength, hmxq, hthread⟩ := mem_fold (State.ctx?_lanes hcan.ctx).1 f (s.satisfied c f)
    (fun a => writeDst_local f.d false (fun _ => s.statusWord c f a) hdst) _ (.refl _) (Ctx.actors_nodup hcan.ctx f) c.g rfl
  obtain ⟨h, hcommit, honly⟩ := commit_dest (s := s) (State.ctx?_lanes hcan.ctx).1 c.g
    { s.waitWords c f with mxq := (s.waitWords c f).mxq.map fun o => { o with lost := s.waitLost c f ++ o.lost } } _
    (congrArg (fun g : Group => ({ g with mxq := g.mxq.map fun o => ({ o with lost := s.waitLost c f ++ o.lost } : MxOp) } : Group)) hgroup)
    hlength ((map_kept_lost _ _).trans hmxq) hthread (s.waitGoto c f) true 0 [] false
  refine ⟨h, (exec_bwait hcan hsame hok).trans (congrArg _ hcommit), ?_⟩
  convert honly using 2 with l
  split
  next hl =>
    exact (s.goto_wait f hl (c.g.thread l)).symm
  next => rfl

end Sys2Proof.Machine
end

section
/-!
# Handles (O31)

HTEST writes a word in each active lane. HCANCEL marks commands one after another; a mark changes neither which commands there are nor
which are running, so that the marks add up to one pass over the commands (`foldl_cancel`).
-/

namespace Sys2Proof.Machine

open Sys2Proof

section
variable {s : State} {c : Ctx} {f : Fields}

/-- Without an S register every active lane is an actor of its own. -/
theorem Ctx.agents_of_active (hS : f.namesS = false) : c.agents f = (c.active f).map fun l => (l, [l]) := by
  simp only [Ctx.agents, Ctx.actors, Ctx.takers, hS, Bool.false_eq_true, if_false]

/-- HTEST writes the state of the pair of A (R241). -/
theorem exec_htest (hcan : s.CanRun c 0x96 f) (hS : f.namesS = false) :
    ∃ h, exec (.htest f) s = .next (s.setGroup s.cur h) ∧ c.g.OnlyLanes h (c.after f fun l t =>
      t.withDst f.d false (((c.rd.thread l).handleState (handleReg f.a)).zeroExtend 64)) := by
  obtain ⟨h, hcommit, honly⟩ := commit_local hcan.ctx f (writeDst_local f.d false
    (fun l => ((c.rd.thread l).handleState (handleReg f.a)).zeroExtend 64) (namesS_false hS)) true 0 c.g rfl
  refine ⟨h, ?_, honly⟩
  change execHtest f s = _
  rw [execHtest, memForm_run hcan _ fun _ _ => rfl, Ctx.agents_of_active hS, List.foldl_map, finish_ok]
  exact congrArg _ hcommit

end

/-- HTEST's word: bit 0 where the pair is pending, bit 1 where its command was cancelled. -/
theorem zeroExtend_handleState (t : Thread) (r : Nat) : (t.handleState r).zeroExtend 64 =
    BitVec.ofNat 64 ((if t.pend.any fun q => q.reg = r && q.cancelled == false then 1 else 0) +
      if t.pend.any fun q => q.reg = r && q.cancelled == true then 2 else 0) := by
  simp only [Thread.handleState, beq_false, beq_true]
  cases t.pend.any fun q => q.reg = r && !q.cancelled <;> cases t.pend.any fun q => q.reg = r && q.cancelled <;> rfl

/-- A command asked to cancel, where it is one of some. -/
def Cmd.cancelIf (k : Cmd) (yes : Bool) : Cmd := if yes then { k with cancel := true } else k

theorem Cmd.cancelIf_id (k : Cmd) (yes : Bool) : (k.cancelIf yes).id = k.id := by
  cases yes <;> rfl

theorem Cmd.cancelIf_cancelIf (k : Cmd) (one other : Bool) : (k.cancelIf one).cancelIf other = k.cancelIf (one || other) := by
  cases one <;> cases other <;> rfl

/-- A state in which the running commands of some numbers have been asked to cancel. -/
def State.cancelAll (s : State) (ids : List Nat) : State :=
  { s with cmds := s.cmds.map fun k => k.cancelIf (s.undone k.id && ids.contains k.id) }

/-- One mark of HCANCEL: the running command of a number is asked to cancel (R242). -/
def State.cancelOne (s : State) (id : Nat) : State := if s.undone id then s.updCmd id fun k => { k with cancel := true } else s

theorem State.cancelOne_undone (s : State) (id j : Nat) : (s.cancelOne id).undone j = s.undone j := by
  unfold State.cancelOne
  split
  · simp only [State.undone, State.updCmd, List.any_map, Function.comp_def]
    congr 1
    funext k
    split <;> rfl
  · rfl

theorem State.cancelOne_eq (s : State) (id : Nat) : s.cancelOne id = s.cancelAll [id] := by
  have hmap : ∀ k : Cmd, k.cancelIf (s.undone k.id && [id].contains k.id) =
      if k.id = id then k.cancelIf (s.undone id) else k := fun k => by
    by_cases hk : k.id = id <;> simp [hk, Cmd.cancelIf]
  unfold State.cancelOne State.cancelAll
  simp only [hmap, State.updCmd]
  cases s.undone id <;> simp [Cmd.cancelIf]

theorem State.cancelOne_cancelAll (s : State) (id : Nat) (ids : List Nat) : (s.cancelOne id).cancelAll ids = s.cancelAll (id :: ids) := by
  unfold State.cancelAll
  simp only [State.cancelOne_undone]
  rw [State.cancelOne_eq]
  simp only [State.cancelAll, List.map_map, Function.comp_def, Cmd.cancelIf_id, Cmd.cancelIf_cancelIf, ← Bool.and_or_distrib_left]
  congr 2
  funext k
  simp

theorem foldl_cancel : ∀ (ids : List Nat) (s : State), ids.foldl State.cancelOne s = s.cancelAll ids
  | [], s => by simp [State.cancelAll, Cmd.cancelIf]
  | id :: ids, s => (foldl_cancel ids (s.cancelOne id)).trans (s.cancelOne_cancelAll id ids)

/-- HCANCEL asks the running commands that pending pairs of A wait for to cancel (R242). -/
theorem exec_hcancel {s : State} {c : Ctx} {f : Fields} (hcan : s.CanRun c 0x97 f) (hS : f.namesS = false) :
    exec (.hcancel f) s = .next ((s.cancelAll ((c.active f).flatMap fun l =>
      ((c.rd.thread l).pend.filter fun q => q.reg = handleReg f.a && !q.cancelled).map (·.cmd))).commit c c.g (fun _ => .next) true 0) := by
  change execHcancel f s = _
  rw [execHcancel, memForm_run hcan _ fun hS' => absurd (hS.symm.trans hS') Bool.false_ne_true, Ctx.agents_of_active hS,
    List.flatMap_map, finish_ok, ← foldl_cancel]
  rfl

/-- Settles O31: a word in each active lane, and one pass over the commands. -/
theorem handleTestsAndCancels : Obligations.HandleTestsAndCancels := by
  intro f r s c ha hS _
  refine ⟨fun hcan => ?_, fun hcan => ?_⟩
  · obtain ⟨h, hexec, honly⟩ := exec_htest hcan hS
    simp only [zeroExtend_handleState, ha, handleReg] at honly
    exact ⟨h, hexec, honly⟩
  · intro wanted after
    have hwanted : ∀ k : Cmd, (s.undone k.id && ((c.active f).flatMap fun l =>
        ((c.rd.thread l).pend.filter fun q => q.reg = handleReg f.a && !q.cancelled).map (·.cmd)).contains k.id) = wanted k := by
      intro k
      simp only [wanted, ha, handleReg]
      congr 1
      rw [Bool.eq_iff_iff]
      simp [and_assoc]
    obtain ⟨h, hcommit, honly⟩ := commit_next ({ s with cmds := s.cmds.map after } : State) (State.ctx?_lanes hcan.ctx).1 f c.g rfl
    refine ⟨h, (exec_hcancel hcan hS).trans ?_, honly⟩
    rw [State.cancelAll]
    simp only [hwanted]
    exact congrArg _ hcommit

end Sys2Proof.Machine
end

section
/-!
# The fields of a barrier object (O28)

A field read from an object after a field has been replaced is the new value, or what it was where the two are apart
(`bits_setBits_same`, `bits_setBits_apart`). The test of R234 and what BINIT and BRST leave then come down to which setters they apply.
-/

namespace Sys2Proof.Machine

open Sys2Proof

/-- A number with a field replaced: what lies above the field, the field, and what lies below. -/
theorem setBits_split (n lo w x : Nat) :
    setBits n lo w x = 2 ^ lo * (2 ^ w * (n / 2 ^ lo / 2 ^ w) + x % 2 ^ w) + n % 2 ^ lo := by
  have hwhole : n = 2 ^ lo * (2 ^ w * (n / 2 ^ lo / 2 ^ w)) + n % 2 ^ lo + n / 2 ^ lo % 2 ^ w * 2 ^ lo := by
    calc n = 2 ^ lo * (2 ^ w * (n / 2 ^ lo / 2 ^ w) + n / 2 ^ lo % 2 ^ w) + n % 2 ^ lo := by rw [Nat.div_add_mod, Nat.div_add_mod]
      _ = _ := by ring
  rw [setBits, Nat.sub_eq_of_eq_add hwhole]
  ring

/-- A replaced field is the new value. -/
theorem bits_setBits_same (n lo x : Nat) {w hi : Nat} (hw : hi + 1 = lo + w) : bits (setBits n lo w x) hi lo = x % 2 ^ w := by
  rw [setBits_split, bits, hw, Nat.add_sub_cancel_left, Nat.mul_add_div (Nat.two_pow_pos lo), Nat.div_eq_of_lt (Nat.mod_lt _ (Nat.two_pow_pos lo)),
    Nat.add_zero, Nat.mul_add_mod, Nat.mod_mod]

theorem testBit_setBits_apart {n lo w x i : Nat} (h : i < lo ∨ lo + w ≤ i) : (setBits n lo w x).testBit i = n.testBit i := by
  rw [setBits_split, Nat.testBit_two_pow_mul_add _ (Nat.mod_lt _ (Nat.two_pow_pos lo)), Nat.testBit_mod_two_pow]
  split
  next hlow => simp [hlow]
  next hlow =>
    rw [Nat.testBit_two_pow_mul_add _ (Nat.mod_lt _ (Nat.two_pow_pos w)), if_neg (by omega), Nat.testBit_div_two_pow, Nat.testBit_div_two_pow]
    congr 1
    omega

theorem testBit_bits (n hi lo i : Nat) : (bits n hi lo).testBit i = (decide (i < hi + 1 - lo) && n.testBit (i + lo)) := by
  rw [bits, Nat.testBit_mod_two_pow, Nat.testBit_div_two_pow]

/-- A field apart from the one replaced stays. -/
theorem bits_setBits_apart (n x : Nat) {lo w hi first : Nat} (h : hi < lo ∨ lo + w ≤ first) :
    bits (setBits n lo w x) hi first = bits n hi first := by
  refine Nat.eq_of_testBit_eq fun i => ?_
  rw [testBit_bits, testBit_bits]
  by_cases hi : i < hi + 1 - first
  · rw [testBit_setBits_apart (by omega)]
  · simp [hi]

theorem bit_eq_testBit (n i : Nat) : bit n i = n.testBit i := by
  rw [bit, Nat.testBit_eq_decide_div_mod_eq]

/-- A bit apart from the field replaced stays. -/
theorem bit_setBits_apart (n x : Nat) {lo w i : Nat} (h : i < lo ∨ lo + w ≤ i) : bit (setBits n lo w x) i = bit n i := by
  rw [bit_eq_testBit, bit_eq_testBit, testBit_setBits_apart h]

theorem bit_setBits_one (n i : Nat) : bit (setBits n i 1 1) i = true := by
  have hfield := bits_setBits_same n i 1 (w := 1) (hi := i) rfl
  simp only [bits, Nat.add_sub_cancel_left, pow_one] at hfield
  simp only [bit, hfield]
  decide

/-- A signed value in range is read back from its word. -/
theorem toSigned_wrap {x : Int} (hlo : -2 ^ 31 ≤ x) (hhi : x < 2 ^ 31) : toSigned 32 (wrap x 32 % 2 ^ 32) = x := by
  unfold toSigned
  cases hsign : bit (wrap x 32 % 2 ^ 32) (32 - 1) with
  | false =>
    rw [bit, wrap, decide_eq_false_iff_not] at hsign
    rw [if_neg Bool.false_ne_true, wrap]
    omega
  | true =>
    rw [bit, wrap, decide_eq_true_eq] at hsign
    rw [if_pos rfl, wrap]
    omega

/-- The fields of a barrier object (R233). -/
structure BarFields where
  expa : Nat
  arra : Nat
  expb : Nat
  bal : Int
  phase : Nat
  code : Nat
  reset : Bool
  ovf : Bool

def barFields (n : Nat) : BarFields :=
  ⟨barExpa n, barArra n, barExpb n, barBal n, barPhase n, barCode n, bit n 120, bit n 121⟩

theorem barFields_setArra (n x : Nat) : barFields (setArra n x) = { barFields n with arra := x % 2 ^ 16 } := by
  simp [barFields, barExpa, barArra, barExpb, barBal, barPhase, barCode, setArra, bits_setBits_same, bits_setBits_apart, bit_setBits_apart]

theorem barFields_setBal (n : Nat) {x : Int} (hlo : -2 ^ 31 ≤ x) (hhi : x < 2 ^ 31) :
    barFields (setBal n x) = { barFields n with bal := x } := by
  have hbal : barBal (setBits n 64 32 (wrap x 32)) = x := by
    rw [barBal, bits_setBits_same (w := 32) (hi := 95) _ _ _ rfl, toSigned_wrap hlo hhi]
  simp [barFields, hbal, barExpa, barArra, barExpb, barPhase, barCode, setBal, bits_setBits_apart, bit_setBits_apart]

theorem barFields_setPhase (n x : Nat) : barFields (setPhase n x) = { barFields n with phase := x % 2 ^ 16 } := by
  simp [barFields, barExpa, barArra, barExpb, barBal, barPhase, barCode, setPhase, bits_setBits_same, bits_setBits_apart, bit_setBits_apart]

theorem barFields_setCode (n x : Nat) : barFields (setCode n x) = { barFields n with code := x % 2 ^ 8 } := by
  simp [barFields, barExpa, barArra, barExpb, barBal, barPhase, barCode, setCode, bits_setBits_same, bits_setBits_apart, bit_setBits_apart]

theorem barFields_reset (n : Nat) : barFields (setBits n 120 1 1) = { barFields n with reset := true } := by
  simp [barFields, barExpa, barArra, barExpb, barBal, barPhase, barCode, bits_setBits_apart, bit_setBits_apart, bit_setBits_one]

theorem barFields_orOvf (n : Nat) (passed : Bool) : barFields (orOvf n passed) = { barFields n with ovf := (barFields n).ovf || passed } := by
  cases passed
  · simp [orOvf, barFields]
  · simp [orOvf, barFields, barExpa, barArra, barExpb, barBal, barPhase, barCode, bits_setBits_apart, bit_setBits_apart, bit_setBits_one]

theorem orOvf_false (n : Nat) : orOvf n false = n := rfl

theorem barPhase_orOvf (n : Nat) (passed : Bool) : barPhase (orOvf n passed) = barPhase n := congrArg BarFields.phase (barFields_orOvf n passed)

section
variable {n arrivals bytes bexp : Nat} (harra : barArra n + arrivals < 2 ^ 16) (hlo : -2 ^ 31 ≤ barBal n + bytes - bexp)
  (hhi : barBal n + bytes - bexp < 2 ^ 31)
include harra hlo hhi

/-- The object with the sums in it. -/
theorem barFields_sums : barFields (setBal (setArra n (barArra n + arrivals)) (barBal n + bytes - bexp)) =
    { barFields n with arra := barArra n + arrivals, bal := barBal n + bytes - bexp } := by
  rw [barFields_setBal _ hlo hhi, barFields_setArra, Nat.mod_eq_of_lt harra]

/-- The test of R234 where no sum passes its field's range. -/
theorem barTest_in_range : barTest n arrivals bytes bexp =
    let sums := setBal (setArra n (barArra n + arrivals)) (barBal n + bytes - bexp)
    if barExpa n ≤ barArra n + arrivals ∧ (barExpb n : Int) ≤ barBal n + bytes - bexp then
      (setBal (setArra (setPhase (orOvf sums (barArra n + arrivals > barExpa n || barBal n + bytes - bexp > barExpb n)) (barPhase n + 1)) 0) 0,
        true)
    else (sums, false) := by
  have hclamp : clamp (barBal n + bytes - bexp) .i32 = barBal n + bytes - bexp := by
    change max (-2 ^ 31 : Int) (min (2 ^ 31 - 1) _) = _
    omega
  have hmin : min (barArra n + arrivals) 0xFFFF = barArra n + arrivals := by omega
  have hsums := barFields_sums harra hlo hhi
  have hexpa := congrArg BarFields.expa hsums
  have harra' := congrArg BarFields.arra hsums
  have hexpb := congrArg BarFields.expb hsums
  have hbal := congrArg BarFields.bal hsums
  have hphase := congrArg BarFields.phase hsums
  simp only [barFields] at hexpa harra' hexpb hbal hphase
  have hnone : (decide (barArra n + arrivals > 0xFFFF) || decide (barBal n + bytes - bexp ≠ barBal n + bytes - bexp)) = false := by
    simp only [ne_eq, not_true, decide_false, Bool.or_false, decide_eq_false_iff_not]
    omega
  unfold barTest
  simp only [hclamp, hmin, hnone, orOvf_false, hexpa, harra', hexpb, hbal, barPhase_orOvf, hphase, ge_iff_le, Bool.and_eq_true, decide_eq_true_eq]

/-- The phase completes exactly where both expectations are met (R234). -/
theorem barTest_completes : (barTest n arrivals bytes bexp).2 = true ↔
    barExpa n ≤ barArra n + arrivals ∧ (barExpb n : Int) ≤ barBal n + bytes - bexp := by
  rw [barTest_in_range harra hlo hhi]
  split <;> simp [*]

/-- A completed phase counts up, and the sums are cleared (R234). -/
theorem barFields_completed (hmet : barExpa n ≤ barArra n + arrivals ∧ (barExpb n : Int) ≤ barBal n + bytes - bexp) :
    barFields (barTest n arrivals bytes bexp).1 = { barFields n with
      arra := 0, bal := 0, phase := (barPhase n + 1) % 2 ^ 16,
      ovf := bit n 121 || (barArra n + arrivals > barExpa n || barBal n + bytes - bexp > barExpb n) } := by
  rw [barTest_in_range harra hlo hhi]
  simp only [if_pos hmet]
  rw [barFields_setBal _ (by decide) (by decide), barFields_setArra, barFields_setPhase, barFields_orOvf, barFields_sums harra hlo hhi]
  rfl

/-- A phase that stands holds the sums (R234). -/
theorem barFields_pending (hnot : ¬(barExpa n ≤ barArra n + arrivals ∧ (barExpb n : Int) ≤ barBal n + bytes - bexp)) :
    barFields (barTest n arrivals bytes bexp).1 =
      { barFields n with arra := barArra n + arrivals, bal := barBal n + bytes - bexp } := by
  rw [barTest_in_range harra hlo hhi]
  simp only [if_neg hnot]
  exact barFields_sums harra hlo hhi

end

/-- The fields that BINIT writes first (R236). -/
theorem barFields_init (expa expb : Nat) : barFields (expa % 2 ^ 16 + expb % 2 ^ 32 * 2 ^ 32) =
    ⟨expa % 2 ^ 16, 0, expb % 2 ^ 32, 0, 0, 0, false, false⟩ := by
  have hbal : barBal (expa % 2 ^ 16 + expb % 2 ^ 32 * 2 ^ 32) = 0 := by
    have hzero : bits (expa % 2 ^ 16 + expb % 2 ^ 32 * 2 ^ 32) 95 64 = 0 := by
      unfold bits
      omega
    rw [barBal, hzero]
    rfl
  simp only [barFields, hbal, BarFields.mk.injEq, true_and]
  simp only [barExpa, barArra, barExpb, barPhase, barCode, bits, bit, decide_eq_false_iff_not, Nat.reduceAdd, Nat.reduceSub, Nat.reducePow]
  omega

/-- The object that BINIT leaves: with both expectations 0 its phase completes in its own event (R236). -/
theorem barFields_binit (expa expb : Nat) : barFields (barTest (expa % 2 ^ 16 + expb % 2 ^ 32 * 2 ^ 32) 0 0 0).1 =
    ⟨expa % 2 ^ 16, 0, expb % 2 ^ 32, 0, if expa % 2 ^ 16 = 0 ∧ expb % 2 ^ 32 = 0 then 1 else 0, 0, false, false⟩ := by
  have hinit := barFields_init expa expb
  obtain ⟨hexpa, harra, hexpb, hbal, hphase, -, -, hovf⟩ := BarFields.mk.inj hinit
  generalize expa % 2 ^ 16 + expb % 2 ^ 32 * 2 ^ 32 = n at *
  have hrange : barArra n + 0 < 2 ^ 16 := by omega
  have hlo : -2 ^ 31 ≤ barBal n + (0 : Nat) - (0 : Nat) := by omega
  have hhi : barBal n + (0 : Nat) - (0 : Nat) < 2 ^ 31 := by omega
  by_cases hmet : barExpa n ≤ barArra n + 0 ∧ (barExpb n : Int) ≤ barBal n + (0 : Nat) - (0 : Nat)
  · obtain ⟨hexpa', hexpb'⟩ : expa % 2 ^ 16 = 0 ∧ expb % 2 ^ 32 = 0 := by omega
    rw [barFields_completed hrange hlo hhi hmet, hinit]
    simp only [hexpa', hexpb'] at hexpa hexpb ⊢
    simp [hexpa, harra, hexpb, hbal, hphase, hovf]
  · have hnot : ¬(expa % 2 ^ 16 = 0 ∧ expb % 2 ^ 32 = 0) := by omega
    rw [barFields_pending hrange hlo hhi hmet, hinit, if_neg hnot]
    simp [harra, hbal]

section
variable {s : State} {b part off : Nat} (hwf : s.scratchWf) (hpart : s.hasPart b part) (hzero : b = 0 → part = 0) (hlt : part < 4)
  (hoff : off < 2 ^ 20) (halign : off % 16 = 0) (hcmds : ∀ k ∈ s.cmds, k.block ≠ 0 ∧ (k.block = b → k.bar % 16 = 0 ∧ k.bar < 2 ^ 22))
include hwf hpart hzero hlt hoff halign hcmds

/-- What BINIT leaves is the test of its fields (R236). -/
theorem State.binit_bar (expa expb : Nat) :
    (s.binit b part off expa expb).bar b part off = (barTest (expa % 2 ^ 16 + expb % 2 ^ 32 * 2 ^ 32) 0 0 0).1 := by
  obtain ⟨-, hwf', hpart'⟩ := State.brst_keeps hwf hpart hzero hlt hoff halign hcmds 0
  obtain ⟨-, -, hset⟩ := State.setBar_spec hwf' b part off (barTest (expa % 2 ^ 16 + expb % 2 ^ 32 * 2 ^ 32) 0 0 0).1 hzero
  rw [State.binit, (hset b part off hpart' hzero).1 ⟨rfl, rfl, rfl⟩]
  exact Nat.mod_eq_of_lt (barTest_lt (by omega) ..)

/-- The fields that BRST leaves: CODE is 6 where it abandons a command (R239). -/
theorem State.brst_fields (phase : Nat) : barFields ((s.brst b part off phase).bar b part off) =
    { barFields (s.bar b part off) with
      arra := 0, bal := 0, phase := phase % 2 ^ 16, reset := true,
      code := if ∃ k ∈ s.cmds, k.state = .running ∧ k.block = b ∧ s.publishesOn k (part * 2 ^ 20 + off) = true then 6
        else barCode (s.bar b part off) } := by
  have hlt128 : setBits (setPhase (setBal (setArra (s.bar b part off) 0) 0) phase) 120 1 1 < 2 ^ 128 :=
    setBits_lt (setBits_lt (setBits_lt (setBits_lt (s.bar_lt b part off) (by decide) _) (by decide) _) (by decide) _) (by decide) _
  have hfields : barFields (setBits (setPhase (setBal (setArra (s.bar b part off) 0) 0) phase) 120 1 1) =
      { barFields (s.bar b part off) with arra := 0, bal := 0, phase := phase % 2 ^ 16, reset := true } := by
    rw [barFields_reset, barFields_setPhase, barFields_setBal _ (by decide) (by decide), barFields_setArra]
    rfl
  have hvictims : (s.cmds.filter fun k => decide (k.state = .running) && k.block = b && s.publishesOn k (part * 2 ^ 20 + off)).isEmpty =
      !decide (∃ k ∈ s.cmds, k.state = .running ∧ k.block = b ∧ s.publishesOn k (part * 2 ^ 20 + off) = true) := by
    rw [Bool.eq_iff_iff]
    simp [and_assoc]
  rw [(State.brst_keeps hwf hpart hzero hlt hoff halign hcmds phase).1, hvictims, Nat.mod_eq_of_lt hlt128]
  split
  next hnone =>
    rw [hfields, if_neg (by simpa using hnone)]
    rfl
  next hsome =>
    have hcode : setCode (setBits (setPhase (setBal (setArra (s.bar b part off) 0) 0) phase) 120 1 1) 6 < 2 ^ 128 :=
      setBits_lt hlt128 (by decide) _
    rw [Nat.mod_eq_of_lt hcode, barFields_setCode, hfields, if_pos (by simpa using hsome)]
    rfl

end

/-- Settles O28: the fields after the test, and what BINIT and BRST leave, read off by name. -/
theorem barrierPhasesCompleteWhenBothExpectationsAreMet : Obligations.BarrierPhasesCompleteWhenBothExpectationsAreMet := by
  refine ⟨fun n arrivals bytes bexp _ harra hlo hhi => ?_, fun s b part off hwf hlt hoff halign hpart hcmds => ?_⟩
  · have hcompleted := barFields_completed harra hlo hhi
    have hpending := barFields_pending harra hlo hhi
    by_cases hmet : barExpa n ≤ barArra n + arrivals ∧ (barExpb n : Int) ≤ barBal n + bytes - bexp
    · obtain ⟨hexpa, hsumA, hexpb, hsumB, hphase, hcode, -, -⟩ := BarFields.mk.inj (hcompleted hmet)
      exact ⟨barTest_completes harra hlo hhi, hexpa, hexpb, hcode, fun _ => ⟨hphase, hsumA, hsumB⟩, fun hnot => absurd hmet hnot⟩
    · obtain ⟨hexpa, hsumA, hexpb, hsumB, hphase, hcode, -, -⟩ := BarFields.mk.inj (hpending hmet)
      exact ⟨barTest_completes harra hlo hhi, hexpa, hexpb, hcode, fun h => absurd h hmet, fun _ => ⟨hphase, hsumA, hsumB⟩⟩
  · have hscratch := State.scratchWf_of_memoriesWf hwf
    have hzero : b = 0 → part = 0 := fun hb => by rwa [if_pos hb] at hpart
    have hhas : s.hasPart b part := by
      by_cases hb : b = 0
      · exact .inl hb
      · rw [if_neg hb] at hpart
        obtain ⟨x, p, hx, hp⟩ := hpart
        exact .inr (by simp [hx, hp])
    refine ⟨fun expa expb => ?_, fun phase => ?_⟩
    · rw [State.binit_bar hscratch hhas hzero hlt hoff halign hcmds]
      obtain ⟨hexpa, hsumA, hexpb, hsumB, hphase, hcode, hreset, hovf⟩ := BarFields.mk.inj (barFields_binit expa expb)
      exact ⟨hexpa, hexpb, hsumA, hsumB, hcode, hreset, hovf, hphase⟩
    · obtain ⟨hexpa, hsumA, hexpb, hsumB, hphase, hcode, hreset, hovf⟩ :=
        BarFields.mk.inj (State.brst_fields hscratch hhas hzero hlt hoff halign hcmds phase)
      exact ⟨hphase, hsumA, hsumB, hreset, hexpa, hexpb, hovf, fun h => hcode.trans (if_pos h), fun h => hcode.trans (if_neg h)⟩

end Sys2Proof.Machine
end

section
/-!
# Power forms and the balance sample (O43)

BURN, SHUNT and PLREQ are one group-wide form that differs in its action (`powerForm_ready`); BALQ and ENRD write one pair in every
active thread (`pairForm_ready`). A sample is a sum of fields, each of which fits its place in the word (`sampleFields`).
-/

namespace Sys2Proof.Machine

open Sys2Proof

/-! ## Group-wide power forms -/

/-- A change of the issuer's group in its block shows as that change of the group. -/
theorem Under.updBlockGroup {b g u : Nat} {x y : State} {z : Group} (h : Under (.unit b g u) x y z) (F : Group → Group) :
    Under (.unit b g u) (x.updBlockGroup b g F) y (F z) := by
  have hgrp : ((x.block? b).bind fun k => k.groups[g]?) = some z := h.grp
  have hblk := State.block?_updBlock x b (fun k => { k with groups := updAt k.groups g F }) fun _ => rfl
  refine ⟨h.cur, ?_, fun k => ?_⟩
  · show (((x.updBlockGroup b g F).block? b).bind fun k => k.groups[g]?) = some (F z)
    unfold State.updBlockGroup
    rw [hblk]
    cases hb : x.block? b with
    | none => rw [hb] at hgrp; cases hgrp
    | some k =>
      rw [hb, Option.bind_some] at hgrp
      simp [updAt_get?, hgrp]
  · rw [← h.same]
    simp only [State.updBlockGroup, State.setGroup, State.updBlock, List.map_map]
    congr 1
    refine List.map_congr_left fun k _ => ?_
    by_cases hk : k.id = b
    · simp [hk, setAt, updAt_updAt]
    · simp [hk]

/-- A group-wide power form writes the value that its action gives in every lane of the unit, in the state that the action gives. -/
theorem powerForm_ready {s y : State} {c : Ctx} {op b g : Nat} {f : Fields} {z : Group} {v : Word}
    {run : State → Nat → Nat → Nat → Word × State} (h : s.PowerReady c op f b g)
    (hv : (run s b g (s.operand c.rd c.lowLane f false f.a).toNat).1 = v)
    (hu : Under s.cur (run s b g (s.operand c.rd c.lowLane f false f.a).toNat).2 y z) (hz : z.threads = c.g.threads) :
    ∃ t, s.powerForm op f run = .next (y.setGroup s.cur t) ∧
      ({ z with s := withS z.s f.d false (v.zeroExtend 64) } : Group).OnlyLanes t (c.afterPower f.d v) := by
  obtain ⟨u, hcur⟩ := h.unit
  obtain ⟨hn, -⟩ := State.ctx?_lanes h.ctx
  obtain ⟨hs, hlen, hmxq, hthr⟩ := foldl_writeDst f.d false (v.zeroExtend 64) c.lanes z hn h.some_
  obtain ⟨t, ht, hlanes⟩ := commit_dest (s := (run s b g (s.operand c.rd c.lowLane f false f.a).toNat).2) hn
    { z with s := withS z.s f.d false (v.zeroExtend 64) } _ _ hs hlen hmxq hthr (fun _ => .next) true 0 [] false
  refine ⟨t, ?_, hlanes.congr fun l _ => ?_⟩
  · have hwaits : (c.rd.thread c.lowLane).waitsFor (readRegs op f) = [] := by simp [Thread.waitsFor, h.pend]
    have hhandle : (c.rd.thread c.lowLane).handleTrap c.lowLane (readRegs op f) = [] := by simp [Thread.handleTrap, h.pend]
    have hcg : (run s b g (s.operand c.rd c.lowLane f false f.a).toNat).2.curGroup c = z := by
      simp [State.curGroup, hu.cur.1, hu.grp]
    unfold State.powerForm
    rw [h.ctx, hcur]
    simp only [h.on, hwaits, hhandle, h.sound, guardGroup_whole h.whole, hcg, hv]
    simp only [if_true, List.isEmpty_nil, Bool.not_true, Bool.false_eq_true, if_false, List.append_nil, guardTraps_nil, finish_ok]
    exact congrArg Host.Outcome.next (ht.trans (by rw [hu.cur.1, hu.same, hcur]))
  · have : z.thread l = c.g.thread l := by simp [Group.thread, hz]
    by_cases hl : l ∈ c.lanes <;> simp [Ctx.afterPower, hl, this, Thread.goto]

/-- A request leaves the core of a group as it is. -/
theorem State.issuerCore_updBlockGroup (s : State) (b g : Nat) (F : Group → Group) :
    (s.updBlockGroup b g F).issuerCore b g = s.issuerCore b g := by
  have hblk := State.block?_updBlock s b (fun k => { k with groups := updAt k.groups g F }) fun _ => rfl
  unfold State.issuerCore State.updBlockGroup
  rw [hblk, Option.map_map]
  rfl

/-- Only the low word of a value reaches a 32-bit S destination. -/
theorem withS_ofNat (s : List Word) (o : Opnd) (n : Nat) :
    withS s o false ((BitVec.ofNat 32 n).zeroExtend 64) = withS s o false (BitVec.ofNat 64 n) := by
  have : ((BitVec.ofNat 32 n).zeroExtend 64 : DWord).extractLsb' 0 32 = (BitVec.ofNat 64 n).extractLsb' 0 32 := by
    apply BitVec.eq_of_toNat_eq
    simp
  cases o <;> simp [withS, this]

/-- The ballast request that BURN makes for a value at a time (R282). -/
def burnRequest (a now : Nat) : Option BurnReq :=
  if min 16 (a % 32) = 0 ∨ a / 2 ^ 8 = 0 then none else some ⟨min 16 (a % 32), now + 1000 * (a / 2 ^ 8)⟩

theorem exec_burn {s : State} {c : Ctx} {b g : Nat} {f : Fields} (h : s.PowerReady c 0xC0 f b g) (hd : f.d = .zero) :
    ∃ t, exec (.burn f) s = .next (s.setGroup s.cur t) ∧
      ({ c.g with burn := burnRequest (s.operand c.rd c.lowLane f false f.a).toNat s.ftime } : Group).OnlyLanes t
        (c.after f fun _ t => t) := by
  obtain ⟨u, hcur⟩ := h.unit
  obtain ⟨hgrp, -, -⟩ := State.ctx?_group h.ctx
  have hu := hcur ▸ Under.start hgrp
  obtain ⟨t, ht, hlanes⟩ : ∃ t, execBurn f s = .next (s.setGroup s.cur t) ∧ _ := powerForm_ready
    (z := { c.g with burn := burnRequest (s.operand c.rd c.lowLane f false f.a).toNat s.ftime }) h rfl
    (by rw [hcur]; simpa [burnRequest, State.after] using hu.updBlockGroup fun x =>
      { x with burn := burnRequest (s.operand c.rd c.lowLane f false f.a).toNat s.ftime }) rfl
  rw [hd] at hlanes
  refine ⟨t, ht, hlanes.congr fun l _ => ?_⟩
  by_cases hl : l ∈ c.lanes <;> simp [Ctx.afterPower, Ctx.after, hl, Thread.withDst]

/-- What SHUNT grants for a value: the group's own reservation, which it replaces, counts as free (R283). -/
def State.shuntGrant (s : State) (b g a : Nat) : Nat :=
  (railsOf (s.issuerCore b g)).foldl (fun n r =>
    min n ((s.updBlockGroup b g fun x => { x with shunt := none }).railFree (columnOf (s.issuerCore b g)) r)) (min 120 (a % 256))

/-- The reservation that SHUNT makes of a grant for a value at a time (R283). -/
def shuntRequest (grant a now : Nat) : Option BurnReq :=
  if grant = 0 then none else some ⟨grant, now + 1000 * (a / 2 ^ 8)⟩

theorem exec_shunt {s : State} {c : Ctx} {b g : Nat} {f : Fields} (h : s.PowerReady c 0xC1 f b g) :
    let a := (s.operand c.rd c.lowLane f false f.a).toNat
    ∃ t, exec (.shunt f) s = .next (s.setGroup s.cur t) ∧
      ({ c.g with
          shunt := shuntRequest (s.shuntGrant b g a) a s.ftime
          s := withS c.g.s f.d false (BitVec.ofNat 64 (s.shuntGrant b g a)) } : Group).OnlyLanes t
        (c.afterPower f.d (BitVec.ofNat 32 (s.shuntGrant b g a))) := by
  intro a
  obtain ⟨u, hcur⟩ := h.unit
  obtain ⟨hgrp, -, -⟩ := State.ctx?_group h.ctx
  have hu := hcur ▸ Under.start hgrp
  rw [← withS_ofNat]
  obtain ⟨t, ht, hlanes⟩ : ∃ t, execShunt f s = .next (s.setGroup s.cur t) ∧ _ := powerForm_ready
    (z := { c.g with shunt := shuntRequest (s.shuntGrant b g a) a s.ftime }) (v := BitVec.ofNat 32 (s.shuntGrant b g a)) h
    (by simp only [State.issuerCore_updBlockGroup]; rfl)
    (by
      rw [hcur]
      simp only [State.issuerCore_updBlockGroup]
      exact (hu.updBlockGroup fun x => { x with shunt := none }).updBlockGroup fun x =>
        { x with shunt := shuntRequest (s.shuntGrant b g a) a s.ftime })
    rfl
  exact ⟨t, ht, hlanes⟩

/-- Levels and requested levels are no part of a group. -/
theorem State.groupOf_relevel (s : State) (cs : List CtxBlock) (i : Issuer) :
    (({ s with ctxs := cs } : State).relevel).groupOf i = s.groupOf i := by
  cases i <;> rfl

theorem exec_plreq {s : State} {c : Ctx} {b g : Nat} {f : Fields} (h : s.PowerReady c 0xC3 f b g) :
    let a := (s.operand c.rd c.lowLane f false f.a).toNat
    let pl := ((s.supplies[s.supplyOf (columnOf (s.issuerCore b g))]?).map (·.effPl)).getD 0
    ∃ t, exec (.plreq f) s = .next (({ s with
        ctxs := updAt s.ctxs s.ctxOf fun x => { x with reqPl := min 15 a } } : State).relevel.setGroup s.cur t) ∧
      ({ c.g with s := withS c.g.s f.d false (BitVec.ofNat 64 pl) } : Group).OnlyLanes t (c.afterPower f.d (BitVec.ofNat 32 pl)) := by
  intro a pl
  obtain ⟨hgrp, -, -⟩ := State.ctx?_group h.ctx
  rw [← withS_ofNat]
  have hgrp' : (({ s with ctxs := updAt s.ctxs s.ctxOf fun x => { x with reqPl := min 15 a } } : State).relevel).groupOf s.cur =
      some c.g := hgrp ▸ State.groupOf_relevel ..
  obtain ⟨t, ht, hlanes⟩ : ∃ t, execPlreq f s = .next (({ s with
      ctxs := updAt s.ctxs s.ctxOf fun x => { x with reqPl := min 15 a } } : State).relevel.setGroup s.cur t) ∧ _ :=
    powerForm_ready (z := c.g) (v := BitVec.ofNat 32 pl) h rfl ⟨⟨rfl, rfl⟩, hgrp', fun _ => rfl⟩ rfl
  exact ⟨t, ht, hlanes⟩

/-! ## Forms that write a pair in each thread -/

/-- A form that writes one value to the pair D of every active thread. -/
theorem pairForm_ready {s : State} {c : Ctx} {op : Nat} {f : Fields} (h : s.Ready c op f) (hd : ∀ n, f.d ≠ .s n) (x : State → DWord) :
    ∃ t, s.pairForm op f x = .next (s.setGroup s.cur t) ∧ c.g.OnlyLanes t (c.after f fun _ t => t.withDst f.d true (x s)) := by
  obtain ⟨t, ht, hlanes⟩ := commit_local h.ctx f (writeDst_local f.d true (fun _ => x s) hd) true 0 c.g rfl
  refine ⟨t, ?_, hlanes⟩
  unfold State.pairForm
  rw [perThread_clear h.ctx f _ h.pend h.sound _ rfl, finish_ok, ht]

/-! ## The balance sample (R284) -/

/-- The fields of a word that a sum of shifted bytes and two nibbles makes. -/
theorem sampleFields {o1 o0 d1 d0 a1 a0 a p t : Nat} (ho1 : o1 < 256) (ho0 : o0 < 256) (hd1 : d1 < 256) (hd0 : d0 < 256)
    (ha1 : a1 < 256) (ha0 : a0 < 256) (ha : a < 256) (hp : p < 16) (ht : t < 16) {x : DWord}
    (hx : x = BitVec.ofNat 64 (o1 * 2 ^ 56 + o0 * 2 ^ 48 + d1 * 2 ^ 40 + d0 * 2 ^ 32 + a1 * 2 ^ 24 + a0 * 2 ^ 16 + a * 2 ^ 8 + p * 2 ^ 4 + t)) :
    (x.extractLsb' 56 8).toNat = o1 ∧ (x.extractLsb' 48 8).toNat = o0 ∧ (x.extractLsb' 40 8).toNat = d1 ∧
      (x.extractLsb' 32 8).toNat = d0 ∧ (x.extractLsb' 24 8).toNat = a1 ∧ (x.extractLsb' 16 8).toNat = a0 ∧
      (x.extractLsb' 8 8).toNat = a ∧ (x.extractLsb' 0 4).toNat = t ∧ (x.extractLsb' 4 4).toNat = p := by
  have hn : o1 * 2 ^ 56 + o0 * 2 ^ 48 + d1 * 2 ^ 40 + d0 * 2 ^ 32 + a1 * 2 ^ 24 + a0 * 2 ^ 16 + a * 2 ^ 8 + p * 2 ^ 4 + t < 2 ^ 64 := by
    omega
  have hnat : x.toNat = _ := hx ▸ (BitVec.toNat_ofNat _ _).trans (Nat.mod_eq_of_lt hn)
  simp only [BitVec.extractLsb'_toNat, hnat, Nat.shiftRight_eq_div_pow]
  refine ⟨?_, ?_, ?_, ?_, ?_, ?_, ?_, ?_, ?_⟩ <;> omega

/-- A demand as BALQ shows it is one of the two roundings, and fits a byte. -/
theorem act128_spec (key core demand : Nat) : act128 key core demand < 256 ∧
    (act128 key core demand = min 255 (demand * 128 / 1000) ∨ act128 key core demand = min 255 ((demand * 128 + 999) / 1000)) := by
  unfold act128
  cases hup : decide (demand * 128 % 1000 ≠ 0) && Config.freeChoice key core
  · simp only [b2n, Bool.false_eq_true, if_false]
    omega
  · simp only [Bool.and_eq_true, decide_eq_true_eq] at hup
    simp only [b2n, if_true]
    omega

/-- A saturated difference fits a byte, and reads back signed. -/
theorem satI8_spec (x : Int) : satI8 x < 256 ∧ ∀ y : BitVec 8, y.toNat = satI8 x → y.toInt = max (-128) (min 127 x) := by
  unfold satI8 wrap
  refine ⟨by omega, fun y hy => ?_⟩
  rw [BitVec.toInt_eq_toNat_bmod, hy, Int.bmod_def]
  omega

/-- A sample of a core, from the last sample of its column. -/
theorem State.balq_eq {s : State} {core : Nat} {y : Column} (hy : s.columns[columnOf core]? = some y) :
    let k := layerOf core
    let act (l : Nat) : Nat := act128 y.shown.key (coreAt (columnOf core) l) (y.demand.getD l 0)
    let diff (l : Nat) : Nat := satI8 ((y.demand.getD k 0 : Int) - y.demand.getD l 0)
    s.balq core = BitVec.ofNat 64
      ((if k < 3 then min 255 (y.shown.occ.getD (k + 1) 0) else 0) * 2 ^ 56
        + (if 0 < k then min 255 (y.shown.occ.getD (k - 1) 0) else 0) * 2 ^ 48
        + (if k < 3 then diff (k + 1) else 0) * 2 ^ 40 + (if 0 < k then diff (k - 1) else 0) * 2 ^ 32
        + (if k < 3 then act (k + 1) else 0) * 2 ^ 24 + (if 0 < k then act (k - 1) else 0) * 2 ^ 16
        + act k * 2 ^ 8 + y.shown.pl * 2 ^ 4 + y.shown.state) := by
  have hcol : s.columns.getD (columnOf core) Column.reset = y := by simp [List.getD_eq_getElem?_getD, hy]
  unfold State.balq
  simp only [hcol]

/-- Settles O43: each group-wide form is its action and each pair form its value; a sample is a sum of fields that fit their places. -/
theorem powerInstructions : Obligations.PowerInstructions := by
  refine ⟨fun f s c b g => ⟨exec_burn, exec_shunt, exec_plreq⟩, fun f s c b g u hd hcur => ⟨fun h => ?_, fun h la hla => ?_, ?_⟩⟩
  · obtain ⟨t, ht, hlanes⟩ : ∃ t, execBalq f s = .next (s.setGroup s.cur t) ∧ _ := pairForm_ready h hd _
    rw [hcur] at hlanes
    exact ⟨t, ht, hlanes⟩
  · obtain ⟨t, ht, hlanes⟩ : ∃ t, execEnrd f s = .next (s.setGroup s.cur t) ∧ _ := pairForm_ready h hd _
    rw [hla] at hlanes
    exact ⟨t, ht, hlanes⟩
  · intro _ y hy hstate hpl mate act diff
    have habsent : ∀ {p : Prop} [Decidable p] {n : Nat}, n < 256 → (if p then n else 0) < 256 := fun hn => by split <;> omega
    have hmate : ∀ l, mate l < 256 := fun l => Nat.lt_succ_of_le (min_le_left _ _)
    obtain ⟨hoccUp, hoccDown, hdiffUp, hdiffDown, hactUp, hactDown, hact, ht, hp⟩ := sampleFields
      (habsent (hmate _)) (habsent (hmate _)) (habsent (satI8_spec _).1) (habsent (satI8_spec _).1)
      (habsent (act128_spec _ _ _).1) (habsent (act128_spec _ _ _).1) (act128_spec _ _ _).1 hpl (by omega)
      (State.balq_eq hy)
    refine ⟨hoccUp, hoccDown, ?_, ?_, ?_, ?_, ?_, ht, hp⟩
    · split_ifs at hdiffUp ⊢
      · exact (satI8_spec _).2 _ hdiffUp
      · exact by rw [BitVec.eq_of_toNat_eq (y := 0) hdiffUp]; rfl
    · split_ifs at hdiffDown ⊢
      · exact (satI8_spec _).2 _ hdiffDown
      · exact by rw [BitVec.eq_of_toNat_eq (y := 0) hdiffDown]; rfl
    · split_ifs at hactUp ⊢
      · exact hactUp ▸ (act128_spec _ _ _).2
      · exact BitVec.eq_of_toNat_eq hactUp
    · split_ifs at hactDown ⊢
      · exact hactDown ▸ (act128_spec _ _ _).2
      · exact BitVec.eq_of_toNat_eq hactDown
    · exact hact ▸ (act128_spec _ _ _).2

end Sys2Proof.Machine
end

section
/-!
# Matrix instructions at issue (O36, O37)

Where its checks pass a matrix form is its action (`matrixForm_ready`). Each of them but CBLD, MMAS and ACALLOC queues one operation
and moves its unit on (`commit_queueMx`); what remains for each instruction is that its own checks find no trap.
-/

namespace Sys2Proof.Machine

open Sys2Proof

/-! ## The common checks -/

/-- Fewer registers meet fewer pending pairs. -/
theorem Thread.pendIn_mono {t : Thread} {few regs : List Nat} (hsub : ∀ r ∈ few, r ∈ regs) (h : t.pendIn regs = []) : t.pendIn few = [] := by
  unfold Thread.pendIn at h ⊢
  rw [List.filter_eq_nil_iff] at h ⊢
  refine fun q hq hmeets => h q hq ?_
  simp only [Bool.or_eq_true, List.contains_iff_mem] at hmeets ⊢
  exact hmeets.imp (hsub _) (hsub _)

/-- A matrix form whose registers are ready and sound, and whose counters have room, is its action. -/
theorem matrixForm_ready {s : State} {c : Ctx} {h : Home} {op : Nat} {f : Fields} {rows : List Nat} {counted : Bool}
    (hr : s.MatrixReady c h op f rows counted) (quarters : Bool) (run : State → Ctx → Home → Except Stop State) :
    s.matrixForm op f rows quarters counted run = s.finish (run s c h) := by
  have hb : ∀ r ∈ opndRegs (formOf op f).b f.b, r ∈ readRegs op f := fun r hr => by
    simp only [readRegs, List.mem_append]
    exact .inl (.inr hr)
  have hsub : ∀ (firsts : List Nat) (l r : Nat), r ∈ rows ++ (if l = c.lowLane then readRegs op f else []) ++
      (if firsts.contains l then opndRegs (formOf op f).b f.b else []) → r ∈ rows ++ readRegs op f := fun firsts l r hmem => by
    rw [List.mem_append, List.mem_append] at hmem
    rw [List.mem_append]
    rcases hmem with (hrow | hlow) | hquarter
    · exact .inl hrow
    · split at hlow
      · exact .inr hlow
      · cases hlow
    · split at hquarter
      · exact .inr (hb r hquarter)
      · cases hquarter
  have hfull : (counted && c.rd.holders.any fun l => decide ((c.rd.thread l).mx ≥ 15)) = false := by
    cases hc : counted with
    | false => rfl
    | true =>
      simp only [Bool.true_and, List.any_eq_false, decide_eq_true_eq]
      exact fun l hl => Nat.not_le.2 (hr.room hc l hl)
  unfold State.matrixForm
  rw [hr.ctx, hr.home]
  dsimp only
  generalize (if quarters = true then _ else _ : List Nat) = firsts
  have hpend := fun l hl => Thread.pendIn_mono (hsub firsts l) (hr.pend l hl)
  have hwaits := List.flatMap_eq_nil_iff.2 fun l (hl : l ∈ c.lanes) =>
    show (c.rd.thread l).waitsFor _ = [] by rw [Thread.waitsFor, hpend l hl]; rfl
  have htraps := List.flatMap_eq_nil_iff.2 fun l (hl : l ∈ c.lanes) =>
    show (c.rd.thread l).handleTrap l _ ++ s.poisonTrap l _ = [] by
      rw [Thread.handleTrap, hpend l hl, hr.sound l hl _ (hsub firsts l)]
      simp
  simp only [hr.on, if_true, hwaits, htraps, hr.array, guardGroup_whole hr.whole, hfull]
  rfl

/-! ## Queueing an operation -/

/-- A state whose issuer has the group `z` is itself with that group. -/
theorem Under.self {i : Issuer} {x : State} {z : Group} (hcur : x.cur = i) (hgrp : x.groupOf i = some z) : Under i x x z :=
  ⟨⟨hcur, hcur⟩, hgrp, fun _ => rfl⟩

theorem Under.updPart_self {s : State} {z : Group} (hgrp : s.groupOf s.cur = some z) (b p : Nat) (F : Part → Part) :
    Under s.cur (s.updPart b p F) (s.updPart b p F) z :=
  .self rfl ((State.groupOf_updPart ..).trans hgrp)

theorem Under.curGroup {i : Issuer} {x y : State} {z : Group} (h : Under i x y z) (c : Ctx) : x.curGroup c = z := by
  simp [State.curGroup, h.cur.1, h.grp]

/-- The lanes of an operation are those that held a thread at its issue. -/
theorem lanesOf_holders (g : Group) : lanesOf (maskOf g.holders) = g.holders := by
  have hlt : ∀ l ∈ g.holders, l < 32 := fun l hl => List.mem_range.1 (List.mem_filter.1 hl).1
  show (List.range 32).filter _ = (List.range 32).filter _
  refine List.filter_congr fun l hl => ?_
  rw [maskOf_getLsbD _ _ hlt]
  simp [Group.holders, List.mem_range.1 hl]

theorem holders_nodup (g : Group) : g.holders.Nodup := List.nodup_range.filter _

/-- Queueing an operation raises the counters of its lanes, where it counts (R69). -/
theorem Group.queueMx_spec (g : Group) (o : MxOp) :
    g.queueMx o = { g with threads := (g.queueMx o).threads, mxq := g.mxq ++ [o] } ∧
      (g.queueMx o).threads.length = g.threads.length ∧
      ∀ k, k < g.threads.length → (g.queueMx o).thread k =
        if o.counted = true ∧ k ∈ lanesOf o.lanes then { g.thread k with mx := (g.thread k).mx + 1 } else g.thread k := by
  unfold Group.queueMx
  cases o.counted with
  | false => exact ⟨rfl, rfl, fun k _ => by simp; rfl⟩
  | true =>
    obtain ⟨⟨honly, hlen⟩, hthr⟩ := foldl_updThread (fun _ t => { t with mx := t.mx + 1 }) (lanesOf o.lanes) g (lanesOf_nodup _)
    simp only [if_true, true_and]
    refine ⟨?_, hlen, hthr⟩
    rw [honly]

/-- A unit whose lanes may have changed queues an operation and moves on. -/
theorem commit_queueMx {s x y : State} {c : Ctx} {z w : Group} {o : MxOp} {run : Thread → Thread} (hc : s.ctx? = some c)
    (hu : Under s.cur x y z) (hz : z.threads = c.g.threads) (honly : z.OnlyThreads w)
    (hw : ∀ k, k < z.threads.length → w.thread k = if k ∈ c.rd.holders then run (z.thread k) else z.thread k)
    (ho : o.lanes = maskOf c.rd.holders) :
    ∃ t, x.commit c (w.queueMx o) (fun _ => .next) true 0 = y.setGroup s.cur t ∧
      ({ z with mxq := z.mxq ++ [o] } : Group).OnlyLanes t (c.afterMx o.counted run) := by
  obtain ⟨hn, -⟩ := State.ctx?_lanes hc
  obtain ⟨hq, hqlen, hqthr⟩ := w.queueMx_spec o
  have hmxq : w.mxq = z.mxq := by rw [honly.1]
  obtain ⟨t, ht, hlanes⟩ := commit_dest (s := x) hn ({ z with mxq := z.mxq ++ [o] }) (w.queueMx o)
    (fun k => if o.counted = true ∧ k ∈ lanesOf o.lanes then { w.thread k with mx := (w.thread k).mx + 1 } else w.thread k)
    (by rw [hq, hmxq, honly.1]) (hqlen.trans honly.2) (by rw [hq, hmxq])
    (fun k hk => hqthr k (by rw [honly.2]; exact hk)) (fun _ => .next) true 0 [] false
  refine ⟨t, ht.trans (by rw [hu.cur.1, hu.same]), hlanes.congr fun l hl => ?_⟩
  have hl : l < z.threads.length := hl
  have hthr : c.g.thread l = z.thread l := by simp [Group.thread, hz]
  simp only [Ctx.afterMx, hw l hl, ho, lanesOf_holders, List.contains_iff_mem, hthr, Thread.goto]
  by_cases hm : l ∈ c.rd.holders <;> by_cases hcnt : o.counted = true <;> simp [hm, hcnt]

/-- A unit queues an operation and moves on. -/
theorem commitMx_under {s x y : State} {c : Ctx} {z : Group} {o : MxOp} (hc : s.ctx? = some c) (hu : Under s.cur x y z)
    (hz : z.threads = c.g.threads) (ho : o.lanes = maskOf c.rd.holders) :
    ∃ t, x.commitMx c o = y.setGroup s.cur t ∧
      ({ z with mxq := z.mxq ++ [o] } : Group).OnlyLanes t (c.afterMx o.counted fun t => t) := by
  unfold State.commitMx
  rw [hu.curGroup]
  exact commit_queueMx hc hu hz (.refl z) (fun k _ => (ite_self _).symm) ho

theorem commitMx_self {s : State} {c : Ctx} {o : MxOp} (hc : s.ctx? = some c) (ho : o.lanes = maskOf c.rd.holders) :
    ∃ t, s.commitMx c o = s.setGroup s.cur t ∧
      ({ c.g with mxq := c.g.mxq ++ [o] } : Group).OnlyLanes t (c.afterMx o.counted fun t => t) :=
  commitMx_under hc (Under.start (State.ctx?_group hc).1) rfl ho

/-! ## The checks of each instruction -/

theorem guardTraps_of_nil {ts : List Trap} (h : ts = []) {k : Except Stop State} : guardTraps ts k = k := by
  rw [h, guardTraps_nil]

/-- A tile whose granules are held gives no trap (R269). -/
theorem Home.tileTrap_nil {h : Home} {c : Ctx} {b n : Nat} (ht : h.HasTile c b n) (l : Nat) : h.tileTrap c.g.mxq l b n = [] := by
  have hnone : (List.range n).find? (fun i => !h.holds c.g.mxq (b + i)) = none :=
    List.find?_eq_none.2 fun i hi => by simp [ht i (List.mem_range.1 hi)]
  simp [Home.tileTrap, hnone]

section
variable {s : State} (hp : s.rel.poison = [])
include hp

/-- Where nothing is poisoned no array word is (R415). -/
theorem State.wordPoison_nil (h : Home) (key l num : Nat) (reads : Nat → Bool) : s.wordPoison h key l num reads = [] := by
  simp [State.wordPoison, hp]

theorem State.acmPoison_nil (h : Home) (l b lo n : Nat) (rows : List Nat) : s.acmPoison h l b lo n rows = [] :=
  List.flatMap_eq_nil_iff.2 fun _ _ => State.wordPoison_nil hp ..

theorem State.slotPoison_nil (h : Home) (l slot n words : Nat) : s.slotPoison h l slot n words = [] := State.wordPoison_nil hp ..

theorem State.bookPoison_nil (h : Home) (l : Nat) : s.bookPoison h l = [] := State.wordPoison_nil hp ..

end

/-- An instruction whose action is to queue one operation. -/
theorem queues_spec {s : State} {c : Ctx} {h : Home} {op : Nat} {f : Fields} {rows : List Nat} {counted quarters : Bool}
    {run : State → Ctx → Home → Except Stop State} {o : MxOp} (hr : s.MatrixReady c h op f rows counted)
    (hrun : run s c h = .ok (s.commitMx c o)) (ho : o.lanes = maskOf c.rd.holders ∧ o.counted = counted) :
    ∃ t, s.matrixForm op f rows quarters counted run = .next (s.setGroup s.cur t) ∧
      ({ c.g with mxq := c.g.mxq ++ [o] } : Group).OnlyLanes t (c.afterMx counted fun t => t) := by
  obtain ⟨t, ht, hlanes⟩ := commitMx_self hr.ctx ho.1
  refine ⟨t, ?_, ho.2 ▸ hlanes⟩
  rw [matrixForm_ready hr, hrun, finish_ok, ht]

/-- The operands that name a granule range of ACFREE and ACZERO pass their checks (R276). -/
theorem granuleForm_queues {s : State} {c : Ctx} {h : Home} {op : Nat} {f : Fields} (i : Instr)
    (hr : s.MatrixReady c h op f [] false) (hlo : 1 ≤ s.low32 c f f.b) (hhi : s.low32 c f f.b ≤ 128)
    (ht : h.HasTile c (s.low32 c f f.a) (s.low32 c f f.b)) :
    ∃ t, s.granuleForm op f i = .next (s.setGroup s.cur t) ∧
      ({ c.g with mxq := c.g.mxq ++ [{ mxOp c i [] false with base := s.low32 c f f.a, src := s.low32 c f f.b }] } : Group).OnlyLanes t
        (c.afterMx false fun t => t) := by
  have hrange : (decide (s.low32 c f f.b = 0) || decide (s.low32 c f f.b > 128)) = false := by simp; omega
  refine queues_spec hr ?_ ⟨rfl, rfl⟩
  simp only [hrange, Home.tileTrap_nil ht]
  rfl

/-- Settles O36: every instruction of the table passes its own checks, and queues its operation. -/
theorem matrixInstructionsQueueTheirOperation : Obligations.MatrixInstructionsQueueTheirOperation := by
  intro i s c h m hm hr hok
  cases i <;> simp only [queuesOf, Option.some.injEq, reduceCtorEq] at hm <;> subst hm <;> dsimp only at hr hok ⊢
  case bldReg f =>
    show ∃ t, execBldReg f s = _ ∧ _
    unfold execBldReg
    refine queues_spec hr ?_ (by exact ⟨rfl, rfl⟩)
    exact if_neg (Nat.not_lt.2 hok)
  case mmaq f =>
    show ∃ t, execMmaq f s = _ ∧ _
    obtain ⟨hslots, ht, hp⟩ := hok
    unfold execMmaq
    refine queues_spec hr ?_ (by exact ⟨rfl, rfl⟩)
    refine (guardTraps_of_nil ?_).trans (by simp)
    simp only [List.append_eq_nil_iff, List.map_eq_nil_iff, List.filter_eq_nil_iff, List.flatMap_eq_nil_iff]
    refine ⟨⟨⟨⟨fun q _ => ?_, Home.tileTrap_nil ht _⟩, State.acmPoison_nil hp ..⟩, fun q _ => ?_⟩, ?_⟩
    · rw [decide_eq_true_eq, Nat.not_lt]
      cases c.rd.holders.find? fun l => l / 8 = q <;> simp [hslots]
    · cases c.rd.holders.find? fun l => l / 8 = q <;> simp [State.slotPoison_nil hp]
    · simp [State.bookPoison_nil hp]
  case acfree f =>
    show ∃ t, execAcfree f s = _ ∧ _
    exact granuleForm_queues _ hr hok.1 hok.2.1 hok.2.2
  case aczero f =>
    show ∃ t, execAczero f s = _ ∧ _
    exact granuleForm_queues _ hr hok.1 hok.2.1 hok.2.2
  case acwr f =>
    show ∃ t, execAcwr f s = _ ∧ _
    unfold execAcwr
    refine queues_spec hr ?_ (by exact ⟨rfl, rfl⟩)
    simp only [Home.tileTrap_nil hok, guardTraps_nil]
  case scacc f =>
    show ∃ t, execScacc f s = _ ∧ _
    obtain ⟨hbase, hsrc, hp⟩ := hok
    unfold execScacc
    refine queues_spec hr ?_ (by exact ⟨rfl, rfl⟩)
    simp only [Home.tileTrap_nil hbase, Home.tileTrap_nil hsrc, State.acmPoison_nil hp]
    rfl

/-! ## Reads of a scratchpad, and ACRD -/

/-- Words that lie in no hidden half are those of the scratchpad, and reading them changes nothing (R92, R271). -/
theorem State.readWords_plain {s : State} {part off n : Nat} (hplain : ∀ k, k < n → s.hiddenHalf (off + 8 * k) 8 = false) :
    s.readWords part off n = ((List.range n).flatMap fun k => leBytes 8 ((s.scratch part).read (off + 8 * k) 8), s) := by
  induction n with
  | zero => rfl
  | succ n ih =>
    have hlast := hplain n (Nat.lt_succ_self n)
    rw [State.readWords, ih fun k hk => hplain k (Nat.lt_succ_of_lt hk)]
    simp [State.readPlace, State.afterRead, hlast, List.range_succ]

/-- Where nothing is poisoned no scratch unit is (R415). -/
theorem State.scratchPoisons_nil {s : State} (hp : s.rel.poison = []) (l part off size : Nat) : s.scratchPoisons l part off size = [] := by
  have hnone : ∀ part off, s.scratchPoison part off = none := fun part off => by
    unfold State.scratchPoison
    simp [hp]
  refine List.flatMap_eq_nil_iff.2 fun i _ => ?_
  simp [State.poisonRead, hnone]

/-- A unit moves on with its group as it stands. -/
theorem commit_still {s x y : State} {c : Ctx} {z : Group} (hc : s.ctx? = some c) (hu : Under s.cur x y z) (hz : z.threads = c.g.threads) :
    ∃ t, x.commit c (x.curGroup c) (fun _ => .next) true 0 = y.setGroup s.cur t ∧ z.OnlyLanes t (c.afterMx false fun t => t) := by
  rw [hu.curGroup]
  obtain ⟨hn, -⟩ := State.ctx?_lanes hc
  obtain ⟨t, ht, hlanes⟩ := commit_dest (s := x) hn z z z.thread rfl rfl rfl (fun _ _ => rfl) (fun _ => .next) true 0 [] false
  refine ⟨t, ht.trans (by rw [hu.cur.1, hu.same]), hlanes.congr fun l _ => ?_⟩
  have hthr : c.g.thread l = z.thread l := by simp [Group.thread, hz]
  by_cases hl : l ∈ c.lanes <;> simp [Ctx.afterMx, hl, hthr, Thread.goto]

theorem execBld_queues {s : State} {c : Ctx} {h : Home} {f : Fields} {p o : Nat} (hp : s.rel.poison = []) (hsaved : s.partSaved p = false)
    (hr : s.MatrixReady c h 0xB0 f [] false) (hslot : s.low32 c f f.b ≤ 3)
    (hplace : s.mxScratch c.lowLane (s.low32 c f f.a) (64 * f.immBits 16 8) 64 = .ok (p, o))
    (hplain : ∀ k, k < 8 * f.immBits 16 8 → s.hiddenHalf (o + 8 * k) 8 = false) :
    ∃ t, execBld f s = .next (s.setGroup s.cur t) ∧
      ({ c.g with mxq := c.g.mxq ++ [{ mxOp c (.bld f) [] false with
        slots := [4 * h.loc + s.low32 c f f.b], base := f.immBits 7 0, src := f.immBits 16 8
        bdata := Memory.empty.setBytes 0 ((List.range (8 * f.immBits 16 8)).flatMap fun k =>
          leBytes 8 ((s.scratch p).read (o + 8 * k) 8)) }] } : Group).OnlyLanes t (c.afterMx false fun t => t) := by
  unfold execBld
  refine queues_spec hr ?_ (by exact ⟨rfl, rfl⟩)
  simp only [Nat.not_lt.2 hslot, if_false, hplace, State.scratchPoisons_nil hp, guardTraps_nil, hsaved, State.readWords_plain hplain]
  rfl

theorem execCbld_loads {s : State} {c : Ctx} {h : Home} {f : Fields} {p o : Nat} (hp : s.rel.poison = []) (hsaved : s.partSaved p = false)
    (hr : s.MatrixReady c h 0xB9 f [] false) (hplace : s.mxScratch c.lowLane (s.low32 c f f.a) 1056 8 = .ok (p, o))
    (hplain : ∀ k, k < 132 → s.hiddenHalf (o + 8 * k) 8 = false) :
    ∃ t, execCbld f s = .next ((s.updPart h.blk.id h.pnum fun p' => { p' with
        codebook := Memory.empty.setBytes 0 ((List.range 132).flatMap fun k => leBytes 8 ((s.scratch p).read (o + 8 * k) 8)) }).setGroup
          s.cur t) ∧
      c.g.OnlyLanes t (c.afterMx false fun t => t) := by
  unfold execCbld
  rw [matrixForm_ready hr]
  simp only [hplace, State.scratchPoisons_nil hp, guardTraps_nil, hsaved, State.readWords_plain hplain]
  exact (commit_still hr.ctx (Under.updPart_self (State.ctx?_group hr.ctx).1 ..) rfl).imp fun t ht =>
    ⟨congrArg Host.Outcome.next ht.1, ht.2⟩

/-- What an ACRD takes from a thread at issue: the eight draws of its stream, and its destinations from what was to write them (R277). -/
def Thread.acrdIssued (f : Fields) (t : Thread) : Thread :=
  { t with
    z := if f.rnd = 5 then srSteps t.z 8 else t.z
    ld := t.ld.map fun o => { o with regs := o.regs.filter fun r => !(acrdDst f).contains r.1 }
    pend := t.pend.filter fun q => !((acrdDst f).contains q.reg || (acrdDst f).contains (q.reg + 1)) }

theorem execAcrd_queues {s : State} {c : Ctx} {h : Home} {f : Fields} (hp : s.rel.poison = []) (hr : s.MatrixReady c h 0xB6 f [] true)
    (ht : h.HasTile c (s.low32 c f f.a + mxCol f / 32) 1) :
    ∃ t, execAcrd f s = .next (s.setGroup s.cur t) ∧
      ({ c.g with mxq := c.g.mxq ++ [{ mxOp c (.acrd f) [] true with
        base := s.low32 c f f.a, zs := (List.range 32).map fun l => (c.rd.thread l).z }] } : Group).OnlyLanes t
          (c.afterMx true (Thread.acrdIssued f)) := by
  have hu := Under.start (State.ctx?_group hr.ctx).1
  obtain ⟨honly, hthr⟩ := foldl_updThread (fun _ => Thread.acrdIssued f) c.rd.holders c.g (holders_nodup _)
  obtain ⟨t, hcommit, hlanes⟩ := commit_queueMx (run := Thread.acrdIssued f) (o := { mxOp c (.acrd f) [] true with
    base := s.low32 c f f.a, zs := (List.range 32).map fun l => (c.rd.thread l).z }) hr.ctx hu rfl honly hthr rfl
  refine ⟨t, ?_, hlanes⟩
  unfold execAcrd
  rw [matrixForm_ready hr]
  simp only [Home.tileTrap_nil ht, State.acmPoison_nil hp, List.append_nil, guardTraps_nil, hu.curGroup]
  exact congrArg Host.Outcome.next hcommit

/-- Settles O37: BLD and ACRD queue what they read, CBLD writes the codebook of its part. -/
theorem matrixLoadsAndReads : Obligations.MatrixLoadsAndReads := by
  intro f s c h p o hp hsaved
  exact ⟨execBld_queues hp hsaved, execAcrd_queues hp, execCbld_loads hp hsaved⟩

end Sys2Proof.Machine
end

section
/-!
# The rendezvous of an MMAS (O38)

An MMAS whose checks pass arrives (`execMmas_arrives`). One of the first three parks its unit; with the fourth the parked groups take
their operations one after another, each a change of its own group (`State.mmasMeet_spec`), and then the arriving group its own.
-/

namespace Sys2Proof.Machine

open Sys2Proof

/-! ## Arriving -/

/-- The operation that an MMAS brings to its rendezvous, and its arrival there (R273). -/
def State.mmasOp (s : State) (c : Ctx) (h : Home) (f : Fields) : MxOp :=
  { mxOp c (.mmas f) (mxRows f) true with
    slots := [s.low32 c f f.b], base := s.low32 c f f.c, book := if mxTb f = .cb2 then h.part.codebook.bytes 0 1056 else [] }

def State.mmasArrival (s : State) (c : Ctx) (h : Home) (f : Fields) : MmasArrival :=
  { part := h.pnum, sector := h.sector, tag := f.immBits 23 16, place := h.loc % 4, group := h.grp, op := s.mmasOp c h f }

theorem execMmas_arrives {s : State} {c : Ctx} {h : Home} {f : Fields} (hr : s.MatrixReady c h 0xB2 f (mxRows f) true)
    (hp : s.rel.poison = []) (hslot : s.low32 c f f.b ≤ 3) (ht : h.HasTile c (s.low32 c f f.c) (mxGranules (mxN f))) :
    execMmas f s = s.finish (s.mmasArrive c h (s.mmasArrival c h f) f) := by
  unfold execMmas
  rw [matrixForm_ready hr]
  refine congrArg s.finish ((guardTraps_of_nil ?_).trans ?_)
  · simp [Nat.not_lt.2 hslot, Home.tileTrap_nil ht, State.acmPoison_nil hp, State.slotPoison_nil hp, State.bookPoison_nil hp]
  · simp [State.mmasArrival, State.mmasOp]

/-- A change of a block that leaves its groups leaves every issuer's group. -/
theorem State.groupOf_updBlock (s : State) (b : Nat) {F : Block → Block} (hid : ∀ x, (F x).id = x.id) (hgroups : ∀ x, (F x).groups = x.groups)
    (i : Issuer) : (s.updBlock b F).groupOf i = s.groupOf i := by
  cases i with
  | mgmt => rfl
  | unit k n u =>
    have hblk : (s.updBlock b F).block? k = (s.block? k).map fun x => if x.id = b then F x else x := by
      unfold State.block? State.updBlock
      have hsame : ((fun x : Block => x.id == k) ∘ fun x => if x.id = b then F x else x) = fun x => x.id == k := by
        funext x
        by_cases hx : x.id = b <;> simp [hx, hid]
      rw [List.find?_map, hsame]
    show (State.block? _ k).bind _ = (s.block? k).bind _
    rw [hblk]
    cases s.block? k with
    | none => rfl
    | some x => by_cases hx : x.id = b <;> simp [hx, hgroups]

/-- One of the first three groups of a rendezvous parks there. -/
theorem mmasArrive_parks {s : State} {c : Ctx} {h : Home} {a : MmasArrival} {f : Fields} (hc : s.ctx? = some c)
    (hplace : ∀ x ∈ h.blk.mmas.filter fun x => x.part = a.part && x.sector = a.sector && x.tag = a.tag, x.place ≠ a.place)
    (hfew : (h.blk.mmas.filter fun x => x.part = a.part && x.sector = a.sector && x.tag = a.tag).length < 3) :
    ∃ t, s.mmasArrive c h a f = .ok ((s.updBlock h.blk.id fun x => { x with mmas := x.mmas ++ [a] }).setGroup s.cur t) ∧
      c.g.OnlyLanes t fun l => if l ∈ c.lanes then { c.g.thread l with status := .parked (.mmas a.sector a.tag) } else c.g.thread l := by
  obtain ⟨hn, -⟩ := State.ctx?_lanes hc
  have hnone : (h.blk.mmas.filter fun x => x.part = a.part && x.sector = a.sector && x.tag = a.tag).any (fun x => x.place = a.place) = false :=
    List.any_eq_false.2 fun x hx => by simpa using hplace x hx
  have hu : Under s.cur (s.updBlock h.blk.id fun x => { x with mmas := x.mmas ++ [a] }) _ c.g :=
    .self rfl ((State.groupOf_updBlock s h.blk.id (F := fun x => { x with mmas := x.mmas ++ [a] }) (fun _ => rfl) (fun _ => rfl) s.cur).trans
      (State.ctx?_group hc).1)
  obtain ⟨t, ht, hlanes⟩ := commit_dest (s := s.updBlock h.blk.id fun x => { x with mmas := x.mmas ++ [a] }) hn c.g c.g c.g.thread
    rfl rfl rfl (fun _ _ => rfl) (fun _ => .park (.mmas a.sector a.tag)) false 0 [] false
  refine ⟨t, ?_, hlanes⟩
  unfold State.mmasArrive
  simp only [hnone, hfew, hu.curGroup]
  exact congrArg Except.ok ht

/-! ## Meeting -/

/-- The operation of an arrival, once its rendezvous has the number `id`. -/
def MmasArrival.queued (a : MmasArrival) (id : Nat) : MxOp := { a.op with meet := id, ready := false }

/-- A parked group of a rendezvous of block `b` takes its operation and moves on (R273). -/
def State.mmasMeet (b id : Nat) (s : State) (a : MmasArrival) : State :=
  (s.updGroup (.unit b a.group 0) fun g => g.queueMx (a.queued id)).wake (.unit b a.group 0)
    (match s.groupOf (.unit b a.group 0) with | some g => g.mmasParked a.sector a.tag | none => []) fun _ t => t.advance

/-- Lanes woken leave what their group has queued. -/
theorem State.wake_mxq {s : State} {iss : Issuer} {g : Group} (hg : s.groupOf iss = some g) (ls : List Nat) (f : Nat → Thread → Thread) :
    ∃ w, s.wake iss ls f = s.setGroup iss w ∧ w.mxq = g.mxq := by
  have hmxq : ∀ (ls : List Nat) (g : Group), (ls.foldl (fun g l => g.updThread l fun t => { f l t with status := .ready }) g).mxq = g.mxq :=
    fun ls => by
      induction ls with
      | nil => exact fun _ => rfl
      | cons l ls ih => exact fun g => (ih _).trans (Group.updThread_mxq ..)
  unfold State.wake
  rw [hg]
  exact State.ready_spec (P := fun t => ∃ w, t = s.setGroup iss w ∧ w.mxq = g.mxq) fun us => ⟨_, rfl, hmxq ls g⟩

/-- It changes that group alone, which has the operation queued last. -/
theorem State.mmasMeet_spec (b id : Nat) (s : State) (a : MmasArrival) :
    (s.groupOf (.unit b a.group 0) = none ∧ s.mmasMeet b id a = s) ∨
      ∃ g w, s.groupOf (.unit b a.group 0) = some g ∧ s.mmasMeet b id a = s.setGroup (.unit b a.group 0) w ∧
        w.mxq = g.mxq ++ [a.queued id] := by
  cases hg : s.groupOf (.unit b a.group 0) with
  | none => exact .inl ⟨rfl, by simp [State.mmasMeet, State.updGroup, State.wake, hg]⟩
  | some g =>
    have hset : s.updGroup (.unit b a.group 0) (fun g => g.queueMx (a.queued id)) = s.setGroup (.unit b a.group 0) (g.queueMx (a.queued id)) :=
      State.updGroup_eq_setGroup hg _
    obtain ⟨w, hw, hmxq⟩ := State.wake_mxq (State.groupOf_setGroup (g.queueMx (a.queued id)) hg)
      (match s.groupOf (.unit b a.group 0) with | some g => g.mmasParked a.sector a.tag | none => []) fun _ t => t.advance
    refine .inr ⟨g, w, rfl, ?_, hmxq.trans ?_⟩
    · rw [State.mmasMeet, hset, hw, State.setGroup_setGroup]
    · rw [(g.queueMx_spec _).1]

/-- The same, seen from the block. -/
theorem State.mmasMeet_block {b id : Nat} {s : State} {a : MmasArrival} {y : Block} (hy : s.block? b = some y) :
    Only s (s.mmasMeet b id a) ∧ ∃ gs, (s.mmasMeet b id a).block? b = some { y with groups := gs } ∧
      (∀ k, a.group ≠ k → gs[k]? = y.groups[k]?) ∧
      ∀ g, y.groups[a.group]? = some g → ∃ w, gs[a.group]? = some w ∧ w.mxq = g.mxq ++ [a.queued id] := by
  have hgrp : s.groupOf (.unit b a.group 0) = y.groups[a.group]? := by simp [State.groupOf, hy]
  rcases State.mmasMeet_spec b id s a with ⟨hnone, hs⟩ | ⟨g, w, hsome, hs, hmxq⟩
  · rw [hs]
    exact ⟨.refl s, y.groups, hy, fun _ _ => rfl, fun g hg => by rw [← hgrp, hnone] at hg; cases hg⟩
  · rw [hs]
    refine ⟨only_setGroup .., _, setGroup_block hy w, fun k hk => ?_, fun g' hg' => ⟨w, ?_, ?_⟩⟩
    · simp [setAt, updAt_get?, Ne.symm hk]
    · simp [setAt, updAt_get?, hg']
    · obtain rfl : g = g' := Option.some.inj (hsome.symm.trans (hgrp.trans hg'))
      exact hmxq

/-- The parked groups of a rendezvous that take their operations one after another: of the machine only the groups of their block
change, of these only theirs, and one that comes once has its operation queued last. -/
theorem State.mmasMeet_foldl {b id : Nat} {L : List MmasArrival} {s : State} {y : Block} (hy : s.block? b = some y) :
    Only s (L.foldl (State.mmasMeet b id) s) ∧ ∃ gs, (L.foldl (State.mmasMeet b id) s).block? b = some { y with groups := gs } ∧
      (∀ k, (∀ x ∈ L, x.group ≠ k) → gs[k]? = y.groups[k]?) ∧
      ∀ x ∈ L, (∀ z ∈ L, z ≠ x → z.group ≠ x.group) → L.Nodup → ∀ g, y.groups[x.group]? = some g →
        ∃ w, gs[x.group]? = some w ∧ w.mxq = g.mxq ++ [x.queued id] := by
  induction L generalizing s y with
  | nil => exact ⟨.refl s, y.groups, hy, fun _ _ => rfl, fun _ hx => absurd hx List.not_mem_nil⟩
  | cons a L ih =>
    obtain ⟨honly, gs, hblk, hother, hown⟩ := State.mmasMeet_block (id := id) (a := a) hy
    obtain ⟨honly', gs', hblk', hother', hown'⟩ := ih hblk
    refine ⟨honly.trans honly', gs', hblk', fun k hk => ?_, fun x hx hone hnodup g hg => ?_⟩
    · obtain ⟨ha, hL⟩ := List.forall_mem_cons.1 hk
      exact (hother' k hL).trans (hother k ha)
    · obtain ⟨hnew, hnodup⟩ := List.nodup_cons.1 hnodup
      obtain ⟨ha, hL⟩ := List.forall_mem_cons.1 hone
      rcases List.mem_cons.1 hx with rfl | hx
      · obtain ⟨w, hw, hmxq⟩ := hown g hg
        exact ⟨w, (hother' _ fun z hz => hL z hz fun h => hnew (h ▸ hz)).trans hw, hmxq⟩
      · have hne : a.group ≠ x.group := ha fun h => hnew (h ▸ hx)
        exact hown' x hx hL hnodup g ((hother _ hne).trans hg)

/-- The fourth group of a rendezvous of one form: the parked groups take their operations, and then it takes its own. -/
theorem mmasArrive_meets {s : State} {c : Ctx} {h : Home} {a : MmasArrival} {f : Fields} {mates rest : List MmasArrival}
    (hmates : mates = h.blk.mmas.filter fun x => x.part = a.part && x.sector = a.sector && x.tag = a.tag)
    (hrest : rest = h.blk.mmas.filter fun x => !(x.part = a.part && x.sector = a.sector && x.tag = a.tag))
    (hplace : ∀ x ∈ mates, x.place ≠ a.place) (hmany : 3 ≤ mates.length)
    (hform : ∀ x ∈ mates, ∃ k, x.op.instr = .mmas k ∧ k.ty = f.ty ∧ k.immBits 15 0 = f.immBits 15 0) :
    s.mmasArrive c h a f = .ok ((mates.foldl (State.mmasMeet h.blk.id s.nextId)
      { s.updBlock h.blk.id fun x => { x with mmas := rest } with nextId := s.nextId + 1 }).commitMx c (a.queued s.nextId)) := by
  subst hmates hrest
  unfold State.mmasArrive
  dsimp only
  rw [if_neg ?_, if_neg (Nat.not_lt.2 hmany), if_pos ?_]
  · rfl
  · refine List.all_eq_true.2 fun x hx => ?_
    obtain ⟨k, hk, hty, himm⟩ := hform x hx
    simp [MxOp.mmasFields, hk, sameMmas, hty, himm]
  · simpa using fun x hx => hplace x hx

/-- The issuer of a group that stands at a matrix instruction. -/
theorem State.home_spec {s : State} {h : Home} (hh : s.home = some h) :
    (∃ u, s.cur = .unit h.blk.id h.grp u) ∧ s.block? h.blk.id = some h.blk ∧ h.blk.part h.pnum = some h.part := by
  unfold State.home at hh
  cases hcur : s.cur with
  | mgmt => rw [hcur] at hh; cases hh
  | unit b g u =>
    rw [hcur] at hh
    obtain ⟨hblk, hid, hgrp, hpart⟩ := State.homeOf_spec hh
    exact ⟨⟨u, by rw [hid, hgrp]⟩, hid ▸ hblk, hpart⟩

theorem Only.fields {s t : State} (h : Only s t) : t.cur = s.cur ∧ t.cmds = s.cmds ∧ t.mem = s.mem ∧ t.csr = s.csr := by
  rw [show t = _ from h]
  exact ⟨rfl, rfl, rfl, rfl⟩

/-- Settles O38: three arrivals park, and a fourth of the same form gives every group its operation. -/
theorem mmasMeetsInFours : Obligations.MmasMeetsInFours := by
  intro f s c h hr hp hslot ht tag mates op hplace
  have hexec : exec (.mmas f) s = s.finish (s.mmasArrive c h (s.mmasArrival c h f) f) := execMmas_arrives hr hp hslot ht
  refine ⟨fun hfew => ?_, fun hmany hform hgroups => ?_⟩
  · obtain ⟨t, hok, hlanes⟩ := mmasArrive_parks (a := s.mmasArrival c h f) (f := f) hr.ctx hplace hfew
    exact ⟨t, by rw [hexec, hok]; rfl, hlanes⟩
  · obtain ⟨⟨u, hcur⟩, hblk, -⟩ := State.home_spec hr.home
    let rest := h.blk.mmas.filter fun x => !(x.part = h.pnum && x.sector = h.sector && x.tag = tag)
    let s2 : State := { s.updBlock h.blk.id fun x => { x with mmas := rest } with nextId := s.nextId + 1 }
    have hok := mmasArrive_meets (s := s) (c := c) (a := s.mmasArrival c h f) (mates := mates) (rest := rest) rfl rfl hplace hmany hform
    have hblk2 : s2.block? h.blk.id = some { h.blk with mmas := rest } := by
      have := State.block?_updBlock s h.blk.id (fun x => { x with mmas := rest }) fun _ => rfl
      rw [hblk] at this
      exact this
    obtain ⟨honly, gs, hblk3, hother, hown⟩ := State.mmasMeet_foldl (id := s.nextId) (L := mates) hblk2
    obtain ⟨hcur3, hcmds, hmem, hcsr⟩ := honly.fields
    have hgrp : h.blk.groups[h.grp]? = some c.g := by
      have := (State.ctx?_group hr.ctx).1
      rw [hcur] at this
      simpa [State.groupOf, hblk] using this
    have hgrp3 : (mates.foldl (State.mmasMeet h.blk.id s.nextId) s2).groupOf s.cur = some c.g := by
      rw [hcur]
      simpa [State.groupOf, hblk3, hother h.grp hgroups] using hgrp
    obtain ⟨t, hcommit, hlanes⟩ := commitMx_under (o := (s.mmasArrival c h f).queued s.nextId) hr.ctx (.self hcur3 hgrp3) rfl rfl
    have hset := setGroup_block (n := h.grp) (u := u) hblk3 t
    rw [hcur] at hcommit
    refine ⟨(mates.foldl (State.mmasMeet h.blk.id s.nextId) s2).setGroup (.unit h.blk.id h.grp u) t, _,
      by rw [hexec, hok, finish_ok, hcommit], hcmds, hmem, hcsr, hset, rfl, rfl, ⟨t, ?_, hlanes⟩, fun x hx hone hnodup ⟨g, hg⟩ => ?_⟩
    · have : gs[h.grp]? = some c.g := (hother h.grp hgroups).trans hgrp
      simp [setAt, updAt_get?, this]
    · obtain ⟨w, hw, hmxq⟩ := hown x hx (fun z hz hne => hone z hz hne) (hnodup.filter _) g hg
      refine ⟨w, ?_, by rw [hmxq, List.getLast?_concat]; rfl⟩
      simp [setAt, updAt_get?, hgroups x hx, hw]

end Sys2Proof.Machine
end

section
/-!
# ACALLOC with a V register as D (O39)

D of an ACALLOC is an S register or ZERO (R244, R274), so the statement has its grant change no thread but in its IP. It does not ask
that of the fields, and `exec` writes whatever D they name: with a V register there the granule goes to the low lane's.
-/

namespace Sys2Proof.Machine

open Sys2Proof

/-- An ACALLOC of 1 granule with V0 as D. -/
def acallocToV : Fields :=
  { fn := 0, gn := false, gp := 7, d := .v 0, a := .imm, b := .zero, c := .zero, ty := .i8, rnd := 0, flag := false, imm := 1 }

/-- The only unit of its group: lane 0 at the first slot of the image. -/
def acallocUnit : IssueUnit :=
  { lanes := 1, ip := 0, way := some 0, stamp := 0, hinted := false, held := none, aged := false, stuck := false }

def acallocGroup : Group := Group.fresh [Thread.fresh 8 0 1 false] [acallocUnit]

/-- A core part whose block holds granule 0 of sector 0. -/
def acallocPart : Part :=
  { core := 0, slot := 0, state := .resident, scratch := .empty, bslots := .empty, codebook := .empty, acm := .empty
    held := [(0, 0)], spilled := [], charge := 0, queued := false, sel := 0, marks := [] }

/-- Block 1, of the one group, on core 0. -/
def acallocBlock : Block :=
  { id := 1, launch := 1, index := 0, age := 0, slot := 0, state := .resident, started := true, inSlot := false, stopped := false
    preempted := false, groups := [acallocGroup], parts := [acallocPart], mmas := [], idle := 0, heldOn := [] }

/-- Its launch, which may hold 64 granules of accumulators. -/
def acallocLaunch : Launch := { launchOfRecord 0 0 [] with id := 1, state := .run, regs := 8, acmCeil := 64 }

/-- The group issues, and no request for accumulators waits. -/
def acallocState : State :=
  { State.reset with launches := [acallocLaunch], blocks := [acallocBlock], cur := .unit 1 0 0 }

def acallocCtx : Ctx := { g := acallocGroup, rd := acallocGroup, u := acallocUnit, lanes := [0] }

def acallocHome : Home := { blk := acallocBlock, grp := 0, pnum := 0, part := acallocPart, loc := 0, run := acallocLaunch }

theorem acallocState_sound (l : Nat) (regs : List Nat) : acallocState.poisonTrap l regs = [] := by
  have hnone : acallocState.rel.poison = [] := by decide +kernel
  simp [State.poisonTrap, hnone]

theorem acallocState_ready : acallocState.MatrixReady acallocCtx acallocHome 0xB3 acallocToV [] false where
  ctx := by decide +kernel
  home := rfl
  whole := by decide +kernel
  some_ := by decide +kernel
  on := by decide +kernel
  pend := by decide +kernel
  sound l _ regs _ := acallocState_sound l regs
  array := by decide +kernel
  room := nofun

/-- V0 of lane 0 of the issuing group, after an outcome with a next state. -/
def lowV0 : Out → Option Word
  | .next t => (t.groupOf t.cur).map fun g => (g.thread 0).reg 0
  | _ => none

/-- The state in which the group has been granted granule 1. -/
def acallocGiven : State := acallocState.giveGranules 1 0 0 0 [1] true

theorem lowV0_setGroup (g : Group) : lowV0 (.next (acallocGiven.setGroup acallocState.cur g)) = some ((g.thread 0).reg 0) := by
  have hthere : acallocGiven.groupOf acallocState.cur = some acallocGroup := by decide +kernel
  have hcur : (acallocGiven.setGroup acallocState.cur g).cur = acallocState.cur := rfl
  simp only [lowV0, hcur, State.groupOf_setGroup g hthere, Option.map_some]

/-- Refutes O39: granule 1 is free and no request waits, so an ACALLOC of 1 granule whose D is V0 is granted granule 1, which goes to V0
of lane 0. The statement has every register of that thread stay. -/
theorem not_accumulatorsAreAllocated : ¬ Obligations.AccumulatorsAreAllocated := by
  rintro ⟨halloc, -⟩
  obtain ⟨-, hgrant, -⟩ := halloc acallocToV acallocState acallocCtx acallocHome acallocState_ready (by decide +kernel)
    (by decide +kernel)
  obtain ⟨g, hexec, -, -, -, hlanes⟩ := hgrant (by decide +kernel) rfl (by rintro ⟨r, hr, -⟩; cases hr) 1 (by decide +kernel)
  have hwritten : lowV0 (exec (.acalloc acallocToV) acallocState) = some 1 := by decide +kernel
  have hreg : (g.thread 0).reg 0 = 1 := by
    rw [hexec] at hwritten
    exact Option.some.inj ((lowV0_setGroup g).symm.trans hwritten)
  have hstays : (acallocGroup.thread 0).advance.reg 0 = 0 := by decide +kernel
  rcases hlanes 0 (by decide) with h | ⟨-, h⟩ <;>
  · rw [h] at hreg
    exact absurd (hreg.symm.trans hstays) (by decide)

end Sys2Proof.Machine
end

section
/-!
# The ends of queued matrix operations (O41)

Every queued operation but ACRD ends as a change of its home's core part (`State.mxFinish_spec`), and its group's threads change in their
counts only (`State.oldestMx_leaves`). So each clause is that change, read back by the laws of tiles, copies and clears. The first of the
four groups of an MMAS ends as one whose columns are read, in the state and with the operation that the reading leaves
(`State.mmasRead_spec`).
-/

namespace Sys2Proof.Machine

open Sys2Proof

/-! ## What a completion leaves -/

/-- What is drawn for a block leaves the blocks. -/
theorem State.drawForBlock_block? (s : State) (b i : Nat) : (s.drawForBlock b).block? i = s.block? i := rfl

/-- The part of a home, as its block has it. -/
theorem State.homeOf_part {s : State} {b g : Nat} {h : Home} (hh : s.homeOf b g = some h) :
    ((s.block? b).bind fun z => z.part h.pnum) = some h.part := by
  obtain ⟨hblk, -, -, hpart⟩ := State.homeOf_spec hh
  rw [hblk, Option.bind_some, hpart]

/-- The memories of a home's part are canonical. -/
theorem State.homeOf_canon {s : State} {b g : Nat} {h : Home} (hw : s.memoriesWf = true) (hh : s.homeOf b g = some h) :
    h.part.Canon := by
  obtain ⟨hblk, -, -, hpart⟩ := State.homeOf_spec hh
  exact Block.part_canon (State.block?_canon (State.memoriesWf_iff.1 hw) hblk) hpart

/-- The end of an operation of a group that has it in the place of the group's oldest: the change `F` of the home's part, and of the
threads' counts. -/
theorem State.mxLeaves_of {s u : State} {b g : Nat} {h : Home} {x y : Group} {o o1 : MxOp} {os : List MxOp} {F : Part → Part}
    (hold : s.OldestMx b g h x o os) (hexec : exec (.matrixComplete b g) s = .next (u.mxFinish h o1))
    (hpart : ((u.block? b).bind fun z => z.part h.pnum) = some h.part) (hgroup : u.groupOf (.unit b g 0) = some y)
    (hy : y = { x with mxq := o1 :: os }) (ho : o1.lanes = o.lanes ∧ o1.counted = o.counted)
    (hF : u.mxPerform h y o1 = u.updHome h F) :
    s.MxLeaves b g h x o os (F h.part) (y.mxDone o1) ∧ x.OnlyCounts (y.mxDone o1) := by
  obtain ⟨-, hid, hgrp, -⟩ := State.homeOf_spec hold.home
  obtain ⟨hleft, hthere⟩ := State.mxFinish_spec hid hgrp hpart hgroup F hF
  subst hy
  obtain ⟨hqueue, hthread⟩ := Group.mxDone_spec ({ x with mxq := o1 :: os } : Group) o1 (ho.1 ▸ hold.lanes)
  have hthreads (l : Nat) := hthread l
  rw [ho.1, ho.2] at hthreads
  refine ⟨⟨_, hexec, hleft, hthere, hqueue, fun l => ?_⟩, fun l => ?_⟩ <;> rw [hthreads l] <;> rfl

/-- The same of the oldest operation itself, where it is ready. -/
theorem State.oldestMx_leaves {s : State} {b g : Nat} {h : Home} {x : Group} {o : MxOp} {os : List MxOp} {F : Part → Part}
    (hold : s.OldestMx b g h x o os) (hready : o.ready = true)
    (hF : (s.drawForBlock b).mxPerform h x o = (s.drawForBlock b).updHome h F) :
    s.MxLeaves b g h x o os (F h.part) (x.mxDone o) ∧ x.OnlyCounts (x.mxDone o) := by
  have hx : x = { x with mxq := o :: os } := by rw [← hold.queue]
  exact State.mxLeaves_of hold (execMatrixComplete_ready hold.home hold.group hold.queue hready)
    (State.homeOf_part hold.home) hold.group hx ⟨rfl, rfl⟩ hF

/-! ## Elements and bytes -/

/-- An element of a row of registers as wide as a register is the register. -/
theorem rowElem_word (t : Thread) (a : Opnd) {n e : Nat} (he : e < n) :
    rowElem 32 (t.row (rowFrom a n)) e = (t.reg (a.vNum + e)).toNat := by
  have hlt := (t.reg (a.vNum + e)).isLt
  rw [rowElem, show e / (32 / 32) = e by omega, Thread.row_getD t a n e he, show 32 * (e % (32 / 32)) = 0 by omega, Nat.pow_zero,
    Nat.div_one, Nat.mod_eq_of_lt hlt]

/-- The two byte elements of one register that hold its scales (R279). -/
theorem rowElem_byte (t : Thread) (a : Opnd) {k : Nat} (hk : k < 2) :
    rowElem 8 (t.row (rowFrom a 1)) k = (t.reg a.vNum).toNat / 2 ^ (8 * k) % 2 ^ 8 := by
  have hreg := Thread.row_getD t a 1 0 (by decide)
  rw [rowElem, show k / (32 / 8) = 0 by omega, hreg, Nat.add_zero, show k % (32 / 8) = k by omega]

/-- Byte `i` of register `w` of a row is its elements `8 w + 2 i` and the next, of 4 bits each. -/
theorem rowElem_nibbles (t : Thread) (a : Opnd) {n w i : Nat} (hw : w < n) (hi : i < 4) :
    rowElem 4 (t.row (rowFrom a n)) (2 * (4 * w + i)) + 16 * rowElem 4 (t.row (rowFrom a n)) (2 * (4 * w + i) + 1) =
      (t.reg (a.vNum + w)).toNat / 256 ^ i % 256 := by
  rw [rowElem, rowElem, show 2 * (4 * w + i) / (32 / 4) = w by omega, show (2 * (4 * w + i) + 1) / (32 / 4) = w by omega,
    Thread.row_getD t a n w hw, show 2 * (4 * w + i) % (32 / 4) = 2 * i by omega,
    show (2 * (4 * w + i) + 1) % (32 / 4) = 2 * i + 1 by omega]
  generalize (t.reg (a.vNum + w)).toNat = v
  interval_cases i <;> omega

/-- Bytes that are those of a value read as it. -/
theorem Memory.read_of_bytes {m : Memory} {a n v : Nat} (h : ∀ i, i < n → m.byte (a + i) = BitVec.ofNat 8 (v / 256 ^ i)) :
    m.read a n = v % 256 ^ n := by
  rw [← Memory.read_write_same Memory.empty_wf a n v]
  exact Memory.read_congr fun i hi => (h i hi).trans (Memory.byte_write_in Memory.empty_wf v hi).symm

/-- A copy of bytes that is made where the memory has been cleared. -/
theorem byte_copied {m k : Memory} (hm : m.wf = true) (hk : k.wf = true) (at_ n a : Nat) :
    (copyCells (m.clear at_ n) 0 n at_ k.cells).byte a = if at_ ≤ a ∧ a < at_ + n then k.byte (a - at_) else m.byte a := by
  rw [byte_copyCells a (Memory.clear_wf hm at_ n) hk, Memory.byte_clear hm, Nat.zero_add]
  by_cases hin : at_ ≤ a ∧ a < at_ + n
  · by_cases hzero : readCells k.cells (a - at_) = 0
    · rw [if_neg fun hne => hne.2.2 hzero, if_pos hin, if_pos hin]
      exact hzero.symm
    · rw [if_pos ⟨hin.1, hin.2, hzero⟩, if_pos hin]
      rfl
  · rw [if_neg fun hne => hin ⟨hne.1, hne.2.1⟩, if_neg hin, if_neg hin]

/-- The columns of a slot filled from registers (R271). -/
theorem foldl_columns {m : Memory} (hw : m.wf = true) (slot base : Nat) (val : Nat → Nat → Byte) :
    let r := (List.range 32).foldl (fun m l => (List.range 64).foldl (fun m b =>
      m.setByte (slot * 16384 + 64 * (base + l) + b) (val l b)) m) m
    (∀ l b, l < 32 → b < 64 → r.byte (slot * 16384 + 64 * base + 64 * l + b) = val l b) ∧
      ∀ a, (a < slot * 16384 + 64 * base ∨ slot * 16384 + 64 * base + 64 * 32 ≤ a) → r.byte a = m.byte a := by
  intro r
  have hpairs : r = _ := foldl_nest (γ := Memory) (fun m l b => m.setByte (slot * 16384 + 64 * (base + l) + b) (val l b))
    (List.range 64) (List.range 32) m
  have hmem {x : Nat × Nat} := mem_pairs (ls := List.range 32) (n := 64) (x := x)
  obtain ⟨-, hread, hframe⟩ := foldl_setByte (fun x : Nat × Nat => slot * 16384 + 64 * (base + x.1) + x.2) (fun x => val x.1 x.2) _ m hw
    (pairs_nodup (List.range 32) 64 List.nodup_range) (by
      intro x hx y hy hne haddr
      have hx := hmem.1 hx
      have hy := hmem.1 hy
      exact hne (Prod.ext (by omega) (by omega)))
  rw [hpairs]
  refine ⟨fun l b hl hb => ?_, fun a ha => hframe a fun x hx => ?_⟩
  · have hbyte := hread (l, b) (hmem.2 ⟨List.mem_range.2 hl, hb⟩)
    rwa [show slot * 16384 + 64 * (base + l) + b = slot * 16384 + 64 * base + 64 * l + b by omega] at hbyte
  · have hx := hmem.1 hx
    rw [List.mem_range] at hx
    omega

/-- Elements of a tile from column `col` on written, the same number in each row of an operation's lanes (R278). -/
theorem foldl_rows {acm : Memory} (hw : acm.wf = true) (sector base col n : Nat) (w : Word) (val : Nat → Nat → Nat) :
    let r := (lanesOf w).foldl (fun m l => (List.range n).foldl (fun m e => m.write (acmAt sector base l (col + e)) 4 (val l e)) m) acm
    (∀ l ∈ lanesOf w, ∀ e, e < n → r.read (acmAt sector base l (col + e)) 4 = val l e % 2 ^ 32) ∧
      ∀ a, (∀ l ∈ lanesOf w, ∀ e, e < n → a < acmAt sector base l (col + e) ∨ acmAt sector base l (col + e) + 4 ≤ a) →
        r.byte a = acm.byte a := by
  intro r
  have hpairs : r = _ := foldl_nest (γ := Memory) (fun m l e => m.write (acmAt sector base l (col + e)) 4 (val l e)) (List.range n)
    (lanesOf w) acm
  have hmem {x : Nat × Nat} := mem_pairs (ls := lanesOf w) (n := n) (x := x)
  obtain ⟨-, hread, hframe⟩ := foldl_write (fun x : Nat × Nat => acmAt sector base x.1 (col + x.2)) (fun x _ => val x.1 x.2) 4 _ acm hw
    (pairs_nodup (lanesOf w) n (lanesOf_nodup w)) (by
      intro x hx y hy hne
      refine acmAt_apart (lanesOf_lt (hmem.1 hx).1) (lanesOf_lt (hmem.1 hy).1) fun heq => hne ?_
      obtain ⟨hlane, hcol⟩ := Prod.mk.inj heq
      exact Prod.ext hlane (Nat.add_left_cancel hcol))
  rw [hpairs]
  exact ⟨fun l hl e he => hread (l, e) (hmem.2 ⟨hl, he⟩), fun a ha => hframe a fun x hx => ha x.1 (hmem.1 hx).1 x.2 (hmem.1 hx).2⟩

/-! ## The effect of each operation -/

/-- Element `k` of a lane's row as the operation uses it (R70). -/
def MxOp.used (o : MxOp) (fresh : Nat) (g : Group) (regs : List Nat) (w l k : Nat) : Nat :=
  usedElem fresh l w (o.rows.getD l []) ((g.thread l).row regs) k

/-- Where the row stands as it issued, that is its element. -/
theorem MxOp.used_asIssued {o : MxOp} {fresh : Nat} {g : Group} {regs : List Nat} {w l : Nat}
    (h : o.rows.getD l [] = (g.thread l).row regs) : o.used fresh g regs w l = rowElem w ((g.thread l).row regs) :=
  funext fun k => usedElem_same h k

/-- Byte `b` of a slot column that is filled from the registers of lane `l` (R271). -/
def MxOp.columnByte (o : MxOp) (fresh : Nat) (g : Group) (a : Opnd) (l b : Nat) : Byte :=
  if (lanesOf o.lanes).contains l then
    BitVec.ofNat 8 (o.used fresh g (rowFrom a 16) 4 l (2 * b) + 16 * o.used fresh g (rowFrom a 16) 4 l (2 * b + 1))
  else 0

/-- Scale `k` of lane `l` (R279). -/
def MxOp.scale (o : MxOp) (fresh : Nat) (g : Group) (b : Opnd) (l k : Nat) : Nat :=
  if (lanesOf o.lanes).contains l then o.used fresh g (rowFrom b 1) 8 l k else 127

/-- An element with its scaled partial added (R279). -/
def MxOp.scaled (o : MxOp) (fresh : Nat) (g : Group) (b : Opnd) (part : Nat → Nat → Nat) (i c x : Nat) : Nat :=
  scaccElem x (part i c) (o.scale fresh g b i 0) (o.scale fresh g b c 1)

section
variable {s : State} {h : Home} {g : Group} {o : MxOp} {f : Fields}

theorem State.mxPerform_bld (ho : o.instr = .bld f) : s.mxPerform h g o = s.updHome h fun p => { p with
    bslots := copyCells (p.bslots.clear (o.slots.headD 0 * 16384 + 64 * o.base) (64 * o.src)) 0 (64 * o.src)
      (o.slots.headD 0 * 16384 + 64 * o.base) o.bdata.cells } := by
  simp only [State.mxPerform, ho]

theorem State.mxPerform_bldReg (ho : o.instr = .bldReg f) : s.mxPerform h g o = s.updHome h fun p => { p with
    bslots := (List.range 32).foldl (fun m l => (List.range 64).foldl (fun m b =>
      m.setByte (o.slots.headD 0 * 16384 + 64 * (o.base + l) + b) (o.columnByte s.fresh g f.a l b)) m) p.bslots } := by
  simp only [State.mxPerform, ho]
  rfl

theorem State.mxPerform_mmaq (ho : o.instr = .mmaq f) : s.mxPerform h g o = s.updHome h fun p => { p with
    acm := tileMap p.acm h.sector o.base (lanesOf o.lanes) (mxN f) fun i c x =>
      mxElem f h.run.nbv o.book (o.used s.fresh g (mxRows f) f.ty.width i)
        (p.bslots.read ((4 * h.loc + o.slots.getD (i / 8) 0) * 16384 + 64 * c) 64) x } := by
  simp only [State.mxPerform, ho]
  rfl

theorem State.mxPerform_mmas (ho : o.instr = .mmas f) : s.mxPerform h g o = s.updHome h fun p => { p with
    acm := tileMap p.acm h.sector o.base (lanesOf o.lanes) (mxN f) fun i c x =>
      mxElem f h.run.nbv o.book (o.used s.fresh g (mxRows f) f.ty.width i) (o.bdata.read (64 * c) 64) x } := by
  simp only [State.mxPerform, ho]
  rfl

theorem State.mxPerform_acfree (ho : o.instr = .acfree f) : s.mxPerform h g o = s.updHome h fun p => { p with
    held := p.held.filter fun x => !(x.1 = h.sector && o.base ≤ x.2 && x.2 < o.base + o.src)
    acm := clearGranules p.acm h.sector o.base o.src } := by
  simp only [State.mxPerform, ho]

theorem State.mxPerform_aczero (ho : o.instr = .aczero f) : s.mxPerform h g o = s.updHome h fun p => { p with
    acm := clearGranules p.acm h.sector o.base o.src } := by
  simp only [State.mxPerform, ho]

theorem State.mxPerform_acwr (ho : o.instr = .acwr f) : s.mxPerform h g o = s.updHome h fun p => { p with
    acm := (lanesOf o.lanes).foldl (fun m l => (List.range 8).foldl (fun m e =>
      m.write (acmAt h.sector o.base l (mxCol f + e)) 4 (o.used s.fresh g (rowFrom f.a 8) 32 l e)) m) p.acm } := by
  simp only [State.mxPerform, ho]
  rfl

theorem State.mxPerform_scacc (ho : o.instr = .scacc f) : s.mxPerform h g o = s.updHome h fun p => { p with
    acm := tileMap p.acm h.sector o.base (lanesOf o.lanes) 32
      (o.scaled s.fresh g f.b fun i c => p.acm.read (acmAt h.sector o.src i c) 4) } := by
  simp only [State.mxPerform, ho]
  rfl

theorem State.mxPerform_acrd (ho : o.instr = .acrd f) : s.mxPerform h g o = s.setGroup (.unit h.blk.id h.grp 0)
    ((h.acrdOuts f o).foldl (fun g x => g.updThread x.1 fun t => { t with v := setAt t.v x.2.1 x.2.2 }) g) := by
  simp only [State.mxPerform, ho]

end

/-! ## The clauses -/

/-- MMAQ (R272). -/
theorem mmaq_completes {s : State} {b g : Nat} {h : Home} {x : Group} {o : MxOp} {os : List MxOp} {f : Fields}
    (hh : s.homeOf b g = some h) (hx : s.groupOf (.unit b g 0) = some x) (hq : x.mxq = o :: os) (hready : o.ready = true)
    (ho : o.instr = .mmaq f) (hw : s.memoriesWf = true) (hrows : ∀ l ∈ lanesOf o.lanes, o.rows.getD l [] = (x.thread l).row (mxRows f)) :
    ∃ t p, exec (.matrixComplete b g) s = .next t ∧ ((t.block? b).bind fun y => y.part h.pnum) = some p ∧
      (∀ l ∈ lanesOf o.lanes, ∀ c, c < mxN f →
        p.acm.read (acmAt h.sector o.base l c) 4 =
          mxElem f h.run.nbv o.book (fun k => rowElem f.ty.width ((x.thread l).row (mxRows f)) k)
            (h.part.bslots.read ((4 * h.loc + o.slots.getD (l / 8) 0) * 16384 + 64 * c) 64)
            (h.part.acm.read (acmAt h.sector o.base l c) 4) % 2 ^ 32) ∧
      ∀ a, (∀ l ∈ lanesOf o.lanes, ∀ c, c < mxN f → a < acmAt h.sector o.base l c ∨ acmAt h.sector o.base l c + 4 ≤ a) →
        p.acm.byte a = h.part.acm.byte a := by
  obtain ⟨-, hid, hgrp, -⟩ := State.homeOf_spec hh
  obtain ⟨hpart, -⟩ := State.mxFinish_spec (s := s.drawForBlock b) hid hgrp (State.homeOf_part hh) hx _ (State.mxPerform_mmaq ho)
  obtain ⟨hread, hframe⟩ := tileMap_spec (State.homeOf_canon hw hh).acm h.sector o.base o.lanes (mxN f) _
  refine ⟨_, _, execMatrixComplete_ready hh hx hq hready, hpart, fun l hl c hc => (hread l hl c hc).trans ?_, hframe⟩
  rw [MxOp.used_asIssued (hrows l hl)]

/-- Granules zeroed (R276). -/
theorem byte_clearGranules {m : Memory} (hw : m.wf = true) (sector b n a : Nat) :
    (clearGranules m sector b n).byte a =
      if sector * 2 ^ 19 + b * 4096 ≤ a ∧ a < sector * 2 ^ 19 + b * 4096 + n * 4096 then 0 else m.byte a :=
  Memory.byte_clear hw _ _ _

/-- The scaled accumulation with the scales of two registers (R279). -/
theorem scaccElem_scales (c p u v : Nat) :
    scaccElem c p (bits u 7 0) (bits v 15 8) =
      if bits u 7 0 = 255 ∨ bits v 15 8 = 255 then (fmtOf .f32).nan
      else roundVal (fmtOf .f32) 0 false 0 ((unpack (fmtOf .f32) c).add 0
        (((unpack (fmtOf .f32) p).scale ((bits u 7 0 : Int) - 127)).scale ((bits v 15 8 : Int) - 127))) := by
  simp only [scaccElem, Bool.or_eq_true, decide_eq_true_eq]

/-! ## ACRD (R277) -/

/-- Word `i` that an ACRD packs from a lane's row. -/
def Home.acrdWord (h : Home) (f : Fields) (o : MxOp) (l i : Nat) : Word :=
  BitVec.ofNat 32 ((List.range 8).foldl (fun n e => n + (convert f.ty (Ty.ofCode (BitVec.ofNat 4 (f.immBits 3 0))) f.rnd.toNat f.flag
    (srSteps (o.zs.getD l 0) (e + 1)).toNat (BitVec.ofNat 64 (h.part.acm.read (acmAt h.sector o.base l (mxCol f + e)) 4))).toNat %
      2 ^ f.ty.width * 2 ^ (f.ty.width * e)) 0 / 2 ^ (32 * i))

/-- The words that an ACRD writes: of each lane and destination that is not lost. -/
theorem acrdOuts_eq (h : Home) {f : Fields} (o : MxOp) (hd : f.d ≠ .zero) :
    h.acrdOuts f o = (((lanesOf o.lanes).flatMap fun l => (List.range (acrdRegs f.ty)).map fun i => (l, i)).filter
      fun x => !o.lost.contains (x.1, f.d.vNum + x.2)).map fun x => (x.1, f.d.vNum + x.2, h.acrdWord f o x.1 x.2) := by
  rw [List.filter_flatMap, List.map_flatMap]
  refine List.flatMap_congr fun l _ => ?_
  simp only [acrdDst, if_neg hd, rowFrom, acrdWords, List.zip_map', List.filter_map, List.map_map]
  rfl

theorem acrdOuts_zero (h : Home) {f : Fields} (o : MxOp) (hd : f.d = .zero) : h.acrdOuts f o = [] := by
  simp [Home.acrdOuts, acrdDst, hd]

theorem mem_acrdOuts {h : Home} {f : Fields} {o : MxOp} {e : Nat × Nat × Word} (hd : f.d ≠ .zero) :
    e ∈ h.acrdOuts f o ↔ ∃ i, e.1 ∈ lanesOf o.lanes ∧ i < acrdRegs f.ty ∧ (e.1, f.d.vNum + i) ∉ o.lost ∧
      e.2 = (f.d.vNum + i, h.acrdWord f o e.1 i) := by
  obtain ⟨l, r, w⟩ := e
  simp only [acrdOuts_eq h o hd, List.mem_map, List.mem_filter, mem_pairs, Prod.exists, Bool.not_eq_true', List.contains_eq_mem,
    decide_eq_false_iff_not, Prod.mk.injEq]
  constructor
  · rintro ⟨l', i, ⟨⟨hl, hi⟩, hlost⟩, rfl, rfl, rfl⟩
    exact ⟨i, hl, hi, hlost, rfl, rfl⟩
  · rintro ⟨i, hl, hi, hlost, rfl, rfl⟩
    exact ⟨l, i, ⟨⟨hl, hi⟩, hlost⟩, rfl, rfl, rfl⟩

theorem acrdOuts_nodup (h : Home) {f : Fields} (o : MxOp) (hd : f.d ≠ .zero) :
    ((h.acrdOuts f o).map fun e => (e.1, e.2.1)).Nodup := by
  rw [acrdOuts_eq h o hd, List.map_map]
  refine List.Nodup.map (fun x y hxy => ?_) ((pairs_nodup _ _ (lanesOf_nodup _)).filter _)
  obtain ⟨hlane, hreg⟩ := Prod.mk.inj hxy
  exact Prod.ext hlane (Nat.add_left_cancel hreg)

/-- The group of an ACRD that is done. -/
def Home.acrdGroup (h : Home) (f : Fields) (o : MxOp) (x : Group) : Group :=
  (h.acrdOuts f o).foldl (fun g e => g.updThread e.1 fun t => { t with v := setAt t.v e.2.1 e.2.2 }) x

theorem acrdGroup_spec {h : Home} {f : Fields} {o : MxOp} {x : Group} (hl : ∀ l ∈ lanesOf o.lanes, l < x.threads.length)
    (hv : f.d ≠ .zero → ∀ l ∈ lanesOf o.lanes, f.d.vNum + acrdRegs f.ty ≤ (x.thread l).v.length) :
    (h.acrdGroup f o x).mxq = x.mxq ∧ (h.acrdGroup f o x).threads.length = x.threads.length ∧
      (∀ l, (h.acrdGroup f o x).thread l = { x.thread l with v := ((h.acrdGroup f o x).thread l).v }) ∧
      ∀ l r, ((h.acrdGroup f o x).thread l).reg r =
        if f.d ≠ .zero ∧ l ∈ lanesOf o.lanes ∧ f.d.vNum ≤ r ∧ r < f.d.vNum + acrdRegs f.ty ∧ (l, r) ∉ o.lost then
          h.acrdWord f o l (r - f.d.vNum)
        else (x.thread l).reg r := by
  by_cases hd : f.d = .zero
  · simp [Home.acrdGroup, acrdOuts_zero h o hd, hd]
  · have hmem {e : Nat × Nat × Word} := mem_acrdOuts (h := h) (f := f) (o := o) (e := e) hd
    obtain ⟨hq, hlen, hthread, hin, hout⟩ := acrdOuts_fold (h.acrdOuts f o) x
      (fun e he => by obtain ⟨i, hlane, -⟩ := hmem.1 he; exact hl _ hlane)
      (fun e he => by
        obtain ⟨i, hlane, hi, -, heq⟩ := hmem.1 he
        have hlong := hv hd e.1 hlane
        rw [heq]
        exact Nat.lt_of_lt_of_le (Nat.add_lt_add_left hi _) hlong)
      (acrdOuts_nodup h o hd)
    refine ⟨hq, hlen, hthread, fun l r => ?_⟩
    by_cases hr : f.d ≠ .zero ∧ l ∈ lanesOf o.lanes ∧ f.d.vNum ≤ r ∧ r < f.d.vNum + acrdRegs f.ty ∧ (l, r) ∉ o.lost
    · rw [if_pos hr]
      obtain ⟨-, hlane, hlo, hhi, hlost⟩ := hr
      have hback : f.d.vNum + (r - f.d.vNum) = r := Nat.add_sub_cancel' hlo
      exact hin (l, r, h.acrdWord f o l (r - f.d.vNum))
        (hmem.2 ⟨r - f.d.vNum, hlane, by omega, by rwa [hback], by rw [hback]⟩)
    · rw [if_neg hr]
      refine hout l r fun e he heq => hr ?_
      obtain ⟨i, hlane, hi, hlost, hval⟩ := hmem.1 he
      obtain ⟨rfl, rfl⟩ := Prod.mk.inj heq
      rw [hval]
      exact ⟨hd, hlane, Nat.le_add_right _ _, Nat.add_lt_add_left hi _, hlost⟩

/-- ACRD done: its registers are written, and the part stands. -/
theorem acrd_completes {s : State} {b g : Nat} {h : Home} {x : Group} {o : MxOp} {os : List MxOp} {f : Fields}
    (hold : s.OldestMx b g h x o os) (ho : o.instr = .acrd f) (hready : o.ready = true)
    (hv : f.d ≠ .zero → ∀ l ∈ lanesOf o.lanes, f.d.vNum + acrdRegs f.ty ≤ (x.thread l).v.length) :
    ∃ y, s.MxLeaves b g h x o os h.part y ∧ (∀ l, y.thread l = { x.thread l with mx := (y.thread l).mx, v := (y.thread l).v }) ∧
      ∀ l r, (y.thread l).reg r = ((h.acrdGroup f o x).thread l).reg r := by
  obtain ⟨-, hid, hgrp, -⟩ := State.homeOf_spec hold.home
  obtain ⟨hq, hlen, hthread, -⟩ := acrdGroup_spec (h := h) hold.lanes hv
  obtain ⟨hqueue, hcounts⟩ := Group.mxDone_spec (h.acrdGroup f o x) o (fun l hl => by rw [hlen]; exact hold.lanes l hl)
  have hexec := execMatrixComplete_ready hold.home hold.group hold.queue hready
  have hset := State.groupOf_setGroup (h.acrdGroup f o x) (s := s.drawForBlock b) (i := .unit b g 0) hold.group
  obtain ⟨hgroup, hparts⟩ := State.mxDone_spec o hset
    (((s.drawForBlock b).setGroup (.unit b g 0) (h.acrdGroup f o x)).updGroup (.unit b g 0) fun g => g.mxDone o).fresh.succ
  have hfinish : (s.drawForBlock b).mxFinish h o =
      { ((s.drawForBlock b).setGroup (.unit b g 0) (h.acrdGroup f o x)).updGroup (.unit b g 0) (fun g => g.mxDone o) with
        fresh := (((s.drawForBlock b).setGroup (.unit b g 0) (h.acrdGroup f o x)).updGroup (.unit b g 0) fun g => g.mxDone o).fresh + 1 } := by
    have hthere : (s.drawForBlock b).groupOf (.unit b g 0) = some x := hold.group
    unfold State.mxFinish
    rw [hid, hgrp, hthere]
    dsimp only
    rw [State.mxPerform_acrd ho, hid, hgrp]
    rfl
  refine ⟨_, ⟨_, hexec, ?_, hfinish ▸ hgroup, by rw [hqueue, hq, hold.queue]; rfl, fun l => ?_⟩, fun l => ?_, fun l r => ?_⟩
  · rw [hfinish]
    exact (hparts.part b h.pnum).trans (((State.setGroup_sameParts _ _ _).part b h.pnum).trans (State.homeOf_part hold.home))
  · rw [hcounts, hthread]
  · rw [hcounts, hthread]
  · rw [hcounts]
    rfl

/-! ## The columns of an MMAS (R273) -/

/-- The groups of a block whose oldest operation meets in a rendezvous, each with it. -/
def Block.meeting (z : Block) (m : Nat) : List (Nat × MxOp) :=
  z.groups.zipIdx.filterMap fun x =>
    match x.1.mxq.head? with
    | some q => if q.meet = m then some (x.2, q) else none
    | none => none

theorem Block.mem_meeting {z : Block} {m j : Nat} {e : MxOp} :
    (j, e) ∈ z.meeting m ↔ ∃ x, z.groups[j]? = some x ∧ x.mxq.head? = some e ∧ e.meet = m := by
  simp only [Block.meeting, List.mem_filterMap, Prod.exists, List.mem_zipIdx_iff_getElem?]
  constructor
  · rintro ⟨x, i, hx, hmatch⟩
    cases hq : x.mxq.head? with
    | none => simp [hq] at hmatch
    | some q =>
      simp only [hq, Option.ite_none_right_eq_some, Option.some.injEq, Prod.mk.injEq] at hmatch
      obtain ⟨hmeet, rfl, rfl⟩ := hmatch
      exact ⟨x, hx, hq, hmeet⟩
  · rintro ⟨x, hx, hq, hmeet⟩
    exact ⟨x, j, hx, by simp [hq, hmeet]⟩

/-- The columns that an MMAS broadcasts: `n` of each slot, a quarter for each partition. -/
def Home.columns (h : Home) (m n : Nat) : Memory :=
  (h.blk.meeting m).foldl (fun k x => copyCells k ((4 * h.blk.partitionOf x.1 + x.2.slots.headD 0) * 16384) (64 * n)
    (64 * n * (h.blk.partitionOf x.1 % 4)) h.part.bslots.cells) Memory.empty

/-- An operation that has its columns, in a group. -/
def Group.readMmas (m : Nat) (cols : Memory) (g : Group) : Group :=
  { g with mxq := g.mxq.map fun q => if q.meet = m then { q with bdata := cols, ready := true } else q }

theorem Group.readMmas_twice (m : Nat) (cols : Memory) (g : Group) : (g.readMmas m cols).readMmas m cols = g.readMmas m cols := by
  simp only [Group.readMmas, List.map_map]
  refine congrArg (fun q => ({ g with mxq := q } : Group)) (List.map_congr_left fun q _ => ?_)
  by_cases hq : q.meet = m <;> simp [hq]

/-- Of the queued operations only the oldest meets. -/
theorem Group.readMmas_oldest {x : Group} {o : MxOp} {os : List MxOp} (cols : Memory) (hq : x.mxq = o :: os)
    (hother : ∀ e ∈ os, e.meet ≠ o.meet) :
    x.readMmas o.meet cols = { x with mxq := { o with bdata := cols, ready := true } :: os } := by
  have hrest : os.map (fun q => if q.meet = o.meet then { q with bdata := cols, ready := true } else q) = os :=
    (List.map_congr_left fun q hq => if_neg (hother q hq)).trans (List.map_id _)
  rw [Group.readMmas, hq, List.map_cons, if_pos rfl, hrest]

/-- The slots read, where all four groups of the rendezvous have reached it. -/
theorem State.mmasRead_eq {s : State} {h : Home} {o : MxOp} {f : Fields} (ho : o.instr = .mmas f)
    (hfour : 4 ≤ (h.blk.meeting o.meet).length) :
    s.mmasRead h o = some ((h.blk.meeting o.meet).foldl (fun s x => s.updGroup (.unit h.blk.id x.1 0)
      (Group.readMmas o.meet (h.columns o.meet (mxN f / 4)))) s) := by
  have hfields : o.mmasFields = some f := by simp only [MxOp.mmasFields, ho]
  unfold State.mmasRead
  rw [hfields]
  exact if_neg (Nat.not_lt.2 hfour)

/-- The four groups that meet in an MMAS, one in each partition of the sector, each with its oldest operation. -/
structure Home.Meets (h : Home) (m : Nat) (k : Nat → Nat) (q : Nat → MxOp) : Prop where
  four : ∀ i, i < 4 → h.blk.partitionOf (k i) = 4 * h.sector + i ∧
    ((h.blk.groups[k i]?).bind fun z => z.mxq.head?) = some (q i) ∧ (q i).meet = m
  only : ∀ j z e, h.blk.groups[j]? = some z → z.mxq.head? = some e → e.meet = m → ∃ i, i < 4 ∧ j = k i

section
variable {h : Home} {m : Nat} {k : Nat → Nat} {q : Nat → MxOp}

theorem Home.Meets.mem (hm : h.Meets m k q) {i : Nat} (hi : i < 4) : (k i, q i) ∈ h.blk.meeting m := by
  obtain ⟨-, hhead, hmeet⟩ := hm.four i hi
  obtain ⟨z, hz, hhead⟩ := Option.bind_eq_some_iff.1 hhead
  exact Block.mem_meeting.2 ⟨z, hz, hhead, hmeet⟩

theorem Home.Meets.eq_of_mem (hm : h.Meets m k q) {y : Nat × MxOp} (hy : y ∈ h.blk.meeting m) : ∃ i, i < 4 ∧ y = (k i, q i) := by
  obtain ⟨z, hz, hhead, hmeet⟩ := Block.mem_meeting.1 hy
  obtain ⟨i, hi, hk⟩ := hm.only y.1 z y.2 hz hhead hmeet
  obtain ⟨-, hq, -⟩ := hm.four i hi
  rw [← hk, hz, Option.bind_some, hhead] at hq
  exact ⟨i, hi, Prod.ext hk (Option.some.inj hq)⟩

theorem Home.Meets.length (hm : h.Meets m k q) : 4 ≤ (h.blk.meeting m).length := by
  have hnodup : ((List.range 4).map fun i => (k i, q i)).Nodup := by
    refine List.Nodup.map_on (fun i hi j hj hij => ?_) List.nodup_range
    obtain ⟨hparti, -⟩ := hm.four i (List.mem_range.1 hi)
    obtain ⟨hpartj, -⟩ := hm.four j (List.mem_range.1 hj)
    have hk : k i = k j := congrArg Prod.fst hij
    rw [hk] at hparti
    omega
  have hsub : ((List.range 4).map fun i => (k i, q i)) ⊆ h.blk.meeting m := by
    intro y hy
    obtain ⟨i, hi, rfl⟩ := List.mem_map.1 hy
    exact hm.mem (List.mem_range.1 hi)
  simpa using (hnodup.subperm hsub).length_le

/-- A column of the broadcast is that of its quarter's slot. -/
theorem Home.Meets.read_columns (hm : h.Meets m k q) (hw : h.part.bslots.wf = true) {n c : Nat} (hc : c < 4 * n) :
    (h.columns m n).read (64 * c) 64 =
      h.part.bslots.read ((4 * (4 * h.sector + c / n) + (q (c / n)).slots.headD 0) * 16384 + 64 * (c % n)) 64 := by
  have hn : 0 < n := by omega
  have hquarter : c / n < 4 := Nat.div_lt_of_lt_mul (by omega)
  have hsplit : n * (c / n) + c % n = c := Nat.div_add_mod c n
  have hcol : c % n < n := Nat.mod_lt c hn
  refine Memory.read_congr fun j hj => ?_
  have hplace {i : Nat} (hi : i < 4) : h.blk.partitionOf (k i) % 4 = i := by
    obtain ⟨hpart, -⟩ := hm.four i hi
    omega
  refine columns_fold h.part.bslots.cells hw n h.blk.partitionOf (64 * c + j) (c / n) _ hn _ Memory.empty Memory.empty_wf ?_ ?_ (.inl rfl)
    (.inr ⟨_, hm.mem hquarter, hplace hquarter⟩)
  · intro y hy hi
    obtain ⟨i, hi4, rfl⟩ := hm.eq_of_mem hy
    rw [hplace hi4] at hi
    obtain ⟨hpart, -⟩ := hm.four i hi4
    subst hi
    rw [hpart]
    have hmul : 64 * n * (c / n) = 64 * (n * (c / n)) := Nat.mul_assoc ..
    refine ⟨by omega, by omega, ?_⟩
    rw [show 64 * c + j - 64 * n * (c / n) = 64 * (c % n) + j by omega, ← Nat.add_assoc]
    rfl
  · intro y hy hi
    obtain ⟨i, hi4, rfl⟩ := hm.eq_of_mem hy
    rw [hplace hi4] at hi ⊢
    rcases Nat.lt_or_gt_of_ne hi with hlt | hgt
    · have hmul : 64 * n * (i + 1) ≤ 64 * n * (c / n) := Nat.mul_le_mul_left _ hlt
      have hassoc : 64 * n * (c / n) = 64 * (n * (c / n)) := Nat.mul_assoc ..
      rw [Nat.mul_succ] at hmul
      omega
    · have hmul : 64 * n * (c / n + 1) ≤ 64 * n * i := Nat.mul_le_mul_left _ hgt
      have hassoc : 64 * n * (c / n) = 64 * (n * (c / n)) := Nat.mul_assoc ..
      rw [Nat.mul_succ] at hmul
      omega

end

/-- What the first of the four groups of an MMAS to complete leaves: its operation ends as one that has its columns. -/
theorem mmasFirst_leaves {s : State} {b g : Nat} {h : Home} {x : Group} {o : MxOp} {os : List MxOp} {f : Fields} {k : Nat → Nat}
    {q : Nat → MxOp} (hold : s.OldestMx b g h x o os) (ho : o.instr = .mmas f) (hready : o.ready = false)
    (hother : ∀ e ∈ os, e.meet ≠ o.meet) (hm : h.Meets o.meet k q) :
    ∃ y : Group, ∃ fresh, s.MxLeaves b g h x o os { h.part with
        acm := tileMap h.part.acm h.sector o.base (lanesOf o.lanes) (mxN f) fun i c e =>
          mxElem f h.run.nbv o.book (o.used fresh x (mxRows f) f.ty.width i) ((h.columns o.meet (mxN f / 4)).read (64 * c) 64) e } y ∧
      x.OnlyCounts y := by
  obtain ⟨-, hid, -, -⟩ := State.homeOf_spec hold.home
  have hread := State.mmasRead_eq (s := s.drawForBlock b) ho hm.length
  have hgroup0 : (s.drawForBlock b).groupOf (.unit b g 0) = some x := hold.group
  obtain ⟨hparts, hgroup⟩ := mates_fold b g (Group.readMmas o.meet (h.columns o.meet (mxN f / 4))) (Group.readMmas_twice _ _)
    (h.blk.meeting o.meet) (s.drawForBlock b) x hgroup0
  obtain ⟨hblk, -, -⟩ := State.homeOf_spec hold.home
  have hself : g ∈ (h.blk.meeting o.meet).map (·.1) := by
    have hthere : h.blk.groups[g]? = some x := by
      have hx := hold.group
      rw [State.groupOf, hblk] at hx
      exact hx
    exact List.mem_map.2 ⟨(g, o), Block.mem_meeting.2 ⟨x, hthere, by rw [hold.queue]; rfl, rfl⟩, rfl⟩
  rw [if_pos hself, Group.readMmas_oldest _ hold.queue hother] at hgroup
  rw [hid] at hread
  have hexec := execMatrixComplete_meets hold.home hold.group hold.queue hready hread hgroup rfl
  have hpart := (hparts.part b h.pnum).trans (State.homeOf_part hold.home)
  obtain ⟨hleaves, hcounts⟩ := State.mxLeaves_of hold hexec hpart hgroup rfl ⟨rfl, rfl⟩ (State.mxPerform_mmas ho)
  exact ⟨_, _, hleaves, hcounts⟩

/-! ## The obligation -/

/-- A register's bytes in a slot column filled from registers. -/
theorem columnByte_eq {x : Group} {o : MxOp} {fresh : Nat} {a : Opnd} (hrows : ∀ l ∈ lanesOf o.lanes,
    o.rows.getD l [] = (x.thread l).row (rowFrom a 16)) {l w i : Nat} (hw : w < 16) (hi : i < 4) :
    o.columnByte fresh x a l (4 * w + i) =
      BitVec.ofNat 8 ((if l ∈ lanesOf o.lanes then ((x.thread l).reg (a.vNum + w)).toNat else 0) / 256 ^ i) := by
  by_cases hl : l ∈ lanesOf o.lanes
  · rw [MxOp.columnByte, if_pos (List.contains_iff_mem.2 hl), if_pos hl, MxOp.used_asIssued (hrows l hl), rowElem_nibbles _ _ hw hi]
    exact BitVec.eq_of_toNat_eq (by simp)
  · rw [MxOp.columnByte, if_neg (fun h => hl (List.contains_iff_mem.1 h)), if_neg hl, Nat.zero_div]
    rfl

/-- A scale that an operation uses is the byte of its register, and 127 for a lane without a thread. -/
theorem scale_eq {x : Group} {o : MxOp} {fresh : Nat} {b : Opnd} (hrows : ∀ l ∈ lanesOf o.lanes,
    o.rows.getD l [] = (x.thread l).row (rowFrom b 1)) {l k : Nat} (hk : k < 2) :
    o.scale fresh x b l k =
      bits (if l ∈ lanesOf o.lanes then ((x.thread l).reg b.vNum).toNat else 0x7F7F) (8 * k + 7) (8 * k) := by
  by_cases hl : l ∈ lanesOf o.lanes
  · rw [MxOp.scale, if_pos (List.contains_iff_mem.2 hl), if_pos hl, MxOp.used_asIssued (hrows l hl), rowElem_byte _ _ hk, bits,
      show 8 * k + 7 + 1 - 8 * k = 8 by omega]
  · rw [MxOp.scale, if_neg (fun h => hl (List.contains_iff_mem.1 h)), if_neg hl]
    interval_cases k <;> decide

/-- Settles O41: every operation but ACRD changes its home's part, and the laws of tiles, copies and clears say what that leaves. -/
theorem matrixProductsUpdateTheTile : Obligations.MatrixProductsUpdateTheTile := by
  unfold Obligations.MatrixProductsUpdateTheTile
  refine ⟨fun f s b g h x o os hh hx hq hready ho hw hrows => mmaq_completes hh hx hq hready ho hw hrows, ?_⟩
  intro s b g h x o os hold lanes leaves slot asIssued at_ old
  have hcanon := State.homeOf_canon hold.memories hold.home
  refine ⟨?bld, ?bldReg, ?mmas, ?mmasFirst, ?granules, ?acwr, ?scacc, ?acrd⟩
  case bld =>
    intro f ho hready
    obtain ⟨hleaves, hcounts⟩ := State.oldestMx_leaves hold hready (State.mxPerform_bld ho)
    refine ⟨_, _, hleaves, rfl, hcounts, fun k hk => ?_, fun a ha => ?_⟩ <;> dsimp only <;>
      rw [byte_copied hcanon.bslots hold.columns]
    · rw [if_pos ⟨by omega, by omega⟩]
      exact congrArg _ (by omega)
    · exact if_neg (by omega)
  case bldReg =>
    intro f ho hready hrows
    obtain ⟨hleaves, hcounts⟩ := State.oldestMx_leaves hold hready (State.mxPerform_bldReg ho)
    obtain ⟨hbyte, hframe⟩ := foldl_columns hcanon.bslots (o.slots.headD 0) o.base (o.columnByte (s.drawForBlock b).fresh x f.a)
    refine ⟨_, _, hleaves, rfl, hcounts, fun l w hl hw => ?_, hframe⟩
    have hread := Memory.read_of_bytes (n := 4) (v := if l ∈ lanes then ((x.thread l).reg (f.a.vNum + w)).toNat else 0) fun i hi =>
      ((congrArg _ (Nat.add_assoc _ _ _)).trans (hbyte l (4 * w + i) hl (by omega))).trans (columnByte_eq hrows hw hi)
    refine hread.trans (Nat.mod_eq_of_lt ?_)
    split
    · exact ((x.thread l).reg (f.a.vNum + w)).isLt
    · decide
  case mmas =>
    intro f ho hready hrows
    obtain ⟨hleaves, hcounts⟩ := State.oldestMx_leaves hold hready (State.mxPerform_mmas ho)
    obtain ⟨hread, hframe⟩ := tileMap_spec hcanon.acm h.sector o.base o.lanes (mxN f) _
    refine ⟨_, _, hleaves, rfl, hcounts, fun l hl c hc => (hread l hl c hc).trans ?_, hframe⟩
    rw [MxOp.used_asIssued (hrows l hl)]
  case mmasFirst =>
    intro f k q ho hready hrows hdiv _ hother hfour honly quarter
    have hm : h.Meets o.meet k q := ⟨hfour, honly⟩
    obtain ⟨y, fresh, hleaves, hcounts⟩ := mmasFirst_leaves hold ho hready hother hm
    obtain ⟨hread, hframe⟩ := tileMap_spec hcanon.acm h.sector o.base o.lanes (mxN f) _
    refine ⟨_, y, hleaves, rfl, hcounts, fun l hl c hc => (hread l hl c hc).trans ?_, hframe⟩
    rw [MxOp.used_asIssued (hrows l hl), hm.read_columns hcanon.bslots (by omega)]
  case granules =>
    intro f ho hready
    rcases ho with ho | ho
    · obtain ⟨hleaves, hcounts⟩ := State.oldestMx_leaves hold hready (State.mxPerform_aczero ho)
      refine ⟨_, _, hleaves, rfl, hcounts, fun a => byte_clearGranules hcanon.acm _ _ _ a, fun _ => rfl, fun hfree => ?_⟩
      cases ho.symm.trans hfree
    · obtain ⟨hleaves, hcounts⟩ := State.oldestMx_leaves hold hready (State.mxPerform_acfree ho)
      refine ⟨_, _, hleaves, rfl, hcounts, fun a => byte_clearGranules hcanon.acm _ _ _ a, fun hzero => ?_, fun _ e => ?_⟩
      · cases ho.symm.trans hzero
      · simp only [List.mem_filter, Bool.not_eq_true', Bool.and_eq_false_iff, decide_eq_false_iff_not, not_and_or, or_assoc]
  case acwr =>
    intro f ho hready hrows
    obtain ⟨hleaves, hcounts⟩ := State.oldestMx_leaves hold hready (State.mxPerform_acwr ho)
    obtain ⟨hread, hframe⟩ := foldl_rows hcanon.acm h.sector o.base (mxCol f) 8 o.lanes _
    refine ⟨_, _, hleaves, rfl, hcounts, fun l hl e he => (hread l hl e he).trans ?_, hframe⟩
    rw [MxOp.used_asIssued (hrows l hl), rowElem_word _ _ he]
    exact Nat.mod_eq_of_lt ((x.thread l).reg (f.a.vNum + e)).isLt
  case scacc =>
    intro f ho hready hrows scales
    obtain ⟨hleaves, hcounts⟩ := State.oldestMx_leaves hold hready (State.mxPerform_scacc ho)
    obtain ⟨hread, hframe⟩ := tileMap_spec hcanon.acm h.sector o.base o.lanes 32
      (o.scaled (s.drawForBlock b).fresh x f.b fun i c => h.part.acm.read (acmAt h.sector o.src i c) 4)
    refine ⟨_, _, hleaves, rfl, hcounts, fun l hl c hc => ?_, hframe⟩
    rw [hread l hl c hc, MxOp.scaled, scale_eq hrows (by decide), scale_eq hrows (by decide)]
    exact congrArg (· % 2 ^ 32) (scaccElem_scales _ _ (scales l) (scales c))
  case acrd =>
    intro f ho hready hlong element packed
    obtain ⟨y, hleaves, hthread, hreg⟩ := acrd_completes hold ho hready hlong
    obtain ⟨-, -, -, hwritten⟩ := acrdGroup_spec (h := h) hold.lanes hlong
    have hword (l i : Nat) : h.acrdWord f o l i = BitVec.ofNat 32 (packed l / 2 ^ (32 * i)) := rfl
    refine ⟨_, y, hleaves, rfl, hthread, fun l r => ?_⟩
    rw [hreg, hwritten, hword]

end Sys2Proof.Machine
end

section
/-!
# Engine commands at issue (O32)

An issue accepts the commands of its actors one after the other. What an acceptance does to the state is blind to the issuer's group
(`State.accepted`), and what it does to the group is lane-local (`Group.giveHandle`), so the two go apart: the states are folded by
`accepts_spec`, the group by the lemma that all forms of the memory pipe share (`commit_mem`).
-/

namespace Sys2Proof.Machine

open Sys2Proof

/-! ## Registers that are read -/

theorem Thread.pendIn_append {t : Thread} {a b : List Nat} (ha : t.pendIn a = []) (hb : t.pendIn b = []) : t.pendIn (a ++ b) = [] := by
  simp only [Thread.pendIn, List.filter_eq_nil_iff, Bool.or_eq_true, List.contains_iff_mem, List.mem_append] at ha hb ⊢
  rintro q hq ((hreg | hreg) | hreg | hreg)
  · exact ha q hq (.inl hreg)
  · exact hb q hq (.inl hreg)
  · exact ha q hq (.inr hreg)
  · exact hb q hq (.inr hreg)

theorem State.poisonTrap_append {s : State} {l : Nat} {a b : List Nat} (ha : s.poisonTrap l a = []) (hb : s.poisonTrap l b = []) :
    s.poisonTrap l (a ++ b) = [] := by
  unfold State.poisonTrap at ha hb ⊢
  by_cases hnone : s.rel.poison.isEmpty = true
  · simp only [hnone, if_true]
  · cases hhome : s.homeOfCur with
    | none => simp
    | some p =>
      simp only [hnone, hhome, Bool.false_eq_true, if_false, Option.toList_eq_nil_iff, Option.map_eq_none_iff] at ha hb ⊢
      rw [List.find?_append, ha, hb]
      rfl

theorem Thread.waitsFor_nil {t : Thread} {regs : List Nat} (h : t.pendIn regs = []) : t.waitsFor regs = [] := by
  simp [Thread.waitsFor, h]

theorem Thread.handleTrap_nil {t : Thread} {l : Nat} {regs : List Nat} (h : t.pendIn regs = []) : t.handleTrap l regs = [] := by
  simp [Thread.handleTrap, h]

/-- A command without a record has no coordinates. -/
theorem recordDims_nil : recordDims [] = 0 := by decide

theorem coordRegs_zero (o : Opnd) : coordRegs o 0 = [] := by
  cases o <;> rfl

/-! ## The checks (R247) -/

theorem Ctx.engineAgents_eq (c : Ctx) (f : Fields) : c.engineAgents f = c.agents f := by
  unfold Ctx.engineAgents Ctx.agents Ctx.actors Ctx.takers
  by_cases hS : f.namesS = true
  · by_cases hon : (c.rd.thread c.lowLane).guard f = true <;> simp [hS, hon]
  · simp [hS]

/-- Every check of an issue passes for every command. -/
structure State.Accepts (s : State) (c : Ctx) (op : Nat) (f : Fields) (e : EngForm) (record : Nat → List Byte) : Prop where
  run : s.CanRun c op f
  sole : s.redundant = false
  ok : ∀ l ∈ c.doers f, s.IssueOk c f e l (record l)
  room : s.tceLoad s.coreOfCur + (c.doers f).length ≤ 64

/-- The records that an issue reads: of every actor that is no helper. -/
def State.engineRecs (s : State) (f : Fields) (e : EngForm) (c : Ctx) : List (Nat × List Byte × List Trap) :=
  ((c.agents f).filter fun a => !(c.rd.thread a.1).helper).map fun a => (a.1, if e.hasRec then s.readRecord f a.1 else ([], []))

/-- The record of a lane among those. -/
def recordIn (recs : List (Nat × List Byte × List Trap)) (l : Nat) : List Byte :=
  ((recs.find? fun r => r.1 = l).map fun r => r.2.1).getD []

/-- The registers that the command of a lane reads. -/
def State.engineRegs (s : State) (op : Nat) (f : Fields) (e : EngForm) (c : Ctx) (l : Nat) : List Nat :=
  readRegs op f ++ coordRegs (e.coord f) (recordDims (recordIn (s.engineRecs f e c) l))

/-- The traps that the checks of an issue find. -/
def State.engineTraps (s : State) (op : Nat) (f : Fields) (e : EngForm) (c : Ctx) : List Trap :=
  (s.engineRecs f e c).flatMap fun r => s.enginePass op f e c r.1 r.2 ++ s.engineReads c r.1 (s.engineRegs op f e c r.1)

/-- The commands that an actor waits for. -/
def State.engineWaits (s : State) (op : Nat) (f : Fields) (e : EngForm) (c : Ctx) (l : Nat) : List Nat :=
  if (c.agents f).any fun a => a.1 = l then (c.rd.thread l).waitsFor (s.engineRegs op f e c l) else []

theorem State.engineIssue_eq {s : State} {c : Ctx} (hc : s.ctx? = some c) (op : Nat) (f : Fields) (e : EngForm) :
    s.engineIssue op f e = s.finish (
      if f.namesS then
        guardGroup c (s.engineTraps op f e c) <|
          if (c.agents f).any fun a => !(s.engineWaits op f e c a.1).isEmpty then
            .ok (s.parkUnit c ((c.agents f).flatMap fun a => s.engineWaits op f e c a.1))
          else s.engineAccept f e (recordIn (s.engineRecs f e c)) c (c.agents f)
      else
        guardTraps (s.engineTraps op f e c) <|
          s.withoutWaiting c (s.engineWaits op f e c) fun t d =>
            t.engineAccept f e (recordIn (s.engineRecs f e c)) d ((c.agents f).filter fun a => d.lanes.contains a.1)) := by
  simp only [State.engineIssue, hc, Ctx.engineAgents_eq]
  rfl

section
variable {s : State} {c : Ctx} {op : Nat} {f : Fields} {e : EngForm} {record : Nat → List Byte}

theorem State.Accepts.recs (h : s.Accepts c op f e record) : s.engineRecs f e c = (c.doers f).map fun l => (l, record l, []) := by
  rw [State.engineRecs, Ctx.agents, List.filter_map, List.map_map]
  refine List.map_congr_left fun l hl => Prod.ext rfl ?_
  have hok := h.ok l hl
  cases hrec : e.hasRec with
  | true => exact hok.rec_ hrec
  | false =>
    show ([], []) = (record l, [])
    rw [hok.none_ hrec]

theorem State.Accepts.recordIn_doer (h : s.Accepts c op f e record) {l : Nat} (hl : l ∈ c.doers f) :
    recordIn (s.engineRecs f e c) l = record l := by
  rw [recordIn, h.recs, find_map_lane (c.doers f) (fun l => (record l, ([] : List Trap))) l hl]
  rfl

/-- A helper has no record. -/
theorem State.Accepts.recordIn_other (h : s.Accepts c op f e record) {l : Nat} (hl : l ∉ c.doers f) :
    recordIn (s.engineRecs f e c) l = [] := by
  have hnone : (s.engineRecs f e c).find? (fun r => r.1 = l) = none := by
    rw [h.recs, List.find?_eq_none]
    rintro r hr heq
    obtain ⟨k, hk, rfl⟩ := List.mem_map.1 hr
    exact hl (of_decide_eq_true heq ▸ hk)
  rw [recordIn, hnone]
  rfl

/-- No actor waits, its coordinate registers among what it reads. -/
theorem State.Accepts.pend (h : s.Accepts c op f e record) {l : Nat} (hl : l ∈ c.actors f) :
    (c.rd.thread l).pendIn (s.engineRegs op f e c l) = [] := by
  refine Thread.pendIn_append (h.run.pend l hl) ?_
  by_cases hdoes : l ∈ c.doers f
  · rw [h.recordIn_doer hdoes]
    exact (h.ok l hdoes).pend
  · rw [h.recordIn_other hdoes, recordDims_nil, coordRegs_zero]
    simp [Thread.pendIn]

theorem State.Accepts.passes (h : s.Accepts c op f e record) {l : Nat} (hl : l ∈ c.doers f) :
    s.enginePass op f e c l (record l, []) = [] := by
  have hok := h.ok l hl
  have hwindow : coordTrap (e.coord f) (recordDims (record l)) s.window l = [] := hok.window
  simp only [State.enginePass, hwindow, List.nil_append, List.map_nil, List.append_nil, List.flatMap_eq_nil_iff]
  intro b hb
  split at hb
  · obtain ⟨⟨p, hp⟩, -⟩ := hok.bars b hb
    simp [hp, placed]
  · cases hb

theorem State.Accepts.reads (h : s.Accepts c op f e record) {l : Nat} (hl : l ∈ c.doers f) :
    s.engineReads c l (s.engineRegs op f e c l) = [] := by
  have hactor := (List.mem_filter.1 hl).1
  have hsound : s.poisonTrap l (s.engineRegs op f e c l) = [] := by
    rw [State.engineRegs, h.recordIn_doer hl]
    exact State.poisonTrap_append (h.run.sound l hactor) (h.ok l hl).sound
  rw [State.engineReads, Thread.handleTrap_nil (h.pend hactor), hsound]
  rfl

theorem State.Accepts.noTraps (h : s.Accepts c op f e record) : s.engineTraps op f e c = [] := by
  rw [State.engineTraps, h.recs, List.flatMap_map, List.flatMap_eq_nil_iff]
  intro l hl
  rw [h.passes hl, h.reads hl]
  rfl

theorem State.Accepts.noWaits (h : s.Accepts c op f e record) (l : Nat) : s.engineWaits op f e c l = [] := by
  unfold State.engineWaits
  split
  · rename_i hany
    obtain ⟨a, ha, heq⟩ := List.any_eq_true.1 hany
    exact Thread.waitsFor_nil (h.pend (of_decide_eq_true heq ▸ (mem_agents ha).1))
  · rfl

/-- An issue whose checks pass reaches the acceptance of its commands. -/
theorem engineIssue_run (h : s.Accepts c op f e record) :
    s.engineIssue op f e = s.finish (s.engineAccept f e (recordIn (s.engineRecs f e c)) c (c.agents f)) := by
  rw [State.engineIssue_eq h.run.ctx, h.noTraps]
  by_cases hS : f.namesS = true
  · rw [if_pos hS, guardGroup_whole (h.run.whole hS).2, guardTraps_nil, if_neg]
    simp [h.noWaits]
  · have hall : (c.agents f).filter (fun a => c.lanes.contains a.1) = c.agents f :=
      List.filter_eq_self.2 fun a ha => List.contains_iff_mem.2 (h.run.actors_lanes (mem_agents ha).1)
    have hstay : c.lanes.filter (fun l => (s.engineWaits op f e c l).isEmpty) = c.lanes :=
      List.filter_eq_self.2 fun l _ => by rw [h.noWaits l]; rfl
    rw [if_neg hS, guardTraps_nil, State.withoutWaiting, hstay]
    simp only [if_true, hall]

end

/-! ## The commands (R247, R263) -/

/-- The sequence number that a command takes (R263), from the context blocks, with the context blocks after it. -/
def sequenced (ctxs : List CtxBlock) (dev : Nat) (q : Cmd) : Cmd × List CtxBlock :=
  if q.kind ≠ .coll then (q, ctxs)
  else
    match ctxs[q.ctx]? with
    | none => (q, ctxs)
    | some x =>
      match x.entryFor q.shape.group with
      | none => ({ q with entry := 32 }, ctxs)
      | some e =>
        let seq := (x.groups.getD e ⟨false, false, 0, 0, 0, 0, 0⟩).next
        let mine := x.inbox.filter fun f => f.gid = q.shape.group && f.seq = seq
        ({ q with entry := e, seq, hashes := (dev, q.shape.hash) :: mine.map (fun f => (f.dev, f.hash))
                  tiles := (mine.filter fun f => !f.tile.isEmpty).map fun f => (f.dev, f.tile) },
          updAt ctxs q.ctx fun x => { x with
            inbox := x.inbox.filter fun f => !(f.gid = q.shape.group && f.seq = seq)
            groups := updAt x.groups e fun g => { g with next := g.next + 1 } })

theorem State.takeSequence_eq (s : State) (q : Cmd) :
    s.takeSequence q = ((sequenced s.ctxs s.fabric.devnum.toNat q).1, { s with ctxs := (sequenced s.ctxs s.fabric.devnum.toNat q).2 }) := by
  unfold State.takeSequence sequenced
  split
  · rfl
  · cases s.ctxs[q.ctx]? with
    | none => rfl
    | some x =>
      dsimp only
      cases x.entryFor q.shape.group <;> rfl

/-- A command but for what its sequence number gives it. -/
def Cmd.SameBut (q r : Cmd) : Prop := r = { q with entry := r.entry, seq := r.seq, hashes := r.hashes, tiles := r.tiles }

theorem sequenced_same (ctxs : List CtxBlock) (dev : Nat) (q : Cmd) : q.SameBut (sequenced ctxs dev q).1 := by
  unfold sequenced
  split
  · rfl
  · cases ctxs[q.ctx]? with
    | none => rfl
    | some x =>
      dsimp only
      cases x.entryFor q.shape.group <;> rfl

/-- Only a collective takes a sequence number. -/
theorem sequenced_other {ctxs : List CtxBlock} {dev : Nat} {q : Cmd} (h : q.kind ≠ .coll) : sequenced ctxs dev q = (q, ctxs) :=
  if_pos h

theorem sequenced_coll {ctxs : List CtxBlock} {dev : Nat} {q : Cmd} {y : CtxBlock} {t : Nat} {z : CollGroup} (h : q.kind = .coll)
    (hy : ctxs[q.ctx]? = some y) (ht : y.entryFor q.shape.group = some t) (hz : y.groups[t]? = some z) :
    (sequenced ctxs dev q).1.entry = t ∧ (sequenced ctxs dev q).1.seq = z.next ∧
      ((sequenced ctxs dev q).2[q.ctx]?.bind fun y => y.groups[t]?) = some { z with next := z.next + 1 } := by
  have hnext : y.groups.getD t ⟨false, false, 0, 0, 0, 0, 0⟩ = z := by rw [List.getD_eq_getElem?_getD, hz]; rfl
  rw [sequenced, if_neg (not_not_intro h), hy]
  dsimp only
  rw [ht]
  dsimp only
  rw [hnext]
  refine ⟨rfl, rfl, ?_⟩
  rw [updAt_get?, if_pos rfl, hy, Option.map_some, Option.bind_some, updAt_get?, if_pos rfl, hz]
  rfl

/-- One command accepted: the state but for the issuer's group. -/
def State.accepted (s : State) (q : Cmd) : State :=
  { s with
    nextId := s.nextId + 1, fresh := s.fresh + 1
    ctxs := (sequenced s.ctxs s.fabric.devnum.toNat { q with id := s.nextId }).2
    cmds := s.cmds ++ [(sequenced s.ctxs s.fabric.devnum.toNat { q with id := s.nextId }).1] }

theorem blind_accepted (q : Cmd) : Blind fun s => s.accepted q :=
  ⟨fun _ => rfl, fun _ i => by cases i <;> rfl, fun _ i _ => by cases i <;> rfl⟩

theorem State.acceptCmd_eq (s : State) (r : Nat) (lanes : List Nat) (q : Cmd) :
    s.acceptCmd r lanes q = (s.accepted q).updGroup s.cur fun g =>
      lanes.foldl (fun g m => g.giveHandle m r s.nextId (Config.freeValue s.fresh)) g := by
  simp only [State.acceptCmd, State.newId, State.takeSequence_eq, State.free]
  rfl

/-- Commands accepted one after the other: each has its number and what its sequence number gives it, and only collectives change the
context blocks. -/
theorem accepts_spec : ∀ (new : List Cmd) (s : State), ∃ (qs : List Cmd) (cx : List CtxBlock),
    new.foldl State.accepted s =
      { s with cmds := s.cmds ++ qs, nextId := s.nextId + new.length, fresh := s.fresh + new.length, ctxs := cx } ∧
    qs.length = new.length ∧
    (∀ (k : Nat) (q : Cmd), qs[k]? = some q → ∃ q0, new[k]? = some q0 ∧ ({ q0 with id := s.nextId + k } : Cmd).SameBut q) ∧
    ((∀ q ∈ new, q.kind ≠ .coll) → cx = s.ctxs ∧ qs = new.mapIdx fun k q => { q with id := s.nextId + k })
  | [], s => ⟨[], s.ctxs, by simp, rfl, by simp, fun _ => ⟨rfl, rfl⟩⟩
  | q :: new, s => by
    obtain ⟨qs, cx, hfold, hlen, heach, hother⟩ := accepts_spec new (s.accepted q)
    refine ⟨(sequenced s.ctxs s.fabric.devnum.toNat { q with id := s.nextId }).1 :: qs, cx, ?_, by simp [hlen], fun k r hr => ?_,
      fun hkind => ?_⟩
    · rw [List.foldl_cons, hfold]
      simp [State.accepted, Nat.add_assoc, Nat.add_comm 1]
    · cases k with
      | zero =>
        obtain rfl := Option.some.inj hr
        exact ⟨q, rfl, sequenced_same ..⟩
      | succ k =>
        obtain ⟨q0, hq0, hsame⟩ := heach k r hr
        refine ⟨q0, hq0, ?_⟩
        rwa [show (s.accepted q).nextId + k = s.nextId + (k + 1) by simp only [State.accepted]; omega] at hsame
    · obtain ⟨rfl, rfl⟩ := hother fun r hr => hkind r (List.mem_cons_of_mem _ hr)
      have hq : (sequenced s.ctxs s.fabric.devnum.toNat { q with id := s.nextId }) = ({ q with id := s.nextId }, s.ctxs) :=
        sequenced_other (hkind q (List.mem_cons_self ..))
      refine ⟨by simp only [State.accepted, hq], ?_⟩
      rw [hq, List.mapIdx_cons]
      simp only [State.accepted, Nat.add_zero, Nat.add_assoc, Nat.add_comm 1]

/-! ## The handles (R66) -/

/-- The handle pair of a command, written and made pending, in one lane. -/
theorem giveHandle_local (r cmd : Nat) (x : DWord) : LaneLocal (fun g m => g.giveHandle m r cmd x) fun _ t =>
    { ((t.setReg r (x.extractLsb' 0 32)).setReg (r + 1) (x.extractLsb' 32 32)) with
      pend := ((t.setReg r (x.extractLsb' 0 32)).setReg (r + 1) (x.extractLsb' 32 32)).pend ++ [⟨r, cmd, false⟩] } :=
  (setPair_local (fun _ => r) fun _ => x).comp (updThread_local fun _ t => { t with pend := t.pend ++ [⟨r, cmd, false⟩] })

/-- The bits of the handle of a command, which are not defined. -/
def State.handleBits (s : State) (id : Nat) : DWord := Config.freeValue (s.fresh + (id - s.nextId))

/-- What an issue does to the pair `r` of a lane that takes what actor `a` gives: CANCELLED from a helper, else the handle of its
command. -/
def State.giveTo (s : State) (c : Ctx) (f : Fields) (r a : Nat) (g : Group) (m : Nat) : Group :=
  if (c.rd.thread a).helper then g.setPair m r 9
  else g.giveHandle m r (s.nextId + (c.doers f).idxOf a) (s.handleBits (s.nextId + (c.doers f).idxOf a))

theorem giveTo_local (s : State) (c : Ctx) {f : Fields} {r : BitVec 8} (hd : f.d = .v r) (a : Nat) :
    LaneLocal (s.giveTo c f r.toNat a) fun _ t =>
      if (c.rd.thread a).helper then t.withDst f.d true 9
      else
        let w := t.withDst f.d true (s.handleBits (s.nextId + (c.doers f).idxOf a))
        { w with pend := w.pend ++ [⟨r.toNat, s.nextId + (c.doers f).idxOf a, false⟩] } := by
  rw [hd]
  unfold State.giveTo
  split
  · exact setPair_local (fun _ => r.toNat) fun _ => 9
  · exact giveHandle_local _ _ _

theorem State.setGroup_nextId (s : State) (i : Issuer) (g : Group) : (s.setGroup i g).nextId = s.nextId := by
  cases i <;> rfl

/-- The commands of an issue accepted in the order of its actors, as far as a later write of the issuer's group shows. -/
theorem accepts_under {s : State} {c : Ctx} (hc : s.ctx? = some c) (f : Fields) (r : Nat) (cmd : Nat → Cmd) :
    Under s.cur ((c.doers f).foldl (fun x l => x.acceptCmd r (c.takers f l) (cmd l)) s)
      (((c.doers f).map cmd).foldl State.accepted s)
      ((c.doers f).foldl (fun g l => (c.takers f l).foldl (s.giveTo c f r l) g) c.g) := by
  rw [List.foldl_map]
  refine fold_under (fun y _ ls => ∃ done, c.doers f = done ++ ls ∧ y.nextId = s.nextId + done.length ∧ y.fresh = s.fresh + done.length)
    _ (fun y l => y.accepted (cmd l)) _ (c.doers f) s s c.g ?_ (Under.start (State.ctx?_group hc).1) ⟨[], rfl, rfl, rfl⟩
  rintro x y g l ls hu ⟨done, hdoers, hid, hfresh⟩
  have hnodup := Ctx.doers_nodup hc f
  have hdoes : l ∈ c.doers f := by rw [hdoers]; simp
  have hhelper : (c.rd.thread l).helper = false := by simpa using (List.mem_filter.1 hdoes).2
  have hidx : (c.doers f).idxOf l = done.length := by
    rw [hdoers] at hnodup ⊢
    have hnot : l ∉ done := fun hin => (List.nodup_append.1 hnodup).2.2 l hin l (List.mem_cons_self ..) rfl
    rw [List.idxOf_append_of_notMem hnot, List.idxOf_cons_self, Nat.add_zero]
  have hxy : x.nextId = y.nextId ∧ x.fresh = y.fresh := by
    have hids := congrArg State.nextId (hu.same g)
    have hfr := congrArg State.fresh (hu.same g)
    simpa only [State.setGroup_nextId, State.setGroup_fresh] using And.intro hids hfr
  have hgive : s.giveTo c f r l = fun g m => g.giveHandle m r x.nextId (Config.freeValue x.fresh) := by
    funext g m
    rw [State.giveTo, if_neg (by simp [hhelper]), hidx, State.handleBits, Nat.add_sub_cancel_left, hxy.1, hxy.2, hid, hfresh]
  refine ⟨?_, done ++ [l], by simp [hdoers], ?_, ?_⟩
  · rw [State.acceptCmd_eq, hgive, hu.cur.1]
    exact (hu.blind (blind_accepted (cmd l))).updGroup _
  · simp only [State.accepted, hid, List.length_append, List.length_singleton]
    omega
  · simp only [State.accepted, hfresh, List.length_append, List.length_singleton]
    omega

/-! ## The acceptance -/

/-- The actors that are helpers. -/
def Ctx.helpers (c : Ctx) (f : Fields) : List Nat := (c.actors f).filter fun l => (c.rd.thread l).helper

theorem Ctx.agents_helpers (c : Ctx) (f : Fields) :
    ((c.agents f).filter fun a => (c.rd.thread a.1).helper) = (c.helpers f).map fun l => (l, c.takers f l) := by
  simp only [Ctx.agents, List.filter_map, Function.comp_def, Ctx.helpers]

/-- Every actor is a helper or not. -/
theorem Ctx.doers_helpers_perm (c : Ctx) (f : Fields) : (c.doers f ++ c.helpers f).Perm ((c.actors f).filter fun _ => true) := by
  rw [List.filter_true]
  have hperm := List.filter_append_perm (fun l => !(c.rd.thread l).helper) (c.actors f)
  simp only [Bool.not_not] at hperm
  exact hperm

/-- The command that an issue makes for a lane (R247). -/
def State.engineCmd (s : State) (f : Fields) (e : EngForm) (c : Ctx) (g : Nat) (x : Block) (la : Launch) (record : Nat → List Byte)
    (l : Nat) : Cmd :=
  { id := 0, kind := e.kind, core := x.coreOf g, block := x.id, part := x.partOf g, group := g
    lanes := maskOf (c.takers f l), ctx := la.ctx, launch := la.id, var := f.immBits 26 24
    hold := f.imm.getLsbD 23, record := record l, a := s.operand c.rd l f (e.wide f) (e.addr f)
    b := s.operand c.rd l f false (e.value f), bar := (s.operand c.rd l f false f.c).toNat
    coords := coordVals c.rd l (e.coord f) (Shape.of (record l)).ndim, state := .running, data := .empty
    read := [], code := 0, bytes := 0, failAt := 0, cancel := false, since := s.uptime, entry := 0, seq := 0
    hashes := [], matched := false, innet := false, tiles := [], shards := [] }

section
variable {s : State} {c : Ctx} {op : Nat} {f : Fields} {e : EngForm} {record : Nat → List Byte}

theorem State.handleLanes_sole (hsole : s.redundant = false) (c : Ctx) (a : Agent) : s.handleLanes c a = a.2 := by
  simp [State.handleLanes, hsole]

theorem State.Accepts.newCmd (h : s.Accepts c op f e record) {b g u : Nat} {x : Block} {la : Launch} (hcur : s.cur = .unit b g u)
    (hblk : s.block? b = some x) (hla : s.launchOf s.cur = some la) {l : Nat} (hl : l ∈ c.doers f) :
    s.newCmd f e c (recordIn (s.engineRecs f e c)) (l, c.takers f l) = some (s.engineCmd f e c g x la record l) := by
  have hid : x.id = b := by simpa using List.find?_some hblk
  rw [hcur] at hla
  simp only [State.newCmd, hcur, hla, hblk, Option.map_some, State.handleLanes_sole h.sole, h.recordIn_doer hl]
  rw [← hid]
  rfl

/-- No part that an issue needs is saved. -/
theorem State.Accepts.notHeld (h : s.Accepts c op f e record) :
    ((c.doers f).map fun l => ((l, c.takers f l) : Agent)).any (fun a =>
      (recInScratch f && e.hasRec && s.partSaved (scrPart (recAddr f))) ||
        (s.issueBars e (recordIn (s.engineRecs f e c) a.1) (s.operand c.rd a.1 f false f.c).toNat).any
          fun b => s.partSaved (scrPart b)) = false := by
  rw [List.any_map, List.any_eq_false]
  intro l hl
  have hok := h.ok l hl
  simp only [Function.comp_apply, h.recordIn_doer hl, Bool.or_eq_true, Bool.and_eq_true, List.any_eq_true, not_or, not_exists, not_and,
    Bool.not_eq_true]
  refine ⟨fun hrec => hok.recThere hrec.2 hrec.1, fun b hb => (hok.bars b hb).2⟩

/-- An issue whose checks pass accepts a command for every actor that is no helper. -/
theorem engineAccept_spec (h : s.Accepts c op f e record) {b g u : Nat} {x : Block} {la : Launch} (hcur : s.cur = .unit b g u)
    (hblk : s.block? b = some x) (hla : s.launchOf s.cur = some la) :
    let after := (c.doers f).foldl (fun t l => t.acceptCmd (handleReg f.d) (c.takers f l) (s.engineCmd f e c g x la record l)) s
    s.engineAccept f e (recordIn (s.engineRecs f e c)) c (c.agents f) =
      .ok ((after.updGroup after.cur fun y => (c.helpers f).foldl (fun y l =>
        (c.takers f l).foldl (fun y m => y.setPair m (handleReg f.d) 9) y) y).commitCur c) := by
  have hnew : ((c.doers f).map fun l => ((l, c.takers f l) : Agent)).filterMap (fun a =>
      (s.newCmd f e c (recordIn (s.engineRecs f e c)) a).map fun q => (s.handleLanes c a, q)) =
      (c.doers f).map fun l => (c.takers f l, s.engineCmd f e c g x la record l) := by
    rw [List.filterMap_map, ← List.filterMap_eq_map]
    refine List.filterMap_congr fun l hl => ?_
    rw [Function.comp_apply, h.newCmd hcur hblk hla hl, State.handleLanes_sole h.sole]
    rfl
  have hroom : ¬ s.tceLoad s.coreOfCur + (c.doers f).length > 64 := Nat.not_lt.2 h.room
  simp only [State.engineAccept, mismatch_none h.sole, guardTraps_nil, performers_doers h.sole, Ctx.agents_helpers, List.length_map]
  rw [h.notHeld, hnew, if_neg (by simpa using hroom)]
  simp only [List.foldl_map]

end

/-! ## The obligation -/

/-- Every engine instruction is an issue of its form. -/
theorem exec_engine {i : Instr} {op : Nat} {f : Fields} {e : EngForm} (h : engineOf i = some (op, f, e)) (s : State) :
    exec i s = s.engineIssue op f e := by
  unfold engineOf at h
  split at h <;> cases h <;> rfl

/-- Settles O32: the states of the acceptances and what they do to the group, put together. -/
theorem engineCommandsAreAccepted : Obligations.EngineCommandsAreAccepted := by
  unfold Obligations.EngineCommandsAreAccepted
  intro i op f e s c r b g u x la record hform hrun hsole hd hcur hblk hla does hok hroom
  have h : s.Accepts c op f e record := ⟨hrun, hsole, hok, hroom⟩
  have hid : x.id = b := by simpa using List.find?_some hblk
  obtain ⟨qs, cx, hstate, hlen, heach, hother⟩ := accepts_spec ((c.doers f).map (s.engineCmd f e c g x la record)) s
  rw [List.length_map] at hlen hstate
  have hunder := accepts_under hrun.ctx f (handleReg f.d) (s.engineCmd f e c g x la record)
  have hreg : handleReg f.d = r.toNat := by rw [hd]; rfl
  rw [hstate, hreg] at hunder
  have hhelpers : (fun y => (c.helpers f).foldl (fun y l => (c.takers f l).foldl (s.giveTo c f r.toNat l) y) y) =
      fun y : Group => (c.helpers f).foldl (fun y l => (c.takers f l).foldl (fun y m => y.setPair m r.toNat 9) y) y := by
    funext y
    refine foldl_ext' _ _ _ (fun y l hl => ?_) y
    have hhelper := (List.mem_filter.1 hl).2
    exact congrArg (fun act => (c.takers f l).foldl act y) (funext fun y => funext fun m => if_pos hhelper)
  have hall := hunder.updGroup fun y => (c.helpers f).foldl (fun y l => (c.takers f l).foldl (s.giveTo c f r.toNat l) y) y
  rw [← List.foldl_append] at hall
  obtain ⟨k, hcommit, honly⟩ := Under.commitCur_actors hrun.ctx f (fun _ => true) (giveTo_local s c hd) (c.doers_helpers_perm f) hall
  refine ⟨qs, s.fresh + does.length, cx, s.handleBits, k, ?_, hlen, fun j q hq => ?_, fun hkind => ?_,
    fun l y t z hkind hdoes hy ht hz => ?_, honly⟩
  · rw [exec_engine hform, engineIssue_run h, engineAccept_spec h hcur hblk hla, finish_ok, hreg, hunder.cur.1]
    rw [hhelpers] at hcommit
    exact congrArg _ hcommit
  · obtain ⟨q0, hq0, hsame⟩ := heach j q hq
    rw [List.getElem?_map] at hq0
    obtain ⟨l, hl, rfl⟩ := Option.map_eq_some_iff.1 hq0
    have hlane : does[j]? = some l := hl
    have hdoes : does.getD j 0 = l := by rw [List.getD_eq_getElem?_getD, hlane]; rfl
    rw [hdoes, ← hid]
    exact hsame
  · obtain ⟨rfl, rfl⟩ := hother fun q hq => by
      obtain ⟨l, -, rfl⟩ := List.mem_map.1 hq
      exact hkind
    refine ⟨rfl, fun q hq => ?_⟩
    obtain ⟨j, hj, rfl⟩ := List.mem_mapIdx.1 hq
    simp [State.engineCmd]
  · have hone : c.doers f = [l] := hdoes
    rw [hone] at hstate
    obtain ⟨hentry, hseq, hnext⟩ := sequenced_coll (ctxs := s.ctxs) (dev := s.fabric.devnum.toNat)
      (q := { s.engineCmd f e c g x la record l with id := s.nextId }) hkind hy ht hz
    have hcx : (sequenced s.ctxs s.fabric.devnum.toNat { s.engineCmd f e c g x la record l with id := s.nextId }).2 = cx :=
      congrArg State.ctxs hstate
    have hqs : [(sequenced s.ctxs s.fabric.devnum.toNat { s.engineCmd f e c g x la record l with id := s.nextId }).1] = qs :=
      List.append_cancel_left (congrArg State.cmds hstate)
    subst hcx hqs
    exact ⟨fun q hq => by rw [List.mem_singleton.1 hq]; exact ⟨hentry, hseq⟩, hnext⟩

end Sys2Proof.Machine
end

section
/-!
# The events of collectives (O35)

Each event is one equation about `exec` under the conditions that its clause names. An event of a context changes its context block as
`State.updCtx_eq` says; what a flit's arrival makes of a block with a ring is said of the block alone (`CtxBlock.enqueue_new`,
`CtxBlock.enqueue_more`), and what opening a group drops is told by the entries that name its group before and after
(`CtxBlock.entryFor_opened`).
-/

namespace Sys2Proof.Machine

open Sys2Proof

/-! ## Matching (R263) -/

theorem Cmd.allHashes_of {q : Cmd} (h : ∀ l, l < q.shape.members → ∃ h ∈ q.hashes, h.1 = q.shape.gorg + l) :
    q.allHashes = true := by
  simpa only [Cmd.allHashes, List.all_eq_true, List.mem_range, List.any_eq_true, decide_eq_true_eq] using h

theorem exec_collHashMatch {s : State} {id : Nat} {innet : Bool} {q : Cmd} (hq : s.running? id = some q) (hcoll : q.kind = .coll)
    (hunmatched : q.matched = false) (hthere : s.cmdThere q = true) (hcheck : s.cmdCheck q = none)
    (hcap : s.capHolds q.ctx q.isMatch = false) (hall : ∀ l, l < q.shape.members → ∃ h ∈ q.hashes, h.1 = q.shape.gorg + l)
    (hsame : ∀ h ∈ q.hashes, q.shape.hasMember h.1 = true → h.2 = q.shape.hash) :
    exec (.collHashMatch id innet) s = .next
      (((s.updCmd id fun k => { k with matched := true, innet := innet && q.shape.rop ≠ 0 }).capAppend 3 q.ctx 0
        (leBytes 2 q.shape.group ++ [0, 0] ++ leBytes 4 q.seq.toNat ++ leBytes 4 (s.blkIdxOf q.block))).capMatch q.ctx q.isMatch) := by
  have hdiffer : (q.hashes.any fun h => q.shape.hasMember h.1 && h.2 ≠ q.shape.hash) = false := by
    simpa using hsame
  show execCollHashMatch id innet s = _
  simp only [execCollHashMatch, hq, hcoll, hunmatched, Cmd.allHashes_of hall, hthere, hcheck, hdiffer, hcap, ne_eq, not_true_eq_false,
    decide_false, Bool.not_true, Bool.or_false, Option.isSome_none, Bool.false_eq_true, if_false]

theorem exec_collHashMatch_differs {s : State} {id : Nat} {innet : Bool} {q : Cmd} {dev hash : Nat} (hq : s.running? id = some q)
    (hcoll : q.kind = .coll) (hunmatched : q.matched = false) (hthere : s.cmdThere q = true) (hcheck : s.cmdCheck q = none)
    (hall : ∀ l, l < q.shape.members → ∃ h ∈ q.hashes, h.1 = q.shape.gorg + l) (hmem : (dev, hash) ∈ q.hashes)
    (hmember : q.shape.hasMember dev = true) (hne : hash ≠ q.shape.hash) :
    exec (.collHashMatch id innet) s = .next (s.failHeld q 5) := by
  have hdiffer : (q.hashes.any fun h => q.shape.hasMember h.1 && h.2 ≠ q.shape.hash) = true :=
    List.any_eq_true.2 ⟨_, hmem, by simp [hmember, hne]⟩
  show execCollHashMatch id innet s = _
  simp only [execCollHashMatch, hq, hcoll, hunmatched, Cmd.allHashes_of hall, hthere, hcheck, hdiffer, ne_eq, not_true_eq_false,
    decide_false, Bool.not_true, Bool.or_false, Option.isSome_none, Bool.false_eq_true, if_false, if_true]

/-! ## Publishing (R262) -/

theorem exec_enginePublish_coll {s : State} {id : Nat} {q : Cmd} {tiles : List (List Byte)} (hq : s.running? id = some q)
    (hcoll : q.kind = .coll) (hmatched : q.matched = true) (hhold : q.hold = false) (hshard : q.shape.shard = false)
    (hthere : s.cmdThere q = true) (hread : q.hasRead 0 q.total = true) (hcheck : s.cmdCheck q = none)
    (hfirst : s.firstOnBuffer q = true) (hcap : s.capHolds q.ctx (s.isPublish q q.bar) = false) (htiles : s.setTiles q = some tiles) :
    exec (.enginePublish id) s = .next
      ((s.publish (s.buffer q) (s.collWrites q tiles)).endCmd q 0 (s.collWrites q tiles).length true) := by
  show execEnginePublish id s = _
  simp only [execEnginePublish, hq, hcoll, hmatched, hhold, hshard, hthere, hread, hcheck, hfirst, hcap, htiles, reduceCtorEq,
    decide_false, Bool.and_false, Bool.not_true, Bool.or_false, Option.isSome_none, Bool.false_eq_true, if_false, if_true]

/-- The shard of rank `j`, which is device `dev`'s, may end: it stands in a collective in its core that has not published it. -/
structure State.ShardStands (s : State) (id j dev : Nat) (q : Cmd) : Prop where
  running : s.running? id = some q
  coll : q.kind = .coll
  shard : q.shape.shard = true
  there : s.cmdThere q = true
  check : s.cmdCheck q = none
  rank : (q.shape.setOf s.fabric.devnum.toNat)[j]? = some dev
  left : ∀ x ∈ q.shards, x.1 ≠ j

section
variable {s : State} {id j dev : Nat} {q : Cmd}

/-- The condition under which a shard's event does nothing fails. -/
theorem State.ShardStands.refused (h : s.ShardStands id j dev q) :
    (decide (q.kind ≠ .coll) || !q.shape.shard || !s.cmdThere q || (s.cmdCheck q).isSome ||
      decide (j ≥ (q.shape.setOf s.fabric.devnum.toNat).length) || q.shards.any fun x => x.1 = j) = false := by
  obtain ⟨hlt, -⟩ := List.getElem?_eq_some_iff.1 h.rank
  have hleft : (q.shards.any fun x => x.1 = j) = false := by simpa using h.left
  simp [h.coll, h.shard, h.there, h.check, hleft, hlt]

theorem State.ShardStands.device (h : s.ShardStands id j dev q) : (q.shape.setOf s.fabric.devnum.toNat).getD j 0 = dev := by
  rw [List.getD_eq_getElem?_getD, h.rank]
  rfl

/-- The tile of rank `j`, as far as it is there. -/
def State.shardTile (s : State) (q : Cmd) (dev : Nat) : Option (List Byte) :=
  if dev = s.fabric.devnum.toNat then (if q.hasRead 0 q.shape.dense then some (q.bytesAt 0 q.shape.dense) else none)
  else (q.tiles.find? fun t => t.1 = dev).map (·.2)

/-- A shard whose tile is there publishes on its own barrier. -/
theorem exec_collShardPublish (h : s.ShardStands id j dev q) (hmatched : q.matched = true) (hloss : s.shardLoss q dev = none)
    {tile : List Byte} (htile : s.shardTile q dev = some tile) (hfirst : s.firstOnBuffer q = true)
    (hcap : s.capHolds q.ctx (s.isPublish q ((s.barsOf q).getD j 0)) = false) :
    exec (.collShardPublish id j) s = .next (s.endShard q j 0 (layBytes (q.a.toNat + j * q.shape.dense) tile)) := by
  show execCollShardPublish id j s = _
  rw [execCollShardPublish, h.running]
  dsimp only
  rw [State.shardTile] at htile
  rw [if_neg (by rw [h.refused]; decide), h.device, hloss]
  simp only [htile, hmatched, hfirst, hcap, Bool.not_true, Bool.or_false, Bool.false_eq_true, if_false]

/-- A shard of a member that has failed fails with its code. -/
theorem exec_collShardPublish_lost (h : s.ShardStands id j dev q) {code : Nat} (hloss : s.shardLoss q dev = some code)
    (hcap : s.capHolds q.ctx (isPublished q.ctx (s.blkIdxOf q.block) ((s.barsOf q).getD j 0) code) = false) :
    exec (.collShardPublish id j) s = .next (s.endShard q j code []) := by
  show execCollShardPublish id j s = _
  rw [execCollShardPublish, h.running]
  dsimp only
  rw [if_neg (by rw [h.refused]; decide), h.device, hloss]
  simp only [hcap, Bool.false_eq_true, if_false]

end

/-! ## Members that fail or leave (R265) -/

theorem exec_collMemberFailure {s : State} {ctx gid dev : Nat} {seq : Word} {q : Cmd} (hq : s.collOf ctx gid seq = some q)
    (hmember : q.shape.hasMember dev = true) (hother : dev ≠ s.fabric.devnum.toNat) :
    exec (.collMemberFailure ctx gid seq dev) s = .next
      (if q.shape.shard then s.noteLoss ctx gid seq 6 dev else if s.cmdThere q then s.failHeld q 6 else s) := by
  show execCollMemberFailure ctx gid seq dev s = _
  simp only [execCollMemberFailure, hq, hmember, hother, Bool.not_true, decide_false, Bool.or_false, Bool.false_eq_true, if_false]
  split
  · rfl
  · split <;> rfl

theorem exec_collMemberFailure_early {s : State} {ctx gid dev : Nat} {seq : Word} (hq : s.collOf ctx gid seq = none)
    (hunissued : s.unissued ctx gid seq = true) (hother : dev ≠ s.fabric.devnum.toNat) :
    exec (.collMemberFailure ctx gid seq dev) s = .next (s.noteLoss ctx gid seq 6 dev) := by
  show execCollMemberFailure ctx gid seq dev s = _
  simp only [execCollMemberFailure, hq, hunissued, hother, ne_eq, not_false_eq_true, decide_true, Bool.and_true, if_true]

theorem exec_collMemberLeaves {s : State} {ctx gid dev e : Nat} (hentry : s.groupEntry ctx gid = some e)
    (hwaits : ∀ q ∈ s.cmds, q.kind = .coll → q.ctx = ctx → s.failWaits q 7 = false) :
    exec (.collMemberLeaves ctx gid dev) s = .next
      (((s.cmds.filter fun q => decide (q.state = .running) && q.kind = .coll && q.ctx = ctx && q.entry = e && q.shape.group = gid
          ).foldl (fun s q => s.failCmd q 7 none) s).updCtx ctx fun x =>
        { x with groups := updAt x.groups e (fun g =>
          if g.closed then g else { g with closed := true, lost := BitVec.ofNat 32 dev }) }) := by
  have hnone : (s.cmds.filter fun q => decide (q.state = .running) && q.kind = .coll && q.ctx = ctx && q.entry = e &&
      q.shape.group = gid).find? (fun q => s.failWaits q 7) = none := by
    rw [List.find?_eq_none]
    intro q hq
    obtain ⟨hmem, hmine⟩ := List.mem_filter.1 hq
    simp only [Bool.and_eq_true, decide_eq_true_eq] at hmine
    obtain ⟨⟨⟨⟨-, hcoll⟩, hctx⟩, -⟩, -⟩ := hmine
    simp [hwaits q hmem hcoll hctx]
  show execCollMemberLeaves ctx gid dev s = _
  simp only [execCollMemberLeaves, hentry, hnone]

/-! ## Context blocks -/

theorem State.updCtx_eq {s : State} {ctx : Nat} {x : CtxBlock} (h : s.ctxs[ctx]? = some x) (f : CtxBlock → CtxBlock) :
    s.updCtx ctx f = { s with ctxs := setAt s.ctxs ctx (f x) } := by
  rw [State.updCtx, updAt_eq_setAt h]

theorem State.scribble_ctxs (s : State) (ws : List Loc) : (s.scribble ws).ctxs = s.ctxs := by
  refine List.foldlRecOn (motive := fun t : State => t.ctxs = s.ctxs) _ _ rfl fun t ht w _ => ?_
  unfold State.snoopOut State.writeLoc
  cases w.1 <;> exact ht

theorem State.writeBacklog_ctxs (s : State) (ctx : Nat) : (s.writeBacklog ctx).ctxs = s.ctxs := by
  unfold State.writeBacklog
  split
  · rfl
  · exact State.scribble_ctxs _ _

/-! ## Arrivals (R97, R407) -/

/-- The flit of a member for one command. -/
def Flit.of (gid : Nat) (seq : Word) (dev : Nat) (f : Flit) : Prop := f.gid = gid ∧ f.seq = seq ∧ f.dev = dev

theorem Flit.sameAs_iff {f g : Flit} : f.sameAs g = true ↔ g.of f.gid f.seq f.dev := by
  simp only [Flit.sameAs, Flit.of, Bool.and_eq_true, decide_eq_true_eq, and_assoc, eq_comm (b := g.gid), eq_comm (b := g.seq),
    eq_comm (b := g.dev)]

theorem Flit.sameAs_false {f g : Flit} (h : ¬ g.of f.gid f.seq f.dev) : f.sameAs g = false :=
  Bool.eq_false_iff.2 fun hsame => h (Flit.sameAs_iff.1 hsame)

theorem State.flitHeld_false {s : State} {ctx gid : Nat} {seq : Word} (hsched : s.ctxScheduled ctx = true)
    (hgroup : (s.groupEntry ctx gid).isSome = true) (hthere : ∀ q, s.collOf ctx gid seq = some q → s.cmdThere q = true) :
    s.flitHeld ctx gid seq = false := by
  have haway : ((s.collOf ctx gid seq).map fun c => !s.cmdThere c).getD false = false := by
    cases hq : s.collOf ctx gid seq with
    | none => rfl
    | some q => simp [hthere q hq]
  obtain ⟨e, he⟩ := Option.isSome_iff_exists.1 hgroup
  simp [State.flitHeld, hsched, he, haway]

theorem CtxBlock.used_zero {x : CtxBlock} : x.used = 0 ↔ ∀ g ∈ x.flits, g.held = 0 := by
  simp [CtxBlock.used, List.sum_eq_zero_iff]

/-- A flit is backlogged that cannot reach its command, or that others wait before. -/
theorem State.backlogged_of {s : State} {ctx gid : Nat} {seq : Word} {x : CtxBlock} (hx : s.ctxs[ctx]? = some x)
    (h : s.ctxScheduled ctx = false ∨ s.groupEntry ctx gid = none ∨ (∃ g ∈ x.flits, 0 < g.held) ∨
      ∃ q, s.collOf ctx gid seq = some q ∧ s.cmdThere q = false) : s.backlogged ctx gid seq = true := by
  rcases h with hsched | hgroup | ⟨g, hg, hheld⟩ | ⟨q, hq, hthere⟩
  · simp [State.backlogged, State.flitHeld, hsched]
  · simp [State.backlogged, State.flitHeld, hgroup]
  · have hused : x.used ≠ 0 := fun hzero => absurd (CtxBlock.used_zero.1 hzero g hg) (Nat.ne_of_gt hheld)
    simp [State.backlogged, hx, hused]
  · simp [State.backlogged, State.flitHeld, hq, hthere]

/-- A flit that can reach its command goes to it. -/
theorem exec_flitArrival_delivers {s : State} {ctx gid dev hash : Nat} {seq : Word} {tile : List Byte} {x : CtxBlock}
    (hx : s.ctxs[ctx]? = some x) (hheld : s.flitHeld ctx gid seq = false) (hnone : ∀ g ∈ x.flits, g.held = 0) :
    exec (.collectiveFlitArrival ctx gid seq dev hash tile) s = .next
      (({ s with ctxs := setAt s.ctxs ctx { x.unstall ⟨gid, seq, dev, hash, tile, 0, 0⟩ with
        flits := x.flits.filter fun g => !(g.gid = gid && g.seq = seq && g.dev = dev) } } : State).deliver ctx
        ⟨gid, seq, dev, hash, tile, 0, 0⟩) := by
  have hfree : s.backlogged ctx gid seq = false := by
    simp [State.backlogged, hheld, hx, CtxBlock.used_zero.2 hnone]
  have hkept : x.flits.filter (fun g => !(⟨gid, seq, dev, hash, tile, 0, 0⟩ : Flit).sameAs g) =
      x.flits.filter fun g => !(g.gid = gid && g.seq = seq && g.dev = dev) := by
    refine List.filter_congr fun g _ => ?_
    simp only [Flit.sameAs, eq_comm (a := gid), eq_comm (a := seq), eq_comm (a := dev)]
  show execCollectiveFlitArrival ctx gid seq dev hash tile s = _
  simp only [execCollectiveFlitArrival, hfree, Bool.false_eq_true, if_false, State.updCtx_eq hx, hkept]

/-- What an arrival that is backlogged makes of its context's block. -/
def CtxBlock.arrived (x : CtxBlock) (f : Flit) (now : Nat) : CtxBlock :=
  if (x.enqueue f).taken f then (x.enqueue f).unstall f else (x.enqueue f).stall f now

theorem exec_flitArrival_backlogged {s : State} {ctx gid dev hash : Nat} {seq : Word} {tile : List Byte} {x : CtxBlock}
    (hx : s.ctxs[ctx]? = some x) (hback : s.backlogged ctx gid seq = true) :
    exec (.collectiveFlitArrival ctx gid seq dev hash tile) s = .next
      { (if 0 < x.room then s.writeBacklog ctx else s) with
        ctxs := setAt s.ctxs ctx (x.arrived ⟨gid, seq, dev, hash, tile, 0, 0⟩ s.uptime) } := by
  show execCollectiveFlitArrival ctx gid seq dev hash tile s = _
  simp only [execCollectiveFlitArrival, hback, if_true, hx, Option.map_some, Option.getD_some, decide_eq_true_eq]
  by_cases hroom : 0 < x.room
  · have hx' : (s.writeBacklog ctx).ctxs[ctx]? = some x := by rw [State.writeBacklog_ctxs, hx]
    simp only [if_pos hroom, State.updCtx_eq hx', State.writeBacklog_ctxs]
    rfl
  · simp only [if_neg hroom, State.updCtx_eq hx]
    rfl

theorem CtxBlock.room_of {x : CtxBlock} {room : Nat} (hbv : x.bv = true) (hroom : room = 14 * x.blSize.toNat - x.used) :
    x.room = room := by
  rw [CtxBlock.room, if_pos hbv, hroom]

/-- The first flits of a sender are appended to the ring, as far as it has room. -/
theorem CtxBlock.arrived_new {x : CtxBlock} {f : Flit} {room now : Nat} (hroom : x.room = room) (hpos : 0 < room)
    (hfresh : f.held = 0 ∧ f.gone = 0) (hnone : ∀ g ∈ x.flits, ¬ g.of f.gid f.seq f.dev) :
    x.arrived f now = if f.size ≤ room then { x.unstall f with flits := x.flits ++ [{ f with held := f.size }] }
      else { x.stall f now with flits := x.flits ++ [{ f with held := room }] } := by
  obtain ⟨hheld, hgone⟩ := hfresh
  have hany : x.flits.any f.sameAs = false := by
    rw [List.any_eq_false]
    exact fun g hg => Bool.eq_false_iff.1 (Flit.sameAs_false (hnone g hg))
  have henq : x.enqueue f = { x with flits := x.flits ++ [{ f with held := min room f.size }] } := by
    simp [CtxBlock.enqueue, hany, hroom, Nat.ne_of_gt hpos, hheld, hgone]
  have hothers : (x.flits.any fun g => f.sameAs g && g.whole) = false := by
    rw [List.any_eq_false]
    intro g hg
    simp [Flit.sameAs_false (hnone g hg)]
  have hself : f.sameAs { f with held := min room f.size } = true := Flit.sameAs_iff.2 ⟨rfl, rfl, rfl⟩
  have htaken : (x.enqueue f).taken f = decide (f.size ≤ room) := by
    rw [henq, CtxBlock.taken, List.any_append, hothers, List.any_cons, List.any_nil, hself, Bool.false_or, Bool.true_and, Bool.or_false]
    refine decide_eq_decide.2 ?_
    change f.size ≤ min room f.size + f.gone ↔ f.size ≤ room
    omega
  rw [CtxBlock.arrived, htaken, henq]
  by_cases hfits : f.size ≤ room
  · simp only [hfits, decide_true, if_true, Nat.min_eq_right hfits, CtxBlock.unstall]
  · simp only [hfits, decide_false, Bool.false_eq_true, if_false, Nat.min_eq_left (Nat.le_of_not_le hfits), CtxBlock.stall]
    split <;> rfl

/-- A sender that the ring has flits of goes on with the rest. -/
theorem CtxBlock.arrived_more {x : CtxBlock} {f g a : Flit} {pre post : List Flit} {room now : Nat} (hroom : x.room = room)
    (hflits : x.flits = pre ++ g :: post) (hf : f = { g with held := g.held + min room (g.size - g.held - g.gone) })
    (hself : g.of a.gid a.seq a.dev) (hothers : ∀ k ∈ pre ++ post, ¬ k.of a.gid a.seq a.dev) :
    x.arrived a now = if f.size ≤ f.held + f.gone then { x.unstall f with flits := pre ++ f :: post }
      else { x.stall f now with flits := pre ++ f :: post } := by
  have hsame : a.sameAs g = true := Flit.sameAs_iff.2 hself
  have hother {k : Flit} (hk : k ∈ pre ++ post) : a.sameAs k = false := Flit.sameAs_false (hothers k hk)
  have hany : x.flits.any a.sameAs = true := List.any_eq_true.2 ⟨g, by rw [hflits]; simp, hsame⟩
  have hkeep (l : List Flit) (hl : ∀ k ∈ l, k ∈ pre ++ post) (u : Flit → Flit) : l.map (fun k => if a.sameAs k then u k else k) = l :=
    (List.map_congr_left fun k hk => by rw [hother (hl k hk)]; rfl).trans (List.map_id _)
  have henq : x.enqueue a = { x with flits := pre ++ f :: post } := by
    rw [CtxBlock.enqueue, if_pos hany, hflits]
    simp only [List.map_append, List.map_cons, hsame, if_true, hroom, hkeep pre (fun k hk => List.mem_append_left _ hk),
      hkeep post (fun k hk => List.mem_append_right _ hk), hf]
  have hnot (l : List Flit) (hl : ∀ k ∈ l, k ∈ pre ++ post) : (l.any fun k => a.sameAs k && k.whole) = false := by
    rw [List.any_eq_false]
    intro k hk
    simp [hother (hl k hk)]
  obtain ⟨hgid, hseq, hdev⟩ := hself
  have hids : f.gid = a.gid ∧ f.seq = a.seq ∧ f.dev = a.dev := by rw [hf]; exact ⟨hgid, hseq, hdev⟩
  have htaken : (x.enqueue a).taken a = decide (f.size ≤ f.held + f.gone) := by
    rw [henq, CtxBlock.taken, List.any_append, List.any_cons, hnot pre (fun k hk => List.mem_append_left _ hk),
      hnot post (fun k hk => List.mem_append_right _ hk), Flit.sameAs_iff.2 hids]
    simp [Flit.whole]
  rw [CtxBlock.arrived, htaken, henq]
  by_cases hwhole : f.size ≤ f.held + f.gone
  · simp only [hwhole, decide_true, if_true, CtxBlock.unstall, hids]
  · simp only [hwhole, decide_false, Bool.false_eq_true, if_false, CtxBlock.stall, hids]
    split <;> rfl

/-- Without room, a sender of which the ring holds nothing is stalled. -/
theorem CtxBlock.arrived_full {x : CtxBlock} {f : Flit} {now : Nat} (hroom : x.room = 0)
    (hnone : ∀ g ∈ x.flits, ¬ g.of f.gid f.seq f.dev) (hstalls : ∀ k ∈ x.stalls, ¬ (k.1 = f.gid ∧ k.2.1 = f.seq ∧ k.2.2.1 = f.dev)) :
    x.arrived f now = { x with stalls := x.stalls ++ [(f.gid, f.seq, f.dev, now)] } := by
  have hany : x.flits.any f.sameAs = false := by
    rw [List.any_eq_false]
    exact fun g hg => Bool.eq_false_iff.1 (Flit.sameAs_false (hnone g hg))
  have henq : x.enqueue f = x := by simp [CtxBlock.enqueue, hany, hroom]
  have htaken : x.taken f = false := by
    rw [CtxBlock.taken, List.any_eq_false]
    intro g hg
    simp [Flit.sameAs_false (hnone g hg)]
  have hnew : (x.stalls.any fun k => k.1 = f.gid && k.2.1 = f.seq && k.2.2.1 = f.dev) = false := by
    rw [List.any_eq_false]
    intro k hk
    have hother := hstalls k hk
    simpa [and_assoc] using hother
  simp only [CtxBlock.arrived, henq, htaken, CtxBlock.stall, hnew, Bool.false_eq_true, if_false]

/-! ## Replay and timeouts (R97, R407) -/

theorem exec_backlogReplay {s : State} {ctx : Nat} {x : CtxBlock} {f : Flit} {fs : List Flit} (hx : s.ctxs[ctx]? = some x)
    (hflits : x.flits = f :: fs) (hpos : 0 < f.held) (hheld : s.flitHeld ctx f.gid f.seq = false) :
    exec (.backlogReplay ctx) s = .next (({ s with ctxs := setAt s.ctxs ctx (x.replayed f) } : State).deliver ctx
      (if f.whole then f else { f with tile := [] })) := by
  have hfirst : ((s.ctxs[ctx]?).bind fun x => x.flits.find? fun f => decide (0 < f.held)) = some f := by
    rw [hx, Option.bind_some, hflits, List.find?_cons_of_pos (by simpa using hpos)]
  show execBacklogReplay ctx s = _
  simp only [execBacklogReplay, hfirst, hheld, Bool.false_eq_true, if_false, State.updCtx_eq hx]

theorem CtxBlock.replayed_whole {x : CtxBlock} {f : Flit} {fs : List Flit} (hflits : x.flits = f :: fs) (hwhole : f.whole = true) :
    x.replayed f = { x with flits := fs } := by
  rw [CtxBlock.replayed, if_pos hwhole, hflits, List.erase_cons_head]

theorem CtxBlock.replayed_part {x : CtxBlock} {f : Flit} {fs : List Flit} (hflits : x.flits = f :: fs) (hnot : f ∉ fs)
    (hpart : f.whole = false) : x.replayed f = { x with flits := { f with held := 0, gone := f.gone + f.held } :: fs } := by
  have hrest : fs.map (fun g => if g = f then { g with held := 0, gone := g.gone + g.held } else g) = fs :=
    (List.map_congr_left fun g hg => if_neg (fun heq : g = f => hnot (heq ▸ hg))).trans (List.map_id _)
  rw [CtxBlock.replayed, if_neg (by rw [hpart]; decide), hflits, List.map_cons, if_pos rfl, hrest]

theorem exec_backlogTimeout_own {s : State} {ctx gid : Nat} {seq : Word} {q : Cmd} (hq : s.collOf ctx gid seq = some q)
    (hthere : s.cmdThere q = true) : exec (.backlogTimeout true ctx gid seq) s = .next (s.failHeld q 8) := by
  show execBacklogTimeout true ctx gid seq s = _
  simp only [execBacklogTimeout, if_true, hq, hthere]

theorem exec_backlogTimeout_receiver {s : State} {ctx gid dev since : Nat} {seq : Word} {x : CtxBlock} (hx : s.ctxs[ctx]? = some x)
    (hstall : (gid, seq, dev, since) ∈ x.stalls) (hover : since + 1000 * x.blTo ≤ s.uptime) :
    exec (.backlogTimeout false ctx gid seq) s = .next
      { s with ctxs := setAt s.ctxs ctx { x with
        lostSeq := x.lostSeq ++ [(gid, seq, 8, s.fabric.devnum.toNat)]
        stalls := x.stalls.filter fun k => ¬ (k.1 = gid ∧ k.2.1 = seq) } } := by
  have hoverdue : x.overdue gid seq s.uptime = true := List.any_eq_true.2 ⟨_, hstall, by simpa using hover⟩
  have hkept : x.stalls.filter (fun k => !(k.1 = gid && k.2.1 = seq)) = x.stalls.filter fun k => ¬ (k.1 = gid ∧ k.2.1 = seq) := by
    refine List.filter_congr fun k _ => ?_
    rw [decide_not, Bool.decide_and]
  show execBacklogTimeout false ctx gid seq s = _
  simp only [execBacklogTimeout, Bool.false_eq_true, if_false, hx, Option.map_some, Option.getD_some, hoverdue, if_true, State.noteLoss,
    State.updCtx, ← hkept]
  rw [updAt_eq_setAt hx, setAt, updAt_eq_setAt (x := { x with lostSeq := x.lostSeq ++ [(gid, seq, 8, s.fabric.devnum.toNat)] })]
  · exact congrArg _ (congrArg (fun l => ({ s with ctxs := l } : State)) (setAt_setAt _ _ _ _))
  · rw [updAt_get?, if_pos rfl, hx]
    rfl

theorem exec_reductionSwitchLeaves {s : State} {id : Nat} {q : Cmd} (hq : s.running? id = some q) (hinnet : q.innet = true) :
    exec (.reductionSwitchLeaves id) s = .next (s.updCmd id fun k => { k with innet := false }) := by
  show execReductionSwitchLeaves id s = _
  simp only [execReductionSwitchLeaves, hq, hinnet, if_true]

/-! ## Opening a group (R406) -/

/-- A change of an element that a test does not see leaves where the test first holds. -/
theorem findIdx?_updAt {α : Type} (p : α → Bool) (f : α → α) : ∀ (l : List α) (i : Nat), (∀ x, l[i]? = some x → p (f x) = p x) →
    (updAt l i f).findIdx? p = l.findIdx? p
  | [], _, _ => rfl
  | x :: l, 0, h => by simp [updAt, List.findIdx?_cons, h x rfl]
  | x :: l, i + 1, h => by
    simp only [updAt, List.findIdx?_cons, findIdx?_updAt p f l i fun y hy => h y hy]

/-- What the opening of a group stores. -/
def openValue (gid : BitVec 16) : DWord := d64 (2 ^ 63 + gid.toNat)

/-- The fields of a group entry's control register that a store writes. -/
def groupFields : DWord := fieldMask 63 63 ||| fieldMask 15 0

/-- The register of a group that is opened, whatever stood there. -/
def openedReg (old : DWord) (gid : BitVec 16) : DWord := mergeReg old (openValue gid) (fieldMask 63 0) groupFields

theorem openedReg_gid (old : DWord) (gid : BitVec 16) : (openedReg old gid).setWidth 16 = gid := by
  have hfields : (fieldMask 63 0 &&& groupFields).setWidth 16 = BitVec.allOnes 16 := by decide
  have hvalue : (openValue gid).setWidth 16 = gid := by
    refine BitVec.eq_of_toNat_eq ?_
    have hgid := gid.isLt
    simp only [openValue, d64, BitVec.toNat_setWidth, BitVec.toNat_ofNat]
    omega
  rw [openedReg, mergeReg, BitVec.and_assoc (openValue gid), BitVec.setWidth_or, BitVec.setWidth_and, BitVec.setWidth_and,
    BitVec.setWidth_not (by decide), hfields, hvalue, BitVec.not_allOnes, BitVec.and_zero, BitVec.zero_or, BitVec.and_allOnes]

theorem openedReg_v (old : DWord) (gid : BitVec 16) : bit (openedReg old gid).toNat 63 = true := by
  have hgid := gid.isLt
  have hvalue : (openValue gid).getLsbD 63 = true := by
    simp only [openValue, d64, BitVec.getLsbD_ofNat, Nat.testBit_eq_decide_div_mod_eq]
    simp only [Nat.reduceLT, decide_true, Bool.true_and, decide_eq_true_eq]
    omega
  have hfields : fieldMask 63 0 &&& groupFields = 0x800000000000FFFF#64 := by decide
  have hbit : (openedReg old gid).getLsbD 63 = true := by
    rw [openedReg, mergeReg, BitVec.and_assoc (openValue gid), hfields, BitVec.getLsbD_or, BitVec.getLsbD_and (x := openValue gid), hvalue]
    simp
  rw [BitVec.getLsbD, Nat.testBit_eq_decide_div_mod_eq] at hbit
  exact hbit

/-- An entry that is opened. -/
theorem CollGroup.write_opened (g : CollGroup) (old : DWord) (gid : BitVec 16) :
    g.write (openedReg old gid).toNat true = ⟨true, false, gid, g.lost, 0, 0, 0⟩ := by
  have hgid : BitVec.ofNat 16 (openedReg old gid).toNat = gid := openedReg_gid old gid
  simp only [CollGroup.write, openedReg_v, hgid, if_true]

/-- The block of a context in which a group is opened in an entry, but for what is dropped. -/
def CtxBlock.opened (x : CtxBlock) (e : Nat) (gid : BitVec 16) (g : CollGroup) : CtxBlock :=
  { x with groups := setAt x.groups e ⟨true, false, gid, g.lost, 0, 0, 0⟩ }

/-- Opening a group in an entry leaves which entry names a group that the entry names as it did. -/
theorem CtxBlock.entryFor_opened {x : CtxBlock} {e : Nat} {gid : BitVec 16} {g : CollGroup} (hg : x.groups[e]? = some g) {i : Nat}
    (h : decide (gid.toNat = i) = (g.v && decide (g.gid.toNat = i))) : (x.opened e gid g).entryFor i = x.entryFor i :=
  findIdx?_updAt _ _ _ _ fun k hk => by
    rw [hg] at hk
    obtain rfl := Option.some.inj hk
    exact h

/-- A group is dropped that stood in an entry, where the write opens it there or takes it from there. -/
def CtxBlock.renewed (x y : CtxBlock) (e i : Nat) : Bool :=
  (x.entryFor i).isSome && ((true && y.entryFor i = some e) || y.entryFor i ≠ x.entryFor i)

theorem CtxBlock.writeGroup_opened {x : CtxBlock} {e : Nat} {g : CollGroup} (hg : x.groups[e]? = some g) (old : DWord) (gid : BitVec 16) :
    x.writeGroup e (openedReg old gid).toNat true =
      ([g.gid.toNat, gid.toNat].filter (x.renewed (x.opened e gid g) e)).foldl CtxBlock.forget (x.opened e gid g) := by
  have hgid : (openedReg old gid).toNat % 2 ^ 16 = gid.toNat := congrArg BitVec.toNat (openedReg_gid old gid)
  have hopened : ({ x with groups := updAt x.groups e fun g => g.write (openedReg old gid).toNat true } : CtxBlock) = x.opened e gid g := by
    rw [updAt_eq_setAt hg, CollGroup.write_opened, CtxBlock.opened]
  simp only [CtxBlock.writeGroup, hgid, hg, Option.map_some, Option.getD_some]
  rw [hopened]
  rfl

/-- A group that was not open drops nothing. -/
theorem CtxBlock.writeGroup_new {x : CtxBlock} {e : Nat} {g : CollGroup} (hg : x.groups[e]? = some g) (old : DWord) {gid : BitVec 16}
    (hclosed : g.v = false) (hnone : x.entryFor gid.toNat = none) : x.writeGroup e (openedReg old gid).toNat true = x.opened e gid g := by
  have hnew : x.renewed (x.opened e gid g) e gid.toNat = false := by simp [CtxBlock.renewed, hnone]
  have hold : x.renewed (x.opened e gid g) e g.gid.toNat = false := by
    by_cases hsame : gid.toNat = g.gid.toNat
    · rw [← hsame, hnew]
    · have hentry := CtxBlock.entryFor_opened (x := x) hg (i := g.gid.toNat) (gid := gid) (by simp [hsame, hclosed])
      have hother : x.entryFor g.gid.toNat ≠ some e := by
        intro hfirst
        obtain ⟨hlt, hp, -⟩ := List.findIdx?_eq_some_iff_getElem.1 hfirst
        obtain ⟨hlt', hget⟩ := List.getElem?_eq_some_iff.1 hg
        simp [hget, hclosed] at hp
      simp [CtxBlock.renewed, hentry, hother]
  rw [CtxBlock.writeGroup_opened hg, List.filter_cons, hold, List.filter_cons, hnew]
  rfl

/-- A group opened anew in its entry drops what was held for it. -/
theorem CtxBlock.writeGroup_again {x : CtxBlock} {e : Nat} {g : CollGroup} (hg : x.groups[e]? = some g) (old : DWord) {gid : BitVec 16}
    (hentry : x.entryFor gid.toNat = some e) :
    x.writeGroup e (openedReg old gid).toNat true = (x.opened e gid g).forget gid.toNat := by
  obtain ⟨hlt, hp, -⟩ := List.findIdx?_eq_some_iff_getElem.1 hentry
  obtain ⟨hlt', hget⟩ := List.getElem?_eq_some_iff.1 hg
  rw [hget, Bool.and_eq_true, decide_eq_true_eq] at hp
  obtain ⟨hv, hgid⟩ := hp
  have hafter := CtxBlock.entryFor_opened (x := x) hg (i := gid.toNat) (gid := gid) (by simp [hv, hgid])
  have hrenewed : x.renewed (x.opened e gid g) e gid.toNat = true := by simp [CtxBlock.renewed, hafter, hentry]
  have htwice (y : CtxBlock) : (y.forget gid.toNat).forget gid.toNat = y.forget gid.toNat := by
    simp [CtxBlock.forget, List.filter_filter]
  rw [CtxBlock.writeGroup_opened hg, hgid, List.filter_cons, hrenewed]
  simp only [if_true, List.filter_cons, hrenewed, List.filter_nil, List.foldl_cons, List.foldl_nil, htwice]

theorem exec_collGroupOpen {s : State} {ctx : BitVec 6} {entry : BitVec 5} {gid : BitVec 16} {x : CtxBlock}
    (hx : s.ctxs[ctx.toNat]? = some x) (hmay : s.csr.pl = 2 ∨ s.tenantOf ctx.toNat = s.csr.part.toNat) :
    ∃ old, exec (.collGroupOpen ctx entry gid) s = .next
      { s with ctxs := setAt s.ctxs ctx.toNat (x.writeGroup entry.toNat (openedReg old gid).toNat true) } := by
  have hreach (o : Nat) : s.ctlMay (.ctx ctx.toNat o) = true := by
    rcases hmay with hpl | htenant
    · simp [State.ctlMay, State.isHyper, hpl]
    · simp [State.ctlMay, htenant]
  have hentry := entry.isLt
  have hopens (old : DWord) : (touches (fieldMask 63 0) 63 63 && bit (openedReg old gid).toNat 63) = true := by
    rw [openedReg_v]
    decide
  refine ⟨s.ctxRead ctx.toNat (0xC00 + 32 * entry.toNat), ?_⟩
  show execCollGroupOpen ctx entry gid s = _
  rw [execCollGroupOpen, State.ctlStore, if_pos (hreach _), State.ctlWrite, State.ctxWrite]
  rw [if_neg (by omega), if_neg (by omega), if_neg (by omega), if_neg (by omega), if_neg (by omega),
    if_pos (by simp only [Bool.and_eq_true, decide_eq_true_eq]; omega), State.updCtx_eq hx]
  have hplace : (0xC00 + 32 * entry.toNat - 0xC00) / 32 = entry.toNat := by omega
  rw [hplace]
  refine congrArg (fun y => Host.Outcome.next ({ s with ctxs := setAt s.ctxs ctx.toNat y } : State)) ?_
  exact congrArg (x.writeGroup entry.toNat (openedReg (s.ctxRead ctx.toNat (0xC00 + 32 * entry.toNat)) gid).toNat) (hopens _)

/-! ## The obligation -/

/-- Settles O35: one equation for each event, under the conditions of its clause. -/
theorem collectiveEventsHaveTheirEffect : Obligations.CollectiveEventsHaveTheirEffect := by
  unfold Obligations.CollectiveEventsHaveTheirEffect
  refine ⟨?matched, ?differs, ?publish, ?shard, ?shardOwn, ?shardLost, ?failed, ?failedShard, ?failedEarly, ?leaves, ?flit, ?appended,
    ?goesOn, ?stalled, ?replay, ?replayPart, ?timeoutOwn, ?timeout, ?switchLeaves, ?opens, ?reopens⟩
  case matched =>
    exact fun s id innet q hq hcoll hunmatched hthere hcheck hcap hall hsame =>
      exec_collHashMatch hq hcoll hunmatched hthere hcheck hcap hall hsame
  case differs =>
    intro s id innet q dev hash hq hcoll hunmatched hthere hcheck hall hmem hmember hne hwaits
    rw [exec_collHashMatch_differs hq hcoll hunmatched hthere hcheck hall hmem hmember hne, State.failHeld_eq hwaits]
  case publish =>
    exact fun s id q tiles hq hcoll hmatched hhold hshard hthere hread hcheck hfirst hcap htiles =>
      exec_enginePublish_coll hq hcoll hmatched hhold hshard hthere hread hcheck hfirst hcap htiles
  case shard =>
    intro s id j dev q tile hq hcoll hshard hmatched hthere hcheck hrank hother hleft hloss htile hfirst hcap
    refine exec_collShardPublish ⟨hq, hcoll, hshard, hthere, hcheck, hrank, hleft⟩ hmatched hloss ?_ hfirst hcap
    rw [State.shardTile, if_neg hother, htile, Option.map_some]
  case shardOwn =>
    intro s id j q hq hcoll hshard hmatched hthere hcheck hrank hleft hloss hread hfirst hcap
    refine exec_collShardPublish ⟨hq, hcoll, hshard, hthere, hcheck, hrank, hleft⟩ hmatched hloss ?_ hfirst hcap
    rw [State.shardTile, if_pos rfl, if_pos hread]
  case shardLost =>
    exact fun s id j dev code q hq hcoll hshard hthere hcheck hrank hleft hloss hcap =>
      exec_collShardPublish_lost ⟨hq, hcoll, hshard, hthere, hcheck, hrank, hleft⟩ hloss hcap
  case failed =>
    intro s ctx gid dev seq q hq hmember hother hshard hthere hwaits
    rw [exec_collMemberFailure hq hmember hother, hshard, hthere, State.failHeld_eq hwaits]
    rfl
  case failedShard =>
    intro s ctx gid dev seq q hq hmember hother hshard
    rw [exec_collMemberFailure hq hmember hother, hshard]
    rfl
  case failedEarly => exact fun s ctx gid dev seq hq hunissued hother => exec_collMemberFailure_early hq hunissued hother
  case leaves => exact fun s ctx gid dev e hentry hwaits => exec_collMemberLeaves hentry hwaits
  case flit =>
    exact fun s ctx gid dev hash seq tile x hx hsched hgroup hnone hthere =>
      exec_flitArrival_delivers hx (State.flitHeld_false hsched hgroup hthere) hnone
  case appended =>
    rintro s ctx gid dev hash room seq tile x f hx hback hbv hnone hroom hpos rfl
    have hroom := CtxBlock.room_of hbv hroom
    rw [exec_flitArrival_backlogged hx (State.backlogged_of hx hback), CtxBlock.arrived_new (f := ⟨gid, seq, dev, hash, tile, 0, 0⟩) hroom
        hpos ⟨rfl, rfl⟩ hnone,
      if_pos (by rwa [hroom])]
  case goesOn =>
    intro s ctx room x f g pre post hx hback hbv hflits hothers hroom hpos hf
    have hroom := CtxBlock.room_of hbv hroom
    rw [exec_flitArrival_backlogged hx (State.backlogged_of hx hback),
      CtxBlock.arrived_more (a := ⟨g.gid, g.seq, g.dev, g.hash, g.tile, 0, 0⟩) hroom hflits hf ⟨rfl, rfl, rfl⟩ hothers,
      if_pos (by rwa [hroom])]
  case stalled =>
    intro s ctx gid dev hash seq tile x hx hback hfull hnone hstalls
    have hroom : x.room = 0 := by
      unfold CtxBlock.room
      rcases hfull with hbv | hfull
      · rw [if_neg (by rw [hbv]; decide)]
      · split
        · exact Nat.sub_eq_zero_of_le hfull
        · rfl
    rw [exec_flitArrival_backlogged hx (State.backlogged_of hx hback),
      CtxBlock.arrived_full (f := ⟨gid, seq, dev, hash, tile, 0, 0⟩) hroom hnone hstalls,
      if_neg (by rw [hroom]; decide)]
  case replay =>
    intro s ctx x f fs hx hflits hpos hwhole hsched hgroup hthere
    have hwhole : f.whole = true := decide_eq_true hwhole
    rw [exec_backlogReplay hx hflits hpos (State.flitHeld_false hsched hgroup hthere), CtxBlock.replayed_whole hflits hwhole,
      if_pos hwhole]
  case replayPart =>
    intro s ctx x f fs hx hflits hnot hpos hpart hsched hgroup hthere
    have hpart : f.whole = false := decide_eq_false (Nat.not_le.2 hpart)
    rw [exec_backlogReplay hx hflits hpos (State.flitHeld_false hsched hgroup hthere), CtxBlock.replayed_part hflits hnot hpart,
      if_neg (by rw [hpart]; decide)]
  case timeoutOwn =>
    intro s ctx gid seq q hq hthere hwaits
    rw [exec_backlogTimeout_own hq hthere, State.failHeld_eq hwaits]
  case timeout => exact fun s ctx gid dev since seq x hx hstall hover => exec_backlogTimeout_receiver hx hstall hover
  case switchLeaves => exact fun s id q hq hinnet => exec_reductionSwitchLeaves hq hinnet
  case opens =>
    rintro s ctx entry gid x y g hx hg hclosed hnone hmay rfl
    obtain ⟨old, hexec⟩ := exec_collGroupOpen (entry := entry) (gid := gid) hx hmay
    rw [hexec, CtxBlock.writeGroup_new hg old hclosed hnone]
    rfl
  case reopens =>
    rintro s ctx entry gid x y g hx hg hentry hmay rfl
    obtain ⟨old, hexec⟩ := exec_collGroupOpen (entry := entry) (gid := gid) hx hmay
    rw [hexec, CtxBlock.writeGroup_again hg old hentry]
    rfl

end Sys2Proof.Machine
end

section
/-!
# Legal levels (O60)

The management core's level changes in three places alone: a trap or an interrupt raises it (`State.enterTrapVec_legal`), ERET gives
back a level that it has found to be supervisor's or hypervisor's (`execEret_legal`), and a reset puts hypervisor's. Every other
operation leaves `csr.pl` as it is, so that a hypothesis `h` about a state serves, by unfolding, for each state that differs from it in
other fields. Below, `f_legal` says that `f` keeps a legal level through its branches and folds, and `f_yields` that a check before an
issue does not stand in the way of what the issue yields.
-/

namespace Sys2Proof.Machine

open Sys2Proof

/-- The management core stands at supervisor or hypervisor level: `State.levelOk` as a proposition. -/
abbrev State.Legal (s : State) : Prop := s.csr.pl = 1 ∨ s.csr.pl = 2

theorem State.levelOk_iff {s : State} : s.levelOk = true ↔ s.Legal := by
  simp only [State.levelOk, State.Legal, Bool.or_eq_true, decide_eq_true_eq]

/-- The state that an outcome answers is at a legal level. -/
def Out.Legal : Out → Prop
  | .next t => t.Legal
  | _ => True

theorem Out.ite_legal {c : Prop} [Decidable c] {x y : Out} (hx : Out.Legal x) (hy : Out.Legal y) :
    Out.Legal (if c then x else y) :=
  iteInduction (fun _ => hx) fun _ => hy

theorem State.ite_legal {c : Prop} [Decidable c] {s t : State} (hs : s.Legal) (ht : t.Legal) : (if c then s else t).Legal :=
  iteInduction (fun _ => hs) fun _ => ht

/-- A state that a step is taken from where a condition does not hold. -/
theorem State.iteElse_legal {c : Prop} [Decidable c] {s t : State} (hs : s.Legal) (ht : s.Legal → t.Legal) :
    (if c then s else t).Legal :=
  State.ite_legal hs (ht hs)

/-- A state that a step is taken from where a condition holds. -/
theorem State.iteThen_legal {c : Prop} [Decidable c] {s t : State} (hs : s.Legal) (ht : s.Legal → t.Legal) :
    (if c then t else s).Legal :=
  State.ite_legal (ht hs) hs

/-- A fold that carries a state beside other data keeps its level legal. -/
theorem foldl_fst_legal {α β : Type} {f : State × β → α → State × β} {l : List α} {b : State × β} (h : b.1.Legal)
    (hf : ∀ r a, r.1.Legal → (f r a).1.Legal) : (l.foldl f b).1.Legal :=
  foldl_keeps (P := fun r : State × β => r.1.Legal) h hf

/-! ## Checks before an issue -/

section
variable {P : State → Prop} {k : Except Stop State}

theorem guardTraps_yields {ts : List Trap} (hk : Yields P k) : Yields P (guardTraps ts k) := by
  unfold guardTraps
  split
  · trivial
  · exact hk

theorem guardGroup_yields {c : Ctx} {ts : List Trap} (hk : Yields P k) : Yields P (guardGroup c ts k) := by
  unfold guardGroup
  split
  · trivial
  · exact guardTraps_yields hk

theorem State.checked_yields {s : State} {f : Fields} (hk : Yields P k) : Yields P (s.checked f k) := by
  unfold State.checked
  split
  · split
    · exact hk
    · trivial
  · exact hk

end

/-! ## Traps, groups and commits -/

section
variable {s : State}

/-- A trap is taken at hypervisor level, and a fatal one where the core stands. -/
theorem State.enterTrapVec_legal {isInt : Bool} {code : Nat} {info ip : DWord} (h : s.Legal) :
    (s.enterTrapVec isInt code info ip).Legal :=
  State.ite_legal h (.inr rfl)

theorem State.takeTrap_legal {t : Trap} (h : s.Legal) : (s.takeTrap t).Legal := by
  unfold State.takeTrap
  dsimp only
  split
  · exact State.enterTrapVec_legal h
  · split <;> exact h

theorem State.finish_legal {r : Except Stop State} (h : s.Legal) (hr : Yields State.Legal r) : Out.Legal (s.finish r) :=
  match r, hr with
  | .ok _, hr => hr
  | .error (.trap _), _ => State.takeTrap_legal h
  | .error .hold, _ => h
  | .error (.wait _), _ => h

theorem State.setGroup_legal {i : Issuer} {g : Group} (h : s.Legal) : (s.setGroup i g).Legal :=
  match i with
  | .mgmt => h
  | .unit _ _ _ => h

theorem State.updGroup_legal {i : Issuer} {f : Group → Group} (h : s.Legal) : (s.updGroup i f).Legal := by
  unfold State.updGroup
  split
  · exact h
  · exact State.setGroup_legal h

theorem State.ready_legal {iss : Issuer} {g : Group} {ls : List Nat} {hinted : Word → Bool} {held : Option Nat} (h : s.Legal) :
    (s.ready iss g ls hinted held).Legal :=
  State.setGroup_legal h

theorem State.wake_legal {iss : Issuer} {ls : List Nat} {f : Nat → Thread → Thread} (h : s.Legal) : (s.wake iss ls f).Legal := by
  unfold State.wake
  dsimp only
  split
  · exact h
  · exact State.ready_legal h

theorem State.commitWith_legal {c : Ctx} {g : Group} {dest : Nat → Goto} {keep : Bool} {hint : Word} {extra : List Nat}
    {held : Bool} (h : s.Legal) :
    (s.commitWith c g dest keep hint extra held).Legal := by
  unfold State.commitWith
  dsimp only
  split
  · exact State.setGroup_legal h
  · exact State.ready_legal h

theorem State.commit_legal {c : Ctx} {g : Group} {dest : Nat → Goto} {keep : Bool} {hint : Word} (h : s.Legal) :
    (s.commit c g dest keep hint).Legal :=
  State.commitWith_legal h

theorem State.commitCur_legal {c : Ctx} (h : s.Legal) : (s.commitCur c).Legal :=
  State.commit_legal h

theorem State.commitMx_legal {c : Ctx} {o : MxOp} (h : s.Legal) : (s.commitMx c o).Legal :=
  State.commit_legal h

theorem State.parkUnit_legal {c : Ctx} {cmds : List Nat} (h : s.Legal) : (s.parkUnit c cmds).Legal :=
  State.commit_legal h

theorem State.parkLanes_legal {c : Ctx} {wait : Nat → List Nat} (h : s.Legal) : (s.parkLanes c wait).Legal :=
  State.commit_legal h

/-! ## The shared forms of issue -/

theorem State.withoutWaiting_legal {c : Ctx} {wait : Nat → List Nat} {run : State → Ctx → Except Stop State} (h : s.Legal)
    (hrun : ∀ t x, State.Legal t → Yields State.Legal (run t x)) :
    Yields State.Legal (s.withoutWaiting c wait run) := by
  unfold State.withoutWaiting
  dsimp only
  split
  · exact hrun _ _ h
  · split
    · exact State.parkLanes_legal h
    · exact hrun _ _ (State.setGroup_legal h)

theorem State.perThread_legal {f : Fields} {regs : Nat → List Nat} {checks : Ctx → List Nat → List Trap} {act : LaneOp}
    (h : s.Legal) :
    Yields State.Legal (s.perThread f regs checks act) := by
  unfold State.perThread
  dsimp only
  split
  · exact h
  · exact guardTraps_yields (State.withoutWaiting_legal h fun _ _ ht => guardTraps_yields (State.commit_legal ht))

theorem State.perGroup_legal {f : Fields} {regs : List Nat} {value : Ctx → Nat → DWord} {write : Group → Nat → DWord → Group}
    {also : Ctx → Group → Group} (h : s.Legal) :
    Yields State.Legal (s.perGroup f regs value write also) := by
  unfold State.perGroup
  dsimp only
  split
  · exact h
  · refine Yields.ite (State.parkUnit_legal h) (guardGroup_yields ?_)
    split <;> exact State.commit_legal h

/-- A form that runs once for the group where it names an S register, and in each lane where it does not. -/
theorem State.perEither_legal {f : Fields} {regs : List Nat} {value : Ctx → Nat → DWord} {write : Group → Nat → DWord → Group}
    {also : Ctx → Group → Group} {regs' : Nat → List Nat} {checks : Ctx → List Nat → List Trap} {act : LaneOp} (h : s.Legal) :
    Yields State.Legal (s.checked f (if f.namesS then s.perGroup f regs value write also else s.perThread f regs' checks act)) :=
  State.checked_yields (Yields.ite (State.perGroup_legal h) (State.perThread_legal h))

theorem State.compute_legal {op : Nat} {f : Fields} {pair : Bool} {value : State → Group → Nat → DWord} (h : s.Legal) :
    Out.Legal (s.finish (s.compute op f pair value)) :=
  State.finish_legal h (State.perEither_legal h)

theorem State.computePred_legal {op : Nat} {f : Fields} {value : State → Group → Nat → Bool} (h : s.Legal) :
    Out.Legal (s.finish (s.computePred op f value)) :=
  State.finish_legal h (State.perEither_legal h)

/-- A form that runs in each lane alone. -/
theorem State.lanewise_legal {f : Fields} {regs : Nat → List Nat} {checks : Ctx → List Nat → List Trap} {act : LaneOp}
    (h : s.Legal) :
    Out.Legal (s.finish (s.checked f (s.perThread f regs checks act))) :=
  State.finish_legal h (State.checked_yields (State.perThread_legal h))

/-- A form that draws in each lane under SR, and computes a value where it does not. -/
theorem State.drawOrCompute_legal {c : Prop} [Decidable c] {op : Nat} {f : Fields} {regs : Nat → List Nat}
    {checks : Ctx → List Nat → List Trap} {act : LaneOp} {pair : Bool} {value : State → Group → Nat → DWord} (h : s.Legal) :
    Out.Legal (if c then s.finish (s.checked f (s.perThread f regs checks act)) else s.finish (s.compute op f pair value)) :=
  Out.ite_legal (State.lanewise_legal h) (State.compute_legal h)

theorem State.memForm_legal {op : Nat} {f : Fields} {run : State → Ctx → List Agent → Except Stop State} (h : s.Legal)
    (hrun : ∀ t x y, State.Legal t → Yields State.Legal (run t x y)) :
    Out.Legal (s.memForm op f run) := by
  refine State.finish_legal h ?_
  dsimp only
  split
  · exact h
  · split
    · refine Yields.ite (State.parkUnit_legal h) (guardGroup_yields ?_)
      split
      · exact hrun _ _ _ h
      · exact State.commit_legal h
    · exact guardTraps_yields (State.withoutWaiting_legal h fun _ _ ht => hrun _ _ _ ht)

theorem State.control_legal {op : Nat} {f : Fields} {run : State → Ctx → List Nat → Except Stop State} (h : s.Legal)
    (hrun : ∀ t x y, State.Legal t → Yields State.Legal (run t x y)) :
    Out.Legal (s.control op f run) := by
  refine State.finish_legal h ?_
  dsimp only
  split
  · exact h
  · exact guardTraps_yields (State.withoutWaiting_legal h fun _ _ ht => hrun _ _ _ ht)

theorem State.matrixForm_legal {op : Nat} {f : Fields} {rows : List Nat} {quarters counted : Bool}
    {run : State → Ctx → Home → Except Stop State} (h : s.Legal)
    (hrun : ∀ t x y, State.Legal t → Yields State.Legal (run t x y)) :
    Out.Legal (s.matrixForm op f rows quarters counted run) := by
  refine State.finish_legal h ?_
  dsimp only
  split
  · refine Yields.ite (State.parkUnit_legal h) (guardGroup_yields ?_)
    split
    · exact State.commit_legal h
    · split
      · trivial
      · exact hrun _ _ _ h
  · exact h

theorem State.powerForm_legal {op : Nat} {f : Fields} {run : State → Nat → Nat → Nat → Word × State} (h : s.Legal)
    (hrun : ∀ t x y z, State.Legal t → (run t x y z).2.Legal) :
    Out.Legal (s.powerForm op f run) := by
  refine State.finish_legal h ?_
  dsimp only
  split
  · refine Yields.ite (State.parkUnit_legal h) (guardGroup_yields ?_)
    split
    · exact State.commit_legal h
    · exact State.commit_legal (hrun _ _ _ _ h)
  · exact h

theorem State.crossLane_legal {op : Nat} {f : Fields} {c : Ctx} {wide : Bool} {suppliers : List Nat} {act : Group → Nat → Group}
    (h : s.Legal) :
    Yields State.Legal (s.crossLane op f c wide suppliers act) := by
  unfold State.crossLane
  dsimp only
  split
  · exact State.parkUnit_legal h
  · split
    · exact guardGroup_yields (State.commit_legal h)
    · exact guardTraps_yields (State.commit_legal h)

theorem State.quadOp_legal {op : Nat} {f : Fields} {src : State → Ctx → Nat → Nat} (h : s.Legal) :
    Out.Legal (s.quadOp op f src) := by
  refine State.finish_legal h ?_
  dsimp only
  split
  · exact h
  · split
    · exact State.commit_legal h
    · split
      · exact State.parkUnit_legal h
      · exact guardTraps_yields (State.commit_legal h)

theorem State.system_legal {i : Instr} {run : Out} (h : s.Legal) (hrun : Out.Legal run) : Out.Legal (s.system i run) := by
  unfold State.system
  split
  · exact State.takeTrap_legal h
  · exact hrun

end

end Sys2Proof.Machine
end

section
/-!
# Legal levels: registers, accesses and control (O60)
-/

namespace Sys2Proof.Machine

open Sys2Proof

section
variable {s : State}

/-! ## Accesses -/

theorem State.writeLoc_legal {l : Loc} {n x : Nat} (h : s.Legal) : (s.writeLoc l n x).Legal := by
  unfold State.writeLoc
  split <;> exact h

theorem State.snoopOut_legal {l : Loc} (h : s.Legal) : (s.snoopOut l).Legal := by
  unfold State.snoopOut
  split <;> exact h

theorem State.touchVa_legal {ctx va n : Nat} (h : s.Legal) : (s.touchVa ctx va n).Legal := by
  unfold State.touchVa
  refine foldl_keeps h fun _ _ ht => State.ite_legal ?_ ht
  split <;> exact ht

theorem State.touchAll_legal {write : Bool} {ps : List Place} (h : s.Legal) : (s.touchAll write ps).Legal := by
  unfold State.touchAll
  refine foldl_keeps h fun _ _ ht => ?_
  split <;> exact ht

theorem State.touchPages_legal {b : Block} {ps : List Xlate} {write : Bool} (h : s.Legal) : (s.touchPages b ps write).Legal :=
  foldl_keeps h fun _ _ ht => foldl_keeps ht fun _ _ hu => hu

theorem State.flushSys_legal {lane : Nat} (h : s.Legal) : (s.flushSys lane).Legal := by
  unfold State.flushSys
  dsimp only
  split
  · exact h
  · exact State.setGroup_legal h

theorem State.flushHits_legal {lane a size : Nat} (h : s.Legal) : (s.flushHits lane a size).Legal := by
  unfold State.flushHits
  dsimp only
  split
  · exact h
  · exact State.setGroup_legal h

theorem State.setScratch_legal {part : Nat} {m : Memory} (h : s.Legal) : (s.setScratch part m).Legal := by
  unfold State.setScratch
  dsimp only
  split <;> exact h

theorem State.scribble_legal {ws : List Loc} (h : s.Legal) : (s.scribble ws).Legal :=
  foldl_keeps (P := State.Legal) h fun _ _ ht => State.writeLoc_legal (State.snoopOut_legal ht)

theorem State.fillPages_legal {b : Block} {ps : List Xlate} (h : s.Legal) : (s.fillPages b ps).Legal :=
  State.scribble_legal (State.touchPages_legal h)

theorem State.fillSlot_legal {b : Block} (h : s.Legal) : (s.fillSlot b).Legal :=
  State.fillPages_legal h

theorem State.slotPark_legal {b : Block} {k va : Nat} {write : Bool} (h : s.Legal) : (s.slotPark b k va write).Legal :=
  State.ite_legal h h

/-! ## The link stack and overlays -/

theorem State.spill_legal {lane off : Nat} {x : DWord} (h : s.Legal) : Yields State.Legal (s.spill lane off x) := by
  unfold State.spill
  dsimp only
  split
  · exact State.setScratch_legal h
  · split
    · trivial
    · exact State.onAnswer_canon (State.writeLoc_legal (State.snoopOut_legal (State.flushSys_legal h)))

theorem State.refill_legal {lane off : Nat} (h : s.Legal) : Yields (fun r => r.2.Legal) (s.refill lane off) := by
  unfold State.refill
  dsimp only
  split
  · split
    · trivial
    · exact h
  · split
    · trivial
    · split
      · trivial
      · refine State.onAnswer_canon (P := fun r : DWord × State => r.2.Legal) (show State.Legal _ from ?_)
        split
        · exact State.flushHits_legal h
        · exact h

theorem State.push_legal {g : Group} {l : Nat} {ip : DWord} (h : s.Legal) : Yields (fun r => r.1.Legal) (s.push g l ip) := by
  unfold State.push
  dsimp only
  split
  · trivial
  · split
    · exact Yields.bind (State.spill_legal h) fun _ ht => ht
    · exact h

theorem State.pop_legal {g : Group} {l : Nat} (h : s.Legal) : Yields (fun r => r.1.Legal) (s.pop g l) := by
  unfold State.pop
  dsimp only
  split
  · exact Yields.bind (State.refill_legal h) fun _ hr => hr
  · exact h

theorem State.pushAll_legal {g : Group} {ip : Nat → DWord} {ls : List Nat} (h : s.Legal) :
    Yields (fun r => r.1.Legal) (s.pushAll g ip ls) := by
  induction ls generalizing s g with
  | nil => exact h
  | cons l ls ih => exact Yields.bind (State.push_legal h) fun r hr => ih hr

theorem State.popAll_legal {g : Group} {ls : List Nat} (h : s.Legal) : Yields (fun r => r.1.Legal) (s.popAll g ls) := by
  induction ls generalizing s g with
  | nil => exact h
  | cons l ls ih => exact Yields.bind (State.pop_legal h) fun r hr => ih hr

theorem State.markLoading_legal {ovlOf : Nat → Nat} {ls : List Nat} (h : s.Legal) : (s.markLoading ovlOf ls).Legal := by
  unfold State.markLoading
  dsimp only
  split <;> exact h

theorem State.overlayTrap_legal {c : Ctx} {g : Group} {target : Nat → DWord} {ls : List Nat} {keep : Bool} (h : s.Legal) :
    Yields State.Legal (s.overlayTrap c g target ls keep) :=
  Yields.bind (State.pushAll_legal h) fun _ hr => State.commit_legal (State.markLoading_legal hr)

theorem State.releaseOverlay_legal {launch core ovl : Nat} (h : s.Legal) : (s.releaseOverlay launch core ovl).Legal :=
  foldl_keeps h fun _ _ ht => State.ite_legal (foldl_keeps ht fun _ _ hu => State.ite_legal (State.wake_legal hu) hu) ht

theorem State.dropLoaders_legal {b g : Nat} {m : Word} (h : s.Legal) : (s.dropLoaders b g m).Legal :=
  foldl_keeps (P := State.Legal) h fun _ _ ht => State.releaseOverlay_legal ht

theorem State.retire_legal {b : Nat} (h : s.Legal) : (s.retire b).Legal := by
  unfold State.retire
  dsimp only
  split
  · exact h
  · exact State.ite_legal h h

/-! ## Control instructions -/

theorem State.transfer_legal {c : Ctx} {on : List Nat} {target : Nat → DWord} {hint : Word}
    {pre : State → List Nat → Except Stop (State × Group)} (h : s.Legal)
    (hpre : ∀ t x, State.Legal t → Yields (fun r => r.1.Legal) (pre t x)) :
    Yields State.Legal (s.transfer c on target hint pre) := by
  refine guardTraps_yields ?_
  dsimp only
  split
  · exact Yields.bind (hpre _ _ h) fun _ hr => State.overlayTrap_legal hr
  · exact guardTraps_yields (Yields.bind (hpre _ _ h) fun _ hr => State.commit_legal hr)

theorem execBra_legal {f : Fields} (h : s.Legal) : Out.Legal (execBra f s) :=
  State.control_legal h fun _ _ _ ht => State.transfer_legal ht fun _ _ hu => hu

theorem execBrx_legal {f : Fields} (h : s.Legal) : Out.Legal (execBrx f s) :=
  State.control_legal h fun _ _ _ ht => State.transfer_legal ht fun _ _ hu => hu

theorem execCall_legal {f : Fields} (h : s.Legal) : Out.Legal (execCall f s) :=
  State.control_legal h fun _ _ _ ht => State.transfer_legal ht fun _ _ hu => State.pushAll_legal hu

theorem execCallx_legal {f : Fields} (h : s.Legal) : Out.Legal (execCallx f s) :=
  State.control_legal h fun _ _ _ ht => State.transfer_legal ht fun _ _ hu => State.pushAll_legal hu

theorem execRet_legal {f : Fields} (h : s.Legal) : Out.Legal (execRet f s) :=
  State.control_legal h fun _ _ _ ht => guardTraps_yields
    (Yields.bind (State.popAll_legal ht) fun _ hr => State.commit_legal (State.markLoading_legal hr))

theorem execLoop_legal {f : Fields} (h : s.Legal) : Out.Legal (execLoop f s) :=
  State.control_legal h fun _ _ _ ht => guardTraps_yields (State.commit_legal ht)

theorem execLoopb_legal {f : Fields} (h : s.Legal) : Out.Legal (execLoopb f s) :=
  State.control_legal h fun _ _ _ ht => guardTraps_yields (State.commit_legal ht)

theorem execJwait_legal {f : Fields} (h : s.Legal) : Out.Legal (execJwait f s) :=
  State.control_legal h fun _ _ _ ht => State.commitWith_legal ht

theorem execYield_legal {f : Fields} (h : s.Legal) : Out.Legal (execYield f s) :=
  State.control_legal h fun _ _ _ ht => State.commitWith_legal ht

theorem execNop_legal {f : Fields} (h : s.Legal) : Out.Legal (execNop f s) :=
  State.control_legal h fun _ _ _ ht => State.commit_legal ht

theorem execJset_legal {f : Fields} (h : s.Legal) : Out.Legal (execJset f s) := by
  refine State.control_legal h fun _ _ _ ht => ?_
  dsimp only
  split
  · exact State.commit_legal ht
  · exact State.commitWith_legal ht

theorem execJdrop_legal {f : Fields} (h : s.Legal) : Out.Legal (execJdrop f s) := by
  refine State.control_legal h fun _ _ _ ht => ?_
  dsimp only
  split
  · exact State.commit_legal ht
  · exact State.commitWith_legal ht

theorem execExit_legal {f : Fields} (h : s.Legal) : Out.Legal (execExit f s) := by
  refine State.control_legal h fun _ _ _ ht => guardTraps_yields ?_
  dsimp only
  split
  · exact State.commitWith_legal ht
  · exact State.retire_legal (State.dropLoaders_legal (State.commitWith_legal ht))

theorem execKill_legal {f : Fields} (h : s.Legal) : Out.Legal (execKill f s) := by
  refine State.control_legal h fun _ _ _ ht => guardTraps_yields ?_
  dsimp only
  split
  · exact State.commit_legal ht
  · split
    · exact State.setGroup_legal ht
    · exact State.retire_legal (State.dropLoaders_legal (State.setGroup_legal ht))

theorem execBrk_legal {f : Fields} (h : s.Legal) : Out.Legal (execBrk f s) := by
  refine State.control_legal h fun _ _ _ ht => ?_
  split
  · exact State.commit_legal ht
  · trivial

theorem execOvmap_legal {f : Fields} (h : s.Legal) : Out.Legal (execOvmap f s) := by
  refine State.control_legal h fun t c on ht => ?_
  dsimp only
  split
  · exact ht
  · refine guardTraps_yields ?_
    split
    · trivial
    · exact foldl_keeps (P := State.Legal) (State.commit_legal ht) fun _ _ hu => State.releaseOverlay_legal hu

theorem execTrapu_legal {f : Fields} (h : s.Legal) : Out.Legal (execTrapu f s) :=
  State.control_legal h fun _ _ _ ht => Yields.bind (State.pushAll_legal ht) fun _ hr => State.commit_legal hr

end

end Sys2Proof.Machine
end

section
/-!
# Legal levels: commands, barriers and control registers (O60)
-/

namespace Sys2Proof.Machine

open Sys2Proof

section
variable {s : State}

/-! ## Capture and replay -/

theorem State.capAppend_legal {kind ctx part : Nat} {payload : List Byte} (h : s.Legal) :
    (s.capAppend kind ctx part payload).Legal :=
  State.ite_legal h (State.ite_legal h h)

theorem State.capWait_legal {mine : List Byte → Bool} (h : s.Legal) : (s.capWait mine).Legal :=
  State.ite_legal h h

theorem State.capPass_legal {n : Nat} (h : s.Legal) : (State.capPass n s).Legal := by
  induction n generalizing s with
  | zero => exact h
  | succ n ih =>
    unfold State.capPass
    dsimp only
    split
    · exact h
    · split
      · exact h
      · exact ih h

theorem State.capMatch_legal {ctx : Nat} {mine : List Byte → Bool} (h : s.Legal) : (s.capMatch ctx mine).Legal :=
  State.ite_legal (State.capPass_legal h) h

theorem State.capPublish_legal {c : Cmd} {bar code bytes : Nat} (h : s.Legal) : (s.capPublish c bar code bytes).Legal :=
  State.ite_legal (State.capMatch_legal (State.capAppend_legal h)) (State.capWait_legal (State.capAppend_legal h))

/-! ## Barrier objects -/

theorem State.setScratchOf_legal {b part : Nat} {m : Memory} (h : s.Legal) : (s.setScratchOf b part m).Legal :=
  State.ite_legal h h

theorem State.setBar_legal {b part off n : Nat} (h : s.Legal) : (s.setBar b part off n).Legal :=
  State.setScratchOf_legal h

theorem State.releaseBar_legal {b part off : Nat} {all : Bool} (h : s.Legal) : (s.releaseBar b part off all).Legal := by
  unfold State.releaseBar
  refine State.ite_legal (State.wake_legal h) ?_
  split
  · exact h
  · exact foldl_keeps h fun _ _ ht => State.wake_legal ht

theorem State.arrive_legal {b part off arrivals bytes bexp : Nat} (h : s.Legal) :
    (s.arrive b part off arrivals bytes bexp).Legal :=
  State.ite_legal (State.releaseBar_legal (State.setBar_legal h)) (State.setBar_legal h)

/-! ## Commands that end -/

theorem State.wakeHandles_legal {b : Nat} (h : s.Legal) : (s.wakeHandles b).Legal := by
  unfold State.wakeHandles
  split
  · exact h
  · exact foldl_keeps h fun _ _ ht => State.wake_legal ht

theorem State.completeCmd_legal {c : Cmd} {code bytes : Nat} (h : s.Legal) : (s.completeCmd c code bytes).Legal :=
  State.wakeHandles_legal (State.ite_legal (State.ite_legal h h) (State.capPublish_legal (State.ite_legal h h)))

theorem State.cmdArrives_legal {c : Cmd} {bar code bytes : Nat} (h : s.Legal) : (s.cmdArrives c bar code bytes).Legal :=
  State.arrive_legal (State.ite_legal h (State.setBar_legal h))

theorem State.endCmd_legal {c : Cmd} {code bytes : Nat} {arrives : Bool} (h : s.Legal) : (s.endCmd c code bytes arrives).Legal :=
  State.ite_legal (State.cmdArrives_legal (State.completeCmd_legal h)) (State.completeCmd_legal h)

theorem State.failCmd_legal {c : Cmd} {code : Nat} {reset : Option Nat} (h : s.Legal) : (s.failCmd c code reset).Legal := by
  have hset (set : List Cmd) : (set.foldl (fun s h => s.endCmd h 6 0 (reset != some h.bar)) s).Legal :=
    foldl_keeps h fun _ _ ht => State.endCmd_legal ht
  refine State.ite_legal h (State.ite_legal ?_ (State.endCmd_legal (hset _)))
  exact foldl_keeps (State.completeCmd_legal (hset _)) fun _ _ ht => State.iteThen_legal
    (State.capPublish_legal ht) State.cmdArrives_legal

theorem State.failHeld_legal {c : Cmd} {code : Nat} (h : s.Legal) : (s.failHeld c code).Legal :=
  State.ite_legal (State.capWait_legal h) (State.failCmd_legal h)

theorem State.publish_legal {buf : Option BufKey} {ws : List (Nat × Byte)} (h : s.Legal) : (s.publish buf ws).Legal := by
  unfold State.publish
  split
  · exact State.ite_legal (State.setScratchOf_legal h) (State.setScratchOf_legal h)
  · unfold State.publishReg
    dsimp only
    split <;> exact h
  · exact h

/-! ## Queues, partitions and contexts -/

theorem State.updQueue_legal {q : Nat} {f : Queue → Queue} (h : s.Legal) : (s.updQueue q f).Legal := by
  unfold State.updQueue
  dsimp only
  split
  · exact h
  · exact State.ite_legal h h

theorem State.haltQueue_legal {k code : Nat} (h : s.Legal) : (s.haltQueue k code).Legal :=
  State.updQueue_legal h

theorem State.advanceQueue_legal {k : Nat} (h : s.Legal) : (s.advanceQueue k).Legal :=
  State.updQueue_legal h

theorem State.pollWait_legal {k : Nat} (h : s.Legal) : (s.pollWait k).Legal := by
  unfold State.pollWait
  dsimp only
  split
  · exact h
  · refine State.ite_legal ?_ h
    split
    · exact State.haltQueue_legal h
    · exact State.ite_legal (State.advanceQueue_legal (State.touchVa_legal h)) (State.touchVa_legal h)

theorem State.pollWaits_legal (h : s.Legal) : s.pollWaits.Legal :=
  State.ite_legal h (foldl_keeps (P := State.Legal) h fun _ _ ht => State.pollWait_legal ht)

theorem State.queueTail_legal {q : Nat} {tail : Word} (h : s.Legal) : (s.queueTail q tail).Legal :=
  State.pollWaits_legal (State.updQueue_legal (s := s) h)

theorem State.queueResume_legal {q : Nat} (h : s.Legal) : (s.queueResume q).Legal :=
  State.updQueue_legal h

theorem State.queueWrite_legal {q reg : Nat} {x mask : DWord} {hyper : Bool} (h : s.Legal) :
    (s.queueWrite q reg x mask hyper).Legal := by
  unfold State.queueWrite
  dsimp only
  split
  · exact h
  · refine State.ite_legal h ?_
    split
    · exact State.ite_legal h (State.updQueue_legal h)
    · exact State.ite_legal (State.queueResume_legal (State.updQueue_legal h)) (State.updQueue_legal h)
    · exact State.ite_legal h (State.updQueue_legal h)
    · exact State.ite_legal (State.queueTail_legal h) h
    · exact h

theorem State.partitionReset_legal {p : Nat} (h : s.Legal) : (s.partitionReset p).Legal := by
  unfold State.partitionReset
  split
  · exact h
  · refine State.ite_legal h (foldl_keeps (P := State.Legal) ?_ fun _ _ ht => State.failCmd_legal ht)
    exact foldl_keeps (P := State.Legal) h fun _ _ ht => State.ite_legal ht ht

theorem State.partitionResetDone_legal {p : Nat} (h : s.Legal) : (s.partitionResetDone p).Legal := by
  unfold State.partitionResetDone
  dsimp only
  split
  · exact h
  · exact State.ite_legal h h

theorem State.tenantWrite_legal {p o : Nat} {x mask : DWord} (h : s.Legal) : (s.tenantWrite p o x mask).Legal := by
  unfold State.tenantWrite
  dsimp only
  -- one register for each line, in the order of the definition
  refine State.ite_legal (State.ite_legal (State.partitionReset_legal h) h) ?_
  refine State.ite_legal (State.ite_legal h h) ?_
  refine State.ite_legal h ?_
  refine State.ite_legal h ?_
  refine State.ite_legal (State.ite_legal h h) ?_
  refine State.ite_legal (State.ite_legal h h) ?_
  refine State.ite_legal h ?_
  refine State.ite_legal (State.ite_legal h h) ?_
  refine State.ite_legal (State.ite_legal h h) ?_
  refine State.ite_legal h ?_
  refine State.ite_legal (State.ite_legal h h) ?_
  refine State.ite_legal h ?_
  exact State.ite_legal (State.ite_legal (State.ite_legal (State.snoopOut_legal h) h) h) h

theorem State.moveDeferred_legal {k : Nat} {f : CtxBlock → CtxBlock} (h : s.Legal) : (s.moveDeferred k f).Legal :=
  State.ite_legal h h

theorem State.ctxWrite_legal {k o : Nat} {x mask : DWord} (h : s.Legal) : (s.ctxWrite k o x mask).Legal := by
  unfold State.ctxWrite
  dsimp only
  refine State.ite_legal h ?_
  refine State.ite_legal (State.moveDeferred_legal h) ?_
  refine State.ite_legal (State.moveDeferred_legal h) ?_
  exact State.ite_legal h (State.ite_legal h (State.ite_legal h h))

theorem State.ctlClear_legal {r : CtlReg} {mask : DWord} (h : s.Legal) : (s.ctlClear r mask).Legal := by
  unfold State.ctlClear
  dsimp only
  split <;> exact h

theorem State.ctlWrite_legal {r : CtlReg} {x mask : DWord} {hyper : Bool} (h : s.Legal) : (s.ctlWrite r x mask hyper).Legal := by
  unfold State.ctlWrite
  split
  · exact State.queueWrite_legal h
  · exact State.tenantWrite_legal h
  · exact State.ctxWrite_legal h

theorem State.ctlStore_legal {r : CtlReg} {x : DWord} (h : s.Legal) : (s.ctlStore r x).Legal :=
  State.ite_legal (State.ctlWrite_legal h) h

end

end Sys2Proof.Machine
end

section
/-!
# Legal levels: memory, pin, barrier and engine instructions (O60)
-/

namespace Sys2Proof.Machine

open Sys2Proof

section
variable {s : State}

/-! ## Moves -/

theorem execMov_legal {f : Fields} (h : s.Legal) : Out.Legal (execMov f s) := by
  unfold execMov
  split
  · exact State.drawOrCompute_legal h
  · exact State.compute_legal h

theorem execVstx_legal {f : Fields} (h : s.Legal) : Out.Legal (execVstx f s) :=
  State.finish_legal h (Yields.map (State.checked_yields (State.perThread_legal h)) fun _ ht => ht)

/-! ## Loads, stores and atomics -/

theorem State.afterRead_legal {p : Place} {size : Nat} (h : s.Legal) : (s.afterRead p size).Legal := by
  unfold State.afterRead
  split
  · exact State.ctlClear_legal h
  · exact State.ite_legal h h
  · exact h

theorem State.writePlace_legal {p : Place} {size x : Nat} (h : s.Legal) : (s.writePlace p size x).Legal := by
  unfold State.writePlace
  split
  · exact State.writeLoc_legal (State.snoopOut_legal h)
  · exact State.ctlWrite_legal h
  · exact State.setScratch_legal h
  · exact h
  · exact h

theorem State.eventOrder_legal {ls : List Nat} (h : s.Legal) : (s.eventOrder ls).2.Legal := by
  unfold State.eventOrder
  split <;> exact h

theorem State.beforeAccess_legal {l : Nat} {p : Place} {size : Nat} {store : Bool} (h : s.Legal) :
    (s.beforeAccess l p size store).Legal := by
  unfold State.beforeAccess
  split
  · split
    · exact State.ite_legal (State.flushSys_legal h) (State.flushHits_legal h)
    · exact State.ite_legal (State.flushSys_legal h) h
  · exact State.ite_legal (State.flushSys_legal h) h
  · exact State.ite_legal (State.flushSys_legal h) h
  · exact h

theorem State.deadTrap_legal {kind : Nat} {ps : List (Nat × Place)} {act : State → Nat × Place → State} {r : Except Stop State}
    (h : s.Legal) (hact : ∀ t p, t.Legal → (act t p).Legal) (hr : s.deadTrap kind ps act = some r) : Yields State.Legal r := by
  unfold State.deadTrap at hr
  dsimp only at hr
  split at hr
  · cases hr
    exact State.takeTrap_legal (foldl_keeps (P := State.Legal) (State.touchAll_legal (State.eventOrder_legal h)) hact)
  · split at hr
    · cases hr
    · cases hr
      trivial

theorem State.helpersAnswered_legal {ps : List (Nat × Place)} (h : s.Legal) : (s.helpersAnswered ps).Legal := by
  unfold State.helpersAnswered
  split <;> exact h

theorem State.loadEvent_legal {size : Nat} {found : List (Nat × Place)} {r : State × List (Nat × Nat)} {l : Nat}
    (hr : r.1.Legal) :
    (State.loadEvent size found r l).1.Legal := by
  unfold State.loadEvent
  split
  · exact hr
  · exact State.afterRead_legal (State.beforeAccess_legal hr)

theorem State.loadRun_legal {f : Fields} {sp : Space} {kind : Nat} {c : Ctx} {agents : List Agent} (h : s.Legal) :
    Yields State.Legal (s.loadRun f sp kind c agents) := by
  refine guardTraps_yields ?_
  dsimp only
  split
  · trivial
  · split
    next r hr => exact State.deadTrap_legal h (fun _ _ ht => State.afterRead_legal (State.beforeAccess_legal ht)) hr
    next =>
      refine State.commitCur_legal (State.updGroup_legal (foldl_fst_legal ?_ fun _ _ hr => State.loadEvent_legal hr))
      exact State.touchAll_legal (State.eventOrder_legal (State.helpersAnswered_legal h))

theorem State.storeEvent_legal {l : Nat} {ms : List Nat} {p : Place} {size x : Nat} (h : s.Legal) :
    (s.storeEvent l ms p size x).Legal :=
  State.updGroup_legal (State.ite_legal h (State.writePlace_legal (State.beforeAccess_legal h)))

theorem State.storeRun_legal {f : Fields} {sp : Space} {kind : Nat} {c : Ctx} {agents : List Agent} (h : s.Legal) :
    Yields State.Legal (s.storeRun f sp kind c agents) := by
  refine guardTraps_yields ?_
  dsimp only
  split
  · trivial
  · split
    next r hr => exact State.deadTrap_legal h (fun _ _ ht => State.writePlace_legal (State.beforeAccess_legal ht)) hr
    next =>
      refine State.commitCur_legal (foldl_keeps (State.touchAll_legal (State.eventOrder_legal h)) fun _ _ ht => ?_)
      split
      · exact State.storeEvent_legal ht
      · exact ht

theorem State.rmw_legal {size : Nat} {new : DWord → Nat} {p : Place} (h : s.Legal) : (s.rmw size new p).2.Legal :=
  State.writePlace_legal (State.afterRead_legal h)

theorem State.atomEvent_legal {size : Nat} {new : Nat → DWord → Nat} {mine : List (Nat × Place)} {r : State × List (Nat × DWord)}
    {l : Nat} (hr : r.1.Legal) : (State.atomEvent size new mine r l).1.Legal := by
  unfold State.atomEvent
  split
  · exact State.rmw_legal (State.beforeAccess_legal hr)
  · exact hr

theorem State.atomRun_legal {f : Fields} {sp : Space} {kind : Nat} {ret : Bool} {c : Ctx} {agents : List Agent} (h : s.Legal) :
    Yields State.Legal (s.atomRun f sp kind ret c agents) := by
  refine guardTraps_yields (Yields.ite trivial ?_)
  dsimp only
  split
  next r hr => exact State.deadTrap_legal h (fun _ _ ht => State.rmw_legal (State.beforeAccess_legal ht)) hr
  next =>
    have hrun (ls : List Nat) (size : Nat) (new : Nat → DWord → Nat) (mine : List (Nat × Place)) (t : State) (ht : t.Legal) :
        (ls.foldl (State.atomEvent size new mine) (t, [])).1.Legal :=
      foldl_fst_legal ht fun _ _ hr => State.atomEvent_legal hr
    exact State.commitCur_legal (State.updGroup_legal (hrun _ _ _ _ _ (State.touchAll_legal (State.eventOrder_legal h))))

theorem execPref_legal {f : Fields} (h : s.Legal) : Out.Legal (execPref f s) :=
  State.memForm_legal h fun _ _ _ ht => State.commit_legal (State.touchAll_legal ht)

theorem execFsys_legal {f : Fields} (h : s.Legal) : Out.Legal (execFsys f s) := by
  refine State.memForm_legal h fun _ _ _ ht => ?_
  split
  · trivial
  · exact State.commit_legal ht

theorem execStorePerformed_legal {b g l : Nat} (h : s.Legal) : Out.Legal (execStorePerformed b g l s) := by
  unfold execStorePerformed
  dsimp only
  split
  · exact h
  · split
    · exact h
    · exact State.setGroup_legal h

theorem execPageWalk_legal {ctx va : Nat} (h : s.Legal) : Out.Legal (execPageWalk ctx va s) := by
  unfold execPageWalk
  dsimp only
  split
  · exact h
  · split <;> exact h

theorem execRemoteAccess_legal {kind fn : Nat} {ty : Ty} {a : Nat} {x y : DWord} (h : s.Legal) :
    Out.Legal (execRemoteAccess kind fn ty a x y s) := by
  refine Out.ite_legal h ?_
  split
  · exact h
  · exact State.snoopOut_legal h
  · exact Out.ite_legal h (State.snoopOut_legal h)

theorem execFabricTimeout_legal {cmd dev : Nat} (h : s.Legal) : Out.Legal (execFabricTimeout cmd dev s) := by
  refine Out.ite_legal h (Out.ite_legal h ?_)
  split
  · exact h
  · exact Out.ite_legal (State.failHeld_legal h) h

theorem execHostMemAccess_legal {write prot : Bool} {a size x : Nat} (h : s.Legal) :
    Out.Legal (execHostMemAccess write prot a size x s) := by
  unfold execHostMemAccess
  dsimp only
  split
  · exact h
  · split
    · exact h
    · split
      · exact h
      · split <;> exact h

/-! ## Pins and free rings -/

theorem State.pinRun_legal {f : Fields} {name : Ctx → Nat → DWord} {c : Ctx} {agents : List Agent} (h : s.Legal) :
    Yields State.Legal (s.pinRun f name c agents) :=
  guardTraps_yields (State.commit_legal (State.eventOrder_legal h))

theorem execReclaim_legal {f : Fields} (h : s.Legal) : Out.Legal (execReclaim f s) := by
  refine State.memForm_legal h fun _ _ _ ht => guardTraps_yields ?_
  dsimp only
  split
  · trivial
  · exact State.commit_legal (foldl_keeps (P := State.Legal) ht fun _ _ hu => hu)

theorem State.writeDeferred_legal {ctx : Nat} (h : s.Legal) : (s.writeDeferred ctx).Legal := by
  unfold State.writeDeferred
  dsimp only
  split
  · exact h
  · exact State.scribble_legal h

theorem State.searchResult_legal {q : Search} {remote : Nat} (h : s.Legal) : (s.searchResult q remote).2.Legal :=
  iteInduction (motive := fun r : Nat × State => r.2.Legal) (fun _ => h) fun _ =>
    iteInduction (motive := fun r : Nat × State => r.2.Legal) (fun _ => h) fun _ => State.writeDeferred_legal h

theorem execReclaimSearchComplete_legal {id remote : Nat} (h : s.Legal) : Out.Legal (execReclaimSearchComplete id remote s) := by
  unfold execReclaimSearchComplete
  dsimp only
  split
  · exact h
  · exact State.wake_legal (State.updGroup_legal (State.searchResult_legal h))

theorem State.storeAt_legal {ctx : Nat} {x : Xlate} {n v : Nat} (h : s.Legal) : (s.storeAt ctx x n v).Legal :=
  State.writeLoc_legal (State.snoopOut_legal h)

theorem State.append_legal {d : Deferred} (h : s.Legal) : (s.append d).Legal := by
  unfold State.append
  split
  · exact h
  · exact State.ite_legal h h
  next entry header head _ =>
    have hname : (if d.moved then (s.drawFor d.ctx).free else (d.name, s)).2.Legal := by
      split <;> exact h
    have hstored (t : State) (v : Nat) (ht : t.Legal) : ((t.storeAt d.ctx entry 8 v).storeAt d.ctx header 4 head).Legal :=
      State.storeAt_legal (State.storeAt_legal ht)
    dsimp only
    split
    · exact State.ite_legal (hstored _ _ hname) (State.arrive_legal (hstored _ _ hname))
    · exact hstored _ _ hname

theorem execFreeRingAppend_legal {k : Nat} {clear : Bool} (h : s.Legal) : Out.Legal (execFreeRingAppend k clear s) := by
  unfold execFreeRingAppend
  dsimp only
  split
  · exact Out.ite_legal (State.append_legal (State.ite_legal h h)) (State.ite_legal h h)
  · exact State.ite_legal h h

theorem execRingAppendRetry_legal {k : Nat} (h : s.Legal) : Out.Legal (execRingAppendRetry k s) := by
  unfold execRingAppendRetry
  split
  · exact Out.ite_legal (State.append_legal h) h
  · exact h

/-! ## Barrier instructions and handles -/

theorem State.brst_legal {b part off phase : Nat} (h : s.Legal) : (s.brst b part off phase).Legal :=
  State.releaseBar_legal (State.ite_legal (foldl_keeps (State.setBar_legal h) fun _ _ ht => State.failCmd_legal ht)
    (State.setBar_legal (foldl_keeps (State.setBar_legal h) fun _ _ ht => State.failCmd_legal ht)))

theorem State.binit_legal {b part off expa expb : Nat} (h : s.Legal) : (s.binit b part off expa expb).Legal :=
  State.setBar_legal (State.brst_legal h)

theorem State.barRun_legal {op : Nat} {f : Fields} {reads : Bool} {act : State → (Opnd → Nat) → Nat → Nat → Nat → State}
    (h : s.Legal) (hact : ∀ t x y z w, State.Legal t → (act t x y z w).Legal) :
    Out.Legal (s.barRun op f reads act) := by
  refine State.memForm_legal h fun _ _ _ ht => guardTraps_yields ?_
  dsimp only
  split
  · trivial
  · refine State.commitCur_legal (foldl_keeps (State.eventOrder_legal ht) fun _ _ hu => ?_)
    split
    · exact hact _ _ _ _ _ (State.beforeAccess_legal hu)
    · exact hu

theorem execBinit_legal {f : Fields} (h : s.Legal) : Out.Legal (execBinit f s) :=
  State.barRun_legal h fun _ _ _ _ _ ht => State.binit_legal ht

theorem execBarv_legal {f : Fields} (h : s.Legal) : Out.Legal (execBarv f s) :=
  State.barRun_legal h fun _ _ _ _ _ ht => State.arrive_legal ht

theorem execBexp_legal {f : Fields} (h : s.Legal) : Out.Legal (execBexp f s) :=
  State.barRun_legal h fun _ _ _ _ _ ht => State.arrive_legal ht

theorem execBrst_legal {f : Fields} (h : s.Legal) : Out.Legal (execBrst f s) :=
  State.barRun_legal h fun _ _ _ _ _ ht => State.brst_legal ht

theorem State.phaseRead_legal {op : Nat} {f : Fields}
    {act : Ctx → List (Agent × Nat × Nat × Nat × Nat) → State → Except Stop State} (h : s.Legal)
    (hact : ∀ x y t, State.Legal t → Yields State.Legal (act x y t)) :
    Out.Legal (s.phaseRead op f act) := by
  refine State.memForm_legal h fun _ _ _ ht => guardTraps_yields ?_
  dsimp only
  split
  · trivial
  · exact hact _ _ _ ht

theorem execBwait_legal {f : Fields} (h : s.Legal) : Out.Legal (execBwait f s) :=
  State.phaseRead_legal h fun _ _ _ ht => State.commit_legal ht

theorem execBtest_legal {f : Fields} (h : s.Legal) : Out.Legal (execBtest f s) :=
  State.phaseRead_legal h fun _ _ _ ht => State.commit_legal ht

theorem execHtest_legal {f : Fields} (h : s.Legal) : Out.Legal (execHtest f s) :=
  State.memForm_legal h fun _ _ _ ht => State.commit_legal ht

theorem execHcancel_legal {f : Fields} (h : s.Legal) : Out.Legal (execHcancel f s) :=
  State.memForm_legal h fun _ _ _ ht => State.commit_legal (foldl_keeps ht fun _ _ hu => State.ite_legal hu hu)

theorem execCwait_legal {f : Fields} (h : s.Legal) : Out.Legal (execCwait f s) := by
  refine State.memForm_legal h fun _ _ _ ht => ?_
  split
  · exact State.commit_legal ht
  · trivial

/-! ## Engine commands -/

theorem State.takeSequence_legal {c : Cmd} (h : s.Legal) : (s.takeSequence c).2.Legal := by
  unfold State.takeSequence
  split
  · exact h
  · split
    · exact h
    · split <;> exact h

theorem State.acceptCmd_legal {r : Nat} {lanes : List Nat} {cmd : Cmd} (h : s.Legal) : (s.acceptCmd r lanes cmd).Legal :=
  State.updGroup_legal (State.takeSequence_legal (c := { cmd with id := s.newId.1 }) (s := s.newId.2) h)

theorem State.engineAccept_legal {f : Fields} {e : EngForm} {record : Nat → List Byte} {c : Ctx} {agents : List Agent}
    (h : s.Legal) :
    Yields State.Legal (s.engineAccept f e record c agents) :=
  guardTraps_yields (Yields.ite trivial (State.commitCur_legal (State.updGroup_legal
    (foldl_keeps h fun _ _ ht => State.acceptCmd_legal ht))))

theorem State.engineIssue_legal {op : Nat} {f : Fields} {e : EngForm} (h : s.Legal) : Out.Legal (s.engineIssue op f e) := by
  refine State.finish_legal h ?_
  dsimp only
  split
  · exact h
  · split
    · exact guardGroup_yields (Yields.ite (State.parkUnit_legal h) (State.engineAccept_legal h))
    · exact guardTraps_yields (State.withoutWaiting_legal h fun _ _ ht => State.engineAccept_legal ht)

theorem State.touchSources_legal {c : Cmd} {off len : Nat} (h : s.Legal) : (s.touchSources c off len).Legal :=
  foldl_keeps h fun _ _ ht => ht

theorem execEngineSourceRead_legal {id off len : Nat} (h : s.Legal) : Out.Legal (execEngineSourceRead id off len s) := by
  unfold execEngineSourceRead
  split
  · exact h
  · refine Out.ite_legal h ?_
    split
    · exact h
    · exact State.touchSources_legal h

theorem execEnginePublish_legal {id : Nat} (h : s.Legal) : Out.Legal (execEnginePublish id s) := by
  unfold execEnginePublish
  dsimp only
  split
  · exact h
  · refine Out.ite_legal h (Out.ite_legal ?_ (Out.ite_legal (State.capWait_legal h)
      (State.endCmd_legal (State.ite_legal h (State.publish_legal h)))))
    split
    · exact Out.ite_legal (Out.ite_legal (State.capWait_legal h) (State.endCmd_legal (State.publish_legal h))) h
    · exact h

theorem execHoldSetPublish_legal {id : Nat} (h : s.Legal) : Out.Legal (execHoldSetPublish id s) := by
  unfold execHoldSetPublish
  dsimp only
  split
  · exact h
  · refine Out.ite_legal h ?_
    split
    · exact State.failHeld_legal h
    · exact Out.ite_legal h (Out.ite_legal (State.capWait_legal h)
        (State.endCmd_legal (foldl_keeps (State.ite_legal h (State.publish_legal h)) fun _ _ ht => State.endCmd_legal ht)))

theorem execCommandFail_legal {id pos : Nat} (h : s.Legal) : Out.Legal (execCommandFail id pos s) := by
  unfold execCommandFail
  split
  · exact h
  · refine Out.ite_legal h ?_
    split
    · exact State.failHeld_legal h
    · refine Out.ite_legal h ?_
      split
      · exact State.failHeld_legal h
      · exact h

theorem execCommandCancel_legal {id : Nat} (h : s.Legal) : Out.Legal (execCommandCancel id s) := by
  unfold execCommandCancel
  split
  · exact h
  · exact Out.ite_legal (State.failHeld_legal h) h

/-! ## Collectives -/

theorem execCollHashMatch_legal {id : Nat} {innet : Bool} (h : s.Legal) : Out.Legal (execCollHashMatch id innet s) := by
  unfold execCollHashMatch
  dsimp only
  split
  · exact h
  · exact Out.ite_legal h (Out.ite_legal (State.failHeld_legal h)
      (Out.ite_legal (State.capWait_legal h) (State.capMatch_legal (State.capAppend_legal h))))

theorem State.endShard_legal {c : Cmd} {j code : Nat} {ws : List (Nat × Byte)} (h : s.Legal) : (s.endShard c j code ws).Legal :=
  State.cmdArrives_legal (State.iteElse_legal
    (State.capPublish_legal (State.ite_legal (State.publish_legal h) h)) State.completeCmd_legal)

theorem execCollShardPublish_legal {id j : Nat} (h : s.Legal) : Out.Legal (execCollShardPublish id j s) := by
  unfold execCollShardPublish
  dsimp only
  split
  · exact h
  · refine Out.ite_legal h ?_
    split
    · exact Out.ite_legal (State.capWait_legal h) (State.endShard_legal h)
    · split
      · exact h
      · exact Out.ite_legal h (Out.ite_legal (State.capWait_legal h) (State.endShard_legal h))

theorem execCollMemberFailure_legal {ctx gid : Nat} {seq : Word} {dev : Nat} (h : s.Legal) :
    Out.Legal (execCollMemberFailure ctx gid seq dev s) := by
  unfold execCollMemberFailure
  split
  · exact Out.ite_legal h (Out.ite_legal h (Out.ite_legal (State.failHeld_legal h) h))
  · exact Out.ite_legal h h

theorem execCollMemberLeaves_legal {ctx gid dev : Nat} (h : s.Legal) : Out.Legal (execCollMemberLeaves ctx gid dev s) := by
  unfold execCollMemberLeaves
  dsimp only
  split
  · exact h
  · split
    · exact State.capWait_legal h
    · exact foldl_keeps (P := State.Legal) h fun _ _ ht => State.failCmd_legal ht

theorem State.deliver_legal {ctx : Nat} {f : Flit} (h : s.Legal) : (s.deliver ctx f).Legal := by
  unfold State.deliver
  split
  · exact h
  · exact State.ite_legal h h

theorem State.writeBacklog_legal {ctx : Nat} (h : s.Legal) : (s.writeBacklog ctx).Legal := by
  unfold State.writeBacklog
  dsimp only
  split
  · exact h
  · exact State.scribble_legal h

theorem execCollectiveFlitArrival_legal {ctx gid : Nat} {seq : Word} {dev hash : Nat} {tile : List Byte} (h : s.Legal) :
    Out.Legal (execCollectiveFlitArrival ctx gid seq dev hash tile s) :=
  Out.ite_legal (State.ite_legal (State.writeBacklog_legal h) h) (State.deliver_legal h)

theorem execBacklogReplay_legal {ctx : Nat} (h : s.Legal) : Out.Legal (execBacklogReplay ctx s) := by
  unfold execBacklogReplay
  split
  · exact h
  · exact Out.ite_legal h (State.deliver_legal h)

theorem execBacklogTimeout_legal {own : Bool} {ctx gid : Nat} {seq : Word} (h : s.Legal) :
    Out.Legal (execBacklogTimeout own ctx gid seq s) := by
  refine Out.ite_legal ?_ (Out.ite_legal h h)
  split
  · exact Out.ite_legal (State.failHeld_legal h) h
  · exact h

theorem execReductionSwitchLeaves_legal {id : Nat} (h : s.Legal) : Out.Legal (execReductionSwitchLeaves id s) := by
  unfold execReductionSwitchLeaves
  split
  · exact Out.ite_legal h h
  · exact h

end

end Sys2Proof.Machine
end

section
/-!
# Legal levels: the matrix unit and power (O60)
-/

namespace Sys2Proof.Machine

open Sys2Proof

section
variable {s : State}

/-! ## Matrix instructions -/

theorem State.readWords_legal {part off n : Nat} (h : s.Legal) : (s.readWords part off n).2.Legal := by
  induction n with
  | zero => exact h
  | succ n ih => exact State.afterRead_legal (p := .scr part (off + 8 * n)) (size := 8) ih

theorem execBld_legal {f : Fields} (h : s.Legal) : Out.Legal (execBld f s) := by
  refine State.matrixForm_legal h fun _ c _ ht => ?_
  dsimp only
  split
  · trivial
  · split
    · trivial
    · exact guardTraps_yields (Yields.ite trivial (State.commitMx_legal (State.readWords_legal ht)))

theorem execBldReg_legal {f : Fields} (h : s.Legal) : Out.Legal (execBldReg f s) := by
  unfold execBldReg
  refine State.matrixForm_legal h fun _ _ _ ht => ?_
  dsimp only
  split
  · trivial
  · exact State.commitMx_legal ht

theorem execMmaq_legal {f : Fields} (h : s.Legal) : Out.Legal (execMmaq f s) := by
  unfold execMmaq
  exact State.matrixForm_legal h fun _ _ _ ht => guardTraps_yields (State.commitMx_legal ht)

theorem execAcwr_legal {f : Fields} (h : s.Legal) : Out.Legal (execAcwr f s) := by
  unfold execAcwr
  exact State.matrixForm_legal h fun _ _ _ ht => guardTraps_yields (State.commitMx_legal ht)

theorem execScacc_legal {f : Fields} (h : s.Legal) : Out.Legal (execScacc f s) := by
  unfold execScacc
  exact State.matrixForm_legal h fun _ _ _ ht => guardTraps_yields (State.commitMx_legal ht)

theorem State.mmasTrap_legal {b : Nat} {a : MmasArrival} (h : s.Legal) : (s.mmasTrap b a).Legal :=
  State.takeTrap_legal (State.wake_legal h)

theorem State.mmasArrive_legal {c : Ctx} {hm : Home} {a : MmasArrival} {f : Fields} (h : s.Legal) :
    Yields State.Legal (s.mmasArrive c hm a f) := by
  unfold State.mmasArrive
  dsimp only
  split
  · trivial
  · split
    · exact State.commit_legal h
    · split
      · exact State.commitMx_legal (foldl_keeps (P := State.Legal) h fun _ _ ht => State.wake_legal (State.updGroup_legal ht))
      · exact State.takeTrap_legal (foldl_keeps (P := State.Legal) h fun _ _ ht => State.mmasTrap_legal ht)

theorem execMmas_legal {f : Fields} (h : s.Legal) : Out.Legal (execMmas f s) :=
  State.matrixForm_legal h fun _ _ _ ht => guardTraps_yields (State.mmasArrive_legal ht)

theorem State.giveGranules_legal {b part core sector : Nat} {gs : List Nat} {fill : Bool} (h : s.Legal) :
    (s.giveGranules b part core sector gs fill).Legal :=
  h

theorem execAcalloc_legal {f : Fields} (h : s.Legal) : Out.Legal (execAcalloc f s) := by
  refine State.matrixForm_legal h fun _ _ _ ht => ?_
  dsimp only
  split
  · trivial
  · split
    · trivial
    · split
      · trivial
      · split
        · exact State.commit_legal (State.giveGranules_legal ht)
        · exact State.commit_legal ht

theorem State.granuleForm_legal {op : Nat} {f : Fields} {i : Instr} (h : s.Legal) : Out.Legal (s.granuleForm op f i) := by
  refine State.matrixForm_legal h fun _ _ _ ht => ?_
  dsimp only
  split
  · trivial
  · exact guardTraps_yields (State.commitMx_legal ht)

theorem execAcrd_legal {f : Fields} (h : s.Legal) : Out.Legal (execAcrd f s) :=
  State.matrixForm_legal h fun _ _ _ ht => guardTraps_yields (State.commit_legal ht)

theorem execCbld_legal {f : Fields} (h : s.Legal) : Out.Legal (execCbld f s) := by
  refine State.matrixForm_legal h fun t c _ ht => ?_
  dsimp only
  split
  · trivial
  next p o _ =>
    refine guardTraps_yields (Yields.ite trivial ?_)
    generalize hread : t.readWords p o 132 = r
    have hr : r.2.Legal := hread ▸ State.readWords_legal ht
    exact State.commit_legal hr

/-! ## Accumulators -/

theorem State.acmGrant_legal {core sector : Nat} {r : AcmReq} (h : s.Legal) : (s.acmGrant core sector r).Legal := by
  unfold State.acmGrant
  dsimp only
  split
  · exact h
  · split
    · exact h
    · exact State.wake_legal (State.updGroup_legal h)

theorem execAcmGrant_legal {core sector : Nat} (h : s.Legal) : Out.Legal (execAcmGrant core sector s) := by
  unfold execAcmGrant
  split
  · exact h
  · exact Out.ite_legal (State.acmGrant_legal h) h

theorem execAcmEvict_legal {core sector : Nat} (h : s.Legal) : Out.Legal (execAcmEvict core sector s) := by
  unfold execAcmEvict
  split
  · exact h
  · refine Out.ite_legal h ?_
    split
    · exact h
    · exact Out.ite_legal h h

theorem State.fillSpill_legal {b : Block} {part sector : Nat} (h : s.Legal) : (s.fillSpill b part sector).Legal :=
  State.fillPages_legal h

theorem State.readSpill_legal {b : Block} {part sector : Nat} (h : s.Legal) : (s.readSpill b part sector).Legal :=
  State.touchPages_legal h

theorem execAcmSpillDone_legal {b part sector : Nat} (h : s.Legal) : Out.Legal (execAcmSpillDone b part sector s) := by
  unfold execAcmSpillDone
  dsimp only
  split
  · exact State.slotPark_legal h
  · show State.Legal (State.updPart _ _ _ _)
    split
    · exact State.ite_legal (State.fillSpill_legal h) h
    · exact h

theorem execAcmRestore_legal {b part sector : Nat} (h : s.Legal) : Out.Legal (execAcmRestore b part sector s) := by
  unfold execAcmRestore
  dsimp only
  split
  · exact State.slotPark_legal h
  · show State.Legal (State.updPart _ _ _ _)
    split
    · exact State.ite_legal (State.readSpill_legal h) h
    · exact h

theorem State.mxPerform_legal {hm : Home} {g : Group} {o : MxOp} (h : s.Legal) : (s.mxPerform hm g o).Legal := by
  unfold State.mxPerform
  dsimp only
  split
  iterate 8 exact h
  · exact State.setGroup_legal h
  · exact h

theorem State.acrdRead_legal {b g : Nat} (h : s.Legal) : (s.acrdRead b g).Legal := by
  unfold State.acrdRead
  split
  · split
    · exact State.updGroup_legal h
    · exact h
  · exact h

theorem State.mxFinish_legal {hm : Home} {o : MxOp} (h : s.Legal) : (s.mxFinish hm o).Legal := by
  unfold State.mxFinish
  dsimp only
  split
  · exact h
  · exact State.updGroup_legal (State.mxPerform_legal h)

theorem State.mmasRead_legal {hm : Home} {o : MxOp} {t : State} (h : s.Legal) (ht : s.mmasRead hm o = some t) : t.Legal := by
  unfold State.mmasRead at ht
  dsimp only at ht
  split at ht
  · cases ht
  · cases ht
    exact foldl_keeps h fun _ _ hu => State.updGroup_legal hu

theorem execMatrixComplete_legal {b g : Nat} (h : s.Legal) : Out.Legal (execMatrixComplete b g s) := by
  have hdrawn : (s.drawForBlock b).Legal := h
  unfold execMatrixComplete
  split
  · dsimp only
    split
    · exact h
    · refine Out.ite_legal (State.mxFinish_legal hdrawn) ?_
      split
      · exact h
      next t ht =>
        split
        · exact State.mxFinish_legal (State.mmasRead_legal hdrawn ht)
        · exact State.mmasRead_legal hdrawn ht
  · exact h

/-! ## Power -/

theorem execCohortLevelAdopt_legal {d : Nat} (h : s.Legal) : Out.Legal (execCohortLevelAdopt d s) := by
  unfold execCohortLevelAdopt
  dsimp only
  split
  · exact h
  · exact Out.ite_legal h h

theorem execBurn_legal {f : Fields} (h : s.Legal) : Out.Legal (execBurn f s) :=
  State.powerForm_legal h fun _ _ _ _ ht => ht

theorem execShunt_legal {f : Fields} (h : s.Legal) : Out.Legal (execShunt f s) :=
  State.powerForm_legal h fun _ _ _ _ ht => ht

theorem execPlreq_legal {f : Fields} (h : s.Legal) : Out.Legal (execPlreq f s) :=
  State.powerForm_legal h fun _ _ _ _ ht => ht

theorem State.pairForm_legal {op : Nat} {f : Fields} {x : State → DWord} (h : s.Legal) : Out.Legal (s.pairForm op f x) :=
  State.finish_legal h (State.perThread_legal h)

theorem execBalq_legal {f : Fields} (h : s.Legal) : Out.Legal (execBalq f s) :=
  State.pairForm_legal h

theorem execEnrd_legal {f : Fields} (h : s.Legal) : Out.Legal (execEnrd f s) :=
  State.pairForm_legal h

theorem State.raiseCap_legal (h : s.Legal) : s.raiseCap.Legal := by
  unfold State.raiseCap
  dsimp only
  split <;> exact h

theorem State.capControl_legal {proj : Nat} (h : s.Legal) : (s.capControl proj).Legal := by
  have hlim : ((List.range 4).foldl (fun s d => if s.overLimit d then s.stepCap d false else s) s).Legal :=
    foldl_keeps h fun _ _ ht => State.ite_legal ht ht
  unfold State.capControl
  dsimp only
  generalize (List.range 4).foldl (fun s d => if s.overLimit d then s.stepCap d false else s) s = t at hlim ⊢
  refine State.ite_legal ?_ (State.ite_legal (State.ite_legal (State.raiseCap_legal hlim) (State.raiseCap_legal hlim)) hlim)
  split
  · exact hlim
  · exact State.ite_legal hlim hlim

theorem execBalanceSample_legal {cols : List ColumnReading} {falls : List (List (Nat × Nat))} {power : List Nat}
    {energy proj : Nat} (h : s.Legal) : Out.Legal (execBalanceSample cols falls power energy proj s) :=
  State.capControl_legal (foldl_keeps (P := State.Legal) h fun _ _ ht => State.ite_legal ht ht)

theorem execImbalRelease_legal {col : Nat} (h : s.Legal) : Out.Legal (execImbalRelease col s) := by
  unfold execImbalRelease
  split
  · exact h
  · exact Out.ite_legal h h

theorem execTokret_legal {k : Nat} (h : s.Legal) : Out.Legal (execTokret k s) := by
  unfold execTokret
  dsimp only
  split
  · exact h
  · exact Out.ite_legal h h

theorem execThermalPoll_legal {temps : List Nat} (h : s.Legal) : Out.Legal (execThermalPoll temps s) :=
  State.ite_legal h h

end

end Sys2Proof.Machine
end

section
/-!
# Legal levels: control registers and system instructions (O60)
-/

namespace Sys2Proof.Machine

open Sys2Proof

section
variable {s : State}

/-! ## Registers -/

theorem State.csrClear_legal {n i : Nat} {mask : DWord} (h : s.Legal) : (s.csrClear n i mask).Legal := by
  unfold State.csrClear
  split
  iterate 3 exact State.ite_legal h h
  exact h

theorem State.relevel_legal (h : s.Legal) : s.relevel.Legal :=
  h

theorem State.withCtxids_legal {valid : BitVec 64} {part : List (BitVec 3)} {asid : List (BitVec 16)} {nbv : List (BitVec 2)}
    {ctxs : List CtxBlock} (h : s.Legal) :
    State.Legal { s with csr := { s.csr with ctxValid := valid, ctxPart := part, ctxAsid := asid, nbv := nbv }, ctxs := ctxs } :=
  h

theorem State.writeCtxid_legal {k : Nat} {x mask : DWord} (h : s.Legal) : (s.writeCtxid k x mask).Legal := by
  refine State.ite_legal ?_ ?_
  · exact State.relevel_legal (State.withCtxids_legal h)
  · exact State.withCtxids_legal h

theorem State.writeSwmatrix_legal {i : Nat} {x mask : DWord} (h : s.Legal) : (s.writeSwmatrix i x mask).Legal :=
  State.ite_legal (State.ite_legal h h) h

theorem State.writePtBase_legal {k : Nat} {x : DWord} (h : s.Legal) : (s.writePtBase k x).Legal :=
  State.ite_legal h h

theorem State.skipLanes_legal {b g : Nat} {lanes : Word} {pair : Bool} (h : s.Legal) : (s.skipLanes b g lanes pair).Legal := by
  unfold State.skipLanes
  dsimp only
  split
  · exact h
  · exact State.ready_legal h

theorem State.killBlock_legal {b : Nat} (h : s.Legal) : (s.killBlock b).Legal := by
  unfold State.killBlock
  dsimp only
  split
  · exact h
  · exact State.retire_legal (foldl_keeps h fun _ _ ht => State.dropLoaders_legal (State.updGroup_legal ht))

theorem State.pairAgain_legal {b g : Nat} {lanes : Word} (h : s.Legal) : (s.pairAgain b g lanes).Legal :=
  State.updGroup_legal h

theorem State.dropRequests_legal {e : Event} (h : s.Legal) : (s.dropRequests e).Legal :=
  State.ite_legal h h

theorem State.applyAnswer_legal {e : Event} (h : s.Legal) : (s.applyAnswer e).Legal := by
  unfold State.applyAnswer
  dsimp only
  split
  · exact State.killBlock_legal (State.dropRequests_legal h)
  · exact foldl_keeps (State.dropRequests_legal h) fun _ _ ht => State.skipLanes_legal ht
  · exact State.ite_legal (foldl_keeps (State.dropRequests_legal h) fun _ _ ht => State.pairAgain_legal ht)
      (State.dropRequests_legal h)
  · exact State.dropRequests_legal h

theorem State.answer_legal {seq : Nat} {a : Answer} {hyper : Bool} (h : s.Legal) : (s.answer seq a hyper).Legal := by
  unfold State.answer
  dsimp only
  split
  · exact h
  · exact State.ite_legal h (State.applyAnswer_legal h)

theorem State.writeBlkctl_legal {x mask : DWord} {hyper : Bool} (h : s.Legal) : (s.writeBlkctl x mask hyper).Legal := by
  unfold State.writeBlkctl
  dsimp only
  split
  · exact State.answer_legal h
  · exact h

theorem Csrs.ite_pl {c : Prop} [Decidable c] {x y : Csrs} {pl : BitVec 2} (hx : x.pl = pl) (hy : y.pl = pl) :
    (if c then x else y).pl = pl :=
  iteInduction (motive := fun z : Csrs => z.pl = pl) (fun _ => hx) fun _ => hy

/-- EVQ's write leaves the level. -/
theorem Csrs.writeEvq_pl (c : Csrs) (i : Nat) (x mask : DWord) : (c.writeEvq i x mask).pl = c.pl :=
  Csrs.ite_pl rfl (Csrs.ite_pl (x := { c with evqBase := _ }) rfl rfl)

/-- CAPREC's write leaves the level. -/
theorem Csrs.writeCapRec_pl (c : Csrs) (i : Nat) (x mask : DWord) : (c.writeCapRec i x mask).pl = c.pl := by
  unfold Csrs.writeCapRec
  split
  · rfl
  · exact Csrs.ite_pl rfl rfl
  · exact Csrs.ite_pl rfl rfl
  · rfl
  · exact Csrs.ite_pl rfl rfl

/-- Registers replaced by others of the same level. -/
theorem State.withCsr_legal {c : Csrs} (h : s.Legal) (hc : c.pl = s.csr.pl) : State.Legal { s with csr := c } := by
  rwa [State.Legal, hc]

/-- No register's write changes the level: of MSTAT's fields PL is read-only (R303). -/
theorem State.csrWrite_legal {n i : Nat} {x mask : DWord} {hyper : Bool} (h : s.Legal) : (s.csrWrite n i x mask hyper).Legal := by
  unfold State.csrWrite
  dsimp only
  split
  · exact State.withCsr_legal h rfl
  · exact State.ite_legal (State.withCsr_legal h rfl) h
  iterate 6 exact State.withCsr_legal h rfl
  · exact State.withCsr_legal h (Csrs.writeEvq_pl ..)
  · exact State.writeBlkctl_legal h
  · exact State.ite_legal (State.writeCtxid_legal h) h
  · exact State.writePtBase_legal h
  · exact State.ite_legal h (State.withCsr_legal h rfl)
  · exact State.ite_legal (State.withCsr_legal h rfl) h
  · exact State.ite_legal (State.withCsr_legal h rfl) h
  · exact State.ite_legal (State.ite_legal h h) h
  · exact State.ite_legal (State.ite_legal h h) h
  · exact State.ite_legal (State.ite_legal h h) (State.ite_legal h h)
  · exact State.ite_legal (State.writeSwmatrix_legal h) h
  · exact State.ite_legal (State.withCsr_legal h (Csrs.writeCapRec_pl ..)) h
  · exact h

theorem execCsrr_legal {f : Fields} (h : s.Legal) : Out.Legal (execCsrr f s) :=
  State.system_legal h (State.memForm_legal h fun _ _ _ ht => guardTraps_yields
    (State.commitCur_legal (foldl_keeps ht fun _ _ hu => State.updGroup_legal (State.csrClear_legal hu))))

theorem execCsrw_legal {f : Fields} (h : s.Legal) : Out.Legal (execCsrw f s) :=
  State.system_legal h (State.memForm_legal h fun _ _ _ ht => guardTraps_yields
    (State.commitCur_legal (foldl_keeps ht fun _ _ hu => State.csrWrite_legal hu)))

theorem execReadToClear_legal {csr : Bool} {n i : Nat} (h : s.Legal) : Out.Legal (execReadToClear csr n i s) := by
  refine Out.ite_legal (State.csrClear_legal h) ?_
  split
  · exact Out.ite_legal (State.ctlClear_legal h) h
  · exact h

/-! ## System instructions -/

/-- A level of 2 bits that is neither 0 nor 3 is supervisor's or hypervisor's. -/
theorem legal_of_between {pl : BitVec 2} (h0 : pl.toNat ≠ 0) (h3 : pl.toNat ≠ 3) : pl = 1 ∨ pl = 2 := by
  have hlt := pl.isLt
  rcases (by omega : pl.toNat = 1 ∨ pl.toNat = 2) with h | h
  · exact .inl (BitVec.eq_of_toNat_eq h)
  · exact .inr (BitVec.eq_of_toNat_eq h)

/-- ERET gives back PPL alone, which it refuses where it is 0 or 3 (R315). -/
theorem execEret_legal {f : Fields} (h : s.Legal) : Out.Legal (execEret f s) := by
  refine State.system_legal h (State.memForm_legal h fun t _ _ ht => ?_)
  dsimp only
  split
  · exact State.commit_legal ht
  · split
    · trivial
    next hlevel =>
      split
      · trivial
      · simp only [Bool.or_eq_true, decide_eq_true_eq, not_or] at hlevel
        obtain ⟨⟨h0, h3⟩, -⟩ := hlevel
        exact legal_of_between (pl := t.csr.ppl) h0 h3

theorem execWfi_legal {f : Fields} (h : s.Legal) : Out.Legal (execWfi f s) := by
  refine State.system_legal h (State.memForm_legal h fun _ _ _ ht => ?_)
  dsimp only
  split
  · exact State.commit_legal ht
  · exact ht

theorem execSev_legal {f : Fields} (h : s.Legal) : Out.Legal (execSev f s) :=
  State.system_legal h (State.memForm_legal h fun _ _ _ ht => guardTraps_yields
    (State.commitCur_legal (foldl_keeps ht fun _ _ hu => hu)))

theorem execIntack_legal {f : Fields} (h : s.Legal) : Out.Legal (execIntack f s) := by
  refine State.system_legal h (State.memForm_legal h fun _ _ _ ht => ?_)
  refine State.commitCur_legal (foldl_keeps ht fun _ _ hu => State.updGroup_legal ?_)
  split <;> exact hu

theorem State.tlbInv_legal {f : Fields} {whole : Bool} {gone : Nat → Nat → TlbEntry → Bool} (h : s.Legal) :
    Out.Legal (s.tlbInv f whole gone) := by
  refine State.memForm_legal h fun t c agents ht => guardTraps_yields ?_
  have hfold (k : Nat → Nat) : (agents.foldl (fun s a => s.updCtx (k a.1) fun x => { x with oldDesc := [] }) t).Legal :=
    foldl_keeps ht fun _ _ hu => hu
  dsimp only
  split
  · trivial
  · have hold := State.ite_legal (c := whole = true) (hfold fun l => (t.operand c.rd l f false f.a).toNat) ht
    exact State.commitCur_legal hold

theorem execTokxf_legal {f : Fields} (h : s.Legal) : Out.Legal (execTokxf f s) :=
  State.system_legal h (State.memForm_legal h fun _ _ _ ht => State.commitCur_legal
    (foldl_keeps ht fun _ _ hu => State.ite_legal (State.updGroup_legal hu) (State.updGroup_legal hu)))

theorem State.markMet_legal {ctx blk : Nat} (h : s.Legal) : (s.markMet ctx blk).Legal :=
  State.ite_legal h (State.capMatch_legal h)

theorem execCapmk_legal {f : Fields} (h : s.Legal) : Out.Legal (execCapmk f s) := by
  refine State.memForm_legal h fun _ _ _ ht => ?_
  dsimp only
  split
  · split
    · exact State.commitCur_legal (State.capAppend_legal ht)
    · split
      · exact State.capWait_legal ht
      · split
        · split
          · exact State.commitCur_legal (State.markMet_legal ht)
          · trivial
        · exact State.commit_legal ht
  · exact State.commit_legal ht

theorem execEventPost_legal {k : Nat} (h : s.Legal) : Out.Legal (execEventPost k s) := by
  unfold execEventPost
  dsimp only
  split
  · exact h
  · exact Out.ite_legal h (Out.ite_legal h h)

theorem execInterruptEntry_legal (h : s.Legal) : Out.Legal (execInterruptEntry s) :=
  Out.ite_legal h (Out.ite_legal (State.takeTrap_legal h) (State.enterTrapVec_legal h))

end

end Sys2Proof.Machine
end

section
/-!
# Legal levels: the scheduler, the fabric and faults (O60)
-/

namespace Sys2Proof.Machine

open Sys2Proof

section
variable {s : State}

/-! ## Records -/

theorem State.touchPayload_legal {ctx : Nat} {r : List Byte} (h : s.Legal) : (s.touchPayload ctx r).Legal :=
  State.touchVa_legal (State.touchVa_legal (State.touchVa_legal (State.touchVa_legal h)))

theorem State.touchCheck_legal {q : Queue} {passes : Bool} (h : s.Legal) : (s.touchCheck q passes).Legal :=
  State.ite_legal (State.touchVa_legal (s := s.touchRecord q) h)
    (State.ite_legal (State.touchPayload_legal (s := s.touchRecord q) h) h)

theorem State.capPiece_legal {ctx kind part : Nat} {payload : List Byte} (h : s.Legal) :
    (s.capPiece ctx kind part payload).2.Legal := by
  have happend := State.capAppend_legal (kind := kind) (ctx := ctx) (part := part) (payload := payload) h
  unfold State.capPiece
  dsimp only
  generalize (if (s.capAppend kind ctx part payload).capOn 2 ctx then (s.capAppend kind ctx part payload).capNext else none) = r
  cases r with
  | none => exact happend
  | some r =>
    exact iteInduction (motive := fun r : Bool × State => r.2.Legal) (fun _ => State.capPass_legal happend) fun _ => happend

theorem State.capStep_legal {ctx kind : Nat} {pieces : List (Nat × List Byte)} (h : s.Legal) :
    (s.capStep ctx kind pieces).Legal := by
  have hpieces : (pieces.foldl (fun (a : Bool × State) p =>
      let b := a.2.capPiece ctx kind p.1 p.2
      (a.1 || b.1, b.2)) (false, s)).2.Legal :=
    foldl_keeps (P := fun a : Bool × State => a.2.Legal) h fun _ _ hb => State.capPiece_legal hb
  exact State.ite_legal hpieces hpieces

theorem State.capLaunch_legal {l : Launch} {r : List Byte} (h : s.Legal) : (s.capLaunch l r).Legal :=
  foldl_keeps (State.capStep_legal (State.capStep_legal h)) fun _ _ ht => State.ite_legal (State.capStep_legal ht) ht

theorem State.raiseVector_legal {p v : Nat} (h : s.Legal) : (s.raiseVector p v).Legal :=
  State.ite_legal h h

theorem State.carryOut_legal {k : Nat} {q : Queue} (h : s.Legal) : (s.carryOut k q).Legal := by
  unfold State.carryOut
  dsimp only
  split
  · exact State.ite_legal (State.raiseVector_legal (State.haltQueue_legal (State.touchCheck_legal h)))
      (State.haltQueue_legal (State.touchCheck_legal h))
  · exact State.advanceQueue_legal (State.touchCheck_legal h)
  · exact State.updQueue_legal (State.touchCheck_legal h)
  · exact h
  · exact h
  next l _ =>
    have hpassed := State.touchCheck_legal (q := q) (passes := true) h
    have hlaunched := State.capLaunch_legal (s := (s.touchCheck q true).newId.2) (l := l) (r := s.recordAt q) hpassed
    exact State.advanceQueue_legal (k := k) hlaunched

theorem execRecordCheck_legal {k : Nat} (h : s.Legal) : Out.Legal (execRecordCheck k s) := by
  unfold execRecordCheck
  split
  · exact h
  · exact Out.ite_legal (State.carryOut_legal h) (Out.ite_legal (State.capWait_legal h) h)

theorem execWaitRecordPoll_legal {k : Nat} (h : s.Legal) : Out.Legal (execWaitRecordPoll k s) := by
  unfold execWaitRecordPoll
  split
  · exact h
  · exact Out.ite_legal (State.pollWait_legal h) h

theorem execQueueDoorbell_legal {host : Bool} {k : Nat} {tail : Word} (h : s.Legal) :
    Out.Legal (execQueueDoorbell host k tail s) := by
  unfold execQueueDoorbell
  split
  · exact h
  · exact Out.ite_legal (State.queueTail_legal h) h

theorem execQueueResume_legal {host : Bool} {k : Nat} (h : s.Legal) : Out.Legal (execQueueResume host k s) := by
  unfold execQueueResume
  split
  · exact h
  · exact Out.ite_legal (State.queueResume_legal h) h

/-! ## Blocks -/

theorem State.giveWindow_legal {l : Launch} {core : Nat} (h : s.Legal) : (s.giveWindow l core).Legal :=
  State.ite_legal h h

theorem State.placeComb_legal {l : Launch} {col : Nat} {slots : List Nat} (h : s.Legal) : (s.placeComb l col slots).Legal :=
  foldl_keeps (P := State.Legal) (foldl_keeps h fun _ _ ht => State.giveWindow_legal ht) fun _ _ ht => ht

theorem State.admitComb_legal {l : Launch} {fits : State → Nat → Bool} {t : State} (h : s.Legal)
    (ht : s.admitComb l fits = some t) :
    t.Legal := by
  unfold State.admitComb at ht
  split at ht
  · cases ht
    exact State.placeComb_legal h
  · cases ht

theorem State.placeUnits_legal {b : Nat} (h : s.Legal) : (s.placeUnits b).Legal := by
  unfold State.placeUnits
  split
  · exact h
  · refine foldl_keeps h fun _ _ ht => ?_
    split
    · exact ht
    · exact State.ite_legal (State.ready_legal ht) ht

theorem State.noteLast_legal {b : Nat} (h : s.Legal) : (s.noteLast b).Legal := by
  unfold State.noteLast
  dsimp only
  split <;> exact h

theorem State.makeResident_legal {b : Nat} (h : s.Legal) : (s.makeResident b).Legal :=
  State.noteLast_legal (State.placeUnits_legal (s := s.updBlock b _) h)

theorem State.startAll_legal {l : Nat} (h : s.Legal) : (s.startAll l).Legal :=
  foldl_keeps h fun _ _ ht => State.ite_legal (State.makeResident_legal ht) ht

theorem State.admitAll_legal {l n : Nat} {t : State} (h : s.Legal) (ht : State.admitAll l n s = some t) : t.Legal := by
  induction n generalizing s with
  | zero =>
    cases ht
    exact h
  | succ n ih =>
    unfold State.admitAll at ht
    split at ht
    · cases ht
    · split at ht
      · cases ht
      next u hu => exact ih (State.startAll_legal (State.admitComb_legal h hu)) ht

theorem getD_legal {o : Option State} (h : s.Legal) (ho : ∀ t, o = some t → t.Legal) : (o.getD s).Legal :=
  match o, ho with
  | none, _ => h
  | some t, ho => ho t rfl

theorem execCombAdmit_legal {l : Nat} (h : s.Legal) : Out.Legal (execCombAdmit l s) := by
  unfold execCombAdmit
  split
  · exact h
  · refine Out.ite_legal h (getD_legal h fun t ht => ?_)
    split at ht
    · exact State.admitAll_legal h ht
    · exact State.admitComb_legal h ht

theorem execBlockSwitchIn_legal {b : Nat} (h : s.Legal) : Out.Legal (execBlockSwitchIn b s) := by
  unfold execBlockSwitchIn
  dsimp only
  split
  · exact h
  · refine Out.ite_legal ?_ h
    split
    · exact State.slotPark_legal h
    · exact State.makeResident_legal (State.ite_legal (State.touchPages_legal h) h)

theorem execBlockSwitchOut_legal {b : Nat} (h : s.Legal) : Out.Legal (execBlockSwitchOut b s) := by
  unfold execBlockSwitchOut
  dsimp only
  split
  · exact h
  · exact Out.ite_legal h h

theorem State.parkSpill_legal {b : Nat} (h : s.Legal) : (s.parkSpill b).Legal := by
  unfold State.parkSpill
  split
  · exact h
  next x _ =>
    have hfilled : (s.fillSlot x).Legal := State.fillSlot_legal h
    refine State.ite_legal h ?_
    split
    · exact State.slotPark_legal h
    · exact hfilled

theorem execUnitTakesFreedWay_legal {core part set : Nat} (h : s.Legal) : Out.Legal (execUnitTakesFreedWay core part set s) := by
  unfold execUnitTakesFreedWay
  dsimp only
  split
  · exact h
  · split
    · exact h
    · exact Out.ite_legal h (State.setGroup_legal h)

theorem execYieldHoldEnd_legal {b g u : Nat} (h : s.Legal) : Out.Legal (execYieldHoldEnd b g u s) := by
  unfold execYieldHoldEnd
  dsimp only
  split
  · exact h
  · split
    · exact h
    · split
      · exact h
      · exact Out.ite_legal (State.setGroup_legal h) h

/-! ## Saves and restores -/

theorem State.nextSave_legal (h : s.Legal) : s.nextSave.Legal := by
  unfold State.nextSave
  dsimp only
  split <;> exact h

theorem State.queueSaves_legal {ps : List (Nat × Nat)} {sel : Nat × Nat → DWord} {charge : Word} (h : s.Legal) :
    (s.queueSaves ps sel charge).Legal :=
  State.nextSave_legal (foldl_keeps (P := State.Legal) h fun _ _ ht => ht)

theorem execCtxsv_legal {f : Fields} (h : s.Legal) : Out.Legal (execCtxsv f s) :=
  State.system_legal h (State.memForm_legal h fun _ _ _ ht => State.commitCur_legal
    (foldl_keeps ht fun _ _ hu => State.updGroup_legal (State.queueSaves_legal hu)))

theorem State.beginRestore_legal {p : Nat × Nat} {col : Nat} (h : s.Legal) : (s.beginRestore p col).Legal := by
  unfold State.beginRestore State.askBack
  split
  · exact foldl_keeps (P := State.Legal) h fun _ _ ht => ht
  · exact h

theorem execCtxld_legal {f : Fields} (h : s.Legal) : Out.Legal (execCtxld f s) :=
  State.system_legal h (State.memForm_legal h fun _ _ _ ht => State.commitCur_legal
    (foldl_keeps ht fun _ _ hu => State.updGroup_legal
      (foldl_keeps (P := State.Legal) hu fun _ _ hv => State.beginRestore_legal (s := State.updPart _ _ _ _) hv)))

theorem State.carryMarks_legal {b k : Nat} (h : s.Legal) : (s.carryMarks b k).Legal := by
  unfold State.carryMarks
  dsimp only
  split <;> exact h

theorem State.bringMarks_legal {b k core slot : Nat} (h : s.Legal) : (s.bringMarks b k core slot).Legal := by
  unfold State.bringMarks
  dsimp only
  split <;> exact h

theorem execPartSaveDone_legal {b k : Nat} (h : s.Legal) : Out.Legal (execPartSaveDone b k s) := by
  unfold execPartSaveDone
  dsimp only
  split
  next x _ _ _ =>
    have hsaved (y : Block) : ((s.carryMarks b k).fillSlot y).Legal := State.fillSlot_legal (State.carryMarks_legal h)
    refine Out.ite_legal (State.nextSave_legal h) (Out.ite_legal h ?_)
    split
    · exact State.slotPark_legal h
    · exact State.nextSave_legal (State.iteThen_legal (hsaved _) State.beginRestore_legal)
  · exact h

theorem State.putBack_legal {b k : Nat} {l : Launch} {core slot : Nat} (h : s.Legal) : (s.putBack b k l core slot).Legal := by
  have hgiven : ((s.bringMarks b k core slot).giveWindow l core).Legal := State.giveWindow_legal (State.bringMarks_legal h)
  unfold State.putBack
  dsimp only
  split
  · exact hgiven
  · exact State.iteThen_legal hgiven State.makeResident_legal

theorem State.applyRecorded_legal {b : Nat} (h : s.Legal) : (s.applyRecorded b).Legal :=
  foldl_keeps (P := State.Legal) h fun _ _ ht => State.applyAnswer_legal ht

theorem execPartRestoreDone_legal {b k : Nat} (h : s.Legal) : Out.Legal (execPartRestoreDone b k s) := by
  unfold execPartRestoreDone
  dsimp only
  split
  · split
    · refine Out.ite_legal h (Out.ite_legal (Out.ite_legal h ?_) ?_)
      · split <;> exact h
      · split
        · exact h
        · refine Out.ite_legal h ?_
          split
          · exact State.slotPark_legal h
          · exact State.applyRecorded_legal (State.putBack_legal (State.touchPages_legal h))
    · exact h
  · exact h

theorem execPrio7Preempt_legal {l col : Nat} (h : s.Legal) : Out.Legal (execPrio7Preempt l col s) := by
  unfold execPrio7Preempt
  dsimp only
  split
  · exact h
  · refine Out.ite_legal h ?_
    split
    · exact h
    · exact State.queueSaves_legal (s := State.updLaunch _ _ _) h

theorem State.signalStore_legal {l : Launch} {t : State} (h : s.Legal) (ht : s.signalStore l = some t) : t.Legal := by
  unfold State.signalStore at ht
  split at ht
  · cases ht
  · split at ht
    · cases ht
      exact State.writeLoc_legal (State.snoopOut_legal h)
    · cases ht

/-- The store of a launch's completion signal, or the halt of its queue where there is no place for it. -/
theorem State.signalled_legal {x : Launch} (h : s.Legal) :
    (if x.signal then ((s.signalStore x).map State.pollWaits).getD (s.haltQueue x.queue 10) else s).Legal := by
  refine State.ite_legal (getD_legal (State.haltQueue_legal h) fun t ht => ?_) h
  obtain ⟨u, hu, rfl⟩ := Option.map_eq_some_iff.1 ht
  exact State.pollWaits_legal (State.signalStore_legal h hu)

theorem execLaunchFlushDone_legal {l : Nat} (h : s.Legal) : Out.Legal (execLaunchFlushDone l s) := by
  unfold execLaunchFlushDone
  split
  · exact h
  next x _ =>
    have hnoted : (s.updCtx x.ctx fun c => { c with eLast := BitVec.ofNat 64 x.energy }).Legal := h
    have hsignalled := State.signalled_legal (x := x) hnoted
    exact Out.ite_legal h (State.ite_legal (c := x.wantsMsix = true) (State.raiseVector_legal hsignalled) hsignalled)

/-! ## Messages, the host and reset -/

theorem State.hostMailbox_legal {i : Nat} {x mask : DWord} (h : s.Legal) : (s.hostMailbox i x mask).Legal :=
  State.ite_legal h (State.ite_legal h h)

theorem State.barWrite_legal {off size : Nat} {val : DWord} (h : s.Legal) : (s.barWrite off size val).Legal :=
  State.ite_legal (State.queueWrite_legal h) (State.ite_legal (State.hostMailbox_legal h) (State.ite_legal h h))

theorem execRegisterWrite_legal {host : Bool} {a size : Nat} {val : DWord} (h : s.Legal) :
    Out.Legal (execRegisterWrite host a size val s) := by
  refine Out.ite_legal h (Out.ite_legal (State.ite_legal (State.barWrite_legal h) h) ?_)
  split
  · exact Out.ite_legal (State.ctlWrite_legal h) h
  · exact h

theorem State.poisonUnit_legal {kind a : Nat} (h : s.Legal) : (s.poisonUnit kind a).Legal := by
  refine State.ite_legal h (State.ite_legal h (State.ite_legal ?_ (State.ite_legal h h)))
  dsimp only
  split
  · exact State.failCmd_legal h
  · exact h

theorem execPatrolScrub_legal {n : Nat} {bad : Option Nat} (h : s.Legal) : Out.Legal (execPatrolScrub n bad s) := by
  refine Out.ite_legal h ?_
  split
  · exact Out.ite_legal (State.poisonUnit_legal (s := s.corrected n) h) h
  · exact h

theorem execAgingMonitor_legal {margins : List Byte} {core : Nat} (h : s.Legal) :
    Out.Legal (execAgingMonitor margins core s) := by
  unfold execAgingMonitor
  dsimp only
  split
  · exact h
  · exact Out.ite_legal h h

theorem execReplayTimeout_legal (h : s.Legal) : Out.Legal (execReplayTimeout s) := by
  unfold execReplayTimeout
  dsimp only
  split
  · exact Out.ite_legal h h
  · exact h

/-- A reset puts the core at hypervisor level (R424). -/
theorem State.bringUp_legal {image : List Byte} {signed : Bool} : (s.bringUp image signed).Legal :=
  State.ite_legal (.inr rfl) (.inr rfl)

theorem execPowerRestoreRequest_legal {image : List Byte} {signed : Bool} (h : s.Legal) :
    Out.Legal (execPowerRestoreRequest image signed s) := by
  unfold execPowerRestoreRequest
  split
  · exact Out.ite_legal State.bringUp_legal h
  · exact h

/-! ## Cross-lane instructions -/

theorem execQswp_legal {f : Fields} (h : s.Legal) : Out.Legal (execQswp f s) :=
  State.quadOp_legal h

theorem execQbc_legal {f : Fields} (h : s.Legal) : Out.Legal (execQbc f s) :=
  State.quadOp_legal h

theorem execGshf_legal {f : Fields} (h : s.Legal) : Out.Legal (execGshf f s) := by
  refine State.finish_legal h ?_
  split
  · exact h
  · exact State.crossLane_legal h

theorem execGvote_legal {f : Fields} (h : s.Legal) : Out.Legal (execGvote f s) := by
  refine State.finish_legal h ?_
  split
  · exact h
  · exact State.crossLane_legal h

theorem execGred_legal {f : Fields} (h : s.Legal) : Out.Legal (execGred f s) := by
  refine State.finish_legal h ?_
  split
  · exact h
  · exact State.crossLane_legal h

theorem execGscan_legal {f : Fields} (h : s.Legal) : Out.Legal (execGscan f s) := by
  refine State.finish_legal h ?_
  split
  · exact h
  · exact State.crossLane_legal h

theorem execGmatch_legal {f : Fields} (h : s.Legal) : Out.Legal (execGmatch f s) := by
  refine State.finish_legal h ?_
  split
  · exact h
  · exact State.crossLane_legal h

end

end Sys2Proof.Machine
end

section
/-!
# Legal levels: every instruction (O60)

One case for each constructor of `Instr`, grouped by the form to which the instruction belongs.
-/

namespace Sys2Proof.Machine

open Sys2Proof

section
variable {s : State}

/-- What an instruction, or a step of another agent, ends in is at a legal level. -/
theorem exec_legal {i : Instr} (h : s.Legal) : Out.Legal (exec i s) :=
  match i with
  -- the register pipeline
  | .iadd _ | .isub _ | .imul _ | .imulh _ | .imad _ | .imin _ | .imax _ | .iabs _ | .logic _ | .shl _ | .shr _ | .rot _ | .bfx _
  | .bfi _ | .popc _ | .clz _ | .brev _ | .idot4 _ | .fmin _ | .fmax _ | .fclass _ | .frcp _ | .frsq _ | .fexp2 _ | .flog2 _
  | .sinr _ | .cosr _ | .ffrac _ | .movi _ | .sel _ | .bysel _ | .unpk _ | .rdsp _ => State.compute_legal h
  | .icmp _ | .fcmp _ => State.computePred_legal h
  | .fadd _ | .fmul _ | .ffma _ | .fsqrt _ | .fscale _ | .pkfma _ | .pkadd _ | .pkmul _ | .cvt _ | .pack _ =>
    State.drawOrCompute_legal h
  | .movih _ => Out.ite_legal (State.compute_legal h) (State.compute_legal h)
  | .iaddc _ => State.finish_legal h (State.perEither_legal h)
  | .mov _ => execMov_legal h
  | .vldx _ => State.lanewise_legal h
  | .vstx _ => execVstx_legal h
  -- across lanes
  | .qswp _ => execQswp_legal h
  | .qbc _ => execQbc_legal h
  | .gshf _ => execGshf_legal h
  | .gvote _ => execGvote_legal h
  | .gred _ => execGred_legal h
  | .gscan _ => execGscan_legal h
  | .gmatch _ => execGmatch_legal h
  | .plog _ | .pmovGet _ | .pmovSet _ => State.finish_legal h (State.perThread_legal h)
  -- control
  | .bra _ => execBra_legal h
  | .brx _ => execBrx_legal h
  | .call _ => execCall_legal h
  | .callx _ => execCallx_legal h
  | .ret _ => execRet_legal h
  | .loop _ => execLoop_legal h
  | .loopb _ => execLoopb_legal h
  | .exit _ => execExit_legal h
  | .kill _ => execKill_legal h
  | .jset _ => execJset_legal h
  | .jwait _ => execJwait_legal h
  | .yieldI _ => execYield_legal h
  | .jdrop _ => execJdrop_legal h
  | .nop _ => execNop_legal h
  | .brk _ => execBrk_legal h
  | .ovmap _ => execOvmap_legal h
  | .trapu _ => execTrapu_legal h
  -- memory
  | .ld _ | .lds _ | .ldk _ => State.memForm_legal h fun _ _ _ ht => State.loadRun_legal ht
  | .st _ | .sts _ => State.memForm_legal h fun _ _ _ ht => State.storeRun_legal ht
  | .atom _ | .atoms _ | .red _ => State.memForm_legal h fun _ _ _ ht => State.atomRun_legal ht
  | .pref _ => execPref_legal h
  | .pin _ | .unpin _ => State.memForm_legal h fun _ _ _ ht => State.pinRun_legal ht
  | .reclaim _ => execReclaim_legal h
  | .fsys _ => execFsys_legal h
  -- barriers, handles and engine commands
  | .binit _ => execBinit_legal h
  | .barv _ => execBarv_legal h
  | .bexp _ => execBexp_legal h
  | .brst _ => execBrst_legal h
  | .bwait _ => execBwait_legal h
  | .btest _ => execBtest_legal h
  | .htest _ => execHtest_legal h
  | .hcancel _ => execHcancel_legal h
  | .cwait _ => execCwait_legal h
  | .xcopy _ | .xgath _ | .xscat _ | .xfill _ | .xpub _ | .coll _ | .cseq _ => State.engineIssue_legal h
  -- the matrix unit and power
  | .bld _ => execBld_legal h
  | .bldReg _ => execBldReg_legal h
  | .mmaq _ => execMmaq_legal h
  | .acwr _ => execAcwr_legal h
  | .scacc _ => execScacc_legal h
  | .mmas _ => execMmas_legal h
  | .acalloc _ => execAcalloc_legal h
  | .acfree _ | .aczero _ => State.granuleForm_legal h
  | .acrd _ => execAcrd_legal h
  | .cbld _ => execCbld_legal h
  | .burn _ => execBurn_legal h
  | .shunt _ => execShunt_legal h
  | .plreq _ => execPlreq_legal h
  | .balq _ => execBalq_legal h
  | .enrd _ => execEnrd_legal h
  -- the management core
  | .csrr _ => execCsrr_legal h
  | .csrw _ => execCsrw_legal h
  | .eret _ => execEret_legal h
  | .wfi _ => execWfi_legal h
  | .sev _ => execSev_legal h
  | .intack _ => execIntack_legal h
  | .tlbinvCtx _ | .tlbinvPage _ => State.system_legal h (State.tlbInv_legal h)
  | .ctxsv _ => execCtxsv_legal h
  | .ctxld _ => execCtxld_legal h
  | .tokxf _ => execTokxf_legal h
  | .capmk _ => execCapmk_legal h
  -- completions
  | .loadComplete _ _ _ _ => State.updGroup_legal h
  | .storePerformed _ _ _ => execStorePerformed_legal h
  | .matrixComplete _ _ => execMatrixComplete_legal h
  | .unitTakesFreedWay _ _ _ => execUnitTakesFreedWay_legal h
  | .yieldHoldEnd _ _ _ => execYieldHoldEnd_legal h
  -- engine events and collectives
  | .engineSourceRead _ _ _ => execEngineSourceRead_legal h
  | .enginePublish _ => execEnginePublish_legal h
  | .holdSetPublish _ => execHoldSetPublish_legal h
  | .commandFail _ _ => execCommandFail_legal h
  | .commandCancel _ => execCommandCancel_legal h
  | .collHashMatch _ _ => execCollHashMatch_legal h
  | .collShardPublish _ _ => execCollShardPublish_legal h
  | .collMemberFailure _ _ _ _ => execCollMemberFailure_legal h
  | .collMemberLeaves _ _ _ => execCollMemberLeaves_legal h
  | .collectiveFlitArrival _ _ _ _ _ _ => execCollectiveFlitArrival_legal h
  | .backlogReplay _ => execBacklogReplay_legal h
  | .backlogTimeout _ _ _ _ => execBacklogTimeout_legal h
  | .reductionSwitchLeaves _ => execReductionSwitchLeaves_legal h
  -- the pin unit and accesses of other agents
  | .freeRingAppend _ _ => execFreeRingAppend_legal h
  | .ringAppendRetry _ => execRingAppendRetry_legal h
  | .pageWalk _ _ => execPageWalk_legal h
  | .remoteAccess _ _ _ _ _ _ => execRemoteAccess_legal h
  | .fabricTimeout _ _ => execFabricTimeout_legal h
  | .hostMemAccess _ _ _ _ _ => execHostMemAccess_legal h
  | .reclaimSearchComplete _ _ => execReclaimSearchComplete_legal h
  -- accumulators
  | .acmEvict _ _ => execAcmEvict_legal h
  | .acmGrant _ _ => execAcmGrant_legal h
  | .acmSpillDone _ _ _ => execAcmSpillDone_legal h
  | .acmRestore _ _ _ => execAcmRestore_legal h
  -- events to the management core
  | .eventPost _ => execEventPost_legal h
  | .blkctlResume _ | .blkctlSkip _ | .blkctlKill _ => State.answer_legal h
  | .interruptEntry => execInterruptEntry_legal h
  -- the scheduler
  | .partSaveDone _ _ => execPartSaveDone_legal h
  | .partRestoreDone _ _ => execPartRestoreDone_legal h
  | .queueDoorbell _ _ _ => execQueueDoorbell_legal h
  | .queueResume _ _ => execQueueResume_legal h
  | .recordCheck _ => execRecordCheck_legal h
  | .waitRecordPoll _ => execWaitRecordPoll_legal h
  | .combAdmit _ => execCombAdmit_legal h
  | .blockSwitchOut _ => execBlockSwitchOut_legal h
  | .blockSwitchIn _ => execBlockSwitchIn_legal h
  | .prio7Preempt _ _ => execPrio7Preempt_legal h
  | .launchFlushDone _ => execLaunchFlushDone_legal h
  -- register writes as steps
  | .partitionReset _ | .clrpois _ | .mgmtMailboxWrite _ _ | .collGroupOpen _ _ _ | .jobRegisterWrite _ _ => State.ctlStore_legal h
  | .partitionResetDone _ => State.partitionResetDone_legal h
  | .swmatrixWrite _ _ | .cohortWrite _ _ | .mint _ | .thrcfgWrite _ _ | .ctxidWrite _ _ => State.csrWrite_legal h
  | .readToClear _ _ _ => execReadToClear_legal h
  | .registerWrite _ _ _ _ => execRegisterWrite_legal h
  | .hostMailboxWrite _ _ => State.ite_legal (State.hostMailbox_legal h) h
  -- power and temperature
  | .balanceSample _ _ _ _ _ => execBalanceSample_legal h
  | .imbalRelease _ => execImbalRelease_legal h
  | .cohortLevelAdopt _ => execCohortLevelAdopt_legal h
  | .tokret _ => execTokret_legal h
  | .thermalPoll _ => execThermalPoll_legal h
  -- storage, reset and replay
  | .patrolScrub _ _ => execPatrolScrub_legal h
  | .agingMonitor _ _ => execAgingMonitor_legal h
  | .replayTimeout => execReplayTimeout_legal h
  | .deviceReset _ _ => Out.ite_legal h State.bringUp_legal
  | .powerRestoreRequest _ _ => execPowerRestoreRequest_legal h
  -- events that leave the level whatever their conditions are
  | .pinQuery _ _ _ | .levelChange _ | .waggleAck _ | .serdesCalibration _ | .diodeCalibration _ | .jobKeyAccept _ _ _
  | .flitReceive _ _ | .linkDown _ | .linkRekey _ | .ballastRequestExpiry _ _ | .shuntReservationExpiry _ _ | .slopeLimitRamp _ _ => h
  | .timecmpReached | .tokenWindowEnd | .waggleAccept _ _ | .linkUp _ _ _ _ | .sledNumberReport _ _ | .timeSync _ =>
    Out.ite_legal h h
  | .fabricJoin _ _ _ => Out.ite_legal h (Out.ite_legal h (Out.ite_legal h h))

end

end Sys2Proof.Machine
end

section
/-!
# Legal levels: issue and the step (O60)

Units, pairs, entries, the issue former and the agenda.
-/

namespace Sys2Proof.Machine

open Sys2Proof

section
variable {s : State}

theorem tidyOut_legal {o : Out} (ho : Out.Legal o) : Out.Legal (tidyOut o) :=
  match o, ho with
  | .next _, ho => ho
  | .fault _, _ => trivial
  | .refused _, _ => trivial

/-! ## One unit -/

theorem State.confine_legal {c : Ctx} {o : Out} (h : s.Legal) (ho : Out.Legal o) : Out.Legal (s.confine c o) := by
  match o, ho with
  | .next t, ho =>
    refine Out.ite_legal ho ?_
    split
    · exact State.takeTrap_legal h
    · exact ho
  | .fault _, _ => trivial
  | .refused _, _ => trivial

theorem State.issueCur_legal (h : s.Legal) : Out.Legal s.issueCur := by
  unfold State.issueCur
  split
  · exact h
  · refine Out.ite_legal (State.takeTrap_legal h) (Out.ite_legal (State.finish_legal h (State.overlayTrap_legal h))
      (Out.ite_legal (State.takeTrap_legal h) ?_))
    split
    · exact State.takeTrap_legal h
    · split
      · exact State.takeTrap_legal h
      · exact State.confine_legal h (exec_legal h)

theorem runOne_legal {p : Placed} (h : s.Legal) : Out.Legal (runOne s p) :=
  State.issueCur_legal (s := s.aim p p.unit.ip) h

/-! ## Pairs -/

theorem State.issueSecond_legal {j : Instr} (h : s.Legal) : Out.Legal (s.issueSecond j) := by
  unfold State.issueSecond
  split
  · split
    · exact State.takeTrap_legal h
    · exact exec_legal h
  · exact exec_legal h

/-- Who issues, and what a pair has read, leaves the level. -/
theorem State.paired_legal {r : Option (Group × Bool)} (h : s.Legal) : State.Legal { s with pairRead := r } :=
  h

theorem State.aim_legal {p : Placed} {ip : DWord} (h : s.Legal) : (s.aim p ip).Legal :=
  h

theorem runPair_legal {p : Placed} (h : s.Legal) : Out.Legal (runPair s p) := by
  have ha := State.aim_legal (p := p) (ip := p.unit.ip) h
  unfold runPair
  dsimp only
  split
  next c i j _ _ =>
    refine Out.ite_legal (State.parkLanes_legal ha) ?_
    have hi := exec_legal (i := i) (State.paired_legal (r := some (c.g, true)) ha)
    split
    next t ht =>
      rw [ht] at hi
      refine Out.ite_legal hi (Out.ite_legal ha ?_)
      have hj := State.issueSecond_legal (j := j)
        (State.paired_legal (r := some (c.g, false)) (State.aim_legal (p := p) (ip := nextSlot p.unit.ip) hi))
      split
      next u hu =>
        rw [hu] at hj
        split
        · exact State.takeTrap_legal (State.paired_legal ha)
        · exact Out.ite_legal ha (State.confine_legal (State.paired_legal ha) (State.paired_legal hj))
      · exact hj
    · exact hi
  · exact State.issueCur_legal ha

/-! ## Entries -/

theorem State.unback_legal {ls : List (Nat × Word)} {b : Nat} (h : s.Legal) : (s.unback ls b).Legal :=
  foldl_keeps h fun _ _ ht => State.updGroup_legal ht

theorem State.widenEvent_legal {ps : List Placed} {p : Placed} (h : s.Legal) : (s.widenEvent ps p).Legal := by
  unfold State.widenEvent
  dsimp only
  split
  · exact h
  · exact State.ite_legal (State.unback_legal h) h

theorem State.noteHeld_legal {t : State} {p : Placed} (ht : t.Legal) : (s.noteHeld t p).Legal := by
  unfold State.noteHeld
  dsimp only
  split
  · exact State.ite_legal (State.setGroup_legal ht) ht
  · exact ht

theorem State.runApart_legal {run : State → Placed → Out} {t : State} {p : Placed}
    (hrun : ∀ t p, State.Legal t → Out.Legal (run t p)) (ht : t.Legal) : Out.Legal (s.runApart run t p) := by
  have hbefore : Out.Legal (run { t with windows := t.windows.map fun (w : FrameWin) => { w with loading := s.loadingOf w } } p) :=
    hrun _ _ ht
  unfold State.runApart
  dsimp only
  split
  next u hu =>
    rw [hu] at hbefore
    exact hbefore
  · exact hbefore

theorem State.runUnits_legal {ps : List Placed} {run : State → Placed → Out} (h : s.Legal)
    (hrun : ∀ t p, State.Legal t → Out.Legal (run t p)) : (s.runUnits ps run).1.Legal := by
  refine foldl_fst_legal h fun acc p hacc => ?_
  have hp := hrun acc.1 p hacc
  split
  next t ht =>
    rw [ht] at hp
    split
    · split <;> exact hp
    · exact State.noteHeld_legal hp
  · exact hacc

theorem State.ovmapTogether_legal {r : State} {ps : List Placed} (h : s.Legal) (hr : r.Legal) : (s.ovmapTogether r ps).Legal := by
  unfold State.ovmapTogether
  refine State.ite_legal h ?_
  dsimp only
  split <;> exact hr

theorem State.issueUnits_legal {ps : List Placed} {run : State → Placed → Out} (h : s.Legal)
    (hrun : ∀ t p, State.Legal t → Out.Legal (run t p)) : Out.Legal (s.issueUnits ps run) := by
  have halone (c : Prop) [Decidable c] : ∀ t p, State.Legal t → Out.Legal ((if c then s.runApart run else run) t p) := by
    intro t p ht
    split
    · exact State.runApart_legal hrun ht
    · exact hrun t p ht
  unfold State.issueUnits
  dsimp only
  split
  · exact Out.ite_legal (State.runUnits_legal h (halone _))
      (State.ite_legal (State.ovmapTogether_legal h (State.runUnits_legal h (halone _))) (State.runUnits_legal h (halone _)))
  next x p _ =>
    refine Out.ite_legal (State.runUnits_legal h (halone _)) ?_
    have hp := hrun s p h
    split
    next t ht =>
      rw [ht] at hp
      exact State.ite_legal hp (State.widenEvent_legal hp)
    · exact hp

theorem State.countSlots_legal {ps : List Placed} {n : Nat} {t : State} (ht : t.Legal) : (s.countSlots ps n t).Legal := by
  have hidle : (ps.foldl (fun (t : State) q => t.updBlock q.block fun b => { b with idle := 0 }) t).Legal :=
    foldl_keeps ht fun _ _ hu => hu
  unfold State.countSlots
  split
  · exact ht
  · exact State.ite_legal ht hidle

theorem State.issueAs_legal {ps : List Placed} {pair : Bool} (h : s.Legal) : Out.Legal (s.issueAs ps pair) := by
  have hunits : Out.Legal (s.issueUnits ps (if pair then runPair else runOne)) := by
    refine State.issueUnits_legal h fun t p ht => ?_
    split
    · exact runPair_legal ht
    · exact runOne_legal ht
  unfold State.issueAs
  split
  next t ht =>
    rw [ht] at hunits
    exact State.countSlots_legal hunits
  · exact hunits

theorem State.issueEntry_legal {ps : List Placed} (h : s.Legal) : Out.Legal (s.issueEntry ps) :=
  State.issueAs_legal h

theorem State.form_legal {core part : Nat} (h : s.Legal) : Out.Legal (s.form core part) := by
  unfold State.form
  split
  · exact h
  next ps _ =>
    refine Out.ite_legal (State.issueAs_legal h) ?_
    have hps := State.issueAs_legal (ps := ps) (pair := false) h
    dsimp only
    split
    next t _ ht _ =>
      rw [ht] at hps
      exact State.issueEntry_legal hps
    · exact hps

/-! ## The agenda -/

theorem State.mgmtAct_legal (h : s.Legal) : Out.Legal s.mgmtAct := by
  refine Out.ite_legal h (Out.ite_legal (execInterruptEntry_legal h) ?_)
  split
  · exact h
  · exact Out.ite_legal h (State.issueCur_legal (s := { s with cur := .mgmt, trapped := none }) h)

theorem State.act_legal {a : Action} (h : s.Legal) : Out.Legal (s.act a) :=
  match a with
  | .mgmt => State.mgmtAct_legal h
  | .entry _ _ _ _ => State.issueEntry_legal h
  | .former _ _ => State.form_legal h
  | .event _ => Out.ite_legal (exec_legal (s := s.drawFor _) h) h
  | .poison _ _ => State.poisonUnit_legal h
  | .matrixRead _ _ => State.acrdRead_legal h
  | .parkSpill _ => State.ite_legal (State.parkSpill_legal h) h
  | .checker _ _ => State.ite_legal h (State.ite_legal h (State.ite_legal h h))
  | .traffic _ _ _ _ | .hostCache _ | .hostRead _ _ => State.ite_legal h h
  | .tick _ | .hostStore _ _ _ | .corrected _ | .hostSetup _ _ | .hostTrain _ | .msixSent _ | .peer _ _ | .frameError _ _ _ => h

theorem step_legal {t : State} (h : s.Legal) (ht : step s = .next t) : t.Legal := by
  have hs : Out.Legal (step s) := by
    unfold step
    split
    · exact Out.ite_legal trivial (tidyOut_legal (State.act_legal h))
    · exact tidyOut_legal (State.act_legal h)
  rw [ht] at hs
  exact hs

end

/-- Settles O60: a trap goes to hypervisor level, ERET refuses what is no legal level, and nothing else moves the level but a reset
(`exec_legal`, `State.act_legal`). -/
theorem stepsKeepALegalLevel : Obligations.StepsKeepALegalLevel :=
  fun _ _ hs ht => State.levelOk_iff.2 (step_legal (State.levelOk_iff.1 hs) ht)

end Sys2Proof.Machine
end

section
/-!
# Values at reset (O57)

`State.reset` is a closed term, so that a register without an index computes to its value; the registers that have indices are lists of one
value, or counts over lists that are empty.
-/

namespace Sys2Proof.Machine

open Sys2Proof

/-! ## Privileged registers -/

theorem csrRead_reset_contexts {k : Nat} (hk : k < 64) :
    State.reset.csrRead 0x010 k = 0 ∧ State.reset.csrRead 0x011 k = 0 ∧ State.reset.csrRead 0x012 k = 2 := by
  refine ⟨?ctxid, List.getD_replicate _ hk, ?nbv⟩
  case ctxid =>
    show d64 (b2n (BitVec.getLsbD 0 k) * 2 ^ 63 + ((List.replicate 64 (0 : BitVec 3)).getD k 0).toNat * 2 ^ 56
      + ((List.replicate 64 (0 : BitVec 16)).getD k 0).toNat) = 0
    rw [List.getD_replicate _ hk, List.getD_replicate _ hk, show BitVec.getLsbD (0 : BitVec 64) k = false from BitVec.getLsbD_zero]
    rfl
  case nbv =>
    show ((List.replicate 64 (2 : BitVec 2)).getD k 0).zeroExtend 64 = 2
    rw [List.getD_replicate _ hk]
    rfl

theorem csrRead_reset_qosMask {k : Nat} (hk : k < 16) : State.reset.csrRead 0x020 k = 0xFFFF := by
  show ((List.replicate 16 (0xFFFF : BitVec 16)).getD k 0).zeroExtend 64 = 0xFFFF
  rw [List.getD_replicate _ hk]
  rfl

/-- No sensor has reached a level at reset, and no other source pends. -/
theorem csrRead_reset_intPend : State.reset.csrRead 0x005 0 = 0 := by
  have hcool {n : Nat} (hn : 0 < n) : (State.reset.sensors.any fun x => x.level ≥ n) = false := by
    refine List.any_eq_false.2 fun x hx => ?_
    rw [List.eq_of_mem_replicate hx]
    exact decide_eq_true_iff.not.2 (Nat.not_le.2 hn)
  show d64 State.reset.intPending = 0
  unfold State.intPending
  dsimp only
  rw [hcool (by decide), hcool (by decide), hcool (by decide)]
  rfl

/-- No line of either cache is held at reset. -/
theorem occCnt_reset (k : Nat) : State.reset.csrRead 0x021 k = 0 := by
  show State.reset.occCnt k = 0
  unfold State.occCnt
  split_ifs <;> rfl

theorem csrRead_reset_ceilings {k : Nat} (hk : k < 8) : State.reset.csrRead 0x032 k = 15 := by
  show State.reset.plCeil k = 15
  rw [State.plCeil, if_pos hk]
  show ((List.replicate 8 (15 : BitVec 4)).getD k 0).zeroExtend 64 = 15
  rw [List.getD_replicate _ hk]
  rfl

theorem csrRead_reset_cohorts {k : Nat} (hk : k < 4) : State.reset.csrRead 0x032 (8 + k) = 0 := by
  interval_cases k <;> rfl

theorem csrRead_reset_duties {k : Nat} (hk : k < 48) : State.reset.csrRead 0x033 (2 + k) = 16 := by
  show (if 2 + k < 2 then _ else d64 ((List.replicate 48 16).getD (2 + k - 2) 0)) = 16
  rw [if_neg (by omega), Nat.add_sub_cancel_left, List.getD_replicate _ hk]
  rfl

theorem csrRead_reset_capRec {k : Nat} (hk : k < 8) : State.reset.csrRead 0x040 k = 0 := by
  interval_cases k <;> rfl

/-! ## Queues, partitions and contexts -/

theorem queueRead_reset {q : Nat} (hq : q < 256) :
    State.reset.queueRead q 5 = 4 ∧ State.reset.queueRead q 1 = 0 ∧ State.reset.queueRead q 2 = 0 := by
  have hqueue : State.reset.queues[q]? = some .reset := List.getElem?_replicate_of_lt hq
  unfold State.queueRead
  rw [hqueue]
  exact ⟨rfl, rfl, rfl⟩

theorem tenantRead_reset {p : Nat} (hp : p < 8) : State.reset.tenantRead p 0 = 0 ∧ State.reset.tenantRead p 8 = 0 ∧
    State.reset.tenantRead p 0x18 = 32 ∧ State.reset.tenantRead p 0x60 = 0 := by
  have htenant : State.reset.tenants[p]? = some .reset := List.getElem?_replicate_of_lt hp
  unfold State.tenantRead
  rw [htenant]
  exact ⟨rfl, rfl, rfl, rfl⟩

theorem ctxRead_reset {k : Nat} (hk : k < 64) : State.reset.ctxRead k 0x418 = 0x3E800000000 := by
  have hctx : State.reset.ctxs[k]? = some .reset := List.getElem?_replicate_of_lt hk
  unfold State.ctxRead
  rw [hctx]
  rfl

end Sys2Proof.Machine

section

open Sys2Proof.Machine

/-- Settles O57: what has no index computes, what has one is a list of one value. -/
theorem resetValues : Obligations.ResetValues := by
  refine ⟨rfl, rfl, rfl, csrRead_reset_intPend, rfl, rfl, rfl, rfl, fun _ => csrRead_reset_contexts, fun _ => csrRead_reset_qosMask,
    fun k _ => occCnt_reset k, rfl, rfl, rfl, fun _ => csrRead_reset_ceilings, fun _ => csrRead_reset_cohorts, rfl, rfl,
    fun _ => csrRead_reset_duties, fun _ => csrRead_reset_capRec, fun _ => queueRead_reset, fun _ => tenantRead_reset, rfl, rfl, rfl,
    fun _ => ctxRead_reset, fun _ => rfl, rfl⟩

end
end

section
/-!
# Time that passes changes a block (O47)

The statement says of TIMECMP_REACHED that every block stays. `State.tick` counts in each block for how long its threads have all waited
(R338), so that a block of which a thread runs again loses the count.
-/

namespace Sys2Proof.Machine

open Sys2Proof

/-- A resident block on core 0 whose one thread runs again, after all of the block had waited for 500 ns. -/
def wokenBlock : Block :=
  { id := 1, launch := 1, index := 0, age := 1, slot := 0, state := .resident, started := true, stopped := false
    preempted := false, inSlot := false
    groups := [.fresh [.fresh 8 0x100000 1 false] [⟨1, 0x100000, some 0, 0, false, none, false, false⟩]]
    parts := [{ core := 0, slot := 0, state := .resident, scratch := .empty, bslots := .empty, codebook := .empty
                acm := .empty, held := [], spilled := [], charge := 0, queued := false, sel := 0, marks := [] }]
    mmas := [], idle := 500, heldOn := [] }

/-- The machine after reset with that block; TIMECMP is 2^64 - 1 and `%ftime` is 0. -/
def wokenState : State := { State.reset with nextId := 2, blocks := [wokenBlock] }

theorem wokenState_time : wokenState.ftime < wokenState.csr.timeCmp.toNat := by decide

theorem execTimecmpReached_wokenState :
    execTimecmpReached wokenState =
      .next (wokenState.tick (wokenState.csr.timeCmp.toNat - wokenState.ftime + wokenState.fabric.holdTime)) :=
  if_pos wokenState_time

/-- The thread is ready, so that not all of the block waits, and any time that passes ends its count. -/
theorem tick_wokenState_idle (ns : Nat) : (wokenState.tick ns).blocks.map (·.idle) = [0] := by
  have hwait : wokenBlock.allWait = false := by decide
  show [if wokenBlock.state = .resident && wokenBlock.allWait then wokenBlock.idle + ns else 0] = [0]
  rw [hwait, Bool.and_false]
  rfl

/-- Refutes O47: of `wokenState` a step of TIMECMP_REACHED changes the block's `idle` from 500 to 0, where the last clause says that the
blocks stay. -/
theorem not_exceptionsAndInterruptsAreTaken : ¬ Obligations.ExceptionsAndInterruptsAreTaken := by
  intro h
  obtain ⟨-, -, -, -, htime⟩ := h wokenState (mkTrap .illegal 0 0 0)
  obtain ⟨u, hstep, -, -, -, -, hblocks⟩ := htime wokenState_time
  have hu : wokenState.tick _ = u := Host.Outcome.next.inj (execTimecmpReached_wokenState.symm.trans hstep)
  have hidle : wokenState.blocks.map (·.idle) = [0] := by
    rw [← hblocks, ← hu]
    exact tick_wokenState_idle _
  exact absurd hidle (by decide)

end Sys2Proof.Machine
end

section
/-!
# Forms of the management core (for O44, O46, O48)

What `State.MgmtRuns` gives of the core's one thread, and what a form of it leaves: its run on the one lane, and the commit of that lane after
the form has changed the machine but not the core's group.
-/

namespace Sys2Proof.Machine

open Sys2Proof

namespace State.MgmtRuns

variable {s : State} {c : Ctx} {i : Instr} {op : Nat} {f : Fields}

theorem group (h : s.MgmtRuns c i op f) : s.mgmt.group = c.g := by
  have hg := (State.ctx?_group h.can.ctx).1
  rw [h.cur] at hg
  exact Option.some.inj hg

/-- The one thread of the core is the one agent of its forms. -/
theorem agents (h : s.MgmtRuns c i op f) : c.agents f = [(0, [0])] := by
  have hactive : c.active f = [0] := by
    unfold Ctx.active
    rw [h.lane]
    exact List.filter_cons_of_pos (l := []) h.on
  unfold Ctx.agents Ctx.actors Ctx.takers
  rw [h.plain, hactive]
  rfl

/-- A form of the core runs on its one thread. -/
theorem system_memForm (h : s.MgmtRuns c i op f) (run : State → Ctx → List Agent → Except Stop State) :
    s.system i (s.memForm op f run) = s.finish (run s c [(0, [0])]) := by
  have hplain (hs : f.namesS = true) : False := Bool.false_ne_true (h.plain.symm.trans hs)
  unfold State.system
  rw [h.level]
  rw [← h.agents]
  exact memForm_run h.can run fun hs _ => (hplain hs).elim

theorem curGroup (h : s.MgmtRuns c i op f) {t : State} (hcur : t.cur = .mgmt) (hmgmt : t.mgmt.group = s.mgmt.group) :
    t.curGroup c = c.g := by
  unfold State.curGroup
  rw [hcur]
  exact hmgmt.trans h.group

/-- The core's one thread changed, then moved on. -/
theorem commit_one (h : s.MgmtRuns c i op f) {t : State} (hcur : t.cur = .mgmt) {act : Group → Nat → Group} {run : Nat → Thread → Thread}
    (ha : LaneLocal act run) :
    ∃ g, t.commit c (act c.g 0) (fun _ => .next) true 0 = t.setGroup .mgmt g ∧ c.g.OnlyLanes g (c.g.afterOne (run 0)) := by
  obtain ⟨k1, k2, k3, k4⟩ := foldl_local ha [0] c.g (List.nodup_singleton 0)
  obtain ⟨g, e, hg⟩ := commit_dest (s := t) (c := c) (State.ctx?_lanes h.can.ctx).1 c.g _ _ k1 k2 k3 k4 (fun _ => .next) true 0 [] false
  rw [hcur] at e
  refine ⟨g, e, hg.congr fun l _ => ?_⟩
  by_cases hl : l = 0
  · subst hl
    simp [h.lane, Group.afterOne, Thread.goto]
  · simp [h.lane, Group.afterOne, hl]

/-- A form that has changed the machine, but neither the issuer nor the core's group, and moves its thread on. -/
theorem commitCur_same (h : s.MgmtRuns c i op f) {t : State} (hcur : t.cur = .mgmt) (hmgmt : t.mgmt.group = s.mgmt.group) :
    ∃ g, t.commitCur c = t.setGroup .mgmt g ∧ c.g.OnlyLanes g (c.g.afterOne fun t => t) := by
  unfold State.commitCur
  rw [h.curGroup hcur hmgmt]
  exact h.commit_one hcur same_local

/-- The same for a form with a result. -/
theorem commitCur_writeDst (h : s.MgmtRuns c i op f) {t : State} (hcur : t.cur = .mgmt) (hmgmt : t.mgmt.group = s.mgmt.group)
    (pair : Bool) (x : DWord) :
    ∃ g, (t.updGroup t.cur fun g => g.writeDst 0 f.d pair x).commitCur c = t.setGroup .mgmt g ∧
      c.g.OnlyLanes g (c.g.afterOne fun t => t.withDst f.d pair x) := by
  have hupd : (t.updGroup t.cur fun g => g.writeDst 0 f.d pair x) = t.setGroup .mgmt (c.g.writeDst 0 f.d pair x) := by
    rw [hcur, ← h.group, ← hmgmt]
    rfl
  obtain ⟨g, e, hg⟩ := h.commit_one (t := t.setGroup .mgmt (c.g.writeDst 0 f.d pair x)) hcur
    (writeDst_local f.d pair (fun _ => x) (namesS_false h.plain))
  refine ⟨g, ?_, hg⟩
  rw [hupd]
  unfold State.commitCur State.curGroup
  rw [show (t.setGroup .mgmt (c.g.writeDst 0 f.d pair x)).cur = .mgmt from hcur]
  exact e

end State.MgmtRuns

end Sys2Proof.Machine
end

section
/-!
# ERET, WFI, INTACK, SEV and TLBINV (O46)

Each instruction is one lemma about its function of the model; the five run on the core's one thread by `State.MgmtRuns.system_memForm`.
-/

namespace Sys2Proof.Machine

open Sys2Proof

variable {s : State} {c : Ctx} {f : Fields} {op : Nat}

/-! ## ERET -/

/-- ERET issues from supervisor level upward (R313). -/
theorem State.MgmtRuns.eret_level (h : s.MgmtRuns c (.eret f) op f) : 1 ≤ s.csr.pl.toNat := by
  by_contra hlow
  have hlevel : s.level < 1 := State.level_lt le_rfl fun _ => Nat.lt_of_not_ge hlow
  exact nomatch h.level.symm.trans (State.privilege_of_systemOf (i := .eret f) rfl hlevel)

theorem execEret_returns (h : s.MgmtRuns c (.eret f) 0xE2 f) (hppl : s.csr.ppl = 1 ∨ s.csr.ppl = 2 ∧ s.csr.pl = 2)
    (hip : s.ipOk s.csr.trapIp = true) : execEret f s = .next s.returnFromTrap := by
  have hgood : ¬ (s.csr.ppl.toNat = 0 || s.csr.ppl.toNat = 3 || s.csr.ppl.toNat > s.csr.pl.toNat) = true := by
    have hpl := h.eret_level
    rcases hppl with h1 | ⟨h2, hpl2⟩
    · have : s.csr.ppl.toNat = 1 := by rw [h1]; rfl
      simp; omega
    · rw [h2, hpl2]; decide
  unfold execEret
  rw [h.system_memForm]
  dsimp only
  rw [if_neg hgood, hip]
  rfl

theorem execEret_refused (h : s.MgmtRuns c (.eret f) 0xE2 f)
    (hppl : s.csr.ppl = 0 ∨ s.csr.ppl = 3 ∨ s.csr.pl.toNat < s.csr.ppl.toNat) :
    execEret f s = .next (s.takeTrap (mkTrap .access 15 0 (s.csr.ppl.toNat + 7 * 2 ^ 52))) := by
  have hbad : (s.csr.ppl.toNat = 0 || s.csr.ppl.toNat = 3 || s.csr.ppl.toNat > s.csr.pl.toNat) = true := by
    rcases hppl with h0 | h3 | habove
    · rw [h0]; rfl
    · rw [h3]; rfl
    · simp [habove]
  unfold execEret
  rw [h.system_memForm]
  dsimp only
  rw [if_pos hbad]
  rfl

theorem returnFromTrap_thread (s : State) (h : 0 < s.mgmt.group.threads.length) :
    s.returnFromTrap.mgmt.group.thread 0 = { s.mgmt.group.thread 0 with ip := s.csr.trapIp, back := false } := by
  show (updAt s.mgmt.group.threads 0 _).getD 0 _ = _
  rw [updAt_getD _ _ _ _ _ h, if_pos rfl]
  rfl

/-! ## WFI and INTACK -/

theorem execWfi_waits (h : s.MgmtRuns c (.wfi f) 0xE3 f) (hnone : s.takenSource = none) :
    execWfi f s = .next { s with mgmt := { s.mgmt with inWfi := true } } := by
  unfold execWfi
  rw [h.system_memForm, hnone]
  rfl

theorem execWfi_ends (h : s.MgmtRuns c (.wfi f) 0xE3 f) (hsome : s.takenSource ≠ none) :
    ∃ g, execWfi f s = .next (({ s with mgmt := { s.mgmt with inWfi := false } } : State).setGroup .mgmt g) ∧
      c.g.OnlyLanes g (c.g.afterOne fun t => t) := by
  obtain ⟨i, hi⟩ := Option.ne_none_iff_exists'.1 hsome
  obtain ⟨g, hg, honly⟩ := h.commit_one (t := { s with mgmt := { s.mgmt with inWfi := false } }) h.cur same_local
  refine ⟨g, ?_, honly⟩
  unfold execWfi
  rw [h.system_memForm, hi]
  exact congrArg Host.Outcome.next hg

/-- The state after INTACK has taken the lowest source that pends and is enabled. -/
def State.intAcked (s : State) : State :=
  match s.takenSource with
  | some i => { s with csr := { s.csr with intPend := s.csr.intPend &&& ~~~(BitVec.ofNat 9 (2 ^ i)) } }
  | none => s

/-- The bits that pend after INTACK. -/
def State.ackedPend (s : State) : BitVec 9 :=
  match s.takenSource with
  | some i => s.csr.intPend &&& ~~~(BitVec.ofNat 9 (2 ^ i))
  | none => s.csr.intPend

theorem State.intAcked_eq (s : State) : s.intAcked = { s with csr := { s.csr with intPend := s.ackedPend } } := by
  unfold State.intAcked State.ackedPend
  cases s.takenSource <;> rfl

/-- What INTACK gives D. -/
def State.intAckResult (s : State) : DWord :=
  match s.takenSource with
  | some i => BitVec.ofNat 64 i
  | none => 0x80000000

theorem State.intAcked_cur (s : State) : s.intAcked.cur = s.cur := by rw [State.intAcked_eq]

theorem State.intAcked_mgmt (s : State) : s.intAcked.mgmt = s.mgmt := by rw [State.intAcked_eq]

theorem execIntack_spec (h : s.MgmtRuns c (.intack f) 0xE5 f) :
    ∃ g, execIntack f s = .next (s.intAcked.setGroup .mgmt g) ∧
      c.g.OnlyLanes g (c.g.afterOne fun t => t.withDst f.d false s.intAckResult) := by
  obtain ⟨g, hg, honly⟩ := h.commitCur_writeDst (t := s.intAcked) (s.intAcked_cur.trans h.cur)
    (congrArg Mgmt.group s.intAcked_mgmt) false s.intAckResult
  refine ⟨g, ?_, honly⟩
  unfold execIntack
  rw [h.system_memForm]
  exact congrArg Host.Outcome.next hg

/-! ## SEV and TLBINV -/

theorem State.isHyper_eq {s : State} (h : s.csr.pl = 2) : s.isHyper = true := by
  unfold State.isHyper
  rw [h]
  rfl

/-- A form that names a partition raises nothing at hypervisor level, nor within the core's own partition. -/
theorem State.ownOrHyper {s : State} {k : Nat} (h : s.csr.pl = 2 ∨ k = s.csr.part.toNat) :
    (!s.isHyper && decide (k ≠ s.csr.part.toNat)) = false := by
  rcases h with hpl | rfl
  · rw [State.isHyper_eq hpl]; rfl
  · simp

theorem execSev_spec (h : s.MgmtRuns c (.sev f) 0xE4 f) {t : Tenant}
    (ht : s.tenants[bits (s.operand c.rd 0 f false f.a).toNat 18 16]? = some t)
    (hvec : (s.operand c.rd 0 f false f.a).toNat % 2 ^ 16 < t.vcnt.toNat)
    (hpart : s.csr.pl = 2 ∨ bits (s.operand c.rd 0 f false f.a).toNat 18 16 = s.csr.part.toNat) :
    ∃ g, execSev f s =
        .next ((s.raiseMsix (t.vbase.toNat + (s.operand c.rd 0 f false f.a).toNat % 2 ^ 16)).setGroup .mgmt g) ∧
      c.g.OnlyLanes g (c.g.afterOne fun t => t) := by
  obtain ⟨g, hg, honly⟩ := h.commitCur_same
    (t := s.raiseMsix (t.vbase.toNat + (s.operand c.rd 0 f false f.a).toNat % 2 ^ 16)) h.cur rfl
  refine ⟨g, ?_, honly⟩
  unfold execSev
  rw [h.system_memForm]
  simp only [List.flatMap_cons, List.flatMap_nil, List.append_nil, List.foldl_cons, List.foldl_nil, ht, Option.map_some,
    Option.getD_some, State.ownOrHyper hpart, Bool.or_false, decide_eq_true_eq, ge_iff_le, if_neg (Nat.not_le.2 hvec), guardTraps_nil,
    finish_ok, hg]

theorem tlbInv_spec {i : Instr} (h : s.MgmtRuns c i 0xE6 f) (whole : Bool) (gone : Nat → Nat → TlbEntry → Bool)
    (hctx : (s.operand c.rd 0 f false f.a).toNat ≤ 63)
    (hpart : s.csr.pl = 2 ∨ s.tenantOf (s.operand c.rd 0 f false f.a).toNat = s.csr.part.toNat)
    (hstores : s.ctxStores (s.operand c.rd 0 f false f.a).toNat = false) :
    let a := (s.operand c.rd 0 f false f.a).toNat
    let t := if whole then s.updCtx a fun x => { x with oldDesc := [] } else s
    ∃ g, s.system i (s.tlbInv f whole gone) = .next (({ t with
        tlb := t.tlb.filter fun e => !gone a (s.operand c.rd 0 f true f.b).toNat e } : State).setGroup .mgmt g) ∧
      c.g.OnlyLanes g (c.g.afterOne fun t => t) := by
  intro a t
  have htcur : t.cur = .mgmt := by cases whole <;> exact h.cur
  have htmgmt : t.mgmt.group = s.mgmt.group := by cases whole <;> rfl
  obtain ⟨g, hg, honly⟩ := h.commitCur_same
    (t := { t with tlb := t.tlb.filter fun e => !gone a (s.operand c.rd 0 f true f.b).toNat e }) htcur htmgmt
  refine ⟨g, ?_, honly⟩
  unfold State.tlbInv
  rw [h.system_memForm]
  simp only [List.flatMap_cons, List.flatMap_nil, List.append_nil, List.foldl_cons, List.foldl_nil, List.any_cons, List.any_nil,
    Bool.or_false, State.ownOrHyper hpart, decide_eq_true_eq, gt_iff_lt, if_neg (Nat.not_lt.2 hctx), guardTraps_nil, hstores,
    Bool.false_eq_true, if_false, finish_ok]
  exact congrArg Host.Outcome.next hg

theorem execTlbinvCtx_spec (h : s.MgmtRuns c (.tlbinvCtx f) 0xE6 f)
    (hctx : (s.operand c.rd 0 f false f.a).toNat ≤ 63)
    (hpart : s.csr.pl = 2 ∨ s.tenantOf (s.operand c.rd 0 f false f.a).toNat = s.csr.part.toNat)
    (hstores : s.ctxStores (s.operand c.rd 0 f false f.a).toNat = false) :
    let a := (s.operand c.rd 0 f false f.a).toNat
    ∃ g, execTlbinvCtx f s = .next (({ s with
        tlb := s.tlb.filter fun t => t.ctx ≠ a
        ctxs := updAt s.ctxs a fun x => { x with oldDesc := [] } } : State).setGroup .mgmt g) ∧
      c.g.OnlyLanes g (c.g.afterOne fun t => t) := by
  intro a
  obtain ⟨g, hg, honly⟩ := tlbInv_spec h true (fun ctx _ t => t.ctx = ctx) hctx hpart hstores
  refine ⟨g, hg.trans ?_, honly⟩
  have hkeep : (fun e : TlbEntry => !decide (e.ctx = a)) = fun e => decide (e.ctx ≠ a) := by simp only [ne_eq, decide_not]
  rw [← hkeep]
  rfl

theorem execTlbinvPage_spec (h : s.MgmtRuns c (.tlbinvPage f) 0xE6 f)
    (hctx : (s.operand c.rd 0 f false f.a).toNat ≤ 63)
    (hpart : s.csr.pl = 2 ∨ s.tenantOf (s.operand c.rd 0 f false f.a).toNat = s.csr.part.toNat)
    (hstores : s.ctxStores (s.operand c.rd 0 f false f.a).toNat = false) :
    let a := (s.operand c.rd 0 f false f.a).toNat
    let va := (s.operand c.rd 0 f true f.b).toNat
    ∃ g, execTlbinvPage f s = .next (({ s with
        tlb := s.tlb.filter fun t => ¬ (t.ctx = a ∧ t.va ≤ va ∧ va < t.va + t.size) } : State).setGroup .mgmt g) ∧
      c.g.OnlyLanes g (c.g.afterOne fun t => t) := by
  intro a va
  obtain ⟨g, hg, honly⟩ := tlbInv_spec h false (fun ctx va t => t.ctx = ctx && t.va ≤ va && va < t.va + t.size) hctx hpart hstores
  refine ⟨g, hg.trans ?_, honly⟩
  have hkeep : (fun e : TlbEntry => !(decide (e.ctx = a) && decide (e.va ≤ va) && decide (va < e.va + e.size))) =
      fun e => decide ¬ (e.ctx = a ∧ e.va ≤ va ∧ va < e.va + e.size) := by
    simp only [decide_not, Bool.decide_and, Bool.and_assoc]
  rw [← hkeep]
  rfl

end Sys2Proof.Machine

section

open Sys2Proof Sys2Proof.Machine

/-- Settles O46, an instruction at a time. -/
theorem managementControlInstructions : Obligations.ManagementControlInstructions := by
  intro f s c a moved
  refine ⟨?eret, ?wfi, ?intack, ?sev, fun hctx hpart hstores => ⟨?ctx, ?page⟩⟩
  case eret =>
    intro h
    exact ⟨fun hppl hip => ⟨s.returnFromTrap, execEret_returns h hppl hip, rfl, rfl, rfl, returnFromTrap_thread s⟩, execEret_refused h⟩
  case wfi =>
    intro h
    split_ifs with hnone
    · exact execWfi_waits h hnone
    · exact execWfi_ends h hnone
  case intack =>
    intro h
    obtain ⟨g, hg, honly⟩ := execIntack_spec h
    rw [State.intAcked_eq] at hg
    exact ⟨g, hg, honly⟩
  case sev => exact fun h t => execSev_spec h
  case ctx => exact fun h => execTlbinvCtx_spec h hctx hpart hstores
  case page => exact fun h => execTlbinvPage_spec h hctx hpart hstores

end
end

section
/-!
# Saves, restores, tokens and marks (O48)

CTXSV, CTXLD and TOKXF change the machine but neither the issuer nor the management core, so that their results are committed by
`State.MgmtRuns.commitCur_writeDst`. CAPMK runs on a unit of a block: `State.markOutcome` says what it does with the mark of the unit's
lowest lane that is no helper's, and each clause is a case of that.
-/

namespace Sys2Proof.Machine

open Sys2Proof

variable {s t : State} {c : Ctx} {f : Fields}

/-! ## What leaves the management core alone -/

/-- The same issuer issues, and the management core stands as it did. -/
structure State.SameCore (s t : State) : Prop where
  cur : t.cur = s.cur
  mgmt : t.mgmt = s.mgmt

theorem State.SameCore.refl (s : State) : s.SameCore s := ⟨rfl, rfl⟩

theorem State.SameCore.trans {u : State} (h : s.SameCore t) (k : t.SameCore u) : s.SameCore u :=
  ⟨k.cur.trans h.cur, k.mgmt.trans h.mgmt⟩

theorem foldl_sameCore {α : Type} {step : State → α → State} (h : ∀ (s : State) (a : α), s.SameCore (step s a)) (l : List α) (s : State) :
    s.SameCore (l.foldl step s) :=
  foldl_keeps (P := s.SameCore) (.refl s) fun t a ht => ht.trans (h t a)

theorem State.updPart_sameCore (s : State) (b k : Nat) (g : Part → Part) : s.SameCore (s.updPart b k g) := ⟨rfl, rfl⟩

theorem State.nextSave_sameCore (s : State) : s.SameCore s.nextSave := by
  unfold State.nextSave
  dsimp only
  split
  · exact s.updPart_sameCore ..
  · exact .refl s

theorem State.queueSaves_sameCore (s : State) (ps : List (Nat × Nat)) (sel : Nat × Nat → DWord) (charge : Word) :
    s.SameCore (s.queueSaves ps sel charge) :=
  (foldl_sameCore (fun s _ => s.updPart_sameCore ..) ps s).trans (State.nextSave_sameCore _)

theorem State.askBack_sameCore (s : State) (p : Nat × Nat) : s.SameCore (s.askBack p) := by
  unfold State.askBack
  split
  · exact foldl_keeps (P := s.SameCore) (.refl s) fun _ _ ht => ⟨ht.cur, ht.mgmt⟩
  · exact .refl s

theorem State.beginRestore_sameCore (s : State) (p : Nat × Nat) (col : Nat) : s.SameCore (s.beginRestore p col) :=
  (s.updPart_sameCore ..).trans (State.askBack_sameCore _ p)

/-- A form whose changes leave the core alone, with a result. -/
theorem State.MgmtRuns.commit_result {i : Instr} {op : Nat} (h : s.MgmtRuns c i op f) (ht : s.SameCore t) (pair : Bool) (x : DWord) :
    ∃ g, (t.updGroup t.cur fun g => g.writeDst 0 f.d pair x).commitCur c = t.setGroup .mgmt g ∧
      c.g.OnlyLanes g (c.g.afterOne fun t => t.withDst f.d pair x) :=
  h.commitCur_writeDst (ht.cur.trans h.cur) (congrArg Mgmt.group ht.mgmt) pair x

/-! ## CTXSV and CTXLD -/

theorem execCtxsv_spec (h : s.MgmtRuns c (.ctxsv f) 0xE7 f) :
    let a := s.operand c.rd 0 f true f.a
    let r := s.saveResult a.toNat
    ∃ g, execCtxsv f s = .next ((s.queueSaves r.2 (fun _ => a) ((s.operand c.rd 0 f false f.b).extractLsb' 0 32)).setGroup .mgmt g) ∧
      c.g.OnlyLanes g (c.g.afterOne fun t => t.withDst f.d false (BitVec.ofNat 64 r.1)) := by
  intro a r
  obtain ⟨g, hg, honly⟩ := h.commit_result
    (s.queueSaves_sameCore r.2 (fun _ => a) ((s.operand c.rd 0 f false f.b).extractLsb' 0 32)) false (BitVec.ofNat 64 r.1)
  refine ⟨g, ?_, honly⟩
  unfold execCtxsv
  rw [h.system_memForm]
  exact congrArg Host.Outcome.next hg

/-- A save that begins takes a resident part that was queued for it, and no other part of that save is being saved. -/
theorem State.nextSave_cases (s : State) :
    s.nextSave = s ∨ ∃ x k q, x ∈ s.blocks ∧ x.parts[k]? = some q ∧ q.queued = true ∧ q.state = .resident ∧
      s.saveRuns x.id q = false ∧ s.nextSave = s.updPart x.id k fun q => { q with state := .saving, queued := false } := by
  unfold State.nextSave
  dsimp only
  split
  case h_2 => exact .inl rfl
  case h_1 p hnext =>
    obtain ⟨x, hx, hpart⟩ := List.exists_of_findSome?_eq_some hnext
    split_ifs at hpart
    obtain ⟨⟨q, k⟩, hfound, rfl⟩ := Option.map_eq_some_iff.1 hpart
    have hq := List.find?_some hfound
    simp only [Bool.and_eq_true, decide_eq_true_eq, Bool.not_eq_true'] at hq
    obtain ⟨⟨hqueued, hresident⟩, hruns⟩ := hq
    exact .inr ⟨x, k, q, hx, List.mem_zipIdx_iff_getElem?.1 (List.mem_of_find?_eq_some hfound), hqueued, hresident, hruns, rfl⟩

/-- The restores that a CTXLD begins. -/
def State.beginRestores (s : State) (ps : List (Nat × Nat)) (sel : DWord) (col : Nat) : State :=
  ps.foldl (fun s p =>
    (s.updPart p.1 p.2 fun q => { q with sel }).beginRestore p
      (if col = 0xFFFFFFFF then ((s.updPart p.1 p.2 fun q => { q with sel }).chooseColumn p).getD 48 else col)) s

theorem State.beginRestores_sameCore (s : State) (ps : List (Nat × Nat)) (sel : DWord) (col : Nat) :
    s.SameCore (s.beginRestores ps sel col) :=
  foldl_sameCore (fun s _ => (s.updPart_sameCore ..).trans (State.beginRestore_sameCore ..)) ps s

theorem execCtxld_spec (h : s.MgmtRuns c (.ctxld f) 0xE8 f) :
    let a := s.operand c.rd 0 f true f.a
    let col := (s.operand c.rd 0 f false f.b).toNat
    let r := s.loadResult a.toNat col
    ∃ g, execCtxld f s = .next ((s.beginRestores r.2 a col).setGroup .mgmt g) ∧
      c.g.OnlyLanes g (c.g.afterOne fun t => t.withDst f.d false (BitVec.ofNat 64 r.1)) := by
  intro a col r
  obtain ⟨g, hg, honly⟩ := h.commit_result (s.beginRestores_sameCore r.2 a col) false (BitVec.ofNat 64 r.1)
  refine ⟨g, ?_, honly⟩
  unfold execCtxld
  rw [h.system_memForm]
  exact congrArg Host.Outcome.next hg

/-! ## TOKXF -/

/-- The state after a transfer of tokens to a device. -/
def State.sendTokens (s : State) (dev n : Nat) : State :=
  { s with
    csr := { s.csr with tokens := s.csr.tokens - n }
    fabric := { s.fabric with waggles := s.fabric.waggles ++ [⟨dev, BitVec.ofNat 32 n, s.ftime⟩] } }

theorem execTokxf_sends (h : s.MgmtRuns c (.tokxf f) 0xE9 f) (hn : (s.operand c.rd 0 f false f.b).toNat ≤ s.csr.tokens) :
    ∃ g, execTokxf f s = .next ((s.sendTokens ((s.operand c.rd 0 f false f.a).toNat % 2 ^ 11)
        (s.operand c.rd 0 f false f.b).toNat).setGroup .mgmt g) ∧
      c.g.OnlyLanes g (c.g.afterOne fun t => t.withDst f.d false (BitVec.ofNat 64 0)) := by
  obtain ⟨g, hg, honly⟩ := h.commit_result (t := s.sendTokens ((s.operand c.rd 0 f false f.a).toNat % 2 ^ 11)
    (s.operand c.rd 0 f false f.b).toNat) ⟨rfl, rfl⟩ false (BitVec.ofNat 64 0)
  refine ⟨g, ?_, honly⟩
  unfold execTokxf
  rw [h.system_memForm]
  dsimp only [List.foldl_cons, List.foldl_nil]
  rw [if_neg (Nat.not_lt.2 hn)]
  exact congrArg Host.Outcome.next hg

theorem execTokxf_refuses (h : s.MgmtRuns c (.tokxf f) 0xE9 f) (hn : ¬ (s.operand c.rd 0 f false f.b).toNat ≤ s.csr.tokens) :
    ∃ g, execTokxf f s = .next (s.setGroup .mgmt g) ∧
      c.g.OnlyLanes g (c.g.afterOne fun t => t.withDst f.d false (BitVec.ofNat 64 1)) := by
  obtain ⟨g, hg, honly⟩ := h.commit_result (.refl s) false (BitVec.ofNat 64 1)
  refine ⟨g, ?_, honly⟩
  unfold execTokxf
  rw [h.system_memForm]
  dsimp only [List.foldl_cons, List.foldl_nil]
  rw [if_pos (Nat.lt_of_not_le hn)]
  exact congrArg Host.Outcome.next hg

/-! ## CAPMK -/

/-- What CAPMK does with a mark of a block under a context, `blk` the block's index and `l` the lane that names the mark. -/
def State.markOutcome (s : State) (c : Ctx) (l mark ctx blk : Nat) : Except Stop State :=
  if s.capOn 1 ctx then .ok ((s.capAppend 5 ctx 0 (leBytes 4 mark ++ leBytes 4 blk)).commitCur c)
  else if s.capHolds ctx (isMark ctx blk) then .ok (s.capWait (isMark ctx blk))
  else
    match (if !s.capOn 2 ctx then none else if s.csr.capFree then s.nextMark ctx blk else s.capNext) with
    | some r =>
      if leAt r 16 4 = mark then .ok ((s.markMet ctx blk).commitCur c)
      else .error (.trap (mkTrap .replay 15 l mark))
    | none => .ok (s.commit c c.g (fun _ => .next) true 0)

theorem execCapmk_unit {blk g u l : Nat} {ls : List Nat} {x : Block} (h : s.CanRun c 0xEA f) (hcur : s.cur = .unit blk g u)
    (hblock : s.block? blk = some x) (hreal : (c.actors f).filter (fun l => !(c.rd.thread l).helper) = l :: ls) :
    execCapmk f s = s.finish (s.markOutcome c l (s.operand c.rd l f false f.a).toNat s.ctxOf x.index) := by
  have hagents : (c.agents f).filter (fun a => !(c.rd.thread a.1).helper) = (l, c.takers f l) :: ls.map fun l => (l, c.takers f l) := by
    unfold Ctx.agents
    rw [List.filter_map]
    exact congrArg (List.map fun l => (l, c.takers f l)) hreal
  have hactors : c.actors f ≠ [] := by
    intro hnone
    rw [hnone] at hreal
    cases hreal
  have hindex : ((s.block? blk).map (·.index)).getD 0 = x.index := by
    rw [hblock]
    rfl
  unfold execCapmk
  rw [memForm_run h _ fun _ hnone => absurd hnone hactors]
  dsimp only
  rw [hagents, hcur, ← hindex]
  rfl

theorem State.capOn_one_two {ctx k : Nat} (h : s.capOn 2 ctx = true) : s.capOn 1 k = false := by
  have hmode : s.csr.capMode = 2 := of_decide_eq_true (Bool.and_eq_true_iff.1 h).1
  unfold State.capOn
  rw [hmode]
  rfl

theorem State.capOn_of_capHolds {ctx : Nat} {mine : List Byte → Bool} (h : s.capHolds ctx mine = true) : s.capOn 2 ctx = true := by
  unfold State.capHolds at h
  rw [Bool.and_assoc] at h
  exact (Bool.and_eq_true_iff.1 h).1

theorem State.capOn_zero {mode : BitVec 2} {ctx : Nat} (h : s.csr.capMode = 0) (hmode : mode ≠ 0) : s.capOn mode ctx = false := by
  unfold State.capOn
  rw [h, decide_eq_false hmode.symm, Bool.false_and]

theorem State.capHolds_mine {ctx : Nat} {mine : List Byte → Bool} {r : List Byte} (hnext : s.capNext = some r) (hmine : mine r = true) :
    s.capHolds ctx mine = false := by
  unfold State.capHolds
  rw [hnext]
  dsimp only
  rw [hmine, Bool.not_true, Bool.and_false]

section

variable {l mark ctx blk : Nat} {r : List Byte}

theorem State.markOutcome_capture (hon : s.capOn 1 ctx = true) :
    s.markOutcome c l mark ctx blk = .ok ((s.capAppend 5 ctx 0 (leBytes 4 mark ++ leBytes 4 blk)).commitCur c) :=
  if_pos hon

theorem State.markOutcome_held (hold : s.capHolds ctx (isMark ctx blk) = true) :
    s.markOutcome c l mark ctx blk = .ok (s.capWait (isMark ctx blk)) := by
  unfold State.markOutcome
  rw [State.capOn_one_two (State.capOn_of_capHolds hold), hold]
  rfl

/-- At its own record, replay compares the mark with the recorded one. -/
theorem State.markOutcome_replay (hon : s.capOn 2 ctx = true) (hfree : s.csr.capFree = false) (hnext : s.capNext = some r)
    (hmine : isMark ctx blk r = true) :
    s.markOutcome c l mark ctx blk =
      if leAt r 16 4 = mark then .ok (s.capMove.commitCur c) else .error (.trap (mkTrap .replay 15 l mark)) := by
  have hmet : s.markMet ctx blk = s.capMove := by
    unfold State.markMet State.capMatch
    rw [hfree, hon, hnext, Option.map_some, Option.getD_some, hmine]
    rfl
  unfold State.markOutcome
  rw [State.capOn_one_two hon, State.capHolds_mine hnext hmine, hon, hfree, hnext, hmet]
  rfl

theorem State.markOutcome_off (hmode : s.csr.capMode = 0) :
    s.markOutcome c l mark ctx blk = .ok (s.commit c c.g (fun _ => .next) true 0) := by
  have hhold : s.capHolds ctx (isMark ctx blk) = false :=
    Bool.eq_false_iff.2 fun hold => nomatch (State.capOn_zero hmode (by decide)).symm.trans (State.capOn_of_capHolds hold)
  unfold State.markOutcome
  rw [State.capOn_zero hmode (by decide), hhold, State.capOn_zero hmode (by decide)]
  rfl

end

/-- Records taken at HEAD change the capture registers alone. -/
theorem State.capPass_csr : ∀ (n : Nat) (s : State), s.capPass n = { s with csr := (s.capPass n).csr }
  | 0, _ => rfl
  | n + 1, s => by
    unfold State.capPass
    dsimp only
    split
    · rfl
    · split
      · rfl
      · rw [State.capPass_csr n]

/-- With no failure that has come early, HEAD moves on over one record. -/
theorem State.capMove_one (hearly : s.csr.capEarly = []) :
    s.capMove = { s with csr := { s.csr with capHead := s.csr.capHead + 1, capSince := none } } := by
  unfold State.capMove
  rw [hearly]
  unfold State.capPass
  dsimp only
  split
  · rfl
  · rw [hearly]
    rfl

theorem State.capAppend_groupOf (s : State) (kind ctx part : Nat) (payload : List Byte) (i : Issuer) :
    (s.capAppend kind ctx part payload).groupOf i = s.groupOf i := by
  unfold State.capAppend
  split_ifs <;> cases i <;> rfl

theorem State.capAppend_cur (s : State) (kind ctx part : Nat) (payload : List Byte) : (s.capAppend kind ctx part payload).cur = s.cur := by
  unfold State.capAppend
  split_ifs <;> rfl

theorem State.capMove_groupOf (s : State) (i : Issuer) : s.capMove.groupOf i = s.groupOf i := by
  unfold State.capMove
  rw [State.capPass_csr]
  cases i <;> rfl

theorem State.capMove_cur (s : State) : s.capMove.cur = s.cur := by
  unfold State.capMove
  rw [State.capPass_csr]

/-- A unit of the same issuer moves on. -/
theorem commit_moves (hc : s.ctx? = some c) (hcur : t.cur = s.cur) (f : Fields) :
    ∃ g, t.commit c c.g (fun _ => .next) true 0 = t.setGroup s.cur g ∧ c.g.OnlyLanes g (c.after f fun _ t => t) := by
  obtain ⟨g, hg, honly⟩ := commit_dest (s := t) (c := c) (State.ctx?_lanes hc).1 c.g c.g (fun l => c.g.thread l) rfl rfl rfl (fun _ _ => rfl)
    (fun _ => .next) true 0 [] false
  rw [hcur] at hg
  refine ⟨g, hg, honly.congr fun l _ => ?_⟩
  unfold Ctx.after
  rw [ite_self]
  rfl

/-- The same after a form that has not changed the issuer's group. -/
theorem commitCur_moves (hc : s.ctx? = some c) (hcur : t.cur = s.cur) (hgroup : t.groupOf s.cur = s.groupOf s.cur) (f : Fields) :
    ∃ g, t.commitCur c = t.setGroup s.cur g ∧ c.g.OnlyLanes g (c.after f fun _ t => t) := by
  have hcurg : t.curGroup c = c.g := by
    unfold State.curGroup
    rw [hcur, hgroup, (State.ctx?_group hc).1]
    rfl
  unfold State.commitCur
  rw [hcurg]
  exact commit_moves hc hcur f

end Sys2Proof.Machine

section

open Sys2Proof Sys2Proof.Machine

/-- Settles O48, an instruction at a time; CAPMK by the cases of `State.markOutcome`. -/
theorem contextsTokensAndMarks : Obligations.ContextsTokensAndMarks := by
  intro f s c a a32 b gives
  refine ⟨fun h => execCtxsv_spec h, s.nextSave_cases, fun h => execCtxld_spec h, ?tokxf, ?capmk⟩
  case tokxf =>
    intro h
    split_ifs with hn
    · exact execTokxf_sends h hn
    · exact execTokxf_refuses h hn
  case capmk =>
    intro blk g u x l ls h hcur hblock hreal ctx mark moved
    have hrun : exec (.capmk f) s = s.finish (s.markOutcome c l mark ctx x.index) := execCapmk_unit h hcur hblock hreal
    refine ⟨?capture, ?replay, ?held, fun hearly => State.capMove_one hearly, ?off⟩
    case capture =>
      intro hon
      rw [hrun, State.markOutcome_capture hon]
      obtain ⟨h', hg, hmoved⟩ := commitCur_moves h.ctx (State.capAppend_cur s 5 ctx 0 _) (State.capAppend_groupOf ..) f
      exact ⟨h', congrArg Host.Outcome.next hg, hmoved⟩
    case replay =>
      intro hon hfree r hnext hmine
      rw [hrun, State.markOutcome_replay hon hfree hnext hmine]
      refine ⟨fun heq => ?_, fun hne => by rw [if_neg hne]; rfl⟩
      obtain ⟨h', hg, hmoved⟩ := commitCur_moves h.ctx (State.capMove_cur s) (State.capMove_groupOf s s.cur) f
      rw [if_pos heq]
      exact ⟨h', congrArg Host.Outcome.next hg, hmoved⟩
    case held =>
      intro hold
      rw [hrun, State.markOutcome_held hold]
      rfl
    case off =>
      intro hmode
      rw [hrun, State.markOutcome_off hmode]
      obtain ⟨h', hg, hmoved⟩ := commit_moves h.ctx (t := s) rfl f
      exact ⟨h', congrArg Host.Outcome.next hg, hmoved⟩

end
end

section
/-!
# CSRR and CSRW (O44)

The two instructions run on the core's one thread; what a write does to a register of 64 bits is one bit-wise fact of `mergeReg`: a bit of the
store where the store and the register's mask have it, else the old one.
-/

namespace Sys2Proof.Machine

open Sys2Proof

variable {s : State} {c : Ctx} {f : Fields}

/-! ## The instructions -/

theorem State.csrClear_sameCore (s : State) (n i : Nat) (mask : DWord) : s.SameCore (s.csrClear n i mask) := by
  unfold State.csrClear
  split
  case h_4 => exact .refl s
  all_goals
    split
    · exact ⟨rfl, rfl⟩
    · exact .refl s

/-- A read of an existing register of the reader's partition raises nothing (R302). -/
theorem State.csrTrap_read {n i : Nat} (lane : Nat) (hi : i < csrCount n)
    (hown : s.csr.pl = 2 ∨ (n ≠ 0x010 ∧ n ≠ 0x011 ∧ n ≠ 0x012) ∨ s.tenantOf i = s.csr.part.toNat) :
    s.csrTrap n i lane false = [] := by
  have hthere : decide (i ≥ csrCount n) = false := decide_eq_false (Nat.not_le.2 hi)
  unfold State.csrTrap
  dsimp only
  rw [hthere, Bool.false_and, Bool.or_false, Bool.false_or]
  rcases hown with hpl | ⟨h10, h11, h12⟩ | hpart
  · rw [State.isHyper_eq hpl]; rfl
  · rw [decide_eq_false h10, decide_eq_false h11, decide_eq_false h12, Bool.or_self, Bool.or_self, Bool.false_and, Bool.and_false]; rfl
  · rw [decide_eq_false (not_not.2 hpart), Bool.and_false, Bool.and_false]; rfl

theorem execCsrr_spec (h : s.MgmtRuns c (.csrr f) 0xE0 f) (htrap : s.csrTrap (csrNum f) (s.csrIdx c f 0) 0 false = []) :
    ∃ g, execCsrr f s = .next ((s.csrClear (csrNum f) (s.csrIdx c f 0) (csrMask f)).setGroup .mgmt g) ∧
      c.g.OnlyLanes g (c.g.afterOne fun t => t.withDst f.d f.ty.pair (s.csrRead (csrNum f) (s.csrIdx c f 0))) := by
  have hcore := s.csrClear_sameCore (csrNum f) (s.csrIdx c f 0) (csrMask f)
  obtain ⟨g, hg, honly⟩ := h.commit_result hcore f.ty.pair (s.csrRead (csrNum f) (s.csrIdx c f 0))
  refine ⟨g, ?_, honly⟩
  unfold execCsrr
  rw [h.system_memForm]
  dsimp only [List.foldl_cons, List.foldl_nil]
  rw [List.flatMap_singleton, htrap, guardTraps_nil, ← hcore.cur]
  exact congrArg Host.Outcome.next hg

/-- The unit moves on with its group as the state holds it. -/
theorem State.commitCur_onlyLanes (t : State) (hn : c.lanes.Nodup) :
    ∃ h, t.commitCur c = t.setGroup t.cur h ∧
      ∀ g, t.groupOf t.cur = some g → g.OnlyLanes h fun l => if l ∈ c.lanes then (g.thread l).advance else g.thread l := by
  obtain ⟨h, hcommit, hrest, hlen, hlanes⟩ := State.commitWith_spec t c (t.curGroup c) (fun _ => .next) true 0 [] false hn
  refine ⟨h, hcommit, fun g hg => ?_⟩
  have hcur : t.curGroup c = g := by
    unfold State.curGroup
    rw [hg]
    rfl
  rw [hcur] at hrest hlen hlanes
  refine ⟨?_, hlen, ?_, hlanes⟩
  · rw [hrest]
  · rw [hrest]

theorem execCsrw_spec (h : s.MgmtRuns c (.csrw f) 0xE1 f) (htrap : s.csrTrap (csrNum f) (s.csrIdx c f 0) 0 true = []) :
    execCsrw f s = .next ((s.csrWrite (csrNum f) (s.csrIdx c f 0) (s.operand c.rd 0 f f.ty.pair f.a) (csrMask f) s.isHyper).commitCur c) := by
  unfold execCsrw
  rw [h.system_memForm]
  dsimp only [List.foldl_cons, List.foldl_nil]
  rw [List.flatMap_singleton, htrap, guardTraps_nil, finish_ok]

/-! ## Registers -/

theorem mergeReg_all (old x mask : DWord) : mergeReg old x mask (fieldMask 63 0) = (old &&& ~~~mask) ||| (x &&& mask) := by
  have hall : fieldMask 63 0 = BitVec.allOnes 64 := by decide
  unfold mergeReg
  rw [hall, BitVec.and_allOnes, BitVec.and_allOnes]

theorem getLsbD_mergeReg (old x mask rw : DWord) {k : Nat} (hk : k < 64) :
    (mergeReg old x mask rw).getLsbD k = if mask.getLsbD k && rw.getLsbD k then x.getLsbD k else old.getLsbD k := by
  unfold mergeReg
  simp only [BitVec.getLsbD_or, BitVec.getLsbD_and, BitVec.getLsbD_not, hk, decide_true, Bool.true_and]
  cases mask.getLsbD k <;> cases rw.getLsbD k <;> simp

/-- Bits `lo` to `hi` of a number of 64 bits. -/
theorem ofNat_bits (v : DWord) {w hi lo : Nat} (hw : hi + 1 - lo = w) : BitVec.ofNat w (bits v.toNat hi lo) = v.extractLsb' lo w := by
  refine BitVec.eq_of_getLsbD_eq fun k hk => ?_
  rw [BitVec.getLsbD_ofNat, testBit_bits, BitVec.getLsbD_extractLsb', hw, Nat.add_comm k lo]
  simp [hk, BitVec.getLsbD]

theorem bit_toNat (v : DWord) (k : Nat) : bit v.toNat k = v.getLsbD k :=
  bit_eq_testBit v.toNat k

/-- A field that a full store writes. -/
theorem extractLsb'_mergeReg (old x rw : DWord) {lo w : Nat} (hw : lo + w ≤ 64)
    (hfield : rw.extractLsb' lo w = BitVec.allOnes w) :
    (mergeReg old x (fieldMask 63 0) rw).extractLsb' lo w = x.extractLsb' lo w := by
  refine BitVec.eq_of_getLsbD_eq fun k hk => ?_
  have hrw : rw.getLsbD (lo + k) = true := by
    have hbit := congrArg (fun v => v.getLsbD k) hfield
    simpa [hk] using hbit
  have hall : (fieldMask 63 0).getLsbD (lo + k) = true := by
    rw [show fieldMask 63 0 = BitVec.allOnes 64 by decide, BitVec.getLsbD_allOnes]
    exact decide_eq_true (by omega)
  simp only [BitVec.getLsbD_extractLsb', hk, decide_true, Bool.true_and]
  rw [getLsbD_mergeReg _ _ _ _ (by omega), hall, hrw]
  rfl

/-- A bit that a full store writes. -/
theorem getLsbD_mergeReg_full (old x rw : DWord) {k : Nat} (hk : k < 64) (hfield : rw.getLsbD k = true) :
    (mergeReg old x (fieldMask 63 0) rw).getLsbD k = x.getLsbD k := by
  have hall : (fieldMask 63 0).getLsbD k = true := by
    rw [show fieldMask 63 0 = BitVec.allOnes 64 by decide, BitVec.getLsbD_allOnes]
    exact decide_eq_true hk
  rw [getLsbD_mergeReg _ _ _ _ hk, hall, hfield]
  rfl

/-- A full store to MSTAT (R303). -/
theorem Csrs.writeMstat_full (r : Csrs) (x : DWord) (hyper : Bool) :
    let w := r.writeMstat x (fieldMask 63 0) hyper
    w.ie = x.getLsbD 0 ∧ w.pie = x.getLsbD 1 ∧ w.tl = x.getLsbD 2 ∧ w.ppl = x.extractLsb' 8 2 ∧ w.pl = r.pl ∧
      w.part = if hyper then x.extractLsb' 16 3 else r.part := by
  have hbit {k : Nat} (hk : k < 64) (hfield : (fieldMask 18 16 ||| fieldMask 9 8 ||| fieldMask 2 0).getLsbD k = true) :
      bit (mergeReg r.mstat x (fieldMask 63 0) (fieldMask 18 16 ||| fieldMask 9 8 ||| fieldMask 2 0)).toNat k = x.getLsbD k :=
    (bit_toNat _ k).trans (getLsbD_mergeReg_full _ _ _ hk hfield)
  refine ⟨hbit (by decide) (by decide), hbit (by decide) (by decide), hbit (by decide) (by decide), ?ppl, rfl, ?part⟩
  case ppl => exact (ofNat_bits _ rfl).trans (extractLsb'_mergeReg _ _ _ (by decide) (by decide))
  case part =>
    exact congrArg (fun p => if hyper then p else r.part)
      ((ofNat_bits _ rfl).trans (extractLsb'_mergeReg _ _ _ (by decide) (by decide)))

/-- TRAPINFO, TRAPIP and TIMECMP are RW without reserved bits (R302, R304). -/
theorem csrRead_csrWrite_whole (s : State) (x mask : DWord) (hyper : Bool) {k : Nat} (hk : k = 0x003 ∨ k = 0x004 ∨ k = 0x007) :
    (s.csrWrite k 0 x mask hyper).csrRead k 0 = (s.csrRead k 0 &&& ~~~mask) ||| (x &&& mask) := by
  rcases hk with rfl | rfl | rfl <;> exact mergeReg_all ..

/-- Writing 1 clears a source of bits 8 to 5 (R311). -/
theorem intPend_csrWrite (s : State) (x mask : DWord) (hyper : Bool) {k : Nat} (hk : k < 9) :
    (s.csrWrite 0x005 0 x mask hyper).csr.intPend.getLsbD k =
      (s.csr.intPend.getLsbD k && !(decide (5 ≤ k) && x.getLsbD k && mask.getLsbD k)) := by
  have hfield : (fieldMask 8 5).getLsbD k = decide (5 ≤ k) := by interval_cases k <;> decide
  show (s.csr.intPend &&& ~~~((x &&& mask &&& fieldMask 8 5).extractLsb' 0 9)).getLsbD k = _
  simp only [BitVec.getLsbD_and, BitVec.getLsbD_not, BitVec.getLsbD_extractLsb', hk, decide_true, Bool.true_and, Nat.zero_add, hfield]
  rw [Bool.and_comm (x.getLsbD k && mask.getLsbD k), Bool.and_assoc (decide (5 ≤ k))]

end Sys2Proof.Machine

section

open Sys2Proof Sys2Proof.Machine

/-- Settles O44: the two instructions, then the registers one at a time. -/
theorem controlRegistersAreReadAndWritten : Obligations.ControlRegistersAreReadAndWritten := by
  intro f s c n i
  refine ⟨fun h hi hown => execCsrr_spec h (State.csrTrap_read 0 hi hown), fun h htrap => ?write, fun x mask hyper =>
    ⟨fun k hk => csrRead_csrWrite_whole s x mask hyper hk, rfl, rfl, fun k hk => intPend_csrWrite s x mask hyper hk,
      Csrs.writeMstat_full s.csr x hyper⟩⟩
  case write =>
    obtain ⟨g, hg, honly⟩ := State.commitCur_onlyLanes
      (s.csrWrite n i (s.operand c.rd 0 f f.ty.pair f.a) (csrMask f) s.isHyper) (State.ctx?_lanes h.can.ctx).1
    exact ⟨g, (execCsrw_spec h htrap).trans (congrArg Host.Outcome.next hg), honly⟩

end
end

section

open Sys2Proof Sys2Proof.Machine

/-- Settles O58: the reset state is canonical in every memory, and its level is the hypervisor's. -/
theorem resetMeetsTheInvariants : Obligations.ResetMeetsTheInvariants :=
  ⟨State.memoriesWf_iff.2 State.reset_canon, rfl, rfl⟩

end

section
/-!
# A deferred list that is moved (O52)

A store of a context's deferred-list base is to change the base alone. The model also notes of every name that the context holds back
that its list has been moved, since the append of such a name is not defined from then on (R353).
-/

namespace Sys2Proof.Machine

open Sys2Proof

/-- A name in the deferred list of context 0 that waits for a pin on another device. -/
def waitingName : Deferred :=
  { ctx := 0, name := 0, pins := [], remote := 1, ring := 0, block := 0, bar := 0, order := 0, faulted := false, moved := false }

/-- The machine after reset with that name held back. -/
def deferringState : State := { State.reset with deferred := [waitingName] }

/-- The base is 0 at reset, so that a store of 0x1000 moves the list, and the name is noted. -/
theorem ctxWrite_defBase_deferred :
    (deferringState.ctxWrite 0 0x400 0x1000 (fieldMask 63 0)).deferred = [{ waitingName with moved := true }] := by decide

/-- Refutes O52: in `deferringState` a store of 0x1000 to the base of context 0 sets `moved` in the name that waits, where the clause of
that store says that only the base changes. -/
theorem not_deviceEventsHaveTheirEffect : ¬ Obligations.DeviceEventsHaveTheirEffect := by
  rintro ⟨-, -, -, -, -, -, -, -, -, -, -, -, -, -, -, -, -, -, -, -, -, -, -, -, -, -, -, -, -, -, -, -, -, -, -, -, -, hbase, -⟩
  have hstep := hbase deferringState 0 0x1000 CtxBlock.reset (by decide) (.inl rfl) rfl (by decide)
  have hmoved := congrArg (·.deferred) (Host.Outcome.next.inj hstep)
  exact absurd (ctxWrite_defBase_deferred.symm.trans hmoved) (by decide)

end Sys2Proof.Machine
end

section
/-!
# Supplies, temperature and tokens (O51)

Each row of the power controller changes one element of a list or one register: its lemma `exec_…` gives the next state under the
conditions of its clause. The rows that write a register take the fields of a full store from the laws of `mergeReg`.
-/

namespace Sys2Proof.Machine

open Sys2Proof

variable {s : State}

/-! ## Fields of a full store -/

/-- Bits `lo` to `hi` of a number of 64 bits, as a number. -/
theorem toNat_extractLsb' (v : DWord) {w hi lo : Nat} (hw : hi + 1 - lo = w) : (v.extractLsb' lo w).toNat = bits v.toNat hi lo := by
  rw [BitVec.extractLsb'_toNat, Nat.shiftRight_eq_div_pow, bits, hw]

/-- The same bits as a number of `w` bits. -/
theorem ofNat_div_two_pow (v : DWord) (lo w : Nat) : BitVec.ofNat w (v.toNat / 2 ^ lo) = v.extractLsb' lo w := by
  rw [← Nat.shiftRight_eq_div_pow]
  rfl

/-- A field that a full store writes, as a number. -/
theorem bits_mergeReg_full (old x rw : DWord) {hi lo w : Nat} (hw : hi + 1 - lo = w) (hend : lo + w ≤ 64)
    (hfield : rw.extractLsb' lo w = BitVec.allOnes w) :
    bits (mergeReg old x (fieldMask 63 0) rw).toNat hi lo = (x.extractLsb' lo w).toNat := by
  rw [← toNat_extractLsb' _ hw, extractLsb'_mergeReg _ _ _ hend hfield]

/-- A bit that a full store writes, of the register as a number. -/
theorem bit_mergeReg_full (old x rw : DWord) {k : Nat} (hk : k < 64) (hfield : rw.getLsbD k = true) :
    bit (mergeReg old x (fieldMask 63 0) rw).toNat k = x.getLsbD k :=
  (bit_toNat _ k).trans (getLsbD_mergeReg_full _ _ _ hk hfield)

/-- The lowest bits of a number. -/
theorem mod_two_pow_eq_bits (n w : Nat) : n % 2 ^ (w + 1) = bits n w 0 := by
  rw [bits, Nat.pow_zero, Nat.div_one, Nat.sub_zero]

/-- The whole fields of a mask. -/
theorem extractLsb'_fieldMask {hi lo w : Nat} (hhi : hi < 64) (hend : lo + w ≤ hi + 1) :
    (fieldMask hi 0).extractLsb' lo w = BitVec.allOnes w := by
  refine BitVec.eq_of_getLsbD_eq fun k hk => ?_
  rw [BitVec.getLsbD_extractLsb', BitVec.getLsbD_allOnes, fieldMask, BitVec.getLsbD_ofNat, pow_zero, Nat.testBit_two_pow_sub_one]
  simp [hk]
  omega

/-- A full store to a register whose bits above `hi` are 0 and reserved. -/
theorem mergeReg_low {old : DWord} (x : DWord) {hi : Nat} (hhi : hi < 64) (hold : old.extractLsb' (hi + 1) (63 - hi) = 0) :
    mergeReg old x (fieldMask 63 0) (fieldMask hi 0) = x &&& fieldMask hi 0 := by
  refine BitVec.eq_of_getLsbD_eq fun k hk => ?_
  have hmask (n : Nat) : (fieldMask n 0).getLsbD k = decide (k < n + 1) := by
    rw [fieldMask, BitVec.getLsbD_ofNat, pow_zero, Nat.testBit_two_pow_sub_one, decide_eq_true hk, Bool.true_and]
  rw [getLsbD_mergeReg _ _ _ _ hk, BitVec.getLsbD_and, hmask, hmask, decide_eq_true hk, Bool.true_and]
  by_cases hin : k < hi + 1
  · simp [hin]
  · have hbit := congrArg (fun v => v.getLsbD (k - (hi + 1))) hold
    simp only [BitVec.getLsbD_extractLsb', Nat.add_sub_cancel' (Nat.not_lt.1 hin), decide_eq_true (show k - (hi + 1) < 63 - hi by omega)] at hbit
    simpa [hin] using hbit

/-! ## Levels (R370, R378, R379) -/

theorem exec_levelChange {d : Nat} {x : Supply} (hx : s.supplies[d]? = some x) :
    exec (.levelChange d) s = .next { s with supplies := setAt s.supplies d { x with clock := x.effPl } } :=
  congrArg (fun l => Host.Outcome.next ({ s with supplies := l } : State)) (updAt_eq_setAt hx _)

/-- The levels re-evaluated change each supply's effective level alone. -/
theorem State.relevel_getElem? (s : State) (d : Nat) :
    s.relevel.supplies[d]? = (s.supplies[d]?).map fun x => { x with effPl := s.effective d } := by
  rw [State.relevel, List.getElem?_map, List.getElem?_zipIdx, Option.map_map, Nat.zero_add]
  rfl

theorem exec_cohortLevelAdopt {d : Nat} {x : Supply} {u : State} (hx : s.supplies[d]? = some x) (hpending : x.pending = true)
    (htime : x.adoptAt ≤ s.ftime)
    (hu : u = ({ s with supplies := setAt s.supplies d { x with cohort := x.next, pending := false } } : State).relevel) :
    exec (.cohortLevelAdopt d) s = .next
      { u with supplies := updAt u.supplies d fun y => if x.cen then { y with clock := y.effPl } else y } := by
  obtain ⟨y, hy, hcen⟩ : ∃ y, u.supplies[d]? = some y ∧ y.cen = x.cen := by
    have hset : (setAt s.supplies d { x with cohort := x.next, pending := false })[d]? =
        some { x with cohort := x.next, pending := false } := by
      rw [setAt, updAt_get?, if_pos rfl, hx]
      rfl
    rw [hu, State.relevel_getElem?, hset]
    exact ⟨_, rfl, rfl⟩
  have hclock : { y with clock := if y.cen then y.effPl else y.clock } = if x.cen then { y with clock := y.effPl } else y := by
    rw [← hcen]
    split <;> rfl
  rw [updAt_eq_setAt hy, ← hclock, ← updAt_eq_setAt hy fun y => { y with clock := if y.cen then y.effPl else y.clock }, hu]
  show execCohortLevelAdopt d s = _
  unfold execCohortLevelAdopt
  simp only [hx, hpending, decide_eq_true htime, Bool.and_self, if_true, updAt_eq_setAt hx]

/-- The supply after a full store to the cohort control of its domain (R379). -/
def Supply.cohortWritten (x : Supply) (now : Nat) (v : DWord) : Supply :=
  { x with
    cen := v.getLsbD 63
    next := (v.extractLsb' 56 4).toNat
    atField := (v.extractLsb' 0 56).toNat
    adoptAt := max (now + 10000) (v.extractLsb' 0 56).toNat
    late := x.late || decide ((v.extractLsb' 0 56).toNat < now + 10000)
    pending := true
    cohort := if v.getLsbD 63 && !x.cen then x.effPl else x.cohort }

theorem exec_cohortWrite {d : BitVec 2} {v : DWord} {x : Supply} (hx : s.supplies[d.toNat]? = some x) :
    exec (.cohortWrite d v) s = .next
      ({ s with supplies := setAt s.supplies d.toNat (x.cohortWritten s.ftime v) } : State).relevel := by
  have hcen := bit_mergeReg_full (s.plCeil (8 + d.toNat)) v (fieldMask 63 63 ||| fieldMask 59 0) (k := 63) (by decide) (by decide)
  have hnext := bits_mergeReg_full (s.plCeil (8 + d.toNat)) v (fieldMask 63 63 ||| fieldMask 59 0) (hi := 59) (lo := 56) rfl (by decide)
    (by decide)
  have hat := bits_mergeReg_full (s.plCeil (8 + d.toNat)) v (fieldMask 63 63 ||| fieldMask 59 0) (hi := 55) (lo := 0) rfl (by decide)
    (by decide)
  have hsoon (n m : Nat) : (if m < n then n else m) = max n m := by
    split <;> omega
  show Host.Outcome.next (s.writePlceil (8 + d.toNat) v (fieldMask 63 0) s.isHyper) = _
  unfold State.writePlceil
  rw [if_neg (by omega), Nat.add_sub_cancel_left]
  dsimp only
  rw [updAt_eq_setAt hx, mod_two_pow_eq_bits _ 55, hcen, hnext, hat, hsoon]
  rfl

/-! ## The assignment of columns to supplies (R369, R370) -/

/-- The assignment that a full store makes of the columns of tower `t`. -/
theorem swMatrix_assignment {t : Nat} {v old : DWord} {m supply : List (BitVec 2)} (hlen : m.length = 48)
    (hm : ∀ c, c < 48 → m.getD c 0 = if c / 24 = t then v.extractLsb' (2 * (c % 24)) 2 else supply.getD c 0) :
    ((List.range 48).map fun c =>
      if c / 24 = t then BitVec.ofNat 2 ((mergeReg old v (fieldMask 63 0) (fieldMask 47 0)).toNat / 2 ^ (2 * (c % 24)))
      else supply.getD c 0) = m := by
  refine List.ext_getElem (by rw [List.length_map, List.length_range, hlen]) fun c hc hc' => ?_
  have hfield : (fieldMask 47 0).extractLsb' (2 * (c % 24)) 2 = BitVec.allOnes 2 := extractLsb'_fieldMask (by decide) (by omega)
  rw [List.getElem_map, List.getElem_range, ← List.getD_eq_getElem m 0 hc', hm c (hlen ▸ hc'), ofNat_div_two_pow,
    extractLsb'_mergeReg _ _ _ (by omega) hfield]

/-- A column that the assignment moves and that is busy. -/
theorem any_moved_busy (s : State) (m : List (BitVec 2)) :
    (((List.range 48).filter fun c => m.getD c 0 != s.csr.supply.getD c 0).any s.columnBusy) = true ↔
      ∃ c, c < 48 ∧ m.getD c 0 ≠ s.csr.supply.getD c 0 ∧ s.columnBusy c = true := by
  simp only [List.any_filter, List.any_eq_true, List.mem_range, Bool.and_eq_true, bne_iff_ne]

/-- A domain that feeds some column. -/
theorem State.domain_isEmpty (s : State) (d : Nat) :
    (s.domain d).isEmpty = !(List.range 48).any fun c => decide ((s.csr.supply.getD c 0).toNat = d) := by
  rw [Bool.eq_iff_iff, List.isEmpty_iff, State.domain, List.filter_eq_nil_iff, Bool.not_eq_true', List.any_eq_false]
  rfl

/-- A supply under an assignment while no power-down is under way: on where it feeds a column, else off and without power (R370). -/
theorem supply_assigned (s : State) (hpower : s.powerOff = none) (m : List (BitVec 2)) (u : Supply × Nat) :
    ({ u.1 with
        on := !(({ s with csr := { s.csr with supply := m } } : State).domain u.2).isEmpty && !s.powerOff.any fun t => decide (t ≤ s.uptime)
        power := if !(({ s with csr := { s.csr with supply := m } } : State).domain u.2).isEmpty then u.1.power else 0 } : Supply) =
      if (List.range 48).any (fun c => (m.getD c 0).toNat = u.2) then { u.1 with on := true } else { u.1 with on := false, power := 0 } := by
  rw [State.domain_isEmpty, hpower, Bool.not_not]
  cases (List.range 48).any fun c => decide ((m.getD c 0).toNat = u.2) <;> rfl

theorem exec_swmatrixWrite {t : Bool} {v : DWord} {m : List (BitVec 2)} (hpl : s.csr.pl = 2) (hlen : m.length = 48)
    (hm : ∀ c, c < 48 → m.getD c 0 = if c / 24 = b2n t then v.extractLsb' (2 * (c % 24)) 2 else s.csr.supply.getD c 0)
    (hclash : s.supplyClash (b2n t) m = false) (hidle : ∀ c, c < 48 → m.getD c 0 = s.csr.supply.getD c 0 ∨ s.columnBusy c = false)
    (hpower : s.powerOff = none) :
    exec (.swmatrixWrite t v) s = .next
      ({ s with
        csr := { s.csr with supply := m }
        supplies := s.supplies.zipIdx.map fun (u : Supply × Nat) =>
          if (List.range 48).any (fun c => (m.getD c 0).toNat = u.2) then { u.1 with on := true }
          else { u.1 with on := false, power := 0 } } : State).relevel := by
  have htower : b2n t < 2 := by cases t <;> decide
  have hstays : (((List.range 48).filter fun c => m.getD c 0 != s.csr.supply.getD c 0).any s.columnBusy) = false := by
    rw [← Bool.not_eq_true, any_moved_busy]
    rintro ⟨c, hc, hmoved, hbusy⟩
    exact (hidle c hc).elim hmoved fun h => absurd hbusy (by simp [h])
  show Host.Outcome.next (if s.isHyper then s.writeSwmatrix (b2n t) v (fieldMask 63 0) else s) = _
  rw [State.isHyper_eq hpl, if_pos rfl]
  unfold State.writeSwmatrix
  rw [if_pos htower]
  dsimp only
  rw [swMatrix_assignment hlen hm, hclash, hstays, if_neg (by decide)]
  simp only [supply_assigned s hpower]

theorem exec_swmatrixWrite_ignored {t : Bool} {v : DWord} {m : List (BitVec 2)} (hlen : m.length = 48)
    (hm : ∀ c, c < 48 → m.getD c 0 = if c / 24 = b2n t then v.extractLsb' (2 * (c % 24)) 2 else s.csr.supply.getD c 0)
    (hno : s.csr.pl.toNat < 2 ∨ s.supplyClash (b2n t) m = true ∨
      ∃ c, c < 48 ∧ m.getD c 0 ≠ s.csr.supply.getD c 0 ∧ s.columnBusy c = true) :
    exec (.swmatrixWrite t v) s = .next s := by
  have htower : b2n t < 2 := by cases t <;> decide
  show Host.Outcome.next (if s.isHyper then s.writeSwmatrix (b2n t) v (fieldMask 63 0) else s) = _
  refine congrArg Host.Outcome.next (ite_eq_right_iff.2 fun hhyper => ?_)
  have hrefused : (s.supplyClash (b2n t) m || ((List.range 48).filter fun c => m.getD c 0 != s.csr.supply.getD c 0).any s.columnBusy) = true := by
    rw [Bool.or_eq_true, any_moved_busy]
    exact hno.resolve_left (Nat.not_lt.2 (of_decide_eq_true hhyper))
  unfold State.writeSwmatrix
  rw [if_pos htower]
  dsimp only
  rw [swMatrix_assignment hlen hm, if_pos hrefused]

/-! ## Thresholds and duty (R385) -/

theorem exec_thrcfgWrite_thresholds {i : Nat} {v : DWord} (hi : i < 2) (hpl : s.csr.pl = 2)
    (h12 : v.extractLsb' 0 10 < v.extractLsb' 10 10) (h23 : v.extractLsb' 10 10 < v.extractLsb' 20 10)
    (hcrit : (v.extractLsb' 20 10).toNat ≤ critLimit i) (hold : (s.csr.thrcfg.getD i 0).extractLsb' 48 16 = 0) :
    exec (.thrcfgWrite i v) s = .next
      { s with csr := { s.csr with thrcfg := setAt s.csr.thrcfg i (v &&& 0x0000FFFFFFFFFFFF) } } := by
  have hthr (l : Nat) (hl : l < 3) : thrOf (mergeReg (s.csr.thrcfg.getD i 0) v (fieldMask 63 0) (fieldMask 47 0)).toNat (l + 1) =
      (v.extractLsb' (10 * l) 10).toNat :=
    bits_mergeReg_full _ _ _ (by omega) (by omega) (extractLsb'_fieldMask (by decide) (by omega))
  have hword := mergeReg_low v (hi := 47) (by decide) hold
  show Host.Outcome.next (s.writeThrcfg i v (fieldMask 63 0) s.isHyper) = _
  unfold State.writeThrcfg
  rw [if_pos hi, State.isHyper_eq hpl]
  dsimp only
  rw [hthr 0 (by decide), hthr 1 (by decide), hthr 2 (by decide), hword,
    if_pos (by simp only [Bool.and_eq_true, decide_eq_true_eq, true_and]; exact ⟨⟨h12, h23⟩, hcrit⟩), d64, BitVec.ofNat_toNat, BitVec.setWidth_eq]
  rfl

/-- A duty that a full store gives a column. -/
theorem mergeReg_duty {old : Nat} (v : DWord) (hold : old ≤ 16) :
    (mergeReg (d64 old) v (fieldMask 63 0) (fieldMask 4 0)).toNat = (v.extractLsb' 0 5).toNat := by
  have hrest : (d64 old).extractLsb' (4 + 1) (63 - 4) = 0 := by
    refine BitVec.eq_of_toNat_eq ?_
    rw [toNat_extractLsb' _ (hi := 63) rfl, d64, BitVec.toNat_ofNat, bits, Nat.mod_eq_of_lt (by omega), Nat.div_eq_of_lt (by omega)]
    rfl
  rw [mergeReg_low v (by decide) hrest, toNat_extractLsb' v (hi := 4) rfl, BitVec.toNat_and, ← mod_two_pow_eq_bits]
  exact Nat.and_two_pow_sub_one_eq_mod v.toNat 5

theorem exec_thrcfgWrite_duty {i : Nat} {v : DWord} (hi : 2 ≤ i) (hold : s.csr.duty.getD (i - 2) 0 ≤ 16)
    (hlow : 1 ≤ (v.extractLsb' 0 5).toNat) (hhigh : (v.extractLsb' 0 5).toNat ≤ 16) :
    exec (.thrcfgWrite i v) s = .next
      { s with csr := { s.csr with duty := setAt s.csr.duty (i - 2) (v.extractLsb' 0 5).toNat } } := by
  show Host.Outcome.next (s.writeThrcfg i v (fieldMask 63 0) s.isHyper) = _
  unfold State.writeThrcfg
  rw [if_neg (Nat.not_lt.2 hi)]
  dsimp only
  rw [mergeReg_duty v hold, if_pos (by simp only [Bool.and_eq_true, decide_eq_true_eq]; exact ⟨hlow, hhigh⟩)]

/-! ## Columns (R373, R374) -/

theorem exec_imbalRelease {col : Nat} {c : Column} (hc : s.columns[col]? = some c) (hstate : c.state = 2) (hcalm : 100 ≤ c.calm) :
    exec (.imbalRelease col) s = .next
      { s with columns := setAt s.columns col { c with state := s.balanceState col c.rails, calm := 0 } } := by
  show execImbalRelease col s = _
  unfold execImbalRelease
  rw [hc]
  dsimp only
  rw [if_pos (by simp [hstate, hcalm]), updAt_eq_setAt hc]

/-- The level of an engine that also holds its part of the slope. -/
theorem engineWith_level (ramp : Nat) (b : Nat × BallastCause) :
    (engineWith ramp b).1 = max b.1 (min 16 ((ramp * 16 + 999) / 1000)) := by
  unfold engineWith
  dsimp only
  split
  · next h => exact (Nat.max_eq_right (Nat.le_of_lt h)).symm
  · next h => exact (Nat.max_eq_left (Nat.not_lt.1 h)).symm

/-- Its charge. -/
theorem engineWith_cause (ramp : Nat) (b : Nat × BallastCause) :
    (engineWith ramp b).2 = if b.1 < min 16 ((ramp * 16 + 999) / 1000) then .falls else b.2 :=
  apply_ite Prod.snd ..

theorem Column.follow_eq {c : Column} {t want now : Nat} (hwant : want ≤ 4095) (hnow : now = max want (c.curr - (t - c.rampAt) / 2)) :
    c.follow t want = { c with
      curr := now, ramp := now - want, rampAt := t
      blst := c.base.map fun b => max b.1 (min 16 (((now - want) * 16 + 999) / 1000))
      causes := c.base.map fun b => if b.1 < min 16 (((now - want) * 16 + 999) / 1000) then .falls else b.2 } := by
  unfold Column.follow Column.slopeFloor Column.ramped
  dsimp only
  rw [Nat.min_eq_right hwant, ← hnow, Nat.sub_self, Nat.zero_div, Nat.sub_zero]
  simp only [engineWith_level, engineWith_cause]

theorem exec_slopeLimitRamp {col want now : Nat} {c : Column} (hc : s.columns[col]? = some c) (hwant : want ≤ 4095)
    (hnow : now = max want (c.curr - (s.uptime - c.rampAt) / 2)) :
    exec (.slopeLimitRamp col want) s = .next
      { s with columns := setAt s.columns col { c with
        curr := now, ramp := now - want, rampAt := s.uptime
        blst := c.base.map fun b => max b.1 (min 16 (((now - want) * 16 + 999) / 1000))
        causes := c.base.map fun b => if b.1 < min 16 (((now - want) * 16 + 999) / 1000) then .falls else b.2 } } := by
  show Host.Outcome.next { s with columns := updAt s.columns col fun c => c.follow s.uptime want } = _
  rw [updAt_eq_setAt hc, Column.follow_eq hwant hnow]

/-! ## Sensors (R386, R388, R418) -/

/-- A sensor after a poll in which reading `k` may be absent. -/
def State.pollAt (s : State) (temps : List Nat) (k : Nat) (x : Sensor) : Sensor :=
  ((temps[k]?).map (pollSensor (s.thrCfg k) x)).getD x

/-- The sensors after a poll. -/
def State.polled (s : State) (temps : List Nat) : List Sensor := s.sensors.zipIdx.map fun y => s.pollAt temps y.2 y.1

/-- A sensor that is not being calibrated reads 20 units beyond CRIT or more. -/
def State.overheats (s : State) (temps : List Nat) : Bool :=
  (s.polled temps).zipIdx.any fun (x : Sensor × Nat) => !(s.sensors.getD x.2 x.1).skip && x.1.temp ≥ thrOf (s.thrCfg x.2) 3 + 20

theorem execThermalPoll_eq (s : State) (temps : List Nat) :
    execThermalPoll temps s = .next (if s.overheats temps && !s.powerOff.isSome then
      { s with sensors := s.polled temps, stopped := true, powerOff := some (s.uptime + 1000000) }
      else { s with sensors := s.polled temps }) := by
  refine congrArg (fun l => Host.Outcome.next (if (l.zipIdx.any fun (x : Sensor × Nat) =>
      !(s.sensors.getD x.2 x.1).skip && x.1.temp ≥ thrOf (s.thrCfg x.2) 3 + 20) && !s.powerOff.isSome then
    { s with sensors := l, stopped := true, powerOff := some (s.uptime + 1000000) } else { s with sensors := l }))
    (List.map_congr_left (l := s.sensors.zipIdx) fun x _ => ?_)
  unfold State.pollAt
  cases temps[x.2]? <;> rfl

theorem State.polled_getElem? (s : State) (temps : List Nat) (k : Nat) :
    (s.polled temps)[k]? = (s.sensors[k]?).map (s.pollAt temps k) := by
  rw [State.polled, List.getElem?_map, List.getElem?_zipIdx, Option.map_map, Nat.zero_add]
  rfl

theorem State.overheats_iff {s : State} {temps : List Nat} : s.overheats temps = true ↔
    ∃ k x, s.sensors[k]? = some x ∧ x.skip = false ∧ thrOf (s.thrCfg k) 3 + 20 ≤ (s.pollAt temps k x).temp := by
  simp only [State.overheats, List.any_eq_true, Prod.exists, List.mem_zipIdx_iff_getElem?, State.polled_getElem?, Option.map_eq_some_iff,
    Bool.and_eq_true, Bool.not_eq_true', decide_eq_true_eq]
  constructor
  · rintro ⟨y, k, ⟨x, hx, rfl⟩, hskip, hhot⟩
    rw [List.getD_eq_getElem?_getD, hx] at hskip
    exact ⟨k, x, hx, hskip, hhot⟩
  · rintro ⟨k, x, hx, hskip, hhot⟩
    refine ⟨_, k, ⟨x, hx, rfl⟩, ?_, hhot⟩
    rw [List.getD_eq_getElem?_getD, hx]
    exact hskip

theorem State.pollAt_of_reading {s : State} {temps : List Nat} {k t : Nat} (x : Sensor) (ht : temps[k]? = some t) :
    s.pollAt temps k x = pollSensor (s.thrCfg k) x t := by
  rw [State.pollAt, ht]
  rfl

theorem pollSensor_temp {cfg t : Nat} {x : Sensor} (hskip : x.skip = false) : (pollSensor cfg x t).temp = t % 1024 := by
  rw [pollSensor, hskip]
  rfl

theorem exec_thermalPoll {temps : List Nat} {sensors : List Sensor} (htemps : temps.length = s.sensors.length)
    (hlen : sensors.length = s.sensors.length)
    (hread : ∀ (k : Nat) (x : Sensor) (t : Nat), s.sensors[k]? = some x → temps[k]? = some t →
      sensors[k]? = some (if x.skip then { x with skip := false }
        else { temp := t % 1024, level := nextLevel (s.thrCfg k) (t % 1024) x.level, peak := max x.peak (t % 1024), skip := false }))
    (hcool : ∀ (k : Nat) (x : Sensor) (t : Nat), s.sensors[k]? = some x → temps[k]? = some t → x.skip = false →
      t % 1024 < thrOf (s.thrCfg k) 3 + 20) :
    exec (.thermalPoll temps) s = .next { s with sensors } := by
  have hreading (k : Nat) (x : Sensor) (hx : s.sensors[k]? = some x) : ∃ t, temps[k]? = some t := by
    obtain ⟨hk, -⟩ := List.getElem?_eq_some_iff.1 hx
    exact ⟨_, List.getElem?_eq_getElem (htemps ▸ hk)⟩
  have hsensors : s.polled temps = sensors := by
    refine List.ext_getElem? fun k => ?_
    rw [State.polled_getElem?]
    cases hx : s.sensors[k]? with
    | none => rw [List.getElem?_eq_none (hlen ▸ List.getElem?_eq_none_iff.1 hx)]; rfl
    | some x =>
      obtain ⟨t, ht⟩ := hreading k x hx
      rw [hread k x t hx ht, Option.map_some, State.pollAt_of_reading x ht]
      rfl
  have hnot : s.overheats temps = false := by
    rw [← Bool.not_eq_true, State.overheats_iff]
    rintro ⟨k, x, hx, hskip, hhot⟩
    obtain ⟨t, ht⟩ := hreading k x hx
    rw [State.pollAt_of_reading x ht, pollSensor_temp hskip] at hhot
    exact Nat.not_le.2 (hcool k x t hx ht hskip) hhot
  exact (execThermalPoll_eq s temps).trans (by rw [hnot, hsensors]; rfl)

theorem exec_thermalPoll_overheats {temps : List Nat} {k t : Nat} {x : Sensor} (hx : s.sensors[k]? = some x) (ht : temps[k]? = some t)
    (hskip : x.skip = false) (hhot : thrOf (s.thrCfg k) 3 + 20 ≤ t % 1024) (hpower : s.powerOff = none) :
    exec (.thermalPoll temps) s = .next
      { s with sensors := s.polled temps, stopped := true, powerOff := some (s.uptime + 1000000) } := by
  have hover : s.overheats temps = true :=
    State.overheats_iff.2 ⟨k, x, hx, hskip, by rwa [State.pollAt_of_reading x ht, pollSensor_temp hskip]⟩
  exact (execThermalPoll_eq s temps).trans (by rw [hover, hpower]; rfl)

theorem exec_diodeCalibration {i : Nat} {x : Sensor} (hx : s.sensors[i]? = some x) :
    exec (.diodeCalibration i) s = .next { s with sensors := setAt s.sensors i { x with skip := true } } :=
  congrArg (fun l => Host.Outcome.next ({ s with sensors := l } : State)) (updAt_eq_setAt hx _)

/-! ## Tokens (R324, R380 to R382) -/

theorem exec_tokenWindowEnd (hwindow : s.tokWindow < s.ftime / 1000000) (hbudget : s.winEnergy + s.csr.debt ≤ s.winBudget) :
    exec .tokenWindowEnd s = .next
      { s with tokWindow := s.ftime / 1000000, winEnergy := 0, winBudget := 0, csr := { s.csr with debt := 0 } } := by
  show execTokenWindowEnd s = _
  unfold execTokenWindowEnd
  rw [if_pos hwindow, Nat.sub_eq_zero_of_le hbudget]
  rfl

theorem exec_tokenWindowEnd_debt (hwindow : s.tokWindow < s.ftime / 1000000) (hbudget : s.winBudget < s.winEnergy + s.csr.debt)
    (hovern : s.csr.overn ≤ 255) :
    exec .tokenWindowEnd s = .next
      { s with
        tokWindow := s.ftime / 1000000, winEnergy := 0, winBudget := 0
        csr := { s.csr with
          debt := s.winEnergy + s.csr.debt - s.winBudget, overn := if s.csr.overn = 255 then 255 else s.csr.overn + 1 } } := by
  have hcount : (if s.winEnergy + s.csr.debt - s.winBudget > 0 then min 255 (s.csr.overn + 1) else s.csr.overn) =
      if s.csr.overn = 255 then 255 else s.csr.overn + 1 := by
    rw [if_pos (Nat.sub_pos_of_lt hbudget)]
    split <;> omega
  show execTokenWindowEnd s = _
  unfold execTokenWindowEnd
  dsimp only
  rw [if_pos hwindow, hcount]

/-- A signed amount of 32 bits. -/
theorem toSigned_toInt (x : Word) : toSigned 32 x.toNat = x.toInt := by
  have hsign : bit x.toNat (32 - 1) = x.msb :=
    (bit_eq_testBit x.toNat 31).trans (BitVec.msb_eq_getLsbD_last x).symm
  have hsmall : ((x.toNat : Int) % 2 ^ 32) = x.toNat := Int.emod_eq_of_lt (by omega) (by have := x.isLt; omega)
  rw [toSigned, hsign, hsmall, BitVec.toInt_eq_msb_cond]
  rfl

/-- MINT adds its amount where the token authority is here and the sum stays in the range. -/
theorem exec_mint_eq (s : State) (x : Word) : exec (.mint x) s = .next
    (if s.isHyper then
      if s.csr.auth && decide (0 ≤ s.csr.tokens + x.toInt) && decide (s.csr.tokens + x.toInt < 2 ^ 32) then
        { s with csr := { s.csr with tokens := (s.csr.tokens + x.toInt).toNat } } else s
    else s) := by
  have hwhole : x.zeroExtend 64 &&& fieldMask 63 0 = x.zeroExtend 64 := BitVec.and_allOnes
  have hamount : toSigned 32 (x.zeroExtend 64).toNat = x.toInt := by
    rw [BitVec.zeroExtend_eq_setWidth, BitVec.toNat_setWidth_of_le (by decide), toSigned_toInt]
  show Host.Outcome.next (if s.isHyper && decide (1 = 1) && touches (fieldMask 63 0) 31 0 then s.mint (x.zeroExtend 64 &&& fieldMask 63 0) else s) = _
  rw [hwhole, State.mint]
  dsimp only
  rw [hamount, show touches (fieldMask 63 0) 31 0 = true from by decide, decide_eq_true rfl, Bool.and_true, Bool.and_true]

theorem exec_mint {x : Word} {n : Nat} (hpl : s.csr.pl = 2) (hauth : s.csr.auth = true) (hn : (n : Int) = s.csr.tokens + x.toInt)
    (hlt : n < 2 ^ 32) : exec (.mint x) s = .next { s with csr := { s.csr with tokens := n } } := by
  rw [exec_mint_eq, State.isHyper_eq hpl, if_pos rfl, hauth, ← hn, decide_eq_true (Int.natCast_nonneg n),
    decide_eq_true (show (n : Int) < 2 ^ 32 by omega)]
  rfl

theorem exec_mint_ignored {x : Word}
    (hno : s.csr.pl.toNat < 2 ∨ s.csr.auth = false ∨ s.csr.tokens + x.toInt < 0 ∨ 2 ^ 32 ≤ s.csr.tokens + x.toInt) :
    exec (.mint x) s = .next s := by
  rw [exec_mint_eq]
  refine congrArg Host.Outcome.next (ite_eq_right_iff.2 fun hhyper => ite_eq_right_iff.2 fun hadds => ?_)
  simp only [Bool.and_eq_true, decide_eq_true_eq] at hadds
  obtain ⟨⟨hauth, hlow⟩, hhigh⟩ := hadds
  have hlevel : 2 ≤ s.csr.pl.toNat := of_decide_eq_true hhyper
  rcases hno with h | h | h | h
  · omega
  · exact absurd hauth (by simp [h])
  · omega
  · omega

theorem exec_waggleAccept {amount : Word} {t0 : Nat} (htime : s.ftime < t0 + 50000) (hsum : s.csr.tokens + amount.toNat < 2 ^ 32) :
    exec (.waggleAccept amount t0) s = .next
      { s with csr := { s.csr with tokens := s.csr.tokens + amount.toNat, intPend := s.csr.intPend ||| 0x40 } } := by
  show execWaggleAccept amount t0 s = _
  unfold execWaggleAccept
  rw [if_pos htime, Nat.mod_eq_of_lt hsum]
  rfl

theorem exec_waggleAccept_refused {amount : Word} {t0 : Nat} (htime : t0 + 50000 ≤ s.ftime) : exec (.waggleAccept amount t0) s = .next s :=
  if_neg (Nat.not_lt.2 htime)

theorem exec_tokret {k : Nat} {w : Waggle} {e : Event} (hw : s.fabric.waggles[k]? = some w) (htime : w.sent + 100000 ≤ s.ftime)
    (hsum : s.csr.tokens + w.amount.toNat < 2 ^ 32)
    (he : e = plainEvent .tokRet e.ctx e.tpart 0 (leBytes 2 w.dev ++ [0, 0] ++ leBytes 4 w.amount.toNat))
    (hctx : e.ctx = (Config.freeValue s.fresh).toNat % 64) (hpart : e.tpart = (Config.freeValue s.fresh).toNat / 64 % 8) :
    exec (.tokret k) s = .next
      { s with
        fresh := s.fresh + 1
        csr := { s.csr with tokens := s.csr.tokens + w.amount.toNat }
        fabric := { s.fabric with waggles := s.fabric.waggles.eraseIdx k }
        waiting := s.waiting ++ [e] } := by
  have hinfo : trapInfo false 0 0 = 0 := by decide
  rw [he, hctx, hpart]
  show execTokret k s = _
  unfold execTokret
  rw [hw]
  dsimp only [State.free]
  rw [if_pos htime, Nat.mod_eq_of_lt hsum, hinfo]
  rfl

/-! ## The effective level (R370, R378) -/

/-- The least of a bound over columns that all belong to one partition. -/
theorem foldl_min_owner {f : Nat → Option Nat} {bound : Nat → Nat} {p : Nat} :
    ∀ {l : List Nat} (m : Nat), l ≠ [] → (∀ c ∈ l, f c = some p) →
      (l.filterMap f).foldl (fun m p => min m (bound p)) m = min m (bound p)
  | [], _, h, _ => absurd rfl h
  | [c], m, _, hall => by
    rw [List.filterMap_cons_some (hall c (List.mem_singleton_self c))]
    rfl
  | c :: d :: l, m, _, hall => by
    obtain ⟨hc, hrest⟩ := List.forall_mem_cons.1 hall
    rw [List.filterMap_cons_some hc, List.foldl_cons, foldl_min_owner _ (List.cons_ne_nil d l) hrest, Nat.min_assoc, Nat.min_self]

/-- A greatest value over the elements that a test takes is an upper bound of theirs. -/
theorem le_foldl_max {α : Type} {test : α → Bool} {f : α → Nat} : ∀ (l : List α) (m : Nat),
    m ≤ l.foldl (fun m x => if test x then max m (f x) else m) m ∧
      ∀ x ∈ l, test x = true → f x ≤ l.foldl (fun m x => if test x then max m (f x) else m) m
  | [], m => ⟨Nat.le_refl m, nofun⟩
  | a :: l, m => by
    obtain ⟨hstart, hall⟩ := le_foldl_max (test := test) (f := f) l (if test a then max m (f a) else m)
    have hm : m ≤ if test a then max m (f a) else m := by split <;> omega
    refine ⟨hm.trans hstart, fun x hx htest => ?_⟩
    rcases List.mem_cons.1 hx with rfl | hx
    · refine Nat.le_trans ?_ hstart
      rw [if_pos htest]
      exact Nat.le_max_right ..
    · exact hall x hx htest

/-- It is the start value or one of theirs. -/
theorem foldl_max_attained {α : Type} {test : α → Bool} {f : α → Nat} : ∀ (l : List α) (m : Nat),
    l.foldl (fun m x => if test x then max m (f x) else m) m = m ∨
      ∃ x ∈ l, test x = true ∧ f x = l.foldl (fun m x => if test x then max m (f x) else m) m
  | [], m => .inl rfl
  | a :: l, m => by
    rcases foldl_max_attained (test := test) (f := f) l (if test a then max m (f a) else m) with h | ⟨x, hx, htest, hval⟩
    · rw [List.foldl_cons, h]
      by_cases ha : test a = true
      · rw [if_pos ha]
        rcases Nat.le_total (f a) m with hle | hle
        · exact .inl (Nat.max_eq_left hle)
        · exact .inr ⟨a, List.mem_cons_self, ha, (Nat.max_eq_right hle).symm⟩
      · rw [if_neg ha]
        exact .inl rfl
    · exact .inr ⟨x, List.mem_cons_of_mem a hx, htest, hval⟩

theorem State.effective_eq {d p : Nat} {x : Supply} (hx : s.supplies[d]? = some x) (hfeeds : s.domain d ≠ [])
    (hown : ∀ c ∈ s.domain d, s.tenantOfColumn c = some p) :
    s.effective d = min (if x.cen then x.cohort else s.reqPl d) (min (s.csr.ceil.getD p 15).toNat x.capL) := by
  have hceil : min 15 (s.csr.ceil.getD p 15).toNat = (s.csr.ceil.getD p 15).toNat :=
    Nat.min_eq_right (Nat.le_of_lt_succ (s.csr.ceil.getD p 15).isLt)
  unfold State.effective
  rw [hx]
  dsimp only
  rw [foldl_min_owner 15 hfeeds hown, hceil]

theorem State.le_reqPl {k d : Nat} {y : CtxBlock} (hy : s.ctxs[k]? = some y) (hruns : s.runsIn k d = true) : y.reqPl ≤ s.reqPl d :=
  (le_foldl_max (test := fun x : CtxBlock × Nat => s.runsIn x.2 d) (f := fun x => x.1.reqPl) s.ctxs.zipIdx 0).2 (y, k)
    (List.mem_zipIdx_iff_getElem?.2 hy) hruns

theorem State.reqPl_attained (s : State) (d : Nat) :
    s.reqPl d = 0 ∨ ∃ k y, s.ctxs[k]? = some y ∧ s.runsIn k d = true ∧ y.reqPl = s.reqPl d := by
  rcases foldl_max_attained (test := fun x : CtxBlock × Nat => s.runsIn x.2 d) (f := fun x => x.1.reqPl) s.ctxs.zipIdx 0 with
    h | ⟨⟨y, k⟩, hmem, hruns, hval⟩
  · exact .inl h
  · exact .inr ⟨k, y, List.mem_zipIdx_iff_getElem?.1 hmem, hruns, hval⟩

end Sys2Proof.Machine

open Sys2Proof Sys2Proof.Machine

/-- Settles O51: each event by the lemma of its clause. -/
theorem powerEventsHaveTheirEffect : Obligations.PowerEventsHaveTheirEffect := by
  unfold Obligations.PowerEventsHaveTheirEffect
  refine ⟨?level, ?adopt, ?cohort, ?matrix, ?matrixIgnored, ?thresholds, ?duty, ?release, ?ramp, ?poll, ?overheats, ?calibrate, ?window,
    ?debt, ?mint, ?mintIgnored, ?accept, ?refuse, ?ack, ?returned, ?effective⟩
  case level => exact fun s d x hx => exec_levelChange hx
  case adopt => exact fun s d x u hx hpending htime hu => exec_cohortLevelAdopt hx hpending htime hu
  case cohort => exact fun s d v x hx => exec_cohortWrite hx
  case matrix =>
    exact fun s t v m hpl hlen _ hm hclash hidle hpower => exec_swmatrixWrite hpl hlen hm hclash hidle hpower
  case matrixIgnored => exact fun s t v m hlen _ hm hno => exec_swmatrixWrite_ignored hlen hm hno
  case thresholds => exact fun s i v hi hpl h12 h23 hcrit hold => exec_thrcfgWrite_thresholds hi hpl h12 h23 hcrit hold
  case duty => exact fun s i v hi hold hlow hhigh => exec_thrcfgWrite_duty hi hold hlow hhigh
  case release => exact fun s col c hc hstate hcalm => exec_imbalRelease hc hstate hcalm
  case ramp => exact fun s col want now c hc hwant hnow => exec_slopeLimitRamp hc hwant hnow
  case poll => exact fun s temps sensors htemps hlen hread hcool => exec_thermalPoll htemps hlen hread hcool
  case overheats =>
    intro s temps k t x u hx ht hskip hhot hpower hu hsensors
    rw [hu, hsensors]
    exact exec_thermalPoll_overheats hx ht hskip hhot hpower
  case calibrate => exact fun s i x hx => exec_diodeCalibration hx
  case window => exact fun s hwindow hbudget => exec_tokenWindowEnd hwindow hbudget
  case debt => exact fun s hwindow hbudget hovern => exec_tokenWindowEnd_debt hwindow hbudget hovern
  case mint => exact fun s x n hpl hauth hn hlt => exec_mint hpl hauth hn hlt
  case mintIgnored => exact fun s x hno => exec_mint_ignored hno
  case accept => exact fun s amount t0 htime hsum => exec_waggleAccept htime hsum
  case refuse => exact fun s amount t0 htime => exec_waggleAccept_refused htime
  case ack => exact fun s k => rfl
  case returned => exact fun s k w e hw htime hsum he hctx hpart => exec_tokret hw htime hsum he hctx hpart
  case effective =>
    exact fun s d p x hx hfeeds hown => ⟨State.effective_eq hx hfeeds hown, fun k y => State.le_reqPl, State.reqPl_attained s d⟩

end

section
/-!
# The balance sample (O50)

A sample is taken in three steps: each column's new values (`State.sampled`), the IMBAL events of the columns that are newly held, and
the cap controller with the levels. The last two leave the columns and all else of the machine (`State.OnlySupplies`).
-/

namespace Sys2Proof.Machine

open Sys2Proof

variable {s t u : State}

/-! ## A column's sample (R371 to R374) -/

/-- The element `k` of a list given for the four layers. -/
theorem getD_map_range {α : Type} (f : Nat → α) (d : α) {n y : Nat} (hy : y < n) : ((List.range n).map f).getD y d = f y := by
  rw [List.getD_eq_getElem?_getD, List.getElem?_map, List.getElem?_range hy]
  rfl

theorem any_over_limit (rails : List Int) : (rails.any fun m => decide (m.natAbs > 250)) = decide (∃ m ∈ rails, 250 < m.natAbs) := by
  rw [Bool.eq_iff_iff, List.any_eq_true, decide_eq_true_eq]
  simp only [decide_eq_true_eq, gt_iff_lt]

section
variable (s) (col : Nat) (c : Column) (r : ColumnReading)

theorem State.sampleColumn_demand {y : Nat} (hy : y < 4) : (s.sampleColumn col c r).1.demand.getD y 0 =
    max (r.demand.getD y 0) (1000 * (c.ramped s.uptime).blst.getD y 0 / 16) :=
  getD_map_range (fun k => max (r.demand.getD k 0) (1000 * (c.ramped s.uptime).blst.getD k 0 / 16)) 0 hy

theorem State.sampleColumn_overCnt : (s.sampleColumn col c r).1.overCnt =
    if ∃ m ∈ (s.sampleColumn col c r).1.rails, 250 < m.natAbs then c.overCnt + 1 else 0 := by
  have h := any_over_limit (s.sampleColumn col c r).1.rails
  show (if ((s.sampleColumn col c r).1.rails.any fun m => decide (m.natAbs > 250)) = true then c.overCnt + 1 else 0) = _
  simp only [h, decide_eq_true_eq]

theorem State.sampleColumn_newlyHeld : (s.sampleColumn col c r).2 = true ↔ c.state ≠ 2 ∧ 2 ≤ (s.sampleColumn col c r).1.overCnt := by
  show (!decide (c.state = 2) && decide ((s.sampleColumn col c r).1.overCnt ≥ 2)) = true ↔ _
  simp

theorem State.sampleColumn_imbCnt : (s.sampleColumn col c r).1.imbCnt =
    if c.state ≠ 2 ∧ 2 ≤ (s.sampleColumn col c r).1.overCnt then min 255 (c.imbCnt + 1) else c.imbCnt :=
  if_congr (s.sampleColumn_newlyHeld col c r) rfl rfl

theorem State.balanceState_le (rails : List Int) : s.balanceState col rails ≤ 1 := by
  unfold State.balanceState
  generalize List.any _ _ = b
  cases b <;> decide

theorem State.sampleColumn_state : (s.sampleColumn col c r).1.state = 2 ↔ c.state = 2 ∨ (s.sampleColumn col c r).2 = true := by
  have hstate : (s.sampleColumn col c r).1.state =
      if decide (c.state = 2) || (s.sampleColumn col c r).2 then 2 else s.balanceState col (s.sampleColumn col c r).1.rails := rfl
  have hle := s.balanceState_le col (s.sampleColumn col c r).1.rails
  rw [hstate]
  split
  · next h => exact iff_of_true rfl (by simpa using h)
  · next h => exact iff_of_false (by omega) (by simpa using h)

end

/-! ## A core's ballast (R282, R372) -/

/-- The higher of a level and a request, up to 16. -/
theorem ballast_step_level {m x : Nat × BallastCause} (hm : m.1 ≤ 16) :
    m.1 ≤ (if x.1 > m.1 then (min 16 x.1, x.2) else m).1 ∧ (if x.1 > m.1 then (min 16 x.1, x.2) else m).1 ≤ 16 := by
  split
  · exact ⟨by simp only; omega, Nat.min_le_left ..⟩
  · exact ⟨Nat.le_refl _, hm⟩

/-- A core's ballast does what BURN asks at least, up to 16 sixteenths. -/
theorem State.ballast_level (s : State) (core need : Nat) (h : (s.burnOf core).1 ≤ 16) :
    (s.burnOf core).1 ≤ (s.ballast core need).1 ∧ (s.ballast core need).1 ≤ 16 := by
  obtain ⟨hsched, hsched'⟩ := ballast_step_level (x := s.schedBallast core) h
  obtain ⟨hneed, hneed'⟩ := ballast_step_level (x := (need, .falls)) hsched'
  exact ⟨hsched.trans hneed, hneed'⟩

theorem State.sampleColumn_blst (s : State) (col : Nat) (c : Column) (r : ColumnReading) {y : Nat} (hy : y < 4)
    (h : (s.burnOf (coreAt col y)).1 ≤ 16) : (s.burnOf (coreAt col y)).1 ≤ (s.sampleColumn col c r).1.blst.getD y 0 ∧
      (s.sampleColumn col c r).1.blst.getD y 0 ≤ 16 := by
  obtain ⟨ramp, need, hblst⟩ : ∃ ramp need, (s.sampleColumn col c r).1.blst.getD y 0 =
      (engineWith ramp (s.ballast (coreAt col y) need)).1 := by
    unfold State.sampleColumn
    dsimp only
    rw [List.map_map, List.map_map, getD_map_range _ _ hy]
    exact ⟨_, _, rfl⟩
  obtain ⟨hlow, hhigh⟩ := s.ballast_level (coreAt col y) need h
  rw [hblst, engineWith_level]
  omega

/-! ## All columns and their events (R373) -/

/-- The sample of one column, where it has a reading. -/
def State.sampleAt (s : State) (cols : List ColumnReading) (k : Nat) (c : Column) : Column × Bool :=
  ((cols[k]?).map (s.sampleColumn k c)).getD (c, false)

/-- The samples of all columns. -/
def State.samples (s : State) (cols : List ColumnReading) : List (Column × Bool) :=
  s.columns.zipIdx.map fun x => s.sampleAt cols x.2 x.1

theorem State.samples_getElem? (s : State) (cols : List ColumnReading) (k : Nat) :
    (s.samples cols)[k]? = (s.columns[k]?).map (s.sampleAt cols k) := by
  rw [State.samples, List.getElem?_map, List.getElem?_zipIdx, Option.map_map, Nat.zero_add]
  rfl

theorem State.samples_length (s : State) (cols : List ColumnReading) : (s.samples cols).length = s.columns.length := by
  rw [State.samples, List.length_map, List.length_zipIdx]

/-- A column is newly held exactly where its sample says so. -/
theorem State.sampleAt_newlyHeld (s : State) (cols : List ColumnReading) (k : Nat) (c : Column) :
    (s.sampleAt cols k c).2 = (decide (c.state ≠ 2) && decide ((s.sampleAt cols k c).1.state = 2)) := by
  unfold State.sampleAt
  cases cols[k]? with
  | none => simp
  | some r =>
    have hheld := s.sampleColumn_newlyHeld k c r
    have hstate := s.sampleColumn_state k c r
    rw [Option.map_some, Option.getD_some, Bool.eq_iff_iff, Bool.and_eq_true, decide_eq_true_eq, decide_eq_true_eq, hstate]
    exact ⟨fun h => ⟨(hheld.1 h).1, .inr h⟩, fun ⟨hne, h⟩ => h.resolve_left hne⟩

/-- The number of elements that a test takes, counted by their places. -/
theorem length_filter_eq_places {α : Type} (p : α → Bool) : ∀ l : List α,
    (l.filter p).length = ((List.range l.length).filter fun k => ((l[k]?).map p).getD false).length
  | [] => rfl
  | x :: l => by
    rw [List.length_cons, List.range_succ_eq_map, List.filter_cons, List.filter_cons, List.filter_map]
    simp only [List.getElem?_cons_zero, Option.map_some, Option.getD_some, Function.comp_def, List.getElem?_cons_succ]
    cases p x <;> simp [length_filter_eq_places p l]

/-! ## The cap controller (R380) -/

/-- A state that differs at most in supplies, the cap duty and the counter of free values. -/
def State.OnlySupplies (s t : State) : Prop := t = { s with supplies := t.supplies, capDuty := t.capDuty, fresh := t.fresh }

theorem State.OnlySupplies.trans (h : s.OnlySupplies t) (h' : t.OnlySupplies u) : s.OnlySupplies u := by
  unfold State.OnlySupplies at *
  rw [h] at h'
  exact h'

theorem State.onlySupplies_stepCap (s : State) (d : Nat) (up : Bool) : s.OnlySupplies (s.stepCap d up) := rfl

theorem State.onlySupplies_raiseCap (s : State) : s.OnlySupplies s.raiseCap := by
  unfold State.raiseCap
  dsimp only
  split <;> rfl

theorem State.onlySupplies_capControl (s : State) (proj : Nat) : s.OnlySupplies (s.capControl proj) := by
  have hlimits : s.OnlySupplies ((List.range 4).foldl (fun s d => if s.overLimit d then s.stepCap d false else s) s) :=
    foldl_keeps (P := s.OnlySupplies) rfl fun u d hu => by
      split
      · exact hu.trans (u.onlySupplies_stepCap d false)
      · exact hu
  unfold State.capControl
  dsimp only
  generalize (List.range 4).foldl (fun s d => if s.overLimit d then s.stepCap d false else s) s = u at hlimits ⊢
  refine hlimits.trans ?_
  split
  · split
    · exact u.onlySupplies_stepCap _ _
    · split <;> rfl
  · split
    · split
      · exact u.onlySupplies_raiseCap.trans rfl
      · exact u.onlySupplies_raiseCap
    · rfl

/-! ## The sample -/

/-- The state in which a sample has set the columns, the launches' counters, the supplies' powers and the window. -/
def State.sampled (s : State) (samples : List (Column × Bool)) (charges : List (Nat × Rat)) (power : List Nat) (energy : Nat) : State :=
  { s with
    columns := samples.map (·.1), slots := []
    launches := s.launches.map fun l => l.charged charges
    supplies := s.supplies.zipIdx.map fun (x : Supply × Nat) =>
      { x.1 with power := if (s.domain x.2).isEmpty then 0 else min 4095 (power.getD x.2 x.1.power) }
    winEnergy := s.winEnergy + energy
    winBudget := s.winBudget + s.cap }

/-- The IMBAL events of the columns that a sample newly holds. -/
def State.postImbal (s : State) (samples : List (Column × Bool)) : State :=
  samples.zipIdx.foldl (fun (s : State) x => if x.1.2 then s.imbal x.2 x.1.1.rails else s) s

/-- What the columns show at the end of a sample. -/
def State.shows (s : State) : State :=
  { s with fresh := s.fresh + 1, columns := s.columns.zipIdx.map fun (x : Column × Nat) => s.showColumn x.2 x.1 }

/-- The state after the IMBAL events of the columns from `k` on. -/
theorem foldl_imbal : ∀ (l : List (Column × Bool)) (k : Nat) (s : State), ∃ es : List Event,
    (l.zipIdx k).foldl (fun (s : State) x => if x.1.2 then s.imbal x.2 x.1.1.rails else s) s =
      { s with fresh := s.fresh + es.length, waiting := s.waiting ++ es } ∧
      (∀ e ∈ es, e.cause = .imbal ∧ e.parked = false) ∧ es.length = (l.filter (·.2)).length
  | [], _, s => ⟨[], by simp, nofun, rfl⟩
  | (c, false) :: l, k, s => foldl_imbal l (k + 1) s
  | (c, true) :: l, k, s => by
    obtain ⟨es, hs, hes, hlen⟩ := foldl_imbal l (k + 1) (s.imbal k c.rails)
    obtain ⟨e, he, hcause⟩ : ∃ e, s.imbal k c.rails = { s with fresh := s.fresh + 1, waiting := s.waiting ++ [e] } ∧
        e.cause = .imbal ∧ e.parked = false := ⟨_, rfl, rfl, rfl⟩
    refine ⟨e :: es, ?_, List.forall_mem_cons.2 ⟨hcause, hes⟩, congrArg Nat.succ hlen⟩
    refine hs.trans ?_
    rw [he, List.length_cons, Nat.add_assoc, Nat.add_comm 1, List.append_assoc]
    rfl

theorem State.postImbal_eq (s : State) (samples : List (Column × Bool)) : ∃ es : List Event,
    s.postImbal samples = { s with fresh := s.fresh + es.length, waiting := s.waiting ++ es } ∧
      (∀ e ∈ es, e.cause = .imbal ∧ e.parked = false) ∧ es.length = (samples.filter (·.2)).length :=
  foldl_imbal samples 0 s

theorem exec_balanceSample (cols : List ColumnReading) (falls : List (List (Nat × Nat))) (power : List Nat) (energy proj : Nat) (s : State) :
    exec (.balanceSample cols falls power energy proj) s = .next
      ((((s.sampled (s.samples cols) (s.charges cols falls) power energy).postImbal (s.samples cols)).capControl proj).relevel.shows) := by
  refine congrArg (fun l => Host.Outcome.next
    ((((s.sampled l (s.charges cols falls) power energy).postImbal l).capControl proj).relevel.shows))
    (List.map_congr_left (l := s.columns.zipIdx) fun x _ => ?_)
  unfold State.sampleAt
  cases cols[x.2]? <;> rfl

/-- The levels that a sample leaves are the effective ones. -/
theorem State.shows_effPl {d : Nat} {x : Supply} (hx : s.relevel.shows.supplies[d]? = some x) :
    x.effPl = s.relevel.shows.effective d := by
  have hrelevel : s.relevel.supplies[d]? = some x := hx
  rw [State.relevel_getElem?, Option.map_eq_some_iff] at hrelevel
  obtain ⟨y, hy, rfl⟩ := hrelevel
  unfold State.effective
  rw [hx, hy]
  rfl

theorem State.shows_getElem? (s : State) (k : Nat) : s.shows.columns[k]? = (s.columns[k]?).map (s.showColumn k) := by
  rw [State.shows, List.getElem?_map, List.getElem?_zipIdx, Option.map_map, Nat.zero_add]
  rfl

/-- The state after a sample: its columns show what was sampled, IMBAL events are posted, and the rest of the machine is as the sample
has set it, but for supplies, the cap duty and free values. -/
theorem exec_balanceSample_spec (cols : List ColumnReading) (falls : List (List (Nat × Nat))) (power : List Nat) (energy proj : Nat)
    (s : State) : ∃ t es, exec (.balanceSample cols falls power energy proj) s = .next t ∧
      t = { s with
        columns := t.columns, launches := s.launches.map fun l => l.charged (s.charges cols falls), supplies := t.supplies
        waiting := s.waiting ++ es, fresh := t.fresh, slots := [], capDuty := t.capDuty
        winEnergy := s.winEnergy + energy, winBudget := s.winBudget + min s.csr.tokens 3900 } ∧
      (∃ u : State, ∀ k, t.columns[k]? = (s.columns[k]?).map fun c => u.showColumn k (s.sampleAt cols k c).1) ∧
      ((∀ e ∈ es, e.cause = .imbal ∧ e.parked = false) ∧ es.length = ((s.samples cols).filter (·.2)).length) ∧
      ∀ (d : Nat) (x : Supply), t.supplies[d]? = some x → x.effPl = t.effective d := by
  obtain ⟨es, hpost, hes⟩ := (s.sampled (s.samples cols) (s.charges cols falls) power energy).postImbal_eq (s.samples cols)
  have hcap := ((s.sampled (s.samples cols) (s.charges cols falls) power energy).postImbal (s.samples cols)).onlySupplies_capControl proj
  have hexec := exec_balanceSample cols falls power energy proj s
  generalize State.capControl _ proj = u at hcap hexec
  rw [hpost, State.OnlySupplies] at hcap
  refine ⟨u.relevel.shows, es, hexec, ?_, ⟨u.relevel, fun k => ?_⟩, hes, fun d x => State.shows_effPl⟩
  · rw [hcap]
    rfl
  · have hcolumns : u.relevel.columns[k]? = ((s.samples cols).map (·.1))[k]? := by
      rw [hcap]
      rfl
    rw [State.shows_getElem?, hcolumns, List.getElem?_map, State.samples_getElem?, Option.map_map, Option.map_map]
    rfl

/-- The columns that a sample newly holds, counted before and after it. -/
theorem State.newlyHeld_count {cols : List ColumnReading} {v : State}
    (ht : ∀ k, t.columns[k]? = (s.columns[k]?).map fun c => v.showColumn k (s.sampleAt cols k c).1) :
    ((s.samples cols).filter (·.2)).length = ((List.range s.columns.length).filter fun k =>
      ((s.columns[k]?).map fun c => decide (c.state ≠ 2)).getD false && ((t.columns[k]?).map fun c => decide (c.state = 2)).getD false).length := by
  rw [length_filter_eq_places, State.samples_length]
  refine congrArg (fun p => ((List.range s.columns.length).filter p).length) (funext fun k => ?_)
  rw [State.samples_getElem?, ht]
  cases s.columns[k]? with
  | none => rfl
  | some c => exact s.sampleAt_newlyHeld cols k c

end Sys2Proof.Machine

open Sys2Proof Sys2Proof.Machine

/-- Settles O50: the columns by `State.sampleColumn`, the rest by `exec_balanceSample_spec`. -/
theorem balanceSamples : Obligations.BalanceSamples := by
  unfold Obligations.BalanceSamples
  intro cols falls power energy proj s
  obtain ⟨t, es, hexec, ht, ⟨v, hcolumns⟩, ⟨hes, hcount⟩, hlevels⟩ := exec_balanceSample_spec cols falls power energy proj s
  have hwaiting : t.waiting = s.waiting ++ es := by rw [ht]
  have hlaunches : t.launches = s.launches.map fun l => l.charged (s.charges cols falls) := by rw [ht]
  refine ⟨t, hexec, ?frame, ?columns, ⟨es, hwaiting, hes, hcount.trans (State.newlyHeld_count hcolumns)⟩, hlaunches, hlevels⟩
  case frame => rw [hwaiting, hlaunches]; exact ht
  case columns =>
    intro k c r hc hr
    have hsample : s.sampleAt cols k c = s.sampleColumn k c r := by rw [State.sampleAt, hr]; rfl
    refine ⟨v.showColumn k (s.sampleColumn k c r).1, ?_, rfl, fun y => s.sampleColumn_demand k c r, rfl, rfl, rfl, rfl, rfl,
      s.sampleColumn_overCnt k c r, ?_, s.sampleColumn_imbCnt k c r, fun y hy => s.sampleColumn_blst k c r hy⟩
    · rw [hcolumns, hc, Option.map_some, hsample]
    · refine (s.sampleColumn_state k c r).trans ?_
      rw [s.sampleColumn_newlyHeld k c r]
      exact ⟨fun h => h.imp_right And.right, fun h => (Classical.em _).imp_right fun hne => ⟨hne, h.resolve_left hne⟩⟩

end

section
/-!
# Two blocks of one number (O53)

The statement says of every state that a reset leaves nothing outstanding in the partition's blocks. The model finds a block by its
number and changes every block of that number. Where a block of the partition shares its number with one of another partition, the reset
gives both the same groups before it empties those of its own, and the end of a command that it fails then copies the groups of the first
block of that number over those of the second.
-/

namespace Sys2Proof.Machine

open Sys2Proof

/-- A block number 1 with one thread, which has `mx` matrix operations outstanding. -/
def numberOne (launch mx : Nat) : Block :=
  { id := 1, launch, index := 0, age := 1, slot := 0, state := .resident, started := true, stopped := false
    preempted := false, inSlot := false
    groups := [.fresh [{ Thread.fresh 8 0x100000 1 false with mx }] [⟨1, 0x100000, some 0, 0, false, none, false, false⟩]]
    parts := [{ core := 0, slot := 0, state := .resident, scratch := .empty, bslots := .empty, codebook := .empty
                acm := .empty, held := [], spilled := [], charge := 0, queued := false, sel := 0, marks := [] }]
    mmas := [], idle := 0, heldOn := [] }

/-- A fill of the second block, not yet complete. -/
def runningFill : Cmd :=
  { id := 3, kind := .fill, core := 0, block := 1, part := 0, group := 0, lanes := 1, ctx := 0, launch := 2, var := 1, hold := false
    record := [], a := 0, b := 0, bar := 0, coords := [], state := .running, data := .empty, read := [], code := 0, bytes := 0
    failAt := 0, cancel := false, entry := 0, seq := 0, hashes := [], matched := false, innet := false, tiles := [], shards := []
    since := 0 }

/-- The machine after reset with a launch of context 1, in partition 1, and one of context 0, in partition 0, and a block of each. -/
def twinState : State :=
  { State.reset with
    nextId := 4, csr := { State.reset.csr with ctxPart := setAt State.reset.csr.ctxPart 1 1 }
    launches := [{ launchOfRecord 0 1 [] with id := 1, state := .run }, { launchOfRecord 0 0 [] with id := 2, state := .run }]
    blocks := [numberOne 1 0, numberOne 2 1], cmds := [runningFill] }

/-- A reset of partition 0 leaves a block of it with a matrix operation outstanding. -/
theorem partitionReset_twinState :
    (twinState.partitionReset 0).blocks.any (fun b => twinState.tenantOf (twinState.ctxOfLaunch b.launch) = 0 &&
      b.groups.any fun g => g.threads.any fun th => th.mx = 1) = true := by decide +kernel

/-- Refutes O53: in `twinState` the blocks of partitions 0 and 1 share their number, and the reset of partition 0 leaves the matrix
operation of its block outstanding. -/
theorem not_partitionsAreReset : ¬ Obligations.PartitionsAreReset := by
  intro h
  obtain ⟨hreset, -⟩ := h 0 twinState Tenant.reset rfl rfl
  obtain ⟨t, hexec, -, -, -, -, -, -, -, hblocks⟩ := hreset rfl rfl
  have ht : twinState.partitionReset 0 = t := Host.Outcome.next.inj hexec
  obtain ⟨b, hb, hleft⟩ := List.any_eq_true.1 partitionReset_twinState
  simp only [Bool.and_eq_true, List.any_eq_true, decide_eq_true_eq] at hleft
  obtain ⟨hmine, g, hg, th, hth, hmx⟩ := hleft
  obtain ⟨-, -, hquiet⟩ := hblocks b (ht ▸ hb) hmine
  obtain ⟨-, -, hthreads⟩ := hquiet g hg
  obtain ⟨-, -, hzero⟩ := hthreads th hth
  omega

end Sys2Proof.Machine
end

section
/-!
# The scheduler (O49)

A row of the scheduler tests its conditions in one `if` or a chain of them: under the hypotheses of its clause the lemma of the row gives
the state it ends in. What the tests read by `any` or `all` over blocks and events has a lemma of its own.
-/

namespace Sys2Proof.Machine

open Sys2Proof

variable {s : State} {k : Nat} {q : Queue}

theorem State.schedules_of_running (hrun : s.stopped = false) : s.schedules = true := by
  rw [State.schedules, hrun]
  rfl

/-! ## Queue windows (R327, R328, R330) -/

/-- The host over its link, and the management core at hypervisor level or in the queue's partition, reach a queue's window. -/
theorem State.reachesQueue_of {host : Bool} (reg : Nat) (hq : s.queues[k]? = some q)
    (hmay : if host then s.fabric.hostLink = true else s.csr.pl = 2 ∨ q.tpart = s.csr.part) : s.reachesQueue host k reg = true := by
  cases host with
  | true => exact hmay
  | false =>
    show (s.isHyper || decide (((s.queues[k]?).map (·.tpart)).getD 0 = s.csr.part)) = true
    rw [hq, Bool.or_eq_true, decide_eq_true_eq]
    exact hmay.imp State.isHyper_eq id

theorem exec_queueDoorbell {host : Bool} {tail : Word} (hq : s.queues[k]? = some q) (hfrozen : s.queueFrozen q = false)
    (hmay : if host then s.fabric.hostLink = true else s.csr.pl = 2 ∨ q.tpart = s.csr.part) :
    exec (.queueDoorbell host k tail) s = .next (s.queueTail k tail) := by
  show execQueueDoorbell host k tail s = _
  unfold execQueueDoorbell
  rw [hq]
  dsimp only
  rw [hfrozen, State.reachesQueue_of 4 hq hmay]
  rfl

/-- A queue changed, by what the change makes of its present window. -/
theorem State.updQueue_congr {f g : Queue → Queue} (hq : s.queues[k]? = some q) (h : f q = g q) : s.updQueue k f = s.updQueue k g := by
  unfold State.updQueue
  rw [hq]
  dsimp only
  rw [h]

theorem exec_queueResume {host : Bool} (hq : s.queues[k]? = some q) (hfrozen : s.queueFrozen q = false)
    (hmay : if host then s.fabric.hostLink = true else s.csr.pl = 2 ∨ q.tpart = s.csr.part) (hstate : q.state = 3) :
    exec (.queueResume host k) s = .next
      (s.updQueue k fun q => { q with head := q.head + 1, code := 0, state := if q.head + 1 = q.tail then 0 else 1 }) := by
  show execQueueResume host k s = _
  unfold execQueueResume
  rw [hq]
  dsimp only
  rw [hfrozen, State.reachesQueue_of 1 hq hmay]
  exact congrArg Host.Outcome.next (State.updQueue_congr hq (if_pos hstate))

/-! ## CHECK (R329 to R333) -/

theorem exec_recordCheck (hrun : s.stopped = false) (hq : s.queues[k]? = some q) (hfirst : s.firstReady k = true) :
    exec (.recordCheck k) s = .next (s.carryOut k q) := by
  show execRecordCheck k s = _
  unfold execRecordCheck
  rw [hq]
  dsimp only
  rw [State.schedules_of_running hrun, hfirst]
  rfl

theorem State.carryOut_refuse {code : Nat} (hverdict : s.verdict k q = .refuse code)
    (hvector : leAt (s.recordAt q) 0 1 ≠ 1 ∨ code = 9 ∨ (launchOfRecord k q.ctx.toNat (s.recordAt q)).wantsMsix = false) :
    s.carryOut k q = (s.touchCheck q false).haltQueue k code := by
  unfold State.carryOut
  rw [hverdict]
  refine if_neg fun h => ?_
  simp only [Bool.and_eq_true, decide_eq_true_eq] at h
  obtain ⟨⟨hcode, hlaunch⟩, hwants⟩ := h
  rcases hvector with h | h | h
  · exact h hlaunch
  · exact hcode h
  · exact absurd hwants (by simp [h])

theorem State.carryOut_nop (hverdict : s.verdict k q = .nop) : s.carryOut k q = (s.touchCheck q false).advanceQueue k := by
  unfold State.carryOut
  rw [hverdict]

theorem State.carryOut_waiting (hverdict : s.verdict k q = .waiting) :
    s.carryOut k q = (s.touchCheck q false).updQueue k fun q => { q with state := 2 } := by
  unfold State.carryOut
  rw [hverdict]

/-! ### What capture does while it is off (R419) -/

theorem State.capAppend_off {kind ctx part : Nat} {payload : List Byte} (hmode : s.csr.capMode = 0) :
    s.capAppend kind ctx part payload = s := by
  unfold State.capAppend
  rw [State.capOn_zero hmode (by decide)]
  rfl

theorem State.capPiece_off {ctx kind part : Nat} {payload : List Byte} (hmode : s.csr.capMode = 0) :
    s.capPiece ctx kind part payload = (false, s) := by
  unfold State.capPiece
  rw [State.capAppend_off hmode]
  dsimp only
  rw [State.capOn_zero hmode (by decide)]
  rfl

theorem State.capStep_off {ctx kind : Nat} {pieces : List (Nat × List Byte)} (hmode : s.csr.capMode = 0) :
    s.capStep ctx kind pieces = s := by
  have hpieces : pieces.foldl (fun (a : Bool × State) p =>
      let b := a.2.capPiece ctx kind p.1 p.2
      (a.1 || b.1, b.2)) (false, s) = (false, s) :=
    foldl_keeps (P := (· = (false, s))) rfl fun a p ha => by
      rw [ha, State.capPiece_off hmode]
      rfl
  unfold State.capStep
  rw [hpieces]
  rfl

theorem State.capLaunch_off {l : Launch} {r : List Byte} (hmode : s.csr.capMode = 0) : s.capLaunch l r = s := by
  unfold State.capLaunch
  dsimp only
  rw [State.capStep_off hmode, State.capStep_off hmode]
  exact foldl_keeps (P := (· = s)) rfl fun a i ha => by
    rw [ha]
    split
    · exact State.capStep_off hmode
    · rfl

/-! ### The lookups of CHECK (R357, R365) -/

theorem looked_touchVa (s : State) (ctx va n : Nat) : Looked s (s.touchVa ctx va n) :=
  looked_foldl _ (fun s i => by
    dsimp only
    split
    · split
      · exact looked_touch ..
      · rfl
    · rfl) _ _

theorem looked_touchPayload (s : State) (ctx : Nat) (r : List Byte) : Looked s (s.touchPayload ctx r) :=
  (((looked_touchVa ..).trans (looked_touchVa ..)).trans (looked_touchVa ..)).trans (looked_touchVa ..)

theorem looked_touchRecord (s : State) (q : Queue) : Looked s (s.touchRecord q) := looked_touch ..

theorem looked_touchCheck (s : State) (q : Queue) (passes : Bool) : Looked s (s.touchCheck q passes) := by
  unfold State.touchCheck
  dsimp only
  split
  · exact (looked_touchRecord ..).trans (looked_touchVa ..)
  · split
    · exact (looked_touchRecord ..).trans (looked_touchPayload ..)
    · exact looked_touchRecord ..

theorem State.carryOut_launch {l : Launch} (hverdict : s.verdict k q = .launch l) (hmode : s.csr.capMode = 0) :
    s.carryOut k q =
      { ({ s.touchCheck q true with nextId := (s.touchCheck q true).nextId + 1 } : State).advanceQueue k with
        launches := s.launches ++ [{ l with id := (s.touchCheck q true).nextId }] } := by
  have hlooked := looked_touchCheck s q true
  have hmode' : (s.touchCheck q true).csr.capMode = 0 := by rw [hlooked]; exact hmode
  have hlaunches : (s.touchCheck q true).launches = s.launches := by rw [hlooked]
  have hcapture := State.capLaunch_off (s := { s.touchCheck q true with nextId := (s.touchCheck q true).nextId + 1 }) (l := l)
    (r := s.recordAt q) hmode'
  have hcarry : s.carryOut k q = (fun u : State =>
      ({ u.advanceQueue k with launches := u.launches ++ [{ l with id := (s.touchCheck q true).nextId }] } : State))
      (State.capLaunch { s.touchCheck q true with nextId := (s.touchCheck q true).nextId + 1 } l (s.recordAt q)) := by
    unfold State.carryOut
    rw [hverdict]
    rfl
  rw [hcarry, hcapture, ← hlaunches]

/-- A launch that a replay holds back is not taken in turn. -/
theorem State.firstReady_of_held (hq : s.queues[k]? = some q) (hverdict : s.verdict k q = .held) : s.firstReady k = false := by
  unfold State.firstReady State.recordReady
  rw [hq]
  dsimp only
  rw [hverdict]
  simp only [Bool.and_false, Bool.false_and]

theorem exec_recordCheck_held (hrun : s.stopped = false) (hq : s.queues[k]? = some q) (hvalid : q.valid = true) (hen : q.en = true)
    (hstate : q.state = 1) (hverdict : s.verdict k q = .held) :
    exec (.recordCheck k) s = .next (s.capWait (isLaunchRecord q.ctx.toNat)) := by
  have hheld : s.heldLaunch k q = true := by
    unfold State.heldLaunch
    rw [hverdict]
  show execRecordCheck k s = _
  unfold execRecordCheck
  rw [hq]
  dsimp only
  rw [State.schedules_of_running hrun, State.firstReady_of_held hq hverdict, hvalid, hen, hstate, hheld]
  rfl

/-! ### WAIT records (R330) -/

theorem exec_waitRecordPoll (hrun : s.stopped = false) (hq : s.queues[k]? = some q) :
    exec (.waitRecordPoll k) s = .next (s.pollWait k) := by
  show execWaitRecordPoll k s = _
  unfold execWaitRecordPoll
  rw [hq]
  dsimp only
  rw [State.schedules_of_running hrun]
  rfl

section
variable (hq : s.queues[k]? = some q) (hvalid : q.valid = true) (hen : q.en = true) (hstate : q.state = 2)
include hq hvalid hen hstate

theorem State.pollWait_eq : s.pollWait k = ((s.readVa q.ctx.toNat (leAt (s.recordAt q) 80 8) 8).map fun w =>
    if leAt (s.recordAt q) 88 8 ≤ leNat w then (s.touchVa q.ctx.toNat (leAt (s.recordAt q) 80 8) 8).advanceQueue k
    else s.touchVa q.ctx.toNat (leAt (s.recordAt q) 80 8) 8).getD (s.haltQueue k 5) := by
  have hwaits : (q.valid && q.en && decide (q.state = 2)) = true := by rw [hvalid, hen, hstate]; rfl
  unfold State.pollWait
  rw [hq]
  dsimp only
  rw [if_pos hwaits]
  cases s.readVa q.ctx.toNat (leAt (s.recordAt q) 80 8) 8 with
  | none => rfl
  | some w =>
    rw [Option.map_some, Option.getD_some]

end

/-! ## Launches (R334, R335, R342, R343) -/

theorem exec_combAdmit {l : Nat} {x : Launch} {t : Tenant} (hrun : s.stopped = false) (hx : s.launch? l = some x)
    (hstate : x.state = .admission) (ht : s.tenants[s.tenantOf x.ctx]? = some t) (hrbusy : t.rbusy = false) :
    exec (.combAdmit l) s = .next
      ((if x.coop then State.admitAll l (x.combs - x.nextComb) s else s.admitComb x fun _ _ => true).getD s) := by
  show execCombAdmit l s = _
  unfold execCombAdmit
  rw [hx]
  dsimp only
  rw [State.schedules_of_running hrun, hstate, ht, Option.map_some, hrbusy]
  rfl

theorem State.admitComb_any {x : Launch} {col : Nat} {slots : List Nat} (hslots : s.saveSlots x x.combBlocks = some slots)
    (hcol : s.prefer x.ac ((s.columnsOf (s.tenantOf x.ctx)).filter (s.qualifies x)) = some col) :
    (s.admitComb x fun _ _ => true) = some (s.placeComb x col slots) := by
  unfold State.admitComb
  simp only [Bool.and_true, hslots, hcol]

theorem exec_launchFlushDone {l : Nat} {x : Launch} {u : State} (hrun : s.stopped = false) (hx : s.launch? l = some x)
    (hstate : x.state = .flush) (hflushed : s.flushed l = true) (hmsix : x.wantsMsix = false)
    (hu : u = (let s1 := s.updCtx x.ctx fun c => { c with eLast := BitVec.ofNat 64 x.energy }
      if x.signal then ((s1.signalStore x).map State.pollWaits).getD (s1.haltQueue x.queue 10) else s1)) :
    exec (.launchFlushDone l) s = .next
      ({ u with windows := u.windows.filter fun (w : FrameWin) => w.launch ≠ l }.updLaunch l
        fun y => { y with state := .done, consts := .empty, overlay0 := [] }) := by
  show execLaunchFlushDone l s = _
  unfold execLaunchFlushDone
  rw [hx]
  dsimp only
  rw [State.schedules_of_running hrun, hstate, hflushed, hmsix, hu]
  rfl

/-- No PAGE event for a block's slot waits or is to be answered. -/
theorem State.no_slotEvent {x : Block} (h : ∀ d ∈ s.waiting ++ s.events, d.block = x.id → d.cause ≠ .page) :
    ((s.waiting ++ s.events).any fun e => e.block = x.id && e.cause = .page && e.lanes.isEmpty) = false := by
  refine List.any_eq_false.2 fun d hd hpage => ?_
  simp only [Bool.and_eq_true, decide_eq_true_eq] at hpage
  obtain ⟨⟨hblock, hcause⟩, -⟩ := hpage
  exact h d hd hblock hcause

/-! ## Residency (R338) -/

/-- No candidate that goes before a block waits for one of its cores. -/
theorem State.all_behind {b : Nat} {x : Block}
    (hfirst : ∀ y ∈ s.blocks, y.id ≠ b → s.wantsIn y = true → y.shares x = true → s.blockFits y = true → s.inMask y = true →
      s.goesBefore y x = false) :
    (s.blocks.all fun y =>
      y.id = b || !(s.wantsIn y && y.shares x && s.blockFits y && s.inMask y && s.goesBefore y x)) = true := by
  refine List.all_eq_true.2 fun y hy => ?_
  rw [Bool.or_eq_true, decide_eq_true_eq, Bool.not_eq_true', ← Bool.not_eq_true]
  refine or_iff_not_imp_left.2 fun hother hbefore => ?_
  simp only [Bool.and_eq_true] at hbefore
  obtain ⟨⟨⟨⟨hwants, hshares⟩, hfits⟩, hmask⟩, hbefore⟩ := hbefore
  exact absurd hbefore (by simp [hfirst y hy hother hwants hshares hfits hmask])

section
variable {b : Nat} {x : Block} (hrun : s.stopped = false) (hx : s.block? b = some x)
include hrun hx

section
variable (hwants : s.wantsIn x = true) (hfits : s.blockFits x = true) (hmask : s.inMask x = true)
  (hfirst : ∀ y ∈ s.blocks, y.id ≠ b → s.wantsIn y = true → y.shares x = true → s.blockFits y = true → s.inMask y = true →
    s.goesBefore y x = false)
include hwants hfits hmask hfirst

theorem exec_blockSwitchIn (hslot : x.inSlot = false ∨ s.slotFault x false = none) :
    exec (.blockSwitchIn b) s = .next ((if x.inSlot then s.readSlot x else s).makeResident b) := by
  have hnone : (if x.inSlot then s.slotFault x false else none) = none := by
    split
    · next hin => exact hslot.resolve_left (by simp [hin])
    · rfl
  show execBlockSwitchIn b s = _
  unfold execBlockSwitchIn
  rw [hx]
  dsimp only
  rw [State.schedules_of_running hrun, hwants, hfits, hmask, State.all_behind hfirst, hnone]
  rfl

theorem exec_blockSwitchIn_fault {va : Nat} (hin : x.inSlot = true) (hfault : s.slotFault x false = some va) :
    exec (.blockSwitchIn b) s = .next (s.slotPark x 0 va false) := by
  show execBlockSwitchIn b s = _
  unfold execBlockSwitchIn
  rw [hx]
  dsimp only
  rw [State.schedules_of_running hrun, hwants, hfits, hmask, State.all_behind hfirst, hin, hfault]
  rfl

end

theorem exec_blockSwitchOut {y : Block} {l : Launch} (hstate : x.state = .resident) (hl : s.launch? x.launch = some l)
    (hcoop : l.coop = false) (hwait : x.allWait = true) (hidle : 1000 ≤ x.idle) (hy : y ∈ s.blocks) (hother : y.id ≠ b)
    (hwants : s.wantsIn y = true) (hshares : y.shares x = true) :
    exec (.blockSwitchOut b) s = .next (s.updBlock b fun x =>
      { x with
        state := .inactive
        heldOn := x.groups.zipIdx.map fun (g : Group × Nat) => (g.2, g.1.stuckLanes)
        groups := x.groups.map fun g => { g with units := [] } }) := by
  have hsome : (s.blocks.any fun y => y.id ≠ b && s.wantsIn y && y.shares x) = true :=
    List.any_eq_true.2 ⟨y, hy, by simp [hother, hwants, hshares]⟩
  show execBlockSwitchOut b s = _
  unfold execBlockSwitchOut
  rw [hx]
  dsimp only
  rw [State.schedules_of_running hrun, hstate, hl, Option.map_some, Option.getD_some, hcoop, hwait, decide_eq_true hidle, hsome]
  rfl

/-! ## Saves (R320, R336) -/

section
variable {p : Part} (hp : x.part k = some p)
include hp

theorem exec_partSaveDone_queued (hqueued : p.queued = true) : exec (.partSaveDone b k) s = .next s.nextSave := by
  have hpart : s.partAt (b, k) = some p := by rw [State.partAt, hx]; exact hp
  show execPartSaveDone b k s = _
  unfold execPartSaveDone
  rw [hx, hpart]
  dsimp only
  rw [hqueued, State.schedules_of_running hrun]
  rfl

section
variable (hqueued : p.queued = false) (hstate : p.state = .saving) (hlives : x.lives = true) (hdrained : s.drained x k p = true)
include hqueued hstate hlives hdrained

theorem exec_partSaveDone {u : State} (hfault : s.slotFault x true = none)
    (hu : u = ({ (s.carryMarks b k).fillSlot x with
        cmds := s.cmds.map fun c => if c.block = b ∧ c.part = k ∧ c.kind ≠ .coll ∧ c.state = .running then c.rollBack else c
        acmReqs := s.acmReqs.filter fun r => ¬ (r.block = b ∧ r.part = k ∧ r.exact.isSome = true)
        acmLeft := s.acmLeft ++ p.held.map fun (g : Nat × Nat) => (p.core, g.1, g.2) } : State).updBlock b (fun y =>
      let own (q : Part) := q.held.filter fun h => !(q.spilled.any fun e => e.1 = h.1 && e.2.1.contains h.2)
      let ps := updAt y.parts k fun (q : Part) => { q with state := .saved, held := [], spilled := q.spilled ++ savedGranules (own q) }
      { y with
        groups := y.groups.zipIdx.map fun (z : Group × Nat) => if y.partOf z.2 = k then { z.1 with burn := none, shunt := none } else z.1
        parts := ps, state := if ps.any Part.onCore then y.state else .saved })) :
    exec (.partSaveDone b k) s = .next
      (let v := u.postPart .saved (s.ctxOfLaunch x.launch) p.sel
       (if x.preempted then v.beginRestore (b, k) 48 else v).nextSave) := by
  have hpart : s.partAt (b, k) = some p := by rw [State.partAt, hx]; exact hp
  have hroll : (fun c : Cmd => if c.block = b ∧ c.part = k ∧ c.kind ≠ .coll ∧ c.state = .running then c.rollBack else c) =
      fun c => if c.block = b && c.part = k && c.kind ≠ .coll && c.state = .running then c.rollBack else c :=
    funext fun c => if_congr (by simp [and_assoc]) rfl rfl
  have hreqs : (fun r : AcmReq => decide ¬ (r.block = b ∧ r.part = k ∧ r.exact.isSome = true)) =
      fun r => !(r.block = b && r.part = k && r.exact.isSome) :=
    funext fun r => by rw [Bool.eq_iff_iff]; simp [or_assoc]
  rw [hu, hroll, hreqs]
  show execPartSaveDone b k s = _
  unfold execPartSaveDone
  rw [hx, hpart]
  dsimp only
  rw [hqueued, hstate, hlives, State.schedules_of_running hrun, hdrained, hfault]
  rfl

theorem exec_partSaveDone_fault {va : Nat} {l : Launch} {e : Event} (hl : s.launch? x.launch = some l)
    (hfault : s.slotFault x true = some va) (hnone : ∀ d ∈ s.waiting ++ s.events, d.block = x.id → d.cause ≠ .page)
    (he : e = { cause := .page, parked := true, savedPart := false, ctx := l.ctx, tpart := s.tenantOf l.ctx, blkWord := x.eventWord k 0
                blkIdx := BitVec.ofNat 32 x.index, trapIp := Config.freeValue s.fresh, info := trapInfo false 0 (va % 2 ^ 52 + 2 ^ 52)
                extra := [], block := x.id, lanes := [], pair := false, answer := none, seq := 0 }) :
    exec (.partSaveDone b k) s = .next { s with fresh := s.fresh + 1, waiting := s.waiting ++ [e] } := by
  have hpart : s.partAt (b, k) = some p := by rw [State.partAt, hx]; exact hp
  have hpark : s.slotPark x k va true = { s with fresh := s.fresh + 1, waiting := s.waiting ++ [e] } := by
    have hwrite : b2n true * 2 ^ 52 = 2 ^ 52 := by decide
    unfold State.slotPark
    rw [State.no_slotEvent hnone, hl, hwrite, he]
    rfl
  show execPartSaveDone b k s = _
  unfold execPartSaveDone
  rw [hx, hpart]
  dsimp only
  rw [hqueued, hstate, hlives, State.schedules_of_running hrun, hdrained, hfault, ← hpark]
  rfl

end

/-! ## Restores (R322) -/

section
variable {l : Launch} {c : Nat} (hl : s.launch? x.launch = some l) (hstate : p.state = .restoring c) (hlives : x.lives = true)
include hl hstate hlives

theorem exec_partRestoreDone_column {col : Nat} (hc : 48 ≤ c) (hpreempted : x.preempted = false)
    (hcol : s.chooseColumn (b, k) = some col) :
    exec (.partRestoreDone b k) s = .next (s.updPart b k fun q => { q with state := .restoring col }) := by
  have hpart : s.partAt (b, k) = some p := by rw [State.partAt, hx]; exact hp
  show execPartRestoreDone b k s = _
  unfold execPartRestoreDone
  rw [hpart, hx, Option.bind_some, hl]
  dsimp only
  rw [hstate]
  dsimp only
  rw [State.schedules_of_running hrun, hlives, if_neg (by decide), if_pos hc, hpreempted, hcol]
  rfl

theorem exec_partRestoreDone {slot : Nat} (hc : c < 48) (hslot : s.freeSlot (coreAt c (layerOf p.core)) = some slot)
    (hback : p.granulesBack = true) (hframes : s.framesFree l (coreAt c (layerOf p.core)) = true)
    (hcol : c ∈ s.columnsOf (s.tenantOf l.ctx)) (hfault : s.slotFault x false = none) :
    exec (.partRestoreDone b k) s = .next
      ((((s.readSlot x).putBack b k l (coreAt c (layerOf p.core)) slot).applyRecorded b).postPart .restored l.ctx p.sel) := by
  have hpart : s.partAt (b, k) = some p := by rw [State.partAt, hx]; exact hp
  show execPartRestoreDone b k s = _
  unfold execPartRestoreDone
  rw [hpart, hx, Option.bind_some, hl]
  dsimp only
  rw [hstate]
  dsimp only
  rw [State.schedules_of_running hrun, hlives, if_neg (by decide), if_neg (Nat.not_le.2 hc), hslot]
  dsimp only
  rw [hback, hframes, List.contains_iff_mem.2 hcol, hfault]
  rfl

end
end
end

/-! ## Pre-emption (R339) -/

theorem exec_prio7Preempt {l col : Nat} {x : Launch} {b : Block} (hrun : s.stopped = false) (hx : s.launch? l = some x)
    (hstate : x.state = .admission) (hq : s.queues[x.queue]? = some q) (hprio : q.prio = 7) (htime : x.waiting + 20000 ≤ s.ftime)
    (hstuck : s.stuckInAdmit x = true)
    (hidle : ∀ b ∈ s.blocks, b.preempted = true → b.lives = true → ∀ p ∈ b.parts, p.queued = true ∨ p.state = .saving →
      columnOf p.core ≠ col)
    (hcol : col ∈ s.columnsOf (s.tenantOf x.ctx)) (hemptying : x.emptying = none ∨ x.emptying = some col)
    (hvictim : s.preemptVictim (s.tenantOf x.ctx) col = some b) :
    exec (.prio7Preempt l col) s = .next
      (((s.updBlock b.id fun y => { y with preempted := true }).updLaunch l fun y =>
          { y with emptying := some col }).queueSaves ((List.range b.parts.length).map fun k => (b.id, k))
        (fun k => ((b.part k.2).map fun (p : Part) => selFor (s.ctxOfLaunch b.launch) p.core p.slot k.2).getD 0)
        (BitVec.ofNat 32 x.ctx)) := by
  have hbusy : (s.blocks.any fun b => b.preempted && b.lives && b.parts.any fun q =>
      (q.queued || q.state = .saving) && columnOf q.core = col) = false := by
    refine List.any_eq_false.2 fun y hy hsaving => ?_
    simp only [Bool.and_eq_true, List.any_eq_true, Bool.or_eq_true, decide_eq_true_eq] at hsaving
    obtain ⟨⟨hpreempted, hlives⟩, p, hp, hpart, hcolumn⟩ := hsaving
    exact hidle y hy hpreempted hlives p hp hpart hcolumn
  have hsame : x.emptying.getD col = col := by
    rcases hemptying with h | h <;> rw [h] <;> rfl
  show execPrio7Preempt l col s = _
  unfold execPrio7Preempt
  rw [hx]
  dsimp only
  rw [hbusy, State.schedules_of_running hrun, hstate, hq, Option.map_some, Option.getD_some, hprio, decide_eq_false (Nat.not_lt.2 htime),
    hstuck, List.contains_iff_mem.2 hcol, hsame, hvictim, if_neg (by simp)]

/-! ## The event queue (R308, R309) -/

/-- Events can be posted, and no event of an event's block waits before it. -/
theorem eventPost_open {e : Event} (hen : s.csr.evqEn = true) (hpower : s.powerOff = none)
    (hfirst : ∀ d ∈ s.waiting.take k, e.block = 0 ∨ d.block ≠ e.block) :
    (!s.csr.evqEn || s.powerOff.isSome || (s.waiting.take k).any fun d => e.block ≠ 0 && d.block = e.block) = false := by
  have hnone : ((s.waiting.take k).any fun d => e.block ≠ 0 && d.block = e.block) = false := by
    refine List.any_eq_false.2 fun d hd hsame => ?_
    simp only [Bool.and_eq_true, decide_eq_true_eq] at hsame
    obtain ⟨hblock, hsame⟩ := hsame
    exact (hfirst d hd).elim hblock fun hne => hne hsame
  rw [hen, hpower, hnone]
  rfl

section
variable {e : Event} (he : s.waiting[k]? = some e) (hen : s.csr.evqEn = true) (hpower : s.powerOff = none)
  (hfirst : ∀ d ∈ s.waiting.take k, e.block = 0 ∨ d.block ≠ e.block)
include he hen hpower hfirst

theorem exec_eventPost_full (hfull : evqEntries s.csr.evqSize.toNat ≤ (s.csr.evqHead - s.csr.evqTail).toNat) :
    exec (.eventPost k) s = .next (({ s with csr := { s.csr with evqOvf := true } } : State).setPend 8) := by
  show execEventPost k s = _
  unfold execEventPost
  rw [he]
  dsimp only
  rw [eventPost_open hen hpower hfirst, if_neg (by decide), if_pos hfull]

theorem exec_eventPost {e' : Event} (hold : s.csr.evqOld = [])
    (hroom : (s.csr.evqHead - s.csr.evqTail).toNat < evqEntries s.csr.evqSize.toNat)
    (hmem : s.csr.evqBase.toNat + 64 * (s.csr.evqHead.toNat % evqEntries s.csr.evqSize.toNat) + 64 ≤ hbmSize)
    (he' : e' = { e with seq := s.evSeq, savedPart := ((s.block? e.block).map Block.partAway).getD false }) :
    exec (.eventPost k) s = .next { s with
      mem := s.mem.setBytes (s.csr.evqBase.toNat + 64 * (s.csr.evqHead.toNat % evqEntries s.csr.evqSize.toNat))
        (e'.bytes s.ftime s.evSeq (Config.freeValue (s.fresh + 1)))
      snoop := s.snoop.filter fun u => u ≠ (s.csr.evqBase.toNat + 64 * (s.csr.evqHead.toNat % evqEntries s.csr.evqSize.toNat)) / 64 * 64
      fresh := s.fresh + 2
      csr := { s.csr with evqHead := s.csr.evqHead + 1 }
      evSeq := (s.evSeq + 1) % 2 ^ 32
      waiting := s.waiting.eraseIdx k
      events := if e.parked then s.events ++ [e'] else s.events } := by
  have harea (n : Nat) (a : Nat × Nat) : (oneOf n (a :: s.csr.evqOld)).getD a = a := by
    rw [hold]
    rfl
  show execEventPost k s = _
  unfold execEventPost
  rw [he]
  dsimp only
  rw [eventPost_open hen hpower hfirst, if_neg (by decide), if_neg (Nat.not_le.2 hroom), harea, if_pos hmem, he']
  rfl

end

/-! ## Answers (R310) -/

/-- The requests of the lanes that an event concerns are over, whether there were any or not. -/
theorem State.dropRequests_eq (s : State) (e : Event) : s.dropRequests e =
    s.setRequests (s.fabric.requests.filter fun r => !(r.block = e.block && e.lanes.any fun l => l.1 = r.group && l.2.getLsbD r.lane)) := by
  unfold State.dropRequests
  split
  · next hnone =>
    obtain hnone := List.isEmpty_iff.1 hnone
    rw [hnone, List.filter_nil, ← hnone]
    rfl
  · rfl

/-- An event of a block in its cores is answered at once. -/
theorem State.answer_here {seq : Nat} {hyper : Bool} {e : Event} {a : Answer} (he : s.answerable seq hyper = some e)
    (hhere : s.eventAway e = false) :
    s.answer seq a hyper = ({ s with events := s.events.erase e } : State).applyAnswer { e with answer := some a } := by
  unfold State.answer
  rw [he]
  dsimp only
  rw [hhere]
  rfl

section
variable {e : Event} {a : Answer} {rs : List Request}
  (hrs : rs = s.fabric.requests.filter fun r => !(r.block = e.block && e.lanes.any fun l => l.1 = r.group && l.2.getLsbD r.lane))
include hrs

theorem State.dropRequests_answered :
    ({ s with events := s.events.erase e } : State).dropRequests { e with answer := some a } =
      ({ s with events := s.events.erase e } : State).setRequests rs := by
  rw [State.dropRequests_eq, hrs]

section
variable {seq : Word} (he : s.answerable seq.toNat s.isHyper = some e) (hhere : s.eventAway e = false)
include he hhere

theorem exec_blkctlResume {u : State} (hu : u = ({ s with events := s.events.erase e } : State).setRequests rs) :
    exec (.blkctlResume seq) s = .next
      (if e.pair then e.lanes.foldl (fun (s : State) x => s.updGroup (.unit e.block x.1 0) fun g =>
        (lanesOf x.2).foldl (fun g l => g.updThread l fun t => { t with again := true }) g) u else u) := by
  show Host.Outcome.next (s.answer seq.toNat .resume s.isHyper) = _
  rw [State.answer_here he hhere, State.applyAnswer, State.dropRequests_answered hrs, hu]
  rfl

theorem exec_blkctlSkip : exec (.blkctlSkip seq) s = .next (e.lanes.foldl (fun (s : State) x => s.skipLanes e.block x.1 x.2 e.pair)
    (({ s with events := s.events.erase e } : State).setRequests rs)) := by
  show Host.Outcome.next (s.answer seq.toNat .skip s.isHyper) = _
  rw [State.answer_here he hhere, State.applyAnswer, State.dropRequests_answered hrs]

theorem exec_blkctlKill : exec (.blkctlKill seq) s =
    .next ((({ s with events := s.events.erase e } : State).setRequests rs).killBlock e.block) := by
  show Host.Outcome.next (s.answer seq.toNat .kill s.isHyper) = _
  rw [State.answer_here he hhere, State.applyAnswer, State.dropRequests_answered hrs]

end
end

end Sys2Proof.Machine

open Sys2Proof Sys2Proof.Machine

/-- Settles O49: each row by the lemma of its clause. -/
theorem theSchedulerProceeds : Obligations.TheSchedulerProceeds := by
  unfold Obligations.TheSchedulerProceeds
  refine ⟨?doorbell, ?resume, ?refused, ?passed, ?waits, ?launch, ?held, ?reached, ?fault, ?stillWaits, ?comb, ?combs, ?flushed, ?switchIn,
    ?switchInFault, ?switchOut, ?saved, ?queued, ?slotFault, ?column, ?restored, ?preempted, ?posted, ?full, ?resumed, ?skipped, ?killed⟩
  case doorbell => exact fun s host k tail q hq hfrozen hmay => exec_queueDoorbell hq hfrozen hmay
  case resume => exact fun s host k q hq hfrozen hmay hstate => exec_queueResume hq hfrozen hmay hstate
  case refused =>
    exact fun s k code q hrun hq hfirst hverdict hvector =>
      (exec_recordCheck hrun hq hfirst).trans (congrArg _ (State.carryOut_refuse hverdict hvector))
  case passed =>
    exact fun s k q hrun hq hfirst hverdict => (exec_recordCheck hrun hq hfirst).trans (congrArg _ (State.carryOut_nop hverdict))
  case waits =>
    exact fun s k q hrun hq hfirst hverdict => (exec_recordCheck hrun hq hfirst).trans (congrArg _ (State.carryOut_waiting hverdict))
  case launch =>
    intro s k q l u hrun hq hfirst hverdict hmode hu
    rw [hu]
    exact (exec_recordCheck hrun hq hfirst).trans (congrArg _ (State.carryOut_launch hverdict hmode))
  case held => exact fun s k q hrun hq hvalid hen hstate hverdict => exec_recordCheck_held hrun hq hvalid hen hstate hverdict
  case reached =>
    intro s k q w hrun hq hvalid hen hstate hw hreached
    rw [exec_waitRecordPoll hrun hq, State.pollWait_eq hq hvalid hen hstate, hw, Option.map_some, Option.getD_some, if_pos hreached]
  case fault =>
    intro s k q hrun hq hvalid hen hstate hw
    rw [exec_waitRecordPoll hrun hq, State.pollWait_eq hq hvalid hen hstate, hw, Option.map_none, Option.getD_none]
  case stillWaits =>
    intro s k q w hrun hq hvalid hen hstate hw hbelow
    rw [exec_waitRecordPoll hrun hq, State.pollWait_eq hq hvalid hen hstate, hw, Option.map_some, Option.getD_some,
      if_neg (Nat.not_le.2 hbelow)]
  case comb =>
    intro s l col x t slots hrun hx hstate hcoop ht hrbusy hslots hcol
    rw [exec_combAdmit hrun hx hstate ht hrbusy, hcoop, if_neg Bool.false_ne_true, State.admitComb_any hslots hcol, Option.getD_some]
  case combs =>
    intro s l x t u hrun hx hstate hcoop ht hrbusy hadmit
    rw [exec_combAdmit hrun hx hstate ht hrbusy, hcoop, if_pos rfl, hadmit, Option.getD_some]
  case flushed => exact fun s l x u hrun hx hstate hflushed hmsix hu => exec_launchFlushDone hrun hx hstate hflushed hmsix hu
  case switchIn =>
    exact fun s b x hrun hx hwants hfits hmask hslot hfirst => exec_blockSwitchIn hrun hx hwants hfits hmask hfirst hslot
  case switchInFault =>
    exact fun s b va x hrun hx hwants hfits hmask hin hfault hfirst => exec_blockSwitchIn_fault hrun hx hwants hfits hmask hfirst hin hfault
  case switchOut =>
    exact fun s b x y l hrun hx hstate hl hcoop hwait hidle hy hother hwants hshares =>
      exec_blockSwitchOut hrun hx hstate hl hcoop hwait hidle hy hother hwants hshares
  case saved =>
    exact fun s b k x p u hrun hx hp hqueued hstate hlives hdrained hfault hu =>
      exec_partSaveDone hrun hx hp hqueued hstate hlives hdrained hfault hu
  case queued => exact fun s b k x p hrun hx hp hqueued => exec_partSaveDone_queued hrun hx hp hqueued
  case slotFault =>
    exact fun s b k va x p l e hrun hx hp hl hqueued hstate hlives hdrained hfault hnone he =>
      exec_partSaveDone_fault hrun hx hp hqueued hstate hlives hdrained hl hfault hnone he
  case column =>
    exact fun s b k c col x p l hrun hx hp hl hstate hc hlives hpreempted hcol =>
      exec_partRestoreDone_column hrun hx hp hl hstate hlives hc hpreempted hcol
  case restored =>
    exact fun s b k c slot x p l hrun hx hp hl hstate hc hlives hslot hback hframes hcol hfault =>
      exec_partRestoreDone hrun hx hp hl hstate hlives hc hslot hback hframes hcol hfault
  case preempted =>
    exact fun s l col x q b hrun hx hstate hq hprio htime hstuck hidle hcol hemptying hvictim =>
      exec_prio7Preempt hrun hx hstate hq hprio htime hstuck hidle hcol hemptying hvictim
  case posted =>
    exact fun s k e e' he hen hpower hold hfirst hroom hmem he' => exec_eventPost he hen hpower hfirst hold hroom hmem he'
  case full => exact fun s k e he hen hpower hfirst hfull => exec_eventPost_full he hen hpower hfirst hfull
  case resumed => exact fun s seq e rs u he hhere hrs hu => exec_blkctlResume hrs he hhere hu
  case skipped => exact fun s seq e rs he hhere hrs => exec_blkctlSkip hrs he hhere
  case killed => exact fun s seq e rs he hhere hrs => exec_blkctlKill hrs he hhere

end
